-- ==== Sys2Proof/Word.lean ====
section
/-!
DEFINITION. The words the AM3200 is built from and their plainest arithmetic: 32-bit register words, bytes, lanes,
saturation, two's complement, rounding. Energy is in mWh and power in W unless a name says otherwise (R4).
-/

namespace Sys2Proof

/-- A 32-bit register word. -/
abbrev Word := BitVec 32

/-- A byte of memory or of a message. -/
abbrev Byte := BitVec 8

/-- A lane number, L00 to L31 (R6). -/
abbrev Lane := Fin 32

/-- A set of lanes, bit n for lane n. -/
abbrev LaneSet := BitVec 32

/-- The value `v` read as a `bits`-wide two's complement number (R2). -/
def signedOf (bits v : Nat) : Int :=
  if v % 2 ^ bits < 2 ^ (bits - 1) then (v % 2 ^ bits : Nat) else ((v % 2 ^ bits : Nat) : Int) - (2 ^ bits : Nat)

/-- The `bits`-wide two's complement code of `v` (R2), taken modulo 2^bits. -/
def codeOf (bits : Nat) (v : Int) : Nat := (v % ((2 ^ bits : Nat) : Int)).toNat

/-- `v` held to the closed range from `lo` to `hi`. -/
def clampInt (lo hi v : Int) : Int := if v < lo then lo else if hi < v then hi else v

/-- `v` held to at most `m`: a saturating unsigned register. -/
def satNat (m v : Nat) : Nat := if m < v then m else v

/-- `v` held to the range of a `bits`-wide two's complement register. -/
def satSigned (bits : Nat) (v : Int) : Int := clampInt (-((2 ^ (bits - 1) : Nat) : Int)) ((2 ^ (bits - 1) : Nat) - 1) v

/-- The size of `v`. -/
def absNat (v : Int) : Nat := v.natAbs

/-- Round-to-nearest quotient, halves away from zero. -/
def roundDiv (a : Int) (b : Nat) : Int :=
  if b = 0 then 0 else if 0 ≤ a then ((2 * a.toNat + b) / (2 * b) : Nat) else -(((2 * (-a).toNat + b) / (2 * b) : Nat) : Int)

/-- One Newton step of the integer square root of `n`. -/
def isqrtStep (n x : Nat) : Nat := if x = 0 then 0 else (x + n / x) / 2

/-- Newton steps downwards until they stop falling. -/
def isqrtGo : Nat → Nat → Nat → Nat
  | 0, _, x => x
  | f + 1, n, x => if isqrtStep n x < x then isqrtGo f n (isqrtStep n x) else x

/-- The integer square root: the largest `r` with `r * r ≤ n`, for any `n` a register can hold. -/
def isqrt (n : Nat) : Nat := if n = 0 then 0 else isqrtGo 256 n (2 ^ (n.log2 / 2 + 1))

/-- Bit `i` of `v`. -/
def bitOf (v i : Nat) : Bool := v / 2 ^ i % 2 = 1

/-- 1 for true, 0 for false. -/
def b2n (b : Bool) : Nat := if b then 1 else 0

end Sys2Proof
end

