-- ==== Sys2Proof/Syntax.lean ====
section
/-!
DEFINITION. The commands of the block: one constructor of `Instr` per row of spec/opcode_table.json, with the row's
operands (what arrives on a pin, a link, a bus or a register write), and the operand types.
-/

namespace Sys2Proof

/-- One decimated sample of a stream in a sample tick (R98, R100): the 24-bit signed sample, and whether every bit
captured in the tick was the same (R113). -/
structure SampleIn where
  stream : Fin 96
  sample : BitVec 24
  stuck : Bool
  deriving DecidableEq, Repr

/-- One drive-current sample of a DC lane, in nA (R204, R209). -/
structure DriveIn where
  lane : Lane
  na : Int
  deriving DecidableEq, Repr

/-- Which of the ticks that start at the edge will not end their work by their next edge (R54). -/
structure Overruns where
  frame : Bool := false
  second : Bool := false
  deriving DecidableEq, Repr

/-- What a safety channel received of a lane from the core die (R16, R274): its current and voltage and its earth-fault verdict, each
with its complement. -/
structure LaneCopy where
  cur : Word
  curN : Word
  volt : Word
  voltN : Word
  verd : Byte
  verdN : Byte
  deriving DecidableEq, Repr

/-- A decision record of a safety channel (R278): close and unlock consents, pilot forces to state F and to off, the safe-state flag
and its causes in the order of SAF_STAT, the SO pairs, the set retired by a weld, the outgoing safety state. -/
structure Decision where
  close : LaneSet
  unlock : LaneSet
  forceF : LaneSet
  forceOff : LaneSet
  safe : Bool
  causes : BitVec 6
  so : BitVec 2
  weld : LaneSet
  state : Nat
  hops : Nat
  origin : Nat
  deriving DecidableEq, Repr

/-- What comes of a channel's decisions in a frame: a record as the rules decide, none by the time of R278 (its decisions are still
those of the rules), or another record, which the channel then drives. -/
inductive ChanRecord where
  | asRuled | missing | decided (d : Decision)
  deriving DecidableEq, Repr

/-- An input of the device that changed since the last edge and is latched at it. Voltages in mV, currents in mA, pilot
plateaus in 10 mV, temperatures in 1/16 °C. -/
inductive PinChange where
  /-- Resistance at a lane's PP ball, in Ω (R180). -/
  | pp (n : Lane) (ohms : Nat)
  /-- Mirror contacts CFA and CFB of a lane: closed or open (R14). -/
  | mirrorA (n : Lane) (closed : Bool)
  | mirrorB (n : Lane) (closed : Bool)
  /-- Current of a contactor channel and a lock channel in mA, and of a general channel in µA. -/
  | ccCurrent (n : Lane) (ma : Nat)
  | lkCurrent (n : Lane) (ma : Nat)
  | genCurrent (k : Fin 32) (ua : Nat)
  /-- The supplies VIN_AUX, VPIL_P and VPIL_M, in mV. -/
  | vinAux (mv : Int)
  | vpilP (mv : Int)
  | vpilM (mv : Int)
  /-- PFW_L of the mains monitor: held low or not (R168). -/
  | pfw (low : Bool)
  /-- The backup cell VBAK, in mV. -/
  | vbak (mv : Int)
  /-- Field-die temperature. -/
  | fieldTemp (t16 : Int)
  /-- Guard halves GDkA and GDkB: closed or open. -/
  | guardA (k : Fin 8) (closed : Bool)
  | guardB (k : Fin 8) (closed : Bool)
  /-- B-channel oscillator error against the PLL, in ppm (R273). -/
  | bClock (ppm : Int)
  /-- The pilot high plateau of a lane as a channel's own link brought it, where it is not the one sampled (R274, R277). -/
  | plateauA (n : Lane) (v : Int)
  | plateauB (n : Lane) (v : Int)
  /-- What a channel received of a lane from the core die in this frame, where it is not what was sent (R16, R274). -/
  | copyA (n : Lane) (c : LaneCopy)
  | copyB (n : Lane) (c : LaneCopy)
  /-- What comes of a channel's decisions in this frame, where they are not those of the rules (R278). -/
  | recordA (r : ChanRecord)
  | recordB (r : ChanRecord)
  /-- The CRC a channel computed over the safety configuration (R301), where it is not the right one. -/
  | crcA (crc : Option Word)
  | crcB (crc : Option Word)
  deriving DecidableEq, Repr

/-- Who asks for a general channel (R261): a write of SWA_Gk_CTL, or the service image. -/
structure GenRequest where
  k : Fin 32
  image : Bool
  deriving DecidableEq, Repr

/-- Who sent an IEEE 1588 message (R342): its domain and its clock. -/
structure PtpSource where
  domain : Byte
  clock : BitVec 64
  deriving DecidableEq, Repr

/-- An access of the extension image (R424). -/
structure ExtAccess where
  write : Bool
  addr : Word
  deriving DecidableEq, Repr

/-- A host-port transaction (R352): the nibbles the host drove, and the clock cycles until HP_CS_L rose. -/
structure HostTxn where
  sent : List (BitVec 4)
  clocks : Nat
  deriving DecidableEq, Repr

/-- A public key on the curve P-384: the coordinates of its point. -/
structure P384Key where
  x : BitVec 384
  y : BitVec 384
  deriving DecidableEq, Repr

/-- An image bank as stage 0x3 reads it: its bytes (R373), and the keys that its loader and its service image carry at places the
spec does not give: the image key (R373) and the packing-list key (R82). -/
structure BankRead where
  bytes : List Byte
  imageKey : P384Key
  listKey : P384Key
  deriving DecidableEq, Repr

/-- What a verified image is (R358, R373): its measurements M1 to M3, version and security version, allocator version, whether it holds
an extension image, and the keys it carries. -/
structure BankImage where
  m1 : BitVec 256
  m2 : BitVec 256
  m3 : BitVec 256
  version : Word
  svn : Word
  allocVer : BitVec 16
  ext : Bool
  imageKey : P384Key
  listKey : P384Key
  deriving DecidableEq, Repr

/-- A packing-list record (R84). The spec gives no byte layout for the values of most types; the fields are those R84
lists. A LANE record's type is 0 unused, 1 DC, 2 AC single-phase, 3 AC three-phase: it then names the bonded group whose lead
lane it numbers (R29). `unreadable`: a value that is none of its type's; `unknown`: of no type of R84. -/
inductive PlRecord where
  | device (devid : BitVec 16) (zones : List (BitVec 16)) (allocVer : BitVec 16)
  | clocks (slowMclk : Bool) (source : Fin 8)
  | access (hostwr : BitVec 19) (wctl : List (Fin 19 × Word))
  | laneRec (num : Fin 32) (typ : Fin 4) (inom : BitVec 16) (headClass : Byte) (rcabLo rcabHi : Word)
  | moduleRec (num : Fin 128) (port : Fin 4) (addr : Byte) (ident : BitVec 64) (group : Fin 16) (pmax : Word)
  | gench (num cfg inr : Word)
  | bounds (spread ambient ampLo ampHi : Nat) (bandB : Bool) (limit : Nat)
  | preset (pairs : List (Word × Word))
  | tariff (value : List Byte)
  | policy (sealCal freeAuth localList fwAuth plainTls ownerLock : Bool) (gmin : List Word) (classes : List (List Byte × Fin 4))
  | unreadable
  | unknown
  deriving DecidableEq, Repr

/-- A packing-list copy as read from flash (R80): readable or not, its bytes, and what its records say, in their order, where the spec
gives a record type no byte layout (R84). -/
structure PlCopy where
  readable : Bool
  bytes : List Byte
  contents : List PlRecord
  deriving DecidableEq, Repr

/-- The five internal die links of R12. -/
inductive DieLink where
  | fieldService | aLink | bLink | thermos | hamper
  deriving DecidableEq, Repr

/-- One read of the cabinet sensor bus: the two bytes, or none when the sensor does not answer (R111). -/
structure SensorRead where
  sensor : Fin 64
  reading : Option (BitVec 16)
  deriving DecidableEq, Repr

/-- How a frame reached a lane's modem (R182): its mode, 0 MINI-ROBO, 1 STD-ROBO, 2 HS-ROBO, and how many frames with a bad
check came before it since the last good one. -/
structure ModemRx where
  robo : Fin 3
  bad : Byte
  deriving DecidableEq, Repr

/-- Where and how a frame arrived on a lane's pilot line (R182). -/
structure LineRx where
  lane : Lane
  rx : ModemRx
  deriving DecidableEq, Repr

/-- One sounding as a lane's modem received it (R183): its frame, and its attenuation in dB per carrier group. -/
structure LaneAtten where
  lane : Lane
  rx : ModemRx
  groups : List Byte
  deriving DecidableEq, Repr

/-- A protocol offered in SupportedAppProtocol: 1 DIN SPEC 70121, 2 ISO 15118-2, 3 ISO 15118-20; priority 1 is highest. -/
structure ProtoOffer where
  proto : Fin 4
  priority : Nat
  deriving DecidableEq, Repr

/-- The energy services a vehicle may ask for. -/
inductive EnergyService where
  | ac | dc | dcBpt | acBpt | other
  deriving DecidableEq, Repr

/-- What a vehicle states of itself in a message: 0.1 V, 0.1 A, W, %, wall seconds, Wh; a field it does not state is none. -/
structure EvValues where
  maxV : Option (BitVec 16) := none
  maxI : Option (BitVec 16) := none
  maxP : Option Word := none
  tgtV : Option (BitVec 16) := none
  tgtI : Option (BitVec 16) := none
  reqP : Option Word := none
  disP : Option Word := none
  soc : Option Byte := none
  depart : Option Word := none
  energy : Option Word := none
  deriving DecidableEq, Repr

/-- A protected channel (R251): a lane's contactor or lock channel, or a general channel. -/
inductive ChanId where
  | cc (n : Lane) | lk (n : Lane) | gen (k : Fin 32)
  deriving DecidableEq, Repr

/-- A current at a protected channel (R253): in mA, and how long it has lasted in µs. -/
structure Overcurrent where
  ch : ChanId
  ma : Nat
  us : Nat
  deriving DecidableEq, Repr

/-- A holder of a start booking (R247): a channel, or a card reader. -/
inductive BookId where
  | chan (c : ChanId) | reader (k : Fin 4)
  deriving DecidableEq, Repr



/-- One entry of a link report (R331): a neighbour the reporter hears, whether in the broadcast map, and the maps it chose. -/
structure SbLink where
  dev : Nat
  direct : Bool
  aMask : Nat
  aMode : Nat
  bMask : Nat
  bMode : Nat
  hasB : Bool
  deriving DecidableEq, Repr

/-- A link report (PROTO 7, R331): the reporter, whether it is a master candidate, whether its BOUNDS record allows band B, and
what it hears. The spec gives its contents and no byte layout. -/
structure SbReport where
  src : Nat
  cand : Bool
  bandB : Bool
  links : List SbLink
  deriving DecidableEq, Repr

/-- A member of a route table (R332): the devices that relay for it, in order, at most two. -/
structure SbMember where
  dev : Nat
  cand : Bool
  relays : List Nat
  deriving DecidableEq, Repr

/-- A ROUTE message (PROTO 5, R332): the tick it takes effect at, the table, and the broadcast map that goes with it (R331). -/
structure SbRoute where
  tick : Nat
  table : List SbMember
  bandB : Bool
  mask : Nat
  mode : Nat
  deriving DecidableEq, Repr

/-- How a command addresses the service tag (R402): to every tag, to a UID, or to the selected tag. -/
inductive TagAddr where
  | all | uid (u : BitVec 64) | selected
  deriving DecidableEq, Repr

/-- An IEEE 1588 Announce as received (R342): the clock it is of, and the fields the default best-master algorithm compares, most
significant first. -/
structure PtpAnnounce where
  clock : BitVec 64
  vector : List Nat
  deriving DecidableEq, Repr

/-- The commands of spec/opcode_table.json, in its order. -/
inductive Instr where
  /-- SAMPLE_TICK (R43): Every 62.5 µs the metrology engine decimates, calibrates and forms power for all 96 streams. -/
  | sampleTick (xs : List SampleIn) (ej : List DriveIn) (overrun : Bool)
  /-- CONTROL_FRAME_EDGE (R53): Every 1 ms the controller latches results, closes fences, commits strobes and starts the frame's work in the fixed order. -/
  | controlFrameEdge (inp : List PinChange) (ov : Overruns)
  /-- LAUNCH_EDGE (R52): An allocation tick starts on its control-frame edge, and the grants computed in the previous tick take effect. -/
  | launchEdge (inp : List PinChange) (ov : Overruns)
  /-- LEDGER_SECOND_EDGE (R159): On each whole second of site time the ledger second is closed, entries are written and a hamper save starts. -/
  | ledgerSecondEdge (inp : List PinChange) (ov : Overruns)
  /-- TARIFF_INTERVAL_EDGE (R150): At the first control-frame edge at or after a tariff interval boundary, the interval closes and the rate is selected. -/
  | tariffIntervalEdge (inp : List PinChange) (ov : Overruns)
  /-- PERIOD_CHANGE_EDGE (R51): A committed allocation period takes effect at the first common multiple instant after the commit. -/
  | periodChangeEdge (inp : List PinChange) (ov : Overruns)
  /-- SYNC_RESULT (R47): A sync result from the site time source updates the offset, the PLL steering and the sync state. -/
  | syncResult (offset : Int)
  /-- SYNC_RESULT_TIMEOUT (R47): No valid sync result for 4 s while LOCKED moves the device to HOLDOVER. -/
  | syncResultTimeout
  /-- HOLDOVER_EXPIRY (R47): After 60 s in HOLDOVER the device becomes UNLOCKED. -/
  | holdoverExpiry
  /-- REGISTER_WRITE (R5): A write to a register field that has no row of its own takes effect according to its access code. -/
  | registerWrite (addr : Word) (val : Word)
  /-- BUFFERED_WRITE (R67): A write to an RWB field of a block in buffered mode is held pending until its strobe commits it. -/
  | bufferedWrite (addr : Word) (val : Word)
  /-- WCTL_WRITE (R68): A write to BLOCK_WCTL changes MODE or GROUP, and is ignored while writes are pending. -/
  | wctlWrite (blk : Fin 19) (val : Word)
  /-- CRITICAL_WRITE (R76): A write to a critical register is held until its complement word is written. -/
  | criticalWrite (addr : Word) (val : Word)
  /-- COMPLEMENT_WRITE (R76): A write to X_CPL commits the held pair if it matches, and otherwise discards it and raises the write-pair source. -/
  | complementWrite (addr : Word) (val : Word)
  /-- STATUS_CLEAR_WRITE (R73): A write carrying 1 in SQC bits clears them only if it carries the current sequence number. -/
  | statusClearWrite (addr : Word) (val : Word)
  /-- HOST_TRANSACTION (R352): A host-port read or write transaction, framed by HP_CS_L, is checked by its CRC-8 and applied word by word. -/
  | hostTransaction (t : HostTxn)
  /-- STROBE_GO (R69): SYS_STROBE.GO requests the commit of a group at the next control-frame edge. -/
  | strobeGo (groups : BitVec 8)
  /-- DISCARD_DROP (R69): SYS_DISCARD.DROP discards the pending writes of a group at once. -/
  | discardDrop (groups : BitVec 8)
  /-- STROBE_ARM (R70): SYS_STRg_CTL.ARM arms a strobe for a future tick, or is refused when that tick is out of range. -/
  | strobeArm (g : Fin 8)
  /-- STROBE_CANCEL (R70): SYS_STRg_CTL.CANCEL disarms a strobe and leaves its writes pending. -/
  | strobeCancel (g : Fin 8)
  /-- STALE_COUNTER_CLEAR (R73): SYS_STALE.CLR clears the stale-clear count and the block index. -/
  | staleCounterClear
  /-- WDENY_CLEAR (R65): SYS_WDENY.CLR clears the count of denied host writes. -/
  | wdenyClear
  /-- FENCE_GO (R57): TCK_FENCE.GO requests a fence at the next control-frame edge. -/
  | fenceGo
  /-- OVERRUN_CLEAR (R54): TCK_CTL.OVRCLR clears all four overrun counters. -/
  | overrunClear
  /-- COLD_START (R77): Power-on or an RST_L pulse starts the start-up sequence after loss of VDD_CORE. -/
  | coldStart
  /-- POWER_GOOD (R78): All core and field rails and the reference are in range, the metering PLL locks and boot measurement begins. -/
  | powerGood (entropy : Option (List Byte))
  /-- ENTROPY_RETRY (R356): One second after an entropy health-test failure, root creation is tried again. -/
  | entropyRetry (entropy : Option (List Byte))
  /-- BOOT_MEASUREMENT_DONE (R358): Verification and measurement of the active bank end and the boot keys are derived. -/
  | bootMeasurementDone (active : BankRead) (rucksack : BankRead)
  /-- PACKING_LIST_APPLIED (R83): The packing-list copies are checked, one is selected and its records are applied. -/
  | packingListApplied (primary : PlCopy) (secondary : PlCopy) (staged : List PlRecord) (readBack : Bool)
  /-- ROLL_CALL_DONE (R90): Roll call of the heads and modules ends and the self-adaptive stage begins. -/
  | rollCallDone
  /-- MODULE_ROLL_CALL_TIMEOUT (R92): A module that has not answered its identity request within 250 ms is left out of its group. -/
  | moduleRollCallTimeout (m : Fin 128)
  /-- SELF_ADAPT_DONE (R96): The self-adaptive items end and their values are committed at one control-frame edge. -/
  | selfAdaptDone
  /-- SELF_ADAPT_TIME_LIMIT (R94): Items not complete at the stage time limit are treated as failed. -/
  | selfAdaptTimeLimit
  /-- ZONE_CONFIRM_END (R93): The zone-confirmation listening time ends and zone membership is confirmed or the zone fault is raised. -/
  | zoneConfirmEnd
  /-- GUARD_WALK_PAIR_DONE (R293): A guard pair completes its walk, having been open and then closed for at least 100 ms each. -/
  | guardWalkPairDone (k : Fin 8)
  /-- LANE_ADAPT_GO (R95): SYS_ADAPT.GO runs the lane items of the self-adaptive stage for the selected lane. -/
  | laneAdaptGo
  /-- LANE_ADAPT_DONE (R95): A lane's cable-resistance and injection items end, and the pilot rises to state A if they pass. -/
  | laneAdaptDone (n : Lane)
  /-- FIELD_SUPPLY_LOSS (R430): Loss of VDD_FLD turns every field output off, and every consent is withdrawn. -/
  | fieldSupplyLoss
  /-- THERMOS_TO_VBAK (R432): VDD_IO33 falls below 3.00 V, the thermos die changes over to VBAK and stamps THM_LOSS. -/
  | thermosToVbak
  /-- THERMOS_TO_IO33 (R432): VDD_IO33 rises above 3.10 V and the thermos die changes back to it. -/
  | thermosToIo33
  /-- THERMOS_SUPPLY_LOSS (R24): VBAK falls below its minimum with no main supply, the clock stops and the clock-valid flag clears. -/
  | thermosSupplyLoss
  /-- THERMOS_SUPPLY_RETURN (R24): A thermos supply returns and the clock restarts from THM_LOSS with the flag clear. -/
  | thermosSupplyReturn
  /-- INTERNAL_LINK_TRANSFER (R12): A transfer arrives on an internal die link, and is discarded with a fault raise when its CRC fails. -/
  | internalLinkTransfer (link : DieLink) (crcGood : Bool)
  /-- HEAD_PROBE (R39): Every 10 frames in its decade phase, a lane's head bus is probed for the head serial. -/
  | headProbe (n : Lane) (serial : Option (BitVec 64))
  /-- HEAD_ROLL_CALL_DONE (R89): The reading of a head's identity memory ends and the head passes or fails roll call. -/
  | headRollCallDone (n : Lane) (ident : List Byte) (answers : BitVec 6)
  /-- HEAD_SENSOR_READ (R112): In the frames of phase n+5, one head temperature sensor is read on the head bus. -/
  | headSensorRead (n : Lane) (reading : Option (BitVec 16))
  /-- STREAM_LOST (R116): A stream still substituted 100 ms after its first stuck tick raises the stream-lost fault and forces the grant to zero. -/
  | streamLost (n : Lane)
  /-- SENSOR_BUS_SCAN (R110): Every 100 ms every enabled cabinet sensor is read in index order. -/
  | sensorBusScan (reads : List SensorRead)
  /-- SENSOR_BUS_STUCK (R111): SNB_D low for more than 1 ms is recovered with clock pulses and a stop condition. -/
  | sensorBusStuck
  /-- SENSOR_BUS_FAULT (R111): A sensor without a good reading for 10 s raises the sensor-bus source. -/
  | sensorBusFault (m : Fin 64)
  /-- CAL_SEAL_SET (R105): MET_SEAL.SET seals the calibration registers until the next start. -/
  | calSealSet
  /-- STRCNT_CLEAR (R116): MET_Ln_STRCNT.CLR clears the underrun counts. -/
  | strcntClear (n : Lane)
  /-- QCNT_CLEAR (R131): MET_Ln_QCNT.CLR clears the creep and missed counts. -/
  | qcntClear (n : Lane)
  /-- CAPTURE_ARM (R118): ARM moves the capture unit from OFF to IDLE. -/
  | captureArm
  /-- CAPTURE_DISARM (R118): DISARM moves the capture unit to OFF and discards a pending trigger. -/
  | captureDisarm
  /-- CAPTURE_RELEASE (R120): RELEASE leaves HELD for IDLE, or for RUN with a pending trigger. -/
  | captureRelease
  /-- CAPTURE_SWTRIG (R119): SWTRIG gives the capture unit a software trigger. -/
  | captureSwtrig
  /-- CAPTURE_DONE (R118): The last post-trigger sample is recorded and the buffer is frozen in HELD. -/
  | captureDone
  /-- CAPTURE_DATA_READ (R121): A read of MET_CAP_DATA returns a sample word and advances the read pointer. -/
  | captureDataRead
  /-- CAPTURE_OVR_CLEAR (R120): MET_CAP_OVR.CLR clears the count of lost triggers. -/
  | captureOvrClear
  /-- PROOF_PULSE (R142): The played-out energy crosses a pulse multiple, and a PPO pulse begins or joins the backlog. -/
  | proofPulse (k : Fin 4)
  /-- PROOF_PULSE_END (R143): A proof pulse's width ends and the ball goes low. -/
  | proofPulseEnd (k : Fin 4)
  /-- HAMPER_SAVE_DONE (R166): A periodic hamper image completes in its slot, with the header written last. -/
  | hamperSaveDone
  /-- POWER_FAIL_WARNING (R168): PFW_L or a low VIN_AUX held for 20 µs makes the hamper sequencer snapshot and start a final save. -/
  | powerFailWarning
  /-- HAMPER_FINAL_SAVE_DONE (R168): The final save's header is written with the final flag. -/
  | hamperFinalSaveDone (us : Nat)
  /-- NEW_REGISTER_EPOCH (R169): BIL_CTL.NEWEPOCH requests a new register epoch after a hamper loss. -/
  | newRegisterEpoch
  /-- BILLING_REBUILD (R146): BIL_CTL.REBUILD rewrites a lane's failed pairs from their last good values. -/
  | billingRebuild
  /-- PERIOD_CLOSE_COMMAND (R156): BIL_CTL.PCLOSE closes the billing period at the next edge. -/
  | periodCloseCommand
  /-- PERIOD_CLOSE (R157): The billing clock reaches a PERIOD instant, and the period closes with its totals entries. -/
  | periodClose
  /-- CLOSING_FENCE_TIMEOUT (R157): When the closing fence has not been requested within 100 ms, the billing unit requests it. -/
  | closingFenceTimeout
  /-- WALL_TIME_SET (R152): A write of THM_WSET word 1 requests a wall-time adjustment. -/
  | wallTimeSet (sec : Word) (ms : BitVec 10)
  /-- SESSION_SIGN_DONE (R162): The key store finishes signing the session chain head, and the signature entries are written. -/
  | sessionSignDone (n : Lane)
  /-- LEDGER_LOST_CLEAR (R161): BIL_LDG_LOST.CLR clears the count of entries not stored. -/
  | ledgerLostClear
  /-- TAMPER_SAMPLE (R163): Every 250 ms the thermos die samples the enabled tamper inputs. -/
  | tamperSample (pins : BitVec 8)
  /-- JOURNAL_DATA_READ (R164): A read of THM_JDATA returns a journal word and advances WORD and SLOT. -/
  | journalDataRead
  /-- PILOT_PERIOD_START (R172): A lane's PWM period starts at its offset after the edge and takes the new duty. -/
  | pilotPeriodStart (n : Lane) (high : Int) (low : Int)
  /-- PILOT_STATE_DEBOUNCED (R179): DEB consecutive frames of a raw state make it the debounced pilot state. -/
  | pilotStateDebounced (n : Lane)
  /-- DIODE_FAULT (R179): DEB consecutive flagged frames make a diode fault. -/
  | diodeFault (n : Lane)
  /-- PROXIMITY_DEBOUNCED (R180): PPDEB consecutive frames of a PP code make it the debounced code. -/
  | proximityDebounced (n : Lane)
  /-- PROXIMITY_OPEN_DECISION (R181): Ten frames after PP goes open, the change is judged to be an unplugging or cause 0x14. -/
  | proximityOpenDecision (n : Lane)
  /-- STEP_TIMEOUT (R195): A step's time limit runs out and the lane exits with the step's cause. -/
  | stepTimeout (n : Lane)
  /-- SUSPEND_STOP_TIMEOUT (R176): A suspended lane still in C or D after the STOP time withdraws its close and enters PAUSED. -/
  | suspendStopTimeout (n : Lane)
  /-- SLAC_TIMEOUT (R185): SLACI expires or SLAC fails, and the lane drives state F or exits. -/
  | slacTimeout (n : Lane) (failed : Bool)
  /-- SLAC_RETRY_RESUME (R185): After 4 s in state F the lane returns to 5 % and starts SLAC again. -/
  | slacRetryResume (n : Lane)
  /-- FAULTED_HOLD_END (R199): After 4 s in F with no cause present, the lane drives X1 and enters FINISHED. -/
  | faultedHoldEnd (n : Lane)
  /-- IDLE_B_TIMEOUT (R201): B held in PAUSED for IDLEB takes the charge-complete step. -/
  | idleBTimeout (n : Lane)
  /-- CM_SLAC_PARM_REQ (R183): The vehicle's SLAC parameter request is answered with CM_SLAC_PARM.CNF. -/
  | cmSlacParmReq (l : LineRx) (mac : BitVec 48) (run : BitVec 64)
  /-- CM_START_ATTEN_CHAR_IND (R183): The vehicle announces the start of a sounding run. -/
  | cmStartAttenCharInd (l : LineRx) (mac : BitVec 48) (run : BitVec 64) (sounds : Byte)
  /-- CM_MNBC_SOUND_IND (R183): A sounding is received and its attenuation is measured on every lane. -/
  | cmMnbcSoundInd (mac : BitVec 48) (run : BitVec 64) (atten : List LaneAtten)
  /-- CM_ATTEN_CHAR_RSP (R183): The vehicle's response to the attenuation characteristics is received. -/
  | cmAttenCharRsp (l : LineRx) (mac : BitVec 48) (run : BitVec 64)
  /-- CM_VALIDATE_REQ (R183): A validation request is answered, with toggles checked on the lane's own pilot. -/
  | cmValidateReq (l : LineRx) (mac : BitVec 48) (toggles : Bool)
  /-- CM_SLAC_MATCH_REQ (R183): A match request is confirmed and the logical network is formed. -/
  | cmSlacMatchReq (l : LineRx) (mac : BitVec 48) (run : BitVec 64)
  /-- SDP_REQUEST (R186): A SECC discovery request on UDP port 15118 is answered. -/
  | sdpRequest (l : LineRx) (tls : Bool)
  /-- SUPPORTED_APP_PROTOCOL (R188): The vehicle offers protocols, and the matching one with the highest priority is selected. -/
  | supportedAppProtocol (l : LineRx) (offers : List ProtoOffer)
  /-- SESSION_SETUP (R186): A SessionSetup request is handled. -/
  | sessionSetup (l : LineRx)
  /-- SERVICE_DISCOVERY (R186): A ServiceDiscovery request is handled. -/
  | serviceDiscovery (l : LineRx)
  /-- SERVICE_DETAIL (R186): A ServiceDetail request is handled. -/
  | serviceDetail (l : LineRx) (certService : Bool)
  /-- SERVICE_PAYMENT_SELECTION (R186): A ServicePaymentSelection or PaymentServiceSelection request is handled. -/
  | servicePaymentSelection (l : LineRx) (svc : EnergyService) (contract : Bool)
  /-- SERVICE_SELECTION (R186): An ISO 15118-20 ServiceSelection request is handled. -/
  | serviceSelection (l : LineRx) (svc : EnergyService)
  /-- PAYMENT_DETAILS (R186): A PaymentDetails request is handled. -/
  | paymentDetails (l : LineRx)
  /-- CONTRACT_AUTHENTICATION (R186): A ContractAuthentication request is handled. -/
  | contractAuthentication (l : LineRx)
  /-- AUTHORIZATION_SETUP (R186): An ISO 15118-20 AuthorizationSetup request is handled. -/
  | authorizationSetup (l : LineRx)
  /-- AUTHORIZATION (R186): An Authorization request is handled, and for Plug & Charge the certificate is checked. -/
  | authorization (l : LineRx) (contract : Bool)
  /-- CHARGE_PARAMETER_DISCOVERY (R189): A ChargeParameterDiscovery request is answered with the limits of the grant in force. -/
  | chargeParameterDiscovery (l : LineRx) (ev : EvValues)
  /-- AC_CHARGE_PARAMETER_DISCOVERY (R189): An AC_ChargeParameterDiscovery request is answered with the grant's limits. -/
  | acChargeParameterDiscovery (l : LineRx) (ev : EvValues)
  /-- DC_CHARGE_PARAMETER_DISCOVERY (R189): A DC_ChargeParameterDiscovery request is answered with the grant's limits. -/
  | dcChargeParameterDiscovery (l : LineRx) (ev : EvValues)
  /-- SCHEDULE_EXCHANGE (R186): A ScheduleExchange request is handled in the Scheduled or Dynamic mode. -/
  | scheduleExchange (l : LineRx) (dynamic : Bool) (ev : EvValues)
  /-- CABLE_CHECK (R216): A CableCheck request is answered as processing ongoing until the verdict. -/
  | cableCheck (l : LineRx)
  /-- DC_CABLE_CHECK (R216): A DC_CableCheck request is answered as processing ongoing until the verdict. -/
  | dcCableCheck (l : LineRx)
  /-- PRE_CHARGE (R195): A PreCharge request passes the target voltage to precharge. -/
  | preCharge (l : LineRx) (ev : EvValues)
  /-- DC_PRE_CHARGE (R195): A DC_PreCharge request passes the target voltage to precharge. -/
  | dcPreCharge (l : LineRx) (ev : EvValues)
  /-- POWER_DELIVERY (R186): A PowerDelivery request starts or stops energy transfer. -/
  | powerDelivery (l : LineRx) (start : Bool)
  /-- CURRENT_DEMAND (R189): A CurrentDemand request passes the vehicle's target and is answered with grant limits. -/
  | currentDemand (l : LineRx) (ev : EvValues)
  /-- CHARGING_STATUS (R189): A ChargingStatus request is answered with the AC current limit. -/
  | chargingStatus (l : LineRx)
  /-- AC_CHARGE_LOOP (R189): An AC_ChargeLoop request is answered with the grant's limits. -/
  | acChargeLoop (l : LineRx) (ev : EvValues)
  /-- DC_CHARGE_LOOP (R189): A DC_ChargeLoop request passes targets and is answered with the grant or discharge limits. -/
  | dcChargeLoop (l : LineRx) (ev : EvValues)
  /-- METERING_RECEIPT (R186): A MeteringReceipt request is handled. -/
  | meteringReceipt (l : LineRx)
  /-- METERING_CONFIRMATION (R186): A MeteringConfirmation request is handled. -/
  | meteringConfirmation (l : LineRx)
  /-- WELDING_DETECTION (R195): A WeldingDetection request is handled during WELDCHECK. -/
  | weldingDetection (l : LineRx) (ended : Bool)
  /-- DC_WELDING_DETECTION (R195): A DC_WeldingDetection request is handled during WELDCHECK. -/
  | dcWeldingDetection (l : LineRx) (ended : Bool)
  /-- CERTIFICATE_INSTALLATION (R186): A CertificateInstallation request is handled. -/
  | certificateInstallation (l : LineRx)
  /-- CERTIFICATE_UPDATE (R186): A CertificateUpdate request is handled. -/
  | certificateUpdate (l : LineRx)
  /-- SESSION_STOP (R198): A SessionStop request is a vehicle stop, and a pause is treated as termination. -/
  | sessionStop (l : LineRx)
  /-- RENEGOTIATION (R187): A renegotiation or unsupported service request is answered FAILED and ends with cause 0x1A. -/
  | renegotiation (l : LineRx)
  /-- REMOTE_START (R190): A back-office remote start naming the lane authorises it. -/
  | remoteStart (n : Lane) (ev : EvValues)
  /-- AUTH_DECISION (R192): The back office's accept or reject ends AUTHORISE. -/
  | authDecision (n : Lane) (accept : Bool) (localList : Bool) (token : List Byte) (ev : EvValues)
  /-- REMOTE_STOP (R198): A back-office stop ends the session with cause 0x04. -/
  | remoteStop (n : Lane)
  /-- AUTH_OK (R190): PIL_Ln_CMD.AUTHOK accepts authorisation in AUTHORISE. -/
  | authOk (n : Lane)
  /-- AUTH_NO (R190): PIL_Ln_CMD.AUTHNO rejects authorisation with cause 0x1B. -/
  | authNo (n : Lane)
  /-- FIRMWARE_STOP (R198): PIL_Ln_CMD.STOP ends the session with cause 0x05. -/
  | firmwareStop (n : Lane)
  /-- CARD_HOLD_EXPIRY (R191): A held card not bound within CARDWIN is dropped. -/
  | cardHoldExpiry (k : Fin 4)
  /-- XCNT_CLEAR (R201): PIL_Ln_XCNTc.CLR clears an exit-cause counter. -/
  | xcntClear (n : Lane) (c : Fin 64)
  /-- INJECTION_CHIP (R206): Every 1,000 sample ticks a new chip starts and each DC lane's injection follows its code. -/
  | injectionChip
  /-- EF_WINDOW_UPDATE (R209): After a chip leaves the filter, the fast and full windows are solved for conductances. -/
  | efWindowUpdate
  /-- CABLE_CHECK_PHASE_END (R216): A baseline or self-test phase of the cable check ends its 32 chips. -/
  | cableCheckPhaseEnd (n : Lane)
  /-- INJECTION_STEP_HALF_END (R218): A 250 ms half of the calibration step pair ends, and the amplitude is judged after the second half. -/
  | injectionStepHalfEnd (n : Lane)
  /-- RCD_TEST_ON_END (R221): After 1,000 ms on, the residual test current is checked and the test channel is switched off. -/
  | rcdTestOnEnd (n : Lane)
  /-- RCD_TEST_OFF_END (R221): 1,000 ms after switch-off, the residual must have returned below 1 mA. -/
  | rcdTestOffEnd (n : Lane)
  /-- HEADCOUNT_SEND (R229): At 1 + DEVID mod 8 ms after the launch edge, the device sends its headcount to its leaf zone. -/
  | headcountSend
  /-- HEADCOUNT_RECEIVED (R232): A headcount or zone total arrives and is counted as received or discarded. -/
  | headcountReceived (eth : Option (Fin 2)) (frame : List Byte)
  /-- ALLOCATION_CUTOFF (R232): At CUT ms before the next launch edge, the member table is settled and the computation starts. -/
  | allocationCutoff
  /-- ALLOCATION_COMPUTED (R237): The computation completes, and the grants for the next launch edge are held in ALC_Ln_NEXT. -/
  | allocationComputed (us : Nat)
  /-- BOOKING_RELEASE (R248): A booking is released at the edge at which its time ends or its start has ended. -/
  | bookingRelease (b : BookId)
  /-- SCHED_CLEAR (R249): ALC_SCTL.CLR clears the maximum queue length and waits. -/
  | schedClear
  /-- PULL_IN_END (R254): At PITIME the contactor channel changes from pull-in to hold. -/
  | pullInEnd (n : Lane)
  /-- LOCK_MOVE_END (R257): A lock move ends, confirmed or not confirmed. -/
  | lockMoveEnd (n : Lane) (cur : List Nat)
  /-- LOCK_RETRY (R258): 200 ms after an unconfirmed attempt, a repeat move is requested. -/
  | lockRetry (n : Lane)
  /-- CHANNEL_TRIP (R253): An over-current trip opens the channel and counts towards the latch. -/
  | channelTrip (o : Overcurrent)
  /-- RETRY_PAUSE_END (R264): The retry pause ends and a new start request is raised. -/
  | retryPauseEnd (ch : ChanId)
  /-- TRIP_COUNT_RESET (R264): A channel on without a trip for RESET ms has its trip count reset. -/
  | tripCountReset (ch : ChanId)
  /-- RELEASE_CC_LATCH (R264): SWA_Ln_CMD.RELCC ends a contactor channel latch. -/
  | releaseCcLatch (n : Lane)
  /-- RELEASE_LK_LATCH (R264): SWA_Ln_CMD.RELLK ends a lock channel latch. -/
  | releaseLkLatch (n : Lane)
  /-- RELEASE_GEN_LATCH (R264): SWA_Gk_CTL.REL ends a general channel latch. -/
  | releaseGenLatch (k : Fin 32)
  /-- GEN_CHANNEL_ON (R261): SWA_Gk_CTL.ON raises a start request for a role-3 channel. -/
  | genChannelOn (q : GenRequest)
  /-- GEN_CHANNEL_OFF (R261): SWA_Gk_CTL.OFF switches a role-3 channel off at once. -/
  | genChannelOff (q : GenRequest)
  /-- OPEN_LOAD (R263): A channel below its open-load threshold for 10 frames raises its open-load source. -/
  | openLoad (ch : ChanId)
  /-- FIELD_GROUND_LOSS (R265): VSS_FLD more than 1 V from VSS for 2 µs switches all channels off. -/
  | fieldGroundLoss
  /-- REVERSE_AUX (R265): VIN_AUX below −1 V fully enhances the high-side channels and refuses requests. -/
  | reverseAux
  /-- AUX_SURGE (R265): VIN_AUX above 40 V for 10 µs switches all channels off. -/
  | auxSurge
  /-- AUX_UNDER_VOLTAGE (R265): VIN_AUX below 7.5 V switches all channels off. -/
  | auxUnderVoltage
  /-- SUPPLY_RESUME (R266): A supply condition ends, and interrupted channels raise new start requests. -/
  | supplyResume (c : Fin 4)
  /-- CLAMP_EVENT (R267): An inductive turn-off's clamp energy is added to the channel's bucket. -/
  | clampEvent (ch : ChanId) (mj : BitVec 16)
  /-- CLAMP_BUCKET_DRAIN (R267): Every 1 ms each clamp bucket drains, and a bucket that reaches 0 ends the clamp lockout. -/
  | clampBucketDrain
  /-- THERMAL_SHED (R269): Excess dissipation or temperature sheds one general channel per frame. -/
  | thermalShed
  /-- OVER_TEMP_OFF (R269): Above 135 °C all channels switch off at once. -/
  | overTempOff
  /-- OVER_TEMP_RESUME (R269): Cooling to 5 °C below THOT lifts the refusal and interrupted channels request again. -/
  | overTempResume
  /-- CURRENT_CROSSCHECK (R279): Metered and module currents differing in 10 compared frames raise the cross-check fault. -/
  | currentCrosscheck (g : Fin 16)
  /-- SAFE_REQUEST (R283): SAF_CMD.SAFE enters safe-state cause SERVICE. -/
  | safeRequest
  /-- GUARD_INPUT_CHANGE (R283): A guard pair opens or closes, entering or ending ESTOP or GUARD and advancing the walk. -/
  | guardInputChange (k : Fin 8) (a : Bool) (b : Bool)
  /-- GUARD_DISCREPANCY (R292): Guard halves that disagree beyond GDISC raise the guard-discrepancy fault. -/
  | guardDiscrepancy (k : Fin 8)
  /-- MIRROR_DISCREPANCY (R286): Mirror contacts that disagree beyond MDISC raise the mirror-discrepancy fault. -/
  | mirrorDiscrepancy (n : Lane)
  /-- WELD_TEST (R288): At the first edge 50 ms after coil off, each channel reads its mirror and decides a weld. -/
  | weldTest (n : Lane)
  /-- SO_WELD_DELAY_END (R289): At SODLY after the weld reaction, SO pair k is de-energised. -/
  | soWeldDelayEnd (k : Fin 2)
  /-- SO_FEEDBACK_TIMEOUT (R291): SO feedback that has not followed after SOFB ms and one more edge raises the feedback fault. -/
  | soFeedbackTimeout (k : Fin 2)
  /-- SAFETY_PDU_SEND (R295): A safety PDU is built, checked by both channels and sent on its connection. -/
  | safetyPduSend (k : Fin 16)
  /-- SAFETY_PDU_RECEIVED (R296): A received safety PDU is accepted or discarded by both channels and its state acted on. -/
  | safetyPduReceived (k : Fin 16) (pdu : List Byte)
  /-- SAFETY_CONN_TIMEOUT (R296): No accepted PDU for TEXP ms, or too many CRC failures, fails the connection. -/
  | safetyConnTimeout (k : Fin 16)
  /-- LINK_CAUSE_END (R283): After a connection has been good for 1 s, cause LINK ends when AUTORST is set. -/
  | linkCauseEnd (k : Fin 16)
  /-- SAFETY_CMP_CLEAR (R278): SAF_CMP.CLR clears the compare counters. -/
  | safetyCmpClear
  /-- SAFETY_CONN_CNT_CLEAR (R296): SAF_CONNk_CNT.CLR clears the connection counters. -/
  | safetyConnCntClear (k : Fin 16)
  /-- FAULT_CLEAR (R312): A sequence-checked write to FLT_SRCi clears sticky bits whose cause is absent. -/
  | faultClear (k : Fin 256) (val : Word)
  /-- LANE_RESTORE (R311): FLT_RETCMD.RESTORE returns a retired lane to service, or is denied. -/
  | laneRestore
  /-- LANE_RETIRE (R311): FLT_RETCMD.RETIRE retires a lane by command. -/
  | laneRetire
  /-- FAULT_PIN_RELEASE (R314): FLT_PIN.RELEASE returns the fault pins to normal when allowed at the next edge. -/
  | faultPinRelease
  /-- FAULT_INPUT_LEVEL (R315): A fault level or equal levels on FLTI in two frames raises 0x0B or 0x0C. -/
  | faultInputLevel (p : Bool) (m : Bool)
  /-- WATCHDOG_KEY (R316): A write to FLT_WDOG.KEY restarts the heartbeat or answers a probe. -/
  | watchdogKey (key : BitVec 16)
  /-- WATCHDOG_PROBE (R316): No good key for WDT ms interrupts all cores with a probe. -/
  | watchdogProbe
  /-- WATCHDOG_PROBE_TIMEOUT (R316): No probe answer within 10 ms raises the cluster-wedged fault with device class. -/
  | watchdogProbeTimeout
  /-- WATCHDOG_RESET (R316): A cause still present after WRST seconds makes a final save and a warm start. -/
  | watchdogReset
  /-- ENCODER_EDGE (R318): A filtered encoder line changes, and the count moves or an illegal transition is counted. -/
  | encoderEdge (k : Fin 8) (a : Bool) (b : Bool)
  /-- ENCODER_HOME (R318): FLT_QENk_CTL.HOME loads the count and clears UNREL. -/
  | encoderHome (k : Fin 8)
  /-- SB_CALL_SEND (R326): The master sends the cycle's CALL at L + 2 ms. -/
  | sbCallSend (us : Fin 1000)
  /-- SB_CALL_RECEIVED (R327): A received CALL gives a sync result and sets the cycle's turns. -/
  | sbCallReceived (src : BitVec 16) (data : List Byte) (stamp : Nat)
  /-- SB_MASTER_TAKEOVER (R325): A slave hearing no CALL in three cycles takes the master role if it is the lowest candidate. -/
  | sbMasterTakeover
  /-- SB_TRAIN_SEND (R328): In its turn a member sends its headcount and safety PDUs. -/
  | sbTrainSend (bulk : List (Option Nat × Nat × List Byte))
  /-- SB_RELAY (R333): A repeater re-sends the frames it is named to relay. -/
  | sbRelay (us : Fin 1000)
  /-- SB_FRAME_RECEIVED (R323): A site-bus frame is received and checked. -/
  | sbFrameReceived (hdr : BitVec 34) (mac : List Byte)
  /-- SB_TURN_PASS (R326): A turn with no preamble within 3 ms passes. -/
  | sbTurnPass
  /-- SB_JOIN_TURN (R326): A joining device sends its TRAIN in the join turn of its cycles. -/
  | sbJoinTurn
  /-- SB_BULK_TURN (R329): The named device sends its pending bulk frames until the window ends. -/
  | sbBulkTurn
  /-- SB_TONE_MAP_MSG (R330): A tone-map message from a neighbour sets the map used towards it. -/
  | sbToneMapMsg (src : BitVec 16) (band : Bool) (mask : BitVec 24) (mode : BitVec 2)
  /-- SB_LINK_REPORT (R331): A link report lets the master update the broadcast map and the route table. -/
  | sbLinkReport (rep : SbReport)
  /-- SB_ROUTE_MSG (R332): A ROUTE message is received and held for its named tick. -/
  | sbRouteMsg (rt : SbRoute)
  /-- ROUTE_TABLE_EFFECT (R332): A received route table takes effect at the CALL of its named tick. -/
  | routeTableEffect
  /-- TONE_MAP_REFRESH (R330): After 10 minutes or 3 failed frames, a neighbour's tone map is refreshed. -/
  | toneMapRefresh (src : BitVec 16) (snrA : List Byte) (snrB : List Byte)
  /-- NEIGHBOUR_DROP (R330): A neighbour not heard for 60 s is dropped from the table. -/
  | neighbourDrop (src : BitVec 16)
  /-- SB_FINJ_CLEAR (R336): SBU_FICNT.CLR clears the fault-injection counts. -/
  | sbFinjClear
  /-- ETH_LINK_CHANGE (R338): An Ethernet port's SGMII link comes up or goes down. -/
  | ethLinkChange (p : Fin 2) (up : Bool) (gigabit : Bool)
  /-- PTP_SYNC (R342): A PTP Sync message is timestamped on the source port. -/
  | ptpSync (p : Fin 2) (src : PtpSource) (seq : BitVec 16) (rx : Nat) (origin : Option Nat)
  /-- PTP_FOLLOW_UP (R342): A Follow_Up completes a two-step Sync and yields a sync result. -/
  | ptpFollowUp (p : Fin 2) (src : PtpSource) (seq : BitVec 16) (origin : Nat)
  /-- PTP_DELAY_RESP (R342): A Delay_Resp updates the delay measurement. -/
  | ptpDelayResp (p : Fin 2) (src : PtpSource) (t3 : Nat) (t4 : Nat)
  /-- PTP_DELAY_REQ (R342): A master device answers a Delay_Req. -/
  | ptpDelayReq (p : Fin 2) (domain : Byte) (seq : BitVec 16) (rx : Nat)
  /-- PTP_ANNOUNCE (R342): An Announce feeds the best-master algorithm. -/
  | ptpAnnounce (p : Fin 2) (domain : Byte) (a : PtpAnnounce)
  /-- PTP_SYNC_SEND (R342): A Local-source device sends Sync every SYNCI interval as master. -/
  | ptpSyncSend (t : Nat)
  /-- JL_FRAME_RECEIVED (R344): A joining-link frame is checked, acknowledged and delivered or forwarded. -/
  | jlFrameReceived (k : Fin 4) (dst : BitVec 16) (bcast : Bool) (mac : List Byte)
  /-- JL_ACK_TIMEOUT (R344): A frame unacknowledged after 2 µs is resent, and the link goes down after three resends. -/
  | jlAckTimeout (k : Fin 4)
  /-- JL_LINK_UP (R344): After 1 ms of good idle and an ID exchange the link comes up and routes are rebuilt. -/
  | jlLinkUp (k : Fin 4) (peer : BitVec 16) (reach : List (Nat × Nat))
  /-- JL_ROUND_TRIP (R346): Every 1 ms the time-source joining link's round trip is measured. -/
  | jlRoundTrip (k : Fin 4) (rtt : Nat) (here : Nat) (far : Nat) (through : Bool)
  /-- CAN_TIME_SEND (R348): Every 100 ms a TIME frame is broadcast on each port. -/
  | canTimeSend (us : Fin 1000)
  /-- CAN_STATUS (R349): A module STATUS frame updates its reported output. -/
  | canStatus (p : Fin 4) (addr : Byte) (data : List Byte)
  /-- CAN_IDRSP (R92): A module identity response is judged, and the module is admitted or left out. -/
  | canIdrsp (p : Fin 4) (addr : Byte) (data : List Byte)
  /-- CAN_FOREIGN_FRAME (R347): A classical frame, or a frame from an unlisted module, is ignored. -/
  | canForeignFrame (p : Fin 4) (addr : Byte) (classical : Bool)
  /-- MODULE_STATUS_TIMEOUT (R349): A module without STATUS for 100 ms leaves its converter group. -/
  | moduleStatusTimeout (m : Fin 128)
  /-- MODULE_IDREQ_RETRY (R92): A non-admitted module without an IDRSP within 250 ms is sent another addressed IDREQ. -/
  | moduleIdreqRetry (m : Fin 128)
  /-- CAN_BUS_OFF (R351): A CAN FD port goes bus-off. -/
  | canBusOff (p : Fin 4)
  /-- CAN_BUS_OFF_RECOVERY (R351): After 128 × 11 recessive bits the port recovers and sends the mailbox first. -/
  | canBusOffRecovery (p : Fin 4)
  /-- HOST_CNT_CLEAR (R353): LNK_HP_ST.CLR clears the host-port counters. -/
  | hostCntClear
  /-- LNK_FINJ_CLEAR (R354): LNK_FICNT.CLR clears the link fault-injection counts. -/
  | lnkFinjClear
  /-- KEY_GEN (R363): KEY_CMD GEN generates a key into a slot. -/
  | keyGen (use : Byte) (bind : BitVec 2) (typ : BitVec 3) (slot : BitVec 7)
  /-- KEY_IMPORT (R363): KEY_CMD IMPORT decrypts a blob into a slot. -/
  | keyImport (use : Byte) (bind : BitVec 2) (typ : BitVec 3) (slot : BitVec 7) (addr : Word)
  /-- KEY_ERASE (R363): KEY_CMD ERASE writes a slot as empty. -/
  | keyErase (slot : BitVec 7)
  /-- KEY_PUB (R363): KEY_CMD PUB places a public key in KEY_PUB. -/
  | keyPub (slot : BitVec 7)
  /-- KEY_NEWBILL (R367): KEY_CMD NEWBILL advances KGEN unless a session is open. -/
  | keyNewbill
  /-- KEY_RESEAL (R369): KEY_CMD RESEAL re-seals the affected slots under the new measurements into a pending word. -/
  | keyReseal
  /-- ZEROISE (R364): KEY_ZST.GO or a ZERO tamper activation erases every slot and increments ZCNT. -/
  | zeroise
  /-- DRBG_RESEED (R357): After 2²⁰ requests the DRBG is reseeded. -/
  | drbgReseed (entropy : List Byte)
  /-- UPDATE_OPEN (R374): UPD_CTL.OPEN opens a delivery, or is refused. -/
  | updateOpen
  /-- UPDATE_BLOCK (R376): A received block message is written to the rucksack and marked received. -/
  | updateBlock (msg : List Byte) (readBack : Bool)
  /-- UPDATE_BLOCK_GO (R376): UPD_CTL.BLKGO takes the block in UPD_BLK. -/
  | updateBlockGo (readBack : Bool)
  /-- VERIFY_DONE (R377): Verification of the rucksack image ends as VERIFIED or failed. -/
  | verifyDone
  /-- UPDATE_ACT (R378): UPD_CTL.ACT requests activation, which is accepted or becomes a rain check. -/
  | updateAct
  /-- UPDATE_CANCEL (R378): UPD_CTL.CANCEL ends the rain check and discards the pending key copies. -/
  | updateCancel
  /-- IDLE_WINDOW (R378): After IDLEW seconds free of refusal conditions, the rain check is retried. -/
  | idleWindow
  /-- UPDATE_CONFIRM (R380): UPD_CTL.CONFIRM confirms the new image in trial. -/
  | updateConfirm
  /-- CONFIRM_WINDOW_EXPIRY (R381): CONFWIN runs out in trial and the controller rolls back. -/
  | confirmWindowExpiry
  /-- UPDATE_CNT_CLEAR (R376): UPD_CNT.CLR clears the block counters. -/
  | updateCntClear
  /-- DMA_START (R393): DMA_CHn_CTL.START starts an idle channel's itinerary. -/
  | dmaStart (c : Fin 32)
  /-- DMA_ABORT (R395): DMA_CHn_CTL.ABORT ends a busy channel after its burst in progress. -/
  | dmaAbort (c : Fin 32)
  /-- DMA_BURST_SLOT (R391): A burst slot is granted to a ready channel by weighted credit. -/
  | dmaBurstSlot
  /-- READER_PING (R398): A reader pings its antenna and raises a transmission request on detuning. -/
  | readerPing (k : Fin 4) (reading : Nat) (inRange : Bool)
  /-- READER_REBASE (R399): NFC_RDk_CTL.REBASE takes the next ping as the baseline. -/
  | readerRebase (k : Fin 4)
  /-- READER_FOFF (R401): NFC_RDk_CTL.FOFF ends the session and switches the carrier off. -/
  | readerFoff (k : Fin 4)
  /-- READER_POLL (R401): Every 5 ms an admitted reader sends REQA or REQB. -/
  | readerPoll (k : Fin 4)
  /-- READER_POLL_TIMEOUT (R401): No answer by POLLT switches the carrier off and freezes the baseline. -/
  | readerPollTimeout (k : Fin 4)
  /-- CARD_ACTIVATED (R401): A card is activated, and its UID is stored and handed to the service image. -/
  | cardActivated (k : Fin 4) (typeB : Bool) (dep : Bool) (uid : List Byte)
  /-- READER_SESSION_TIMEOUT (R401): A card session reaching SESST is ended. -/
  | readerSessionTimeout (k : Fin 4)
  /-- READER_CARD_LOSS (R401): Loss of the card ends the session and switches the carrier off. -/
  | readerCardLoss (k : Fin 4)
  /-- READER_CNT_CLEAR (R401): NFC_RDk_CNT.CLR clears the reader counters. -/
  | readerCntClear (k : Fin 4)
  /-- TAG_INVENTORY (R402): The service tag answers an Inventory command. -/
  | tagInventory (maskLen : Fin 65) (mask : BitVec 64) (slot : Option (Fin 16))
  /-- TAG_STAY_QUIET (R402): The service tag handles Stay quiet. -/
  | tagStayQuiet (ad : TagAddr)
  /-- TAG_SELECT (R402): The service tag handles Select. -/
  | tagSelect (u : BitVec 64)
  /-- TAG_RESET_TO_READY (R402): The service tag handles Reset to ready. -/
  | tagResetToReady (ad : TagAddr)
  /-- TAG_GET_SYSTEM_INFO (R402): The service tag answers Get system information. -/
  | tagGetSystemInfo (ad : TagAddr)
  /-- TAG_EXT_GET_SYSTEM_INFO (R402): The service tag answers the extended Get system information. -/
  | tagExtGetSystemInfo (ad : TagAddr)
  /-- TAG_EXT_READ_SINGLE (R403): The service tag returns one block. -/
  | tagExtReadSingle (ad : TagAddr) (blk : BitVec 16)
  /-- TAG_EXT_READ_MULTIPLE (R403): The service tag returns several blocks. -/
  | tagExtReadMultiple (ad : TagAddr) (blk : BitVec 16) (cnt : BitVec 16)
  /-- TAG_EXT_WRITE_SINGLE (R404): The service tag writes one block whole if the harvested supply allows. -/
  | tagExtWriteSingle (ad : TagAddr) (blk : BitVec 16) (data : List Byte) (mv : Nat)
  /-- TAG_COMMIT (R405): A write to the commit block stages the list when the length and CRC are good. -/
  | tagCommit (ad : TagAddr) (len : Word) (crc : Word) (mv : Nat)
  /-- TAG_FIELD_CHANGE (R407): The reader field appears or disappears, and HARV follows. -/
  | tagFieldChange (present : Bool)
  /-- DISPLAY_ON (R413): DPY_CTL.ON powers the panel up, or starts segment scanning. -/
  | displayOn
  /-- DISPLAY_OFF (R413): DPY_CTL.OFF powers the display down. -/
  | displayOff
  /-- DISPLAY_RAIL_STEP (R413): After RDLY ms the next panel rail enable changes. -/
  | displayRailStep
  /-- DISPLAY_FRAME_START (R411): A frame start latches FBASE, the gamma tables and the references. -/
  | displayFrameStart (badRefs : BitVec 3)
  /-- COHERENCE_REQUEST (R418): Directory requests for one line are served write-back first, then in rotating core order. -/
  | coherenceRequest (line : Nat) (wb : Option (List Byte)) (reqs : BitVec 4) (owns : BitVec 4)
  /-- MEMORY_SCRUB (R422): Every 10 s each memory is scrubbed and its correctable errors are corrected. -/
  | memoryScrub (errs : List (Fin 3 × Word))
  /-- MEMORY_ECC_ERROR (R422): A read of a double-bit-error word returns a bus error and raises 0xB9. -/
  | memoryEccError (wh : Fin 3) (addr : Word)
  /-- ECC_CNT_CLEAR (R422): CLU_ECCCNT.CLR clears the memory error counts. -/
  | eccCntClear
  /-- EXTENSION_SLICE_END (R423): The extension's per-frame slice ends and core 3 returns to the service image. -/
  | extensionSliceEnd (used : BitVec 16)
  /-- SANDBOX_VIOLATION (R424): A sandbox access outside its reach is refused, recorded and may stop the extension. -/
  | sandboxViolation (a : ExtAccess)
  /-- EXTENSION_STOP (R424): CLU_XST.STOP stops the extension until the next start. -/
  | extensionStop
  /-- RESET_COMMAND (R77): A reset command starts a warm start with VDD_CORE kept in range, which also ends safe-state cause CHANNEL. -/
  | resetCommand
  /-- CORE_SUPPLY_LOSS (R430): The core rails fall below their minimum, the core die loses all state, window energy and working key registers, and a save not yet final stays non-final. -/
  | coreSupplyLoss
  /-- FIELD_SUPPLY_RETURN (R11): VDD_FLD returns while the core die runs, and the field die, which kept no state, must be set up again before its links pass and consents can be refreshed. -/
  | fieldSupplyReturn
  /-- KEY_COMMAND_DONE (R363): A running key-store command (GEN, IMPORT, ERASE, RESEAL) completes, the select word is rewritten or the pending word stored, BUSY clears and ERR is set. -/
  | keyCommandDone
  /-- WIDE_REGISTER_READ (R75): A service-cluster read of the lower word of a wide or critical register captures its upper words and complement words until the lower word is read again. -/
  | wideRegisterRead (addr : Word)
  /-- DISCHARGE_COMMAND (R231): A back-office discharge command for a DC_BPT session with BPT set makes the lane's headcount entry carry the discharge flag and take no import share. -/
  | dischargeCommand (n : Lane) (on : Bool)
  deriving DecidableEq, Repr

end Sys2Proof
end

