-- ==== Sys2Proof/Decode.lean ====
section
/-!
DEFINITION. The block has no decoder: spec/opcode_table.json gives no row any bits (every command arrives from outside, on a pin,
a link or a bus), so no word spells a command (log entry 1).
-/

namespace Sys2Proof

/-- The command a word spells by the table's bits: none, since the table gives none of its rows bits. -/
def decodeTableWord (_nbits _w : Nat) : Option Instr := none

end Sys2Proof
end

