-- ==== Sys2Proof/Config.lean ====
section
/-!
DEFINITION. What the spec leaves to an implementation or leaves open: free values and external functions, as opaque
constants with no body, so that no proof can see a value of them. Each is named in notes/assumptions.
-/

namespace Sys2Proof.Config

/-- A fresh open value: the model applies it to the counter `State.freeCtr`, which it then advances (log entry 2). -/
opaque freeValue : Nat → Nat

/-- PLL steering in ppm for an offset in ns, before the ±100 ppm limit of R46 (the loop law is not given). -/
opaque steerPpm : Int → Int

/-- Fractional-sample delay of R103: the samples newest first, and the delay in ticks as a fraction. -/
opaque fracDelay : List Int → Int → Nat → Int

/-- The AES-256 key that IMPORT forms from the ECDH secret: the spec gives no derivation (R363; log entry 48). -/
opaque ecdhKey : List Byte → List Byte

/-- Public key of an Ed448 private key (R361, R365; RFC 8032). -/
opaque ed448Public : List Byte → List Byte

/-- Signal-to-noise ratio in dB that a mode of the site bus needs (R330). -/
opaque modeSnr : Nat → Nat

/-- Hard-short level of a channel in mA, before it is held to the limits of R252. -/
opaque hardShort : Nat → Nat

/-- MAGIC of a hamper image (R166). -/
opaque hamperMagic : Word

/-- Does a window of the extension sandbox overlap memory the service image reserves (R426)? Tick memory or DRAM, base, size. -/
opaque imageReserves : Bool → Nat → Nat → Bool

end Sys2Proof.Config
end

