-- ==== Sys2Proof/Machine/RegNames.lean ====
section
/-!
DEFINITION. The registers and fields of spec/04 to spec/22 by name: `A.<register>` is a register's address (R62, R63),
`F.<register>_<field>` one field of it. Index letters stand in the names as the spec writes them and become arguments.
-/

namespace Sys2Proof.Machine

/-- A named field: the address of its register's lowest word, bits `hi:lo`, and the distance to the complement
shadow (0: not critical). -/
structure Fld where
  addr : Nat
  hi : Nat
  lo : Nat
  sh : Nat
  deriving DecidableEq, Repr

namespace A

/-- SYS_WCTL: write control (spec/04, R67). -/
def SYS_WCTL : Nat := 0xfffc
/-- TCK_WCTL: write control (spec/04, R67). -/
def TCK_WCTL : Nat := 0x1fffc
/-- FLT_WCTL: write control (spec/04, R67). -/
def FLT_WCTL : Nat := 0x2fffc
/-- DMA_WCTL: write control (spec/04, R67). -/
def DMA_WCTL : Nat := 0x3fffc
/-- MET_WCTL: write control (spec/04, R67). -/
def MET_WCTL : Nat := 0x4fffc
/-- BIL_WCTL: write control (spec/04, R67). -/
def BIL_WCTL : Nat := 0x6fffc
/-- EFM_WCTL: write control (spec/04, R67). -/
def EFM_WCTL : Nat := 0x7fffc
/-- PIL_WCTL: write control (spec/04, R67). -/
def PIL_WCTL : Nat := 0x8fffc
/-- ALC_WCTL: write control (spec/04, R67). -/
def ALC_WCTL : Nat := 0xafffc
/-- SWA_WCTL: write control (spec/04, R67). -/
def SWA_WCTL : Nat := 0xbfffc
/-- SAF_WCTL: write control (spec/04, R67). -/
def SAF_WCTL : Nat := 0xcfffc
/-- KEY_WCTL: write control (spec/04, R67). -/
def KEY_WCTL : Nat := 0xdfffc
/-- UPD_WCTL: write control (spec/04, R67). -/
def UPD_WCTL : Nat := 0xefffc
/-- SBU_WCTL: write control (spec/04, R67). -/
def SBU_WCTL : Nat := 0xffffc
/-- LNK_WCTL: write control (spec/04, R67). -/
def LNK_WCTL : Nat := 0x10fffc
/-- NFC_WCTL: write control (spec/04, R67). -/
def NFC_WCTL : Nat := 0x11fffc
/-- DPY_WCTL: write control (spec/04, R67). -/
def DPY_WCTL : Nat := 0x12fffc
/-- THM_WCTL: write control (spec/04, R67). -/
def THM_WCTL : Nat := 0x13fffc
/-- CLU_WCTL: write control (spec/04, R67). -/
def CLU_WCTL : Nat := 0x14fffc
/-- SYS_STROBE: strobe trigger (spec/04, R71). -/
def SYS_STROBE : Nat := 0x40
/-- SYS_DISCARD: discard pending writes (spec/04, R71). -/
def SYS_DISCARD : Nat := 0x44
/-- SYS_STRg_TICK: scheduled tick of strobe g (spec/04, R71). -/
def SYS_STRg_TICK (g : Nat) : Nat := 0x80 + 0x8 * g
/-- SYS_STRg_CTL: scheduled strobe control (spec/04, R71). -/
def SYS_STRg_CTL (g : Nat) : Nat := 0x84 + 0x8 * g
/-- SYS_STR_STAT: strobe status (spec/04, R71). -/
def SYS_STR_STAT : Nat := 0xc0
/-- SYS_STALE: stale-clear counter (spec/04, R73). -/
def SYS_STALE : Nat := 0x18
/-- SYS_ID: part identity (spec/04, R76). -/
def SYS_ID : Nat := 0x0
/-- SYS_DEVID: device ID (spec/04, R76). -/
def SYS_DEVID : Nat := 0x4
/-- SYS_STAGE: start-up stage (spec/04, R76). -/
def SYS_STAGE : Nat := 0x8
/-- SYS_HOSTWR: host write gate (spec/04, R76). -/
def SYS_HOSTWR : Nat := 0x10
/-- SYS_WDENY: denied host writes (spec/04, R76). -/
def SYS_WDENY : Nat := 0x14
/-- TCK_SYNC: sync state (spec/04, R76). -/
def TCK_SYNC : Nat := 0x10000
/-- TCK_OFFSET: last measured offset (spec/04, R76). -/
def TCK_OFFSET : Nat := 0x10004
/-- TCK_TIME: site time (spec/04, R76). -/
def TCK_TIME : Nat := 0x10008
/-- TCK_FRAME: control-frame count (spec/04, R76). -/
def TCK_FRAME : Nat := 0x10010
/-- TCK_ALC_TICK: allocation tick (spec/04, R76). -/
def TCK_ALC_TICK : Nat := 0x10014
/-- TCK_PERIOD: allocation period (spec/04, R76). -/
def TCK_PERIOD : Nat := 0x10018
/-- TCK_FENCE: fence request (spec/04, R76). -/
def TCK_FENCE : Nat := 0x10020
/-- TCK_EPOCH: fence epoch (spec/04, R76). -/
def TCK_EPOCH : Nat := 0x10024
/-- TCK_OVR: overrun counters (spec/04, R76). -/
def TCK_OVR : Nat := 0x10028
/-- TCK_CTL: tick control (spec/04, R76). -/
def TCK_CTL : Nat := 0x10030
/-- SYS_PLSTAT: packing-list status (spec/05, R97). -/
def SYS_PLSTAT : Nat := 0x20
/-- SYS_PLBAD: first bad record (spec/05, R97). -/
def SYS_PLBAD : Nat := 0x24
/-- SYS_STTIME: start-up time (spec/05, R97). -/
def SYS_STTIME : Nat := 0x28
/-- SYS_RC_PRES: heads present (spec/05, R97). -/
def SYS_RC_PRES : Nat := 0x30
/-- SYS_RC_PASS: heads passed (spec/05, R97). -/
def SYS_RC_PASS : Nat := 0x34
/-- SYS_RC_STAT: last roll-call failure (spec/05, R97). -/
def SYS_RC_STAT : Nat := 0x38
/-- SYS_ADAPT: self-adaptive results (spec/05, R97). -/
def SYS_ADAPT : Nat := 0x3c
/-- SYS_HEADn_SER: head serial of lane n (spec/05, R97). -/
def SYS_HEADn_SER (n : Nat) : Nat := 0x100 + 0x8 * n
/-- MET_MCLKDLY: capture delay per clock group (spec/06, R99). -/
def MET_MCLKDLY : Nat := 0x48004
/-- MET_Ln_CALV: voltage stream calibration (spec/06, R106). -/
def MET_Ln_CALV (n : Nat) (x : Nat) : Nat := 0x40110 + 0x400 * n + 0x4 * x
/-- MET_Ln_VSCALE: voltage full scale (spec/06, R106). -/
def MET_Ln_VSCALE (n : Nat) : Nat := 0x40120 + 0x400 * n
/-- MET_Ln_ISCALE: current full scale (spec/06, R106). -/
def MET_Ln_ISCALE (n : Nat) : Nat := 0x40124 + 0x400 * n
/-- MET_SEAL: calibration seal (spec/06, R106). -/
def MET_SEAL : Nat := 0x48010
/-- MET_CALCNT: calibration change counter (spec/06, R106). -/
def MET_CALCNT : Nat := 0x48014
/-- MET_CFG: metering configuration (spec/06, R106). -/
def MET_CFG : Nat := 0x48000
/-- MET_Ln_TSEL: temperature sensor selection (spec/06, R108). -/
def MET_Ln_TSEL (n : Nat) : Nat := 0x40104 + 0x400 * n
/-- MET_Ln_TCORx: temperature correction in force (spec/06, R108). -/
def MET_Ln_TCORx (n : Nat) (x : Nat) : Nat := 0x40140 + 0x400 * n + 0x4 * x
/-- MET_TTABs: temperature table of stream s, entry i (spec/06, R107). -/
def MET_TTABs (s : Nat) (i : Nat) : Nat := 0x50000 + 0x40 * s + 0x4 * i
/-- MET_SNB_CTL: sensor bus control (spec/06, R111). -/
def MET_SNB_CTL : Nat := 0x48020
/-- MET_SNB_STAT: sensor bus status (spec/06, R111). -/
def MET_SNB_STAT : Nat := 0x48024
/-- MET_SNBm: sensor m configuration (spec/06, R111). -/
def MET_SNBm (m : Nat) : Nat := 0x48100 + 0x4 * m
/-- MET_SNBm_T: sensor m reading (spec/06, R111). -/
def MET_SNBm_T (m : Nat) : Nat := 0x48200 + 0x4 * m
/-- MET_Ln_HTj: head sensor j reading (spec/06, R112). -/
def MET_Ln_HTj (n : Nat) (j : Nat) : Nat := 0x40160 + 0x400 * n + 0x4 * j
/-- MET_Ln_STRSTAT: stream status (spec/06, R117). -/
def MET_Ln_STRSTAT (n : Nat) : Nat := 0x40130 + 0x400 * n
/-- MET_Ln_STRCNT: underrun counts (spec/06, R117). -/
def MET_Ln_STRCNT (n : Nat) : Nat := 0x40134 + 0x400 * n
/-- MET_CAP_CTL: capture control (spec/06, R121). -/
def MET_CAP_CTL : Nat := 0x48400
/-- MET_CAP_SELk: capture slot k (spec/06, R121). -/
def MET_CAP_SELk (k : Nat) : Nat := 0x48408 + 0x4 * k
/-- MET_CAP_TRIG: capture trigger (spec/06, R121). -/
def MET_CAP_TRIG : Nat := 0x48414
/-- MET_CAP_LEVEL: level threshold (spec/06, R121). -/
def MET_CAP_LEVEL : Nat := 0x48418
/-- MET_CAP_STAT: capture status (spec/06, R121). -/
def MET_CAP_STAT : Nat := 0x4841c
/-- MET_CAP_STAMP: trigger stamp (spec/06, R121). -/
def MET_CAP_STAMP : Nat := 0x48420
/-- MET_CAP_EPOCH: trigger epoch (spec/06, R121). -/
def MET_CAP_EPOCH : Nat := 0x48428
/-- MET_CAP_LAG: late-start lag (spec/06, R121). -/
def MET_CAP_LAG : Nat := 0x4842c
/-- MET_CAP_OVR: capture overruns (spec/06, R121). -/
def MET_CAP_OVR : Nat := 0x48430
/-- MET_CAP_ADDR: read pointer (spec/06, R121). -/
def MET_CAP_ADDR : Nat := 0x48434
/-- MET_CAP_DATA: read port (spec/06, R121). -/
def MET_CAP_DATA : Nat := 0x48438
/-- MET_Ln_QCFG: quantity configuration (spec/07, R123). -/
def MET_Ln_QCFG (n : Nat) : Nat := 0x40100 + 0x400 * n
/-- MET_Ln_INOM: nominal current (spec/07, R123). -/
def MET_Ln_INOM (n : Nat) : Nat := 0x40108 + 0x400 * n
/-- MET_Ln_EIMP: active import energy (spec/07, R133). -/
def MET_Ln_EIMP (n : Nat) (q : Nat) : Nat := 0x40010 + 0x400 * n + 0x8 * q
/-- MET_Ln_QSTAT: quantity status (spec/07, R133). -/
def MET_Ln_QSTAT (n : Nat) : Nat := 0x400b0 + 0x400 * n
/-- MET_Ln_QCNT: quantity counters (spec/07, R133). -/
def MET_Ln_QCNT (n : Nat) : Nat := 0x400b4 + 0x400 * n
/-- MET_Ln_VINST: instantaneous voltage (spec/07, R134). -/
def MET_Ln_VINST (n : Nat) (i : Nat) : Nat := 0x40060 + 0x400 * n + 0x4 * i
/-- MET_Ln_FREQ: frequency (spec/07, R135). -/
def MET_Ln_FREQ (n : Nat) : Nat := 0x40084 + 0x400 * n
/-- MET_Ln_PALC: PALC, PSEC, POUT, QOUT, SOUT (i = 0..4) (spec/07, R134). -/
def MET_Ln_PALC (n : Nat) (i : Nat) : Nat := 0x40088 + 0x400 * n + 0x4 * i
/-- MET_Ln_RCAB: cable resistance at 20 °C (spec/07, R139). -/
def MET_Ln_RCAB (n : Nat) : Nat := 0x400c0 + 0x400 * n
/-- MET_Ln_RT: cable resistance at T (spec/07, R139). -/
def MET_Ln_RT (n : Nat) : Nat := 0x400c4 + 0x400 * n
/-- MET_Ln_TCAB: cable temperature (spec/07, R139). -/
def MET_Ln_TCAB (n : Nat) : Nat := 0x400c8 + 0x400 * n
/-- MET_Ln_RCREC: cable record (spec/07, R139). -/
def MET_Ln_RCREC (n : Nat) : Nat := 0x400cc + 0x400 * n
/-- MET_Ln_LSEC: cable loss (spec/07, R139). -/
def MET_Ln_LSEC (n : Nat) : Nat := 0x400d0 + 0x400 * n
/-- MET_PPOk_CFG: proof-pulse configuration (spec/07, R144). -/
def MET_PPOk_CFG (k : Nat) : Nat := 0x48500 + 0x8 * k
/-- MET_PPOk_CONST: proof-pulse constant (spec/07, R144). -/
def MET_PPOk_CONST (k : Nat) : Nat := 0x48504 + 0x8 * k
/-- MET_PPO_STAT: proof-pulse status (spec/07, R144). -/
def MET_PPO_STAT : Nat := 0x48520
/-- BIL_Ln_IMPr: import energy at rate r (spec/08, R146). -/
def BIL_Ln_IMPr (n : Nat) (r : Nat) : Nat := 0x60000 + 0x100 * n + 0x8 * r
/-- BIL_Ln_EXPr: export energy at rate r (spec/08, R146). -/
def BIL_Ln_EXPr (n : Nat) (r : Nat) : Nat := 0x60080 + 0x100 * n + 0x8 * r
/-- BIL_Ln_SNUM: session register (spec/08, R158). -/
def BIL_Ln_SNUM (n : Nat) : Nat := 0x62000 + 0x40 * n
/-- BIL_Ln_SSTAT: session register (spec/08, R158). -/
def BIL_Ln_SSTAT (n : Nat) : Nat := 0x62004 + 0x40 * n
/-- BIL_Ln_START: session register (spec/08, R158). -/
def BIL_Ln_START (n : Nat) : Nat := 0x62008 + 0x40 * n
/-- BIL_Ln_DUR: session register (spec/08, R158). -/
def BIL_Ln_DUR (n : Nat) : Nat := 0x6200c + 0x40 * n
/-- BIL_Ln_IDLE: session register (spec/08, R158). -/
def BIL_Ln_IDLE (n : Nat) : Nat := 0x62030 + 0x40 * n
/-- BIL_Ln_IDLETOT: session register (spec/08, R158). -/
def BIL_Ln_IDLETOT (n : Nat) : Nat := 0x62034 + 0x40 * n
/-- BIL_Ln_SOIMP: session energy: q = 0 SOIMP, 1 SOEXP, 2 SIIMP, 3 SIEXP (spec/08, R158). -/
def BIL_Ln_SOIMP (n : Nat) (q : Nat) : Nat := 0x62010 + 0x40 * n + 0x8 * q
/-- BIL_CTL: billing control (spec/08, R171). -/
def BIL_CTL : Nat := 0x63000
/-- BIL_STAT: billing status (spec/08, R171). -/
def BIL_STAT : Nat := 0x63004
/-- BIL_CALW: tariff calendar window, word w (spec/08, R151). -/
def BIL_CALW (w : Nat) : Nat := 0x68000 + 0x4 * w
/-- BIL_NOW: rate in force (spec/08, R171). -/
def BIL_NOW : Nat := 0x63008
/-- BIL_PER: billing period (spec/08, R171). -/
def BIL_PER : Nat := 0x6300c
/-- BIL_BCLK: billing clock (spec/08, R171). -/
def BIL_BCLK : Nat := 0x63010
/-- BIL_CADJ: clock adjustment state (spec/08, R171). -/
def BIL_CADJ : Nat := 0x63014
/-- BIL_LDG_BASE: ledger ring base (spec/08, R171). -/
def BIL_LDG_BASE : Nat := 0x63020
/-- BIL_LDG_SIZE: ledger ring size (spec/08, R171). -/
def BIL_LDG_SIZE : Nat := 0x63024
/-- BIL_LDG_PTR: ledger pointers (spec/08, R171). -/
def BIL_LDG_PTR : Nat := 0x63028
/-- BIL_LDG_LOST: ledger entries not stored (spec/08, R171). -/
def BIL_LDG_LOST : Nat := 0x6302c
/-- BIL_HSTAT: hamper status (spec/08, R171). -/
def BIL_HSTAT : Nat := 0x63030
/-- BIL_HCFG: power-fail configuration (spec/08, R171). -/
def BIL_HCFG : Nat := 0x63034
/-- BIL_HTIME: last final save (spec/08, R171). -/
def BIL_HTIME : Nat := 0x63038
/-- BIL_REGEPOCH: register epoch (spec/08, R171). -/
def BIL_REGEPOCH : Nat := 0x6303c
/-- BIL_UNSAVED: lanes with unsaved intervals (spec/08, R171). -/
def BIL_UNSAVED : Nat := 0x63040
/-- THM_WALL: wall time (spec/08, R171). -/
def THM_WALL : Nat := 0x130000
/-- THM_WSET: wall time set (spec/08, R171). -/
def THM_WSET : Nat := 0x130008
/-- THM_LOSS: last supply loss (spec/08, R171). -/
def THM_LOSS : Nat := 0x130010
/-- THM_TMP_CFG: tamper configuration (spec/08, R171). -/
def THM_TMP_CFG : Nat := 0x130020
/-- THM_TMP_STAT: tamper status (spec/08, R171). -/
def THM_TMP_STAT : Nat := 0x130024
/-- THM_JRD: journal read pointer (spec/08, R171). -/
def THM_JRD : Nat := 0x130028
/-- THM_JDATA: journal read port (spec/08, R171). -/
def THM_JDATA : Nat := 0x13002c
/-- PIL_Ln_CTL: lane session control (spec/09, R202). -/
def PIL_Ln_CTL (n : Nat) : Nat := 0x80000 + 0x400 * n
/-- PIL_Ln_ACV: AC conversion (spec/09, R202). -/
def PIL_Ln_ACV (n : Nat) : Nat := 0x80004 + 0x400 * n
/-- PIL_Ln_PPCFG: accepted proximity codes (spec/09, R202). -/
def PIL_Ln_PPCFG (n : Nat) : Nat := 0x80008 + 0x400 * n
/-- PIL_Ln_DUTY: pilot output in force (spec/09, R202). -/
def PIL_Ln_DUTY (n : Nat) : Nat := 0x80010 + 0x400 * n
/-- PIL_Ln_PLAT: plateaus (spec/09, R202). -/
def PIL_Ln_PLAT (n : Nat) : Nat := 0x80014 + 0x400 * n
/-- PIL_Ln_CPST: pilot state (spec/09, R202). -/
def PIL_Ln_CPST (n : Nat) : Nat := 0x80018 + 0x400 * n
/-- PIL_Ln_PP: proximity (spec/09, R202). -/
def PIL_Ln_PP (n : Nat) : Nat := 0x8001c + 0x400 * n
/-- PIL_Ln_SESS: session (spec/09, R202). -/
def PIL_Ln_SESS (n : Nat) : Nat := 0x80020 + 0x400 * n
/-- PIL_Ln_EVT: session events (spec/09, R202). -/
def PIL_Ln_EVT (n : Nat) : Nat := 0x80024 + 0x400 * n
/-- PIL_Ln_STEPT: time in step (spec/09, R202). -/
def PIL_Ln_STEPT (n : Nat) : Nat := 0x80028 + 0x400 * n
/-- PIL_Ln_CMD: session commands (spec/09, R202). -/
def PIL_Ln_CMD (n : Nat) : Nat := 0x8002c + 0x400 * n
/-- PIL_Ln_SLAC: matching (spec/09, R202). -/
def PIL_Ln_SLAC (n : Nat) : Nat := 0x80030 + 0x400 * n
/-- PIL_Ln_EVMAC: vehicle modem address (spec/09, R202). -/
def PIL_Ln_EVMAC (n : Nat) : Nat := 0x80034 + 0x400 * n
/-- PIL_Ln_AUTH: authorisation (spec/09, R202). -/
def PIL_Ln_AUTH (n : Nat) : Nat := 0x8003c + 0x400 * n
/-- PIL_Ln_EVMAX: vehicle values (spec/09, R202). -/
def PIL_Ln_EVMAX (n : Nat) (i : Nat) : Nat := 0x80040 + 0x400 * n + 0x4 * i
/-- PIL_Ln_MDM: modem link (spec/09, R202). -/
def PIL_Ln_MDM (n : Nat) : Nat := 0x80070 + 0x400 * n
/-- PIL_Ln_XCNTc: exit-cause counter (spec/09, R202). -/
def PIL_Ln_XCNTc (n : Nat) (c : Nat) : Nat := 0x90000 + 0x100 * n + 0x4 * c
/-- PIL_THR0: pilot thresholds (spec/09, R203). -/
def PIL_THR0 : Nat := 0x88000
/-- PIL_THR1: pilot thresholds (spec/09, R203). -/
def PIL_THR1 : Nat := 0x88004
/-- PIL_THR2: pilot thresholds (spec/09, R203). -/
def PIL_THR2 : Nat := 0x88008
/-- PIL_THR3: low-plateau thresholds (spec/09, R203). -/
def PIL_THR3 : Nat := 0x8800c
/-- PIL_CFG: pilot and modem configuration (spec/09, R203). -/
def PIL_CFG : Nat := 0x88010
/-- PIL_TMR0: step times (spec/09, R203). -/
def PIL_TMR0 : Nat := 0x88020
/-- PIL_TMR1: step times (spec/09, R203). -/
def PIL_TMR1 : Nat := 0x88024
/-- PIL_TMR2: step times (spec/09, R203). -/
def PIL_TMR2 : Nat := 0x88028
/-- PIL_RDRk: reader lanes (spec/09, R203). -/
def PIL_RDRk (k : Nat) : Nat := 0x88040 + 0x4 * k
/-- EFM_Ln_NET: coupling network (spec/10, R223). -/
def EFM_Ln_NET (n : Nat) : Nat := 0x70000 + 0x400 * n
/-- EFM_Ln_RTEST: test references (spec/10, R223). -/
def EFM_Ln_RTEST (n : Nat) : Nat := 0x70004 + 0x400 * n
/-- EFM_Ln_ESCALE: EB full scale (spec/10, R223). -/
def EFM_Ln_ESCALE (n : Nat) : Nat := 0x70008 + 0x400 * n
/-- EFM_Ln_CFG: lane configuration (spec/10, R223). -/
def EFM_Ln_CFG (n : Nat) : Nat := 0x7000c + 0x400 * n
/-- EFM_Ln_INJ: injection in force (spec/10, R223). -/
def EFM_Ln_INJ (n : Nat) : Nat := 0x70010 + 0x400 * n
/-- EFM_Ln_RISO: full-window resistance (spec/10, R223). -/
def EFM_Ln_RISO (n : Nat) : Nat := 0x70020 + 0x400 * n
/-- EFM_Ln_RFAST: fast-window resistance (spec/10, R210). -/
def EFM_Ln_RFAST (n : Nat) : Nat := 0x70024 + 0x400 * n
/-- EFM_Ln_UREF: reference voltage (spec/10, R223). -/
def EFM_Ln_UREF (n : Nat) : Nat := 0x70028 + 0x400 * n
/-- EFM_Ln_VERD: verdict (spec/10, R223). -/
def EFM_Ln_VERD (n : Nat) : Nat := 0x7002c + 0x400 * n
/-- EFM_Ln_STAT: lane status (spec/10, R223). -/
def EFM_Ln_STAT (n : Nat) : Nat := 0x70030 + 0x400 * n
/-- EFM_Ln_ST: last self-test (spec/10, R223). -/
def EFM_Ln_ST (n : Nat) : Nat := 0x70034 + 0x400 * n
/-- EFM_Ln_RCD: residual means (spec/10, R223). -/
def EFM_Ln_RCD (n : Nat) : Nat := 0x70038 + 0x400 * n
/-- EFM_Ln_XCODE: foreign codes (spec/10, R223). -/
def EFM_Ln_XCODE (n : Nat) : Nat := 0x7003c + 0x400 * n
/-- EFM_Ln_CISO: capacitance (spec/10, R223). -/
def EFM_Ln_CISO (n : Nat) : Nat := 0x70040 + 0x400 * n
/-- EFM_THR: insulation thresholds (spec/10, R223). -/
def EFM_THR : Nat := 0x78000
/-- EFM_CFG: monitor configuration (spec/10, R223). -/
def EFM_CFG : Nat := 0x78004
/-- EFM_RCDCFG: residual and test configuration (spec/10, R223). -/
def EFM_RCDCFG : Nat := 0x78008
/-- EFM_GRPg_RSYS: group system resistance (spec/10, R223). -/
def EFM_GRPg_RSYS (g : Nat) : Nat := 0x78100 + 0x8 * g
/-- EFM_GRPg_RREM: module-side remainder (spec/10, R210). -/
def EFM_GRPg_RREM (g : Nat) : Nat := 0x78104 + 0x8 * g
/-- ALC_CFG: allocation configuration (spec/11, R250). -/
def ALC_CFG : Nat := 0xa0000
/-- ALC_VER: allocator versions (spec/11, R250). -/
def ALC_VER : Nat := 0xa0004
/-- ALC_RISE: rise limit (spec/11, R250). -/
def ALC_RISE : Nat := 0xa0008
/-- ALC_ZPATHj: zone path (spec/11, R250). -/
def ALC_ZPATHj (j : Nat) : Nat := 0xa0010 + 0x4 * j
/-- ALC_ZLIMj: import limit (spec/11, R250). -/
def ALC_ZLIMj (j : Nat) : Nat := 0xa0020 + 0x8 * j
/-- ALC_ZEXPj: zone export limit (spec/11, R225). -/
def ALC_ZEXPj (j : Nat) : Nat := 0xa0024 + 0x8 * j
/-- ALC_STAT: allocation status (spec/11, R250). -/
def ALC_STAT : Nat := 0xa0040
/-- ALC_GDIG: applied digest (spec/11, R250). -/
def ALC_GDIG : Nat := 0xa0044
/-- ALC_TIME: computation time (spec/11, R250). -/
def ALC_TIME : Nat := 0xa0048
/-- ALC_PLIM: limit used (spec/11, R250). -/
def ALC_PLIM : Nat := 0xa004c
/-- ALC_PEXP: export limit (spec/11, R241). -/
def ALC_PEXP : Nat := 0xa0050
/-- ALC_AUXB: aux inrush budget (spec/11, R250). -/
def ALC_AUXB : Nat := 0xa0060
/-- ALC_HEATB: field-die heat budget (spec/11, R250). -/
def ALC_HEATB : Nat := 0xa0064
/-- ALC_COST: heat booked per kind (spec/11, R250). -/
def ALC_COST : Nat := 0xa0068
/-- ALC_SQ: start queue (spec/11, R250). -/
def ALC_SQ : Nat := 0xa006c
/-- ALC_SWAIT: non-lane waits (spec/11, R250). -/
def ALC_SWAIT : Nat := 0xa0070
/-- ALC_SBOOK: bookings (spec/11, R250). -/
def ALC_SBOOK : Nat := 0xa0074
/-- ALC_SCTL: scheduler control (spec/11, R250). -/
def ALC_SCTL : Nat := 0xa0078
/-- ALC_Ln_GRANT: grant in force (spec/11, R250). -/
def ALC_Ln_GRANT (n : Nat) : Nat := 0xa0100 + 0x10 * n
/-- ALC_Ln_NEXT: grant for the next launch edge (spec/11, R245). -/
def ALC_Ln_NEXT (n : Nat) : Nat := 0xa0104 + 0x10 * n
/-- ALC_Ln_INFO: lane allocation state (spec/11, R250). -/
def ALC_Ln_INFO (n : Nat) : Nat := 0xa0108 + 0x10 * n
/-- ALC_Ln_WAIT: start waits (spec/11, R250). -/
def ALC_Ln_WAIT (n : Nat) : Nat := 0xa010c + 0x10 * n
/-- ALC_GCAPg: group capacity (spec/11, R250). -/
def ALC_GCAPg (g : Nat) : Nat := 0xa0300 + 0x4 * g
/-- ALC_MEMm: member table entry (spec/11, R250). -/
def ALC_MEMm (m : Nat) : Nat := 0xa1000 + 0x8 * m
/-- SWA_Ln_CCCFG: contactor configuration (spec/12, R272). -/
def SWA_Ln_CCCFG (n : Nat) : Nat := 0xb0000 + 0x400 * n
/-- SWA_Ln_LKCFG: lock configuration (spec/12, R272). -/
def SWA_Ln_LKCFG (n : Nat) : Nat := 0xb0004 + 0x400 * n
/-- SWA_Ln_CCST: contactor state (spec/12, R272). -/
def SWA_Ln_CCST (n : Nat) : Nat := 0xb0010 + 0x400 * n
/-- SWA_Ln_LKST: lock state (spec/12, R272). -/
def SWA_Ln_LKST (n : Nat) : Nat := 0xb0014 + 0x400 * n
/-- SWA_Ln_CLMP: lane clamp buckets (spec/12, R272). -/
def SWA_Ln_CLMP (n : Nat) : Nat := 0xb0018 + 0x400 * n
/-- SWA_Ln_STAT: lane channel status (spec/12, R272). -/
def SWA_Ln_STAT (n : Nat) : Nat := 0xb001c + 0x400 * n
/-- SWA_Ln_CMD: lane channel commands (spec/12, R272). -/
def SWA_Ln_CMD (n : Nat) : Nat := 0xb0020 + 0x400 * n
/-- SWA_CFG: protection configuration (spec/12, R272). -/
def SWA_CFG : Nat := 0xb8000
/-- SWA_CLAMPCFG: clamp budget (spec/12, R272). -/
def SWA_CLAMPCFG : Nat := 0xb8004
/-- SWA_Gk_CFG: general channel configuration (spec/12, R272). -/
def SWA_Gk_CFG (k : Nat) : Nat := 0xb8100 + 0x8 * k
/-- SWA_Gk_INR: general channel inrush (spec/12, R272). -/
def SWA_Gk_INR (k : Nat) : Nat := 0xb8104 + 0x8 * k
/-- SWA_Gk_CTL: general channel command (spec/12, R272). -/
def SWA_Gk_CTL (k : Nat) : Nat := 0xb8300 + 0x4 * k
/-- SWA_Gk_ST: general channel status (spec/12, R272). -/
def SWA_Gk_ST (k : Nat) : Nat := 0xb8380 + 0x4 * k
/-- SWA_Gk_BKT: general channel clamp bucket (spec/12, R272). -/
def SWA_Gk_BKT (k : Nat) : Nat := 0xb8400 + 0x4 * k
/-- SWA_SUPPLY: aux supply status (spec/12, R272). -/
def SWA_SUPPLY : Nat := 0xb8500
/-- SWA_DISS: field-die dissipation (spec/12, R272). -/
def SWA_DISS : Nat := 0xb8504
/-- SWA_PBASE: field-die base dissipation (spec/12, R272). -/
def SWA_PBASE : Nat := 0xb8508
/-- SWA_THERM: thermal shedding (spec/12, R272). -/
def SWA_THERM : Nat := 0xb850c
/-- SAF_STAT: safety status (spec/13, R301). -/
def SAF_STAT : Nat := 0xc0000
/-- SAF_EVT: safety events (spec/13, R301). -/
def SAF_EVT : Nat := 0xc0004
/-- SAF_CMD: safety request (spec/13, R301). -/
def SAF_CMD : Nat := 0xc0008
/-- SAF_ACON: A-channel close consents (spec/13, R301). -/
def SAF_ACON (i : Nat) : Nat := 0xc0010 + 0x4 * i
/-- SAF_GUARD: guard pairs (spec/13, R301). -/
def SAF_GUARD : Nat := 0xc0030
/-- SAF_CMP: compare counters (spec/13, R301). -/
def SAF_CMP : Nat := 0xc0034
/-- SAF_CFGCRC: configuration check (spec/13, R301). -/
def SAF_CFGCRC : Nat := 0xc0038
/-- SAF_CFG: safety configuration (spec/13, R301). -/
def SAF_CFG : Nat := 0xc8000
/-- SAF_GDCFG: guard roles (spec/13, R301). -/
def SAF_GDCFG : Nat := 0xc8004
/-- SAF_GRPMAP: SO mapping (spec/13, R301). -/
def SAF_GRPMAP : Nat := 0xc8008
/-- SAF_ID: safety identity (spec/13, R301). -/
def SAF_ID : Nat := 0xc800c
/-- SAF_CONNk_CFG: connection k (spec/13, R301). -/
def SAF_CONNk_CFG (k : Nat) : Nat := 0xc8100 + 0x10 * k
/-- SAF_CONNk_PEER: peer identity (spec/13, R301). -/
def SAF_CONNk_PEER (k : Nat) : Nat := 0xc8104 + 0x10 * k
/-- SAF_CONNk_ST: connection state (spec/13, R301). -/
def SAF_CONNk_ST (k : Nat) : Nat := 0xc8108 + 0x10 * k
/-- SAF_CONNk_CNT: connection counters (spec/13, R301). -/
def SAF_CONNk_CNT (k : Nat) : Nat := 0xc810c + 0x10 * k
/-- FLT_SUMk: sticky summary (spec/14, R319). -/
def FLT_SUMk (k : Nat) : Nat := 0x20000 + 0x4 * k
/-- FLT_CFG: collector configuration (spec/14, R319). -/
def FLT_CFG : Nat := 0x20040
/-- FLT_CLRMASK: lanes of a clearing write (spec/14, R319). -/
def FLT_CLRMASK : Nat := 0x20044
/-- FLT_PIN: fault pins (spec/14, R319). -/
def FLT_PIN : Nat := 0x20050
/-- FLT_RETIRED: retired lanes (spec/14, R319). -/
def FLT_RETIRED : Nat := 0x20060
/-- FLT_RETCMD: retirement command (spec/14, R319). -/
def FLT_RETCMD : Nat := 0x20064
/-- FLT_LANEF: lanes with faults in force (spec/14, R319). -/
def FLT_LANEF : Nat := 0x20068
/-- FLT_WDOG: heartbeat (spec/14, R319). -/
def FLT_WDOG : Nat := 0x20070
/-- FLT_WDCFG: heartbeat configuration (spec/14, R319). -/
def FLT_WDCFG : Nat := 0x20074
/-- FLT_SRCi: source i (spec/14, R319). -/
def FLT_SRCi (i : Nat) : Nat := 0x20400 + 0x4 * i
/-- FLT_SRCi_LSTK: lane sticky bits (spec/14, R319). -/
def FLT_SRCi_LSTK (i : Nat) : Nat := 0x20800 + 0x8 * i
/-- FLT_SRCi_LCAU: lane cause-present bits (spec/14, R304). -/
def FLT_SRCi_LCAU (i : Nat) : Nat := 0x20804 + 0x8 * i
/-- FLT_QENk_CTL: encoder k control (spec/14, R319). -/
def FLT_QENk_CTL (k : Nat) : Nat := 0x21000 + 0x10 * k
/-- FLT_QENk_HOME: home value (spec/14, R319). -/
def FLT_QENk_HOME (k : Nat) : Nat := 0x21004 + 0x10 * k
/-- FLT_QENk_CNT: position count (spec/14, R319). -/
def FLT_QENk_CNT (k : Nat) : Nat := 0x21008 + 0x10 * k
/-- SBU_CFG: site bus configuration (spec/15, R336). -/
def SBU_CFG : Nat := 0xf0000
/-- SBU_STAT: site bus status (spec/15, R336). -/
def SBU_STAT : Nat := 0xf0004
/-- SBU_MASTER: master (spec/15, R336). -/
def SBU_MASTER : Nat := 0xf0008
/-- SBU_BMAP: broadcast map (spec/15, R336). -/
def SBU_BMAP : Nat := 0xf000c
/-- SBU_ROUND: round time (spec/15, R336). -/
def SBU_ROUND : Nat := 0xf0010
/-- SBU_CNT: frame counters (spec/15, R336). -/
def SBU_CNT : Nat := 0xf0014
/-- SBU_CNT2: relay and map counters (spec/15, R336). -/
def SBU_CNT2 : Nat := 0xf0018
/-- SBU_FINJ: fault injection control (spec/15, R336). -/
def SBU_FINJ : Nat := 0xf0040
/-- SBU_FIRATE: fault injection rates (spec/15, R336). -/
def SBU_FIRATE : Nat := 0xf0044
/-- SBU_FICNT: fault injection counts (spec/15, R336). -/
def SBU_FICNT : Nat := 0xf0048
/-- SBU_NBRm: neighbour m (spec/15, R336). -/
def SBU_NBRm (m : Nat) : Nat := 0xf0100 + 0x10 * m
/-- LNK_ETHp_CFG: Ethernet port p (spec/16, R355). -/
def LNK_ETHp_CFG (p : Nat) : Nat := 0x100000 + 0x10 * p
/-- LNK_ETHp_STAT: Ethernet status (spec/16, R355). -/
def LNK_ETHp_STAT (p : Nat) : Nat := 0x100004 + 0x10 * p
/-- LNK_PTP: time configuration (spec/16, R355). -/
def LNK_PTP : Nat := 0x100020
/-- LNK_JLk_ST: joining link k (spec/16, R355). -/
def LNK_JLk_ST (k : Nat) : Nat := 0x100040 + 0x4 * k
/-- LNK_CANp_CFG: CAN FD port p (spec/16, R355). -/
def LNK_CANp_CFG (p : Nat) : Nat := 0x100080 + 0x10 * p
/-- LNK_CANp_ST: CAN FD status (spec/16, R355). -/
def LNK_CANp_ST (p : Nat) : Nat := 0x100084 + 0x10 * p
/-- LNK_MODm: module m (spec/16, R355). -/
def LNK_MODm (m : Nat) : Nat := 0x100400 + 0x8 * m
/-- LNK_HP_ST: host port counters (spec/16, R355). -/
def LNK_HP_ST : Nat := 0x1000c0
/-- LNK_FINJ: fault injection control (spec/16, R355). -/
def LNK_FINJ : Nat := 0x1000e0
/-- LNK_FIRATE: fault injection rates (spec/16, R354). -/
def LNK_FIRATE : Nat := 0x1000e4
/-- LNK_FICNT: fault injection counts (spec/16, R354). -/
def LNK_FICNT : Nat := 0x1000e8
/-- KEY_STAT: key store status (spec/17, R371). -/
def KEY_STAT : Nat := 0xd0000
/-- KEY_CMD: command (spec/17, R371). -/
def KEY_CMD : Nat := 0xd0004
/-- KEY_ADDR: blob address (spec/17, R371). -/
def KEY_ADDR : Nat := 0xd0008
/-- KEY_RESEAL: re-seal status (spec/17, R371). -/
def KEY_RESEAL : Nat := 0xd000c
/-- KEY_ZST: zeroise (spec/17, R371). -/
def KEY_ZST : Nat := 0xd0010
/-- KEY_SEL: select words (spec/17, R371). -/
def KEY_SEL : Nat := 0xd0018
/-- KEY_ROOTID: root fingerprint (spec/17, R371). -/
def KEY_ROOTID : Nat := 0xd0028
/-- KEY_KGEN: billing key generation (spec/17, R371). -/
def KEY_KGEN : Nat := 0xd002c
/-- KEY_MEASj: measurement (spec/17, R371). -/
def KEY_MEASj (j : Nat) : Nat := 0xd0100 + 0x20 * j
/-- KEY_NMEASj: measurement of the rucksack (spec/17, R368). -/
def KEY_NMEASj (j : Nat) : Nat := 0xd0180 + 0x20 * j
/-- KEY_PUB: public key (spec/17, R371). -/
def KEY_PUB : Nat := 0xd0200
/-- KEY_SLOTn: slot attributes (spec/17, R371). -/
def KEY_SLOTn (n : Nat) : Nat := 0xd0400 + 0x4 * n
/-- UPD_STAT: update status (spec/18, R383). -/
def UPD_STAT : Nat := 0xe0000
/-- UPD_BANK: bank state (spec/18, R383). -/
def UPD_BANK : Nat := 0xe0004
/-- UPD_DLV: delivery (spec/18, R383). -/
def UPD_DLV : Nat := 0xe0008
/-- UPD_CTL: update commands (spec/18, R383). -/
def UPD_CTL : Nat := 0xe000c
/-- UPD_REFUSE: refusal conditions (spec/18, R383). -/
def UPD_REFUSE : Nat := 0xe0010
/-- UPD_CFG: update configuration (spec/18, R383). -/
def UPD_CFG : Nat := 0xe0014
/-- UPD_LOCK: owner lock (spec/18, R383). -/
def UPD_LOCK : Nat := 0xe0018
/-- UPD_VER: versions (spec/18, R383). -/
def UPD_VER : Nat := 0xe0020
/-- UPD_CNT: block counters (spec/18, R383). -/
def UPD_CNT : Nat := 0xe0028
/-- UPD_BLK: block window (spec/18, R383). -/
def UPD_BLK : Nat := 0xe0800
/-- UPD_BMAPw: resume bitmap (spec/18, R383). -/
def UPD_BMAPw (w : Nat) : Nat := 0xe1000 + 0x4 * w
/-- DMA_CHn_CFG: channel configuration (spec/19, R396). -/
def DMA_CHn_CFG (n : Nat) : Nat := 0x30000 + 0x40 * n
/-- DMA_CHn_ITIN: itinerary (spec/19, R396). -/
def DMA_CHn_ITIN (n : Nat) : Nat := 0x30004 + 0x40 * n
/-- DMA_CHn_CTL: channel commands (spec/19, R396). -/
def DMA_CHn_CTL (n : Nat) : Nat := 0x30008 + 0x40 * n
/-- DMA_CHn_STAT: channel status (spec/19, R396). -/
def DMA_CHn_STAT (n : Nat) : Nat := 0x3000c + 0x40 * n
/-- DMA_CHn_RES: residue (spec/19, R396). -/
def DMA_CHn_RES (n : Nat) : Nat := 0x30010 + 0x40 * n
/-- DMA_CHn_CNT: bytes moved (spec/19, R396). -/
def DMA_CHn_CNT (n : Nat) : Nat := 0x30014 + 0x40 * n
/-- DMA_CHn_WB: write-back address (spec/19, R396). -/
def DMA_CHn_WB (n : Nat) : Nat := 0x30018 + 0x40 * n
/-- DMA_WEIGHT: level weights (spec/19, R396). -/
def DMA_WEIGHT : Nat := 0x38000
/-- DMA_IRQSUM: interrupt summary (spec/19, R396). -/
def DMA_IRQSUM : Nat := 0x38004
/-- DMA_ACTIVE: busy channels (spec/19, R396). -/
def DMA_ACTIVE : Nat := 0x38008
/-- NFC_RDk_CFG: reader k configuration (spec/20, R408). -/
def NFC_RDk_CFG (k : Nat) : Nat := 0x110000 + 0x20 * k
/-- NFC_RDk_CTL: reader k commands (spec/20, R408). -/
def NFC_RDk_CTL (k : Nat) : Nat := 0x110004 + 0x20 * k
/-- NFC_RDk_ST: reader k status (spec/20, R408). -/
def NFC_RDk_ST (k : Nat) : Nat := 0x110008 + 0x20 * k
/-- NFC_RDk_UID: last card identity (spec/20, R408). -/
def NFC_RDk_UID (k : Nat) : Nat := 0x11000c + 0x20 * k
/-- NFC_RDk_CNT: reader k counters (spec/20, R408). -/
def NFC_RDk_CNT (k : Nat) : Nat := 0x110018 + 0x20 * k
/-- NFC_TAG_CFG: service tag configuration (spec/20, R408). -/
def NFC_TAG_CFG : Nat := 0x110100
/-- NFC_TAG_ST: service tag status (spec/20, R408). -/
def NFC_TAG_ST : Nat := 0x110104
/-- NFC_TAG_LEN: committed length (spec/20, R408). -/
def NFC_TAG_LEN : Nat := 0x110108
/-- DPY_CFG: display configuration (spec/21, R416). -/
def DPY_CFG : Nat := 0x120000
/-- DPY_CTL: display commands (spec/21, R416). -/
def DPY_CTL : Nat := 0x120004
/-- DPY_STAT: display status (spec/21, R416). -/
def DPY_STAT : Nat := 0x120008
/-- DPY_PANEL: panel format (spec/21, R416). -/
def DPY_PANEL : Nat := 0x120010
/-- DPY_FBASE: frame buffer (spec/21, R416). -/
def DPY_FBASE : Nat := 0x120014
/-- DPY_IREFc: reference of colour c (spec/21, R416). -/
def DPY_IREFc (c : Nat) : Nat := 0x120020 + 0x4 * c
/-- DPY_TCOMP: compensation sensor (spec/21, R416). -/
def DPY_TCOMP : Nat := 0x120030
/-- DPY_LCD: segment drive (spec/21, R416). -/
def DPY_LCD : Nat := 0x120040
/-- DPY_VLCD: drive voltage in force (spec/21, R416). -/
def DPY_VLCD : Nat := 0x120044
/-- DPY_SEGDc: segment data of common c (spec/21, R416). -/
def DPY_SEGDc (c : Nat) : Nat := 0x120080 + 0x8 * c
/-- DPY_GAMc_i: gamma entry i of colour c (spec/21, R416). -/
def DPY_GAMc_i (c : Nat) (i : Nat) : Nat := 0x121000 + 0x400 * c + 0x4 * i
/-- CLU_ID: cluster identity (spec/22, R426). -/
def CLU_ID : Nat := 0x140000
/-- CLU_ECC: memory errors (spec/22, R426). -/
def CLU_ECC : Nat := 0x140010
/-- CLU_ECCADDR: last error address (spec/22, R426). -/
def CLU_ECCADDR : Nat := 0x140014
/-- CLU_ECCCNT: error counts (spec/22, R426). -/
def CLU_ECCCNT : Nat := 0x140018
/-- CLU_BANK: busiest DRAM bank (spec/22, R426). -/
def CLU_BANK : Nat := 0x140020
/-- CLU_XCFG: extension configuration (spec/22, R426). -/
def CLU_XCFG : Nat := 0x140040
/-- CLU_XRD: readable blocks (spec/22, R426). -/
def CLU_XRD : Nat := 0x140044
/-- CLU_XWR: sandbox register writes (spec/22, R424). -/
def CLU_XWR : Nat := 0x140048
/-- CLU_XDRAM: DRAM window (spec/22, R426). -/
def CLU_XDRAM : Nat := 0x140050
/-- CLU_XTICK: tick-memory window (spec/22, R426). -/
def CLU_XTICK : Nat := 0x140054
/-- CLU_XST: extension status (spec/22, R426). -/
def CLU_XST : Nat := 0x140058
/-- CLU_XVIO: last refused access (spec/22, R426). -/
def CLU_XVIO : Nat := 0x14005c

end A

namespace F

/-- Field PEND of SYS_WCTL, RO. -/
def SYS_WCTL_PEND : Fld := ⟨A.SYS_WCTL, 8, 8, 0x0⟩
/-- Field GROUP of SYS_WCTL, RW. -/
def SYS_WCTL_GROUP : Fld := ⟨A.SYS_WCTL, 6, 4, 0x0⟩
/-- Field MODE of SYS_WCTL, RW. -/
def SYS_WCTL_MODE : Fld := ⟨A.SYS_WCTL, 0, 0, 0x0⟩
/-- Field PEND of TCK_WCTL, RO. -/
def TCK_WCTL_PEND : Fld := ⟨A.TCK_WCTL, 8, 8, 0x0⟩
/-- Field GROUP of TCK_WCTL, RW. -/
def TCK_WCTL_GROUP : Fld := ⟨A.TCK_WCTL, 6, 4, 0x0⟩
/-- Field MODE of TCK_WCTL, RW. -/
def TCK_WCTL_MODE : Fld := ⟨A.TCK_WCTL, 0, 0, 0x0⟩
/-- Field PEND of FLT_WCTL, RO. -/
def FLT_WCTL_PEND : Fld := ⟨A.FLT_WCTL, 8, 8, 0x0⟩
/-- Field GROUP of FLT_WCTL, RW. -/
def FLT_WCTL_GROUP : Fld := ⟨A.FLT_WCTL, 6, 4, 0x0⟩
/-- Field MODE of FLT_WCTL, RW. -/
def FLT_WCTL_MODE : Fld := ⟨A.FLT_WCTL, 0, 0, 0x0⟩
/-- Field PEND of DMA_WCTL, RO. -/
def DMA_WCTL_PEND : Fld := ⟨A.DMA_WCTL, 8, 8, 0x0⟩
/-- Field GROUP of DMA_WCTL, RW. -/
def DMA_WCTL_GROUP : Fld := ⟨A.DMA_WCTL, 6, 4, 0x0⟩
/-- Field MODE of DMA_WCTL, RW. -/
def DMA_WCTL_MODE : Fld := ⟨A.DMA_WCTL, 0, 0, 0x0⟩
/-- Field PEND of MET_WCTL, RO. -/
def MET_WCTL_PEND : Fld := ⟨A.MET_WCTL, 8, 8, 0x0⟩
/-- Field GROUP of MET_WCTL, RW. -/
def MET_WCTL_GROUP : Fld := ⟨A.MET_WCTL, 6, 4, 0x0⟩
/-- Field MODE of MET_WCTL, RW. -/
def MET_WCTL_MODE : Fld := ⟨A.MET_WCTL, 0, 0, 0x0⟩
/-- Field PEND of BIL_WCTL, RO. -/
def BIL_WCTL_PEND : Fld := ⟨A.BIL_WCTL, 8, 8, 0x0⟩
/-- Field GROUP of BIL_WCTL, RW. -/
def BIL_WCTL_GROUP : Fld := ⟨A.BIL_WCTL, 6, 4, 0x0⟩
/-- Field MODE of BIL_WCTL, RW. -/
def BIL_WCTL_MODE : Fld := ⟨A.BIL_WCTL, 0, 0, 0x0⟩
/-- Field PEND of EFM_WCTL, RO. -/
def EFM_WCTL_PEND : Fld := ⟨A.EFM_WCTL, 8, 8, 0x0⟩
/-- Field GROUP of EFM_WCTL, RW. -/
def EFM_WCTL_GROUP : Fld := ⟨A.EFM_WCTL, 6, 4, 0x0⟩
/-- Field MODE of EFM_WCTL, RW. -/
def EFM_WCTL_MODE : Fld := ⟨A.EFM_WCTL, 0, 0, 0x0⟩
/-- Field PEND of PIL_WCTL, RO. -/
def PIL_WCTL_PEND : Fld := ⟨A.PIL_WCTL, 8, 8, 0x0⟩
/-- Field GROUP of PIL_WCTL, RW. -/
def PIL_WCTL_GROUP : Fld := ⟨A.PIL_WCTL, 6, 4, 0x0⟩
/-- Field MODE of PIL_WCTL, RW. -/
def PIL_WCTL_MODE : Fld := ⟨A.PIL_WCTL, 0, 0, 0x0⟩
/-- Field PEND of ALC_WCTL, RO. -/
def ALC_WCTL_PEND : Fld := ⟨A.ALC_WCTL, 8, 8, 0x0⟩
/-- Field GROUP of ALC_WCTL, RW. -/
def ALC_WCTL_GROUP : Fld := ⟨A.ALC_WCTL, 6, 4, 0x0⟩
/-- Field MODE of ALC_WCTL, RW. -/
def ALC_WCTL_MODE : Fld := ⟨A.ALC_WCTL, 0, 0, 0x0⟩
/-- Field PEND of SWA_WCTL, RO. -/
def SWA_WCTL_PEND : Fld := ⟨A.SWA_WCTL, 8, 8, 0x0⟩
/-- Field GROUP of SWA_WCTL, RW. -/
def SWA_WCTL_GROUP : Fld := ⟨A.SWA_WCTL, 6, 4, 0x0⟩
/-- Field MODE of SWA_WCTL, RW. -/
def SWA_WCTL_MODE : Fld := ⟨A.SWA_WCTL, 0, 0, 0x0⟩
/-- Field PEND of SAF_WCTL, RO. -/
def SAF_WCTL_PEND : Fld := ⟨A.SAF_WCTL, 8, 8, 0x0⟩
/-- Field GROUP of SAF_WCTL, RW. -/
def SAF_WCTL_GROUP : Fld := ⟨A.SAF_WCTL, 6, 4, 0x0⟩
/-- Field MODE of SAF_WCTL, RW. -/
def SAF_WCTL_MODE : Fld := ⟨A.SAF_WCTL, 0, 0, 0x0⟩
/-- Field PEND of KEY_WCTL, RO. -/
def KEY_WCTL_PEND : Fld := ⟨A.KEY_WCTL, 8, 8, 0x0⟩
/-- Field GROUP of KEY_WCTL, RW. -/
def KEY_WCTL_GROUP : Fld := ⟨A.KEY_WCTL, 6, 4, 0x0⟩
/-- Field MODE of KEY_WCTL, RW. -/
def KEY_WCTL_MODE : Fld := ⟨A.KEY_WCTL, 0, 0, 0x0⟩
/-- Field PEND of UPD_WCTL, RO. -/
def UPD_WCTL_PEND : Fld := ⟨A.UPD_WCTL, 8, 8, 0x0⟩
/-- Field GROUP of UPD_WCTL, RW. -/
def UPD_WCTL_GROUP : Fld := ⟨A.UPD_WCTL, 6, 4, 0x0⟩
/-- Field MODE of UPD_WCTL, RW. -/
def UPD_WCTL_MODE : Fld := ⟨A.UPD_WCTL, 0, 0, 0x0⟩
/-- Field PEND of SBU_WCTL, RO. -/
def SBU_WCTL_PEND : Fld := ⟨A.SBU_WCTL, 8, 8, 0x0⟩
/-- Field GROUP of SBU_WCTL, RW. -/
def SBU_WCTL_GROUP : Fld := ⟨A.SBU_WCTL, 6, 4, 0x0⟩
/-- Field MODE of SBU_WCTL, RW. -/
def SBU_WCTL_MODE : Fld := ⟨A.SBU_WCTL, 0, 0, 0x0⟩
/-- Field PEND of LNK_WCTL, RO. -/
def LNK_WCTL_PEND : Fld := ⟨A.LNK_WCTL, 8, 8, 0x0⟩
/-- Field GROUP of LNK_WCTL, RW. -/
def LNK_WCTL_GROUP : Fld := ⟨A.LNK_WCTL, 6, 4, 0x0⟩
/-- Field MODE of LNK_WCTL, RW. -/
def LNK_WCTL_MODE : Fld := ⟨A.LNK_WCTL, 0, 0, 0x0⟩
/-- Field PEND of NFC_WCTL, RO. -/
def NFC_WCTL_PEND : Fld := ⟨A.NFC_WCTL, 8, 8, 0x0⟩
/-- Field GROUP of NFC_WCTL, RW. -/
def NFC_WCTL_GROUP : Fld := ⟨A.NFC_WCTL, 6, 4, 0x0⟩
/-- Field MODE of NFC_WCTL, RW. -/
def NFC_WCTL_MODE : Fld := ⟨A.NFC_WCTL, 0, 0, 0x0⟩
/-- Field PEND of DPY_WCTL, RO. -/
def DPY_WCTL_PEND : Fld := ⟨A.DPY_WCTL, 8, 8, 0x0⟩
/-- Field GROUP of DPY_WCTL, RW. -/
def DPY_WCTL_GROUP : Fld := ⟨A.DPY_WCTL, 6, 4, 0x0⟩
/-- Field MODE of DPY_WCTL, RW. -/
def DPY_WCTL_MODE : Fld := ⟨A.DPY_WCTL, 0, 0, 0x0⟩
/-- Field PEND of THM_WCTL, RO. -/
def THM_WCTL_PEND : Fld := ⟨A.THM_WCTL, 8, 8, 0x0⟩
/-- Field GROUP of THM_WCTL, RW. -/
def THM_WCTL_GROUP : Fld := ⟨A.THM_WCTL, 6, 4, 0x0⟩
/-- Field MODE of THM_WCTL, RW. -/
def THM_WCTL_MODE : Fld := ⟨A.THM_WCTL, 0, 0, 0x0⟩
/-- Field PEND of CLU_WCTL, RO. -/
def CLU_WCTL_PEND : Fld := ⟨A.CLU_WCTL, 8, 8, 0x0⟩
/-- Field GROUP of CLU_WCTL, RW. -/
def CLU_WCTL_GROUP : Fld := ⟨A.CLU_WCTL, 6, 4, 0x0⟩
/-- Field MODE of CLU_WCTL, RW. -/
def CLU_WCTL_MODE : Fld := ⟨A.CLU_WCTL, 0, 0, 0x0⟩
/-- Field PEND of SYS_STROBE, RO. -/
def SYS_STROBE_PEND : Fld := ⟨A.SYS_STROBE, 15, 8, 0x0⟩
/-- Field GO of SYS_STROBE, W1P. -/
def SYS_STROBE_GO : Fld := ⟨A.SYS_STROBE, 7, 0, 0x0⟩
/-- Field DROP of SYS_DISCARD, W1P. -/
def SYS_DISCARD_DROP : Fld := ⟨A.SYS_DISCARD, 7, 0, 0x0⟩
/-- Field TICK of SYS_STRg_TICK, RW. -/
def SYS_STRg_TICK_TICK (g : Nat) : Fld := ⟨A.SYS_STRg_TICK g, 31, 0, 0x0⟩
/-- Field ARMED of SYS_STRg_CTL, RO. -/
def SYS_STRg_CTL_ARMED (g : Nat) : Fld := ⟨A.SYS_STRg_CTL g, 2, 2, 0x0⟩
/-- Field CANCEL of SYS_STRg_CTL, W1P. -/
def SYS_STRg_CTL_CANCEL (g : Nat) : Fld := ⟨A.SYS_STRg_CTL g, 1, 1, 0x0⟩
/-- Field ARM of SYS_STRg_CTL, W1P. -/
def SYS_STRg_CTL_ARM (g : Nat) : Fld := ⟨A.SYS_STRg_CTL g, 0, 0, 0x0⟩
/-- Field SEQ of SYS_STR_STAT, RO. -/
def SYS_STR_STAT_SEQ : Fld := ⟨A.SYS_STR_STAT, 31, 24, 0x0⟩
/-- Field REFUSED of SYS_STR_STAT, SQC. -/
def SYS_STR_STAT_REFUSED : Fld := ⟨A.SYS_STR_STAT, 15, 8, 0x0⟩
/-- Field MISSED of SYS_STR_STAT, SQC. -/
def SYS_STR_STAT_MISSED : Fld := ⟨A.SYS_STR_STAT, 7, 0, 0x0⟩
/-- Field CLR of SYS_STALE, W1P. -/
def SYS_STALE_CLR : Fld := ⟨A.SYS_STALE, 31, 31, 0x0⟩
/-- Field BLOCK of SYS_STALE, RO. -/
def SYS_STALE_BLOCK : Fld := ⟨A.SYS_STALE, 28, 24, 0x0⟩
/-- Field COUNT of SYS_STALE, RO. -/
def SYS_STALE_COUNT : Fld := ⟨A.SYS_STALE, 15, 0, 0x0⟩
/-- Field PART of SYS_ID, RO. -/
def SYS_ID_PART : Fld := ⟨A.SYS_ID, 31, 16, 0x0⟩
/-- Field MAJOR of SYS_ID, RO. -/
def SYS_ID_MAJOR : Fld := ⟨A.SYS_ID, 7, 4, 0x0⟩
/-- Field MINOR of SYS_ID, RO. -/
def SYS_ID_MINOR : Fld := ⟨A.SYS_ID, 3, 0, 0x0⟩
/-- Field DEVID of SYS_DEVID, RO. -/
def SYS_DEVID_DEVID : Fld := ⟨A.SYS_DEVID, 15, 0, 0x0⟩
/-- Field STAGE of SYS_STAGE, RO. -/
def SYS_STAGE_STAGE : Fld := ⟨A.SYS_STAGE, 3, 0, 0x0⟩
/-- Field OPEN of SYS_HOSTWR, RO. -/
def SYS_HOSTWR_OPEN : Fld := ⟨A.SYS_HOSTWR, 18, 0, 0x0⟩
/-- Field CLR of SYS_WDENY, W1P. -/
def SYS_WDENY_CLR : Fld := ⟨A.SYS_WDENY, 31, 31, 0x0⟩
/-- Field COUNT of SYS_WDENY, RO. -/
def SYS_WDENY_COUNT : Fld := ⟨A.SYS_WDENY, 15, 0, 0x0⟩
/-- Field SEQ of TCK_SYNC, RO. -/
def TCK_SYNC_SEQ : Fld := ⟨A.TCK_SYNC, 31, 24, 0x0⟩
/-- Field STEPPED of TCK_SYNC, SQC. -/
def TCK_SYNC_STEPPED : Fld := ⟨A.TCK_SYNC, 17, 17, 0x0⟩
/-- Field LOSS of TCK_SYNC, SQC. -/
def TCK_SYNC_LOSS : Fld := ⟨A.TCK_SYNC, 16, 16, 0x0⟩
/-- Field STATE of TCK_SYNC, RO. -/
def TCK_SYNC_STATE : Fld := ⟨A.TCK_SYNC, 9, 8, 0x0⟩
/-- Field SRC of TCK_SYNC, RO. -/
def TCK_SYNC_SRC : Fld := ⟨A.TCK_SYNC, 2, 0, 0x0⟩
/-- Field OFS of TCK_OFFSET, RO. -/
def TCK_OFFSET_OFS : Fld := ⟨A.TCK_OFFSET, 31, 0, 0x0⟩
/-- Field MS of TCK_TIME, RO. -/
def TCK_TIME_MS : Fld := ⟨A.TCK_TIME, 63, 0, 0x0⟩
/-- Field COUNT of TCK_FRAME, RO. -/
def TCK_FRAME_COUNT : Fld := ⟨A.TCK_FRAME, 31, 0, 0x0⟩
/-- Field K of TCK_ALC_TICK, RO. -/
def TCK_ALC_TICK_K : Fld := ⟨A.TCK_ALC_TICK, 31, 0, 0x0⟩
/-- Field NEXT of TCK_PERIOD, RO. -/
def TCK_PERIOD_NEXT : Fld := ⟨A.TCK_PERIOD, 22, 16, 0x0⟩
/-- Field P of TCK_PERIOD, RWB. -/
def TCK_PERIOD_P : Fld := ⟨A.TCK_PERIOD, 6, 0, 0x0⟩
/-- Field MERGED of TCK_FENCE, RO. -/
def TCK_FENCE_MERGED : Fld := ⟨A.TCK_FENCE, 31, 16, 0x0⟩
/-- Field GO of TCK_FENCE, W1P. -/
def TCK_FENCE_GO : Fld := ⟨A.TCK_FENCE, 0, 0, 0x0⟩
/-- Field EPOCH of TCK_EPOCH, RO. -/
def TCK_EPOCH_EPOCH : Fld := ⟨A.TCK_EPOCH, 31, 0, 0x0⟩
/-- Field LEDGER of TCK_OVR, RO. -/
def TCK_OVR_LEDGER : Fld := ⟨A.TCK_OVR, 63, 48, 0x0⟩
/-- Field ALLOC of TCK_OVR, RO. -/
def TCK_OVR_ALLOC : Fld := ⟨A.TCK_OVR, 47, 32, 0x0⟩
/-- Field FRAME of TCK_OVR, RO. -/
def TCK_OVR_FRAME : Fld := ⟨A.TCK_OVR, 31, 16, 0x0⟩
/-- Field SAMPLE of TCK_OVR, RO. -/
def TCK_OVR_SAMPLE : Fld := ⟨A.TCK_OVR, 15, 0, 0x0⟩
/-- Field OVRCLR of TCK_CTL, W1P. -/
def TCK_CTL_OVRCLR : Fld := ⟨A.TCK_CTL, 0, 0, 0x0⟩
/-- Field SEQ of SYS_PLSTAT, RO. -/
def SYS_PLSTAT_SEQ : Fld := ⟨A.SYS_PLSTAT, 31, 24, 0x0⟩
/-- Field UNKNOWN of SYS_PLSTAT, RO. -/
def SYS_PLSTAT_UNKNOWN : Fld := ⟨A.SYS_PLSTAT, 23, 16, 0x0⟩
/-- Field PRICAUSE of SYS_PLSTAT, RO. -/
def SYS_PLSTAT_PRICAUSE : Fld := ⟨A.SYS_PLSTAT, 15, 12, 0x0⟩
/-- Field SECCAUSE of SYS_PLSTAT, RO. -/
def SYS_PLSTAT_SECCAUSE : Fld := ⟨A.SYS_PLSTAT, 11, 8, 0x0⟩
/-- Field STAGED of SYS_PLSTAT, SQC. -/
def SYS_PLSTAT_STAGED : Fld := ⟨A.SYS_PLSTAT, 5, 5, 0x0⟩
/-- Field NOCFG of SYS_PLSTAT, RO. -/
def SYS_PLSTAT_NOCFG : Fld := ⟨A.SYS_PLSTAT, 4, 4, 0x0⟩
/-- Field USED of SYS_PLSTAT, RO. -/
def SYS_PLSTAT_USED : Fld := ⟨A.SYS_PLSTAT, 3, 2, 0x0⟩
/-- Field BAD of SYS_PLSTAT, SQC. -/
def SYS_PLSTAT_BAD : Fld := ⟨A.SYS_PLSTAT, 1, 1, 0x0⟩
/-- Field INDEX of SYS_PLBAD, RO. -/
def SYS_PLBAD_INDEX : Fld := ⟨A.SYS_PLBAD, 31, 16, 0x0⟩
/-- Field CAUSE of SYS_PLBAD, RO. -/
def SYS_PLBAD_CAUSE : Fld := ⟨A.SYS_PLBAD, 15, 12, 0x0⟩
/-- Field ITEM of SYS_PLBAD, RO. -/
def SYS_PLBAD_ITEM : Fld := ⟨A.SYS_PLBAD, 7, 0, 0x0⟩
/-- Field GUARD of SYS_STTIME, RO. -/
def SYS_STTIME_GUARD : Fld := ⟨A.SYS_STTIME, 31, 16, 0x0⟩
/-- Field SERVICE of SYS_STTIME, RO. -/
def SYS_STTIME_SERVICE : Fld := ⟨A.SYS_STTIME, 15, 0, 0x0⟩
/-- Field LANE of SYS_RC_PRES, RO. -/
def SYS_RC_PRES_LANE : Fld := ⟨A.SYS_RC_PRES, 31, 0, 0x0⟩
/-- Field LANE of SYS_RC_PASS, RO. -/
def SYS_RC_PASS_LANE : Fld := ⟨A.SYS_RC_PASS, 31, 0, 0x0⟩
/-- Field SEQ of SYS_RC_STAT, RO. -/
def SYS_RC_STAT_SEQ : Fld := ⟨A.SYS_RC_STAT, 31, 24, 0x0⟩
/-- Field FAIL of SYS_RC_STAT, SQC. -/
def SYS_RC_STAT_FAIL : Fld := ⟨A.SYS_RC_STAT, 12, 12, 0x0⟩
/-- Field CAUSE of SYS_RC_STAT, RO. -/
def SYS_RC_STAT_CAUSE : Fld := ⟨A.SYS_RC_STAT, 11, 8, 0x0⟩
/-- Field LANE of SYS_RC_STAT, RO. -/
def SYS_RC_STAT_LANE : Fld := ⟨A.SYS_RC_STAT, 4, 0, 0x0⟩
/-- Field SEQ of SYS_ADAPT, RO. -/
def SYS_ADAPT_SEQ : Fld := ⟨A.SYS_ADAPT, 31, 24, 0x0⟩
/-- Field ZONE of SYS_ADAPT, SQC. -/
def SYS_ADAPT_ZONE : Fld := ⟨A.SYS_ADAPT, 23, 23, 0x0⟩
/-- Field RAILS of SYS_ADAPT, RO. -/
def SYS_ADAPT_RAILS : Fld := ⟨A.SYS_ADAPT, 22, 22, 0x0⟩
/-- Field SBROBUST of SYS_ADAPT, RO. -/
def SYS_ADAPT_SBROBUST : Fld := ⟨A.SYS_ADAPT, 21, 21, 0x0⟩
/-- Field GO of SYS_ADAPT, W1P. -/
def SYS_ADAPT_GO : Fld := ⟨A.SYS_ADAPT, 6, 6, 0x0⟩
/-- Field BUSY of SYS_ADAPT, RO. -/
def SYS_ADAPT_BUSY : Fld := ⟨A.SYS_ADAPT, 5, 5, 0x0⟩
/-- Field LANE of SYS_ADAPT, RW. -/
def SYS_ADAPT_LANE : Fld := ⟨A.SYS_ADAPT, 4, 0, 0x0⟩
/-- Field SERIAL of SYS_HEADn_SER, RO. -/
def SYS_HEADn_SER_SERIAL (n : Nat) : Fld := ⟨A.SYS_HEADn_SER n, 63, 0, 0x0⟩
/-- Field DLY7 of MET_MCLKDLY, RWB. -/
def MET_MCLKDLY_DLY7 : Fld := ⟨A.MET_MCLKDLY, 31, 28, 0x0⟩
/-- Field DLY6 of MET_MCLKDLY, RWB. -/
def MET_MCLKDLY_DLY6 : Fld := ⟨A.MET_MCLKDLY, 27, 24, 0x0⟩
/-- Field DLY5 of MET_MCLKDLY, RWB. -/
def MET_MCLKDLY_DLY5 : Fld := ⟨A.MET_MCLKDLY, 23, 20, 0x0⟩
/-- Field DLY4 of MET_MCLKDLY, RWB. -/
def MET_MCLKDLY_DLY4 : Fld := ⟨A.MET_MCLKDLY, 19, 16, 0x0⟩
/-- Field DLY3 of MET_MCLKDLY, RWB. -/
def MET_MCLKDLY_DLY3 : Fld := ⟨A.MET_MCLKDLY, 15, 12, 0x0⟩
/-- Field DLY2 of MET_MCLKDLY, RWB. -/
def MET_MCLKDLY_DLY2 : Fld := ⟨A.MET_MCLKDLY, 11, 8, 0x0⟩
/-- Field DLY1 of MET_MCLKDLY, RWB. -/
def MET_MCLKDLY_DLY1 : Fld := ⟨A.MET_MCLKDLY, 7, 4, 0x0⟩
/-- Field DLY0 of MET_MCLKDLY, RWB. -/
def MET_MCLKDLY_DLY0 : Fld := ⟨A.MET_MCLKDLY, 3, 0, 0x0⟩
/-- Field PH of MET_Ln_CALV, RWB. -/
def MET_Ln_CALV_PH (n : Nat) (x : Nat) : Fld := ⟨A.MET_Ln_CALV n x, 25, 16, 0x200⟩
/-- Field GAIN of MET_Ln_CALV, RWB. -/
def MET_Ln_CALV_GAIN (n : Nat) (x : Nat) : Fld := ⟨A.MET_Ln_CALV n x, 8, 0, 0x200⟩
/-- Field FS of MET_Ln_VSCALE, RWB. -/
def MET_Ln_VSCALE_FS (n : Nat) : Fld := ⟨A.MET_Ln_VSCALE n, 23, 0, 0x200⟩
/-- Field FS of MET_Ln_ISCALE, RWB. -/
def MET_Ln_ISCALE_FS (n : Nat) : Fld := ⟨A.MET_Ln_ISCALE n, 23, 0, 0x200⟩
/-- Field LOCK of MET_SEAL, RO. -/
def MET_SEAL_LOCK : Fld := ⟨A.MET_SEAL, 31, 31, 0x0⟩
/-- Field DENIED of MET_SEAL, RO. -/
def MET_SEAL_DENIED : Fld := ⟨A.MET_SEAL, 15, 1, 0x0⟩
/-- Field SET of MET_SEAL, W1P. -/
def MET_SEAL_SET : Fld := ⟨A.MET_SEAL, 0, 0, 0x0⟩
/-- Field COUNT of MET_CALCNT, RO. -/
def MET_CALCNT_COUNT : Fld := ⟨A.MET_CALCNT, 31, 0, 0x0⟩
/-- Field AMB of MET_CFG, RWB. -/
def MET_CFG_AMB : Fld := ⟨A.MET_CFG, 23, 16, 0x0⟩
/-- Field RATE of MET_CFG, RO. -/
def MET_CFG_RATE : Fld := ⟨A.MET_CFG, 8, 8, 0x0⟩
/-- Field FNOM of MET_CFG, RWB. -/
def MET_CFG_FNOM : Fld := ⟨A.MET_CFG, 0, 0, 0x0⟩
/-- Field EB of MET_Ln_TSEL, RWB. -/
def MET_Ln_TSEL_EB (n : Nat) : Fld := ⟨A.MET_Ln_TSEL n, 23, 16, 0x200⟩
/-- Field MI of MET_Ln_TSEL, RWB. -/
def MET_Ln_TSEL_MI (n : Nat) : Fld := ⟨A.MET_Ln_TSEL n, 15, 8, 0x200⟩
/-- Field MV of MET_Ln_TSEL, RWB. -/
def MET_Ln_TSEL_MV (n : Nat) : Fld := ⟨A.MET_Ln_TSEL n, 7, 0, 0x200⟩
/-- Field TEMP of MET_Ln_TCORx, RO. -/
def MET_Ln_TCORx_TEMP (n : Nat) (x : Nat) : Fld := ⟨A.MET_Ln_TCORx n x, 31, 16, 0x0⟩
/-- Field GPPM of MET_Ln_TCORx, RO. -/
def MET_Ln_TCORx_GPPM (n : Nat) (x : Nat) : Fld := ⟨A.MET_Ln_TCORx n x, 15, 0, 0x0⟩
/-- Field GPPM of MET_TTABs, RWB. -/
def MET_TTABs_GPPM (s : Nat) (i : Nat) : Fld := ⟨A.MET_TTABs s i, 31, 16, 0x4000⟩
/-- Field PCOR of MET_TTABs, RWB. -/
def MET_TTABs_PCOR (s : Nat) (i : Nat) : Fld := ⟨A.MET_TTABs s i, 15, 0, 0x4000⟩
/-- Field RATE of MET_SNB_CTL, RWB. -/
def MET_SNB_CTL_RATE : Fld := ⟨A.MET_SNB_CTL, 1, 1, 0x0⟩
/-- Field EN of MET_SNB_CTL, RWB. -/
def MET_SNB_CTL_EN : Fld := ⟨A.MET_SNB_CTL, 0, 0, 0x0⟩
/-- Field SEQ of MET_SNB_STAT, RO. -/
def MET_SNB_STAT_SEQ : Fld := ⟨A.MET_SNB_STAT, 31, 24, 0x0⟩
/-- Field STUCK of MET_SNB_STAT, SQC. -/
def MET_SNB_STAT_STUCK : Fld := ⟨A.MET_SNB_STAT, 9, 9, 0x0⟩
/-- Field STALE of MET_SNB_STAT, SQC. -/
def MET_SNB_STAT_STALE : Fld := ⟨A.MET_SNB_STAT, 8, 8, 0x0⟩
/-- Field NSTALE of MET_SNB_STAT, RO. -/
def MET_SNB_STAT_NSTALE : Fld := ⟨A.MET_SNB_STAT, 6, 0, 0x0⟩
/-- Field EN of MET_SNBm, RWB. -/
def MET_SNBm_EN (m : Nat) : Fld := ⟨A.MET_SNBm m, 31, 31, 0x0⟩
/-- Field ADDR of MET_SNBm, RWB. -/
def MET_SNBm_ADDR (m : Nat) : Fld := ⟨A.MET_SNBm m, 6, 0, 0x0⟩
/-- Field VALID of MET_SNBm_T, RO. -/
def MET_SNBm_T_VALID (m : Nat) : Fld := ⟨A.MET_SNBm_T m, 31, 31, 0x0⟩
/-- Field STALE of MET_SNBm_T, RO. -/
def MET_SNBm_T_STALE (m : Nat) : Fld := ⟨A.MET_SNBm_T m, 30, 30, 0x0⟩
/-- Field AGE of MET_SNBm_T, RO. -/
def MET_SNBm_T_AGE (m : Nat) : Fld := ⟨A.MET_SNBm_T m, 29, 16, 0x0⟩
/-- Field TEMP of MET_SNBm_T, RO. -/
def MET_SNBm_T_TEMP (m : Nat) : Fld := ⟨A.MET_SNBm_T m, 15, 0, 0x0⟩
/-- Field VALID of MET_Ln_HTj, RO. -/
def MET_Ln_HTj_VALID (n : Nat) (j : Nat) : Fld := ⟨A.MET_Ln_HTj n j, 31, 31, 0x0⟩
/-- Field STALE of MET_Ln_HTj, RO. -/
def MET_Ln_HTj_STALE (n : Nat) (j : Nat) : Fld := ⟨A.MET_Ln_HTj n j, 30, 30, 0x0⟩
/-- Field TEMP of MET_Ln_HTj, RO. -/
def MET_Ln_HTj_TEMP (n : Nat) (j : Nat) : Fld := ⟨A.MET_Ln_HTj n j, 15, 0, 0x0⟩
/-- Field SEQ of MET_Ln_STRSTAT, RO. -/
def MET_Ln_STRSTAT_SEQ (n : Nat) : Fld := ⟨A.MET_Ln_STRSTAT n, 31, 24, 0x0⟩
/-- Field LOST of MET_Ln_STRSTAT, SQC. -/
def MET_Ln_STRSTAT_LOST (n : Nat) : Fld := ⟨A.MET_Ln_STRSTAT n, 18, 18, 0x0⟩
/-- Field DEGRADED of MET_Ln_STRSTAT, RO. -/
def MET_Ln_STRSTAT_DEGRADED (n : Nat) : Fld := ⟨A.MET_Ln_STRSTAT n, 17, 17, 0x0⟩
/-- Field ETSTALE of MET_Ln_STRSTAT, RO. -/
def MET_Ln_STRSTAT_ETSTALE (n : Nat) : Fld := ⟨A.MET_Ln_STRSTAT n, 11, 11, 0x0⟩
/-- Field ECLIP of MET_Ln_STRSTAT, SQC. -/
def MET_Ln_STRSTAT_ECLIP (n : Nat) : Fld := ⟨A.MET_Ln_STRSTAT n, 10, 10, 0x0⟩
/-- Field EUNDER of MET_Ln_STRSTAT, SQC. -/
def MET_Ln_STRSTAT_EUNDER (n : Nat) : Fld := ⟨A.MET_Ln_STRSTAT n, 9, 9, 0x0⟩
/-- Field ESTUCK of MET_Ln_STRSTAT, RO. -/
def MET_Ln_STRSTAT_ESTUCK (n : Nat) : Fld := ⟨A.MET_Ln_STRSTAT n, 8, 8, 0x0⟩
/-- Field ISTUCK of MET_Ln_STRSTAT, RO. -/
def MET_Ln_STRSTAT_ISTUCK (n : Nat) : Fld := ⟨A.MET_Ln_STRSTAT n, 4, 4, 0x0⟩
/-- Field IUNDER of MET_Ln_STRSTAT, SQC. -/
def MET_Ln_STRSTAT_IUNDER (n : Nat) : Fld := ⟨A.MET_Ln_STRSTAT n, 5, 5, 0x0⟩
/-- Field ICLIP of MET_Ln_STRSTAT, SQC. -/
def MET_Ln_STRSTAT_ICLIP (n : Nat) : Fld := ⟨A.MET_Ln_STRSTAT n, 6, 6, 0x0⟩
/-- Field ITSTALE of MET_Ln_STRSTAT, RO. -/
def MET_Ln_STRSTAT_ITSTALE (n : Nat) : Fld := ⟨A.MET_Ln_STRSTAT n, 7, 7, 0x0⟩
/-- Field VSTUCK of MET_Ln_STRSTAT, RO. -/
def MET_Ln_STRSTAT_VSTUCK (n : Nat) : Fld := ⟨A.MET_Ln_STRSTAT n, 0, 0, 0x0⟩
/-- Field VUNDER of MET_Ln_STRSTAT, SQC. -/
def MET_Ln_STRSTAT_VUNDER (n : Nat) : Fld := ⟨A.MET_Ln_STRSTAT n, 1, 1, 0x0⟩
/-- Field VCLIP of MET_Ln_STRSTAT, SQC. -/
def MET_Ln_STRSTAT_VCLIP (n : Nat) : Fld := ⟨A.MET_Ln_STRSTAT n, 2, 2, 0x0⟩
/-- Field VTSTALE of MET_Ln_STRSTAT, RO. -/
def MET_Ln_STRSTAT_VTSTALE (n : Nat) : Fld := ⟨A.MET_Ln_STRSTAT n, 3, 3, 0x0⟩
/-- Field CLR of MET_Ln_STRCNT, W1P. -/
def MET_Ln_STRCNT_CLR (n : Nat) : Fld := ⟨A.MET_Ln_STRCNT n, 31, 31, 0x0⟩
/-- Field EB of MET_Ln_STRCNT, RO. -/
def MET_Ln_STRCNT_EB (n : Nat) : Fld := ⟨A.MET_Ln_STRCNT n, 23, 16, 0x0⟩
/-- Field MI of MET_Ln_STRCNT, RO. -/
def MET_Ln_STRCNT_MI (n : Nat) : Fld := ⟨A.MET_Ln_STRCNT n, 15, 8, 0x0⟩
/-- Field MV of MET_Ln_STRCNT, RO. -/
def MET_Ln_STRCNT_MV (n : Nat) : Fld := ⟨A.MET_Ln_STRCNT n, 7, 0, 0x0⟩
/-- Field PEND of MET_CAP_CTL, RO. -/
def MET_CAP_CTL_PEND : Fld := ⟨A.MET_CAP_CTL, 9, 9, 0x0⟩
/-- Field STATE of MET_CAP_CTL, RO. -/
def MET_CAP_CTL_STATE : Fld := ⟨A.MET_CAP_CTL, 7, 6, 0x0⟩
/-- Field SWTRIG of MET_CAP_CTL, W1P. -/
def MET_CAP_CTL_SWTRIG : Fld := ⟨A.MET_CAP_CTL, 3, 3, 0x0⟩
/-- Field RELEASE of MET_CAP_CTL, W1P. -/
def MET_CAP_CTL_RELEASE : Fld := ⟨A.MET_CAP_CTL, 2, 2, 0x0⟩
/-- Field DISARM of MET_CAP_CTL, W1P. -/
def MET_CAP_CTL_DISARM : Fld := ⟨A.MET_CAP_CTL, 1, 1, 0x0⟩
/-- Field ARM of MET_CAP_CTL, W1P. -/
def MET_CAP_CTL_ARM : Fld := ⟨A.MET_CAP_CTL, 0, 0, 0x0⟩
/-- Field MODE of MET_CAP_SELk, RWB. -/
def MET_CAP_SELk_MODE (k : Nat) : Fld := ⟨A.MET_CAP_SELk k, 12, 12, 0x0⟩
/-- Field STREAM of MET_CAP_SELk, RWB. -/
def MET_CAP_SELk_STREAM (k : Nat) : Fld := ⟨A.MET_CAP_SELk k, 9, 8, 0x0⟩
/-- Field EN of MET_CAP_SELk, RWB. -/
def MET_CAP_SELk_EN (k : Nat) : Fld := ⟨A.MET_CAP_SELk k, 7, 7, 0x0⟩
/-- Field LANE of MET_CAP_SELk, RWB. -/
def MET_CAP_SELk_LANE (k : Nat) : Fld := ⟨A.MET_CAP_SELk k, 4, 0, 0x0⟩
/-- Field ELEVEL of MET_CAP_TRIG, RWB. -/
def MET_CAP_TRIG_ELEVEL : Fld := ⟨A.MET_CAP_TRIG, 31, 31, 0x0⟩
/-- Field EFAULT of MET_CAP_TRIG, RWB. -/
def MET_CAP_TRIG_EFAULT : Fld := ⟨A.MET_CAP_TRIG, 30, 30, 0x0⟩
/-- Field EPILOT of MET_CAP_TRIG, RWB. -/
def MET_CAP_TRIG_EPILOT : Fld := ⟨A.MET_CAP_TRIG, 29, 29, 0x0⟩
/-- Field TLANE of MET_CAP_TRIG, RWB. -/
def MET_CAP_TRIG_TLANE : Fld := ⟨A.MET_CAP_TRIG, 28, 24, 0x0⟩
/-- Field FSRC of MET_CAP_TRIG, RWB. -/
def MET_CAP_TRIG_FSRC : Fld := ⟨A.MET_CAP_TRIG, 23, 16, 0x0⟩
/-- Field PRE of MET_CAP_TRIG, RWB. -/
def MET_CAP_TRIG_PRE : Fld := ⟨A.MET_CAP_TRIG, 11, 0, 0x0⟩
/-- Field LEVEL of MET_CAP_LEVEL, RWB. -/
def MET_CAP_LEVEL_LEVEL : Fld := ⟨A.MET_CAP_LEVEL, 22, 0, 0x0⟩
/-- Field SEQ of MET_CAP_STAT, RO. -/
def MET_CAP_STAT_SEQ : Fld := ⟨A.MET_CAP_STAT, 31, 24, 0x0⟩
/-- Field HIT of MET_CAP_STAT, RO. -/
def MET_CAP_STAT_HIT : Fld := ⟨A.MET_CAP_STAT, 19, 16, 0x0⟩
/-- Field DONE of MET_CAP_STAT, SQC. -/
def MET_CAP_STAT_DONE : Fld := ⟨A.MET_CAP_STAT, 15, 15, 0x0⟩
/-- Field LATE of MET_CAP_STAT, RO. -/
def MET_CAP_STAT_LATE : Fld := ⟨A.MET_CAP_STAT, 14, 14, 0x0⟩
/-- Field SHORT of MET_CAP_STAT, RO. -/
def MET_CAP_STAT_SHORT : Fld := ⟨A.MET_CAP_STAT, 13, 13, 0x0⟩
/-- Field FIRST of MET_CAP_STAT, RO. -/
def MET_CAP_STAT_FIRST : Fld := ⟨A.MET_CAP_STAT, 11, 0, 0x0⟩
/-- Field TICK of MET_CAP_STAMP, RO. -/
def MET_CAP_STAMP_TICK : Fld := ⟨A.MET_CAP_STAMP, 35, 32, 0x0⟩
/-- Field FRAME of MET_CAP_STAMP, RO. -/
def MET_CAP_STAMP_FRAME : Fld := ⟨A.MET_CAP_STAMP, 31, 0, 0x0⟩
/-- Field EPOCH of MET_CAP_EPOCH, RO. -/
def MET_CAP_EPOCH_EPOCH : Fld := ⟨A.MET_CAP_EPOCH, 31, 0, 0x0⟩
/-- Field SAMPLES of MET_CAP_LAG, RO. -/
def MET_CAP_LAG_SAMPLES : Fld := ⟨A.MET_CAP_LAG, 31, 0, 0x0⟩
/-- Field CLR of MET_CAP_OVR, W1P. -/
def MET_CAP_OVR_CLR : Fld := ⟨A.MET_CAP_OVR, 31, 31, 0x0⟩
/-- Field COUNT of MET_CAP_OVR, RO. -/
def MET_CAP_OVR_COUNT : Fld := ⟨A.MET_CAP_OVR, 15, 0, 0x0⟩
/-- Field SLOT of MET_CAP_ADDR, RW. -/
def MET_CAP_ADDR_SLOT : Fld := ⟨A.MET_CAP_ADDR, 13, 12, 0x0⟩
/-- Field INDEX of MET_CAP_ADDR, RW. -/
def MET_CAP_ADDR_INDEX : Fld := ⟨A.MET_CAP_ADDR, 11, 0, 0x0⟩
/-- Field WORD of MET_CAP_DATA, RO. -/
def MET_CAP_DATA_WORD : Fld := ⟨A.MET_CAP_DATA, 31, 0, 0x0⟩
/-- Field CABMASK of MET_Ln_QCFG, RWB. -/
def MET_Ln_QCFG_CABMASK (n : Nat) : Fld := ⟨A.MET_Ln_QCFG n, 23, 18, 0x200⟩
/-- Field IPOL of MET_Ln_QCFG, RWB. -/
def MET_Ln_QCFG_IPOL (n : Nat) : Fld := ⟨A.MET_Ln_QCFG n, 16, 16, 0x200⟩
/-- Field CREEP of MET_Ln_QCFG, RWB. -/
def MET_Ln_QCFG_CREEP (n : Nat) : Fld := ⟨A.MET_Ln_QCFG n, 15, 0, 0x200⟩
/-- Field INOM of MET_Ln_INOM, RO. -/
def MET_Ln_INOM_INOM (n : Nat) : Fld := ⟨A.MET_Ln_INOM n, 15, 0, 0x200⟩
/-- Field COUNT of MET_Ln_EIMP, RO. -/
def MET_Ln_EIMP_COUNT (n : Nat) (q : Nat) : Fld := ⟨A.MET_Ln_EIMP n q, 47, 0, 0x200⟩
/-- Field SEQ of MET_Ln_QSTAT, RO. -/
def MET_Ln_QSTAT_SEQ (n : Nat) : Fld := ⟨A.MET_Ln_QSTAT n, 31, 24, 0x0⟩
/-- Field SAT of MET_Ln_QSTAT, SQC. -/
def MET_Ln_QSTAT_SAT (n : Nat) : Fld := ⟨A.MET_Ln_QSTAT n, 9, 9, 0x0⟩
/-- Field CPLERR of MET_Ln_QSTAT, SQC. -/
def MET_Ln_QSTAT_CPLERR (n : Nat) : Fld := ⟨A.MET_Ln_QSTAT n, 8, 8, 0x0⟩
/-- Field QUAD of MET_Ln_QSTAT, RO. -/
def MET_Ln_QSTAT_QUAD (n : Nat) : Fld := ⟨A.MET_Ln_QSTAT n, 5, 4, 0x0⟩
/-- Field EXP of MET_Ln_QSTAT, RO. -/
def MET_Ln_QSTAT_EXP (n : Nat) : Fld := ⟨A.MET_Ln_QSTAT n, 3, 3, 0x0⟩
/-- Field RUN of MET_Ln_QSTAT, RO. -/
def MET_Ln_QSTAT_RUN (n : Nat) : Fld := ⟨A.MET_Ln_QSTAT n, 2, 2, 0x0⟩
/-- Field CLR of MET_Ln_QCNT, W1P. -/
def MET_Ln_QCNT_CLR (n : Nat) : Fld := ⟨A.MET_Ln_QCNT n, 31, 31, 0x0⟩
/-- Field CREEP of MET_Ln_QCNT, RO. -/
def MET_Ln_QCNT_CREEP (n : Nat) : Fld := ⟨A.MET_Ln_QCNT n, 30, 16, 0x0⟩
/-- Field MISSED of MET_Ln_QCNT, RO. -/
def MET_Ln_QCNT_MISSED (n : Nat) : Fld := ⟨A.MET_Ln_QCNT n, 15, 0, 0x0⟩
/-- Field VALUE of MET_Ln_VINST, RO. -/
def MET_Ln_VINST_VALUE (n : Nat) (i : Nat) : Fld := ⟨A.MET_Ln_VINST n i, 31, 0, 0x0⟩
/-- Field VALID of MET_Ln_FREQ, RO. -/
def MET_Ln_FREQ_VALID (n : Nat) : Fld := ⟨A.MET_Ln_FREQ n, 31, 31, 0x0⟩
/-- Field F of MET_Ln_FREQ, RO. -/
def MET_Ln_FREQ_F (n : Nat) : Fld := ⟨A.MET_Ln_FREQ n, 16, 0, 0x0⟩
/-- Field VALUE of MET_Ln_PALC, RO. -/
def MET_Ln_PALC_VALUE (n : Nat) (i : Nat) : Fld := ⟨A.MET_Ln_PALC n i, 31, 0, 0x0⟩
/-- Field RCAB of MET_Ln_RCAB, RO. -/
def MET_Ln_RCAB_RCAB (n : Nat) : Fld := ⟨A.MET_Ln_RCAB n, 31, 0, 0x0⟩
/-- Field R of MET_Ln_RT, RO. -/
def MET_Ln_RT_R (n : Nat) : Fld := ⟨A.MET_Ln_RT n, 31, 0, 0x0⟩
/-- Field TEMP of MET_Ln_TCAB, RO. -/
def MET_Ln_TCAB_TEMP (n : Nat) : Fld := ⟨A.MET_Ln_TCAB n, 31, 16, 0x0⟩
/-- Field SRC of MET_Ln_TCAB, RO. -/
def MET_Ln_TCAB_SRC (n : Nat) : Fld := ⟨A.MET_Ln_TCAB n, 1, 0, 0x0⟩
/-- Field CLAMPS of MET_Ln_RCREC, RO. -/
def MET_Ln_RCREC_CLAMPS (n : Nat) : Fld := ⟨A.MET_Ln_RCREC n, 31, 16, 0x0⟩
/-- Field RECNO of MET_Ln_RCREC, RO. -/
def MET_Ln_RCREC_RECNO (n : Nat) : Fld := ⟨A.MET_Ln_RCREC n, 15, 0, 0x0⟩
/-- Field LOSS of MET_Ln_LSEC, RO. -/
def MET_Ln_LSEC_LOSS (n : Nat) : Fld := ⟨A.MET_Ln_LSEC n, 31, 0, 0x0⟩
/-- Field QTY of MET_PPOk_CFG, RWB. -/
def MET_PPOk_CFG_QTY (k : Nat) : Fld := ⟨A.MET_PPOk_CFG k, 27, 24, 0x0⟩
/-- Field LANE of MET_PPOk_CFG, RWB. -/
def MET_PPOk_CFG_LANE (k : Nat) : Fld := ⟨A.MET_PPOk_CFG k, 20, 16, 0x0⟩
/-- Field PW of MET_PPOk_CFG, RWB. -/
def MET_PPOk_CFG_PW (k : Nat) : Fld := ⟨A.MET_PPOk_CFG k, 11, 0, 0x0⟩
/-- Field C of MET_PPOk_CONST, RWB. -/
def MET_PPOk_CONST_C (k : Nat) : Fld := ⟨A.MET_PPOk_CONST k, 19, 0, 0x0⟩
/-- Field SEQ of MET_PPO_STAT, RO. -/
def MET_PPO_STAT_SEQ : Fld := ⟨A.MET_PPO_STAT, 31, 24, 0x0⟩
/-- Field LOST of MET_PPO_STAT, SQC. -/
def MET_PPO_STAT_LOST : Fld := ⟨A.MET_PPO_STAT, 11, 8, 0x0⟩
/-- Field FAST of MET_PPO_STAT, RO. -/
def MET_PPO_STAT_FAST : Fld := ⟨A.MET_PPO_STAT, 7, 4, 0x0⟩
/-- Field COUNT of BIL_Ln_IMPr, RO. -/
def BIL_Ln_IMPr_COUNT (n : Nat) (r : Nat) : Fld := ⟨A.BIL_Ln_IMPr n r, 47, 0, 0x4000⟩
/-- Field COUNT of BIL_Ln_EXPr, RO. -/
def BIL_Ln_EXPr_COUNT (n : Nat) (r : Nat) : Fld := ⟨A.BIL_Ln_EXPr n r, 47, 0, 0x4000⟩
/-- Field NUM of BIL_Ln_SNUM, RO. -/
def BIL_Ln_SNUM_NUM (n : Nat) : Fld := ⟨A.BIL_Ln_SNUM n, 31, 0, 0x0⟩
/-- Field OPEN of BIL_Ln_SSTAT, RO. -/
def BIL_Ln_SSTAT_OPEN (n : Nat) : Fld := ⟨A.BIL_Ln_SSTAT n, 0, 0, 0x0⟩
/-- Field CC of BIL_Ln_SSTAT, RO. -/
def BIL_Ln_SSTAT_CC (n : Nat) : Fld := ⟨A.BIL_Ln_SSTAT n, 1, 1, 0x0⟩
/-- Field CAUSE of BIL_Ln_SSTAT, RO. -/
def BIL_Ln_SSTAT_CAUSE (n : Nat) : Fld := ⟨A.BIL_Ln_SSTAT n, 15, 8, 0x0⟩
/-- Field SEC of BIL_Ln_START, RO. -/
def BIL_Ln_START_SEC (n : Nat) : Fld := ⟨A.BIL_Ln_START n, 31, 0, 0x0⟩
/-- Field SEC of BIL_Ln_DUR, RO. -/
def BIL_Ln_DUR_SEC (n : Nat) : Fld := ⟨A.BIL_Ln_DUR n, 31, 0, 0x0⟩
/-- Field SEC of BIL_Ln_IDLE, RO. -/
def BIL_Ln_IDLE_SEC (n : Nat) : Fld := ⟨A.BIL_Ln_IDLE n, 31, 0, 0x0⟩
/-- Field SEC of BIL_Ln_IDLETOT, RO. -/
def BIL_Ln_IDLETOT_SEC (n : Nat) : Fld := ⟨A.BIL_Ln_IDLETOT n, 31, 0, 0x0⟩
/-- Field COUNT of BIL_Ln_SOIMP, RO. -/
def BIL_Ln_SOIMP_COUNT (n : Nat) (q : Nat) : Fld := ⟨A.BIL_Ln_SOIMP n q, 47, 0, 0x4000⟩
/-- Field REBUILD of BIL_CTL, W1P. -/
def BIL_CTL_REBUILD : Fld := ⟨A.BIL_CTL, 31, 31, 0x0⟩
/-- Field PCLOSE of BIL_CTL, W1P. -/
def BIL_CTL_PCLOSE : Fld := ⟨A.BIL_CTL, 30, 30, 0x0⟩
/-- Field NEWEPOCH of BIL_CTL, W1P. -/
def BIL_CTL_NEWEPOCH : Fld := ⟨A.BIL_CTL, 29, 29, 0x0⟩
/-- Field LANE of BIL_CTL, RW. -/
def BIL_CTL_LANE : Fld := ⟨A.BIL_CTL, 4, 0, 0x0⟩
/-- Field SEQ of BIL_STAT, RO. -/
def BIL_STAT_SEQ : Fld := ⟨A.BIL_STAT, 31, 24, 0x0⟩
/-- Field SNUMEND of BIL_STAT, RO. -/
def BIL_STAT_SNUMEND : Fld := ⟨A.BIL_STAT, 5, 5, 0x0⟩
/-- Field SPLIT of BIL_STAT, SQC. -/
def BIL_STAT_SPLIT : Fld := ⟨A.BIL_STAT, 4, 4, 0x0⟩
/-- Field PCLOSED of BIL_STAT, SQC. -/
def BIL_STAT_PCLOSED : Fld := ⟨A.BIL_STAT, 3, 3, 0x0⟩
/-- Field CALPEND of BIL_STAT, RO. -/
def BIL_STAT_CALPEND : Fld := ⟨A.BIL_STAT, 2, 2, 0x0⟩
/-- Field TINV of BIL_STAT, RO. -/
def BIL_STAT_TINV : Fld := ⟨A.BIL_STAT, 1, 1, 0x0⟩
/-- Field NOTARIFF of BIL_STAT, RO. -/
def BIL_STAT_NOTARIFF : Fld := ⟨A.BIL_STAT, 0, 0, 0x0⟩
/-- Field WORD of BIL_CALW, RWB. -/
def BIL_CALW_WORD (w : Nat) : Fld := ⟨A.BIL_CALW w, 31, 0, 0x4000⟩
/-- Field DST of BIL_NOW, RO. -/
def BIL_NOW_DST : Fld := ⟨A.BIL_NOW, 8, 8, 0x0⟩
/-- Field INTERVAL of BIL_NOW, RO. -/
def BIL_NOW_INTERVAL : Fld := ⟨A.BIL_NOW, 6, 4, 0x0⟩
/-- Field RATE of BIL_NOW, RO. -/
def BIL_NOW_RATE : Fld := ⟨A.BIL_NOW, 3, 0, 0x0⟩
/-- Field PERIOD of BIL_PER, RO. -/
def BIL_PER_PERIOD : Fld := ⟨A.BIL_PER, 31, 0, 0x0⟩
/-- Field SEC of BIL_BCLK, RO. -/
def BIL_BCLK_SEC : Fld := ⟨A.BIL_BCLK, 31, 0, 0x0⟩
/-- Field SEQ of BIL_CADJ, RO. -/
def BIL_CADJ_SEQ : Fld := ⟨A.BIL_CADJ, 31, 24, 0x0⟩
/-- Field LOGGED of BIL_CADJ, SQC. -/
def BIL_CADJ_LOGGED : Fld := ⟨A.BIL_CADJ, 16, 16, 0x0⟩
/-- Field ACC of BIL_CADJ, RO. -/
def BIL_CADJ_ACC : Fld := ⟨A.BIL_CADJ, 15, 0, 0x0⟩
/-- Field ADDR of BIL_LDG_BASE, RWB. -/
def BIL_LDG_BASE_ADDR : Fld := ⟨A.BIL_LDG_BASE, 31, 0, 0x0⟩
/-- Field SIZE of BIL_LDG_SIZE, RWB. -/
def BIL_LDG_SIZE_SIZE : Fld := ⟨A.BIL_LDG_SIZE, 15, 0, 0x0⟩
/-- Field WR of BIL_LDG_PTR, RO. -/
def BIL_LDG_PTR_WR : Fld := ⟨A.BIL_LDG_PTR, 31, 16, 0x0⟩
/-- Field RD of BIL_LDG_PTR, RW. -/
def BIL_LDG_PTR_RD : Fld := ⟨A.BIL_LDG_PTR, 15, 0, 0x0⟩
/-- Field CLR of BIL_LDG_LOST, W1P. -/
def BIL_LDG_LOST_CLR : Fld := ⟨A.BIL_LDG_LOST, 31, 31, 0x0⟩
/-- Field COUNT of BIL_LDG_LOST, RO. -/
def BIL_LDG_LOST_COUNT : Fld := ⟨A.BIL_LDG_LOST, 30, 0, 0x0⟩
/-- Field SEQ of BIL_HSTAT, RO. -/
def BIL_HSTAT_SEQ : Fld := ⟨A.BIL_HSTAT, 31, 24, 0x0⟩
/-- Field REBUILDS of BIL_HSTAT, RO. -/
def BIL_HSTAT_REBUILDS : Fld := ⟨A.BIL_HSTAT, 23, 16, 0x0⟩
/-- Field UNSAVED of BIL_HSTAT, SQC. -/
def BIL_HSTAT_UNSAVED : Fld := ⟨A.BIL_HSTAT, 4, 4, 0x0⟩
/-- Field PFW of BIL_HSTAT, SQC. -/
def BIL_HSTAT_PFW : Fld := ⟨A.BIL_HSTAT, 3, 3, 0x0⟩
/-- Field FINAL of BIL_HSTAT, RO. -/
def BIL_HSTAT_FINAL : Fld := ⟨A.BIL_HSTAT, 2, 2, 0x0⟩
/-- Field SLOT of BIL_HSTAT, RO. -/
def BIL_HSTAT_SLOT : Fld := ⟨A.BIL_HSTAT, 1, 1, 0x0⟩
/-- Field NOHAMPER of BIL_HSTAT, RO. -/
def BIL_HSTAT_NOHAMPER : Fld := ⟨A.BIL_HSTAT, 0, 0, 0x0⟩
/-- Field PFWEN of BIL_HCFG, RWB. -/
def BIL_HCFG_PFWEN : Fld := ⟨A.BIL_HCFG, 8, 8, 0x0⟩
/-- Field AUXPF of BIL_HCFG, RWB. -/
def BIL_HCFG_AUXPF : Fld := ⟨A.BIL_HCFG, 4, 0, 0x0⟩
/-- Field US of BIL_HTIME, RO. -/
def BIL_HTIME_US : Fld := ⟨A.BIL_HTIME, 15, 0, 0x0⟩
/-- Field EPOCH of BIL_REGEPOCH, RO. -/
def BIL_REGEPOCH_EPOCH : Fld := ⟨A.BIL_REGEPOCH, 15, 0, 0x0⟩
/-- Field LANE of BIL_UNSAVED, RO. -/
def BIL_UNSAVED_LANE : Fld := ⟨A.BIL_UNSAVED, 31, 0, 0x0⟩
/-- Field VALID of THM_WALL, RO. -/
def THM_WALL_VALID : Fld := ⟨A.THM_WALL, 63, 63, 0x0⟩
/-- Field MS of THM_WALL, RO. -/
def THM_WALL_MS : Fld := ⟨A.THM_WALL, 41, 32, 0x0⟩
/-- Field SEC of THM_WALL, RO. -/
def THM_WALL_SEC : Fld := ⟨A.THM_WALL, 31, 0, 0x0⟩
/-- Field MS of THM_WSET, WO. -/
def THM_WSET_MS : Fld := ⟨A.THM_WSET, 41, 32, 0x0⟩
/-- Field SEC of THM_WSET, WO. -/
def THM_WSET_SEC : Fld := ⟨A.THM_WSET, 31, 0, 0x0⟩
/-- Field SEC of THM_LOSS, RO. -/
def THM_LOSS_SEC : Fld := ⟨A.THM_LOSS, 31, 0, 0x0⟩
/-- Field ZERO of THM_TMP_CFG, RWB. -/
def THM_TMP_CFG_ZERO : Fld := ⟨A.THM_TMP_CFG, 23, 16, 0x4000⟩
/-- Field POL of THM_TMP_CFG, RWB. -/
def THM_TMP_CFG_POL : Fld := ⟨A.THM_TMP_CFG, 15, 8, 0x4000⟩
/-- Field EN of THM_TMP_CFG, RWB. -/
def THM_TMP_CFG_EN : Fld := ⟨A.THM_TMP_CFG, 7, 0, 0x4000⟩
/-- Field SEQ of THM_TMP_STAT, RO. -/
def THM_TMP_STAT_SEQ : Fld := ⟨A.THM_TMP_STAT, 31, 24, 0x0⟩
/-- Field EVENT of THM_TMP_STAT, SQC. -/
def THM_TMP_STAT_EVENT : Fld := ⟨A.THM_TMP_STAT, 23, 16, 0x0⟩
/-- Field ACTIVE of THM_TMP_STAT, RO. -/
def THM_TMP_STAT_ACTIVE : Fld := ⟨A.THM_TMP_STAT, 15, 8, 0x0⟩
/-- Field WRAPS of THM_TMP_STAT, RO. -/
def THM_TMP_STAT_WRAPS : Fld := ⟨A.THM_TMP_STAT, 7, 0, 0x0⟩
/-- Field JNL of THM_JRD, RW. -/
def THM_JRD_JNL : Fld := ⟨A.THM_JRD, 31, 31, 0x0⟩
/-- Field WORD of THM_JRD, RW. -/
def THM_JRD_WORD : Fld := ⟨A.THM_JRD, 10, 8, 0x0⟩
/-- Field SLOT of THM_JRD, RW. -/
def THM_JRD_SLOT : Fld := ⟨A.THM_JRD, 7, 0, 0x0⟩
/-- Field WORD of THM_JDATA, RO. -/
def THM_JDATA_WORD : Fld := ⟨A.THM_JDATA, 31, 0, 0x0⟩
/-- Field EN of PIL_Ln_CTL, RWB. -/
def PIL_Ln_CTL_EN (n : Nat) : Fld := ⟨A.PIL_Ln_CTL n, 31, 31, 0x0⟩
/-- Field VENT of PIL_Ln_CTL, RWB. -/
def PIL_Ln_CTL_VENT (n : Nat) : Fld := ⟨A.PIL_Ln_CTL n, 30, 30, 0x0⟩
/-- Field BPT of PIL_Ln_CTL, RWB. -/
def PIL_Ln_CTL_BPT (n : Nat) : Fld := ⟨A.PIL_Ln_CTL n, 29, 29, 0x0⟩
/-- Field AUTH of PIL_Ln_CTL, RWB. -/
def PIL_Ln_CTL_AUTH (n : Nat) : Fld := ⟨A.PIL_Ln_CTL n, 24, 20, 0x0⟩
/-- Field PROTO of PIL_Ln_CTL, RWB. -/
def PIL_Ln_CTL_PROTO (n : Nat) : Fld := ⟨A.PIL_Ln_CTL n, 14, 12, 0x0⟩
/-- Field MODE of PIL_Ln_CTL, RWB. -/
def PIL_Ln_CTL_MODE (n : Nat) : Fld := ⟨A.PIL_Ln_CTL n, 9, 8, 0x0⟩
/-- Field IMAX of PIL_Ln_ACV, RWB. -/
def PIL_Ln_ACV_IMAX (n : Nat) : Fld := ⟨A.PIL_Ln_ACV n, 31, 16, 0x0⟩
/-- Field ACV of PIL_Ln_ACV, RWB. -/
def PIL_Ln_ACV_ACV (n : Nat) : Fld := ⟨A.PIL_Ln_ACV n, 15, 0, 0x0⟩
/-- Field EXPECT of PIL_Ln_PPCFG, RWB. -/
def PIL_Ln_PPCFG_EXPECT (n : Nat) : Fld := ⟨A.PIL_Ln_PPCFG n, 7, 0, 0x0⟩
/-- Field SRC of PIL_Ln_DUTY, RO. -/
def PIL_Ln_DUTY_SRC (n : Nat) : Fld := ⟨A.PIL_Ln_DUTY n, 31, 28, 0x0⟩
/-- Field SUSP of PIL_Ln_DUTY, RO. -/
def PIL_Ln_DUTY_SUSP (n : Nat) : Fld := ⟨A.PIL_Ln_DUTY n, 27, 27, 0x0⟩
/-- Field FORCED of PIL_Ln_DUTY, RO. -/
def PIL_Ln_DUTY_FORCED (n : Nat) : Fld := ⟨A.PIL_Ln_DUTY n, 24, 24, 0x0⟩
/-- Field LIMIT of PIL_Ln_DUTY, RO. -/
def PIL_Ln_DUTY_LIMIT (n : Nat) : Fld := ⟨A.PIL_Ln_DUTY n, 23, 12, 0x0⟩
/-- Field CODE of PIL_Ln_DUTY, RO. -/
def PIL_Ln_DUTY_CODE (n : Nat) : Fld := ⟨A.PIL_Ln_DUTY n, 10, 0, 0x0⟩
/-- Field HIGH of PIL_Ln_PLAT, RO. -/
def PIL_Ln_PLAT_HIGH (n : Nat) : Fld := ⟨A.PIL_Ln_PLAT n, 31, 16, 0x0⟩
/-- Field LOW of PIL_Ln_PLAT, RO. -/
def PIL_Ln_PLAT_LOW (n : Nat) : Fld := ⟨A.PIL_Ln_PLAT n, 15, 0, 0x0⟩
/-- Field RAW of PIL_Ln_CPST, RO. -/
def PIL_Ln_CPST_RAW (n : Nat) : Fld := ⟨A.PIL_Ln_CPST n, 23, 20, 0x0⟩
/-- Field STATE of PIL_Ln_CPST, RO. -/
def PIL_Ln_CPST_STATE (n : Nat) : Fld := ⟨A.PIL_Ln_CPST n, 19, 16, 0x0⟩
/-- Field DIODE of PIL_Ln_CPST, RO. -/
def PIL_Ln_CPST_DIODE (n : Nat) : Fld := ⟨A.PIL_Ln_CPST n, 7, 7, 0x0⟩
/-- Field DEBCNT of PIL_Ln_CPST, RO. -/
def PIL_Ln_CPST_DEBCNT (n : Nat) : Fld := ⟨A.PIL_Ln_CPST n, 3, 0, 0x0⟩
/-- Field CODE of PIL_Ln_PP, RO. -/
def PIL_Ln_PP_CODE (n : Nat) : Fld := ⟨A.PIL_Ln_PP n, 31, 28, 0x0⟩
/-- Field OHMS of PIL_Ln_PP, RO. -/
def PIL_Ln_PP_OHMS (n : Nat) : Fld := ⟨A.PIL_Ln_PP n, 15, 0, 0x0⟩
/-- Field CAUSE of PIL_Ln_SESS, RO. -/
def PIL_Ln_SESS_CAUSE (n : Nat) : Fld := ⟨A.PIL_Ln_SESS n, 31, 24, 0x0⟩
/-- Field CLOSED of PIL_Ln_SESS, RO. -/
def PIL_Ln_SESS_CLOSED (n : Nat) : Fld := ⟨A.PIL_Ln_SESS n, 23, 23, 0x0⟩
/-- Field LOCKED of PIL_Ln_SESS, RO. -/
def PIL_Ln_SESS_LOCKED (n : Nat) : Fld := ⟨A.PIL_Ln_SESS n, 22, 22, 0x0⟩
/-- Field CC of PIL_Ln_SESS, RO. -/
def PIL_Ln_SESS_CC (n : Nat) : Fld := ⟨A.PIL_Ln_SESS n, 21, 21, 0x0⟩
/-- Field AUTHPATH of PIL_Ln_SESS, RO. -/
def PIL_Ln_SESS_AUTHPATH (n : Nat) : Fld := ⟨A.PIL_Ln_SESS n, 20, 18, 0x0⟩
/-- Field SERVICE of PIL_Ln_SESS, RO. -/
def PIL_Ln_SESS_SERVICE (n : Nat) : Fld := ⟨A.PIL_Ln_SESS n, 17, 16, 0x0⟩
/-- Field PROTO of PIL_Ln_SESS, RO. -/
def PIL_Ln_SESS_PROTO (n : Nat) : Fld := ⟨A.PIL_Ln_SESS n, 15, 14, 0x0⟩
/-- Field STEP of PIL_Ln_SESS, RO. -/
def PIL_Ln_SESS_STEP (n : Nat) : Fld := ⟨A.PIL_Ln_SESS n, 4, 0, 0x0⟩
/-- Field SEQ of PIL_Ln_EVT, RO. -/
def PIL_Ln_EVT_SEQ (n : Nat) : Fld := ⟨A.PIL_Ln_EVT n, 31, 24, 0x0⟩
/-- Field SLACFAIL of PIL_Ln_EVT, SQC. -/
def PIL_Ln_EVT_SLACFAIL (n : Nat) : Fld := ⟨A.PIL_Ln_EVT n, 5, 5, 0x0⟩
/-- Field PPBAD of PIL_Ln_EVT, SQC. -/
def PIL_Ln_EVT_PPBAD (n : Nat) : Fld := ⟨A.PIL_Ln_EVT n, 4, 4, 0x0⟩
/-- Field DIODE of PIL_Ln_EVT, SQC. -/
def PIL_Ln_EVT_DIODE (n : Nat) : Fld := ⟨A.PIL_Ln_EVT n, 3, 3, 0x0⟩
/-- Field PILOT of PIL_Ln_EVT, SQC. -/
def PIL_Ln_EVT_PILOT (n : Nat) : Fld := ⟨A.PIL_Ln_EVT n, 2, 2, 0x0⟩
/-- Field EXIT of PIL_Ln_EVT, SQC. -/
def PIL_Ln_EVT_EXIT (n : Nat) : Fld := ⟨A.PIL_Ln_EVT n, 1, 1, 0x0⟩
/-- Field STEP of PIL_Ln_EVT, SQC. -/
def PIL_Ln_EVT_STEP (n : Nat) : Fld := ⟨A.PIL_Ln_EVT n, 0, 0, 0x0⟩
/-- Field MS of PIL_Ln_STEPT, RO. -/
def PIL_Ln_STEPT_MS (n : Nat) : Fld := ⟨A.PIL_Ln_STEPT n, 31, 0, 0x0⟩
/-- Field AUTHNO of PIL_Ln_CMD, W1P. -/
def PIL_Ln_CMD_AUTHNO (n : Nat) : Fld := ⟨A.PIL_Ln_CMD n, 2, 2, 0x0⟩
/-- Field AUTHOK of PIL_Ln_CMD, W1P. -/
def PIL_Ln_CMD_AUTHOK (n : Nat) : Fld := ⟨A.PIL_Ln_CMD n, 1, 1, 0x0⟩
/-- Field STOP of PIL_Ln_CMD, W1P. -/
def PIL_Ln_CMD_STOP (n : Nat) : Fld := ⟨A.PIL_Ln_CMD n, 0, 0, 0x0⟩
/-- Field ATTEN of PIL_Ln_SLAC, RO. -/
def PIL_Ln_SLAC_ATTEN (n : Nat) : Fld := ⟨A.PIL_Ln_SLAC n, 31, 24, 0x0⟩
/-- Field NEXT of PIL_Ln_SLAC, RO. -/
def PIL_Ln_SLAC_NEXT (n : Nat) : Fld := ⟨A.PIL_Ln_SLAC n, 23, 16, 0x0⟩
/-- Field TRIES of PIL_Ln_SLAC, RO. -/
def PIL_Ln_SLAC_TRIES (n : Nat) : Fld := ⟨A.PIL_Ln_SLAC n, 11, 8, 0x0⟩
/-- Field WITHHELD of PIL_Ln_SLAC, RO. -/
def PIL_Ln_SLAC_WITHHELD (n : Nat) : Fld := ⟨A.PIL_Ln_SLAC n, 7, 4, 0x0⟩
/-- Field VALID of PIL_Ln_SLAC, RO. -/
def PIL_Ln_SLAC_VALID (n : Nat) : Fld := ⟨A.PIL_Ln_SLAC n, 3, 3, 0x0⟩
/-- Field MATCHED of PIL_Ln_SLAC, RO. -/
def PIL_Ln_SLAC_MATCHED (n : Nat) : Fld := ⟨A.PIL_Ln_SLAC n, 2, 2, 0x0⟩
/-- Field MAC of PIL_Ln_EVMAC, RO. -/
def PIL_Ln_EVMAC_MAC (n : Nat) : Fld := ⟨A.PIL_Ln_EVMAC n, 47, 0, 0x0⟩
/-- Field PATH of PIL_Ln_AUTH, RO. -/
def PIL_Ln_AUTH_PATH (n : Nat) : Fld := ⟨A.PIL_Ln_AUTH n, 31, 28, 0x0⟩
/-- Field RESULT of PIL_Ln_AUTH, RO. -/
def PIL_Ln_AUTH_RESULT (n : Nat) : Fld := ⟨A.PIL_Ln_AUTH n, 27, 24, 0x0⟩
/-- Field CLASS of PIL_Ln_AUTH, RO. -/
def PIL_Ln_AUTH_CLASS (n : Nat) : Fld := ⟨A.PIL_Ln_AUTH n, 17, 16, 0x0⟩
/-- Field READER of PIL_Ln_AUTH, RO. -/
def PIL_Ln_AUTH_READER (n : Nat) : Fld := ⟨A.PIL_Ln_AUTH n, 15, 8, 0x0⟩
/-- Field VALUE of PIL_Ln_EVMAX, RO. -/
def PIL_Ln_EVMAX_VALUE (n : Nat) (i : Nat) : Fld := ⟨A.PIL_Ln_EVMAX n i, 31, 0, 0x0⟩
/-- Field LINK of PIL_Ln_MDM, RO. -/
def PIL_Ln_MDM_LINK (n : Nat) : Fld := ⟨A.PIL_Ln_MDM n, 31, 30, 0x0⟩
/-- Field ROBO of PIL_Ln_MDM, RO. -/
def PIL_Ln_MDM_ROBO (n : Nat) : Fld := ⟨A.PIL_Ln_MDM n, 29, 28, 0x0⟩
/-- Field CRCERR of PIL_Ln_MDM, RO. -/
def PIL_Ln_MDM_CRCERR (n : Nat) : Fld := ⟨A.PIL_Ln_MDM n, 15, 8, 0x0⟩
/-- Field CLR of PIL_Ln_XCNTc, W1P. -/
def PIL_Ln_XCNTc_CLR (n : Nat) (c : Nat) : Fld := ⟨A.PIL_Ln_XCNTc n c, 31, 31, 0x0⟩
/-- Field COUNT of PIL_Ln_XCNTc, RO. -/
def PIL_Ln_XCNTc_COUNT (n : Nat) (c : Nat) : Fld := ⟨A.PIL_Ln_XCNTc n c, 15, 0, 0x0⟩
/-- Field AHI of PIL_THR0, RWB. -/
def PIL_THR0_AHI : Fld := ⟨A.PIL_THR0, 31, 16, 0x4000⟩
/-- Field AB of PIL_THR0, RWB. -/
def PIL_THR0_AB : Fld := ⟨A.PIL_THR0, 15, 0, 0x4000⟩
/-- Field BC of PIL_THR1, RWB. -/
def PIL_THR1_BC : Fld := ⟨A.PIL_THR1, 31, 16, 0x4000⟩
/-- Field CD of PIL_THR1, RWB. -/
def PIL_THR1_CD : Fld := ⟨A.PIL_THR1, 15, 0, 0x4000⟩
/-- Field DE of PIL_THR2, RWB. -/
def PIL_THR2_DE : Fld := ⟨A.PIL_THR2, 31, 16, 0x4000⟩
/-- Field ELO of PIL_THR2, RWB. -/
def PIL_THR2_ELO : Fld := ⟨A.PIL_THR2, 15, 0, 0x4000⟩
/-- Field DIODE of PIL_THR3, RWB. -/
def PIL_THR3_DIODE : Fld := ⟨A.PIL_THR3, 31, 16, 0x4000⟩
/-- Field LOWMIN of PIL_THR3, RWB. -/
def PIL_THR3_LOWMIN : Fld := ⟨A.PIL_THR3, 15, 0, 0x4000⟩
/-- Field HYST of PIL_CFG, RWB. -/
def PIL_CFG_HYST : Fld := ⟨A.PIL_CFG, 31, 28, 0x0⟩
/-- Field TXATT of PIL_CFG, RWB. -/
def PIL_CFG_TXATT : Fld := ⟨A.PIL_CFG, 27, 24, 0x0⟩
/-- Field CARDWIN of PIL_CFG, RWB. -/
def PIL_CFG_CARDWIN : Fld := ⟨A.PIL_CFG, 23, 16, 0x0⟩
/-- Field SLACMARGIN of PIL_CFG, RWB. -/
def PIL_CFG_SLACMARGIN : Fld := ⟨A.PIL_CFG, 15, 12, 0x0⟩
/-- Field SLACRETRY of PIL_CFG, RWB. -/
def PIL_CFG_SLACRETRY : Fld := ⟨A.PIL_CFG, 9, 8, 0x0⟩
/-- Field PPDEB of PIL_CFG, RWB. -/
def PIL_CFG_PPDEB : Fld := ⟨A.PIL_CFG, 7, 4, 0x0⟩
/-- Field DEB of PIL_CFG, RWB. -/
def PIL_CFG_DEB : Fld := ⟨A.PIL_CFG, 3, 0, 0x0⟩
/-- Field AUTH of PIL_TMR0, RWB. -/
def PIL_TMR0_AUTH : Fld := ⟨A.PIL_TMR0, 31, 16, 0x0⟩
/-- Field SLACI of PIL_TMR0, RWB. -/
def PIL_TMR0_SLACI : Fld := ⟨A.PIL_TMR0, 15, 8, 0x0⟩
/-- Field SEQ of PIL_TMR0, RWB. -/
def PIL_TMR0_SEQ : Fld := ⟨A.PIL_TMR0, 7, 0, 0x0⟩
/-- Field LOCK of PIL_TMR1, RWB. -/
def PIL_TMR1_LOCK : Fld := ⟨A.PIL_TMR1, 31, 16, 0x0⟩
/-- Field CABLE of PIL_TMR1, RWB. -/
def PIL_TMR1_CABLE : Fld := ⟨A.PIL_TMR1, 15, 8, 0x0⟩
/-- Field PRE of PIL_TMR1, RWB. -/
def PIL_TMR1_PRE : Fld := ⟨A.PIL_TMR1, 7, 0, 0x0⟩
/-- Field IDLEB of PIL_TMR2, RWB. -/
def PIL_TMR2_IDLEB : Fld := ⟨A.PIL_TMR2, 31, 16, 0x0⟩
/-- Field WELD of PIL_TMR2, RWB. -/
def PIL_TMR2_WELD : Fld := ⟨A.PIL_TMR2, 15, 8, 0x0⟩
/-- Field STOP of PIL_TMR2, RWB. -/
def PIL_TMR2_STOP : Fld := ⟨A.PIL_TMR2, 7, 0, 0x0⟩
/-- Field LANES of PIL_RDRk, RWB. -/
def PIL_RDRk_LANES (k : Nat) : Fld := ⟨A.PIL_RDRk k, 31, 0, 0x0⟩
/-- Field KI of EFM_Ln_NET, RWB. -/
def EFM_Ln_NET_KI (n : Nat) : Fld := ⟨A.EFM_Ln_NET n, 31, 24, 0x200⟩
/-- Field KINJ of EFM_Ln_NET, RWB. -/
def EFM_Ln_NET_KINJ (n : Nat) : Fld := ⟨A.EFM_Ln_NET n, 23, 16, 0x200⟩
/-- Field RC of EFM_Ln_NET, RWB. -/
def EFM_Ln_NET_RC (n : Nat) : Fld := ⟨A.EFM_Ln_NET n, 15, 0, 0x200⟩
/-- Field IT of EFM_Ln_RTEST, RWB. -/
def EFM_Ln_RTEST_IT (n : Nat) : Fld := ⟨A.EFM_Ln_RTEST n, 31, 16, 0x200⟩
/-- Field RT of EFM_Ln_RTEST, RWB. -/
def EFM_Ln_RTEST_RT (n : Nat) : Fld := ⟨A.EFM_Ln_RTEST n, 15, 0, 0x200⟩
/-- Field FS of EFM_Ln_ESCALE, RWB. -/
def EFM_Ln_ESCALE_FS (n : Nat) : Fld := ⟨A.EFM_Ln_ESCALE n, 23, 0, 0x200⟩
/-- Field GRP of EFM_Ln_CFG, RWB. -/
def EFM_Ln_CFG_GRP (n : Nat) : Fld := ⟨A.EFM_Ln_CFG n, 3, 0, 0x200⟩
/-- Field SHIFT of EFM_Ln_INJ, RO. -/
def EFM_Ln_INJ_SHIFT (n : Nat) : Fld := ⟨A.EFM_Ln_INJ n, 31, 24, 0x0⟩
/-- Field MODE of EFM_Ln_INJ, RO. -/
def EFM_Ln_INJ_MODE (n : Nat) : Fld := ⟨A.EFM_Ln_INJ n, 23, 22, 0x0⟩
/-- Field AMP of EFM_Ln_INJ, RO. -/
def EFM_Ln_INJ_AMP (n : Nat) : Fld := ⟨A.EFM_Ln_INJ n, 15, 0, 0x0⟩
/-- Field VALID of EFM_Ln_RISO, RO. -/
def EFM_Ln_RISO_VALID (n : Nat) : Fld := ⟨A.EFM_Ln_RISO n, 31, 31, 0x0⟩
/-- Field UNDER of EFM_Ln_RISO, RO. -/
def EFM_Ln_RISO_UNDER (n : Nat) : Fld := ⟨A.EFM_Ln_RISO n, 30, 30, 0x0⟩
/-- Field OVER of EFM_Ln_RISO, RO. -/
def EFM_Ln_RISO_OVER (n : Nat) : Fld := ⟨A.EFM_Ln_RISO n, 29, 29, 0x0⟩
/-- Field R of EFM_Ln_RISO, RO. -/
def EFM_Ln_RISO_R (n : Nat) : Fld := ⟨A.EFM_Ln_RISO n, 16, 0, 0x0⟩
/-- Field VALID of EFM_Ln_RFAST, RO. -/
def EFM_Ln_RFAST_VALID (n : Nat) : Fld := ⟨A.EFM_Ln_RFAST n, 31, 31, 0x0⟩
/-- Field UNDER of EFM_Ln_RFAST, RO. -/
def EFM_Ln_RFAST_UNDER (n : Nat) : Fld := ⟨A.EFM_Ln_RFAST n, 30, 30, 0x0⟩
/-- Field OVER of EFM_Ln_RFAST, RO. -/
def EFM_Ln_RFAST_OVER (n : Nat) : Fld := ⟨A.EFM_Ln_RFAST n, 29, 29, 0x0⟩
/-- Field R of EFM_Ln_RFAST, RO. -/
def EFM_Ln_RFAST_R (n : Nat) : Fld := ⟨A.EFM_Ln_RFAST n, 16, 0, 0x0⟩
/-- Field U of EFM_Ln_UREF, RO. -/
def EFM_Ln_UREF_U (n : Nat) : Fld := ⟨A.EFM_Ln_UREF n, 15, 0, 0x0⟩
/-- Field VERDICT of EFM_Ln_VERD, RO. -/
def EFM_Ln_VERD_VERDICT (n : Nat) : Fld := ⟨A.EFM_Ln_VERD n, 1, 0, 0x0⟩
/-- Field SEQ of EFM_Ln_STAT, RO. -/
def EFM_Ln_STAT_SEQ (n : Nat) : Fld := ⟨A.EFM_Ln_STAT n, 31, 24, 0x0⟩
/-- Field RCFAULT of EFM_Ln_STAT, SQC. -/
def EFM_Ln_STAT_RCFAULT (n : Nat) : Fld := ⟨A.EFM_Ln_STAT n, 6, 6, 0x0⟩
/-- Field XCPL of EFM_Ln_STAT, SQC. -/
def EFM_Ln_STAT_XCPL (n : Nat) : Fld := ⟨A.EFM_Ln_STAT n, 5, 5, 0x0⟩
/-- Field STFAIL of EFM_Ln_STAT, SQC. -/
def EFM_Ln_STAT_STFAIL (n : Nat) : Fld := ⟨A.EFM_Ln_STAT n, 4, 4, 0x0⟩
/-- Field CCFAIL of EFM_Ln_STAT, SQC. -/
def EFM_Ln_STAT_CCFAIL (n : Nat) : Fld := ⟨A.EFM_Ln_STAT n, 3, 3, 0x0⟩
/-- Field GFAULT of EFM_Ln_STAT, SQC. -/
def EFM_Ln_STAT_GFAULT (n : Nat) : Fld := ⟨A.EFM_Ln_STAT n, 2, 2, 0x0⟩
/-- Field FAULT of EFM_Ln_STAT, SQC. -/
def EFM_Ln_STAT_FAULT (n : Nat) : Fld := ⟨A.EFM_Ln_STAT n, 1, 1, 0x0⟩
/-- Field WARN of EFM_Ln_STAT, SQC. -/
def EFM_Ln_STAT_WARN (n : Nat) : Fld := ⟨A.EFM_Ln_STAT n, 0, 0, 0x0⟩
/-- Field RESULT of EFM_Ln_ST, RO. -/
def EFM_Ln_ST_RESULT (n : Nat) : Fld := ⟨A.EFM_Ln_ST n, 31, 30, 0x0⟩
/-- Field VALUE of EFM_Ln_ST, RO. -/
def EFM_Ln_ST_VALUE (n : Nat) : Fld := ⟨A.EFM_Ln_ST n, 15, 0, 0x0⟩
/-- Field SLOW of EFM_Ln_RCD, RO. -/
def EFM_Ln_RCD_SLOW (n : Nat) : Fld := ⟨A.EFM_Ln_RCD n, 31, 16, 0x0⟩
/-- Field FAST of EFM_Ln_RCD, RO. -/
def EFM_Ln_RCD_FAST (n : Nat) : Fld := ⟨A.EFM_Ln_RCD n, 15, 0, 0x0⟩
/-- Field CODE of EFM_Ln_XCODE, RO. -/
def EFM_Ln_XCODE_CODE (n : Nat) : Fld := ⟨A.EFM_Ln_XCODE n, 31, 0, 0x0⟩
/-- Field C of EFM_Ln_CISO, RO. -/
def EFM_Ln_CISO_C (n : Nat) : Fld := ⟨A.EFM_Ln_CISO n, 15, 0, 0x0⟩
/-- Field WARN of EFM_THR, RWB. -/
def EFM_THR_WARN : Fld := ⟨A.EFM_THR, 31, 16, 0x4000⟩
/-- Field FAULT of EFM_THR, RWB. -/
def EFM_THR_FAULT : Fld := ⟨A.EFM_THR, 15, 0, 0x4000⟩
/-- Field HYST of EFM_CFG, RWB. -/
def EFM_CFG_HYST : Fld := ⟨A.EFM_CFG, 31, 24, 0x4000⟩
/-- Field FASTW of EFM_CFG, RWB. -/
def EFM_CFG_FASTW : Fld := ⟨A.EFM_CFG, 23, 20, 0x4000⟩
/-- Field SETTLE of EFM_CFG, RWB. -/
def EFM_CFG_SETTLE : Fld := ⟨A.EFM_CFG, 19, 10, 0x4000⟩
/-- Field UMIN of EFM_CFG, RWB. -/
def EFM_CFG_UMIN : Fld := ⟨A.EFM_CFG, 9, 0, 0x4000⟩
/-- Field STTOL of EFM_RCDCFG, RWB. -/
def EFM_RCDCFG_STTOL : Fld := ⟨A.EFM_RCDCFG, 31, 24, 0x4000⟩
/-- Field IDCF of EFM_RCDCFG, RWB. -/
def EFM_RCDCFG_IDCF : Fld := ⟨A.EFM_RCDCFG, 23, 12, 0x4000⟩
/-- Field IDC of EFM_RCDCFG, RWB. -/
def EFM_RCDCFG_IDC : Fld := ⟨A.EFM_RCDCFG, 11, 0, 0x4000⟩
/-- Field VALID of EFM_GRPg_RSYS, RO. -/
def EFM_GRPg_RSYS_VALID (g : Nat) : Fld := ⟨A.EFM_GRPg_RSYS g, 31, 31, 0x0⟩
/-- Field UNDER of EFM_GRPg_RSYS, RO. -/
def EFM_GRPg_RSYS_UNDER (g : Nat) : Fld := ⟨A.EFM_GRPg_RSYS g, 30, 30, 0x0⟩
/-- Field OVER of EFM_GRPg_RSYS, RO. -/
def EFM_GRPg_RSYS_OVER (g : Nat) : Fld := ⟨A.EFM_GRPg_RSYS g, 29, 29, 0x0⟩
/-- Field R of EFM_GRPg_RSYS, RO. -/
def EFM_GRPg_RSYS_R (g : Nat) : Fld := ⟨A.EFM_GRPg_RSYS g, 16, 0, 0x0⟩
/-- Field VALID of EFM_GRPg_RREM, RO. -/
def EFM_GRPg_RREM_VALID (g : Nat) : Fld := ⟨A.EFM_GRPg_RREM g, 31, 31, 0x0⟩
/-- Field UNDER of EFM_GRPg_RREM, RO. -/
def EFM_GRPg_RREM_UNDER (g : Nat) : Fld := ⟨A.EFM_GRPg_RREM g, 30, 30, 0x0⟩
/-- Field OVER of EFM_GRPg_RREM, RO. -/
def EFM_GRPg_RREM_OVER (g : Nat) : Fld := ⟨A.EFM_GRPg_RREM g, 29, 29, 0x0⟩
/-- Field R of EFM_GRPg_RREM, RO. -/
def EFM_GRPg_RREM_R (g : Nat) : Fld := ⟨A.EFM_GRPg_RREM g, 16, 0, 0x0⟩
/-- Field ABSENT of ALC_CFG, RWB. -/
def ALC_CFG_ABSENT : Fld := ⟨A.ALC_CFG, 31, 20, 0x0⟩
/-- Field JOINT of ALC_CFG, RWB. -/
def ALC_CFG_JOINT : Fld := ⟨A.ALC_CFG, 19, 16, 0x0⟩
/-- Field CUT of ALC_CFG, RWB. -/
def ALC_CFG_CUT : Fld := ⟨A.ALC_CFG, 15, 8, 0x0⟩
/-- Field RUN of ALC_VER, RO. -/
def ALC_VER_RUN : Fld := ⟨A.ALC_VER, 31, 16, 0x0⟩
/-- Field CFG of ALC_VER, RO. -/
def ALC_VER_CFG : Fld := ⟨A.ALC_VER, 15, 0, 0x0⟩
/-- Field RISE of ALC_RISE, RWB. -/
def ALC_RISE_RISE : Fld := ⟨A.ALC_RISE, 31, 0, 0x4000⟩
/-- Field VALID of ALC_ZPATHj, RO. -/
def ALC_ZPATHj_VALID (j : Nat) : Fld := ⟨A.ALC_ZPATHj j, 31, 31, 0x0⟩
/-- Field ZONE of ALC_ZPATHj, RO. -/
def ALC_ZPATHj_ZONE (j : Nat) : Fld := ⟨A.ALC_ZPATHj j, 15, 0, 0x0⟩
/-- Field W of ALC_ZLIMj, RWB. -/
def ALC_ZLIMj_W (j : Nat) : Fld := ⟨A.ALC_ZLIMj j, 31, 0, 0x4000⟩
/-- Field W of ALC_ZEXPj, RWB. -/
def ALC_ZEXPj_W (j : Nat) : Fld := ⟨A.ALC_ZEXPj j, 31, 0, 0x4000⟩
/-- Field SEQ of ALC_STAT, RO. -/
def ALC_STAT_SEQ : Fld := ⟨A.ALC_STAT, 31, 24, 0x0⟩
/-- Field DIVERGE of ALC_STAT, SQC. -/
def ALC_STAT_DIVERGE : Fld := ⟨A.ALC_STAT, 23, 23, 0x0⟩
/-- Field MISMATCH of ALC_STAT, SQC. -/
def ALC_STAT_MISMATCH : Fld := ⟨A.ALC_STAT, 22, 22, 0x0⟩
/-- Field LIMSTALE of ALC_STAT, SQC. -/
def ALC_STAT_LIMSTALE : Fld := ⟨A.ALC_STAT, 21, 21, 0x0⟩
/-- Field PARTIAL of ALC_STAT, SQC. -/
def ALC_STAT_PARTIAL : Fld := ⟨A.ALC_STAT, 20, 20, 0x0⟩
/-- Field FLOOROVER of ALC_STAT, SQC. -/
def ALC_STAT_FLOOROVER : Fld := ⟨A.ALC_STAT, 19, 19, 0x0⟩
/-- Field REP of ALC_STAT, RO. -/
def ALC_STAT_REP : Fld := ⟨A.ALC_STAT, 15, 15, 0x0⟩
/-- Field SELFMIS of ALC_STAT, RO. -/
def ALC_STAT_SELFMIS : Fld := ⟨A.ALC_STAT, 14, 14, 0x0⟩
/-- Field NMEMB of ALC_STAT, RO. -/
def ALC_STAT_NMEMB : Fld := ⟨A.ALC_STAT, 8, 0, 0x0⟩
/-- Field DIG of ALC_GDIG, RO. -/
def ALC_GDIG_DIG : Fld := ⟨A.ALC_GDIG, 31, 0, 0x0⟩
/-- Field MAX of ALC_TIME, RO. -/
def ALC_TIME_MAX : Fld := ⟨A.ALC_TIME, 31, 16, 0x0⟩
/-- Field LAST of ALC_TIME, RO. -/
def ALC_TIME_LAST : Fld := ⟨A.ALC_TIME, 15, 0, 0x0⟩
/-- Field W of ALC_PLIM, RO. -/
def ALC_PLIM_W : Fld := ⟨A.ALC_PLIM, 31, 0, 0x0⟩
/-- Field W of ALC_PEXP, RO. -/
def ALC_PEXP_W : Fld := ⟨A.ALC_PEXP, 31, 0, 0x0⟩
/-- Field BUDGET of ALC_AUXB, RWB. -/
def ALC_AUXB_BUDGET : Fld := ⟨A.ALC_AUXB, 15, 0, 0x4000⟩
/-- Field BUDGET of ALC_HEATB, RWB. -/
def ALC_HEATB_BUDGET : Fld := ⟨A.ALC_HEATB, 15, 0, 0x4000⟩
/-- Field RDR of ALC_COST, RWB. -/
def ALC_COST_RDR : Fld := ⟨A.ALC_COST, 31, 24, 0x4000⟩
/-- Field GEN of ALC_COST, RWB. -/
def ALC_COST_GEN : Fld := ⟨A.ALC_COST, 23, 16, 0x4000⟩
/-- Field LK of ALC_COST, RWB. -/
def ALC_COST_LK : Fld := ⟨A.ALC_COST, 15, 8, 0x4000⟩
/-- Field CC of ALC_COST, RWB. -/
def ALC_COST_CC : Fld := ⟨A.ALC_COST, 7, 0, 0x4000⟩
/-- Field MAXLEN of ALC_SQ, RO. -/
def ALC_SQ_MAXLEN : Fld := ⟨A.ALC_SQ, 23, 16, 0x0⟩
/-- Field LEN of ALC_SQ, RO. -/
def ALC_SQ_LEN : Fld := ⟨A.ALC_SQ, 7, 0, 0x0⟩
/-- Field MAX of ALC_SWAIT, RO. -/
def ALC_SWAIT_MAX : Fld := ⟨A.ALC_SWAIT, 31, 16, 0x0⟩
/-- Field LAST of ALC_SWAIT, RO. -/
def ALC_SWAIT_LAST : Fld := ⟨A.ALC_SWAIT, 15, 0, 0x0⟩
/-- Field HEAT of ALC_SBOOK, RO. -/
def ALC_SBOOK_HEAT : Fld := ⟨A.ALC_SBOOK, 31, 16, 0x0⟩
/-- Field AUX of ALC_SBOOK, RO. -/
def ALC_SBOOK_AUX : Fld := ⟨A.ALC_SBOOK, 15, 0, 0x0⟩
/-- Field NCLS of ALC_SCTL, RWB. -/
def ALC_SCTL_NCLS : Fld := ⟨A.ALC_SCTL, 9, 8, 0x0⟩
/-- Field CLR of ALC_SCTL, W1P. -/
def ALC_SCTL_CLR : Fld := ⟨A.ALC_SCTL, 0, 0, 0x0⟩
/-- Field W of ALC_Ln_GRANT, RO. -/
def ALC_Ln_GRANT_W (n : Nat) : Fld := ⟨A.ALC_Ln_GRANT n, 31, 0, 0x4000⟩
/-- Field W of ALC_Ln_NEXT, RO. -/
def ALC_Ln_NEXT_W (n : Nat) : Fld := ⟨A.ALC_Ln_NEXT n, 31, 0, 0x4000⟩
/-- Field CLASS of ALC_Ln_INFO, RO. -/
def ALC_Ln_INFO_CLASS (n : Nat) : Fld := ⟨A.ALC_Ln_INFO n, 31, 30, 0x0⟩
/-- Field CAPPED of ALC_Ln_INFO, RO. -/
def ALC_Ln_INFO_CAPPED (n : Nat) : Fld := ⟨A.ALC_Ln_INFO n, 29, 29, 0x0⟩
/-- Field URGENT of ALC_Ln_INFO, RO. -/
def ALC_Ln_INFO_URGENT (n : Nat) : Fld := ⟨A.ALC_Ln_INFO n, 28, 28, 0x0⟩
/-- Field RISELIM of ALC_Ln_INFO, RO. -/
def ALC_Ln_INFO_RISELIM (n : Nat) : Fld := ⟨A.ALC_Ln_INFO n, 27, 27, 0x0⟩
/-- Field FORCED of ALC_Ln_INFO, RO. -/
def ALC_Ln_INFO_FORCED (n : Nat) : Fld := ⟨A.ALC_Ln_INFO n, 26, 26, 0x0⟩
/-- Field FLOOR of ALC_Ln_INFO, RO. -/
def ALC_Ln_INFO_FLOOR (n : Nat) : Fld := ⟨A.ALC_Ln_INFO n, 25, 25, 0x0⟩
/-- Field NOMOD of ALC_Ln_INFO, RO. -/
def ALC_Ln_INFO_NOMOD (n : Nat) : Fld := ⟨A.ALC_Ln_INFO n, 24, 24, 0x0⟩
/-- Field MAX of ALC_Ln_WAIT, RO. -/
def ALC_Ln_WAIT_MAX (n : Nat) : Fld := ⟨A.ALC_Ln_WAIT n, 31, 16, 0x0⟩
/-- Field LAST of ALC_Ln_WAIT, RO. -/
def ALC_Ln_WAIT_LAST (n : Nat) : Fld := ⟨A.ALC_Ln_WAIT n, 15, 0, 0x0⟩
/-- Field FROZEN of ALC_GCAPg, RO. -/
def ALC_GCAPg_FROZEN (g : Nat) : Fld := ⟨A.ALC_GCAPg g, 31, 31, 0x0⟩
/-- Field W of ALC_GCAPg, RO. -/
def ALC_GCAPg_W (g : Nat) : Fld := ⟨A.ALC_GCAPg g, 27, 0, 0x0⟩
/-- Field TICK of ALC_MEMm, RO. -/
def ALC_MEMm_TICK (m : Nat) : Fld := ⟨A.ALC_MEMm m, 63, 32, 0x0⟩
/-- Field STATE of ALC_MEMm, RO. -/
def ALC_MEMm_STATE (m : Nat) : Fld := ⟨A.ALC_MEMm m, 18, 16, 0x0⟩
/-- Field DEVID of ALC_MEMm, RO. -/
def ALC_MEMm_DEVID (m : Nat) : Fld := ⟨A.ALC_MEMm m, 15, 0, 0x0⟩
/-- Field HOLD of SWA_Ln_CCCFG, RWB. -/
def SWA_Ln_CCCFG_HOLD (n : Nat) : Fld := ⟨A.SWA_Ln_CCCFG n, 31, 24, 0x200⟩
/-- Field PITIME of SWA_Ln_CCCFG, RWB. -/
def SWA_Ln_CCCFG_PITIME (n : Nat) : Fld := ⟨A.SWA_Ln_CCCFG n, 19, 8, 0x200⟩
/-- Field PICUR of SWA_Ln_CCCFG, RWB. -/
def SWA_Ln_CCCFG_PICUR (n : Nat) : Fld := ⟨A.SWA_Ln_CCCFG n, 4, 0, 0x200⟩
/-- Field STALL of SWA_Ln_LKCFG, RWB. -/
def SWA_Ln_LKCFG_STALL (n : Nat) : Fld := ⟨A.SWA_Ln_LKCFG n, 31, 24, 0x200⟩
/-- Field TMIN of SWA_Ln_LKCFG, RWB. -/
def SWA_Ln_LKCFG_TMIN (n : Nat) : Fld := ⟨A.SWA_Ln_LKCFG n, 23, 16, 0x200⟩
/-- Field DRIVE of SWA_Ln_LKCFG, RWB. -/
def SWA_Ln_LKCFG_DRIVE (n : Nat) : Fld := ⟨A.SWA_Ln_LKCFG n, 11, 0, 0x200⟩
/-- Field STATE of SWA_Ln_CCST, RO. -/
def SWA_Ln_CCST_STATE (n : Nat) : Fld := ⟨A.SWA_Ln_CCST n, 31, 29, 0x0⟩
/-- Field SRQ of SWA_Ln_CCST, RO. -/
def SWA_Ln_CCST_SRQ (n : Nat) : Fld := ⟨A.SWA_Ln_CCST n, 28, 28, 0x0⟩
/-- Field ACON of SWA_Ln_CCST, RO. -/
def SWA_Ln_CCST_ACON (n : Nat) : Fld := ⟨A.SWA_Ln_CCST n, 27, 27, 0x0⟩
/-- Field BCON of SWA_Ln_CCST, RO. -/
def SWA_Ln_CCST_BCON (n : Nat) : Fld := ⟨A.SWA_Ln_CCST n, 26, 26, 0x0⟩
/-- Field TRIPS of SWA_Ln_CCST, RO. -/
def SWA_Ln_CCST_TRIPS (n : Nat) : Fld := ⟨A.SWA_Ln_CCST n, 19, 16, 0x0⟩
/-- Field I of SWA_Ln_CCST, RO. -/
def SWA_Ln_CCST_I (n : Nat) : Fld := ⟨A.SWA_Ln_CCST n, 11, 0, 0x0⟩
/-- Field POS of SWA_Ln_LKST, RO. -/
def SWA_Ln_LKST_POS (n : Nat) : Fld := ⟨A.SWA_Ln_LKST n, 31, 30, 0x0⟩
/-- Field LAST of SWA_Ln_LKST, RO. -/
def SWA_Ln_LKST_LAST (n : Nat) : Fld := ⟨A.SWA_Ln_LKST n, 29, 28, 0x0⟩
/-- Field DIR of SWA_Ln_LKST, RO. -/
def SWA_Ln_LKST_DIR (n : Nat) : Fld := ⟨A.SWA_Ln_LKST n, 27, 27, 0x0⟩
/-- Field BRAKE of SWA_Ln_LKST, RO. -/
def SWA_Ln_LKST_BRAKE (n : Nat) : Fld := ⟨A.SWA_Ln_LKST n, 26, 26, 0x0⟩
/-- Field TYPE of SWA_Ln_LKST, RO. -/
def SWA_Ln_LKST_TYPE (n : Nat) : Fld := ⟨A.SWA_Ln_LKST n, 25, 24, 0x0⟩
/-- Field TIME of SWA_Ln_LKST, RO. -/
def SWA_Ln_LKST_TIME (n : Nat) : Fld := ⟨A.SWA_Ln_LKST n, 23, 12, 0x0⟩
/-- Field IPEAK of SWA_Ln_LKST, RO. -/
def SWA_Ln_LKST_IPEAK (n : Nat) : Fld := ⟨A.SWA_Ln_LKST n, 11, 0, 0x0⟩
/-- Field LK of SWA_Ln_CLMP, RO. -/
def SWA_Ln_CLMP_LK (n : Nat) : Fld := ⟨A.SWA_Ln_CLMP n, 31, 16, 0x0⟩
/-- Field CC of SWA_Ln_CLMP, RO. -/
def SWA_Ln_CLMP_CC (n : Nat) : Fld := ⟨A.SWA_Ln_CLMP n, 15, 0, 0x0⟩
/-- Field SEQ of SWA_Ln_STAT, RO. -/
def SWA_Ln_STAT_SEQ (n : Nat) : Fld := ⟨A.SWA_Ln_STAT n, 31, 24, 0x0⟩
/-- Field PLAUS of SWA_Ln_STAT, SQC. -/
def SWA_Ln_STAT_PLAUS (n : Nat) : Fld := ⟨A.SWA_Ln_STAT n, 8, 8, 0x0⟩
/-- Field CCOPEN of SWA_Ln_STAT, SQC. -/
def SWA_Ln_STAT_CCOPEN (n : Nat) : Fld := ⟨A.SWA_Ln_STAT n, 7, 7, 0x0⟩
/-- Field LKOPEN of SWA_Ln_STAT, SQC. -/
def SWA_Ln_STAT_LKOPEN (n : Nat) : Fld := ⟨A.SWA_Ln_STAT n, 6, 6, 0x0⟩
/-- Field LKLATCH of SWA_Ln_STAT, SQC. -/
def SWA_Ln_STAT_LKLATCH (n : Nat) : Fld := ⟨A.SWA_Ln_STAT n, 5, 5, 0x0⟩
/-- Field CCLATCH of SWA_Ln_STAT, SQC. -/
def SWA_Ln_STAT_CCLATCH (n : Nat) : Fld := ⟨A.SWA_Ln_STAT n, 4, 4, 0x0⟩
/-- Field LKCLAMP of SWA_Ln_STAT, SQC. -/
def SWA_Ln_STAT_LKCLAMP (n : Nat) : Fld := ⟨A.SWA_Ln_STAT n, 3, 3, 0x0⟩
/-- Field CCCLAMP of SWA_Ln_STAT, SQC. -/
def SWA_Ln_STAT_CCCLAMP (n : Nat) : Fld := ⟨A.SWA_Ln_STAT n, 2, 2, 0x0⟩
/-- Field LKTRIP of SWA_Ln_STAT, SQC. -/
def SWA_Ln_STAT_LKTRIP (n : Nat) : Fld := ⟨A.SWA_Ln_STAT n, 1, 1, 0x0⟩
/-- Field CCTRIP of SWA_Ln_STAT, SQC. -/
def SWA_Ln_STAT_CCTRIP (n : Nat) : Fld := ⟨A.SWA_Ln_STAT n, 0, 0, 0x0⟩
/-- Field RELLK of SWA_Ln_CMD, W1P. -/
def SWA_Ln_CMD_RELLK (n : Nat) : Fld := ⟨A.SWA_Ln_CMD n, 1, 1, 0x0⟩
/-- Field RELCC of SWA_Ln_CMD, W1P. -/
def SWA_Ln_CMD_RELCC (n : Nat) : Fld := ⟨A.SWA_Ln_CMD n, 0, 0, 0x0⟩
/-- Field N of SWA_CFG, RWB. -/
def SWA_CFG_N : Fld := ⟨A.SWA_CFG, 31, 28, 0x4000⟩
/-- Field RESET of SWA_CFG, RWB. -/
def SWA_CFG_RESET : Fld := ⟨A.SWA_CFG, 27, 16, 0x4000⟩
/-- Field IPLAUS of SWA_CFG, RWB. -/
def SWA_CFG_IPLAUS : Fld := ⟨A.SWA_CFG, 15, 8, 0x4000⟩
/-- Field LEAKT of SWA_CLAMPCFG, RWB. -/
def SWA_CLAMPCFG_LEAKT : Fld := ⟨A.SWA_CLAMPCFG, 31, 24, 0x4000⟩
/-- Field CAP of SWA_CLAMPCFG, RWB. -/
def SWA_CLAMPCFG_CAP : Fld := ⟨A.SWA_CLAMPCFG, 15, 0, 0x4000⟩
/-- Field EN of SWA_Gk_CFG, RWB. -/
def SWA_Gk_CFG_EN (k : Nat) : Fld := ⟨A.SWA_Gk_CFG k, 31, 31, 0x4000⟩
/-- Field ROLE of SWA_Gk_CFG, RWB. -/
def SWA_Gk_CFG_ROLE (k : Nat) : Fld := ⟨A.SWA_Gk_CFG k, 30, 29, 0x4000⟩
/-- Field SHED of SWA_Gk_CFG, RWB. -/
def SWA_Gk_CFG_SHED (k : Nat) : Fld := ⟨A.SWA_Gk_CFG k, 28, 28, 0x4000⟩
/-- Field RANGE of SWA_Gk_CFG, RWB. -/
def SWA_Gk_CFG_RANGE (k : Nat) : Fld := ⟨A.SWA_Gk_CFG k, 27, 27, 0x4000⟩
/-- Field LANE of SWA_Gk_CFG, RWB. -/
def SWA_Gk_CFG_LANE (k : Nat) : Fld := ⟨A.SWA_Gk_CFG k, 20, 16, 0x4000⟩
/-- Field OLTH of SWA_Gk_CFG, RWB. -/
def SWA_Gk_CFG_OLTH (k : Nat) : Fld := ⟨A.SWA_Gk_CFG k, 15, 8, 0x4000⟩
/-- Field IRATE of SWA_Gk_CFG, RWB. -/
def SWA_Gk_CFG_IRATE (k : Nat) : Fld := ⟨A.SWA_Gk_CFG k, 7, 0, 0x4000⟩
/-- Field TINR of SWA_Gk_INR, RWB. -/
def SWA_Gk_INR_TINR (k : Nat) : Fld := ⟨A.SWA_Gk_INR k, 31, 16, 0x4000⟩
/-- Field IINR of SWA_Gk_INR, RWB. -/
def SWA_Gk_INR_IINR (k : Nat) : Fld := ⟨A.SWA_Gk_INR k, 8, 0, 0x4000⟩
/-- Field REL of SWA_Gk_CTL, W1P. -/
def SWA_Gk_CTL_REL (k : Nat) : Fld := ⟨A.SWA_Gk_CTL k, 2, 2, 0x0⟩
/-- Field ON of SWA_Gk_CTL, W1P. -/
def SWA_Gk_CTL_ON (k : Nat) : Fld := ⟨A.SWA_Gk_CTL k, 1, 1, 0x0⟩
/-- Field OFF of SWA_Gk_CTL, W1P. -/
def SWA_Gk_CTL_OFF (k : Nat) : Fld := ⟨A.SWA_Gk_CTL k, 0, 0, 0x0⟩
/-- Field SEQ of SWA_Gk_ST, RO. -/
def SWA_Gk_ST_SEQ (k : Nat) : Fld := ⟨A.SWA_Gk_ST k, 31, 24, 0x0⟩
/-- Field STATE of SWA_Gk_ST, RO. -/
def SWA_Gk_ST_STATE (k : Nat) : Fld := ⟨A.SWA_Gk_ST k, 23, 21, 0x0⟩
/-- Field TRIP of SWA_Gk_ST, SQC. -/
def SWA_Gk_ST_TRIP (k : Nat) : Fld := ⟨A.SWA_Gk_ST k, 19, 19, 0x0⟩
/-- Field LATCH of SWA_Gk_ST, SQC. -/
def SWA_Gk_ST_LATCH (k : Nat) : Fld := ⟨A.SWA_Gk_ST k, 18, 18, 0x0⟩
/-- Field CLAMP of SWA_Gk_ST, SQC. -/
def SWA_Gk_ST_CLAMP (k : Nat) : Fld := ⟨A.SWA_Gk_ST k, 17, 17, 0x0⟩
/-- Field OPEN of SWA_Gk_ST, SQC. -/
def SWA_Gk_ST_OPEN (k : Nat) : Fld := ⟨A.SWA_Gk_ST k, 16, 16, 0x0⟩
/-- Field TRIPS of SWA_Gk_ST, RO. -/
def SWA_Gk_ST_TRIPS (k : Nat) : Fld := ⟨A.SWA_Gk_ST k, 15, 12, 0x0⟩
/-- Field I of SWA_Gk_ST, RO. -/
def SWA_Gk_ST_I (k : Nat) : Fld := ⟨A.SWA_Gk_ST k, 11, 0, 0x0⟩
/-- Field B of SWA_Gk_BKT, RO. -/
def SWA_Gk_BKT_B (k : Nat) : Fld := ⟨A.SWA_Gk_BKT k, 15, 0, 0x0⟩
/-- Field SEQ of SWA_SUPPLY, RO. -/
def SWA_SUPPLY_SEQ : Fld := ⟨A.SWA_SUPPLY, 31, 24, 0x0⟩
/-- Field GND of SWA_SUPPLY, SQC. -/
def SWA_SUPPLY_GND : Fld := ⟨A.SWA_SUPPLY, 23, 23, 0x0⟩
/-- Field REV of SWA_SUPPLY, SQC. -/
def SWA_SUPPLY_REV : Fld := ⟨A.SWA_SUPPLY, 22, 22, 0x0⟩
/-- Field OV of SWA_SUPPLY, SQC. -/
def SWA_SUPPLY_OV : Fld := ⟨A.SWA_SUPPLY, 21, 21, 0x0⟩
/-- Field UV of SWA_SUPPLY, SQC. -/
def SWA_SUPPLY_UV : Fld := ⟨A.SWA_SUPPLY, 20, 20, 0x0⟩
/-- Field GNDNOW of SWA_SUPPLY, RO. -/
def SWA_SUPPLY_GNDNOW : Fld := ⟨A.SWA_SUPPLY, 19, 19, 0x0⟩
/-- Field REVNOW of SWA_SUPPLY, RO. -/
def SWA_SUPPLY_REVNOW : Fld := ⟨A.SWA_SUPPLY, 18, 18, 0x0⟩
/-- Field OVNOW of SWA_SUPPLY, RO. -/
def SWA_SUPPLY_OVNOW : Fld := ⟨A.SWA_SUPPLY, 17, 17, 0x0⟩
/-- Field UVNOW of SWA_SUPPLY, RO. -/
def SWA_SUPPLY_UVNOW : Fld := ⟨A.SWA_SUPPLY, 16, 16, 0x0⟩
/-- Field VAUX of SWA_SUPPLY, RO. -/
def SWA_SUPPLY_VAUX : Fld := ⟨A.SWA_SUPPLY, 15, 0, 0x0⟩
/-- Field D of SWA_DISS, RO. -/
def SWA_DISS_D : Fld := ⟨A.SWA_DISS, 31, 16, 0x0⟩
/-- Field TJ of SWA_DISS, RO. -/
def SWA_DISS_TJ : Fld := ⟨A.SWA_DISS, 15, 0, 0x0⟩
/-- Field P of SWA_PBASE, RWB. -/
def SWA_PBASE_P : Fld := ⟨A.SWA_PBASE, 15, 0, 0x4000⟩
/-- Field SHEDN of SWA_THERM, RO. -/
def SWA_THERM_SHEDN : Fld := ⟨A.SWA_THERM, 23, 16, 0x0⟩
/-- Field THOT of SWA_THERM, RWB. -/
def SWA_THERM_THOT : Fld := ⟨A.SWA_THERM, 7, 0, 0x0⟩
/-- Field SO of SAF_STAT, RO. -/
def SAF_STAT_SO : Fld := ⟨A.SAF_STAT, 9, 8, 0x0⟩
/-- Field WALKDONE of SAF_STAT, RO. -/
def SAF_STAT_WALKDONE : Fld := ⟨A.SAF_STAT, 7, 7, 0x0⟩
/-- Field SAFE of SAF_STAT, RO. -/
def SAF_STAT_SAFE : Fld := ⟨A.SAF_STAT, 6, 6, 0x0⟩
/-- Field CHANNEL of SAF_STAT, RO. -/
def SAF_STAT_CHANNEL : Fld := ⟨A.SAF_STAT, 5, 5, 0x0⟩
/-- Field SERVICE of SAF_STAT, RO. -/
def SAF_STAT_SERVICE : Fld := ⟨A.SAF_STAT, 4, 4, 0x0⟩
/-- Field LINK of SAF_STAT, RO. -/
def SAF_STAT_LINK : Fld := ⟨A.SAF_STAT, 3, 3, 0x0⟩
/-- Field PEER of SAF_STAT, RO. -/
def SAF_STAT_PEER : Fld := ⟨A.SAF_STAT, 2, 2, 0x0⟩
/-- Field GUARD of SAF_STAT, RO. -/
def SAF_STAT_GUARD : Fld := ⟨A.SAF_STAT, 1, 1, 0x0⟩
/-- Field ESTOP of SAF_STAT, RO. -/
def SAF_STAT_ESTOP : Fld := ⟨A.SAF_STAT, 0, 0, 0x0⟩
/-- Field SEQ of SAF_EVT, RO. -/
def SAF_EVT_SEQ : Fld := ⟨A.SAF_EVT, 31, 24, 0x0⟩
/-- Field RESETIGN of SAF_EVT, SQC. -/
def SAF_EVT_RESETIGN : Fld := ⟨A.SAF_EVT, 7, 7, 0x0⟩
/-- Field RESET of SAF_EVT, SQC. -/
def SAF_EVT_RESET : Fld := ⟨A.SAF_EVT, 6, 6, 0x0⟩
/-- Field SOFB of SAF_EVT, SQC. -/
def SAF_EVT_SOFB : Fld := ⟨A.SAF_EVT, 5, 5, 0x0⟩
/-- Field GDISC of SAF_EVT, SQC. -/
def SAF_EVT_GDISC : Fld := ⟨A.SAF_EVT, 4, 4, 0x0⟩
/-- Field MDISC of SAF_EVT, SQC. -/
def SAF_EVT_MDISC : Fld := ⟨A.SAF_EVT, 3, 3, 0x0⟩
/-- Field WELD of SAF_EVT, SQC. -/
def SAF_EVT_WELD : Fld := ⟨A.SAF_EVT, 2, 2, 0x0⟩
/-- Field CMPMIS of SAF_EVT, SQC. -/
def SAF_EVT_CMPMIS : Fld := ⟨A.SAF_EVT, 1, 1, 0x0⟩
/-- Field ENTER of SAF_EVT, SQC. -/
def SAF_EVT_ENTER : Fld := ⟨A.SAF_EVT, 0, 0, 0x0⟩
/-- Field SAFE of SAF_CMD, W1P. -/
def SAF_CMD_SAFE : Fld := ⟨A.SAF_CMD, 0, 0, 0x0⟩
/-- Field LANE of SAF_ACON, RO. -/
def SAF_ACON_LANE (i : Nat) : Fld := ⟨A.SAF_ACON i, 31, 0, 0x0⟩
/-- Field WALKED of SAF_GUARD, RO. -/
def SAF_GUARD_WALKED : Fld := ⟨A.SAF_GUARD, 31, 24, 0x0⟩
/-- Field DISC of SAF_GUARD, RO. -/
def SAF_GUARD_DISC : Fld := ⟨A.SAF_GUARD, 23, 16, 0x0⟩
/-- Field B of SAF_GUARD, RO. -/
def SAF_GUARD_B : Fld := ⟨A.SAF_GUARD, 15, 8, 0x0⟩
/-- Field A of SAF_GUARD, RO. -/
def SAF_GUARD_A : Fld := ⟨A.SAF_GUARD, 7, 0, 0x0⟩
/-- Field CLR of SAF_CMP, W1P. -/
def SAF_CMP_CLR : Fld := ⟨A.SAF_CMP, 31, 31, 0x0⟩
/-- Field MIS of SAF_CMP, RO. -/
def SAF_CMP_MIS : Fld := ⟨A.SAF_CMP, 30, 16, 0x0⟩
/-- Field FAST of SAF_CMP, RO. -/
def SAF_CMP_FAST : Fld := ⟨A.SAF_CMP, 15, 0, 0x0⟩
/-- Field CRC of SAF_CFGCRC, RO. -/
def SAF_CFGCRC_CRC : Fld := ⟨A.SAF_CFGCRC, 31, 0, 0x0⟩
/-- Field AUTORST of SAF_CFG, RWB. -/
def SAF_CFG_AUTORST : Fld := ⟨A.SAF_CFG, 29, 29, 0x4000⟩
/-- Field ESTOPSO of SAF_CFG, RWB. -/
def SAF_CFG_ESTOPSO : Fld := ⟨A.SAF_CFG, 28, 28, 0x4000⟩
/-- Field SOFB of SAF_CFG, RWB. -/
def SAF_CFG_SOFB : Fld := ⟨A.SAF_CFG, 27, 20, 0x4000⟩
/-- Field SODLY of SAF_CFG, RWB. -/
def SAF_CFG_SODLY : Fld := ⟨A.SAF_CFG, 19, 12, 0x4000⟩
/-- Field GDISC of SAF_CFG, RWB. -/
def SAF_CFG_GDISC : Fld := ⟨A.SAF_CFG, 11, 6, 0x4000⟩
/-- Field MDISC of SAF_CFG, RWB. -/
def SAF_CFG_MDISC : Fld := ⟨A.SAF_CFG, 5, 0, 0x4000⟩
/-- Field ROLE of SAF_GDCFG, RWB. -/
def SAF_GDCFG_ROLE : Fld := ⟨A.SAF_GDCFG, 23, 0, 0x4000⟩
/-- Field AC of SAF_GRPMAP, RWB. -/
def SAF_GRPMAP_AC : Fld := ⟨A.SAF_GRPMAP, 16, 16, 0x4000⟩
/-- Field GRP of SAF_GRPMAP, RWB. -/
def SAF_GRPMAP_GRP : Fld := ⟨A.SAF_GRPMAP, 15, 0, 0x4000⟩
/-- Field DOMAIN of SAF_ID, RWB. -/
def SAF_ID_DOMAIN : Fld := ⟨A.SAF_ID, 31, 16, 0x4000⟩
/-- Field DEVID of SAF_ID, RO. -/
def SAF_ID_DEVID : Fld := ⟨A.SAF_ID, 15, 0, 0x4000⟩
/-- Field EN of SAF_CONNk_CFG, RWB. -/
def SAF_CONNk_CFG_EN (k : Nat) : Fld := ⟨A.SAF_CONNk_CFG k, 31, 31, 0x4000⟩
/-- Field LOSS of SAF_CONNk_CFG, RWB. -/
def SAF_CONNk_CFG_LOSS (k : Nat) : Fld := ⟨A.SAF_CONNk_CFG k, 30, 30, 0x4000⟩
/-- Field XPORT of SAF_CONNk_CFG, RWB. -/
def SAF_CONNk_CFG_XPORT (k : Nat) : Fld := ⟨A.SAF_CONNk_CFG k, 26, 24, 0x4000⟩
/-- Field TEXP of SAF_CONNk_CFG, RWB. -/
def SAF_CONNk_CFG_TEXP (k : Nat) : Fld := ⟨A.SAF_CONNk_CFG k, 15, 0, 0x4000⟩
/-- Field ID of SAF_CONNk_PEER, RWB. -/
def SAF_CONNk_PEER_ID (k : Nat) : Fld := ⟨A.SAF_CONNk_PEER k, 31, 0, 0x4000⟩
/-- Field STATE of SAF_CONNk_ST, RO. -/
def SAF_CONNk_ST_STATE (k : Nat) : Fld := ⟨A.SAF_CONNk_ST k, 31, 30, 0x0⟩
/-- Field PSTATE of SAF_CONNk_ST, RO. -/
def SAF_CONNk_ST_PSTATE (k : Nat) : Fld := ⟨A.SAF_CONNk_ST k, 23, 16, 0x0⟩
/-- Field SEQ of SAF_CONNk_ST, RO. -/
def SAF_CONNk_ST_SEQ (k : Nat) : Fld := ⟨A.SAF_CONNk_ST k, 15, 0, 0x0⟩
/-- Field CLR of SAF_CONNk_CNT, W1P. -/
def SAF_CONNk_CNT_CLR (k : Nat) : Fld := ⟨A.SAF_CONNk_CNT k, 31, 31, 0x0⟩
/-- Field FAIL of SAF_CONNk_CNT, RO. -/
def SAF_CONNk_CNT_FAIL (k : Nat) : Fld := ⟨A.SAF_CONNk_CNT k, 23, 16, 0x0⟩
/-- Field SEQERR of SAF_CONNk_CNT, RO. -/
def SAF_CONNk_CNT_SEQERR (k : Nat) : Fld := ⟨A.SAF_CONNk_CNT k, 15, 8, 0x0⟩
/-- Field CRCERR of SAF_CONNk_CNT, RO. -/
def SAF_CONNk_CNT_CRCERR (k : Nat) : Fld := ⟨A.SAF_CONNk_CNT k, 7, 0, 0x0⟩
/-- Field STK of FLT_SUMk, RO. -/
def FLT_SUMk_STK (k : Nat) : Fld := ⟨A.FLT_SUMk k, 31, 0, 0x0⟩
/-- Field RECN of FLT_CFG, RWB. -/
def FLT_CFG_RECN : Fld := ⟨A.FLT_CFG, 31, 28, 0x4000⟩
/-- Field RECW of FLT_CFG, RWB. -/
def FLT_CFG_RECW : Fld := ⟨A.FLT_CFG, 27, 18, 0x4000⟩
/-- Field PINCLS of FLT_CFG, RWB. -/
def FLT_CFG_PINCLS : Fld := ⟨A.FLT_CFG, 17, 13, 0x4000⟩
/-- Field FICLS of FLT_CFG, RWB. -/
def FLT_CFG_FICLS : Fld := ⟨A.FLT_CFG, 12, 10, 0x4000⟩
/-- Field FIEN of FLT_CFG, RWB. -/
def FLT_CFG_FIEN : Fld := ⟨A.FLT_CFG, 9, 9, 0x4000⟩
/-- Field LANE of FLT_CLRMASK, RW. -/
def FLT_CLRMASK_LANE : Fld := ⟨A.FLT_CLRMASK, 31, 0, 0x0⟩
/-- Field COUNT of FLT_PIN, RO. -/
def FLT_PIN_COUNT : Fld := ⟨A.FLT_PIN, 31, 16, 0x0⟩
/-- Field FLTI of FLT_PIN, RO. -/
def FLT_PIN_FLTI : Fld := ⟨A.FLT_PIN, 4, 3, 0x0⟩
/-- Field PULSE of FLT_PIN, RO. -/
def FLT_PIN_PULSE : Fld := ⟨A.FLT_PIN, 2, 2, 0x0⟩
/-- Field LEVEL of FLT_PIN, RO. -/
def FLT_PIN_LEVEL : Fld := ⟨A.FLT_PIN, 1, 1, 0x0⟩
/-- Field RELEASE of FLT_PIN, W1P. -/
def FLT_PIN_RELEASE : Fld := ⟨A.FLT_PIN, 0, 0, 0x0⟩
/-- Field LANE of FLT_RETIRED, RO. -/
def FLT_RETIRED_LANE : Fld := ⟨A.FLT_RETIRED, 31, 0, 0x0⟩
/-- Field SEQ of FLT_RETCMD, RO. -/
def FLT_RETCMD_SEQ : Fld := ⟨A.FLT_RETCMD, 31, 24, 0x0⟩
/-- Field DENIED of FLT_RETCMD, SQC. -/
def FLT_RETCMD_DENIED : Fld := ⟨A.FLT_RETCMD, 8, 8, 0x0⟩
/-- Field RESTORE of FLT_RETCMD, W1P. -/
def FLT_RETCMD_RESTORE : Fld := ⟨A.FLT_RETCMD, 7, 7, 0x0⟩
/-- Field RETIRE of FLT_RETCMD, W1P. -/
def FLT_RETCMD_RETIRE : Fld := ⟨A.FLT_RETCMD, 6, 6, 0x0⟩
/-- Field LANE of FLT_RETCMD, RW. -/
def FLT_RETCMD_LANE : Fld := ⟨A.FLT_RETCMD, 4, 0, 0x0⟩
/-- Field LANE of FLT_LANEF, RO. -/
def FLT_LANEF_LANE : Fld := ⟨A.FLT_LANEF, 31, 0, 0x0⟩
/-- Field RESETS of FLT_WDOG, RO. -/
def FLT_WDOG_RESETS : Fld := ⟨A.FLT_WDOG, 31, 24, 0x0⟩
/-- Field BADKEY of FLT_WDOG, RO. -/
def FLT_WDOG_BADKEY : Fld := ⟨A.FLT_WDOG, 23, 16, 0x0⟩
/-- Field KEY of FLT_WDOG, WO. -/
def FLT_WDOG_KEY : Fld := ⟨A.FLT_WDOG, 15, 0, 0x0⟩
/-- Field WRST of FLT_WDCFG, RWB. -/
def FLT_WDCFG_WRST : Fld := ⟨A.FLT_WDCFG, 21, 16, 0x0⟩
/-- Field WDT of FLT_WDCFG, RWB. -/
def FLT_WDCFG_WDT : Fld := ⟨A.FLT_WDCFG, 10, 0, 0x0⟩
/-- Field SEQ of FLT_SRCi, RO. -/
def FLT_SRCi_SEQ (i : Nat) : Fld := ⟨A.FLT_SRCi i, 31, 24, 0x0⟩
/-- Field STK of FLT_SRCi, SQC. -/
def FLT_SRCi_STK (i : Nat) : Fld := ⟨A.FLT_SRCi i, 23, 23, 0x0⟩
/-- Field CAUSE of FLT_SRCi, RO. -/
def FLT_SRCi_CAUSE (i : Nat) : Fld := ⟨A.FLT_SRCi i, 22, 22, 0x0⟩
/-- Field MERGED of FLT_SRCi, RO. -/
def FLT_SRCi_MERGED (i : Nat) : Fld := ⟨A.FLT_SRCi i, 21, 21, 0x0⟩
/-- Field PERM of FLT_SRCi, RO. -/
def FLT_SRCi_PERM (i : Nat) : Fld := ⟨A.FLT_SRCi i, 20, 20, 0x0⟩
/-- Field REFUSED of FLT_SRCi, RO. -/
def FLT_SRCi_REFUSED (i : Nat) : Fld := ⟨A.FLT_SRCi i, 19, 19, 0x0⟩
/-- Field CLASS of FLT_SRCi, RO. -/
def FLT_SRCi_CLASS (i : Nat) : Fld := ⟨A.FLT_SRCi i, 18, 16, 0x0⟩
/-- Field MERGEDFROM of FLT_SRCi, RO. -/
def FLT_SRCi_MERGEDFROM (i : Nat) : Fld := ⟨A.FLT_SRCi i, 15, 8, 0x0⟩
/-- Field COUNT of FLT_SRCi, RO. -/
def FLT_SRCi_COUNT (i : Nat) : Fld := ⟨A.FLT_SRCi i, 7, 0, 0x0⟩
/-- Field LANE of FLT_SRCi_LSTK, RO. -/
def FLT_SRCi_LSTK_LANE (i : Nat) : Fld := ⟨A.FLT_SRCi_LSTK i, 31, 0, 0x0⟩
/-- Field LANE of FLT_SRCi_LCAU, RO. -/
def FLT_SRCi_LCAU_LANE (i : Nat) : Fld := ⟨A.FLT_SRCi_LCAU i, 31, 0, 0x0⟩
/-- Field SEQ of FLT_QENk_CTL, RO. -/
def FLT_QENk_CTL_SEQ (k : Nat) : Fld := ⟨A.FLT_QENk_CTL k, 31, 24, 0x0⟩
/-- Field UNREL of FLT_QENk_CTL, SQC. -/
def FLT_QENk_CTL_UNREL (k : Nat) : Fld := ⟨A.FLT_QENk_CTL k, 23, 23, 0x0⟩
/-- Field HOME of FLT_QENk_CTL, W1P. -/
def FLT_QENk_CTL_HOME (k : Nat) : Fld := ⟨A.FLT_QENk_CTL k, 22, 22, 0x0⟩
/-- Field EN of FLT_QENk_CTL, RWB. -/
def FLT_QENk_CTL_EN (k : Nat) : Fld := ⟨A.FLT_QENk_CTL k, 21, 21, 0x0⟩
/-- Field DIR of FLT_QENk_CTL, RWB. -/
def FLT_QENk_CTL_DIR (k : Nat) : Fld := ⟨A.FLT_QENk_CTL k, 20, 20, 0x0⟩
/-- Field LEN of FLT_QENk_CTL, RWB. -/
def FLT_QENk_CTL_LEN (k : Nat) : Fld := ⟨A.FLT_QENk_CTL k, 19, 19, 0x0⟩
/-- Field LANE of FLT_QENk_CTL, RWB. -/
def FLT_QENk_CTL_LANE (k : Nat) : Fld := ⟨A.FLT_QENk_CTL k, 18, 14, 0x0⟩
/-- Field ILLEGAL of FLT_QENk_CTL, RO. -/
def FLT_QENk_CTL_ILLEGAL (k : Nat) : Fld := ⟨A.FLT_QENk_CTL k, 13, 8, 0x0⟩
/-- Field FILT of FLT_QENk_CTL, RWB. -/
def FLT_QENk_CTL_FILT (k : Nat) : Fld := ⟨A.FLT_QENk_CTL k, 7, 0, 0x0⟩
/-- Field VALUE of FLT_QENk_HOME, RW. -/
def FLT_QENk_HOME_VALUE (k : Nat) : Fld := ⟨A.FLT_QENk_HOME k, 31, 0, 0x0⟩
/-- Field COUNT of FLT_QENk_CNT, RO. -/
def FLT_QENk_CNT_COUNT (k : Nat) : Fld := ⟨A.FLT_QENk_CNT k, 31, 0, 0x0⟩
/-- Field EN of SBU_CFG, RWB. -/
def SBU_CFG_EN : Fld := ⟨A.SBU_CFG, 31, 31, 0x0⟩
/-- Field MCAND of SBU_CFG, RWB. -/
def SBU_CFG_MCAND : Fld := ⟨A.SBU_CFG, 30, 30, 0x0⟩
/-- Field BANDOK of SBU_CFG, RO. -/
def SBU_CFG_BANDOK : Fld := ⟨A.SBU_CFG, 29, 29, 0x0⟩
/-- Field SLOTMAX of SBU_CFG, RWB. -/
def SBU_CFG_SLOTMAX : Fld := ⟨A.SBU_CFG, 23, 20, 0x0⟩
/-- Field TXLVL of SBU_CFG, RWB. -/
def SBU_CFG_TXLVL : Fld := ⟨A.SBU_CFG, 19, 16, 0x0⟩
/-- Field SEQ of SBU_STAT, RO. -/
def SBU_STAT_SEQ : Fld := ⟨A.SBU_STAT, 31, 24, 0x0⟩
/-- Field MCHG of SBU_STAT, SQC. -/
def SBU_STAT_MCHG : Fld := ⟨A.SBU_STAT, 23, 23, 0x0⟩
/-- Field RCHG of SBU_STAT, SQC. -/
def SBU_STAT_RCHG : Fld := ⟨A.SBU_STAT, 22, 22, 0x0⟩
/-- Field BCHG of SBU_STAT, SQC. -/
def SBU_STAT_BCHG : Fld := ⟨A.SBU_STAT, 21, 21, 0x0⟩
/-- Field TMFAIL of SBU_STAT, SQC. -/
def SBU_STAT_TMFAIL : Fld := ⟨A.SBU_STAT, 20, 20, 0x0⟩
/-- Field UNREACH of SBU_STAT, SQC. -/
def SBU_STAT_UNREACH : Fld := ⟨A.SBU_STAT, 19, 19, 0x0⟩
/-- Field ROLE of SBU_STAT, RO. -/
def SBU_STAT_ROLE : Fld := ⟨A.SBU_STAT, 9, 8, 0x0⟩
/-- Field BAND of SBU_STAT, RO. -/
def SBU_STAT_BAND : Fld := ⟨A.SBU_STAT, 7, 7, 0x0⟩
/-- Field BMODE of SBU_STAT, RO. -/
def SBU_STAT_BMODE : Fld := ⟨A.SBU_STAT, 6, 5, 0x0⟩
/-- Field MISSED of SBU_MASTER, RO. -/
def SBU_MASTER_MISSED : Fld := ⟨A.SBU_MASTER, 31, 16, 0x0⟩
/-- Field DEVID of SBU_MASTER, RO. -/
def SBU_MASTER_DEVID : Fld := ⟨A.SBU_MASTER, 15, 0, 0x0⟩
/-- Field MODE of SBU_BMAP, RO. -/
def SBU_BMAP_MODE : Fld := ⟨A.SBU_BMAP, 25, 24, 0x0⟩
/-- Field MASK of SBU_BMAP, RO. -/
def SBU_BMAP_MASK : Fld := ⟨A.SBU_BMAP, 23, 0, 0x0⟩
/-- Field MAX of SBU_ROUND, RO. -/
def SBU_ROUND_MAX : Fld := ⟨A.SBU_ROUND, 31, 16, 0x0⟩
/-- Field LAST of SBU_ROUND, RO. -/
def SBU_ROUND_LAST : Fld := ⟨A.SBU_ROUND, 15, 0, 0x0⟩
/-- Field BAD of SBU_CNT, RO. -/
def SBU_CNT_BAD : Fld := ⟨A.SBU_CNT, 31, 16, 0x0⟩
/-- Field GOOD of SBU_CNT, RO. -/
def SBU_CNT_GOOD : Fld := ⟨A.SBU_CNT, 15, 0, 0x0⟩
/-- Field RELAY of SBU_CNT2, RO. -/
def SBU_CNT2_RELAY : Fld := ⟨A.SBU_CNT2, 31, 16, 0x0⟩
/-- Field TMREQ of SBU_CNT2, RO. -/
def SBU_CNT2_TMREQ : Fld := ⟨A.SBU_CNT2, 15, 0, 0x0⟩
/-- Field KEEPCRC of SBU_FINJ, RW. -/
def SBU_FINJ_KEEPCRC : Fld := ⟨A.SBU_FINJ, 3, 3, 0x0⟩
/-- Field DIR of SBU_FINJ, RW. -/
def SBU_FINJ_DIR : Fld := ⟨A.SBU_FINJ, 2, 1, 0x0⟩
/-- Field EN of SBU_FINJ, RW. -/
def SBU_FINJ_EN : Fld := ⟨A.SBU_FINJ, 0, 0, 0x0⟩
/-- Field DROP of SBU_FIRATE, RW. -/
def SBU_FIRATE_DROP : Fld := ⟨A.SBU_FIRATE, 29, 20, 0x0⟩
/-- Field CORR of SBU_FIRATE, RW. -/
def SBU_FIRATE_CORR : Fld := ⟨A.SBU_FIRATE, 19, 10, 0x0⟩
/-- Field REORD of SBU_FIRATE, RW. -/
def SBU_FIRATE_REORD : Fld := ⟨A.SBU_FIRATE, 9, 0, 0x0⟩
/-- Field CLR of SBU_FICNT, W1P. -/
def SBU_FICNT_CLR : Fld := ⟨A.SBU_FICNT, 31, 31, 0x0⟩
/-- Field REORD of SBU_FICNT, RO. -/
def SBU_FICNT_REORD : Fld := ⟨A.SBU_FICNT, 23, 16, 0x0⟩
/-- Field CORR of SBU_FICNT, RO. -/
def SBU_FICNT_CORR : Fld := ⟨A.SBU_FICNT, 15, 8, 0x0⟩
/-- Field DROP of SBU_FICNT, RO. -/
def SBU_FICNT_DROP : Fld := ⟨A.SBU_FICNT, 7, 0, 0x0⟩
/-- Field AGE of SBU_NBRm, RO. -/
def SBU_NBRm_AGE (m : Nat) : Fld := ⟨A.SBU_NBRm m, 127, 112, 0x0⟩
/-- Field FAILS of SBU_NBRm, RO. -/
def SBU_NBRm_FAILS (m : Nat) : Fld := ⟨A.SBU_NBRm m, 111, 104, 0x0⟩
/-- Field SNR of SBU_NBRm, RO. -/
def SBU_NBRm_SNR (m : Nat) : Fld := ⟨A.SBU_NBRm m, 103, 96, 0x0⟩
/-- Field BMODE of SBU_NBRm, RO. -/
def SBU_NBRm_BMODE (m : Nat) : Fld := ⟨A.SBU_NBRm m, 89, 88, 0x0⟩
/-- Field BMASK of SBU_NBRm, RO. -/
def SBU_NBRm_BMASK (m : Nat) : Fld := ⟨A.SBU_NBRm m, 87, 64, 0x0⟩
/-- Field AMODE of SBU_NBRm, RO. -/
def SBU_NBRm_AMODE (m : Nat) : Fld := ⟨A.SBU_NBRm m, 41, 40, 0x0⟩
/-- Field AMASK of SBU_NBRm, RO. -/
def SBU_NBRm_AMASK (m : Nat) : Fld := ⟨A.SBU_NBRm m, 39, 32, 0x0⟩
/-- Field VALID of SBU_NBRm, RO. -/
def SBU_NBRm_VALID (m : Nat) : Fld := ⟨A.SBU_NBRm m, 31, 31, 0x0⟩
/-- Field DIRECT of SBU_NBRm, RO. -/
def SBU_NBRm_DIRECT (m : Nat) : Fld := ⟨A.SBU_NBRm m, 30, 30, 0x0⟩
/-- Field RELAYS of SBU_NBRm, RO. -/
def SBU_NBRm_RELAYS (m : Nat) : Fld := ⟨A.SBU_NBRm m, 29, 29, 0x0⟩
/-- Field DEVID of SBU_NBRm, RO. -/
def SBU_NBRm_DEVID (m : Nat) : Fld := ⟨A.SBU_NBRm m, 15, 0, 0x0⟩
/-- Field EN of LNK_ETHp_CFG, RWB. -/
def LNK_ETHp_CFG_EN (p : Nat) : Fld := ⟨A.LNK_ETHp_CFG p, 31, 31, 0x0⟩
/-- Field ZONE of LNK_ETHp_CFG, RWB. -/
def LNK_ETHp_CFG_ZONE (p : Nat) : Fld := ⟨A.LNK_ETHp_CFG p, 30, 30, 0x0⟩
/-- Field BO of LNK_ETHp_CFG, RWB. -/
def LNK_ETHp_CFG_BO (p : Nat) : Fld := ⟨A.LNK_ETHp_CFG p, 29, 29, 0x0⟩
/-- Field SEQ of LNK_ETHp_STAT, RO. -/
def LNK_ETHp_STAT_SEQ (p : Nat) : Fld := ⟨A.LNK_ETHp_STAT p, 31, 24, 0x0⟩
/-- Field DOWN of LNK_ETHp_STAT, SQC. -/
def LNK_ETHp_STAT_DOWN (p : Nat) : Fld := ⟨A.LNK_ETHp_STAT p, 23, 23, 0x0⟩
/-- Field LINK of LNK_ETHp_STAT, RO. -/
def LNK_ETHp_STAT_LINK (p : Nat) : Fld := ⟨A.LNK_ETHp_STAT p, 17, 17, 0x0⟩
/-- Field SPEED of LNK_ETHp_STAT, RO. -/
def LNK_ETHp_STAT_SPEED (p : Nat) : Fld := ⟨A.LNK_ETHp_STAT p, 16, 16, 0x0⟩
/-- Field DUP of LNK_ETHp_STAT, RO. -/
def LNK_ETHp_STAT_DUP (p : Nat) : Fld := ⟨A.LNK_ETHp_STAT p, 15, 0, 0x0⟩
/-- Field DOMAIN of LNK_PTP, RWB. -/
def LNK_PTP_DOMAIN : Fld := ⟨A.LNK_PTP, 15, 8, 0x0⟩
/-- Field TRANS of LNK_PTP, RWB. -/
def LNK_PTP_TRANS : Fld := ⟨A.LNK_PTP, 5, 4, 0x0⟩
/-- Field SYNCI of LNK_PTP, RWB. -/
def LNK_PTP_SYNCI : Fld := ⟨A.LNK_PTP, 3, 0, 0x0⟩
/-- Field SEQ of LNK_JLk_ST, RO. -/
def LNK_JLk_ST_SEQ (k : Nat) : Fld := ⟨A.LNK_JLk_ST k, 31, 24, 0x0⟩
/-- Field LOOP of LNK_JLk_ST, SQC. -/
def LNK_JLk_ST_LOOP (k : Nat) : Fld := ⟨A.LNK_JLk_ST k, 23, 23, 0x0⟩
/-- Field DOWN of LNK_JLk_ST, SQC. -/
def LNK_JLk_ST_DOWN (k : Nat) : Fld := ⟨A.LNK_JLk_ST k, 22, 22, 0x0⟩
/-- Field UP of LNK_JLk_ST, RO. -/
def LNK_JLk_ST_UP (k : Nat) : Fld := ⟨A.LNK_JLk_ST k, 21, 21, 0x0⟩
/-- Field RETRY of LNK_JLk_ST, RO. -/
def LNK_JLk_ST_RETRY (k : Nat) : Fld := ⟨A.LNK_JLk_ST k, 20, 16, 0x0⟩
/-- Field PEER of LNK_JLk_ST, RO. -/
def LNK_JLk_ST_PEER (k : Nat) : Fld := ⟨A.LNK_JLk_ST k, 15, 0, 0x0⟩
/-- Field EN of LNK_CANp_CFG, RWB. -/
def LNK_CANp_CFG_EN (p : Nat) : Fld := ⟨A.LNK_CANp_CFG p, 31, 31, 0x0⟩
/-- Field DRATE of LNK_CANp_CFG, RWB. -/
def LNK_CANp_CFG_DRATE (p : Nat) : Fld := ⟨A.LNK_CANp_CFG p, 1, 1, 0x0⟩
/-- Field ARATE of LNK_CANp_CFG, RWB. -/
def LNK_CANp_CFG_ARATE (p : Nat) : Fld := ⟨A.LNK_CANp_CFG p, 0, 0, 0x0⟩
/-- Field SEQ of LNK_CANp_ST, RO. -/
def LNK_CANp_ST_SEQ (p : Nat) : Fld := ⟨A.LNK_CANp_ST p, 31, 24, 0x0⟩
/-- Field BUSOFF of LNK_CANp_ST, SQC. -/
def LNK_CANp_ST_BUSOFF (p : Nat) : Fld := ⟨A.LNK_CANp_ST p, 23, 23, 0x0⟩
/-- Field LATE of LNK_CANp_ST, SQC. -/
def LNK_CANp_ST_LATE (p : Nat) : Fld := ⟨A.LNK_CANp_ST p, 22, 22, 0x0⟩
/-- Field TEC of LNK_CANp_ST, RO. -/
def LNK_CANp_ST_TEC (p : Nat) : Fld := ⟨A.LNK_CANp_ST p, 15, 8, 0x0⟩
/-- Field REC of LNK_CANp_ST, RO. -/
def LNK_CANp_ST_REC (p : Nat) : Fld := ⟨A.LNK_CANp_ST p, 7, 0, 0x0⟩
/-- Field I of LNK_MODm, RO. -/
def LNK_MODm_I (m : Nat) : Fld := ⟨A.LNK_MODm m, 63, 48, 0x0⟩
/-- Field OUT of LNK_MODm, RO. -/
def LNK_MODm_OUT (m : Nat) : Fld := ⟨A.LNK_MODm m, 47, 40, 0x0⟩
/-- Field AGE of LNK_MODm, RO. -/
def LNK_MODm_AGE (m : Nat) : Fld := ⟨A.LNK_MODm m, 39, 32, 0x0⟩
/-- Field ADM of LNK_MODm, RO. -/
def LNK_MODm_ADM (m : Nat) : Fld := ⟨A.LNK_MODm m, 31, 31, 0x0⟩
/-- Field PORT of LNK_MODm, RO. -/
def LNK_MODm_PORT (m : Nat) : Fld := ⟨A.LNK_MODm m, 30, 29, 0x0⟩
/-- Field ADDR of LNK_MODm, RO. -/
def LNK_MODm_ADDR (m : Nat) : Fld := ⟨A.LNK_MODm m, 28, 24, 0x0⟩
/-- Field GRP of LNK_MODm, RO. -/
def LNK_MODm_GRP (m : Nat) : Fld := ⟨A.LNK_MODm m, 23, 20, 0x0⟩
/-- Field RATED of LNK_MODm, RO. -/
def LNK_MODm_RATED (m : Nat) : Fld := ⟨A.LNK_MODm m, 19, 0, 0x0⟩
/-- Field CLR of LNK_HP_ST, W1P. -/
def LNK_HP_ST_CLR : Fld := ⟨A.LNK_HP_ST, 31, 31, 0x0⟩
/-- Field CUT of LNK_HP_ST, RO. -/
def LNK_HP_ST_CUT : Fld := ⟨A.LNK_HP_ST, 30, 16, 0x0⟩
/-- Field CRCERR of LNK_HP_ST, RO. -/
def LNK_HP_ST_CRCERR : Fld := ⟨A.LNK_HP_ST, 15, 0, 0x0⟩
/-- Field SEL of LNK_FINJ, RW. -/
def LNK_FINJ_SEL : Fld := ⟨A.LNK_FINJ, 7, 4, 0x0⟩
/-- Field KEEPCRC of LNK_FINJ, RW. -/
def LNK_FINJ_KEEPCRC : Fld := ⟨A.LNK_FINJ, 3, 3, 0x0⟩
/-- Field DIR of LNK_FINJ, RW. -/
def LNK_FINJ_DIR : Fld := ⟨A.LNK_FINJ, 2, 1, 0x0⟩
/-- Field EN of LNK_FINJ, RW. -/
def LNK_FINJ_EN : Fld := ⟨A.LNK_FINJ, 0, 0, 0x0⟩
/-- Field DROP of LNK_FIRATE, RW. -/
def LNK_FIRATE_DROP : Fld := ⟨A.LNK_FIRATE, 29, 20, 0x0⟩
/-- Field CORR of LNK_FIRATE, RW. -/
def LNK_FIRATE_CORR : Fld := ⟨A.LNK_FIRATE, 19, 10, 0x0⟩
/-- Field REORD of LNK_FIRATE, RW. -/
def LNK_FIRATE_REORD : Fld := ⟨A.LNK_FIRATE, 9, 0, 0x0⟩
/-- Field CLR of LNK_FICNT, W1P. -/
def LNK_FICNT_CLR : Fld := ⟨A.LNK_FICNT, 31, 31, 0x0⟩
/-- Field REORD of LNK_FICNT, RO. -/
def LNK_FICNT_REORD : Fld := ⟨A.LNK_FICNT, 23, 16, 0x0⟩
/-- Field CORR of LNK_FICNT, RO. -/
def LNK_FICNT_CORR : Fld := ⟨A.LNK_FICNT, 15, 8, 0x0⟩
/-- Field DROP of LNK_FICNT, RO. -/
def LNK_FICNT_DROP : Fld := ⟨A.LNK_FICNT, 7, 0, 0x0⟩
/-- Field SEQ of KEY_STAT, RO. -/
def KEY_STAT_SEQ : Fld := ⟨A.KEY_STAT, 31, 24, 0x0⟩
/-- Field BADTAG of KEY_STAT, SQC. -/
def KEY_STAT_BADTAG : Fld := ⟨A.KEY_STAT, 16, 16, 0x0⟩
/-- Field BUSY of KEY_STAT, RO. -/
def KEY_STAT_BUSY : Fld := ⟨A.KEY_STAT, 8, 8, 0x0⟩
/-- Field BORN of KEY_STAT, RO. -/
def KEY_STAT_BORN : Fld := ⟨A.KEY_STAT, 7, 7, 0x0⟩
/-- Field ERR of KEY_STAT, RO. -/
def KEY_STAT_ERR : Fld := ⟨A.KEY_STAT, 2, 0, 0x0⟩
/-- Field GO of KEY_CMD, W1P. -/
def KEY_CMD_GO : Fld := ⟨A.KEY_CMD, 31, 31, 0x0⟩
/-- Field OP of KEY_CMD, RW. -/
def KEY_CMD_OP : Fld := ⟨A.KEY_CMD, 26, 24, 0x0⟩
/-- Field USE of KEY_CMD, RW. -/
def KEY_CMD_USE : Fld := ⟨A.KEY_CMD, 23, 16, 0x0⟩
/-- Field BIND of KEY_CMD, RW. -/
def KEY_CMD_BIND : Fld := ⟨A.KEY_CMD, 15, 14, 0x0⟩
/-- Field TYPE of KEY_CMD, RW. -/
def KEY_CMD_TYPE : Fld := ⟨A.KEY_CMD, 13, 11, 0x0⟩
/-- Field SLOT of KEY_CMD, RW. -/
def KEY_CMD_SLOT : Fld := ⟨A.KEY_CMD, 6, 0, 0x0⟩
/-- Field ADDR of KEY_ADDR, RW. -/
def KEY_ADDR_ADDR : Fld := ⟨A.KEY_ADDR, 31, 0, 0x0⟩
/-- Field SEQ of KEY_RESEAL, RO. -/
def KEY_RESEAL_SEQ : Fld := ⟨A.KEY_RESEAL, 31, 24, 0x0⟩
/-- Field ABORTED of KEY_RESEAL, SQC. -/
def KEY_RESEAL_ABORTED : Fld := ⟨A.KEY_RESEAL, 9, 9, 0x0⟩
/-- Field DONE of KEY_RESEAL, RO. -/
def KEY_RESEAL_DONE : Fld := ⟨A.KEY_RESEAL, 8, 8, 0x0⟩
/-- Field FALLBACK of KEY_RESEAL, RO. -/
def KEY_RESEAL_FALLBACK : Fld := ⟨A.KEY_RESEAL, 7, 7, 0x0⟩
/-- Field COUNT of KEY_RESEAL, RO. -/
def KEY_RESEAL_COUNT : Fld := ⟨A.KEY_RESEAL, 6, 0, 0x0⟩
/-- Field SEQ of KEY_ZST, RO. -/
def KEY_ZST_SEQ : Fld := ⟨A.KEY_ZST, 31, 24, 0x0⟩
/-- Field ZEROISED of KEY_ZST, SQC. -/
def KEY_ZST_ZEROISED : Fld := ⟨A.KEY_ZST, 23, 23, 0x0⟩
/-- Field GO of KEY_ZST, W1P. -/
def KEY_ZST_GO : Fld := ⟨A.KEY_ZST, 22, 22, 0x0⟩
/-- Field ZCNT of KEY_ZST, RO. -/
def KEY_ZST_ZCNT : Fld := ⟨A.KEY_ZST, 15, 0, 0x0⟩
/-- Field PEND of KEY_SEL, RO. -/
def KEY_SEL_PEND : Fld := ⟨A.KEY_SEL, 127, 64, 0x0⟩
/-- Field NOW of KEY_SEL, RO. -/
def KEY_SEL_NOW : Fld := ⟨A.KEY_SEL, 63, 0, 0x0⟩
/-- Field ID of KEY_ROOTID, RO. -/
def KEY_ROOTID_ID : Fld := ⟨A.KEY_ROOTID, 31, 0, 0x0⟩
/-- Field KGEN of KEY_KGEN, RO. -/
def KEY_KGEN_KGEN : Fld := ⟨A.KEY_KGEN, 15, 0, 0x0⟩
/-- Field M of KEY_MEASj, RO. -/
def KEY_MEASj_M (j : Nat) : Fld := ⟨A.KEY_MEASj j, 255, 0, 0x0⟩
/-- Field M of KEY_NMEASj, RO. -/
def KEY_NMEASj_M (j : Nat) : Fld := ⟨A.KEY_NMEASj j, 255, 0, 0x0⟩
/-- Field LEN of KEY_PUB, RO. -/
def KEY_PUB_LEN : Fld := ⟨A.KEY_PUB, 1071, 1056, 0x0⟩
/-- Field KEY of KEY_PUB, RO. -/
def KEY_PUB_KEY : Fld := ⟨A.KEY_PUB, 1055, 0, 0x0⟩
/-- Field STATE of KEY_SLOTn, RO. -/
def KEY_SLOTn_STATE (n : Nat) : Fld := ⟨A.KEY_SLOTn n, 31, 30, 0x0⟩
/-- Field TYPE of KEY_SLOTn, RO. -/
def KEY_SLOTn_TYPE (n : Nat) : Fld := ⟨A.KEY_SLOTn n, 29, 27, 0x0⟩
/-- Field BIND of KEY_SLOTn, RO. -/
def KEY_SLOTn_BIND (n : Nat) : Fld := ⟨A.KEY_SLOTn n, 26, 25, 0x0⟩
/-- Field USE of KEY_SLOTn, RO. -/
def KEY_SLOTn_USE (n : Nat) : Fld := ⟨A.KEY_SLOTn n, 23, 16, 0x0⟩
/-- Field GEN of KEY_SLOTn, RO. -/
def KEY_SLOTn_GEN (n : Nat) : Fld := ⟨A.KEY_SLOTn n, 15, 0, 0x0⟩
/-- Field SEQ of UPD_STAT, RO. -/
def UPD_STAT_SEQ : Fld := ⟨A.UPD_STAT, 31, 24, 0x0⟩
/-- Field REFUSED of UPD_STAT, SQC. -/
def UPD_STAT_REFUSED : Fld := ⟨A.UPD_STAT, 23, 23, 0x0⟩
/-- Field VFAIL of UPD_STAT, SQC. -/
def UPD_STAT_VFAIL : Fld := ⟨A.UPD_STAT, 22, 22, 0x0⟩
/-- Field ROLLBACK of UPD_STAT, SQC. -/
def UPD_STAT_ROLLBACK : Fld := ⟨A.UPD_STAT, 21, 21, 0x0⟩
/-- Field RAIN of UPD_STAT, RO. -/
def UPD_STAT_RAIN : Fld := ⟨A.UPD_STAT, 20, 20, 0x0⟩
/-- Field VCAUSE of UPD_STAT, RO. -/
def UPD_STAT_VCAUSE : Fld := ⟨A.UPD_STAT, 19, 17, 0x0⟩
/-- Field MISSING of UPD_STAT, RO. -/
def UPD_STAT_MISSING : Fld := ⟨A.UPD_STAT, 16, 0, 0x0⟩
/-- Field STATE of UPD_BANK, RO. -/
def UPD_BANK_STATE : Fld := ⟨A.UPD_BANK, 7, 5, 0x0⟩
/-- Field TRIES of UPD_BANK, RO. -/
def UPD_BANK_TRIES : Fld := ⟨A.UPD_BANK, 4, 3, 0x0⟩
/-- Field RUN of UPD_BANK, RO. -/
def UPD_BANK_RUN : Fld := ⟨A.UPD_BANK, 0, 0, 0x0⟩
/-- Field TAG of UPD_DLV, RW. -/
def UPD_DLV_TAG : Fld := ⟨A.UPD_DLV, 31, 16, 0x0⟩
/-- Field LAST of UPD_DLV, RW. -/
def UPD_DLV_LAST : Fld := ⟨A.UPD_DLV, 15, 0, 0x0⟩
/-- Field BLKGO of UPD_CTL, W1P. -/
def UPD_CTL_BLKGO : Fld := ⟨A.UPD_CTL, 4, 4, 0x0⟩
/-- Field CONFIRM of UPD_CTL, W1P. -/
def UPD_CTL_CONFIRM : Fld := ⟨A.UPD_CTL, 3, 3, 0x0⟩
/-- Field CANCEL of UPD_CTL, W1P. -/
def UPD_CTL_CANCEL : Fld := ⟨A.UPD_CTL, 2, 2, 0x0⟩
/-- Field ACT of UPD_CTL, W1P. -/
def UPD_CTL_ACT : Fld := ⟨A.UPD_CTL, 1, 1, 0x0⟩
/-- Field OPEN of UPD_CTL, W1P. -/
def UPD_CTL_OPEN : Fld := ⟨A.UPD_CTL, 0, 0, 0x0⟩
/-- Field COND of UPD_REFUSE, RO. -/
def UPD_REFUSE_COND : Fld := ⟨A.UPD_REFUSE, 5, 0, 0x0⟩
/-- Field CONFWIN of UPD_CFG, RWB. -/
def UPD_CFG_CONFWIN : Fld := ⟨A.UPD_CFG, 31, 20, 0x4000⟩
/-- Field IDLEW of UPD_CFG, RWB. -/
def UPD_CFG_IDLEW : Fld := ⟨A.UPD_CFG, 19, 8, 0x4000⟩
/-- Field VBMIN of UPD_CFG, RWB. -/
def UPD_CFG_VBMIN : Fld := ⟨A.UPD_CFG, 4, 0, 0x4000⟩
/-- Field OWNER of UPD_LOCK, RWB. -/
def UPD_LOCK_OWNER : Fld := ⟨A.UPD_LOCK, 0, 0, 0x4000⟩
/-- Field MINSVN of UPD_VER, RO. -/
def UPD_VER_MINSVN : Fld := ⟨A.UPD_VER, 63, 32, 0x0⟩
/-- Field RUN of UPD_VER, RO. -/
def UPD_VER_RUN : Fld := ⟨A.UPD_VER, 31, 0, 0x0⟩
/-- Field CLR of UPD_CNT, W1P. -/
def UPD_CNT_CLR : Fld := ⟨A.UPD_CNT, 31, 31, 0x0⟩
/-- Field CRCERR of UPD_CNT, RO. -/
def UPD_CNT_CRCERR : Fld := ⟨A.UPD_CNT, 30, 16, 0x0⟩
/-- Field DUP of UPD_CNT, RO. -/
def UPD_CNT_DUP : Fld := ⟨A.UPD_CNT, 15, 0, 0x0⟩
/-- Field MSG of UPD_BLK, RW. -/
def UPD_BLK_MSG : Fld := ⟨A.UPD_BLK, 4159, 0, 0x0⟩
/-- Field RCVD of UPD_BMAPw, RO. -/
def UPD_BMAPw_RCVD (w : Nat) : Fld := ⟨A.UPD_BMAPw w, 31, 0, 0x0⟩
/-- Field WBEN of DMA_CHn_CFG, RW. -/
def DMA_CHn_CFG_WBEN (n : Nat) : Fld := ⟨A.DMA_CHn_CFG n, 3, 3, 0x0⟩
/-- Field IRQEN of DMA_CHn_CFG, RW. -/
def DMA_CHn_CFG_IRQEN (n : Nat) : Fld := ⟨A.DMA_CHn_CFG n, 2, 2, 0x0⟩
/-- Field LEVEL of DMA_CHn_CFG, RW. -/
def DMA_CHn_CFG_LEVEL (n : Nat) : Fld := ⟨A.DMA_CHn_CFG n, 1, 0, 0x0⟩
/-- Field ADDR of DMA_CHn_ITIN, RW. -/
def DMA_CHn_ITIN_ADDR (n : Nat) : Fld := ⟨A.DMA_CHn_ITIN n, 31, 0, 0x0⟩
/-- Field ABORT of DMA_CHn_CTL, W1P. -/
def DMA_CHn_CTL_ABORT (n : Nat) : Fld := ⟨A.DMA_CHn_CTL n, 1, 1, 0x0⟩
/-- Field START of DMA_CHn_CTL, W1P. -/
def DMA_CHn_CTL_START (n : Nat) : Fld := ⟨A.DMA_CHn_CTL n, 0, 0, 0x0⟩
/-- Field SEQ of DMA_CHn_STAT, RO. -/
def DMA_CHn_STAT_SEQ (n : Nat) : Fld := ⟨A.DMA_CHn_STAT n, 31, 24, 0x0⟩
/-- Field DONE of DMA_CHn_STAT, SQC. -/
def DMA_CHn_STAT_DONE (n : Nat) : Fld := ⟨A.DMA_CHn_STAT n, 23, 23, 0x0⟩
/-- Field ABORTED of DMA_CHn_STAT, SQC. -/
def DMA_CHn_STAT_ABORTED (n : Nat) : Fld := ⟨A.DMA_CHn_STAT n, 22, 22, 0x0⟩
/-- Field ERROR of DMA_CHn_STAT, SQC. -/
def DMA_CHn_STAT_ERROR (n : Nat) : Fld := ⟨A.DMA_CHn_STAT n, 21, 21, 0x0⟩
/-- Field ERR of DMA_CHn_STAT, RO. -/
def DMA_CHn_STAT_ERR (n : Nat) : Fld := ⟨A.DMA_CHn_STAT n, 20, 18, 0x0⟩
/-- Field STATE of DMA_CHn_STAT, RO. -/
def DMA_CHn_STAT_STATE (n : Nat) : Fld := ⟨A.DMA_CHn_STAT n, 17, 16, 0x0⟩
/-- Field LEG of DMA_CHn_STAT, RO. -/
def DMA_CHn_STAT_LEG (n : Nat) : Fld := ⟨A.DMA_CHn_STAT n, 15, 0, 0x0⟩
/-- Field BYTES of DMA_CHn_RES, RO. -/
def DMA_CHn_RES_BYTES (n : Nat) : Fld := ⟨A.DMA_CHn_RES n, 23, 0, 0x0⟩
/-- Field BYTES of DMA_CHn_CNT, RO. -/
def DMA_CHn_CNT_BYTES (n : Nat) : Fld := ⟨A.DMA_CHn_CNT n, 31, 0, 0x0⟩
/-- Field ADDR of DMA_CHn_WB, RW. -/
def DMA_CHn_WB_ADDR (n : Nat) : Fld := ⟨A.DMA_CHn_WB n, 31, 0, 0x0⟩
/-- Field W3 of DMA_WEIGHT, RW. -/
def DMA_WEIGHT_W3 : Fld := ⟨A.DMA_WEIGHT, 31, 24, 0x0⟩
/-- Field W2 of DMA_WEIGHT, RW. -/
def DMA_WEIGHT_W2 : Fld := ⟨A.DMA_WEIGHT, 23, 16, 0x0⟩
/-- Field W1 of DMA_WEIGHT, RW. -/
def DMA_WEIGHT_W1 : Fld := ⟨A.DMA_WEIGHT, 15, 8, 0x0⟩
/-- Field W0 of DMA_WEIGHT, RW. -/
def DMA_WEIGHT_W0 : Fld := ⟨A.DMA_WEIGHT, 7, 0, 0x0⟩
/-- Field CH of DMA_IRQSUM, RO. -/
def DMA_IRQSUM_CH : Fld := ⟨A.DMA_IRQSUM, 31, 0, 0x0⟩
/-- Field CH of DMA_ACTIVE, RO. -/
def DMA_ACTIVE_CH : Fld := ⟨A.DMA_ACTIVE, 31, 0, 0x0⟩
/-- Field EN of NFC_RDk_CFG, RWB. -/
def NFC_RDk_CFG_EN (k : Nat) : Fld := ⟨A.NFC_RDk_CFG k, 31, 31, 0x0⟩
/-- Field TYPES of NFC_RDk_CFG, RWB. -/
def NFC_RDk_CFG_TYPES (k : Nat) : Fld := ⟨A.NFC_RDk_CFG k, 30, 29, 0x0⟩
/-- Field PING of NFC_RDk_CFG, RWB. -/
def NFC_RDk_CFG_PING (k : Nat) : Fld := ⟨A.NFC_RDk_CFG k, 28, 23, 0x0⟩
/-- Field DET of NFC_RDk_CFG, RWB. -/
def NFC_RDk_CFG_DET (k : Nat) : Fld := ⟨A.NFC_RDk_CFG k, 22, 15, 0x0⟩
/-- Field POLLT of NFC_RDk_CFG, RWB. -/
def NFC_RDk_CFG_POLLT (k : Nat) : Fld := ⟨A.NFC_RDk_CFG k, 14, 8, 0x0⟩
/-- Field SESST of NFC_RDk_CFG, RWB. -/
def NFC_RDk_CFG_SESST (k : Nat) : Fld := ⟨A.NFC_RDk_CFG k, 7, 0, 0x0⟩
/-- Field REBASE of NFC_RDk_CTL, W1P. -/
def NFC_RDk_CTL_REBASE (k : Nat) : Fld := ⟨A.NFC_RDk_CTL k, 1, 1, 0x0⟩
/-- Field FOFF of NFC_RDk_CTL, W1P. -/
def NFC_RDk_CTL_FOFF (k : Nat) : Fld := ⟨A.NFC_RDk_CTL k, 0, 0, 0x0⟩
/-- Field SEQ of NFC_RDk_ST, RO. -/
def NFC_RDk_ST_SEQ (k : Nat) : Fld := ⟨A.NFC_RDk_ST k, 31, 24, 0x0⟩
/-- Field CARD of NFC_RDk_ST, SQC. -/
def NFC_RDk_ST_CARD (k : Nat) : Fld := ⟨A.NFC_RDk_ST k, 23, 23, 0x0⟩
/-- Field ANT of NFC_RDk_ST, SQC. -/
def NFC_RDk_ST_ANT (k : Nat) : Fld := ⟨A.NFC_RDk_ST k, 22, 22, 0x0⟩
/-- Field STATE of NFC_RDk_ST, RO. -/
def NFC_RDk_ST_STATE (k : Nat) : Fld := ⟨A.NFC_RDk_ST k, 21, 19, 0x0⟩
/-- Field TYPE of NFC_RDk_ST, RO. -/
def NFC_RDk_ST_TYPE (k : Nat) : Fld := ⟨A.NFC_RDk_ST k, 18, 18, 0x0⟩
/-- Field DEP of NFC_RDk_ST, RO. -/
def NFC_RDk_ST_DEP (k : Nat) : Fld := ⟨A.NFC_RDk_ST k, 17, 17, 0x0⟩
/-- Field DETUNE of NFC_RDk_ST, RO. -/
def NFC_RDk_ST_DETUNE (k : Nat) : Fld := ⟨A.NFC_RDk_ST k, 15, 0, 0x0⟩
/-- Field LEN of NFC_RDk_UID, RO. -/
def NFC_RDk_UID_LEN (k : Nat) : Fld := ⟨A.NFC_RDk_UID k, 83, 80, 0x0⟩
/-- Field UID of NFC_RDk_UID, RO. -/
def NFC_RDk_UID_UID (k : Nat) : Fld := ⟨A.NFC_RDk_UID k, 79, 0, 0x0⟩
/-- Field CLR of NFC_RDk_CNT, W1P. -/
def NFC_RDk_CNT_CLR (k : Nat) : Fld := ⟨A.NFC_RDk_CNT k, 31, 31, 0x0⟩
/-- Field WAKE of NFC_RDk_CNT, RO. -/
def NFC_RDk_CNT_WAKE (k : Nat) : Fld := ⟨A.NFC_RDk_CNT k, 30, 16, 0x0⟩
/-- Field READS of NFC_RDk_CNT, RO. -/
def NFC_RDk_CNT_READS (k : Nat) : Fld := ⟨A.NFC_RDk_CNT k, 15, 0, 0x0⟩
/-- Field HEN of NFC_TAG_CFG, RWB. -/
def NFC_TAG_CFG_HEN : Fld := ⟨A.NFC_TAG_CFG, 1, 1, 0x4000⟩
/-- Field STGEN of NFC_TAG_CFG, RWB. -/
def NFC_TAG_CFG_STGEN : Fld := ⟨A.NFC_TAG_CFG, 0, 0, 0x4000⟩
/-- Field SEQ of NFC_TAG_ST, RO. -/
def NFC_TAG_ST_SEQ : Fld := ⟨A.NFC_TAG_ST, 31, 24, 0x0⟩
/-- Field COMMIT of NFC_TAG_ST, SQC. -/
def NFC_TAG_ST_COMMIT : Fld := ⟨A.NFC_TAG_ST, 23, 23, 0x0⟩
/-- Field STAGED of NFC_TAG_ST, RO. -/
def NFC_TAG_ST_STAGED : Fld := ⟨A.NFC_TAG_ST, 22, 22, 0x0⟩
/-- Field FIELD of NFC_TAG_ST, RO. -/
def NFC_TAG_ST_FIELD : Fld := ⟨A.NFC_TAG_ST, 21, 21, 0x0⟩
/-- Field LOWSUP of NFC_TAG_ST, RO. -/
def NFC_TAG_ST_LOWSUP : Fld := ⟨A.NFC_TAG_ST, 15, 0, 0x0⟩
/-- Field BYTES of NFC_TAG_LEN, RO. -/
def NFC_TAG_LEN_BYTES : Fld := ⟨A.NFC_TAG_LEN, 18, 0, 0x0⟩
/-- Field MODE of DPY_CFG, RWB. -/
def DPY_CFG_MODE : Fld := ⟨A.DPY_CFG, 9, 8, 0x4000⟩
/-- Field RDLY of DPY_CFG, RWB. -/
def DPY_CFG_RDLY : Fld := ⟨A.DPY_CFG, 7, 0, 0x4000⟩
/-- Field OFF of DPY_CTL, W1P. -/
def DPY_CTL_OFF : Fld := ⟨A.DPY_CTL, 1, 1, 0x0⟩
/-- Field ON of DPY_CTL, W1P. -/
def DPY_CTL_ON : Fld := ⟨A.DPY_CTL, 0, 0, 0x0⟩
/-- Field SEQ of DPY_STAT, RO. -/
def DPY_STAT_SEQ : Fld := ⟨A.DPY_STAT, 31, 24, 0x0⟩
/-- Field REFERR of DPY_STAT, SQC. -/
def DPY_STAT_REFERR : Fld := ⟨A.DPY_STAT, 23, 23, 0x0⟩
/-- Field PFDOWN of DPY_STAT, SQC. -/
def DPY_STAT_PFDOWN : Fld := ⟨A.DPY_STAT, 22, 22, 0x0⟩
/-- Field STATE of DPY_STAT, RO. -/
def DPY_STAT_STATE : Fld := ⟨A.DPY_STAT, 21, 19, 0x0⟩
/-- Field FRAMES of DPY_STAT, RO. -/
def DPY_STAT_FRAMES : Fld := ⟨A.DPY_STAT, 15, 0, 0x0⟩
/-- Field WIDTH of DPY_PANEL, RWB. -/
def DPY_PANEL_WIDTH : Fld := ⟨A.DPY_PANEL, 31, 22, 0x4000⟩
/-- Field HEIGHT of DPY_PANEL, RWB. -/
def DPY_PANEL_HEIGHT : Fld := ⟨A.DPY_PANEL, 21, 12, 0x4000⟩
/-- Field RATE of DPY_PANEL, RWB. -/
def DPY_PANEL_RATE : Fld := ⟨A.DPY_PANEL, 7, 0, 0x4000⟩
/-- Field ADDR of DPY_FBASE, RWB. -/
def DPY_FBASE_ADDR : Fld := ⟨A.DPY_FBASE, 31, 0, 0x0⟩
/-- Field TC of DPY_IREFc, RWB. -/
def DPY_IREFc_TC (c : Nat) : Fld := ⟨A.DPY_IREFc c, 31, 16, 0x4000⟩
/-- Field IREF of DPY_IREFc, RWB. -/
def DPY_IREFc_IREF (c : Nat) : Fld := ⟨A.DPY_IREFc c, 10, 0, 0x4000⟩
/-- Field TSEL of DPY_TCOMP, RWB. -/
def DPY_TCOMP_TSEL : Fld := ⟨A.DPY_TCOMP, 23, 16, 0x4000⟩
/-- Field TEMP of DPY_TCOMP, RO. -/
def DPY_TCOMP_TEMP : Fld := ⟨A.DPY_TCOMP, 15, 0, 0x4000⟩
/-- Field INV of DPY_LCD, RWB. -/
def DPY_LCD_INV : Fld := ⟨A.DPY_LCD, 31, 31, 0x4000⟩
/-- Field TCV of DPY_LCD, RWB. -/
def DPY_LCD_TCV : Fld := ⟨A.DPY_LCD, 23, 16, 0x4000⟩
/-- Field V25 of DPY_LCD, RWB. -/
def DPY_LCD_V25 : Fld := ⟨A.DPY_LCD, 8, 0, 0x4000⟩
/-- Field V of DPY_VLCD, RO. -/
def DPY_VLCD_V : Fld := ⟨A.DPY_VLCD, 8, 0, 0x0⟩
/-- Field ON of DPY_SEGDc, RWB. -/
def DPY_SEGDc_ON (c : Nat) : Fld := ⟨A.DPY_SEGDc c, 39, 0, 0x0⟩
/-- Field CODE of DPY_GAMc_i, RWB. -/
def DPY_GAMc_i_CODE (c : Nat) (i : Nat) : Fld := ⟨A.DPY_GAMc_i c i, 9, 0, 0x0⟩
/-- Field DRAMMB of CLU_ID, RO. -/
def CLU_ID_DRAMMB : Fld := ⟨A.CLU_ID, 31, 16, 0x0⟩
/-- Field L2MB of CLU_ID, RO. -/
def CLU_ID_L2MB : Fld := ⟨A.CLU_ID, 15, 8, 0x0⟩
/-- Field CORES of CLU_ID, RO. -/
def CLU_ID_CORES : Fld := ⟨A.CLU_ID, 3, 0, 0x0⟩
/-- Field SEQ of CLU_ECC, RO. -/
def CLU_ECC_SEQ : Fld := ⟨A.CLU_ECC, 31, 24, 0x0⟩
/-- Field UNCOR of CLU_ECC, SQC. -/
def CLU_ECC_UNCOR : Fld := ⟨A.CLU_ECC, 23, 23, 0x0⟩
/-- Field COR of CLU_ECC, SQC. -/
def CLU_ECC_COR : Fld := ⟨A.CLU_ECC, 22, 22, 0x0⟩
/-- Field WHERE of CLU_ECC, RO. -/
def CLU_ECC_WHERE : Fld := ⟨A.CLU_ECC, 21, 20, 0x0⟩
/-- Field ADDR of CLU_ECCADDR, RO. -/
def CLU_ECCADDR_ADDR : Fld := ⟨A.CLU_ECCADDR, 31, 0, 0x0⟩
/-- Field CLR of CLU_ECCCNT, W1P. -/
def CLU_ECCCNT_CLR : Fld := ⟨A.CLU_ECCCNT, 31, 31, 0x0⟩
/-- Field UNCOR of CLU_ECCCNT, RO. -/
def CLU_ECCCNT_UNCOR : Fld := ⟨A.CLU_ECCCNT, 30, 16, 0x0⟩
/-- Field COR of CLU_ECCCNT, RO. -/
def CLU_ECCCNT_COR : Fld := ⟨A.CLU_ECCCNT, 15, 0, 0x0⟩
/-- Field BANK of CLU_BANK, RO. -/
def CLU_BANK_BANK : Fld := ⟨A.CLU_BANK, 31, 28, 0x0⟩
/-- Field SHARE of CLU_BANK, RO. -/
def CLU_BANK_SHARE : Fld := ⟨A.CLU_BANK, 15, 0, 0x0⟩
/-- Field EN of CLU_XCFG, RWB. -/
def CLU_XCFG_EN : Fld := ⟨A.CLU_XCFG, 31, 31, 0x4000⟩
/-- Field XVMAX of CLU_XCFG, RWB. -/
def CLU_XCFG_XVMAX : Fld := ⟨A.CLU_XCFG, 15, 8, 0x4000⟩
/-- Field SLICE of CLU_XCFG, RWB. -/
def CLU_XCFG_SLICE : Fld := ⟨A.CLU_XCFG, 6, 0, 0x4000⟩
/-- Field BLK of CLU_XRD, RWB. -/
def CLU_XRD_BLK : Fld := ⟨A.CLU_XRD, 18, 0, 0x4000⟩
/-- Field BLK of CLU_XWR, RWB. -/
def CLU_XWR_BLK : Fld := ⟨A.CLU_XWR, 18, 0, 0x4000⟩
/-- Field BASE of CLU_XDRAM, RWB. -/
def CLU_XDRAM_BASE : Fld := ⟨A.CLU_XDRAM, 31, 16, 0x4000⟩
/-- Field SIZE of CLU_XDRAM, RWB. -/
def CLU_XDRAM_SIZE : Fld := ⟨A.CLU_XDRAM, 15, 0, 0x4000⟩
/-- Field BASE of CLU_XTICK, RWB. -/
def CLU_XTICK_BASE : Fld := ⟨A.CLU_XTICK, 31, 16, 0x4000⟩
/-- Field SIZE of CLU_XTICK, RWB. -/
def CLU_XTICK_SIZE : Fld := ⟨A.CLU_XTICK, 15, 0, 0x4000⟩
/-- Field SEQ of CLU_XST, RO. -/
def CLU_XST_SEQ : Fld := ⟨A.CLU_XST, 31, 24, 0x0⟩
/-- Field VIO of CLU_XST, SQC. -/
def CLU_XST_VIO : Fld := ⟨A.CLU_XST, 23, 23, 0x0⟩
/-- Field STOPPED of CLU_XST, RO. -/
def CLU_XST_STOPPED : Fld := ⟨A.CLU_XST, 22, 22, 0x0⟩
/-- Field RUN of CLU_XST, RO. -/
def CLU_XST_RUN : Fld := ⟨A.CLU_XST, 21, 21, 0x0⟩
/-- Field STOP of CLU_XST, W1P. -/
def CLU_XST_STOP : Fld := ⟨A.CLU_XST, 20, 20, 0x0⟩
/-- Field USED of CLU_XST, RO. -/
def CLU_XST_USED : Fld := ⟨A.CLU_XST, 15, 0, 0x0⟩
/-- Field ADDR of CLU_XVIO, RO. -/
def CLU_XVIO_ADDR : Fld := ⟨A.CLU_XVIO, 31, 0, 0x0⟩

end F

end Sys2Proof.Machine
end

