-- ==== Sys2Proof/Machine/RegTable.lean ====
section
/-!
DEFINITION. The register map of R62 and R63 as data: one row per register of the tables of spec/04 to spec/22,
with its offset, index counts and strides, width in words, complement-shadow offset (R74) and fields
(bits, access code of R5, reset value, stated ranges of R442, held in the thermos die or not).
Read off the register tables of the spec; a field of the tables that is reserved has no row here.
-/

namespace Sys2Proof.Machine

/-- The access codes of R5. -/
inductive Acc where
  | ro | rw | rwb | wo | w1p | sqc
  deriving DecidableEq, Repr

/-- One named field of a register: bits `hi:lo` (counted over all words of a wide register, R3), access code,
reset value, the stated ranges of R442 (empty: none stated), signed or not, held in the thermos die or not. -/
structure FieldDesc where
  hi : Nat
  lo : Nat
  acc : Acc
  reset : Nat
  ranges : List (Int × Int)
  signed : Bool
  held : Bool
  deriving DecidableEq, Repr

/-- One register: offset from its block's base, `n1` copies at stride `s1`, each of `n2` copies at stride `s2`,
`words` 32-bit words, and the distance to its complement shadow (0: the register is not critical). -/
structure RegDesc where
  ofs : Nat
  n1 : Nat
  s1 : Nat
  n2 : Nat
  s2 : Nat
  words : Nat
  shadow : Nat
  fields : List FieldDesc
  deriving DecidableEq, Repr

/-- Registers of block SYS (R62), part 0. -/
def regsSYS0 : List RegDesc := [
  -- SYS_WCTL (04, R67)
  ⟨0xfffc, 1, 0x0, 1, 0x0, 1, 0x0,
    [⟨8, 8, .ro, 0, [], false, false⟩, ⟨6, 4, .rw, 0, [], false, false⟩, ⟨0, 0, .rw, 0, [], false, false⟩]⟩,
  -- SYS_STROBE (04, R71)
  ⟨0x40, 1, 0x0, 1, 0x0, 1, 0x0,
    [⟨15, 8, .ro, 0, [], false, false⟩, ⟨7, 0, .w1p, 0, [], false, false⟩]⟩,
  -- SYS_DISCARD (04, R71)
  ⟨0x44, 1, 0x0, 1, 0x0, 1, 0x0,
    [⟨7, 0, .w1p, 0, [], false, false⟩]⟩,
  -- SYS_STRg_TICK (04, R71)
  ⟨0x80, 8, 0x8, 1, 0x0, 1, 0x0,
    [⟨31, 0, .rw, 0, [], false, false⟩]⟩,
  -- SYS_STRg_CTL (04, R71)
  ⟨0x84, 8, 0x8, 1, 0x0, 1, 0x0,
    [⟨2, 2, .ro, 0, [], false, false⟩, ⟨1, 1, .w1p, 0, [], false, false⟩, ⟨0, 0, .w1p, 0, [], false, false⟩]⟩,
  -- SYS_STR_STAT (04, R71)
  ⟨0xc0, 1, 0x0, 1, 0x0, 1, 0x0,
    [⟨31, 24, .ro, 0, [], false, false⟩, ⟨15, 8, .sqc, 0, [], false, false⟩, ⟨7, 0, .sqc, 0, [], false, false⟩]⟩,
  -- SYS_STALE (04, R73)
  ⟨0x18, 1, 0x0, 1, 0x0, 1, 0x0,
    [⟨31, 31, .w1p, 0, [], false, false⟩, ⟨28, 24, .ro, 0, [], false, false⟩, ⟨15, 0, .ro, 0, [], false, false⟩]⟩,
  -- SYS_ID (04, R76)
  ⟨0x0, 1, 0x0, 1, 0x0, 1, 0x0,
    [⟨31, 16, .ro, 0x3200, [], false, false⟩, ⟨7, 4, .ro, 1, [], false, false⟩, ⟨3, 0, .ro, 0, [], false, false⟩]⟩,
  -- SYS_DEVID (04, R76)
  ⟨0x4, 1, 0x0, 1, 0x0, 1, 0x0,
    [⟨15, 0, .ro, 0, [], false, false⟩]⟩,
  -- SYS_STAGE (04, R76)
  ⟨0x8, 1, 0x0, 1, 0x0, 1, 0x0,
    [⟨3, 0, .ro, 0, [], false, false⟩]⟩,
  -- SYS_HOSTWR (04, R76)
  ⟨0x10, 1, 0x0, 1, 0x0, 1, 0x0,
    [⟨18, 0, .ro, 0, [], false, false⟩]⟩,
  -- SYS_WDENY (04, R76)
  ⟨0x14, 1, 0x0, 1, 0x0, 1, 0x0,
    [⟨31, 31, .w1p, 0, [], false, false⟩, ⟨15, 0, .ro, 0, [], false, false⟩]⟩,
  -- SYS_PLSTAT (05, R97)
  ⟨0x20, 1, 0x0, 1, 0x0, 1, 0x0,
    [⟨31, 24, .ro, 0, [], false, false⟩, ⟨23, 16, .ro, 0, [], false, false⟩, ⟨15, 12, .ro, 0, [], false, false⟩,
     ⟨11, 8, .ro, 0, [], false, false⟩, ⟨5, 5, .sqc, 0, [], false, false⟩, ⟨4, 4, .ro, 0, [], false, false⟩,
     ⟨3, 2, .ro, 0, [], false, false⟩, ⟨1, 1, .sqc, 0, [], false, false⟩]⟩,
  -- SYS_PLBAD (05, R97)
  ⟨0x24, 1, 0x0, 1, 0x0, 1, 0x0,
    [⟨31, 16, .ro, 0, [], false, false⟩, ⟨15, 12, .ro, 0, [], false, false⟩, ⟨7, 0, .ro, 0, [], false, false⟩]⟩,
  -- SYS_STTIME (05, R97)
  ⟨0x28, 1, 0x0, 1, 0x0, 1, 0x0,
    [⟨31, 16, .ro, 0, [], false, false⟩, ⟨15, 0, .ro, 0, [], false, false⟩]⟩,
  -- SYS_RC_PRES (05, R97)
  ⟨0x30, 1, 0x0, 1, 0x0, 1, 0x0,
    [⟨31, 0, .ro, 0, [], false, false⟩]⟩,
  -- SYS_RC_PASS (05, R97)
  ⟨0x34, 1, 0x0, 1, 0x0, 1, 0x0,
    [⟨31, 0, .ro, 0, [], false, false⟩]⟩,
  -- SYS_RC_STAT (05, R97)
  ⟨0x38, 1, 0x0, 1, 0x0, 1, 0x0,
    [⟨31, 24, .ro, 0, [], false, false⟩, ⟨12, 12, .sqc, 0, [], false, false⟩, ⟨11, 8, .ro, 0, [], false, false⟩,
     ⟨4, 0, .ro, 0, [], false, false⟩]⟩,
  -- SYS_ADAPT (05, R97)
  ⟨0x3c, 1, 0x0, 1, 0x0, 1, 0x0,
    [⟨31, 24, .ro, 0, [], false, false⟩, ⟨23, 23, .sqc, 0, [], false, false⟩, ⟨22, 22, .ro, 0, [], false, false⟩,
     ⟨21, 21, .ro, 0, [], false, false⟩, ⟨6, 6, .w1p, 0, [], false, false⟩, ⟨5, 5, .ro, 0, [], false, false⟩,
     ⟨4, 0, .rw, 0, [], false, false⟩]⟩,
  -- SYS_HEADn_SER (05, R97)
  ⟨0x100, 32, 0x8, 1, 0x0, 2, 0x0,
    [⟨63, 0, .ro, 0, [], false, false⟩]⟩]

/-- Every register of block SYS. -/
def regsSYS : List RegDesc := regsSYS0

/-- Registers of block TCK (R62), part 0. -/
def regsTCK0 : List RegDesc := [
  -- TCK_WCTL (04, R67)
  ⟨0xfffc, 1, 0x0, 1, 0x0, 1, 0x0,
    [⟨8, 8, .ro, 0, [], false, false⟩, ⟨6, 4, .rw, 0, [], false, false⟩, ⟨0, 0, .rw, 0, [], false, false⟩]⟩,
  -- TCK_SYNC (04, R76)
  ⟨0x0, 1, 0x0, 1, 0x0, 1, 0x0,
    [⟨31, 24, .ro, 0, [], false, false⟩, ⟨17, 17, .sqc, 0, [], false, false⟩, ⟨16, 16, .sqc, 0, [], false, false⟩,
     ⟨9, 8, .ro, 0, [], false, false⟩, ⟨2, 0, .ro, 0, [], false, false⟩]⟩,
  -- TCK_OFFSET (04, R76)
  ⟨0x4, 1, 0x0, 1, 0x0, 1, 0x0,
    [⟨31, 0, .ro, 0, [], false, false⟩]⟩,
  -- TCK_TIME (04, R76)
  ⟨0x8, 1, 0x0, 1, 0x0, 2, 0x0,
    [⟨63, 0, .ro, 0, [], false, false⟩]⟩,
  -- TCK_FRAME (04, R76)
  ⟨0x10, 1, 0x0, 1, 0x0, 1, 0x0,
    [⟨31, 0, .ro, 0, [], false, false⟩]⟩,
  -- TCK_ALC_TICK (04, R76)
  ⟨0x14, 1, 0x0, 1, 0x0, 1, 0x0,
    [⟨31, 0, .ro, 0, [], false, false⟩]⟩,
  -- TCK_PERIOD (04, R76)
  ⟨0x18, 1, 0x0, 1, 0x0, 1, 0x0,
    [⟨22, 16, .ro, 0xa, [], false, false⟩, ⟨6, 0, .rwb, 0xa, [(2, 100)], false, false⟩]⟩,
  -- TCK_FENCE (04, R76)
  ⟨0x20, 1, 0x0, 1, 0x0, 1, 0x0,
    [⟨31, 16, .ro, 0, [], false, false⟩, ⟨0, 0, .w1p, 0, [], false, false⟩]⟩,
  -- TCK_EPOCH (04, R76)
  ⟨0x24, 1, 0x0, 1, 0x0, 1, 0x0,
    [⟨31, 0, .ro, 0, [], false, true⟩]⟩,
  -- TCK_OVR (04, R76)
  ⟨0x28, 1, 0x0, 1, 0x0, 2, 0x0,
    [⟨63, 48, .ro, 0, [], false, false⟩, ⟨47, 32, .ro, 0, [], false, false⟩, ⟨31, 16, .ro, 0, [], false, false⟩,
     ⟨15, 0, .ro, 0, [], false, false⟩]⟩,
  -- TCK_CTL (04, R76)
  ⟨0x30, 1, 0x0, 1, 0x0, 1, 0x0,
    [⟨0, 0, .w1p, 0, [], false, false⟩]⟩]

/-- Every register of block TCK. -/
def regsTCK : List RegDesc := regsTCK0

/-- Registers of block FLT (R62), part 0. -/
def regsFLT0 : List RegDesc := [
  -- FLT_WCTL (04, R67)
  ⟨0xfffc, 1, 0x0, 1, 0x0, 1, 0x0,
    [⟨8, 8, .ro, 0, [], false, false⟩, ⟨6, 4, .rw, 0, [], false, false⟩, ⟨0, 0, .rw, 0, [], false, false⟩]⟩,
  -- FLT_SUMk (14, R319)
  ⟨0x0, 8, 0x4, 1, 0x0, 1, 0x0,
    [⟨31, 0, .ro, 0, [], false, false⟩]⟩,
  -- FLT_CFG (14, R319)
  ⟨0x40, 1, 0x0, 1, 0x0, 1, 0x4000,
    [⟨31, 28, .rwb, 3, [(2, 15)], false, false⟩, ⟨27, 18, .rwb, 0x3c, [(10, 600)], false, false⟩,
     ⟨17, 13, .rwb, 0x1c, [], false, false⟩, ⟨12, 10, .rwb, 3, [(1, 4)], false, false⟩,
     ⟨9, 9, .rwb, 0, [], false, false⟩]⟩,
  -- FLT_CLRMASK (14, R319)
  ⟨0x44, 1, 0x0, 1, 0x0, 1, 0x0,
    [⟨31, 0, .rw, 0xffffffff, [], false, false⟩]⟩,
  -- FLT_PIN (14, R319)
  ⟨0x50, 1, 0x0, 1, 0x0, 1, 0x0,
    [⟨31, 16, .ro, 0, [], false, false⟩, ⟨4, 3, .ro, 0, [], false, false⟩, ⟨2, 2, .ro, 0, [], false, false⟩,
     ⟨1, 1, .ro, 1, [], false, false⟩, ⟨0, 0, .w1p, 0, [], false, false⟩]⟩,
  -- FLT_RETIRED (14, R319)
  ⟨0x60, 1, 0x0, 1, 0x0, 1, 0x0,
    [⟨31, 0, .ro, 0, [], false, true⟩]⟩,
  -- FLT_RETCMD (14, R319)
  ⟨0x64, 1, 0x0, 1, 0x0, 1, 0x0,
    [⟨31, 24, .ro, 0, [], false, false⟩, ⟨8, 8, .sqc, 0, [], false, false⟩, ⟨7, 7, .w1p, 0, [], false, false⟩,
     ⟨6, 6, .w1p, 0, [], false, false⟩, ⟨4, 0, .rw, 0, [], false, false⟩]⟩,
  -- FLT_LANEF (14, R319)
  ⟨0x68, 1, 0x0, 1, 0x0, 1, 0x0,
    [⟨31, 0, .ro, 0, [], false, false⟩]⟩,
  -- FLT_WDOG (14, R319)
  ⟨0x70, 1, 0x0, 1, 0x0, 1, 0x0,
    [⟨31, 24, .ro, 0, [], false, true⟩, ⟨23, 16, .ro, 0, [], false, false⟩, ⟨15, 0, .wo, 0, [], false, false⟩]⟩,
  -- FLT_WDCFG (14, R319)
  ⟨0x74, 1, 0x0, 1, 0x0, 1, 0x0,
    [⟨21, 16, .rwb, 0xa, [(0, 60)], false, false⟩, ⟨10, 0, .rwb, 0xc8, [(20, 2000)], false, false⟩]⟩,
  -- FLT_SRCi (14, R319)
  ⟨0x400, 256, 0x4, 1, 0x0, 1, 0x0,
    [⟨31, 24, .ro, 0, [], false, false⟩, ⟨23, 23, .sqc, 0, [], false, false⟩, ⟨22, 22, .ro, 0, [], false, false⟩,
     ⟨21, 21, .ro, 0, [], false, false⟩, ⟨20, 20, .ro, 0, [], false, false⟩, ⟨19, 19, .ro, 0, [], false, false⟩,
     ⟨18, 16, .ro, 0, [], false, false⟩, ⟨15, 8, .ro, 0, [], false, false⟩, ⟨7, 0, .ro, 0, [], false, false⟩]⟩,
  -- FLT_SRCi_LSTK (14, R319)
  ⟨0x800, 256, 0x8, 1, 0x0, 1, 0x0,
    [⟨31, 0, .ro, 0, [], false, false⟩]⟩,
  -- FLT_SRCi_LCAU (14, R304)
  ⟨0x804, 256, 0x8, 1, 0x0, 1, 0x0,
    [⟨31, 0, .ro, 0, [], false, false⟩]⟩,
  -- FLT_QENk_CTL (14, R319)
  ⟨0x1000, 8, 0x10, 1, 0x0, 1, 0x0,
    [⟨31, 24, .ro, 0, [], false, false⟩, ⟨23, 23, .sqc, 0, [], false, false⟩, ⟨22, 22, .w1p, 0, [], false, false⟩,
     ⟨21, 21, .rwb, 0, [], false, false⟩, ⟨20, 20, .rwb, 0, [], false, false⟩, ⟨19, 19, .rwb, 0, [], false, false⟩,
     ⟨18, 14, .rwb, 0, [], false, false⟩, ⟨13, 8, .ro, 0, [], false, false⟩,
     ⟨7, 0, .rwb, 4, [(1, 255)], false, false⟩]⟩,
  -- FLT_QENk_HOME (14, R319)
  ⟨0x1004, 8, 0x10, 1, 0x0, 1, 0x0,
    [⟨31, 0, .rw, 0, [], false, false⟩]⟩,
  -- FLT_QENk_CNT (14, R319)
  ⟨0x1008, 8, 0x10, 1, 0x0, 1, 0x0,
    [⟨31, 0, .ro, 0, [], false, false⟩]⟩]

/-- Every register of block FLT. -/
def regsFLT : List RegDesc := regsFLT0

/-- Registers of block DMA (R62), part 0. -/
def regsDMA0 : List RegDesc := [
  -- DMA_WCTL (04, R67)
  ⟨0xfffc, 1, 0x0, 1, 0x0, 1, 0x0,
    [⟨8, 8, .ro, 0, [], false, false⟩, ⟨6, 4, .rw, 0, [], false, false⟩, ⟨0, 0, .rw, 0, [], false, false⟩]⟩,
  -- DMA_CHn_CFG (19, R396)
  ⟨0x0, 32, 0x40, 1, 0x0, 1, 0x0,
    [⟨3, 3, .rw, 0, [], false, false⟩, ⟨2, 2, .rw, 0, [], false, false⟩, ⟨1, 0, .rw, 0, [], false, false⟩]⟩,
  -- DMA_CHn_ITIN (19, R396)
  ⟨0x4, 32, 0x40, 1, 0x0, 1, 0x0,
    [⟨31, 0, .rw, 0, [], false, false⟩]⟩,
  -- DMA_CHn_CTL (19, R396)
  ⟨0x8, 32, 0x40, 1, 0x0, 1, 0x0,
    [⟨1, 1, .w1p, 0, [], false, false⟩, ⟨0, 0, .w1p, 0, [], false, false⟩]⟩,
  -- DMA_CHn_STAT (19, R396)
  ⟨0xc, 32, 0x40, 1, 0x0, 1, 0x0,
    [⟨31, 24, .ro, 0, [], false, false⟩, ⟨23, 23, .sqc, 0, [], false, false⟩, ⟨22, 22, .sqc, 0, [], false, false⟩,
     ⟨21, 21, .sqc, 0, [], false, false⟩, ⟨20, 18, .ro, 0, [], false, false⟩, ⟨17, 16, .ro, 0, [], false, false⟩,
     ⟨15, 0, .ro, 0, [], false, false⟩]⟩,
  -- DMA_CHn_RES (19, R396)
  ⟨0x10, 32, 0x40, 1, 0x0, 1, 0x0,
    [⟨23, 0, .ro, 0, [], false, false⟩]⟩,
  -- DMA_CHn_CNT (19, R396)
  ⟨0x14, 32, 0x40, 1, 0x0, 1, 0x0,
    [⟨31, 0, .ro, 0, [], false, false⟩]⟩,
  -- DMA_CHn_WB (19, R396)
  ⟨0x18, 32, 0x40, 1, 0x0, 1, 0x0,
    [⟨31, 0, .rw, 0, [], false, false⟩]⟩,
  -- DMA_WEIGHT (19, R396)
  ⟨0x8000, 1, 0x0, 1, 0x0, 1, 0x0,
    [⟨31, 24, .rw, 8, [], false, false⟩, ⟨23, 16, .rw, 4, [], false, false⟩, ⟨15, 8, .rw, 2, [], false, false⟩,
     ⟨7, 0, .rw, 1, [], false, false⟩]⟩,
  -- DMA_IRQSUM (19, R396)
  ⟨0x8004, 1, 0x0, 1, 0x0, 1, 0x0,
    [⟨31, 0, .ro, 0, [], false, false⟩]⟩,
  -- DMA_ACTIVE (19, R396)
  ⟨0x8008, 1, 0x0, 1, 0x0, 1, 0x0,
    [⟨31, 0, .ro, 0, [], false, false⟩]⟩]

/-- Every register of block DMA. -/
def regsDMA : List RegDesc := regsDMA0

/-- Registers of block MET (R62), part 0. -/
def regsMET0 : List RegDesc := [
  -- MET_WCTL (04, R67)
  ⟨0xfffc, 1, 0x0, 1, 0x0, 1, 0x0,
    [⟨8, 8, .ro, 0, [], false, false⟩, ⟨6, 4, .rw, 0, [], false, false⟩, ⟨0, 0, .rw, 0, [], false, false⟩]⟩,
  -- MET_MCLKDLY (06, R99)
  ⟨0x8004, 1, 0x0, 1, 0x0, 1, 0x0,
    [⟨31, 28, .rwb, 0, [], false, false⟩, ⟨27, 24, .rwb, 0, [], false, false⟩, ⟨23, 20, .rwb, 0, [], false, false⟩,
     ⟨19, 16, .rwb, 0, [], false, false⟩, ⟨15, 12, .rwb, 0, [], false, false⟩, ⟨11, 8, .rwb, 0, [], false, false⟩,
     ⟨7, 4, .rwb, 0, [], false, false⟩, ⟨3, 0, .rwb, 0, [], false, false⟩]⟩,
  -- MET_Ln_CALV (06, R106)
  ⟨0x110, 32, 0x400, 3, 0x4, 1, 0x200,
    [⟨25, 16, .rwb, 0, [(-400, 400)], true, false⟩, ⟨8, 0, .rwb, 0x80, [(0, 256)], false, false⟩]⟩,
  -- MET_Ln_VSCALE (06, R106)
  ⟨0x120, 32, 0x400, 1, 0x0, 1, 0x200,
    [⟨23, 0, .rwb, 0, [], false, false⟩]⟩,
  -- MET_Ln_ISCALE (06, R106)
  ⟨0x124, 32, 0x400, 1, 0x0, 1, 0x200,
    [⟨23, 0, .rwb, 0, [], false, false⟩]⟩,
  -- MET_SEAL (06, R106)
  ⟨0x8010, 1, 0x0, 1, 0x0, 1, 0x0,
    [⟨31, 31, .ro, 0, [], false, false⟩, ⟨15, 1, .ro, 0, [], false, false⟩, ⟨0, 0, .w1p, 0, [], false, false⟩]⟩,
  -- MET_CALCNT (06, R106)
  ⟨0x8014, 1, 0x0, 1, 0x0, 1, 0x0,
    [⟨31, 0, .ro, 0, [], false, true⟩]⟩,
  -- MET_CFG (06, R106)
  ⟨0x8000, 1, 0x0, 1, 0x0, 1, 0x0,
    [⟨23, 16, .rwb, 0xff, [(0, 63), (255, 255)], false, false⟩, ⟨8, 8, .ro, 0, [], false, false⟩,
     ⟨0, 0, .rwb, 0, [], false, false⟩]⟩,
  -- MET_Ln_TSEL (06, R108)
  ⟨0x104, 32, 0x400, 1, 0x0, 1, 0x200,
    [⟨23, 16, .rwb, 0xff, [(0, 63), (255, 255)], false, false⟩,
     ⟨15, 8, .rwb, 0xff, [(0, 63), (255, 255)], false, false⟩,
     ⟨7, 0, .rwb, 0xff, [(0, 63), (255, 255)], false, false⟩]⟩,
  -- MET_Ln_TCORx (06, R108)
  ⟨0x140, 32, 0x400, 3, 0x4, 1, 0x0,
    [⟨31, 16, .ro, 0x140, [], false, false⟩, ⟨15, 0, .ro, 0, [], false, false⟩]⟩,
  -- MET_TTABs (06, R107)
  ⟨0x10000, 96, 0x40, 16, 0x4, 1, 0x4000,
    [⟨31, 16, .rwb, 0, [], false, false⟩, ⟨15, 0, .rwb, 0, [(-250, 250)], true, false⟩]⟩,
  -- MET_SNB_CTL (06, R111)
  ⟨0x8020, 1, 0x0, 1, 0x0, 1, 0x0,
    [⟨1, 1, .rwb, 1, [], false, false⟩, ⟨0, 0, .rwb, 0, [], false, false⟩]⟩,
  -- MET_SNB_STAT (06, R111)
  ⟨0x8024, 1, 0x0, 1, 0x0, 1, 0x0,
    [⟨31, 24, .ro, 0, [], false, false⟩, ⟨9, 9, .sqc, 0, [], false, false⟩, ⟨8, 8, .sqc, 0, [], false, false⟩,
     ⟨6, 0, .ro, 0, [], false, false⟩]⟩,
  -- MET_SNBm (06, R111)
  ⟨0x8100, 64, 0x4, 1, 0x0, 1, 0x0,
    [⟨31, 31, .rwb, 0, [], false, false⟩, ⟨6, 0, .rwb, 0, [], false, false⟩]⟩,
  -- MET_SNBm_T (06, R111)
  ⟨0x8200, 64, 0x4, 1, 0x0, 1, 0x0,
    [⟨31, 31, .ro, 0, [], false, false⟩, ⟨30, 30, .ro, 0, [], false, false⟩, ⟨29, 16, .ro, 0, [], false, false⟩,
     ⟨15, 0, .ro, 0, [], false, false⟩]⟩,
  -- MET_Ln_HTj (06, R112)
  ⟨0x160, 32, 0x400, 6, 0x4, 1, 0x0,
    [⟨31, 31, .ro, 0, [], false, false⟩, ⟨30, 30, .ro, 0, [], false, false⟩, ⟨15, 0, .ro, 0, [], false, false⟩]⟩,
  -- MET_Ln_STRSTAT (06, R117)
  ⟨0x130, 32, 0x400, 1, 0x0, 1, 0x0,
    [⟨31, 24, .ro, 0, [], false, false⟩, ⟨18, 18, .sqc, 0, [], false, false⟩, ⟨17, 17, .ro, 0, [], false, false⟩,
     ⟨11, 11, .ro, 0, [], false, false⟩, ⟨10, 10, .sqc, 0, [], false, false⟩, ⟨9, 9, .sqc, 0, [], false, false⟩,
     ⟨8, 8, .ro, 0, [], false, false⟩, ⟨4, 4, .ro, 0, [], false, false⟩, ⟨5, 5, .sqc, 0, [], false, false⟩,
     ⟨6, 6, .sqc, 0, [], false, false⟩, ⟨7, 7, .ro, 0, [], false, false⟩, ⟨0, 0, .ro, 0, [], false, false⟩,
     ⟨1, 1, .sqc, 0, [], false, false⟩, ⟨2, 2, .sqc, 0, [], false, false⟩, ⟨3, 3, .ro, 0, [], false, false⟩]⟩,
  -- MET_Ln_STRCNT (06, R117)
  ⟨0x134, 32, 0x400, 1, 0x0, 1, 0x0,
    [⟨31, 31, .w1p, 0, [], false, false⟩, ⟨23, 16, .ro, 0, [], false, false⟩, ⟨15, 8, .ro, 0, [], false, false⟩,
     ⟨7, 0, .ro, 0, [], false, false⟩]⟩,
  -- MET_CAP_CTL (06, R121)
  ⟨0x8400, 1, 0x0, 1, 0x0, 1, 0x0,
    [⟨9, 9, .ro, 0, [], false, false⟩, ⟨7, 6, .ro, 0, [], false, false⟩, ⟨3, 3, .w1p, 0, [], false, false⟩,
     ⟨2, 2, .w1p, 0, [], false, false⟩, ⟨1, 1, .w1p, 0, [], false, false⟩, ⟨0, 0, .w1p, 0, [], false, false⟩]⟩,
  -- MET_CAP_SELk (06, R121)
  ⟨0x8408, 3, 0x4, 1, 0x0, 1, 0x0,
    [⟨12, 12, .rwb, 0, [], false, false⟩, ⟨9, 8, .rwb, 0, [], false, false⟩, ⟨7, 7, .rwb, 0, [], false, false⟩,
     ⟨4, 0, .rwb, 0, [], false, false⟩]⟩,
  -- MET_CAP_TRIG (06, R121)
  ⟨0x8414, 1, 0x0, 1, 0x0, 1, 0x0,
    [⟨31, 31, .rwb, 0, [], false, false⟩, ⟨30, 30, .rwb, 0, [], false, false⟩, ⟨29, 29, .rwb, 0, [], false, false⟩,
     ⟨28, 24, .rwb, 0, [], false, false⟩, ⟨23, 16, .rwb, 0, [], false, false⟩, ⟨11, 0, .rwb, 0, [], false, false⟩]⟩,
  -- MET_CAP_LEVEL (06, R121)
  ⟨0x8418, 1, 0x0, 1, 0x0, 1, 0x0,
    [⟨22, 0, .rwb, 0x7fffff, [], false, false⟩]⟩,
  -- MET_CAP_STAT (06, R121)
  ⟨0x841c, 1, 0x0, 1, 0x0, 1, 0x0,
    [⟨31, 24, .ro, 0, [], false, false⟩, ⟨19, 16, .ro, 0, [], false, false⟩, ⟨15, 15, .sqc, 0, [], false, false⟩,
     ⟨14, 14, .ro, 0, [], false, false⟩, ⟨13, 13, .ro, 0, [], false, false⟩, ⟨11, 0, .ro, 0, [], false, false⟩]⟩,
  -- MET_CAP_STAMP (06, R121)
  ⟨0x8420, 1, 0x0, 1, 0x0, 2, 0x0,
    [⟨35, 32, .ro, 0, [], false, false⟩, ⟨31, 0, .ro, 0, [], false, false⟩]⟩]

/-- Registers of block MET (R62), part 1. -/
def regsMET1 : List RegDesc := [
  -- MET_CAP_EPOCH (06, R121)
  ⟨0x8428, 1, 0x0, 1, 0x0, 1, 0x0,
    [⟨31, 0, .ro, 0, [], false, false⟩]⟩,
  -- MET_CAP_LAG (06, R121)
  ⟨0x842c, 1, 0x0, 1, 0x0, 1, 0x0,
    [⟨31, 0, .ro, 0, [], false, false⟩]⟩,
  -- MET_CAP_OVR (06, R121)
  ⟨0x8430, 1, 0x0, 1, 0x0, 1, 0x0,
    [⟨31, 31, .w1p, 0, [], false, false⟩, ⟨15, 0, .ro, 0, [], false, false⟩]⟩,
  -- MET_CAP_ADDR (06, R121)
  ⟨0x8434, 1, 0x0, 1, 0x0, 1, 0x0,
    [⟨13, 12, .rw, 0, [(0, 2)], false, false⟩, ⟨11, 0, .rw, 0, [], false, false⟩]⟩,
  -- MET_CAP_DATA (06, R121)
  ⟨0x8438, 1, 0x0, 1, 0x0, 1, 0x0,
    [⟨31, 0, .ro, 0, [], false, false⟩]⟩,
  -- MET_Ln_QCFG (07, R123)
  ⟨0x100, 32, 0x400, 1, 0x0, 1, 0x200,
    [⟨23, 18, .rwb, 0x3f, [], false, false⟩, ⟨16, 16, .rwb, 0, [], false, false⟩,
     ⟨15, 0, .rwb, 0x3e8, [], false, false⟩]⟩,
  -- MET_Ln_INOM (07, R123)
  ⟨0x108, 32, 0x400, 1, 0x0, 1, 0x200,
    [⟨15, 0, .ro, 0, [], false, false⟩]⟩,
  -- MET_Ln_EIMP (07, R133)
  ⟨0x10, 32, 0x400, 10, 0x8, 2, 0x200,
    [⟨47, 0, .ro, 0, [], false, false⟩]⟩,
  -- MET_Ln_QSTAT (07, R133)
  ⟨0xb0, 32, 0x400, 1, 0x0, 1, 0x0,
    [⟨31, 24, .ro, 0, [], false, false⟩, ⟨9, 9, .sqc, 0, [], false, false⟩, ⟨8, 8, .sqc, 0, [], false, false⟩,
     ⟨5, 4, .ro, 0, [], false, false⟩, ⟨3, 3, .ro, 0, [], false, false⟩, ⟨2, 2, .ro, 0, [], false, false⟩]⟩,
  -- MET_Ln_QCNT (07, R133)
  ⟨0xb4, 32, 0x400, 1, 0x0, 1, 0x0,
    [⟨31, 31, .w1p, 0, [], false, false⟩, ⟨30, 16, .ro, 0, [], false, false⟩, ⟨15, 0, .ro, 0, [], false, false⟩]⟩,
  -- MET_Ln_VINST (07, R134)
  ⟨0x60, 32, 0x400, 9, 0x4, 1, 0x0,
    [⟨31, 0, .ro, 0, [], false, false⟩]⟩,
  -- MET_Ln_FREQ (07, R135)
  ⟨0x84, 32, 0x400, 1, 0x0, 1, 0x0,
    [⟨31, 31, .ro, 0, [], false, false⟩, ⟨16, 0, .ro, 0, [], false, false⟩]⟩,
  -- MET_Ln_PALC (07, R134)
  ⟨0x88, 32, 0x400, 5, 0x4, 1, 0x0,
    [⟨31, 0, .ro, 0, [], false, false⟩]⟩,
  -- MET_Ln_RCAB (07, R139)
  ⟨0xc0, 32, 0x400, 1, 0x0, 1, 0x0,
    [⟨31, 0, .ro, 0, [], false, false⟩]⟩,
  -- MET_Ln_RT (07, R139)
  ⟨0xc4, 32, 0x400, 1, 0x0, 1, 0x0,
    [⟨31, 0, .ro, 0, [], false, false⟩]⟩,
  -- MET_Ln_TCAB (07, R139)
  ⟨0xc8, 32, 0x400, 1, 0x0, 1, 0x0,
    [⟨31, 16, .ro, 0x140, [], false, false⟩, ⟨1, 0, .ro, 3, [], false, false⟩]⟩,
  -- MET_Ln_RCREC (07, R139)
  ⟨0xcc, 32, 0x400, 1, 0x0, 1, 0x0,
    [⟨31, 16, .ro, 0, [], false, false⟩, ⟨15, 0, .ro, 0, [], false, true⟩]⟩,
  -- MET_Ln_LSEC (07, R139)
  ⟨0xd0, 32, 0x400, 1, 0x0, 1, 0x0,
    [⟨31, 0, .ro, 0, [], false, false⟩]⟩,
  -- MET_PPOk_CFG (07, R144)
  ⟨0x8500, 4, 0x8, 1, 0x0, 1, 0x0,
    [⟨27, 24, .rwb, 0, [], false, false⟩, ⟨20, 16, .rwb, 0, [], false, false⟩, ⟨11, 0, .rwb, 0x3e8, [], false, false⟩]⟩,
  -- MET_PPOk_CONST (07, R144)
  ⟨0x8504, 4, 0x8, 1, 0x0, 1, 0x0,
    [⟨19, 0, .rwb, 0x3e8, [(1, 1000000)], false, false⟩]⟩,
  -- MET_PPO_STAT (07, R144)
  ⟨0x8520, 1, 0x0, 1, 0x0, 1, 0x0,
    [⟨31, 24, .ro, 0, [], false, false⟩, ⟨11, 8, .sqc, 0, [], false, false⟩, ⟨7, 4, .ro, 0, [], false, false⟩]⟩]

/-- Every register of block MET. -/
def regsMET : List RegDesc := regsMET0 ++ regsMET1

/-- Registers of block BIL (R62), part 0. -/
def regsBIL0 : List RegDesc := [
  -- BIL_WCTL (04, R67)
  ⟨0xfffc, 1, 0x0, 1, 0x0, 1, 0x0,
    [⟨8, 8, .ro, 0, [], false, false⟩, ⟨6, 4, .rw, 0, [], false, false⟩, ⟨0, 0, .rw, 0, [], false, false⟩]⟩,
  -- BIL_Ln_IMPr (08, R146)
  ⟨0x0, 32, 0x100, 16, 0x8, 2, 0x4000,
    [⟨47, 0, .ro, 0, [], false, false⟩]⟩,
  -- BIL_Ln_EXPr (08, R146)
  ⟨0x80, 32, 0x100, 16, 0x8, 2, 0x4000,
    [⟨47, 0, .ro, 0, [], false, false⟩]⟩,
  -- BIL_Ln_SNUM (08, R158)
  ⟨0x2000, 32, 0x40, 1, 0x0, 1, 0x0,
    [⟨31, 0, .ro, 0, [], false, false⟩]⟩,
  -- BIL_Ln_SSTAT (08, R158)
  ⟨0x2004, 32, 0x40, 1, 0x0, 1, 0x0,
    [⟨0, 0, .ro, 0, [], false, false⟩, ⟨1, 1, .ro, 0, [], false, false⟩, ⟨15, 8, .ro, 0, [], false, false⟩]⟩,
  -- BIL_Ln_START (08, R158)
  ⟨0x2008, 32, 0x40, 1, 0x0, 1, 0x0,
    [⟨31, 0, .ro, 0, [], false, false⟩]⟩,
  -- BIL_Ln_DUR (08, R158)
  ⟨0x200c, 32, 0x40, 1, 0x0, 1, 0x0,
    [⟨31, 0, .ro, 0, [], false, false⟩]⟩,
  -- BIL_Ln_IDLE (08, R158)
  ⟨0x2030, 32, 0x40, 1, 0x0, 1, 0x0,
    [⟨31, 0, .ro, 0, [], false, false⟩]⟩,
  -- BIL_Ln_IDLETOT (08, R158)
  ⟨0x2034, 32, 0x40, 1, 0x0, 1, 0x0,
    [⟨31, 0, .ro, 0, [], false, false⟩]⟩,
  -- BIL_Ln_SOIMP (08, R158)
  ⟨0x2010, 32, 0x40, 4, 0x8, 2, 0x4000,
    [⟨47, 0, .ro, 0, [], false, false⟩]⟩,
  -- BIL_CTL (08, R171)
  ⟨0x3000, 1, 0x0, 1, 0x0, 1, 0x0,
    [⟨31, 31, .w1p, 0, [], false, false⟩, ⟨30, 30, .w1p, 0, [], false, false⟩, ⟨29, 29, .w1p, 0, [], false, false⟩,
     ⟨4, 0, .rw, 0, [], false, false⟩]⟩,
  -- BIL_STAT (08, R171)
  ⟨0x3004, 1, 0x0, 1, 0x0, 1, 0x0,
    [⟨31, 24, .ro, 0, [], false, false⟩, ⟨5, 5, .ro, 0, [], false, true⟩, ⟨4, 4, .sqc, 0, [], false, false⟩,
     ⟨3, 3, .sqc, 0, [], false, false⟩, ⟨2, 2, .ro, 0, [], false, false⟩, ⟨1, 1, .ro, 0, [], false, false⟩,
     ⟨0, 0, .ro, 0, [], false, false⟩]⟩,
  -- BIL_CALW (08, R151)
  ⟨0x8000, 920, 0x4, 1, 0x0, 1, 0x4000,
    [⟨31, 0, .rwb, 0, [], false, false⟩]⟩,
  -- BIL_NOW (08, R171)
  ⟨0x3008, 1, 0x0, 1, 0x0, 1, 0x0,
    [⟨8, 8, .ro, 0, [], false, false⟩, ⟨6, 4, .ro, 3, [], false, false⟩, ⟨3, 0, .ro, 0, [], false, false⟩]⟩,
  -- BIL_PER (08, R171)
  ⟨0x300c, 1, 0x0, 1, 0x0, 1, 0x0,
    [⟨31, 0, .ro, 0, [], false, false⟩]⟩,
  -- BIL_BCLK (08, R171)
  ⟨0x3010, 1, 0x0, 1, 0x0, 1, 0x0,
    [⟨31, 0, .ro, 0, [], false, true⟩]⟩,
  -- BIL_CADJ (08, R171)
  ⟨0x3014, 1, 0x0, 1, 0x0, 1, 0x0,
    [⟨31, 24, .ro, 0, [], false, false⟩, ⟨16, 16, .sqc, 0, [], false, false⟩, ⟨15, 0, .ro, 0, [], false, false⟩]⟩,
  -- BIL_LDG_BASE (08, R171)
  ⟨0x3020, 1, 0x0, 1, 0x0, 1, 0x0,
    [⟨31, 0, .rwb, 0, [], false, false⟩]⟩,
  -- BIL_LDG_SIZE (08, R171)
  ⟨0x3024, 1, 0x0, 1, 0x0, 1, 0x0,
    [⟨15, 0, .rwb, 0x1000, [], false, false⟩]⟩,
  -- BIL_LDG_PTR (08, R171)
  ⟨0x3028, 1, 0x0, 1, 0x0, 1, 0x0,
    [⟨31, 16, .ro, 0, [], false, false⟩, ⟨15, 0, .rw, 0, [], false, false⟩]⟩,
  -- BIL_LDG_LOST (08, R171)
  ⟨0x302c, 1, 0x0, 1, 0x0, 1, 0x0,
    [⟨31, 31, .w1p, 0, [], false, false⟩, ⟨30, 0, .ro, 0, [], false, false⟩]⟩,
  -- BIL_HSTAT (08, R171)
  ⟨0x3030, 1, 0x0, 1, 0x0, 1, 0x0,
    [⟨31, 24, .ro, 0, [], false, false⟩, ⟨23, 16, .ro, 0, [], false, true⟩, ⟨4, 4, .sqc, 0, [], false, false⟩,
     ⟨3, 3, .sqc, 0, [], false, false⟩, ⟨2, 2, .ro, 0, [], false, false⟩, ⟨1, 1, .ro, 0, [], false, false⟩,
     ⟨0, 0, .ro, 0, [], false, false⟩]⟩,
  -- BIL_HCFG (08, R171)
  ⟨0x3034, 1, 0x0, 1, 0x0, 1, 0x0,
    [⟨8, 8, .rwb, 1, [], false, false⟩, ⟨4, 0, .rwb, 1, [], false, false⟩]⟩,
  -- BIL_HTIME (08, R171)
  ⟨0x3038, 1, 0x0, 1, 0x0, 1, 0x0,
    [⟨15, 0, .ro, 0, [], false, false⟩]⟩]

/-- Registers of block BIL (R62), part 1. -/
def regsBIL1 : List RegDesc := [
  -- BIL_REGEPOCH (08, R171)
  ⟨0x303c, 1, 0x0, 1, 0x0, 1, 0x0,
    [⟨15, 0, .ro, 0, [], false, true⟩]⟩,
  -- BIL_UNSAVED (08, R171)
  ⟨0x3040, 1, 0x0, 1, 0x0, 1, 0x0,
    [⟨31, 0, .ro, 0, [], false, false⟩]⟩]

/-- Every register of block BIL. -/
def regsBIL : List RegDesc := regsBIL0 ++ regsBIL1

/-- Registers of block EFM (R62), part 0. -/
def regsEFM0 : List RegDesc := [
  -- EFM_WCTL (04, R67)
  ⟨0xfffc, 1, 0x0, 1, 0x0, 1, 0x0,
    [⟨8, 8, .ro, 0, [], false, false⟩, ⟨6, 4, .rw, 0, [], false, false⟩, ⟨0, 0, .rw, 0, [], false, false⟩]⟩,
  -- EFM_Ln_NET (10, R223)
  ⟨0x0, 32, 0x400, 1, 0x0, 1, 0x200,
    [⟨31, 24, .rwb, 1, [(1, 255)], false, false⟩, ⟨23, 16, .rwb, 0x32, [(10, 255)], false, false⟩,
     ⟨15, 0, .rwb, 0x7d0, [(200, 10000)], false, false⟩]⟩,
  -- EFM_Ln_RTEST (10, R223)
  ⟨0x4, 32, 0x400, 1, 0x0, 1, 0x200,
    [⟨31, 16, .rwb, 0x64, [(60, 300)], false, false⟩, ⟨15, 0, .rwb, 0x7d0, [(100, 10000)], false, false⟩]⟩,
  -- EFM_Ln_ESCALE (10, R223)
  ⟨0x8, 32, 0x400, 1, 0x0, 1, 0x200,
    [⟨23, 0, .rwb, 0, [], false, false⟩]⟩,
  -- EFM_Ln_CFG (10, R223)
  ⟨0xc, 32, 0x400, 1, 0x0, 1, 0x200,
    [⟨3, 0, .rwb, 0, [], false, false⟩]⟩,
  -- EFM_Ln_INJ (10, R223)
  ⟨0x10, 32, 0x400, 1, 0x0, 1, 0x0,
    [⟨31, 24, .ro, 0, [], false, false⟩, ⟨23, 22, .ro, 0, [], false, false⟩, ⟨15, 0, .ro, 0, [], false, false⟩]⟩,
  -- EFM_Ln_RISO (10, R223)
  ⟨0x20, 32, 0x400, 1, 0x0, 1, 0x0,
    [⟨31, 31, .ro, 0, [], false, false⟩, ⟨30, 30, .ro, 0, [], false, false⟩, ⟨29, 29, .ro, 0, [], false, false⟩,
     ⟨16, 0, .ro, 0, [], false, false⟩]⟩,
  -- EFM_Ln_RFAST (10, R210)
  ⟨0x24, 32, 0x400, 1, 0x0, 1, 0x0,
    [⟨31, 31, .ro, 0, [], false, false⟩, ⟨30, 30, .ro, 0, [], false, false⟩, ⟨29, 29, .ro, 0, [], false, false⟩,
     ⟨16, 0, .ro, 0, [], false, false⟩]⟩,
  -- EFM_Ln_UREF (10, R223)
  ⟨0x28, 32, 0x400, 1, 0x0, 1, 0x0,
    [⟨15, 0, .ro, 0, [], false, false⟩]⟩,
  -- EFM_Ln_VERD (10, R223)
  ⟨0x2c, 32, 0x400, 1, 0x0, 1, 0x0,
    [⟨1, 0, .ro, 0, [], false, false⟩]⟩,
  -- EFM_Ln_STAT (10, R223)
  ⟨0x30, 32, 0x400, 1, 0x0, 1, 0x0,
    [⟨31, 24, .ro, 0, [], false, false⟩, ⟨6, 6, .sqc, 0, [], false, false⟩, ⟨5, 5, .sqc, 0, [], false, false⟩,
     ⟨4, 4, .sqc, 0, [], false, false⟩, ⟨3, 3, .sqc, 0, [], false, false⟩, ⟨2, 2, .sqc, 0, [], false, false⟩,
     ⟨1, 1, .sqc, 0, [], false, false⟩, ⟨0, 0, .sqc, 0, [], false, false⟩]⟩,
  -- EFM_Ln_ST (10, R223)
  ⟨0x34, 32, 0x400, 1, 0x0, 1, 0x0,
    [⟨31, 30, .ro, 0, [], false, false⟩, ⟨15, 0, .ro, 0, [], false, false⟩]⟩,
  -- EFM_Ln_RCD (10, R223)
  ⟨0x38, 32, 0x400, 1, 0x0, 1, 0x0,
    [⟨31, 16, .ro, 0, [], false, false⟩, ⟨15, 0, .ro, 0, [], false, false⟩]⟩,
  -- EFM_Ln_XCODE (10, R223)
  ⟨0x3c, 32, 0x400, 1, 0x0, 1, 0x0,
    [⟨31, 0, .ro, 0, [], false, false⟩]⟩,
  -- EFM_Ln_CISO (10, R223)
  ⟨0x40, 32, 0x400, 1, 0x0, 1, 0x0,
    [⟨15, 0, .ro, 0, [], false, false⟩]⟩,
  -- EFM_THR (10, R223)
  ⟨0x8000, 1, 0x0, 1, 0x0, 1, 0x4000,
    [⟨31, 16, .rwb, 0x1f4, [(100, 2000)], false, false⟩, ⟨15, 0, .rwb, 0x64, [(50, 500)], false, false⟩]⟩,
  -- EFM_CFG (10, R223)
  ⟨0x8004, 1, 0x0, 1, 0x0, 1, 0x4000,
    [⟨31, 24, .rwb, 0x14, [(5, 50)], false, false⟩, ⟨23, 20, .rwb, 0xc, [(8, 15)], false, false⟩,
     ⟨19, 10, .rwb, 0x10, [(0, 500)], false, false⟩, ⟨9, 0, .rwb, 0x1f4, [(100, 1000)], false, false⟩]⟩,
  -- EFM_RCDCFG (10, R223)
  ⟨0x8008, 1, 0x0, 1, 0x0, 1, 0x4000,
    [⟨31, 24, .rwb, 0xa, [(5, 25)], false, false⟩, ⟨23, 12, .rwb, 0x1f4, [(300, 600)], false, false⟩,
     ⟨11, 0, .rwb, 0x37, [(30, 60)], false, false⟩]⟩,
  -- EFM_GRPg_RSYS (10, R223)
  ⟨0x8100, 16, 0x8, 1, 0x0, 1, 0x0,
    [⟨31, 31, .ro, 0, [], false, false⟩, ⟨30, 30, .ro, 0, [], false, false⟩, ⟨29, 29, .ro, 0, [], false, false⟩,
     ⟨16, 0, .ro, 0, [], false, false⟩]⟩,
  -- EFM_GRPg_RREM (10, R210)
  ⟨0x8104, 16, 0x8, 1, 0x0, 1, 0x0,
    [⟨31, 31, .ro, 0, [], false, false⟩, ⟨30, 30, .ro, 0, [], false, false⟩, ⟨29, 29, .ro, 0, [], false, false⟩,
     ⟨16, 0, .ro, 0, [], false, false⟩]⟩]

/-- Every register of block EFM. -/
def regsEFM : List RegDesc := regsEFM0

/-- Registers of block PIL (R62), part 0. -/
def regsPIL0 : List RegDesc := [
  -- PIL_WCTL (04, R67)
  ⟨0xfffc, 1, 0x0, 1, 0x0, 1, 0x0,
    [⟨8, 8, .ro, 0, [], false, false⟩, ⟨6, 4, .rw, 0, [], false, false⟩, ⟨0, 0, .rw, 0, [], false, false⟩]⟩,
  -- PIL_Ln_CTL (09, R202)
  ⟨0x0, 32, 0x400, 1, 0x0, 1, 0x0,
    [⟨31, 31, .rwb, 0, [], false, false⟩, ⟨30, 30, .rwb, 0, [], false, false⟩, ⟨29, 29, .rwb, 0, [], false, false⟩,
     ⟨24, 20, .rwb, 7, [], false, false⟩, ⟨14, 12, .rwb, 7, [], false, false⟩, ⟨9, 8, .rwb, 1, [], false, false⟩]⟩,
  -- PIL_Ln_ACV (09, R202)
  ⟨0x4, 32, 0x400, 1, 0x0, 1, 0x0,
    [⟨31, 16, .rwb, 0x320, [(60, 800)], false, false⟩, ⟨15, 0, .rwb, 0x8fc, [(1000, 2770)], false, false⟩]⟩,
  -- PIL_Ln_PPCFG (09, R202)
  ⟨0x8, 32, 0x400, 1, 0x0, 1, 0x0,
    [⟨7, 0, .rwb, 0x1e, [], false, false⟩]⟩,
  -- PIL_Ln_DUTY (09, R202)
  ⟨0x10, 32, 0x400, 1, 0x0, 1, 0x0,
    [⟨31, 28, .ro, 0, [], false, false⟩, ⟨27, 27, .ro, 0, [], false, false⟩, ⟨24, 24, .ro, 0, [], false, false⟩,
     ⟨23, 12, .ro, 0, [], false, false⟩, ⟨10, 0, .ro, 0, [], false, false⟩]⟩,
  -- PIL_Ln_PLAT (09, R202)
  ⟨0x14, 32, 0x400, 1, 0x0, 1, 0x0,
    [⟨31, 16, .ro, 0, [], false, false⟩, ⟨15, 0, .ro, 0, [], false, false⟩]⟩,
  -- PIL_Ln_CPST (09, R202)
  ⟨0x18, 32, 0x400, 1, 0x0, 1, 0x0,
    [⟨23, 20, .ro, 7, [], false, false⟩, ⟨19, 16, .ro, 7, [], false, false⟩, ⟨7, 7, .ro, 0, [], false, false⟩,
     ⟨3, 0, .ro, 0, [], false, false⟩]⟩,
  -- PIL_Ln_PP (09, R202)
  ⟨0x1c, 32, 0x400, 1, 0x0, 1, 0x0,
    [⟨31, 28, .ro, 0, [], false, false⟩, ⟨15, 0, .ro, 0xffff, [], false, false⟩]⟩,
  -- PIL_Ln_SESS (09, R202)
  ⟨0x20, 32, 0x400, 1, 0x0, 1, 0x0,
    [⟨31, 24, .ro, 0, [], false, false⟩, ⟨23, 23, .ro, 0, [], false, false⟩, ⟨22, 22, .ro, 0, [], false, false⟩,
     ⟨21, 21, .ro, 0, [], false, false⟩, ⟨20, 18, .ro, 0, [], false, false⟩, ⟨17, 16, .ro, 0, [], false, false⟩,
     ⟨15, 14, .ro, 0, [], false, false⟩, ⟨4, 0, .ro, 0, [], false, false⟩]⟩,
  -- PIL_Ln_EVT (09, R202)
  ⟨0x24, 32, 0x400, 1, 0x0, 1, 0x0,
    [⟨31, 24, .ro, 0, [], false, false⟩, ⟨5, 5, .sqc, 0, [], false, false⟩, ⟨4, 4, .sqc, 0, [], false, false⟩,
     ⟨3, 3, .sqc, 0, [], false, false⟩, ⟨2, 2, .sqc, 0, [], false, false⟩, ⟨1, 1, .sqc, 0, [], false, false⟩,
     ⟨0, 0, .sqc, 0, [], false, false⟩]⟩,
  -- PIL_Ln_STEPT (09, R202)
  ⟨0x28, 32, 0x400, 1, 0x0, 1, 0x0,
    [⟨31, 0, .ro, 0, [], false, false⟩]⟩,
  -- PIL_Ln_CMD (09, R202)
  ⟨0x2c, 32, 0x400, 1, 0x0, 1, 0x0,
    [⟨2, 2, .w1p, 0, [], false, false⟩, ⟨1, 1, .w1p, 0, [], false, false⟩, ⟨0, 0, .w1p, 0, [], false, false⟩]⟩,
  -- PIL_Ln_SLAC (09, R202)
  ⟨0x30, 32, 0x400, 1, 0x0, 1, 0x0,
    [⟨31, 24, .ro, 0xff, [], false, false⟩, ⟨23, 16, .ro, 0xff, [], false, false⟩, ⟨11, 8, .ro, 0, [], false, false⟩,
     ⟨7, 4, .ro, 0, [], false, false⟩, ⟨3, 3, .ro, 0, [], false, false⟩, ⟨2, 2, .ro, 0, [], false, false⟩]⟩,
  -- PIL_Ln_EVMAC (09, R202)
  ⟨0x34, 32, 0x400, 1, 0x0, 2, 0x0,
    [⟨47, 0, .ro, 0, [], false, false⟩]⟩,
  -- PIL_Ln_AUTH (09, R202)
  ⟨0x3c, 32, 0x400, 1, 0x0, 1, 0x0,
    [⟨31, 28, .ro, 0, [], false, false⟩, ⟨27, 24, .ro, 0, [], false, false⟩, ⟨17, 16, .ro, 0, [], false, false⟩,
     ⟨15, 8, .ro, 0xff, [], false, false⟩]⟩,
  -- PIL_Ln_EVMAX (09, R202)
  ⟨0x40, 32, 0x400, 9, 0x4, 1, 0x0,
    [⟨31, 0, .ro, 0, [], false, false⟩]⟩,
  -- PIL_Ln_MDM (09, R202)
  ⟨0x70, 32, 0x400, 1, 0x0, 1, 0x0,
    [⟨31, 30, .ro, 0, [], false, false⟩, ⟨29, 28, .ro, 0, [], false, false⟩, ⟨15, 8, .ro, 0, [], false, false⟩]⟩,
  -- PIL_Ln_XCNTc (09, R202)
  ⟨0x10000, 32, 0x100, 64, 0x4, 1, 0x0,
    [⟨31, 31, .w1p, 0, [], false, false⟩, ⟨15, 0, .ro, 0, [], false, false⟩]⟩,
  -- PIL_THR0 (09, R203)
  ⟨0x8000, 1, 0x0, 1, 0x0, 1, 0x4000,
    [⟨31, 16, .rwb, 0x546, [], false, false⟩, ⟨15, 0, .rwb, 0x41a, [], false, false⟩]⟩,
  -- PIL_THR1 (09, R203)
  ⟨0x8004, 1, 0x0, 1, 0x0, 1, 0x4000,
    [⟨31, 16, .rwb, 0x2ee, [], false, false⟩, ⟨15, 0, .rwb, 0x1c2, [], false, false⟩]⟩,
  -- PIL_THR2 (09, R203)
  ⟨0x8008, 1, 0x0, 1, 0x0, 1, 0x4000,
    [⟨31, 16, .rwb, 0x96, [], false, false⟩, ⟨15, 0, .rwb, 0xff6a, [], false, false⟩]⟩,
  -- PIL_THR3 (09, R203)
  ⟨0x800c, 1, 0x0, 1, 0x0, 1, 0x4000,
    [⟨31, 16, .rwb, 0xfbe6, [], false, false⟩, ⟨15, 0, .rwb, 0xfaba, [], false, false⟩]⟩,
  -- PIL_CFG (09, R203)
  ⟨0x8010, 1, 0x0, 1, 0x0, 1, 0x0,
    [⟨31, 28, .rwb, 6, [], false, false⟩, ⟨27, 24, .rwb, 0, [], false, false⟩,
     ⟨23, 16, .rwb, 0x3c, [(10, 255)], false, false⟩, ⟨15, 12, .rwb, 3, [], false, false⟩,
     ⟨9, 8, .rwb, 2, [(0, 3)], false, false⟩, ⟨7, 4, .rwb, 5, [(1, 15)], false, false⟩,
     ⟨3, 0, .rwb, 3, [(1, 15)], false, false⟩]⟩,
  -- PIL_TMR0 (09, R203)
  ⟨0x8020, 1, 0x0, 1, 0x0, 1, 0x0,
    [⟨31, 16, .rwb, 0x78, [(10, 600)], false, false⟩, ⟨15, 8, .rwb, 0x32, [(20, 50)], false, false⟩,
     ⟨7, 0, .rwb, 0x3c, [(20, 120)], false, false⟩]⟩]

/-- Registers of block PIL (R62), part 1. -/
def regsPIL1 : List RegDesc := [
  -- PIL_TMR1 (09, R203)
  ⟨0x8024, 1, 0x0, 1, 0x0, 1, 0x0,
    [⟨31, 16, .rwb, 0x7d0, [(200, 5000)], false, false⟩, ⟨15, 8, .rwb, 0x28, [(10, 60)], false, false⟩,
     ⟨7, 0, .rwb, 7, [(3, 20)], false, false⟩]⟩,
  -- PIL_TMR2 (09, R203)
  ⟨0x8028, 1, 0x0, 1, 0x0, 1, 0x0,
    [⟨31, 16, .rwb, 0x12c, [(10, 3600)], false, false⟩, ⟨15, 8, .rwb, 0xa, [(2, 30)], false, false⟩,
     ⟨7, 0, .rwb, 3, [(1, 10)], false, false⟩]⟩,
  -- PIL_RDRk (09, R203)
  ⟨0x8040, 4, 0x4, 1, 0x0, 1, 0x0,
    [⟨31, 0, .rwb, 0, [], false, false⟩]⟩]

/-- Every register of block PIL. -/
def regsPIL : List RegDesc := regsPIL0 ++ regsPIL1

/-- Registers of block ALC (R62), part 0. -/
def regsALC0 : List RegDesc := [
  -- ALC_WCTL (04, R67)
  ⟨0xfffc, 1, 0x0, 1, 0x0, 1, 0x0,
    [⟨8, 8, .ro, 0, [], false, false⟩, ⟨6, 4, .rw, 0, [], false, false⟩, ⟨0, 0, .rw, 0, [], false, false⟩]⟩,
  -- ALC_CFG (11, R250)
  ⟨0x0, 1, 0x0, 1, 0x0, 1, 0x0,
    [⟨31, 20, .rwb, 0x258, [(10, 4095)], false, false⟩, ⟨19, 16, .rwb, 3, [(1, 15)], false, false⟩,
     ⟨15, 8, .rwb, 0xa, [(5, 50)], false, false⟩]⟩,
  -- ALC_VER (11, R250)
  ⟨0x4, 1, 0x0, 1, 0x0, 1, 0x0,
    [⟨31, 16, .ro, 0, [], false, false⟩, ⟨15, 0, .ro, 0, [], false, false⟩]⟩,
  -- ALC_RISE (11, R250)
  ⟨0x8, 1, 0x0, 1, 0x0, 1, 0x4000,
    [⟨31, 0, .rwb, 0xc350, [(1000, 1000000)], false, false⟩]⟩,
  -- ALC_ZPATHj (11, R250)
  ⟨0x10, 4, 0x4, 1, 0x0, 1, 0x0,
    [⟨31, 31, .ro, 0, [], false, false⟩, ⟨15, 0, .ro, 0, [], false, false⟩]⟩,
  -- ALC_ZLIMj (11, R250)
  ⟨0x20, 4, 0x8, 1, 0x0, 1, 0x4000,
    [⟨31, 0, .rwb, 0, [], false, false⟩]⟩,
  -- ALC_ZEXPj (11, R225)
  ⟨0x24, 4, 0x8, 1, 0x0, 1, 0x4000,
    [⟨31, 0, .rwb, 0, [], false, false⟩]⟩,
  -- ALC_STAT (11, R250)
  ⟨0x40, 1, 0x0, 1, 0x0, 1, 0x0,
    [⟨31, 24, .ro, 0, [], false, false⟩, ⟨23, 23, .sqc, 0, [], false, false⟩, ⟨22, 22, .sqc, 0, [], false, false⟩,
     ⟨21, 21, .sqc, 0, [], false, false⟩, ⟨20, 20, .sqc, 0, [], false, false⟩, ⟨19, 19, .sqc, 0, [], false, false⟩,
     ⟨15, 15, .ro, 0, [], false, false⟩, ⟨14, 14, .ro, 0, [], false, false⟩, ⟨8, 0, .ro, 0, [], false, false⟩]⟩,
  -- ALC_GDIG (11, R250)
  ⟨0x44, 1, 0x0, 1, 0x0, 1, 0x0,
    [⟨31, 0, .ro, 0, [], false, false⟩]⟩,
  -- ALC_TIME (11, R250)
  ⟨0x48, 1, 0x0, 1, 0x0, 1, 0x0,
    [⟨31, 16, .ro, 0, [], false, false⟩, ⟨15, 0, .ro, 0, [], false, false⟩]⟩,
  -- ALC_PLIM (11, R250)
  ⟨0x4c, 1, 0x0, 1, 0x0, 1, 0x0,
    [⟨31, 0, .ro, 0, [], false, false⟩]⟩,
  -- ALC_PEXP (11, R241)
  ⟨0x50, 1, 0x0, 1, 0x0, 1, 0x0,
    [⟨31, 0, .ro, 0, [], false, false⟩]⟩,
  -- ALC_AUXB (11, R250)
  ⟨0x60, 1, 0x0, 1, 0x0, 1, 0x4000,
    [⟨15, 0, .rwb, 0x78, [(10, 300)], false, false⟩]⟩,
  -- ALC_HEATB (11, R250)
  ⟨0x64, 1, 0x0, 1, 0x0, 1, 0x4000,
    [⟨15, 0, .rwb, 0x2ee, [(200, 800)], false, false⟩]⟩,
  -- ALC_COST (11, R250)
  ⟨0x68, 1, 0x0, 1, 0x0, 1, 0x4000,
    [⟨31, 24, .rwb, 0xb4, [], false, false⟩, ⟨23, 16, .rwb, 0x14, [], false, false⟩,
     ⟨15, 8, .rwb, 0x2d, [], false, false⟩, ⟨7, 0, .rwb, 0x19, [], false, false⟩]⟩,
  -- ALC_SQ (11, R250)
  ⟨0x6c, 1, 0x0, 1, 0x0, 1, 0x0,
    [⟨23, 16, .ro, 0, [], false, false⟩, ⟨7, 0, .ro, 0, [], false, false⟩]⟩,
  -- ALC_SWAIT (11, R250)
  ⟨0x70, 1, 0x0, 1, 0x0, 1, 0x0,
    [⟨31, 16, .ro, 0, [], false, false⟩, ⟨15, 0, .ro, 0, [], false, false⟩]⟩,
  -- ALC_SBOOK (11, R250)
  ⟨0x74, 1, 0x0, 1, 0x0, 1, 0x0,
    [⟨31, 16, .ro, 0, [], false, false⟩, ⟨15, 0, .ro, 0, [], false, false⟩]⟩,
  -- ALC_SCTL (11, R250)
  ⟨0x78, 1, 0x0, 1, 0x0, 1, 0x0,
    [⟨9, 8, .rwb, 0, [], false, false⟩, ⟨0, 0, .w1p, 0, [], false, false⟩]⟩,
  -- ALC_Ln_GRANT (11, R250)
  ⟨0x100, 32, 0x10, 1, 0x0, 1, 0x4000,
    [⟨31, 0, .ro, 0, [], false, false⟩]⟩,
  -- ALC_Ln_NEXT (11, R245)
  ⟨0x104, 32, 0x10, 1, 0x0, 1, 0x4000,
    [⟨31, 0, .ro, 0, [], false, false⟩]⟩,
  -- ALC_Ln_INFO (11, R250)
  ⟨0x108, 32, 0x10, 1, 0x0, 1, 0x0,
    [⟨31, 30, .ro, 0, [], false, false⟩, ⟨29, 29, .ro, 0, [], false, false⟩, ⟨28, 28, .ro, 0, [], false, false⟩,
     ⟨27, 27, .ro, 0, [], false, false⟩, ⟨26, 26, .ro, 0, [], false, false⟩, ⟨25, 25, .ro, 0, [], false, false⟩,
     ⟨24, 24, .ro, 0, [], false, false⟩]⟩,
  -- ALC_Ln_WAIT (11, R250)
  ⟨0x10c, 32, 0x10, 1, 0x0, 1, 0x0,
    [⟨31, 16, .ro, 0, [], false, false⟩, ⟨15, 0, .ro, 0, [], false, false⟩]⟩,
  -- ALC_GCAPg (11, R250)
  ⟨0x300, 16, 0x4, 1, 0x0, 1, 0x0,
    [⟨31, 31, .ro, 0, [], false, false⟩, ⟨27, 0, .ro, 0, [], false, false⟩]⟩]

/-- Registers of block ALC (R62), part 1. -/
def regsALC1 : List RegDesc := [
  -- ALC_MEMm (11, R250)
  ⟨0x1000, 256, 0x8, 1, 0x0, 2, 0x0,
    [⟨63, 32, .ro, 0, [], false, false⟩, ⟨18, 16, .ro, 0, [], false, false⟩, ⟨15, 0, .ro, 0, [], false, false⟩]⟩]

/-- Every register of block ALC. -/
def regsALC : List RegDesc := regsALC0 ++ regsALC1

/-- Registers of block SWA (R62), part 0. -/
def regsSWA0 : List RegDesc := [
  -- SWA_WCTL (04, R67)
  ⟨0xfffc, 1, 0x0, 1, 0x0, 1, 0x0,
    [⟨8, 8, .ro, 0, [], false, false⟩, ⟨6, 4, .rw, 0, [], false, false⟩, ⟨0, 0, .rw, 0, [], false, false⟩]⟩,
  -- SWA_Ln_CCCFG (12, R272)
  ⟨0x0, 32, 0x400, 1, 0x0, 1, 0x200,
    [⟨31, 24, .rwb, 0x32, [(10, 150)], false, false⟩, ⟨19, 8, .rwb, 0x32, [(10, 500)], false, false⟩,
     ⟨4, 0, .rwb, 0x1e, [(5, 30)], false, false⟩]⟩,
  -- SWA_Ln_LKCFG (12, R272)
  ⟨0x4, 32, 0x400, 1, 0x0, 1, 0x200,
    [⟨31, 24, .rwb, 0x50, [(20, 140)], false, false⟩, ⟨23, 16, .rwb, 0xa, [(1, 100)], false, false⟩,
     ⟨11, 0, .rwb, 0x1f4, [(50, 2000)], false, false⟩]⟩,
  -- SWA_Ln_CCST (12, R272)
  ⟨0x10, 32, 0x400, 1, 0x0, 1, 0x0,
    [⟨31, 29, .ro, 0, [], false, false⟩, ⟨28, 28, .ro, 0, [], false, false⟩, ⟨27, 27, .ro, 0, [], false, false⟩,
     ⟨26, 26, .ro, 0, [], false, false⟩, ⟨19, 16, .ro, 0, [], false, false⟩, ⟨11, 0, .ro, 0, [], false, false⟩]⟩,
  -- SWA_Ln_LKST (12, R272)
  ⟨0x14, 32, 0x400, 1, 0x0, 1, 0x0,
    [⟨31, 30, .ro, 0, [], false, false⟩, ⟨29, 28, .ro, 0, [], false, false⟩, ⟨27, 27, .ro, 0, [], false, false⟩,
     ⟨26, 26, .ro, 0, [], false, false⟩, ⟨25, 24, .ro, 0, [], false, false⟩, ⟨23, 12, .ro, 0, [], false, false⟩,
     ⟨11, 0, .ro, 0, [], false, false⟩]⟩,
  -- SWA_Ln_CLMP (12, R272)
  ⟨0x18, 32, 0x400, 1, 0x0, 1, 0x0,
    [⟨31, 16, .ro, 0, [], false, false⟩, ⟨15, 0, .ro, 0, [], false, false⟩]⟩,
  -- SWA_Ln_STAT (12, R272)
  ⟨0x1c, 32, 0x400, 1, 0x0, 1, 0x0,
    [⟨31, 24, .ro, 0, [], false, false⟩, ⟨8, 8, .sqc, 0, [], false, false⟩, ⟨7, 7, .sqc, 0, [], false, false⟩,
     ⟨6, 6, .sqc, 0, [], false, false⟩, ⟨5, 5, .sqc, 0, [], false, false⟩, ⟨4, 4, .sqc, 0, [], false, false⟩,
     ⟨3, 3, .sqc, 0, [], false, false⟩, ⟨2, 2, .sqc, 0, [], false, false⟩, ⟨1, 1, .sqc, 0, [], false, false⟩,
     ⟨0, 0, .sqc, 0, [], false, false⟩]⟩,
  -- SWA_Ln_CMD (12, R272)
  ⟨0x20, 32, 0x400, 1, 0x0, 1, 0x0,
    [⟨1, 1, .w1p, 0, [], false, false⟩, ⟨0, 0, .w1p, 0, [], false, false⟩]⟩,
  -- SWA_CFG (12, R272)
  ⟨0x8000, 1, 0x0, 1, 0x0, 1, 0x4000,
    [⟨31, 28, .rwb, 7, [(1, 15)], false, false⟩, ⟨27, 16, .rwb, 0x3e8, [(100, 4000)], false, false⟩,
     ⟨15, 8, .rwb, 0x14, [(5, 255)], false, false⟩]⟩,
  -- SWA_CLAMPCFG (12, R272)
  ⟨0x8004, 1, 0x0, 1, 0x0, 1, 0x4000,
    [⟨31, 24, .rwb, 0xa, [(1, 60)], false, false⟩, ⟨15, 0, .rwb, 0x3e8, [(100, 5000)], false, false⟩]⟩,
  -- SWA_Gk_CFG (12, R272)
  ⟨0x8100, 32, 0x8, 1, 0x0, 1, 0x4000,
    [⟨31, 31, .rwb, 0, [], false, false⟩, ⟨30, 29, .rwb, 0, [], false, false⟩, ⟨28, 28, .rwb, 0, [], false, false⟩,
     ⟨27, 27, .rwb, 0, [], false, false⟩, ⟨20, 16, .rwb, 0, [], false, false⟩, ⟨15, 8, .rwb, 2, [], false, false⟩,
     ⟨7, 0, .rwb, 0xa, [(10, 250)], false, false⟩]⟩,
  -- SWA_Gk_INR (12, R272)
  ⟨0x8104, 32, 0x8, 1, 0x0, 1, 0x4000,
    [⟨31, 16, .rwb, 0, [(0, 2000)], false, false⟩, ⟨8, 0, .rwb, 0, [], false, false⟩]⟩,
  -- SWA_Gk_CTL (12, R272)
  ⟨0x8300, 32, 0x4, 1, 0x0, 1, 0x0,
    [⟨2, 2, .w1p, 0, [], false, false⟩, ⟨1, 1, .w1p, 0, [], false, false⟩, ⟨0, 0, .w1p, 0, [], false, false⟩]⟩,
  -- SWA_Gk_ST (12, R272)
  ⟨0x8380, 32, 0x4, 1, 0x0, 1, 0x0,
    [⟨31, 24, .ro, 0, [], false, false⟩, ⟨23, 21, .ro, 0, [], false, false⟩, ⟨19, 19, .sqc, 0, [], false, false⟩,
     ⟨18, 18, .sqc, 0, [], false, false⟩, ⟨17, 17, .sqc, 0, [], false, false⟩, ⟨16, 16, .sqc, 0, [], false, false⟩,
     ⟨15, 12, .ro, 0, [], false, false⟩, ⟨11, 0, .ro, 0, [], false, false⟩]⟩,
  -- SWA_Gk_BKT (12, R272)
  ⟨0x8400, 32, 0x4, 1, 0x0, 1, 0x0,
    [⟨15, 0, .ro, 0, [], false, false⟩]⟩,
  -- SWA_SUPPLY (12, R272)
  ⟨0x8500, 1, 0x0, 1, 0x0, 1, 0x0,
    [⟨31, 24, .ro, 0, [], false, false⟩, ⟨23, 23, .sqc, 0, [], false, false⟩, ⟨22, 22, .sqc, 0, [], false, false⟩,
     ⟨21, 21, .sqc, 0, [], false, false⟩, ⟨20, 20, .sqc, 0, [], false, false⟩, ⟨19, 19, .ro, 0, [], false, false⟩,
     ⟨18, 18, .ro, 0, [], false, false⟩, ⟨17, 17, .ro, 0, [], false, false⟩, ⟨16, 16, .ro, 0, [], false, false⟩,
     ⟨15, 0, .ro, 0, [], false, false⟩]⟩,
  -- SWA_DISS (12, R272)
  ⟨0x8504, 1, 0x0, 1, 0x0, 1, 0x0,
    [⟨31, 16, .ro, 0, [], false, false⟩, ⟨15, 0, .ro, 0, [], false, false⟩]⟩,
  -- SWA_PBASE (12, R272)
  ⟨0x8508, 1, 0x0, 1, 0x0, 1, 0x4000,
    [⟨15, 0, .rwb, 0x78, [(50, 400)], false, false⟩]⟩,
  -- SWA_THERM (12, R272)
  ⟨0x850c, 1, 0x0, 1, 0x0, 1, 0x0,
    [⟨23, 16, .ro, 0, [], false, false⟩, ⟨7, 0, .rwb, 0x78, [(100, 125)], false, false⟩]⟩]

/-- Every register of block SWA. -/
def regsSWA : List RegDesc := regsSWA0

/-- Registers of block SAF (R62), part 0. -/
def regsSAF0 : List RegDesc := [
  -- SAF_WCTL (04, R67)
  ⟨0xfffc, 1, 0x0, 1, 0x0, 1, 0x0,
    [⟨8, 8, .ro, 0, [], false, false⟩, ⟨6, 4, .rw, 0, [], false, false⟩, ⟨0, 0, .rw, 0, [], false, false⟩]⟩,
  -- SAF_STAT (13, R301)
  ⟨0x0, 1, 0x0, 1, 0x0, 1, 0x0,
    [⟨9, 8, .ro, 0, [], false, false⟩, ⟨7, 7, .ro, 0, [], false, false⟩, ⟨6, 6, .ro, 0, [], false, false⟩,
     ⟨5, 5, .ro, 0, [], false, false⟩, ⟨4, 4, .ro, 0, [], false, false⟩, ⟨3, 3, .ro, 0, [], false, false⟩,
     ⟨2, 2, .ro, 0, [], false, false⟩, ⟨1, 1, .ro, 0, [], false, false⟩, ⟨0, 0, .ro, 0, [], false, false⟩]⟩,
  -- SAF_EVT (13, R301)
  ⟨0x4, 1, 0x0, 1, 0x0, 1, 0x0,
    [⟨31, 24, .ro, 0, [], false, false⟩, ⟨7, 7, .sqc, 0, [], false, false⟩, ⟨6, 6, .sqc, 0, [], false, false⟩,
     ⟨5, 5, .sqc, 0, [], false, false⟩, ⟨4, 4, .sqc, 0, [], false, false⟩, ⟨3, 3, .sqc, 0, [], false, false⟩,
     ⟨2, 2, .sqc, 0, [], false, false⟩, ⟨1, 1, .sqc, 0, [], false, false⟩, ⟨0, 0, .sqc, 0, [], false, false⟩]⟩,
  -- SAF_CMD (13, R301)
  ⟨0x8, 1, 0x0, 1, 0x0, 1, 0x0,
    [⟨0, 0, .w1p, 0, [], false, false⟩]⟩,
  -- SAF_ACON (13, R301)
  ⟨0x10, 7, 0x4, 1, 0x0, 1, 0x0,
    [⟨31, 0, .ro, 0, [], false, false⟩]⟩,
  -- SAF_GUARD (13, R301)
  ⟨0x30, 1, 0x0, 1, 0x0, 1, 0x0,
    [⟨31, 24, .ro, 0, [], false, false⟩, ⟨23, 16, .ro, 0, [], false, false⟩, ⟨15, 8, .ro, 0, [], false, false⟩,
     ⟨7, 0, .ro, 0, [], false, false⟩]⟩,
  -- SAF_CMP (13, R301)
  ⟨0x34, 1, 0x0, 1, 0x0, 1, 0x0,
    [⟨31, 31, .w1p, 0, [], false, false⟩, ⟨30, 16, .ro, 0, [], false, false⟩, ⟨15, 0, .ro, 0, [], false, false⟩]⟩,
  -- SAF_CFGCRC (13, R301)
  ⟨0x38, 1, 0x0, 1, 0x0, 1, 0x0,
    [⟨31, 0, .ro, 0, [], false, false⟩]⟩,
  -- SAF_CFG (13, R301)
  ⟨0x8000, 1, 0x0, 1, 0x0, 1, 0x4000,
    [⟨29, 29, .rwb, 0, [], false, false⟩, ⟨28, 28, .rwb, 1, [], false, false⟩,
     ⟨27, 20, .rwb, 0x64, [(20, 250)], false, false⟩, ⟨19, 12, .rwb, 0x14, [(0, 200)], false, false⟩,
     ⟨11, 6, .rwb, 0x32, [(10, 63)], false, false⟩, ⟨5, 0, .rwb, 0x14, [(5, 63)], false, false⟩]⟩,
  -- SAF_GDCFG (13, R301)
  ⟨0x8004, 1, 0x0, 1, 0x0, 1, 0x4000,
    [⟨23, 0, .rwb, 0, [], false, false⟩]⟩,
  -- SAF_GRPMAP (13, R301)
  ⟨0x8008, 1, 0x0, 1, 0x0, 1, 0x4000,
    [⟨16, 16, .rwb, 0, [], false, false⟩, ⟨15, 0, .rwb, 0, [], false, false⟩]⟩,
  -- SAF_ID (13, R301)
  ⟨0x800c, 1, 0x0, 1, 0x0, 1, 0x4000,
    [⟨31, 16, .rwb, 0, [], false, false⟩, ⟨15, 0, .ro, 0, [], false, false⟩]⟩,
  -- SAF_CONNk_CFG (13, R301)
  ⟨0x8100, 16, 0x10, 1, 0x0, 1, 0x4000,
    [⟨31, 31, .rwb, 0, [], false, false⟩, ⟨30, 30, .rwb, 1, [], false, false⟩, ⟨26, 24, .rwb, 0, [], false, false⟩,
     ⟨15, 0, .rwb, 0x14, [(5, 10000)], false, false⟩]⟩,
  -- SAF_CONNk_PEER (13, R301)
  ⟨0x8104, 16, 0x10, 1, 0x0, 1, 0x4000,
    [⟨31, 0, .rwb, 0, [], false, false⟩]⟩,
  -- SAF_CONNk_ST (13, R301)
  ⟨0x8108, 16, 0x10, 1, 0x0, 1, 0x0,
    [⟨31, 30, .ro, 0, [], false, false⟩, ⟨23, 16, .ro, 0, [], false, false⟩, ⟨15, 0, .ro, 0, [], false, false⟩]⟩,
  -- SAF_CONNk_CNT (13, R301)
  ⟨0x810c, 16, 0x10, 1, 0x0, 1, 0x0,
    [⟨31, 31, .w1p, 0, [], false, false⟩, ⟨23, 16, .ro, 0, [], false, false⟩, ⟨15, 8, .ro, 0, [], false, false⟩,
     ⟨7, 0, .ro, 0, [], false, false⟩]⟩]

/-- Every register of block SAF. -/
def regsSAF : List RegDesc := regsSAF0

/-- Registers of block KEY (R62), part 0. -/
def regsKEY0 : List RegDesc := [
  -- KEY_WCTL (04, R67)
  ⟨0xfffc, 1, 0x0, 1, 0x0, 1, 0x0,
    [⟨8, 8, .ro, 0, [], false, false⟩, ⟨6, 4, .rw, 0, [], false, false⟩, ⟨0, 0, .rw, 0, [], false, false⟩]⟩,
  -- KEY_STAT (17, R371)
  ⟨0x0, 1, 0x0, 1, 0x0, 1, 0x0,
    [⟨31, 24, .ro, 0, [], false, false⟩, ⟨16, 16, .sqc, 0, [], false, false⟩, ⟨8, 8, .ro, 0, [], false, false⟩,
     ⟨7, 7, .ro, 0, [], false, true⟩, ⟨2, 0, .ro, 0, [], false, false⟩]⟩,
  -- KEY_CMD (17, R371)
  ⟨0x4, 1, 0x0, 1, 0x0, 1, 0x0,
    [⟨31, 31, .w1p, 0, [], false, false⟩, ⟨26, 24, .rw, 0, [], false, false⟩, ⟨23, 16, .rw, 0, [], false, false⟩,
     ⟨15, 14, .rw, 0, [], false, false⟩, ⟨13, 11, .rw, 0, [(1, 7)], false, false⟩,
     ⟨6, 0, .rw, 0, [(0, 63), (127, 127)], false, false⟩]⟩,
  -- KEY_ADDR (17, R371)
  ⟨0x8, 1, 0x0, 1, 0x0, 1, 0x0,
    [⟨31, 0, .rw, 0, [], false, false⟩]⟩,
  -- KEY_RESEAL (17, R371)
  ⟨0xc, 1, 0x0, 1, 0x0, 1, 0x0,
    [⟨31, 24, .ro, 0, [], false, false⟩, ⟨9, 9, .sqc, 0, [], false, false⟩, ⟨8, 8, .ro, 0, [], false, false⟩,
     ⟨7, 7, .ro, 0, [], false, false⟩, ⟨6, 0, .ro, 0, [], false, false⟩]⟩,
  -- KEY_ZST (17, R371)
  ⟨0x10, 1, 0x0, 1, 0x0, 1, 0x0,
    [⟨31, 24, .ro, 0, [], false, false⟩, ⟨23, 23, .sqc, 0, [], false, false⟩, ⟨22, 22, .w1p, 0, [], false, false⟩,
     ⟨15, 0, .ro, 0, [], false, true⟩]⟩,
  -- KEY_SEL (17, R371)
  ⟨0x18, 1, 0x0, 1, 0x0, 4, 0x0,
    [⟨127, 64, .ro, 0, [], false, false⟩, ⟨63, 0, .ro, 0, [], false, true⟩]⟩,
  -- KEY_ROOTID (17, R371)
  ⟨0x28, 1, 0x0, 1, 0x0, 1, 0x0,
    [⟨31, 0, .ro, 0, [], false, true⟩]⟩,
  -- KEY_KGEN (17, R371)
  ⟨0x2c, 1, 0x0, 1, 0x0, 1, 0x0,
    [⟨15, 0, .ro, 1, [], false, true⟩]⟩,
  -- KEY_MEASj (17, R371)
  ⟨0x100, 3, 0x20, 1, 0x0, 8, 0x0,
    [⟨255, 0, .ro, 0, [], false, false⟩]⟩,
  -- KEY_NMEASj (17, R368)
  ⟨0x180, 3, 0x20, 1, 0x0, 8, 0x0,
    [⟨255, 0, .ro, 0, [], false, false⟩]⟩,
  -- KEY_PUB (17, R371)
  ⟨0x200, 1, 0x0, 1, 0x0, 34, 0x0,
    [⟨1071, 1056, .ro, 0, [], false, false⟩, ⟨1055, 0, .ro, 0, [], false, false⟩]⟩,
  -- KEY_SLOTn (17, R371)
  ⟨0x400, 64, 0x4, 1, 0x0, 1, 0x0,
    [⟨31, 30, .ro, 0, [], false, false⟩, ⟨29, 27, .ro, 0, [], false, false⟩, ⟨26, 25, .ro, 0, [], false, false⟩,
     ⟨23, 16, .ro, 0, [], false, false⟩, ⟨15, 0, .ro, 0, [], false, false⟩]⟩]

/-- Every register of block KEY. -/
def regsKEY : List RegDesc := regsKEY0

/-- Registers of block UPD (R62), part 0. -/
def regsUPD0 : List RegDesc := [
  -- UPD_WCTL (04, R67)
  ⟨0xfffc, 1, 0x0, 1, 0x0, 1, 0x0,
    [⟨8, 8, .ro, 0, [], false, false⟩, ⟨6, 4, .rw, 0, [], false, false⟩, ⟨0, 0, .rw, 0, [], false, false⟩]⟩,
  -- UPD_STAT (18, R383)
  ⟨0x0, 1, 0x0, 1, 0x0, 1, 0x0,
    [⟨31, 24, .ro, 0, [], false, false⟩, ⟨23, 23, .sqc, 0, [], false, false⟩, ⟨22, 22, .sqc, 0, [], false, false⟩,
     ⟨21, 21, .sqc, 0, [], false, false⟩, ⟨20, 20, .ro, 0, [], false, false⟩, ⟨19, 17, .ro, 0, [], false, false⟩,
     ⟨16, 0, .ro, 0, [], false, false⟩]⟩,
  -- UPD_BANK (18, R383)
  ⟨0x4, 1, 0x0, 1, 0x0, 1, 0x0,
    [⟨7, 5, .ro, 0, [], false, false⟩, ⟨4, 3, .ro, 0, [], false, true⟩, ⟨0, 0, .ro, 0, [], false, true⟩]⟩,
  -- UPD_DLV (18, R383)
  ⟨0x8, 1, 0x0, 1, 0x0, 1, 0x0,
    [⟨31, 16, .rw, 0, [], false, false⟩, ⟨15, 0, .rw, 0, [], false, false⟩]⟩,
  -- UPD_CTL (18, R383)
  ⟨0xc, 1, 0x0, 1, 0x0, 1, 0x0,
    [⟨4, 4, .w1p, 0, [], false, false⟩, ⟨3, 3, .w1p, 0, [], false, false⟩, ⟨2, 2, .w1p, 0, [], false, false⟩,
     ⟨1, 1, .w1p, 0, [], false, false⟩, ⟨0, 0, .w1p, 0, [], false, false⟩]⟩,
  -- UPD_REFUSE (18, R383)
  ⟨0x10, 1, 0x0, 1, 0x0, 1, 0x0,
    [⟨5, 0, .ro, 0, [], false, false⟩]⟩,
  -- UPD_CFG (18, R383)
  ⟨0x14, 1, 0x0, 1, 0x0, 1, 0x4000,
    [⟨31, 20, .rwb, 0x12c, [(30, 3600)], false, false⟩, ⟨19, 8, .rwb, 0x3c, [(10, 3600)], false, false⟩,
     ⟨4, 0, .rwb, 8, [(0, 16)], false, false⟩]⟩,
  -- UPD_LOCK (18, R383)
  ⟨0x18, 1, 0x0, 1, 0x0, 1, 0x4000,
    [⟨0, 0, .rwb, 0, [], false, true⟩]⟩,
  -- UPD_VER (18, R383)
  ⟨0x20, 1, 0x0, 1, 0x0, 2, 0x0,
    [⟨63, 32, .ro, 0, [], false, true⟩, ⟨31, 0, .ro, 0, [], false, false⟩]⟩,
  -- UPD_CNT (18, R383)
  ⟨0x28, 1, 0x0, 1, 0x0, 1, 0x0,
    [⟨31, 31, .w1p, 0, [], false, false⟩, ⟨30, 16, .ro, 0, [], false, false⟩, ⟨15, 0, .ro, 0, [], false, false⟩]⟩,
  -- UPD_BLK (18, R383)
  ⟨0x800, 1, 0x0, 1, 0x0, 130, 0x0,
    [⟨4159, 0, .rw, 0, [], false, false⟩]⟩,
  -- UPD_BMAPw (18, R383)
  ⟨0x1000, 2048, 0x4, 1, 0x0, 1, 0x0,
    [⟨31, 0, .ro, 0, [], false, false⟩]⟩]

/-- Every register of block UPD. -/
def regsUPD : List RegDesc := regsUPD0

/-- Registers of block SBU (R62), part 0. -/
def regsSBU0 : List RegDesc := [
  -- SBU_WCTL (04, R67)
  ⟨0xfffc, 1, 0x0, 1, 0x0, 1, 0x0,
    [⟨8, 8, .ro, 0, [], false, false⟩, ⟨6, 4, .rw, 0, [], false, false⟩, ⟨0, 0, .rw, 0, [], false, false⟩]⟩,
  -- SBU_CFG (15, R336)
  ⟨0x0, 1, 0x0, 1, 0x0, 1, 0x0,
    [⟨31, 31, .rwb, 0, [], false, false⟩, ⟨30, 30, .rwb, 0, [], false, false⟩, ⟨29, 29, .ro, 0, [], false, false⟩,
     ⟨23, 20, .rwb, 8, [(2, 15)], false, false⟩, ⟨19, 16, .rwb, 0xf, [], false, false⟩]⟩,
  -- SBU_STAT (15, R336)
  ⟨0x4, 1, 0x0, 1, 0x0, 1, 0x0,
    [⟨31, 24, .ro, 0, [], false, false⟩, ⟨23, 23, .sqc, 0, [], false, false⟩, ⟨22, 22, .sqc, 0, [], false, false⟩,
     ⟨21, 21, .sqc, 0, [], false, false⟩, ⟨20, 20, .sqc, 0, [], false, false⟩, ⟨19, 19, .sqc, 0, [], false, false⟩,
     ⟨9, 8, .ro, 0, [], false, false⟩, ⟨7, 7, .ro, 0, [], false, false⟩, ⟨6, 5, .ro, 0, [], false, false⟩]⟩,
  -- SBU_MASTER (15, R336)
  ⟨0x8, 1, 0x0, 1, 0x0, 1, 0x0,
    [⟨31, 16, .ro, 0, [], false, false⟩, ⟨15, 0, .ro, 0, [], false, false⟩]⟩,
  -- SBU_BMAP (15, R336)
  ⟨0xc, 1, 0x0, 1, 0x0, 1, 0x0,
    [⟨25, 24, .ro, 0, [], false, false⟩, ⟨23, 0, .ro, 0xffffff, [], false, false⟩]⟩,
  -- SBU_ROUND (15, R336)
  ⟨0x10, 1, 0x0, 1, 0x0, 1, 0x0,
    [⟨31, 16, .ro, 0, [], false, false⟩, ⟨15, 0, .ro, 0, [], false, false⟩]⟩,
  -- SBU_CNT (15, R336)
  ⟨0x14, 1, 0x0, 1, 0x0, 1, 0x0,
    [⟨31, 16, .ro, 0, [], false, false⟩, ⟨15, 0, .ro, 0, [], false, false⟩]⟩,
  -- SBU_CNT2 (15, R336)
  ⟨0x18, 1, 0x0, 1, 0x0, 1, 0x0,
    [⟨31, 16, .ro, 0, [], false, false⟩, ⟨15, 0, .ro, 0, [], false, false⟩]⟩,
  -- SBU_FINJ (15, R336)
  ⟨0x40, 1, 0x0, 1, 0x0, 1, 0x0,
    [⟨3, 3, .rw, 0, [], false, false⟩, ⟨2, 1, .rw, 0, [], false, false⟩, ⟨0, 0, .rw, 0, [], false, false⟩]⟩,
  -- SBU_FIRATE (15, R336)
  ⟨0x44, 1, 0x0, 1, 0x0, 1, 0x0,
    [⟨29, 20, .rw, 0, [], false, false⟩, ⟨19, 10, .rw, 0, [], false, false⟩, ⟨9, 0, .rw, 0, [], false, false⟩]⟩,
  -- SBU_FICNT (15, R336)
  ⟨0x48, 1, 0x0, 1, 0x0, 1, 0x0,
    [⟨31, 31, .w1p, 0, [], false, false⟩, ⟨23, 16, .ro, 0, [], false, false⟩, ⟨15, 8, .ro, 0, [], false, false⟩,
     ⟨7, 0, .ro, 0, [], false, false⟩]⟩,
  -- SBU_NBRm (15, R336)
  ⟨0x100, 64, 0x10, 1, 0x0, 4, 0x0,
    [⟨127, 112, .ro, 0, [], false, false⟩, ⟨111, 104, .ro, 0, [], false, false⟩, ⟨103, 96, .ro, 0, [], false, false⟩,
     ⟨89, 88, .ro, 0, [], false, false⟩, ⟨87, 64, .ro, 0, [], false, false⟩, ⟨41, 40, .ro, 0, [], false, false⟩,
     ⟨39, 32, .ro, 0, [], false, false⟩, ⟨31, 31, .ro, 0, [], false, false⟩, ⟨30, 30, .ro, 0, [], false, false⟩,
     ⟨29, 29, .ro, 0, [], false, false⟩, ⟨15, 0, .ro, 0, [], false, false⟩]⟩]

/-- Every register of block SBU. -/
def regsSBU : List RegDesc := regsSBU0

/-- Registers of block LNK (R62), part 0. -/
def regsLNK0 : List RegDesc := [
  -- LNK_WCTL (04, R67)
  ⟨0xfffc, 1, 0x0, 1, 0x0, 1, 0x0,
    [⟨8, 8, .ro, 0, [], false, false⟩, ⟨6, 4, .rw, 0, [], false, false⟩, ⟨0, 0, .rw, 0, [], false, false⟩]⟩,
  -- LNK_ETHp_CFG (16, R355)
  ⟨0x0, 2, 0x10, 1, 0x0, 1, 0x0,
    [⟨31, 31, .rwb, 0, [], false, false⟩, ⟨30, 30, .rwb, 0, [], false, false⟩, ⟨29, 29, .rwb, 0, [], false, false⟩]⟩,
  -- LNK_ETHp_STAT (16, R355)
  ⟨0x4, 2, 0x10, 1, 0x0, 1, 0x0,
    [⟨31, 24, .ro, 0, [], false, false⟩, ⟨23, 23, .sqc, 0, [], false, false⟩, ⟨17, 17, .ro, 0, [], false, false⟩,
     ⟨16, 16, .ro, 0, [], false, false⟩, ⟨15, 0, .ro, 0, [], false, false⟩]⟩,
  -- LNK_PTP (16, R355)
  ⟨0x20, 1, 0x0, 1, 0x0, 1, 0x0,
    [⟨15, 8, .rwb, 0, [], false, false⟩, ⟨5, 4, .rwb, 0, [], false, false⟩, ⟨3, 0, .rwb, 3, [(0, 7)], false, false⟩]⟩,
  -- LNK_JLk_ST (16, R355)
  ⟨0x40, 4, 0x4, 1, 0x0, 1, 0x0,
    [⟨31, 24, .ro, 0, [], false, false⟩, ⟨23, 23, .sqc, 0, [], false, false⟩, ⟨22, 22, .sqc, 0, [], false, false⟩,
     ⟨21, 21, .ro, 0, [], false, false⟩, ⟨20, 16, .ro, 0, [], false, false⟩, ⟨15, 0, .ro, 0, [], false, false⟩]⟩,
  -- LNK_CANp_CFG (16, R355)
  ⟨0x80, 4, 0x10, 1, 0x0, 1, 0x0,
    [⟨31, 31, .rwb, 0, [], false, false⟩, ⟨1, 1, .rwb, 1, [], false, false⟩, ⟨0, 0, .rwb, 0, [], false, false⟩]⟩,
  -- LNK_CANp_ST (16, R355)
  ⟨0x84, 4, 0x10, 1, 0x0, 1, 0x0,
    [⟨31, 24, .ro, 0, [], false, false⟩, ⟨23, 23, .sqc, 0, [], false, false⟩, ⟨22, 22, .sqc, 0, [], false, false⟩,
     ⟨15, 8, .ro, 0, [], false, false⟩, ⟨7, 0, .ro, 0, [], false, false⟩]⟩,
  -- LNK_MODm (16, R355)
  ⟨0x400, 128, 0x8, 1, 0x0, 2, 0x0,
    [⟨63, 48, .ro, 0, [], false, false⟩, ⟨47, 40, .ro, 0xff, [], false, false⟩,
     ⟨39, 32, .ro, 0xff, [], false, false⟩, ⟨31, 31, .ro, 0, [], false, false⟩, ⟨30, 29, .ro, 0, [], false, false⟩,
     ⟨28, 24, .ro, 0, [], false, false⟩, ⟨23, 20, .ro, 0, [], false, false⟩, ⟨19, 0, .ro, 0, [], false, false⟩]⟩,
  -- LNK_HP_ST (16, R355)
  ⟨0xc0, 1, 0x0, 1, 0x0, 1, 0x0,
    [⟨31, 31, .w1p, 0, [], false, false⟩, ⟨30, 16, .ro, 0, [], false, false⟩, ⟨15, 0, .ro, 0, [], false, false⟩]⟩,
  -- LNK_FINJ (16, R355)
  ⟨0xe0, 1, 0x0, 1, 0x0, 1, 0x0,
    [⟨7, 4, .rw, 0, [], false, false⟩, ⟨3, 3, .rw, 0, [], false, false⟩, ⟨2, 1, .rw, 0, [], false, false⟩,
     ⟨0, 0, .rw, 0, [], false, false⟩]⟩,
  -- LNK_FIRATE (16, R354)
  ⟨0xe4, 1, 0x0, 1, 0x0, 1, 0x0,
    [⟨29, 20, .rw, 0, [], false, false⟩, ⟨19, 10, .rw, 0, [], false, false⟩, ⟨9, 0, .rw, 0, [], false, false⟩]⟩,
  -- LNK_FICNT (16, R354)
  ⟨0xe8, 1, 0x0, 1, 0x0, 1, 0x0,
    [⟨31, 31, .w1p, 0, [], false, false⟩, ⟨23, 16, .ro, 0, [], false, false⟩, ⟨15, 8, .ro, 0, [], false, false⟩,
     ⟨7, 0, .ro, 0, [], false, false⟩]⟩]

/-- Every register of block LNK. -/
def regsLNK : List RegDesc := regsLNK0

/-- Registers of block NFC (R62), part 0. -/
def regsNFC0 : List RegDesc := [
  -- NFC_WCTL (04, R67)
  ⟨0xfffc, 1, 0x0, 1, 0x0, 1, 0x0,
    [⟨8, 8, .ro, 0, [], false, false⟩, ⟨6, 4, .rw, 0, [], false, false⟩, ⟨0, 0, .rw, 0, [], false, false⟩]⟩,
  -- NFC_RDk_CFG (20, R408)
  ⟨0x0, 4, 0x20, 1, 0x0, 1, 0x0,
    [⟨31, 31, .rwb, 0, [], false, false⟩, ⟨30, 29, .rwb, 3, [], false, false⟩,
     ⟨28, 23, .rwb, 0x14, [(10, 50)], false, false⟩, ⟨22, 15, .rwb, 0x14, [(5, 255)], false, false⟩,
     ⟨14, 8, .rwb, 0x1e, [(10, 100)], false, false⟩, ⟨7, 0, .rwb, 0x14, [(5, 100)], false, false⟩]⟩,
  -- NFC_RDk_CTL (20, R408)
  ⟨0x4, 4, 0x20, 1, 0x0, 1, 0x0,
    [⟨1, 1, .w1p, 0, [], false, false⟩, ⟨0, 0, .w1p, 0, [], false, false⟩]⟩,
  -- NFC_RDk_ST (20, R408)
  ⟨0x8, 4, 0x20, 1, 0x0, 1, 0x0,
    [⟨31, 24, .ro, 0, [], false, false⟩, ⟨23, 23, .sqc, 0, [], false, false⟩, ⟨22, 22, .sqc, 0, [], false, false⟩,
     ⟨21, 19, .ro, 0, [], false, false⟩, ⟨18, 18, .ro, 0, [], false, false⟩, ⟨17, 17, .ro, 0, [], false, false⟩,
     ⟨15, 0, .ro, 0, [], false, false⟩]⟩,
  -- NFC_RDk_UID (20, R408)
  ⟨0xc, 4, 0x20, 1, 0x0, 3, 0x0,
    [⟨83, 80, .ro, 0, [], false, false⟩, ⟨79, 0, .ro, 0, [], false, false⟩]⟩,
  -- NFC_RDk_CNT (20, R408)
  ⟨0x18, 4, 0x20, 1, 0x0, 1, 0x0,
    [⟨31, 31, .w1p, 0, [], false, false⟩, ⟨30, 16, .ro, 0, [], false, false⟩, ⟨15, 0, .ro, 0, [], false, false⟩]⟩,
  -- NFC_TAG_CFG (20, R408)
  ⟨0x100, 1, 0x0, 1, 0x0, 1, 0x4000,
    [⟨1, 1, .rwb, 0, [], false, true⟩, ⟨0, 0, .rwb, 0, [], false, true⟩]⟩,
  -- NFC_TAG_ST (20, R408)
  ⟨0x104, 1, 0x0, 1, 0x0, 1, 0x0,
    [⟨31, 24, .ro, 0, [], false, false⟩, ⟨23, 23, .sqc, 0, [], false, false⟩, ⟨22, 22, .ro, 0, [], false, true⟩,
     ⟨21, 21, .ro, 0, [], false, false⟩, ⟨15, 0, .ro, 0, [], false, true⟩]⟩,
  -- NFC_TAG_LEN (20, R408)
  ⟨0x108, 1, 0x0, 1, 0x0, 1, 0x0,
    [⟨18, 0, .ro, 0, [], false, true⟩]⟩]

/-- Every register of block NFC. -/
def regsNFC : List RegDesc := regsNFC0

/-- Registers of block DPY (R62), part 0. -/
def regsDPY0 : List RegDesc := [
  -- DPY_WCTL (04, R67)
  ⟨0xfffc, 1, 0x0, 1, 0x0, 1, 0x0,
    [⟨8, 8, .ro, 0, [], false, false⟩, ⟨6, 4, .rw, 0, [], false, false⟩, ⟨0, 0, .rw, 0, [], false, false⟩]⟩,
  -- DPY_CFG (21, R416)
  ⟨0x0, 1, 0x0, 1, 0x0, 1, 0x4000,
    [⟨9, 8, .rwb, 0, [], false, false⟩, ⟨7, 0, .rwb, 0xa, [(1, 255)], false, false⟩]⟩,
  -- DPY_CTL (21, R416)
  ⟨0x4, 1, 0x0, 1, 0x0, 1, 0x0,
    [⟨1, 1, .w1p, 0, [], false, false⟩, ⟨0, 0, .w1p, 0, [], false, false⟩]⟩,
  -- DPY_STAT (21, R416)
  ⟨0x8, 1, 0x0, 1, 0x0, 1, 0x0,
    [⟨31, 24, .ro, 0, [], false, false⟩, ⟨23, 23, .sqc, 0, [], false, false⟩, ⟨22, 22, .sqc, 0, [], false, false⟩,
     ⟨21, 19, .ro, 0, [], false, false⟩, ⟨15, 0, .ro, 0, [], false, false⟩]⟩,
  -- DPY_PANEL (21, R416)
  ⟨0x10, 1, 0x0, 1, 0x0, 1, 0x4000,
    [⟨31, 22, .rwb, 0x140, [(16, 800)], false, false⟩, ⟨21, 12, .rwb, 0xf0, [(16, 800)], false, false⟩,
     ⟨7, 0, .rwb, 0x3c, [], false, false⟩]⟩,
  -- DPY_FBASE (21, R416)
  ⟨0x14, 1, 0x0, 1, 0x0, 1, 0x0,
    [⟨31, 0, .rwb, 0, [], false, false⟩]⟩,
  -- DPY_IREFc (21, R416)
  ⟨0x20, 3, 0x4, 1, 0x0, 1, 0x4000,
    [⟨31, 16, .rwb, 0, [(-5000, 5000)], true, false⟩, ⟨10, 0, .rwb, 0xc8, [(10, 1000)], false, false⟩]⟩,
  -- DPY_TCOMP (21, R416)
  ⟨0x30, 1, 0x0, 1, 0x0, 1, 0x4000,
    [⟨23, 16, .rwb, 0xff, [(0, 63), (255, 255)], false, false⟩, ⟨15, 0, .ro, 0x190, [], false, false⟩]⟩,
  -- DPY_LCD (21, R416)
  ⟨0x40, 1, 0x0, 1, 0x0, 1, 0x4000,
    [⟨31, 31, .rwb, 0, [], false, false⟩, ⟨23, 16, .rwb, 0xff, [(-30, 10)], true, false⟩,
     ⟨8, 0, .rwb, 0x14a, [(250, 500)], false, false⟩]⟩,
  -- DPY_VLCD (21, R416)
  ⟨0x44, 1, 0x0, 1, 0x0, 1, 0x0,
    [⟨8, 0, .ro, 0, [], false, false⟩]⟩,
  -- DPY_SEGDc (21, R416)
  ⟨0x80, 4, 0x8, 1, 0x0, 2, 0x0,
    [⟨39, 0, .rwb, 0, [], false, false⟩]⟩,
  -- DPY_GAMc_i (21, R416)
  ⟨0x1000, 3, 0x400, 256, 0x4, 1, 0x0,
    [⟨9, 0, .rwb, 0, [], false, false⟩]⟩]

/-- Every register of block DPY. -/
def regsDPY : List RegDesc := regsDPY0

/-- Registers of block THM (R62), part 0. -/
def regsTHM0 : List RegDesc := [
  -- THM_WCTL (04, R67)
  ⟨0xfffc, 1, 0x0, 1, 0x0, 1, 0x0,
    [⟨8, 8, .ro, 0, [], false, false⟩, ⟨6, 4, .rw, 0, [], false, false⟩, ⟨0, 0, .rw, 0, [], false, false⟩]⟩,
  -- THM_WALL (08, R171)
  ⟨0x0, 1, 0x0, 1, 0x0, 2, 0x0,
    [⟨63, 63, .ro, 0, [], false, true⟩, ⟨41, 32, .ro, 0, [], false, true⟩, ⟨31, 0, .ro, 0, [], false, true⟩]⟩,
  -- THM_WSET (08, R171)
  ⟨0x8, 1, 0x0, 1, 0x0, 2, 0x0,
    [⟨41, 32, .wo, 0, [(0, 999)], false, false⟩, ⟨31, 0, .wo, 0, [], false, false⟩]⟩,
  -- THM_LOSS (08, R171)
  ⟨0x10, 1, 0x0, 1, 0x0, 1, 0x0,
    [⟨31, 0, .ro, 0, [], false, true⟩]⟩,
  -- THM_TMP_CFG (08, R171)
  ⟨0x20, 1, 0x0, 1, 0x0, 1, 0x4000,
    [⟨23, 16, .rwb, 0, [], false, true⟩, ⟨15, 8, .rwb, 0, [], false, true⟩, ⟨7, 0, .rwb, 0, [], false, true⟩]⟩,
  -- THM_TMP_STAT (08, R171)
  ⟨0x24, 1, 0x0, 1, 0x0, 1, 0x0,
    [⟨31, 24, .ro, 0, [], false, false⟩, ⟨23, 16, .sqc, 0, [], false, false⟩, ⟨15, 8, .ro, 0, [], false, true⟩,
     ⟨7, 0, .ro, 0, [], false, true⟩]⟩,
  -- THM_JRD (08, R171)
  ⟨0x28, 1, 0x0, 1, 0x0, 1, 0x0,
    [⟨31, 31, .rw, 0, [], false, false⟩, ⟨10, 8, .rw, 0, [], false, false⟩, ⟨7, 0, .rw, 0, [], false, false⟩]⟩,
  -- THM_JDATA (08, R171)
  ⟨0x2c, 1, 0x0, 1, 0x0, 1, 0x0,
    [⟨31, 0, .ro, 0, [], false, false⟩]⟩]

/-- Every register of block THM. -/
def regsTHM : List RegDesc := regsTHM0

/-- Registers of block CLU (R62), part 0. -/
def regsCLU0 : List RegDesc := [
  -- CLU_WCTL (04, R67)
  ⟨0xfffc, 1, 0x0, 1, 0x0, 1, 0x0,
    [⟨8, 8, .ro, 0, [], false, false⟩, ⟨6, 4, .rw, 0, [], false, false⟩, ⟨0, 0, .rw, 0, [], false, false⟩]⟩,
  -- CLU_ID (22, R426)
  ⟨0x0, 1, 0x0, 1, 0x0, 1, 0x0,
    [⟨31, 16, .ro, 0, [], false, false⟩, ⟨15, 8, .ro, 4, [], false, false⟩, ⟨3, 0, .ro, 4, [], false, false⟩]⟩,
  -- CLU_ECC (22, R426)
  ⟨0x10, 1, 0x0, 1, 0x0, 1, 0x0,
    [⟨31, 24, .ro, 0, [], false, false⟩, ⟨23, 23, .sqc, 0, [], false, false⟩, ⟨22, 22, .sqc, 0, [], false, false⟩,
     ⟨21, 20, .ro, 0, [], false, false⟩]⟩,
  -- CLU_ECCADDR (22, R426)
  ⟨0x14, 1, 0x0, 1, 0x0, 1, 0x0,
    [⟨31, 0, .ro, 0, [], false, false⟩]⟩,
  -- CLU_ECCCNT (22, R426)
  ⟨0x18, 1, 0x0, 1, 0x0, 1, 0x0,
    [⟨31, 31, .w1p, 0, [], false, false⟩, ⟨30, 16, .ro, 0, [], false, false⟩, ⟨15, 0, .ro, 0, [], false, false⟩]⟩,
  -- CLU_BANK (22, R426)
  ⟨0x20, 1, 0x0, 1, 0x0, 1, 0x0,
    [⟨31, 28, .ro, 0, [], false, false⟩, ⟨15, 0, .ro, 0, [], false, false⟩]⟩,
  -- CLU_XCFG (22, R426)
  ⟨0x40, 1, 0x0, 1, 0x0, 1, 0x4000,
    [⟨31, 31, .rwb, 0, [], false, false⟩, ⟨15, 8, .rwb, 0x10, [(1, 255)], false, false⟩,
     ⟨6, 0, .rwb, 0x14, [(1, 50)], false, false⟩]⟩,
  -- CLU_XRD (22, R426)
  ⟨0x44, 1, 0x0, 1, 0x0, 1, 0x4000,
    [⟨18, 0, .rwb, 0, [], false, false⟩]⟩,
  -- CLU_XWR (22, R424)
  ⟨0x48, 1, 0x0, 1, 0x0, 1, 0x4000,
    [⟨18, 0, .rwb, 0, [], false, false⟩]⟩,
  -- CLU_XDRAM (22, R426)
  ⟨0x50, 1, 0x0, 1, 0x0, 1, 0x4000,
    [⟨31, 16, .rwb, 0, [], false, false⟩, ⟨15, 0, .rwb, 0, [], false, false⟩]⟩,
  -- CLU_XTICK (22, R426)
  ⟨0x54, 1, 0x0, 1, 0x0, 1, 0x4000,
    [⟨31, 16, .rwb, 0, [], false, false⟩, ⟨15, 0, .rwb, 0, [(0, 256)], false, false⟩]⟩,
  -- CLU_XST (22, R426)
  ⟨0x58, 1, 0x0, 1, 0x0, 1, 0x0,
    [⟨31, 24, .ro, 0, [], false, false⟩, ⟨23, 23, .sqc, 0, [], false, false⟩, ⟨22, 22, .ro, 0, [], false, false⟩,
     ⟨21, 21, .ro, 0, [], false, false⟩, ⟨20, 20, .w1p, 0, [], false, false⟩, ⟨15, 0, .ro, 0, [], false, false⟩]⟩,
  -- CLU_XVIO (22, R426)
  ⟨0x5c, 1, 0x0, 1, 0x0, 1, 0x0,
    [⟨31, 0, .ro, 0, [], false, false⟩]⟩]

/-- Every register of block CLU. -/
def regsCLU : List RegDesc := regsCLU0

end Sys2Proof.Machine
end

