-- ==== Sys2Proof/Machine/State.lean ====
section
/-!
DEFINITION. The state of the block: its registers, what each unit holds beyond them, and the queue of waiting commands;
the reasons a step can stop; the state at reset. Registers not listed in `regs` hold their reset value (see `Ops`).
-/

namespace Sys2Proof.Machine

open Sys2Proof

/-- Register words by address, every listed word different from its reset value (see `Ops`). -/
abbrev RegFile := List (Nat × Word)

/-- A buffered write held pending (R67): which bits, and their values. -/
structure PendWrite where
  mask : Word := 0
  val : Word := 0
  deriving DecidableEq, Repr

/-- What the register bus holds besides the registers: pending buffered writes (R67), critical words waiting for their
complement (R76), captured words of wide reads (R3, R75), what the last reads returned, and the host port's reply. -/
structure BusState where
  pend : List (Nat × PendWrite) := []
  held : List (Nat × Word) := []
  capt : List (Nat × Word) := []
  readData : List Word := []
  hostReply : List Byte := []
  wsetSec : Word := 0
  deriving DecidableEq, Repr

/-- A source's own stamp (R56): the control-frame count of a core-die source, the real-time clock of the thermos die for a tamper
event, the wall time before and after a clock adjustment. Times are in s and ms. -/
inductive Stamp where
  | frame (count : Nat)
  | wall (sec ms : Nat)
  | adjust (oldSec oldMs newSec newMs : Nat)
  deriving DecidableEq, Repr

/-- One journal event (R56, R61): fence epoch, source index, the source's own stamp, what happened, the lanes named,
and the source it was merged into, if it was (R307). -/
structure JEvent where
  epoch : Nat := 0
  index : Nat := 0
  stamp : Stamp := .frame 0
  info : Nat := 0
  lanes : LaneSet := 0
  mergedInto : Option Nat := none
  deriving DecidableEq, Repr

/-- Ticks, site time and fences beyond the TCK registers (R43 to R60). -/
structure ClkState where
  /-- Control frames since power-good, never wrapped (TCK_FRAME is this modulo 2^32). -/
  frame : Nat := 0
  /-- Decade phase of R39. -/
  decade : Nat := 0
  /-- Sample ticks since power-good. -/
  sample : Nat := 0
  /-- Sample ticks of the running frame that have ended. -/
  tickInFrame : Nat := 0
  /-- Length of the running frame in sample ticks (R49: 8 to 24, otherwise 16). -/
  frameLen : Nat := 16
  /-- Stepping is in progress (R49). -/
  stepping : Bool := false
  /-- Site time source of R45, numbered as TCK_SYNC.SRC. -/
  source : Nat := 7
  /-- Consecutive sync results within the lock limit, and beyond four times it (R47). -/
  good : Nat := 0
  bad : Nat := 0
  /-- Frame of the last valid sync result, and of the entry to HOLDOVER. -/
  lastSync : Nat := 0
  holdSince : Nat := 0
  /-- PLL steering in force, in ppm (R46). -/
  steer : Int := 0
  /-- Offset still to remove, in ns: the last one measured, less what stepped frames took away (R49). -/
  ofs : Int := 0
  /-- TCK_TIME was loaded from the source (see the log). -/
  timeSet : Bool := false
  /-- A fence has been requested (R57). -/
  fenceReq : Bool := false
  /-- SYS_STROBE.GO requests waiting for the next edge (R69). -/
  goReq : BitVec 8 := 0
  /-- Consecutive allocation-tick overruns, and the overrun flag of the next headcount (R55). -/
  allocOverruns : Nat := 0
  allocOverrunFlag : Bool := false
  /-- The work of the running ledger second does not end by its next edge, where the overrun is counted (R54, R55). -/
  secondMerged : Bool := false
  /-- The work of the running frame does not end by its next edge, where the overrun is counted (R54). -/
  frameOverrun : Bool := false
  deriving DecidableEq, Repr

/-- Lane types of R27 and R29. -/
inductive LaneType where
  | unused | dc | ac1 | ac3lead | ac3lower | ac3upper
  deriving DecidableEq, Repr

/-- What a LANE record gives a lane (R84, R88, R89). -/
structure LaneCfg where
  typ : LaneType := .unused
  inom : Nat := 0
  headClass : Nat := 0
  rcabLo : Nat := 0
  rcabHi : Nat := 0xFFFFFFFF
  deriving DecidableEq, Repr

/-- The head of a lane: presence probes (R39), identity memory (R88), roll call (R89 to R91). -/
structure HeadState where
  ok : Nat := 0
  fail : Nat := 0
  lastSerial : Nat := 0
  present : Bool := false
  rollCall : Bool := false
  ident : List Byte := []
  irated : Nat := 0
  rcab : Nat := 0
  nsens : Nat := 0
  lockKind : Nat := 0
  sensIdx : Nat := 0
  sensFails : List (Nat × Nat) := []
  cableOk : Option Bool := none
  injOk : Option Bool := none
  passed : Bool := false
  /-- The result of a run of R95 that waits for its commit (R96): 0 both items passed, else the cause of SYS_RC_STAT; and the
  injection amplitude A the run found, in 0.01 V (R218). -/
  judged : Option Nat := none
  amp : Nat := 0
  /-- The head failed roll call or a lane item (R40). -/
  failed : Bool := false
  /-- Frame in which the lane's run of R95 began, while it runs. -/
  adaptAt : Option Nat := none
  /-- Cable temperature in force since the head was declared present (R136). -/
  tcabValid : Bool := false
  deriving DecidableEq, Repr

/-- A module of a MODULE record (R84, R92, R348 to R350): where it sits, what it is expected to be, what it last said. -/
structure ModState where
  port : Nat := 0
  /-- Address 1 to 32; 0 where no record names a module. -/
  addr : Nat := 0
  /-- What its record says: identity, module group; then its rating as it stated it (R92): W, and 0.1 A. -/
  ident : Nat := 0
  group : Nat := 0
  rated : Nat := 0
  ratedI : Nat := 0
  /-- Its identity agreed with the record, and its STATUS comes (R92, R349). -/
  admitted : Bool := false
  /-- Frame after its last STATUS (0: none yet), and what that said. -/
  seen : Nat := 0
  v : Nat := 0
  i : Nat := 0
  state : Nat := 0
  temp : Nat := 0
  /-- Frame after the IDREQ last sent to it (0: none waits). -/
  reqAt : Nat := 0
  /-- Lane served and current setpoint of R350. -/
  out : Nat := 255
  setI : Nat := 0
  deriving DecidableEq, Repr

/-- The bounds of R94, at their defaults. -/
structure Bounds where
  spread : Nat := 8
  ambient : Nat := 15
  ampLo : Nat := 5
  ampHi : Nat := 20
  bandB : Bool := false
  limit : Nat := 2400
  deriving DecidableEq, Repr

/-- What a POLICY record allows (R84, R96, R105, R186, R190, R197, R383): the spec gives its byte layout nowhere. -/
structure Policy where
  sealCal : Bool := false
  freeAuth : Bool := false
  localList : Bool := false
  fwAuth : Bool := false
  plainTls : Bool := false
  ownerLock : Bool := false
  /-- Guaranteed minimum in W of classes 0 to 3. -/
  gmin : List Nat := []
  /-- The priority class of each token that has one (R192). -/
  classes : List (List Byte × Nat) := []
  deriving DecidableEq, Repr

/-- Start-up beyond the SYS registers (R77 to R97). -/
structure BootState where
  cold : Bool := true
  halted : Bool := false
  noCfg : Bool := false
  vddField : Bool := false
  vddCore : Bool := false
  lanes : List (Nat × LaneCfg) := []
  heads : List (Nat × HeadState) := []
  /-- Modules by the number of their record. -/
  mods : List (Nat × ModState) := []
  /-- Bounds of the lane items (R94). -/
  bounds : Bounds := {}
  /-- The factory serial of the device. -/
  unit : Nat := 0
  /-- Accepted version counter of R83, held in the thermos die. -/
  plver : Nat := 0
  /-- The end of stage 0x6 (R96): 1 the values decided wait for the edge that commits them, 2 they are committed. -/
  adaptStep : Nat := 0
  /-- Start-up listens to the zone (R93): cutoffs heard since, those of them at which the zone item was not in order; cutoffs in order
  in a row after it failed; the rails are in range. -/
  listening : Bool := false
  zoneSeen : Nat := 0
  zoneBad : Nat := 0
  zoneClear : Nat := 0
  railsOk : Bool := true
  /-- Frame of the entry to the running stage. -/
  stageFrame : Nat := 0
  /-- 8.192 MHz instead of 16.384 MHz (R33). -/
  slowMclk : Bool := false
  /-- The clock of the streams runs, since this sample tick; the balls MCLKk that run, each for its four lanes (R33, R34). -/
  mclk : Bool := false
  mclkAt : Nat := 0
  mclkBalls : BitVec 8 := 0
  /-- What the POLICY record allows (R84). -/
  policy : Policy := {}
  deriving DecidableEq, Repr

/-- An independent or merged raise remembered for R307. -/
structure FltRaise where
  frame : Nat
  src : Nat
  cls : Nat
  scope : Option LaneSet
  deriving DecidableEq, Repr

/-- A cause now present (R304): source, class and scope (none: the device). -/
structure FltCause where
  src : Nat
  cls : Nat
  scope : Option LaneSet
  deriving DecidableEq, Repr

/-- A raise of `src` merged into `into` (R307, R308). -/
structure FltMerged where
  into : Nat
  src : Nat
  cls : Nat
  scope : Option LaneSet
  deriving DecidableEq, Repr

/-- A lane-class raise kept for R310. -/
structure FltRecur where
  src : Nat
  lane : Nat
  frame : Nat
  deriving DecidableEq, Repr

/-- A quadrature encoder's filtered lines, its recent illegal transitions, and the scope of the fault it raised, if one stands
(R318). -/
structure EncState where
  a : Bool := false
  b : Bool := false
  illegal : List Nat := []
  raised : Option (Option LaneSet) := none
  deriving DecidableEq, Repr

/-- The fault collector beyond the FLT registers (R302 to R318). -/
structure FltState where
  recent : List FltRaise := []
  causes : List FltCause := []
  merged : List FltMerged := []
  recur : List FltRecur := []
  /-- Raises of R307's four sources in the running frame, first one first: merged or not once every raise of the frame is known. -/
  due : List FltRaise := []
  /-- Sources raised with device scope and not cleared since, each with the highest class of such a raise plus one (R304, R312). -/
  dev : List (Nat × Nat) := []
  /-- Sources of which a cause ended since the last edge: their cause-present bits follow at the next (R304). -/
  ended : List Nat := []
  /-- Frame of the latest raise that drove or found the fault pins' fault level (R314). -/
  pinRaise : Nat := 0
  /-- The 1 ms of that raise still runs; a release was written and waits for the edge. -/
  pinHeld : Bool := false
  releaseReq : Bool := false
  /-- Frame of the latest independent fault of lane class or higher, per lane (R309). -/
  latest : List (Nat × Nat) := []
  /-- Heartbeat of R316: the next key is 0x5A3C, frame of the last good key, probe sent at, wedged since. -/
  wdFirst : Bool := true
  wdLast : Nat := 0
  wdProbe : Option Nat := none
  wdWedged : Option Nat := none
  /-- Position encoders by number (R318). -/
  enc : List (Nat × EncState) := []
  /-- Interrupt lines raised to the service cores. -/
  irq : Nat := 0
  deriving DecidableEq, Repr

/-- One of the 96 streams (R98): what arrives now, the samples after substitution newest first, substitution (R113, R114),
the corrections in force (R107). -/
structure StreamState where
  raw : Int := 0
  stuck : Bool := false
  hist : List Int := []
  lastGood : Int := 0
  /-- Substituted ticks so far in this underrun, 0 outside one; ticks of settling still to be substituted. -/
  sub : Nat := 0
  settle : Nat := 0
  /-- Substituted in the last tick; an underrun reached its 1,600th tick and is not yet raised as lost (R116); an underrun
  began, or a sample was clipped, since the last edge; clipped in the last tick. -/
  subNow : Bool := false
  lost : Bool := false
  began : Bool := false
  clipped : Bool := false
  clipNow : Bool := false
  /-- Gain and phase correction in force at the temperature used (R107). -/
  gppm : Int := 0
  pcor : Int := 0
  deriving DecidableEq, Repr

/-- One lane's engine. Voltages, currents and products are exact numerators (see `Metering`); windows are newest first. -/
structure MetLane where
  /-- Calibrated voltage and current of the last tick, and their squares as used. -/
  v : Int := 0
  i : Int := 0
  sqV : Nat := 0
  sqI : Nat := 0
  /-- Windows of R125 to R127; a reactive product is a fraction. -/
  pw : List Int := []
  qw : List (Int × Nat) := []
  vv : List Nat := []
  ii : List Nat := []
  /-- Voltages for V90 (R126), and the line frequency in mHz its quarter period is taken from. -/
  vHist : List Int := []
  quarterF : Nat := 50000
  /-- The phase's energy counted in the last tick; its window sums and apparent power, with 32 fraction bits. -/
  counted : Bool := false
  pSum : Int := 0
  qSum : Int × Nat := (0, 1)
  sSum : Nat := 0
  /-- Outlet sums of the last tick (R129), of the counted phases. -/
  pOut : Int := 0
  qOut : Int × Nat := (0, 1)
  sOut : Nat := 0
  /-- Frame stage: the eight outlet quantities and the two loss sums, in 2^-32 mWh (R131, R137); the apparent power as
  delivered summed over the frame's ticks, and how many they are. -/
  stage : List Nat := [0, 0, 0, 0, 0, 0, 0, 0]
  lossImp : Nat := 0
  lossExp : Nat := 0
  sMean : Nat := 0
  ticks : Nat := 0
  /-- Accumulators of R130 in the order of the energy registers: EIMP EEXP EQ1..4 EAPI EAPE EINI EINE. -/
  acc : List Nat := [0, 0, 0, 0, 0, 0, 0, 0, 0, 0]
  /-- Committed in this ledger second: import, export, and the two loss sums (R138). -/
  secImp : Nat := 0
  secExp : Nat := 0
  secLossImp : Nat := 0
  secLossExp : Nat := 0
  /-- Sums for VMEAN, IMEAN, PSEC and PALC (R134), and the ticks they hold. -/
  sumV : Int := 0
  sumI : Int := 0
  sumP : Int := 0
  secTicks : Nat := 0
  alcP : Int := 0
  alcTicks : Nat := 0
  /-- What the ledger entry of this second carries (R159): missed ticks, clip, degraded. -/
  missedSec : Nat := 0
  clipSec : Bool := false
  degSec : Bool := false
  /-- Zero crossings of R135: below -1 % seen, candidate instant, instants newest first in 2^-32 ticks, frequency. -/
  low : Bool := false
  lastV : Int := 0
  cand : Option Nat := none
  cross : List Nat := []
  freq : Nat := 0
  /-- Whole mWh moved to the registers in this frame: the ten quantities; committed in this frame, in 2^-32 mWh. -/
  moved : List Nat := [0, 0, 0, 0, 0, 0, 0, 0, 0, 0]
  commit : List Nat := [0, 0, 0, 0, 0, 0, 0, 0]
  inlet : List Nat := [0, 0]
  /-- The inlet energy of the last second was cut at 0 (R138). -/
  inletClamp : Bool := false
  /-- The energy register pairs that failed their check at the last use, and those raised as 0x14 and not rebuilt (R133). -/
  cplFail : List Nat := []
  cplBad : List Nat := []
  /-- Numerator of R(T) over 16,000,000, in µΩ, not truncated (R136, R137). -/
  rt : Nat := 0
  deriving DecidableEq, Repr

/-- A capture trigger (R119): its kinds and its stamp, and the sample tick it fell in. -/
structure CapTrig where
  kinds : Nat
  frame : Nat
  tick : Nat
  epoch : Nat
  sample : Nat
  deriving DecidableEq, Repr

/-- The waveform capture unit beyond its registers (R118 to R121). -/
structure CapState where
  /-- Slot selections and trigger settings in use. -/
  sel : List Nat := [0, 0, 0]
  trig : Nat := 0
  /-- What the three slots recorded. -/
  rings : List (List Word) := [[], [], []]
  /-- Samples recorded since the ring last started, and still to be recorded in RUN. -/
  count : Nat := 0
  left : Nat := 0
  /-- The pending trigger, and the sample tick of the last trigger lost to it (R120). -/
  pend : Option CapTrig := none
  lostAt : Nat := 0
  /-- RELEASE was given with a trigger pending: the late run begins at the next tick (R120). -/
  released : Bool := false
  /-- The level trigger may fire; the kinds that arrived in IDLE in the running tick (R119). -/
  armed : Bool := true
  hits : Nat := 0
  deriving DecidableEq, Repr

/-- A proof-pulse output (R142 to R144). Energies are in 2^-32 mWh times C: the remainder at the start of the frame, the energy
played out in the frame; the crossings of the frame that have come; the backlog; the ball level, and the sample tick of the last
pulse's beginning. -/
structure PpoState where
  rem : Nat := 0
  rate : Nat := 0
  crossed : Nat := 0
  backlog : Nat := 0
  high : Bool := false
  beganAt : Option Nat := none
  deriving DecidableEq, Repr

/-- A cabinet sensor: failed scans in a row; the frame of its last good reading, or of the first scan that read it since it was
enabled; faulted (R111). -/
structure SensState where
  fails : Nat := 0
  since : Option Nat := none
  fault : Bool := false
  deriving DecidableEq, Repr

/-- The metrology engine beyond the MET registers. -/
structure MetState where
  streams : List (Nat × StreamState) := []
  lanes : List (Nat × MetLane) := []
  cap : CapState := {}
  ppo : List (Nat × PpoState) := []
  sens : List (Nat × SensState) := []
  deriving DecidableEq, Repr

/-- One lane's billing state beyond its registers: interval energy (R145), ledger chain (R162), what the next ledger
entries carry, counts held back from failed pairs (R146). -/
structure BilLane where
  intImp : Nat := 0
  intExp : Nat := 0
  chain : List Byte := []
  /-- The next entry of the lane carries the gap flag. -/
  gap : Bool := false
  /-- Moved in this ledger second: outlet import and export, inlet import and export; the rates its frames fell into. -/
  sec : List Nat := [0, 0, 0, 0]
  secRates : List Nat := []
  /-- Counts held back by register index: import rate r at r, export at 16 + r, session energy q at 32 + q. -/
  held : List (Nat × Nat) := []
  /-- Pairs that failed at their last use or scrub; pairs at fault and not rebuilt (R133, R146). -/
  failed : List Nat := []
  faulted : List Nat := []
  /-- The next session-close entry carries the gap flag (R171). -/
  lossGap : Bool := false
  deriving DecidableEq, Repr

/-- A session close that waits for its closing fence (R157, R160): frame of the request, what its entry holds, its chain; once the
fence took effect, the epoch it opened and the frame it did in. -/
structure ClosePend where
  lane : Nat
  frame : Nat
  snum : Nat
  flags : Nat
  payload : List Byte
  chain : List Byte
  fenced : Option (Nat × Nat) := none
  deriving DecidableEq, Repr

/-- A period close that waits for its closing fence, with the totals at the close; and the fence as for a session close. -/
structure PerPend where
  frame : Nat
  per : Nat
  bclk : Nat
  skipped : Nat
  byCmd : Bool
  totals : Option (List (Nat × List Nat))
  fenced : Option (Nat × Nat) := none
  deriving DecidableEq, Repr

/-- An interval closed at this edge, whose entries are written in the frame's work (R150, R154). -/
structure IntClose where
  start : Nat
  length : Nat
  rate : Nat
  flags : Nat
  per : Nat
  deriving DecidableEq, Repr

/-- A signature the key store owes: lane, session, final chain head (R162). -/
structure SignPend where
  lane : Nat
  snum : Nat
  head : List Byte
  deriving DecidableEq, Repr

/-- A hamper image (R166): header, register words, accumulators, chain heads, per-lane and device state. The header is written last:
until then its check does not cover the body. -/
structure HamperImage where
  magic : Bool := false
  crc : Nat := 0
  seq : Nat := 0
  final : Bool := false
  sec : Nat := 0
  ms : Nat := 0
  words : RegFile := []
  accs : List (Nat × List Nat) := []
  chains : List (Nat × List Byte) := []
  energised : LaneSet := 0
  pmax : List (Nat × Nat) := []
  per : Nat := 0
  bclk : Nat := 0
  acc : Nat := 0
  regEpoch : Nat := 0
  deriving DecidableEq, Repr

/-- The billing unit beyond the BIL registers (R145 to R171). -/
structure BilState where
  lanes : List (Nat × BilLane) := []
  /-- Rate in force during the frame just closed (R145). -/
  frameRate : Nat := 0
  /-- Wall seconds of the running tariff interval: its start, and its end where known (R150). -/
  intStart : Nat := 0
  intEnd : Nat := 0
  /-- The running interval opened at a change of daylight saving (R150). -/
  intDst : Bool := false
  /-- A rate has been selected since the start; it is due at this edge, the first one of service (R150). -/
  rated : Bool := false
  rateDue : Bool := false
  /-- The 3,680 bytes of the calendar in use (R147); none without a good one. -/
  cal : List Byte := []
  /-- Requests of the frame: a time to set, a period close, a new register epoch. -/
  clkReq : Option (Nat × Nat) := none
  pcloseReq : Bool := false
  newEpochReq : Bool := false
  /-- A rate interval that closes with the frame, its length known. -/
  intClose : Option IntClose := none
  /-- A ledger second closed at this edge: entries are due; the last one was merged into the next (R55). -/
  secDue : Bool := false
  secMerged : Bool := false
  /-- The next entry of the device carries the gap flag. -/
  devGap : Bool := false
  /-- Sessions, and periods, that closed and wait for their fence (R157, R162). -/
  closes : List ClosePend := []
  periods : List PerPend := []
  /-- The billing clock up to which PERIOD instants have been looked at; the hamper mirrors it (R156, R166). -/
  perAt : Nat := 0
  /-- Final heads that wait for their signature (R162). -/
  signing : List SignPend := []
  /-- Hamper slots that hold a valid image, and the save in progress with its slot. -/
  slots : List (Nat × HamperImage) := []
  saving : Option (Nat × HamperImage) := none
  /-- Frame at which the last periodic save completed, and frame of the last power-fail warning (R378). -/
  saveAt : Option Nat := none
  pfwAt : Option Nat := none
  /-- Sequence number of the next hamper image (R166). -/
  seq : Nat := 0
  deriving DecidableEq, Repr

/-- The thermos die beyond the THM registers: supplies (R11, R24), tamper inputs and journals (R163, R164). -/
structure ThmState where
  /-- Running from VDD_IO33, or from VBAK; neither: the clock stands. -/
  io33 : Bool := true
  vbak : Bool := true
  /-- Clock-valid was cleared while dark (R170). -/
  lossInvalid : Bool := false
  /-- Milliseconds of the stamp in THM_LOSS. -/
  lossMs : Nat := 0
  /-- The tamper inputs at the last sample (R163). -/
  lastSample : BitVec 8 := 0
  /-- Numbers of the next tamper-journal entry and of the next clock-log entry (R163, R164). -/
  jnum : Nat := 0
  cnum : Nat := 0
  /-- Entries of the clock log overwritten (R164). -/
  clockWraps : Nat := 0
  /-- The tamper journal and the clock log: entries by slot (R164). -/
  journal : List (Nat × List Byte) := []
  clockLog : List (Nat × List Byte) := []
  /-- The last session number issued (R158). -/
  snum : Nat := 0
  deriving DecidableEq, Repr

/-- The five pilot outputs of R172. -/
inductive PilotOut where
  | off | x1 | stateF | pct5 | nominal
  deriving DecidableEq, Repr

/-- The session messages of R186 the device answers, and the SLAC messages of R183. -/
inductive PilMsg where
  | none | slacParm | attenChar | validate | slacMatch | sdp | appProtocol | sessionSetup | serviceDiscovery
  | serviceDetail | paymentSelection | serviceSelection | paymentDetails | contractAuth | authSetup | authorization
  | chargeParameters | scheduleExchange | cableCheck | preCharge | powerDelivery | chargeLoop | chargingStatus
  | meteringReceipt | meteringConfirmation | weldingDetection | certificate | sessionStop | renegotiation
  deriving DecidableEq, Repr

/-- How an answer ends. -/
inductive PilResult where
  | ok | ongoing | failed
  deriving DecidableEq, Repr

/-- What the device last answered to a vehicle (R183, R186, R189), and the EVSE limits the answer carried: power in W and
current in 0.1 A, for charge and for discharge; the modem address a SLAC answer came from (R182); the tuples of an ISO 15118-2
schedule, each a duration in s and a power in W (R187). -/
structure PilReply where
  msg : PilMsg := .none
  result : PilResult := .ok
  power : Nat := 0
  current : Nat := 0
  disPower : Nat := 0
  disCurrent : Nat := 0
  mac : Nat := 0
  schedule : List (Nat × Nat) := []
  deriving DecidableEq, Repr

/-- One SLAC sounding run (R183, R184): vehicle address, run, the frame it was announced in, soundings announced and heard, and
per lane the soundings received there and the sum over them and the 58 carrier groups of the attenuation in dB. -/
structure SlacRun where
  mac : Nat
  run : Nat
  start : Nat
  total : Nat
  heard : Nat := 0
  counts : List (Nat × Nat) := []
  sums : List (Nat × Nat) := []
  deriving DecidableEq, Repr

/-- One lane's pilot and session beyond its registers (R172 to R202). -/
structure PilLane where
  /-- Output chosen at the last edge, and what the driver drives, with its duty code (R172 to R174). -/
  out : PilotOut := .off
  drv : PilotOut := .off
  drvCode : Nat := 0
  /-- What was driven in the last complete period (R177). -/
  meas : PilotOut := .off
  /-- Consecutive frames with the diode flag, and with the running proximity code (R179, R180). -/
  diodeCnt : Nat := 0
  ppRaw : Nat := 0
  ppCnt : Nat := 0
  /-- The proximity bias is on (R180). -/
  biased : Bool := false
  /-- Proximity code at the session's beginning; frame of a change to open still to be decided (R181). -/
  ppStart : Nat := 0
  ppOpenAt : Option Nat := none
  /-- Frame of the last step change; the step was changed in this frame (R194); a normal transition a time has decided, taken at
  the next edge; the time limits latched at the entry. -/
  stepFrame : Nat := 0
  changed : Bool := false
  next : Option Nat := none
  /-- Time limits of the step, of the stop and of idling in B, latched at the entry, and the frame at which precharge began. -/
  limit : Nat := 0
  stopLim : Nat := 0
  idleLim : Nat := 0
  preAt : Nat := 0
  /-- Exit causes decided since the last step decision (R198), and the head-removed flag of R41. -/
  decided : List Nat := []
  headRemoved : Bool := false
  /-- The lane is on the orderly path (R200, R201), which FAULTED ends; its contactor has been closed in the session. -/
  orderly : Bool := false
  closedOnce : Bool := false
  /-- A session is open on the lane (R201). -/
  opened : Bool := false
  /-- R444: the unlock move requested on entry has not ended; the unlock of FAULTED was requested. -/
  unlockDue : Bool := false
  /-- Basic charging (R193). -/
  basic : Bool := false
  /-- SLAC (R183 to R185): state F since; attempt began; the vehicle's parameters came; may match, and only after toggles; session
  key. -/
  slacF : Option Nat := none
  slacAt : Nat := 0
  parmAt : Option Nat := none
  /-- The vehicle of the running SLAC exchange, and its run identifier. -/
  mac : Nat := 0
  run : Nat := 0
  mayMatch : Bool := false
  needToggle : Bool := false
  nmk : List Byte := []
  /-- The session runs over TLS (R186). -/
  tls : Bool := false
  /-- Protocol milestones (R186, R195). -/
  setup : Bool := false
  served : Bool := false
  contract : Bool := false
  deliver : Bool := false
  dynamic : Bool := false
  weldDone : Bool := false
  /-- The last answer to the vehicle. -/
  reply : PilReply := {}
  /-- Authorisation: frame AUTHORISE was entered, card bound, accepted (R190 to R192). -/
  authAt : Nat := 0
  cardUid : List Byte := []
  accepted : Bool := false
  /-- The session requests the close (R196). -/
  closeReq : Bool := false
  /-- What the vehicle, and the back office, stated (R197): powers in W, wall seconds, Wh. -/
  evPower : Option Nat := none
  evReq : Option Nat := none
  evDis : Nat := 0
  evDepart : Nat := 0
  evEnergy : Nat := 0
  boDepart : Nat := 0
  boEnergy : Nat := 0
  /-- The session may discharge (R197). -/
  discharge : Bool := false
  /-- Suspended (R176), and B held with duty offered in PAUSED (R201), since these frames. -/
  suspAt : Option Nat := none
  bAt : Option Nat := none
  deriving DecidableEq, Repr

/-- A card held for the first lane to enter AUTHORISE (R191). -/
structure HeldCard where
  reader : Nat
  uid : List Byte
  frame : Nat
  deriving DecidableEq, Repr

/-- The pilot and session unit beyond the PIL registers. -/
structure PilState where
  lanes : List (Nat × PilLane) := []
  card : List HeldCard := []
  runs : List SlacRun := []
  deriving DecidableEq, Repr

/-- One protected channel beyond its registers (R253 to R267). Contactor channels have index n, lock channels 32 + n,
general channels 64 + k. -/
structure Chan where
  /-- Waiting in the scheduler's queue, with its arrival edge. -/
  queued : Option Nat := none
  /-- Admitted at this edge, not yet started or running. -/
  booked : Option Nat := none
  /-- Frames: the end of the start, when it went on, when it went off, the end of the pause after a trip. -/
  bookEnd : Nat := 0
  onSince : Option Nat := none
  offSince : Nat := 0
  pauseEnd : Nat := 0
  /-- Clamp-locked until the bucket is 0; a request held outside the queue (R267). -/
  clampHeld : Bool := false
  /-- Bucket of R267, in nJ. -/
  bucket : Nat := 0
  /-- It was on when a supply or thermal condition began (R266). -/
  interrupted : Bool := false
  /-- Consecutive frames with an open load (R263). -/
  openCnt : Nat := 0
  /-- What the start booked: aux current in mA, heat in mW (R247); its arrival edge, in case it does not start (R255). -/
  bookAux : Nat := 0
  bookHeat : Nat := 0
  arrival : Nat := 0
  /-- The channel's configuration word taken at its start (R271): SWA_Ln_CCCFG, SWA_Ln_LKCFG or SWA_Gk_INR; inrush current in mA. -/
  cfg : Nat := 0
  inrush : Nat := 0
  /-- Largest current seen in the lock attempt that runs, in mA. -/
  peak : Nat := 0
  /-- Frame after the one in which the channel latched (R264, R272). -/
  latchAt : Nat := 0
  /-- Direction of a lock move (true: locked) and how many attempts were made. -/
  dir : Bool := false
  attempt : Nat := 0
  /-- A lock move runs. -/
  moving : Bool := false
  /-- Contactor: the mirror has shown closed since the grant; open frames since (R287). -/
  seenClosed : Bool := false
  openFrames : Nat := 0
  /-- The weld test of the next close has passed; frames in which current and state disagreed (R287, R289). -/
  weldTested : Bool := true
  plausCnt : Nat := 0
  /-- Trip count of a lock channel (contactor and general channels show theirs), latched, clamp-locked, shed. -/
  trips : Nat := 0
  latched : Bool := false
  locked : Bool := false
  shed : Bool := false
  /-- Frame at which a lock move that was not confirmed is repeated (R258). -/
  retryAt : Nat := 0
  deriving DecidableEq, Repr

/-- A booking's recent clamp event for R268: frame and energy in nJ. -/
structure ClampEvent where
  frame : Nat
  energy : Nat
  deriving DecidableEq, Repr

/-- The switch array and the start scheduler beyond their registers. -/
structure SwaState where
  chans : List (Nat × Chan) := []
  clampEvents : List ClampEvent := []
  overDiss : Nat := 0
  shedding : Bool := false
  overTemp : Bool := false
  hotFrames : Nat := 0
  /-- d_steady of R268 as computed at the last edge, in fW. -/
  steady : Nat := 0
  /-- A reverse-polarity condition is present (R265). -/
  reverse : Bool := false
  /-- Reader transmissions: queued with arrival edge, admitted with the heat booked in mW (R247, R248). -/
  rdrQueue : List (Nat × Nat) := []
  rdrOn : List (Nat × Nat) := []
  /-- Readers whose booking ends at the next edge. -/
  rdrEnd : List Nat := []
  deriving DecidableEq, Repr

/-- The pins as latched at the last edge. -/
structure PinState where
  pp : List (Nat × Nat) := []
  mirA : LaneSet := 0
  mirB : LaneSet := 0
  ccI : List (Nat × Nat) := []
  lkI : List (Nat × Nat) := []
  genI : List (Nat × Nat) := []
  vinAux : Int := 0
  /-- PFW_L is held low (R168). -/
  pfwLow : Bool := false
  /-- Supplies in mV, the field die's temperature in 1/16 °C, the guard inputs as each channel has them, the clock check of the
  B-channel in ppm. -/
  vpilP : Int := 0
  vpilM : Int := 0
  vbak : Int := 0
  fieldT : Int := 400
  gdA : BitVec 8 := 0
  gdB : BitVec 8 := 0
  bClkPpm : Int := 0
  /-- The pilot high plateau of a lane as each safety channel has it (R274), in 10 mV. -/
  plA : List (Nat × Int) := []
  plB : List (Nat × Int) := []
  /-- Copies of lanes' values disturbed in this frame, and what comes of the channels' decisions in it. -/
  copyA : List (Nat × LaneCopy) := []
  copyB : List (Nat × LaneCopy) := []
  recA : ChanRecord := .asRuled
  recB : ChanRecord := .asRuled
  /-- A CRC of R301 that a channel has wrong. -/
  crcA : Option Word := none
  crcB : Option Word := none
  deriving DecidableEq, Repr

/-- A guard pair (R285, R292, R293). -/
structure GuardState where
  /-- Harmonised closed, and since which frame; how long it had been open when it last closed. -/
  closed : Bool := false
  since : Nat := 0
  openFor : Nat := 0
  /-- Both halves open, or both closed, since this frame. -/
  both : Nat := 0
  /-- The halves disagree since this frame; the discrepancy was raised. -/
  disc : Option Nat := none
  discHit : Bool := false
  /-- Guard walk: the open part is done. -/
  walkOpen : Bool := false
  deriving DecidableEq, Repr

/-- A safety connection beyond SAF_CONNk (R294 to R297). -/
structure ConnState where
  txSeq : Nat := 0
  /-- Frame after that of the last PDU sent (0: none yet). -/
  txAt : Nat := 0
  /-- PDUs still owed to a change of STATE (R295). -/
  repeats : Nat := 0
  /-- Candidate of R296: its SEQ and frame. -/
  cand : Option (Nat × Nat) := none
  /-- Frames of the last PDU taken and of the first one since it is good; frames of the last CRC failures; what the peer said of
  the e-stop: hops, origin, state. -/
  lastRx : Nat := 0
  goodSince : Nat := 0
  crcFails : List Nat := []
  hops : Nat := 0
  origin : Nat := 0
  estop : Bool := false
  /-- Failed and not yet good again for 1 s. -/
  failed : Bool := false
  /-- The last PDU sent. -/
  tx : List Byte := []
  deriving DecidableEq, Repr

/-- A lane's values in the harmonised view of the channels (R277): current in 0.1 mA, voltage, earth-fault verdict. -/
structure LaneView where
  cur : Int := 0
  volt : Int := 0
  verd : Nat := 0
  deriving DecidableEq, Repr

/-- The pilot forces a channel drives, as the field die holds them (R275): lanes forced to state F, lanes forced off. -/
structure PilotForce where
  f : LaneSet := 0
  off : LaneSet := 0
  deriving DecidableEq, Repr

/-- The safety supervisor beyond the SAF registers. -/
structure SafState where
  guards : List (Nat × GuardState) := []
  conns : List (Nat × ConnState) := []
  /-- Close consent refused until a new close request, per lane (R280). -/
  spent : LaneSet := 0
  /-- Consecutive frames with a compare mismatch and with the clock check failing. -/
  cmpRun : Nat := 0
  clkRun : Nat := 0
  /-- Consecutive differing frames of R279, per converter group. -/
  xcheck : List (Nat × Nat) := []
  /-- Frame in which each cause was entered, by its SAF_STAT bit (R298). -/
  causeAt : List (Nat × Nat) := []
  /-- A reset pair closed in this frame (R285). -/
  resetDue : Option Nat := none
  /-- SO pairs as the channels command them; the frame after each last change of the pair; feedback failed (R291). -/
  soCmd : BitVec 2 := 0
  soChange : List (Nat × Nat) := []
  soFail : BitVec 2 := 0
  /-- SO pairs whose weld cause is in force (R290), and when each is to go off (R289). -/
  soWeld : BitVec 2 := 0
  soOffAt : List (Nat × Nat) := []
  /-- The SO pairs were de-energised by the safe state (R290). -/
  soSafe : Bool := false
  /-- The field die's refresh of each channel is good (R275), and the unlock consents it took. -/
  refreshA : Bool := true
  refreshB : Bool := true
  ulk : LaneSet := 0
  /-- Pilot forces the field die holds of each channel. -/
  frcA : PilotForce := {}
  frcB : PilotForce := {}
  /-- The decisions a channel drives where they are not those of the rules (R278). -/
  drvA : Option Decision := none
  drvB : Option Decision := none
  /-- Each lane's values as last harmonised. -/
  views : List (Nat × LaneView) := []
  /-- The internal links on which a transfer since the last edge failed its check (R12). -/
  lost : List DieLink := []
  /-- Mirrors disagree since this frame, less one (R286). -/
  mdisc : List (Nat × Nat) := []
  /-- Welds decided and acted on at the next edge (R289). -/
  weldDue : List Nat := []
  /-- SAFEZERO frames in the safety mailboxes, port and DST (R21, R351). -/
  safeZero : List (Nat × Nat) := []
  /-- The safe state was entered in the frame now ending; SO pairs go too (R284). -/
  enterAct : Bool := false
  enterSo : Bool := false
  /-- The e-stop this device shows (R297). -/
  estopOut : Bool := false
  hopsOut : Nat := 0
  originOut : Nat := 0
  /-- The last STATE byte sent out (R295). -/
  stateOut : Nat := 0
  deriving DecidableEq, Repr

/-- One chip of a lane (R208, R209): excluded, joined set, chip number, and the normal-equation sums
n, Σu, Σdu, Σu², Σu·du, Σdu², Σy, Σy·u, Σy·du, Σi, Σi·u, Σi·du. -/
structure EfmChip where
  excl : Bool := false
  j : LaneSet := 0
  k : Nat := 0
  sums : List Rat := []
  deriving DecidableEq, Repr

/-- A solved window (R209): g, h, g_tot. -/
structure EfmFit where
  g : Rat
  h : Rat
  gtot : Rat
  deriving DecidableEq, Repr

/-- How a cable check ends (R217): the self-test failed twice; the baseline is below the fault level twice; a pass, with the warning or
without. -/
inductive CableEnd where
  | selfFail
  | low
  | pass (warning : Bool)
  deriving DecidableEq, Repr

/-- A cable check in progress (R216, R217): self-test phase or baseline, its first chip (none: waits for the next chip boundary), the
phases repeated so far, the baseline's result; the self-test's g and result code not yet shown; how the check ends, not yet acted on. -/
structure CableTest where
  test : Bool := false
  start : Option Nat := none
  stRepeat : Bool := false
  baseRepeat : Bool := false
  base : Option EfmFit := none
  st : Option (Rat × Nat) := none
  verdict : Option CableEnd := none
  deriving DecidableEq, Repr

/-- The calibration step pair of R218: first half over, tick the half began (none: waits for the next chip boundary), and sums of EB (µA) and drive current (nA) with
their counts over the settled part of each half. -/
structure StepPair where
  minus : Bool := false
  start : Option Nat := none
  y : List Rat := [0, 0]
  i : List Rat := [0, 0]
  n : List Nat := [0, 0]
  deriving DecidableEq, Repr

/-- The residual self-test of R221: switched off again, when, a failed test was repeated, on-test passed; consecutive frames
at IDC or above, and they reached two. -/
structure RcdTest where
  off : Bool := false
  at_ : Nat := 0
  repeated : Bool := false
  good : Bool := false
  held : Nat := 0
  heldTwo : Bool := false
  deriving DecidableEq, Repr

/-- One lane's earth-fault monitor beyond its registers (R204 to R223). -/
structure EfmLane where
  chips : List EfmChip := []
  cur : EfmChip := {}
  lastU : Rat := 0
  lastMode : Nat := 0
  /-- Sum of the lane's voltage over the chip (numerator of `Metering`), its ticks; U_n in V. -/
  vSum : Int := 0
  vTicks : Nat := 0
  u : Rat := 0
  /-- Consecutive updates at the fault level, and at the warning level; lane and group warnings held. -/
  fCnt : Nat := 0
  wCnt : Nat := 0
  warn : Bool := false
  gwarn : Bool := false
  /-- Foreign codes of the last full window (R211). -/
  xprev : LaneSet := 0
  /-- The code drive v(EJ) in V, and the TEST bias on it (R204, R207). -/
  ej : Rat := 0
  bias : Bool := false
  /-- The cable check, and the step pair, that run on the lane. -/
  cc : Option CableTest := none
  step : Option StepPair := none
  /-- Frame sums of the residual current, newest first, with their ticks (R219); the running frame's; frames at fault. -/
  rcd : List (Int × Nat) := []
  rSum : Int := 0
  rTicks : Nat := 0
  rcCnt : Nat := 0
  /-- The test of the residual-current monitor that runs (R221). -/
  acTest : Option RcdTest := none
  /-- A committed value waits for the next chip boundary (R223). -/
  restart : Bool := false
  deriving DecidableEq, Repr

/-- A converter group's decisions (R214): consecutive updates at the fault and warning levels. -/
structure EfmGroup where
  fCnt : Nat := 0
  wCnt : Nat := 0
  deriving DecidableEq, Repr

/-- The earth-fault monitor beyond the EFM registers: chips started, a chip's windows to be solved; committed words that wait for the
next chip boundary (R223). -/
structure EfmState where
  lanes : List (Nat × EfmLane) := []
  groups : List (Nat × EfmGroup) := []
  chips : Nat := 0
  update : Bool := false
  waiting : List (Nat × Word) := []
  deriving DecidableEq, Repr

/-- A key-store command that runs (R363): its operation and arguments, and the blob of an IMPORT. -/
structure KeyRun where
  op : Nat
  slot : Nat
  typ : Nat
  use : Nat
  bind : Nat
  blob : List Byte := []
  deriving DecidableEq, Repr

/-- The key store beyond the KEY registers: the root secret and the slot copies, copy c of slot s at 2s + c, 96 bytes each, held in
the thermos die (R356, R361); the DRBG's key and counter, and the requests since its last seeding (R357); the command that runs. -/
structure KeyState where
  root : List Byte := []
  copies : List (Nat × List Byte) := []
  drbg : List Byte := []
  reqs : Nat := 0
  /-- The measurements are made: slots can be matched against them (R362). -/
  measured : Bool := false
  /-- The command that runs (R363). -/
  run : Option KeyRun := none
  deriving DecidableEq, Repr


/-- A headcount entry (R230); group 255 is none. -/
structure AlcEntry where
  lane : Nat
  cls : Nat
  disch : Bool
  group : Nat
  pmin : Nat
  pmax : Nat
  preq : Nat
  pdis : Nat
  gif : Int
  ewant : Nat
  remain : Nat
  deriving DecidableEq, Repr

/-- What a zone total says (R238): FLOOR, NEED, ABOVE, LANES of classes 0 to 3, and DWANT, DLANES. -/
structure ZoneSums where
  floor : List Nat := []
  need : List Nat := []
  above : List Nat := []
  lanes : List Nat := []
  dwant : Nat := 0
  dlanes : Nat := 0
  deriving DecidableEq, Repr

/-- A headcount or zone total (R229); `entries` of TYPE 0x01, `sums` of TYPE 0x02; limits of 0xFFFF_FFFF are none. -/
structure Headcount where
  typ : Nat := 0
  flags : Nat := 0
  level : Nat := 0
  devid : Nat := 0
  algver : Nat := 0
  tick : Nat := 0
  zone : Nat := 0
  gcap : List (Nat × Nat) := []
  gdig : Nat := 0
  zlimit : Nat := 0xFFFFFFFF
  zexp : Nat := 0xFFFFFFFF
  entries : List AlcEntry := []
  sums : ZoneSums := {}
  deriving DecidableEq, Repr

/-- A member of a leaf zone's table (R227, R242 to R244): its last headcount, ticks missing in a row, ticks of joining and of
mismatch left, mismatched in this tick, overruns in a row, received in this tick, seen twice in it, time-unsure; the grants
computed for its lanes for the tick in force and for the next. -/
structure AlcMember where
  last : Headcount := {}
  missed : Nat := 0
  join : Nat := 0
  mis : Nat := 0
  bad : Bool := false
  overs : Nat := 0
  got : Bool := false
  dup : Bool := false
  unsure : Bool := false
  held : List (Nat × Int) := []
  next : List (Nat × Int) := []
  deriving DecidableEq, Repr

/-- A child zone in a parent's table (R238 to R242): its last total, ticks missing in a row, ticks of joining left, overruns in a row,
mismatched in this tick, received in this tick, the f + a computed for its class entries and its discharge entry for the tick in force
and for the next. -/
structure AlcChild where
  last : Headcount := {}
  missed : Nat := 0
  join : Nat := 0
  overs : Nat := 0
  bad : Bool := false
  got : Bool := false
  held : List Nat := []
  next : List Nat := []
  deriving DecidableEq, Repr

/-- A zone above the leaf zone, as a representative of one of its children keeps it (R228, R238 to R241). -/
structure AlcParent where
  children : List (Nat × AlcChild) := []
  /-- This device is its representative in this tick, and in the next. -/
  rep : Bool := false
  repNext : Bool := false
  /-- The last computation lacked a child's total (R243). -/
  partialView : Bool := false
  /-- The last limits its own representative carried, and ticks since. -/
  limI : Option Nat := none
  limE : Option Nat := none
  stale : Nat := 0
  deriving DecidableEq, Repr

/-- A setpoint of R246 and R350: where it goes, and the instant, voltage, current and lane it carries. -/
structure AlcSetpoint where
  module : Nat
  apply : Nat
  v : Nat
  i : Nat
  out : Nat
  deriving DecidableEq, Repr

/-- What a computation answers (R233, R237), held until the computation completes: the grants of this device's lanes and the
INFO bits of each, capped groups, limits used, digest of the whole vector, setpoints, lanes without a module. -/
structure AlcResult where
  grants : List (Nat × Int) := []
  info : List (Nat × Nat) := []
  frozen : List Nat := []
  limI : Nat := 0
  limE : Nat := 0
  digest : Nat := 0
  setpoints : List AlcSetpoint := []
  nomod : List Nat := []
  deriving DecidableEq, Repr

/-- The allocation engine beyond the ALC registers (R224 to R246). -/
structure AlcState where
  members : List (Nat × AlcMember) := []
  up : List (Nat × AlcParent) := []
  /-- Frame of the last launch edge; the headcount was sent, and the cutoff taken, in this tick. -/
  launchAt : Nat := 0
  sent : Bool := false
  cut : Bool := false
  /-- A computation runs, and its result; a completed result waits for the launch edge. -/
  running : Option AlcResult := none
  ready : Option AlcResult := none
  /-- Representative of the leaf zone in this tick, and in the next. -/
  rep : Bool := false
  repNext : Bool := false
  /-- The leaf zone's last limits from its parent, and ticks since (R241). -/
  limI : Option Nat := none
  limE : Option Nat := none
  stale : Nat := 0
  /-- The zone was seen in part only (R243). -/
  partialView : Bool := false
  /-- The limits computed for this device's child zone at each level, for the next headcount; in force now. -/
  grantI : List (Nat × Nat) := []
  grantE : List (Nat × Nat) := []
  /-- This device's zone sums per level, to be sent in the next tick. -/
  sums : List (Nat × ZoneSums) := []
  /-- Messages of the last send. -/
  tx : List (List Byte) := []
  deriving DecidableEq, Repr

/-- A CAN FD frame sent (R348); `bad` when fault injection left its CRC wrong (R354). -/
structure CanFrame where
  port : Nat
  prio : Nat
  func : Nat
  dst : Nat
  data : List Byte
  bad : Bool := false
  deriving DecidableEq, Repr


/-- A message being put together from segments (R324): transport, originator, number, length, last index, segments so far. -/
structure MsgRx where
  proto : Nat
  osrc : Nat
  seq : Nat
  mlen : Nat
  last : Nat
  segs : List (Nat × List Byte)
  deriving DecidableEq, Repr

/-- A joining link (R343 to R346): frames sent and not yet acknowledged, with the resends made and the site bus bytes of the
frame; the round trip in ns; the far end takes its time through this device. -/
structure JlFrame where
  dst : Nat
  bcast : Bool
  mac : List Byte
  tries : Nat
  deriving DecidableEq, Repr

structure JLink where
  unacked : List JlFrame := []
  /-- Resends of the running second, of which LNK_JLk_ST shows the last one. -/
  resends : Nat := 0
  oneWay : Nat := 0
  /-- Devices the far end reaches, with their hops (R345). -/
  reach : List (Nat × Nat) := []
  deriving DecidableEq, Repr

/-- What IEEE 1588 keeps for the source port (R342): the Sync that waits for its Follow_Up (sequence number, receive time in
ns), the path delay, the Sync times of the last pair for the delay measurement, whether the best master is another clock,
and, as master, the numbers of messages sent. -/
structure PtpState where
  waiting : Option (Nat × Nat) := none
  delay : Option Int := none
  t1 : Nat := 0
  t2 : Nat := 0
  /-- Clocks heard on the source port: identity, priority vector as last announced. -/
  foreign : List (Nat × List Nat) := []
  /-- Number of the last Sync sent. -/
  syncSeq : Nat := 0
  /-- Messages the last command sent: kind (0 Sync, 1 Follow_Up, 2 Delay_Resp), port, sequence number, time in ns. -/
  tx : List (Nat × Nat × Nat × Nat) := []
  /-- Frame of the last Sync sent. -/
  sentAt : Nat := 0
  deriving DecidableEq, Repr

/-- An Ethernet frame of zone or safety traffic (R337, R339): port, destination and source address, what stands behind the Ethertype
0x88B5; `bad` when fault injection left its frame check wrong. -/
structure EthFrame where
  port : Nat
  dst : List Byte
  src : List Byte
  payload : List Byte
  bad : Bool := false
  deriving DecidableEq, Repr

/-- What an Ethernet port received: the payload of a headcount or total, or the PDU of a safety connection. -/
structure EthRx where
  conn : Option Nat
  bytes : List Byte
  bad : Bool := false
  deriving DecidableEq, Repr

/-- A module's frame as received (R348): port, address, function, data. -/
structure CanRx where
  port : Nat
  addr : Nat
  func : Nat
  data : List Byte
  bad : Bool := false
  deriving DecidableEq, Repr

/-- The other links beyond the LNK registers. -/
structure LnkState where
  /-- Ports off the bus (R351); frames the last command put on a bus, in order; setpoints that wait for a port. -/
  busOff : BitVec 4 := 0
  canTx : List CanFrame := []
  queued : List AlcSetpoint := []
  /-- Frame of the last TIME frames (R348). -/
  timeAt : Nat := 0
  /-- Frames held back by fault injection on their way out, and on their way in (R354). -/
  canHeld : Option CanFrame := none
  ethHeld : Option EthFrame := none
  jlHeld : Option JlFrame := none
  canIn : Option CanRx := none
  ethIn : Option EthRx := none
  jlIn : Option JlFrame := none
  /-- Joining links by number. -/
  jl : List (Nat × JLink) := []
  /-- Routes over the joining links: device, link, hops (R345). -/
  routes : List (Nat × Nat × Nat) := []
  /-- Frames that wait for a rebuilt route. -/
  waiting : List JlFrame := []
  /-- Broadcasts already seen: OSRC, SEQ and SEG. -/
  seen : List (Nat × Nat × Nat) := []
  /-- Acknowledgements and frames the last command put on the joining links: link, frame (none: an acknowledgement). -/
  jlTx : List (Nat × Option JlFrame) := []
  /-- IEEE 1588. -/
  ptp : PtpState := {}
  /-- Messages of which segments are still missing (R324, R345). -/
  rx : List MsgRx := []
  /-- Frames the last command put on the Ethernet ports (R339, R340). -/
  ethTx : List EthFrame := []
  /-- Number of the next message over the joining links. -/
  jlSeq : Nat := 0
  deriving DecidableEq, Repr

/-- A tone map of one band (R330). -/
structure ToneMap where
  mask : Nat := 0
  mode : Nat := 0
  deriving DecidableEq, Repr

/-- A neighbour on the site bus (R330): maps used towards it, maps chosen for its frames, worst ratio in use, failed frames in a
row, frame it was last heard and last refreshed, heard in the broadcast map, maps towards it suspended until its next one. -/
structure SbNbr where
  a : ToneMap := {}
  b : ToneMap := {}
  rxA : ToneMap := {}
  rxB : ToneMap := {}
  snr : Nat := 0
  fails : Nat := 0
  heard : Nat := 0
  refreshed : Option Nat := none
  direct : Bool := false
  robust : Bool := true
  deriving DecidableEq, Repr

/-- A frame on the site bus (R322, R323): its header bits and its MAC bytes. -/
structure SbFrame where
  hdr : Nat
  mac : List Byte
  deriving DecidableEq, Repr

/-- Structured messages, whose byte layout the spec does not give: a tone map for a neighbour, a link report, a route. -/
inductive SbMsg where
  | toneMap (dst band mask mode : Nat)
  | report (r : SbReport)
  | route (r : SbRoute)
  deriving DecidableEq, Repr

/-- The site bus beyond the SBU registers (R320 to R336). -/
structure SbuState where
  nbrs : List (Nat × SbNbr) := []
  /-- Route table in force, the one waiting for its tick, and the reports the master holds. -/
  table : List SbMember := []
  nextRoute : Option SbRoute := none
  reports : List SbReport := []
  /-- CALL of this cycle: seen, its TICK, device of the bulk turn; the master yields at the next cycle. -/
  callSeen : Bool := false
  callTick : Nat := 0
  bulkDev : Nat := 0
  yield : Bool := false
  /-- Turns of order 3 that have ended; the join turn has ended. -/
  turn : Nat := 0
  joined : Bool := false
  /-- Number of the next message, and messages of which segments are still missing (R324). -/
  seq : Nat := 0
  rx : List MsgRx := []
  /-- Frames to relay in this cycle, frames relayed (OSRC, SEQ, SEG), frames sent by the last command. -/
  relayQ : List SbFrame := []
  relayed : List (Nat × Nat × Nat) := []
  tx : List SbFrame := []
  /-- Structured messages the last command sent. -/
  msgs : List SbMsg := []
  /-- Structured messages waiting, and bulk messages waiting: destination (none: broadcast), PROTO, bytes. -/
  msgQ : List SbMsg := []
  bulkQ : List (Option Nat × Nat × List Byte) := []
  /-- Safety PDUs queued for the site bus, with their connection (R328). -/
  pduQ : List (Nat × List Byte) := []
  /-- A frame that fault injection holds back (R336). -/
  held : Option SbFrame := none
  /-- Device that last had the bulk turn, at the master. -/
  lastBulk : Nat := 0
  /-- Members that set the bulk-pending flag in their last headcount. -/
  wantBulk : List Nat := []
  /-- Frame in which a frame of each originator was last heard, directly or relayed. -/
  origins : List (Nat × Nat) := []
  deriving DecidableEq, Repr

/-- The update manager beyond the UPD registers (R372 to R383). Held through every start in the thermos die or in flash: the
state of the rucksack, the trial, the delivery record, the bitmap's blocks (in UPD_BMAPw) and the rucksack's bytes. -/
structure UpdState where
  bank : Nat := 0
  trial : Bool := false
  tag : Nat := 0
  /-- Blocks of the open delivery; 0: no record. -/
  nblk : Nat := 0
  /-- Rucksack bytes that are not erased (0xFF). -/
  flash : List Host.Cell := []
  /-- The image in the rucksack once it verified, and the image that runs. -/
  ruck : Option BankImage := none
  run : Option BankImage := none
  /-- An ACT of this frame, tested at its edge (R378). -/
  actReq : Bool := false
  /-- A CONFIRM of this frame, taken at its edge (R382). -/
  confReq : Bool := false
  /-- Frame at which an accepted activation takes place (R379). -/
  actAt : Option Nat := none
  /-- Frame since which no condition of R378 has held. -/
  idleSince : Option Nat := none
  deriving DecidableEq, Repr

/-- A DMA channel beyond its registers (R384 to R396). -/
structure DmaChan where
  /-- Configuration taken at START (R396). -/
  irq : Bool := false
  wb : Bool := false
  level : Nat := 0
  /-- Address of the current or next leg, the leg as fetched, and its bytes moved. -/
  legAddr : Nat := 0
  src : Nat := 0
  dst : Nat := 0
  len : Nat := 0
  flags : Nat := 0
  moved : Nat := 0
  /-- Credit of R391. -/
  credit : Int := 0
  /-- Completion interrupts raised since the start of the device. -/
  irqs : Nat := 0
  deriving DecidableEq, Repr

/-- A card reader (R397 to R401). -/
structure Reader where
  /-- Baseline reading; none before the first ping. -/
  base : Option Nat := none
  /-- The next ping gives the baseline. -/
  rebase : Bool := false
  /-- Consecutive pings at or above DET, and out of range. -/
  overs : Nat := 0
  bad : Nat := 0
  /-- Frame at which the transmission, or the card session, began. -/
  since : Nat := 0
  /-- The next poll is REQB; polls sent in this transmission. -/
  nextB : Bool := false
  lastB : Bool := false
  polls : Nat := 0
  /-- The carrier is on. -/
  carrier : Bool := false
  /-- Frame of the last ping. -/
  pingAt : Option Nat := none
  deriving DecidableEq, Repr

/-- What the service tag last answered (R402 to R406). -/
inductive TagReply where
  | none | ok | uid | system (blocks size : Nat) | data (bytes : List Byte) | error (code : Byte)
  deriving DecidableEq, Repr

/-- Readers and the service tag beyond the NFC registers. -/
structure NfcState where
  readers : List (Nat × Reader) := []
  /-- Service tag: staging area, held in the thermos die; quiet, selected; HARV driven; the supply harvested, in mV. -/
  staging : List Host.Cell := []
  quiet : Bool := false
  selected : Bool := false
  harv : Bool := false
  /-- The tag's last answer. -/
  reply : TagReply := .none
  /-- Stage 0x4 works on the staging area (R406); a commit asks for a warm start (R405). -/
  locked : Bool := false
  restart : Bool := false
  deriving DecidableEq, Repr

/-- The display beyond the DPY registers (R409 to R415). -/
structure DpyState where
  /-- Rails VEN0 to VEN2, emission, segment scan. -/
  ven : BitVec 3 := 0
  emis : Bool := false
  scan : Bool := false
  /-- Frame of the next rail step; the way down is the fast one of a power-fail warning; ON was held; the black frame of the way
  down was sent, or none is owed. -/
  stepAt : Nat := 0
  fast : Bool := false
  onHeld : Bool := false
  black : Bool := false
  /-- Latched at the last frame start: buffer, gamma codes of red, green and blue in turn, reference currents in 0.1 µA. -/
  fbase : Nat := 0
  gamma : List Nat := []
  iref : List Nat := []
  /-- Frames in a row with a colour's reference ball out of range. -/
  refBad : List Nat := [0, 0, 0]
  /-- Segment glass: the next frame is a positive one; data latched, by common slot. -/
  positive : Bool := true
  seg : List Nat := []
  deriving DecidableEq, Repr

/-- A line in the L2 directory (R417, R418): the core that owns it, and the cores that share it. -/
structure DirLine where
  owner : Option Nat := none
  sharers : BitVec 4 := 0
  deriving DecidableEq, Repr

/-- What the extension was given at its start (R423, R426): readable and writable blocks, its windows in DRAM and tick memory as
addresses of R384 with their sizes in bytes, its slice in 10 µs, XVMAX. -/
structure ExtReach where
  reads : Nat := 0
  writes : Nat := 0
  dram : Nat × Nat := (0x80000000, 0)
  tick : Nat × Nat := (0x20000000, 0)
  slice : Nat := 20
  vmax : Nat := 16
  deriving DecidableEq, Repr

/-- The service cluster beyond the CLU registers (R417 to R424). -/
structure CluState where
  dir : List (Nat × DirLine) := []
  /-- Core whose turn is next, the grants of the last cycle in order, and the cores that got a bus error. -/
  next : Nat := 0
  grants : List Nat := []
  busErr : List Nat := []
  /-- 8-byte-aligned DMA addresses of poisoned words (R422). -/
  poison : List Nat := []
  /-- DRAM accesses of the DMA engine in this frame, by bank. -/
  banks : List (Nat × Nat) := []
  /-- Frames of the last refusals (R424). -/
  refusals : List Nat := []
  /-- Reach and limits of the extension as taken at its start (R423). -/
  ext : ExtReach := {}
  /-- The extension is in its slice. -/
  slice : Bool := false
  /-- What the last refused read returned. -/
  readBack : Word := 0
  deriving DecidableEq, Repr


/-- The whole machine. -/
structure State where
  /-- Register words that differ from their reset value, by absolute address (R62). -/
  regs : RegFile
  /-- The last value of each critical register word that passed its check (R74), where it differs from reset. -/
  gold : RegFile
  /-- Register bus: pending, held and captured words, reply of the host port. -/
  bus : BusState
  /-- Ticks, site time, fences. -/
  clk : ClkState
  /-- Start-up, lane types, heads. -/
  boot : BootState
  /-- Fault collector. -/
  flt : FltState
  /-- Journalled events in the order they were stamped, newest first; `journalList` lists them as R61 has it. -/
  journal : List JEvent
  /-- Tick memory, 8 MB, and above it the DRAM (see the log): bytes by address. -/
  mem : List Host.Cell
  /-- Metrology engine. -/
  met : MetState
  /-- Billing unit. -/
  bil : BilState
  /-- Thermos die. -/
  thm : ThmState
  /-- Pilot and session unit. -/
  pil : PilState
  /-- Switch array and start scheduler. -/
  swa : SwaState
  /-- Inputs as latched at the last edge. -/
  pins : PinState
  /-- Safety supervisor. -/
  saf : SafState
  /-- Earth-fault monitor. -/
  efm : EfmState
  /-- Key store. -/
  key : KeyState
  /-- Allocation engine. -/
  alc : AlcState
  /-- Ethernet, joining links, CAN FD, host port. -/
  lnk : LnkState
  /-- Update manager. -/
  upd : UpdState
  /-- Site bus. -/
  sbu : SbuState
  /-- DMA channels by number. -/
  dma : List (Nat × DmaChan)
  /-- Card readers and the service tag. -/
  nfc : NfcState
  /-- Display. -/
  dpy : DpyState
  /-- Service cluster and memory. -/
  clu : CluState
  /-- The model's own: how many free values have been drawn (log entry 2). -/
  freeCtr : Nat
  /-- Commands waiting, first in, first out. -/
  pending : List Instr
  deriving DecidableEq, Repr

/-- A fault that stops the machine. No command of the table ends in one: the constructor keeps the type inhabited, is raised
by nothing, and is safe. -/
inductive Fault where
  /-- Raised by nothing; safe. -/
  | halted
  deriving DecidableEq, Repr

/-- Why a command has no meaning. -/
inductive Refusal where
  /-- Raised by the arm of `exec` of a command not modelled yet, by the mnemonic of the table; safe. -/
  | notModelled (mnemonic : String)
  deriving DecidableEq, Repr

/-- The machine right after reset: every register at the value the spec gives or the assumption log names, nothing in
memory, stage 0x0, no command waiting. -/
def State.reset : State where
  regs := []
  gold := []
  bus := {}
  clk := {}
  boot := {}
  flt := {}
  journal := []
  mem := []
  met := {}
  bil := {}
  thm := {}
  pil := {}
  swa := {}
  pins := {}
  saf := {}
  efm := {}
  key := {}
  alc := {}
  lnk := {}
  upd := {}
  sbu := {}
  dma := []
  nfc := {}
  dpy := {}
  clu := {}
  freeCtr := 0
  pending := []

/-- `s` with `regs` replaced. -/
def State.setRegs (s : State) (v : RegFile) : State := { s with regs := v }

/-- `s` with `gold` replaced. -/
def State.setGold (s : State) (v : RegFile) : State := { s with gold := v }

/-- `s` with `bus` replaced. -/
def State.setBus (s : State) (v : BusState) : State := { s with bus := v }

/-- `s` with `clk` replaced. -/
def State.setClk (s : State) (v : ClkState) : State := { s with clk := v }

/-- `s` with `boot` replaced. -/
def State.setBoot (s : State) (v : BootState) : State := { s with boot := v }

/-- `s` with `flt` replaced. -/
def State.setFlt (s : State) (v : FltState) : State := { s with flt := v }

/-- `s` with `journal` replaced. -/
def State.setJournal (s : State) (v : List JEvent) : State := { s with journal := v }

/-- `s` with `mem` replaced. -/
def State.setMem (s : State) (v : List Host.Cell) : State := { s with mem := v }

/-- `s` with `met` replaced. -/
def State.setMet (s : State) (v : MetState) : State := { s with met := v }

/-- `s` with `bil` replaced. -/
def State.setBil (s : State) (v : BilState) : State := { s with bil := v }

/-- `s` with `thm` replaced. -/
def State.setThm (s : State) (v : ThmState) : State := { s with thm := v }

/-- `s` with `pil` replaced. -/
def State.setPil (s : State) (v : PilState) : State := { s with pil := v }

/-- `s` with `swa` replaced. -/
def State.setSwa (s : State) (v : SwaState) : State := { s with swa := v }

/-- `s` with `pins` replaced. -/
def State.setPins (s : State) (v : PinState) : State := { s with pins := v }

/-- `s` with `saf` replaced. -/
def State.setSaf (s : State) (v : SafState) : State := { s with saf := v }

/-- `s` with `efm` replaced. -/
def State.setEfm (s : State) (v : EfmState) : State := { s with efm := v }

/-- `s` with `key` replaced. -/
def State.setKey (s : State) (v : KeyState) : State := { s with key := v }

/-- `s` with `alc` replaced. -/
def State.setAlc (s : State) (v : AlcState) : State := { s with alc := v }

/-- `s` with `lnk` replaced. -/
def State.setLnk (s : State) (v : LnkState) : State := { s with lnk := v }

/-- `s` with `upd` replaced. -/
def State.setUpd (s : State) (v : UpdState) : State := { s with upd := v }

/-- `s` with `sbu` replaced. -/
def State.setSbu (s : State) (v : SbuState) : State := { s with sbu := v }

/-- `s` with `dma` replaced. -/
def State.setDma (s : State) (v : List (Nat × DmaChan)) : State := { s with dma := v }

/-- `s` with `nfc` replaced. -/
def State.setNfc (s : State) (v : NfcState) : State := { s with nfc := v }

/-- `s` with `dpy` replaced. -/
def State.setDpy (s : State) (v : DpyState) : State := { s with dpy := v }

/-- `s` with `clu` replaced. -/
def State.setClu (s : State) (v : CluState) : State := { s with clu := v }

/-- `s` with `freeCtr` replaced. -/
def State.setFreeCtr (s : State) (v : Nat) : State := { s with freeCtr := v }

/-- `s` with `pending` replaced. -/
def State.setPending (s : State) (v : List Instr) : State := { s with pending := v }

end Sys2Proof.Machine
end

