-- ==== Sys2Proof/Machine/Ops.lean ====
section
/-!
DEFINITION. Named operations over the state: sorted association lists, the register file and its reset values,
reading and writing a register field, complement pairs, the records of one lane.
-/

namespace Sys2Proof.Machine

open Sys2Proof

/-! ## Association lists, sorted by key, listing no default value -/

/-- The value at key `x`, `d x` where nothing is listed. -/
def lk {α : Type} (d : Nat → α) : List (Nat × α) → Nat → α
  | [], x => d x
  | (k, v) :: m, x => if x = k then v else lk d m x

/-- The list without key `x`. -/
def dropKey {α : Type} (x : Nat) (m : List (Nat × α)) : List (Nat × α) := m.filter fun e => e.1 ≠ x

/-- Put `v` at key `x`; a default value leaves the list. -/
def put {α : Type} [DecidableEq α] (d : Nat → α) : List (Nat × α) → Nat → α → List (Nat × α)
  | [], x, v => if v = d x then [] else [(x, v)]
  | (k, w) :: m, x, v =>
    if k < x then (k, w) :: put d m x v
    else if v = d x then dropKey x ((k, w) :: m) else (x, v) :: dropKey x ((k, w) :: m)

/-- Keys strictly rising from above `lo`, and no value the default: the canonical form. -/
def wfFrom {α : Type} [DecidableEq α] (d : Nat → α) : Option Nat → List (Nat × α) → Bool
  | _, [] => true
  | lo, (k, v) :: m => (match lo with | none => true | some l => decide (l < k)) && decide (v ≠ d k) && wfFrom d (some k) m

/-- Element `i` of a list replaced by `v`. -/
def setAt {α : Type} : List α → Nat → α → List α
  | [], _, _ => []
  | _ :: xs, 0, v => v :: xs
  | x :: xs, i + 1, v => x :: setAt xs i v

/-- Element `i` of a list of numbers, 0 beyond its end. -/
def nth (xs : List Nat) (i : Nat) : Nat := xs.getD i 0

/-- All lanes, L00 first. -/
def lanesAll : List Nat := List.range 32

/-- Lane set holding only lane `n`. -/
def laneBit (n : Nat) : LaneSet := BitVec.ofNat 32 (2 ^ n)

/-- Is lane `n` in the set? -/
def inSet (m : LaneSet) (n : Nat) : Bool := m.getLsbD n

/-! ## The register map -/

/-- Block index of an address (R62); 19 where no block lies. -/
def blockOf (a : Nat) : Nat :=
  match a / 0x10000 with
  | 0 => 0 | 1 => 1 | 2 => 2 | 3 => 3 | 4 => 4 | 5 => 4 | 6 => 5 | 7 => 6 | 8 => 7 | 9 => 7 | 10 => 8 | 11 => 9
  | 12 => 10 | 13 => 11 | 14 => 12 | 15 => 13 | 16 => 14 | 17 => 15 | 18 => 16 | 19 => 17 | 20 => 18 | _ => 19

/-- Base address of a block (R62). -/
def blockBase (b : Nat) : Nat :=
  match b with
  | 0 => 0 | 1 => 0x10000 | 2 => 0x20000 | 3 => 0x30000 | 4 => 0x40000 | 5 => 0x60000 | 6 => 0x70000 | 7 => 0x80000
  | 8 => 0xA0000 | 9 => 0xB0000 | 10 => 0xC0000 | 11 => 0xD0000 | 12 => 0xE0000 | 13 => 0xF0000 | 14 => 0x100000
  | 15 => 0x110000 | 16 => 0x120000 | 17 => 0x130000 | 18 => 0x140000 | _ => 0x150000

/-- The registers of a block. -/
def blockRegs (b : Nat) : List RegDesc :=
  match b with
  | 0 => regsSYS | 1 => regsTCK | 2 => regsFLT | 3 => regsDMA | 4 => regsMET | 5 => regsBIL | 6 => regsEFM | 7 => regsPIL
  | 8 => regsALC | 9 => regsSWA | 10 => regsSAF | 11 => regsKEY | 12 => regsUPD | 13 => regsSBU | 14 => regsLNK
  | 15 => regsNFC | 16 => regsDPY | 17 => regsTHM | 18 => regsCLU | _ => []

/-- A register found at an address: its row, its two indices, the word of it, and whether it is the complement shadow. -/
structure RegHit where
  d : RegDesc
  i : Nat
  j : Nat
  w : Nat
  shadow : Bool
  deriving DecidableEq, Repr

/-- Indices and word of the copy of `d` at block offset `o`, if one lies there. -/
def RegDesc.at? (d : RegDesc) (o : Nat) : Option (Nat × Nat × Nat) :=
  if o < d.ofs then none
  else
    let x := o - d.ofs
    let i := if d.s1 = 0 then 0 else x / d.s1
    let y := if d.s1 = 0 then x else x % d.s1
    let j := if d.s2 = 0 then 0 else y / d.s2
    let z := if d.s2 = 0 then y else y % d.s2
    if i < d.n1 && j < d.n2 && z < 4 * d.words then some (i, j, z / 4) else none

/-- The register of a list at block offset `o`: itself or its shadow (R74). -/
def findReg (o : Nat) : List RegDesc → Option RegHit
  | [] => none
  | d :: ds =>
    match d.at? o with
    | some (i, j, w) => some ⟨d, i, j, w, false⟩
    | none =>
      if d.shadow = 0 || o < d.shadow then findReg o ds
      else
        match d.at? (o - d.shadow) with
        | some (i, j, w) => some ⟨d, i, j, w, true⟩
        | none => findReg o ds

/-- The register at an absolute word address (R62, R63); none where no register lies (R64). -/
def regAt (a : Nat) : Option RegHit := findReg (a - blockBase (blockOf a)) (blockRegs (blockOf a))

/-- The bits of field `f` that lie in word `w` of its register. -/
def FieldDesc.mask (f : FieldDesc) (w : Nat) : Nat :=
  if f.hi < 32 * w || 32 * w + 31 < f.lo then 0
  else
    let l := max f.lo (32 * w) - 32 * w
    let h := min f.hi (32 * w + 31) - 32 * w
    (2 ^ (h + 1 - l) - 1) * 2 ^ l

/-- The part of field `f`'s reset value that lies in word `w`. -/
def FieldDesc.resetPart (f : FieldDesc) (w : Nat) : Nat := f.reset * 2 ^ f.lo / 2 ^ (32 * w) % 2 ^ 32

/-- The bits of word `w` of `d` whose fields have access code `a`. -/
def RegDesc.mask (d : RegDesc) (a : Acc) (w : Nat) : Nat :=
  d.fields.foldl (fun m f => if f.acc = a then m + f.mask w else m) 0

/-- The bits of word `w` of `d` held in the thermos die. -/
def RegDesc.heldMask (d : RegDesc) (w : Nat) : Nat :=
  d.fields.foldl (fun m f => if f.held then m + f.mask w else m) 0

/-- Reset value of the word found, before a shadow is complemented: the tables' values, EFM_Ln_INJ.SHIFT = 2n and the
gamma codes 4i + i div 64. -/
def RegHit.resetValue (h : RegHit) (a : Nat) : Nat :=
  let v := h.d.fields.foldl (fun m f => m + f.resetPart h.w) 0
  if blockOf a = 6 && h.d.ofs = 0x010 && h.d.s1 = 0x400 then v + 2 * h.i * 2 ^ 24
  else if blockOf a = 16 && h.d.ofs = 0x1000 then 4 * h.j + h.j / 64
  else v

/-- The value of the register word at `a` after reset; a shadow word holds the complement (R74); 0 where no register
lies (R64). -/
def resetWord (a : Nat) : Word :=
  match regAt a with
  | none => 0
  | some h =>
    let v := BitVec.ofNat 32 (h.resetValue a)
    if h.shadow then ~~~v else v

/-! ## Reading and writing registers -/

/-- The stored word at address `a`. -/
def State.word (s : State) (a : Nat) : Word := lk resetWord s.regs a

/-- Store a word. -/
def State.setWord (s : State) (a : Nat) (v : Word) : State := s.setRegs (put resetWord s.regs a v)

/-- Is the pair of the critical word at `a` good (R74)? -/
def State.pairGood (s : State) (a sh : Nat) : Bool := decide (s.word (a + sh) = ~~~(s.word a))

/-- The word a user of the register sees: of a critical register whose pair fails, the last value that passed (R74). -/
def State.useWord (s : State) (a sh : Nat) : Word :=
  if sh = 0 then s.word a else if s.pairGood a sh then s.word a else lk resetWord s.gold a

/-- `k` consecutive words from `a`, least significant first (R3). -/
def State.useWords (s : State) (a sh : Nat) : Nat → Nat
  | 0 => 0
  | k + 1 => (s.useWord a sh).toNat + 2 ^ 32 * s.useWords (a + 4) sh k

/-- Store a word of a register that hardware changes: a critical one together with its complement and as the last good
value (R74, R16). -/
def State.putWord (s : State) (a sh : Nat) (v : Word) : State :=
  if sh = 0 then s.setWord a v
  else ((s.setWord a v).setWord (a + sh) (~~~v)).setGold (put resetWord s.gold a v)

/-- Store `k` consecutive words, least significant first. -/
def State.putWords (s : State) (a sh : Nat) : Nat → Nat → State
  | 0, _ => s
  | k + 1, v => (s.putWord a sh (BitVec.ofNat 32 v)).putWords (a + 4) sh k (v / 2 ^ 32)

/-- Bits `hi:lo` of `v`. -/
def bits (v hi lo : Nat) : Nat := v / 2 ^ lo % 2 ^ (hi + 1 - lo)

/-- `v` with bits `hi:lo` replaced by `x`. -/
def setBits (v hi lo x : Nat) : Nat :=
  v - bits v hi lo * 2 ^ lo + x % 2 ^ (hi + 1 - lo) * 2 ^ lo

/-- The value of field `f` in a word as written. -/
def Fld.of (f : Fld) (v : Nat) : Nat := bits v f.hi f.lo

/-- Number of bits of a field. -/
def Fld.width (f : Fld) : Nat := f.hi + 1 - f.lo

/-- The largest value of a field. -/
def Fld.max (f : Fld) : Nat := 2 ^ f.width - 1

/-- The value of a field, as its users see it. -/
def State.rd (s : State) (f : Fld) : Nat := bits (s.useWords f.addr f.sh (f.hi / 32 + 1)) f.hi f.lo

/-- The value of a signed field (R2). -/
def State.rdS (s : State) (f : Fld) : Int := signedOf f.width (s.rd f)

/-- Is the field not zero? -/
def State.on (s : State) (f : Fld) : Bool := s.rd f ≠ 0

/-- Bit `i` of a field. -/
def State.rdBit (s : State) (f : Fld) (i : Nat) : Bool := bitOf (s.rd f) i

/-- Hardware sets a field. -/
def State.wr (s : State) (f : Fld) (v : Nat) : State :=
  s.putWords f.addr f.sh (f.hi / 32 + 1) (setBits (s.useWords f.addr f.sh (f.hi / 32 + 1)) f.hi f.lo v)

/-- Hardware sets a signed field, saturating to its range. -/
def State.wrS (s : State) (f : Fld) (v : Int) : State := s.wr f (codeOf f.width (satSigned f.width v))

/-- Hardware sets an unsigned field, saturating to its range. -/
def State.wrSat (s : State) (f : Fld) (v : Nat) : State := s.wr f (satNat f.max v)

/-- Hardware sets a one-bit field. -/
def State.wrB (s : State) (f : Fld) (b : Bool) : State := s.wr f (b2n b)

/-- Hardware sets bit `i` of a field. -/
def State.wrBit (s : State) (f : Fld) (i : Nat) (b : Bool) : State := s.wr f (setBits (s.rd f) i i (b2n b))

/-- Hardware sets a lane set held in a field. -/
def State.wrSet (s : State) (f : Fld) (m : LaneSet) : State := s.wr f m.toNat

/-- A lane set read from a field. -/
def State.rdSet (s : State) (f : Fld) : LaneSet := BitVec.ofNat 32 (s.rd f)

/-- Draw a free value, and mark it drawn (log entry 2). -/
def State.draw (s : State) : Nat × State := (Config.freeValue s.freeCtr, s.setFreeCtr (s.freeCtr + 1))

/-- Apply `f` for every number of a list in turn. -/
def State.each (s : State) (ns : List Nat) (f : State → Nat → State) : State := ns.foldl f s

/-- Apply `f` when `b` holds. -/
def State.when (s : State) (b : Bool) (f : State → State) : State := if b then f s else s

/-! ## Records by index -/

/-- The configuration of lane `n`. -/
def State.laneCfg (s : State) (n : Nat) : LaneCfg := lk (fun _ => {}) s.boot.lanes n

def State.laneType (s : State) (n : Nat) : LaneType := (s.laneCfg n).typ

def State.head (s : State) (n : Nat) : HeadState := lk (fun _ => {}) s.boot.heads n

/-- Is a head declared present that has not failed roll call or a lane item (R40)? -/
def HeadState.serves (h : HeadState) : Bool := h.present && !h.failed

def State.modBoot (s : State) (f : BootState → BootState) : State := s.setBoot (f s.boot)

def State.modHead (s : State) (n : Nat) (f : HeadState → HeadState) : State :=
  s.modBoot fun b => { b with heads := put (fun _ => {}) b.heads n (f (s.head n)) }

def State.modAt (s : State) (m : Nat) : ModState := lk (fun _ => {}) s.boot.mods m

def State.modModule (s : State) (m : Nat) (f : ModState → ModState) : State :=
  s.modBoot fun b => { b with mods := put (fun _ => {}) b.mods m (f (s.modAt m)) }

def State.modClk (s : State) (f : ClkState → ClkState) : State := s.setClk (f s.clk)

def State.modBus (s : State) (f : BusState → BusState) : State := s.setBus (f s.bus)

def State.modFlt (s : State) (f : FltState → FltState) : State := s.setFlt (f s.flt)

def State.modMet (s : State) (f : MetState → MetState) : State := s.setMet (f s.met)

def State.stream (s : State) (k : Nat) : StreamState := lk (fun _ => {}) s.met.streams k

def State.modStream (s : State) (k : Nat) (f : StreamState → StreamState) : State :=
  s.modMet fun m => { m with streams := put (fun _ => {}) m.streams k (f (s.stream k)) }

def State.metLane (s : State) (n : Nat) : MetLane := lk (fun _ => {}) s.met.lanes n

def State.modMetLane (s : State) (n : Nat) (f : MetLane → MetLane) : State :=
  s.modMet fun m => { m with lanes := put (fun _ => {}) m.lanes n (f (s.metLane n)) }

def State.modCap (s : State) (f : CapState → CapState) : State := s.modMet fun m => { m with cap := f m.cap }

def State.modBil (s : State) (f : BilState → BilState) : State := s.setBil (f s.bil)

def State.bilLane (s : State) (n : Nat) : BilLane := lk (fun _ => {}) s.bil.lanes n

def State.modBilLane (s : State) (n : Nat) (f : BilLane → BilLane) : State :=
  s.modBil fun b => { b with lanes := put (fun _ => {}) b.lanes n (f (s.bilLane n)) }

def State.modThm (s : State) (f : ThmState → ThmState) : State := s.setThm (f s.thm)

def State.modPil (s : State) (f : PilState → PilState) : State := s.setPil (f s.pil)

def State.pilLane (s : State) (n : Nat) : PilLane := lk (fun _ => {}) s.pil.lanes n

def State.modPilLane (s : State) (n : Nat) (f : PilLane → PilLane) : State :=
  s.modPil fun p => { p with lanes := put (fun _ => {}) p.lanes n (f (s.pilLane n)) }

/-! ## Lanes and groups (R27 to R31) -/

/-- The lead lane of the outlet lane `n` belongs to (R29). -/
def State.lead (s : State) (n : Nat) : Nat :=
  match s.laneType n with
  | .ac3lower => n - 1
  | .ac3upper => n - 2
  | _ => n

/-- The lanes of lane `n`'s group, lead first (R30). -/
def State.groupOf (s : State) (n : Nat) : List Nat :=
  match s.laneType n with
  | .ac3lead => [n, n + 1, n + 2]
  | .ac3lower => [n - 1, n, n + 1]
  | .ac3upper => [n - 2, n - 1, n]
  | _ => [n]

/-- A lane set widened to whole groups (R30). -/
def State.widen (s : State) (m : LaneSet) : LaneSet :=
  lanesAll.foldl (fun a n => if inSet m n then (s.groupOf n).foldl (fun b k => b ||| laneBit k) a else a) 0

/-- Lanes that carry an outlet: DC, AC single-phase and lead lanes (R28). -/
def LaneType.outlet : LaneType → Bool
  | .dc => true | .ac1 => true | .ac3lead => true | _ => false

/-- Is the lane's type AC? -/
def LaneType.isAc : LaneType → Bool
  | .ac1 => true | .ac3lead => true | .ac3lower => true | .ac3upper => true | _ => false

/-- A member lane of a bonded group that is not the lead (R29). -/
def LaneType.member : LaneType → Bool
  | .ac3lower => true | .ac3upper => true | _ => false

/-- The outlet lanes of the device. -/
def State.outlets (s : State) : List Nat := lanesAll.filter fun n => (s.laneType n).outlet

/-- The lanes whose type is not unused. -/
def State.usedLanes (s : State) : List Nat := lanesAll.filter fun n => s.laneType n ≠ .unused

end Sys2Proof.Machine
end

