-- ==== Sys2Proof/Machine/Burli.lean ====
section
/-!
DEFINITION. The Burli allocator (R233 to R236): class-ordered water-filling over a list of entries in fixed order, in exact
integers.
-/

namespace Sys2Proof.Machine

open Sys2Proof

/-- One entry of a computation: who it is (device or child zone, lane or class), its class and converter group (none: no
group cap), floor, headroom, urgent need, weight, amount above the floor, and whether its group is frozen. -/
structure BurliEntry where
  dev : Nat
  lane : Nat
  cls : Nat
  group : Option Nat := none
  f : Nat := 0
  h : Nat := 0
  n : Nat := 0
  w : Nat := 1
  a : Nat := 0
  frozen : Bool := false
  deriving DecidableEq, Repr

/-- `capx` of R233. -/
def BurliEntry.cap (e : BurliEntry) (need : Bool) : Nat := if need then e.n else e.h

/-- The amount at level `l`, never below what is held. -/
def BurliEntry.atLevel (e : BurliEntry) (need : Bool) (l : Nat) : Nat := max e.a (min (e.cap need) (e.w * l))

/-- What a level hands out over a set. -/
def levelCost (es : List BurliEntry) (need : Bool) (l : Nat) : Nat := es.foldl (fun t e => t + (e.atLevel need l - e.a)) 0

/-- The binary search of R233: from `lo`, `hi`, in `k` halvings. -/
def levelSearch (es : List BurliEntry) (need : Bool) (avail : Nat) : Nat → Nat → Nat → Nat
  | 0, lo, _ => lo
  | k + 1, lo, hi =>
    let mid := (lo + hi) / 2
    if levelCost es need mid ≤ avail then levelSearch es need avail k mid hi else levelSearch es need avail k lo mid

/-- The level of a round: the halvings of 2^32 down to 1. -/
def burliLevel (es : List BurliEntry) (need : Bool) (avail : Nat) : Nat := levelSearch es need avail 32 0 (2 ^ 32)

/-- The remainder below one step of the level, handed out in fixed order. -/
def handOut (sel : BurliEntry → Bool) (need : Bool) (l : Nat) : List BurliEntry → Nat → List BurliEntry × Nat
  | [], avail => ([], avail)
  | e :: es, avail =>
    let add := if sel e && e.a < e.cap need && e.w * l ≤ e.a then min e.w (min (e.cap need - e.a) avail) else 0
    let (rest, left) := handOut sel need l es (avail - add)
    ({ e with a := e.a + add } :: rest, left)

/-- `fill` of R233 over the entries that `sel` selects. -/
def fill (sel : BurliEntry → Bool) (need : Bool) (es : List BurliEntry) (avail : Nat) : List BurliEntry × Nat :=
  let set := es.filter sel
  let l := burliLevel set need avail
  let left := avail - levelCost set need l
  handOut sel need l (es.map fun e => if sel e then { e with a := e.atLevel need l } else e) left

/-- One class: need, then want. -/
def fillClass (sel : BurliEntry → Bool) (es : List BurliEntry) (avail : Nat) : List BurliEntry × Nat :=
  let (es, avail) := fill sel true es avail
  fill sel false es avail

/-- Classes 3 down to 0, among the entries that `sel` selects. -/
def fillAll (sel : BurliEntry → Bool) (es : List BurliEntry) (avail : Nat) : List BurliEntry × Nat :=
  [3, 2, 1, 0].foldl (fun r c => fillClass (fun e => sel e && e.cls = c) r.1 r.2) (es, avail)

/-- Entries ordered by class, 3 first, fixed order within a class. -/
def byClass (es : List BurliEntry) : List BurliEntry := [3, 2, 1, 0].flatMap fun c => es.filter fun e => e.cls = c

/-- Floors in class order while the limit allows: the entries given their floor, and what is left. -/
def floorsFit : List BurliEntry → Nat → List BurliEntry × Nat
  | [], left => ([], left)
  | e :: es, left =>
    if e.f ≤ left then
      let (xs, l) := floorsFit es (left - e.f)
      (e :: xs, l)
    else ([], left)

/-- Sum of the floors. -/
def floorSum (es : List BurliEntry) : Nat := es.foldl (fun t e => t + e.f) 0

/-- grant_floors (R234): the entries, what is left, and whether the floors exceeded the limit. -/
def grantFloors (es : List BurliEntry) (limit : Nat) : List BurliEntry × Nat × Bool :=
  if floorSum es ≤ limit then (es, limit - floorSum es, false)
  else
    let (kept, left) := floorsFit (byClass es) limit
    let keep (e : BurliEntry) : Bool := kept.any fun k => k.dev = e.dev && k.lane = e.lane && k.cls = e.cls
    (es.map fun e => if keep e then e else { e with f := 0, h := 0, n := 0 }, left, true)

/-- Capacity of a group: 0 where no headcount gave one (R236). -/
def capOf (caps : List ((Nat × Nat) × Nat)) (dev g : Nat) : Nat :=
  match caps.find? fun c => c.1 = (dev, g) with
  | some c => c.2
  | none => 0

/-- What the entries of a group hold together. -/
def groupHolds (es : List BurliEntry) (dev g : Nat) : Nat :=
  es.foldl (fun t e => if e.dev = dev && e.group = some g then t + e.f + e.a else t) 0

/-- One pass of R236 for group `g` of `dev`. -/
def capPass (es : List BurliEntry) (avail dev g cap : Nat) : List BurliEntry × Nat :=
  let mine (e : BurliEntry) : Bool := e.dev = dev && e.group = some g
  let before := groupHolds es dev g
  let floors := floorSum (es.filter mine)
  let (es, _) := fillAll mine (es.map fun e => if mine e then { e with a := 0 } else e) (cap - floors)
  let es := es.map fun e => if mine e then { e with frozen := true } else e
  fillAll (fun e => !e.frozen) es (avail + (before - groupHolds es dev g))

/-- apply_group_caps (R236): `k` passes at most, the groups in fixed order. -/
def applyCaps (groups : List (Nat × Nat)) (caps : List ((Nat × Nat) × Nat)) : Nat → List BurliEntry → Nat → List BurliEntry × Nat
  | 0, es, avail => (es, avail)
  | k + 1, es, avail =>
    let overs (d : Nat × Nat) : Bool :=
      !(es.any fun e => e.dev = d.1 && e.group = some d.2 && e.frozen) && capOf caps d.1 d.2 < groupHolds es d.1 d.2
    match groups.find? overs with
    | none => (es, avail)
    | some d =>
      let (es, avail) := capPass es avail d.1 d.2 (capOf caps d.1 d.2)
      applyCaps groups caps k es avail

/-- The groups the entries name, by device ID and group number; entries come in order of device ID. -/
def groupsOf (es : List BurliEntry) : List (Nat × Nat) :=
  let devs := es.foldl (fun l e => if l.contains e.dev then l else l ++ [e.dev]) []
  devs.flatMap fun d => (List.range 16).filterMap fun g =>
    if es.any fun e => e.dev = d && e.group = some g then some (d, g) else none

/-- `allocate` of R233: the entries as granted, and whether the floors exceeded the limit. -/
def allocate (es : List BurliEntry) (limit : Nat) (caps : List ((Nat × Nat) × Nat)) : List BurliEntry × Bool :=
  let (es, avail, overs) := grantFloors es limit
  let (es, avail) := fillAll (fun _ => true) es avail
  let gs := groupsOf es
  ((applyCaps gs caps gs.length es avail).1, overs)

/-- The rise limit of R235 on the magnitude of a grant: base and RISE. -/
def riseLimit (g f : Nat) (base : Int) (rise : Nat) : Nat := min g (max f (base + (rise : Int)).toNat)

end Sys2Proof.Machine
end

