-- ==== Sys2Proof/Machine/Flags.lean ====
section
/-!
DEFINITION. Status and counters: sticky bits with their sequence number (R72, R73), saturating counters, journal events.
-/

namespace Sys2Proof.Machine

open Sys2Proof

/-- The sequence number in bits 31:24 of a status word (R72). -/
def seqOf (w : Word) : Nat := w.toNat / 2 ^ 24

/-- A status word at an event that sets the sticky bits `m`: the bits set, the sequence number advanced, wrapping from
255 to 0, whether or not the bits were set before (R72). -/
def stickyWord (w : Word) (m : Nat) : Word :=
  (w ||| BitVec.ofNat 32 (m % 2 ^ 24)) + BitVec.ofNat 32 (2 ^ 24)

/-- A status event on the register at `a` that sets the bits `m` (R72). -/
def State.stickyMask (s : State) (a m : Nat) : State := s.setWord a (stickyWord (s.word a) m)

/-- A status event that sets the one-bit field `f`. -/
def State.sticky (s : State) (f : Fld) : State := s.stickyMask f.addr (2 ^ f.lo)

/-- A status event that sets bit `i` of field `f`. -/
def State.stickyBit (s : State) (f : Fld) (i : Nat) : State := s.stickyMask f.addr (2 ^ (f.lo + i))

/-- Add to a counter field, saturating. -/
def State.count (s : State) (f : Fld) (k : Nat) : State := s.wrSat f (s.rd f + k)

/-- Add one to a counter field, wrapping. -/
def State.countWrap (s : State) (f : Fld) : State := s.wr f ((s.rd f + 1) % 2 ^ f.width)

/-- The fence epoch in force (R57). -/
def State.epoch (s : State) : Nat := s.rd F.TCK_EPOCH_EPOCH

/-- Journal an event of a core-die source: stamped with the control-frame count and the epoch in force (R56). -/
def State.note (s : State) (index info : Nat) (lanes : LaneSet) : State :=
  s.setJournal (⟨s.epoch, index, .frame (s.rd F.TCK_FRAME_COUNT), info, lanes, none⟩ :: s.journal)

/-- An event put behind all those of its epoch and source, and of earlier ones (R61). -/
def listIn (e : JEvent) : List JEvent → List JEvent
  | [] => [e]
  | x :: xs => if e.epoch < x.epoch || (e.epoch = x.epoch && e.index < x.index) then e :: x :: xs else x :: listIn e xs

/-- The journal as R61 lists it: by epoch, then by source index, then as each source stamped its events. -/
def State.journalList (s : State) : List JEvent := s.journal.reverse.foldl (fun l e => listIn e l) []

/-- A request of a fence; a further one before it takes effect is merged and counted (R57, R58). -/
def State.fenceGo (s : State) : State :=
  if s.clk.fenceReq then s.countWrap F.TCK_FENCE_MERGED else s.modClk fun c => { c with fenceReq := true }

/-- The fence the vendor service image requests at a session close and at a period close (R60), while it is not wedged. -/
def State.imageFence (s : State) : State := s.when s.flt.wdWedged.isNone State.fenceGo

end Sys2Proof.Machine
end

