-- ==== Sys2Proof/Machine/Inject.lean ====
section
/-!
DEFINITION. Fault injection on the device's own frames (R336, R354): drop, corrupt and reorder, each drawn at its rate. The
internal pseudo-random sequence is not given, so each draw is a free value (log entry 2).
-/

namespace Sys2Proof.Machine

open Sys2Proof

/-- The registers of one injector. -/
structure Finj where
  en : Fld
  dir : Fld
  keep : Fld
  drop : Fld
  corr : Fld
  reord : Fld
  nDrop : Fld
  nCorr : Fld
  nReord : Fld
  deriving DecidableEq, Repr

/-- The site bus's injector, and that of the other links. -/
def finjSbu : Finj := ⟨F.SBU_FINJ_EN, F.SBU_FINJ_DIR, F.SBU_FINJ_KEEPCRC, F.SBU_FIRATE_DROP, F.SBU_FIRATE_CORR, F.SBU_FIRATE_REORD,
  F.SBU_FICNT_DROP, F.SBU_FICNT_CORR, F.SBU_FICNT_REORD⟩

def finjLnk : Finj := ⟨F.LNK_FINJ_EN, F.LNK_FINJ_DIR, F.LNK_FINJ_KEEPCRC, F.LNK_FIRATE_DROP, F.LNK_FIRATE_CORR, F.LNK_FIRATE_REORD,
  F.LNK_FICNT_DROP, F.LNK_FICNT_CORR, F.LNK_FICNT_REORD⟩

/-- Does the injector act on frames of this direction? -/
def State.injects (s : State) (r : Finj) (tx : Bool) : Bool :=
  s.on r.en && (match s.rd r.dir with | 0 => tx | 1 => !tx | _ => true)

/-- One action is drawn: it happens in RATE of 1,024 frames. -/
def State.drawRate (s : State) (rate : Fld) : Bool × State :=
  if s.rd rate = 0 then (false, s)
  else
    let (v, s) := s.draw
    (decide (v % 1024 < s.rd rate), s)

/-- A byte string with bit `k` inverted, counted modulo its length. -/
def flipBit (bs : List Byte) (k : Nat) : List Byte :=
  let j := k % (8 * bs.length)
  setAt bs (j / 8) (bs.getD (j / 8) 0 ^^^ BitVec.ofNat 8 (2 ^ (j % 8)))

/-- One frame through an injector: the frames that come out, in order, and the one held back to follow the next. -/
def State.inject {α : Type} (s : State) (r : Finj) (tx : Bool) (corrupt : Bool → Nat → α → α) (held : Option α) (f : α) :
    List α × Option α × State :=
  if !s.injects r tx then (f :: held.toList, none, s)
  else
    let (d, s) := s.drawRate r.drop
    if d then (held.toList, none, s.count r.nDrop 1)
    else
      let (c, s) := s.drawRate r.corr
      let (f, s) := if c then
          let (v, s) := s.draw
          (corrupt (s.on r.keep) v f, s.count r.nCorr 1)
        else (f, s)
      let (o, s) := s.drawRate r.reord
      if o && held.isNone then ([], some f, s.count r.nReord 1) else (f :: held.toList, none, s)

/-- The counts of an injector return to 0. -/
def State.finjClear (s : State) (r : Finj) : State := ((s.wr r.nDrop 0).wr r.nCorr 0).wr r.nReord 0

/-- SB_FINJ_CLEAR (R336): SBU_FICNT.CLR. -/
def execSbFinjClear (s : State) : Host.Outcome State Fault Refusal := .next (s.finjClear finjSbu)

/-- LNK_FINJ_CLEAR (R354): LNK_FICNT.CLR. -/
def execLnkFinjClear (s : State) : Host.Outcome State Fault Refusal := .next (s.finjClear finjLnk)

end Sys2Proof.Machine
end

