-- ==== Sys2Proof/Machine/Channels.lean ====
section
/-!
DEFINITION. The protected channels and the safe state as other units see them: a channel's record, switching a channel
off, which lanes are energised (R18, R251, R254), and entering the safe state (R283, R284).
-/

namespace Sys2Proof.Machine

open Sys2Proof

/-- Index of a channel's record: contactor n, lock 32 + n, general 64 + k. -/
def chanIndex : ChanId → Nat
  | .cc n => n.val
  | .lk n => 32 + n.val
  | .gen k => 64 + k.val

def State.chan (s : State) (c : Nat) : Chan := lk (fun _ => {}) s.swa.chans c

def State.modSwa (s : State) (f : SwaState → SwaState) : State := s.setSwa (f s.swa)

def State.modChan (s : State) (c : Nat) (f : Chan → Chan) : State :=
  s.modSwa fun w => { w with chans := put (fun _ => {}) w.chans c (f (s.chan c)) }

def State.modSaf (s : State) (f : SafState → SafState) : State := s.setSaf (f s.saf)

def State.modPins (s : State) (f : PinState → PinState) : State := s.setPins (f s.pins)

/-- The state code of a channel in its register: SWA_Ln_CCST, none for a lock (its position says it), SWA_Gk_ST. -/
def chanStateFld (c : Nat) : Option Fld :=
  if c < 32 then some (F.SWA_Ln_CCST_STATE c) else if c < 64 then none else some (F.SWA_Gk_ST_STATE (c - 64))

/-- Show a channel's state. -/
def State.setChanState (s : State) (c v : Nat) : State :=
  match chanStateFld c with
  | some f => s.wr f v
  | none => s

/-- The state shown. -/
def State.chanState (s : State) (c : Nat) : Nat :=
  match chanStateFld c with
  | some f => s.rd f
  | none => 0

/-- Is a contactor or general channel on (pull-in or hold, inrush or steady)? A lock channel is on while it moves. -/
def State.chanOn (s : State) (c : Nat) : Bool :=
  if c < 64 && 32 ≤ c then (s.chan c).moving else s.chanState c = 1 || s.chanState c = 2

/-- Is lane `n`'s coil energised? -/
def State.coilOn (s : State) (n : Nat) : Bool := s.chanOn n

/-- Do both mirror contacts of lane `n` show closed, and does either (R277)? Those of an unused lane and of a member lane are ignored
(R28). -/
def State.mirBoth (s : State) (n : Nat) : Bool := (s.laneType n).outlet && inSet s.pins.mirA n && inSet s.pins.mirB n

def State.mirAny (s : State) (n : Nat) : Bool := (s.laneType n).outlet && (inSet s.pins.mirA n || inSet s.pins.mirB n)

/-- The session step of lane `n` (R195). -/
def State.sessStep (s : State) (n : Nat) : Nat := s.rd (F.PIL_Ln_SESS_STEP n)

/-- Is lane `n` energised (log entry 12): its coil is on, a mirror contact shows closed, or its session is in PRECHARGE
to STOP? -/
def State.energised (s : State) (n : Nat) : Bool :=
  s.coilOn n || s.mirAny n || (0x08 ≤ s.sessStep n && s.sessStep n ≤ 0x0D)

/-- Does lane `n` run a session that can still exit: PLUGGED to UNLOCK (R195, R198)? -/
def State.inSession (s : State) (n : Nat) : Bool := 2 ≤ s.sessStep n && s.sessStep n ≤ 0x0F

/-- Is any lane of the device energised? -/
def State.anyEnergised (s : State) : Bool := lanesAll.any s.energised

/-- Trip count of a channel (R264). -/
def State.trips (s : State) (c : Nat) : Nat :=
  if c < 32 then s.rd (F.SWA_Ln_CCST_TRIPS c) else if c < 64 then (s.chan c).trips else s.rd (F.SWA_Gk_ST_TRIPS (c - 64))

def State.setTrips (s : State) (c v : Nat) : State :=
  if c < 32 then s.wr (F.SWA_Ln_CCST_TRIPS c) v
  else if c < 64 then s.modChan c fun k => { k with trips := v }
  else s.wr (F.SWA_Gk_ST_TRIPS (c - 64)) v

/-- The state code of a channel that is not on (R264, R267): latched, clamp-locked, shed, in a retry pause, waiting, off. -/
def restCode (k : Chan) : Nat :=
  if k.latched then 4 else if k.locked then 5 else if k.shed then 7 else if k.pauseEnd ≠ 0 then 3
  else if k.queued.isSome then 6 else 0

/-- Show a channel that is not on. -/
def State.showRest (s : State) (c : Nat) : State := s.setChanState c (restCode (s.chan c))

/-- The channel stops conducting: its booking ends at the next edge; a lock's position becomes unknown when a move stops. -/
def State.chanStop (s : State) (c : Nat) : State :=
  let wasOn := s.chanOn c
  let wasMoving := (s.chan c).moving
  let k := s.chan c
  let bookEnd := if k.booked.isSome then min k.bookEnd (s.clk.frame + 1) else k.bookEnd
  let offSince := if wasOn then s.clk.frame else k.offSince
  let weldTested := if wasOn then false else k.weldTested
  let s := s.modChan c fun k => { k with
    onSince := none, moving := false, openCnt := 0,
    bookEnd := bookEnd, offSince := offSince, weldTested := weldTested }
  let s := s.showRest c
  if wasMoving then
    ((s.wr (F.SWA_Ln_LKST_POS (c - 32)) 0).wr (F.SWA_Ln_LKST_LAST (c - 32)) 3).wrB (F.SWA_Ln_LKST_BRAKE (c - 32)) true
  else s

/-- Switch a channel off at once: switching off needs no admission (R23). A queued request and a retry pause are dropped;
the trip count stays (R264). -/
def State.chanOff (s : State) (c : Nat) : State :=
  (s.modChan c fun k => { k with
    queued := none, clampHeld := false, pauseEnd := 0, retryAt := 0,
    interrupted := false, shed := false }).chanStop c

/-- The session of lane `n` withdraws its close request (R176, R199, R200): the coil goes off with it. -/
def State.dropClose (s : State) (n : Nat) : State :=
  if (s.pilLane n).closeReq || s.coilOn n then
    ((s.modPilLane n fun p => { p with closeReq := false }).wrB (F.SWA_Ln_CCST_SRQ n) false).chanOff n
  else s

/-- Causes of R198 on the fault path. -/
def faultPath (c : Nat) : Bool := 0x10 ≤ c && c ≤ 0x16

/-- The session of lane `n`'s outlet decides exit cause `c` in this frame (R198): its step changes at the next edge (log entry 35). A cause
of the fault path, and A while the contactor is closed, withdraw the close request at once (R199, R200). -/
def State.decideExit (s : State) (n c : Nat) : State :=
  let n := s.lead n
  let s := s.modPilLane n fun p => { p with decided := c :: p.decided }
  s.when (faultPath c || c = 0x01) fun s => s.dropClose n

/-- Put a SAFEZERO in a safety mailbox, once for each port and DST; a broadcast stands before the addressed frames (R351). -/
def mailIn (x : Nat × Nat) : List (Nat × Nat) → List (Nat × Nat)
  | [] => [x]
  | y :: ys => if x = y then y :: ys else if x.1 < y.1 || (x.1 = y.1 && x.2 < y.2) then x :: y :: ys else y :: mailIn x ys

/-- A broadcast SAFEZERO on every CAN FD port in use (R21, R284, R351). -/
def State.zeroModules (s : State) : State :=
  s.modSaf fun x => { x with safeZero := ((List.range 4).filter fun p => s.on (F.LNK_CANp_CFG_EN p)).foldl (fun l p => mailIn (p, 0) l) x.safeZero }

/-- Both channels withdraw the close consents of the lanes in `m`; a new close request is then needed (R280). The field die
acts on it at the refresh of the next edge (R275, R276). -/
def State.withdrawClose (s : State) (m : LaneSet) : State :=
  let s := s.modSaf fun x => { x with spent := x.spent ||| (m &&& (s.rdSet (F.SAF_ACON_LANE 0) ||| s.rdSet (F.SAF_ACON_LANE 1))) }
  (s.wrSet (F.SAF_ACON_LANE 0) (s.rdSet (F.SAF_ACON_LANE 0) &&& ~~~m)).wrSet (F.SAF_ACON_LANE 1)
    (s.rdSet (F.SAF_ACON_LANE 1) &&& ~~~m)

/-- Both channels withdraw the unlock consents of the lanes in `m`. -/
def State.withdrawUnlock (s : State) (m : LaneSet) : State :=
  s.wrSet (F.SAF_ACON_LANE 2) (s.rdSet (F.SAF_ACON_LANE 2) &&& ~~~m)

/-- The forces of R282: in the safe state, state F in service on every lane that has a head and is not retired, off on every other; none
outside it. -/
def State.ruleForces (s : State) : PilotForce :=
  if s.on F.SAF_STAT_SAFE then
    let f : LaneSet := lanesAll.foldl (fun m n =>
      if s.rd F.SYS_STAGE_STAGE = 8 && (s.head (s.lead n)).present && !s.rdBit F.FLT_RETIRED_LANE n then m ||| laneBit n else m) 0
    ⟨f, ~~~f⟩
  else {}

/-- The forces a channel drives: its own record's, where that is not the rules'. -/
def State.forcesOf (s : State) (d : Option Decision) : PilotForce :=
  match d with
  | some x => ⟨x.forceF, x.forceOff⟩
  | none => s.ruleForces

/-- At an edge the field die takes the forces of each channel that refreshes them, and holds those of one that does not (R275); a lane
is shown as forced while either channel forces it (R22). -/
def State.applyForces (s : State) : State :=
  let a := if s.saf.refreshA then s.forcesOf s.saf.drvA else s.saf.frcA
  let b := if s.saf.refreshB then s.forcesOf s.saf.drvB else s.saf.frcB
  (s.modSaf fun x => { x with frcA := a, frcB := b }).wrSet (F.SAF_ACON_LANE 6) (a.f ||| a.off ||| b.f ||| b.off)

/-- The output forced on lane `n`: either channel forces it, and off is the more restrictive (R22, R278). -/
def State.pilotForce (s : State) (n : Nat) : Option PilotOut :=
  if inSet (s.saf.frcA.off ||| s.saf.frcB.off) n then some .off
  else if inSet (s.saf.frcA.f ||| s.saf.frcB.f) n then some .stateF else none

/-- The SO pairs a channel drives. -/
def State.soOf (s : State) (d : Option Decision) : BitVec 2 := (d.map (·.so)).getD s.saf.soCmd

/-- Show the SO pairs: each energised by both channels while both refresh it (R275, R290). -/
def State.soShow (s : State) : State :=
  let now : BitVec 2 := if s.saf.refreshA && s.saf.refreshB then s.soOf s.saf.drvA &&& s.soOf s.saf.drvB else 0
  let was := BitVec.ofNat 2 (s.rd F.SAF_STAT_SO)
  let s := s.wr F.SAF_STAT_SO now.toNat
  s.each [0, 1] fun s k =>
    if now.getLsbD k = was.getLsbD k then s else s.modSaf fun x => { x with soChange := put (fun _ => 0) x.soChange k (s.clk.frame + 1) }

/-- The channels drive SO pair `k` (R284, R289, R290). -/
def State.soDrive (s : State) (k : Nat) (v : Bool) : State :=
  (s.modSaf fun x => { x with soCmd := BitVec.ofNat 2 (setBits x.soCmd.toNat k k (b2n v)) }).soShow

/-- Enter the safe state with the cause shown in field `f` (R283): the cause is latched and every consent withdrawn in the
deciding frame; the mailboxes, forces and SO pairs follow at the edge that ends it (R284). A cause already present is not
entered again. -/
def State.safeEnter (s : State) (f : Fld) : State :=
  if s.on f then s
  else
    let first := !s.on F.SAF_STAT_SAFE
    let so := (f = F.SAF_STAT_ESTOP || f = F.SAF_STAT_PEER) && s.on F.SAF_CFG_ESTOPSO
    let s := ((s.wrB f true).wrB F.SAF_STAT_SAFE true).when first fun s => s.sticky F.SAF_EVT_ENTER
    let s := (s.withdrawClose (BitVec.allOnes 32)).withdrawUnlock (BitVec.allOnes 32)
    let s := s.each (s.outlets.filter s.inSession) fun s n => s.decideExit n 0x10
    s.modSaf fun x => { x with
      enterAct := x.enterAct || first, enterSo := x.enterSo || so, causeAt := put (fun _ => 0) x.causeAt f.lo (s.clk.frame + 1) }

/-- Leave cause `f`; with the last one the safe state ends (R283), and its forces at the next edge. -/
def State.safeLeave (s : State) (f : Fld) : State :=
  let s := s.wrB f false
  if s.word (A.SAF_STAT) &&& 0x3F = 0 then s.wrB F.SAF_STAT_SAFE false else s

/-- What R284 does at the edge that ends the deciding frame. -/
def State.safeActions (s : State) : State :=
  let so := s.saf.enterSo
  let act := s.saf.enterAct
  let s := s.when act State.zeroModules
  let s := s.when so fun s => ((s.soDrive 0 false).soDrive 1 false).modSaf fun x => { x with soSafe := true }
  s.when (act || so) fun s => s.modSaf fun x => { x with enterAct := false, enterSo := false }

/-- Do the two channels' samples of lane `n`'s plateau differ by more than 0.5 V while it is sampled (R277)? -/
def State.pilotApart (s : State) (n : Nat) : Bool :=
  let p := (s.pilLane n).drv
  (p = .x1 || p = .pct5 || p = .nominal) && 50 < (lk (fun _ => 0) s.pins.plA n - lk (fun _ => 0) s.pins.plB n).natAbs

/-- The SO pair lane `n` is mapped to (R290). -/
def State.pairOf (s : State) (n : Nat) : Nat :=
  if (s.laneType n).isAc then s.rd F.SAF_GRPMAP_AC else b2n (s.rdBit F.SAF_GRPMAP_GRP (s.rd (F.EFM_Ln_CFG_GRP n)))

end Sys2Proof.Machine
end

