-- ==== Sys2Proof/Machine/Operands.lean ====
section
/-!
DEFINITION. Operand forms of messages and stored records: little-endian and big-endian byte strings, the CRCs of R81 and
R322 and of the safety PDUs (R295), SHA-256, SHA-384, HMAC and HKDF (R10: FIPS 180-4, RFC 5869), dates (R147, R152).
-/

namespace Sys2Proof.Machine

open Sys2Proof

/-! ## Byte strings -/

/-- `k` bytes of `v`, least significant first. -/
def leBytes : Nat → Nat → List Byte
  | 0, _ => []
  | k + 1, v => BitVec.ofNat 8 v :: leBytes k (v / 256)

/-- `k` bytes of `v`, most significant first. -/
def beBytes (k v : Nat) : List Byte := (leBytes k v).reverse

/-- The number little-endian bytes spell. -/
def leNat : List Byte → Nat
  | [] => 0
  | b :: bs => b.toNat + 256 * leNat bs

/-- The number big-endian bytes spell. -/
def beNat (bs : List Byte) : Nat := leNat bs.reverse

/-- `k` bytes from offset `o`. -/
def slice (bs : List Byte) (o k : Nat) : List Byte := (bs.drop o).take k

/-- Little-endian field of `k` bytes at offset `o`. -/
def leAt (bs : List Byte) (o k : Nat) : Nat := leNat (slice bs o k)

/-- `bs` with `xs` written over it from offset `o`. -/
def overlay (bs : List Byte) (o : Nat) (xs : List Byte) : List Byte := bs.take o ++ xs ++ bs.drop (o + xs.length)

/-- `bs` cut or filled with zeros to `k` bytes. -/
def padTo (k : Nat) (bs : List Byte) : List Byte := (bs ++ List.replicate (k - bs.length) 0).take k

/-! ## CRCs -/

/-- One bit of a reflected CRC with polynomial `poly` (bits already reversed). -/
def crcStepR (poly c : Nat) : Nat := if c % 2 = 1 then c / 2 ^^^ poly else c / 2

/-- Eight bits of a reflected CRC. -/
def crcByteR (poly c : Nat) (b : Byte) : Nat :=
  let x := c ^^^ b.toNat
  crcStepR poly (crcStepR poly (crcStepR poly (crcStepR poly (crcStepR poly (crcStepR poly (crcStepR poly (crcStepR poly x)))))))

/-- CRC-32 of R81: polynomial 0x04C1_1DB7 reflected, initial value and final XOR 0xFFFF_FFFF. -/
def crc32 (bs : List Byte) : Nat := bs.foldl (crcByteR 0xEDB88320) 0xFFFFFFFF ^^^ 0xFFFFFFFF

/-- One bit of a CRC of `n` bits, most significant bit first. -/
def crcStepM (n poly c : Nat) : Nat := if bitOf c (n - 1) then (c * 2 % 2 ^ n) ^^^ poly else c * 2 % 2 ^ n

/-- One byte of a CRC of `n` bits, most significant bit first. -/
def crcByteM (n poly c : Nat) (b : Byte) : Nat :=
  let x := c ^^^ b.toNat * 2 ^ (n - 8)
  crcStepM n poly (crcStepM n poly (crcStepM n poly (crcStepM n poly (crcStepM n poly (crcStepM n poly
    (crcStepM n poly (crcStepM n poly x)))))))

/-! ## SHA-2 (FIPS 180-4): SHA-256 on words of 32 bits, SHA-384 on words of 64 -/

/-- The first 80 primes: the numbers below 410 without a smaller divisor up to 19. -/
def smallPrimes : List Nat :=
  (List.range' 2 408).filter fun p => [2, 3, 5, 7, 11, 13, 17, 19].all fun d => p = d || p % d ≠ 0

/-- The `b` low bits of the integer `k`-th root of `n` added to `r`, highest first. -/
def rootGo (k n : Nat) : Nat → Nat → Nat
  | 0, r => r
  | b + 1, r => rootGo k n b (if (r + 2 ^ b) ^ k ≤ n then r + 2 ^ b else r)

/-- The first `w` bits of the fraction of the `k`-th root of `p`. -/
def rootFrac (w k p : Nat) : BitVec w := BitVec.ofNat w (rootGo k (p * 2 ^ (w * k)) (w + 5) 0)

/-- What sets the functions of the family apart (FIPS 180-4, 4.1, 4.2, 5.3): the rotations of the two functions on a round's words,
the rotations and the shift of the two on the message, the round constants, the initial hash value. -/
structure Sha2 (w : Nat) where
  rot0 : List Nat
  rot1 : List Nat
  msg0 : List Nat × Nat
  msg1 : List Nat × Nat
  consts : List (BitVec w)
  start : List (BitVec w)

/-- The words of `x` rotated right by each of `rs`, combined bit by bit. -/
def rotXor {w : Nat} (rs : List Nat) (x : BitVec w) : BitVec w := rs.foldl (fun a r => a ^^^ x.rotateRight r) 0

/-- One round on the eight working words, with the constant and message word added up in `kw`. -/
def Sha2.round {w : Nat} (f : Sha2 w) (kw : BitVec w) : List (BitVec w) → List (BitVec w)
  | [a, b, c, d, e, m, g, h] =>
    let choice := (e &&& m) ^^^ (~~~e &&& g)
    let most := (a &&& b) ^^^ (a &&& c) ^^^ (b &&& c)
    let t := h + rotXor f.rot1 e + choice + kw
    [t + rotXor f.rot0 a + most, a, b, c, d + t, e, m, g]
  | x => x

/-- The message word sixteen after the first of the sixteen at hand. -/
def Sha2.nextWord {w : Nat} (f : Sha2 w) (ws : List (BitVec w)) : BitVec w :=
  let mix (m : List Nat × Nat) (x : BitVec w) : BitVec w := rotXor m.1 x ^^^ x >>> m.2
  ws.getD 0 0 + mix f.msg0 (ws.getD 1 0) + ws.getD 9 0 + mix f.msg1 (ws.getD 14 0)

/-- The rounds of a block, one per constant, on the sixteen message words at hand, oldest first. -/
def Sha2.rounds {w : Nat} (f : Sha2 w) : List (BitVec w) → List (BitVec w) → List (BitVec w) → List (BitVec w)
  | [], _, x => x
  | k :: ks, ws, x => f.rounds ks (ws.drop 1 ++ [f.nextWord ws]) (f.round (k + ws.getD 0 0) x)

/-- Bytes as big-endian words of `w` bits, at most `n` of them. -/
def beWords (w : Nat) : Nat → List Byte → List (BitVec w)
  | 0, _ => []
  | n + 1, bs => if bs.isEmpty then [] else BitVec.ofNat w (beNat (bs.take (w / 8))) :: beWords w n (bs.drop (w / 8))

/-- All blocks of sixteen words, at most `n` of them. -/
def Sha2.blocks {w : Nat} (f : Sha2 w) : Nat → List (BitVec w) → List Byte → List (BitVec w)
  | 0, x, _ => x
  | n + 1, x, bs =>
    if bs.length < 2 * w then x
    else f.blocks n (List.zipWith (· + ·) x (f.rounds f.consts (beWords w 16 (bs.take (2 * w))) x)) (bs.drop (2 * w))

/-- The message filled up to whole blocks: a bit 1, zeros, its length in bits in the last two words. -/
def shaPad (w : Nat) (bs : List Byte) : List Byte :=
  bs ++ [0x80] ++ List.replicate ((4 * w - 1 - w / 4 - bs.length % (2 * w)) % (2 * w)) 0 ++ beBytes (w / 4) (8 * bs.length)

/-- The hash value as bytes. -/
def Sha2.hash {w : Nat} (f : Sha2 w) (bs : List Byte) : List Byte :=
  let p := shaPad w bs
  (f.blocks (p.length / (2 * w)) f.start p).flatMap fun x => beBytes (w / 8) x.toNat

/-- SHA-256. -/
def sha256 (bs : List Byte) : List Byte :=
  (Sha2.mk [2, 13, 22] [6, 11, 25] ([7, 18], 3) ([17, 19], 10) ((smallPrimes.take 64).map (rootFrac 32 3))
    ((smallPrimes.take 8).map (rootFrac 32 2))).hash bs

/-- SHA-384: its initial value comes from the ninth to the sixteenth prime, and its hash value is the first six words. -/
def sha384 (bs : List Byte) : List Byte :=
  ((Sha2.mk [28, 34, 39] [14, 18, 41] ([1, 8], 7) ([19, 61], 6) (smallPrimes.map (rootFrac 64 3))
    (((smallPrimes.drop 8).take 8).map (rootFrac 64 2))).hash bs).take 48

/-- HMAC-SHA-256. -/
def hmac256 (key msg : List Byte) : List Byte :=
  let k := padTo 64 (if key.length > 64 then sha256 key else key)
  sha256 (k.map (· ^^^ 0x5c) ++ sha256 (k.map (· ^^^ 0x36) ++ msg))

/-- HKDF-SHA-256 for one 32-byte block of output (RFC 5869): salt, input key, info. -/
def hkdf256 (salt ikm info : List Byte) : List Byte := hmac256 (hmac256 salt ikm) (info ++ [1])

/-! ## Dates: seconds since 2000-01-01 00:00:00 UTC, a Saturday -/

/-- A civil date. -/
structure Date where
  year : Nat
  month : Nat
  day : Nat
  deriving DecidableEq, Repr

def leapYear (y : Nat) : Bool := y % 4 = 0 && (y % 100 ≠ 0 || y % 400 = 0)

def monthDays (y m : Nat) : Nat :=
  match m with
  | 2 => if leapYear y then 29 else 28
  | 4 => 30 | 6 => 30 | 9 => 30 | 11 => 30
  | _ => 31

/-- Days from 2000-01-01 to the first day of year `y`. -/
def yearStart (y : Nat) : Nat := if y ≤ 2000 then 0 else
  let k := y - 1
  365 * (y - 2000) + (k / 4 - 499) - (k / 100 - 19) + (k / 400 - 4)

/-- Days before month `m` of year `y`. -/
def monthStart (y m : Nat) : Nat := (List.range (m - 1)).foldl (fun a i => a + monthDays y (i + 1)) 0

/-- Days from 2000-01-01 to a date. -/
def dayNumber (d : Date) : Nat := yearStart d.year + monthStart d.year d.month + (d.day - 1)

/-- The month of a day of the year, from month `m` on. -/
def monthGo : Nat → Nat → Nat → Nat → Nat × Nat
  | 0, _, m, d => (m, d)
  | f + 1, y, m, d => if d < monthDays y m then (m, d) else monthGo f y (m + 1) (d - monthDays y m)

/-- The date of a day number. -/
def dateOf (n : Nat) : Date :=
  let y0 := 2000 + n * 400 / 146097
  let y := if n < yearStart y0 then y0 - 1 else if yearStart (y0 + 1) ≤ n then y0 + 1 else y0
  let r := monthGo 11 y 1 (n - yearStart y)
  ⟨y, r.1, r.2 + 1⟩

/-- Weekday of a day number, 0 Monday. -/
def weekday (n : Nat) : Nat := (n + 5) % 7

end Sys2Proof.Machine
end

