-- ==== Sys2Proof/Machine/Faults.lean ====
section
/-!
DEFINITION. The fault collector (spec/14): raising a fault with its class and scope, merging, recurrence and retirement,
clearing, the fault pins, the heartbeat and the position encoders.
-/

namespace Sys2Proof.Machine

open Sys2Proof

/-! ## Triggers of the waveform capture (R119, R120) -/

/-- The trigger settings in force: in RUN and HELD those the unit entered IDLE with (R118). -/
def State.capTrig (s : State) : Nat := if 2 ≤ s.rd F.MET_CAP_CTL_STATE then s.met.cap.trig else (s.useWord A.MET_CAP_TRIG 0).toNat

/-- A trigger of the given kinds in sample tick `tick` of the running frame. DESIGN CHOICE (log entry 25): ticks 17 to 24 of a stepped
frame are stamped 15, the last index the stamp has. -/
def State.capTrigger (s : State) (kinds tick sample : Nat) : CapTrig := ⟨kinds, s.rd F.TCK_FRAME_COUNT, min 15 tick, s.epoch, sample⟩

/-- A trigger in RUN or HELD is held pending; triggers of one sample tick are one; every further one is counted (R119, R120). -/
def State.capPend (s : State) (t : CapTrig) : State :=
  match s.met.cap.pend with
  | none => (s.wrB F.MET_CAP_CTL_PEND true).modCap fun c => { c with pend := some t }
  | some p =>
    if p.sample = t.sample then s.modCap fun c => { c with pend := some { p with kinds := p.kinds ||| t.kinds } }
    else if s.met.cap.lostAt = t.sample then s
    else (s.count F.MET_CAP_OVR_COUNT 1).modCap fun c => { c with lostAt := t.sample }

/-- A trigger of kind `k` arrives in the running sample tick: nothing in OFF, the tick's own trigger in IDLE, else pending. -/
def State.capEvent (s : State) (k : Nat) : State :=
  match s.rd F.MET_CAP_CTL_STATE with
  | 0 => s
  | 1 => s.modCap fun c => { c with hits := c.hits ||| k }
  | _ => s.capPend (s.capTrigger k s.clk.tickInFrame (s.clk.sample + 1))

/-! ## Raising a fault (R302 to R310) -/

/-- The lanes a scope names; the device names every lane. -/
def scopeLanes : Option LaneSet → LaneSet
  | none => BitVec.allOnes 32
  | some m => m

/-- The four sources that a switch-off can itself provoke (R307). -/
def mergeable (src : Nat) : Bool := src = 0x46 || src = 0x4A || src = 0x62 || src = 0x63

/-- Does `b` lie within `a` (R307)? -/
def scopeWithin : Option LaneSet → Option LaneSet → Bool
  | _, none => true
  | none, some _ => false
  | some b, some a => b &&& ~~~a = 0

/-- May a raise of `src` over `scope` at frame `now` be a consequence of `a` (R307)? -/
def mayMerge (now src : Nat) (scope : Option LaneSet) (a : FltRaise) : Bool :=
  mergeable src && (2 ≤ a.cls || a.src = 0x47) && !mergeable a.src && a.frame ≤ now && now ≤ a.frame + 10 &&
    scopeWithin scope a.scope

/-- The earlier of two raises; at one edge the lower source index (R307). -/
def earlier (a b : FltRaise) : FltRaise :=
  if a.frame < b.frame || (a.frame = b.frame && a.src ≤ b.src) then a else b

/-- The raise a new raise is merged into, if any (R307). -/
def mergeTarget (s : State) (src : Nat) (scope : Option LaneSet) : Option FltRaise :=
  (s.flt.recent.filter (mayMerge s.clk.frame src scope)).foldl
    (fun r a => match r with | none => some a | some b => some (earlier a b)) none

/-- Show the cause-present bits of a source from the causes now present (R304). -/
def State.showCause (s : State) (src : Nat) : State :=
  let here := s.flt.causes.filter fun c => c.src = src
  let lanes := here.foldl (fun (m : LaneSet) c => match c.scope with | none => m | some x => m ||| x) 0
  (s.wrB (F.FLT_SRCi_CAUSE src) (!here.isEmpty)).wrSet (F.FLT_SRCi_LCAU_LANE src) lanes

/-- A cause begins (R304). -/
def State.causeOn (s : State) (src cls : Nat) (scope : Option LaneSet) : State :=
  (s.modFlt fun f => { f with causes := ⟨src, cls, scope⟩ :: f.causes.filter fun c => !(c.src = src && c.scope = scope) }).showCause src

/-- The source's cause-present bits are brought up to date at the coming edge (R304, R313). -/
def State.causeEnded (s : State) (src : Nat) : State := s.modFlt fun f => { f with ended := src :: f.ended.filter (· ≠ src) }

/-- Bring the cause-present bits up to date, at every control-frame edge (R304). -/
def State.showCauses (s : State) : State :=
  (s.each s.flt.ended State.showCause).modFlt fun f => { f with ended := [] }

/-- Is a cause of the source present now, ahead of its bit? -/
def State.causeIs (s : State) (src : Nat) : Bool := s.flt.causes.any fun c => c.src = src

/-- A cause ends: for the lanes of `scope`, or for the device (R304). -/
def State.causeOff (s : State) (src : Nat) (scope : Option LaneSet) : State :=
  let cut (c : FltCause) : Option FltCause :=
    if c.src ≠ src then some c
    else match c.scope, scope with
      | none, none => none
      | none, some _ => some c
      | some _, none => none
      | some m, some x => if m &&& ~~~x = 0 then none else some { c with scope := some (m &&& ~~~x) }
  (s.modFlt fun f => { f with causes := f.causes.filterMap cut }).causeEnded src

/-- The device-scoped cause of a source ends; lane-scoped ones stay. -/
def State.causeOffDev (s : State) (src : Nat) : State :=
  (s.modFlt fun f => { f with causes := f.causes.filter fun c => !(c.src = src && c.scope = none) }).causeEnded src

/-- Is the cause of a source present for lane `n`? -/
def State.causeFor (s : State) (src n : Nat) : Bool :=
  s.flt.causes.any fun c => c.src = src && inSet (scopeLanes c.scope) n

/-- Was the raise of this cause merged into another (R307)? -/
def State.isMerged (s : State) (c : FltCause) : Bool := s.flt.merged.any fun x => x.src = c.src && x.scope = c.scope

/-- Lanes with a lane-class or device-class cause present: the fast-withdrawal set (R276, R303). A weld acts by R289; a merged
raise applies no reaction (R307; log entry 43). -/
def State.fastSet (s : State) : LaneSet :=
  s.flt.causes.foldl (fun m c => if (c.cls = 2 || c.cls = 3) && !s.isMerged c then m ||| scopeLanes c.scope else m) 0

/-- Lanes of any cause of lane class or higher (R199, R202). -/
def State.causeSet (s : State) : LaneSet :=
  s.flt.causes.foldl (fun m c => if 2 ≤ c.cls then m ||| scopeLanes c.scope else m) 0

/-- Retire lanes: whole groups, kept in the thermos die (R30, R311). Their consents are withdrawn with them (R280). -/
def State.retire (s : State) (m : LaneSet) : State :=
  let m := s.widen m
  (s.wrSet F.FLT_RETIRED_LANE (s.rdSet F.FLT_RETIRED_LANE ||| m)).withdrawClose m

/-- Raises of lane class of a source on a lane within the last RECW seconds (R310). -/
def recurCount (s : State) (src n : Nat) : Nat :=
  (s.flt.recur.filter fun r => r.src = src && r.lane = n &&
    s.clk.frame ≤ r.frame + 1000 * s.rd F.FLT_CFG_RECW).length

/-- R310: keep the raise for each lane of its scope, once per edge, and retire the lanes where it is the RECN-th. -/
def State.recurrence (s : State) (src : Nat) (m : LaneSet) : State :=
  let now := s.clk.frame
  let new := (lanesAll.filter fun n => inSet m n && !(s.flt.recur.any fun r => r = ⟨src, n, now⟩)).map fun n => (⟨src, n, now⟩ : FltRecur)
  let s := s.modFlt fun f => { f with recur := new ++ f.recur.filter fun r => now ≤ r.frame + 600000 }
  let perm := lanesAll.filter fun n => inSet m n && s.rd F.FLT_CFG_RECN ≤ recurCount s src n
  if perm.isEmpty then s
  else (s.wrB (F.FLT_SRCi_PERM src) true).retire (perm.foldl (fun a n => a ||| laneBit n) 0)

/-- R314: a raise of a class selected by PINCLS drives, or finds, the fault level. -/
def State.pinFault (s : State) (cls : Nat) : State :=
  if s.rdBit F.FLT_CFG_PINCLS cls then
    (((s.wrB F.FLT_PIN_LEVEL true).wrB F.FLT_PIN_PULSE true).count F.FLT_PIN_COUNT 1).modFlt
      fun f => { f with pinRaise := s.clk.frame, pinHeld := true }
  else s

/-- R309: the latest independent fault of lane class or higher, per lane. -/
def State.markLatest (s : State) (m : LaneSet) : State :=
  let mark (l : List (Nat × Nat)) (n : Nat) : List (Nat × Nat) := put (fun _ => 0) l n s.clk.frame
  s.modFlt fun f => { f with latest := (lanesAll.filter fun n => inSet m n).foldl mark f.latest }

/-- An independent raise (R303, R304, R309): sticky bits, class, count, journal, recurrence, pins, reaction. A lane-class or
device-class raise decides exit cause 0x11 of the sessions in its scope, but for the sources with a cause of their own (R198). -/
def State.raiseNew (s : State) (src cls : Nat) (scope : Option LaneSet) : State :=
  let m := scopeLanes scope
  let s := (s.stickyMask (F.FLT_SRCi_STK src).addr (2 ^ 23)).wr (F.FLT_SRCi_CLASS src) (max cls (s.rd (F.FLT_SRCi_CLASS src)))
  let s := (s.count (F.FLT_SRCi_COUNT src) 1).wrBit (F.FLT_SUMk_STK (src / 32)) (src % 32) true
  let s := match scope with
    | some x => s.wrSet (F.FLT_SRCi_LSTK_LANE src) (s.rdSet (F.FLT_SRCi_LSTK_LANE src) ||| x)
    | none => s
  let s := s.note src cls m
  let s := s.modFlt fun f => { f with
    recent := ⟨s.clk.frame, src, cls, scope⟩ :: f.recent.filter fun a => s.clk.frame ≤ a.frame + 10,
    merged := f.merged.filter fun x => !(x.src = src && x.scope = scope),
    dev := if scope.isNone then put (fun _ => 0) f.dev src (max (cls + 1) (lk (fun _ => 0) f.dev src)) else f.dev }
  let s := s.when (bitOf s.capTrig 30 && F.MET_CAP_TRIG_FSRC.of s.capTrig = src) fun s => s.capEvent 4
  let s := s.pinFault cls
  let s := if cls < 2 then s
    else (s.wrSet F.FLT_LANEF_LANE (s.rdSet F.FLT_LANEF_LANE ||| m)).markLatest (if cls = 2 then m else BitVec.allOnes 32)
  let s := if cls = 2 then s.recurrence src m else s
  let s := if (cls = 2 || cls = 3) && src ≠ 0x21 && src ≠ 0x22 && src ≠ 0x23 then s.each (s.outlets.filter fun n => inSet m n) fun s n => s.decideExit n 0x11 else s
  if cls = 4 && src ≠ 0x65 then s.safeEnter F.SAF_STAT_CHANNEL else s

/-- Was the same raise made in this frame already? Two raises of one source and lane at one edge are one (R313). -/
def State.raisedNow (s : State) (src cls : Nat) (scope : Option LaneSet) : Bool :=
  s.flt.recent.contains ⟨s.clk.frame, src, cls, scope⟩

/-- A raise of one of R307's four sources, once every raise of its frame is known: merged into an earlier one, or independent. -/
def State.raiseJudged (s : State) (r : FltRaise) : State :=
  match mergeTarget s r.src r.scope with
  | some a =>
    let s := (s.wrB (F.FLT_SRCi_MERGED a.src) true).wr (F.FLT_SRCi_MERGEDFROM a.src) r.src
    let s := s.setJournal (⟨s.epoch, r.src, .frame (s.rd F.TCK_FRAME_COUNT), r.cls, scopeLanes r.scope, some a.src⟩ :: s.journal)
    s.modFlt fun f => { f with merged := ⟨a.src, r.src, r.cls, r.scope⟩ :: f.merged.filter fun x => !(x.src = r.src && x.scope = r.scope) }
  | none => if s.raisedNow r.src r.cls r.scope then s else s.raiseNew r.src r.cls r.scope

/-- The end of a frame: the raises of R307's four sources made in it are judged in their order, before the next edge's time. -/
def State.judgeDue (s : State) : State :=
  (s.flt.due.foldl State.raiseJudged s).modFlt fun f => { f with due := [] }

/-- Raise source `src` with class `cls` over `scope` (none: the device), a lane scope widened to whole groups (R302). R307's four
sources wait for the end of the frame, since a raise of the same edge may take them in. -/
def State.raise (s : State) (src cls : Nat) (scope : Option LaneSet) : State :=
  let scope := scope.map s.widen
  let s := s.causeOn src cls scope
  if mergeable src then s.modFlt fun f => { f with due := f.due ++ [⟨s.clk.frame, src, cls, scope⟩] }
  else if s.raisedNow src cls scope then s
  else s.raiseNew src cls scope

/-- Raise over one lane's group. -/
def State.raiseLane (s : State) (src cls n : Nat) : State := s.raise src cls (some (laneBit n))

/-- Raise over the device. -/
def State.raiseDev (s : State) (src cls : Nat) : State := s.raise src cls none

/-- A raise whose cause ends with it: an event that leaves no lasting condition. -/
def State.raiseOnce (s : State) (src cls : Nat) (scope : Option LaneSet) : State :=
  (s.raise src cls scope).causeOff src (scope.map s.widen)

/-- R30: the group of lane `n` as a set. -/
def State.groupSet (s : State) (n : Nat) : LaneSet := s.widen (laneBit n)

/-- Lane-class or higher sticky bit in force on lane `n` (R305). -/
def State.laneFault (s : State) (n : Nat) : Bool := s.rdBit F.FLT_LANEF_LANE n

/-- Is the lane retired (R311)? -/
def State.retired (s : State) (n : Nat) : Bool := s.rdBit F.FLT_RETIRED_LANE n

/-- All source numbers. -/
def sourcesAll : List Nat := List.range 256

/-- The lanes on which source `i` is in force with lane class or higher. -/
def State.forceOf (s : State) (i : Nat) : LaneSet :=
  if 3 ≤ lk (fun _ => 0) s.flt.dev i then BitVec.allOnes 32
  else if s.on (F.FLT_SRCi_STK i) && 2 ≤ s.rd (F.FLT_SRCi_CLASS i) then s.rdSet (F.FLT_SRCi_LSTK_LANE i) else 0

/-- Recompute FLT_LANEF from the sticky bits (R305). -/
def State.showLaneF (s : State) : State :=
  s.wrSet F.FLT_LANEF_LANE (sourcesAll.foldl (fun m i => m ||| s.forceOf i) 0)

/-! ## Clearing (R308, R312, R313) -/

/-- The raises merged into source `i` whose cause is present and whose lanes of `i` have no sticky bit left (R308). -/
def State.mergedFree (s : State) (i : Nat) (kept : LaneSet) : List FltMerged :=
  s.flt.merged.filter fun x => x.into = i && scopeLanes x.scope &&& kept = 0 &&
    s.flt.causes.any fun c => c.src = x.src && c.scope = x.scope

/-- A clear of source `i` whose sequence number matched (R312). The lane bits not selected, and those whose cause-present bit is set,
stay; a device-scoped sticky bit is cleared only without its cause. Each clear ends MERGED and the count; when nothing of the source is
left, CLASS and PERM. What was merged and is now free is raised (R308). -/
def State.clearSource (s : State) (i : Nat) : State :=
  let lanes := s.rdSet (F.FLT_SRCi_LSTK_LANE i)
  let cause := s.rdSet (F.FLT_SRCi_LCAU_LANE i)
  let pick := lanes &&& s.rdSet F.FLT_CLRMASK_LANE
  let kept := lanes &&& ~~~(pick &&& ~~~cause)
  let wasDev := s.on (F.FLT_SRCi_STK i) && (lanes = 0 || lk (fun _ => 0) s.flt.dev i ≠ 0)
  let keepDev := wasDev && s.on (F.FLT_SRCi_CAUSE i) && (lanes = 0 || s.flt.causes.any fun c => c.src = i && c.scope = none)
  let s := s.wrB (F.FLT_SRCi_REFUSED i) (pick &&& cause ≠ 0)
  if kept = lanes && (keepDev || !wasDev) then s
  else
    let s := (s.wrSet (F.FLT_SRCi_LSTK_LANE i) kept).modFlt fun f => { f with dev := if keepDev then f.dev else dropKey i f.dev }
    let s := (s.wrB (F.FLT_SRCi_MERGED i) false).wr (F.FLT_SRCi_COUNT i) 0
    let gone := kept = 0 && !keepDev
    let s := s.when gone fun s =>
      (((s.wrB (F.FLT_SRCi_STK i) false).wr (F.FLT_SRCi_CLASS i) 0).wrB (F.FLT_SRCi_PERM i) false).wrBit (F.FLT_SUMk_STK (i / 32)) (i % 32) false
    let again := if keepDev then [] else s.mergedFree i kept
    let s := s.showLaneF.modFlt fun f => { f with
      merged := f.merged.filter fun x => !(x.into = i && !keepDev && scopeLanes x.scope &&& kept = 0),
      recent := if gone then f.recent.filter fun a => a.src ≠ i else f.recent }
    again.foldl (fun s x => s.raiseNew x.src x.cls x.scope) s

/-- A clearing write that carries a stale sequence number is ignored whole and counted (R73). -/
def State.staleClear (s : State) (a : Nat) : State := (s.count F.SYS_STALE_COUNT 1).wr F.SYS_STALE_BLOCK (blockOf a)

/-- R312: a write to FLT_SRCi. -/
def State.faultClear (s : State) (i : Nat) (v : Word) : State :=
  if bitOf v.toNat 23 then
    if seqOf v = s.rd (F.FLT_SRCi_SEQ i) then s.clearSource i else s.staleClear (A.FLT_SRCi i)
  else s

/-- FAULT_CLEAR (R312). -/
def execFaultClear (i : Fin 256) (v : Word) (s : State) : Host.Outcome State Fault Refusal := .next (s.faultClear i v)

/-! ## Retirement commands (R311) -/

/-- RETIRE: never refused; retires the whole group. -/
def State.retireCmd (s : State) : State := s.retire (laneBit (s.rd F.FLT_RETCMD_LANE))

/-- RESTORE is denied for a member lane, while a sticky bit of lane class or higher is set for the lane, and for a lane
retired by a weld until both mirrors show open (R289, R311). -/
def restoreDenied (s : State) (n : Nat) : Bool :=
  (s.laneType n).member || (s.groupOf n).any (fun k => s.laneFault k) || (s.rdBit (F.SAF_ACON_LANE 5) n && s.mirAny n)

/-- RESTORE. -/
def State.restoreCmd (s : State) : State :=
  let n := s.rd F.FLT_RETCMD_LANE
  if restoreDenied s n then s.sticky F.FLT_RETCMD_DENIED
  else
    let m := s.groupSet n
    (s.wrSet F.FLT_RETIRED_LANE (s.rdSet F.FLT_RETIRED_LANE &&& ~~~m)).wrSet (F.SAF_ACON_LANE 5)
      (s.rdSet (F.SAF_ACON_LANE 5) &&& ~~~m)

/-- LANE_RESTORE (R311): FLT_RETCMD.RESTORE for the lane in FLT_RETCMD.LANE. -/
def execLaneRestore (s : State) : Host.Outcome State Fault Refusal := .next s.restoreCmd

/-- LANE_RETIRE (R311): FLT_RETCMD.RETIRE for the lane in FLT_RETCMD.LANE. -/
def execLaneRetire (s : State) : Host.Outcome State Fault Refusal := .next s.retireCmd

/-! ## Fault pins (R314, R315) -/

/-- A write of 1 to FLT_PIN.RELEASE: judged at the next edge. -/
def State.pinRelease (s : State) : State := s.modFlt fun f => { f with releaseReq := true }

/-- FAULT_PIN_RELEASE (R314). -/
def execFaultPinRelease (s : State) : Host.Outcome State Fault Refusal := .next s.pinRelease

/-- No sticky bit of a class selected by PINCLS is set. -/
def pinsClear (s : State) : Bool :=
  sourcesAll.all fun i => !(s.on (F.FLT_SRCi_STK i) && s.rdBit F.FLT_CFG_PINCLS (s.rd (F.FLT_SRCi_CLASS i)))

/-- The 1 ms of R314 has passed since the latest raise that drove or found the fault level. -/
def pinTimeOver (s : State) : Bool := !s.flt.pinHeld || s.flt.pinRaise + 1 ≤ s.clk.frame

/-- The pins' work at an edge: the pulse ends after 1 ms, and a release written before the edge is judged (R314). -/
def State.pinEdge (s : State) : State :=
  let s := if pinTimeOver s then (s.wrB F.FLT_PIN_PULSE false).modFlt fun f => { f with pinHeld := false } else s
  if s.flt.releaseReq then
    let s := s.modFlt fun f => { f with releaseReq := false }
    if pinTimeOver s && pinsClear s then s.wrB F.FLT_PIN_LEVEL false else s
  else s

/-- FAULT_INPUT_LEVEL (R315): the levels of FLTI_P and FLTI_M held over two consecutive control frames. -/
def execFaultInputLevel (p m : Bool) (s : State) : Host.Outcome State Fault Refusal :=
  .next <|
    if s.on F.FLT_CFG_FIEN then
      if p = m then ((s.wr F.FLT_PIN_FLTI 2).causeOff 0x0B none).when (!s.causeIs 0x0C) fun s => s.raiseDev 0x0C 3
      else if m then ((s.wr F.FLT_PIN_FLTI 1).causeOff 0x0C none).when (!s.causeIs 0x0B) fun s => s.raiseDev 0x0B (s.rd F.FLT_CFG_FICLS)
      else ((s.wr F.FLT_PIN_FLTI 0).causeOff 0x0B none).causeOff 0x0C none
    else s

/-- The pair is ignored while FIEN is 0: neither of its causes is then present (R315; log entry 43). -/
def State.fltiEdge (s : State) : State :=
  if s.on F.FLT_CFG_FIEN || !(s.causeIs 0x0B || s.causeIs 0x0C) then s
  else ((s.wr F.FLT_PIN_FLTI 0).causeOff 0x0B none).causeOff 0x0C none

/-- The collector's work at the end of an edge: the cause-present bits, then the pins (R304, R313, R314). -/
def State.faultEdge (s : State) : State := s.fltiEdge.showCauses.pinEdge

/-- The levels of FLT_P and FLT_M: 01 in the fault level, 10 in the normal level, both low without VDD_IO33 (R314). -/
def State.faultPair (s : State) : Bool × Bool :=
  if s.thm.io33 then (!s.on F.FLT_PIN_LEVEL, s.on F.FLT_PIN_LEVEL) else (false, false)

/-! ## Heartbeat (R316) -/


/-- The next key of the alternation. -/
def nextKey (s : State) : Nat := if s.flt.wdFirst then 0x5A3C else 0xA5C3

/-- A write to FLT_WDOG.KEY: the answer 0x7E81 to a probe, the key in turn, or a key ignored and counted. -/
def State.watchdogKey (s : State) (k : Nat) : State :=
  let answers := match s.flt.wdProbe with | some t => decide (s.clk.frame ≤ t + 10) | none => false
  if k = 0x7E81 && answers then
    (s.modFlt fun f => { f with wdProbe := none, wdFirst := true, wdLast := s.clk.frame }).raiseOnce 0x08 1 none
  else if k = nextKey s then
    (s.modFlt fun f => { f with wdFirst := !f.wdFirst, wdLast := s.clk.frame, wdWedged := none }).causeOff 0x08 none
  else s.count F.FLT_WDOG_BADKEY 1

/-- WATCHDOG_KEY (R316). -/
def execWatchdogKey (key : BitVec 16) (s : State) : Host.Outcome State Fault Refusal := .next (s.watchdogKey key.toNat)

/-- WATCHDOG_PROBE (R316): no good key for WDT ms since the image began to run (log entry 43); all four cores are interrupted. While the
cause of an unanswered probe is present no other probe is due. -/
def execWatchdogProbe (s : State) : Host.Outcome State Fault Refusal :=
  .next <| if 4 ≤ s.rd F.SYS_STAGE_STAGE && s.flt.wdProbe.isNone && s.flt.wdWedged.isNone && s.flt.wdLast + s.rd F.FLT_WDCFG_WDT ≤ s.clk.frame then
      s.modFlt fun f => { f with wdProbe := some s.clk.frame, irq := f.irq + 1 }
    else s

/-- WATCHDOG_PROBE_TIMEOUT (R316): no answer within 10 ms is the second witness. -/
def execWatchdogProbeTimeout (s : State) : Host.Outcome State Fault Refusal :=
  .next <| match s.flt.wdProbe with
    | some f0 => if f0 + 10 ≤ s.clk.frame then
        (s.modFlt fun f => { f with wdProbe := none, wdWedged := some s.clk.frame }).raiseDev 0x08 3
      else s
    | none => s

/-! ## Position encoders (R318) -/

def State.enc (s : State) (k : Nat) : EncState := lk (fun _ => {}) s.flt.enc k

def State.modEnc (s : State) (k : Nat) (f : EncState → EncState) : State :=
  s.modFlt fun x => { x with enc := put (fun _ => {}) x.enc k (f (s.enc k)) }

/-- Phase of the two lines in the four-edge cycle 00, 10, 11, 01. -/
def encPhase (a b : Bool) : Nat := match a, b with | false, false => 0 | true, false => 1 | true, true => 2 | false, true => 3

/-- Class and scope of source 0x0D for encoder `k`: lane class on LANE when LEN is 1, else degrade. -/
def State.encFault (s : State) (k : Nat) : State :=
  let lane := s.on (F.FLT_QENk_CTL_LEN k)
  let scope := if lane then some (s.groupSet (s.rd (F.FLT_QENk_CTL_LANE k))) else none
  (s.modEnc k fun e => { e with raised := some scope }).raise 0x0D (if lane then 2 else 1) scope

/-- An illegal transition: the count unchanged; four within 1 s make the position unreliable. -/
def State.encIllegal (s : State) (k : Nat) : State :=
  let now := s.clk.frame
  let s := s.count (F.FLT_QENk_CTL_ILLEGAL k) 1
  let s := s.modEnc k fun e => { e with illegal := (now :: e.illegal.filter fun t => now < t + 1000).take 4 }
  if 4 ≤ (s.enc k).illegal.length && (s.enc k).raised.isNone then (s.sticky (F.FLT_QENk_CTL_UNREL k)).encFault k else s

/-- ENCODER_EDGE (R318): the filtered lines of encoder `k` take new levels. -/
def execEncoderEdge (k : Fin 8) (a b : Bool) (s : State) : Host.Outcome State Fault Refusal :=
  .next <|
    if s.on (F.FLT_QENk_CTL_EN k) then
      let e := s.enc k
      let d := (encPhase a b + 4 - encPhase e.a e.b) % 4
      let s := s.modEnc k fun e => { e with a := a, b := b }
      let up := xor (d = 1) (s.on (F.FLT_QENk_CTL_DIR k))
      if d = 0 then s
      else if d = 2 then s.encIllegal k
      else s.setWord (A.FLT_QENk_CNT k) (if up then s.word (A.FLT_QENk_CNT k) + 1 else s.word (A.FLT_QENk_CNT k) - 1)
    else s

/-- HOME: loads the count, clears UNREL and ends the encoder's cause, which another encoder's fault of the same scope keeps (R318). -/
def State.encHome (s : State) (k : Nat) : State :=
  let s := (s.wr (F.FLT_QENk_CNT_COUNT k) (s.rd (F.FLT_QENk_HOME_VALUE k))).wrB (F.FLT_QENk_CTL_UNREL k) false
  let was := (s.enc k).raised
  let s := s.modEnc k fun e => { e with illegal := [], raised := none }
  match was with
  | some scope => if s.flt.enc.any fun e => e.2.raised = some scope then s
      else match scope with
        | some m => s.causeOff 0x0D (some m)
        | none => s.causeOffDev 0x0D
  | none => s

/-- ENCODER_HOME (R318). -/
def execEncoderHome (k : Fin 8) (s : State) : Host.Outcome State Fault Refusal := .next (s.encHome k)

end Sys2Proof.Machine
end

