-- ==== Sys2Proof/Machine/Switch.lean ====
section
/-!
DEFINITION. The protected switch array (spec/12) and the start scheduler (R247 to R249): start requests and admission,
pull-in and hold, lock moves, trips, retries and latches, supply conditions, clamp energy, dissipation and shedding.
-/

namespace Sys2Proof.Machine

open Sys2Proof

/-! ## Start requests -/

/-- A supply condition or an over-temperature that refuses every request (R265, R269). -/
def State.refusing (s : State) : Bool :=
  s.on F.SWA_SUPPLY_GNDNOW || s.on F.SWA_SUPPLY_REVNOW || s.swa.overTemp

/-- Any supply condition present now. -/
def State.supplyBad (s : State) : Bool :=
  s.on F.SWA_SUPPLY_GNDNOW || s.on F.SWA_SUPPLY_REVNOW || s.on F.SWA_SUPPLY_OVNOW || s.on F.SWA_SUPPLY_UVNOW

/-- The lane a channel belongs to: its own for contactor and lock, the assigned lane of a general channel of role 1 or 2. -/
def State.chanLane (s : State) (c : Nat) : Option Nat :=
  if c < 32 then some c
  else if c < 64 then some (c - 32)
  else if s.rd (F.SWA_Gk_CFG_ROLE (c - 64)) = 1 || s.rd (F.SWA_Gk_CFG_ROLE (c - 64)) = 2 then some (s.rd (F.SWA_Gk_CFG_LANE (c - 64)))
  else none

/-- A request is refused before service (R79), without VDD_FLD (R430), for a channel whose lane carries no outlet, has no head declared
present or one that failed (R31, R40), for a disabled general channel (R260), for a latched channel (R264); a contactor's also while
an update activates (R379). -/
def State.startRefused (s : State) (c : Nat) : Bool :=
  s.rd F.SYS_STAGE_STAGE ≠ 8 || !s.boot.vddField || s.refusing || (c < 32 && s.rd F.UPD_BANK_STATE = 4) || (s.chan c).latched ||
    (64 ≤ c && !s.on (F.SWA_Gk_CFG_EN (c - 64))) ||
    match s.chanLane c with
    | some n => !(s.head (s.lead n)).serves || !(s.laneType (s.lead n)).outlet
    | none => false

/-- Raise a start request of channel `c` with arrival edge `at_` (R247): refused, held outside the queue while the channel is
clamp-locked (R267), or queued. -/
def State.requestAt (s : State) (c at_ : Nat) : State :=
  if s.startRefused c || s.chanOn c then s
  else if (s.chan c).locked then s.modChan c fun k => { k with clampHeld := true }
  else if (s.chan c).queued.isSome then s
  else (s.modChan c fun k => { k with queued := some at_, pauseEnd := 0, shed := false }).showRest c

/-- A request raised in the running frame arrives at the next edge. -/
def State.request (s : State) (c : Nat) : State := s.requestAt c (s.clk.frame + 1)

/-- Aux current booked for a start, in mA (R247). -/
def State.startCurrent (s : State) (c : Nat) : Nat :=
  if c < 32 then 100 * s.rd (F.SWA_Ln_CCCFG_PICUR c)
  else if c < 64 then 1500
  else 10 * (if s.rd (F.SWA_Gk_INR_IINR (c - 64)) = 0 then s.rd (F.SWA_Gk_CFG_IRATE (c - 64)) else s.rd (F.SWA_Gk_INR_IINR (c - 64)))

/-- How long a start is booked, in frames (R247, R262). -/
def State.startTime (s : State) (c : Nat) : Nat :=
  if c < 32 then s.rd (F.SWA_Ln_CCCFG_PITIME c)
  else if c < 64 then s.rd (F.SWA_Ln_LKCFG_DRIVE (c - 32))
  else max 1 (s.rd (F.SWA_Gk_INR_TINR (c - 64)))

/-- Heat booked for a start, in mW (R247). -/
def State.startHeat (s : State) (c : Nat) : Nat :=
  10 * (if c < 32 then s.rd F.ALC_COST_CC else if c < 64 then s.rd F.ALC_COST_LK else s.rd F.ALC_COST_GEN)

/-- Are the three enables of R18 present at lane `n`'s contactor channel? -/
def State.enables (s : State) (n : Nat) : Bool :=
  s.on (F.SWA_Ln_CCST_SRQ n) && s.on (F.SWA_Ln_CCST_ACON n) && s.on (F.SWA_Ln_CCST_BCON n)

/-- May the request be offered at this edge: a pull-in needs its enables (R255), a move toward unlocked the consents of R20
(R258), and no supply condition may be present (R265)? -/
def State.offered (s : State) (c : Nat) : Bool :=
  !s.supplyBad && !s.refusing &&
    (if c < 32 then s.enables c else if c < 64 then (s.chan c).dir || inSet s.saf.ulk (c - 32) else true)

/-- A waiting request: class, arrival, order number, kind, and what it starts (channels below 96, reader 96 + k). -/
structure StartReq where
  cls : Nat
  arrival : Nat
  order : Nat
  kind : Nat
  id : Nat
  deriving DecidableEq, Repr

/-- R248: class descending, then arrival, then lane number (non-lane 32 + channel), then kind. -/
def reqBefore (a b : StartReq) : Bool :=
  if a.cls ≠ b.cls then b.cls < a.cls
  else if a.arrival ≠ b.arrival then a.arrival < b.arrival
  else if a.order ≠ b.order then a.order < b.order
  else a.kind < b.kind

/-- Insert in order. -/
def reqInsert (a : StartReq) : List StartReq → List StartReq
  | [] => [a]
  | b :: bs => if reqBefore a b then a :: b :: bs else b :: reqInsert a bs

/-- Priority class of lane `n` (R192). -/
def State.laneClass (s : State) (n : Nat) : Nat := s.rd (F.PIL_Ln_AUTH_CLASS n)

/-- The request of a channel, as the queue orders it. -/
def State.chanReq (s : State) (c at_ : Nat) : StartReq :=
  if c < 32 then ⟨s.laneClass c, at_, c, 0, c⟩
  else if c < 64 then ⟨s.laneClass (c - 32), at_, c - 32, 1, c⟩
  else ⟨s.rd F.ALC_SCTL_NCLS, at_, 32 + (c - 64), 2, c⟩

/-- The waiting requests that may be offered now, in order. -/
def State.waiting (s : State) : List StartReq :=
  let now := s.clk.frame
  let cs := s.swa.chans.filterMap fun kc => match kc.2.queued with
    | some a => if a ≤ now && s.offered kc.1 then some (s.chanReq kc.1 a) else none
    | none => none
  let rs := s.swa.rdrQueue.filterMap fun ra => if ra.2 ≤ now then some (⟨s.rd F.ALC_SCTL_NCLS, ra.2, 32 + ra.1, 3, 96 + ra.1⟩ : StartReq) else none
  (cs ++ rs).foldl (fun l r => reqInsert r l) []

/-- Requests waiting in all. -/
def State.queueLen (s : State) : Nat := (s.swa.chans.filter fun kc => kc.2.queued.isSome).length + s.swa.rdrQueue.length

/-- Booked aux current in mA, as each start booked it. -/
def State.bookedAux (s : State) : Nat :=
  s.swa.chans.foldl (fun a kc => if kc.2.booked.isSome then a + kc.2.bookAux else a) 0

/-- The standing admissions of enabled readers, in mW (R247). -/
def State.standingHeat (s : State) : Nat :=
  ((List.range 4).filter fun k => s.on (F.NFC_RDk_CFG_EN k)).length * s.rd F.ALC_COST_RDR

/-- Booked heat in mW, the standing admissions included. -/
def State.bookedHeat (s : State) : Nat :=
  s.swa.chans.foldl (fun a kc => if kc.2.booked.isSome then a + kc.2.bookHeat else a)
    (s.swa.rdrOn.foldl (fun a r => a + r.2) s.standingHeat)

/-- d_steady of this edge in fW (R268). -/
def State.dSteady (s : State) : Nat := s.swa.steady

/-- One mW in fW. -/
def mW : Nat := 1000000000000

def reqCurrent (s : State) (r : StartReq) : Nat := if r.id < 96 then s.startCurrent r.id else 0

def reqHeat (s : State) (r : StartReq) : Nat := if r.id < 96 then s.startHeat r.id else 10 * s.rd F.ALC_COST_RDR

/-- Nothing but the standing admissions is booked. -/
def State.nothingBooked (s : State) : Bool := !(s.swa.chans.any fun kc => kc.2.booked.isSome) && s.swa.rdrOn.isEmpty

/-- Does the request fit both budgets (R248)? One that never fits alone is admitted when nothing else is booked. -/
def reqFits (s : State) (r : StartReq) : Bool :=
  let aux := 100 * s.rd F.ALC_AUXB_BUDGET
  let heat := 10 * mW * s.rd F.ALC_HEATB_BUDGET
  (s.bookedAux + reqCurrent s r ≤ aux && s.dSteady + mW * (s.bookedHeat + reqHeat s r) ≤ heat) ||
    ((aux < reqCurrent s r || heat < s.dSteady + mW * (s.standingHeat + reqHeat s r)) && s.nothingBooked)

/-- Show a wait (R249). -/
def State.showWait (s : State) (c at_ : Nat) : State :=
  let w := s.clk.frame - at_
  let (last, most) := if c < 64 then (F.ALC_Ln_WAIT_LAST (c % 32), F.ALC_Ln_WAIT_MAX (c % 32)) else (F.ALC_SWAIT_LAST, F.ALC_SWAIT_MAX)
  (s.wrSat last w).wrSat most (max w (s.rd most))

/-- The configuration word a start takes (R271). -/
def State.startCfg (s : State) (c : Nat) : Nat :=
  (s.useWord (if c < 32 then A.SWA_Ln_CCCFG c else if c < 64 then A.SWA_Ln_LKCFG (c - 32) else A.SWA_Gk_INR (c - 64))
    (if c < 64 then 0x200 else 0x4000)).toNat

/-- Start channel `c`, admitted at this edge: pull-in, a lock drive, inrush (R254, R257, R262). What it books and its settings stay
for this start (R247, R271). -/
def State.startChan (s : State) (c at_ : Nat) : State :=
  let now := s.clk.frame
  let s := s.showWait c at_
  let s := s.modChan c fun k => { k with
    queued := none, booked := some now, bookEnd := now + s.startTime c, onSince := some now, openCnt := 0,
    bookAux := s.startCurrent c, bookHeat := s.startHeat c, arrival := at_, cfg := s.startCfg c, inrush := s.startCurrent c, peak := 0,
    moving := decide (32 ≤ c ∧ c < 64), attempt := k.attempt + 1, interrupted := false }
  if c < 32 then s.wr (F.SWA_Ln_CCST_STATE c) 1
  else if c < 64 then
    ((s.wr (F.SWA_Ln_LKST_POS (c - 32)) 3).wrB (F.SWA_Ln_LKST_DIR (c - 32)) (s.chan c).dir).wrB (F.SWA_Ln_LKST_BRAKE (c - 32)) false
  else s.wr (F.SWA_Gk_ST_STATE (c - 64)) 1

/-- Admit one request. -/
def State.takeReq (s : State) (r : StartReq) : State :=
  if r.id < 96 then s.startChan r.id r.arrival
  else
    (s.showWait r.id r.arrival).modSwa fun w => { w with
      rdrQueue := w.rdrQueue.filter fun x => x.1 ≠ r.id - 96, rdrOn := (r.id - 96, reqHeat s r) :: w.rdrOn }

/-- Take the requests in order and stop at the first that does not fit; a reader is passed over while two continuous
transmissions are admitted (R248). -/
def admitAll : List StartReq → State → State
  | [], s => s
  | r :: rs, s =>
    if reqFits s r then
      if 96 ≤ r.id && 2 ≤ s.swa.rdrOn.length then admitAll rs s else admitAll rs (s.takeReq r)
    else s

/-- START_SCHEDULE (R248): admissions at this edge, and what the scheduler shows. -/
def State.schedule (s : State) : State :=
  let s := s.wr F.ALC_SQ_MAXLEN (max (s.rd F.ALC_SQ_MAXLEN) (satNat 255 s.queueLen))
  let s := admitAll s.waiting s
  let s := s.wrSat F.ALC_SQ_LEN s.queueLen
  (s.wrSat F.ALC_SBOOK_HEAT ((s.dSteady + mW * s.bookedHeat) / (10 * mW))).wrSat F.ALC_SBOOK_AUX (s.bookedAux / 100)

/-- Release a channel's booking when its time has ended or its start has ended sooner (R248); an inrush ends with it (R262). -/
def State.releaseChan (s : State) (c : Nat) : State :=
  if (s.chan c).booked.isSome && (s.chan c).bookEnd ≤ s.clk.frame then
    let s := s.modChan c fun k => { k with booked := none }
    if 64 ≤ c && s.chanState c = 1 then s.setChanState c 2 else s
  else s

/-- Release a reader's admission after its transmission has ended (R248). -/
def State.releaseReader (s : State) (k : Nat) : State :=
  if s.swa.rdrEnd.contains k then
    s.modSwa fun w => { w with rdrOn := w.rdrOn.filter (·.1 ≠ k), rdrEnd := w.rdrEnd.filter (· ≠ k) }
  else s

/-- BOOKING_RELEASE (R248): the booking is released at the edge at which its time or its start has ended, and the scheduler
then takes the waiting requests. -/
def execBookingRelease (b : BookId) (s : State) : Host.Outcome State Fault Refusal :=
  .next (match b with
    | .chan c => (s.releaseChan (chanIndex c)).schedule
    | .reader k => (s.releaseReader k.val).schedule)

/-- SCHED_CLEAR (R249): ALC_SCTL.CLR. -/
def State.schedClear (s : State) : State :=
  ((s.wr F.ALC_SQ_MAXLEN 0).wr F.ALC_SWAIT_MAX 0).each lanesAll fun s n => s.wr (F.ALC_Ln_WAIT_MAX n) 0

def execSchedClear (s : State) : Host.Outcome State Fault Refusal := .next s.schedClear

/-- PULL_IN_END (R254): at PITIME after the admission edge the channel changes from pull-in to hold. -/
def execPullInEnd (n : Lane) (s : State) : Host.Outcome State Fault Refusal :=
  .next <| if s.rd (F.SWA_Ln_CCST_STATE n) = 1 && (s.chan n).bookEnd ≤ s.clk.frame then s.wr (F.SWA_Ln_CCST_STATE n) 2 else s

/-! ## Lock moves (R257 to R259) -/

/-- Ask for a lock move: toward locked when `dir`; the first of at most two attempts. -/
def State.lockMove (s : State) (n : Nat) (dir : Bool) : State :=
  (s.modChan (32 + n) fun k => { k with dir := dir, attempt := 0, queued := none, retryAt := 0 }).request (32 + n)

/-- Drop a lock move not yet ended. -/
def State.lockDrop (s : State) (n : Nat) : State := s.chanOff (32 + n)

/-- Is a lock move pending or running? -/
def State.lockBusy (s : State) (n : Nat) : Bool :=
  (s.chan (32 + n)).moving || (s.chan (32 + n)).queued.isSome || (s.chan (32 + n)).clampHeld || (s.chan (32 + n)).retryAt ≠ 0 ||
    (s.chan (32 + n)).pauseEnd ≠ 0

/-- The ms at which the current of an attempt, one value for every ms, begins to stay at or above `stall` mA for 20 ms. -/
def stallAt (stall : Nat) (cur : List Nat) : Option Nat :=
  (List.range cur.length).find? fun t => t + 20 ≤ cur.length && ((cur.drop t).take 20).all fun x => stall ≤ x

/-- After `tmin` ms, did the current fall by at least 5 % of its peak so far and then rise again? Peak so far, ms so far, the lowest
current since a fall, whether it rose. -/
def plungerDip (tmin : Nat) (cur : List Nat) : Bool :=
  (cur.foldl (fun (x : Nat × Nat × Option Nat × Bool) i =>
    let low := if tmin ≤ x.2.1 && (100 * i ≤ 95 * x.1 || x.2.2.1.isSome) then some (min i (x.2.2.1.getD i)) else none
    (max x.1 i, x.2.1 + 1, low, x.2.2.2 || (match low with | some l => decide (l < i) | none => false))) (0, 0, none, false)).2.2.2

/-- Was the attempt confirmed (R257)? `cur` is the actuator's current in mA, one value for every ms of the attempt; the head's LOCK
field, in LKST.TYPE, selects the method, and the settings are those taken at the start (R271). -/
def lockConfirmed (s : State) (n : Nat) (cur : List Nat) : Bool :=
  let cfg := (s.chan (32 + n)).cfg
  let drive := (F.SWA_Ln_LKCFG_DRIVE n).of cfg
  let tmin := 10 * (F.SWA_Ln_LKCFG_TMIN n).of cfg
  let stall := 10 * (F.SWA_Ln_LKCFG_STALL n).of cfg
  50 ≤ cur.foldl max 0 &&
    (if s.rd (F.SWA_Ln_LKST_TYPE n) = 2 then drive ≤ cur.length && plungerDip tmin (cur.take drive)
     else !((cur.take tmin).any fun x => stall ≤ x) && (match stallAt stall (cur.take drive) with | some t => tmin ≤ t | none => false))

/-- An attempt of a lock move ends: its duration and peak are shown; POS shows a confirmed position, and the first attempt that is
not confirmed is repeated 200 ms later (R258). -/
def State.lockEnd (s : State) (n ms peak : Nat) (ok : Bool) : State :=
  let k := s.chan (32 + n)
  let s := (s.wrSat (F.SWA_Ln_LKST_TIME n) ms).wrSat (F.SWA_Ln_LKST_IPEAK n) peak
  let s := s.chanStop (32 + n)
  let s := s.modChan (32 + n) fun c => { c with retryAt := if ok || 2 ≤ k.attempt then 0 else s.clk.frame + 200 }
  if ok then (s.wr (F.SWA_Ln_LKST_POS n) (if k.dir then 1 else 2)).wr (F.SWA_Ln_LKST_LAST n) (if k.attempt = 1 then 1 else 2) else s

/-- LOCK_MOVE_END (R257, R258); a peak below 50 mA shows an open actuator. -/
def execLockMoveEnd (n : Lane) (cur : List Nat) (s : State) : Host.Outcome State Fault Refusal :=
  .next <|
    if (s.chan (32 + n)).moving then
      let peak := cur.foldl max 0
      let s := s.lockEnd n cur.length peak (lockConfirmed s n cur)
      if peak < 50 then (s.sticky (F.SWA_Ln_STAT_LKOPEN n)).raiseOnce 0x4A 1 (some (s.groupSet n)) else s
    else s

/-- A consent is withdrawn during a move toward unlocked: the drive stops at once and the move is not confirmed (R258). Its duration is
that of the frames since its start, its peak the largest current latched. -/
def State.lockCut (s : State) (n : Nat) : State :=
  let k := s.chan (32 + n)
  s.lockEnd n (s.clk.frame - k.onSince.getD s.clk.frame) (max k.peak (lk (fun _ => 0) s.pins.lkI n)) false

/-- LOCK_RETRY (R258): 200 ms after the first attempt, not confirmed, a repeat move is requested. -/
def execLockRetry (n : Lane) (s : State) : Host.Outcome State Fault Refusal :=
  .next <| if (s.chan (32 + n)).retryAt ≠ 0 && (s.chan (32 + n)).retryAt ≤ s.clk.frame then
      (s.modChan (32 + n) fun c => { c with retryAt := 0 }).request (32 + n)
    else s

/-! ## Trips, retries, latches (R253, R264) -/

/-- Show a trip and a latch in the channel's sticky bits. -/
def State.tripSticky (s : State) (c : Nat) : State :=
  if c < 32 then s.sticky (F.SWA_Ln_STAT_CCTRIP c)
  else if c < 64 then s.sticky (F.SWA_Ln_STAT_LKTRIP (c - 32)) else s.sticky (F.SWA_Gk_ST_TRIP (c - 64))

def State.latchSticky (s : State) (c : Nat) : State :=
  if c < 32 then (s.sticky (F.SWA_Ln_STAT_CCLATCH c)).raiseLane 0x43 2 c
  else if c < 64 then (s.sticky (F.SWA_Ln_STAT_LKLATCH (c - 32))).raiseLane 0x44 2 (c - 32)
  else (s.sticky (F.SWA_Gk_ST_LATCH (c - 64))).raiseDev 0x45 1

/-- An over-current trip: the channel opens, its count rises, and it pauses or latches (R264). -/
def State.trip (s : State) (c : Nat) : State :=
  if s.chanOn c then
    let k := s.trips c + 1
    let s := ((s.chanStop c).setTrips c (satNat 15 k)).tripSticky c
    if s.rd F.SWA_CFG_N ≤ k then
      ((s.modChan c fun x => { x with latched := true, latchAt := s.clk.frame + 1 }).showRest c).latchSticky c
    else (s.modChan c fun x => { x with pauseEnd := s.clk.frame + min (2 ^ (k - 1)) 512 }).showRest c
  else s

/-- The trip level of a channel in mA, by its phase (R253); a lock path has none. -/
def State.tripLevel (s : State) (c : Nat) : Option Nat :=
  let k := s.chan c
  if c < 32 then
    some (500 + (if s.chanState c = 1 then 100 * (F.SWA_Ln_CCCFG_PICUR c).of k.cfg else 10 * (F.SWA_Ln_CCCFG_HOLD c).of k.cfg))
  else if c < 64 then none
  else some (if s.chanState c = 1 then 3 * k.inrush / 2 else 15 * s.rd (F.SWA_Gk_CFG_IRATE (c - 64)))

/-- The hard-short level of a channel in mA: a free value within the limits of R252. -/
def hardShort (c : Nat) : Nat :=
  if 32 ≤ c && c < 64 then max 3500 (min 4500 (Config.hardShort c)) else max 5000 (min 7000 (Config.hardShort c))

/-- CHANNEL_TRIP (R253, R264): the channel's current has been `ma` mA for `us` µs; beyond the hard-short level it trips at once, beyond
its trip level after 20 µs. A channel that is off has nothing to open, and no trip is counted (R270). -/
def execChannelTrip (o : Overcurrent) (s : State) : Host.Outcome State Fault Refusal :=
  let c := chanIndex o.ch
  .next <| if hardShort c < o.ma || (20 ≤ o.us && (match s.tripLevel c with | some l => decide (l < o.ma) | none => false)) then s.trip c else s

/-- RETRY_PAUSE_END (R264): a new start request of the channel's kind and class. -/
def execRetryPauseEnd (ch : ChanId) (s : State) : Host.Outcome State Fault Refusal :=
  let c := chanIndex ch
  .next <| if (s.chan c).pauseEnd ≠ 0 && (s.chan c).pauseEnd ≤ s.clk.frame then
      ((s.modChan c fun k => { k with pauseEnd := 0 }).showRest c).request c
    else s

/-- TRIP_COUNT_RESET (R264): on without a trip for RESET ms. -/
def execTripCountReset (ch : ChanId) (s : State) : Host.Outcome State Fault Refusal :=
  let c := chanIndex ch
  .next <| match (s.chan c).onSince with
    | some t => if s.chanOn c && t + s.rd F.SWA_CFG_RESET ≤ s.clk.frame then s.setTrips c 0 else s
    | none => s

/-- End a latch: the trip count returns to 0 (R264). -/
def State.releaseLatch (s : State) (c : Nat) : State :=
  ((s.setTrips c 0).modChan c fun k => { k with latched := false }).showRest c

def State.relCc (s : State) (n : Nat) : State := if s.rdBit (F.FLT_SRCi_LSTK_LANE 0x43) n then s else s.releaseLatch n

def State.relLk (s : State) (n : Nat) : State := if s.rdBit (F.FLT_SRCi_LSTK_LANE 0x44) n then s else s.releaseLatch (32 + n)

/-- SWA_Gk_CTL.REL; a write for a channel of another role than 3 is ignored (R261). -/
def State.relGen (s : State) (k : Nat) : State :=
  if s.rd (F.SWA_Gk_CFG_ROLE k) ≠ 3 || s.on (F.FLT_SRCi_STK 0x45) then s else s.releaseLatch (64 + k)

/-- RELEASE_CC_LATCH: ignored while the latch source's sticky bit is set for the lane (R264). -/
def execReleaseCcLatch (n : Lane) (s : State) : Host.Outcome State Fault Refusal := .next (s.relCc n)

/-- RELEASE_LK_LATCH (R264). -/
def execReleaseLkLatch (n : Lane) (s : State) : Host.Outcome State Fault Refusal := .next (s.relLk n)

/-- RELEASE_GEN_LATCH (R264). -/
def execReleaseGenLatch (k : Fin 32) (s : State) : Host.Outcome State Fault Refusal := .next (s.relGen k)

/-! ## General channels (R261, R263) -/

/-- May the one who asks switch channel `k`: a write to SWA_Gk_CTL one of role 3, the service image one of role 0 or 1? -/
def State.maySwitch (s : State) (k : Nat) (image : Bool) : Bool :=
  let r := s.rd (F.SWA_Gk_CFG_ROLE k)
  if image then r = 0 || r = 1 else r = 3

def State.genOn (s : State) (k : Nat) (image : Bool) : State := if s.maySwitch k image then s.request (64 + k) else s

def State.genOff (s : State) (k : Nat) (image : Bool) : State := if s.maySwitch k image then s.chanOff (64 + k) else s

/-- GEN_CHANNEL_ON (R261): raises a start request, for SWA_Gk_CTL.ON or for the service image. -/
def execGenChannelOn (q : GenRequest) (s : State) : Host.Outcome State Fault Refusal := .next (s.genOn q.k q.image)

/-- GEN_CHANNEL_OFF (R261): switches the channel off at once. -/
def execGenChannelOff (q : GenRequest) (s : State) : Host.Outcome State Fault Refusal := .next (s.genOff q.k q.image)

/-- Is the channel in a phase in which open load is checked, with its current below its threshold (R263)? The current of a
general channel in the LED range is counted in 10 µA and its threshold in 0.1 mA. -/
def State.openNow (s : State) (c : Nat) : Bool :=
  if c < 32 then s.rd (F.SWA_Ln_CCST_STATE c) = 2 && s.rd (F.SWA_Ln_CCST_I c) < 20
  else if c < 64 then false
  else s.rd (F.SWA_Gk_ST_STATE (c - 64)) = 2 && s.rd (F.SWA_Gk_ST_I (c - 64)) < 10 * s.rd (F.SWA_Gk_CFG_OLTH (c - 64))

/-- Count the consecutive frames of every channel below its threshold. -/
def State.countOpen (s : State) : State :=
  s.each (s.swa.chans.map (·.1)) fun s c =>
    let k := if s.openNow c then (s.chan c).openCnt + 1 else 0
    if k = (s.chan c).openCnt then s else s.modChan c fun x => { x with openCnt := k }

/-- Is the channel open: below its threshold for ten consecutive frames? -/
def State.isOpen (s : State) (c : Nat) : Bool := s.openNow c && 10 ≤ (s.chan c).openCnt

/-- OPEN_LOAD (R263). A contactor coil's class is lane when a mirror shows the contactor open while the coil is held. -/
def execOpenLoad (ch : ChanId) (s : State) : Host.Outcome State Fault Refusal :=
  .next <| match ch with
    | .cc n => if s.isOpen n then
        (s.sticky (F.SWA_Ln_STAT_CCOPEN n)).raiseLane 0x41 (if s.mirBoth n then 1 else 2) n else s
    | .lk _ => s
    | .gen k => if s.isOpen (64 + k.val) then (s.sticky (F.SWA_Gk_ST_OPEN k)).raiseDev 0x42 1 else s

/-! ## Supply conditions (R265, R266) -/

/-- Every channel that is on, in pull-in or in a move is interrupted and off. -/
def State.interruptAll (s : State) : State :=
  s.each (s.swa.chans.map (·.1)) fun s c =>
    if s.chanOn c then (s.modChan c fun k => { k with interrupted := true }).chanStop c else s

/-- A lock's position is unknown after a supply condition (R259). -/
def State.locksUnknown (s : State) : State :=
  s.each lanesAll fun s n => if s.rd (F.SWA_Ln_LKST_POS n) = 0 then s else s.wr (F.SWA_Ln_LKST_POS n) 0

/-- A condition begins: its flag, all channels off, the aux-supply source. -/
def State.supplyBegin (s : State) (flag now : Fld) : State :=
  (((s.sticky flag).wrB now true).interruptAll.locksUnknown).raiseDev 0x47 1

/-- FIELD_GROUND_LOSS (R265): both links report it, so the device-class source is raised as well. -/
def execFieldGroundLoss (s : State) : Host.Outcome State Fault Refusal :=
  .next ((((s.sticky F.SWA_SUPPLY_GND).wrB F.SWA_SUPPLY_GNDNOW true).interruptAll.locksUnknown).raiseDev 0x48 3)

/-- REVERSE_AUX (R265): the high-side switches are fully enhanced, whatever their commanded state, if VDD_FLD is there (R430). -/
def execReverseAux (s : State) : Host.Outcome State Fault Refusal :=
  .next ((s.supplyBegin F.SWA_SUPPLY_REV F.SWA_SUPPLY_REVNOW).modSwa fun w => { w with reverse := s.boot.vddField })

/-- AUX_SURGE (R265). -/
def execAuxSurge (s : State) : Host.Outcome State Fault Refusal := .next (s.supplyBegin F.SWA_SUPPLY_OV F.SWA_SUPPLY_OVNOW)

/-- AUX_UNDER_VOLTAGE (R265). -/
def execAuxUnderVoltage (s : State) : Host.Outcome State Fault Refusal := .next (s.supplyBegin F.SWA_SUPPLY_UV F.SWA_SUPPLY_UVNOW)

/-- Every interrupted channel raises a new request with this edge as its arrival (R266). An interrupted lock move starts
again from the beginning. -/
def State.resumeAll (s : State) : State :=
  s.each (s.swa.chans.map (·.1)) fun s c =>
    if (s.chan c).interrupted then
      (s.modChan c fun k => { k with interrupted := false, attempt := k.attempt - 1 }).requestAt c s.clk.frame
    else s

/-- SUPPLY_RESUME (R266): condition `c` ends (0 ground, 1 reverse, 2 surge, 3 under-voltage). The channels resume once no
condition is left and the field die is not over-hot, since requests are refused until then (R269). -/
def execSupplyResume (c : Fin 4) (s : State) : Host.Outcome State Fault Refusal :=
  .next <|
    let s := match c with
      | 0 => (s.wrB F.SWA_SUPPLY_GNDNOW false).causeOff 0x48 none
      | 1 => (s.wrB F.SWA_SUPPLY_REVNOW false).modSwa fun w => { w with reverse := false }
      | 2 => s.wrB F.SWA_SUPPLY_OVNOW false
      | 3 => s.wrB F.SWA_SUPPLY_UVNOW false
    let s := if s.on F.SWA_SUPPLY_REVNOW || s.on F.SWA_SUPPLY_OVNOW || s.on F.SWA_SUPPLY_UVNOW then s else s.causeOff 0x47 none
    if s.supplyBad || s.swa.overTemp then s else s.resumeAll

/-! ## Clamp energy (R267) -/

/-- Show a bucket, in mJ. -/
def State.showBucket (s : State) (c : Nat) : State :=
  let mj := (s.chan c).bucket / 1000000
  if c < 32 then s.wrSat (F.SWA_Ln_CLMP_CC c) mj
  else if c < 64 then s.wrSat (F.SWA_Ln_CLMP_LK (c - 32)) mj else s.wrSat (F.SWA_Gk_BKT_B (c - 64)) mj

/-- The clamp-lockout source and status of a channel. -/
def State.clampRaise (s : State) (c : Nat) : State :=
  if c < 32 then (s.sticky (F.SWA_Ln_STAT_CCCLAMP c)).raiseLane 0x46 1 c
  else if c < 64 then (s.sticky (F.SWA_Ln_STAT_LKCLAMP (c - 32))).raiseLane 0x46 1 (c - 32)
  else (s.sticky (F.SWA_Gk_ST_CLAMP (c - 64))).raiseDev 0x46 1

/-- CLAMP_EVENT (R267): the event's energy joins the bucket; a bucket at CAP or above locks the channel. -/
def execClampEvent (ch : ChanId) (mj : BitVec 16) (s : State) : Host.Outcome State Fault Refusal :=
  let c := chanIndex ch
  let e := 1000000 * mj.toNat
  let s := s.modChan c fun k => { k with bucket := k.bucket + e }
  let s := s.modSwa fun w => { w with clampEvents := ⟨s.clk.frame, e⟩ :: w.clampEvents.filter fun x => s.clk.frame < x.frame + 100 }
  let s := s.showBucket c
  .next <| if 1000000 * s.rd F.SWA_CLAMPCFG_CAP ≤ (s.chan c).bucket && !(s.chan c).locked then
      let k := s.chan c
      let s := s.modChan c fun k => { k with locked := true, clampHeld := k.queued.isSome, queued := none }
      (if s.chanOn c || k.latched then s else s.showRest c).clampRaise c
    else s

/-- One channel's drain, in nJ per ms. -/
def State.drainStep (s : State) : Nat := 1000 * s.rd F.SWA_CLAMPCFG_CAP / max 1 (s.rd F.SWA_CLAMPCFG_LEAKT)

/-- The cause of 0x46 ends with the last clamp-locked channel of its scope: of the lane, or of the general channels. -/
def State.clampCauseEnd (s : State) (c : Nat) : State :=
  if c < 64 then
    let n := c % 32
    if (s.chan n).locked || (s.chan (32 + n)).locked then s else s.causeOff 0x46 (some (s.groupSet n))
  else if (List.range 32).any fun k => (s.chan (64 + k)).locked then s
  else s.causeOffDev 0x46

/-- Drain one bucket; at 0 the lockout ends, and a request held outside the queue enters it at the next edge. -/
def State.drain (s : State) (c : Nat) : State :=
  let s := (s.modChan c fun k => { k with bucket := k.bucket - s.drainStep }).showBucket c
  if (s.chan c).locked && (s.chan c).bucket = 0 then
    let held := (s.chan c).clampHeld
    let s := s.modChan c fun k => { k with locked := false, clampHeld := false }
    let s := if s.chanOn c then s else s.showRest c
    let s := s.clampCauseEnd c
    if held then s.request c else s
  else s

/-- CLAMP_BUCKET_DRAIN (R267): every 1 ms. -/
def execClampBucketDrain (s : State) : Host.Outcome State Fault Refusal :=
  .next (s.each ((s.swa.chans.filter fun kc => kc.2.bucket ≠ 0).map (·.1)) State.drain)

/-! ## Dissipation and shedding (R268, R269) -/

/-- Heat of one channel in fW: its current squared, times its resistance, and its own share. -/
def State.chanHeat (s : State) (c : Nat) : Nat :=
  if c < 32 then (if s.coilOn c then 100000000 * lk (fun _ => 0) s.pins.ccI c ^ 2 + 25 * mW else 0)
  else if c < 64 then (if (s.chan c).moving then 400000000 * lk (fun _ => 0) s.pins.lkI (c - 32) ^ 2 else 0)
  else if s.chanOn c then 150 * lk (fun _ => 0) s.pins.genI (c - 64) ^ 2 + 10 * mW else 0

/-- Clamp energy (nJ) of the last 100 ms over 0.1 s, in fW. -/
def State.clampHeat (s : State) : Nat :=
  s.swa.clampEvents.foldl (fun a e => if s.clk.frame < e.frame + 100 then a + 10000000 * e.energy else a) 0

/-- d_steady of R268 in fW. -/
def State.dissipation (s : State) : Nat :=
  s.swa.chans.foldl (fun a kc => a + s.chanHeat kc.1) (10 * mW * s.rd F.SWA_PBASE_P + s.clampHeat)

/-- Channels shed now. -/
def State.showShed (s : State) : State :=
  s.wrSat F.SWA_THERM_SHEDN (s.swa.chans.filter fun kc => kc.2.shed).length

/-- DISSIPATION_UPDATE (R268): d_steady and the die temperature shown; two frames above 8.00 W counted; a shed channel asks
again once d_steady is below ALC_HEATB less 0.50 W; above 135 °C in two frames the over-temperature source is raised. -/
def State.dissipate (s : State) : State :=
  let d := s.dissipation
  let s := ((s.modSwa fun w => { w with steady := d }).wrSat F.SWA_DISS_D (d / (10 * mW))).wrS F.SWA_DISS_TJ s.pins.fieldT
  let overs := decide (8000 * mW < d)
  let hot := decide (2160 < s.pins.fieldT)
  let s := s.modSwa fun w => { w with
    overDiss := if overs then w.overDiss + 1 else 0, hotFrames := if hot then w.hotFrames + 1 else 0 }
  let s := if s.swa.hotFrames = 2 then s.raiseDev 0x49 3 else s
  let s := if hot then s else s.causeOff 0x49 none
  if d + 500 * mW < 10 * mW * s.rd F.ALC_HEATB_BUDGET then
    (s.each ((s.swa.chans.filter fun kc => kc.2.shed).map (·.1)) fun s c =>
      ((s.modChan c fun k => { k with shed := false }).showRest c).request c).showShed
  else s

/-- Excess dissipation in two frames, or a die above THOT; it lasts until both limits of R269 are met. -/
def State.mustShed (s : State) : Bool :=
  let thot : Int := 16 * s.rd F.SWA_THERM_THOT
  2 ≤ s.swa.overDiss || thot < s.pins.fieldT ||
    (s.swa.shedding && (10 * mW * s.rd F.ALC_HEATB_BUDGET < s.dSteady || thot - 80 < s.pins.fieldT))

/-- THERMAL_SHED (R269): the highest-numbered general channel that is on and has SHED set goes off. -/
def execThermalShed (s : State) : Host.Outcome State Fault Refusal :=
  .next <|
    if s.mustShed then
      let s := s.modSwa fun w => { w with shedding := true }
      match ((List.range 32).reverse.filter fun k => s.on (F.SWA_Gk_CFG_SHED k) && s.chanOn (64 + k)).head? with
      | some k => ((s.modChan (64 + k) fun x => { x with shed := true }).chanStop (64 + k)).showShed
      | none => s
    else s.modSwa fun w => { w with shedding := false }

/-- OVER_TEMP_OFF (R269): all channels off at once, every request refused. -/
def execOverTempOff (s : State) : Host.Outcome State Fault Refusal :=
  .next (s.interruptAll.modSwa fun w => { w with overTemp := true })

/-- OVER_TEMP_RESUME (R269): at 5 °C below THOT the refusal is lifted, and interrupted channels request again; where a supply condition
still lasts they do so at its resume. -/
def execOverTempResume (s : State) : Host.Outcome State Fault Refusal :=
  .next <| if s.swa.overTemp && s.pins.fieldT ≤ 16 * s.rd F.SWA_THERM_THOT - 80 then
      let s := s.modSwa fun w => { w with overTemp := false }
      if s.supplyBad then s else s.resumeAll
    else s

/-! ## Frame checks -/

/-- Largest phase Irms of lane `n`'s outlet, in 0.1 mA. -/
def State.maxIrms (s : State) (n : Nat) : Nat :=
  (s.groupOf n).foldl (fun a k => max a (s.rd (F.MET_Ln_VINST_VALUE k 3))) 0

/-- CURRENT_PLAUSIBILITY (R256): current through a contactor whose coil has been off for at least 20 ms, in two frames. -/
def State.plausibility (s : State) : State :=
  s.each s.outlets fun s n =>
    let bad := !s.coilOn n && (s.chan n).offSince + 20 ≤ s.clk.frame && 1000 * s.rd F.SWA_CFG_IPLAUS < s.maxIrms n
    let cnt := if bad then (s.chan n).plausCnt + 1 else 0
    let s := if cnt = (s.chan n).plausCnt then s else s.modChan n fun k => { k with plausCnt := cnt }
    if cnt = 2 then (s.sticky (F.SWA_Ln_STAT_PLAUS n)).raiseLane 0x40 2 n
    else if !bad && s.causeFor 0x40 n then s.causeOff 0x40 (some (s.groupSet n)) else s

/-- The currents and supply shown from the latched inputs. -/
def State.showCurrents (s : State) : State :=
  let s := s.wrS F.SWA_SUPPLY_VAUX (s.pins.vinAux / 10)
  let s := s.each lanesAll fun s n =>
    let v := satNat 4095 (lk (fun _ => 0) s.pins.ccI n)
    if s.rd (F.SWA_Ln_CCST_I n) = v then s else s.wr (F.SWA_Ln_CCST_I n) v
  let s := s.each (List.range 32) fun s k =>
    let v := satNat 4095 (lk (fun _ => 0) s.pins.genI k / (if s.on (F.SWA_Gk_CFG_RANGE k) then 10 else 1000))
    if s.rd (F.SWA_Gk_ST_I k) = v then s else s.wr (F.SWA_Gk_ST_I k) v
  s.each ((s.swa.chans.filter fun kc => kc.2.moving).map (·.1)) fun s c =>
    s.modChan c fun k => { k with peak := max k.peak (lk (fun _ => 0) s.pins.lkI (c - 32)) }

/-- Open-load causes end when the current returns or the channel goes off (R304); a latch source's cause lasts only the
frame that raised it (R264). -/
def State.chanCauses (s : State) : State :=
  let s := ((s.causeOff 0x43 none).causeOff 0x44 none).causeOff 0x45 none
  let s := s.countOpen
  let s := s.each (s.outlets.filter fun n => s.causeFor 0x41 n && !s.openNow n) fun s n => s.causeOff 0x41 (some (s.groupSet n))
  if (s.flt.causes.any fun c => c.src = 0x42) && !((List.range 32).any fun k => s.openNow (64 + k)) then s.causeOff 0x42 none else s

/-- A pull-in admitted at this edge whose enable is withdrawn in the same frame does not start: its booking is released at the next
edge, and the request is back in the queue with its arrival edge (R255). -/
def State.notStarted (s : State) (n : Nat) : State :=
  let at_ := (s.chan n).arrival
  ((s.modChan n fun k => { k with onSince := none, openCnt := 0, queued := some at_, bookEnd := s.clk.frame + 1 }).setChanState n 0).showRest n

/-- CONSENT_REFRESH (R275): the field die takes each channel's consents and SO drives as refreshed at this edge; a coil with
an enable missing is de-energised, a move toward unlocked without consent stops, and the actions of a safe state just
entered are carried out (R258, R284). A channel that commands the safe state alone opens all contactors and holds all locks (R19). -/
def State.consentRefresh (s : State) : State :=
  let safe (d : Option Decision) : Bool := match d with | some x => x.safe | none => false
  let block := safe s.saf.drvA || safe s.saf.drvB
  let a := if s.saf.refreshA && !block then s.rdSet (F.SAF_ACON_LANE 0) else 0
  let b := if s.saf.refreshB && !block then s.rdSet (F.SAF_ACON_LANE 1) else 0
  let u := if s.saf.refreshA && s.saf.refreshB && !block then s.rdSet (F.SAF_ACON_LANE 2) else 0
  let s := s.modSaf fun x => { x with ulk := u }
  let s := s.each s.outlets fun s n =>
    let s := ((s.wrB (F.SWA_Ln_CCST_ACON n) (inSet a n)).wrB (F.SWA_Ln_CCST_BCON n) (inSet b n)).wrB (F.SWA_Ln_CCST_SRQ n) (s.pilLane n).closeReq
    let s := if s.coilOn n && !s.enables n then
        (if (s.chan n).booked = some s.clk.frame then s.notStarted n else s.chanOff n) else s
    if (s.chan (32 + n)).moving && !(s.chan (32 + n)).dir && !inSet u n then s.lockCut n else s
  let s := s.applyForces.soShow.safeActions
  s.modSaf fun x => { x with refreshA := s.boot.vddField, refreshB := s.boot.vddField }

end Sys2Proof.Machine
end

