-- ==== Sys2Proof/Machine/Supervisor.lean ====
section
/-!
DEFINITION. The safety supervisor (spec/13): the channel frame, consents, the safe state and its resets, mirror contacts and
welds, the SO pairs, the guard inputs and the guard walk, the black-channel safety layer.
-/

namespace Sys2Proof.Machine

open Sys2Proof

/-! ## Records -/

def State.guard (s : State) (k : Nat) : GuardState := lk (fun _ => {}) s.saf.guards k

def State.modGuard (s : State) (k : Nat) (f : GuardState → GuardState) : State :=
  s.modSaf fun x => { x with guards := put (fun _ => {}) x.guards k (f (s.guard k)) }

def State.conn (s : State) (k : Nat) : ConnState := lk (fun _ => {}) s.saf.conns k

def State.modConn (s : State) (k : Nat) (f : ConnState → ConnState) : State :=
  s.modSaf fun x => { x with conns := put (fun _ => {}) x.conns k (f (s.conn k)) }

/-- Role of guard pair `k`; 6 and 7 act as 0 (R292). -/
def State.role (s : State) (k : Nat) : Nat :=
  let r := bits (s.rd F.SAF_GDCFG_ROLE) (3 * k + 2) (3 * k)
  if 6 ≤ r then 0 else r

/-- The eight guard pairs, and those of role `r`. -/
def pairsAll : List Nat := List.range 8

def State.pairsOf (s : State) (r : Nat) : List Nat := pairsAll.filter fun k => s.role k = r

/-- Guard halves as latched, and their harmonised value: closed only if both show closed (R277). -/
def State.halfA (s : State) (k : Nat) : Bool := s.pins.gdA.getLsbD k

def State.halfB (s : State) (k : Nat) : Bool := s.pins.gdB.getLsbD k

def State.pairClosed (s : State) (k : Nat) : Bool := s.halfA k && s.halfB k

/-- Is every pair of role `r` closed? -/
def State.roleClosed (s : State) (r : Nat) : Bool := (s.pairsOf r).all s.pairClosed

/-! ## Safe-state causes and resets (R283 to R285, R298) -/

/-- SAFE_REQUEST (R283): cause SERVICE. -/
def execSafeRequest (s : State) : Host.Outcome State Fault Refusal := .next (s.safeEnter F.SAF_STAT_SERVICE)

/-- ESTOP and GUARD are newly entered only from the entry to stage 0x8 (R283). -/
def State.guardCauses (s : State) : State :=
  if s.rd F.SYS_STAGE_STAGE = 8 then
    (s.when (!s.roleClosed 2) fun s => s.safeEnter F.SAF_STAT_ESTOP).when (!s.roleClosed 1) fun s => s.safeEnter F.SAF_STAT_GUARD
  else s

/-- Has a connection that failed been good for 1 s (R283)? -/
def State.connGood (s : State) (k : Nat) : Bool :=
  s.rd (F.SAF_CONNk_ST_STATE k) = 2 && (s.conn k).goodSince + 1000 ≤ s.clk.frame

/-- The end condition of cause LINK. -/
def State.linkGone (s : State) : Bool :=
  (List.range 16).all fun k =>
    !s.on (F.SAF_CONNk_CFG_EN k) || !s.on (F.SAF_CONNk_CFG_LOSS k) || !(s.conn k).failed || s.connGood k

/-- Does an accepted peer state show e-stop with HOPS up to 5 (R297)? -/
def State.peerShows (s : State) (k : Nat) : Bool :=
  s.on (F.SAF_CONNk_CFG_EN k) && s.rd (F.SAF_CONNk_ST_STATE k) = 2 && (s.conn k).estop && (s.conn k).hops ≤ 5

/-- The end condition of cause PEER. -/
def State.peerGone (s : State) : Bool := (List.range 16).all fun k => !s.peerShows k

/-- End condition of a cause but for the reset or start it needs (R283, R285). -/
def causeGone (s : State) (f : Fld) : Bool :=
  if f = F.SAF_STAT_ESTOP then s.roleClosed 2
  else if f = F.SAF_STAT_GUARD then s.roleClosed 1
  else if f = F.SAF_STAT_PEER then s.peerGone
  else if f = F.SAF_STAT_LINK then s.linkGone
  else f = F.SAF_STAT_SERVICE

/-- The causes a reset can end. -/
def resetCauses : List Fld := [F.SAF_STAT_ESTOP, F.SAF_STAT_GUARD, F.SAF_STAT_PEER, F.SAF_STAT_LINK, F.SAF_STAT_SERVICE]

/-- Is a lane mapped to SO pair `k` retired by a weld (R290)? -/
def State.weldOn (s : State) (k : Nat) : Bool :=
  lanesAll.any fun n => s.rdBit (F.SAF_ACON_LANE 5) n && s.pairOf n = k

/-- Energise SO pair `k` unless the safe state or a weld still holds it off (R290). -/
def State.soOn (s : State) (k : Nat) : State :=
  if s.saf.soSafe || s.weldOn k || lk (fun _ => 0) s.saf.soOffAt k ≠ 0 then s
  else (s.modSaf fun x => { x with soWeld := BitVec.ofNat 2 (setBits x.soWeld.toNat k k 0) }).soDrive k true

/-- A reset whose pair closed in frame `f` (R285, R298): it ends every cause entered before that frame whose end condition
is met, and energises the SO pairs whose cause has ended. -/
def State.safetyReset (s : State) (f : Nat) : State :=
  let old (c : Fld) : Bool := s.on c && lk (fun _ => 0) s.saf.causeAt c.lo ≤ f
  let go := resetCauses.filter fun c => old c && causeGone s c
  let stay := s.on F.SAF_STAT_SAFE && resetCauses.any fun c => old c && !causeGone s c
  let s := go.foldl State.safeLeave s
  let s := s.when (!go.isEmpty) fun s => s.sticky F.SAF_EVT_RESET
  let s := s.when stay fun s => s.sticky F.SAF_EVT_RESETIGN
  let s := s.when (!s.on F.SAF_STAT_SAFE) fun s => s.modSaf fun x => { x with soSafe := false }
  if s.rd F.SYS_STAGE_STAGE = 8 then (s.soOn 0).soOn 1 else s

/-! ## Guard inputs and the guard walk (R292, R293) -/

/-- Guard pair `k` takes new levels: its times, the reset pulse of R285, and the walk. -/
def State.guardStep (s : State) (k : Nat) : State :=
  let g := s.guard k
  let now := s.clk.frame
  let closed := s.pairClosed k
  let differ := xor (s.halfA k) (s.halfB k)
  let walking := s.rd F.SYS_STAGE_STAGE = 7 && !s.on F.SAF_STAT_WALKDONE
  let openFor := if closed && !g.closed then now - g.since else g.openFor
  let reset := closed && !g.closed && s.role k = 5 && 100 ≤ openFor && openFor ≤ 2000
  let both := if differ then now + 1 else if g.disc.isSome || closed ≠ g.closed then now else g.both
  let disc := if differ then (match g.disc with | some t => some t | none => some now) else none
  let s := s.modGuard k fun g => { g with
    closed := closed, since := if closed = g.closed then g.since else now, openFor := openFor, both := both, disc := disc,
    discHit := g.discHit && differ,
    walkOpen := walking && !g.discHit &&
      ((g.walkOpen && (closed || differ)) || ((closed || differ) && g.disc.isNone && !g.closed && g.both + 100 ≤ now)) }
  let s := ((s.wrBit F.SAF_GUARD_A k (s.halfA k)).wrBit F.SAF_GUARD_B k (s.halfB k)).wrBit F.SAF_GUARD_DISC k differ
  let s := s.when reset fun s => s.modSaf fun x => { x with resetDue := some now }
  s.when (!differ && g.discHit && !(pairsAll.any fun j => (s.guard j).discHit)) fun s => s.causeOff 0x67 (some (BitVec.allOnes 32))

/-- Latch both halves of a pair. -/
def State.guardSet (s : State) (k : Nat) (a b : Bool) : State :=
  let put1 (m : BitVec 8) (v : Bool) : BitVec 8 := BitVec.ofNat 8 (setBits m.toNat k k (b2n v))
  (s.modPins fun p => { p with gdA := put1 p.gdA a, gdB := put1 p.gdB b }).guardStep k

/-- GUARD_INPUT_CHANGE (R283, R285, R293). -/
def execGuardInputChange (k : Fin 8) (a b : Bool) (s : State) : Host.Outcome State Fault Refusal :=
  .next (s.guardSet k a b).guardCauses

/-- GUARD_DISCREPANCY (R292): the halves of a pair in use disagree for more than GDISC ms. The pair's walk starts again. -/
def execGuardDiscrepancy (k : Fin 8) (s : State) : Host.Outcome State Fault Refusal :=
  .next <| match (s.guard k).disc with
    | some t => if s.role k ≠ 0 && t + s.rd F.SAF_CFG_GDISC < s.clk.frame && !(s.guard k).discHit then
        ((s.modGuard k fun g => { g with discHit := true, walkOpen := false }).sticky F.SAF_EVT_GDISC).raise 0x67 2 (some (BitVec.allOnes 32))
      else s
    | none => s

/-- Has pair `k` been open and then closed for at least 100 ms each, both halves agreeing (R293)? -/
def State.walkReady (s : State) (k : Nat) : Bool :=
  let g := s.guard k
  g.walkOpen && g.closed && g.disc.isNone && g.both + 100 ≤ s.clk.frame

/-- The pairs the guard walk covers. -/
def State.walkPairs (s : State) : List Nat := pairsAll.filter fun k => s.role k = 1 || s.role k = 2 || s.role k = 5

/-- Pair `k` completes its walk, if it has; stage 0x7 is over when the last one does (R293). -/
def State.walkPairDone (s : State) (k : Nat) : State :=
  if s.rd F.SYS_STAGE_STAGE = 7 && s.walkPairs.contains k && s.walkReady k then
    let s := s.wrBit F.SAF_GUARD_WALKED k true
    if s.walkPairs.all fun j => s.rdBit F.SAF_GUARD_WALKED j then s.wrB F.SAF_STAT_WALKDONE true else s
  else s

/-! ## Mirror contacts and welds (R286 to R289) -/

/-- How long, in frames, the mirrors of lane `n` have disagreed. -/
def State.mdiscFor (s : State) (n : Nat) : Nat :=
  let t := lk (fun _ => 0) s.saf.mdisc n
  if t = 0 then 0 else s.clk.frame + 1 - t

/-- MIRROR_DISCREPANCY (R286): CFA and CFB disagree for more than MDISC ms. -/
def execMirrorDiscrepancy (n : Lane) (s : State) : Host.Outcome State Fault Refusal :=
  .next <| if s.rd F.SAF_CFG_MDISC < s.mdiscFor n && !s.causeFor 0x63 n then
      (s.sticky F.SAF_EVT_MDISC).raiseLane 0x63 2 n
    else s

/-- The mirrors at an edge: CFA and CFB shown, their discrepancy timed and ended, and the end of a weld's cause. -/
def State.mirrorStep (s : State) : State :=
  let s := (s.wrSet (F.SAF_ACON_LANE 3) s.pins.mirA).wrSet (F.SAF_ACON_LANE 4) s.pins.mirB
  s.each s.outlets fun s n =>
    let differ := xor (inSet s.pins.mirA n) (inSet s.pins.mirB n)
    let t := lk (fun _ => 0) s.saf.mdisc n
    let s := if differ && t = 0 then s.modSaf fun x => { x with mdisc := put (fun _ => 0) x.mdisc n (s.clk.frame + 1) }
      else if !differ && t ≠ 0 then s.modSaf fun x => { x with mdisc := put (fun _ => 0) x.mdisc n 0 } else s
    let s := s.when (!differ && s.causeFor 0x63 n) fun s => s.causeOff 0x63 (some (s.groupSet n))
    s.when (!s.mirAny n && s.causeFor 0x65 n) fun s => s.causeOff 0x65 (some (s.groupSet n))

/-- CONTACTOR_DROPOUT (R287): after the harmonised mirror has shown closed under the consent in force, it shows open for two
frames while both consents and the service request are held. -/
def State.dropout (s : State) : State :=
  s.each s.outlets fun s n =>
    let k := s.chan n
    if s.enables n then
      let seen := k.seenClosed || s.mirAny n
      let cnt := if seen && !s.mirAny n then k.openFrames + 1 else 0
      let s := if seen = k.seenClosed && cnt = k.openFrames then s
        else s.modChan n fun k => { k with seenClosed := seen, openFrames := cnt }
      if cnt = 2 then
        ((s.sticky F.SAF_EVT_MDISC).raiseLane 0x64 2 n).withdrawClose (laneBit n)
      else s
    else
      let s := if k.seenClosed || k.openFrames ≠ 0 then s.modChan n fun k => { k with seenClosed := false, openFrames := 0 } else s
      s.when (s.causeFor 0x64 n) fun s => s.causeOff 0x64 (some (s.groupSet n))

/-- Is a weld decided on lane `n` (R288, R298)? A channel that has stopped does not decide; the other then needs R256. -/
def State.weldSeen (s : State) (n : Nat) : Bool :=
  let a := s.saf.refreshA && inSet s.pins.mirA n
  let b := s.saf.refreshB && inSet s.pins.mirB n
  (a && b) || ((a || b) && s.rdBit (F.FLT_SRCi_LSTK_LANE 0x40) n)

/-- The lanes of the converter groups mapped to SO pair `k`. -/
def State.groupLanes (s : State) (k : Nat) : LaneSet :=
  (s.outlets.filter fun n => s.laneType n = .dc && s.pairOf n = k).foldl (fun m n => m ||| laneBit n) 0

/-- WELD_TEST (R288): at the first edge 50 ms after coil off. A weld acts at the next edge; the consents of the other lanes
are withdrawn with this frame's decision (R289). -/
def execWeldTest (n : Lane) (s : State) : Host.Outcome State Fault Refusal :=
  .next <|
    let k := s.chan n
    if !s.coilOn n && !k.weldTested && k.offSince + 50 ≤ s.clk.frame then
      let s := s.modChan n fun k => { k with weldTested := true }
      if s.weldSeen n then
        let others := s.groupLanes (s.pairOf n) &&& ~~~(laneBit n) &&& (s.rdSet (F.SAF_ACON_LANE 0) ||| s.rdSet (F.SAF_ACON_LANE 1))
        let s := (s.withdrawClose (others ||| laneBit n)).decideExit n 0x16
        let s := s.each (lanesAll.filter fun j => inSet others j) fun s j => s.decideExit j 0x11
        s.modSaf fun x => { x with weldDue := n.val :: x.weldDue }
      else s
    else s

/-- SAFEZERO addressed to each module of the converter groups mapped to SO pair `k` (R289, R351). -/
def State.zeroGroups (s : State) (k : Nat) : State :=
  let ms := s.boot.mods.filter fun m => m.2.addr ≠ 0 && b2n (s.rdBit F.SAF_GRPMAP_GRP m.2.group) = k
  s.modSaf fun x => { x with safeZero := ms.foldl (fun l m => mailIn (m.2.port, m.2.addr) l) x.safeZero }

/-- R289 at the edge W + 1 ms: the source, the retirement, the modules, and the time the SO pair is to go off. -/
def State.weldReact (s : State) (n : Nat) : State :=
  let k := s.pairOf n
  let s := (s.sticky F.SAF_EVT_WELD).raiseLane 0x65 4 n
  let s := (s.retire (laneBit n)).wrSet (F.SAF_ACON_LANE 5) (s.rdSet (F.SAF_ACON_LANE 5) ||| s.groupSet n)
  s.zeroGroups k |>.modSaf fun x => { x with
    soWeld := BitVec.ofNat 2 (setBits x.soWeld.toNat k k 1),
    soOffAt := if lk (fun _ => 0) x.soOffAt k = 0 then put (fun _ => 0) x.soOffAt k (s.clk.frame + s.rd F.SAF_CFG_SODLY + 1) else x.soOffAt }

/-- SO_WELD_DELAY_END (R289): SODLY after the edge W + 1 ms, SO pair `k` is de-energised. -/
def execSoWeldDelayEnd (k : Fin 2) (s : State) : Host.Outcome State Fault Refusal :=
  let t := lk (fun _ => 0) s.saf.soOffAt k
  .next <| if t ≠ 0 && t ≤ s.clk.frame + 1 then
      (s.modSaf fun x => { x with soOffAt := put (fun _ => 0) x.soOffAt k 0 }).soDrive k false
    else s

/-! ## SO feedback and the current cross-check (R279, R291) -/

/-- Does the feedback of SO pair `k`, if configured, agree: contacts closed while the isolation is open? -/
def State.soAgrees (s : State) (k : Nat) : Bool :=
  (s.pairsOf (3 + k)).all fun j => s.pairClosed j ≠ s.rdBit F.SAF_STAT_SO k

/-- SO_FEEDBACK_TIMEOUT (R291): the feedback has not followed SOFB ms after the change, nor at the edge after that. -/
def execSoFeedbackTimeout (k : Fin 2) (s : State) : Host.Outcome State Fault Refusal :=
  let t := lk (fun _ => 0) s.saf.soChange k
  .next <| if t ≠ 0 && t + s.rd F.SAF_CFG_SOFB ≤ s.clk.frame && !s.soAgrees k && !s.saf.soFail.getLsbD k then
      ((s.modSaf fun x => { x with soFail := BitVec.ofNat 2 (setBits x.soFail.toNat k k 1) }).sticky F.SAF_EVT_SOFB).raiseDev 0x66 3
    else s

/-- The feedback agrees again. -/
def State.soFollow (s : State) : State :=
  let s := s.each [0, 1] fun s k =>
    if s.saf.soFail.getLsbD k && s.soAgrees k then s.modSaf fun x => { x with soFail := BitVec.ofNat 2 (setBits x.soFail.toNat k k 0) } else s
  s.when (s.saf.soFail = 0 && s.causeIs 0x66) fun s => s.causeOff 0x66 none

/-- The DC lanes of converter group `g` whose contactor shows closed. -/
def State.closedLanes (s : State) (g : Nat) : LaneSet :=
  (s.outlets.filter fun n => s.laneType n = .dc && s.rd (F.EFM_Ln_CFG_GRP n) = g && s.mirAny n).foldl (fun m n => m ||| laneBit n) 0

/-- CURRENT_CROSSCHECK (R279): ten consecutive frames of comparison differed. -/
def execCurrentCrosscheck (g : Fin 16) (s : State) : Host.Outcome State Fault Refusal :=
  .next <| if 10 ≤ lk (fun _ => 0) s.saf.xcheck g && lanesAll.any fun n => inSet (s.closedLanes g) n && !s.causeFor 0x62 n then s.raise 0x62 2 (some (s.closedLanes g)) else s

/-! ## The values received from the core die (R16, R274, R277) -/

/-- What is sent of lane `n`. -/
def State.sentCopy (s : State) (n : Nat) : LaneCopy :=
  let i := BitVec.ofNat 32 (s.rd (F.MET_Ln_VINST_VALUE n 1))
  let v := BitVec.ofNat 32 (s.rd (F.MET_Ln_VINST_VALUE n 0))
  let d := BitVec.ofNat 8 (s.rd (F.EFM_Ln_VERD_VERDICT n))
  ⟨i, ~~~i, v, ~~~v, d, ~~~d⟩

/-- What both channels received of lane `n` in this frame. -/
def State.laneCopies (s : State) (n : Nat) : List LaneCopy :=
  [s.pins.copyA, s.pins.copyB].map fun l => ((l.find? fun x => x.1 = n).map (·.2)).getD (s.sentCopy n)

/-- The harmonised analog value: the one of larger magnitude of those whose complement matches; with none, the last one in use. -/
def harmonise (xs : List (Word × Word)) (last : Int) : Int :=
  match (xs.filter fun x => x.2 = ~~~x.1).map fun x => x.1.toInt with
  | [] => last
  | v :: vs => vs.foldl (fun a b => if a.natAbs < b.natAbs then b else a) v

/-- The verdict in force for both channels: the one they agree on, of the copies whose complement matches; else none (0). -/
def harmoniseVerdict (xs : List (Byte × Byte)) : Nat :=
  match (xs.filter fun x => x.2 = ~~~x.1).map (·.1) with
  | [] => 0
  | v :: vs => if vs.all (· = v) then v.toNat else 0

def State.view (s : State) (n : Nat) : LaneView := lk (fun _ => {}) s.saf.views n

/-- Do all complements of a copy match? -/
def LaneCopy.good (c : LaneCopy) : Bool := c.curN = ~~~c.cur && c.voltN = ~~~c.volt && c.verdN = ~~~c.verd

/-- The values of lane `n` as the channels harmonise them in this frame; a complement that does not match raises 0x05. -/
def State.viewStep (s : State) (n : Nat) : State :=
  let cs := s.laneCopies n
  let w := s.view n
  let v : LaneView := ⟨harmonise (cs.map fun c => (c.cur, c.curN)) w.cur, harmonise (cs.map fun c => (c.volt, c.voltN)) w.volt,
    harmoniseVerdict (cs.map fun c => (c.verd, c.verdN))⟩
  let s := s.modSaf fun x => { x with views := put (fun _ => {}) x.views n v }
  s.when (!cs.all LaneCopy.good) fun s => s.raiseOnce 0x05 1 none

/-- The frame's copies are taken. -/
def State.takeCopies (s : State) : State :=
  (s.each s.usedLanes State.viewStep).modPins fun p => { p with copyA := [], copyB := [] }

/-- Sum of the metered currents of the closed lanes of group `g`, in 0.1 mA. -/
def State.laneSum (s : State) (g : Nat) : Int :=
  (lanesAll.filter fun n => inSet (s.closedLanes g) n).foldl (fun a n => a + (s.view n).cur) 0

/-- The modules of group `g` admitted and not left. -/
def State.groupMods (s : State) (g : Nat) : List (Nat × ModState) :=
  s.boot.mods.filter fun m => m.2.addr ≠ 0 && m.2.admitted && m.2.group = g

/-- The frame's comparison of R279: only while a lane is closed and the newest report is at most 20 ms old. The sums differ
by more than 3 A or 5 % of the larger. -/
def State.crossStep (s : State) : State :=
  s.each (List.range 16) fun s g =>
    let ms := s.groupMods g
    let cnt := lk (fun _ => 0) s.saf.xcheck g
    let put1 (s : State) (v : Nat) : State := if v = cnt then s else s.modSaf fun x => { x with xcheck := put (fun _ => 0) x.xcheck g v }
    let gone (s : State) : State := s.when (s.flt.causes.any fun c => c.src = 0x62) fun s =>
      s.causeOff 0x62 (some ((s.outlets.filter fun n => s.rd (F.EFM_Ln_CFG_GRP n) = g && s.laneType n = .dc).foldl (fun m n => m ||| laneBit n) 0))
    if s.closedLanes g = 0 then gone (put1 s 0)
    else if ms.any fun m => m.2.seen ≠ 0 && s.clk.frame + 1 ≤ m.2.seen + 20 then
      let a := (s.laneSum g).natAbs
      let b := ms.foldl (fun (t : Nat) m => t + 1000 * m.2.i) 0
      let d := (s.laneSum g - Int.ofNat b).natAbs
      if max 30000 (5 * max a b / 100) < d then put1 s (cnt + 1) else gone (put1 s 0)
    else s

/-! ## Consents (R280, R281) -/

/-- Is lane `n`'s pilot in C, or in D with VENT, and without a diode fault (R178, R196)? -/
def State.pilotC (s : State) (n : Nat) : Bool :=
  s.rd (F.PIL_Ln_CPST_STATE n) = 2 || (s.rd (F.PIL_Ln_CPST_STATE n) = 3 && s.on (F.PIL_Ln_CTL_VENT n))

def State.goodVerdict (s : State) (n : Nat) : Bool := s.rd (F.EFM_Ln_VERD_VERDICT n) = 1 || s.rd (F.EFM_Ln_VERD_VERDICT n) = 2

/-- The preconditions of R196 for a close request of lane `n`. -/
def State.closeReady (s : State) (n : Nat) : Bool :=
  s.rd (F.SWA_Ln_LKST_POS n) = 1 && s.pilotC n && !s.on (F.PIL_Ln_CPST_DIODE n) &&
    (s.laneType n ≠ .dc || s.goodVerdict n) && !inSet s.causeSet n

/-- The conditions of R280 in the harmonised view of lane `n`, but for the mirrors at the first grant. -/
def State.mayClose (s : State) (n : Nat) : Bool :=
  !s.on F.SAF_STAT_SAFE && s.on F.SAF_STAT_WALKDONE && s.rd F.SYS_STAGE_STAGE = 8 && !s.retired n && !inSet s.fastSet n &&
    (s.pilLane n).closeReq && s.closeReady n && !s.pilotApart n && ((s.view n).verd = 1 || (s.view n).verd = 2) && s.boot.railsOk && !s.supplyBad &&
    s.rdBit F.SAF_STAT_SO (s.pairOf n) && s.soAgrees (s.pairOf n) &&
    !(s.laneType n = .dc && s.saf.soWeld.getLsbD (s.pairOf n))

/-- R280: close consent of lane `n` as the rules decide it for both channels. Once a condition fails the consent is withdrawn, and granted again
only for a new close request. -/
def State.closeConsent (s : State) (n : Nat) : State :=
  let had := s.rdBit (F.SAF_ACON_LANE 0) n && s.rdBit (F.SAF_ACON_LANE 1) n
  let both (s : State) (v : Bool) : State := if v = s.rdBit (F.SAF_ACON_LANE 0) n && v = s.rdBit (F.SAF_ACON_LANE 1) n then s else (s.wrBit (F.SAF_ACON_LANE 0) n v).wrBit (F.SAF_ACON_LANE 1) n v
  if !(s.pilLane n).closeReq then
    (both s false).modSaf fun x => { x with spent := x.spent &&& ~~~(laneBit n) }
  else if inSet s.saf.spent n then both s false
  else if s.mayClose n && (had || !s.mirAny n) then both s true
  else if had then (both s false).withdrawClose 0 |>.modSaf fun x => { x with spent := x.spent ||| laneBit n }
  else s

/-- Does the session or R444 ask for an unlock of lane `n`? -/
def State.unlockAsked (s : State) (n : Nat) : Bool := !(s.chan (32 + n)).dir && s.lockBusy n

/-- R281, R20, R286: unlock consent of lane `n`: asked for, no safe state, not retired by a weld, both mirrors show open. -/
def State.unlockConsent (s : State) (n : Nat) : State :=
  let v := s.unlockAsked n && !s.on F.SAF_STAT_SAFE && !s.rdBit (F.SAF_ACON_LANE 5) n && !s.mirAny n
  if v = s.rdBit (F.SAF_ACON_LANE 2) n then s else s.wrBit (F.SAF_ACON_LANE 2) n v

/-- Fast withdrawals driven at this edge (R276), counted in SAF_CMP. -/
def State.fastWithdraw (s : State) : State :=
  let hit := s.fastSet &&& (s.rdSet (F.SAF_ACON_LANE 0) ||| s.rdSet (F.SAF_ACON_LANE 1))
  if hit = 0 then s else (s.count F.SAF_CMP_FAST 1).withdrawClose hit

/-! ## The channel frame (R273 to R278) -/

/-- CLOCK_CHECK (R273): the B-channel's oscillator off by more than 5 % in two consecutive frames. -/
def State.clockCheck (s : State) : State :=
  if 50000 < s.pins.bClkPpm.natAbs then
    let s := s.modSaf fun x => { x with clkRun := x.clkRun + 1 }
    if s.saf.clkRun = 2 then s.raiseDev 0x61 4 else s
  else if s.saf.clkRun = 0 then s
  else (s.modSaf fun x => { x with clkRun := 0 }).causeOff 0x61 none

/-- The decision record of R278 by the rules. -/
def State.decision (s : State) : Decision :=
  let f := s.ruleForces
  { close := s.rdSet (F.SAF_ACON_LANE 0), unlock := s.rdSet (F.SAF_ACON_LANE 2), forceF := f.f, forceOff := f.off,
    safe := s.on F.SAF_STAT_SAFE, causes := BitVec.ofNat 6 (s.word A.SAF_STAT).toNat, so := s.saf.soCmd,
    weld := s.rdSet (F.SAF_ACON_LANE 5), state := s.saf.stateOut, hops := s.saf.hopsOut, origin := s.saf.originOut }

/-- What a channel drives, where that is not the rules' decision. -/
def chanOwn : ChanRecord → Option Decision
  | .decided d => some d
  | _ => none

/-- Do the two records of the frame match: both there, bit-equal, and over equal configuration CRCs (R278, R301)? A channel whose work
overran sends none (R55). -/
def State.recordsMatch (s : State) : Bool :=
  let d := s.decision
  let c := BitVec.ofNat 32 (s.rd F.SAF_CFGCRC_CRC)
  let p := s.pins
  !s.clk.frameOverrun && p.recA ≠ .missing && p.recB ≠ .missing && (chanOwn p.recA).getD d = (chanOwn p.recB).getD d && p.crcA.getD c = p.crcB.getD c

/-- Each channel drives its own decisions (R278): consents and forces act at the next edge, the more restrictive of the two. -/
def State.driveRecords (s : State) : State :=
  let d := s.decision
  let a := chanOwn s.pins.recA
  let b := chanOwn s.pins.recB
  let s := if a.isNone && b.isNone then s
    else ((s.wrSet (F.SAF_ACON_LANE 0) (a.getD d).close).wrSet (F.SAF_ACON_LANE 1) (b.getD d).close).wrSet (F.SAF_ACON_LANE 2)
      ((a.getD d).unlock &&& (b.getD d).unlock)
  (s.modSaf fun x => { x with drvA := a, drvB := b }).modPins fun p => { p with recA := .asRuled, recB := .asRuled }

/-- COMPARE_MISMATCH (R278): the decision records differ or one is missing. The first frame raises degrade class, the next one safety
class. -/
def State.compareStep (s : State) : State :=
  let same := s.recordsMatch
  let s := s.driveRecords
  if !same then
    let s := ((s.modSaf fun x => { x with cmpRun := x.cmpRun + 1 }).count F.SAF_CMP_MIS 1).sticky F.SAF_EVT_CMPMIS
    if s.saf.cmpRun = 1 then s.raiseDev 0x60 1 else if s.saf.cmpRun = 2 then s.raiseDev 0x60 4 else s
  else if s.saf.cmpRun = 0 then s
  else (s.modSaf fun x => { x with cmpRun := 0 }).causeOff 0x60 none

/-- SAFETY_CMP_CLEAR (R278): both counts return to 0. -/
def State.cmpClear (s : State) : State := (s.wr F.SAF_CMP_MIS 0).wr F.SAF_CMP_FAST 0

def execSafetyCmpClear (s : State) : Host.Outcome State Fault Refusal := .next s.cmpClear

/-! ## The black-channel safety layer (R294 to R297) -/

/-- SCRC of R294: polynomial 0xF4AC_FB13, not reflected, initial value and final XOR 0xFFFF_FFFF. -/
def safetyCrc (bs : List Byte) : Nat := bs.foldl (crcByteM 32 0xF4ACFB13) 0xFFFFFFFF ^^^ 0xFFFFFFFF

/-- The e-stop this device shows: its own, else the lowest HOPS among the peers (R297). -/
def State.estopShown (s : State) : Bool × Nat × Nat :=
  if s.on F.SAF_STAT_ESTOP then (true, 0, s.rd F.SAF_ID_DEVID)
  else
    ((List.range 16).filter s.peerShows).foldl
      (fun r k => let c := s.conn k; if r.1 && r.2.1 ≤ c.hops + 1 then r else (true, c.hops + 1, c.origin)) (false, 0, 0)

/-- STATE of R294: bit 0 e-stop, bit 1 safe state in force. -/
def State.stateByte (s : State) : Nat := b2n s.estopShown.1 + 2 * b2n (s.on F.SAF_STAT_SAFE)

/-- The safety state sent out, kept as of this edge; a change of STATE is sent at the next edge and repeated in the three
frames after it (R295). -/
def State.stateOut (s : State) : State :=
  let (e, h, o) := s.estopShown
  let changed := s.stateByte ≠ s.saf.stateOut
  let s := s.modSaf fun x => { x with estopOut := e, hopsOut := h, originOut := o, stateOut := s.stateByte }
  if changed then s.each ((List.range 16).filter fun k => s.on (F.SAF_CONNk_CFG_EN k)) fun s k => s.modConn k fun c => { c with repeats := 4 }
  else s

/-- The PDU of R294 connection `k` sends next. -/
def State.safetyPdu (s : State) (k : Nat) : List Byte :=
  let c := s.conn k
  let head : List Byte := [1, if c.repeats = 0 then 1 else 2] ++ leBytes 2 c.txSeq ++ leBytes 4 (s.word (A.SAF_ID)).toNat ++
    leBytes 4 (s.rd (F.SAF_CONNk_PEER_ID k)) ++ leBytes 2 (s.rd (F.SAF_CONNk_CFG_TEXP k)) ++
    leBytes 1 s.saf.stateOut ++ leBytes 1 s.saf.hopsOut ++ leBytes 2 s.saf.originOut ++ leBytes 2 0
  head ++ leBytes 4 (safetyCrc head)

/-- The PDU connection `k` sends now; SEQ rises by one (R295). The A-channel builds it, the B-channel recomputes SCRC. -/
def State.pduNext (s : State) (k : Nat) : State :=
  let pdu := s.safetyPdu k
  s.modConn k fun c => { c with tx := pdu, txSeq := (c.txSeq + 1) % 65536, repeats := c.repeats - 1, txAt := s.clk.frame + 1 }

/-- Is a PDU of connection `k` due (R295)? One in a frame at most: those owed to a change of STATE; and on Ethernet and joining links
one every max(1, TEXP div 4) ms. On the site bus the train builds one at each poll. -/
def State.pduDue (s : State) (k : Nat) : Bool :=
  let c := s.conn k
  c.txAt ≠ s.clk.frame + 1 && (c.repeats ≠ 0 ||
    (s.rd (F.SAF_CONNk_CFG_XPORT k) ≠ 6 && (c.txAt = 0 || c.txAt + max 1 (s.rd (F.SAF_CONNk_CFG_TEXP k) / 4) ≤ s.clk.frame + 1)))

/-- The peers' e-stop enters cause PEER, and its end ends it where no reset is needed (R283, R297). -/
def State.peerUpdate (s : State) : State :=
  if !s.peerGone then s.safeEnter F.SAF_STAT_PEER
  else if s.on F.SAF_STAT_PEER && s.on F.SAF_CFG_AUTORST then s.safeLeave F.SAF_STAT_PEER else s

/-- The black-channel source is present while a connection in use has failed (R296). -/
def State.connCause (s : State) : State :=
  if (List.range 16).any fun k => s.on (F.SAF_CONNk_CFG_EN k) && (s.conn k).failed && s.rd (F.SAF_CONNk_ST_STATE k) ≠ 2 then s
  else if s.causeIs 0x68 then s.causeOff 0x68 none else s

/-- A connection fails (R296). -/
def State.connFail (s : State) (k : Nat) : State :=
  let s := (s.wr (F.SAF_CONNk_ST_STATE k) 3).count (F.SAF_CONNk_CNT_FAIL k) 1
  let s := (s.modConn k fun c => { c with failed := true, estop := false, cand := none, crcFails := [] }).raiseDev 0x68 1
  let s := s.when (s.on (F.SAF_CONNk_CFG_LOSS k)) fun s => s.safeEnter F.SAF_STAT_LINK
  s.peerUpdate

/-- SAFETY_CONN_TIMEOUT (R296): no PDU accepted for TEXP ms on an open connection. -/
def execSafetyConnTimeout (k : Fin 16) (s : State) : Host.Outcome State Fault Refusal :=
  .next <| if s.on (F.SAF_CONNk_CFG_EN k) && s.rd (F.SAF_CONNk_ST_STATE k) = 2 &&
      (s.conn k).lastRx + s.rd (F.SAF_CONNk_CFG_TEXP k) ≤ s.clk.frame then s.connFail k else s

/-- Accept a PDU: its SEQ and STATE are taken (R296, R297). -/
def State.connAccept (s : State) (k : Nat) (pdu : List Byte) : State :=
  let st := leAt pdu 0x0E 1
  let s := (s.wr (F.SAF_CONNk_ST_SEQ k) (leAt pdu 2 2)).wr (F.SAF_CONNk_ST_PSTATE k) st
  let s := s.modConn k fun c => { c with
    lastRx := s.clk.frame, estop := bitOf st 0, hops := leAt pdu 0x0F 1, origin := leAt pdu 0x10 2, cand := none }
  s.peerUpdate

/-- The first accepted PDU opens the connection. -/
def State.connOpen (s : State) (k : Nat) (pdu : List Byte) : State :=
  let s := (s.wr (F.SAF_CONNk_ST_STATE k) 2).modConn k fun c => { c with goodSince := s.clk.frame }
  (s.connAccept k pdu).connCause

/-- A PDU that passes every check but SEQ. -/
def State.connCheck (s : State) (k : Nat) (pdu : List Byte) : State :=
  let seq := leAt pdu 2 2
  if s.rd (F.SAF_CONNk_ST_STATE k) = 2 then
    let d := (seq + 65536 - s.rd (F.SAF_CONNk_ST_SEQ k)) % 65536
    if 1 ≤ d && d ≤ 4 then s.connAccept k pdu else s.count (F.SAF_CONNk_CNT_SEQERR k) 1
  else
    let next := match (s.conn k).cand with
      | some (q, t) => seq = (q + 1) % 65536 && s.clk.frame ≤ t + s.rd (F.SAF_CONNk_CFG_TEXP k)
      | none => false
    if next then s.connOpen k pdu
    else (s.wr (F.SAF_CONNk_ST_STATE k) 1).modConn k fun c => { c with cand := some (seq, s.clk.frame) }

/-- A received PDU (R296): both channels check the PDU; a bad SCRC and every other failure is counted, and more than
ten SCRC failures in 60 s fail the connection. -/
def State.pduTake (s : State) (k : Nat) (pdu : List Byte) : State :=
  if !s.on (F.SAF_CONNk_CFG_EN k) then s
  else if pdu.length ≠ 24 || safetyCrc (pdu.take 20) ≠ leAt pdu 0x14 4 then
    let s := (s.count (F.SAF_CONNk_CNT_CRCERR k) 1).modConn k fun c => { c with
        crcFails := s.clk.frame :: c.crcFails.filter fun t => s.clk.frame < t + 60000 }
    if 10 < (s.conn k).crcFails.length && s.rd (F.SAF_CONNk_ST_STATE k) = 2 then s.connFail k else s
  else if leAt pdu 8 4 ≠ (s.word (A.SAF_ID)).toNat || leAt pdu 4 4 ≠ s.rd (F.SAF_CONNk_PEER_ID k) ||
        leAt pdu 0x0C 2 ≠ s.rd (F.SAF_CONNk_CFG_TEXP k) then
    s.count (F.SAF_CONNk_CNT_SEQERR k) 1
  else s.connCheck k pdu

/-- LINK ends where no reset is needed once its condition is gone (R283). -/
def State.linkUpdate (s : State) : State :=
  if s.on F.SAF_STAT_LINK && s.on F.SAF_CFG_AUTORST && s.linkGone then s.safeLeave F.SAF_STAT_LINK else s

/-- LINK_CAUSE_END (R283): the connection has been good for 1 s. -/
def execLinkCauseEnd (k : Fin 16) (s : State) : Host.Outcome State Fault Refusal :=
  .next <| if (s.conn k).failed && s.connGood k then
      (s.modConn k fun c => { c with failed := false }).linkUpdate
    else s

/-- SAFETY_CONN_CNT_CLEAR: the counts of a connection return to 0. -/
def State.connCntClear (s : State) (k : Nat) : State :=
  ((s.wr (F.SAF_CONNk_CNT_FAIL k) 0).wr (F.SAF_CONNk_CNT_SEQERR k) 0).wr (F.SAF_CONNk_CNT_CRCERR k) 0

def execSafetyConnCntClear (k : Fin 16) (s : State) : Host.Outcome State Fault Refusal := .next (s.connCntClear k)

/-- CRC-32 of R81 over the configuration registers of R301, in address order, each word little-endian. -/
def State.safetyCfgCrc (s : State) : Nat :=
  let words := [A.SAF_CFG, A.SAF_GDCFG, A.SAF_GRPMAP, A.SAF_ID] ++
    (List.range 16).flatMap fun k => [A.SAF_CONNk_CFG k, A.SAF_CONNk_PEER k]
  crc32 (words.flatMap fun a => leBytes 4 (s.useWord a 0x4000).toNat)

/-- R301: after a commit both channels compute the CRC and agree on it. -/
def State.showCfgCrc (s : State) : State := s.wr F.SAF_CFGCRC_CRC s.safetyCfgCrc

/-! ## The channels' work at an edge -/

/-- SAFETY_CHANNEL_FRAME (R276): what the channels latch, harmonise, decide and compare in the frame. -/
def State.channelFrame (s : State) : State :=
  let s := s.takeCopies
  let s := match s.saf.resetDue with
    | some f => if f < s.clk.frame then (s.modSaf fun x => { x with resetDue := none }).safetyReset f else s
    | none => s
  let s := (s.each pairsAll State.guardStep).guardCauses.peerUpdate.linkUpdate
  let due := s.saf.weldDue
  let s := (s.modSaf fun x => { x with weldDue := [] }).each due State.weldReact
  let s := s.mirrorStep.dropout.crossStep.soFollow.clockCheck.fastWithdraw
  let s := s.each s.outlets fun s n => (s.closeConsent n).unlockConsent n
  s.stateOut.compareStep

end Sys2Proof.Machine
end

