-- ==== Sys2Proof/Machine/Metering.lean ====
section
/-!
DEFINITION. The metrology engine in a sample tick (spec/06, spec/07): streams and their substitution, calibration, power,
windows, frequency, the contributions to energy, and waveform capture.

Exact numerators. A calibrated voltage is held as `kv` times its value in 10 mV, a current as `kv` times its value in mA
(R102); a product of both is then `kv * kv` times a power in 10 µW.
-/

namespace Sys2Proof.Machine

open Sys2Proof

/-- Denominator of a calibrated value: 2^23 · 896 · 10^6 (R102, with g/0.875 = (768 + GAIN)/896). -/
def kv : Nat := 2 ^ 23 * 896 * 1000000

/-! ## Streams (R98, R113, R114, R117) -/

/-- The streams a lane type uses (R28): MV, MI and EB; a member lane has no EB. -/
def LaneType.streams : LaneType → List Nat
  | .unused => []
  | .ac3lower => [0, 1]
  | .ac3upper => [0, 1]
  | _ => [0, 1, 2]

/-- The used streams of the device. -/
def State.usedStreams (s : State) : List Nat :=
  s.usedLanes.flatMap fun n => (s.laneType n).streams.map fun k => 3 * n + k

/-- Ticks since MCLK started. -/
def State.mclkTicks (s : State) : Nat := s.clk.sample - s.boot.mclkAt

/-- One tick of a stream: substitution from the first stuck tick until 16 ticks after the last one (R114), and the clipped
sample (R117). `det`: stuck detection runs (R113). -/
def streamTick (det : Bool) (x : StreamState) : StreamState :=
  let stuck := det && x.stuck
  let sub := stuck || (x.sub ≠ 0 && x.settle ≠ 0)
  let n := if sub then x.sub + 1 else 0
  let used := if !sub then x.raw else if n ≤ 4 then x.lastGood else 0
  let clip := !sub && 0x7C0000 ≤ x.raw.natAbs
  { x with
    sub := n, settle := if stuck then 16 else x.settle - 1, subNow := sub, lost := x.lost || (sub && n = 1600),
    began := x.began || (sub && x.sub = 0), lastGood := if sub then x.lastGood else x.raw,
    hist := (used :: x.hist).take 16, clipNow := clip, clipped := x.clipped || clip }

/-- The lanes whose streams are clocked: those of a running MCLK ball, four to a ball (R33, R34). -/
def State.clockedLanes (s : State) : List Nat := lanesAll.filter fun n => s.boot.mclk && s.boot.mclkBalls.getLsbD (n / 4)

/-- The four status bits of stream `k`: substituted, underrun, clip, stale sensor; and its underrun count (R116, R117). -/
def strStuck (n k : Nat) : Fld := match k with | 0 => F.MET_Ln_STRSTAT_VSTUCK n | 1 => F.MET_Ln_STRSTAT_ISTUCK n | _ => F.MET_Ln_STRSTAT_ESTUCK n

def strUnder (n k : Nat) : Fld := match k with | 0 => F.MET_Ln_STRSTAT_VUNDER n | 1 => F.MET_Ln_STRSTAT_IUNDER n | _ => F.MET_Ln_STRSTAT_EUNDER n

def strClip (n k : Nat) : Fld := match k with | 0 => F.MET_Ln_STRSTAT_VCLIP n | 1 => F.MET_Ln_STRSTAT_ICLIP n | _ => F.MET_Ln_STRSTAT_ECLIP n

def strTstale (n k : Nat) : Fld := match k with | 0 => F.MET_Ln_STRSTAT_VTSTALE n | 1 => F.MET_Ln_STRSTAT_ITSTALE n | _ => F.MET_Ln_STRSTAT_ETSTALE n

def strCount (n k : Nat) : Fld := match k with | 0 => F.MET_Ln_STRCNT_MV n | 1 => F.MET_Ln_STRCNT_MI n | _ => F.MET_Ln_STRCNT_EB n

/-- One tick of stream `st`; one that the lane type ignores is neither checked nor judged (R28, R113). Each clip, and each underrun
that begins, is an event of its status bit (R72, R116, R117). -/
def State.streamStep (s : State) (used : Bool) (st : Nat) : State :=
  let was := (s.stream st).sub
  let s := s.modStream st (streamTick (used && decide (16 < s.mclkTicks)))
  let x := s.stream st
  let n := st / 3
  let k := st % 3
  let s := s.when (used && x.clipNow) fun s => s.sticky (strClip n k)
  s.when (used && x.subNow && was = 0) fun s => (s.sticky (strUnder n k)).count (strCount n k) 1

/-- One tick of every clocked stream. -/
def State.streamTicks (s : State) : State :=
  let used := s.usedStreams
  s.each s.clockedLanes fun s n => s.each [3 * n, 3 * n + 1, 3 * n + 2] fun s st => s.streamStep (used.contains st) st

/-- Deliver the samples that arrived in the tick; a stream not among them repeats its last one. The sinc and FIR stages of R100 lie
before the operand: a sample is what they put out (log entry 24). -/
def State.latchSamples (s : State) (xs : List SampleIn) : State :=
  xs.foldl (fun s x => s.modStream x.stream fun t => { t with raw := signedOf 24 x.sample.toNat, stuck := x.stuck }) s

/-! ## Calibration (R102, R103) -/

/-- Calibration offset index of stream `k` of a lane: CALV, CALI, CALE. -/
def State.calPh (s : State) (n k : Nat) : Int := s.rdS (F.MET_Ln_CALV_PH n k)

/-- fnom in Hz. -/
def State.fnom (s : State) : Nat := if s.on F.MET_CFG_FNOM then 60 else 50

/-- The stream after the phase stage: 2 ticks plus (5·PH + p)·2/(45·fnom) ticks earlier (R103). A whole number of ticks
takes that sample, a constant stream its value; otherwise the fractional delay is not stated. -/
def State.delayed (s : State) (n k : Nat) : Int :=
  let x := s.stream (3 * n + k)
  let den := 45 * s.fnom
  let num := 2 * (45 * s.fnom : Int) + 2 * (5 * s.calPh n k + x.pcor)
  if num % (den : Int) = 0 then x.hist.getD (num / (den : Int)).toNat 0
  else if x.hist.all fun h => h = x.hist.headD 0 then x.hist.headD 0
  else Config.fracDelay x.hist num den

/-- `kv` times the calibrated value x over full scale 1 (R102). -/
def State.calibrated (s : State) (n k : Nat) : Int :=
  s.delayed n k * (768 + s.rd (F.MET_Ln_CALV_GAIN n k)) * (1000000 + (s.stream (3 * n + k)).gppm)

/-- `kv` times the voltage in 10 mV. -/
def State.voltage (s : State) (n : Nat) : Int := s.calibrated n 0 * s.rd (F.MET_Ln_VSCALE_FS n)

/-- `kv` times the current in mA, with the polarity of R122. -/
def State.current (s : State) (n : Nat) : Int :=
  let i := s.calibrated n 1 * s.rd (F.MET_Ln_ISCALE_FS n)
  if s.on (F.MET_Ln_QCFG_IPOL n) then -i else i

/-! ## Power in a tick (R124 to R129) -/

/-- Window length of R125. -/
def State.window (s : State) (n : Nat) : Nat :=
  if s.laneType n = .dc then 16 else if s.on F.MET_CFG_FNOM then 267 else 320

/-- Add two fractions. -/
def fracAdd (a b : Int × Nat) : Int × Nat :=
  if a.2 = b.2 then (a.1 + b.1, a.2) else (a.1 * b.2 + b.1 * a.2, a.2 * b.2)

/-- Voltage a quarter period earlier, interpolated between samples: a fraction over the frequency in mHz (R126). -/
def quarterBack (hist : List Int) (f : Nat) : Int :=
  let k := 4000000 / f
  let r := 4000000 % f
  hist.getD k 0 * ((f - r : Nat) : Int) + hist.getD (k + 1) 0 * (r : Int)

/-- Follow the zero crossings of an AC voltage (R135). `tick` is the tick of the sample, `one` is 1 % of full scale. -/
def crossing (tick : Nat) (one : Int) (x : Int) (m : MetLane) : MetLane :=
  let cand := if m.lastV ≤ 0 && 0 < x then
      some ((tick - 1) * 2 ^ 32 + ((-m.lastV) * 2 ^ 32 / (x - m.lastV)).toNat)
    else if x ≤ 0 then none else m.cand
  let low := m.low || x < -one
  match cand with
  | some t =>
    if low && one < x then
      let c := (t :: m.cross).take 6
      let fq := match c with
        | [a, _, _, _, _, b] => if b < a then 5 * 16000000 * 2 ^ 32 / (a - b) else m.freq
        | _ => m.freq
      { m with low := false, lastV := x, cand := none, cross := c, freq := fq }
    else { m with low := low, lastV := x, cand := cand }
  | none => { m with low := low, lastV := x, cand := cand }

/-- One tick of a phase: products, squares and windows (R124 to R127). An overrun tick keeps the values and squares of the
tick before; a tick whose energy does not count enters the sums as zero. -/
def State.phaseTick (s : State) (overrun : Bool) (n : Nat) : State :=
  let m := s.metLane n
  let w := s.window n
  let ac := (s.laneType n).isAc
  let counted := !overrun && !(s.stream (3 * n)).subNow && !(s.stream (3 * n + 1)).subNow
  let x := s.voltage n
  let y := s.current n
  let vHist := if ac then (x :: m.vHist).take 420 else []
  let p := if counted then x * y else 0
  let q : Int × Nat := if counted && ac then (quarterBack vHist m.quarterF * y, m.quarterF) else (0, 1)
  let sqV := if overrun then m.sqV else x.natAbs ^ 2
  let sqI := if overrun then m.sqI else y.natAbs ^ 2
  let pw := (p :: m.pw).take w
  let qw := (q :: m.qw).take w
  let vv := (sqV :: m.vv).take w
  let ii := (sqI :: m.ii).take w
  let m := if ac && !overrun then crossing s.clk.sample (kv * s.rd (F.MET_Ln_VSCALE_FS n) / 100 : Nat) x m else m
  let v := if overrun then m.v else x
  let i := if overrun then m.i else y
  s.modMetLane n fun _ => { m with
    v := v, i := i, sqV := sqV, sqI := sqI, pw := pw, qw := qw, vv := vv, ii := ii, vHist := vHist, counted := counted,
    pSum := pw.foldl (· + ·) 0, qSum := qw.foldl fracAdd (0, 1), sSum := isqrt (vv.foldl (· + ·) 0 * ii.foldl (· + ·) 0 * 2 ^ 64),
    sumV := m.sumV + v, sumI := m.sumI + i, secTicks := m.secTicks + 1 }

/-- Energy of one tick at `num / den` of kv²·10 µW summed over a window of `w`, in 2^-32 mWh, truncated (R130). -/
def tickEnergy (w num den : Nat) : Nat := num * 3125 * 2 ^ 32 / (den * w * kv ^ 2 * 18 * 10 ^ 12)

/-- Loss of one tick in a cable of `r`/16,000,000 µΩ at `k2` = kv² · mA², in 2^-32 mWh, truncated once (R130, R137). -/
def tickLoss (r k2 den : Nat) : Nat := r * k2 * 2 ^ 32 * 625 / (16000000 * den * kv ^ 2 * 36 * 10 ^ 18)

/-- The current of a phase as its loss counts it: zero in a tick the phase does not count (R124). -/
def lossCurrent (m : MetLane) : Int := if m.counted then m.i else 0

/-- Squared current factor k of R137 with its divisor: the phase current alone, or half the sum over three phases and neutral. -/
def lossFactor : List MetLane → Nat × Nat
  | [m] => ((lossCurrent m).natAbs ^ 2, 1)
  | ms =>
    let xs := ms.map lossCurrent
    (xs.foldl (fun a x => a + x.natAbs ^ 2) 0 + (xs.foldl (· + ·) 0).natAbs ^ 2, 2)

/-- Add to element `i`. -/
def addAt (xs : List Nat) (i v : Nat) : List Nat := setAt xs i (nth xs i + v)

/-- Quadrant of R128, 0 to 3 for Q1 to Q4. -/
def quadrant (p q : Int) : Nat := if 0 ≤ p then (if 0 ≤ q then 0 else 3) else (if 0 ≤ q then 1 else 2)

/-- One tick of an outlet: the sums over its phases, staged by quadrant, and the cable loss (R128, R129, R131, R137). -/
def State.outletTick (s : State) (n : Nat) : State :=
  let g := s.groupOf n
  let ms := g.map s.metLane
  let cs := ms.filter (·.counted)
  let w := s.window n
  let p := cs.foldl (fun a m => a + m.pSum) (0 : Int)
  let q := cs.foldl (fun a m => fracAdd a m.qSum) ((0 : Int), 1)
  let sv := cs.foldl (fun a m => a + m.sSum) 0
  let quad := quadrant p q.1
  let imp := decide (0 ≤ p)
  let f := lossFactor ms
  let loss := tickLoss (s.metLane n).rt f.1 f.2
  let all := ms.all (·.counted)
  let s := if all then s else s.count (F.MET_Ln_QCNT_MISSED n) 1
  s.modMetLane n fun m =>
    let st := addAt m.stage (if imp then 0 else 1) (tickEnergy w p.natAbs 1)
    let st := addAt st (2 + quad) (tickEnergy w q.1.natAbs q.2)
    let st := addAt st (if imp then 6 else 7) (tickEnergy w sv (2 ^ 32))
    { m with
      stage := st, lossImp := if imp then m.lossImp + loss else m.lossImp, lossExp := if imp then m.lossExp else m.lossExp + loss,
      sMean := m.sMean + ms.foldl (fun a x => a + x.sSum) 0, ticks := m.ticks + 1, pOut := p, qOut := q, sOut := sv,
      sumP := m.sumP + p, alcP := m.alcP + p, alcTicks := m.alcTicks + 1, missedSec := if all then m.missedSec else m.missedSec + 1 }

/-! ## Waveform capture (R118 to R121) -/

/-- The word of R121 for the stream selected by `sel`. -/
def State.capWord (s : State) (sel : Nat) : Word :=
  let n := bits sel 4 0
  let k := bits sel 9 8
  let x := s.stream (3 * n + k)
  let v := if bitOf sel 12 then satSigned 24 (roundDiv (s.calibrated n k) (kv / 2 ^ 23)) else x.hist.headD 0
  let hold := x.subNow && x.sub ≤ 4
  let zero := x.subNow && 4 < x.sub
  BitVec.ofNat 32 (codeOf 24 v + 2 ^ 24 * b2n hold + 2 ^ 25 * b2n zero + 2 ^ 26 * b2n x.clipNow)

/-- Does a slot record: enabled, and not stream 3? -/
def slotOn (sel : Nat) : Bool := bitOf sel 7 && bits sel 9 8 ≠ 3

/-- Take one sample of every enabled slot into its ring. -/
def State.capRecord (s : State) : State :=
  let ring (k : Nat) : List Word :=
    let r := s.met.cap.rings.getD k []
    if slotOn (nth s.met.cap.sel k) then (s.capWord (nth s.met.cap.sel k) :: r).take 4096 else r
  s.modCap fun c => { c with rings := [ring 0, ring 1, ring 2], count := c.count + 1 }

/-- The level trigger in this tick (R119): slot 0's raw magnitude rises to LEVEL or above; fired, it re-arms below LEVEL − LEVEL/64. -/
def State.capLevel (s : State) : Bool × State :=
  let c := s.met.cap
  let sel := nth c.sel 0
  let hist := (s.stream (3 * bits sel 4 0 + bits sel 9 8)).hist
  let mag := (hist.headD 0).natAbs
  let lvl := s.rd F.MET_CAP_LEVEL_LEVEL
  let hit := s.rd F.MET_CAP_CTL_STATE ≠ 0 && bitOf c.trig 31 && slotOn sel && c.armed && (hist.getD 1 0).natAbs < lvl && lvl ≤ mag
  (hit, s.modCap fun c => { c with armed := !hit && (c.armed || mag < lvl - lvl / 64) })

/-- Show the stamp of a trigger. -/
def State.capStamp (s : State) (t : CapTrig) : State :=
  (((s.wr F.MET_CAP_STAT_HIT t.kinds).wr F.MET_CAP_STAMP_FRAME t.frame).wr F.MET_CAP_STAMP_TICK t.tick).wr F.MET_CAP_EPOCH_EPOCH t.epoch

/-- The settings are taken from the registers in OFF and IDLE (R118). -/
def State.capLatch (s : State) : State :=
  s.modCap fun c => { c with
    sel := (List.range 3).map fun k => (s.useWord (A.MET_CAP_SELk k) 0).toNat, trig := (s.useWord A.MET_CAP_TRIG 0).toNat }

/-- Enter IDLE: the ring starts again with the committed settings. -/
def State.capIdle (s : State) : State :=
  ((s.wr F.MET_CAP_CTL_STATE 1).modCap fun c => { c with rings := [[], [], []], count := 0 }).capLatch

/-- The late start of R120: the run begins in this tick with PRE taken as 0, the pending trigger's stamp and the samples since. -/
def State.capLate (s : State) : State :=
  match s.met.cap.pend with
  | some t =>
    let s := ((s.capStamp t).wrB F.MET_CAP_STAT_LATE true).wrSat F.MET_CAP_LAG_SAMPLES (s.clk.sample - t.sample)
    let s := (((s.wr F.MET_CAP_CTL_STATE 2).wrB F.MET_CAP_CTL_PEND false).wrB F.MET_CAP_STAT_SHORT false).wr F.MET_CAP_STAT_FIRST 0
    s.modCap fun c => { c with rings := [[], [], []], count := 0, left := 4096, pend := none, released := false }
  | none => s

/-- A trigger in IDLE starts the run (R118). -/
def State.capStart (s : State) (t : CapTrig) : State :=
  let pre := bits s.met.cap.trig 11 0
  let n := s.met.cap.count - 1
  let s := (s.capStamp t).wrB F.MET_CAP_STAT_LATE false
  let s := (s.wrB F.MET_CAP_STAT_SHORT (n < pre)).wr F.MET_CAP_STAT_FIRST (pre - n)
  ((s.wr F.MET_CAP_CTL_STATE 2).wr F.MET_CAP_LAG_SAMPLES 0).modCap fun c => { c with left := 4095 - pre }

/-- One sample tick of the capture unit (R118 to R120). -/
def State.capTick (s : State) : State :=
  let s := if s.rd F.MET_CAP_CTL_STATE ≤ 1 then s.capLatch else s
  let (level, s) := s.capLevel
  let s := if s.met.cap.released then s.capLate else s
  let st := s.rd F.MET_CAP_CTL_STATE
  let s := if st = 1 || (st = 2 && s.met.cap.left ≠ 0) then s.capRecord.modCap fun c => { c with left := c.left - 1 } else s
  let kinds := s.met.cap.hits ||| 2 * b2n level
  if kinds = 0 then s
  else
    let t := s.capTrigger kinds (s.clk.tickInFrame - 1) s.clk.sample
    let s := s.modCap fun c => { c with hits := 0 }
    if st = 1 then s.capStart t else s.capPend t

/-- CAPTURE_ARM (R118): from OFF to IDLE. -/
def State.capArm (s : State) : State := if s.rd F.MET_CAP_CTL_STATE = 0 then s.capIdle else s

def execCaptureArm (s : State) : Host.Outcome State Fault Refusal := .next s.capArm

/-- CAPTURE_DISARM (R118): to OFF; a pending trigger is discarded. -/
def State.capDisarm (s : State) : State :=
  ((s.wr F.MET_CAP_CTL_STATE 0).wrB F.MET_CAP_CTL_PEND false).modCap fun c => { c with pend := none, released := false, left := 0, hits := 0 }

def execCaptureDisarm (s : State) : Host.Outcome State Fault Refusal := .next s.capDisarm

/-- CAPTURE_RELEASE (R118, R120): leaves HELD, to RUN at the next tick when a trigger is pending, else to IDLE. -/
def State.capRelease (s : State) : State :=
  if s.rd F.MET_CAP_CTL_STATE = 3 then
    if s.met.cap.pend.isNone then s.capIdle else s.modCap fun c => { c with released := true }
  else s

def execCaptureRelease (s : State) : Host.Outcome State Fault Refusal := .next s.capRelease

/-- CAPTURE_SWTRIG (R119): a software trigger, in the running sample tick. -/
def State.capSwtrig (s : State) : State := s.capEvent 1

def execCaptureSwtrig (s : State) : Host.Outcome State Fault Refusal := .next s.capSwtrig

/-- CAPTURE_DONE (R118): the last sample of a run is recorded; the buffer is frozen. -/
def execCaptureDone (s : State) : Host.Outcome State Fault Refusal :=
  .next <| if s.rd F.MET_CAP_CTL_STATE = 2 && s.met.cap.left = 0 then
      (s.wr F.MET_CAP_CTL_STATE 3).sticky F.MET_CAP_STAT_DONE
    else s

/-- The word at the read pointer: zero outside HELD and for missing leading samples (R118, R121). -/
def State.capData (s : State) : Word :=
  if s.rd F.MET_CAP_CTL_STATE = 3 then
    (s.met.cap.rings.getD (s.rd F.MET_CAP_ADDR_SLOT) []).getD (4095 - s.rd F.MET_CAP_ADDR_INDEX) 0
  else 0

/-- A read of MET_CAP_DATA advances the pointer; after index 4,095 of slot 2 it continues at slot 0. -/
def State.capAdvance (s : State) : State :=
  let i := s.rd F.MET_CAP_ADDR_INDEX
  let k := s.rd F.MET_CAP_ADDR_SLOT
  if i = 4095 then (s.wr F.MET_CAP_ADDR_INDEX 0).wr F.MET_CAP_ADDR_SLOT (if 2 ≤ k then 0 else k + 1)
  else s.wr F.MET_CAP_ADDR_INDEX (i + 1)

/-- CAPTURE_DATA_READ (R121). -/
def execCaptureDataRead (s : State) : Host.Outcome State Fault Refusal :=
  .next ((s.modBus fun b => { b with readData := [s.capData] }).capAdvance)

/-- CAPTURE_OVR_CLEAR (R120). -/
def execCaptureOvrClear (s : State) : Host.Outcome State Fault Refusal := .next (s.wr F.MET_CAP_OVR_COUNT 0)

end Sys2Proof.Machine
end

