-- ==== Sys2Proof/Machine/EarthFault.lean ====
section
/-!
DEFINITION. Insulation and residual-current monitoring (spec/10): codes and drive, the least-squares windows, thresholds and
verdicts, the cable check, the injection-amplitude item, the residual means and self-test. Estimates are exact fractions in
siemens, farads and volts; a register shows them truncated.
-/

namespace Sys2Proof.Machine

open Sys2Proof

/-! ## Records -/

def State.efmLane (s : State) (n : Nat) : EfmLane := lk (fun _ => {}) s.efm.lanes n

def State.modEfm (s : State) (f : EfmState → EfmState) : State := s.setEfm (f s.efm)

def State.modEfmLane (s : State) (n : Nat) (f : EfmLane → EfmLane) : State :=
  s.modEfm fun e => { e with lanes := put (fun _ => {}) e.lanes n (f (s.efmLane n)) }

def State.efmGroup (s : State) (g : Nat) : EfmGroup := lk (fun _ => {}) s.efm.groups g

def State.modEfmGroup (s : State) (g : Nat) (f : EfmGroup → EfmGroup) : State :=
  s.modEfm fun e => { e with groups := put (fun _ => {}) e.groups g (f (s.efmGroup g)) }

/-- The DC lanes, and the AC outlets. -/
def State.dcLanes (s : State) : List Nat := lanesAll.filter fun n => s.laneType n = .dc

def State.acOutlets (s : State) : List Nat := s.outlets.filter fun n => (s.laneType n).isAc

/-- Show a verdict (R213). -/
def State.setVerdict (s : State) (n v : Nat) : State := s.wr (F.EFM_Ln_VERD_VERDICT n) v

def State.verdict (s : State) (n : Nat) : Nat := s.rd (F.EFM_Ln_VERD_VERDICT n)

/-! ## Codes (R206) -/

/-- The next bits of the base sequence after the six bits `w`, oldest first. -/
def baseGo : Nat → List Bool → List Bool
  | 0, _ => []
  | f + 1, w => w.headD false :: baseGo f (w.drop 1 ++ [xor (w.getD 5 false) (w.getD 0 false)])

/-- The base sequence b(0) to b(62). -/
def baseSeq : List Bool := baseGo 63 [true, false, false, false, false, false]

/-- c_n(k). -/
def chipCode (n k : Nat) : Int := if baseSeq.getD ((k + 2 * n) % 63) false then 1 else -1

/-! ## A sample tick (R208, R209, R218) -/

/-- The joined set J_n now: the lane alone while its contactor is open, else the closed DC lanes of its converter group. -/
def State.joined (s : State) (n : Nat) : LaneSet :=
  if s.mirBoth n then
    (s.dcLanes.filter fun m => s.mirBoth m && s.rd (F.EFM_Ln_CFG_GRP m) = s.rd (F.EFM_Ln_CFG_GRP n)).foldl (fun a m => a ||| laneBit m) 0
  else laneBit n

/-- Current of the lane's drive in A, if its sample arrived. -/
def State.driveA (s : State) (ej : List DriveIn) (m : Nat) : Option Rat :=
  (ej.find? fun d => d.lane.val = m).map fun d => (d.na : Rat) / (s.rd (F.EFM_Ln_NET_KI m) * 1000000000 : Nat)

/-- EB of lane `n` in A. -/
def State.senseA (s : State) (n : Nat) : Rat := ((s.calibrated n 2 * s.rd (F.EFM_Ln_ESCALE_FS n) : Int) : Rat) / ((kv * 1000000 : Nat) : Rat)

/-- Voltage of lane `m`'s injection point to PE in V: what the network makes of v(EJ), KINJ · v(EJ) (R204), which is a_m · c_m(k) under
code drive, less rc_m · i_m (R209). -/
def State.pointV (s : State) (m : Nat) (i : Rat) : Rat :=
  (s.efmLane m).ej * (s.rd (F.EFM_Ln_NET_KINJ m) : Rat) / 10 - ((100 * s.rd (F.EFM_Ln_NET_RC m) : Nat) : Rat) * i

/-- Chip number of the running chip. -/
def State.chipNow (s : State) : Nat := s.efm.chips - 1

/-- Add the sums of one tick. -/
def addSums (xs ys : List Rat) : List Rat := if xs.isEmpty then ys else List.zipWith (· + ·) xs ys

/-- One settled tick of lane `n` with joined set `j`: u(t), and the tick's products (R209). -/
def State.efmSums (s : State) (ej : List DriveIn) (n : Nat) (js : List Nat) : Rat × List Rat :=
  let is := js.map fun m => (m, (s.driveA ej m).getD 0)
  let u := (is.foldl (fun (a : Rat) mi => a + s.pointV mi.1 mi.2) 0) / (js.length : Rat)
  let d := (u - (s.efmLane n).lastU) * 16000
  let i := is.foldl (fun (a : Rat) mi => a + mi.2) 0
  let y := s.senseA n
  (u, [1, u, d, u * u, u * d, d * d, y, y * u, y * d, i, i * u, i * d])

/-- One tick of lane `n` in its chip (R208): a chip in which the set changed, or in whose settled part a sample was
substituted or lost or a lane of the set changed mode, is excluded. -/
def State.efmLaneTick (s : State) (ej : List DriveIn) (n : Nat) : State :=
  let e := s.efmLane n
  let j := s.joined n
  let js := lanesAll.filter fun m => inSet j m
  let t := s.mclkTicks - 1 - 1000 * s.chipNow
  let settled := s.rd F.EFM_CFG_SETTLE ≤ t && t ≤ 999
  let bad := js.any fun m => (s.stream (3 * m + 2)).subNow || (s.driveA ej m).isNone ||
    s.rd (F.EFM_Ln_INJ_MODE m) ≠ (s.efmLane m).lastMode
  let (u, xs) := s.efmSums ej n js
  s.modEfmLane n fun x => { x with
    lastU := u, vSum := x.vSum + (s.metLane n).v, vTicks := x.vTicks + 1,
    cur := { e.cur with
      excl := e.cur.excl || e.cur.j ≠ j || (settled && bad),
      sums := if settled then addSums e.cur.sums xs else e.cur.sums } }

/-- One tick of a step pair: the settled part of each half (R218). -/
def State.stepTick (s : State) (ej : List DriveIn) (n : Nat) : State :=
  match (s.efmLane n).step with
  | some p =>
    match p.start with
    | some t0 =>
      let t := s.mclkTicks - 1 - t0
      if s.rd F.EFM_CFG_SETTLE ≤ t && t < 4000 then
        let h := b2n p.minus
        let add (xs : List Rat) (v : Rat) : List Rat := setAt xs h (xs.getD h 0 + v)
        s.modEfmLane n fun x => { x with
          step := some { p with
            y := add p.y (s.senseA n), i := add p.i ((s.driveA ej n).getD 0), n := setAt p.n h (nth p.n h + 1) } }
      else s
    | none => s
  | none => s

/-- The residual current of an AC outlet joins the frame's sum (R219). -/
def State.rcdTick (s : State) (n : Nat) : State :=
  s.modEfmLane n fun x => { x with rSum := x.rSum + s.calibrated n 2, rTicks := x.rTicks + 1 }

/-- The earth-fault monitor in a sample tick. -/
def State.efmTick (s : State) (ej : List DriveIn) : State :=
  let s := if s.efm.chips = 0 then s else s.each s.dcLanes fun s n => s.efmLaneTick ej n
  let s := s.each s.dcLanes fun s n => (s.stepTick ej n).modEfmLane n fun x => { x with lastMode := s.rd (F.EFM_Ln_INJ_MODE n) }
  s.each s.acOutlets State.rcdTick

/-! ## Windows (R209, R210) -/

/-- The chips of a window: the last `len` that are not excluded, reaching back no more than `2 · len` chips. -/
def windowOf (chips : List EfmChip) (len : Nat) : List EfmChip := ((chips.take (2 * len)).filter fun c => !c.excl).take len

/-- Solve a window by least squares with an intercept. Where the regressors leave h open, g is fitted with h 0 (log entry
30); without any variation of u there is no estimate. -/
def solve (cs : List EfmChip) : Option EfmFit :=
  let t := cs.foldl (fun a c => addSums a c.sums) []
  let at_ (i : Nat) : Rat := t.getD i 0
  let n := at_ 0
  if n = 0 then none
  else
    let cov (p a b : Nat) : Rat := at_ p - at_ a * at_ b / n
    let uu := cov 3 1 1
    let ud := cov 4 1 2
    let dd := cov 5 2 2
    let yu := cov 7 6 1
    let yd := cov 8 6 2
    let iu := cov 10 9 1
    let id := cov 11 9 2
    let det := uu * dd - ud * ud
    if det ≠ 0 then some ⟨(yu * dd - yd * ud) / det, (yd * uu - yu * ud) / det, (iu * dd - id * ud) / det⟩
    else if uu ≠ 0 then some ⟨yu / uu, 0, iu / uu⟩ else none

/-- A window's estimate, if it is valid: at least its length minus 2 chips (R210). -/
def estimate (chips : List EfmChip) (len : Nat) : Option EfmFit :=
  let w := windowOf chips len
  if len ≤ w.length + 2 then solve w else none

/-- Show a resistance 1/g in 100 Ω with VALID, OVER and UNDER (R210): R lies 14 bits below OVER. -/
def resistance (g : Option Rat) : Nat :=
  match g with
  | none => 0
  | some g =>
    if g * 10000000 < 1 then 2 ^ 31 + 2 ^ 29 + 100000
    else if 1 < g * 10000 then 2 ^ 31 + 2 ^ 30 + 100
    else 2 ^ 31 + (1 / g / 100).floor.toNat

/-- The chips of a run of 32 from chip `k0` on, as one window (R216); valid with at least 30. -/
def phaseFit (chips : List EfmChip) (k0 : Nat) : Option EfmFit :=
  let w := chips.filter fun c => k0 ≤ c.k && c.k < k0 + 32 && !c.excl
  if 30 ≤ w.length then solve w else none

/-- Does 1/g lie below `level` Ω? -/
def below (g level : Rat) : Bool := 1 ≤ g * level

/-- Does 1/g lie within ±STTOL % of RTEST (R217, R218)? -/
def State.nearRtest (s : State) (n : Nat) (g : Rat) : Bool :=
  let rt : Rat := (100 * s.rd (F.EFM_Ln_RTEST_RT n) : Nat)
  let tol := s.rd F.EFM_RCDCFG_STTOL
  0 < g && rt * (100 - tol : Nat) ≤ 100 / g && 100 / g ≤ rt * (100 + tol : Nat)

/-! ## Drive modes (R207) and the chip clock (R206, R212) -/

/-- May EJ drive at all: a DC lane with a head present, not retired (R207); a head that failed leaves the lane as without one, but for
a new run of its items (R40, R95). -/
def State.mayInject (s : State) (n : Nat) : Bool :=
  let h := s.head n
  s.laneType n = .dc && h.present && !s.retired n && (!h.failed || h.adaptAt.isSome)

/-- Put lane `n`'s injection in a mode for the running chip, with the drive and the TEST bias of it (R204, R207). A is the amplitude the
item of R218 found; it drives from then on, and INJ.AMP shows it once committed (log entry 31). -/
def State.setMode (s : State) (n v : Nat) (k : Nat) : State :=
  let e := s.efmLane n
  let a : Rat := ((s.head n).amp : Rat) / (10 * (s.rd (F.EFM_Ln_NET_KINJ n) : Rat))
  let ej : Rat := if v = 0 then 0 else if v = 3 then (if (e.step.any fun p => p.minus) then -a else a) else a * (chipCode n k : Rat)
  (s.wr (F.EFM_Ln_INJ_MODE n) v).modEfmLane n fun x => { x with ej := ej, bias := v = 2 || v = 3 }

/-- EJ goes off: no head, or retired; a cable check or a step pair ends with it. -/
def State.injOff (s : State) (n : Nat) : State := (s.setMode n 0 0).modEfmLane n fun x => { x with cc := none, step := none }

/-- The reference voltage U_n in V at a chip's end (R212). During a cable check only the vehicle's maximum and UMIN count
(R216). -/
def State.refVoltage (s : State) (n : Nat) : Rat :=
  let e := s.efmLane n
  let mean : Rat := if e.vTicks = 0 then 0 else ((e.vSum.natAbs : Nat) : Rat) / ((100 * kv * e.vTicks : Nat) : Rat)
  let ev : Rat := if (s.pilLane n).opened then (bits (s.rd (F.PIL_Ln_EVMAX_VALUE n 0)) 31 16 : Nat) / 10 else 0
  max (if e.cc.isSome then 0 else mean) (max ev (s.rd F.EFM_CFG_UMIN : Nat))

/-- Has a step pair run its second half to the end? -/
def State.stepOver (s : State) (p : StepPair) : Bool := p.minus && p.start.any fun t => t + 4000 ≤ s.mclkTicks

/-- The mode of a DC lane for the chip that begins (R207): Test in a self-test phase and Step in a step pair, only while both mirror
contacts show the contactor open. -/
def State.chipMode (s : State) (n : Nat) : Nat :=
  let shown := s.mirAny n
  if !s.mayInject n then 0
  else match (s.efmLane n).step, (s.efmLane n).cc with
    | some p, _ => if shown || s.stepOver p then 1 else 3
    | none, some c => if c.test && c.verdict.isNone && !shown then 2 else 1
    | none, none => if (s.head n).injOk.isSome then 1 else 0

/-- A baseline `b` after a good self-test (R217): below the fault level it is measured once more, from chip `k`; else the check ends. -/
def State.cableBaseline (s : State) (n : Nat) (c : CableTest) (b : EfmFit) (k : Nat) : CableTest :=
  let u := (s.efmLane n).u
  if 1 < b.g * ((s.rd F.EFM_THR_FAULT : Nat) * u) then
    if c.baseRepeat then { c with verdict := some .low } else { c with test := false, baseRepeat := true, base := none, start := some k }
  else { c with verdict := some (.pass (1 < b.g * ((s.rd F.EFM_THR_WARN : Nat) * u))) }

/-- The self-test is judged: g_test and g_tot,test against RTEST; both phases repeat once (R217). -/
def State.cableSelf (s : State) (n : Nat) (c : CableTest) (b f : EfmFit) (k : Nat) : CableTest :=
  let ok := s.nearRtest n (f.g - b.g) && s.nearRtest n (f.gtot - b.gtot)
  if ok then s.cableBaseline n { c with st := some (f.g - b.g, if c.stRepeat then 2 else 1) } b k
  else if c.stRepeat then { c with st := some (f.g - b.g, 3), verdict := some .selfFail }
  else { c with test := false, stRepeat := true, base := none, start := some k }

/-- A cable check at the boundary at which chip `k` begins (R216): it starts, or a phase whose 32 chips have ended leads to the next. A
phase whose window is not valid runs again in the same mode; a valid baseline leads to the self-test, or to the verdict when it was
the baseline's repeat. -/
def State.cableChip (s : State) (n : Nat) (c : CableTest) (k : Nat) : CableTest :=
  match c.start with
  | none => { c with start := some k }
  | some k0 =>
    if k < k0 + 32 || c.verdict.isSome then c
    else match phaseFit (s.efmLane n).chips k0 with
      | none => { c with start := some k }
      | some f =>
        if c.test then s.cableSelf n c (c.base.getD f) f k
        else if c.baseRepeat then s.cableBaseline n c f k
        else { c with test := true, base := some f, start := some k }

/-- A step pair at a chip boundary: one that waits starts with the chip (R207); with a mirror closed by then the item fails (R218). -/
def State.stepChip (s : State) (n : Nat) : State :=
  match (s.efmLane n).step with
  | some p =>
    if p.start.isSome then s
    else if s.mirAny n then (s.modEfmLane n fun x => { x with step := none }).modHead n fun h => { h with injOk := some false }
    else s.modEfmLane n fun x => { x with step := some { p with start := some s.mclkTicks } }
  | none => s

/-- One DC lane at a chip boundary: the chip that ends joins its window, the next begins; a cable check and a step pair go on with it
(R216, R218), a committed value restarts the windows (R223), U_n is set anew (R212). -/
def State.chipLane (s : State) (first : Bool) (n : Nat) : State :=
  let e := s.efmLane n
  let k := s.efm.chips
  let u := s.refVoltage n
  let chips := if e.restart then [] else if first then e.chips else (e.cur :: e.chips).take 126
  let s := s.modEfmLane n fun x => { x with
    chips := chips, restart := false, u := u, vSum := 0, vTicks := 0, fCnt := if e.restart then 0 else x.fCnt,
    wCnt := if e.restart then 0 else x.wCnt, cur := { j := s.joined n, k := k } }
  let s := (s.modEfmLane n fun x => { x with cc := x.cc.map fun c => s.cableChip n c k }).stepChip n
  let m := s.chipMode n
  ((s.wrSat (F.EFM_Ln_UREF_U n) u.floor.toNat).setMode n m k).modEfmLane n fun x => { x with lastMode := m }

/-- The committed words that waited for the boundary take effect (R223). -/
def State.efmCommit (s : State) : State :=
  let xs := s.efm.waiting
  if xs.isEmpty then s
  else (xs.foldl (fun s p => match regAt p.1 with | some h => s.putWord p.1 h.d.shadow p.2 | none => s) s).modEfm fun e => { e with waiting := [] }

/-- INJECTION_CHIP (R206): every 1,000 sample ticks a chip ends and the next begins. -/
def execInjectionChip (s : State) : Host.Outcome State Fault Refusal :=
  .next <| if s.boot.mclk && 1000 * s.efm.chips ≤ s.mclkTicks then
      let first := decide (s.efm.chips = 0)
      let s := s.efmCommit
      let s := s.each s.dcLanes fun s n => s.chipLane first n
      let s := s.each s.acOutlets fun s n => if (s.efmLane n).restart then
        s.modEfmLane n fun x => { x with restart := false, rcd := [], rSum := 0, rTicks := 0, rcCnt := 0 } else s
      s.modEfm fun e => { e with chips := e.chips + 1, update := !first }
    else s

/-! ## Decisions (R211, R213, R214) -/

/-- A fault decision: verdict 3 (R213). -/
def State.verdictFault (s : State) (n : Nat) : State := s.setVerdict n 3

/-- The warning source and the verdict follow the lane's warnings (R213, R214). -/
def State.warnShow (s : State) (n : Nat) (was : Bool) : State :=
  let e := s.efmLane n
  let now := e.warn || e.gwarn
  if now && !was then
    let s := (s.sticky (F.EFM_Ln_STAT_WARN n)).raiseLane 0x2C 1 n
    if s.verdict n = 1 then s.setVerdict n 2 else s
  else if was && !now then
    let s := s.causeOff 0x2C (some (s.groupSet n))
    if s.verdict n = 2 then s.setVerdict n 1 else s
  else s

/-- Lane decision on the fast estimate: fault at two consecutive updates with both witnesses. -/
def State.laneFaultStep (s : State) (n : Nat) (f : EfmFit) : State :=
  let lvl := (s.rd F.EFM_THR_FAULT : Nat) * (s.efmLane n).u
  let hit := below f.g lvl && below f.gtot lvl
  let cnt := if hit then (s.efmLane n).fCnt + 1 else 0
  let s := s.modEfmLane n fun x => { x with fCnt := cnt }
  if cnt = 2 then ((s.sticky (F.EFM_Ln_STAT_FAULT n)).raiseLane 0x28 2 n).verdictFault n
  else if !hit && s.causeFor 0x28 n then s.causeOff 0x28 (some (s.groupSet n)) else s

/-- Lane warning on the full estimate: set at two consecutive updates with both witnesses, cleared above the level with
HYST. -/
def State.laneWarnStep (s : State) (n : Nat) (f : EfmFit) : State :=
  let lvl := (s.rd F.EFM_THR_WARN : Nat) * (s.efmLane n).u
  let e := s.efmLane n
  let hit := below f.g lvl && below f.gtot lvl
  let cnt := if hit then e.wCnt + 1 else 0
  let free := f.g * lvl * (100 + s.rd F.EFM_CFG_HYST : Nat) < 100
  (s.modEfmLane n fun x => { x with wCnt := cnt, warn := if 2 ≤ cnt then true else if free then false else x.warn }).warnShow n (e.warn || e.gwarn)

/-- Estimates of the lanes of a set, if each is valid. -/
def State.sumG (s : State) (js : List Nat) (len : Nat) : Option Rat :=
  js.foldl (fun a n => match a, estimate (s.efmLane n).chips len with | some x, some f => some (x + f.g) | _, _ => none) (some 0)

/-- The remainder g_rem of a group, and its g_tot, on windows of `len` chips (R209). -/
def State.groupFit (s : State) (js : List Nat) (len : Nat) : Option (Rat × Rat) :=
  match js with
  | [] => none
  | n :: _ =>
    match estimate (s.efmLane n).chips len, s.sumG js len with
    | some f, some g => some (f.gtot - g, f.gtot)
    | _, _ => none

/-- The largest U_n of the joined set (R212). -/
def State.groupU (s : State) (js : List Nat) : Rat := js.foldl (fun a n => max a (s.efmLane n).u) 0

/-- The set of some lanes. -/
def laneSet (js : List Nat) : LaneSet := js.foldl (fun a n => a ||| laneBit n) 0

/-- The DC lanes of converter group `g`. -/
def State.convLanes (s : State) (g : Nat) : List Nat := s.dcLanes.filter fun n => s.rd (F.EFM_Ln_CFG_GRP n) = g

/-- Group fault decision on the fast estimates (R214). The cause covers every lane of the group it was raised on, also one that has
left the joined set since. -/
def State.groupFaultStep (s : State) (g : Nat) (js : List Nat) : State :=
  match s.groupFit js (s.rd F.EFM_CFG_FASTW) with
  | some (rem, _) =>
    let hit := below rem ((s.rd F.EFM_THR_FAULT : Nat) * s.groupU js)
    let cnt := if hit then (s.efmGroup g).fCnt + 1 else 0
    let s := s.modEfmGroup g fun x => { x with fCnt := cnt }
    if cnt = 2 then (s.each js fun s n => (s.sticky (F.EFM_Ln_STAT_GFAULT n)).verdictFault n).raise 0x29 2 (some (laneSet js))
    else if !hit then s.causeOff 0x29 (some (laneSet (s.convLanes g))) else s
  | none => s

/-- Group warning on the full estimates (R214): set on the lanes of the joined set, cleared on every lane of the group. -/
def State.groupWarnStep (s : State) (g : Nat) (js : List Nat) : State :=
  match s.groupFit js 63 with
  | some (rem, _) =>
    let lvl := (s.rd F.EFM_THR_WARN : Nat) * s.groupU js
    let cnt := if below rem lvl then (s.efmGroup g).wCnt + 1 else 0
    let free := rem * lvl * (100 + s.rd F.EFM_CFG_HYST : Nat) < 100
    let s := s.modEfmGroup g fun x => { x with wCnt := cnt }
    s.each (s.convLanes g) fun s n =>
      let e := s.efmLane n
      let now := if 2 ≤ cnt && js.contains n then true else if free then false else e.gwarn
      (s.modEfmLane n fun x => { x with gwarn := now }).warnShow n (e.warn || e.gwarn)
  | none => s

/-- The DC lanes of group `g` that are closed. -/
def State.closedIn (s : State) (g : Nat) : List Nat := (s.convLanes g).filter s.mirBoth

/-- A converter group at an update: what RSYS and RREM show, and its decisions, which hold their last result while no lane of the group
is closed or an estimate is not valid (R210). -/
def State.groupStep (s : State) (g : Nat) : State :=
  let js := s.closedIn g
  let f := s.groupFit js 63
  let s := s.setWord (A.EFM_GRPg_RSYS g) (BitVec.ofNat 32 (resistance (f.map (·.2))))
  let s := s.setWord (A.EFM_GRPg_RREM g) (BitVec.ofNat 32 (resistance (f.map (·.1))))
  (s.groupFaultStep g js).groupWarnStep g js

/-- Correlation of lane `n`'s EB over its full window with the code of lane `m`, mean removed, in A (R211). -/
def crossCorr (w : List EfmChip) (m : Nat) : Rat :=
  let ys := w.map fun c => (c.k, if c.sums.getD 0 0 = 0 then 0 else c.sums.getD 6 0 / c.sums.getD 0 0)
  let mean := (ys.foldl (fun (a : Rat) y => a + y.2) 0) / (ys.length : Rat)
  (ys.foldl (fun (a : Rat) y => a + (y.2 - mean) * (chipCode m y.1 : Rat)) 0) / (ys.length : Rat)

/-- CROSS_COUPLING (R211): at the end of every full window of 63 chips. -/
def State.crossStepEf (s : State) (n : Nat) : State :=
  let w := windowOf (s.efmLane n).chips 63
  if s.efm.chips % 63 = 0 && 63 ≤ w.length + 2 then
    let one : Rat := (s.rd (F.EFM_Ln_ESCALE_FS n) : Nat) / 100000000
    let big (x : Rat) : Bool := one ≤ x || one ≤ -x
    let hits := lanesAll.filter fun m => m ≠ n && w.all (fun c => !inSet c.j m) && big (crossCorr w m)
    let now := hits.foldl (fun a m => a ||| laneBit m) (0 : LaneSet)
    let both := if one = 0 then 0 else now &&& (s.efmLane n).xprev
    let s := s.modEfmLane n fun x => { x with xprev := now }
    if both ≠ 0 then
      ((s.wrSet (F.EFM_Ln_XCODE_CODE n) (s.rdSet (F.EFM_Ln_XCODE_CODE n) ||| both)).sticky (F.EFM_Ln_STAT_XCPL n)).raiseLane 0x2D 1 n
    else if s.causeFor 0x2D n then s.causeOff 0x2D (some (s.groupSet n)) else s
  else s

/-- One DC lane at an update: what RFAST, RISO and CISO show, and its decisions. Decisions hold while an estimate is not
valid (R210), and begin with the end of the lane's injection item (R214). -/
def State.efLaneStep (s : State) (n : Nat) : State :=
  let chips := (s.efmLane n).chips
  let fast := estimate chips (s.rd F.EFM_CFG_FASTW)
  let full := estimate chips 63
  let s := s.setWord (A.EFM_Ln_RFAST n) (BitVec.ofNat 32 (resistance (fast.map (·.g))))
  let s := s.setWord (A.EFM_Ln_RISO n) (BitVec.ofNat 32 (resistance (full.map (·.g))))
  let s := match full with
    | some f => s.wrSat (F.EFM_Ln_CISO_C n) (f.h * 1000000000).floor.toNat
    | none => s
  let s := s.crossStepEf n
  if (s.head n).injOk.isSome && s.laneType n = .dc then
    let s := match fast with | some f => s.laneFaultStep n f | none => s
    match full with | some f => s.laneWarnStep n f | none => s
  else s

/-- EF_WINDOW_UPDATE (R209): after a chip has left the filter, both windows are solved and the decisions taken. -/
def execEfWindowUpdate (s : State) : Host.Outcome State Fault Refusal :=
  .next <| if s.efm.update then
      let s := s.modEfm fun e => { e with update := false }
      (s.each s.dcLanes State.efLaneStep).each (List.range 16) State.groupStep
    else s

/-! ## Cable check (R216, R217) -/

/-- Entry to CABLECHECK: the check begins at the next chip boundary. -/
def State.cableStart (s : State) (n : Nat) : State := s.modEfmLane n fun x => { x with cc := some {} }

/-- The check is given up: EJ leaves the TEST bias at the next chip boundary (R207). -/
def State.cableStop (s : State) (n : Nat) : State :=
  if (s.efmLane n).cc.isSome then s.modEfmLane n fun x => { x with cc := none } else s

/-- A session closed, or a head came: verdict 0, but a fault verdict holds (R213). -/
def State.verdictReset (s : State) (n : Nat) : State := if s.verdict n = 3 then s else s.setVerdict n 0

/-- A check or self-test has passed: verdict 1, or 2 while a warning holds; a fault verdict holds (R213). -/
def State.verdictPass (s : State) (n : Nat) : State :=
  let e := s.efmLane n
  if s.verdict n = 3 then s else s.setVerdict n (if e.warn || e.gwarn then 2 else 1)

/-- What the self-test gave is shown (R216). -/
def State.cableShow (s : State) (n : Nat) (c : CableTest) : State :=
  match c.st with
  | some (g, r) =>
    ((s.wrSat (F.EFM_Ln_ST_VALUE n) (if g ≤ 0 then 65535 else (1 / g / 100).floor.toNat)).wr (F.EFM_Ln_ST_RESULT n) r).modEfmLane n
      fun x => { x with cc := some { c with st := none } }
  | none => s

/-- CABLE_CHECK_PHASE_END (R216, R217): what the phases that ended at the last chip boundary gave is shown and acted on. -/
def execCableCheckPhaseEnd (n : Lane) (s : State) : Host.Outcome State Fault Refusal :=
  .next <| match (s.efmLane n).cc with
    | some c =>
      let s := s.cableShow n c
      let e := s.efmLane n
      match c.verdict with
      | some .selfFail => ((s.cableStop n).sticky (F.EFM_Ln_STAT_STFAIL n)).raiseOnce 0x2A 2 (some (laneBit n))
      | some .low => ((s.cableStop n).sticky (F.EFM_Ln_STAT_CCFAIL n)).decideExit n 0x17
      | some (.pass warning) =>
        let s := (s.cableStop n).when warning fun s => (s.modEfmLane n fun x => { x with warn := true }).warnShow n (e.warn || e.gwarn)
        s.verdictPass n
      | none => s
    | none => s

/-! ## The injection-amplitude item (R218) -/

/-- Begin the item for lane `n`: A is chosen within the bounds of R94, and the step pair starts with +A under the TEST bias at the next
chip boundary (R207). Without a head, on a retired lane or with a mirror closed the item fails. -/
def State.injStart (s : State) (n : Nat) : State :=
  if s.mayInject n && !s.mirAny n then
    let a := clampInt (100 * s.boot.bounds.ampLo) (100 * s.boot.bounds.ampHi)
      (roundDiv ((3 * s.rd (F.EFM_Ln_ESCALE_FS n) * s.rd (F.EFM_Ln_RTEST_RT n) : Nat) : Int) 1000)
    (s.modHead n fun h => { h with amp := a.toNat }).modEfmLane n fun x => { x with step := some {} }
  else s.modHead n fun h => { h with injOk := some false }

/-- Mean of a half. -/
def StepPair.mean (p : StepPair) (xs : List Rat) (h : Nat) : Rat := if nth p.n h = 0 then 0 else xs.getD h 0 / ((nth p.n h : Nat) : Rat)

/-- Is the step pair good: both step changes 20 % to 50 % of full scale, and both giving RTEST? -/
def State.stepGood (s : State) (n : Nat) (p : StepPair) : Bool :=
  let fs : Rat := (s.rd (F.EFM_Ln_ESCALE_FS n) : Nat) / 1000000
  let dy := p.mean p.y 0 - p.mean p.y 1
  let di := p.mean p.i 0 - p.mean p.i 1
  let du : Rat := ((2 * (s.head n).amp : Nat) : Rat) / 100 - ((100 * s.rd (F.EFM_Ln_NET_RC n) : Nat) : Rat) * di
  let inWindow (d : Rat) : Bool := fs ≤ 5 * d && 2 * d ≤ fs
  inWindow dy && inWindow di && 0 < du && s.nearRtest n (dy / du) && s.nearRtest n (di / du)

/-- INJECTION_STEP_HALF_END (R218): after +A the half with −A follows; after the second half the amplitude is judged. EJ leaves the TEST
bias at the next chip boundary (R207). -/
def execInjectionStepHalfEnd (n : Lane) (s : State) : Host.Outcome State Fault Refusal :=
  .next <| match (s.efmLane n).step with
    | some p =>
      if p.start.any fun t => t + 4000 ≤ s.mclkTicks then
        if p.minus then
          let ok := s.stepGood n p
          (s.modEfmLane n fun x => { x with step := none }).modHead n fun h => { h with injOk := some ok }
        else s.modEfmLane n fun x => { x with step := some { p with minus := true, start := some s.mclkTicks }, ej := -x.ej }
      else s
    | none => s

/-! ## Residual current (R219 to R221) -/

/-- Mean of the newest `k` frame sums in µA, over what has been gathered. -/
def State.residual (s : State) (n k : Nat) : Rat :=
  let xs := (s.efmLane n).rcd.take k
  let sum := xs.foldl (fun (a : Int) x => a + x.1) 0
  let cnt := xs.foldl (fun a x => a + x.2) 0
  if cnt = 0 then 0 else ((sum * s.rd (F.EFM_Ln_ESCALE_FS n) : Int) : Rat) / ((kv * cnt : Nat) : Rat)

/-- Truncation toward zero. -/
def ratTrunc (x : Rat) : Int := if 0 ≤ x then x.floor else -((-x).floor)

/-- The size of a fraction. -/
def ratAbs (x : Rat) : Rat := if 0 ≤ x then x else -x

/-- Frames of the fast mean: four periods of fnom. -/
def State.fastFrames (s : State) : Nat := if s.on F.MET_CFG_FNOM then 67 else 80

/-- Step 1 of R53: the frame's residual current joins the windows of the means. -/
def State.efmLatch (s : State) : State :=
  s.each s.acOutlets fun s n => s.modEfmLane n fun x => { x with rcd := ((x.rSum, x.rTicks) :: x.rcd).take 900, rSum := 0, rTicks := 0 }

/-- RESIDUAL_MEANS and RESIDUAL_FAULT (R219, R220) of AC outlet `n` at an edge; no fault while its self-test runs. -/
def State.rcdEdge (s : State) (n : Nat) : State :=
  let slow := s.residual n 900
  let fast := s.residual n s.fastFrames
  let s := (s.wrS (F.EFM_Ln_RCD_SLOW n) (ratTrunc (slow / 10))).wrS (F.EFM_Ln_RCD_FAST n) (ratTrunc (fast / 10))
  let atIdc := ((100 * s.rd F.EFM_RCDCFG_IDC : Nat) : Rat) ≤ ratAbs slow
  let hit := atIdc || ((100 * s.rd F.EFM_RCDCFG_IDCF : Nat) : Rat) ≤ ratAbs fast
  match (s.efmLane n).acTest with
  | some t =>
    let held := if atIdc then t.held + 1 else 0
    s.modEfmLane n fun x => { x with rcCnt := 0, acTest := some { t with held := held, heldTwo := t.heldTwo || 2 ≤ held } }
  | none =>
    let cnt := if hit then (s.efmLane n).rcCnt + 1 else 0
    let s := s.modEfmLane n fun x => { x with rcCnt := cnt }
    if cnt = 2 then ((s.sticky (F.EFM_Ln_STAT_RCFAULT n)).raiseLane 0x2B 2 n).verdictFault n
    else if !hit && s.causeFor 0x2B n then s.causeOff 0x2B (some (s.groupSet n)) else s

/-- The general channel with the residual-test role for outlet `n` (R221, R261). -/
def State.testChannel (s : State) (n : Nat) : Option Nat :=
  (List.range 32).find? fun k => s.on (F.SWA_Gk_CFG_EN k) && s.rd (F.SWA_Gk_CFG_ROLE k) = 2 && s.rd (F.SWA_Gk_CFG_LANE k) = n

/-- A residual self-test has failed twice, or cannot run. -/
def State.rcdTestFailed (s : State) (n : Nat) : State :=
  (((s.modEfmLane n fun x => { x with acTest := none }).wr (F.EFM_Ln_ST_RESULT n) 3).sticky (F.EFM_Ln_STAT_STFAIL n)).raiseOnce 0x2A 2
    (some (laneBit n))

/-- Begin the residual self-test, on every entry to READY of an AC lane. -/
def State.rcdTestStart (s : State) (n : Nat) (again : Bool) : State :=
  match s.testChannel n with
  | some k => (s.modEfmLane n fun x => { x with acTest := some { repeated := again } }).request (64 + k)
  | none => s.rcdTestFailed n

/-- RCD_TEST_ON_END (R221): after 1,000 ms on, the test current is judged and the channel switched off. -/
def execRcdTestOnEnd (n : Lane) (s : State) : Host.Outcome State Fault Refusal :=
  .next <| match (s.efmLane n).acTest, s.testChannel n with
    | some t, some k => match (s.chan (64 + k)).onSince with
      | some f =>
        if !t.off && s.chanOn (64 + k) && f + 1000 ≤ s.clk.frame then
          let slow := s.residual n 900
          let it : Rat := ((s.rd (F.EFM_Ln_RTEST_IT n) : Nat) : Rat)
          let tol := s.rd F.EFM_RCDCFG_STTOL
          let good := it * (100 - tol : Nat) ≤ slow && slow ≤ it * (100 + tol : Nat) && t.heldTwo
          let s := s.wr (F.EFM_Ln_ST_VALUE n) (codeOf 16 (ratTrunc (slow / 100)))
          (s.modEfmLane n fun x => { x with acTest := some { t with off := true, at_ := s.clk.frame, good := good } }).chanOff (64 + k)
        else s
      | none => s
    | _, _ => s

/-- RCD_TEST_OFF_END (R221): 1,000 ms after switch-off the residual must lie below 1.0 mA. A failure repeats the test once. -/
def execRcdTestOffEnd (n : Lane) (s : State) : Host.Outcome State Fault Refusal :=
  .next <| match (s.efmLane n).acTest with
    | some t =>
      if t.off && t.at_ + 1000 ≤ s.clk.frame then
        if t.good && ratAbs (s.residual n 900) < 1000 then
          ((s.modEfmLane n fun x => { x with acTest := none }).wr (F.EFM_Ln_ST_RESULT n) (if t.repeated then 2 else 1)).verdictPass n
        else if t.repeated then s.rcdTestFailed n else s.rcdTestStart n true
      else s
    | none => s

/-! ## What the session and the head do to the monitor -/

/-- The head is gone (R41): the drive goes off, a running test ends, the verdict is 0. -/
def State.efmHeadGone (s : State) (n : Nat) : State :=
  let s := (s.injOff n).verdictReset n
  match (s.efmLane n).acTest, s.testChannel n with
  | some _, some k => (s.modEfmLane n fun x => { x with acTest := none }).chanOff (64 + k)
  | some _, none => s.modEfmLane n fun x => { x with acTest := none }
  | none, _ => s

/-- The fault sources that hold verdict 3. -/
def verdictSources : List Nat := [0x28, 0x29, 0x2B]

/-- Verdict 3 ends once no session is open and its fault is cleared (R213). -/
def State.verdictEdge (s : State) (n : Nat) : State :=
  if s.verdict n = 3 && !(s.pilLane n).opened && !(verdictSources.any fun i => inSet (s.rdSet (F.FLT_SRCi_LSTK_LANE i)) n) then s.setVerdict n 0 else s

/-- The monitor at an edge; EJ goes off at once on a retired lane or without a head (R207). -/
def State.efmEdge (s : State) : State :=
  let s := s.each s.acOutlets State.rcdEdge
  let s := s.each s.outlets State.verdictEdge
  s.each (s.dcLanes.filter fun n => s.rd (F.EFM_Ln_INJ_MODE n) ≠ 0 && !s.mayInject n) State.injOff

end Sys2Proof.Machine
end

