-- ==== Sys2Proof/Machine/Memory.lean ====
section
/-!
DEFINITION. Tick memory and DRAM (R419, R420): one byte-addressed list. Tick memory has its own addresses 0 to 0x7F_FFFF;
the DRAM byte at offset A has address 0x8000_0000 + A, as the DMA engine sees it. A byte nothing has written reads 0.
-/

namespace Sys2Proof.Machine

open Sys2Proof

/-- What an unlisted byte reads as (log entry 4). -/
def memDefault (_ : Nat) : Byte := 0

/-- Size of tick memory (R419). -/
def tickSize : Nat := 0x800000

/-- The byte at an address. -/
def State.byteAt (s : State) (a : Nat) : Byte := lk memDefault s.mem a

/-- Is there memory at an address: tick memory, or the 2 GB of DRAM? -/
def memExists (a : Nat) : Bool := a < tickSize || (0x80000000 ≤ a && a < 0x100000000)

/-- Write one byte; an address without memory takes nothing. -/
def State.setByte (s : State) (a : Nat) (b : Byte) : State := if memExists a then s.setMem (put memDefault s.mem a b) else s

/-- Write consecutive bytes. -/
def State.memWrite (s : State) (a : Nat) : List Byte → State
  | [] => s
  | b :: bs => (s.setByte a b).memWrite (a + 1) bs

/-- Read `k` consecutive bytes. -/
def State.memRead (s : State) (a k : Nat) : List Byte := (List.range k).map fun i => s.byteAt (a + i)

/-- The canonical form of memory: addresses strictly rising, no byte listed that reads as unlisted. -/
abbrev Memory.wf (m : List Host.Cell) : Bool := wfFrom memDefault none m

end Sys2Proof.Machine
end

