-- ==== Sys2Proof/Machine/Calendar.lean ====
section
/-!
DEFINITION. The tariff calendar (R147 to R151) over its 3,680 bytes: the checks of R148, local time, the rate in force,
interval boundaries and billing-period instants. Every function takes the bytes; none of them means no calendar.
-/

namespace Sys2Proof.Machine

open Sys2Proof

/-- Byte `i` of a calendar. -/
def calAt (c : List Byte) (i : Nat) : Nat := (c.getD i 0).toNat

/-- Minutes of interval code `k` (R147). -/
def intervalMinutes (k : Nat) : Nat :=
  match k with | 0 => 1 | 1 => 5 | 2 => 10 | 3 => 15 | 4 => 30 | _ => 60

/-- Interval code: 15 min without a calendar (R148). -/
def calInterval (c : List Byte) : Nat := if c.isEmpty then 3 else calAt c 0

/-- Default rate. -/
def calDefault (c : List Byte) : Nat := if c.isEmpty then 0 else calAt c 1

/-- Offsets of standard time and of daylight saving, in quarter hours. -/
def calTz (c : List Byte) : Int := signedOf 8 (calAt c 2)

def calDst (c : List Byte) : Nat := calAt c 3

/-- The season, special-day, and day-profile entries as they lie in the record. -/
def seasonAt (c : List Byte) (i k : Nat) : Nat := calAt c (0x10 + 4 * i + k)

def specialAt (c : List Byte) (i k : Nat) : Nat := calAt c (0x60 + 4 * i + k)

def weekAt (c : List Byte) (w d : Nat) : Nat := calAt c (0x20 + 8 * w + d)

def dayBase (p e : Nat) : Nat := 0x260 + 48 * p + 4 * e

def entryMinute (c : List Byte) (p e : Nat) : Nat := leAt c (dayBase p e) 2

def entryRate (c : List Byte) (p e : Nat) : Nat := calAt c (dayBase p e + 2)

def entryUsed (c : List Byte) (p e : Nat) : Bool := bitOf (calAt c (dayBase p e + 3)) 0

/-- The used entries of a day profile, in order. -/
def usedEntries (c : List Byte) (p : Nat) : List Nat := (List.range 12).filter fun e => entryUsed c p e

/-- The used seasons. -/
def usedSeasons (c : List Byte) : List Nat := (List.range 4).filter fun i => bitOf (seasonAt c i 3) 0

/-- Are minutes strictly rising? -/
def rising : List Nat → Bool
  | a :: b :: r => a < b && rising (b :: r)
  | _ => true

/-- A month and day that exist in some year. -/
def goodDate (m d : Nat) : Bool := 1 ≤ m && m ≤ 12 && 1 ≤ d && d ≤ monthDays 2000 m

/-- Day profile good under R148: whole multiples, rising, the first at minute 0, rates in range. -/
def dayGood (c : List Byte) (p : Nat) : Bool :=
  let es := usedEntries c p
  let ms := es.map fun e => entryMinute c p e
  p < 64 && es.all (fun e => entryMinute c p e % intervalMinutes (calAt c 0) = 0 && entryMinute c p e < 1440 && entryRate c p e < 16) &&
    rising ms && ms.head? = some 0

/-- Is a daylight-saving word in range (R147)? -/
def dstWordGood (w : Nat) : Bool :=
  bits w 31 28 = 0 || (bits w 31 28 ≤ 12 && 1 ≤ bits w 27 24 && bits w 27 24 ≤ 5 && bits w 23 20 ≤ 6 && bits w 10 0 < 1440)

/-- R148: a calendar that may be used. -/
def calGood (c : List Byte) : Bool :=
  let tz := calTz c
  let per := leAt c 0x0C 4
  let seasons := usedSeasons c
  let weeks := seasons.map fun i => seasonAt c i 2
  let specials := (List.range 128).filter fun i => specialAt c i 1 ≠ 0
  c.length = 3680 && calAt c 0 ≤ 5 && calAt c 1 ≤ 15 && decide (-48 ≤ tz) && decide (tz ≤ 56) && calDst c ≤ 8 &&
    dstWordGood (leAt c 4 4) && dstWordGood (leAt c 8 4) && (bits (leAt c 4 4) 31 28 = 0 || bits (leAt c 8 4) 31 28 ≠ 0) && bits per 31 24 ≤ 28 && bits per 10 0 < 1440 && !seasons.isEmpty &&
    seasons.all (fun i => goodDate (seasonAt c i 0) (seasonAt c i 1) && seasonAt c i 2 < 8) &&
    weeks.all (fun w => w < 8 && (List.range 7).all fun d => dayGood c (weekAt c w d)) &&
    (List.range 8).all (fun w => (List.range 7).all fun d => weekAt c w d < 64) &&
    (List.range 64).all (fun p => (usedEntries c p).all fun e => entryRate c p e < 16) &&
    specials.all fun i => goodDate (specialAt c i 1) (specialAt c i 2) && dayGood c (specialAt c i 3)

/-! ## Local time -/

/-- Day number of week `w` (5: last), weekday `d`, of a month. -/
def nthWeekday (y m w d : Nat) : Nat :=
  let first := dayNumber ⟨y, m, 1⟩
  let f := first + (d + 7 - weekday first) % 7
  let last := first + monthDays y m
  if w < 5 then f + 7 * (w - 1) else if f + 28 < last then f + 28 else f + 21

/-- UTC second of a daylight-saving instant in year `y`. -/
def dstInstant (w y : Nat) : Nat := nthWeekday y (bits w 31 28) (bits w 27 24) (bits w 23 20) * 86400 + 60 * bits w 10 0

/-- Is daylight saving active at wall second `t`? -/
def dstActive (c : List Byte) (t : Nat) : Bool :=
  let on := leAt c 4 4
  let off := leAt c 8 4
  if c.isEmpty || bits on 31 28 = 0 || bits off 31 28 = 0 then false
  else
    let y := (dateOf (t / 86400)).year
    let a := dstInstant on y
    let b := dstInstant off y
    if a ≤ b then a ≤ t && t < b else a ≤ t || t < b

/-- Local seconds at wall second `t` (R149); UTC without a calendar. -/
def localSec (c : List Byte) (t : Nat) : Nat :=
  if c.isEmpty then t
  else ((t : Int) + 900 * calTz c + (if dstActive c t then 900 * (calDst c : Int) else 0)).toNat

/-! ## The rate (R149) -/

/-- Lexicographic (month, day) as one number. -/
def mdKey (m d : Nat) : Nat := 32 * m + d

/-- The season in force: the latest start not after the date, else the latest of all. -/
def seasonFor (c : List Byte) (key : Nat) : Option Nat :=
  let ss := usedSeasons c
  let best (l : List Nat) : Option Nat := l.foldl (fun r i => match r with
    | none => some i
    | some j => if mdKey (seasonAt c j 0) (seasonAt c j 1) < mdKey (seasonAt c i 0) (seasonAt c i 1) then some i else some j) none
  match best (ss.filter fun i => mdKey (seasonAt c i 0) (seasonAt c i 1) ≤ key) with
  | some i => some i
  | none => best ss

/-- The day profile of a local date. -/
def profileFor (c : List Byte) (day : Nat) : Nat :=
  let d := dateOf day
  let hit (i : Nat) : Bool := specialAt c i 1 = d.month && specialAt c i 2 = d.day &&
    (specialAt c i 0 = 0xFF || specialAt c i 0 + 2000 = d.year)
  match (List.range 128).find? hit with
  | some i => specialAt c i 3
  | none => match seasonFor c (mdKey d.month d.day) with
    | some i => weekAt c (seasonAt c i 2) (weekday day)
    | none => 0

/-- RATE_SELECT (R149): the rate at wall second `t`; DEFRATE while clock-valid is clear (R155), 0 without a calendar. -/
def rateAt (c : List Byte) (valid : Bool) (t : Nat) : Nat :=
  if c.isEmpty then 0
  else if !valid then calDefault c
  else
    let l := localSec c t
    let p := profileFor c (l / 86400)
    let m := l % 86400 / 60
    (usedEntries c p).foldl (fun r e => if entryMinute c p e ≤ m then entryRate c p e else r) 0

/-- The next interval boundary after wall second `t` (R150), as a wall second. -/
def nextBoundary (c : List Byte) (t : Nat) : Nat :=
  let len := 60 * intervalMinutes (calInterval c)
  t + (len - localSec c t % 86400 % len)

/-- How many PERIOD instants lie at or before wall second `t`, counted by months; 0 where periods close by command only. -/
def periodIndex (c : List Byte) (t : Nat) : Nat :=
  let per := leAt c 0x0C 4
  if c.isEmpty || bits per 31 24 = 0 then 0
  else
    let l := localSec c t
    let d := dateOf (l / 86400)
    let past := bits per 31 24 < d.day || (bits per 31 24 = d.day && bits per 10 0 ≤ l % 86400 / 60)
    12 * (d.year - 2000) + d.month + (if past then 1 else 0)

end Sys2Proof.Machine
end

