-- ==== Sys2Proof/Machine/MetFrame.lean ====
section
/-!
DEFINITION. The metrology engine at a control-frame edge and at a ledger-second edge: stream status, the running test, the
move of whole mWh into the registers, the latched quantities, temperature correction, the sensor bus, inlet energy, the
proof-pulse outputs.
-/

namespace Sys2Proof.Machine

open Sys2Proof

/-! ## Stream status at an edge (R116, R117) -/

/-- The sensor selected for stream `k` of lane `n` (R108): 0xFF none. -/
def State.tsel (s : State) (n k : Nat) : Nat :=
  match k with | 0 => s.rd (F.MET_Ln_TSEL_MV n) | 1 => s.rd (F.MET_Ln_TSEL_MI n) | _ => s.rd (F.MET_Ln_TSEL_EB n)

/-- Show one stream's state at an edge; its events of the frame are over. -/
def State.streamShow (s : State) (n k : Nat) : State :=
  let x := s.stream (3 * n + k)
  let t := s.tsel n k
  let stale := decide (t < 64) && s.on (F.MET_SNBm_T_STALE t)
  let s := (s.wrB (strStuck n k) x.subNow).wrB (strTstale n k) stale
  s.when (x.began || x.clipped) fun s => s.modStream (3 * n + k) fun x => { x with began := false, clipped := false }

/-- The used streams of lane `n`'s group. -/
def State.groupStreams (s : State) (n : Nat) : List Nat := (s.groupOf n).flatMap fun j => (s.laneType j).streams.map fun k => 3 * j + k

/-- Is a stream of the group substituted now? -/
def State.groupSub (s : State) (n : Nat) : Bool := (s.groupStreams n).any fun k => (s.stream k).subNow

/-- Was a stream of the group still substituted 1,600 ticks after its first stuck tick (R116)? -/
def State.groupLost (s : State) (n : Nat) : Bool := (s.groupStreams n).any fun k => (s.stream k).lost

/-- Step 1 of R53 for the streams of outlet `n`: status bits, DEGRADED and the causes of 0x10 and 0x11 (R116, R117). An underrun
that began and ended within the frame is raised too; its cause is over at the same edge. -/
def State.streamEdge (s : State) (n : Nat) : State :=
  let g := s.groupOf n
  let clip := (s.groupStreams n).any fun k => (s.stream k).clipped
  let began := (s.groupStreams n).any fun k => (s.stream k).began
  let sub := s.groupSub n
  let was := s.on (F.MET_Ln_STRSTAT_DEGRADED n)
  let s := s.each g fun s j => (s.each (s.laneType j).streams fun s k => s.streamShow j k).wrB (F.MET_Ln_STRSTAT_DEGRADED j) sub
  let s := s.when (sub || began || clip) fun s =>
    s.modMetLane n fun m => { m with clipSec := m.clipSec || clip, degSec := m.degSec || sub || began }
  let s := s.when ((sub || began) && !was) fun s => s.raiseLane 0x10 1 n
  if !sub && (was || began || s.causeFor 0x11 n) then (s.causeOff 0x10 (some (s.groupSet n))).causeOff 0x11 (some (s.groupSet n)) else s

/-- STRCNT_CLEAR. -/
def State.strcntClear (s : State) (n : Nat) : State := s.each [0, 1, 2] fun s k => s.wr (strCount n k) 0

def execStrcntClear (n : Lane) (s : State) : Host.Outcome State Fault Refusal := .next (s.strcntClear n)

/-- QCNT_CLEAR. -/
def State.qcntClear (s : State) (n : Nat) : State := (s.wr (F.MET_Ln_QCNT_CREEP n) 0).wr (F.MET_Ln_QCNT_MISSED n) 0

def execQcntClear (n : Lane) (s : State) : Host.Outcome State Fault Refusal := .next (s.qcntClear n)

/-- CAL_SEAL_SET (R105). -/
def execCalSealSet (s : State) : Host.Outcome State Fault Refusal := .next (s.wrB F.MET_SEAL_LOCK true)

/-! ## Energy at an edge (R131 to R133) -/

/-- R131: was the outlet running in the frame just closed? -/
def State.running (s : State) (n : Nat) : Bool :=
  let m := s.metLane n
  let w := s.window n
  let big := (s.groupOf n).foldl (fun a j => max a ((s.metLane j).ii.foldl (· + ·) 0)) 0
  let inom := s.rd (F.MET_Ln_INOM_INOM n)
  inom ^ 2 * w * kv ^ 2 ≤ 2500 * big && s.rd (F.MET_Ln_QCFG_CREEP n) * 2 ^ 32 * m.ticks * 1000 * w * kv ^ 2 ≤ m.sMean

/-- Add the contribution `c` to accumulator value `a`, which stops at 2^64 − 1 (R133). -/
def accAdd (a c : Nat) : Nat := satNat (2 ^ 64 - 1) (a + c)

/-- ENERGY_ACCUMULATE (R131): the frame's stage is added when the outlet was running and discarded otherwise. -/
def State.accumulate (s : State) (n : Nat) : State :=
  let m := s.metLane n
  if m.ticks = 0 then s.when (m.commit.any (· ≠ 0)) fun s => s.modMetLane n fun m => { m with commit := [0, 0, 0, 0, 0, 0, 0, 0] }
  else
    let run := s.running n
    let q := quadrant m.pOut m.qOut.1
    let s := ((s.wrB (F.MET_Ln_QSTAT_RUN n) run).wrB (F.MET_Ln_QSTAT_EXP n) (m.pOut < 0)).wr (F.MET_Ln_QSTAT_QUAD n) q
    let acc := (List.range 10).map fun i => if run && i < 8 then accAdd (nth m.acc i) (nth m.stage i) else nth m.acc i
    let sat := run && (List.range 8).any fun i => 2 ^ 64 ≤ nth m.acc i + nth m.stage i
    let s := s.when sat fun s => s.sticky (F.MET_Ln_QSTAT_SAT n)
    let s := s.when (!run) fun s => s.count (F.MET_Ln_QCNT_CREEP n) 1
    let k := b2n run
    s.modMetLane n fun m => { m with
      acc := acc, commit := m.stage.map (· * k), secImp := m.secImp + k * nth m.stage 0, secExp := m.secExp + k * nth m.stage 1,
      secLossImp := m.secLossImp + k * m.lossImp, secLossExp := m.secLossExp + k * m.lossExp,
      stage := [0, 0, 0, 0, 0, 0, 0, 0], lossImp := 0, lossExp := 0, sMean := 0, ticks := 0 }

/-- Does every word of a critical field's register pass its check (R74)? -/
def State.fieldGood (s : State) (f : Fld) : Bool :=
  (List.range (f.hi / 32 + 1)).all fun i => s.pairGood (f.addr + 4 * i) f.sh

/-- Move the whole mWh of accumulator `i` into its register, or hold them back while the pair fails (R132, R133). DESIGN CHOICE (log
entry 24): past 2^48 − 1 the register wraps; the spec does not say what it does there. -/
def State.moveOne (s : State) (n i : Nat) : State :=
  let f := F.MET_Ln_EIMP_COUNT n i
  let m := s.metLane n
  let whole := nth m.acc i / 2 ^ 32
  if whole = 0 then s
  else if s.fieldGood f then
    (s.wr f ((s.rd f + whole) % 2 ^ 48)).modMetLane n fun m => { m with
      acc := setAt m.acc i (nth m.acc i % 2 ^ 32), moved := setAt m.moved i whole, cplFail := m.cplFail.filter (· ≠ i) }
  else (s.sticky (F.MET_Ln_QSTAT_CPLERR n)).modMetLane n fun m => { m with cplFail := i :: m.cplFail.filter (· ≠ i) }

/-- ENERGY_TRANSFER (R132). -/
def State.transfer (s : State) (n : Nat) : State :=
  let s := s.modMetLane n fun m => { m with moved := [0, 0, 0, 0, 0, 0, 0, 0, 0, 0] }
  s.each (List.range 10) fun s i => s.moveOne n i

/-! ## Latched quantities (R134, R135) -/

/-- Quotient truncated toward zero. -/
def truncDiv (a : Int) (b : Nat) : Int := if 0 ≤ a then (a.toNat / b : Nat) else -(((-a).toNat / b : Nat) : Int)

/-- Latch the per-phase values of lane `n`: VINST IINST VRMS IRMS P Q S and the frequency. DESIGN CHOICE (log entry 24): a value is
truncated toward zero to its register's unit; R134 does not say how it is rounded. -/
def State.latchPhase (s : State) (n : Nat) : State :=
  let m := s.metLane n
  let w := s.window n
  let d := 1000 * w * kv ^ 2
  let s := (s.wrS (F.MET_Ln_VINST_VALUE n 0) (truncDiv (10 * m.v) kv)).wrS (F.MET_Ln_VINST_VALUE n 1) (truncDiv (10 * m.i) kv)
  let s := (s.wrSat (F.MET_Ln_VINST_VALUE n 2) (isqrt (100 * m.vv.foldl (· + ·) 0 / (w * kv ^ 2)))).wrSat
    (F.MET_Ln_VINST_VALUE n 3) (isqrt (100 * m.ii.foldl (· + ·) 0 / (w * kv ^ 2)))
  let s := (s.wrS (F.MET_Ln_VINST_VALUE n 6) (truncDiv m.pSum d)).wrS (F.MET_Ln_VINST_VALUE n 7) (truncDiv m.qSum.1 (d * m.qSum.2))
  let s := s.wrSat (F.MET_Ln_VINST_VALUE n 8) (m.sSum / (2 ^ 32 * d))
  if (s.laneType n).isAc then
    let valid := 40000 ≤ m.freq && m.freq ≤ 70000 && (match m.cross with | t :: _ => s.clk.sample * 2 ^ 32 ≤ t + 800 * 2 ^ 32 | [] => false)
    let s := s.wrB (F.MET_Ln_FREQ_VALID n) valid
    let s := s.when valid fun s => s.wr (F.MET_Ln_FREQ_F n) m.freq
    let f := if valid then m.freq else 1000 * s.fnom
    if f = m.quarterF then s else s.modMetLane n fun m => { m with quarterF := f }
  else s

/-- Latch the outlet values of lane `n`: POUT QOUT SOUT. -/
def State.latchOutlet (s : State) (n : Nat) : State :=
  let m := s.metLane n
  let d := 1000 * s.window n * kv ^ 2
  ((s.wrS (F.MET_Ln_PALC_VALUE n 2) (truncDiv m.pOut d)).wrS (F.MET_Ln_PALC_VALUE n 3) (truncDiv m.qOut.1 (d * m.qOut.2))).wrSat
    (F.MET_Ln_PALC_VALUE n 4) (m.sOut / (2 ^ 32 * d))

/-- PALC: the mean power of the allocation tick that ended, latched at the launch edge (R134). -/
def State.latchPalc (s : State) : State :=
  s.each s.outlets fun s n =>
    let m := s.metLane n
    if m.alcTicks = 0 then s.wr (F.MET_Ln_PALC_VALUE n 0) 0
    else (s.wrS (F.MET_Ln_PALC_VALUE n 0) (truncDiv m.alcP (1000 * s.window n * kv ^ 2 * m.alcTicks))).modMetLane n
      fun m => { m with alcP := 0, alcTicks := 0 }

/-- The ledger-second means VMEAN, IMEAN and PSEC (R134). -/
def State.latchMeans (s : State) (n : Nat) : State :=
  let m := s.metLane n
  let t := max 1 m.secTicks
  let s := (s.wrS (F.MET_Ln_VINST_VALUE n 4) (truncDiv (10 * m.sumV) (kv * t))).wrS (F.MET_Ln_VINST_VALUE n 5) (truncDiv (10 * m.sumI) (kv * t))
  let s := if (s.laneType n).member then s else s.wrS (F.MET_Ln_PALC_VALUE n 1) (truncDiv m.sumP (1000 * s.window n * kv ^ 2 * t))
  s.modMetLane n fun m => { m with sumV := 0, sumI := 0, sumP := 0, secTicks := 0 }

/-! ## Temperature correction and the sensor bus (R107 to R111) -/

/-- Interpolate between two table entries at `r`/160 of the way, truncated toward zero. -/
def between (a b : Int) (r : Nat) : Int := truncDiv (a * (160 - r : Nat) + b * (r : Int)) 160

/-- Table entries bracketing T in 1/16 °C: index of the lower one and the sixteenths of a degree above it, of 160. -/
def bracket (t : Int) : Nat × Nat :=
  if t < -640 then (0, 0) else if 1760 ≤ t then (15, 0) else ((t + 640).toNat / 160, (t + 640).toNat % 160)

/-- TEMPERATURE_CORRECTION of one stream (R107). -/
def State.tempCorrect (s : State) (n k : Nat) : State :=
  let m := s.tsel n k
  let st := 3 * n + k
  let (temp, c, p) : Int × Int × Int :=
    if 64 ≤ m then (320, 0, 0)
    else if s.on (F.MET_SNBm_T_VALID m) then
      let t := s.rdS (F.MET_SNBm_T_TEMP m)
      let (i, r) := bracket t
      let j := if i = 15 then 15 else i + 1
      (t, between (s.rdS (F.MET_TTABs_GPPM st i)) (s.rdS (F.MET_TTABs_GPPM st j)) r,
        between (s.rdS (F.MET_TTABs_PCOR st i)) (s.rdS (F.MET_TTABs_PCOR st j)) r)
    else (320, s.rdS (F.MET_TTABs_GPPM st 6), s.rdS (F.MET_TTABs_PCOR st 6))
  let s := s.when (s.rdS (F.MET_Ln_TCORx_TEMP n k) ≠ temp || s.rdS (F.MET_Ln_TCORx_GPPM n k) ≠ c) fun s =>
    (s.wrS (F.MET_Ln_TCORx_TEMP n k) temp).wrS (F.MET_Ln_TCORx_GPPM n k) c
  let x := s.stream st
  if x.gppm = c && x.pcor = p then s else s.modStream st fun x => { x with gppm := c, pcor := p }

def State.sens (s : State) (m : Nat) : SensState := lk (fun _ => {}) s.met.sens m

def State.modSens (s : State) (m : Nat) (f : SensState → SensState) : State :=
  s.modMet fun x => { x with sens := put (fun _ => {}) x.sens m (f (s.sens m)) }

/-- The sensor-bus source's cause ends with the last sensor at fault. -/
def State.sensCause (s : State) : State :=
  s.when (s.causeIs 0x12 && !(s.met.sens.any fun x => x.2.fault)) fun s => s.causeOff 0x12 none

/-- SENSOR_READ (R111): a good reading, or a failed one; the third failed scan makes the sensor stale. -/
def State.sensorRead (s : State) (m : Nat) (r : Option (BitVec 16)) : State :=
  match r with
  | some v =>
    let s := ((s.wrB (F.MET_SNBm_T_VALID m) true).wrB (F.MET_SNBm_T_STALE m) false).wr (F.MET_SNBm_T_TEMP m) v.toNat
    ((s.wr (F.MET_SNBm_T_AGE m) 0).modSens m fun _ => ⟨0, some s.clk.frame, false⟩).sensCause
  | none =>
    let s := (s.count (F.MET_SNBm_T_AGE m) 1).modSens m fun x => { x with fails := x.fails + 1, since := x.since.getD s.clk.frame }
    if (s.sens m).fails = 3 then (s.wrB (F.MET_SNBm_T_STALE m) true).sticky F.MET_SNB_STAT_STALE else s

/-- The enabled sensors, in index order. -/
def State.sensors (s : State) : List Nat := (List.range 64).filter fun m => s.on (F.MET_SNBm_EN m)

/-- SENSOR_BUS_SCAN (R110): every enabled sensor is read once; one with no reading in `reads` did not answer. -/
def execSensorBusScan (reads : List SensorRead) (s : State) : Host.Outcome State Fault Refusal :=
  .next <| if s.on F.MET_SNB_CTL_EN && s.boot.mclk then
      let got (m : Nat) : Option (BitVec 16) := match reads.find? fun r => r.sensor.val = m with
        | some r => r.reading
        | none => none
      let s := s.each s.sensors fun s m => s.sensorRead m (got m)
      s.wr F.MET_SNB_STAT_NSTALE (s.sensors.filter fun m => s.on (F.MET_SNBm_T_STALE m)).length
    else s

/-- SENSOR_BUS_STUCK (R111): SNB_D low for more than 1 ms, recovered with nine pulses and a stop. -/
def execSensorBusStuck (s : State) : Host.Outcome State Fault Refusal := .next (s.sticky F.MET_SNB_STAT_STUCK)

/-- Is a sensor read in the scans? -/
def State.scanned (s : State) (m : Nat) : Bool := s.on F.MET_SNB_CTL_EN && s.on (F.MET_SNBm_EN m)

/-- A sensor that is no longer read has no fault, and its 10 s begin anew when it is (DESIGN CHOICE, log entry 24: R111 does not say
what disabling a failed sensor does). -/
def State.sensorsOff (s : State) : State :=
  let off := s.met.sens.filter fun x => x.2.since.isSome && !s.scanned x.1
  if off.isEmpty then s else (s.each (off.map (·.1)) fun s m => s.modSens m fun y => { y with since := none, fault := false }).sensCause

/-- SENSOR_BUS_FAULT (R111): a sensor that fails has given no good reading for 10 s. -/
def execSensorBusFault (m : Fin 64) (s : State) : Host.Outcome State Fault Refusal :=
  let x := s.sens m
  .next <| if s.scanned m && x.fails ≠ 0 && (x.since.any fun f => f + 10000 ≤ s.clk.frame) && !x.fault then
      (s.modSens m fun x => { x with fault := true }).raiseDev 0x12 1
    else s

/-! ## Inlet energy and cable temperature at a ledger-second edge (R136 to R138) -/

/-- The head sensors that count for the cable temperature of outlet `n`. -/
def State.cableSensors (s : State) (n : Nat) : List Int :=
  ((List.range 6).filter fun j => bitOf (s.rd (F.MET_Ln_QCFG_CABMASK n)) j && s.on (F.MET_Ln_HTj_VALID n j) &&
    !s.on (F.MET_Ln_HTj_STALE n j)).map fun j => s.rdS (F.MET_Ln_HTj_TEMP n j)

/-- CABLE_TEMPERATURE (R136): T and its source, and R(T). DESIGN CHOICE (log entry 24): only a value of head sensors counts as a value
in force since the head was declared present, so the ambient or default value stays the source while no head sensor answers. -/
def State.cableTemp (s : State) (n : Nat) : State :=
  let xs := s.cableSensors n
  let amb := s.rd F.MET_CFG_AMB
  let (t, src) : Int × Nat :=
    if !xs.isEmpty then (truncDiv (xs.foldl (· + ·) 0) xs.length, 0)
    else if (s.head n).tcabValid then (s.rdS (F.MET_Ln_TCAB_TEMP n), 1)
    else if amb < 64 && s.on (F.MET_SNBm_T_VALID amb) then (s.rdS (F.MET_SNBm_T_TEMP amb), 2)
    else (320, 3)
  let s := if src = 0 && !(s.head n).tcabValid then s.modHead n fun h => { h with tcabValid := true } else s
  let rcab := s.rd (F.MET_Ln_RCAB_RCAB n)
  let r := ((rcab : Int) * (16000000 + 3930 * (t - 320))).toNat
  (((s.wrS (F.MET_Ln_TCAB_TEMP n) t).wr (F.MET_Ln_TCAB_SRC n) src).wrSat (F.MET_Ln_RT_R n) (r / 16000000)).modMetLane n
    fun m => { m with rt := r }

/-- INLET_ENERGY (R138): the second's outlet energy less, or plus, the cable loss. -/
def State.inletEnergy (s : State) (n : Nat) : State :=
  let m := s.metLane n
  let clamp := decide (m.secImp < m.secLossImp)
  let imp := m.secImp - m.secLossImp
  let exp := m.secExp + m.secLossExp
  let sat := 2 ^ 64 ≤ nth m.acc 8 + imp || 2 ^ 64 ≤ nth m.acc 9 + exp
  let s := s.when clamp fun s => s.count (F.MET_Ln_RCREC_CLAMPS n) 1
  let s := s.when sat fun s => s.sticky (F.MET_Ln_QSTAT_SAT n)
  let s := s.wrSat (F.MET_Ln_LSEC_LOSS n) ((m.secLossImp + m.secLossExp) * 1000 / 2 ^ 32)
  s.modMetLane n fun m => { m with
    acc := setAt (setAt m.acc 8 (accAdd (nth m.acc 8) imp)) 9 (accAdd (nth m.acc 9) exp), inlet := [imp, exp], inletClamp := clamp,
    secImp := 0, secExp := 0, secLossImp := 0, secLossExp := 0 }

/-! ## Proof pulses (R142 to R144) -/

def State.ppo (s : State) (k : Nat) : PpoState := lk (fun _ => {}) s.met.ppo k

def State.modPpo (s : State) (k : Nat) (f : PpoState → PpoState) : State :=
  s.modMet fun x => { x with ppo := put (fun _ => {}) x.ppo k (f (s.ppo k)) }

/-- Energy output `k` plays out in the frame that starts, in 2^-32 mWh: what the edge committed, or the frame's part of the inlet
energy of the last ledger second (R142). -/
def State.ppoEnergy (s : State) (k : Nat) : Nat :=
  let q := s.rd (F.MET_PPOk_CFG_QTY k)
  let m := s.metLane (s.rd (F.MET_PPOk_CFG_LANE k))
  let t := s.rd F.TCK_TIME_MS % 1000
  if 1 ≤ q && q ≤ 8 then nth m.commit (q - 1)
  else if q = 9 || q = 10 then let e := nth m.inlet (q - 9); e * (t + 1) / 1000 - e * t / 1000
  else 0

/-- One pulse, in the units of an output's energy: 10^6/C mWh (R142). -/
def ppoUnit : Nat := 1000000 * 2 ^ 32

/-- Pulses join the backlog, which drops what exceeds 65,535 (R143). -/
def State.ppoBack (s : State) (k b : Nat) : State :=
  let s := s.when (65535 < b) fun s => s.stickyBit F.MET_PPO_STAT_LOST k
  (s.modPpo k fun x => { x with backlog := satNat 65535 b }).wrBit F.MET_PPO_STAT_FAST k (b ≠ 0)

/-- The output's work at an edge (R142, R143): pulses whose crossing came in the frame and that have not begun join the backlog; the
frame that starts plays out its energy at a constant rate. -/
def State.ppoFrame (s : State) (k : Nat) : State :=
  if s.boot.mclk then
    let x := s.ppo k
    let fell := (x.rem + x.rate) / ppoUnit
    let y := { x with rem := (x.rem + x.rate) % ppoUnit, rate := s.ppoEnergy k * s.rd (F.MET_PPOk_CONST_C k), crossed := 0 }
    let s := if y = x then s else s.modPpo k fun _ => y
    if fell = x.crossed then s else s.ppoBack k (x.backlog + (fell - x.crossed))
  else s

/-- Has the played-out energy crossed the next pulse multiple by the end of the running sample tick (R142)? -/
def State.ppoCrossed (s : State) (x : PpoState) : Bool :=
  (x.crossed + 1) * ppoUnit * s.clk.frameLen ≤ x.rem * s.clk.frameLen + x.rate * (s.clk.tickInFrame + 1)

/-- PROOF_PULSE (R142, R143): the energy crosses a pulse multiple, which joins the pulses waiting; the first of them begins, unless the
last one began less than 125 µs, two sample ticks, ago (8 kHz). -/
def execProofPulse (k : Fin 4) (s : State) : Host.Outcome State Fault Refusal :=
  let x := s.ppo k
  let cross := s.boot.mclk && s.ppoCrossed x
  let waiting := x.backlog + b2n cross
  let free := x.beganAt.all fun t => t + 2 ≤ s.clk.sample
  .next <| if waiting = 0 then s
    else
      let s := s.modPpo k fun x => { x with
        crossed := x.crossed + b2n cross, high := x.high || free, beganAt := if free then some s.clk.sample else x.beganAt }
      s.ppoBack k (waiting - b2n free)

/-- PROOF_PULSE_END (R143): the ball goes low PW × 10 µs after the pulse began, or after half the interval to the next pulse where
that is shorter: 62.5 µs while pulses wait, else by the frame's rate. Times count in whole sample ticks. -/
def execProofPulseEnd (k : Fin 4) (s : State) : Host.Outcome State Fault Refusal :=
  let x := s.ppo k
  let gone := match x.beganAt with | some t => s.clk.sample + 1 - t | none => 0
  let full := 100 * max 1 (s.rd (F.MET_PPOk_CFG_PW k)) ≤ 625 * gone
  let half := s.clk.frameLen * ppoUnit ≤ 2 * gone * x.rate
  .next <| if x.high && (full || x.backlog ≠ 0 || half) then s.modPpo k fun x => { x with high := false } else s

/-- A commit to an output's registers clears its remainder and backlog; a pulse in progress completes (R144). -/
def State.ppoReset (s : State) (k : Nat) : State :=
  (s.modPpo k fun x => { x with rem := 0, rate := 0, crossed := 0, backlog := 0 }).wrBit F.MET_PPO_STAT_FAST k false

/-! ## The engine's part of an edge -/

/-- Step 1 of R53: what the frame's ticks left is latched. -/
def State.metLatch (s : State) : State :=
  if s.boot.mclk then
    let s := s.each s.outlets fun s n => (s.streamEdge n).accumulate n
    let s := s.each s.usedLanes State.latchPhase
    s.each s.outlets State.latchOutlet
  else s

/-- The engine's work of a frame: whole mWh to the registers, corrections for the next ticks. -/
def State.metWork (s : State) : State :=
  let s := s.each s.outlets State.transfer
  (s.each lanesAll fun s n => s.each [0, 1, 2] fun s k => s.tempCorrect n k).sensorsOff

/-- The engine's part of a ledger-second edge. -/
def State.metSecond (s : State) : State :=
  let s := s.each s.usedLanes State.latchMeans
  s.each s.outlets fun s n => (s.inletEnergy n).cableTemp n

end Sys2Proof.Machine
end

