-- ==== Sys2Proof/Machine/Billing.lean ====
section
/-!
DEFINITION. The billing unit and the thermos die's part in it (spec/08): rate and session registers, the ledger and its chain,
intervals, wall time and its adjustments, periods, the hamper, the tamper and clock journals.
-/

namespace Sys2Proof.Machine

open Sys2Proof

/-! ## Wall time -/

def State.wallSec (s : State) : Nat := s.rd F.THM_WALL_SEC

def State.wallMs (s : State) : Nat := s.rd F.THM_WALL_MS

def State.clockValid (s : State) : Bool := s.on F.THM_WALL_VALID

/-- The real-time clock counts one millisecond, while the thermos die has a supply (R24). -/
def State.wallTick (s : State) : State :=
  if s.thm.io33 || s.thm.vbak then
    if s.wallMs = 999 then (s.wr F.THM_WALL_MS 0).countWrap F.THM_WALL_SEC else s.wr F.THM_WALL_MS (s.wallMs + 1)
  else s

/-! ## The ledger (R160 to R162) -/

/-- Is lane `n`'s billing session open? -/
def State.sessionOpen (s : State) (n : Nat) : Bool := s.on (F.BIL_Ln_SSTAT_OPEN n)

/-- Lanes whose session is open, an outlet of the list in force or not (R171). -/
def State.openSessions (s : State) : List Nat := lanesAll.filter s.sessionOpen

/-- Is a sensor of one of lane `n`'s streams stale, or T not from the head (R111, R136)? -/
def State.tempStale (s : State) (n : Nat) : Bool :=
  s.rd (F.MET_Ln_TCAB_SRC n) ≠ 0 ||
    (s.groupOf n).any fun j => (s.laneType j).streams.any fun k => s.tsel j k < 64 && s.on (F.MET_SNBm_T_STALE (s.tsel j k))

/-- Is the ring full (R161)? -/
def State.ringFull (s : State) : Bool :=
  s.rd F.BIL_LDG_SIZE_SIZE ≤ (s.rd F.BIL_LDG_PTR_WR + 65536 - s.rd F.BIL_LDG_PTR_RD) % 65536

/-- Does the next stored entry of this lane (255: the device) carry the gap flag? -/
def State.gapOf (s : State) (lane : Nat) : Bool := if lane = 255 then s.bil.devGap else (s.bilLane lane).gap

def State.setGap (s : State) (lane : Nat) (v : Bool) : State :=
  if lane = 255 then s.modBil fun b => { b with devGap := v } else s.modBilLane lane fun b => { b with gap := v }

/-- The 64 bytes of an entry (R160). -/
def entryBytes (kind lane flags snum epoch wall : Nat) (payload : List Byte) : List Byte :=
  let b := leBytes 1 kind ++ leBytes 1 lane ++ leBytes 2 flags ++ leBytes 4 snum ++ leBytes 4 epoch ++ leBytes 4 wall ++ padTo 44 payload
  b ++ leBytes 4 (crc32 b)

/-- Flags every entry carries: time-invalid, temperature-stale, and site time UNLOCKED. -/
def State.commonFlags (s : State) (lane : Nat) : Nat :=
  b2n (!s.clockValid) + 2 * b2n (lane < 32 && s.tempStale lane) + 512 * b2n (s.rd F.TCK_SYNC_STATE = 0)

/-- Entry bytes of a close, which carry the epoch its fence opened (R157). -/
def State.entryOfAt (s : State) (epoch kind lane snum flags : Nat) (payload : List Byte) : List Byte :=
  entryBytes kind lane (s.commonFlags lane ||| flags ||| 64 * b2n (s.gapOf lane && !s.ringFull)) snum epoch s.wallSec payload

/-- Form an entry as it is now; the gap flag goes into an entry that is stored. -/
def State.entryOf (s : State) (kind lane snum flags : Nat) (payload : List Byte) : List Byte :=
  s.entryOfAt s.epoch kind lane snum flags payload

/-- Store an entry in the ring, or count it as lost (R161). -/
def State.storeEntry (s : State) (lane : Nat) (e : List Byte) : State :=
  if s.ringFull then (s.count F.BIL_LDG_LOST_COUNT 1).setGap lane true
  else
    let base := s.rd F.BIL_LDG_BASE_ADDR / 64 * 64
    let slot := s.rd F.BIL_LDG_PTR_WR % max 1 (s.rd F.BIL_LDG_SIZE_SIZE)
    ((s.memWrite (base + 64 * slot) e).countWrap F.BIL_LDG_PTR_WR).setGap lane false

/-- c_i of R162. -/
def chainNext (c e : List Byte) : List Byte := sha256 (c ++ e)

/-- Chain an entry into the session of lane `n`. -/
def State.chainLane (s : State) (n : Nat) (e : List Byte) : State := s.modBilLane n fun b => { b with chain := chainNext b.chain e }

/-- Write entry `e` of a kind: chained into the session it belongs to, a device-wide one into every open session; kind 0x09 into
none. -/
def State.ledgerEntry (s : State) (kind lane snum : Nat) (e : List Byte) : State :=
  let s := if kind = 9 then s
    else if lane = 255 then s.each s.openSessions fun s n => s.chainLane n e
    else if snum ≠ 0 && s.sessionOpen lane then s.chainLane lane e else s
  s.storeEntry lane e

/-- Write an entry with the epoch in force, and one with the epoch of a closing fence. -/
def State.ledger (s : State) (kind lane snum flags : Nat) (payload : List Byte) : State :=
  s.ledgerEntry kind lane snum (s.entryOf kind lane snum flags payload)

def State.ledgerAt (s : State) (epoch kind lane snum flags : Nat) (payload : List Byte) : State :=
  s.ledgerEntry kind lane snum (s.entryOfAt epoch kind lane snum flags payload)

/-- Session number an entry of lane `n` carries. -/
def State.entrySnum (s : State) (n : Nat) : Nat := if s.sessionOpen n then s.rd (F.BIL_Ln_SNUM_NUM n) else 0

/-- LEDGER_LOST_CLEAR (R161). -/
def execLedgerLostClear (s : State) : Host.Outcome State Fault Refusal := .next (s.wr F.BIL_LDG_LOST_COUNT 0)

/-! ## Rate and session registers (R145, R146, R158) -/

/-- Billing register `i` of lane `n`: import rate i, export rate i − 16, session energy i − 32. -/
def bilReg (n i : Nat) : Fld :=
  if i < 16 then F.BIL_Ln_IMPr_COUNT n i else if i < 32 then F.BIL_Ln_EXPr_COUNT n (i - 16) else F.BIL_Ln_SOIMP_COUNT n (i - 32)

/-- Credit `c` counts; they are held back while the register's pair fails (R146 with R133). -/
def State.credit (s : State) (n i c : Nat) : State :=
  let f := bilReg n i
  let held := lk (fun _ => 0) (s.bilLane n).held i
  if c + held = 0 then s
  else if s.fieldGood f then
    let s := s.wr f ((s.rd f + c + held) % 2 ^ 48)
    if held = 0 then s else s.modBilLane n fun b => { b with held := put (fun _ => 0) b.held i 0, failed := b.failed.filter (· ≠ i) }
  else
    (s.sticky (F.MET_Ln_QSTAT_CPLERR n)).modBilLane n fun b => { b with
      held := put (fun _ => 0) b.held i (c + held), failed := if b.failed.contains i then b.failed else i :: b.failed }

/-- RATE_ACCRUE (R145, R158): the counts moved in this frame, to the rate in force during the frame they were committed in. -/
def State.accrue (s : State) (n : Nat) : State :=
  let m := (s.metLane n).moved
  let r := s.bil.frameRate
  let s := (s.credit n r (nth m 0)).credit n (16 + r) (nth m 1)
  let s := if s.sessionOpen n then
      (((s.credit n 32 (nth m 0)).credit n 33 (nth m 1)).credit n 34 (nth m 8)).credit n 35 (nth m 9) else s
  s.modBilLane n fun b => { b with
    intImp := b.intImp + nth m 0, intExp := b.intExp + nth m 1,
    sec := [nth b.sec 0 + nth m 0, nth b.sec 1 + nth m 1, nth b.sec 2 + nth m 8, nth b.sec 3 + nth m 9],
    secRates := if b.secRates.contains r then b.secRates else r :: b.secRates }

/-- The registers of lane `n` whose pair fails: its MET energy registers by 100 + index, its billing registers by index. -/
def State.failedPairs (s : State) (n : Nat) : List Nat :=
  ((List.range 36).filter fun i => !s.fieldGood (bilReg n i)) ++
    ((List.range 10).filter fun i => !s.fieldGood (F.MET_Ln_EIMP_COUNT n i)).map (100 + ·)

/-- The pairs that fail at a scrub and failed at their last use, or at the scrub before, and are not at fault yet (R133). -/
def failAgain (now before atFault : List Nat) : List Nat := now.filter fun i => before.contains i && !atFault.contains i

/-- R133 step 3 at a ledger-second scrub, for one kind of pairs of lane `n`: the pair's second failure is the lane's fault `src`, which
stands until the pair is rebuilt. -/
def State.scrubPairs (s : State) (n src : Nat) (now before atFault : List Nat) : State :=
  let s := s.when (!(failAgain now before atFault).isEmpty && atFault.isEmpty) fun s => s.raiseLane src 2 n
  s.when (now.any fun i => !before.contains i) fun s => s.sticky (F.MET_Ln_QSTAT_CPLERR n)

/-- R133 step 3 and R146 at a ledger-second scrub of lane `n`'s energy pairs. -/
def State.scrubEnergy (s : State) (n : Nat) : State :=
  let bad := s.failedPairs n
  let met := (bad.filter (100 ≤ ·)).map (· - 100)
  let bil := bad.filter (· < 100)
  let m := s.metLane n
  let b := s.bilLane n
  if bad.isEmpty && m.cplFail.isEmpty && b.failed.isEmpty then s
  else
    (((s.scrubPairs n 0x14 met m.cplFail m.cplBad).scrubPairs n 0x15 bil b.failed b.faulted).modMetLane n
      fun x => { x with cplFail := met, cplBad := failAgain met m.cplFail m.cplBad ++ m.cplBad }).modBilLane n
      fun x => { x with failed := bil, faulted := failAgain bil b.failed b.faulted ++ b.faulted }

/-- Does the pair of the critical word listed at `a` fail? -/
def State.pairBad (s : State) (a : Nat) : Bool :=
  match regAt a with
  | some h => h.d.shadow ≠ 0 && !s.pairGood (if h.shadow then a - h.d.shadow else a) h.d.shadow
  | none => false

/-- Does any pair fail? A word at its reset value has a good pair. -/
def State.pairFail (s : State) : Bool := s.regs.any fun r => s.pairBad r.1

/-- The check of the pairs at their use (R74): one that fails is not used (`useWord`) and raises source 0x05. Every edge uses the
registers of all blocks; a read of a word uses its pair. -/
def State.pairUse (s : State) : State := s.when (s.pairFail && !s.causeIs 0x05) fun s => s.raiseDev 0x05 1

/-- PAIR_SCRUB (R74): every complement pair is checked once per ledger second. -/
def State.scrub (s : State) : State :=
  let s := if s.pairFail then s.pairUse
    else s.when (s.causeIs 0x05) fun s => s.causeOff 0x05 none
  s.each s.outlets State.scrubEnergy

/-- R146: rebuild every failed pair of lane `n` from the last value that passed, and move in what was held back. -/
def State.rebuild (s : State) (n : Nat) : State :=
  let bad := s.failedPairs n ++ (s.metLane n).cplBad.map (100 + ·) ++ (s.bilLane n).faulted
  if bad.isEmpty then s
  else
    let fld (i : Nat) : Fld := if i < 100 then bilReg n i else F.MET_Ln_EIMP_COUNT n (i - 100)
    let s := s.each bad fun s i => s.wr (fld i) (s.rd (fld i))
    let s := s.each (List.range 36) fun s i => s.credit n i 0
    let s := (s.modBilLane n fun b => { b with failed := [], faulted := [] }).modMetLane n fun m => { m with cplFail := [], cplBad := [] }
    let s := (s.causeOff 0x14 (some (s.groupSet n))).causeOff 0x15 (some (s.groupSet n))
    (s.count F.BIL_HSTAT_REBUILDS 1).ledger 7 n (s.entrySnum n) 0 ([1, 0, 0, 0] ++ leBytes 2 (s.rd F.BIL_REGEPOCH_EPOCH))

/-- BILLING_REBUILD (R146): for the lane in BIL_CTL.LANE. -/
def execBillingRebuild (s : State) : Host.Outcome State Fault Refusal := .next (s.rebuild (s.rd F.BIL_CTL_LANE))

/-! ## Sessions (R158, R171, R201) -/

/-- Is the session counter exhausted? -/
def State.snumEnd (s : State) : Bool := 0xFFFFFFFF ≤ s.thm.snum

/-- SESSION_OPEN (R158): the next session number, the session registers cleared, and c0 of the chain. -/
def State.openSession (s : State) (n : Nat) : State :=
  if s.snumEnd then s
  else
    let num := s.thm.snum + 1
    let start := s.wallSec
    -- DESIGN CHOICE (log 27): the numbers in c0 are little-endian, as in the entries (R160)
    let c0 := sha256 (leBytes 2 (s.rd F.SYS_DEVID_DEVID) ++ leBytes 1 n ++ leBytes 4 num ++ leBytes 4 start ++ leBytes 2 (s.rd F.BIL_REGEPOCH_EPOCH))
    let s := s.modThm fun t => { t with snum := num }
    let s := s.wrB F.BIL_STAT_SNUMEND s.snumEnd
    let s := ((s.wr (F.BIL_Ln_SNUM_NUM n) num).setWord (A.BIL_Ln_SSTAT n) 1).wr (F.BIL_Ln_START_SEC n) start
    let s := (s.wr (F.BIL_Ln_DUR_SEC n) 0).wr (F.BIL_Ln_IDLE_SEC n) 0
    let s := s.each [0, 1, 2, 3] fun s q => s.wr (F.BIL_Ln_SOIMP_COUNT n q) 0
    s.modBilLane n fun b => { b with chain := c0, held := b.held.filter fun x => x.1 < 32, lossGap := false }

/-- Charge complete (R158, R201). -/
def State.chargeComplete (s : State) (n : Nat) : State := if s.sessionOpen n then s.wrB (F.BIL_Ln_SSTAT_CC n) true else s

/-- The session closes with a cause (R158): its entry waits for the closing fence (R157), which the service image requests (R60). -/
def State.closeSession (s : State) (n cause : Nat) : State :=
  if s.sessionOpen n then
    let e (q : Nat) := leBytes 6 (s.rd (F.BIL_Ln_SOIMP_COUNT n q))
    let payload := leBytes 4 (s.rd (F.BIL_Ln_START_SEC n)) ++ leBytes 4 (s.rd (F.BIL_Ln_DUR_SEC n)) ++ leBytes 4 (s.rd (F.BIL_Ln_IDLE_SEC n)) ++
      leBytes 1 cause ++ [0, 0, 0] ++ e 0 ++ e 1 ++ e 2 ++ e 3 ++ leBytes 2 (s.rd F.BIL_REGEPOCH_EPOCH)
    let b := s.bilLane n
    let p : ClosePend := ⟨n, s.clk.frame, s.rd (F.BIL_Ln_SNUM_NUM n), 64 * b2n b.lossGap, payload, b.chain, none⟩
    let s := (s.wrB (F.BIL_Ln_SSTAT_OPEN n) false).wr (F.BIL_Ln_SSTAT_CAUSE n) cause
    ((s.modBilLane n fun b => { b with lossGap := false }).modBil fun b => { b with closes := b.closes ++ [p] }).imageFence
  else s

/-- Write a session-close entry after its fence, last in the chain, whose head is then to be signed (R162). -/
def State.writeClose (s : State) (p : ClosePend) : State :=
  let e := s.entryOfAt ((p.fenced.map (·.1)).getD s.epoch) 3 p.lane p.snum p.flags p.payload
  (s.storeEntry p.lane e).modBil fun b => { b with signing := b.signing ++ [⟨p.lane, p.snum, chainNext p.chain e⟩] }

/-! ## Periods (R156, R157) -/

/-- Close the open period: `passed` instants were passed, or it is by command. The service image requests its fence (R60). -/
def State.closePeriod (s : State) (passed : Nat) (byCmd : Bool) : State :=
  let p : PerPend := ⟨s.clk.frame, s.rd F.BIL_PER_PERIOD, s.rd F.BIL_BCLK_SEC, passed - 1, byCmd, none, none⟩
  (((s.countWrap F.BIL_PER_PERIOD).sticky F.BIL_STAT_PCLOSED).modBil fun b => { b with periods := b.periods ++ [p] }).imageFence

/-- Step 6 for periods: one close for all instants passed since they were last looked at, or by command. Before a list is in use no
instant is known, and none is passed over (R156). DESIGN CHOICE (log 28): a command and an instant at one edge make one close, which is
recorded as not by command. -/
def State.periodStep (s : State) : State :=
  if s.rd F.SYS_STAGE_STAGE < 5 then s
  else
    let now := s.rd F.BIL_BCLK_SEC
    let passed := periodIndex s.bil.cal now - periodIndex s.bil.cal s.bil.perAt
    let cmd := s.bil.pcloseReq
    let s := s.modBil fun b => { b with perAt := now, pcloseReq := false }
    if passed ≠ 0 then s.closePeriod passed false else if cmd then s.closePeriod 1 true else s

/-- The 32 rate registers of every lane that is not unused, as at the close. -/
def State.periodTotals (s : State) : List (Nat × List Nat) :=
  s.usedLanes.map fun n => (n, (List.range 32).map fun i => s.rd (bilReg n i))

/-- Write the period-close entry and the totals entries, eight for each lane (R157). -/
def State.writePeriod (s : State) (p : PerPend) : State :=
  let e := (p.fenced.map (·.1)).getD s.epoch
  let s := s.ledgerAt e 5 255 0 0 (leBytes 4 p.per ++ leBytes 4 p.bclk ++ leBytes 4 p.skipped ++ leBytes 1 (b2n p.byCmd))
  (p.totals.getD []).foldl (fun s t =>
    s.each (List.range 8) fun s j =>
      s.ledgerAt e 6 t.1 (s.entrySnum t.1) 0 (leBytes 4 p.per ++ leBytes 1 (j / 4) ++ leBytes 1 (4 * (j % 4)) ++ [0, 0] ++
        (List.range 4).flatMap fun k => leBytes 6 (nth t.2 (4 * j + k)))) s

/-- PERIOD_CLOSE_COMMAND (R156): BIL_CTL.PCLOSE. -/
def execPeriodCloseCommand (s : State) : Host.Outcome State Fault Refusal := .next (s.modBil fun b => { b with pcloseReq := true })

/-- PERIOD_CLOSE (R156): the billing clock has reached a PERIOD instant, or a close was commanded. -/
def execPeriodClose (s : State) : Host.Outcome State Fault Refusal := .next s.periodStep

/-! ## Closing fences (R157) -/

/-- CLOSING_FENCE_TIMEOUT (R157): the service image has not requested the fence within 100 ms; the billing unit does. -/
def execClosingFenceTimeout (s : State) : Host.Outcome State Fault Refusal :=
  let late (f : Nat) : Bool := f + 100 ≤ s.clk.frame
  .next <| if (s.bil.closes.any fun p => p.fenced.isNone && late p.frame) || (s.bil.periods.any fun p => p.fenced.isNone && late p.frame) then
      s.fenceGo
    else s

/-- The closes whose fence took effect at an earlier edge are written in this frame's work (R157). -/
def State.writeFenced (s : State) : State :=
  let now := s.clk.frame
  let due (f : Option (Nat × Nat)) : Bool := match f with | some (_, t) => t < now | none => false
  let cs := s.bil.closes.filter fun p => due p.fenced
  let ps := s.bil.periods.filter fun p => due p.fenced && p.totals.isSome
  let s := s.modBil fun b => { b with
    closes := b.closes.filter fun p => !due p.fenced, periods := b.periods.filter fun p => !(due p.fenced && p.totals.isSome) }
  ps.foldl State.writePeriod (cs.foldl State.writeClose s)

/-! ## Wall-time adjustments and intervals (R150, R152 to R155) -/

/-- A write of word 1 of THM_WSET: the last of a frame counts; MS above 999 requests nothing (R152). -/
def State.wallRequest (s : State) (sec ms : Nat) : State := if ms ≤ 999 then s.modBil fun b => { b with clkReq := some (sec, ms) } else s

/-- WALL_TIME_SET (R152). -/
def execWallTimeSet (sec : Word) (ms : BitVec 10) (s : State) : Host.Outcome State Fault Refusal := .next (s.wallRequest sec.toNat ms.toNat)

/-- Record a logged adjustment: the clock log, the ledger, the journal (R153, R164). -/
def State.logAdjust (s : State) (oldSec oldMs newSec newMs : Nat) (delta : Int) (wasInvalid : Bool) : State :=
  let num := s.thm.cnum
  let bytes := leBytes 2 num ++ [0x40] ++ leBytes 1 (2 * b2n wasInvalid + 4 * b2n (!s.openSessions.isEmpty)) ++ leBytes 4 oldSec ++
    leBytes 2 oldMs ++ leBytes 2 newMs ++ leBytes 4 newSec ++ leBytes 4 (codeOf 32 (satSigned 32 delta)) ++ leBytes 4 s.epoch ++
    leBytes 4 (s.rd F.BIL_BCLK_SEC)
  let full := (s.thm.clockLog.filter fun x => x.1 = num % 64).length ≠ 0
  let s := s.modThm fun t => { t with
    cnum := (num + 1) % 65536, clockWraps := if full then t.clockWraps + 1 else t.clockWraps, clockLog := put (fun _ => []) t.clockLog (num % 64) (bytes ++ leBytes 4 (crc32 bytes)) }
  let s := (s.sticky F.BIL_CADJ_LOGGED).setJournal
    (⟨s.epoch, 0x140, .adjust oldSec oldMs newSec newMs, codeOf 32 (satSigned 32 delta), 0, none⟩ :: s.journal)
  s.ledger 4 255 0 0 (leBytes 4 oldSec ++ leBytes 4 newSec ++ leBytes 4 (codeOf 32 (satSigned 32 delta)) ++ leBytes 2 num)

/-- CLOCK_ADJUSTMENT (R152, R153): apply the request; answers whether it was logged. -/
def State.applyClock (s : State) : Bool × State :=
  match s.bil.clkReq with
  | none => (false, s)
  | some (sec, ms) =>
    let oldSec := s.wallSec
    let oldMs := s.wallMs
    let valid := s.clockValid
    let delta : Int := (1000 * sec + ms : Nat) - ((1000 * oldSec + oldMs : Nat) : Int)
    let sum := s.rdS F.BIL_CADJ_ACC + delta
    let s := (((s.modBil fun b => { b with clkReq := none }).wr F.THM_WALL_SEC sec).wr F.THM_WALL_MS ms).wrB F.THM_WALL_VALID true
    if valid && sum.natAbs ≤ 2000 then (false, s.wrS F.BIL_CADJ_ACC sum)
    else (true, (s.wr F.BIL_CADJ_ACC 0).logAdjust oldSec oldMs sec ms delta (!valid))

/-- The billing clock: the highest wall time reached while clock-valid is set (R156). -/
def State.billingClock (s : State) : State :=
  if s.clockValid && s.rd F.BIL_BCLK_SEC < s.wallSec then s.wr F.BIL_BCLK_SEC s.wallSec else s

/-- RATE_SELECT (R149, R150): the rate in force, and a change of rate journalled. Answers whether daylight saving changed since the last
selection. -/
def State.pickRate (s : State) : Bool × State :=
  let c := s.bil.cal
  let t := s.wallSec
  let r := rateAt c s.clockValid t
  let dst := dstActive c t
  let changed := s.bil.rated && s.on F.BIL_NOW_DST ≠ dst
  let s := if r = s.rd F.BIL_NOW_RATE then s else s.note 0x110 r 0
  let s := ((s.wr F.BIL_NOW_RATE r).wrB F.BIL_NOW_DST dst).wr F.BIL_NOW_INTERVAL (calInterval c)
  (changed, s.modBil fun b => { b with rated := true, rateDue := false })

/-- An interval opens: it ends at the next boundary of the local time, and its record tells of a change of daylight saving (R150). -/
def State.openInterval (s : State) (dst : Bool) : State :=
  let t := s.wallSec
  s.modBil fun b => { b with intStart := t, intEnd := nextBoundary b.cal t, intDst := dst }

/-- The rate is selected, and the next interval opens. -/
def State.selectRate (s : State) : State :=
  let (dst, s) := s.pickRate
  s.openInterval dst

/-- Does a committed calendar wait, and is it good? It takes effect, or is refused as bad (R151). -/
def State.takeCalendar (s : State) : State :=
  if s.on F.BIL_STAT_CALPEND then
    let c := (List.range 920).flatMap fun w => leBytes 4 (s.rd (F.BIL_CALW_WORD w))
    let s := s.wrB F.BIL_STAT_CALPEND false
    if calGood c then
      (s.wrB F.BIL_STAT_NOTARIFF false).modBil fun b => { b with cal := c }
    else s.raiseOnce 0x07 1 none
  else s

/-- INTERVAL_SPLIT and interval close (R150, R154): the running interval ends, and its entries are due. -/
def State.closeInterval (s : State) (oldSec per : Nat) (split : Bool) : State :=
  let b := s.bil
  let s := s.when split fun s => s.sticky F.BIL_STAT_SPLIT
  s.modBil fun b' => { b' with
    intClose := some ⟨b.intStart, satNat 65535 (oldSec - b.intStart), s.rd F.BIL_NOW_RATE, b2n split + 2 * b2n b.intDst, per⟩ }

/-- Step 6 of R53, in the order of R154. `tariff`: this edge is a tariff-interval edge. A calendar that takes effect here selects the
new rate; the instant the billing clock reaches here is one of the old calendar (log 28). -/
def State.tariffStep (s : State) (tariff : Bool) : State :=
  let oldSec := s.wallSec
  let per := s.rd F.BIL_PER_PERIOD
  let reached := s.bil.intEnd ≤ oldSec
  let (logged, s) := s.applyClock
  let s := s.billingClock
  let close := tariff || logged
  let s := s.when close fun s => s.closeInterval oldSec per (logged && !tariff && !reached)
  let s := s.periodStep
  let s := s.when tariff State.takeCalendar
  let s := if close then s.selectRate else if s.bil.rateDue then s.pickRate.2 else s
  s.wrB F.BIL_STAT_TINV (!s.clockValid)

/-! ## What the frame's work writes (R150, R159) -/

/-- The interval entries of an interval closed at this edge (R150). -/
def State.writeIntervals (s : State) : State :=
  match s.bil.intClose with
  | none => s
  | some c =>
    let s := s.each s.outlets fun s n =>
      let b := s.bilLane n
      let s := if s.sessionOpen n || b.intImp ≠ 0 || b.intExp ≠ 0 then
          s.ledger 2 n (s.entrySnum n) 0 (leBytes 4 c.start ++ leBytes 2 c.length ++ leBytes 1 c.rate ++ leBytes 1 c.flags ++
            leBytes 8 b.intImp ++ leBytes 8 b.intExp ++ leBytes 4 c.per)
        else s
      s.modBilLane n fun b => { b with intImp := 0, intExp := 0 }
    s.modBil fun b => { b with intClose := none }

/-- LEDGER_ENTRY (R159): lane `n`'s second entry, if its session is open or it registered energy. -/
def State.writeSecond (s : State) (n : Nat) : State :=
  let b := s.bilLane n
  let m := s.metLane n
  let x := s.sessionOpen n
  let idle := x && s.on (F.BIL_Ln_SSTAT_CC n)
  let flags := 4 * b2n m.clipSec + 8 * b2n s.bil.secMerged + 16 * b2n m.degSec + 32 * b2n m.inletClamp + 128 * b2n (1 < b.secRates.length) + 256 * b2n idle
  let s := if x || b.sec.any (· ≠ 0) then
      s.ledger 1 n (s.entrySnum n) flags (leBytes 4 (if x then s.rd (F.BIL_Ln_DUR_SEC n) else 0) ++ leBytes 1 s.bil.frameRate ++
        leBytes 1 (satNat 255 m.missedSec) ++ leBytes 2 (s.rd (F.MET_Ln_RCREC_RECNO n)) ++ b.sec.flatMap (fun v => leBytes 4 (satNat 0xFFFFFFFF v)) ++
        leBytes 8 (if x then s.rd (F.BIL_Ln_SOIMP_COUNT n 0) else 0) ++ leBytes 8 (if x then s.rd (F.BIL_Ln_SOIMP_COUNT n 1) else 0) ++
        leBytes 2 (s.rd F.BIL_REGEPOCH_EPOCH))
    else s
  (s.modBilLane n fun b => { b with sec := [0, 0, 0, 0], secRates := [] }).modMetLane n fun m => { m with
    missedSec := 0, clipSec := false, degSec := false }

/-- Step 5 of R53 for billing: session seconds, and the entries of the second just closed are due unless its work overran (R55). -/
def State.bilSecond (s : State) (overrun : Bool) : State :=
  let s := s.each s.openSessions fun s n =>
    let s := s.count (F.BIL_Ln_DUR_SEC n) 1
    if s.on (F.BIL_Ln_SSTAT_CC n) then (s.count (F.BIL_Ln_IDLE_SEC n) 1).count (F.BIL_Ln_IDLETOT_SEC n) 1 else s
  (s.modBil fun b => { b with secDue := !overrun, secMerged := b.secMerged || overrun }).modClk fun c => { c with secondMerged := overrun }

/-- The billing unit's work of a frame. The totals of a period close are those of the registers once the counts of the frame before the
close have moved (R145). -/
def State.bilWork (s : State) : State :=
  let s := s.each s.outlets State.accrue
  let s := s.when (s.bil.periods.any fun p => p.totals.isNone) fun s =>
    let x := some s.periodTotals
    s.modBil fun b => { b with periods := b.periods.map fun p => if p.totals.isNone then { p with totals := x } else p }
  let s := if s.bil.secDue then
      (s.each s.outlets State.writeSecond).modBil fun b => { b with secDue := false, secMerged := false } else s
  let s := s.writeIntervals
  s.writeFenced

/-! ## The hamper (R166 to R171) -/

/-- Is the register word at `a` saved in the hamper: MET energy, rate and session registers, with their shadows? -/
def hamperWord (a : Nat) : Bool :=
  if 0x40000 ≤ a && a < 0x48000 then
    let o := a % 0x400
    (0x10 ≤ o && o < 0x60) || (0x210 ≤ o && o < 0x260)
  else (0x60000 ≤ a && a < 0x62800) || (0x64000 ≤ a && a < 0x66800)

/-- The image of this instant (R166). -/
def State.snapshot (s : State) (final : Bool) : HamperImage :=
  { seq := (s.bil.seq + 1) % 2 ^ 32, final := final, sec := s.wallSec, ms := s.wallMs,
    words := s.regs.filter fun r => hamperWord r.1,
    accs := s.outlets.map fun n => (n, (s.metLane n).acc),
    chains := s.outlets.map fun n => (n, (s.bilLane n).chain),
    energised := (lanesAll.filter s.energised).foldl (fun m n => m ||| laneBit n) 0,
    pmax := s.outlets.map fun n => (n, s.rd (F.PIL_Ln_EVMAX_VALUE n 6)),
    per := s.rd F.BIL_PER_PERIOD, bclk := s.rd F.BIL_BCLK_SEC, acc := s.rd F.BIL_CADJ_ACC, regEpoch := s.rd F.BIL_REGEPOCH_EPOCH }

/-- The slot a save writes: the one that does not hold the newest valid image. -/
def State.saveSlot (s : State) : Nat := if s.bil.slots.any (·.2.magic) then 1 - s.rd F.BIL_HSTAT_SLOT else 0

/-- A saved 48-bit register, and a saved word, of an image. -/
def HamperImage.num (i : HamperImage) (f : Fld) : Nat :=
  ((lk (fun _ => 0) i.words f.addr).toNat + 2 ^ 32 * (lk (fun _ => 0) i.words (f.addr + 4)).toNat) % 2 ^ 48

def HamperImage.word (i : HamperImage) (a : Nat) : Nat := (lk (fun _ => 0) i.words a).toNat

/-- The body of an image, 14,272 bytes in the order and with the sizes of R166: energy registers, accumulators, rate registers, session
registers, chain heads, per-lane state, device state. Within the last two the layout is the model's (log 27). -/
def HamperImage.body (i : HamperImage) : List Byte :=
  let lanes (f : Nat → List Byte) : List Byte := lanesAll.flatMap f
  lanes (fun n => (List.range 10).flatMap fun q => leBytes 6 (i.num (F.MET_Ln_EIMP_COUNT n q))) ++
    lanes (fun n => (List.range 10).flatMap fun q => leBytes 8 (nth (lk (fun _ => []) i.accs n) q)) ++
    lanes (fun n => (List.range 32).flatMap fun r => leBytes 6 (i.num (bilReg n r))) ++
    lanes (fun n => (List.range 16).flatMap fun w => leBytes 4 (i.word (A.BIL_Ln_SNUM n + 4 * w))) ++
    lanes (fun n => padTo 32 (lk (fun _ => []) i.chains n)) ++
    lanes (fun n => padTo 16 (leBytes 4 (b2n (inSet i.energised n)) ++ leBytes 4 (lk (fun _ => 0) i.pmax n) ++
      leBytes 4 (b2n (bitOf (i.word (A.BIL_Ln_SSTAT n)) 1)))) ++
    padTo 64 (leBytes 4 i.per ++ leBytes 4 i.bclk ++ leBytes 4 i.acc ++ leBytes 4 i.regEpoch)

/-- The 14,304 bytes of an image in its slot (R166). The spec gives MAGIC no value. -/
def HamperImage.bytes (i : HamperImage) : List Byte :=
  padTo 32 (leBytes 4 (if i.magic then Config.hamperMagic.toNat else 0) ++ leBytes 4 i.seq ++ leBytes 4 (b2n i.final) ++ leBytes 4 i.sec ++
    leBytes 4 i.ms ++ leBytes 4 i.crc) ++ i.body

/-- Does an image pass: its header written, with a check that fits the body (R169)? -/
def HamperImage.valid (i : HamperImage) : Bool := i.magic && i.crc = crc32 i.body

/-- HAMPER_SAVE_START (R167, R168): a snapshot is taken and a save begins; the slot it writes holds no valid image till the end.
Nothing is saved before the restore, nor while the hamper is lost (R169). -/
def State.saveStart (s : State) (final : Bool) : State :=
  if s.rd F.SYS_STAGE_STAGE < 5 || s.on F.BIL_HSTAT_NOHAMPER then s
  else
    let img := s.snapshot final
    let k := s.saveSlot
    s.modBil fun b => { b with saving := some (k, img), seq := img.seq, slots := put (fun _ => {}) b.slots k img }

/-- The header is written last: the slot holds a valid image. -/
def State.saveEnd (s : State) : State :=
  match s.bil.saving with
  | none => s
  | some (k, img) =>
    (s.wr F.BIL_HSTAT_SLOT k).modBil fun b => { b with
      saving := none, slots := put (fun _ => {}) b.slots k { img with magic := true, crc := crc32 img.body } }

/-- HAMPER_SAVE_DONE (R166): a periodic save ends. -/
def execHamperSaveDone (s : State) : Host.Outcome State Fault Refusal :=
  .next <| match s.bil.saving with
    | some (_, img) => if img.final then s else s.saveEnd.modBil fun b => { b with saveAt := some s.clk.frame }
    | none => s

/-- HAMPER_FINAL_SAVE_DONE (R168): the final image is written `us` µs after the warning; the supplies stayed up so far. -/
def execHamperFinalSaveDone (us : Nat) (s : State) : Host.Outcome State Fault Refusal :=
  .next <| match s.bil.saving with
    | some (_, img) => if img.final then (s.saveEnd.wrSat F.BIL_HTIME_US us).sticky F.BIL_HSTAT_PFW else s
    | none => s

/-- NEW_REGISTER_EPOCH (R169): BIL_CTL.NEWEPOCH, ignored unless NOHAMPER is 1. -/
def State.newEpoch (s : State) : State := if s.on F.BIL_HSTAT_NOHAMPER then s.modBil fun b => { b with newEpochReq := true } else s

def execNewRegisterEpoch (s : State) : Host.Outcome State Fault Refusal := .next s.newEpoch

/-- REGISTER_EPOCH_APPLY (R169), at the edge after the request. -/
def State.applyEpoch (s : State) : State :=
  if s.bil.newEpochReq then
    let s := s.modBil fun b => { b with newEpochReq := false }
    let s := s.each lanesAll fun s n =>
      let s := s.each (List.range 10) fun s q => s.wr (F.MET_Ln_EIMP_COUNT n q) 0
      s.each (List.range 36) fun s i => s.wr (bilReg n i) 0
    let s := (s.countWrap F.BIL_REGEPOCH_EPOCH).wrB F.BIL_HSTAT_NOHAMPER false
    let s := s.ledger 7 255 0 0 ([2, 0, 0, 0] ++ leBytes 2 (s.rd F.BIL_REGEPOCH_EPOCH))
    (s.causeOff 0x0A none).saveStart false
  else s

/-- The newest of the slots whose image passes; sequence numbers wrap. -/
def newestSlot (xs : List (Nat × HamperImage)) : Option (Nat × HamperImage) :=
  (xs.filter (·.2.valid)).foldl (fun r x => match r with
    | none => some x
    | some y => if (x.2.seq + 2 ^ 32 - y.2.seq) % 2 ^ 32 < 2 ^ 31 then some x else some y) none

/-- R170: an unsaved-interval entry for a lane energised at the save of an image that was not final. DESIGN CHOICE (log 29): at a warm
start, where the thermos die made no new stamp, the last one stands, a difference below 0 counting as 0, and 1,002 where clock-valid was
cleared in an earlier dark time and has not been set since. -/
def State.unsaved (s : State) (img : HamperImage) (n : Nat) : State :=
  let loss := 1000 * s.rd F.THM_LOSS_SEC + s.thm.lossMs
  let elapsed := if s.thm.lossInvalid then 1002 else loss - (1000 * img.sec + img.ms)
  let pmax := lk (fun _ => 0) img.pmax n
  let bound := (pmax * elapsed + 3599) / 3600
  let s := (s.wrBit F.BIL_UNSAVED_LANE n true).modBilLane n fun b => { b with lossGap := true }
  s.ledger 8 n (s.entrySnum n) 0 (leBytes 4 img.sec ++ leBytes 4 (s.rd F.THM_LOSS_SEC) ++ leBytes 4 (satNat 0xFFFFFFFF elapsed) ++ leBytes 4 pmax ++ leBytes 8 bound)

/-- HAMPER_RESTORE (R169, R170): the newest valid image, or the hamper-lost source. -/
def State.restore (s : State) : State :=
  match newestSlot s.bil.slots with
  | none => (s.wrB F.BIL_HSTAT_NOHAMPER true).raiseDev 0x0A 3
  | some (k, img) =>
    let s := img.words.foldl (fun s r => match regAt r.1 with
      | some h => if h.shadow then s else s.putWord r.1 h.d.shadow r.2
      | none => s) s
    let s := img.accs.foldl (fun s x => s.modMetLane x.1 fun m => { m with acc := x.2 }) s
    let s := img.chains.foldl (fun s x => s.modBilLane x.1 fun b => { b with chain := x.2 }) s
    let s := ((s.wr F.BIL_PER_PERIOD img.per).wr F.BIL_CADJ_ACC img.acc).wr F.BIL_HSTAT_SLOT k
    let s := (s.wrB F.BIL_HSTAT_FINAL img.final).modBil fun b => { b with seq := img.seq, perAt := img.bclk }
    let lanes := lanesAll.filter fun n => inSet img.energised n
    if img.final || lanes.isEmpty then s else (s.each lanes fun s n => s.unsaved img n).sticky F.BIL_HSTAT_UNSAVED

/-- POWER_LOSS_CLOSE (R171): sessions open in the restored image close at the entry to stage 0x8 with cause 0x20. -/
def State.powerLossClose (s : State) : State := s.each s.openSessions fun s n => s.closeSession n 0x20

/-! ## Tamper inputs and journals (R163, R164) -/

/-- Write a tamper-journal entry: `src` the input, or 8 for a configuration change. -/
def State.tamperEntry (s : State) (src : Nat) (active dark : Bool) : State :=
  let num := s.thm.jnum
  let bytes := leBytes 2 num ++ leBytes 1 src ++ leBytes 1 (b2n active + 2 * b2n dark + 4 * b2n (!s.clockValid)) ++ leBytes 4 s.wallSec ++
    leBytes 2 s.wallMs ++ leBytes 10 0 ++ leBytes 4 s.epoch ++ leBytes 4 (s.rd F.BIL_BCLK_SEC)
  let full := (s.thm.journal.filter fun x => x.1 = num % 256).length ≠ 0
  let s := s.modThm fun t => { t with
    jnum := (num + 1) % 65536, journal := put (fun _ => []) t.journal (num % 256) (bytes ++ leBytes 4 (crc32 bytes)) }
  s.when full fun s => s.count F.THM_TMP_STAT_WRAPS 1

/-- A committed change of THM_TMP_CFG is journalled (R165). -/
def State.tamperCfgChange (s : State) : State := s.tamperEntry 8 false (!s.boot.vddCore)

/-- TAMPER_EVENT (R164): the confirmed change of input `i`. -/
def State.tamperEvent (s : State) (i : Nat) (active : Bool) : State :=
  let s := (s.wrBit F.THM_TMP_STAT_ACTIVE i active).tamperEntry i active (!s.boot.vddCore)
  (s.stickyBit F.THM_TMP_STAT_EVENT i).setJournal (⟨s.epoch, 0x100 + i, .wall s.wallSec s.wallMs, b2n active, 0, none⟩ :: s.journal)

/-- Sample the enabled inputs: a change of state is confirmed by two samples (R163). Answers the inputs newly active. -/
def State.tamperSample (s : State) (pins : BitVec 8) : List Nat × State :=
  let act := BitVec.ofNat 8 (s.rd F.THM_TMP_CFG_EN) &&& (pins ^^^ ~~~(BitVec.ofNat 8 (s.rd F.THM_TMP_CFG_POL)))
  let was := BitVec.ofNat 8 (s.rd F.THM_TMP_STAT_ACTIVE)
  let old := s.thm.lastSample
  let hits := (List.range 8).filter fun i => s.rdBit F.THM_TMP_CFG_EN i && act.getLsbD i ≠ was.getLsbD i && old.getLsbD i = act.getLsbD i
  let s := s.each hits fun s i => s.tamperEvent i (act.getLsbD i)
  (hits.filter fun i => act.getLsbD i, s.modThm fun t => { t with lastSample := act })

/-- The journal word at the read pointer (R164). -/
def State.journalWord (s : State) : Word :=
  let slot := s.rd F.THM_JRD_SLOT
  let e := if s.on F.THM_JRD_JNL then (if slot < 64 then lk (fun _ => []) s.thm.clockLog slot else []) else lk (fun _ => []) s.thm.journal slot
  BitVec.ofNat 32 (leAt e (4 * s.rd F.THM_JRD_WORD) 4)

/-- Each read advances WORD, then SLOT. -/
def State.journalAdvance (s : State) : State :=
  if s.rd F.THM_JRD_WORD = 7 then (s.wr F.THM_JRD_WORD 0).countWrap F.THM_JRD_SLOT else s.countWrap F.THM_JRD_WORD

/-- JOURNAL_DATA_READ (R164). -/
def execJournalDataRead (s : State) : Host.Outcome State Fault Refusal :=
  .next ((s.modBus fun b => { b with readData := [s.journalWord] }).journalAdvance)

end Sys2Proof.Machine
end

