-- ==== Sys2Proof/Machine/Crypto.lean ====
section
/-!
DEFINITION. Elliptic curves over a prime field (R365; FIPS 186 with the curves of SP 800-186): ECDSA signatures made and verified,
ECDH. Points are held in Jacobian coordinates: (X, Y, Z) stands for the point (X/Z², Y/Z³), and Z = 0 for the point at infinity.
-/

namespace Sys2Proof.Machine

open Sys2Proof

/-- A curve y² = x³ − 3x + b over the field of prime `p`, with a base point of prime order `n`; numbers take `len` bytes. -/
structure Curve where
  p : Nat
  n : Nat
  b : Nat
  gx : Nat
  gy : Nat
  len : Nat

/-- P-256. -/
def p256 : Curve where
  p := 2 ^ 256 - 2 ^ 224 + 2 ^ 192 + 2 ^ 96 - 1
  n := 0xFFFFFFFF00000000FFFFFFFFFFFFFFFFBCE6FAADA7179E84F3B9CAC2FC632551
  b := 0x5AC635D8AA3A93E7B3EBBD55769886BC651D06B0CC53B0F63BCE3C3E27D2604B
  gx := 0x6B17D1F2E12C4247F8BCE6E563A440F277037D812DEB33A0F4A13945D898C296
  gy := 0x4FE342E2FE1A7F9B8EE7EB4A7C0F9E162BCE33576B315ECECBB6406837BF51F5
  len := 32

/-- P-384. -/
def p384 : Curve where
  p := 2 ^ 384 - 2 ^ 128 - 2 ^ 96 + 2 ^ 32 - 1
  n := 0xffffffffffffffffffffffffffffffffffffffffffffffffc7634d81f4372ddf581a0db248b0a77aecec196accc52973
  b := 0xb3312fa7e23ee7e4988e056be3f82d19181d9c6efe8141120314088f5013875ac656398d8a2ed19d2a85c8edd3ec2aef
  gx := 0xaa87ca22be8b05378eb1c71ef320ad746e1d3b628ba79b9859f741e082542a385502f25dbf55296c3a545e3872760ab7
  gy := 0x3617de4a96262c6f5d9e98bf9292dc29f8f41dbd289a147ce9da3113b5f0b8c00a60b1ce1d7e819d7a431d7c90ea0e5f
  len := 48

/-- P-521. -/
def p521 : Curve where
  p := 2 ^ 521 - 1
  n := 0x1FFFFFFFFFFFFFFFFFFFFFFFFFFFFFFFFFFFFFFFFFFFFFFFFFFFFFFFFFFFFFFFFFFFA51868783BF2F966B7FCC0148F709A5D03BB5C9B8899C47AEBB6FB71E91386409
  b := 0x51953EB9618E1C9A1F929A21A0B68540EEA2DA725B99B315F3B8B489918EF109E156193951EC7E937B1652C0BD3BB1BF073573DF883D2C34F1EF451FD46B503F00
  gx := 0xC6858E06B70404E9CD9E3ECB662395B4429C648139053FB521F828AF606B4D3DBAA14B5E77EFE75928FE1DC127A2FFA8DE3348B3C1856A429BF97E7E31C2E5BD66
  gy := 0x11839296A789A3BC0045C8A5FB42C7D1BD998F54449579B446817AFBD17273E662C97EE72995EF42640C550B9013FAD0761353C7086A272C24088BE94769FD16650
  len := 66

/-- A point in Jacobian coordinates. -/
structure EcPoint where
  x : Nat
  y : Nat
  z : Nat
  deriving DecidableEq, Repr

/-- `k` of a number worked out first. -/
def worked {α : Type} (n : Nat) (k : Nat → α) : α :=
  match n with
  | 0 => k 0
  | m + 1 => k (m + 1)

/-- A product, and a difference, in the field. -/
def Curve.mul (c : Curve) (a b : Nat) : Nat := a * b % c.p

def Curve.sub (c : Curve) (a b : Nat) : Nat := (a + c.p - b) % c.p

/-- A point of coordinates worked out first. -/
def ecPoint (x y z : Nat) : EcPoint := worked x fun x => worked y fun y => worked z fun z => ⟨x, y, z⟩

/-- Twice a point: with a = −3 the slope is 3(X − Z²)(X + Z²)/(2YZ). -/
def Curve.double (c : Curve) (p : EcPoint) : EcPoint :=
  worked (c.mul p.z p.z) fun zz =>
  worked (c.mul p.y p.y) fun yy =>
  worked (c.mul (4 * p.x) yy) fun b =>
  worked (c.mul (3 * c.sub p.x zz) (p.x + zz)) fun m =>
  worked (c.sub (c.mul m m) (2 * b % c.p)) fun x =>
  ecPoint x (c.sub (c.mul m (c.sub b x)) (8 * c.mul yy yy % c.p)) (c.mul (2 * p.y) p.z)

/-- The sum of two points. -/
def Curve.add (c : Curve) (p q : EcPoint) : EcPoint :=
  if p.z = 0 then q
  else if q.z = 0 then p
  else
    worked (c.mul p.z p.z) fun pz =>
    worked (c.mul q.z q.z) fun qz =>
    worked (c.mul p.x qz) fun u =>
    worked (c.mul (c.mul p.y q.z) qz) fun v =>
    worked (c.sub (c.mul q.x pz) u) fun h =>
    worked (c.sub (c.mul (c.mul q.y p.z) pz) v) fun r =>
    if h = 0 then (if r = 0 then c.double p else ⟨1, 1, 0⟩)
    else
      worked (c.mul h h) fun hh =>
      worked (c.mul h hh) fun hhh =>
      worked (c.mul u hh) fun w =>
      worked (c.sub (c.mul r r) ((hhh + 2 * w) % c.p)) fun x =>
      ecPoint x (c.sub (c.mul r (c.sub w x)) (c.mul v hhh)) (c.mul (c.mul p.z q.z) h)

/-- The sum of `u` times `p` and `v` times `q`, from bit `n - 1` of the factors down, on top of `acc`; `pq` is p + q. -/
def Curve.sum (c : Curve) (u v : Nat) (p q pq : EcPoint) : Nat → EcPoint → EcPoint
  | 0, acc => acc
  | n + 1, acc =>
    let d := c.double acc
    match bitOf u n, bitOf v n with
    | false, false => c.sum u v p q pq n d
    | true, false => c.sum u v p q pq n (c.add d p)
    | false, true => c.sum u v p q pq n (c.add d q)
    | true, true => c.sum u v p q pq n (c.add d pq)

/-- A power modulo `m`, by the low `n` bits of the exponent, highest first. -/
def powMod (m b e : Nat) : Nat → Nat → Nat
  | 0, acc => acc
  | n + 1, acc => worked (acc * acc % m * (if bitOf e n then b else 1) % m) fun a => powMod m b e n a

/-- The inverse modulo a prime of at most eight times `len` bits. -/
def Curve.inverse (c : Curve) (m a : Nat) : Nat := powMod m (a % m) (m - 2) (8 * c.len) 1

/-- The base point. -/
def Curve.base (c : Curve) : EcPoint := ⟨c.gx, c.gy, 1⟩

/-- `k` times a point, in plain coordinates; (0, 0) stands for the point at infinity. -/
def Curve.times (c : Curve) (k : Nat) (p : EcPoint) : Nat × Nat :=
  let t := c.sum k 0 p ⟨1, 1, 0⟩ p (8 * c.len) ⟨1, 1, 0⟩
  let w := c.inverse c.p t.z
  (c.mul t.x (c.mul w w), c.mul t.y (c.mul w (c.mul w w)))

/-- Is (x, y) a point of the curve? -/
def Curve.has (c : Curve) (x y : Nat) : Bool :=
  x < c.p && y < c.p && c.mul y y = (c.mul (c.mul x x) x + 3 * (c.p - x) + c.b) % c.p

/-- Does the signature (r, s) verify over a digest under the public key (x, y)? The key must be a point of the curve. -/
def Curve.verify (c : Curve) (x y : Nat) (digest : List Byte) (r s : Nat) : Bool :=
  let n := c.n
  if !c.has x y || r = 0 || n ≤ r || s = 0 || n ≤ s then false
  else
    let w := c.inverse n s
    let q : EcPoint := ⟨x, y, 1⟩
    let t := c.sum (beNat (digest.take c.len) * w % n) (r * w % n) c.base q (c.add c.base q) (8 * c.len) ⟨1, 1, 0⟩
    let zz := c.mul t.z t.z
    t.z ≠ 0 && (t.x = c.mul r zz || (r + n < c.p && t.x = c.mul (r + n) zz))

/-- Verification under a P-384 key (R82, R373). -/
def p384Verify (key : P384Key) (digest : List Byte) (r s : Nat) : Bool := p384.verify key.x.toNat key.y.toNat digest r s

/-- Public key of a private key: x then y. -/
def Curve.publicKey (c : Curve) (d : Nat) : List Byte :=
  let q := c.times d c.base
  beBytes c.len q.1 ++ beBytes c.len q.2

/-- A private key from bytes eight longer than the order (R359). -/
def Curve.privateKey (c : Curve) (okm : List Byte) : Nat := beNat okm % (c.n - 1) + 1

/-- The nonces RFC 6979 tries in turn, from its state `k` and `v`: the signature (r, s) of the first that gives one. -/
def signGo (c : Curve) (d e : Nat) : Nat → List Byte → List Byte → List Byte
  | 0, _, _ => []
  | fuel + 1, k, v =>
    let v := hmac256 k v
    let x := beNat v
    let r := (c.times x c.base).1 % c.n
    let s := c.inverse c.n x * (e + r * d) % c.n
    if x = 0 || c.n ≤ x || r = 0 || s = 0 then
      let k := hmac256 k (v ++ [0])
      signGo c d e fuel k (hmac256 k v)
    else beBytes 32 r ++ beBytes 32 s

/-- An ECDSA signature on P-256 over a 32-byte digest, with the nonce of RFC 6979 (R162, R357): r then s. -/
def p256Sign (d : Nat) (digest : List Byte) : List Byte :=
  let e := beNat digest
  let x := beBytes 32 d ++ beBytes 32 (e % p256.n)
  let v := List.replicate 32 (1 : Byte)
  let k := hmac256 (List.replicate 32 0) (v ++ [0] ++ x)
  let v := hmac256 k v
  let k := hmac256 k (v ++ [1] ++ x)
  signGo p256 d e 64 k (hmac256 k v)

end Sys2Proof.Machine
end

