-- ==== Sys2Proof/Machine/Cipher.lean ====
section
/-!
DEFINITION. AES-256 (FIPS 197) with counter mode and GCM (SP 800-38A and 38D), and the CTR_DRBG of R357 (SP 800-90A) on it (R365).
Blocks and keys are lists of bytes, as numbers.
-/

namespace Sys2Proof.Machine

open Sys2Proof

/-! ## The block cipher -/

/-- The substitution box, entry x in bits 8x + 7 to 8x. -/
def aesBox : Nat :=
  0x16bb54b00f2d99416842e6bf0d89a18cdf2855cee9871e9b948ed9691198f8e19e1dc186b95735610ef6034866b53e708a8bbd4b1f74dde8c6b4a61c2e2578ba08ae7a65eaf4566ca94ed58d6d37c8e779e4959162acd3c25c2406490a3a32e0db0b5ede14b8ee4688902a22dc4f816073195d643d7ea7c41744975fec130ccdd2f3ff1021dab6bcf5389d928f40a351a89f3c507f02f94585334d43fbaaefd0cf584c4a39becb6a5bb1fc20ed00d153842fe329b3d63b52a05a6e1b1a2c830975b227ebe28012079a059618c323c7041531d871f1e5a534ccf73f362693fdb7c072a49cafa2d4adf04759fa7dc982ca76abd7fe2b670130c56f6bf27b777c63

def aesSub (x : Nat) : Nat := aesBox >>> (8 * x) % 256

/-- Twice a byte in the field of AES. -/
def aesTwice (x : Nat) : Nat := if x < 128 then 2 * x else 2 * x ^^^ 0x11B

/-- A list of numbers worked out first. -/
def workedList {α : Type} : List Nat → (List Nat → α) → α
  | [], k => k []
  | x :: xs, k => worked x fun x => workedList xs fun xs => k (x :: xs)

def xorBytes (a b : List Nat) : List Nat := List.zipWith (· ^^^ ·) a b

/-- The key words from word `i` on, `k` of them; `ws` holds the words so far, newest first. -/
def aesExpand : Nat → Nat → List (List Nat) → List (List Nat)
  | 0, _, ws => ws.reverse
  | k + 1, i, ws =>
    let t := ws.headD []
    let t :=
      if i % 8 = 0 then xorBytes ((t.drop 1 ++ t.take 1).map aesSub) [2 ^ (i / 8 - 1), 0, 0, 0]
      else if i % 8 = 4 then t.map aesSub else t
    workedList (xorBytes (ws.getD 7 []) t) fun w => aesExpand k (i + 1) (w :: ws)

/-- A list cut into pieces of `k`, at most `n` of them. -/
def pieces {α : Type} (k : Nat) : Nat → List α → List (List α)
  | 0, _ => []
  | n + 1, xs => if xs.isEmpty then [] else xs.take k :: pieces k n (xs.drop k)

/-- The fifteen round keys of a 32-byte key. -/
def aesKeys (key : List Nat) : List (List Nat) :=
  pieces 16 15 (aesExpand 52 8 (pieces 4 8 key).reverse).flatten

/-- A column mixed: each byte with the sum of all and twice the sum of itself and the next. -/
def aesMix (c : List Nat) : List Nat :=
  let t := c.foldl (· ^^^ ·) 0
  List.zipWith (fun a b => a ^^^ t ^^^ aesTwice (a ^^^ b)) c (c.drop 1 ++ c.take 1)

/-- The rounds of a block, one per key; the last has no mixing. -/
def aesRounds : List (List Nat) → List Nat → List Nat
  | [], b => b
  | k :: ks, b =>
    workedList ((List.range 16).map fun i => aesSub (b.getD (5 * i % 16) 0)) fun b =>
    let m := if ks.isEmpty then b else ((pieces 4 4 b).map aesMix).flatten
    workedList (xorBytes m k) fun b => aesRounds ks b

/-- A block under expanded keys. -/
def aesBlock (keys : List (List Nat)) (b : List Nat) : List Nat :=
  aesRounds (keys.drop 1) (xorBytes b (keys.headD []))

/-! ## Counter mode -/

/-- `n` blocks of key stream over the counter blocks from `v` on. -/
def ctrBlocks (keys : List (List Nat)) (v : Nat) : Nat → List Nat
  | 0 => []
  | n + 1 => aesBlock keys ((beBytes 16 v).map (·.toNat)) ++ ctrBlocks keys (v + 1) n

/-- A text of whole bytes under a key of 32 bytes, from the counter block `v` on: sealing and opening are the same. -/
def aesCtr (key : List Byte) (v : Nat) (text : List Byte) : List Byte :=
  let ks := ctrBlocks (aesKeys (key.map (·.toNat))) v ((text.length + 15) / 16)
  List.zipWith (fun a k => a ^^^ BitVec.ofNat 8 k) text ks

/-! ## GCM with a 96-bit nonce -/

/-- Product in GCM's field, whose bit 127 is the lowest power: `v` is the factor moved on, bits of `x` from `n - 1` down. -/
def ghashMul (x : Nat) : Nat → Nat → Nat → Nat
  | 0, _, z => z
  | n + 1, v, z =>
    worked (if bitOf x n then z ^^^ v else z) fun z =>
    worked (if v % 2 = 1 then v / 2 ^^^ 0xE1 * 2 ^ 120 else v / 2) fun v => ghashMul x n v z

/-- The hash of GCM over blocks of numbers. -/
def ghash (h : Nat) (xs : List Nat) : Nat := xs.foldl (fun y x => worked (y ^^^ x) fun a => ghashMul a 128 h 0) 0

/-- Bytes as 128-bit blocks, zero-filled. -/
def gcmBlocks (bs : List Byte) : List Nat := (pieces 16 bs.length bs).map fun p => beNat (padTo 16 p)

/-- The tag over associated data and cipher text. -/
def gcmTag (key nonce aad ct : List Byte) : List Byte :=
  let h := beNat (aesCtr key 0 (List.replicate 16 0))
  let g := ghash h (gcmBlocks aad ++ gcmBlocks ct ++ [8 * aad.length * 2 ^ 64 + 8 * ct.length])
  aesCtr key (beNat nonce * 2 ^ 32 + 1) (beBytes 16 g)

/-- AES-256-GCM opened: none where the tag does not match. -/
def gcmOpen (key nonce aad ct tag : List Byte) : Option (List Byte) :=
  if gcmTag key nonce aad ct = tag then some (aesCtr key (beNat nonce * 2 ^ 32 + 2) ct) else none

/-! ## The DRBG (R357): a key and a counter block, 48 bytes -/

/-- The next 48 bytes of state after `d` is taken in. -/
def drbgUpdate (st d : List Byte) : List Byte :=
  aesCtr (st.take 32) ((beNat (st.drop 32) + 1) % 2 ^ 128) (padTo 48 d)

/-- `k` bytes of output, and the state after them. -/
def drbgDraw (st : List Byte) (k : Nat) : List Byte × List Byte :=
  let n := (k + 15) / 16
  let v := beNat (st.drop 32)
  ((aesCtr (st.take 32) ((v + 1) % 2 ^ 128) (List.replicate (16 * n) 0)).take k,
    drbgUpdate (st.take 32 ++ beBytes 16 (v + n)) [])

end Sys2Proof.Machine
end

