-- ==== Sys2Proof/Machine/Keys.lean ====
section
/-!
DEFINITION. Keys and sealed data (spec/17): the root secret and derivation, the DRBG, the key slots and their commands,
zeroise, re-sealing; the session signature and the tamper sample, which use them.
-/

namespace Sys2Proof.Machine

open Sys2Proof

def State.modKey (s : State) (f : KeyState → KeyState) : State := s.setKey (f s.key)

/-! ## Derivation and random numbers (R356 to R359) -/

/-- HKDF-SHA-256 for `k` blocks of output (RFC 5869): pseudo-random key, info, block before, block number. -/
def hkdfGo (prk info : List Byte) : Nat → List Byte → Nat → List Byte
  | 0, _, _ => []
  | k + 1, t, i =>
    let t := hmac256 prk (t ++ info ++ leBytes 1 i)
    t ++ hkdfGo prk info k t (i + 1)

/-- `len` bytes of HKDF output. -/
def hkdfLen (salt ikm info : List Byte) (len : Nat) : List Byte := (hkdfGo (hmac256 salt ikm) info ((len + 31) / 32) [] 1).take len

/-- ASCII text as bytes. -/
def asciiBytes (t : String) : List Byte := t.toList.map fun c => BitVec.ofNat 8 c.toNat

/-- Mb of binding level `b`, as a number: 0 for level 0 (R358, R359). -/
def State.meas (s : State) (b : Nat) : Nat := if b = 0 then 0 else s.rd (F.KEY_MEASj_M (b - 1))

/-- z of R359. -/
def State.zOf (s : State) (b : Nat) : Nat := if b = 0 then 0 else s.rd F.KEY_ZST_ZCNT

/-- A derived key of R359 under measurement `m`. -/
def State.deriveAt (s : State) (m : Nat) (label : String) (ctx : List Byte) (b len : Nat) : List Byte :=
  hkdfLen (leBytes 32 m) s.key.root
    (padTo 24 (asciiBytes label) ++ padTo 32 ctx ++ leBytes 1 b ++ leBytes 4 (s.zOf b) ++ leBytes 2 len) len

/-- A derived key under the measurement in force. -/
def State.derive (s : State) (label : String) (ctx : List Byte) (b len : Nat) : List Byte := s.deriveAt (s.meas b) label ctx b len

/-- The session signing key of R366: level 0, label BILL-SIGN, context KGEN. -/
def State.billKey (s : State) : Nat := p256.privateKey (s.derive "BILL-SIGN" (leBytes 2 (s.rd F.KEY_KGEN_KGEN)) 0 40)

/-- Draw `k` bytes from the DRBG (R357). -/
def State.random (s : State) (k : Nat) : List Byte × State :=
  let (bs, st) := drbgDraw s.key.drbg k
  (bs, s.modKey fun x => { x with drbg := st, reqs := x.reqs + 1 })

/-- Seed the DRBG from 48 bytes of entropy: at a start from nothing, later on top of its state. -/
def State.seedDrbg (s : State) (entropy : List Byte) : State := s.modKey fun x => { x with drbg := drbgUpdate (padTo 48 x.drbg) entropy, reqs := 0 }

/-- DRBG_RESEED (R357): from the entropy source, after 2^20 requests. -/
def execDrbgReseed (entropy : List Byte) (s : State) : Host.Outcome State Fault Refusal :=
  .next <| if 0x100000 ≤ s.key.reqs then s.seedDrbg entropy else s

/-- ROOT_SECRET_CREATE (R356): the samples, which passed their health tests, conditioned with SHA-256. An existing root is
kept. -/
def State.createRoot (s : State) (samples : List Byte) : State :=
  if s.key.root = [] then
    let s := (s.modKey fun x => { x with root := sha256 samples }).wrB F.KEY_STAT_BORN true
    s.wr F.KEY_ROOTID_ID (leNat (s.derive "ROOTID" [] 0 4))
  else s

/-! ## Slots (R361, R362) -/

/-- All slots. -/
def slotsAll : List Nat := List.range 64

/-- A copy that no write has filled since manufacture or a zeroise. -/
def emptyCopy : List Byte := List.replicate 96 0

/-- Copy `c` of slot `n`. -/
def State.slotCopy (s : State) (n c : Nat) : List Byte := lk (fun _ => emptyCopy) s.key.copies (2 * n + c)

/-- Which copy of slot `n` is in force. -/
def State.slotSel (s : State) (n : Nat) : Nat := b2n (s.rdBit F.KEY_SEL_NOW n)

/-- The copy in force. -/
def State.slot (s : State) (n : Nat) : List Byte := s.slotCopy n (s.slotSel n)

/-- TYPE, USE, BIND and GEN of a copy (R361). -/
def copyTyp (k : List Byte) : Nat := leAt k 0 1
def copyUse (k : List Byte) : Nat := leAt k 1 1
def copyBind (k : List Byte) : Nat := leAt k 2 1
def copyGen (k : List Byte) : Nat := leAt k 4 4

/-- The tag over slot `n` and the first 0x50 bytes of a copy. -/
def State.copyTag (s : State) (n : Nat) (k : List Byte) : List Byte :=
  (hmac256 (s.derive "SLOT-TAG" [] 0 32) (leBytes 1 n ++ k.take 0x50)).take 16

/-- The sealing key of slot `n` at GEN `gen`, level `b` and measurement `m`. -/
def State.sealKey (s : State) (m n b gen : Nat) : List Byte := s.deriveAt m "SLOT-SEAL" (leBytes 1 n ++ leBytes 4 gen) b 32

/-- A body under a sealing key; sealing and opening are the same. -/
def sealBody (key : List Byte) (n gen : Nat) (body : List Byte) : List Byte :=
  aesCtr key (beNat (leBytes 1 n ++ leBytes 4 gen ++ List.replicate 11 0)) body

/-- The plain text of a copy of slot `n`. -/
def State.openCopy (s : State) (n : Nat) (k : List Byte) : List Byte :=
  let b := copyBind k
  sealBody (s.sealKey (s.meas b) n b (copyGen k)) n (copyGen k) (slice k 0x10 64)

/-- A key that a slot is to hold: header fields and 64 bytes of plain text. -/
structure SlotKey where
  typ : Nat := 0
  use : Nat := 0
  bind : Nat := 0
  body : List Byte := []

/-- The copy of slot `n` that holds a key at GEN `gen`, sealed under measurement `m` (R361). -/
def State.makeCopy (s : State) (m n gen : Nat) (x : SlotKey) : List Byte :=
  let key := s.sealKey m n x.bind gen
  let text := padTo 64 x.body
  let k := leBytes 1 x.typ ++ leBytes 1 x.use ++ leBytes 1 x.bind ++ [0] ++ leBytes 4 gen ++ (hmac256 key text).take 8 ++ sealBody key n gen text
  k ++ s.copyTag n k

/-- KEY_SLOTn.STATE: empty, good, BADTAG, ELSEWHERE; the seals are matched once the measurements are made (R362). A copy of zeros is
what a zeroise leaves, and empty (R370). -/
def State.slotState (s : State) (n : Nat) : Nat :=
  let k := s.slot n
  if k = emptyCopy then 0
  else if s.copyTag n k ≠ slice k 0x50 16 then 2
  else if copyTyp k = 0 then 0
  else if s.key.measured && (hmac256 (s.sealKey (s.meas (copyBind k)) n (copyBind k) (copyGen k)) (s.openCopy n k)).take 8 ≠ slice k 8 8 then 3
  else 1

/-- Show a slot's attributes. -/
def State.showSlot (s : State) (n : Nat) : State :=
  let k := s.slot n
  let s := ((s.wr (F.KEY_SLOTn_STATE n) (s.slotState n)).wr (F.KEY_SLOTn_TYPE n) (copyTyp k)).wr (F.KEY_SLOTn_BIND n) (copyBind k)
  (s.wr (F.KEY_SLOTn_USE n) (copyUse k)).wr (F.KEY_SLOTn_GEN n) (copyGen k)

def State.showSlots (s : State) : State := s.each slotsAll State.showSlot

/-- Slot `n` is judged again: where its tag fails it becomes BADTAG, with source 0x90 (R362, R370). -/
def State.judgeSlot (s : State) (n : Nat) : State :=
  let was := s.rd (F.KEY_SLOTn_STATE n)
  let s := s.showSlot n
  if s.rd (F.KEY_SLOTn_STATE n) = 2 && was ≠ 2 then (s.sticky F.KEY_STAT_BADTAG).raiseDev 0x90 1 else s

/-- The check of stage 0x1 (R362). -/
def State.checkTags (s : State) : State := s.each slotsAll State.judgeSlot

/-- The cause of 0x90 ends with the last BADTAG slot. -/
def State.tagsEnd (s : State) : State :=
  s.when (s.causeIs 0x90 && !(slotsAll.any fun n => s.rd (F.KEY_SLOTn_STATE n) = 2)) fun s => s.causeOff 0x90 none

/-- GEN of the next write of slot `n`: past both its copies, so that none comes back (R361, R363). -/
def State.nextGen (s : State) (n : Nat) : Nat := (max (copyGen (s.slotCopy n 0)) (copyGen (s.slotCopy n 1)) + 1) % 2 ^ 32

/-- Write the copy of slot `n` that is not in force, sealed under measurement `m` (R363, R369). -/
def State.fillOther (s : State) (m n : Nat) (x : SlotKey) : State :=
  let k := s.makeCopy m n (s.nextGen n) x
  s.modKey fun y => { y with copies := put (fun _ => emptyCopy) y.copies (2 * n + (1 - s.slotSel n)) k }

/-- A slot write: the other copy is filled, and then the select word rewritten for all the slots written. -/
def State.writeSlots (s : State) (ws : List (Nat × SlotKey)) : State :=
  let s := ws.foldl (fun s w => s.fillOther (s.meas w.2.bind) w.1 w.2) s
  let s := ws.foldl (fun s w => s.wrBit F.KEY_SEL_NOW w.1 (s.slotSel w.1 = 0)) s
  (s.each (ws.map (·.1)) State.showSlot).tagsEnd

/-! ## Commands (R363, R367 to R370) -/

/-- End a command with its code. -/
def State.keyErr (s : State) (e : Nat) : State :=
  ((s.modKey fun x => { x with run := none }).wr F.KEY_STAT_ERR e).wrB F.KEY_STAT_BUSY false

/-- Are slot writes held by a re-seal (R369)? -/
def State.sealHeld (s : State) : Bool := s.on F.KEY_RESEAL_DONE || s.on F.KEY_RESEAL_FALLBACK

/-- The slots a write of a key of type `typ` at `slot` covers: two for a P-521 key; none where they do not exist. -/
def slotsFor (typ slot : Nat) : List Nat :=
  if typ = 5 then (if slot < 63 then [slot, slot + 1] else [])
  else if typ = 6 then [] else if slot < 64 then [slot] else []

/-- The slots an ERASE covers: both halves of a P-521 pair. -/
def State.eraseSlots (s : State) (slot : Nat) : List Nat :=
  if 64 ≤ slot then []
  else if copyTyp (s.slot slot) = 5 && slot < 63 then [slot, slot + 1]
  else if copyTyp (s.slot slot) = 6 && 0 < slot then [slot - 1, slot] else [slot]

/-- Show a public key in KEY_PUB. -/
def State.showPub (s : State) (bs : List Byte) : State :=
  (s.wr F.KEY_PUB_LEN bs.length).wr F.KEY_PUB_KEY (leNat (padTo 132 bs))

/-- Is a slot usable: good, and a first half with the second half that belongs to it (R361, R362)? -/
def State.slotUsable (s : State) (n : Nat) : Bool :=
  let k := s.slot n
  let t := s.slot (n + 1)
  s.slotState n = 1 &&
    (copyTyp k ≠ 5 || (n < 63 && s.slotState (n + 1) = 1 && copyTyp t = 6 && copyBind t = copyBind k && copyUse t = copyUse k))

/-- The plain text of a slot's key: both halves of a P-521 pair. -/
def State.keyBody (s : State) (n : Nat) : List Byte :=
  let k := s.slot n
  s.openCopy n k ++ (if copyTyp k = 5 then s.openCopy (n + 1) (s.slot (n + 1)) else [])

/-- The curve of a key type. -/
def typeCurve (typ : Nat) : Option Curve :=
  match typ with | 3 => some p256 | 4 => some p384 | 5 => some p521 | _ => none

/-- The public part of a key; an AES key and an HMAC secret have none (R361, R363). -/
def publicPart (typ : Nat) (body : List Byte) : Option (List Byte) :=
  match typeCurve typ with
  | some c => some (c.publicKey (beNat (body.take c.len)))
  | none => if typ = 7 then some (padTo 57 (Config.ed448Public (body.take 57))) else none

/-- PUB (R363). A tag that fails at use makes the slot BADTAG (R370). -/
def State.keyPub (s : State) (slot : Nat) : State :=
  if slot = 0x7F then (s.showPub (p256.publicKey s.billKey)).keyErr 0
  else if 64 ≤ slot then s.keyErr 1
  else if !s.slotUsable slot then (s.judgeSlot slot).keyErr 2
  else if !bitOf (copyUse (s.slot slot)) 5 then s.keyErr 1
  else match publicPart (copyTyp (s.slot slot)) (s.keyBody slot) with
    | some bs => (s.showPub bs).keyErr 0
    | none => s.keyErr 1

/-- NEWBILL (R367): refused while a session is open, or a close of this frame waits to be signed (R370). -/
def State.keyNewBill (s : State) : State :=
  if s.openSessions.isEmpty && s.bil.closes.isEmpty && s.bil.signing.isEmpty then
    (s.wr F.KEY_KGEN_KGEN ((s.rd F.KEY_KGEN_KGEN + 1) % 65536)).keyErr 0
  else s.keyErr 1

/-- The new measurements are in place (R368). -/
def State.newMeas (s : State) : Bool := [0, 1, 2].any fun j => s.on (F.KEY_NMEASj_M j)

/-- The slots RESEAL covers: good ones whose binding measurement differs (R368, R369). -/
def State.resealSlots (s : State) : List Nat :=
  slotsAll.filter fun n =>
    let b := copyBind (s.slot n)
    s.slotState n = 1 && b ≠ 0 && s.rd (F.KEY_NMEASj_M (b - 1)) ≠ s.meas b

/-- A command runs until KEY_COMMAND_DONE. -/
def State.keyRun (s : State) (r : KeyRun) : State := (s.modKey fun x => { x with run := some r }).wrB F.KEY_STAT_BUSY true

/-- GO (R363, R371): the operation and arguments stand in KEY_CMD; ignored while BUSY. PUB and NEWBILL end at once, and so
does a command that is refused. -/
def State.keyGo (s : State) : State :=
  if s.on F.KEY_STAT_BUSY then s
  else
    let op := s.rd F.KEY_CMD_OP
    let r : KeyRun := { op := op, slot := s.rd F.KEY_CMD_SLOT, typ := s.rd F.KEY_CMD_TYPE, use := s.rd F.KEY_CMD_USE, bind := s.rd F.KEY_CMD_BIND }
    match op with
    | 1 => if s.sealHeld then s.keyErr 3 else if (slotsFor r.typ r.slot).isEmpty then s.keyErr 1 else s.keyRun r
    | 2 =>
      if s.sealHeld then s.keyErr 3 else if (slotsFor r.typ r.slot).isEmpty then s.keyErr 1
      else s.keyRun { r with blob := s.memRead (s.rd F.KEY_ADDR_ADDR / 4 * 4) (if r.typ = 5 then 253 else 189) }
    | 3 => if s.sealHeld then s.keyErr 3 else if (s.eraseSlots r.slot).isEmpty then s.keyErr 1 else s.keyRun r
    | 4 => s.keyPub r.slot
    | 5 => s.keyNewBill
    | 6 => if s.sealHeld then s.keyErr 3 else if !s.newMeas then s.keyErr 5 else s.keyRun r
    | _ => s.keyErr 1

/-- Keys of a write: one body, or the halves of a P-521 pair. -/
def keyHalves (r : KeyRun) (body : List Byte) : List (Nat × SlotKey) :=
  match slotsFor r.typ r.slot with
  | [a, b] =>
    [(a, { typ := 5, use := r.use, bind := r.bind, body := body.take 64 }), (b, { typ := 6, use := r.use, bind := r.bind, body := body.drop 64 })]
  | xs => xs.map fun a => (a, { typ := r.typ, use := r.use, bind := r.bind, body := body })

/-- Random bytes a key of a type is made from: for a curve eight more than its order has (R359; log entry 48). -/
def keyBytes (typ : Nat) : Nat :=
  match typeCurve typ with
  | some c => c.len + 8
  | none => if typ = 1 then 32 else if typ = 7 then 57 else 64

/-- The plain text of a generated key. -/
def keyText (typ : Nat) (bs : List Byte) : List Byte :=
  match typeCurve typ with
  | some c => beBytes c.len (c.privateKey bs)
  | none => bs

/-- What an IMPORT blob decrypts to, for the target header's first four bytes (R363); none where the sender's point is none of P-384's
or the tag fails. -/
def State.importBlob (s : State) (hdr blob : List Byte) : Option (List Byte) :=
  let x := beNat (slice blob 1 48)
  let y := beNat (slice blob 49 48)
  if leAt blob 0 1 ≠ 4 || !p384.has x y then none
  else
    let z := p384.times (p384.privateKey (s.derive "IMPORT" [] 0 56)) ⟨x, y, 1⟩
    gcmOpen (padTo 32 (Config.ecdhKey (beBytes 48 z.1))) (slice blob 97 12) hdr (slice blob 109 (blob.length - 125)) (blob.drop (blob.length - 16))

/-- RESEAL ends (R369): the copies not in force are written, the select word that would choose them is pending. -/
def State.resealEnd (s : State) : State :=
  let xs := s.resealSlots
  let word := xs.foldl (fun w n => setBits w n n (1 - s.slotSel n)) (s.rd F.KEY_SEL_NOW)
  let s := xs.foldl (fun s n =>
    let k := s.slot n
    s.fillOther (s.rd (F.KEY_NMEASj_M (copyBind k - 1))) n ⟨copyTyp k, copyUse k, copyBind k, s.openCopy n k⟩) s
  (((s.wr F.KEY_SEL_PEND word).wrB F.KEY_RESEAL_DONE true).wr F.KEY_RESEAL_COUNT xs.length).keyErr 0

/-- KEY_COMMAND_DONE (R363, R369): the running command completes. -/
def State.keyDone (s : State) : State :=
  match s.key.run with
  | none => s
  | some r =>
    match r.op with
    | 1 =>
      let (bs, s) := s.random (keyBytes r.typ)
      let body := keyText r.typ bs
      let s := s.writeSlots (keyHalves r body)
      (match publicPart r.typ body with | some p => s.showPub p | none => s).keyErr 0
    | 2 =>
      match s.importBlob (leBytes 1 r.typ ++ leBytes 1 r.use ++ leBytes 1 r.bind ++ [0]) r.blob with
      | some body => (s.writeSlots (keyHalves r body)).keyErr 0
      | none => s.keyErr 2
    | 3 => (s.writeSlots ((s.eraseSlots r.slot).map fun n => (n, {}))).keyErr 0
    | 6 => s.resealEnd
    | _ => s.keyErr 0

def execKeyCommandDone (s : State) : Host.Outcome State Fault Refusal := .next s.keyDone

/-- A write of KEY_CMD with GO: a TYPE or SLOT outside its stated range makes the write ignored whole (R442). -/
def State.keyCmd (s : State) (op use bind typ slot : Nat) : State :=
  if typ = 0 || (64 ≤ slot && slot ≠ 0x7F) then s
  else
    let s := ((s.wr F.KEY_CMD_OP op).wr F.KEY_CMD_USE use).wr F.KEY_CMD_BIND bind
    ((s.wr F.KEY_CMD_TYPE typ).wr F.KEY_CMD_SLOT slot).keyGo

/-- KEY_GEN (R363). -/
def execKeyGen (use : Byte) (bind : BitVec 2) (typ : BitVec 3) (slot : BitVec 7) (s : State) : Host.Outcome State Fault Refusal :=
  .next (s.keyCmd 1 use.toNat bind.toNat typ.toNat slot.toNat)

/-- KEY_IMPORT (R363): KEY_ADDR is written first. -/
def execKeyImport (use : Byte) (bind : BitVec 2) (typ : BitVec 3) (slot : BitVec 7) (addr : Word) (s : State) : Host.Outcome State Fault Refusal :=
  .next ((s.wr F.KEY_ADDR_ADDR addr.toNat).keyCmd 2 use.toNat bind.toNat typ.toNat slot.toNat)

/-- KEY_ERASE (R363). TYPE, which ERASE does not use, is written as 1. -/
def execKeyErase (slot : BitVec 7) (s : State) : Host.Outcome State Fault Refusal := .next (s.keyCmd 3 0 0 1 slot.toNat)

/-- KEY_PUB (R363). -/
def execKeyPub (slot : BitVec 7) (s : State) : Host.Outcome State Fault Refusal := .next (s.keyCmd 4 0 0 1 slot.toNat)

/-- KEY_NEWBILL (R363, R367). -/
def execKeyNewbill (s : State) : Host.Outcome State Fault Refusal := .next (s.keyCmd 5 0 0 1 0)

/-- KEY_RESEAL (R363, R369). -/
def execKeyReseal (s : State) : Host.Outcome State Fault Refusal := .next (s.keyCmd 6 0 0 1 0)

/-! ## Activation, rollback, confirmation, restart (R369) -/

/-- The pending word becomes the word in force, the old one the fallback. -/
def State.sealActivate (s : State) : State :=
  if s.on F.KEY_RESEAL_DONE then
    let now := s.rd F.KEY_SEL_NOW
    ((((s.wr F.KEY_SEL_NOW (s.rd F.KEY_SEL_PEND)).wr F.KEY_SEL_PEND now).wrB F.KEY_RESEAL_DONE false).wrB F.KEY_RESEAL_FALLBACK true).showSlots
  else s

/-- The fallback becomes the word in force again. -/
def State.sealRollback (s : State) : State :=
  if s.on F.KEY_RESEAL_FALLBACK then
    (((s.wr F.KEY_SEL_NOW (s.rd F.KEY_SEL_PEND)).wr F.KEY_SEL_PEND 0).wrB F.KEY_RESEAL_FALLBACK false).showSlots
  else s

/-- The fallback is discarded. -/
def State.sealConfirm (s : State) : State :=
  if s.on F.KEY_RESEAL_FALLBACK then (s.wr F.KEY_SEL_PEND 0).wrB F.KEY_RESEAL_FALLBACK false else s

/-- A restart before activation discards the pending copies. -/
def State.sealAbort (s : State) : State :=
  if s.on F.KEY_RESEAL_DONE then
    (((s.wr F.KEY_SEL_PEND 0).wrB F.KEY_RESEAL_DONE false).sticky F.KEY_RESEAL_ABORTED).raiseOnce 0x93 0 none
  else s

/-! ## Zeroise (R364, R370) -/

/-- Zeroise: slots and select words to zero, ZCNT up, working registers erased while the core die has power; a command that
runs ends with ERR = 6. -/
def State.zeroise (s : State) : State :=
  let s := s.modKey fun x => { x with copies := [] }
  let s := (((s.wr F.KEY_SEL_NOW 0).wr F.KEY_SEL_PEND 0).wrB F.KEY_RESEAL_DONE false).count F.KEY_ZST_ZCNT 1
  let s := ((s.sticky F.KEY_ZST_ZEROISED).raiseOnce 0x91 1 none).showSlots.tagsEnd
  let s := s.when s.boot.vddCore fun s =>
    s.each (s.pil.lanes.map (·.1)) fun s n => s.modPilLane n fun p => { p with nmk := [] }
  s.when s.key.run.isSome fun s => s.keyErr 6

/-- ZEROISE (R364): KEY_ZST.GO. -/
def execZeroise (s : State) : Host.Outcome State Fault Refusal := .next s.zeroise

/-- TAMPER_SAMPLE (R163, R364): every 250 ms while the thermos die has a supply; an input marked ZERO drives the line. -/
def execTamperSample (pins : BitVec 8) (s : State) : Host.Outcome State Fault Refusal :=
  .next <| if s.thm.io33 || s.thm.vbak then
      let (act, s) := s.tamperSample pins
      if act.any fun i => s.rdBit F.THM_TMP_CFG_ZERO i then s.zeroise else s
    else s

/-! ## The session signature (R162, R367) -/

/-- SESSION_SIGN_DONE (R162): the signature of lane `n`'s final head, as two kind 0x09 entries, r then s. -/
def execSessionSignDone (n : Lane) (s : State) : Host.Outcome State Fault Refusal :=
  .next <| match s.bil.signing.find? fun p => p.lane = n.val with
    | none => s
    | some p =>
      let sig := padTo 64 (p256Sign s.billKey p.head)
      let keyid := leBytes 4 (s.rd F.SYS_DEVID_DEVID * 65536 + s.rd F.KEY_KGEN_KGEN)
      let s := s.ledger 9 n p.snum 0 ([0, 0, 0, 0] ++ sig.take 32 ++ keyid)
      let s := s.ledger 9 n p.snum 0 ([1, 0, 0, 0] ++ sig.drop 32 ++ keyid)
      s.modBil fun b => { b with signing := b.signing.filter fun q => q ≠ p }

end Sys2Proof.Machine
end

