-- ==== Sys2Proof/Machine/Pilot.lean ====
section
/-!
DEFINITION. The pilot (R172 to R181): the output in force and its duty, plateaus, classification and debounce, proximity;
and the precedence of the session's exit causes (R198).
-/

namespace Sys2Proof.Machine

open Sys2Proof

/-! ## The output (R172 to R176) -/

/-- np of R175. -/
def State.phases (s : State) (n : Nat) : Nat := if s.laneType n = .ac3lead then 3 else 1

/-- ppcur of R180, in 0.1 A. -/
def State.ppcur (s : State) (n : Nat) : Nat :=
  match s.rd (F.PIL_Ln_PP_CODE n) with
  | 1 => 130 | 2 => 200 | 3 => 320 | 4 => if s.laneType n = .ac3lead then 630 else 700
  | _ => 0

/-- The grant in force of lane `n`, in W; a discharge grant offers nothing to charge with. -/
def State.grantIn (s : State) (n : Nat) : Nat := (s.rdS (F.ALC_Ln_GRANT_W n)).toNat

/-- The discharge grant in force, as a magnitude. -/
def State.grantOut (s : State) (n : Nat) : Nat := (-(s.rdS (F.ALC_Ln_GRANT_W n))).toNat

/-- The smallest of the current limits of R197 in 0.1 A. -/
def State.iLimit (s : State) (n : Nat) : Nat :=
  min (s.ppcur n) (min ((s.head n).irated * 10) (s.rd (F.PIL_Ln_ACV_IMAX n)))

/-- i of R175, in 0.1 A. -/
def State.offerI (s : State) (n : Nat) : Nat :=
  min (s.grantIn n * 100 / (s.phases n * s.rd (F.PIL_Ln_ACV_ACV n))) (min (s.iLimit n) 800)

/-- The duty code of R175 for an offered current. -/
def dutyCode (i : Nat) : Nat := if i ≤ 510 then i * 10 / 3 else if i < 525 then 1700 else 1280 + i * 4 / 5

/-- Is nominal duty suspended (R175)? -/
def State.suspended (s : State) (n : Nat) : Bool := s.offerI n < 60

/-- The output a step calls for (R195): high-level, or basic. -/
def stepOut (step : Nat) (basic : Bool) : PilotOut :=
  match step with
  | 0x00 => .off
  | 0x03 | 0x04 | 0x07 | 0x08 => .pct5
  | 0x05 | 0x06 | 0x0D | 0x0E => if basic then .x1 else .pct5
  | 0x09 | 0x0A | 0x0B | 0x0C => if basic then .nominal else .pct5
  | 0x11 => .stateF
  | _ => .x1

/-- What is driven and its duty code, with no safety force (R174 to R176, R185). -/
def State.chosenOut (s : State) (n : Nat) : PilotOut × Nat :=
  let p := s.pilLane n
  let o := if s.sessStep n = 3 && p.slacF.isSome then .stateF else stepOut (s.sessStep n) p.basic
  match o with
  | .off => (.off, 0)
  | .x1 => (.x1, 2000)
  | .stateF => (.stateF, 0)
  | .pct5 => (.pct5, 100)
  | .nominal => if s.suspended n then (.x1, 2000) else (.nominal, dutyCode (s.offerI n))

/-- PIL_Ln_DUTY.SRC of an output. -/
def outCode : PilotOut → Nat
  | .off => 0 | .x1 => 1 | .stateF => 2 | .pct5 => 3 | .nominal => 4

/-- Is the output PWM? -/
def PilotOut.pwm : PilotOut → Bool
  | .pct5 => true | .nominal => true | _ => false

/-- R174 at an edge: the output in force, shown in PIL_Ln_DUTY. -/
def State.pilotChoose (s : State) (n : Nat) : State :=
  let f := s.pilotForce n
  let (o, c) := match f with
    | some o => (o, 0)
    | none => s.chosenOut n
  let nominal := f.isNone && stepOut (s.sessStep n) (s.pilLane n).basic = .nominal
  let s := s.modPilLane n fun p => { p with out := o }
  let s := ((s.wr (F.PIL_Ln_DUTY_SRC n) (outCode o)).wrB (F.PIL_Ln_DUTY_SUSP n) (nominal && s.suspended n)).wrB (F.PIL_Ln_DUTY_FORCED n) f.isSome
  (s.wrSat (F.PIL_Ln_DUTY_LIMIT n) (if (s.laneType n).isAc then s.offerI n else 0)).wr (F.PIL_Ln_DUTY_CODE n) c

/-- PILOT_PERIOD_START (R172, R177): the lane's last period is complete, its plateaus are shown, and the output in force is
driven. In a frame shortened so far that the start falls at or after its end, no period starts; the driven level of a
member or unused lane never changes. -/
def execPilotPeriodStart (n : Lane) (high low : Int) (s : State) : Host.Outcome State Fault Refusal :=
  .next <|
    if !(s.laneType n).outlet || (s.clk.frameLen ≠ 16 && 4 * s.clk.frameLen ≤ 1 + 2 * n.val) then s
    else
      let p := s.pilLane n
      let s := s.when (p.drv = .x1 || p.drv.pwm) fun s => (s.wrS (F.PIL_Ln_PLAT_HIGH n) high).modPins fun x => { x with
        plA := put (fun _ => 0) x.plA n high, plB := put (fun _ => 0) x.plB n high }
      let s := s.when (p.drv = .stateF || p.drv.pwm) fun s => s.wrS (F.PIL_Ln_PLAT_LOW n) low
      let code := s.rd (F.PIL_Ln_DUTY_CODE n)
      s.modPilLane n fun p => { p with meas := p.drv, drv := p.out, drvCode := code }

/-! ## Exit causes (R198) -/

/-- Order of precedence of R198. -/
def precOf (c : Nat) : Nat :=
  match c with
  | 0x10 => 1 | 0x11 => 2 | 0x12 => 3 | 0x13 => 4 | 0x16 => 5 | 0x15 => 6 | 0x14 => 7 | 0x01 => 8 | 0x17 => 9 | 0x18 => 10
  | 0x19 => 11 | 0x1A => 12 | 0x1B => 13 | 0x1C => 14 | 0x04 => 15 | 0x03 => 16 | 0x05 => 17 | 0x02 => 18 | 0x06 => 19
  | _ => 20

/-- The highest of several causes. -/
def bestCause : List Nat → Nat
  | [] => 0
  | [c] => c
  | c :: cs => let d := bestCause cs; if precOf c ≤ precOf d then c else d

/-! ## Reading the pilot (R177 to R179) -/

/-- The thresholds of R203, in 10 mV. -/
def State.thr (s : State) (f : Fld) : Int := s.rdS f

/-- The raw state of a high plateau (R178). -/
def State.rawState (s : State) (n : Nat) (v : Int) : Nat :=
  if s.thr F.PIL_THR0_AHI < v then 6
  else if s.thr F.PIL_THR0_AB < v then 0
  else if s.thr F.PIL_THR1_BC < v then 1
  else if s.thr F.PIL_THR1_CD < v then 2
  else if s.thr F.PIL_THR2_DE < v then (if s.on (F.PIL_Ln_CTL_VENT n) then 3 else 4)
  else if s.thr F.PIL_THR2_ELO ≤ v then 4
  else 6

/-- Does a plateau lie inside the band of a debounced state, widened by HYST on each side (R179)? The band of INV is what lies
outside all others; a state without a band holds nothing. -/
def State.inBand (s : State) (n st : Nat) (v : Int) : Bool :=
  let h : Int := 5 * s.rd F.PIL_CFG_HYST
  let within (lo hi : Fld) : Bool := s.thr lo - h < v && v ≤ s.thr hi + h
  let vent := s.on (F.PIL_Ln_CTL_VENT n)
  match st with
  | 0 => within F.PIL_THR0_AB F.PIL_THR0_AHI
  | 1 => within F.PIL_THR1_BC F.PIL_THR0_AB
  | 2 => within F.PIL_THR1_CD F.PIL_THR1_BC
  | 3 => vent && within F.PIL_THR2_DE F.PIL_THR1_CD
  | 4 => s.thr F.PIL_THR2_ELO - h ≤ v && v ≤ s.thr (if vent then F.PIL_THR2_DE else F.PIL_THR1_CD) + h
  | 6 => s.thr F.PIL_THR0_AHI - h < v || v < s.thr F.PIL_THR2_ELO + h
  | _ => false

/-- The raw state with hysteresis. -/
def State.rawHyst (s : State) (n : Nat) (v : Int) : Nat :=
  let st := s.rd (F.PIL_Ln_CPST_STATE n)
  if s.inBand n st v then st else s.rawState n v

/-- A pilot-state change of lane `n` for the capture's pilot trigger (R119). -/
def State.pilotHit (s : State) (n : Nat) : State :=
  s.when (bitOf s.capTrig 29 && F.MET_CAP_TRIG_TLANE.of s.capTrig = n) fun s => s.capEvent 8

/-- No classification runs: the state reads what is driven (R179). -/
def State.pilotQuiet (s : State) (n st : Nat) : State :=
  let s := s.when (s.rd (F.PIL_Ln_CPST_STATE n) ≠ st) fun s => s.pilotHit n
  let s := ((s.wr (F.PIL_Ln_CPST_RAW n) st).wr (F.PIL_Ln_CPST_STATE n) st).wr (F.PIL_Ln_CPST_DEBCNT n) 0
  (s.wrB (F.PIL_Ln_CPST_DIODE n) false).modPilLane n fun p => { p with diodeCnt := 0 }

/-- PILOT_CLASSIFY (R178, R179) at an edge. -/
def State.pilotClassify (s : State) (n : Nat) : State :=
  let p := s.pilLane n
  match p.drv with
  | .off => s.pilotQuiet n 7
  | .stateF => s.pilotQuiet n 5
  | _ =>
    if p.meas = .x1 || p.meas.pwm then
      let raw := s.rawHyst n (s.rdS (F.PIL_Ln_PLAT_HIGH n))
      let low := s.rdS (F.PIL_Ln_PLAT_LOW n)
      let flag := p.meas.pwm && 1 ≤ raw && raw ≤ 3 && (s.thr F.PIL_THR3_DIODE < low || low < s.thr F.PIL_THR3_LOWMIN)
      let cnt := if raw = s.rd (F.PIL_Ln_CPST_RAW n) then min 15 (s.rd (F.PIL_Ln_CPST_DEBCNT n) + 1) else 1
      let s := ((s.wr (F.PIL_Ln_CPST_RAW n) raw).wr (F.PIL_Ln_CPST_DEBCNT n) cnt).when (!flag) fun s => s.wrB (F.PIL_Ln_CPST_DIODE n) false
      s.modPilLane n fun p => { p with diodeCnt := if flag then p.diodeCnt + 1 else 0 }
    else s

/-- Is a pilot fault of R179 present, or one of R277? -/
def State.pilotBad (s : State) (n : Nat) : Bool :=
  s.rd (F.PIL_Ln_CPST_STATE n) = 4 || s.rd (F.PIL_Ln_CPST_STATE n) = 6 || s.on (F.PIL_Ln_CPST_DIODE n) || s.pilotApart n

/-- A pilot fault begins: its event, the pilot source, cause 0x13. -/
def State.pilotFault (s : State) (n : Nat) (evt : Fld) : State :=
  ((s.sticky evt).raiseLane 0x22 2 n).decideExit n 0x13

/-- The debounced state of lane `n` becomes RAW (R179). A within the ten frames of R181 makes the change an unplugging; A while the
contactor is closed is cause 0x01 at once (R200). -/
def State.pilotTake (s : State) (n : Nat) : State :=
  let raw := s.rd (F.PIL_Ln_CPST_RAW n)
  let s := (s.wr (F.PIL_Ln_CPST_STATE n) raw).pilotHit n
  let s := s.when (raw = 0) fun s =>
    (s.modPilLane n fun p => { p with ppOpenAt := none }).when ((s.pilLane n).opened && (s.coilOn n || s.mirBoth n)) fun s => s.decideExit n 0x01
  s.when (raw = 4 || raw = 6) fun s => s.pilotFault n (F.PIL_Ln_EVT_PILOT n)

/-- Has RAW been held for DEB frames (R179)? -/
def State.pilotDue (s : State) (n : Nat) : Bool :=
  let raw := s.rd (F.PIL_Ln_CPST_RAW n)
  raw ≠ s.rd (F.PIL_Ln_CPST_STATE n) && raw ≠ 5 && raw ≠ 7 && s.rd F.PIL_CFG_DEB ≤ s.rd (F.PIL_Ln_CPST_DEBCNT n)

/-- Has the diode flag been held for DEB frames (R179)? -/
def State.diodeDue (s : State) (n : Nat) : Bool :=
  !s.on (F.PIL_Ln_CPST_DIODE n) && s.rd F.PIL_CFG_DEB ≤ (s.pilLane n).diodeCnt

/-! ## Proximity (R180, R181) -/

/-- Resistance read at an open PP ball. -/
def ppOpenOhms : Nat := 1000000

/-- The code of a resistance (R180). -/
def ppCode (r : Nat) : Nat :=
  if 4500 < r then 0
  else if 1100 ≤ r && r ≤ 2000 then 1
  else if 500 ≤ r && r ≤ 900 then 2
  else if 150 ≤ r && r ≤ 300 then 3
  else if 75 ≤ r && r ≤ 130 then 4
  else if r < 50 then 5
  else 7

/-- Is lane `n` in service with a head that has passed (R40, R79)? -/
def State.laneServed (s : State) (n : Nat) : Bool := s.rd F.SYS_STAGE_STAGE = 8 && (s.head n).present && (s.head n).passed

/-- The PP bias of lane `n` is off (R31, R40, R180): the register reads open, and the debounce starts afresh when the bias comes on. -/
def State.ppOff (s : State) (n : Nat) : State :=
  ((s.wr (F.PIL_Ln_PP_CODE n) 0).wr (F.PIL_Ln_PP_OHMS n) 0xFFFF).modPilLane n fun p => { p with
    biased := false, ppRaw := 0, ppCnt := 0, ppOpenAt := none }

/-- The pilot driver of lane `n` goes off at once (R31, R41). -/
def State.pilotOff (s : State) (n : Nat) : State :=
  (((s.wr (F.PIL_Ln_DUTY_SRC n) 0).wr (F.PIL_Ln_DUTY_CODE n) 0).wrB (F.PIL_Ln_DUTY_SUSP n) false).modPilLane n fun p => { p with
    out := .off, drv := .off, drvCode := 0 }

/-- Proximity at an edge: the running code and its count; without bias the register reads open. -/
def State.ppEdge (s : State) (n : Nat) : State :=
  if s.laneServed n then
    let r := lk (fun _ => ppOpenOhms) s.pins.pp n
    let p := s.pilLane n
    let same := p.biased && ppCode r = p.ppRaw
    (s.wrSat (F.PIL_Ln_PP_OHMS n) r).modPilLane n fun p => { p with
      biased := true, ppRaw := ppCode r, ppCnt := if same then min 15 (p.ppCnt + 1) else 1 }
  else s.ppOff n

/-- Is the proximity code accepted (R181)? -/
def State.ppExpected (s : State) (n : Nat) : Bool := s.rdBit (F.PIL_Ln_PPCFG_EXPECT n) (s.rd (F.PIL_Ln_PP_CODE n))

/-- A change of code that ends the session: cause 0x14 and the proximity source (R181). -/
def State.ppBad (s : State) (n : Nat) : State :=
  ((s.sticky (F.PIL_Ln_EVT_PPBAD n)).raiseLane 0x23 2 n).decideExit n 0x14

/-- A code that stands outside EXPECT in a session (R181): EXPECT was rewritten. A change to open is decided by `ppOpenDue`. -/
def State.ppStanding (s : State) (n : Nat) : Bool :=
  let p := s.pilLane n
  p.opened && s.inSession n && !s.ppExpected n && (s.rd (F.PIL_Ln_PP_CODE n) ≠ 0 || p.ppStart = 0) && !s.causeFor 0x23 n && !p.decided.contains 0x14

/-- The running code has been held for PPDEB frames. -/
def State.ppDue (s : State) (n : Nat) : Bool :=
  let p := s.pilLane n
  p.biased && p.ppRaw ≠ s.rd (F.PIL_Ln_PP_CODE n) && s.rd F.PIL_CFG_PPDEB ≤ p.ppCnt

/-- A new code is taken (R180); in a session a change is decided by R181. -/
def State.ppTake (s : State) (n : Nat) : State :=
  let p := s.pilLane n
  let s := s.wr (F.PIL_Ln_PP_CODE n) p.ppRaw
  if p.opened then
    if p.ppRaw = 0 then
      s.modPilLane n fun p => { p with ppOpenAt := if s.rd (F.PIL_Ln_CPST_STATE n) = 0 then none else some s.clk.frame }
    else (s.modPilLane n fun p => { p with ppOpenAt := none }).ppBad n
  else s

/-- The tenth frame after a change to open has come without A (R181). -/
def State.ppOpenDue (s : State) (n : Nat) : Bool :=
  match (s.pilLane n).ppOpenAt with
  | some t => (s.pilLane n).opened && t + 10 ≤ s.clk.frame
  | none => false

/-- The causes of the pilot and proximity sources at an edge: a plateau on which the channels differ and a code standing outside EXPECT
begin one; each ends with what it says. -/
def State.pilotCauses (s : State) (n : Nat) : State :=
  let s := s.when (s.pilotApart n && !s.causeFor 0x22 n) fun s => s.pilotFault n (F.PIL_Ln_EVT_PILOT n)
  let s := s.when (s.causeFor 0x22 n && !s.pilotBad n) fun s => s.causeOff 0x22 (some (s.groupSet n))
  let s := s.when (s.causeFor 0x23 n && (s.ppExpected n || s.rd (F.PIL_Ln_PP_CODE n) = 0)) fun s => s.causeOff 0x23 (some (s.groupSet n))
  s.when (s.ppStanding n) fun s => s.ppBad n

end Sys2Proof.Machine
end

