-- ==== Sys2Proof/Machine/Session.lean ====
section
/-!
DEFINITION. The charging session (R193 to R202, R444): its steps, exit causes and their paths, close requests, the demand of
R197, and the lane's work at an edge.
-/

namespace Sys2Proof.Machine

open Sys2Proof

/-! ## Opening and closing (R201) -/

/-- Is lane `n` retired by a weld (R289)? -/
def State.weldRetired (s : State) (n : Nat) : Bool := s.rdBit (F.SAF_ACON_LANE 5) n

/-- A session opens on entry to PLUGGED: the lane's session registers and records start afresh. -/
def State.openSess (s : State) (n : Nat) : State :=
  let dc := s.laneType n = .dc
  let s := s.openSession n
  let s := ((s.wr (F.PIL_Ln_SESS_CAUSE n) 0).wrB (F.PIL_Ln_SESS_CC n) false).wr (F.PIL_Ln_SESS_AUTHPATH n) 0
  let s := (s.wr (F.PIL_Ln_SESS_SERVICE n) (b2n dc)).wr (F.PIL_Ln_SESS_PROTO n) 0
  let s := (s.setWord (A.PIL_Ln_AUTH n) 0x0000FF00).setWord (A.PIL_Ln_SLAC n) 0xFFFF0000
  let s := (s.wr (F.PIL_Ln_EVMAC_MAC n) 0).each (List.range 9) fun s i => s.wr (F.PIL_Ln_EVMAX_VALUE n i) (if i = 2 then 0xFF else 0)
  let basic := !dc && s.rd (F.PIL_Ln_CTL_MODE n) = 0
  let code := s.rd (F.PIL_Ln_PP_CODE n)
  s.modPilLane n fun p => { p with
    ppStart := code, ppOpenAt := none, decided := [], headRemoved := false, orderly := false, closedOnce := false, opened := true,
    basic := basic, next := none, slacF := none, parmAt := none, dynamic := false, mac := 0, run := 0, mayMatch := false, needToggle := false, nmk := [], tls := false,
    setup := false, served := false, contract := false, deliver := false, weldDone := false, reply := {},
    cardUid := [], accepted := false, evPower := none, evReq := none, evDis := 0, evDepart := 0, evEnergy := 0,
    boDepart := 0, boEnergy := 0, discharge := false, suspAt := none, bAt := none }

/-- The session closes with its recorded cause: the exit-cause counter, the billing unit, the network key, the modem's link
and the insulation verdict (R183, R201, R215). -/
def State.closeSess (s : State) (n : Nat) : State :=
  if (s.pilLane n).opened then
    let c := s.rd (F.PIL_Ln_SESS_CAUSE n)
    let s := s.when (c ≠ 0) fun s => s.count (F.PIL_Ln_XCNTc_COUNT n c) 1
    let s := ((s.closeSession n c).wr (F.PIL_Ln_MDM_LINK n) 0).verdictReset n
    s.modPilLane n fun p => { p with opened := false, nmk := [], decided := [], next := none, slacF := none, parmAt := none }
  else s

/-- The charge-complete step of R158. -/
def State.sessComplete (s : State) (n : Nat) : State :=
  if (s.pilLane n).opened then (s.chargeComplete n).wrB (F.PIL_Ln_SESS_CC n) true else s

/-! ## Changing step (R194, R195) -/

/-- Time limit in ms latched at the entry to a step (R195); 0 none. PRE also limits CLOSE. -/
def State.stepLimit (s : State) (n step : Nat) : Nat :=
  match step with
  | 0x03 => 1000 * s.rd F.PIL_TMR0_SLACI
  | 0x04 => 1000 * s.rd F.PIL_TMR0_SEQ
  | 0x05 => 1000 * s.rd F.PIL_TMR0_AUTH
  | 0x06 | 0x0F => s.rd F.PIL_TMR1_LOCK
  | 0x07 => 1000 * s.rd F.PIL_TMR1_CABLE
  | 0x08 => 1000 * s.rd F.PIL_TMR1_PRE
  | 0x09 => if (s.pilLane n).basic then 0 else 1000 * s.rd F.PIL_TMR0_SEQ
  | 0x0A => if s.laneType n = .dc then (s.pilLane n).limit else 1000 * s.rd F.PIL_TMR1_PRE
  | 0x0D => 1000 * s.rd F.PIL_TMR2_STOP
  | 0x0E => 1000 * s.rd F.PIL_TMR2_WELD
  | _ => 0

/-- R444: one unlock move is requested for a lock that is not confirmed unlocked. -/
def State.unlockMove (s : State) (n : Nat) : State :=
  if s.rd (F.SWA_Ln_LKST_POS n) ≠ 2 && !s.weldRetired n then s.lockMove n false else s

/-- A lock move of the lane is pending or running (R444). -/
def State.moveOpen (s : State) (n : Nat) : Bool := s.lockBusy n || (s.chan (32 + n)).interrupted

/-- What leaving a step ends: a cable check, a lock move toward locked that is not confirmed. -/
def State.leaveStep (s : State) (n new : Nat) : State :=
  let old := s.sessStep n
  let s := s.when (old = 7 && new ≠ 8) fun s => s.cableStop n
  s.when (old = 6 && s.rd (F.SWA_Ln_LKST_POS n) ≠ 1) fun s => s.lockDrop n

/-- A card held for this lane is bound to it on its entry to AUTHORISE (R191). -/
def State.bindHeld (s : State) (n : Nat) : State :=
  let win := 1000 * s.rd F.PIL_CFG_CARDWIN
  match s.pil.card.find? fun c => s.rdBit (F.PIL_RDRk_LANES c.reader) n && s.rdBit (F.PIL_Ln_CTL_AUTH n) 0 && s.clk.frame < c.frame + win with
  | some c =>
    let s := s.modPil fun p => { p with card := p.card.filter fun x => x ≠ c }
    let s := ((s.wr (F.PIL_Ln_AUTH_PATH n) 1).wr (F.PIL_Ln_SESS_AUTHPATH n) 1).wr (F.PIL_Ln_AUTH_READER n) c.reader
    s.modPilLane n fun p => { p with cardUid := c.uid }
  | none => s

/-- A token is accepted on path `path` with a priority class (R192); AUTHORISE ends at the next edge. -/
def State.acceptAuth (s : State) (n path result cls : Nat) : State :=
  let s := ((s.wr (F.PIL_Ln_AUTH_PATH n) path).wr (F.PIL_Ln_SESS_AUTHPATH n) path).wr (F.PIL_Ln_AUTH_RESULT n) result
  (s.wr (F.PIL_Ln_AUTH_CLASS n) cls).modPilLane n fun p => { p with accepted := true }

/-- Entry to AUTHORISE (R190, R191): the free path at once, else a held card. -/
def State.enterAuthorise (s : State) (n : Nat) : State :=
  let now := s.clk.frame
  let s := s.modPilLane n fun p => { p with authAt := now }
  if s.boot.policy.freeAuth && s.rdBit (F.PIL_Ln_CTL_AUTH n) 3 then s.acceptAuth n 4 1 0 else s.bindHeld n

/-- What entering step `k` does (R183, R195 to R201, R216, R221, R444). -/
def State.entryAct (s : State) (n k : Nat) : State :=
  match k with
  | 0x00 => s.closeSess n
  | 0x01 =>
    let s := (s.closeSess n).unlockMove n
    s.when (s.laneType n ≠ .dc) fun s => s.rcdTestStart n false
  | 0x02 => s.openSess n
  | 0x03 =>
    let now := s.clk.frame
    ((s.wr (F.PIL_Ln_SLAC_TRIES n) 1).wr (F.PIL_Ln_MDM_LINK n) 1).modPilLane n fun p => { p with slacAt := now }
  | 0x05 => s.enterAuthorise n
  | 0x06 => s.when (s.rd (F.SWA_Ln_LKST_POS n) ≠ 1) fun s => s.lockMove n true
  | 0x07 => s.cableStart n
  | 0x0B => let lim := 1000 * s.rd F.PIL_TMR2_STOP; s.modPilLane n fun p => { p with stopLim := lim }
  | 0x0C => let lim := 1000 * s.rd F.PIL_TMR2_IDLEB; s.modPilLane n fun p => { p with idleLim := lim }
  | 0x0E => s.modPilLane n fun p => { p with weldDone := false }
  | 0x0F => s.when (s.rd (F.SWA_Ln_LKST_POS n) ≠ 2) fun s => s.lockMove n false
  | 0x10 =>
    let s := s.when (s.pilLane n).orderly fun s => s.sessComplete n
    let s := s.when (s.rd (F.PIL_Ln_CPST_STATE n) = 0) fun s => s.closeSess n
    s.unlockMove n
  | _ => s

/-- Change the lane's step: the event of R194 and R61, the time limits, the close request, what the step's entry does. -/
def State.enterStep (s : State) (n k : Nat) : State :=
  let now := s.clk.frame
  let s := s.leaveStep n k
  let lim := s.stepLimit n k
  let pre := k = 8 || (k = 0x0A && s.laneType n ≠ .dc)
  let s := (((s.wr (F.PIL_Ln_SESS_STEP n) k).sticky (F.PIL_Ln_EVT_STEP n)).note (0x120 + n) k (laneBit n)).wr (F.PIL_Ln_STEPT_MS n) 0
  let s := s.modPilLane n fun p => { p with
    stepFrame := now, changed := true, limit := lim, preAt := if pre then now else p.preAt,
    next := none, orderly := p.orderly && k ≠ 0x11, unlockDue := false, suspAt := none, bAt := none, slacF := none, parmAt := none }
  let s := s.when (k ≠ 0x0A && k ≠ 0x0B && k ≠ 0x0D) fun s => s.dropClose n
  s.entryAct n k

/-! ## Exits (R198 to R200) -/

/-- The cause a fault source present on the lane stands for. -/
def sourceCause (src : Nat) : Nat :=
  match src with
  | 0x21 => 0x12 | 0x22 => 0x13 | 0x23 => 0x14 | 0x65 => 0x16 | _ => 0x11

/-- Causes that hold as long as what they say is so (R198, R202). -/
def State.levelCauses (s : State) (n : Nat) : List Nat :=
  let p := s.pilLane n
  let step := s.sessStep n
  let fresh := s.rd (F.PIL_Ln_SESS_CAUSE n) = 0
  let a := s.rd (F.PIL_Ln_CPST_STATE n) = 0
  let safe := if s.on F.SAF_STAT_SAFE && s.inSession n then [0x10] else []
  let srcs := (s.flt.causes.filter fun c => 2 ≤ c.cls && inSet (scopeLanes c.scope) n).map fun c => sourceCause c.src
  let aa :=
    if !a then []
    else if s.coilOn n || s.mirBoth n then [0x01]
    else if fresh && !p.closedOnce && 2 ≤ step && step ≤ 0x0C then [0x06]
    else if fresh && (step = 0x0C || step = 0x10) then [0x07]
    else []
  let b := if step = 0x0B && s.laneType n = .dc && s.rd (F.PIL_Ln_CPST_STATE n) = 1 then [0x02] else []
  safe ++ srcs ++ aa ++ b

/-- Record the exit cause: once in a session (R198). -/
def State.recordCause (s : State) (n c : Nat) : State :=
  if (s.pilLane n).opened && s.rd (F.PIL_Ln_SESS_CAUSE n) = 0 then
    (s.wr (F.PIL_Ln_SESS_CAUSE n) c).sticky (F.PIL_Ln_EVT_EXIT n)
  else s

/-- How an orderly path continues from the step the cause finds (R200). -/
def State.pathFrom (s : State) (n : Nat) : Nat :=
  let step := s.sessStep n
  if step = 0x0B then 0x0D
  else if step = 0x0A && s.coilOn n then 0x0E
  else if 6 ≤ step && step ≤ 0x0F && s.rd (F.SWA_Ln_LKST_POS n) = 1 then 0x0F
  else 0x10

/-- An orderly cause, the first recorded (R198, R200). -/
def State.orderlyExit (s : State) (n c : Nat) : State :=
  if c = 0x06 || c = 0x07 then
    let stay := s.sessStep n = 0x10 && s.laneFault n
    let s := s.closeSess n
    if stay then s else s.enterStep n 1
  else
    let s := s.modPilLane n fun p => { p with orderly := true }
    if c = 0x01 then s.enterStep n 0x0E else s.enterStep n (s.pathFrom n)

/-! ## Normal transitions (R195) -/

/-- May a session begin on lane `n` (R158, R181, R202, R444)? -/
def State.mayBegin (s : State) (n : Nat) : Bool :=
  s.rd (F.PIL_Ln_CPST_STATE n) = 1 && s.on (F.PIL_Ln_CTL_EN n) && s.ppExpected n && !s.laneFault n && !s.moveOpen n && !s.snumEnd &&
    s.rd F.UPD_BANK_STATE ≠ 4

/-- The EV target voltage, in 0.1 V, and current, in 0.1 A. -/
def State.evTgtV (s : State) (n : Nat) : Nat := s.rd (F.PIL_Ln_EVMAX_VALUE n 1) / 65536

def State.evTgtI (s : State) (n : Nat) : Nat := s.rd (F.PIL_Ln_EVMAX_VALUE n 1) % 65536

/-- Do the modules assigned to lane `n` hold their output within 20 V of the target? Their voltages are in 0.1 V. -/
def State.modsReady (s : State) (n : Nat) : Bool :=
  let ms := s.boot.mods.filter fun m => m.2.addr ≠ 0 && m.2.admitted && m.2.out = n
  !ms.isEmpty && ms.all fun m => (Int.ofNat m.2.v - Int.ofNat (s.evTgtV n)).natAbs ≤ 200

/-- Is MV within 20 V of the target? MV is in mV. -/
def State.outletReady (s : State) (n : Nat) : Bool :=
  (signedOf 32 (s.rd (F.MET_Ln_VINST_VALUE n 0)) - Int.ofNat (100 * s.evTgtV n)).natAbs ≤ 20000

/-- Is the lane's current at most 1 A? Currents are in 0.1 mA. -/
def State.currentLow (s : State) (n : Nat) : Bool :=
  if s.laneType n = .dc then (signedOf 32 (s.rd (F.MET_Ln_VINST_VALUE n 1))).natAbs ≤ 10000 else s.maxIrms n ≤ 10000

/-- The normal successor of the step, if its exit holds at the edge, or the one a time has decided (R176, R185, R195). -/
def State.normalNext (s : State) (n : Nat) : Option Nat :=
  let p := s.pilLane n
  let dc := s.laneType n = .dc
  let pos := s.rd (F.SWA_Ln_LKST_POS n)
  let st := s.rd (F.PIL_Ln_CPST_STATE n)
  let go (b : Bool) (k : Nat) : Option Nat := if b then some k else none
  if p.next.isSome then p.next
  else match s.sessStep n with
  | 0x01 => go (s.mayBegin n) 2
  | 0x02 => go (p.stepFrame < s.clk.frame) (if p.basic then 5 else 3)
  | 0x03 => go (s.on (F.PIL_Ln_SLAC_MATCHED n) && s.rd (F.PIL_Ln_MDM_LINK n) = 3) 4
  | 0x04 => go (s.rd (F.PIL_Ln_SESS_PROTO n) ≠ 0 && p.setup && p.served) 5
  | 0x05 => go p.accepted 6
  | 0x06 => go (pos = 1) (if dc then 7 else 9)
  | 0x07 => go (s.goodVerdict n) 8
  | 0x08 => go (s.modsReady n) 0x0A
  | 0x09 => go (s.pilotC n) 0x0A
  | 0x0A => go (s.mirBoth n && (!dc || s.outletReady n)) 0x0B
  | 0x0B => go (!dc && st = 1) 0x0C
  | 0x0C => go (s.pilotC n && (!p.basic || !s.suspended n)) 0x0A
  | 0x0D => go (s.currentLow n) 0x0E
  | 0x0E => go (!s.mirAny n && (!dc || p.weldDone)) 0x0F
  | 0x0F => go (pos = 2) 0x10
  | 0x10 => go ((st = 0 || !p.opened) && !s.laneFault n) 1
  | _ => none

/-- Take the normal transition of the step, if there is one. -/
def State.normalStep (s : State) (n : Nat) : State :=
  match s.normalNext n with
  | some k => s.enterStep n k
  | none => s

/-- A decision with causes `dec` on an open session (R194, R198 to R200). -/
def State.exitStep (s : State) (n : Nat) (dec : List Nat) : State :=
  let c := bestCause dec
  let first := s.rd (F.PIL_Ln_SESS_CAUSE n) = 0
  let s := s.recordCause n c
  if dec.any faultPath then s.enterStep n 0x11
  else if first then s.orderlyExit n c
  else if dec.contains 0x01 && 0x0A ≤ s.sessStep n && s.sessStep n ≤ 0x0D then s.enterStep n 0x0E
  else if dec.contains 0x1A && s.sessStep n = 0x0E then s.enterStep n (s.pathFrom n)
  else s.normalStep n

/-- The lane is without a head that has passed, or out of service (R40, R41, R202): its session closes with the highest cause
decided, its step is OFF, its PP bias and its pilot driver go off. -/
def State.laneOff (s : State) (n : Nat) : State :=
  let s := (s.recordCause n (bestCause (s.pilLane n).decided)).closeSess n
  (((if s.sessStep n = 0 then s else s.enterStep n 0).ppOff n).pilotOff n).modPilLane n fun p => { p with decided := [] }

/-- The lane changes its step at most once in a frame, at its edge (R194): exits first. A retired lane stays in FAULTED or OFF. -/
def State.stepLane (s : State) (n : Nat) : State :=
  let p := s.pilLane n
  let step := s.sessStep n
  if !s.laneServed n then s.laneOff n
  else if step = 0 then
    if s.retired n || inSet s.causeSet n then s else s.enterStep n 1
  else
    let dec := p.decided ++ s.levelCauses n
    let s := s.modPilLane n fun p => { p with decided := [] }
    if step = 0x11 then
      let s := s.when (s.retired n) fun s => s.closeSess n
      if inSet s.causeSet n then s.modPilLane n fun p => { p with next := none } else s.normalStep n
    else if p.opened && !dec.isEmpty then
      (s.exitStep n dec).when (s.retired n) fun s => s.closeSess n
    else if s.retired n then (s.closeSess n).enterStep n 0
    else if inSet s.causeSet n then s.enterStep n 0x11
    else
      (s.when (step = 0x10 && s.rd (F.PIL_Ln_CPST_STATE n) = 0) fun s => s.closeSess n).normalStep n

/-! ## The events of the pilot and of the step times -/

/-- PILOT_STATE_DEBOUNCED (R179): DEB consecutive frames of RAW. -/
def execPilotStateDebounced (n : Lane) (s : State) : Host.Outcome State Fault Refusal :=
  .next <| if s.pilotDue n then s.pilotTake n else s

/-- DIODE_FAULT (R179): DEB consecutive flagged frames. -/
def execDiodeFault (n : Lane) (s : State) : Host.Outcome State Fault Refusal :=
  .next <| if s.diodeDue n then (s.wrB (F.PIL_Ln_CPST_DIODE n) true).pilotFault n (F.PIL_Ln_EVT_DIODE n) else s

/-- PROXIMITY_DEBOUNCED (R180, R181): PPDEB consecutive frames of a code. -/
def execProximityDebounced (n : Lane) (s : State) : Host.Outcome State Fault Refusal :=
  .next <| if s.ppDue n then s.ppTake n else s

/-- PROXIMITY_OPEN_DECISION (R181): the tenth frame after a change to open, without A. -/
def execProximityOpenDecision (n : Lane) (s : State) : Host.Outcome State Fault Refusal :=
  .next <| if s.ppOpenDue n then (s.modPilLane n fun p => { p with ppOpenAt := none }).ppBad n else s

/-- Frame the step's time limit counts from. -/
def State.limitFrom (s : State) (n : Nat) : Nat :=
  if s.sessStep n = 8 || s.sessStep n = 0x0A then (s.pilLane n).preAt else (s.pilLane n).stepFrame

/-- Has the step's time run out (R195)? SLAC is handled under R185. -/
def State.timeOut (s : State) (n : Nat) : Bool :=
  let p := s.pilLane n
  p.limit ≠ 0 && s.sessStep n ≠ 3 && !p.changed && s.limitFrom n + p.limit ≤ s.clk.frame

/-- The exit cause of a step whose time runs out (R195). -/
def timeCause (step : Nat) : Nat :=
  match step with
  | 0x05 => 0x1C | 0x06 => 0x15 | 0x07 => 0x17 | 0x08 => 0x18 | 0x0A => 0x18 | 0x0F => 0x15 | _ => 0x1A

/-- STEP_TIMEOUT (R192, R195): STOP goes on to WELDCHECK with the coil off; every other step exits. -/
def execStepTimeout (n : Lane) (s : State) : Host.Outcome State Fault Refusal :=
  .next <|
    if s.timeOut n then
      let step := s.sessStep n
      if step = 0x0D then (s.modPilLane n fun p => { p with next := some 0x0E }).dropClose n
      else (s.when (step = 5) fun s => s.wr (F.PIL_Ln_AUTH_RESULT n) 3).decideExit n (timeCause step)
    else s

/-- SUSPEND_STOP_TIMEOUT (R176): suspended for the STOP time with the contactor closed and the vehicle still in C or D. -/
def execSuspendStopTimeout (n : Lane) (s : State) : Host.Outcome State Fault Refusal :=
  .next <| match (s.pilLane n).suspAt with
    | some t =>
      let p := s.pilLane n
      let st := s.rd (F.PIL_Ln_CPST_STATE n)
      if s.sessStep n = 0x0B && p.basic && !p.changed && t + p.stopLim ≤ s.clk.frame && s.mirBoth n && (st = 2 || st = 3) then
        (s.modPilLane n fun p => { p with next := some 0x0C }).dropClose n
      else s
    | none => s

/-- IDLE_B_TIMEOUT (R201): B held in PAUSED for IDLEB with duty offered, in basic AC. -/
def execIdleBTimeout (n : Lane) (s : State) : Host.Outcome State Fault Refusal :=
  .next <| match (s.pilLane n).bAt with
    | some t => if s.sessStep n = 0x0C && (s.pilLane n).basic && t + (s.pilLane n).idleLim ≤ s.clk.frame then s.sessComplete n else s
    | none => s

/-- FAULTED_HOLD_END (R199, R202): 4 s in F after the latest fault, and no cause present. A retired lane goes OFF. -/
def execFaultedHoldEnd (n : Lane) (s : State) : Host.Outcome State Fault Refusal :=
  .next <|
    let p := s.pilLane n
    let from_ := max p.stepFrame (lk (fun _ => 0) s.flt.latest n)
    if s.sessStep n = 0x11 && !p.changed && from_ + 4000 ≤ s.clk.frame && !inSet s.causeSet n then
      let to_ := if s.retired n then 0 else 0x10
      s.modPilLane n fun p => { p with next := some to_ }
    else s

/-- FIRMWARE_STOP (R198): PIL_Ln_CMD.STOP, ignored in READY, OFF, FINISHED and FAULTED. -/
def State.firmwareStop (s : State) (n : Nat) : State :=
  if s.inSession n then s.decideExit n 5 else s

def execFirmwareStop (n : Lane) (s : State) : Host.Outcome State Fault Refusal := .next (s.firmwareStop n)

/-- REMOTE_STOP (R198): the back office's stop of a running session. -/
def execRemoteStop (n : Lane) (s : State) : Host.Outcome State Fault Refusal :=
  .next <| if (s.pilLane n).opened && s.inSession n then s.decideExit n 4 else s

/-- XCNT_CLEAR (R201): PIL_Ln_XCNTc.CLR. -/
def execXcntClear (n : Lane) (c : Fin 64) (s : State) : Host.Outcome State Fault Refusal := .next (s.wr (F.PIL_Ln_XCNTc_COUNT n c) 0)

/-! ## The demand of R197 -/

/-- PMAX and PREQ of lane `n`, in W. -/
def State.demandMax (s : State) (n : Nat) : Nat × Nat :=
  let p := s.pilLane n
  let step := s.sessStep n
  if s.laneType n = .dc then
    if 8 ≤ step && step ≤ 0x0C then
      let cap := (s.head n).irated * s.evTgtV n / 10
      let pmax := match p.evPower with | some w => min w cap | none => cap
      (pmax, min (s.evTgtV n * s.evTgtI n / 100) pmax)
    else (0, 0)
  else if 9 ≤ step && step ≤ 0x0C then
    let pmax := s.phases n * s.rd (F.PIL_Ln_ACV_ACV n) * s.iLimit n / 100
    (pmax, if p.basic then pmax else match p.evReq with | some w => min w pmax | none => pmax)
  else (0, 0)

/-- Show the demand of lane `n`. -/
def State.demand (s : State) (n : Nat) : State :=
  let p := s.pilLane n
  let (pmax, preq) := s.demandMax n
  let pmin := min (nth s.boot.policy.gmin (s.laneClass n)) pmax
  let active := 8 ≤ s.sessStep n && s.sessStep n ≤ 0x0C
  let pdis := if s.laneType n = .dc && active && s.rd (F.PIL_Ln_SESS_SERVICE n) = 2 && s.on (F.PIL_Ln_CTL_BPT n) then p.evDis else 0
  let s := (s.wrSat (F.PIL_Ln_EVMAX_VALUE n 3) (if p.evDepart ≠ 0 then p.evDepart else p.boDepart)).wrSat
    (F.PIL_Ln_EVMAX_VALUE n 4) (if p.evEnergy ≠ 0 then p.evEnergy else p.boEnergy)
  let s := (s.wrSat (F.PIL_Ln_EVMAX_VALUE n 5) pmin).wrSat (F.PIL_Ln_EVMAX_VALUE n 6) pmax
  (s.wrSat (F.PIL_Ln_EVMAX_VALUE n 7) preq).wrSat (F.PIL_Ln_EVMAX_VALUE n 8) pdis

/-! ## The lane's work at an edge -/

/-- R196: the close request is made in CLOSE and kept through CHARGE and STOP while its preconditions hold; a new one is a start
request (R247). -/
def State.closeEdge (s : State) (n : Nat) : State :=
  let step := s.sessStep n
  let had := (s.pilLane n).closeReq
  let want := (step = 0x0A || (had && (step = 0x0B || step = 0x0D))) && s.closeReady n
  if want && !had then
    ((s.modPilLane n fun p => { p with closeReq := true }).wrB (F.SWA_Ln_CCST_SRQ n) true).request n
  else if !want && had then s.dropClose n else s

/-- R199: in FAULTED the lock is released once both channels see the contactor open; not while the safe state or a weld
holds it. -/
def State.faultedUnlock (s : State) (n : Nat) : State :=
  if s.sessStep n = 0x11 && !(s.pilLane n).unlockDue && !s.mirAny n && !s.on F.SAF_STAT_SAFE && !s.weldRetired n &&
      s.rd (F.SWA_Ln_LKST_POS n) ≠ 2 && s.laneServed n then
    (s.modPilLane n fun p => { p with unlockDue := true }).lockMove n false
  else s

/-- The times of R176 and R201, and the contactor seen closed. -/
def State.sessTimes (s : State) (n : Nat) : State :=
  let now := s.clk.frame
  let susp := s.suspended n
  let step := s.sessStep n
  let closed := s.mirBoth n
  let b := s.rd (F.PIL_Ln_CPST_STATE n) = 1
  let since (c : Bool) (t : Option Nat) : Option Nat := if c then (match t with | some x => some x | none => some now) else none
  let s := s.modPilLane n fun p => { p with
    closedOnce := p.closedOnce || (closed && p.opened),
    suspAt := since (step = 0x0B && p.basic && susp) p.suspAt,
    bAt := since (step = 0x0C && p.basic && b && !susp) p.bAt }
  ((s.wrB (F.PIL_Ln_SESS_CLOSED n) closed).wrB (F.PIL_Ln_SESS_LOCKED n) (s.rd (F.SWA_Ln_LKST_POS n) = 1)).wrSat
    (F.PIL_Ln_STEPT_MS n) (now - (s.pilLane n).stepFrame)

/-- Lane `n`'s pilot and session at an edge, in step 7 of R53. -/
def State.sessionEdge (s : State) (n : Nat) : State :=
  let s := s.modPilLane n fun p => { p with changed := false }
  let s := ((s.ppEdge n).pilotClassify n).pilotCauses n
  let s := ((s.sessTimes n).stepLane n).closeEdge n
  (s.faultedUnlock n).demand n

end Sys2Proof.Machine
end

