-- ==== Sys2Proof/Machine/Allocation.lean ====
section
/-!
DEFINITION. The allocation engine (spec/11): headcounts and zone totals, the member table, the computation at the cutoff,
module setpoints, the launch edge; the stream-lost force of R116.
-/

namespace Sys2Proof.Machine

open Sys2Proof

def State.modAlc (s : State) (f : AlcState → AlcState) : State := s.setAlc (f s.alc)

def State.member (s : State) (d : Nat) : AlcMember := lk (fun _ => {}) s.alc.members d

def State.modMember (s : State) (d : Nat) (f : AlcMember → AlcMember) : State :=
  s.modAlc fun a => { a with members := put (fun _ => {}) a.members d (f (s.member d)) }

def State.upZone (s : State) (j : Nat) : AlcParent := lk (fun _ => {}) s.alc.up j

def State.modUp (s : State) (j : Nat) (f : AlcParent → AlcParent) : State :=
  s.modAlc fun a => { a with up := put (fun _ => {}) a.up j (f (s.upZone j)) }

/-- No limit, as ZLIMIT spells it. -/
def noLimit : Nat := 0xFFFFFFFF

def State.tick (s : State) : Nat := s.rd F.TCK_ALC_TICK_K

def State.devid (s : State) : Nat := s.rd F.SYS_DEVID_DEVID

/-- The device's leaf level: the last level of its path (R224). -/
def State.leafLevel (s : State) : Nat := ((List.range 4).filter fun j => s.on (F.ALC_ZPATHj_VALID j)).foldl max 0

def State.zoneAt (s : State) (j : Nat) : Nat := s.rd (F.ALC_ZPATHj_ZONE j)

/-- Allocation period in ms. -/
def State.periodMs (s : State) : Nat := 10 * s.rd F.TCK_PERIOD_P

/-! ## Frames (R229, R230, R238) -/

/-- The bytes of an entry. -/
def entryWire (e : AlcEntry) : List Byte :=
  leBytes 1 e.lane ++ leBytes 1 (e.cls + 128 * b2n e.disch) ++ leBytes 1 e.group ++ [0] ++ leBytes 4 e.pmin ++ leBytes 4 e.pmax ++
    leBytes 4 e.preq ++ leBytes 4 e.pdis ++ leBytes 4 (codeOf 32 e.gif) ++ leBytes 4 e.ewant ++ leBytes 4 e.remain

/-- The five entries of a zone total. -/
def sumsWire (x : ZoneSums) : List Byte :=
  ([0, 1, 2, 3].flatMap fun c =>
    leBytes 4 (nth x.floor c) ++ leBytes 4 (nth x.need c) ++ leBytes 4 (nth x.above c) ++ leBytes 2 (nth x.lanes c) ++ [0, 0]) ++
    leBytes 4 x.dwant ++ leBytes 8 0 ++ leBytes 2 x.dlanes ++ [0, 0]

/-- The whole frame with its CRC. -/
def Headcount.wire (h : Headcount) : List Byte :=
  let n := if h.typ = 2 then 5 else h.entries.length
  let bs := leBytes 1 h.typ ++ leBytes 1 h.flags ++ leBytes 1 h.level ++ leBytes 1 n ++ leBytes 2 h.devid ++ leBytes 2 h.algver ++
    leBytes 4 h.tick ++ leBytes 2 h.zone ++ leBytes 1 h.gcap.length ++ [0] ++ leBytes 4 h.gdig ++ leBytes 4 h.zlimit ++
    leBytes 4 h.zexp ++ leBytes 4 0 ++ (h.gcap.flatMap fun g => leBytes 4 (g.1 * 2 ^ 28 + g.2 % 2 ^ 28)) ++
    (if h.typ = 2 then sumsWire h.sums else h.entries.flatMap entryWire)
  bs ++ leBytes 4 (crc32 bs)

/-- An entry read back. -/
def entryRead (bs : List Byte) : AlcEntry where
  lane := leAt bs 0 1 % 32
  cls := leAt bs 1 1 % 4
  disch := bitOf (leAt bs 1 1) 7
  group := leAt bs 2 1
  pmin := leAt bs 4 4
  pmax := leAt bs 8 4
  preq := leAt bs 12 4
  pdis := leAt bs 16 4
  gif := signedOf 32 (leAt bs 20 4)
  ewant := leAt bs 24 4
  remain := leAt bs 28 4

/-- A zone total's entries read back. -/
def sumsRead (bs : List Byte) : ZoneSums where
  floor := [0, 1, 2, 3].map fun c => leAt bs (16 * c) 4
  need := [0, 1, 2, 3].map fun c => leAt bs (16 * c + 4) 4
  above := [0, 1, 2, 3].map fun c => leAt bs (16 * c + 8) 4
  lanes := [0, 1, 2, 3].map fun c => leAt bs (16 * c + 12) 2
  dwant := leAt bs 64 4
  dlanes := leAt bs 76 2

/-- A frame as received: its lengths agree and its CRC is good. -/
def headcountRead (bs : List Byte) : Option Headcount :=
  let typ := leAt bs 0 1
  let n := leAt bs 3 1
  let g := leAt bs 14 1
  let body := if typ = 2 then 80 else 32 * n
  let len := 0x20 + 4 * g + body + 4
  if (typ = 1 || typ = 2) && n ≤ 32 && g ≤ 16 && bs.length = len && crc32 (bs.take (len - 4)) = leAt bs (len - 4) 4 then
    let o := 0x20 + 4 * g
    some {
      typ := typ, flags := leAt bs 1 1, level := leAt bs 2 1, devid := leAt bs 4 2, algver := leAt bs 6 2, tick := leAt bs 8 4,
      zone := leAt bs 12 2, gcap := (List.range g).map fun i => (leAt bs (0x20 + 4 * i) 4 / 2 ^ 28, leAt bs (0x20 + 4 * i) 4 % 2 ^ 28),
      gdig := leAt bs 16 4, zlimit := leAt bs 20 4, zexp := leAt bs 24 4,
      entries := if typ = 2 then [] else (List.range n).map fun i => entryRead (slice bs (o + 32 * i) 32),
      sums := if typ = 2 then sumsRead (slice bs o 80) else {} }
  else none

/-! ## This device's headcount (R229 to R231, R236) -/

/-- Capacity of converter group `g`: the rated powers of its admitted modules (R236), in W. -/
def State.groupCap (s : State) (g : Nat) : Nat := (s.groupMods g).foldl (fun a m => a + m.2.rated) 0

/-- Does the discharge flag stand for lane `n` (R231)? -/
def State.discharging (s : State) (n : Nat) : Bool :=
  let p := s.pilLane n
  p.opened && p.discharge && s.laneType n = .dc && s.rd (F.PIL_Ln_SESS_SERVICE n) = 2 && s.on (F.PIL_Ln_CTL_BPT n)

/-- Do this device's entries declare a maximum of zero: before service (R79), or under the zone-confirmation fault (R93)? -/
def State.maxZero (s : State) : Bool := s.rd F.SYS_STAGE_STAGE ≠ 8 || s.on (F.FLT_SRCi_STK 0x09)

/-- Seconds from now to departure (R230). -/
def State.remainOf (s : State) (depart : Nat) : Nat :=
  if depart = 0 then 0 else max 1 ((1000 * depart - (1000 * s.wallSec + s.wallMs)) / 1000)

/-- The entry of lane `n`, before the clamp of R231. -/
def State.laneEntry (s : State) (n : Nat) : AlcEntry :=
  let v (i : Nat) : Nat := s.rd (F.PIL_Ln_EVMAX_VALUE n i)
  let zero := s.maxZero || s.causeFor 0x11 n
  { lane := n, cls := s.laneClass n, disch := s.discharging n,
    group := if s.laneType n = .dc then s.rd (F.EFM_Ln_CFG_GRP n) else 255,
    pmin := if zero then 0 else v 5, pmax := if zero then 0 else v 6, preq := if zero then 0 else v 7,
    pdis := if zero then 0 else v 8, gif := s.rdS (F.ALC_Ln_GRANT_W n), ewant := v 4, remain := s.remainOf (v 3) }

/-- The lanes listed (R229). -/
def State.listedLanes (s : State) : List Nat :=
  s.outlets.filter fun n => (s.laneEntry n).pmax ≠ 0 || s.discharging n || s.on (F.ALC_Ln_GRANT_W n)

/-- The PMIN left to entries of one group in the order of R231: lane and its clamped PMIN. -/
def clampMins : List AlcEntry → Nat → List (Nat × Nat)
  | [], _ => []
  | e :: es, left => (e.lane, min e.pmin left) :: clampMins es (left - min e.pmin left)

/-- R231: the PMIN of each converter group sum to at most its capacity. -/
def State.clampGroups (s : State) (es : List AlcEntry) : List AlcEntry :=
  let kept := (List.range 16).flatMap fun g =>
    clampMins ([3, 2, 1, 0].flatMap fun c => es.filter fun e => e.cls = c && e.group = g) (s.groupCap g)
  es.map fun e => match kept.find? fun k => k.1 = e.lane with
    | some k => { e with pmin := k.2 }
    | none => e

/-- Is this device's own version mismatched (R244)? -/
def State.selfVersion (s : State) : Bool := s.rd F.ALC_VER_RUN ≠ s.rd F.ALC_VER_CFG

/-- Does the device wait for a bulk turn on the site bus (R329)? -/
def State.bulkPending (s : State) : Bool := !s.sbu.bulkQ.isEmpty || !s.sbu.msgQ.isEmpty

/-- The headcount of this tick, as latched at the launch edge. -/
def State.ownHeadcount (s : State) : Headcount :=
  let es := s.clampGroups (s.listedLanes.map s.laneEntry)
  let a := s.alc
  let me := s.member s.devid
  let flags := b2n (s.rd F.TCK_SYNC_STATE = 0) + 2 * b2n s.clk.allocOverrunFlag + 4 * b2n a.partialView +
    8 * b2n (me.join ≠ 0 || me.last.typ = 0) + 16 * b2n a.rep + 32 * b2n (s.leafLevel ≠ 0 && 2 ≤ a.stale) + 64 * b2n s.selfVersion +
    128 * b2n s.bulkPending
  { typ := 1, flags := flags, level := s.leafLevel, devid := s.devid, algver := s.rd F.ALC_VER_RUN, tick := s.tick, zone := s.zoneAt s.leafLevel,
    gcap := ((List.range 16).filter fun g => es.any fun e => e.group = g).map fun g => (g, s.groupCap g),
    gdig := s.rd F.ALC_GDIG_DIG,
    zlimit := if a.rep then lk (fun _ => noLimit) a.grantI s.leafLevel else noLimit,
    zexp := if a.rep then lk (fun _ => noLimit) a.grantE s.leafLevel else noLimit,
    entries := es }

/-- Take a headcount into the leaf table: a device not in it is JOINING for JOINT ticks (R227). -/
def State.takeMember (s : State) (h : Headcount) : State :=
  let fresh := (s.member h.devid).last.typ = 0
  let joint := s.rd F.ALC_CFG_JOINT
  s.modMember h.devid fun m => { m with
    last := h, got := true, unsure := bitOf h.flags 0, join := if fresh then joint else m.join }

/-- Take a zone total into the table of the zone of level `h.level`: a child zone not in it is JOINING (R227). -/
def State.takeChild (s : State) (h : Headcount) : State :=
  let u := s.upZone h.level
  let c : AlcChild := lk (fun _ => {}) u.children h.zone
  let join := if c.last.typ = 0 then s.rd F.ALC_CFG_JOINT else c.join
  s.modUp h.level fun u => { u with children := put (fun _ => {}) u.children h.zone { c with last := h, got := true, join := join } }

/-- The zone totals this device sends as a representative: one for each level above which it stands (R238). Their flags speak of the
zone they are sent to. -/
def State.ownTotals (s : State) : List Headcount :=
  ((List.range 4).filter fun l => 1 ≤ l && l ≤ s.leafLevel && (if l = s.leafLevel then s.alc.rep else (s.upZone l).rep)).map fun l =>
    let up := s.upZone (l - 1)
    let me : AlcChild := lk (fun _ => {}) up.children (s.zoneAt l)
    let flags := b2n (s.rd F.TCK_SYNC_STATE = 0) + 2 * b2n s.clk.allocOverrunFlag + 4 * b2n up.partialView +
      8 * b2n (me.join ≠ 0 || me.last.typ = 0) + 16 * b2n up.rep + 32 * b2n (l ≠ 1 && 2 ≤ up.stale) + 64 * b2n s.selfVersion +
      128 * b2n s.bulkPending
    { typ := 2, flags := flags, level := l - 1, devid := s.devid,
      algver := s.rd F.ALC_VER_RUN, tick := s.tick, zone := s.zoneAt l, gdig := s.rd F.ALC_GDIG_DIG,
      zlimit := if up.rep then lk (fun _ => noLimit) s.alc.grantI (l - 1) else noLimit,
      zexp := if up.rep then lk (fun _ => noLimit) s.alc.grantE (l - 1) else noLimit,
      sums := lk (fun _ => {}) s.alc.sums l }

/-- The frames of this tick: the headcount latched at the launch edge, and the totals (R229, R238). -/
def State.sendHeadcount (s : State) : State :=
  let hs := (s.member s.devid).last :: s.ownTotals
  let s := s.ownTotals.foldl State.takeChild s
  s.modAlc fun a => { a with sent := true, tx := hs.map Headcount.wire }

/-! ## Headcounts received (R232, R244, R340) -/

/-- Does a frame count for this device's zone and tick? -/
def State.hcCounts (s : State) (h : Headcount) : Bool :=
  !s.alc.cut && (h.tick = s.tick || bitOf h.flags 0) &&
    (if h.typ = 1 then h.level = s.leafLevel && h.zone = s.zoneAt s.leafLevel else h.level < s.leafLevel)

/-- Two headcounts of one tick with one device ID: the duplicate-ID source (R244), before service the zone item of R93 instead. -/
def State.dupDevice (s : State) (d : Nat) : State :=
  (s.modMember d fun m => { m with dup := true }).when (s.rd F.SYS_STAGE_STAGE = 8) fun s => s.raiseOnce 0x32 1 none

/-- Take a headcount or total in. -/
def State.hcTake (s : State) (eth : Option (Fin 2)) (h : Headcount) : State :=
  if !s.hcCounts h then s
  else if h.typ = 2 then
    let u := s.upZone h.level
    let known := u.children.any fun c => c.1 = h.zone
    if known || u.children.length < 64 then s.takeChild h else s
  else
    let m := s.member h.devid
    if m.got && m.last = h && h.devid ≠ s.devid then
      match eth with
      | some p => s.countWrap (F.LNK_ETHp_STAT_DUP p)
      | none => s
    else if m.got || h.devid = s.devid then s.dupDevice h.devid
    else if m.last.typ ≠ 0 || s.alc.members.length < 256 then s.takeMember h
    else s

/-! ## Settling the table at the cutoff (R227, R228, R242 to R244) -/

/-- The value most of a list carry; a tie goes to the one met first, the lowest device ID. -/
def majority (xs : List Nat) : Option Nat :=
  let count (x : Nat) : Nat := (xs.filter (· = x)).length
  xs.foldl (fun r x => match r with | none => some x | some y => if count y < count x then some x else some y) none

/-- The zone version of the tick (R244). -/
def State.zoneVersion (s : State) : Option Nat := majority ((s.alc.members.filter fun m => m.2.got).map fun m => m.2.last.algver)

/-- Is the member mismatched by its version or its ID in this tick? -/
def memberBad (ver : Option Nat) (m : AlcMember) : Bool :=
  m.got && (m.dup || bitOf m.last.flags 6 || (match ver with | some v => m.last.algver ≠ v | none => false))

/-- One member at the cutoff. -/
def settleMember (ver : Option Nat) (m : AlcMember) : AlcMember :=
  let bad := memberBad ver m
  { m with
    missed := if m.got then 0 else m.missed + 1, overs := if m.got && bitOf m.last.flags 1 then m.overs + 1 else 0, bad := bad }

/-- How a member's entries are counted: in full, at their floors, or as in force (R242 to R244). -/
inductive Counting where
  | full | floors | inForce
  deriving DecidableEq, Repr

def countingOf (m : AlcMember) : Counting :=
  if !m.got then (if m.missed = 1 then .inForce else .floors)
  else if m.join ≠ 0 || m.mis ≠ 0 || m.bad || m.unsure then .floors
  else if m.overs = 0 then .full
  else if m.overs = 1 then .inForce else .floors

/-- How the entries of a child zone are counted in its parent's computation (R239, R242): as a member's. -/
def childCounting (c : AlcChild) : Counting :=
  if !c.got then (if c.missed = 1 then .inForce else .floors)
  else if c.join ≠ 0 || c.bad || bitOf c.last.flags 0 then .floors
  else if c.overs = 0 then .full
  else if c.overs = 1 then .inForce else .floors

/-- ALC_MEMm.STATE: a member that overran counts as missing once, then as missing (R242). -/
def memberCode (m : AlcMember) : Nat :=
  if !m.got || m.overs ≠ 0 then (if (if m.got then m.overs else m.missed) = 1 then 1 else 2)
  else if m.mis ≠ 0 || m.bad then 4
  else if m.join ≠ 0 then 3
  else if m.unsure then 5
  else 0

/-- Show the table. -/
def State.showTable (s : State) (ms : List (Nat × AlcMember)) : State :=
  let old := s.rd F.ALC_STAT_NMEMB
  let s := (List.range (max old ms.length)).foldl (fun s i =>
    match ms[i]? with
    | some (d, m) => ((s.wr (F.ALC_MEMm_TICK i) m.last.tick).wr (F.ALC_MEMm_STATE i) (memberCode m)).wr (F.ALC_MEMm_DEVID i) d
    | none => ((s.wr (F.ALC_MEMm_TICK i) 0).wr (F.ALC_MEMm_STATE i) 7).wr (F.ALC_MEMm_DEVID i) 0) s
  s.wr F.ALC_STAT_NMEMB ms.length

/-- DIGEST_CHECK (R243): the senders of a full view must carry one digest; answers the members that carry another one than most. -/
def digestOdd (ms : List (Nat × AlcMember)) : List Nat :=
  let full := ms.filter fun m => m.2.got && !bitOf m.2.last.flags 2
  match majority (full.map fun m => m.2.last.gdig) with
  | some d => (full.filter fun m => m.2.last.gdig ≠ d).map (·.1)
  | none => []

/-- The representative from the table as it stands (R228); a member counted as missing is not present. -/
def repOf (ms : List (Nat × AlcMember)) (odd : List Nat) : Option Nat :=
  (ms.find? fun m => m.2.got && m.2.overs = 0 && m.2.join ≤ 1 && m.2.mis ≤ 1 && !m.2.bad && !odd.contains m.1).map (·.1)

/-! ## The computation (R233 to R236, R241) -/

/-- The import entry of one lane as counted; `held` is the grant in force. -/
def importEntry (d : Nat) (how : Counting) (e : AlcEntry) (held : Int) : BurliEntry :=
  let b : BurliEntry := { dev := d, lane := e.lane, cls := e.cls, group := if e.group < 16 then some e.group else none }
  match how with
  | .full =>
    let h := min e.preq e.pmax - e.pmin
    let u := if e.ewant ≠ 0 && e.remain ≠ 0 then e.ewant * 3600 / max e.remain 60 else 0
    { b with f := e.pmin, h := h, n := min h (u - e.pmin) }
  | .floors => { b with f := e.pmin }
  | .inForce => { b with f := held.toNat }

/-- The export entry. -/
def exportEntry (d : Nat) (how : Counting) (e : AlcEntry) (held : Int) : BurliEntry :=
  let b : BurliEntry := { dev := d, lane := e.lane, cls := e.cls, group := if e.group < 16 then some e.group else none }
  match how with
  | .full => { b with h := e.pdis }
  | .floors => b
  | .inForce => { b with f := (-held).toNat }

/-- The grant of one entry after the rise limit (R235): whether it was limited, and the signed grant. -/
def riseGrant (how : Counting) (e : AlcEntry) (b : BurliEntry) (rise : Nat) : Bool × Int :=
  let g := b.f + b.a
  if how ≠ .full then (false, if e.disch then -(g : Int) else g)
  else if e.disch then
    let r := riseLimit g 0 (max 0 (-e.gif)) rise
    (r < g, -(r : Int))
  else
    let r := riseLimit g b.f e.gif rise
    (r < g, (r : Int))

/-- Find an entry's result. -/
def burliFind (bs : List BurliEntry) (d n : Nat) : BurliEntry :=
  match bs.find? fun b => b.dev = d && b.lane = n with
  | some b => b
  | none => { dev := d, lane := n, cls := 0 }

/-- Zone sums of an unbounded run (R238). -/
def sumsOf (imp exp_ : List BurliEntry) : ZoneSums :=
  let of_ (f : BurliEntry → Nat) : List Nat := [0, 1, 2, 3].map fun c => (imp.filter fun b => b.cls = c).foldl (fun t b => t + f b) 0
  { floor := of_ fun b => b.f, need := of_ fun b => min b.n b.a, above := of_ fun b => b.a, lanes := of_ fun b => b.w,
    dwant := exp_.foldl (fun t b => t + b.a) 0, dlanes := exp_.foldl (fun t b => t + b.w) 0 }

/-- The limit of a zone from what its representative carried (R240, R241), and what was carried last: for one tick without it the last
one, after that the sum of the zone's floors. -/
def parentLimit (own floors : Nat) (carried last : Option Nat) (stale : Nat) : Nat × Option Nat :=
  match carried with
  | some x => (min own x, some x)
  | none => match last with
    | some x => (if stale = 0 then min own x else floors, last)
    | none => (floors, last)

/-- The import and export limits of the zone of level `l` for a computation, what was carried last, and the ticks without it. -/
def State.zoneLimits (s : State) (l : Nat) (imp exp_ : List BurliEntry) (rep : Option Headcount) (lastI lastE : Option Nat) (stale : Nat) :
    (Nat × Option Nat) × (Nat × Option Nat) × Nat :=
  if l = 0 then ((s.rd (F.ALC_ZLIMj_W 0), none), (s.rd (F.ALC_ZEXPj_W 0), none), 0)
  else
    let limit (f : Headcount → Nat) : Option Nat := match rep with
      | some x => if f x = noLimit then none else some (f x)
      | none => none
    let i := limit (·.zlimit)
    (parentLimit (s.rd (F.ALC_ZLIMj_W l)) (floorSum imp) i lastI stale, parentLimit (s.rd (F.ALC_ZEXPj_W l)) (floorSum exp_) (limit (·.zexp)) lastE stale,
      if i.isSome then 0 else if lastI.isNone then 2 else stale + 1)

/-- The setpoint current of R246, in 0.1 A; open where the vehicle has stated no target voltage. -/
def State.iset (s : State) (n : Nat) (g : Int) : Nat × State :=
  let v := s.evTgtV n
  if v = 0 then s.draw else (min (s.evTgtI n) (g.toNat * 100 / v), s)

/-- Modules in the order of R350: by port, then address. -/
def modInsert (m : Nat × ModState) : List (Nat × ModState) → List (Nat × ModState)
  | [] => [m]
  | x :: xs => if m.2.port < x.2.port || (m.2.port = x.2.port && m.2.addr < x.2.addr) then m :: x :: xs else x :: modInsert m xs

def modSort (ms : List (Nat × ModState)) : List (Nat × ModState) := ms.foldl (fun l m => modInsert m l) []

/-- First pass of R350: one module for each lane. -/
def sharePass1 : List Nat → List (Nat × ModState) → List (Nat × List (Nat × ModState)) × List (Nat × ModState)
  | [], free => ([], free)
  | n :: ns, free =>
    let (r, f) := sharePass1 ns (free.drop 1)
    ((n, free.take 1) :: r, f)

/-- Shortfall of a lane. -/
def shortOf (grant : Nat → Int) (x : Nat × List (Nat × ModState)) : Int :=
  grant x.1 - (x.2.foldl (fun t m => t + m.2.rated) 0 : Nat)

/-- The lane with the largest shortfall, the lowest lane number on a tie. -/
def shortest (grant : Nat → Int) (xs : List (Nat × List (Nat × ModState))) : Option Nat :=
  (xs.foldl (fun r x => match r with
    | none => some (x.1, shortOf grant x)
    | some (n, v) => if v < shortOf grant x then some (x.1, shortOf grant x) else some (n, v)) none).bind fun r => if r.2 ≤ 0 then none else some r.1

/-- Second pass of R350. -/
def sharePass2 (grant : Nat → Int) : List (Nat × ModState) → List (Nat × List (Nat × ModState)) →
    List (Nat × List (Nat × ModState)) × List (Nat × ModState)
  | [], xs => (xs, [])
  | m :: free, xs =>
    match shortest grant (xs.filter fun x => !x.2.isEmpty) with
    | none => (xs, m :: free)
    | some n => sharePass2 grant free (xs.map fun x => if x.1 = n then (x.1, x.2 ++ [m]) else x)

/-- Currents of a lane's modules: in proportion to rating, the remainder to the first (R350). -/
def shareCurrents (iset : Nat) (ms : List (Nat × ModState)) : List (Nat × Nat) :=
  let total := max 1 (ms.foldl (fun t m => t + m.2.rated) 0)
  let is := ms.map fun m => (m.1, iset * m.2.rated / total)
  let rest := iset - is.foldl (fun t x => t + x.2) 0
  match is with
  | [] => []
  | x :: xs => (x.1, x.2 + rest) :: xs

/-- MODULE_SHARE (R350) of group `g`, for grants to take effect at site time `apply`. -/
def State.shareGroup (s : State) (grant : Nat → Int) (apply g : Nat) : List AlcSetpoint × List Nat × State :=
  let lanes := s.outlets.filter fun n => s.laneType n = .dc && s.rd (F.EFM_Ln_CFG_GRP n) = g && s.energised n && 0 < grant n
  let (first, free) := sharePass1 lanes (modSort (s.groupMods g))
  let (xs, free) := sharePass2 grant free first
  let (sets, s) := xs.foldl (fun (r : List AlcSetpoint × State) x =>
    if x.2.isEmpty then r
    else
      let (i, s) := r.2.iset x.1 (grant x.1)
      (r.1 ++ (shareCurrents i x.2).map fun m => ⟨m.1, apply, s.evTgtV x.1, m.2, x.1⟩, s)) ([], s)
  (sets ++ free.map (fun m => ⟨m.1, apply, 0, 0, 255⟩), (xs.filter fun x => x.2.isEmpty).map (·.1), s)

/-- Site time in ms. -/
def State.siteMs (s : State) : Nat := s.rd F.TCK_TIME_MS

/-- Entries in the order of their lanes (R226). -/
def laneInsert (e : AlcEntry) : List AlcEntry → List AlcEntry
  | [] => [e]
  | x :: xs => if e.lane < x.lane then e :: x :: xs else x :: laneInsert e xs

def byLane (es : List AlcEntry) : List AlcEntry := es.foldl (fun l e => laneInsert e l) []

/-- GRANT_COMPUTE (R233): the leaf computation over the settled table. -/
def State.computeLeaf (s : State) (ms : List (Nat × AlcMember)) : AlcResult × List (Nat × List (Nat × Int)) × ZoneSums × Bool × State :=
  let all : List (Nat × AlcMember × AlcEntry) := ms.flatMap fun m => (byLane m.2.last.entries).map fun e => (m.1, m.2, e)
  let held (m : AlcMember) (e : AlcEntry) : Int := match m.held.find? fun x => x.1 = e.lane with | some x => x.2 | none => e.pmin
  let imp := (all.filter fun x => !x.2.2.disch).map fun x => importEntry x.1 (countingOf x.2.1) x.2.2 (held x.2.1 x.2.2)
  let exp_ := (all.filter fun x => x.2.2.disch).map fun x => exportEntry x.1 (countingOf x.2.1) x.2.2 (held x.2.1 x.2.2)
  let caps := ms.flatMap fun m => m.2.last.gcap.map fun g => ((m.1, g.1), g.2)
  let l := s.leafLevel
  let rep := (ms.find? fun m => m.2.got && bitOf m.2.last.flags 4).map fun m => m.2.last
  let a := s.alc
  let ((limI, lastI), (limE, lastE), stale) := s.zoneLimits l imp exp_ rep a.limI a.limE a.stale
  let (ri, oversI) := allocate imp limI caps
  let (re, oversE) := allocate exp_ limE caps
  let rise := s.rd F.ALC_RISE_RISE
  let grants : List (Nat × Nat × Bool × Int × BurliEntry) := all.map fun x =>
    let b := burliFind (if x.2.2.disch then re else ri) x.1 x.2.2.lane
    let r := riseGrant (countingOf x.2.1) x.2.2 b rise
    (x.1, x.2.2.lane, r.1, r.2, b)
  let mine := grants.filter fun g => g.1 = s.devid
  let me := match ms.find? fun m => m.1 = s.devid with | some m => countingOf m.2 | none => .floors
  let info := mine.map fun g => (g.2.1,
    g.2.2.2.2.cls * 2 ^ 30 + b2n g.2.2.2.2.frozen * 2 ^ 29 + b2n (g.2.2.2.2.n ≠ 0) * 2 ^ 28 + b2n g.2.2.1 * 2 ^ 27 + b2n (me = .floors) * 2 ^ 25)
  let frozen := (List.range 16).filter fun g => (ri ++ re).any fun b => b.dev = s.devid && b.group = some g && b.frozen
  let (ui, _) := allocate imp (2 ^ 40) caps
  let (ue, _) := allocate exp_ (2 ^ 40) caps
  let vec := grants.flatMap fun g => leBytes 4 (codeOf 32 g.2.2.2.1)
  let nexts := ms.map fun m => (m.1, (grants.filter fun g => g.1 = m.1).map fun g => (g.2.1, g.2.2.2.1))
  let s := s.modAlc fun a => { a with limI := lastI, limE := lastE, stale := stale }
  let res : AlcResult := {
    grants := mine.map fun g => (g.2.1, g.2.2.2.1), info := info, frozen := frozen, limI := limI, limE := limE, digest := crc32 vec }
  (res, nexts, sumsOf ui ue, oversI || oversE, s)

/-- The setpoints of a computation: every group, for the next launch edge (R246, R350). -/
def State.computeModules (s : State) (r : AlcResult) : AlcResult × State :=
  let grant (n : Nat) : Int := match r.grants.find? fun g => g.1 = n with | some g => g.2 | none => 0
  let apply := s.siteMs - s.siteMs % max 1 s.periodMs + s.periodMs
  (List.range 16).foldl (fun (x : AlcResult × State) g =>
    let (sets, no, s) := x.2.shareGroup grant apply g
    ({ x.1 with setpoints := x.1.setpoints ++ sets, nomod := x.1.nomod ++ no }, s)) (r, s)

/-- A parent zone's table at the cutoff, settled as a leaf table is (R227, R242, R244). -/
def State.settleChildren (s : State) (j : Nat) : State :=
  let absent := s.rd F.ALC_CFG_ABSENT
  let cs := (s.upZone j).children
  let ver := majority ((cs.filter fun c => c.2.got).map fun c => c.2.last.algver)
  let settle (c : AlcChild) : AlcChild := { c with
    missed := if c.got then 0 else c.missed + 1, overs := if c.got && bitOf c.last.flags 1 then c.overs + 1 else 0,
    bad := c.got && (bitOf c.last.flags 6 || (match ver with | some v => c.last.algver ≠ v | none => false)) }
  s.modUp j fun u => { u with children := (cs.map fun c => (c.1, settle c.2)).filter fun c => c.2.missed < absent, repNext := false }

/-- The representative of a parent zone: the lowest device ID among the senders present, neither JOINING nor mismatched (R228). -/
def parentRep (cs : List (Nat × AlcChild)) : Option Nat :=
  ((cs.filter fun c => c.2.got && c.2.overs = 0 && c.2.join ≤ 1 && !c.2.bad).map fun c => c.2.last.devid).min?

/-- The parent computation of level `j` (R239, R242) over its settled table, for the members that are representatives of its
children. -/
def State.computeParent (s : State) (j : Nat) : State :=
  let u := s.upZone j
  let cs := u.children
  let entry (c : Nat × AlcChild) (k : Nat) : BurliEntry :=
    let x := c.2.last.sums
    let b : BurliEntry := { dev := c.1, lane := k, cls := k, w := nth x.lanes k }
    match childCounting c.2 with
    | .full => { b with f := nth x.floor k, h := nth x.above k, n := nth x.need k }
    | .inForce => { b with f := nth c.2.held k }
    | .floors => { b with f := nth x.floor k }
  let imp := cs.flatMap fun c => [0, 1, 2, 3].map (entry c)
  let exp_ := cs.map fun c =>
    let b : BurliEntry := { dev := c.1, lane := 4, cls := 0, w := c.2.last.sums.dlanes }
    match childCounting c.2 with
    | .full => { b with h := c.2.last.sums.dwant }
    | .inForce => { b with f := nth c.2.held 4 }
    | .floors => b
  let rep := (cs.find? fun c => c.2.got && bitOf c.2.last.flags 4).map fun c => c.2.last
  let ((limI, lastI), (limE, lastE), stale) := s.zoneLimits j imp exp_ rep u.limI u.limE u.stale
  let (ri, oversI) := allocate imp limI []
  let (re, oversE) := allocate exp_ limE []
  let ui := (allocate imp (2 ^ 40) []).1
  let ue := (allocate exp_ (2 ^ 40) []).1
  let got (z : Nat) : List Nat := ([0, 1, 2, 3].map fun k => let b := burliFind ri z k; b.f + b.a) ++ [let b := burliFind re z 4; b.f + b.a]
  let lacked := cs.any fun c => !c.2.got
  let cs := cs.map fun c => (c.1, { c.2 with next := got c.1, join := c.2.join - 1 })
  let z := s.zoneAt (j + 1)
  let mine := got z
  let s := s.when (oversI || oversE) fun s => s.sticky F.ALC_STAT_FLOOROVER
  let s := s.when (2 ≤ stale) fun s => s.sticky F.ALC_STAT_LIMSTALE
  let s := s.modUp j fun u => { u with
    children := cs, partialView := lacked, repNext := parentRep (u.children) = some s.devid, limI := lastI, limE := lastE, stale := stale }
  s.modAlc fun a => { a with
    grantI := put (fun _ => noLimit) a.grantI (j + 1) ((mine.take 4).foldl (· + ·) 0),
    grantE := put (fun _ => noLimit) a.grantE (j + 1) (nth mine 4),
    sums := put (fun _ => {}) a.sums j (sumsOf ui ue) }

/-- Is this device a member of the parent zone of level `j`: the representative of its child on the path? -/
def State.inParent (s : State) (j : Nat) : Bool :=
  j < s.leafLevel && (if j + 1 = s.leafLevel then s.alc.rep else (s.upZone (j + 1)).rep)

/-- The zone-confirmation condition at a cutoff (R93): counted while listening, where the DEVICE record's version counts too; in service
the cause ends after two ticks without a duplicate and at the zone version. -/
def State.confirmStep (s : State) (bad : Bool) : State :=
  if s.boot.listening then s.modBoot fun b => { b with zoneSeen := b.zoneSeen + 1, zoneBad := b.zoneBad + b2n (bad || s.selfVersion) }
  else if s.causeIs 0x09 then
    if bad then s.modBoot fun b => { b with zoneClear := 0 }
    else
      let s := s.modBoot fun b => { b with zoneClear := b.zoneClear + 1 }
      if 2 ≤ s.boot.zoneClear then (s.causeOff 0x09 none).modBoot fun b => { b with zoneClear := 0 } else s
  else s

/-- ALLOCATION_CUTOFF (R232): the table is settled, digests and versions are compared, and the computation starts. -/
def State.cutoff (s : State) : State :=
  let ver := s.zoneVersion
  let absent := s.rd F.ALC_CFG_ABSENT
  let ms := (s.alc.members.map fun m => (m.1, settleMember ver m.2)).filter fun m => m.2.missed < absent
  let odd := digestOdd ms
  let partial_ := ms.any fun m => !m.2.got
  let joint := s.rd F.ALC_CFG_JOINT
  let me := s.devid
  let dupMe := ms.any fun m => m.1 = me && m.2.dup
  let offZone := match ver with | some v => decide (v ≠ s.rd F.ALC_VER_RUN) | none => false
  let service := s.rd F.SYS_STAGE_STAGE = 8
  let verMe := s.selfVersion || offZone
  let s := s.when (!odd.isEmpty) fun s => (s.sticky F.ALC_STAT_DIVERGE).raiseOnce 0x30 1 none
  let s := s.when (ms.any fun m => m.2.bad) fun s => s.sticky F.ALC_STAT_MISMATCH
  let s := if verMe && service then s.raiseDev 0x31 1 else if s.causeIs 0x31 then s.causeOff 0x31 none else s
  let s := s.wrB F.ALC_STAT_SELFMIS <| service && (verMe || dupMe || ms.any fun m => m.1 = me && (m.2.mis ≠ 0 || m.2.bad))
  let s := s.when partial_ fun s => s.sticky F.ALC_STAT_PARTIAL
  let s := (s.showTable ms).confirmStep (dupMe || offZone)
  let (res, nexts, sums, overs, s) := s.computeLeaf ms
  let s := s.when overs fun s => s.sticky F.ALC_STAT_FLOOROVER
  let s := s.when (2 ≤ s.alc.stale && s.leafLevel ≠ 0) fun s => s.sticky F.ALC_STAT_LIMSTALE
  let (res, s) := s.computeModules res
  let s := (s.modAlc fun a => { a with grantI := [], grantE := [] }).each (List.range 3) State.settleChildren
  let s := s.each ((List.range 3).reverse.filter s.inParent) State.computeParent
  let members := ms.map fun m => (m.1, { m.2 with
    next := (match nexts.find? fun x => x.1 = m.1 with | some x => x.2 | none => []),
    join := m.2.join - 1, mis := if odd.contains m.1 then joint else m.2.mis - 1 })
  let repNext := repOf ms odd = some me
  let l := s.leafLevel
  s.modAlc fun a => { a with
    members := members, cut := true, partialView := partial_, repNext := repNext, running := some res, sums := put (fun _ => {}) a.sums l sums }

def execAllocationCutoff (s : State) : Host.Outcome State Fault Refusal :=
  .next <| if 6 ≤ s.rd F.SYS_STAGE_STAGE && !s.alc.cut && s.alc.launchAt + s.periodMs ≤ s.clk.frame + s.rd F.ALC_CFG_CUT then s.cutoff else s

/-- The controller's frame of a function: the identifier's PRIO, FUNC and DST, with SRC 0 (R348). -/
def canFrame (port prio func dst : Nat) (data : List Byte) : CanFrame := { port := port, prio := prio, func := func, dst := dst, data := data }

/-- The 29 bits of an identifier (R348). -/
def canId (prio func dst src : Nat) : Nat := ((prio * 64 + func) * 256 + dst) * 4096 + src * 16

/-- Put a frame on a CAN FD port, through the fault injector where it names the port (R354). -/
def State.canSend (s : State) (f : CanFrame) : State :=
  if s.rd F.LNK_FINJ_SEL = 6 + f.port then
    let flip (keep : Bool) (k : Nat) (f : CanFrame) : CanFrame := { f with data := flipBit f.data k, bad := !keep }
    let (fs, held, s) := s.inject finjLnk true flip s.lnk.canHeld f
    s.setLnk { s.lnk with canTx := s.lnk.canTx ++ fs, canHeld := held }
  else s.setLnk { s.lnk with canTx := s.lnk.canTx ++ [f] }

/-- A SETPOINT goes out on its port in service (R79), unless the port is off the bus: it is then late at the launch edge (R246, R349). -/
def State.sendSetpoint (s : State) (p : AlcSetpoint) : State :=
  let m := s.modAt p.module
  if s.rd F.SYS_STAGE_STAGE ≠ 8 then s
  else if s.on (F.LNK_CANp_CFG_EN m.port) && !s.lnk.busOff.getLsbD m.port then
    let s := s.canSend (canFrame m.port 1 0x03 m.addr (leBytes 4 p.apply ++ leBytes 2 p.v ++ leBytes 2 p.i ++ leBytes 1 p.out ++ [0]))
    let s := s.modModule p.module fun m => { m with out := p.out, setI := p.i }
    (s.wr (F.LNK_MODm_OUT p.module) p.out).wr (F.LNK_MODm_I p.module) p.i
  else s.setLnk { s.lnk with queued := s.lnk.queued ++ [p] }

/-- ALLOCATION_COMPUTED (R237): NEXT, INFO and the capacities shown, the time taken, and the setpoints queued. -/
def State.computed (s : State) (us : Nat) (r : AlcResult) : State :=
  let s := s.each s.outlets fun s n =>
    let g : Int := match r.grants.find? fun x => x.1 = n with | some x => x.2 | none => 0
    let bits_ := match r.info.find? fun x => x.1 = n with | some x => x.2 | none => 0
    let forced := s.on (F.ALC_Ln_INFO_FORCED n)
    let s := (s.wr (F.ALC_Ln_NEXT_W n) (codeOf 32 g)).setWord (A.ALC_Ln_INFO n) (BitVec.ofNat 32 bits_)
    (s.wrB (F.ALC_Ln_INFO_FORCED n) forced).wrB (F.ALC_Ln_INFO_NOMOD n) (r.nomod.contains n)
  let s := s.each (List.range 16) fun s g => (s.wrB (F.ALC_GCAPg_FROZEN g) (r.frozen.contains g)).wrSat (F.ALC_GCAPg_W g) (s.groupCap g)
  let s := ((s.wrSat F.ALC_PLIM_W r.limI).wrSat F.ALC_PEXP_W r.limE).wrSat F.ALC_TIME_LAST us
  let s := s.wr F.ALC_TIME_MAX (max (s.rd F.ALC_TIME_MAX) (min us 0xFFFF))
  let s := s.setLnk { s.lnk with canTx := [] }
  let s := r.setpoints.foldl State.sendSetpoint s
  s.modAlc fun a => { a with running := none, ready := some r }

def execAllocationComputed (us : Nat) (s : State) : Host.Outcome State Fault Refusal :=
  .next (match s.alc.running with
    | some r => s.computed us r
    | none => s)

/-! ## The launch edge (R52, R55, R245) -/

/-- The grant that takes effect: none rises above the guaranteed minimum while UNLOCKED (R48). -/
def State.launchGrant (s : State) (n : Nat) : Int :=
  let next := s.rdS (F.ALC_Ln_NEXT_W n)
  let now := s.rdS (F.ALC_Ln_GRANT_W n)
  let pmin : Int := s.rd (F.PIL_Ln_EVMAX_VALUE n 5)
  if s.rd F.TCK_SYNC_STATE = 0 && now < next then min next (max now pmin) else next

/-- One lane's grant at a launch edge: forced to zero while the stream-lost cause is present (R116, R245). -/
def State.launchLane (s : State) (n : Nat) : State :=
  if s.causeFor 0x11 n then (s.wr (F.ALC_Ln_GRANT_W n) 0).wrB (F.ALC_Ln_INFO_FORCED n) true
  else (s.wr (F.ALC_Ln_GRANT_W n) (codeOf 32 (s.launchGrant n))).wrB (F.ALC_Ln_INFO_FORCED n) false

/-- An overrun is counted and reported (R54). -/
def State.overran (s : State) (f : Fld) : State := (s.count f 1).raiseOnce 0x00 1 none

/-- GRANT_APPLY (R245); or, where the computation still runs at the launch edge, an overrun of the allocation tick (R54, R237): it is
dropped, the grants in force stay for one more tick, and on a second overrun in a row each lane falls to its guaranteed minimum (R55),
but for one forced to zero. -/
def State.applyGrants (s : State) : State :=
  if s.alc.running.isSome then
    let k := s.clk.allocOverruns + 1
    let s := (s.overran F.TCK_OVR_ALLOC).modClk fun c => { c with allocOverruns := k, allocOverrunFlag := true }
    if 2 ≤ k then s.each s.outlets fun s n => s.wr (F.ALC_Ln_GRANT_W n) (if s.causeFor 0x11 n then 0 else s.rd (F.PIL_Ln_EVMAX_VALUE n 5))
    else s
  else
    let s := (s.modClk fun c => { c with allocOverruns := 0, allocOverrunFlag := false }).each s.outlets State.launchLane
    match s.alc.ready with
    | some r => s.wr F.ALC_GDIG_DIG r.digest
    | none => s

/-- Late setpoints are not sent, and the modules keep the setpoint in force (R246). -/
def State.lateSetpoints (s : State) : State :=
  let late := s.lnk.queued.map fun p => (s.modAt p.module).port
  let s := s.each ((List.range 4).filter late.contains) fun s p => s.sticky (F.LNK_CANp_ST_LATE p)
  s.setLnk { s.lnk with queued := [] }

/-- Step 4 of R53 on a launch edge: the grants, the roles of this tick, and the headcount latched from the demand registers. -/
def State.launch (s : State) : State :=
  let s := s.applyGrants.lateSetpoints
  let now := s.clk.frame
  let s := s.modAlc fun a => { a with
    members := a.members.map fun m => (m.1, { m.2 with got := false, dup := false, held := m.2.next }),
    up := a.up.map fun u => (u.1, { u.2 with rep := u.2.repNext, children := u.2.children.map fun c => (c.1, { c.2 with got := false, held := c.2.next }) }),
    rep := a.repNext, launchAt := now, sent := false, cut := false, running := none, ready := none }
  let s := s.wrB F.ALC_STAT_REP s.alc.rep
  let s := s.latchPalc
  if 7 ≤ s.rd F.SYS_STAGE_STAGE then s.takeMember s.ownHeadcount else s

/-! ## Stream lost, discharge command -/

/-- STREAM_LOST (R116): still substituted 1,600 ticks after the first stuck tick; the lane fault, LOST on the whole group, and
the grant forced to zero at once. -/
def execStreamLost (n : Lane) (s : State) : Host.Outcome State Fault Refusal :=
  .next <|
    let l := s.lead n
    if (s.laneType l).outlet && s.groupLost l then
      let ended := !s.groupSub l
      let s := (s.raiseLane 0x11 2 l).each (s.groupOf l) fun s j => s.sticky (F.MET_Ln_STRSTAT_LOST j)
      let s := s.each (s.groupStreams l) fun s k => s.modStream k fun x => { x with lost := false }
      if ended then s.causeOff 0x11 (some (s.groupSet l)) else (s.wr (F.ALC_Ln_GRANT_W l) 0).wrB (F.ALC_Ln_INFO_FORCED l) true
    else s

/-- DISCHARGE_COMMAND (R231): the back office's command for a DC_BPT session. -/
def execDischargeCommand (n : Lane) (on : Bool) (s : State) : Host.Outcome State Fault Refusal :=
  .next <| if (s.pilLane n).opened && s.rd (F.PIL_Ln_SESS_SERVICE n) = 2 && s.on (F.PIL_Ln_CTL_BPT n) then
      s.modPilLane n fun p => { p with discharge := on }
    else s

end Sys2Proof.Machine
end

