-- ==== Sys2Proof/Machine/Cluster.lean ====
section
/-!
DEFINITION. The service cluster's memory and the extension sandbox (spec/22).
-/

namespace Sys2Proof.Machine

open Sys2Proof

def State.modClu (s : State) (f : CluState → CluState) : State := s.setClu (f s.clu)

/-! ## Coherence (R417, R418) -/

/-- DRAM address of a 64-byte line. -/
def lineAddr (line : Nat) : Nat := 0x80000000 + 64 * line

/-- Does a poisoned word lie in the line (R422, R425)? -/
def State.linePoisoned (s : State) (line : Nat) : Bool := s.clu.poison.any fun a => a / 64 = lineAddr line / 64

def State.dirLine (s : State) (line : Nat) : DirLine := lk (fun _ => {}) s.clu.dir line

def State.modLine (s : State) (line : Nat) (f : DirLine → DirLine) : State :=
  s.modClu fun c => { c with dir := put (fun _ => {}) c.dir line (f (s.dirLine line)) }

/-- The write-back of a line: the L2 copy then holds its data, and no core owns it. -/
def State.writeBack (s : State) (line : Nat) (bs : List Byte) : State :=
  (s.memWrite (lineAddr line) (padTo 64 bs)).modLine line fun d => { d with owner := none }

/-- The directory after core `c` is granted the line: sole owner, or one more reader. -/
def DirLine.grant (d : DirLine) (c : Nat) (own : Bool) : DirLine :=
  let b := BitVec.ofNat 4 (2 ^ c)
  if own then ⟨some c, b⟩
  else ⟨none, d.sharers ||| b ||| (match d.owner with | some o => BitVec.ofNat 4 (2 ^ o) | none => 0)⟩

/-- One core's request: granted, or answered with a bus error where the line is poisoned; the turn moves past it. -/
def State.grantCore (s : State) (line c : Nat) (own : Bool) : State :=
  if s.linePoisoned line then s.modClu fun x => { x with busErr := x.busErr ++ [c], next := (c + 1) % 4 }
  else (s.modLine line fun d => d.grant c own).modClu fun x => { x with grants := x.grants ++ [c], next := (c + 1) % 4 }

/-- COHERENCE_REQUEST (R418): the write-back of the line first, then the cores of `reqs` in rotating order; those of `owns` ask to
own the line. -/
def execCoherenceRequest (line : Nat) (wb : Option (List Byte)) (reqs owns : BitVec 4) (s : State) : Host.Outcome State Fault Refusal :=
  .next <|
    let s := s.modClu fun x => { x with grants := [], busErr := [] }
    let s := match wb with | some bs => s.writeBack line bs | none => s
    let start := s.clu.next
    let order := ([0, 1, 2, 3].map fun i => (start + i) % 4).filter fun c => reqs.getLsbD c
    s.each order fun s c => s.grantCore line c (owns.getLsbD c)

/-! ## DRAM banks (R420) -/

/-- Bank of a DRAM offset. -/
def dramBank (a : Nat) : Nat := bits a 13 10 ^^^ bits a 17 14 ^^^ bits a 21 18 ^^^ bits a 25 22

/-- An access of the DMA engine at DRAM offset `a`. -/
def State.bankUse (s : State) (a : Nat) : State :=
  let b := dramBank a
  s.modClu fun c => { c with banks := put (fun _ => 0) c.banks b (lk (fun _ => 0) c.banks b + 1) }

/-- CLU_BANK shows the frame's busiest bank (the DMA engine's accesses), and the extension's next slice begins. -/
def State.cluEdge (s : State) : State :=
  let total := s.clu.banks.foldl (fun t b => t + b.2) 0
  let top := s.clu.banks.foldl (fun m b => if m.2 < b.2 then b else m) (0, 0)
  let s := (s.wr F.CLU_BANK_BANK top.1).wrSat F.CLU_BANK_SHARE (if total = 0 then 0 else top.2 * 65536 / total)
  s.modClu fun c => { c with banks := [], slice := s.on F.CLU_XST_RUN }

/-! ## Memory errors (R422) -/

/-- Show the place of an error: 0 tick memory, 1 L2, 2 DRAM; its DMA-space address. -/
def State.eccAt (s : State) (wh : Nat) (addr : Word) : State := (s.wr F.CLU_ECC_WHERE wh).wr F.CLU_ECCADDR_ADDR (addr.toNat / 8 * 8)

/-- MEMORY_SCRUB (R422): each single-bit error found is corrected. -/
def execMemoryScrub (errs : List (Fin 3 × Word)) (s : State) : Host.Outcome State Fault Refusal :=
  .next (errs.foldl (fun s e => (((s.eccAt e.1 e.2).sticky F.CLU_ECC_COR).count F.CLU_ECCCNT_COR 1).raiseOnce 0xB8 0 none) s)

/-- MEMORY_ECC_ERROR (R422): the word is poisoned. -/
def execMemoryEccError (wh : Fin 3) (addr : Word) (s : State) : Host.Outcome State Fault Refusal :=
  .next <|
    let a := addr.toNat / 8 * 8
    let s := ((s.eccAt wh addr).sticky F.CLU_ECC_UNCOR).count F.CLU_ECCCNT_UNCOR 1
    (s.modClu fun c => { c with poison := if c.poison.contains a then c.poison else a :: c.poison }).raiseOnce 0xB9 1 none

/-- ECC_CNT_CLEAR: CLU_ECCCNT.CLR. -/
def State.eccClear (s : State) : State := (s.wr F.CLU_ECCCNT_COR 0).wr F.CLU_ECCCNT_UNCOR 0

def execEccCntClear (s : State) : Host.Outcome State Fault Refusal := .next s.eccClear

/-! ## The extension sandbox (R423, R424) -/

/-- The extension starts with the service image, where one is installed and enabled; what was committed by now is in force for it
(R423, R426). -/
def State.extStart (s : State) : State :=
  let there := match s.upd.run with | some i => i.ext | none => false
  let s := (s.wrB F.CLU_XST_RUN (there && s.on F.CLU_XCFG_EN)).wrB F.CLU_XST_STOPPED false
  let x : ExtReach := {
    reads := s.rd F.CLU_XRD_BLK
    writes := s.rd F.CLU_XWR_BLK
    dram := (0x80000000 + 0x100000 * s.rd F.CLU_XDRAM_BASE, 0x100000 * s.rd F.CLU_XDRAM_SIZE)
    tick := (0x20000000 + 0x1000 * s.rd F.CLU_XTICK_BASE, 0x1000 * s.rd F.CLU_XTICK_SIZE)
    slice := s.rd F.CLU_XCFG_SLICE
    vmax := s.rd F.CLU_XCFG_XVMAX }
  s.modClu fun c => { c with ext := x, refusals := [] }

/-- The extension is stopped until the next start. -/
def State.extStop (s : State) : State :=
  ((s.wrB F.CLU_XST_STOPPED true).wrB F.CLU_XST_RUN false).modClu fun c => { c with slice := false }

/-- EXTENSION_STOP (R424): CLU_XST.STOP. -/
def execExtensionStop (s : State) : Host.Outcome State Fault Refusal := .next s.extStop

/-- EXTENSION_SLICE_END (R423): `used` in 10 ns; unused time is not carried to the next frame. -/
def execExtensionSliceEnd (used : BitVec 16) (s : State) : Host.Outcome State Fault Refusal :=
  .next <| if s.on F.CLU_XST_RUN && s.clu.slice then
      (s.wr F.CLU_XST_USED (min used.toNat (1000 * s.clu.ext.slice))).modClu fun c => { c with slice := false }
    else s

/-- Does block `b` of the register map take writes from the sandbox? Never SYS, TCK, FLT, DMA, BIL, SAF, UPD, THM or CLU, and of KEY
only two registers. -/
def ExtReach.writesBlock (x : ExtReach) (b : Nat) : Bool := bitOf x.writes b && !([0, 1, 2, 3, 5, 10, 11, 12, 17, 18].contains b)

/-- Does block `b` give reads to the sandbox? Never KEY. -/
def ExtReach.readsBlock (x : ExtReach) (b : Nat) : Bool := bitOf x.reads b && b ≠ 11

/-- Does the sandbox reach address `a`, in the space of R384 (R423; log entry 53)? -/
def ExtReach.reaches (x : ExtReach) (write : Bool) (a : Nat) : Bool :=
  let within (w : Nat × Nat) : Bool := w.1 ≤ a && a < w.1 + w.2
  if a < 0x150000 then
    if write then a / 4 * 4 = A.KEY_CMD || a / 4 * 4 = A.KEY_ADDR || x.writesBlock (blockOf a) else x.readsBlock (blockOf a)
  else within x.dram || within x.tick

/-- SANDBOX_VIOLATION (R424): an access of the extension outside its reach is refused: a read returns zero, a write does nothing. XVMAX
refusals within 1 s stop the extension. -/
def execSandboxViolation (a : ExtAccess) (s : State) : Host.Outcome State Fault Refusal :=
  .next <| if s.on F.CLU_XST_RUN && !(s.clu.ext.reaches a.write a.addr.toNat) then
      let s := ((s.sticky F.CLU_XST_VIO).wr F.CLU_XVIO_ADDR a.addr.toNat).raiseOnce 0xBA 1 none
      let seen := s.clk.frame :: s.clu.refusals.filter fun t => s.clk.frame < t + 1000
      let s := s.modClu fun c => { c with refusals := seen, readBack := if a.write then c.readBack else 0 }
      if s.clu.ext.vmax ≤ seen.length then s.extStop else s
    else s

end Sys2Proof.Machine
end

