-- ==== Sys2Proof/Machine/Display.lean ====
section
/-!
DEFINITION. The display port (spec/21): the self-emissive panel, its power sequences, the segment glass.
-/

namespace Sys2Proof.Machine

open Sys2Proof

def State.modDpy (s : State) (f : DpyState → DpyState) : State := s.setDpy (f s.dpy)

/-- DPY_STAT.STATE: 0 off, 1 rising, 2 black frame, 3 on, 4 falling. -/
def State.dpyState (s : State) : Nat := s.rd F.DPY_STAT_STATE

/-- The mode in force: 3 acts as 0. -/
def State.dpyMode (s : State) : Nat := s.rd F.DPY_CFG_MODE % 3

def State.rdly (s : State) : Nat := s.rd F.DPY_CFG_RDLY

/-- Temperature used, in 1/16 °C: the selected sensor's last good reading, 25 °C where there is none (R412). -/
def State.dpyTemp (s : State) : Int :=
  let m := s.rd F.DPY_TCOMP_TSEL
  if 63 < m || !s.on (F.MET_SNBm_T_VALID m) then 400 else s.rdS (F.MET_SNBm_T_TEMP m)

/-- Reference current of colour `c` at a temperature, in 0.1 µA (R412). -/
def State.irefOf (s : State) (t : Int) (c : Nat) : Nat :=
  let i := Int.tdiv ((s.rd (F.DPY_IREFc_IREF c) : Int) * (16000000 + s.rdS (F.DPY_IREFc_TC c) * (t - 400))) 16000000
  (clampInt 0 1100 i).toNat

/-- Drive voltage of the glass at a temperature, in 10 mV (R415). -/
def State.vlcdOf (s : State) (t : Int) : Nat :=
  let tcv := s.rdS F.DPY_LCD_TCV
  (clampInt 250 500 ((s.rd F.DPY_LCD_V25 : Int) + Int.tdiv (tcv * (t - 400)) 160)).toNat

/-- A pixel as sent: the gamma codes of its three bytes (R410). -/
def DpyState.pixel (d : DpyState) (w : Nat) : Nat :=
  d.gamma.getD (w / 2 ^ 16 % 256) 0 * 2 ^ 20 + d.gamma.getD (256 + w / 2 ^ 8 % 256) 0 * 2 ^ 10 + d.gamma.getD (512 + w % 256) 0

/-- Pixel `i` of the frame on show, 0 in a black frame (R410, R413). -/
def State.pixelOut (s : State) (i : Nat) : Nat :=
  if s.dpy.emis then s.dpy.pixel (leNat (s.memRead (s.dpy.fbase + 4 * i) 4)) else 0

/-- The eight nibbles of a pixel word, most significant first, as the data lanes carry them (R410). -/
def pixelNibbles (w : Nat) : List Nat := [7, 6, 5, 4, 3, 2, 1, 0].map fun k => w / 16 ^ k % 16

/-- DISPLAY_ON (R413, R414). -/
def State.displayOn (s : State) : State :=
  if !s.boot.vddField then s else
  match s.dpyMode, s.dpyState with
  | 1, 0 => (s.wr F.DPY_STAT_STATE 1).modDpy fun d => { d with
      ven := 1, stepAt := s.clk.frame + s.rdly, fast := false, onHeld := false, black := false, refBad := [0, 0, 0] }
  | 1, 4 => s.modDpy fun d => { d with onHeld := true }
  | 2, 0 => (s.wr F.DPY_STAT_STATE 3).modDpy fun d => { d with scan := true, positive := true }
  | _, _ => s

def execDisplayOn (s : State) : Host.Outcome State Fault Refusal := .next s.displayOn

/-- DISPLAY_OFF (R413): emission ends at once; while rising, the fall starts from the step reached. -/
def State.displayOff (s : State) : State :=
  match s.dpyMode, s.dpyState with
  | 1, 1 => (s.wr F.DPY_STAT_STATE 4).modDpy fun d => { d with emis := false, black := true, stepAt := s.clk.frame }
  | 1, 2 => (s.wr F.DPY_STAT_STATE 4).modDpy fun d => { d with emis := false, black := false }
  | 1, 3 => (s.wr F.DPY_STAT_STATE 4).modDpy fun d => { d with emis := false, black := false }
  | 2, _ => (s.wr F.DPY_STAT_STATE 0).modDpy fun d => { d with scan := false }
  | _, _ => s

def execDisplayOff (s : State) : Host.Outcome State Fault Refusal := .next s.displayOff

/-- A power-fail warning takes the panel down fast (R413). -/
def State.dpyPowerFail (s : State) : State :=
  if s.dpyMode = 1 && s.dpyState ≠ 0 then
    ((s.wr F.DPY_STAT_STATE 4).sticky F.DPY_STAT_PFDOWN).modDpy fun d => { d with emis := false, black := true, fast := true, stepAt := s.clk.frame }
  else s

/-- The rail that falls next. -/
def railDown (v : BitVec 3) : BitVec 3 := if v = 7 then 3 else if v = 3 then 1 else 0

/-- DISPLAY_RAIL_STEP (R413). -/
def execDisplayRailStep (s : State) : Host.Outcome State Fault Refusal :=
  .next <|
    let next := if s.dpy.fast then s.clk.frame else s.clk.frame + s.rdly
    if s.clk.frame < s.dpy.stepAt then s
    else if s.dpyState = 1 && s.dpy.ven ≠ 7 then
      s.modDpy fun d => { d with ven := d.ven * 2 + 1, stepAt := next }
    else if s.dpyState = 4 && s.dpy.black then
      let s := s.modDpy fun d => { d with ven := railDown d.ven, stepAt := next }
      if s.dpy.ven = 0 then
        let s' := (s.wr F.DPY_STAT_STATE 0).modDpy fun d => { d with fast := false, black := false }
        if s.dpy.onHeld then s'.displayOn else s'
      else s
    else s

/-- What a frame start latches (R411, R412). -/
def State.latchFrame (s : State) : State :=
  let t := s.dpyTemp
  let s := s.wr F.DPY_TCOMP_TEMP (codeOf 16 t)
  let g := (List.range 768).map fun i => s.rd (F.DPY_GAMc_i_CODE (i / 256) (i % 256))
  s.modDpy fun d => { d with fbase := s.rd F.DPY_FBASE_ADDR / 4 * 4, gamma := g, iref := [0, 1, 2].map (s.irefOf t) }

/-- The reference balls over one frame (R412): the tenth bad frame in a row raises 0xB4, and the panel powers down. -/
def State.refCheck (s : State) (bad : BitVec 3) : State :=
  let cnt := [0, 1, 2].map fun c => if bad.getLsbD c then nth s.dpy.refBad c + 1 else 0
  let s := s.modDpy fun d => { d with refBad := cnt }
  if cnt.contains 10 then ((s.sticky F.DPY_STAT_REFERR).raiseOnce 0xB4 1 none).displayOff else s

/-- One more frame sent. -/
def State.frameSent (s : State) : State := s.countWrap F.DPY_STAT_FRAMES

/-- A frame start of the panel (R411, R413). -/
def State.panelStart (s : State) (bad : BitVec 3) : State :=
  match s.dpyState with
  | 1 => if s.dpy.ven = 7 && s.dpy.stepAt ≤ s.clk.frame then (s.latchFrame.wr F.DPY_STAT_STATE 2).frameSent else s
  | 2 => (((s.latchFrame.wr F.DPY_STAT_STATE 3).modDpy fun d => { d with emis := true }).frameSent).refCheck bad
  | 3 => s.latchFrame.frameSent.refCheck bad
  | 4 =>
    if s.dpy.black then s
    else
      let r := max 1 (s.rd F.DPY_PANEL_RATE)
      s.latchFrame.frameSent.modDpy fun d => { d with black := true, stepAt := s.clk.frame + (1000 + r - 1) / r }
  | _ => s

/-- A frame start of the glass: data and voltage change only with a positive frame (R414, R415). -/
def State.glassStart (s : State) : State :=
  if !s.dpy.scan then s
  else
    let s := if s.dpy.positive then
        let t := s.dpyTemp
        let s := (s.wr F.DPY_TCOMP_TEMP (codeOf 16 t)).wr F.DPY_VLCD_V (s.vlcdOf t)
        s.modDpy fun d => { d with seg := [0, 1, 2, 3].map fun c => s.rd (F.DPY_SEGDc_ON c) }
      else s
    (s.modDpy fun d => { d with positive := !d.positive }).frameSent

/-- DISPLAY_FRAME_START (R411); `badRefs`: the colours whose reference ball was out of range over the frame. -/
def execDisplayFrameStart (badRefs : BitVec 3) (s : State) : Host.Outcome State Fault Refusal :=
  .next <| if s.dpyMode = 1 then s.panelStart badRefs else if s.dpyMode = 2 then s.glassStart else s

/-- Polarity of a common slot of the running frame: inverted by frame, and by slot under line inversion (R414). -/
def State.slotPositive (s : State) (slot : Nat) : Bool := (!s.dpy.positive) != (s.on F.DPY_LCD_INV && slot % 2 = 1)

end Sys2Proof.Machine
end

