-- ==== Sys2Proof/Machine/Vehicle.lean ====
section
/-!
DEFINITION. What a vehicle, a card, the back office and firmware say to a session: SLAC (R183 to R185), the session protocols
(R186 to R189), authorisation (R190 to R192).
-/

namespace Sys2Proof.Machine

open Sys2Proof

/-- The device's answer on lane `n`. -/
def State.answer (s : State) (n : Nat) (m : PilMsg) (r : PilResult) : State := s.modPilLane n fun p => { p with reply := { msg := m, result := r } }

/-! ## The modem and SLAC (R182 to R185) -/

/-- The modem address of lane `n` (R182): 02-4C-00, the device ID, the lane. -/
def State.modemMac (s : State) (n : Nat) : Nat := (0x024C00 * 2 ^ 16 + s.rd F.SYS_DEVID_DEVID) * 2 ^ 8 + n

/-- A frame reaches lane `n`'s modem (R182): its mode, and the frames with a bad check before it. -/
def State.modemRx (s : State) (n : Nat) (rx : ModemRx) : State :=
  if (s.laneType n).outlet then (s.wr (F.PIL_Ln_MDM_ROBO n) rx.robo).count (F.PIL_Ln_MDM_CRCERR n) rx.bad.toNat else s

/-- A SLAC answer of lane `n`, from its modem's address. -/
def State.slacAnswer (s : State) (n : Nat) (m : PilMsg) (r : PilResult) : State :=
  let mac := s.modemMac n
  s.modPilLane n fun p => { p with reply := { msg := m, result := r, mac := mac } }

/-- Is lane `n` in SLAC, driving 5 %, and not about to leave it? -/
def State.slacOpen (s : State) (n : Nat) : Bool := s.sessStep n = 3 && (s.pilLane n).slacF.isNone && (s.pilLane n).next.isNone

/-- CM_SLAC_PARM_REQ (R183): the vehicle's address and run, confirmed; a validation of an earlier run is void (R184). -/
def execCmSlacParmReq (l : LineRx) (mac : BitVec 48) (run : BitVec 64) (s : State) : Host.Outcome State Fault Refusal :=
  .next <|
    let s := s.modemRx l.lane l.rx
    let now := s.clk.frame
    if s.slacOpen l.lane then
      ((s.wrB (F.PIL_Ln_SLAC_VALID l.lane) false).modPilLane l.lane fun p => { p with
        mac := mac.toNat, run := run.toNat, parmAt := some now, mayMatch := false, needToggle := false }).slacAnswer l.lane .slacParm .ok
    else s

/-- The run of a vehicle, if soundings were announced. -/
def State.slacRun (s : State) (mac run : Nat) : Option SlacRun := s.pil.runs.find? fun r => r.mac = mac && r.run = run

/-- CM_START_ATTEN_CHAR_IND (R183): a sounding run is announced. -/
def execCmStartAttenCharInd (l : LineRx) (mac : BitVec 48) (run : BitVec 64) (sounds : Byte) (s : State) :
    Host.Outcome State Fault Refusal :=
  .next <|
    let s := s.modemRx l.lane l.rx
    if s.slacOpen l.lane && sounds ≠ 0 then
      let new : SlacRun := { mac := mac.toNat, run := run.toNat, start := s.clk.frame, total := sounds.toNat }
      s.modPil fun p => { p with runs := new :: p.runs.filter fun r => !(r.mac = mac.toNat && r.run = run.toNat) }
    else s

/-- Sum of one sounding's attenuations over the 58 carrier groups. -/
def soundSum (gs : List Byte) : Nat := (gs.take 58).foldl (fun a b => a + b.toNat) 0

/-- Sum of the attenuations lane `k` saw in a run, and the number of values in it. -/
def SlacRun.sum (r : SlacRun) (k : Nat) : Nat := lk (fun _ => 0) r.sums k

def SlacRun.values (r : SlacRun) (k : Nat) : Nat := 58 * lk (fun _ => 0) r.counts k

/-- Is lane `k`'s mean attenuation at most lane `j`'s less `m` dB, and at most lane `j`'s plus `m` dB? Means are compared exactly. -/
def SlacRun.below (r : SlacRun) (m k j : Nat) : Bool := r.sum k * r.values j + m * r.values k * r.values j ≤ r.sum j * r.values k

def SlacRun.near (r : SlacRun) (m k j : Nat) : Bool := r.sum k * r.values j ≤ r.sum j * r.values k + m * r.values k * r.values j

/-- The mean as PIL_Ln_SLAC shows it, in whole dB (truncated: log 33). -/
def SlacRun.mean (r : SlacRun) (k : Nat) : Nat := min 0xFE (r.sum k / max 1 (r.values k))

/-- One lane's reception of a sounding joins the run. -/
def SlacRun.add (r : SlacRun) (a : LaneAtten) : SlacRun :=
  { r with
    sums := put (fun _ => 0) r.sums a.lane.val (r.sum a.lane.val + soundSum a.groups),
    counts := put (fun _ => 0) r.counts a.lane.val (lk (fun _ => 0) r.counts a.lane.val + 1) }

/-- The lanes a run is compared on: those in PLUGGED or SLAC that heard it (R184). -/
def State.heardLanes (s : State) (r : SlacRun) : List Nat :=
  (r.counts.map (·.1)).filter fun n => (s.laneType n).outlet && (s.sessStep n = 2 || s.sessStep n = 3)

/-- Least of a list of numbers; none for an empty list. -/
def leastOf : List Nat → Option Nat
  | [] => none
  | x :: xs => match leastOf xs with | none => some x | some y => some (min x y)

/-- One lane's part of SOUNDING_COMPARE (R184): the registers, and whether it answers normally, after toggles only, or not. A
validation of an earlier run is void. -/
def State.slacJudge (s : State) (r : SlacRun) (n : Nat) : State :=
  let m := s.rd F.PIL_CFG_SLACMARGIN
  let lanes := s.heardLanes r
  let others := lanes.filter (· ≠ n)
  let alone (k : Nat) : Bool := (lanes.filter (· ≠ k)).all fun j => r.below m k j
  let low (k : Nat) : Bool := lanes.all fun j => r.below 0 k j
  let s := (s.wr (F.PIL_Ln_SLAC_ATTEN n) (r.mean n)).wr (F.PIL_Ln_SLAC_NEXT n) ((leastOf (others.map r.mean)).getD 0xFF)
  let s := s.wrB (F.PIL_Ln_SLAC_VALID n) false
  let may := alone n || (!(lanes.any alone) && lanes.any fun k => low k && r.near m n k)
  if may then
    (s.modPilLane n fun p => { p with mac := r.mac, run := r.run, mayMatch := true, needToggle := !alone n }).slacAnswer n .attenChar .ok
  else
    (s.modPilLane n fun p => { p with mayMatch := false }).count (F.PIL_Ln_SLAC_WITHHELD n) 1

/-- A run has ended: every lane that received a sounding of it is judged over the soundings received (R183, R184). -/
def State.runEnd (s : State) (r : SlacRun) : State :=
  (s.modPil fun p => { p with runs := p.runs.filter fun x => !(x.mac = r.mac && x.run = r.run) }).each (s.heardLanes r) fun s n => s.slacJudge r n

/-- CM_MNBC_SOUND_IND (R183, R184): a sounding as each lane's modem received it; the last one announced ends the run. -/
def execCmMnbcSoundInd (mac : BitVec 48) (run : BitVec 64) (atten : List LaneAtten) (s : State) : Host.Outcome State Fault Refusal :=
  .next <|
    let s := atten.foldl (fun s a => s.modemRx a.lane a.rx) s
    match s.slacRun mac.toNat run.toNat with
    | none => s
    | some r =>
      let r := atten.foldl SlacRun.add { r with heard := r.heard + 1 }
      if r.total ≤ r.heard then s.runEnd r
      else s.modPil fun p => { p with runs := r :: p.runs.filter fun x => !(x.mac = r.mac && x.run = r.run) }

/-- TT_EVSE_match_MNBC and TT_EVSE_match_session of ISO 15118-3, in ms (R183 names the standard; PRESUMED, log 33). -/
def soundWaitMs : Nat := 600

def matchWaitMs : Nat := 10000

/-- At an edge: a run with soundings lost ends with the standard's time for them. -/
def State.soundsEdge (s : State) : State :=
  (s.pil.runs.filter fun r => r.start + soundWaitMs ≤ s.clk.frame).foldl State.runEnd s

/-- Does an address, and run, belong to the run this lane answered? -/
def State.slacMine (s : State) (n mac : Nat) : Bool := s.slacOpen n && (s.pilLane n).mayMatch && (s.pilLane n).mac = mac

/-- CM_ATTEN_CHAR_RSP (R183): the vehicle acknowledges; no answer is outstanding. -/
def execCmAttenCharRsp (l : LineRx) (mac : BitVec 48) (run : BitVec 64) (s : State) : Host.Outcome State Fault Refusal :=
  .next <|
    let s := s.modemRx l.lane l.rx
    if s.slacMine l.lane mac.toNat && (s.pilLane l.lane).run = run.toNat then s.slacAnswer l.lane .none .ok else s

/-- CM_VALIDATE_REQ (R183, R184): did the vehicle's toggles appear on this lane's own pilot? -/
def execCmValidateReq (l : LineRx) (mac : BitVec 48) (toggles : Bool) (s : State) : Host.Outcome State Fault Refusal :=
  .next <|
    let s := s.modemRx l.lane l.rx
    if s.slacMine l.lane mac.toNat then
      if toggles then (s.wrB (F.PIL_Ln_SLAC_VALID l.lane) true).slacAnswer l.lane .validate .ok else s.slacAnswer l.lane .validate .failed
    else s

/-- CM_SLAC_MATCH_REQ (R183, R184): the match is confirmed, a fresh network key is drawn and the logical network formed. -/
def execCmSlacMatchReq (l : LineRx) (mac : BitVec 48) (run : BitVec 64) (s : State) : Host.Outcome State Fault Refusal :=
  .next <|
    let s := s.modemRx l.lane l.rx
    if s.slacMine l.lane mac.toNat && (s.pilLane l.lane).run = run.toNat then
      if (s.pilLane l.lane).needToggle && !s.on (F.PIL_Ln_SLAC_VALID l.lane) then s.slacAnswer l.lane .slacMatch .failed
      else
        let (key, s) := s.random 16
        let s := ((s.wrB (F.PIL_Ln_SLAC_MATCHED l.lane) true).wr (F.PIL_Ln_EVMAC_MAC l.lane) mac.toNat).wr (F.PIL_Ln_MDM_LINK l.lane) 3
        (s.modPilLane l.lane fun p => { p with nmk := key, parmAt := none }).slacAnswer l.lane .slacMatch .ok
    else s

/-- Has the vehicle's attempt gone on for the standard's time without a match? -/
def State.matchLate (s : State) (n : Nat) : Bool :=
  match (s.pilLane n).parmAt with
  | some t => t + matchWaitMs ≤ s.clk.frame
  | none => false

/-- SLAC_TIMEOUT (R185): SLAC fails or SLACI expires. State F for 4 s while a retry is left; then cause 0x19, or basic charging
for a lane with HLC preferred. -/
def execSlacTimeout (n : Lane) (failed : Bool) (s : State) : Host.Outcome State Fault Refusal :=
  .next <|
    let p := s.pilLane n
    if s.slacOpen n && !p.changed && (failed || s.matchLate n || p.slacAt + p.limit ≤ s.clk.frame) then
      if s.rd F.PIL_CFG_SLACRETRY < s.rd (F.PIL_Ln_SLAC_TRIES n) then
        let s := s.sticky (F.PIL_Ln_EVT_SLACFAIL n)
        if s.laneType n = .dc || 2 ≤ s.rd (F.PIL_Ln_CTL_MODE n) then s.decideExit n 0x19
        else (s.modPilLane n fun p => { p with basic := true, next := some 5 }).wr (F.PIL_Ln_MDM_LINK n) 0
      else
        let now := s.clk.frame
        s.modPilLane n fun p => { p with slacF := some now, parmAt := none }
    else s

/-- SLAC_RETRY_RESUME (R185): after 4 s in F the lane returns to 5 % and SLAC starts again. -/
def execSlacRetryResume (n : Lane) (s : State) : Host.Outcome State Fault Refusal :=
  .next <| match (s.pilLane n).slacF with
    | some t =>
      if s.sessStep n = 3 && t + 4000 ≤ s.clk.frame then
        let now := s.clk.frame
        let s := s.modPilLane n fun p => { p with slacF := none, slacAt := now, mac := 0, run := 0, mayMatch := false, needToggle := false }
        (s.count (F.PIL_Ln_SLAC_TRIES n) 1).wrB (F.PIL_Ln_SLAC_VALID n) false
      else s
    | none => s

/-! ## Session protocols (R186 to R189) -/

/-- A session with its logical network up. -/
def State.linked (s : State) (n : Nat) : Bool := (s.pilLane n).opened && s.rd (F.PIL_Ln_MDM_LINK n) = 3

/-- The protocol in use. -/
def State.proto (s : State) (n : Nat) : Nat := s.rd (F.PIL_Ln_SESS_PROTO n)

/-- A message of the protocols `ps`, on a lane of kind `kind` (none: either): answered by `f`, or FAILED where the protocol in
use does not list it (R186). -/
def State.message (s : State) (l : LineRx) (m : PilMsg) (ps : List Nat) (kind : Option Bool) (f : State → State) : State :=
  let s := s.modemRx l.lane l.rx
  if s.linked l.lane then
    if ps.contains (s.proto l.lane) && (match kind with | some dc => (s.laneType l.lane = .dc) = dc | none => true) then f s
    else s.answer l.lane m .failed
  else s

/-- An unsupported request ends the session with cause 0x1A (R187, R188). -/
def State.protoError (s : State) (n : Nat) (m : PilMsg) : State := (s.answer n m .failed).decideExit n 0x1A

/-- SDP_REQUEST (R186): discovery on the lane's network, with or without TLS. -/
def execSdpRequest (l : LineRx) (tls : Bool) (s : State) : Host.Outcome State Fault Refusal :=
  .next <|
    let s := s.modemRx l.lane l.rx
    if s.linked l.lane && s.sessStep l.lane = 4 then (s.modPilLane l.lane fun p => { p with tls := tls }).answer l.lane .sdp .ok else s

/-- Does an offer match (R186, R188)? ISO 15118-20 needs TLS, ISO 15118-2 needs it unless the POLICY record allows otherwise. -/
def State.protoMatches (s : State) (n : Nat) (o : ProtoOffer) : Bool :=
  let k := o.proto.val
  let tls := (s.pilLane n).tls
  k ≠ 0 && s.rdBit (F.PIL_Ln_CTL_PROTO n) (k - 1) && (s.laneType n = .dc || k ≠ 1) &&
    (k = 1 || tls || (k = 2 && s.boot.policy.plainTls))

/-- The matching offer of highest priority. -/
def State.bestOffer (s : State) (n : Nat) (os : List ProtoOffer) : Option ProtoOffer :=
  (os.filter (s.protoMatches n)).foldl (fun r o => match r with | none => some o | some b => if o.priority < b.priority then some o else some b) none

/-- SUPPORTED_APP_PROTOCOL (R188). -/
def execSupportedAppProtocol (l : LineRx) (offers : List ProtoOffer) (s : State) : Host.Outcome State Fault Refusal :=
  .next <|
    let s := s.modemRx l.lane l.rx
    if s.linked l.lane && s.sessStep l.lane = 4 && s.proto l.lane = 0 then
      match s.bestOffer l.lane offers with
      | some o => (s.wr (F.PIL_Ln_SESS_PROTO l.lane) o.proto).answer l.lane .appProtocol .ok
      | none => s.protoError l.lane .appProtocol
    else s

/-- SESSION_SETUP (R186). -/
def execSessionSetup (l : LineRx) (s : State) : Host.Outcome State Fault Refusal :=
  .next (s.message l .sessionSetup [1, 2, 3] none fun s => (s.modPilLane l.lane fun p => { p with setup := true }).answer l.lane .sessionSetup .ok)

/-- SERVICE_DISCOVERY (R186). -/
def execServiceDiscovery (l : LineRx) (s : State) : Host.Outcome State Fault Refusal :=
  .next (s.message l .serviceDiscovery [1, 2, 3] none fun s => s.answer l.lane .serviceDiscovery .ok)

/-- SERVICE_DETAIL (R186): in ISO 15118-2 for the certificate service only. -/
def execServiceDetail (l : LineRx) (certService : Bool) (s : State) : Host.Outcome State Fault Refusal :=
  .next (s.message l .serviceDetail [2, 3] none fun s =>
    s.answer l.lane .serviceDetail (if s.proto l.lane = 3 || certService then .ok else .failed))

/-- The SERVICE code of an energy service the lane offers under the protocol in use (R186, R188). -/
def State.serviceCode (s : State) (n : Nat) (svc : EnergyService) : Option Nat :=
  match svc with
  | .ac => if s.laneType n = .dc then none else some 0
  | .dc => if s.laneType n = .dc then some 1 else none
  | .dcBpt => if s.laneType n = .dc && s.proto n = 3 then some 2 else none
  | _ => none

/-- The vehicle identifies with its contract: the path is noted where it is enabled and the protocol and TLS allow it. -/
def State.contractPath (s : State) (n : Nat) : State × Bool :=
  if s.rdBit (F.PIL_Ln_CTL_AUTH n) 1 && s.proto n ≠ 1 && (s.pilLane n).tls then
    (((s.wr (F.PIL_Ln_AUTH_PATH n) 2).wr (F.PIL_Ln_SESS_AUTHPATH n) 2).modPilLane n fun p => { p with contract := true }, true)
  else (s, false)

/-- The service is selected. -/
def State.takeService (s : State) (n code : Nat) (m : PilMsg) : State :=
  ((s.wr (F.PIL_Ln_SESS_SERVICE n) code).modPilLane n fun p => { p with served := true }).answer n m .ok

/-- SERVICE_PAYMENT_SELECTION (R186, R188): of DIN SPEC 70121 and ISO 15118-2; DIN identifies externally only. -/
def execServicePaymentSelection (l : LineRx) (svc : EnergyService) (contract : Bool) (s : State) : Host.Outcome State Fault Refusal :=
  .next (s.message l .paymentSelection [1, 2] none fun s =>
    match s.serviceCode l.lane svc with
    | none => s.protoError l.lane .paymentSelection
    | some c =>
      if contract then
        let (s, ok) := s.contractPath l.lane
        if ok then s.takeService l.lane c .paymentSelection else s.answer l.lane .paymentSelection .failed
      else s.takeService l.lane c .paymentSelection)

/-- SERVICE_SELECTION (R186, R188): of ISO 15118-20. -/
def execServiceSelection (l : LineRx) (svc : EnergyService) (s : State) : Host.Outcome State Fault Refusal :=
  .next (s.message l .serviceSelection [3] none fun s =>
    match s.serviceCode l.lane svc with
    | none => s.protoError l.lane .serviceSelection
    | some c => s.takeService l.lane c .serviceSelection)

/-- PAYMENT_DETAILS (R186): the contract certificate of ISO 15118-2. -/
def execPaymentDetails (l : LineRx) (s : State) : Host.Outcome State Fault Refusal :=
  .next (s.message l .paymentDetails [2] none fun s => s.answer l.lane .paymentDetails (if (s.pilLane l.lane).contract then .ok else .failed))

/-- The state of the authorisation, as a message sees it. -/
def State.authReply (s : State) (n : Nat) : PilResult :=
  if (s.pilLane n).accepted then .ok else if s.sessStep n = 4 || s.sessStep n = 5 then .ongoing else .failed

/-- CONTRACT_AUTHENTICATION (R186): of DIN SPEC 70121. -/
def execContractAuthentication (l : LineRx) (s : State) : Host.Outcome State Fault Refusal :=
  .next (s.message l .contractAuth [1] none fun s => s.answer l.lane .contractAuth (s.authReply l.lane))

/-- AUTHORIZATION_SETUP (R186): of ISO 15118-20. -/
def execAuthorizationSetup (l : LineRx) (s : State) : Host.Outcome State Fault Refusal :=
  .next (s.message l .authSetup [3] none fun s => s.answer l.lane .authSetup .ok)

/-- AUTHORIZATION (R186, R190). -/
def execAuthorization (l : LineRx) (contract : Bool) (s : State) : Host.Outcome State Fault Refusal :=
  .next (s.message l .authorization [2, 3] none fun s =>
    if contract && !(s.pilLane l.lane).contract then
      let (s, ok) := s.contractPath l.lane
      s.answer l.lane .authorization (if ok then s.authReply l.lane else .failed)
    else s.answer l.lane .authorization (s.authReply l.lane))

/-- Take what the vehicle states of itself. -/
def State.takeEv (s : State) (n : Nat) (ev : EvValues) : State :=
  let put1 (s : State) (i hi lo : Nat) (v : Option (BitVec 16)) : State :=
    match v with
    | some x => s.wr (F.PIL_Ln_EVMAX_VALUE n i) (setBits (s.rd (F.PIL_Ln_EVMAX_VALUE n i)) hi lo x.toNat)
    | none => s
  let s := put1 (put1 (put1 (put1 s 0 31 16 ev.maxV) 0 15 0 ev.maxI) 1 31 16 ev.tgtV) 1 15 0 ev.tgtI
  let s := match ev.soc with | some x => s.wr (F.PIL_Ln_EVMAX_VALUE n 2) x.toNat | none => s
  let num (v : Option Word) (old : Nat) : Nat := match v with | some x => x.toNat | none => old
  s.modPilLane n fun p => { p with
    evPower := match ev.maxP with | some x => some x.toNat | none => p.evPower,
    evReq := match ev.reqP with | some x => some x.toNat | none => p.evReq,
    evDis := num ev.disP p.evDis, evDepart := num ev.depart p.evDepart, evEnergy := num ev.energy p.evEnergy }

/-- A response that carries the EVSE limits of R189. With no EV target voltage the current is an open value. -/
def State.limitReply (s : State) (n : Nat) (m : PilMsg) : State :=
  let g := s.grantIn n
  let d := s.grantOut n
  if s.laneType n = .dc then
    let v := s.evTgtV n
    let bpt := s.rd (F.PIL_Ln_SESS_SERVICE n) = 2
    if v = 0 then
      let (x, s) := s.draw
      s.modPilLane n fun p => { p with reply := { msg := m, power := g, current := x, disPower := if bpt then d else 0, disCurrent := 0 } }
    else
      s.modPilLane n fun p => { p with reply := { msg := m, power := g, current := g * 100 / v, disPower := if bpt then d else 0, disCurrent := if bpt then d * 100 / v else 0 } }
  else s.modPilLane n fun p => { p with reply := { msg := m, power := g, current := s.offerI n } }

/-- A message with vehicle values, answered with the limits. -/
def State.valueMessage (s : State) (l : LineRx) (m : PilMsg) (ps : List Nat) (kind : Option Bool) (ev : EvValues) : State :=
  s.message l m ps kind fun s => (s.takeEv l.lane ev).limitReply l.lane m

/-- The schedule an ISO 15118-2 answer holds: one tuple covering 24 h, at the grant (R187). -/
def State.scheduleReply (s : State) (n : Nat) : State :=
  if s.proto n = 2 then
    let g := s.grantIn n
    s.modPilLane n fun p => { p with reply := { p.reply with schedule := [(86400, g)] } }
  else s

/-- CHARGE_PARAMETER_DISCOVERY (R186, R187, R189): of DIN SPEC 70121 and ISO 15118-2. -/
def execChargeParameterDiscovery (l : LineRx) (ev : EvValues) (s : State) : Host.Outcome State Fault Refusal :=
  .next (s.message l .chargeParameters [1, 2] none fun s => ((s.takeEv l.lane ev).limitReply l.lane .chargeParameters).scheduleReply l.lane)

/-- AC_CHARGE_PARAMETER_DISCOVERY (R186, R189): of ISO 15118-20. -/
def execAcChargeParameterDiscovery (l : LineRx) (ev : EvValues) (s : State) : Host.Outcome State Fault Refusal :=
  .next (s.valueMessage l .chargeParameters [3] (some false) ev)

/-- DC_CHARGE_PARAMETER_DISCOVERY (R186, R189): of ISO 15118-20. -/
def execDcChargeParameterDiscovery (l : LineRx) (ev : EvValues) (s : State) : Host.Outcome State Fault Refusal :=
  .next (s.valueMessage l .chargeParameters [3] (some true) ev)

/-- SCHEDULE_EXCHANGE (R186): of ISO 15118-20, in the Scheduled or the Dynamic control mode. -/
def execScheduleExchange (l : LineRx) (dynamic : Bool) (ev : EvValues) (s : State) : Host.Outcome State Fault Refusal :=
  .next (s.message l .scheduleExchange [3] none fun s =>
    ((s.modPilLane l.lane fun p => { p with dynamic := dynamic }).takeEv l.lane ev).limitReply l.lane .scheduleExchange)

/-- The cable check's answer: ongoing until a good verdict. -/
def State.cableReply (s : State) (n : Nat) : State := s.answer n .cableCheck (if s.goodVerdict n then .ok else .ongoing)

/-- CABLE_CHECK (R186). -/
def execCableCheck (l : LineRx) (s : State) : Host.Outcome State Fault Refusal := .next (s.message l .cableCheck [1, 2] (some true) fun s => s.cableReply l.lane)

/-- DC_CABLE_CHECK (R186): of ISO 15118-20. -/
def execDcCableCheck (l : LineRx) (s : State) : Host.Outcome State Fault Refusal := .next (s.message l .cableCheck [3] (some true) fun s => s.cableReply l.lane)

/-- PRE_CHARGE (R186, R189). -/
def execPreCharge (l : LineRx) (ev : EvValues) (s : State) : Host.Outcome State Fault Refusal := .next (s.valueMessage l .preCharge [1, 2] (some true) ev)

/-- DC_PRE_CHARGE (R186, R189): of ISO 15118-20. -/
def execDcPreCharge (l : LineRx) (ev : EvValues) (s : State) : Host.Outcome State Fault Refusal := .next (s.valueMessage l .preCharge [3] (some true) ev)

/-- POWER_DELIVERY (R186, R198): a stop while charging or paused is cause 0x02. -/
def execPowerDelivery (l : LineRx) (start : Bool) (s : State) : Host.Outcome State Fault Refusal :=
  .next (s.message l .powerDelivery [1, 2, 3] none fun s =>
    let s := (s.modPilLane l.lane fun p => { p with deliver := start }).answer l.lane .powerDelivery .ok
    if !start && (s.sessStep l.lane = 0x0B || s.sessStep l.lane = 0x0C) then s.decideExit l.lane 2 else s)

/-- CURRENT_DEMAND (R186, R189). -/
def execCurrentDemand (l : LineRx) (ev : EvValues) (s : State) : Host.Outcome State Fault Refusal := .next (s.valueMessage l .chargeLoop [1, 2] (some true) ev)

/-- CHARGING_STATUS (R186, R189): of ISO 15118-2, AC. -/
def execChargingStatus (l : LineRx) (s : State) : Host.Outcome State Fault Refusal :=
  .next (s.message l .chargingStatus [2] (some false) fun s => s.limitReply l.lane .chargingStatus)

/-- AC_CHARGE_LOOP (R186, R189). -/
def execAcChargeLoop (l : LineRx) (ev : EvValues) (s : State) : Host.Outcome State Fault Refusal := .next (s.valueMessage l .chargeLoop [3] (some false) ev)

/-- DC_CHARGE_LOOP (R186, R189). -/
def execDcChargeLoop (l : LineRx) (ev : EvValues) (s : State) : Host.Outcome State Fault Refusal := .next (s.valueMessage l .chargeLoop [3] (some true) ev)

/-- METERING_RECEIPT (R186): of ISO 15118-2. -/
def execMeteringReceipt (l : LineRx) (s : State) : Host.Outcome State Fault Refusal :=
  .next (s.message l .meteringReceipt [2] none fun s => s.answer l.lane .meteringReceipt .ok)

/-- METERING_CONFIRMATION (R186): of ISO 15118-20. -/
def execMeteringConfirmation (l : LineRx) (s : State) : Host.Outcome State Fault Refusal :=
  .next (s.message l .meteringConfirmation [3] none fun s => s.answer l.lane .meteringConfirmation .ok)

/-- The vehicle's welding detection: has it ended (R195)? -/
def State.weldMessage (s : State) (n : Nat) (ended : Bool) : State :=
  (s.modPilLane n fun p => { p with weldDone := ended }).answer n .weldingDetection .ok

/-- WELDING_DETECTION (R186, R195). -/
def execWeldingDetection (l : LineRx) (ended : Bool) (s : State) : Host.Outcome State Fault Refusal :=
  .next (s.message l .weldingDetection [1, 2] (some true) fun s => s.weldMessage l.lane ended)

/-- DC_WELDING_DETECTION (R186, R195): of ISO 15118-20. -/
def execDcWeldingDetection (l : LineRx) (ended : Bool) (s : State) : Host.Outcome State Fault Refusal :=
  .next (s.message l .weldingDetection [3] (some true) fun s => s.weldMessage l.lane ended)

/-- CERTIFICATE_INSTALLATION (R186). -/
def execCertificateInstallation (l : LineRx) (s : State) : Host.Outcome State Fault Refusal :=
  .next (s.message l .certificate [2, 3] none fun s => s.answer l.lane .certificate .ok)

/-- CERTIFICATE_UPDATE (R186): of ISO 15118-2. -/
def execCertificateUpdate (l : LineRx) (s : State) : Host.Outcome State Fault Refusal :=
  .next (s.message l .certificate [2] none fun s => s.answer l.lane .certificate .ok)

/-- SESSION_STOP (R187, R198): a stop with pause is a termination too. -/
def execSessionStop (l : LineRx) (s : State) : Host.Outcome State Fault Refusal :=
  .next (s.message l .sessionStop [1, 2, 3] none fun s =>
    let s := s.answer l.lane .sessionStop .ok
    if s.inSession l.lane then s.decideExit l.lane 2 else s)

/-- RENEGOTIATION (R187): answered FAILED, and the session ends with cause 0x1A. -/
def execRenegotiation (l : LineRx) (s : State) : Host.Outcome State Fault Refusal :=
  .next <|
    let s := s.modemRx l.lane l.rx
    if s.linked l.lane && s.proto l.lane ≠ 0 then s.protoError l.lane .renegotiation else s

/-! ## Authorisation (R190 to R192) -/

/-- Does lane `n` wait for a decision? -/
def State.authOpen (s : State) (n : Nat) : Bool := s.sessStep n = 5 && s.rd (F.PIL_Ln_AUTH_RESULT n) = 0

/-- What the back office states with a decision. -/
def State.takeBo (s : State) (n : Nat) (ev : EvValues) : State :=
  let num (v : Option Word) (old : Nat) : Nat := match v with | some x => x.toNat | none => old
  s.modPilLane n fun p => { p with boDepart := num ev.depart p.boDepart, boEnergy := num ev.energy p.boEnergy }

/-- Rejection: cause 0x1B (R192). -/
def State.rejectAuth (s : State) (n : Nat) : State := (s.wr (F.PIL_Ln_AUTH_RESULT n) 2).decideExit n 0x1B

/-- REMOTE_START (R190): the back office starts the lane; no class is mapped to it. -/
def execRemoteStart (n : Lane) (ev : EvValues) (s : State) : Host.Outcome State Fault Refusal :=
  .next <| if s.authOpen n && s.rdBit (F.PIL_Ln_CTL_AUTH n) 2 then (s.acceptAuth n 3 1 0).takeBo n ev else s

/-- The priority class of a token (R192): the one the POLICY record maps it to, or 0. -/
def State.tokenClass (s : State) (token : List Byte) : Nat :=
  match s.boot.policy.classes.find? fun x => x.1 = token with
  | some x => x.2
  | none => 0

/-- AUTH_DECISION (R190, R192): on the card or the contract that waits, the local list decides cards, where the POLICY record
allows it. The class is that of the token accepted: the card's, or the contract's `token`. -/
def execAuthDecision (n : Lane) (accept localList : Bool) (token : List Byte) (ev : EvValues) (s : State) : Host.Outcome State Fault Refusal :=
  let path := s.rd (F.PIL_Ln_AUTH_PATH n)
  .next <| if s.authOpen n && (path = 1 || path = 2) && (!localList || (path = 1 && s.boot.policy.localList)) then
      if accept then (s.acceptAuth n path (if localList then 4 else 1) (s.tokenClass (if path = 1 then (s.pilLane n).cardUid else token))).takeBo n ev else s.rejectAuth n
    else s

/-- May firmware decide (R190)? -/
def State.fwMay (s : State) (n : Nat) : Bool := s.authOpen n && s.rdBit (F.PIL_Ln_CTL_AUTH n) 4 && s.boot.policy.fwAuth

def State.authOk (s : State) (n : Nat) : State := if s.fwMay n then s.acceptAuth n 5 1 0 else s

def State.authNo (s : State) (n : Nat) : State :=
  if s.fwMay n then ((s.wr (F.PIL_Ln_AUTH_PATH n) 5).wr (F.PIL_Ln_SESS_AUTHPATH n) 5).rejectAuth n else s

/-- AUTH_OK (R190): PIL_Ln_CMD.AUTHOK. -/
def execAuthOk (n : Lane) (s : State) : Host.Outcome State Fault Refusal := .next (s.authOk n)

/-- AUTH_NO (R190): PIL_Ln_CMD.AUTHNO. -/
def execAuthNo (n : Lane) (s : State) : Host.Outcome State Fault Refusal := .next (s.authNo n)

/-- The lane of reader `k` in AUTHORISE that entered it first (R191). -/
def State.firstWaiting (s : State) (k : Nat) : Option Nat :=
  (s.outlets.filter fun n => s.rdBit (F.PIL_RDRk_LANES k) n && s.authOpen n && s.rdBit (F.PIL_Ln_CTL_AUTH n) 0).foldl
    (fun r n => match r with | none => some n | some m => if (s.pilLane n).authAt < (s.pilLane m).authAt then some n else some m) none

/-- The lane of reader `k` whose session this card runs (R191). -/
def State.cardLane (s : State) (k : Nat) (uid : List Byte) : Option Nat :=
  s.outlets.find? fun n => s.rdBit (F.PIL_RDRk_LANES k) n && (s.sessStep n = 0x0B || s.sessStep n = 0x0C) &&
    (s.pilLane n).cardUid ≠ [] && (s.pilLane n).cardUid = uid

/-- CARD_BIND (R191): a card read on reader `k` stops its own session, is bound, or is held in place of any held card. -/
def State.cardRead (s : State) (k : Nat) (uid : List Byte) : State :=
  match s.cardLane k uid with
  | some n => s.decideExit n 3
  | none =>
    match s.firstWaiting k with
    | some n =>
      let s := ((s.wr (F.PIL_Ln_AUTH_PATH n) 1).wr (F.PIL_Ln_SESS_AUTHPATH n) 1).wr (F.PIL_Ln_AUTH_READER n) k
      s.modPilLane n fun p => { p with cardUid := uid }
    | none => s.modPil fun p => { p with card := [⟨k, uid, s.clk.frame⟩] }

/-- CARD_HOLD_EXPIRY (R191): CARDWIN seconds have passed. -/
def execCardHoldExpiry (k : Fin 4) (s : State) : Host.Outcome State Fault Refusal :=
  .next (s.modPil fun p => { p with card := p.card.filter fun c => !(c.reader = k.val && c.frame + 1000 * s.rd F.PIL_CFG_CARDWIN ≤ s.clk.frame) })

end Sys2Proof.Machine
end

