-- ==== Sys2Proof/Machine/Readers.lean ====
section
/-!
DEFINITION. Card readers and the service tag (spec/20).
-/

namespace Sys2Proof.Machine

open Sys2Proof

def State.modNfc (s : State) (f : NfcState → NfcState) : State := s.setNfc (f s.nfc)

def State.reader (s : State) (k : Nat) : Reader := lk (fun _ => {}) s.nfc.readers k

def State.modReader (s : State) (k : Nat) (f : Reader → Reader) : State :=
  s.modNfc fun x => { x with readers := put (fun _ => {}) x.readers k (f (s.reader k)) }

/-- NFC_RDk_ST.STATE: 0 off, 1 pinging, 2 waiting for admission, 3 polling, 4 session, 5 waiting for removal. -/
def State.rdrState (s : State) (k : Nat) : Nat := s.rd (F.NFC_RDk_ST_STATE k)

def State.setRdr (s : State) (k st : Nat) : State := s.wr (F.NFC_RDk_ST_STATE k) st

/-! ## Waiting for a card (R398 to R400) -/

/-- A ping's detuning in 0.1 % of the baseline, saturating. -/
def detuning (base reading : Nat) : Nat :=
  let d := 1000 * ((base : Int) - reading).natAbs
  if base = 0 then (if d = 0 then 0 else 65535) else satNat 65535 (d / base)

/-- The cause of 0xB0 ends when no reader's antenna is out of range. -/
def State.antEnd (s : State) : State := if (List.range 4).all fun j => (s.reader j).bad < 10 then s.causeOff 0xB0 none else s

/-- The antenna check of R400. -/
def State.antCheck (s : State) (k : Nat) (inRange : Bool) : State :=
  if inRange then (s.modReader k fun r => { r with bad := 0 }).antEnd
  else
    let s := s.modReader k fun r => { r with bad := r.bad + 1 }
    if (s.reader k).bad = 10 then (s.sticky (F.NFC_RDk_ST_ANT k)).raiseDev 0xB0 1 else s

/-- The baseline moved by 1/16 of a ping's difference (R398). -/
def State.moveBase (s : State) (k reading base : Nat) : State :=
  s.modReader k fun r => { r with base := some ((base : Int) + ((reading : Int) - base) / 16).toNat }

/-- A ping against the baseline: it moves below DET; two in a row at or above DET raise a request, kind 3 of R247; in state 5, where
the baseline is frozen, one below DET/2 ends the freeze (R398, R399). -/
def State.pingStep (s : State) (k reading base : Nat) : State :=
  let d := detuning base reading
  let det := s.rd (F.NFC_RDk_CFG_DET k)
  let s := s.wr (F.NFC_RDk_ST_DETUNE k) d
  match s.rdrState k with
  | 5 => if 2 * d < det then (s.setRdr k 1).modReader k fun r => { r with overs := 0 } else s
  | 1 =>
    if d < det then (s.moveBase k reading base).modReader k fun r => { r with overs := 0 }
    else if (s.reader k).overs + 1 < 2 then s.modReader k fun r => { r with overs := r.overs + 1 }
    else
      let s := (s.setRdr k 2).modReader k fun r => { r with overs := 0 }
      s.modSwa fun w => { w with rdrQueue := w.rdrQueue ++ [(k, s.clk.frame + 1)] }
  | 2 => if d < det then s.moveBase k reading base else s
  | _ => s

/-- Is a ping of reader `k` due in this frame: every PING times 10 ms, a quarter of the interval per reader after reader 0's (R398)? -/
def State.pingDue (s : State) (k : Nat) : Bool :=
  let p := 10 * s.rd (F.NFC_RDk_CFG_PING k)
  s.clk.frame % p = k * p / 4 && (s.reader k).pingAt ≠ some s.clk.frame

/-- READER_PING (R398 to R400): `reading` is what the ping measured, `inRange` whether its amplitude is that of a matched antenna.
The first ping, and the one after REBASE, give the baseline. -/
def execReaderPing (k : Fin 4) (reading : Nat) (inRange : Bool) (s : State) : Host.Outcome State Fault Refusal :=
  .next <|
    let st := s.rdrState k
    if s.on (F.NFC_RDk_CFG_EN k) && (st = 1 || st = 2 || st = 5) && s.pingDue k then
      let s := (s.modReader k fun r => { r with pingAt := some s.clk.frame }).antCheck k inRange
      let r := s.reader k
      match (if r.rebase then none else r.base) with
      | some b => s.pingStep k reading b
      | none => (s.modReader k fun r => { r with base := some reading, rebase := false }).pingStep k reading reading
    else s

/-- READER_REBASE (R399). -/
def State.rebase (s : State) (k : Nat) : State := s.modReader k fun r => { r with rebase := true }

def execReaderRebase (k : Fin 4) (s : State) : Host.Outcome State Fault Refusal := .next (s.rebase k)

/-! ## Transmission (R401) -/

/-- The carrier goes off: the booking ends at the next edge, and the reader waits for the card's removal. -/
def State.carrierOff (s : State) (k : Nat) : State :=
  let s := (s.setRdr k 5).modReader k fun r => { r with carrier := false, overs := 0 }
  s.modSwa fun w => { w with rdrEnd := k :: w.rdrEnd.filter (· ≠ k) }

/-- Does TYPES enable Type A, and Type B? -/
def State.rdrTypes (s : State) (k : Nat) : Bool × Bool := (bitOf (s.rd (F.NFC_RDk_CFG_TYPES k)) 0, bitOf (s.rd (F.NFC_RDk_CFG_TYPES k)) 1)

/-- The reader at a control-frame edge, after the scheduler: off, on, or admitted. -/
def State.readerEdge (s : State) (k : Nat) : State :=
  if !s.on (F.NFC_RDk_CFG_EN k) || !s.boot.vddField then
    if s.rdrState k = 0 then s
    else
      let s := ((s.setRdr k 0).modReader k fun _ => {}).antEnd
      s.modSwa fun w => { w with
        rdrQueue := w.rdrQueue.filter fun x => x.1 ≠ k, rdrEnd := if w.rdrOn.any (·.1 = k) then k :: w.rdrEnd.filter (· ≠ k) else w.rdrEnd }
  else if s.rdrState k = 0 then s.setRdr k 1
  else if s.rdrState k = 2 && s.swa.rdrOn.any (·.1 = k) && !s.swa.rdrEnd.contains k then
    (s.setRdr k 3).modReader k fun r => { r with since := s.clk.frame, carrier := true, polls := 0, nextB := !(s.rdrTypes k).1 }
  else s

def State.nfcEdge (s : State) : State := s.each [0, 1, 2, 3] State.readerEdge

/-- READER_POLL (R401): REQA or REQB, from 5 ms after the admission edge and every 5 ms, alternating where both are enabled. -/
def execReaderPoll (k : Fin 4) (s : State) : Host.Outcome State Fault Refusal :=
  .next <|
    let r := s.reader k
    let (a, b) := s.rdrTypes k
    if s.rdrState k = 3 && (a || b) && r.since + 5 * (r.polls + 1) ≤ s.clk.frame then
      s.modReader k fun r => { r with polls := r.polls + 1, lastB := r.nextB, nextB := if a && b then !r.nextB else b }
    else s

/-- READER_POLL_TIMEOUT (R401). -/
def execReaderPollTimeout (k : Fin 4) (s : State) : Host.Outcome State Fault Refusal :=
  .next <| if s.rdrState k = 3 && (s.reader k).since + 10 * s.rd (F.NFC_RDk_CFG_POLLT k) ≤ s.clk.frame then
      (s.count (F.NFC_RDk_CNT_WAKE k) 1).carrierOff k
    else s

/-- CARD_ACTIVATED (R401): a UID of 4, 7 or 10 bytes of a type enabled; the session goes to the service image and the card to the
lanes of the reader (R190, R191). -/
def execCardActivated (k : Fin 4) (typeB dep : Bool) (uid : List Byte) (s : State) : Host.Outcome State Fault Refusal :=
  .next <|
    let enabled := if typeB then (s.rdrTypes k).2 else (s.rdrTypes k).1
    let size := uid.length = 4 || (!typeB && (uid.length = 7 || uid.length = 10))
    if s.rdrState k = 3 && enabled && size then
      let s := (s.wr (F.NFC_RDk_UID_UID k) (leNat uid)).wr (F.NFC_RDk_UID_LEN k) uid.length
      let s := (s.wrB (F.NFC_RDk_ST_TYPE k) typeB).wrB (F.NFC_RDk_ST_DEP k) dep
      let s := ((s.sticky (F.NFC_RDk_ST_CARD k)).count (F.NFC_RDk_CNT_READS k) 1).setRdr k 4
      (s.modReader k fun r => { r with since := s.clk.frame }).cardRead k uid
    else s

/-- The card session ends: carrier off (R401). -/
def State.cardEnd (s : State) (k : Nat) : State := if s.rdrState k = 4 then s.carrierOff k else s

/-- READER_FOFF (R401). -/
def execReaderFoff (k : Fin 4) (s : State) : Host.Outcome State Fault Refusal := .next (s.cardEnd k)

/-- READER_SESSION_TIMEOUT (R401). -/
def execReaderSessionTimeout (k : Fin 4) (s : State) : Host.Outcome State Fault Refusal :=
  .next <| if (s.reader k).since + 100 * s.rd (F.NFC_RDk_CFG_SESST k) ≤ s.clk.frame then s.cardEnd k else s

/-- READER_CARD_LOSS (R401). -/
def execReaderCardLoss (k : Fin 4) (s : State) : Host.Outcome State Fault Refusal := .next (s.cardEnd k)

/-- READER_CNT_CLEAR: NFC_RDk_CNT.CLR. -/
def State.readerCntClear (s : State) (k : Nat) : State := (s.wr (F.NFC_RDk_CNT_WAKE k) 0).wr (F.NFC_RDk_CNT_READS k) 0

def execReaderCntClear (k : Fin 4) (s : State) : Host.Outcome State Fault Refusal := .next (s.readerCntClear k)

/-! ## The service tag (R402 to R407) -/

/-- E0, 0x4C and the low 48 bits of the factory serial (R402). -/
def State.tagUid (s : State) : Nat := 0xE04C * 2 ^ 48 + s.boot.unit % 2 ^ 48

/-- What the tag answers a command; nothing without a field. -/
def State.tagAnswer (s : State) (r : TagReply) : State := s.modNfc fun x => { x with reply := if s.on F.NFC_TAG_ST_FIELD then r else .none }

/-- Does the tag take a command addressed so (ISO/IEC 15693)? -/
def State.tagHears (s : State) (ad : TagAddr) : Bool :=
  s.on F.NFC_TAG_ST_FIELD && match ad with
    | .all => !s.nfc.quiet
    | .uid u => u.toNat = s.tagUid
    | .selected => s.nfc.selected

/-- Do the `maskLen` low bits of the UID equal the mask, and the next four the slot? -/
def tagMatches (uid maskLen mask : Nat) (slot : Option Nat) : Bool :=
  uid % 2 ^ maskLen = mask % 2 ^ maskLen && (match slot with | some i => uid / 2 ^ maskLen % 16 = i | none => true)

/-- TAG_INVENTORY (R402). -/
def execTagInventory (maskLen : Fin 65) (mask : BitVec 64) (slot : Option (Fin 16)) (s : State) : Host.Outcome State Fault Refusal :=
  .next (s.tagAnswer (if !s.nfc.quiet && tagMatches s.tagUid maskLen mask.toNat (slot.map (·.val)) then .uid else .none))

/-- TAG_STAY_QUIET (R402): no answer. -/
def execTagStayQuiet (ad : TagAddr) (s : State) : Host.Outcome State Fault Refusal :=
  .next <| if s.tagHears ad then (s.modNfc fun x => { x with quiet := true, selected := false }).tagAnswer .none else s.tagAnswer .none

/-- TAG_SELECT (R402): another tag's UID leaves this one unselected. -/
def execTagSelect (u : BitVec 64) (s : State) : Host.Outcome State Fault Refusal :=
  .next <| if !s.on F.NFC_TAG_ST_FIELD then s.tagAnswer .none
    else if u.toNat = s.tagUid then (s.modNfc fun x => { x with quiet := false, selected := true }).tagAnswer .ok
    else (s.modNfc fun x => { x with selected := false }).tagAnswer .none

/-- TAG_RESET_TO_READY (R402). -/
def execTagResetToReady (ad : TagAddr) (s : State) : Host.Outcome State Fault Refusal :=
  .next <| if s.tagHears ad then (s.modNfc fun x => { x with quiet := false, selected := false }).tagAnswer .ok else s.tagAnswer .none

/-- TAG_GET_SYSTEM_INFO (R402): the UID; the short form cannot hold the number of blocks (see the log). -/
def execTagGetSystemInfo (ad : TagAddr) (s : State) : Host.Outcome State Fault Refusal :=
  .next (s.tagAnswer (if s.tagHears ad then .uid else .none))

/-- TAG_EXT_GET_SYSTEM_INFO (R402, R403): 0x2010 blocks of 32 bytes. -/
def execTagExtGetSystemInfo (ad : TagAddr) (s : State) : Host.Outcome State Fault Refusal :=
  .next (s.tagAnswer (if s.tagHears ad then .system 0x2010 32 else .none))

/-- The bytes of the staging area. -/
def State.stagedBytes (s : State) (o k : Nat) : List Byte := (List.range k).map fun i => lk (fun _ => 0) s.nfc.staging (o + i)

/-- A block of R403; none where none is listed. -/
def State.tagBlock (s : State) (b : Nat) : Option (List Byte) :=
  if b = 0 then
    some (padTo 32 (leBytes 2 (s.rd F.SYS_ID_PART) ++ leBytes 2 (s.rd F.SYS_DEVID_DEVID) ++ leBytes 8 s.boot.unit ++ leBytes 4 s.boot.plver))
  else if b = 1 then some (padTo 32 (leBytes 1 (s.rd F.NFC_TAG_ST_STAGED) ++ leBytes 4 (s.rd F.NFC_TAG_LEN_BYTES)))
  else if b = 4 then some (padTo 32 [])
  else if 0x10 ≤ b && b ≤ 0x200F then some (s.stagedBytes (32 * (b - 0x10)) 32)
  else none

/-- Several blocks, at most `n`. -/
def State.tagBlocks (s : State) : Nat → Nat → Option (List Byte)
  | 0, _ => some []
  | n + 1, b =>
    match s.tagBlock b, s.tagBlocks n (b + 1) with
    | some x, some y => some (x ++ y)
    | _, _ => none

/-- The answer to a read. -/
def tagData : Option (List Byte) → TagReply
  | some bs => .data bs
  | none => .error 0x10

/-- TAG_EXT_READ_SINGLE (R403). -/
def execTagExtReadSingle (ad : TagAddr) (blk : BitVec 16) (s : State) : Host.Outcome State Fault Refusal :=
  .next (s.tagAnswer (if s.tagHears ad then tagData (s.tagBlock blk.toNat) else .none))

/-- TAG_EXT_READ_MULTIPLE (R403): `cnt` is the number of blocks less one, as ISO/IEC 15693 sends it. -/
def execTagExtReadMultiple (ad : TagAddr) (blk cnt : BitVec 16) (s : State) : Host.Outcome State Fault Refusal :=
  .next (s.tagAnswer (if s.tagHears ad then
      (if blk.toNat + cnt.toNat ≤ 0x200F then tagData (s.tagBlocks (cnt.toNat + 1) blk.toNat) else .error 0x10)
    else .none))

/-- The checks before any write to the tag, in order: STGEN, the lock of step 4, the harvested supply in mV (R404, R406). -/
def State.tagGuard (s : State) (mv : Nat) : Option Byte × State :=
  if !s.on F.NFC_TAG_CFG_STGEN then (some 0x12, s)
  else if s.nfc.locked then (some 0xA3, s)
  else if mv < 2200 then (some 0xA1, s.count F.NFC_TAG_ST_LOWSUP 1)
  else (none, s)

/-- A write to the commit block (R405). -/
def State.tagCommit (s : State) (len crc mv : Nat) : State :=
  match s.tagGuard mv with
  | (some e, s) => s.tagAnswer (.error e)
  | (none, s) =>
    if len % 4 = 0 && len ≤ 262144 && crc32 (s.stagedBytes 0 len) = crc then
      let s := ((s.wrB F.NFC_TAG_ST_STAGED true).wr F.NFC_TAG_LEN_BYTES len).sticky F.NFC_TAG_ST_COMMIT
      ((s.tamperEntry 8 true (!s.boot.vddCore)).modNfc fun x => { x with restart := x.restart || s.boot.noCfg }).tagAnswer .ok
    else s.tagAnswer (.error 0xA2)

/-- TAG_COMMIT (R405). -/
def execTagCommit (ad : TagAddr) (len crc : Word) (mv : Nat) (s : State) : Host.Outcome State Fault Refusal :=
  .next <| if s.tagHears ad then s.tagCommit len.toNat crc.toNat mv else s.tagAnswer .none

/-- TAG_EXT_WRITE_SINGLE (R403, R404): a block is written whole; a write to the staging area clears STAGED. -/
def execTagExtWriteSingle (ad : TagAddr) (blk : BitVec 16) (data : List Byte) (mv : Nat) (s : State) : Host.Outcome State Fault Refusal :=
  .next <|
    let b := blk.toNat
    if !s.tagHears ad || data.length ≠ 32 then s.tagAnswer .none
    else if b = 4 then s.tagCommit (leAt data 0 4) (leAt data 4 4) mv
    else if !s.on F.NFC_TAG_CFG_STGEN || b ≤ 1 then s.tagAnswer (.error 0x12)
    else if b < 0x10 || 0x200F < b then s.tagAnswer (.error 0x10)
    else match s.tagGuard mv with
      | (some e, s) => s.tagAnswer (.error e)
      | (none, s) =>
        let o := 32 * (b - 0x10)
        let cells := data.zipIdx.foldl (fun l x => put memDefault l (o + x.2) x.1) s.nfc.staging
        ((s.modNfc fun x => { x with staging := cells }).wrB F.NFC_TAG_ST_STAGED false).tagAnswer .ok

/-- HARV follows the field and HEN (R407). -/
def State.harvest (s : State) : State := s.modNfc fun x => { x with harv := s.on F.NFC_TAG_ST_FIELD && s.on F.NFC_TAG_CFG_HEN }

/-- TAG_FIELD_CHANGE (R402, R407): without the field the tag has no supply, and is neither quiet nor selected. -/
def execTagFieldChange (present : Bool) (s : State) : Host.Outcome State Fault Refusal :=
  .next <|
    let s := (s.wrB F.NFC_TAG_ST_FIELD present).modNfc fun x => { x with reply := .none }
    (if present then s else s.modNfc fun x => { x with quiet := false, selected := false }).harvest

end Sys2Proof.Machine
end

