-- ==== Sys2Proof/Machine/Warm.lean ====
section
/-!
DEFINITION. Loss of the core die's state and starts (R11, R77, R78): what a start keeps, and its first stage.
-/

namespace Sys2Proof.Machine

open Sys2Proof

/-- What is left of a register word: the fields held in the thermos die, the others at reset. -/
def keepWord (r : Nat × Word) : Option (Nat × Word) :=
  match regAt r.1 with
  | none => none
  | some h =>
    let m := BitVec.ofNat 32 (h.d.heldMask h.w)
    let v := (r.2 &&& m) ||| (resetWord r.1 &&& ~~~m)
    if v = resetWord r.1 then none else some (r.1, v)

/-- Journal events of the sources that lie in the thermos die: tamper inputs and clock adjustments (R61). -/
def keepEvent (e : JEvent) : Bool := (0x100 ≤ e.index && e.index ≤ 0x107) || e.index = 0x140

/-- The bitmap words of R372, which lie in flash. -/
def isBitmap (a : Nat) : Bool := A.UPD_BMAPw 0 ≤ a && a < A.UPD_BMAPw 2048

/-- The state of the rucksack over a start: an activation that did not take place leaves it verified (R379). -/
def UpdState.kept (u : UpdState) : UpdState := { u with bank := if u.bank = 4 then 3 else u.bank, actReq := false, confReq := false, actAt := none, idleSince := none }

/-- Over a warm start a connection that failed is still failed, and not yet good again for 1 s: the condition of cause LINK (R283). -/
def State.keepConns (t s : State) : State :=
  t.modSaf fun x => { x with conns := (s.saf.conns.filter fun c => c.2.failed).map fun c => (c.1, { failed := true }) }

/-- The core and field dies start afresh (R11, R77): what lies in the thermos die, in flash and outside the device is kept, and
over a warm start the two memories, the stream clock (R34) and what failed among the safety connections too. The held causes of the safe
state and LINK, whose condition is still present, are in force again (R283); a lane retired by a weld is so still (R281, R289; log
entry 23). -/
def State.reboot (s : State) (cold : Bool) : State :=
  let maps := s.regs.filter fun r => isBitmap r.1
  let boot : BootState :=
    { cold := cold, unit := s.boot.unit, plver := s.boot.plver, vddField := s.boot.vddField, vddCore := s.boot.vddCore,
      mclk := !cold && s.boot.mclk, mclkBalls := if cold then 0 else s.boot.mclkBalls }
  let t : State := { State.reset with
    regs := maps.foldl (fun l r => put resetWord l r.1 r.2) (s.regs.filterMap keepWord),
    gold := s.gold.filterMap keepWord,
    journal := s.journal.filter keepEvent, mem := if cold then [] else s.mem, thm := s.thm, pins := s.pins,
    key := { root := s.key.root, copies := s.key.copies }, bil := { slots := s.bil.slots, seq := s.bil.seq, perAt := s.rd F.BIL_BCLK_SEC },
    boot := boot,
    upd := s.upd.kept,
    nfc := { s.nfc with readers := [], locked := false, restart := false },
    freeCtr := s.freeCtr, pending := s.pending }
  let t := ((t.wr F.KEY_SEL_PEND (s.rd F.KEY_SEL_PEND)).wr F.KEY_RESEAL_DONE (s.rd F.KEY_RESEAL_DONE)).wr F.KEY_RESEAL_FALLBACK
    (s.rd F.KEY_RESEAL_FALLBACK)
  let t := ((t.wr F.UPD_BANK_STATE t.upd.bank).wr F.UPD_STAT_MISSING (s.rd F.UPD_STAT_MISSING)).wr F.NFC_TAG_ST_FIELD (s.rd F.NFC_TAG_ST_FIELD)
  let t := if t.upd.nblk = 0 then t else (t.wr F.UPD_DLV_TAG t.upd.tag).wr F.UPD_DLV_LAST (t.upd.nblk - 1)
  let t := t.wrSet (F.SAF_ACON_LANE 5) (s.rdSet (F.SAF_ACON_LANE 5))
  let t := if cold then t else t.keepConns s
  let held := [F.SAF_STAT_ESTOP, F.SAF_STAT_GUARD, F.SAF_STAT_SERVICE] ++ (if cold then [] else [F.SAF_STAT_LINK])
  held.foldl (fun t f => if s.on f then t.safeEnter f else t) t

/-- Stage 0x1 (R78): the tag of every key slot is checked, and copies pending from before the start are discarded (R369); the
controller then waits in stage 0x2. -/
def State.startUp (s : State) (cold : Bool) : State :=
  let s := ((s.reboot cold).wr F.SYS_STAGE_STAGE 1).checkTags.sealAbort
  s.wr F.SYS_STAGE_STAGE 2

/-- A warm start (R77). -/
def State.warmStart (s : State) : State := s.startUp false

/-- RESET_COMMAND (R77): a warm start, which also ends cause CHANNEL of the safe state. -/
def execResetCommand (s : State) : Host.Outcome State Fault Refusal := .next s.warmStart

/-- Does what is held at the balls give a warning (R168): PFW_L low where PFWEN is 1, or VIN_AUX below the AUXPF threshold?
The balls are as the last edge latched them (log 55). -/
def State.powerFails (s : State) : Bool :=
  (s.pins.pfwLow && s.on F.BIL_HCFG_PFWEN) || s.pins.vinAux < 8500 + 500 * (min 23 (s.rd F.BIL_HCFG_AUXPF) : Int)

/-- POWER_FAIL_WARNING (R168): a snapshot in one clock cycle, a periodic save abandoned, the final save begun; the panel goes
down fast (R413). -/
def State.powerFail (s : State) : State := (s.saveStart true).modBil fun b => { b with pfwAt := some s.clk.frame }

end Sys2Proof.Machine
end

