-- ==== Sys2Proof/Machine/Heads.lean ====
section
/-!
DEFINITION. Heads: presence probes, roll call, the lane items of the self-adaptive stage, head sensors (spec/02, spec/05,
spec/06); the supplies and the die links (spec/01, spec/23).
-/

namespace Sys2Proof.Machine

open Sys2Proof

/-! ## Roll call and the lane items (R40, R88 to R95) -/

/-- The general channels assigned to a lane of the group of lane `n`. -/
def State.genOfGroup (s : State) (n : Nat) : List Nat :=
  (List.range 32).filter fun k => match s.chanLane (64 + k) with | some m => (s.groupOf n).contains m | none => false

/-- The lane's ports in the off state of R31: both half-bridges of the lock off and its position unknown, the injection off, the general
channels assigned to the lane or its group off; PIL and PP follow `passed` (R40, R259). -/
def State.portsOff (s : State) (n : Nat) : State :=
  let s := ((s.lockDrop n).wr (F.SWA_Ln_LKST_POS n) 0).wrB (F.SWA_Ln_LKST_BRAKE n) false
  (s.efmHeadGone n).each (s.genOfGroup n) fun s k => s.chanOff (64 + k)

/-- SYS_ADAPT.BUSY: a lane's run is in progress (R95). -/
def State.adaptShow (s : State) : State := s.wrB F.SYS_ADAPT_BUSY (s.boot.heads.any fun h => h.2.adaptAt.isSome)

/-- A head that fails roll call or a lane item: the lane is left as without a head (R40), with the head fault source. -/
def State.headFail (s : State) (n cause : Nat) : State :=
  let s := (s.modHead n fun h => { h with passed := false, failed := true, adaptAt := none, judged := none }).adaptShow.wrBit F.SYS_RC_PASS_LANE n false
  let s := (s.portsOff n).laneOff n
  let s := ((s.sticky F.SYS_RC_STAT_FAIL).wr F.SYS_RC_STAT_CAUSE cause).wr F.SYS_RC_STAT_LANE n
  s.raiseLane 0x20 1 n

/-- The lane items of R95 begin: on a DC lane the injection amplitude, on every lane the cable resistance. -/
def State.adaptStart (s : State) (n : Nat) : State :=
  let dc := s.laneType n = .dc
  let s := (s.modHead n fun h => { h with
    adaptAt := some s.clk.frame, judged := none, cableOk := none, injOk := if dc then none else some true }).adaptShow
  if dc then s.injStart n else s

/-- The sensors a head's identity memory lists (R88). -/
def identSensors (ident : List Byte) : List Nat := (List.range 6).filter fun j => leAt ident (0x14 + j) 1 ≠ 0

/-- The cable-resistance item (R94): none while a sensor has not been read; else whether the spread of the head sensors and their
distance from the cabinet's ambient sensor lie within the bounds. -/
def State.cableItem (s : State) (n : Nat) : Option Bool :=
  let js := identSensors (s.head n).ident
  if !(js.all fun j => s.on (F.MET_Ln_HTj_VALID n j)) then none
  else
    let ts := js.map fun j => s.rdS (F.MET_Ln_HTj_TEMP n j)
    let hi := ts.foldl max (ts.headD 0)
    let lo := ts.foldl min (ts.headD 0)
    let amb := s.rd F.MET_CFG_AMB
    let near := if amb < 64 && s.on (F.MET_SNBm_T_VALID amb) then
        ts.all fun t => (t - s.rdS (F.MET_SNBm_T_TEMP amb)).natAbs ≤ 16 * s.boot.bounds.ambient
      else true
    some (hi - lo ≤ 16 * s.boot.bounds.spread && near)

/-- Judge the run of lane `n`: both items passed, or the first that failed; `overs`: an item not complete counts as failed. The result
waits for its commit (R96). -/
def State.adaptJudge (s : State) (n : Nat) (overs : Bool) : State :=
  match (s.head n).adaptAt with
  | none => s
  | some _ =>
    let cable := s.cableItem n
    let inj := (s.head n).injOk
    if !overs && (cable.isNone || inj.isNone) then s
    else
      let c := if cable ≠ some true then 6 else if inj ≠ some true then 7 else 0
      let s := (s.modHead n fun h => { h with
        cableOk := cable, injOk := some (inj.getD false), adaptAt := none, judged := some c }).adaptShow
      if inj.isNone then s.injOff n else s

/-- The values decided for lane `n` are committed (R96): RCAB and the injection amplitude, and the head passes; or it has failed. -/
def State.adaptCommitLane (s : State) (n : Nat) : State :=
  let h := s.head n
  match h.judged with
  | none => s
  | some c =>
    let s := s.modHead n fun h => { h with judged := none }
    if c ≠ 0 then s.headFail n c
    else
      let s := (s.wrSat (F.MET_Ln_RCAB_RCAB n) h.rcab).when (s.laneType n = .dc) fun s => s.wrSat (F.EFM_Ln_INJ_AMP n) h.amp
      ((s.modHead n fun h => { h with passed := true }).wrBit F.SYS_RC_PASS_LANE n true).causeOff 0x20 (some (s.groupSet n))

/-- All decided values are committed at one edge. -/
def State.adaptCommit (s : State) : State := s.each s.outlets State.adaptCommitLane

/-- LANE_ADAPT_DONE (R95): the run ends when both items have, and at the latest after 600 ms. -/
def execLaneAdaptDone (n : Lane) (s : State) : Host.Outcome State Fault Refusal :=
  .next (s.adaptJudge n (match (s.head n).adaptAt with | some t => t + 600 ≤ s.clk.frame | none => false))

/-- LANE_ADAPT_GO (R95): SYS_ADAPT.GO; ignored while a run is in progress, and where no head has passed roll call. -/
def State.adaptGo (s : State) : State :=
  let n := s.rd F.SYS_ADAPT_LANE
  let h := s.head n
  if s.on F.SYS_ADAPT_BUSY || !h.present || h.rollCall || h.ident.isEmpty || h.adaptAt.isSome || s.rd F.SYS_STAGE_STAGE < 6 then s
  else s.adaptStart n

def execLaneAdaptGo (s : State) : Host.Outcome State Fault Refusal := .next s.adaptGo

/-- The head class that suits a lane type (R89). -/
def LaneType.suits (t : LaneType) (cls : Nat) : Bool :=
  match t with | .dc => cls = 1 | .ac1 => cls = 2 | .ac3lead => cls = 3 | _ => false

/-- The first failed condition of R89; 0 none. The nominal current is in 0.1 A (MET_Ln_INOM), the head's rating in A. -/
def State.rollCallCause (s : State) (n : Nat) (ident : List Byte) (answers : BitVec 6) : Nat :=
  let c := s.laneCfg n
  if ident.length ≠ 64 || crc32 (ident.take 0x3C) ≠ leAt ident 0x3C 4 then 1
  else if !c.typ.suits (leAt ident 9 1) then 2
  else if 10 * leAt ident 0x0A 2 < c.inom then 3
  else if leAt ident 0x0C 4 < c.rcabLo || c.rcabHi < leAt ident 0x0C 4 then 4
  else if !((identSensors ident).all fun j => answers.getLsbD j) then 5
  else 0

/-- HEAD_ROLL_CALL_DONE (R89, R90): `answers`: bit j, the sensor of SADDR j answers. On hot-plug the lane items follow. -/
def execHeadRollCallDone (n : Lane) (ident : List Byte) (answers : BitVec 6) (s : State) : Host.Outcome State Fault Refusal :=
  .next <|
    let h := s.head n
    if h.present && h.rollCall then
      let c := s.rollCallCause n ident answers
      let s := s.modHead n fun h => { h with rollCall := false, failed := false }
      if c ≠ 0 then s.headFail n c
      else
        let s := s.modHead n fun h => { h with
          ident := ident, irated := leAt ident 0x0A 2, rcab := leAt ident 0x0C 4, nsens := leAt ident 0x12 1,
          lockKind := leAt ident 0x13 1, sensIdx := 0 }
        let s := s.wr (F.SWA_Ln_LKST_TYPE n) (leAt ident 0x13 1)
        if 6 ≤ s.rd F.SYS_STAGE_STAGE then s.adaptStart n else s
    else s

/-! ## Presence (R39 to R42) -/

/-- A head is declared present: its serial is kept, a new serial starts a cable record (R91, R139), and roll call begins. -/
def State.headPresent (s : State) (n serial : Nat) : State :=
  let s := s.when (s.rd (F.SYS_HEADn_SER_SERIAL n) ≠ serial) fun s => s.countWrap (F.MET_Ln_RCREC_RECNO n)
  let s := ((s.wr (F.SYS_HEADn_SER_SERIAL n) serial).wrBit F.SYS_RC_PRES_LANE n true).wrB (F.SWA_Ln_LKST_BRAKE n) true
  (s.modHead n fun _ => { present := true, rollCall := true, lastSerial := serial, ok := 3 }).verdictReset n

/-- What leaves with the head (R31, R40, R112, R139): its readings, its cable resistance, lock, injection and general channels. -/
def State.headClear (s : State) (n : Nat) : State :=
  let s := (s.modHead n fun _ => {}).adaptShow
  let s := (s.wrBit F.SYS_RC_PRES_LANE n false).wrBit F.SYS_RC_PASS_LANE n false
  let s := s.each (List.range 6) fun s j => s.setWord (A.MET_Ln_HTj n j) 0
  let s := (((s.wr (F.MET_Ln_RCAB_RCAB n) 0).wr (F.MET_Ln_RT_R n) 0).modMetLane n fun m => { m with rt := 0 }).causeOff 0x20 (some (s.groupSet n))
  (s.wr (F.SWA_Ln_LKST_TYPE n) 0).portsOff n

/-- HEAD_ABSENT (R41): the session ends, everything of the lane goes off, and a closed contactor raises 0x21. -/
def State.headAbsent (s : State) (n : Nat) : State :=
  let closed := s.mirAny n
  let s := s.headClear n
  let s := if (s.pilLane n).opened then
      let s := s.when (s.rd (F.PIL_Ln_SESS_CAUSE n) ≠ 0) fun s => s.modPilLane n fun p => { p with headRemoved := true }
      s.decideExit n 0x12
    else s
  (s.when closed fun s => s.raiseLane 0x21 2 n).laneOff n

/-- A successful probe that read `x`. -/
def State.probeOk (s : State) (n x : Nat) : State :=
  let s := if (s.head n).present && s.rd (F.SYS_HEADn_SER_SERIAL n) ≠ x then s.headAbsent n else s
  let h := s.head n
  let ok := if h.ok ≠ 0 && h.lastSerial = x then min 3 (h.ok + 1) else 1
  let s := s.modHead n fun h => { h with ok := ok, fail := 0, lastSerial := x }
  if ok = 3 && !h.present then s.headPresent n x else s

/-- A failed probe. -/
def State.probeFail (s : State) (n : Nat) : State :=
  let h := s.head n
  if h.present && 2 ≤ h.fail then s.headAbsent n
  else s.modHead n fun h => { h with ok := 0, lastSerial := if h.present then h.lastSerial else 0, fail := if h.present then h.fail + 1 else 0 }

/-- HEAD_PROBE (R39): in the frames whose decade phase is n modulo 10; only an outlet's lead lane is probed (R42). -/
def execHeadProbe (n : Lane) (serial : Option (BitVec 64)) (s : State) : Host.Outcome State Fault Refusal :=
  .next <| if s.boot.vddField && (s.laneType n).outlet && s.clk.decade = n.val % 10 then
      match serial with
      | some x => s.probeOk n x.toNat
      | none => s.probeFail n
    else s

/-- HEAD_SENSOR_READ (R112): one sensor of the head in turn, in the frames of phase n + 5; three failed reads in a row make it stale. -/
def execHeadSensorRead (n : Lane) (reading : Option (BitVec 16)) (s : State) : Host.Outcome State Fault Refusal :=
  .next <|
    let h := s.head n
    let js := identSensors h.ident
    if s.boot.vddField && h.present && !js.isEmpty && s.clk.decade = (n.val + 5) % 10 then
      let j := js.getD (h.sensIdx % js.length) 0
      let s := s.modHead n fun h => { h with sensIdx := (h.sensIdx + 1) % js.length }
      match reading with
      | some v =>
        let s := ((s.wrB (F.MET_Ln_HTj_VALID n j) true).wrB (F.MET_Ln_HTj_STALE n j) false).wr (F.MET_Ln_HTj_TEMP n j) v.toNat
        s.modHead n fun h => { h with sensFails := put (fun _ => 0) h.sensFails j 0 }
      | none =>
        let k := min 3 (lk (fun _ => 0) h.sensFails j + 1)
        let s := s.modHead n fun h => { h with sensFails := put (fun _ => 0) h.sensFails j k }
        if k = 3 then s.wrB (F.MET_Ln_HTj_STALE n j) true else s
    else s

/-- The cause of 0x21 lasts while the contactor is closed. -/
def State.headCauses (s : State) : State :=
  s.each (s.outlets.filter fun n => s.causeFor 0x21 n && !s.mirAny n) fun s n => s.causeOff 0x21 (some (s.groupSet n))

/-! ## Supplies (R11, R24, R430, R432) -/

/-- What is left of a channel's record without the field die: its booking, which the scheduler holds, and what the safety channels
count for themselves. -/
def Chan.kept (k : Chan) : Chan :=
  { booked := k.booked, bookEnd := k.bookEnd, bookAux := k.bookAux, bookHeat := k.bookHeat, offSince := k.offSince,
    weldTested := k.weldTested, seenClosed := k.seenClosed, openFrames := k.openFrames }

/-- Does the register word at `a` lie in the field die: one of block SWA, but for its write control? -/
def inFieldDie (a : Nat) : Bool := blockOf a = 9 && a ≠ blockBase 9 + 0xFFFC

/-- What the switch array held is lost (R11): its registers, the channels' counts, latches, buckets and lockouts, its supply and thermal
conditions; and their causes end. -/
def State.switchLost (s : State) : State :=
  let s := (s.setRegs (s.regs.filter fun r => !inFieldDie r.1)).setGold (s.gold.filter fun r => !inFieldDie r.1)
  let s := s.modSwa fun w => {
    chans := (w.chans.map fun c => (c.1, c.2.kept)).filter fun c => c.2 ≠ {}, rdrOn := w.rdrOn, rdrEnd := w.rdrOn.map (·.1) }
  s.each ((List.range 11).map (· + 0x40)) fun s i => s.causeOff i none

/-- Everything the field die drives goes off (R430): channels, locks, injection, readers, display; and what it held is lost: presence
of heads, lock positions, the switch array (R11). -/
def State.fieldOff (s : State) : State :=
  let s := (s.each (s.swa.chans.map (·.1)) State.chanOff).locksUnknown
  let s := s.each (s.outlets.filter fun n => (s.head n).present) fun s n =>
    let s := s.headClear n
    (if (s.pilLane n).opened then s.decideExit n 0x12 else s).laneOff n
  let s := ((s.nfcEdge.modDpy fun _ => {}).wr F.DPY_STAT_STATE 0).modBoot fun b => { b with heads := [] }
  (s.switchLost.modSaf fun x => { x with refreshA := false, refreshB := false, frcA := {}, frcB := {} }).soShow

/-- FIELD_SUPPLY_LOSS (R430): the field service link, the A-link and the B-link fail (R12, R275), and every consent is withdrawn. -/
def execFieldSupplyLoss (s : State) : Host.Outcome State Fault Refusal :=
  .next <| if s.boot.vddField then
      let s := s.modBoot fun b => { b with vddField := false }
      let s := ((s.raiseDev 0x01 1).raiseDev 0x02 1).raiseDev 0x03 1
      ((s.withdrawClose (BitVec.allOnes 32)).withdrawUnlock (BitVec.allOnes 32)).fieldOff
    else s

/-- FIELD_SUPPLY_RETURN (R11): the field die starts empty and its links pass; consents are refreshed from the next edge. The decade
phase of the head probes starts at 0 again (DESIGN CHOICE, log entry 20). -/
def execFieldSupplyReturn (s : State) : Host.Outcome State Fault Refusal :=
  .next <| if s.boot.vddField then s
    else
      let s := (s.modBoot fun b => { b with vddField := true }).modClk fun c => { c with decade := 0 }
      ((s.causeOff 0x01 none).causeOff 0x02 none).causeOff 0x03 none

/-- CORE_SUPPLY_LOSS (R11, R430): the core die loses all it held; a save that is not final stays so. -/
def execCoreSupplyLoss (s : State) : Host.Outcome State Fault Refusal :=
  .next ((s.reboot true).modBoot fun b => { b with vddCore := false })

/-- THERMOS_TO_VBAK (R432): THM_LOSS is stamped with the wall time. -/
def execThermosToVbak (s : State) : Host.Outcome State Fault Refusal :=
  .next <| if s.thm.io33 then
      let s := (s.wr F.THM_LOSS_SEC s.wallSec).modThm fun t => { t with io33 := false, lossMs := s.wallMs, lossInvalid := false }
      if s.thm.vbak then s else (s.wrB F.THM_WALL_VALID false).modThm fun t => { t with lossInvalid := true }
    else s

/-- The clock restarts from THM_LOSS, with 0 ms (R24). -/
def State.clockRestart (s : State) : State := (s.wr F.THM_WALL_SEC (s.rd F.THM_LOSS_SEC)).wr F.THM_WALL_MS 0

/-- THERMOS_TO_IO33 (R432); where no supply was left, the clock restarts (R24). -/
def execThermosToIo33 (s : State) : Host.Outcome State Fault Refusal :=
  .next <|
    let dead := !s.thm.io33 && !s.thm.vbak
    let s := s.modThm fun t => { t with io33 := true }
    if dead then s.clockRestart else s

/-- THERMOS_SUPPLY_LOSS (R24): VBAK below its minimum; without the main supply the clock stops and the clock-valid flag clears. -/
def execThermosSupplyLoss (s : State) : Host.Outcome State Fault Refusal :=
  .next <|
    let s := s.modThm fun t => { t with vbak := false }
    if s.thm.io33 then s else (s.wrB F.THM_WALL_VALID false).modThm fun t => { t with lossInvalid := true }

/-- THERMOS_SUPPLY_RETURN (R24): VBAK is in range again; where no supply was left, the clock restarts with the flag clear. -/
def execThermosSupplyReturn (s : State) : Host.Outcome State Fault Refusal :=
  .next <|
    let dead := !s.thm.io33 && !s.thm.vbak
    let s := s.modThm fun t => { t with vbak := true }
    if dead then s.clockRestart else s

/-- What a failed transfer on a link would have brought is dropped with it (R12): the inputs of the next edge on the links to the field
die; a time set on the thermos link; the hamper image being written, which is saved again with the next save. -/
def State.transferLost (s : State) : DieLink → State
  | .thermos => s.modBil fun b => { b with clkReq := none }
  | .hamper => s.modBil fun b => { b with saving := none }
  | l => s.modSaf fun x => { x with lost := if x.lost.contains l then x.lost else l :: x.lost }

/-- INTERNAL_LINK_TRANSFER (R12, R275): a transfer whose CRC fails is discarded with the link's source; a bad refresh withdraws the
channel's consents and SO drives until the next good one. The hamper path has no source of its own. -/
def execInternalLinkTransfer (link : DieLink) (crcGood : Bool) (s : State) : Host.Outcome State Fault Refusal :=
  .next <| if crcGood then s
    else
      let s := s.transferLost link
      match link with
      | .fieldService => s.raiseOnce 0x01 1 none
      | .aLink => ((s.raiseOnce 0x02 1 none).modSaf fun x => { x with refreshA := false }).consentRefresh
      | .bLink => ((s.raiseOnce 0x03 1 none).modSaf fun x => { x with refreshB := false }).consentRefresh
      | .thermos => s.raiseOnce 0x04 1 none
      | .hamper => s

/-- POWER_FAIL_WARNING (R168, R413): the final save begins, and the panel goes down. -/
def execPowerFailWarning (s : State) : Host.Outcome State Fault Refusal :=
  .next <| if s.powerFails then s.powerFail.dpyPowerFail else s

end Sys2Proof.Machine
end

