-- ==== Sys2Proof/Machine/Ticks.lean ====
section
/-!
DEFINITION. Site time and fences (spec/03): sync results, the sync states, requests of fences, the overrun counters.
-/

namespace Sys2Proof.Machine

open Sys2Proof

/-- Lock limit of a site time source, in ns (R45). -/
def lockLimit (src : Nat) : Nat := if src ≤ 1 then 5000 else if src ≤ 5 then 1000 else 250000

/-- Enter a sync state; leaving LOCKED is an event (R47). The runs of results count from the entry. -/
def State.setSync (s : State) (st : Nat) : State :=
  let s := s.when (s.rd F.TCK_SYNC_STATE = 1 && st ≠ 1) fun s => s.sticky F.TCK_SYNC_LOSS
  (s.wr F.TCK_SYNC_STATE st).modClk fun c => { c with good := 0, bad := 0, holdSince := c.frame }

/-- Nearest whole number of `b` in `a`. -/
def nearest (a : Int) (b : Nat) : Int := (2 * a + b) / (2 * b : Int)

/-- The first result since the source was named loads the count of whole milliseconds; later ones leave it (see the log). -/
def State.loadTime (s : State) (ofs : Int) : Int × State :=
  if s.clk.timeSet then (ofs, s)
  else
    let k := nearest ofs 1000000
    (ofs - 1000000 * k, (s.wr F.TCK_TIME_MS (codeOf 64 ((s.rd F.TCK_TIME_MS : Int) - k))).modClk fun c => { c with timeSet := true })

/-- A sync result: local minus site time in ns (R46, R47). The PLL is steered within ±100 ppm, except in HOLDOVER. -/
def State.syncResult (s : State) (ofs : Int) : State :=
  if s.clk.source = 7 then s
  else
    let (o, s) := s.loadTime ofs
    let lim := lockLimit s.clk.source
    let v := if o < -(2 ^ 31 - 1) then -(2 ^ 31 - 1) else if 2 ^ 31 - 1 < o then 2 ^ 31 - 1 else o
    let s := s.wr F.TCK_OFFSET_OFS (codeOf 32 v)
    let s := s.modClk fun c => { c with
      ofs := o, lastSync := c.frame,
      good := if o.natAbs ≤ lim then c.good + 1 else 0, bad := if 4 * lim < o.natAbs then c.bad + 1 else 0 }
    let s := if s.rd F.TCK_SYNC_STATE = 1 then (if 2 ≤ s.clk.bad then s.setSync 0 else s)
      else if 8 ≤ s.clk.good then s.setSync 1 else s
    if s.rd F.TCK_SYNC_STATE = 2 then s
    else s.modClk fun c => { c with steer := max (-100) (min 100 (Config.steerPpm o)) }

/-- SYNC_RESULT (R47). -/
def execSyncResult (offset : Int) (s : State) : Host.Outcome State Fault Refusal := .next (s.syncResult offset)

/-- SYNC_RESULT_TIMEOUT (R47): no valid result for 4 s while LOCKED; the local source is always locked (R45). -/
def execSyncResultTimeout (s : State) : Host.Outcome State Fault Refusal :=
  .next <| if s.clk.source ≠ 7 && s.rd F.TCK_SYNC_STATE = 1 && s.clk.lastSync + 4000 ≤ s.clk.frame then s.setSync 2 else s

/-- HOLDOVER_EXPIRY (R47): 60 s in HOLDOVER. -/
def execHoldoverExpiry (s : State) : Host.Outcome State Fault Refusal :=
  .next <| if s.rd F.TCK_SYNC_STATE = 2 && s.clk.holdSince + 60000 ≤ s.clk.frame then s.setSync 0 else s

/-- Name the site time source (R45): the local one is locked at once. -/
def State.setSource (s : State) (src : Nat) : State :=
  let s := (s.wr F.TCK_SYNC_SRC src).modClk fun c => { c with source := src, good := 0, bad := 0, timeSet := false, ofs := 0, lastSync := c.frame }
  if src = 7 then s.setSync 1 else s

/-- FENCE_GO (R57). -/
def execFenceGo (s : State) : Host.Outcome State Fault Refusal := .next s.fenceGo

/-- FENCE_CLOSE (R57): step 2 of R53. The closes requested before the fence carry the epoch it opens, and are written at the first
edge after this one (R157). -/
def State.fenceClose (s : State) : State :=
  if s.clk.fenceReq then
    let s := (s.countWrap F.TCK_EPOCH_EPOCH).modClk fun c => { c with fenceReq := false }
    let by_ := some (s.epoch, s.clk.frame + 1)
    s.modBil fun b => { b with
      closes := b.closes.map fun p => if p.fenced.isNone then { p with fenced := by_ } else p,
      periods := b.periods.map fun p => if p.fenced.isNone then { p with fenced := by_ } else p }
  else s

/-- TCK_CTL.OVRCLR (R54): all four counters return to 0. -/
def State.ovrClear (s : State) : State :=
  (((s.wr F.TCK_OVR_SAMPLE 0).wr F.TCK_OVR_FRAME 0).wr F.TCK_OVR_ALLOC 0).wr F.TCK_OVR_LEDGER 0

/-- OVERRUN_CLEAR (R54). -/
def execOverrunClear (s : State) : Host.Outcome State Fault Refusal := .next s.ovrClear

/-- FRAME_STEP_DECISION (R49), at the starting edge of a frame and after its work: `allowed` when no lane is energised and no
pilot output in force is 5 % or nominal PWM. -/
def State.stepDecide (s : State) (allowed : Bool) : State :=
  let a := s.clk.ofs.natAbs
  let starts := s.clk.source ≠ 7 && (500000 < a || (s.rd F.SYS_STAGE_STAGE = 6 && 31250 < a))
  let go := allowed && (if s.clk.stepping then 31250 < a else starts)
  let s := s.when (go && !s.clk.stepping) fun s => s.sticky F.TCK_SYNC_STEPPED
  if go then
    let d := max (-8) (min 8 (nearest s.clk.ofs 62500))  -- DESIGN CHOICE (log 21): the nearest whole count, within the range
    s.modClk fun c => { c with stepping := true, frameLen := (16 + d).toNat, ofs := c.ofs - 62500 * d }
  else s.modClk fun c => { c with stepping := false, frameLen := 16 }

end Sys2Proof.Machine
end

