-- ==== Sys2Proof/Machine/Updates.lean ====
section
/-!
DEFINITION. The update manager (spec/18): delivery block by block, verification of the rucksack, activation with its rain check,
trial, confirmation and rollback.
-/

namespace Sys2Proof.Machine

open Sys2Proof

def State.modUpd (s : State) (f : UpdState → UpdState) : State := s.setUpd (f s.upd)

/-- The rucksack's state, held and shown. -/
def State.setBank (s : State) (v : Nat) : State := (s.modUpd fun u => { u with bank := v }).wr F.UPD_BANK_STATE v

/-! ## Delivery (R374 to R376) -/

/-- Show the measurements a new image will have (R368, R377). -/
def State.showNew (s : State) (m1 m2 m3 : Nat) : State :=
  ((s.wr (F.KEY_NMEASj_M 0) m1).wr (F.KEY_NMEASj_M 1) m2).wr (F.KEY_NMEASj_M 2) m3

/-- Erase the rucksack and the bitmap; there is no image to re-seal for (R368). -/
def State.eraseRuck (s : State) : State :=
  let s := (s.modUpd fun u => { u with flash := [], ruck := none }).showNew 0 0 0
  s.setRegs (s.regs.filter fun r => !isBitmap r.1)

/-- UPD_CTL.OPEN (R374): opens a delivery, or sets REFUSED. -/
def State.updOpen (s : State) : State :=
  let b := s.rd F.UPD_BANK_STATE
  if b = 2 || b = 4 || b = 5 || s.on F.UPD_STAT_RAIN || s.on F.KEY_RESEAL_DONE then s.sticky F.UPD_STAT_REFUSED
  else
    let n := s.rd F.UPD_DLV_LAST + 1
    let s := s.eraseRuck.modUpd fun u => { u with tag := s.rd F.UPD_DLV_TAG, nblk := n }
    (s.setBank 1).wr F.UPD_STAT_MISSING n

/-- UPDATE_OPEN (R374). -/
def execUpdateOpen (s : State) : Host.Outcome State Fault Refusal := .next s.updOpen

/-- An erased flash byte. -/
def erased (_ : Nat) : Byte := 0xFF

/-- Write bytes of the rucksack from offset `o`. -/
def ruckWrite (m : List Host.Cell) (o : Nat) : List Byte → List Host.Cell
  | [] => m
  | b :: bs => ruckWrite (put erased m o b) (o + 1) bs

/-- A block is written, read back and marked received; the last one ends the delivery (R376, R377). -/
def State.takeBlock (s : State) (i : Nat) (data : List Byte) : State :=
  let s := s.modUpd fun u => { u with flash := ruckWrite u.flash (512 * i) data }
  let s := (s.wrBit (F.UPD_BMAPw_RCVD (i / 32)) (i % 32) true).wr F.UPD_STAT_MISSING (s.rd F.UPD_STAT_MISSING - 1)
  if s.rd F.UPD_STAT_MISSING = 0 then s.setBank 2 else s

/-- A received block message (R375, R376); `readBack`: the block read back as written, at the latest the second time. -/
def State.updBlock (s : State) (msg : List Byte) (readBack : Bool) : State :=
  if msg.length ≠ 520 || crc32 (msg.take 516) ≠ leAt msg 516 4 then s.count F.UPD_CNT_CRCERR 1
  else
    let b := s.rd F.UPD_BANK_STATE
    let i := leAt msg 2 2
    if !(b = 1 || b = 2) || leAt msg 0 2 ≠ s.upd.tag then s
    else if s.upd.nblk ≤ i then s.count F.UPD_CNT_CRCERR 1
    else if s.rdBit (F.UPD_BMAPw_RCVD (i / 32)) (i % 32) then s.count F.UPD_CNT_DUP 1
    else if readBack then s.takeBlock i (slice msg 4 512) else s.raiseOnce 0xA3 1 none

/-- UPDATE_BLOCK (R376). -/
def execUpdateBlock (msg : List Byte) (readBack : Bool) (s : State) : Host.Outcome State Fault Refusal := .next (s.updBlock msg readBack)

/-- UPD_CTL.BLKGO: the message of UPD_BLK. -/
def State.blkGo (s : State) (readBack : Bool) : State := s.updBlock (leBytes 520 (s.rd F.UPD_BLK_MSG)) readBack

/-- UPDATE_BLOCK_GO (R376). -/
def execUpdateBlockGo (readBack : Bool) (s : State) : Host.Outcome State Fault Refusal := .next (s.blkGo readBack)

/-- UPDATE_CNT_CLEAR (R376): UPD_CNT.CLR. -/
def State.updCntClear (s : State) : State := (s.wr F.UPD_CNT_CRCERR 0).wr F.UPD_CNT_DUP 0

def execUpdateCntClear (s : State) : Host.Outcome State Fault Refusal := .next s.updCntClear

/-! ## Verification (R373, R377) -/

/-- Bytes of the rucksack. -/
def State.ruckBytes (s : State) (o k : Nat) : List Byte := (List.range k).map fun i => lk erased s.upd.flash (o + i)

/-- Offset and length of stage `i` of the image, and the hash its header gives. -/
def stageRow (h : List Byte) (i : Nat) : Nat × Nat × List Byte := (leAt h (0x1C + 40 * i) 4, leAt h (0x20 + 40 * i) 4, slice h (0x24 + 40 * i) 32)

/-- Does a stage lie inside the image and match its hash? An absent stage has length 0. -/
def stageGood (get : Nat → Nat → List Byte) (len : Nat) (r : Nat × Nat × List Byte) : Bool :=
  r.2.1 = 0 || (r.1 + r.2.1 ≤ len && sha256 (get r.1 r.2.1) = r.2.2)

/-- The first check of R377 that an image fails, 0 when all pass: `get` reads its bytes by offset and length, `key` is the image key,
`blocks` the delivery's blocks. Without a delivery LENGTH is at most 32 MB. The signature's r and s are read big-endian (log entry
49). -/
def imageCheck (get : Nat → Nat → List Byte) (key : P384Key) (blocks : Option Nat) (minSvn : Nat) : Nat :=
  let h := get 0 512
  let len := leAt h 8 4
  let fits := match blocks with | some n => (len + 511) / 512 = n | none => len ≤ 0x2000000
  if !(leAt h 0 4 = 0x4D494D41 && leAt h 4 2 = 1 && leAt h 6 2 = 0x3200) then 1
  else if !fits then 2
  else if !([0, 1, 2].all fun i => stageGood get len (stageRow h i)) then 3
  else if len < 608 || !p384Verify key (sha384 (get 0 (len - 96))) (beNat (get (len - 96) 48)) (beNat (get (len - 48) 48)) then 4
  else if leAt h 0x14 4 < minSvn then 5
  else 0

/-- VERIFYING checks the rucksack under the key of the running bank's loader (R373, R377). -/
def State.verifyStep (s : State) : Nat :=
  let key : P384Key := match s.upd.run with | some i => i.imageKey | none => ⟨0, 0⟩
  imageCheck s.ruckBytes key (some s.upd.nblk) (s.rd F.UPD_VER_MINSVN)

/-- The measurement chain over stage hashes (R358). -/
def chainOf (hashes : List (List Byte)) : List (List Byte) :=
  (hashes.foldl (fun (r : List Byte × Nat × List (List Byte)) h =>
    let m := sha256 (r.1 ++ h ++ leBytes 1 r.2.1)
    (m, r.2.1 + 1, r.2.2 ++ [m])) (List.replicate 32 0, 1, [])).2.2

/-- A verified image: its stages are hashed and the chain formed over them (R358). -/
def imageOf (get : Nat → Nat → List Byte) (imageKey listKey : P384Key) : BankImage :=
  let h := get 0 512
  let ms := chainOf ([0, 1, 2].map fun i => sha256 (get (stageRow h i).1 (stageRow h i).2.1))
  let m (i : Nat) : BitVec 256 := BitVec.ofNat 256 (leNat (ms.getD i []))
  let w (o : Nat) : Word := BitVec.ofNat 32 (leAt h o 4)
  ⟨m 0, m 1, m 2, w 0x10, w 0x14, BitVec.ofNat 16 (leAt h 0x18 2), bitOf (leAt h 0x0E 2) 0, imageKey, listKey⟩

/-- The image in the rucksack, verified; stage 0x3 reads its keys when it runs. -/
def State.ruckImage (s : State) : BankImage := imageOf s.ruckBytes ⟨0, 0⟩ ⟨0, 0⟩

/-- Show the measurements of the image in the rucksack. -/
def State.showRuck (s : State) : State :=
  match s.upd.ruck with
  | some i => s.showNew i.m1.toNat i.m2.toNat i.m3.toNat
  | none => s

/-- VERIFY_DONE (R377). -/
def execVerifyDone (s : State) : Host.Outcome State Fault Refusal :=
  .next <| if s.rd F.UPD_BANK_STATE = 2 then
      let c := s.verifyStep
      let s := s.wr F.UPD_STAT_VCAUSE c
      if c = 0 then (s.modUpd fun u => { u with ruck := some s.ruckImage }).showRuck.setBank 3
      else ((s.sticky F.UPD_STAT_VFAIL).raiseOnce 0xA1 1 none).eraseRuck.setBank 0
    else s

/-! ## Activation and the rain check (R378, R379) -/

/-- Is a sticky bit of safety class set? -/
def State.safetySticky (s : State) : Bool := sourcesAll.any fun i => s.on (F.FLT_SRCi_STK i) && s.rd (F.FLT_SRCi_CLASS i) = 4

/-- A frame within the last `k` frames. -/
def State.within (s : State) (f : Option Nat) (k : Nat) : Bool :=
  match f with
  | some f => s.clk.frame ≤ f + k
  | none => false

/-- The refusal conditions of R378, bit i for condition i. -/
def State.refusals (s : State) : Nat :=
  let c0 := lanesAll.any fun n => s.chanOn n || s.mirAny n || [0x08, 0x0A, 0x0D].contains (s.sessStep n)
  let c2 := s.pins.vbak < (2000 + 100 * s.rd F.UPD_CFG_VBMIN : Nat) || !s.within s.bil.saveAt 2000 || s.within s.bil.pfwAt 60000 || s.supplyBad
  let c4 := s.on F.SAF_STAT_SAFE || s.safetySticky
  b2n c0 + 2 * b2n (!s.openSessions.isEmpty) + 4 * b2n c2 + 8 * b2n (s.on F.UPD_LOCK_OWNER) + 16 * b2n c4 + 32 * b2n (!s.on F.KEY_RESEAL_DONE)

/-- Test the request: it is accepted, or becomes the rain check. From the acceptance on, a fence and the final save are under way. -/
def State.actTest (s : State) : State :=
  let c := s.refusals
  let s := s.wr F.UPD_REFUSE_COND c
  if c = 0 then
    ((((s.wrB F.UPD_STAT_RAIN false).setBank 4).fenceGo).saveStart true).modUpd fun u => { u with actAt := some (s.clk.frame + 2) }
  else s.wrB F.UPD_STAT_RAIN true

/-- Does the rucksack's security version still pass step 5 of R377 (R381)? -/
def State.svnGood (s : State) : Bool :=
  match s.upd.ruck with
  | some i => s.rd F.UPD_VER_MINSVN ≤ i.svn.toNat
  | none => false

/-- UPD_CTL.ACT (R378): tested at the next edge; ignored unless the rucksack is VERIFIED (R382), and of an old image whose security
version no longer passes (R381; log entry 49). -/
def State.updAct (s : State) : State :=
  if s.rd F.UPD_BANK_STATE = 3 && s.svnGood then s.modUpd fun u => { u with actReq := true } else s

/-- UPDATE_ACT (R378). -/
def execUpdateAct (s : State) : Host.Outcome State Fault Refusal := .next s.updAct

/-- UPD_CTL.CANCEL (R378): ends the rain check and has the pending key copies discarded. -/
def State.updCancel (s : State) : State := if s.on F.UPD_STAT_RAIN then (s.wrB F.UPD_STAT_RAIN false).sealAbort else s

/-- UPDATE_CANCEL (R378). -/
def execUpdateCancel (s : State) : Host.Outcome State Fault Refusal := .next s.updCancel

/-- IDLE_WINDOW (R378): no condition has held for IDLEW s, and the rain check is retried. -/
def execIdleWindow (s : State) : Host.Outcome State Fault Refusal :=
  .next <| if s.on F.UPD_STAT_RAIN && (match s.upd.idleSince with | some f => f + 1000 * s.rd F.UPD_CFG_IDLEW ≤ s.clk.frame | none => false)
    then s.actTest else s

/-- The other bank runs from the next start on. -/
def State.swapBanks (s : State) : State :=
  (s.wr F.UPD_BANK_RUN (1 - s.rd F.UPD_BANK_RUN)).modUpd fun u => { u with run := u.ruck, ruck := u.run, flash := [] }

/-- ACTIVATION (R379): in one thermos-die operation the rucksack becomes the running bank in trial and the pending key word comes
into force; then a warm start. -/
def State.activate (s : State) : State :=
  let s := (((s.saveEnd.swapBanks).wr F.UPD_BANK_TRIES 0).sealActivate).modUpd fun u => { u with trial := true, actAt := none }
  (s.setBank 5).warmStart

/-- The update manager's part of an edge: refusal conditions, a request written in the frame, an activation whose 2 ms are over. -/
def State.updEdge (s : State) : State :=
  let c := s.refusals
  let s := s.modUpd fun u => { u with idleSince := if c = 0 then some (u.idleSince.getD s.clk.frame) else none }
  let s := if s.upd.actReq then
      let s := s.modUpd fun u => { u with actReq := false }
      if s.rd F.UPD_BANK_STATE = 3 then s.actTest else s
    else s
  match s.upd.actAt with
  | some f => if f ≤ s.clk.frame then s.activate else s
  | none => s

/-! ## Trial (R380, R381) -/

/-- May the new image confirm itself (R380)? -/
def State.mayConfirm (s : State) : Bool :=
  s.upd.trial && s.rd F.SYS_STAGE_STAGE = 8 && s.clk.frame ≤ s.boot.stageFrame + 1000 * s.rd F.UPD_CFG_CONFWIN && !s.causeIs 0x08 && !s.safetySticky

/-- UPD_CTL.CONFIRM (R380): taken at the frame's edge, since a warm start of R316 in the frame wins (R382). -/
def State.updConfirm (s : State) : State := if s.mayConfirm then s.modUpd fun u => { u with confReq := true } else s

/-- A confirmation takes effect. -/
def State.confirmEdge (s : State) : State :=
  if s.upd.confReq then
    let s := s.modUpd fun u => { u with confReq := false }
    if s.mayConfirm then
      let svn : Nat := match s.upd.run with | some i => i.svn.toNat | none => s.rd F.UPD_VER_MINSVN
      let s := ((s.sealConfirm.wr F.UPD_VER_MINSVN svn).wr F.UPD_BANK_TRIES 0).showRuck
      (s.modUpd fun u => { u with trial := false }).setBank 3
    else s
  else s

/-- UPDATE_CONFIRM (R380). -/
def execUpdateConfirm (s : State) : Host.Outcome State Fault Refusal := .next s.updConfirm

/-- ROLLBACK (R381): in one thermos-die operation the old bank runs again and the fallback key word is back in force; the
rejected image stays; a warm start follows, and 0xA2 is raised. -/
def State.rollback (s : State) : State :=
  let s := ((s.swapBanks.wr F.UPD_BANK_TRIES 0).sealRollback).modUpd fun u => { u with trial := false }
  let s := (s.setBank 6).warmStart
  (s.sticky F.UPD_STAT_ROLLBACK).raiseOnce 0xA2 1 none

/-- CONFIRM_WINDOW_EXPIRY (R381): CONFWIN seconds after the entry to stage 0x8. -/
def execConfirmWindowExpiry (s : State) : Host.Outcome State Fault Refusal :=
  .next <| if s.upd.trial && s.rd F.SYS_STAGE_STAGE = 8 && s.boot.stageFrame + 1000 * s.rd F.UPD_CFG_CONFWIN ≤ s.clk.frame then
      s.rollback
    else s

/-- WATCHDOG_RESET (R316): wedged for WRST s; a final save, a warm start, and the count of resets; in trial a rollback (R381). -/
def execWatchdogReset (s : State) : Host.Outcome State Fault Refusal :=
  .next <| match s.flt.wdWedged with
    | some f =>
      let w := s.rd F.FLT_WDCFG_WRST
      if w ≠ 0 && f + 1000 * w ≤ s.clk.frame then
        let s := ((s.saveStart true).saveEnd).count F.FLT_WDOG_RESETS 1
        if s.upd.trial then s.rollback else s.warmStart
      else s
    | none => s

/-- COLD_START (R77): the core rails are back, or RST_L was pulsed. In trial each cold start counts, and the third without a
confirmation rolls back (R381). -/
def execColdStart (s : State) : Host.Outcome State Fault Refusal :=
  .next <|
    let s := (s.modBoot fun b => { b with vddCore := true }).startUp true
    if s.upd.trial then
      let s := s.count F.UPD_BANK_TRIES 1
      if s.rd F.UPD_BANK_TRIES = 3 then s.rollback else s
    else s

end Sys2Proof.Machine
end

