-- ==== Sys2Proof/Machine/Messages.lean ====
section
/-!
DEFINITION. The MAC frame of R323 and its messages (R324, R345), and the delivery of a received message to the unit it is for.
-/

namespace Sys2Proof.Machine

open Sys2Proof

/-- A MAC frame of R323. -/
def macFrame (hsrc odst osrc hops proto seq seg mlen : Nat) (data : List Byte) : List Byte :=
  let bs := leBytes 2 hsrc ++ leBytes 2 odst ++ leBytes 2 osrc ++ leBytes 1 hops ++ leBytes 1 proto ++ leBytes 1 seq ++ leBytes 1 seg ++
    leBytes 2 mlen ++ data
  bs ++ leBytes 4 (crc32 bs)

/-- Fields of a MAC frame. -/
def macSrc (m : List Byte) : Nat := leAt m 0 2
def macDst (m : List Byte) : Nat := leAt m 2 2
def macOrig (m : List Byte) : Nat := leAt m 4 2
def macHops (m : List Byte) : Nat := leAt m 6 1
def macProto (m : List Byte) : Nat := leAt m 7 1
def macSeq (m : List Byte) : Nat := leAt m 8 1
def macSeg (m : List Byte) : Nat := leAt m 9 1
def macLen (m : List Byte) : Nat := leAt m 10 2
def macData (m : List Byte) : List Byte := (m.drop 12).take (m.length - 16)

/-- The CRC-32 of R81 holds over a MAC frame. -/
def macGood (m : List Byte) : Bool := 16 ≤ m.length && m.length ≤ 256 && crc32 (m.take (m.length - 4)) = leAt m (m.length - 4) 4

/-- A frame relayed or forwarded: unchanged apart from HSRC and HOPS (R333). -/
def macRelay (m : List Byte) (hsrc : Nat) : List Byte :=
  macFrame hsrc (macDst m) (macOrig m) (macHops m + 1) (macProto m) (macSeq m) (macSeg m) (macLen m) (macData m)

/-- One payload bit inverted; with KEEPCRC the MAC CRC is recomputed (R336). -/
def macCorrupt (keep : Bool) (k : Nat) (m : List Byte) : List Byte :=
  let body := m.take (m.length - 4)
  let bad := body.take 12 ++ flipBit (body.drop 12) k
  bad ++ (if keep then leBytes 4 (crc32 bad) else m.drop (m.length - 4))

/-- A message cut into parts of at most 240 bytes, at most `n` of them (R323, R324). -/
def parts : Nat → List Byte → List (List Byte)
  | 0, _ => []
  | n + 1, bs => if bs.length ≤ 240 then [bs] else bs.take 240 :: parts n (bs.drop 240)

/-- The MAC frames of a message of at most 3,840 bytes. -/
def macFrames (own odst proto seq : Nat) (msg : List Byte) : List (List Byte) :=
  let ps := parts 16 msg
  ps.zipIdx.map fun p => macFrame own odst own 0 proto seq (16 * p.2 + (ps.length - 1)) msg.length p.1

/-- Take a segment in: the messages still incomplete, and the whole message when this was its last missing segment (R324). A
segment of another message of the same originator drops the old one. -/
def segAdd (rx : List MsgRx) (m : List Byte) : List MsgRx × Option (List Byte) :=
  let key (x : MsgRx) : Bool := x.osrc = macOrig m && x.seq = macSeq m && x.mlen = macLen m && x.proto = macProto m && x.last = macSeg m % 16
  let old : List (Nat × List Byte) := match rx.find? key with | some x => x.segs | none => []
  let rest := rx.filter fun x => x.osrc ≠ macOrig m
  let segs := put (fun _ => ([] : List Byte)) old (macSeg m / 16) (macData m)
  if segs.length = macSeg m % 16 + 1 then (rest, some ((segs.flatMap (·.2)).take (macLen m)))
  else (⟨macProto m, macOrig m, macSeq m, macLen m, macSeg m % 16, segs⟩ :: rest, none)

/-- The connection a safety PDU belongs to, by its source (R294). -/
def State.pduConn (s : State) (pdu : List Byte) : Option Nat :=
  (List.range 16).find? fun k => s.on (F.SAF_CONNk_CFG_EN k) && s.rd (F.SAF_CONNk_PEER_ID k) = leAt pdu 4 4

/-- Every safety PDU of a message (R328), at most `n`. -/
def pduAll : Nat → List Byte → State → State
  | 0, _, s => s
  | n + 1, bs, s =>
    if bs.length < 24 then s
    else
      let s := match s.pduConn bs with
        | some k => s.pduTake k (bs.take 24)
        | none => s
      pduAll n (bs.drop 24) s

/-- A whole message for this device, by PROTO (R323): headcounts and totals, safety PDUs, update blocks. A message of another
PROTO is for the service image. -/
def State.deliver (s : State) (proto : Nat) (msg : List Byte) : State :=
  match proto with
  | 1 => (match headcountRead msg with
    | some h => s.hcTake none h
    | none => s)
  | 2 => pduAll 160 msg s
  | 3 => s.updBlock msg true
  | _ => s

end Sys2Proof.Machine
end

