-- ==== Sys2Proof/Machine/Links.lean ====
section
/-!
DEFINITION. Ethernet with IEEE 1588, joining links, CAN FD (spec/16), and what goes out on them: headcounts and safety PDUs.
-/

namespace Sys2Proof.Machine

open Sys2Proof

def State.modLnk (s : State) (f : LnkState → LnkState) : State := s.setLnk (f s.lnk)

def State.modPtp (s : State) (f : PtpState → PtpState) : State := s.modLnk fun l => { l with ptp := f l.ptp }

/-! ## Ethernet (R338 to R340) -/

/-- ETH_LINK_CHANGE (R338): a partner that offers less than 1 Gbit/s leaves the port down. -/
def execEthLinkChange (p : Fin 2) (up gigabit : Bool) (s : State) : Host.Outcome State Fault Refusal :=
  .next <|
    let was := s.on (F.LNK_ETHp_STAT_LINK p)
    let s := (s.wrB (F.LNK_ETHp_STAT_LINK p) (up && gigabit)).wrB (F.LNK_ETHp_STAT_SPEED p) (up && gigabit)
    if was && !(up && gigabit) then s.sticky (F.LNK_ETHp_STAT_DOWN p) else s

/-- Does port `p` carry zone traffic now? -/
def State.zonePort (s : State) (p : Nat) : Bool :=
  s.on (F.LNK_ETHp_CFG_EN p) && s.on (F.LNK_ETHp_CFG_ZONE p) && s.on (F.LNK_ETHp_STAT_LINK p)

/-- Address of Ethernet port `p` of device `d`: 02-4C-01-DH-DL-0p (R337). -/
def ethAddr (d p : Nat) : List Byte := [0x02, 0x4C, 0x01] ++ beBytes 2 d ++ beBytes 1 p

/-- Group address of zone traffic of level `j` and zone `z`: 03-4C-00-0j-ZH-ZL (R337). -/
def zoneAddr (j z : Nat) : List Byte := [0x03, 0x4C, 0x00] ++ beBytes 1 j ++ beBytes 2 z

/-- The payload behind the Ethertype: PROTO, LEVEL, MLEN, the message (R339). DEDUCED (log entry 45): MLEN little-endian, as R323's
fields are. -/
def ethPayload (proto level : Nat) (m : List Byte) : List Byte := leBytes 1 proto ++ leBytes 1 level ++ leBytes 2 m.length ++ m

/-- The message of a payload of the given PROTO, if it is one (R339). -/
def ethMessage (proto : Nat) (p : List Byte) : Option (List Byte) :=
  if 4 ≤ p.length && leAt p 0 1 = proto && leAt p 2 2 = p.length - 4 then some (p.drop 4) else none

/-- One payload bit of an Ethernet frame inverted; without KEEPCRC its frame check is wrong (R336, R354). -/
def ethCorrupt (keep : Bool) (k : Nat) (f : EthFrame) : EthFrame := { f with payload := flipBit f.payload k, bad := !keep }

/-- Send a payload on port `p`. -/
def State.ethSend (s : State) (p : Nat) (dst payload : List Byte) : State :=
  let f : EthFrame := { port := p, dst := dst, src := ethAddr s.devid p, payload := payload }
  if s.rd F.LNK_FINJ_SEL = p then
    let (fs, held, s) := s.inject finjLnk true ethCorrupt s.lnk.ethHeld f
    s.modLnk fun l => { l with ethTx := l.ethTx ++ fs, ethHeld := held }
  else s.modLnk fun l => { l with ethTx := l.ethTx ++ [f] }

/-! ## IEEE 1588 (R342) -/

/-- Is port `p` the site time source, in use and up, and the message of the device's domain? -/
def State.ptpSource (s : State) (p : Nat) (domain : Nat) : Bool :=
  s.clk.source = p && s.on (F.LNK_ETHp_CFG_EN p) && s.on (F.LNK_ETHp_STAT_LINK p) && s.rd F.LNK_PTP_DOMAIN = domain

/-- Lexicographic order of priority vectors, lower first. -/
def vecLess : List Nat → List Nat → Bool
  | [], _ => false
  | _ :: _, [] => false
  | a :: as, b :: bs => a < b || (a = b && vecLess as bs)

/-- The best of the clocks heard, by the default best-master algorithm (R342). -/
def PtpState.master (x : PtpState) : Option Nat :=
  (x.foreign.foldl (fun (b : Option (Nat × List Nat)) c =>
    match b with | none => some c | some y => if vecLess c.2 y.2 then some c else b) none).map (·.1)

/-- Is the message of the best master, on the source port (R342; log entry 46)? -/
def State.ptpFrom (s : State) (p domain clock : Nat) : Bool := s.ptpSource p domain && s.lnk.ptp.master = some clock

/-- A Sync with its origin time: with the latest delay measurement it gives one sync result (R47). -/
def State.ptpResult (s : State) (t1 t2 : Nat) : State :=
  let s := s.modPtp fun x => { x with waiting := none, t1 := t1, t2 := t2 }
  match s.lnk.ptp.delay with
  | some d => s.syncResult ((t2 : Int) - t1 - d)
  | none => s

/-- PTP_SYNC (R342): received at `rx` ns; a one-step Sync carries its origin time. -/
def execPtpSync (p : Fin 2) (src : PtpSource) (seq : BitVec 16) (rx : Nat) (origin : Option Nat) (s : State) : Host.Outcome State Fault Refusal :=
  .next <| if s.ptpFrom p src.domain.toNat src.clock.toNat then
      match origin with
      | some t1 => s.ptpResult t1 rx
      | none => s.modPtp fun x => { x with waiting := some (seq.toNat, rx) }
    else s

/-- PTP_FOLLOW_UP (R342): the origin time of the Sync with its number. -/
def execPtpFollowUp (p : Fin 2) (src : PtpSource) (seq : BitVec 16) (origin : Nat) (s : State) : Host.Outcome State Fault Refusal :=
  .next <| if s.ptpFrom p src.domain.toNat src.clock.toNat then
      match s.lnk.ptp.waiting with
      | some (n, t2) => if n = seq.toNat then s.ptpResult origin t2 else s
      | none => s
    else s

/-- PTP_DELAY_RESP (R342): the end-to-end delay from the last Sync's times and those of the request. -/
def execPtpDelayResp (p : Fin 2) (src : PtpSource) (t3 t4 : Nat) (s : State) : Host.Outcome State Fault Refusal :=
  .next <| if s.ptpFrom p src.domain.toNat src.clock.toNat then
      s.modPtp fun x => { x with delay := some (((x.t2 : Int) - x.t1 + ((t4 : Int) - t3)) / 2) }
    else s

/-- PTP_DELAY_REQ (R342): answered by a master, which the device is when its source is Local. -/
def execPtpDelayReq (p : Fin 2) (domain : Byte) (seq : BitVec 16) (rx : Nat) (s : State) : Host.Outcome State Fault Refusal :=
  .next <| if s.clk.source = 7 && s.rd F.TCK_SYNC_STATE = 1 && s.on (F.LNK_ETHp_CFG_EN p) && s.rd F.LNK_PTP_DOMAIN = domain.toNat then
      s.modPtp fun x => { x with tx := [(2, p, seq.toNat, rx)] }
    else s.modPtp fun x => { x with tx := [] }

/-- PTP_ANNOUNCE (R342): the best-master algorithm takes the clock's vector, as announced last. -/
def execPtpAnnounce (p : Fin 2) (domain : Byte) (a : PtpAnnounce) (s : State) : Host.Outcome State Fault Refusal :=
  .next <| if s.ptpSource p domain.toNat then
      s.modPtp fun x => { x with foreign := put (fun _ => []) x.foreign a.clock.toNat a.vector }
    else s

/-- PTP_SYNC_SEND (R342): every 2^-SYNCI s a Local-source device sends a Sync and its Follow_Up on both ports; `t`: the time in
ns at which the Sync left. -/
def execPtpSyncSend (t : Nat) (s : State) : Host.Outcome State Fault Refusal :=
  .next <|
    let x := s.lnk.ptp
    if s.clk.source = 7 && s.rd F.TCK_SYNC_STATE = 1 && 1000 ≤ (s.clk.frame - x.sentAt) * 2 ^ min 7 (s.rd F.LNK_PTP_SYNCI) then
      let ports := [0, 1].filter fun p => s.on (F.LNK_ETHp_CFG_EN p) && s.on (F.LNK_ETHp_STAT_LINK p)
      let n := (x.syncSeq + 1) % 65536
      s.modPtp fun x => { x with syncSeq := n, sentAt := s.clk.frame, tx := ports.flatMap fun p => [(0, p, n, 0), (1, p, n, t)] }
    else s.modPtp fun x => { x with tx := [] }

/-! ## Joining links (R343 to R346) -/

def State.jlink (s : State) (k : Nat) : JLink := lk (fun _ => {}) s.lnk.jl k

def State.modJl (s : State) (k : Nat) (f : JLink → JLink) : State :=
  s.modLnk fun l => { l with jl := put (fun _ => {}) l.jl k (f (s.jlink k)) }

def State.jlUp (s : State) : List Nat := [0, 1, 2, 3].filter fun k => s.on (F.LNK_JLk_ST_UP k)

/-- Put a frame on link `k`; it waits there for its acknowledgement. -/
def State.jlPut (s : State) (k : Nat) (f : JlFrame) : State :=
  let s := s.modJl k fun j => { j with unacked := j.unacked ++ [f] }
  if s.rd F.LNK_FINJ_SEL = 2 + k then
    let flip (keep : Bool) (i : Nat) (f : JlFrame) : JlFrame := { f with mac := macCorrupt keep i f.mac }
    let (fs, held, s) := s.inject finjLnk true flip s.lnk.jlHeld f
    s.modLnk fun l => { l with jlTx := l.jlTx ++ fs.map fun f => (k, some f), jlHeld := held }
  else s.modLnk fun l => { l with jlTx := l.jlTx ++ [(k, some f)] }

/-- Send a frame by the routes: a broadcast on every link but `from_`; a frame without a route waits (R344, R345). -/
def State.jlSend (s : State) (arrived : Option Nat) (f : JlFrame) : State :=
  if f.bcast then s.each (s.jlUp.filter fun k => some k ≠ arrived) fun s k => s.jlPut k f
  else match s.lnk.routes.find? fun r => r.1 = f.dst with
    | some r => s.jlPut r.2.1 f
    | none => s.modLnk fun l => { l with waiting := l.waiting ++ [f] }

/-- Keep the broadcasts seen last (R345). -/
def keepSeen (xs : List (Nat × Nat × Nat)) (x : Nat × Nat × Nat) : List (Nat × Nat × Nat) := (x :: xs).take 256

/-- Send a message over the joining links. -/
def State.jlMessage (s : State) (dst : Option Nat) (proto : Nat) (msg : List Byte) : State :=
  if s.jlUp.isEmpty then s
  else
    let n := s.lnk.jlSeq
    let s := s.modLnk fun l => { l with jlSeq := (n + 1) % 256 }
    (macFrames s.devid (dst.getD 0) proto n msg).foldl (fun s m => s.jlSend none ⟨dst.getD 0, dst.isNone, m, 0⟩) s

/-- Fewest hops first, then the lowest link (R345). -/
def betterRoute (a b : Nat × Nat × Nat) : Bool := a.2.2 < b.2.2 || (a.2.2 = b.2.2 && a.2.1 < b.2.1)

/-- One route per device from all that is known. -/
def bestRoutes (own : Nat) (rs : List (Nat × Nat × Nat)) : List (Nat × Nat × Nat) :=
  let keep := rs.filter fun r => r.2.2 ≤ 7 && r.1 ≠ own && !(rs.any fun q => q.1 = r.1 && betterRoute q r)
  keep.foldl (fun l r => if l.any fun q => q.1 = r.1 then l else l ++ [r]) []

/-- Routes rebuilt after a change of a link, and the frames that waited sent on them (R345, R355). -/
def State.jlRebuild (s : State) : State :=
  let rs := s.jlUp.flatMap fun k => (s.rd (F.LNK_JLk_ST_PEER k), k, 1) :: (s.jlink k).reach.map fun r => (r.1, k, r.2 + 1)
  let w := s.lnk.waiting
  let s := s.modLnk fun l => { l with routes := bestRoutes s.devid rs, waiting := [] }
  w.foldl (fun s f => s.jlSend none f) s

/-- JL_LINK_UP (R344): `reach` is what the far end reaches, from the IDs exchanged. -/
def execJlLinkUp (k : Fin 4) (peer : BitVec 16) (reach : List (Nat × Nat)) (s : State) : Host.Outcome State Fault Refusal :=
  .next <|
    let s := ((s.wrB (F.LNK_JLk_ST_UP k) true).wr (F.LNK_JLk_ST_PEER k) peer.toNat).modLnk fun l => { l with jlTx := [] }
    (s.modJl k fun j => { j with reach := reach, unacked := [] }).jlRebuild

/-- A frame received on link `k`: a good one is acknowledged, delivered, and forwarded (R344, R345). -/
def State.jlTake (s : State) (k : Nat) (f : JlFrame) : State :=
  if !macGood f.mac then s
  else
    let s := s.modLnk fun l => { l with jlTx := l.jlTx ++ [(k, none)] }
    let key := (macOrig f.mac, macSeq f.mac, macSeg f.mac)
    if macOrig f.mac = s.devid || (f.bcast && s.lnk.seen.contains key) then s
    else
      let here := f.bcast || f.dst = s.devid
      let s := s.when f.bcast fun s => s.modLnk fun l => { l with seen := keepSeen l.seen key }
      let s := if here then
          let (rx, msg) := segAdd s.lnk.rx f.mac
          let s := s.modLnk fun l => { l with rx := rx }
          match msg with
          | some m => s.deliver (macProto f.mac) m
          | none => s
        else s
      if (f.bcast || !here) && macHops f.mac < 7 then s.jlSend (some k) ⟨f.dst, f.bcast, macRelay f.mac s.devid, 0⟩ else s

/-- JL_FRAME_RECEIVED (R344): a frame without MAC bytes is an acknowledgement, of the oldest frame not yet acknowledged. -/
def execJlFrameReceived (k : Fin 4) (dst : BitVec 16) (bcast : Bool) (mac : List Byte) (s : State) : Host.Outcome State Fault Refusal :=
  .next <|
    let s := s.modLnk fun l => { l with jlTx := [] }
    if !s.on (F.LNK_JLk_ST_UP k) then s
    else if mac.isEmpty then s.modJl k fun j => { j with unacked := j.unacked.drop 1 }
    else
      let f : JlFrame := ⟨dst.toNat, bcast, mac, 0⟩
      if s.rd F.LNK_FINJ_SEL = 2 + k.val then
        let flip (keep : Bool) (i : Nat) (f : JlFrame) : JlFrame := { f with mac := macCorrupt keep i f.mac }
        let (fs, held, s) := s.inject finjLnk false flip s.lnk.jlIn f
        fs.foldl (fun s f => s.jlTake k f) (s.modLnk fun l => { l with jlIn := held })
      else s.jlTake k f

/-- JL_ACK_TIMEOUT (R344): the oldest frame of the link is sent again, at most three times; then the link is down and its frames
wait for rerouting. A broadcast is not sent twice (R355). -/
def execJlAckTimeout (k : Fin 4) (s : State) : Host.Outcome State Fault Refusal :=
  .next <|
    let s := s.modLnk fun l => { l with jlTx := [] }
    match (s.jlink k).unacked with
    | [] => s
    | f :: fs =>
      if f.tries < 3 then
        let f := { f with tries := f.tries + 1 }
        (s.modJl k fun j => { j with unacked := f :: fs, resends := j.resends + 1 }).modLnk fun l => { l with jlTx := [(k.val, some f)] }
      else
        let s := (s.wrB (F.LNK_JLk_ST_UP k) false).sticky (F.LNK_JLk_ST_DOWN k)
        let s := s.modJl k fun j => { j with unacked := [], reach := [] }
        (s.modLnk fun l => { l with waiting := l.waiting ++ ((f :: fs).filter fun f => !f.bcast).map fun f => { f with tries := 0 } }).jlRebuild

/-- JL_ROUND_TRIP (R346): the time-source link's round trip in ns, this device's and the far end's site time in ns at its end;
`through`: the far end takes its own time through this device. -/
def execJlRoundTrip (k : Fin 4) (rtt here far : Nat) (through : Bool) (s : State) : Host.Outcome State Fault Refusal :=
  .next <| if s.clk.source = 2 + k.val && s.on (F.LNK_JLk_ST_UP k) then
      let s := s.modJl k fun j => { j with oneWay := rtt / 2 }
      if through then s.sticky (F.LNK_JLk_ST_LOOP k) else s.syncResult ((here : Int) - ((far + rtt / 2 : Nat) : Int))
    else s

/-- LNK_JLk_ST.RETRY shows the resends of the last second. -/
def State.jlSecond (s : State) : State :=
  s.each [0, 1, 2, 3] fun s k => (s.wrSat (F.LNK_JLk_ST_RETRY k) (s.jlink k).resends).modJl k fun j => { j with resends := 0 }

/-! ## Headcounts and safety PDUs on the links (R229, R295, R339, R340, R345) -/

/-- HEADCOUNT_SEND (R229): 1 + DEVID mod 8 ms after the launch edge, on every zone port and over the joining links. -/
def execHeadcountSend (s : State) : Host.Outcome State Fault Refusal :=
  .next <| if 7 ≤ s.rd F.SYS_STAGE_STAGE && !s.alc.sent && s.alc.launchAt + 1 + s.devid % 8 ≤ s.clk.frame && (s.member s.devid).last.typ = 1 then
      let s := s.sendHeadcount.modLnk fun l => { l with ethTx := [], jlTx := [] }
      s.alc.tx.foldl (fun s m => (s.each ([0, 1].filter s.zonePort) fun s p => s.ethSend p (zoneAddr (leAt m 2 1) (leAt m 12 2)) (ethPayload 1 (leAt m 2 1) m)).jlMessage none 1 m) s
    else s

/-- A headcount frame that reached the device: on Ethernet the payload behind the Ethertype (R339). -/
def State.hcFrame (s : State) (eth : Option (Fin 2)) (frame : List Byte) : State :=
  match (if eth.isSome then ethMessage 1 frame else some frame).bind headcountRead with
  | some h => s.hcTake eth h
  | none => s

/-- What reached Ethernet port `p`; a frame whose check is wrong is dropped. -/
def State.ethTake (s : State) (p : Fin 2) (x : EthRx) : State :=
  if x.bad then s
  else match x.conn with
    | none => s.hcFrame (some p) x.bytes
    | some k => s.pduTake k x.bytes

/-- Receive on Ethernet port `p`, through the fault injector where it names the port (R354). -/
def State.ethReceive (s : State) (p : Fin 2) (x : EthRx) : State :=
  if s.rd F.LNK_FINJ_SEL = p.val then
    let flip (keep : Bool) (k : Nat) (x : EthRx) : EthRx := { x with bytes := flipBit x.bytes k, bad := !keep }
    let (xs, held, s) := s.inject finjLnk false flip s.lnk.ethIn x
    xs.foldl (fun s x => s.ethTake p x) (s.modLnk fun l => { l with ethIn := held })
  else s.ethTake p x

/-- HEADCOUNT_RECEIVED (R232): by the cutoff, with a good CRC, this tick and this zone; any other frame is discarded. -/
def execHeadcountReceived (eth : Option (Fin 2)) (frame : List Byte) (s : State) : Host.Outcome State Fault Refusal :=
  .next <| match eth with
    | some p => s.ethReceive p { conn := none, bytes := frame }
    | none => s.hcFrame none frame

/-- SAFETY_PDU_RECEIVED (R296): on the connection's transport. -/
def execSafetyPduReceived (k : Fin 16) (pdu : List Byte) (s : State) : Host.Outcome State Fault Refusal :=
  .next <| match s.rd (F.SAF_CONNk_CFG_XPORT k) with
    | 0 => s.ethReceive 0 { conn := some k.val, bytes := pdu }
    | 1 => s.ethReceive 1 { conn := some k.val, bytes := pdu }
    | _ => s.pduTake k pdu

/-- SAFETY_PDU_SEND (R295): a PDU that is due goes to the peer by the connection's transport (R339, R345); on the site bus it waits for
the next train (R328). DEDUCED (log entry 45): the peer's address is that of its port of the same number. -/
def execSafetyPduSend (k : Fin 16) (s : State) : Host.Outcome State Fault Refusal :=
  .next <| if s.on (F.SAF_CONNk_CFG_EN k) && s.pduDue k then
      let s := (s.pduNext k).modLnk fun l => { l with ethTx := [], jlTx := [] }
      let x := s.rd (F.SAF_CONNk_CFG_XPORT k)
      let pdu := (s.conn k).tx
      let peer := s.rd (F.SAF_CONNk_PEER_ID k) % 65536
      if x ≤ 1 then
        (if s.on (F.LNK_ETHp_CFG_EN x) && s.on (F.LNK_ETHp_STAT_LINK x) then s.ethSend x (ethAddr peer x) (ethPayload 2 0 pdu) else s)
      else if x ≤ 5 then s.jlMessage (some peer) 2 pdu
      else s.setSbu { s.sbu with pduQ := s.sbu.pduQ ++ [(k.val, pdu)] }
    else s

/-! ## CAN FD (R92, R347 to R351) -/

/-- The module of a port and address, by the number of its record. -/
def State.moduleAt (s : State) (p a : Nat) : Option Nat :=
  (s.boot.mods.find? fun m => m.2.port = p && m.2.addr = a && m.2.addr ≠ 0).map (·.1)

/-- Is the port in use and on the bus? -/
def State.canOn (s : State) (p : Nat) : Bool := s.on (F.LNK_CANp_CFG_EN p) && !s.lnk.busOff.getLsbD p

/-- CAN_TIME_SEND (R348): site time in µs at the start of frame, on each port, in service (R79). -/
def execCanTimeSend (us : Fin 1000) (s : State) : Host.Outcome State Fault Refusal :=
  .next <| if s.rd F.SYS_STAGE_STAGE = 8 && s.lnk.timeAt + 100 ≤ s.clk.frame then
      let t := 1000 * s.siteMs + us.val
      (s.modLnk fun l => { l with canTx := [], timeAt := s.clk.frame }).each ([0, 1, 2, 3].filter s.canOn)
        fun s p => s.canSend (canFrame p 1 0x02 0 (leBytes 8 t))
    else s

/-- An addressed identity request to module `m` (R92). -/
def State.idReq (s : State) (m : Nat) : State :=
  let x := s.modAt m
  let s := if s.canOn x.port then s.canSend (canFrame x.port 5 0x20 x.addr []) else s
  s.modModule m fun x => { x with reqAt := s.clk.frame + 1 }

/-- A frame of a module that is not admitted: read again, unless a request waits for its answer (R92). -/
def State.readAgain (s : State) (m : Nat) : State :=
  let x := s.modAt m
  if x.admitted || (x.reqAt ≠ 0 && s.clk.frame + 1 < x.reqAt + 250) then s
  else (s.modLnk fun l => { l with canTx := [] }).idReq m

/-- Show whether a module is admitted. -/
def State.showAdm (s : State) (m : Nat) : State :=
  let x := s.modAt m
  (s.wrB (F.LNK_MODm_ADM m) x.admitted).wrSat (F.LNK_MODm_RATED m) (if x.admitted then x.rated / 100 else 0)

/-- Source 0x24 is present while a module of a record is not admitted. -/
def State.modulesCause (s : State) : State :=
  if s.boot.mods.all fun m => m.2.admitted then s.causeOff 0x24 none else s

/-- A STATUS of a module (R348, R349). -/
def State.statusTake (s : State) (m : Nat) (data : List Byte) : State :=
  let s := s.modModule m fun x => { x with
    seen := s.clk.frame + 1, v := leAt data 0 2, i := leAt data 2 2, state := leAt data 4 1, temp := leAt data 5 1 }
  (s.wr (F.LNK_MODm_AGE m) 0).readAgain m

/-- An identity of a module (R92): it agrees with the record, and the module is admitted; or it is left out and 0x24 raised. -/
def State.idTake (s : State) (m : Nat) (data : List Byte) : State :=
  let good := leAt data 0 8 = (s.modAt m).ident
  let s := s.modModule m fun x => { x with
    admitted := good, reqAt := 0, rated := leAt data 8 4, ratedI := leAt data 12 2, seen := s.clk.frame + 1 }
  let s := s.showAdm m
  if good then s.modulesCause else s.raiseDev 0x24 1

/-- A module's frame that reached the controller; one whose CRC is wrong is dropped. -/
def State.canTake (s : State) (f : CanRx) : State :=
  if f.bad then s
  else match s.moduleAt f.port f.addr with
    | some m => if f.func = 0x10 then s.statusTake m f.data else s.idTake m f.data
    | none => s

/-- Receive a module's frame, through the fault injector where it names the port (R354). -/
def State.canReceive (s : State) (f : CanRx) : State :=
  if s.rd F.LNK_FINJ_SEL = 6 + f.port then
    let flip (keep : Bool) (k : Nat) (f : CanRx) : CanRx := { f with data := flipBit f.data k, bad := !keep }
    let (fs, held, s) := s.inject finjLnk false flip s.lnk.canIn f
    fs.foldl State.canTake (s.modLnk fun l => { l with canIn := held })
  else s.canTake f

/-- CAN_STATUS (R349). -/
def execCanStatus (p : Fin 4) (addr : Byte) (data : List Byte) (s : State) : Host.Outcome State Fault Refusal :=
  .next (s.canReceive { port := p, addr := addr.toNat, func := 0x10, data := data })

/-- CAN_IDRSP (R92). -/
def execCanIdrsp (p : Fin 4) (addr : Byte) (data : List Byte) (s : State) : Host.Outcome State Fault Refusal :=
  .next (s.canReceive { port := p, addr := addr.toNat, func := 0x21, data := data })

/-- CAN_FOREIGN_FRAME (R92, R347): a classical frame, or one from no module of a record, does nothing. A frame of a module of a
record that is not admitted has it read again. -/
def execCanForeignFrame (p : Fin 4) (addr : Byte) (classical : Bool) (s : State) : Host.Outcome State Fault Refusal :=
  .next <| if classical then s
    else match s.moduleAt p addr.toNat with
      | some m => s.readAgain m
      | none => s

/-- MODULE_STATUS_TIMEOUT (R349): no STATUS for 100 ms; the module leaves its group. -/
def execModuleStatusTimeout (m : Fin 128) (s : State) : Host.Outcome State Fault Refusal :=
  .next <|
    let x := s.modAt m
    if x.admitted && x.seen + 100 ≤ s.clk.frame + 1 then
      ((s.modModule m fun x => { x with admitted := false, reqAt := 0 }).showAdm m).raiseDev 0x24 1
    else s

/-- MODULE_IDREQ_RETRY (R92): the first frame of the module after 250 ms without an answer. -/
def execModuleIdreqRetry (m : Fin 128) (s : State) : Host.Outcome State Fault Refusal :=
  .next <|
    let x := s.modAt m
    if x.addr ≠ 0 && !x.admitted && x.reqAt ≠ 0 && x.reqAt + 250 ≤ s.clk.frame + 1 then (s.modLnk fun l => { l with canTx := [] }).idReq m else s

/-- SAFEZERO frames of a port leave its mailbox, the broadcast first, then in ascending DST (R351). -/
def State.mailOut (s : State) : State :=
  let (go, stay) := s.saf.safeZero.partition fun x => s.canOn x.1
  if go.isEmpty then s
  else
    let data := leBytes 4 s.siteMs
    (s.modSaf fun x => { x with safeZero := stay }).modLnk fun l => { l with canTx := go.map fun x => canFrame x.1 0 0x01 x.2 data }

/-- CAN_BUS_OFF (R351). -/
def execCanBusOff (p : Fin 4) (s : State) : Host.Outcome State Fault Refusal :=
  .next ((s.modLnk fun l => { l with busOff := l.busOff ||| BitVec.ofNat 4 (2 ^ p.val) }).sticky (F.LNK_CANp_ST_BUSOFF p))

/-- CAN_BUS_OFF_RECOVERY (R351): the mailbox frames go out first, then the setpoints that waited. -/
def execCanBusOffRecovery (p : Fin 4) (s : State) : Host.Outcome State Fault Refusal :=
  .next <| if s.lnk.busOff.getLsbD p then
      let mine (x : AlcSetpoint) : Bool := (s.modAt x.module).port = p.val
      let q := s.lnk.queued
      let s := s.modLnk fun l => { l with
        canTx := [], busOff := l.busOff &&& ~~~(BitVec.ofNat 4 (2 ^ p.val)), queued := q.filter fun x => !mine x }
      let s := s.mailOut
      (q.filter mine).foldl State.sendSetpoint s
    else s

/-- Age of every module's last STATUS, in ms (LNK_MODm.AGE). -/
def State.moduleAges (s : State) : State :=
  s.each (s.boot.mods.map (·.1)) fun s m =>
    let x := s.modAt m
    if x.seen = 0 then s else s.wrSat (F.LNK_MODm_AGE m) (s.clk.frame + 1 - x.seen)

/-! ## The host port's counters -/

/-- HOST_CNT_CLEAR (R353): LNK_HP_ST.CLR. -/
def State.hostCntClear (s : State) : State := (s.wr F.LNK_HP_ST_CUT 0).wr F.LNK_HP_ST_CRCERR 0

def execHostCntClear (s : State) : Host.Outcome State Fault Refusal := .next s.hostCntClear

end Sys2Proof.Machine
end

