-- ==== Sys2Proof/Machine/SiteBus.lean ====
section
/-!
DEFINITION. The power-line site bus (spec/15): frames, the cycle and its turns, masters, tone maps, routes, relays.
-/

namespace Sys2Proof.Machine

open Sys2Proof

def State.modSbu (s : State) (f : SbuState → SbuState) : State := s.setSbu (f s.sbu)

/-- Is the site bus in use? Its line driver lies in the field die. -/
def State.sbOn (s : State) : Bool := s.on F.SBU_CFG_EN && s.boot.vddField

def State.sbRole (s : State) : Nat := s.rd F.SBU_STAT_ROLE

def State.sbBand (s : State) : Bool := s.on F.SBU_STAT_BAND

/-- Is the device a master candidate (R325)? -/
def State.sbCand (s : State) : Bool := s.on F.SBU_CFG_MCAND && s.clk.source ≠ 6

/-! ## The line signal and frames (R320 to R323) -/

/-- Carrier groups of a band, and carriers of a group (R320). -/
def bandGroups (b : Bool) : Nat := if b then 24 else 8
def groupSize (b : Bool) : Nat := if b then 9 else 5

/-- All groups of a band. -/
def allGroups (b : Bool) : Nat := 2 ^ bandGroups b - 1

/-- Number of groups a mask leaves in use. -/
def groupsIn (b : Bool) (mask : Nat) : Nat := ((List.range (bandGroups b)).filter fun g => bitOf mask g).length

/-- Bits per carrier m and copies D of a mode (R321). -/
def modeM (mode : Nat) : Nat := if mode ≤ 1 then 1 else mode
def modeD (mode : Nat) : Nat := if mode = 0 then 5 else 3

/-- Air time of a frame in µs (R322). -/
def airTime (band : Bool) (mode mask len : Nat) : Nat :=
  let c := groupsIn band mask * groupSize band * modeM mode
  720 * (8 + (if band then 2 else 10) + ((8 * len + 6) * (2 * modeD mode) + (c - 1)) / c)

/-- CRC-8 of R322 over the `n` low bits of `v`, most significant first. -/
def crc8Bits (v : Nat) : Nat → Nat
  | 0 => 0
  | n + 1 => crcStepM 8 0x07 (crc8Bits (v / 2) n ^^^ (v % 2) * 128)

/-- A header's 34 bits. -/
def sbHeader (ft mode tmid len sid : Nat) : Nat :=
  let x := ((((ft * 4 + mode) * 16 + tmid) * 256 + (len - 1)) * 256 + sid % 256) * 2
  x * 256 + crc8Bits x 26

/-- Fields of a header. -/
def hdrFt (h : Nat) : Nat := bits h 33 31
def hdrTmid (h : Nat) : Nat := bits h 28 25
def hdrLen (h : Nat) : Nat := bits h 24 17 + 1
def hdrSid (h : Nat) : Nat := bits h 16 9
def hdrGood (h : Nat) : Bool := crc8Bits (h / 256) 26 = h % 256

/-- One payload bit of a frame inverted (R336). -/
def sbCorrupt (keep : Bool) (k : Nat) (f : SbFrame) : SbFrame := { f with mac := macCorrupt keep k f.mac }

/-- A frame in the broadcast map (TMID 1). -/
def State.sbCast (s : State) (ft : Nat) (mac : List Byte) : SbFrame :=
  ⟨sbHeader ft (s.rd F.SBU_BMAP_MODE) 1 mac.length s.devid, mac⟩

/-- The frames of a turn leave, through fault injection; one held back at the end of the turn is dropped (R336). -/
def State.sbOut (s : State) (fs : List SbFrame) : State :=
  let r := fs.foldl (fun (r : List SbFrame × Option SbFrame × State) f =>
    let (out, held, s) := r.2.2.inject finjSbu true sbCorrupt r.2.1 f
    (r.1 ++ out, held, s)) ([], none, s)
  r.2.2.modSbu fun b => { b with tx := r.1 }

/-- The number of the device's next message. -/
def State.sbSeq (s : State) : Nat × State := (s.sbu.seq, s.modSbu fun b => { b with seq := (b.seq + 1) % 256 })

/-- The broadcast frames of a message. -/
def State.sbMessage (s : State) (ft odst proto : Nat) (msg : List Byte) : List SbFrame × State :=
  let (n, s) := s.sbSeq
  ((macFrames s.devid odst proto n msg).map (s.sbCast ft), s)

/-! ## Neighbours (R330) -/

def State.nbr (s : State) (d : Nat) : SbNbr := lk (fun _ => {}) s.sbu.nbrs d

/-- The member's entry in the route table. -/
def SbuState.memberOf (b : SbuState) (d : Nat) : Option SbMember := b.table.find? fun m => m.dev = d

/-- Does this device relay for device `d` (R332)? -/
def State.relaysFor (s : State) (d : Nat) : Bool :=
  match s.sbu.memberOf d with | some m => m.relays.contains s.devid | none => false

/-- Entry `i` of the neighbour table. -/
def State.showNbr (s : State) (i : Nat) : State :=
  match s.sbu.nbrs[i]? with
  | some (d, n) =>
    let age := match n.refreshed with | some t => (s.clk.frame - t) / 1000 | none => 0
    let s := ((s.wrB (F.SBU_NBRm_VALID i) true).wrB (F.SBU_NBRm_DIRECT i) n.direct).wrB (F.SBU_NBRm_RELAYS i) (s.relaysFor d)
    let s := ((s.wr (F.SBU_NBRm_DEVID i) d).wr (F.SBU_NBRm_AMASK i) n.a.mask).wr (F.SBU_NBRm_AMODE i) n.a.mode
    let s := ((s.wr (F.SBU_NBRm_BMASK i) n.b.mask).wr (F.SBU_NBRm_BMODE i) n.b.mode).wrSat (F.SBU_NBRm_SNR i) n.snr
    (s.wrSat (F.SBU_NBRm_FAILS i) n.fails).wrSat (F.SBU_NBRm_AGE i) age
  | none =>
    if s.on (F.SBU_NBRm_VALID i) then s.each [0, 1, 2, 3] fun s w => s.setWord (A.SBU_NBRm i + 4 * w) 0 else s

/-- The neighbour table in ascending order, empty slots last. -/
def State.showNbrs (s : State) : State := s.each (List.range (min 64 (s.sbu.nbrs.length + 1))) State.showNbr

/-- Change the record of a neighbour; a table of 64 takes no new one. -/
def State.modNbr (s : State) (d : Nat) (f : SbNbr → SbNbr) : State :=
  if (s.sbu.nbrs.any fun n => n.1 = d) || s.sbu.nbrs.length < 64 then
    (s.modSbu fun b => { b with nbrs := put (fun _ => {}) b.nbrs d (f (s.nbr d)) }).showNbrs
  else s

/-- A frame of a neighbour failed under R322 or R323: the neighbour with the low byte of its ID. -/
def State.sbFailed (s : State) (sid : Nat) : State :=
  let s := s.countWrap F.SBU_CNT_BAD
  match s.sbu.nbrs.find? fun n => n.1 % 256 = sid with
  | some (d, _) => s.modNbr d fun n => { n with fails := n.fails + 1 }
  | none => s

/-! ## Link reports, the broadcast map and the route table (R331, R332) -/

/-- This device's link report. -/
def State.ownReport (s : State) : SbReport :=
  { src := s.devid, cand := s.sbCand, bandB := s.on F.SBU_CFG_BANDOK,
    links := s.sbu.nbrs.map fun n => ⟨n.1, n.2.direct, n.2.rxA.mask, n.2.rxA.mode, n.2.rxB.mask, n.2.rxB.mode, n.2.rxB.mask ≠ 0⟩ }

/-- Does the reporter of `rs` with ID `y` hear `x` in the broadcast map? -/
def hears (rs : List SbReport) (y x : Nat) : Bool :=
  rs.any fun r => r.src = y && r.links.any fun l => l.dev = x && l.direct

/-- The member that hears `x` and is heard by the most of `left`; a tie goes to the lowest ID (R332). -/
def bestRelay (rs : List SbReport) (ids : List Nat) (x : Nat) (left : List Nat) : Option Nat :=
  let score (m : Nat) : Nat := (left.filter fun y => hears rs y m).length
  ids.foldl (fun best m =>
    if m = x || !hears rs m x || score m = 0 then best
    else match best with
      | some b => if score b < score m then some m else best
      | none => some m) none

/-- The relays of member `x`, at most `n`, and whom they leave unreached. -/
def relaysOf (rs : List SbReport) (ids : List Nat) (x : Nat) : Nat → List Nat → List Nat × List Nat
  | 0, left => ([], left)
  | n + 1, left =>
    match bestRelay rs ids x left with
    | none => ([], left)
    | some m =>
      let r := relaysOf rs ids x n (left.filter fun y => y ≠ m && !hears rs y m)
      (m :: r.1, r.2)

/-- The member of the table for `x`, and the receivers it leaves unreached. -/
def planMember (rs : List SbReport) (ids : List Nat) (x : Nat) : SbMember × List Nat :=
  let left := ids.filter fun y => y ≠ x && !hears rs y x
  let r := relaysOf rs ids x 2 left
  (⟨x, rs.any fun p => p.src = x && p.cand, r.1⟩, r.2)

/-- Insert into an ascending list without repeats. -/
def idInsert (x : Nat) : List Nat → List Nat
  | [] => [x]
  | y :: ys => if x < y then x :: y :: ys else if x = y then y :: ys else y :: idInsert x ys

/-- The links that carry broadcast traffic: every link on which a member of the table hears another. -/
def castLinks (rs : List SbReport) (ids : List Nat) : List SbLink :=
  (rs.filter fun r => ids.contains r.src).flatMap fun r => r.links.filter fun l => l.direct && ids.contains l.dev

/-- The broadcast map of a band (R331): groups every link keeps, the slowest mode; below four groups ROBUST with all. -/
def castMap (band : Bool) (ls : List SbLink) : Nat × Nat :=
  if ls.isEmpty then (allGroups band, 0)
  else
    let mask := ls.foldl (fun m l => m &&& (if band then l.bMask else l.aMask)) (allGroups band)
    let mode := ls.foldl (fun m l => min m (if band then l.bMode else l.aMode)) 3
    if groupsIn band mask < 4 then (allGroups band, 0) else (mask, mode)

/-- The route and broadcast map that follow from all reports, and whether a member was left out (R332). -/
def State.planRoute (s : State) : SbRoute × Bool :=
  let rs := s.ownReport :: s.sbu.reports.filter fun r => r.src ≠ s.devid
  let ids := rs.foldl (fun l r => idInsert r.src l) []
  let lost := ids.flatMap fun x => (planMember rs ids x).2
  let kept := ids.filter fun x => !lost.contains x || x = s.devid
  let links := castLinks rs kept
  let band := (rs.all fun r => r.bandB) && !links.isEmpty && links.all fun l => l.hasB
  let m := castMap band links
  (⟨s.tick + 2, kept.map fun x => (planMember rs kept x).1, band, m.1, m.2⟩, kept.length < ids.length)

/-- The master plans anew; a change goes out in a ROUTE message (R332). -/
def State.sbPlan (s : State) : State :=
  if s.sbRole ≠ 2 then s
  else
    let (r, out) := s.planRoute
    let s := s.when out fun s => s.sticky F.SBU_STAT_UNREACH
    let same (x : SbRoute) : Bool := x.table = r.table && x.bandB = r.bandB && x.mask = r.mask && x.mode = r.mode
    let now : SbRoute := ⟨0, s.sbu.table, s.sbBand, s.rd F.SBU_BMAP_MASK, s.rd F.SBU_BMAP_MODE⟩
    if same (s.sbu.nextRoute.getD now) then s
    else
      let old (m : SbMsg) : Bool := match m with | .route _ => true | _ => false
      s.modSbu fun b => { b with nextRoute := some r, msgQ := .route r :: b.msgQ.filter fun m => !old m }

/-- After a change of its maps a device sends a link report; the master plans anew (R331). -/
def State.sbReport (s : State) : State :=
  if s.sbRole = 2 then s.sbPlan
  else
    let old (m : SbMsg) : Bool := match m with | .report _ => true | _ => false
    s.modSbu fun b => { b with msgQ := (b.msgQ.filter fun m => !old m) ++ [.report s.ownReport] }

/-- SB_LINK_REPORT (R331). -/
def execSbLinkReport (rep : SbReport) (s : State) : Host.Outcome State Fault Refusal :=
  .next <| if s.sbOn && s.sbRole = 2 && rep.src ≠ s.devid then
      (s.modSbu fun b => { b with reports := (b.reports.filter fun r => r.src ≠ rep.src) ++ [rep] }).sbPlan
    else s

/-- SB_ROUTE_MSG (R332): the last table received is the one used. -/
def execSbRouteMsg (rt : SbRoute) (s : State) : Host.Outcome State Fault Refusal :=
  .next <| if s.sbOn && (s.sbRole = 1 || s.sbRole = 3) then s.modSbu fun b => { b with nextRoute := some rt } else s

/-- Has the tick `t` come by the CALL of this cycle, counted modulo 2^32? -/
def State.tickCome (s : State) (t : Nat) : Bool := s.sbu.callSeen && (s.sbu.callTick + 2 ^ 32 - t % 2 ^ 32) % 2 ^ 32 < 2 ^ 31

/-- ROUTE_TABLE_EFFECT (R332, R335): at the CALL of its tick, or at the first CALL after it. -/
def execRouteTableEffect (s : State) : Host.Outcome State Fault Refusal :=
  .next <| match s.sbu.nextRoute with
    | some r =>
      if s.tickCome r.tick then
        let s := s.when (s.sbBand != r.bandB) fun s => s.sticky F.SBU_STAT_BCHG
        let s := (s.modSbu fun b => { b with table := r.table, nextRoute := none }).sticky F.SBU_STAT_RCHG
        let s := ((s.wr F.SBU_BMAP_MASK r.mask).wr F.SBU_BMAP_MODE r.mode).wr F.SBU_STAT_BMODE r.mode
        let s := (s.wrB F.SBU_STAT_BAND r.bandB).wrB F.SYS_ADAPT_SBROBUST false
        let here := r.table.any fun m => m.dev = s.devid
        let s := if s.sbRole = 3 && here then s.wr F.SBU_STAT_ROLE 1 else if s.sbRole = 1 && !here then s.wr F.SBU_STAT_ROLE 3 else s
        s.showNbrs
      else s
    | none => s

/-! ## The cycle (R325 to R329) -/

/-- The turns of order 1 to 4 have ended, `frame` − L ms after the launch edge (R334). -/
def State.roundEnd (s : State) : State :=
  let t := satNat 65535 (s.clk.frame - s.alc.launchAt)
  ((s.modSbu fun b => { b with joined := true }).wr F.SBU_ROUND_LAST t).wr F.SBU_ROUND_MAX (max t (s.rd F.SBU_ROUND_MAX))

/-- At the launch edge: cycles without a CALL are counted, a master that heard a lower candidate is a slave, a device whose site
bus came into use joins, and the last cycle's unfinished messages are dropped (R324, R325). -/
def State.sbuLaunch (s : State) : State :=
  let s := if !s.sbOn then s.wr F.SBU_STAT_ROLE 0 else if s.sbRole = 0 then s.wr F.SBU_STAT_ROLE 3 else s
  let s := s.when (s.sbRole = 2 && s.sbu.yield) fun s => s.wr F.SBU_STAT_ROLE 1
  let s := s.when ((s.sbRole = 1 || s.sbRole = 3) && !s.sbu.callSeen) fun s => s.count F.SBU_MASTER_MISSED 1
  s.modSbu fun b => { b with
    yield := false, callSeen := false, turn := 0, joined := false, relayQ := [], relayed := [], rx := [], held := none }

/-- The 16 bytes of a CALL (R327). -/
def callData (tick us hop flags dev : Nat) : List Byte := leBytes 4 tick ++ leBytes 8 us ++ leBytes 1 hop ++ leBytes 1 flags ++ leBytes 2 dev

/-- The device of the next bulk turn: in rotation among those that asked; none asking, the master itself (R329). -/
def State.bulkGrant (s : State) : Nat :=
  let want := (if s.bulkPending then idInsert s.devid s.sbu.wantBulk else s.sbu.wantBulk)
  match want.find? fun d => s.sbu.lastBulk < d with
  | some d => d
  | none => want.headD s.devid

/-- SB_CALL_SEND (R326): at L + 2 ms; `us`: µs into the ms at which the first preamble symbol left. -/
def execSbCallSend (us : Fin 1000) (s : State) : Host.Outcome State Fault Refusal :=
  .next <| if s.sbOn && s.sbRole = 2 && s.alc.launchAt + 2 ≤ s.clk.frame && !s.sbu.callSeen then
      let d := s.bulkGrant
      let flags := b2n s.sbBand + 2 * b2n s.sbu.nextRoute.isSome
      let (fs, s) := s.sbMessage 0 0 0 (callData s.tick (1000 * s.siteMs + us.val) 0 flags d)
      let s := s.sbOut fs
      (s.wr F.SBU_MASTER_MISSED 0).modSbu fun b => { b with callSeen := true, callTick := s.tick, bulkDev := d, lastBulk := d }
    else s

/-- The master is device `d` from now on. -/
def State.sbMaster (s : State) (d : Nat) : State :=
  if s.rd F.SBU_MASTER_DEVID = d then s else (s.wr F.SBU_MASTER_DEVID d).sticky F.SBU_STAT_MCHG

/-- SB_CALL_RECEIVED (R325, R327): `src`: the master; `stamp`: local time in ns of the preamble's start, corrected for the fixed
receive delay. -/
def execSbCallReceived (src : BitVec 16) (data : List Byte) (stamp : Nat) (s : State) : Host.Outcome State Fault Refusal :=
  .next <| if !s.sbOn || data.length ≠ 16 || src.toNat = s.devid then s
    else if s.sbRole = 2 then s.modSbu fun b => { b with yield := b.yield || src.toNat < s.devid }
    else
      let s := (s.sbMaster src.toNat).wr F.SBU_MASTER_MISSED 0
      let band := bitOf (leAt data 13 1) 0
      let s := s.when (s.sbBand != band) fun s => (s.sticky F.SBU_STAT_BCHG).wrB F.SBU_STAT_BAND band
      let s := s.wr F.SBU_STAT_ROLE (if s.sbu.table.any fun m => m.dev = s.devid then 1 else 3)
      let first := !s.sbu.callSeen
      let s := s.modSbu fun b => { b with callSeen := true, callTick := leAt data 0 4, bulkDev := leAt data 14 2 }
      if first && s.clk.source = 6 && leAt data 12 1 ≤ 2 then s.syncResult ((stamp : Int) - 1000 * leAt data 4 8) else s

/-- SB_MASTER_TAKEOVER (R325): three cycles without a CALL, and no lower candidate of the table heard within them. -/
def execSbMasterTakeover (s : State) : Host.Outcome State Fault Refusal :=
  .next <|
    let heard (d : Nat) : Bool := s.sbu.origins.any fun o => o.1 = d && s.clk.frame ≤ o.2 + 3 * s.periodMs
    let lower := s.sbu.table.any fun m => m.cand && m.dev < s.devid && heard m.dev
    if s.sbOn && s.sbCand && (s.sbRole = 1 || s.sbRole = 3) && 3 ≤ s.rd F.SBU_MASTER_MISSED && !lower then
      (((s.wr F.SBU_STAT_ROLE 2).wr F.SBU_MASTER_DEVID s.devid).wr F.SBU_MASTER_MISSED 0 |>.sticky F.SBU_STAT_MCHG).sbPlan
    else s

/-- The headcount and totals of the tick, ready or not (R328, R335). -/
def State.trainCounts (s : State) : List SbFrame × State :=
  if (s.member s.devid).last.typ = 1 && (s.member s.devid).last.tick = s.tick then
    let hs := (s.member s.devid).last :: s.ownTotals
    let s := s.ownTotals.foldl State.takeChild s
    hs.foldl (fun r h =>
      let (fs, s) := r.2.sbMessage 1 0 1 h.wire
      (r.1 ++ fs, s)) ([], s)
  else ([], s)

/-- The safety PDUs queued for the site bus, and one of every other connection on it, in one message (R294, R295, R328). -/
def State.trainSafety (s : State) : List SbFrame × State :=
  let ks := (List.range 16).filter fun k =>
    s.on (F.SAF_CONNk_CFG_EN k) && s.rd (F.SAF_CONNk_CFG_XPORT k) = 6 && !(s.sbu.pduQ.any fun q => q.1 = k)
  let s := s.each ks fun s k =>
    let s := s.pduNext k
    s.modSbu fun b => { b with pduQ := b.pduQ ++ [(k, (s.conn k).tx)] }
  if s.sbu.pduQ.isEmpty then ([], s)
  else (s.modSbu fun b => { b with pduQ := [] }).sbMessage 1 0 2 (s.sbu.pduQ.flatMap (·.2))

/-- The first `k` waiting structured messages go out. A ROUTE message names a tick two after the one it is sent in (R332). -/
def State.sbMsgs (s : State) (k : Nat) : State :=
  let stamp (r : SbRoute) : SbRoute := { r with tick := s.tick + 2 }
  let out := s.sbu.msgQ.take k
  let routed := out.any fun m => match m with | .route _ => true | _ => false
  s.modSbu fun b => { b with
    msgs := out.map fun m => match m with | .route r => .route (stamp r) | m => m
    msgQ := b.msgQ.drop k, nextRoute := if routed then b.nextRoute.map stamp else b.nextRoute }

/-- The device's TRAIN: cut off after SLOTMAX frames; the waiting tone-map, report and route messages go first at the master
and last at the others (R328 to R330). -/
def State.train (s : State) : State :=
  let (hc, s) := s.trainCounts
  let (sf, s) := s.trainSafety
  let fs := hc ++ sf
  let n := max 2 (s.rd F.SBU_CFG_SLOTMAX)
  let k := if s.sbRole = 2 then min n s.sbu.msgQ.length else n - fs.length
  let s := s.sbMsgs k
  s.sbOut (fs.take (if s.sbRole = 2 then n - k else n))

/-- Place of this device in the route table. -/
def State.ownTurn (s : State) : Option Nat := s.sbu.table.findIdx? fun m => m.dev = s.devid

/-- SB_TRAIN_SEND (R328): in its turn; `bulk`: the messages the service image has handed over for the bulk turn. -/
def execSbTrainSend (bulk : List (Option Nat × Nat × List Byte)) (s : State) : Host.Outcome State Fault Refusal :=
  .next <|
    let s := s.modSbu fun b => { b with bulkQ := b.bulkQ ++ bulk, tx := [], msgs := [] }
    if s.sbOn && s.sbu.callSeen && (s.sbRole = 1 || s.sbRole = 2) && s.ownTurn = some s.sbu.turn then
      s.train.modSbu fun b => { b with turn := b.turn + 1 }
    else s

/-- SB_TURN_PASS (R326): no preamble within 3 ms of the turn's start; after the members' turns it is the join turn. -/
def execSbTurnPass (s : State) : Host.Outcome State Fault Refusal :=
  .next <| if s.sbOn && s.sbu.callSeen && !s.sbu.joined then
      let s := s.modSbu fun b => { b with rx := [], held := none }
      if s.sbu.turn < s.sbu.table.length then s.modSbu fun b => { b with turn := b.turn + 1 } else s.roundEnd
    else s

/-- SB_JOIN_TURN (R326): in the cycles whose TICK modulo 8 is the device's ID modulo 8. -/
def execSbJoinTurn (s : State) : Host.Outcome State Fault Refusal :=
  .next <|
    let s := s.modSbu fun b => { b with tx := [], msgs := [] }
    if s.sbOn && s.sbu.callSeen && s.sbRole = 3 && !s.sbu.joined && s.sbu.turn = s.sbu.table.length && s.sbu.callTick % 8 = s.devid % 8 then
      s.train.roundEnd
    else s

/-- The frames of a bulk message, with the mode and map they use (R329, R330): to one device in the map towards it, ROBUST with all
carriers where there is none; or broadcast. -/
def State.bulkFrames (s : State) (dst : Option Nat) (proto : Nat) (msg : List Byte) : List SbFrame × Nat × Nat × State :=
  let (n, s) := s.sbSeq
  let b := s.sbBand
  match dst with
  | none => ((macFrames s.devid 0 proto n msg).map (s.sbCast 4), s.rd F.SBU_BMAP_MODE, s.rd F.SBU_BMAP_MASK, s)
  | some d =>
    let x := s.nbr d
    let t := if b then x.b else x.a
    let plain := x.robust || t.mask = 0
    let mode := if plain then 0 else t.mode
    ((macFrames s.devid d proto n msg).map fun m => ⟨sbHeader 3 mode (if plain then 0 else 2) m.length s.devid, m⟩,
      mode, if plain then allGroups b else t.mask, s)

/-- Frames that still end by `limit`, in µs, with 1 ms between them; and the time their sending ends. -/
def fitFrames (band : Bool) (mode mask limit : Nat) : Nat → List SbFrame → List SbFrame × Nat
  | t, [] => ([], t)
  | t, f :: fs =>
    let e := t + airTime band mode mask f.mac.length
    if e ≤ limit then
      let r := fitFrames band mode mask limit (e + 1000) fs
      (f :: r.1, r.2)
    else ([], t)

/-- Bulk messages that fit whole before `limit`; the first that does not, and those after it, wait. -/
def State.bulkGo (limit : Nat) : Nat → List (Option Nat × Nat × List Byte) → State → List SbFrame × State
  | _, [], s => ([], s)
  | t, q :: qs, s =>
    let (fs, mode, mask, s') := s.bulkFrames q.1 q.2.1 q.2.2
    let (go, t') := fitFrames s.sbBand mode mask limit t fs
    if go.length = fs.length then
      let r := State.bulkGo limit t' qs (s'.modSbu fun b => { b with bulkQ := b.bulkQ.drop 1 })
      (go ++ r.1, r.2)
    else ([], s)

/-- SB_BULK_TURN (R329): tone-map and route messages first; no frame ends later than 1 ms before the next CALL at L + P + 2 ms. -/
def execSbBulkTurn (s : State) : Host.Outcome State Fault Refusal :=
  .next <|
    let s := s.modSbu fun b => { b with tx := [], msgs := [] }
    if s.sbOn && s.sbu.callSeen && s.sbu.joined && s.sbu.bulkDev = s.devid then
      let s := s.sbMsgs s.sbu.msgQ.length
      let limit := 1000 * (s.alc.launchAt + s.periodMs + 1)
      let (fs, s) := State.bulkGo limit (1000 * s.clk.frame) s.sbu.bulkQ s
      s.sbOut fs
    else s

/-! ## Relays (R333) -/

/-- A relayed frame: a CALL carries the time of its own sending and one hop more (R327). -/
def State.relayFrame (s : State) (us : Nat) (f : SbFrame) : SbFrame :=
  let m := f.mac
  let d := macData m
  let d := if macProto m = 0 then d.take 4 ++ leBytes 8 us ++ leBytes 1 (leAt d 12 1 + 1) ++ d.drop 13 else d
  s.sbCast 2 (macFrame s.devid (macDst m) (macOrig m) (macHops m + 1) (macProto m) (macSeq m) (macSeg m) (macLen m) d)

/-- SB_RELAY (R333): the frames named to this device, in the order they arrived. -/
def execSbRelay (us : Fin 1000) (s : State) : Host.Outcome State Fault Refusal :=
  .next <|
    let q := s.sbu.relayQ
    let s := s.modSbu fun b => { b with
      relayQ := [], tx := [], relayed := b.relayed ++ q.map fun f => (macOrig f.mac, macSeq f.mac, macSeg f.mac) }
    let s := s.wr F.SBU_CNT2_RELAY ((s.rd F.SBU_CNT2_RELAY + q.length) % 65536)
    s.sbOut (q.map (s.relayFrame (1000 * s.siteMs + us.val)))

/-! ## Receiving (R322 to R324) -/

/-- A headcount's or total's bulk-pending flag, as heard on the site bus (R329). -/
def State.sbWants (s : State) (d : Nat) (msg : List Byte) : State :=
  s.modSbu fun b => { b with wantBulk := if bitOf (leAt msg 1 1) 7 then idInsert d b.wantBulk else b.wantBulk.filter (· ≠ d) }

/-- A turn ends: messages of other devices that still miss a segment are discarded (R324). -/
def State.turnOver (s : State) (orig : Nat) : State := s.modSbu fun b => { b with rx := b.rx.filter fun x => x.osrc = orig }

/-- A good frame moves the cycle on: a member's TRAIN begins its turn, a joining device's the join turn. -/
def State.sbTurnSeen (s : State) (f : SbFrame) : State :=
  if hdrFt f.hdr ≠ 1 || !s.sbu.callSeen then s
  else match s.sbu.table.findIdx? fun m => m.dev = macOrig f.mac with
    | some i => if s.sbu.turn < i + 1 then (s.turnOver (macOrig f.mac)).modSbu fun b => { b with turn := i + 1 } else s
    | none => if s.sbu.joined || s.sbu.turn < s.sbu.table.length then s else (s.turnOver (macOrig f.mac)).roundEnd

/-- Take a frame for relaying (R333). -/
def State.sbQueue (s : State) (f : SbFrame) : State :=
  let m := f.mac
  let key := (macOrig m, macSeq m, macSeg m)
  let waits := s.sbu.relayQ.any fun g => (macOrig g.mac, macSeq g.mac, macSeg g.mac) = key
  if s.relaysFor (macOrig m) && macHops m < 2 && hdrFt f.hdr ≠ 3 && hdrFt f.hdr ≠ 4 && hdrFt f.hdr ≠ 5 && !waits && !s.sbu.relayed.contains key then
    s.modSbu fun b => { b with relayQ := b.relayQ ++ [f] }
  else s

/-- One frame that arrived. -/
def State.sbTake (s : State) (f : SbFrame) : State :=
  let m := f.mac
  if !hdrGood f.hdr then s.sbFailed (hdrSid f.hdr)
  else if hdrFt f.hdr = 7 then s
  else if hdrLen f.hdr ≠ m.length || !macGood m then s.sbFailed (hdrSid f.hdr)
  else
    let cast := hdrFt f.hdr ≠ 3 && hdrFt f.hdr ≠ 5
    let s := (s.countWrap F.SBU_CNT_GOOD).modNbr (macSrc m) fun n => { n with
      fails := 0, heard := s.clk.frame + 1, direct := n.direct || cast }
    let s := s.modSbu fun b => { b with origins := put (fun _ => 0) b.origins (macOrig m) s.clk.frame }
    if macOrig m = s.devid || (!cast && macDst m ≠ s.devid) then s
    else
      let s := (s.sbTurnSeen f).sbQueue f
      let (rx, msg) := segAdd s.sbu.rx m
      let s := s.modSbu fun b => { b with rx := rx }
      match msg with
      | some d => (s.when (macProto m = 1) fun s => s.sbWants (macOrig m) d).deliver (macProto m) d
      | none => s

/-- The turn a frame belongs to: its originator, and whether it is of the CALL, a train or a bulk turn. -/
def turnKey (f : SbFrame) : Nat × Nat :=
  (macOrig f.mac, if macProto f.mac = 0 then 0 else if hdrFt f.hdr = 3 || hdrFt f.hdr = 4 then 2 else 1)

/-- SB_FRAME_RECEIVED (R323). A frame held back goes no further than its turn (R336). -/
def execSbFrameReceived (hdr : BitVec 34) (mac : List Byte) (s : State) : Host.Outcome State Fault Refusal :=
  .next <| if !s.sbOn then s
    else
      let f : SbFrame := ⟨hdr.toNat, mac⟩
      let kept := s.sbu.held.filter fun g => turnKey g = turnKey f
      let (fs, held, s) := s.inject finjSbu false sbCorrupt kept f
      fs.foldl State.sbTake (s.modSbu fun b => { b with held := held })

/-! ## Tone maps (R330) -/

/-- SB_TONE_MAP_MSG (R330): the map a neighbour chose for frames to it. -/
def execSbToneMapMsg (src : BitVec 16) (band : Bool) (mask : BitVec 24) (mode : BitVec 2) (s : State) : Host.Outcome State Fault Refusal :=
  .next <| if s.sbOn then
      let t : ToneMap := ⟨mask.toNat % 2 ^ bandGroups band, mode.toNat⟩
      (s.modNbr src.toNat fun n => if band then { n with b := t, robust := false } else { n with a := t, robust := false }).sbReport
    else s

/-- The groups whose ratio meets a mode's level. -/
def goodGroups (mode : Nat) (snr : List Byte) : Nat :=
  snr.zipIdx.foldl (fun m x => if Config.modeSnr mode ≤ x.1.toNat then m + 2 ^ x.2 else m) 0

/-- The map chosen from the ratios of a band: the fastest mode that keeps four groups, else ROBUST with all carriers. -/
def chooseMap (band : Bool) (snr : List Byte) : ToneMap :=
  let snr := snr.take (bandGroups band)
  match [3, 2, 1, 0].find? fun m => 4 ≤ groupsIn band (goodGroups m snr) with
  | some m => ⟨goodGroups m snr, m⟩
  | none => ⟨allGroups band, 0⟩

/-- The lowest ratio among the groups a map uses. -/
def lowestSnr (t : ToneMap) (snr : List Byte) : Nat :=
  (snr.zipIdx.filter fun x => bitOf t.mask x.2).foldl (fun a x => min a x.1.toNat) 255

/-- Is a refresh of the neighbour due? -/
def State.refreshDue (s : State) (n : SbNbr) : Bool :=
  3 ≤ n.fails || (match n.refreshed with | some t => t + 600000 ≤ s.clk.frame | none => true)

/-- TONE_MAP_REFRESH (R330): the ratios measured per group on the neighbour's frames; the maps go to it, and frames to it use ROBUST
until its map arrives. -/
def execToneMapRefresh (src : BitVec 16) (snrA snrB : List Byte) (s : State) : Host.Outcome State Fault Refusal :=
  .next <|
    let d := src.toNat
    if s.sbOn && (s.sbu.nbrs.any fun n => n.1 = d) && s.refreshDue (s.nbr d) then
      let a := chooseMap false snrA
      let b := if snrB.isEmpty || !s.on F.SBU_CFG_BANDOK then ({} : ToneMap) else chooseMap true snrB
      let low := if s.sbBand then lowestSnr b snrB else lowestSnr a snrA
      let s := (s.when (3 ≤ (s.nbr d).fails) fun s => s.sticky F.SBU_STAT_TMFAIL).countWrap F.SBU_CNT2_TMREQ
      let s := s.modNbr d fun n => { n with rxA := a, rxB := b, snr := low, fails := 0, refreshed := some s.clk.frame, robust := true }
      let msgs := [SbMsg.toneMap d 0 a.mask a.mode] ++ (if b.mask = 0 then [] else [SbMsg.toneMap d 1 b.mask b.mode])
      (s.modSbu fun x => { x with msgQ := x.msgQ ++ msgs }).sbReport
    else s

/-- NEIGHBOUR_DROP (R330): not heard for 60 s. -/
def execNeighbourDrop (src : BitVec 16) (s : State) : Host.Outcome State Fault Refusal :=
  .next <|
    let d := src.toNat
    if (s.sbu.nbrs.any fun n => n.1 = d) && (s.nbr d).heard + 60000 ≤ s.clk.frame + 1 then
      (s.modSbu fun b => { b with nbrs := b.nbrs.filter fun n => n.1 ≠ d }).showNbrs.sbReport
    else s

/-- Ages of the neighbours, once a second. -/
def State.sbuSecond (s : State) : State := if s.sbu.nbrs.isEmpty then s else s.showNbrs

end Sys2Proof.Machine
end

