-- ==== Sys2Proof/Machine/Bus.lean ====
section
/-!
DEFINITION. The register bus (spec/04): reading and writing a register word, buffered writes and strobes, status cleared by
sequence, critical words and their complements, and what a commit or a command bit does in its block.
-/

namespace Sys2Proof.Machine

open Sys2Proof

/-! ## Pending buffered writes (R67 to R71) -/

/-- The write-control register of a block (R67). -/
def wctlAddr (b : Nat) : Nat := blockBase b + 0xFFFC

/-- MODE of a block's write control: buffered (R67). -/
def State.buffered (s : State) (b : Nat) : Bool := (s.word (wctlAddr b)).getLsbD 0

/-- GROUP of a block's write control. -/
def State.groupIn (s : State) (b : Nat) : Nat := bits (s.word (wctlAddr b)).toNat 6 4

/-- The block indices of R62. -/
def blocksAll : List Nat := List.range 19

/-- Does a block hold pending writes? -/
def State.pendIn (s : State) (b : Nat) : Bool := s.bus.pend.any fun p => blockOf p.1 = b

/-- WCTL.PEND of each block and SYS_STROBE.PEND show the pending set (R67, R69). -/
def State.showPend (s : State) : State :=
  let s := s.each blocksAll fun s b => s.setWord (wctlAddr b) (BitVec.ofNat 32 (setBits (s.word (wctlAddr b)).toNat 8 8 (b2n (s.pendIn b))))
  let m := blocksAll.foldl (fun m b => if s.pendIn b then m ||| 2 ^ s.groupIn b else m) 0
  s.wr F.SYS_STROBE_PEND m

/-- Hold a write pending: a later write to a field replaces the earlier one (R67). -/
def State.hold (s : State) (a : Nat) (mask val : Word) : State :=
  let p := lk (fun _ => ({} : PendWrite)) s.bus.pend a
  let p : PendWrite := ⟨p.mask ||| mask, (p.val &&& ~~~mask) ||| (val &&& mask)⟩
  (s.modBus fun b => { b with pend := put (fun _ => {}) b.pend a p }).showPend

/-- Drop the pending writes of the blocks `f` picks. -/
def State.dropPend (s : State) (f : Nat → Bool) : State :=
  (s.modBus fun b => { b with pend := b.pend.filter fun p => !f (blockOf p.1) }).showPend

/-- DROP: the pending writes of the groups are discarded at once (R69). -/
def State.discard (s : State) (m : Nat) : State := s.dropPend fun b => bitOf m (s.groupIn b)

/-! ## Values a write may carry (R442) -/

/-- The value of field `f` in word `w` as written. -/
def FieldDesc.valueIn (f : FieldDesc) (w v : Nat) : Int :=
  let x := bits v (f.hi - 32 * w) (f.lo - 32 * w)
  if f.signed then signedOf (f.hi + 1 - f.lo) x else x

/-- Does a write of word `w` keep the field within its stated ranges (R442)? Only writable fields count. -/
def FieldDesc.inRange (f : FieldDesc) (w v : Nat) : Bool :=
  f.ranges.isEmpty || f.mask w = 0 || !(f.acc = .rw || f.acc = .rwb || f.acc = .wo) ||
    f.ranges.any fun r => r.1 ≤ f.valueIn w v && f.valueIn w v ≤ r.2

/-- The frame rates of the display's mode: 30 to 120 for the panel, 64 to 128 for the segment glass (DPY_PANEL). -/
def State.rateGood (s : State) (r : Nat) : Bool :=
  match s.rd F.DPY_CFG_MODE with
  | 1 => 30 ≤ r && r ≤ 120
  | 2 => 64 ≤ r && r ≤ 128
  | _ => 30 ≤ r && r ≤ 128

/-- Ranges that depend on other values: the ledger ring's size (R161), the allocation cutoff, a channel's open-load threshold
and inrush current (R271), the site bus's shortest time-out (R301), FAULT below WARN (R223), the display's rate, the sandbox
windows (R426). -/
def State.specialGood (s : State) (h : RegHit) (a v : Nat) : Bool :=
  if a = A.BIL_LDG_SIZE then 256 ≤ F.BIL_LDG_SIZE_SIZE.of v && F.BIL_LDG_SIZE_SIZE.of v ≤ 32768 && 2 ^ (F.BIL_LDG_SIZE_SIZE.of v).log2 = F.BIL_LDG_SIZE_SIZE.of v
  else if a = A.ALC_CFG then F.ALC_CFG_CUT.of v ≤ 5 * s.rd F.TCK_PERIOD_P
  else if a = A.EFM_THR then F.EFM_THR_FAULT.of v < F.EFM_THR_WARN.of v
  else if a = A.DPY_PANEL then s.rateGood (F.DPY_PANEL_RATE.of v)
  else if a = A.CLU_XDRAM then
    F.CLU_XDRAM_BASE.of v + F.CLU_XDRAM_SIZE.of v ≤ 2048 && !Config.imageReserves true (F.CLU_XDRAM_BASE.of v) (F.CLU_XDRAM_SIZE.of v)
  else if a = A.CLU_XTICK then
    F.CLU_XTICK_BASE.of v + F.CLU_XTICK_SIZE.of v ≤ 2048 && !Config.imageReserves false (F.CLU_XTICK_BASE.of v) (F.CLU_XTICK_SIZE.of v)
  else if blockOf a = 9 && h.d.ofs = 0x8100 then
    let o := (F.SWA_Gk_CFG_OLTH h.i).of v
    2 ≤ o && o ≤ (if (F.SWA_Gk_CFG_RANGE h.i).of v = 1 then 50 else 20)
  else if blockOf a = 9 && h.d.ofs = 0x8104 then
    let x := (F.SWA_Gk_INR_IINR h.i).of v
    x = 0 || (s.rd (F.SWA_Gk_CFG_IRATE h.i) ≤ x && x ≤ 400)
  else if blockOf a = 10 && h.d.ofs = 0x8100 then (F.SAF_CONNk_CFG_XPORT h.i).of v ≠ 6 || 1000 ≤ (F.SAF_CONNk_CFG_TEXP h.i).of v
  else true

/-- May the value be written to the word found at `a`? -/
def State.valueGood (s : State) (h : RegHit) (a v : Nat) : Bool := h.d.fields.all (fun f => f.inRange h.w v) && s.specialGood h a v

/-! ## Commits -/

/-- A refused write pair (R76). -/
def State.pairRefused (s : State) : State := s.raiseOnce 0x06 0 none

/-- Calibration registers of R104 and R123. -/
def calReg (h : RegHit) (a : Nat) : Bool :=
  blockOf a = 4 && h.d.shadow ≠ 0 && (A.MET_TTABs 0 0 ≤ a || (a < A.MET_CAP_CTL && 0x100 ≤ h.d.ofs && h.d.ofs < 0x128))

/-- Is a write to the register ignored because of the calibration seal (R105, R165, R223)? Answers whether it is counted too. -/
def State.sealed (s : State) (h : RegHit) (a : Nat) : Option Bool :=
  if !s.on F.MET_SEAL_LOCK then none
  else if calReg h a || (blockOf a = 6 && h.d.shadow ≠ 0) then some true
  else if a = A.THM_TMP_CFG || a = A.THM_TMP_CFG + 0x4000 then some false
  else none

/-- What a commit does in its block: CALCNT (R105), a proof-pulse output's remainder (R144), windows restarted (R223), a calendar
waiting (R151), the tamper journal (R165), the harvest (R402). -/
def State.committed (s : State) (h : RegHit) (a : Nat) : State :=
  match blockOf a with
  | 4 => if calReg h a then s.count F.MET_CALCNT_COUNT 1
    else (List.range 4).foldl (fun s k => if a = A.MET_PPOk_CFG k || a = A.MET_PPOk_CONST k then s.ppoReset k else s) s
  | 5 => if h.d.ofs = 0x8000 then s.wrB F.BIL_STAT_CALPEND true else s
  | 6 =>
    if h.d.shadow = 0x200 then s.modEfmLane h.i fun e => { e with restart := true }
    else if h.d.shadow = 0x4000 then s.each (s.dcLanes ++ s.acOutlets) fun s n => s.modEfmLane n fun e => { e with restart := true }
    else s
  | 10 => if h.d.shadow = 0 then s else s.showCfgCrc
  | 15 => if a = A.NFC_TAG_CFG then s.harvest else s
  | 17 => if a = A.THM_TMP_CFG then s.tamperCfgChange else s
  | _ => s

/-- Commit a write of the bits `mask` to the word at `a`. A committed period is shown in NEXT (R51); a register of the earth-fault monitor
waits for the next chip boundary while chips run (R223); a display format beyond the limit of R410 is ignored. -/
def State.commit (s : State) (a : Nat) (mask val : Word) : State :=
  match regAt a with
  | none => s
  | some h =>
    let v := ((lk (fun _ => s.useWord a h.d.shadow) s.efm.waiting a) &&& ~~~mask) ||| (val &&& mask)
    if a = A.TCK_PERIOD then s.wr F.TCK_PERIOD_NEXT (F.TCK_PERIOD_P.of val.toNat)
    else if a = A.DPY_PANEL && 6000000 < F.DPY_PANEL_WIDTH.of v.toNat * F.DPY_PANEL_HEIGHT.of v.toNat * F.DPY_PANEL_RATE.of v.toNat then s
    else if blockOf a = 6 && h.d.shadow ≠ 0 && s.boot.mclk then
      (s.modEfm fun e => { e with waiting := (a, v) :: e.waiting.filter fun p => p.1 ≠ a }).committed h a
    else (s.putWord a h.d.shadow v).committed h a

/-- The pilot thresholds in order (R203), from the four words a commit would leave. -/
def thrGood (w : Nat → Nat) : Bool :=
  let x (k hi lo : Nat) : Int := signedOf 16 (bits (w k) hi lo)
  x 0 15 0 < x 0 31 16 && x 1 31 16 < x 0 15 0 && x 1 15 0 < x 1 31 16 && x 2 31 16 < x 1 15 0 && x 2 15 0 < x 2 31 16 &&
    x 3 15 0 < x 3 31 16

/-- The word of PIL_THRk as a set of writes would leave it. -/
def State.thrAfter (s : State) (ws : List (Nat × PendWrite)) (k : Nat) : Nat :=
  let p := lk (fun _ => ({} : PendWrite)) ws (A.PIL_THR0 + 4 * k)
  ((s.useWord (A.PIL_THR0 + 4 * k) 0x4000 &&& ~~~p.mask) ||| (p.val &&& p.mask)).toNat

/-- Is the address one of PIL_THR0 to PIL_THR3? -/
def isThr (a : Nat) : Bool := A.PIL_THR0 ≤ a && a < A.PIL_THR0 + 16

/-- Is the register one of the safety configuration of R301? -/
def isSafCfg (a : Nat) : Bool := blockOf a = 10 && (match regAt a with | some h => h.d.shadow ≠ 0 | none => false)

/-- Commit a set of writes of one block: a threshold set out of order and a safety configuration while a lane is energised are
refused (R203, R301). -/
def State.commitSet (s : State) (ws : List (Nat × PendWrite)) : State :=
  let badThr := ws.any (fun p => isThr p.1) && !thrGood (s.thrAfter ws)
  let badSaf := ws.any (fun p => isSafCfg p.1) && s.anyEnergised
  let s := if badThr || badSaf then s.pairRefused else s
  (ws.filter fun p => !(badThr && isThr p.1) && !(badSaf && isSafCfg p.1)).foldl (fun s p => s.commit p.1 p.2.mask p.2.val) s

/-- A strobe commits every pending write of its group (R67, R69). -/
def State.commitGroup (s : State) (g : Nat) : State :=
  let due := s.bus.pend.filter fun p => s.groupIn (blockOf p.1) = g
  let s := s.dropPend fun b => s.groupIn b = g
  s.each blocksAll fun s b =>
    let ws := due.filter fun p => blockOf p.1 = b
    if ws.isEmpty then s else s.commitSet ws

/-- A write to RWB bits: pending in a buffered block, else committed at once (R67). -/
def State.writeBuffered (s : State) (a : Nat) (mask val : Word) : State :=
  if mask = 0 then s
  else if s.buffered (blockOf a) then s.hold a mask val
  else s.commitSet [(a, ⟨mask, val⟩)]

/-! ## Strobes (R69 to R71) -/

/-- GO: a group whose strobe is armed ignores it (R69, R70). -/
def State.strobeGo (s : State) (m : Nat) : State :=
  let free := (List.range 8).foldl (fun x g => if bitOf m g && !s.on (F.SYS_STRg_CTL_ARMED g) then x ||| 2 ^ g else x) 0
  s.modClk fun c => { c with goReq := c.goReq ||| BitVec.ofNat 8 free }

/-- ARM: for a tick 1 to 2^31 − 1 ahead (R70). -/
def State.strobeArm (s : State) (g : Nat) : State :=
  let ahead := (s.rd (F.SYS_STRg_TICK_TICK g) + 2 ^ 32 - s.rd F.TCK_ALC_TICK_K) % 2 ^ 32
  if 1 ≤ ahead && ahead < 2 ^ 31 then s.wrB (F.SYS_STRg_CTL_ARMED g) true else s.stickyBit F.SYS_STR_STAT_REFUSED g

/-- CANCEL (R70). -/
def State.strobeCancel (s : State) (g : Nat) : State := s.wrB (F.SYS_STRg_CTL_ARMED g) false

/-- Disarmed without committing (R71). -/
def State.strobeMiss (s : State) (g : Nat) : State := (s.strobeCancel g).stickyBit F.SYS_STR_STAT_MISSED g

/-- Every armed strobe is disarmed as missed: the period changes (R71). -/
def State.strobesMissed (s : State) : State :=
  s.each (List.range 8) fun s g => if s.on (F.SYS_STRg_CTL_ARMED g) then s.strobeMiss g else s

/-- Step 3 of R53: the strobes due commit in order 0 to 7: those requested, and at a launch edge those armed for its tick, which
are missed while the device is UNLOCKED (R69 to R71). DESIGN CHOICE (log entry 13): a GO written before the ARM still commits its
group where the armed tick is missed at the same edge; the spec does not join the two. -/
def State.strobeStep (s : State) (launch : Bool) : State :=
  let go := s.clk.goReq
  let s := s.modClk fun c => { c with goReq := 0 }
  s.each (List.range 8) fun s g =>
    let due := launch && s.on (F.SYS_STRg_CTL_ARMED g) && s.rd (F.SYS_STRg_TICK_TICK g) = s.rd F.TCK_ALC_TICK_K
    if due && s.rd F.TCK_SYNC_STATE = 0 then (s.strobeMiss g).when (go.getLsbD g) fun s => s.commitGroup g
    else if due then (s.strobeCancel g).commitGroup g
    else if go.getLsbD g then s.commitGroup g else s

/-! ## Status cleared by sequence (R72, R73) -/

/-- The bits of a status word whose clear the block refuses at this moment: MET while the lane's stream-lost or energy-register
fault is present, EFM while the bit's source is present, SWA while the channel's own condition is (R272), a lost encoder
position until it is homed (R318). -/
def State.clearKept (s : State) (h : RegHit) (a : Nat) : Nat :=
  let bit (i : Nat) (b : Bool) : Nat := if b then 2 ^ i else 0
  let n := h.i
  match blockOf a with
  | 2 => if h.d.ofs = 0x1000 then 2 ^ 23 else 0
  | 4 =>
    if a < A.MET_SEAL && h.d.ofs = 0x130 && s.causeFor 0x11 n then 2 ^ 24 - 1
    else if a < A.MET_SEAL && h.d.ofs = 0x0B0 && s.causeFor 0x14 n then 2 ^ 24 - 1 else 0
  | 6 =>
    if h.d.ofs = 0x030 then bit 0 (s.causeFor 0x2C n) + bit 1 (s.causeFor 0x28 n) + bit 2 (s.causeFor 0x29 n) + bit 3 (s.causeFor 0x2A n) +
      bit 4 (s.causeFor 0x2A n) + bit 5 (s.causeFor 0x2D n) + bit 6 (s.causeFor 0x2B n)
    else 0
  | 9 =>
    if h.d.ofs = 0x01C then bit 2 (s.chan n).locked + bit 3 (s.chan (32 + n)).locked + bit 4 (s.causeFor 0x43 n) + bit 5 (s.causeFor 0x44 n) +
      bit 6 (s.causeFor 0x4A n) + bit 7 (s.isOpen n) + bit 8 (s.causeFor 0x40 n)
    else if h.d.ofs = 0x8380 then bit 16 (s.isOpen (64 + n)) + bit 17 (s.chan (64 + n)).locked + bit 18 ((s.chan (64 + n)).latchAt = s.clk.frame + 1)
    else if a = A.SWA_SUPPLY then bit 20 (s.on F.SWA_SUPPLY_UVNOW) + bit 21 (s.on F.SWA_SUPPLY_OVNOW) + bit 22 (s.on F.SWA_SUPPLY_REVNOW) +
      bit 23 (s.on F.SWA_SUPPLY_GNDNOW)
    else 0
  | _ => 0

/-- A clear whose sequence number matched. -/
def State.clearStatus (s : State) (h : RegHit) (a : Nat) (v : Word) : State :=
  if blockOf a = 2 && h.d.ofs = 0x400 then (if v.getLsbD 23 then s.clearSource h.i else s)
  else s.setWord a (s.word a &&& ~~~(v &&& BitVec.ofNat 32 (h.d.mask .sqc h.w) &&& ~~~(BitVec.ofNat 32 (s.clearKept h a))))

/-! ## Command bits (W1P and WO fields) -/

/-- Command bits of SYS and TCK. -/
def State.actSys (s : State) (h : RegHit) (a v : Nat) : State :=
  if a = A.SYS_STROBE then s.strobeGo (F.SYS_STROBE_GO.of v)
  else if a = A.SYS_DISCARD then s.discard (F.SYS_DISCARD_DROP.of v)
  else if h.d.ofs = 0x084 then (if bitOf v 1 then s.strobeCancel h.i else if bitOf v 0 then s.strobeArm h.i else s)
  else if a = A.SYS_STALE then (if bitOf v 31 then (s.wr F.SYS_STALE_COUNT 0).wr F.SYS_STALE_BLOCK 0 else s)
  else if a = A.SYS_WDENY then (if bitOf v 31 then s.wr F.SYS_WDENY_COUNT 0 else s)
  else if a = A.SYS_ADAPT then (if bitOf v 6 then s.adaptGo else s)
  else s

/-- Command bits of the fault collector. -/
def State.actFlt (s : State) (h : RegHit) (a v : Nat) : State :=
  if a = A.FLT_PIN then (if bitOf v 0 then s.pinRelease else s)
  else if a = A.FLT_RETCMD then (if bitOf v 6 then s.retireCmd else if bitOf v 7 then s.restoreCmd else s)
  else if a = A.FLT_WDOG then s.watchdogKey (F.FLT_WDOG_KEY.of v)
  else if h.d.ofs = 0x1000 then (if bitOf v 22 then s.encHome h.i else s)
  else s

/-- Command bits of the metrology engine. -/
def State.actMet (s : State) (h : RegHit) (a v : Nat) : State :=
  if a = A.MET_SEAL then (if bitOf v 0 then s.wrB F.MET_SEAL_LOCK true else s)
  else if a = A.MET_CAP_CTL then
    let s := if bitOf v 1 then s.capDisarm else (s.when (bitOf v 0) State.capArm).when (bitOf v 2) State.capRelease
    s.when (bitOf v 3) State.capSwtrig
  else if a = A.MET_CAP_OVR then (if bitOf v 31 then s.wr F.MET_CAP_OVR_COUNT 0 else s)
  else if a = A.MET_Ln_STRCNT h.i then (if v &&& (h.d.mask .w1p h.w) = 0 then s else s.strcntClear h.i)
  else if a = A.MET_Ln_QCNT h.i then (if v &&& (h.d.mask .w1p h.w) = 0 then s else s.qcntClear h.i)
  else s

/-- Command bits of billing and the thermos die: word 1 of THM_WSET asks for the adjustment to both words (R152). DESIGN CHOICE
(log entry 11): several command bits of one write act in the order REBUILD, PCLOSE, NEWEPOCH. -/
def State.actBil (s : State) (a v : Nat) : State :=
  if a = A.BIL_CTL then
    let s := s.when (bitOf v 31) fun s => s.rebuild (s.rd F.BIL_CTL_LANE)
    let s := s.when (bitOf v 30) fun s => s.modBil fun b => { b with pcloseReq := true }
    s.when (bitOf v 29) State.newEpoch
  else if a = A.BIL_LDG_LOST then (if bitOf v 31 then s.wr F.BIL_LDG_LOST_COUNT 0 else s)
  else if a = A.THM_WSET then s.modBus fun b => { b with wsetSec := BitVec.ofNat 32 v }
  else if a = A.THM_WSET + 4 then s.wallRequest s.bus.wsetSec.toNat (bits v 9 0)
  else s

/-- Command bits of the pilot and session unit. -/
def State.actPil (s : State) (h : RegHit) (a v : Nat) : State :=
  if a = A.PIL_Ln_CMD h.i then
    let s := if bitOf v 2 then s.authNo h.i else if bitOf v 1 then s.authOk h.i else s
    s.when (bitOf v 0) fun s => s.firmwareStop h.i
  else if a = A.PIL_Ln_XCNTc h.i h.j then (if v &&& (h.d.mask .w1p h.w) = 0 then s else s.wr (F.PIL_Ln_XCNTc_COUNT h.i h.j) 0)
  else s

/-- Command bits of the switch array. -/
def State.actSwa (s : State) (h : RegHit) (a v : Nat) : State :=
  if a = A.SWA_Ln_CMD h.i then (s.when (bitOf v 0) fun s => s.relCc h.i).when (bitOf v 1) fun s => s.relLk h.i
  else if a = A.SWA_Gk_CTL h.i then
    if s.rd (F.SWA_Gk_CFG_ROLE h.i) ≠ 3 then s
    else
      let s := s.when (bitOf v 2) fun s => s.relGen h.i
      if bitOf v 0 then s.genOff h.i false else if bitOf v 1 then s.genOn h.i false else s
  else s

/-- Command bits of the safety supervisor. -/
def State.actSaf (s : State) (h : RegHit) (a v : Nat) : State :=
  if a = A.SAF_CMD then (if v &&& (h.d.mask .w1p h.w) = 0 then s else s.safeEnter F.SAF_STAT_SERVICE)
  else if a = A.SAF_CMP then (if v &&& (h.d.mask .w1p h.w) = 0 then s else s.cmpClear)
  else if a = A.SAF_CONNk_CNT h.i then (if v &&& (h.d.mask .w1p h.w) = 0 then s else s.connCntClear h.i)
  else s

/-- Command bits of the update manager. DESIGN CHOICE (log entry 11): where one write carries several that R443 does not oppose,
they act in the order OPEN, BLKGO, CONFIRM, then CANCEL or ACT. -/
def State.actUpd (s : State) (a v : Nat) : State :=
  if a = A.UPD_CTL then
    let s := s.when (bitOf v 0) State.updOpen
    let s := s.when (bitOf v 4) fun s => s.blkGo true
    let s := s.when (bitOf v 3) State.updConfirm
    if bitOf v 2 then s.updCancel else if bitOf v 1 then s.updAct else s
  else if a = A.UPD_CNT then (if bitOf v 31 then s.updCntClear else s)
  else s

/-- Command bits of the readers, the display and the service cluster. -/
def State.actLow (s : State) (h : RegHit) (a v : Nat) : State :=
  let some1 := v &&& h.d.mask .w1p h.w ≠ 0
  match blockOf a with
  | 15 =>
    if a = A.NFC_RDk_CTL h.i then (s.when (bitOf v 1) fun s => s.rebase h.i).when (bitOf v 0) fun s => s.cardEnd h.i
    else if a = A.NFC_RDk_CNT h.i && some1 then s.readerCntClear h.i
    else s
  | 16 => if a = A.DPY_CTL then (if bitOf v 1 then s.displayOff else if bitOf v 0 then s.displayOn else s) else s
  | _ =>
    if a = A.CLU_ECCCNT && some1 then s.eccClear
    else if a = A.CLU_XST && bitOf v 20 then s.extStop
    else s

/-- What the command bits of a write to the word at `a` do, opposed commands by R443. Those of the DMA engine are taken by
`regWrite`. -/
def State.act (s : State) (h : RegHit) (a v : Nat) : State :=
  let some1 := v &&& h.d.mask .w1p h.w ≠ 0
  match blockOf a with
  | 0 => s.actSys h a v
  | 1 => if a = A.TCK_FENCE && some1 then s.fenceGo else if a = A.TCK_CTL && some1 then s.ovrClear else s
  | 2 => s.actFlt h a v
  | 4 => s.actMet h a v
  | 5 => s.actBil a v
  | 7 => s.actPil h a v
  | 8 => if a = A.ALC_SCTL && some1 then s.schedClear else s
  | 9 => s.actSwa h a v
  | 10 => s.actSaf h a v
  | 11 => if a = A.KEY_CMD && some1 then s.keyGo else if a = A.KEY_ZST && some1 then s.zeroise else s
  | 12 => s.actUpd a v
  | 13 => if a = A.SBU_FICNT && some1 then s.finjClear finjSbu else s
  | 14 => if a = A.LNK_FICNT && some1 then s.finjClear finjLnk else if a = A.LNK_HP_ST && some1 then s.hostCntClear else s
  | 17 => s.actBil a v
  | 3 => s
  | 6 => s
  | _ => s.actLow h a v

/-! ## Writes -/

/-- A write to BLOCK_WCTL: ignored while it would orphan pending writes (R68). -/
def State.writeWctl (s : State) (a : Nat) (v : Word) : State :=
  let m : Word := 0x71
  if (s.word a).getLsbD 8 && (v &&& m) ≠ (s.word a &&& m) then s else s.setWord a ((s.word a &&& ~~~m) ||| (v &&& m))

/-- A write to a word of a register that is not critical: the sequence check first (R73), then the ranges (R442), then every
field by its access code (R5). -/
def State.writePlain (s : State) (h : RegHit) (a : Nat) (v : Word) : State :=
  let clears := v &&& BitVec.ofNat 32 (h.d.mask .sqc h.w) ≠ 0
  if clears && seqOf v ≠ seqOf (s.word a) then s.staleClear a
  else if !s.valueGood h a v.toNat then s
  else
    let s := if clears then s.clearStatus h a v else s
    let m := BitVec.ofNat 32 (h.d.mask .rw h.w)
    let s := if h.d.mask .rw h.w = 0 then s else s.setWord a ((s.word a &&& ~~~m) ||| (v &&& m))
    let s := s.writeBuffered a (BitVec.ofNat 32 (h.d.mask .rwb h.w)) v
    if h.d.mask .w1p h.w = 0 && h.d.mask .wo h.w = 0 then s else s.act h a v.toNat

/-- A write under the seal is ignored and, but for the tamper configuration, counted (R105, R165). -/
def State.sealedWrite (s : State) (counted : Bool) : State := if counted then s.count F.MET_SEAL_DENIED 1 else s

/-- The word held for its complement, if one is. -/
def State.heldWord (s : State) (a : Nat) : Option Word := (s.bus.held.find? fun p => p.1 = a).map (·.2)

/-- A write to X is held until the write to X_CPL (R76). -/
def State.writeCritical (s : State) (h : RegHit) (a : Nat) (v : Word) : State :=
  match s.sealed h a with
  | some c => s.sealedWrite c
  | none => if h.d.mask .rwb h.w = 0 then s else s.modBus fun b => { b with held := (a, v) :: b.held.filter fun p => p.1 ≠ a }

/-- The bits of a critical word that a commit may change: the display's format only while its state is OFF (R413). -/
def State.critMask (s : State) (h : RegHit) (a : Nat) : Word :=
  let m := BitVec.ofNat 32 (h.d.mask .rwb h.w)
  if s.dpyState = 0 then m
  else if a = A.DPY_CFG then m &&& ~~~(0x300 : Word)
  else if a = A.DPY_PANEL then m &&& ~~~(0xFFFFF0FF : Word)
  else m

/-- A write to X_CPL for the register word at `a`: commits the held pair when it matches and its value is in range, else both
are discarded and source 0x06 is raised; without a held word it is ignored and raises the same (R76). -/
def State.writeCpl (s : State) (h : RegHit) (a : Nat) (v : Word) : State :=
  match s.sealed h a with
  | some c => s.sealedWrite c
  | none =>
    if h.d.mask .rwb h.w = 0 then s
    else match s.heldWord a with
      | none => s.pairRefused
      | some x =>
        let s := s.modBus fun b => { b with held := b.held.filter fun p => p.1 ≠ a }
        if v ≠ ~~~x || !s.valueGood h a x.toNat then s.pairRefused else s.writeBuffered a (s.critMask h a) x

/-- A write of the service cluster to a register word; address bits 1:0 are ignored, and where no register lies nothing happens
(R64). -/
def State.busWrite (s : State) (addr : Nat) (v : Word) : State :=
  let a := addr / 4 * 4
  match regAt a with
  | none => s
  | some h =>
    if h.d.ofs = 0xFFFC then s.writeWctl a v
    else if h.shadow then s.writeCpl h (a - h.d.shadow) v
    else if h.d.shadow ≠ 0 then s.writeCritical h a v
    else s.writePlain h a v

/-! ## Reads (R3, R64, R75) -/

/-- The word a quantity of a register begins at (R3): a field wider than 32 bits that begins a word begins a quantity; the other
fields of a register of several words are read as one quantity with the words before them (DESIGN CHOICE, log entry 11: R3 does
not say whether a register that holds several narrow fields is one quantity or several). -/
def RegDesc.lowWord (d : RegDesc) (w : Nat) : Nat :=
  (List.range (w + 1)).foldl (fun b k => if d.fields.any fun f => f.lo = 32 * k && 32 * k + 32 ≤ f.hi then k else b) 0

/-- The words a read of the lower word of a quantity at `a` captures: its upper words, and of a wide register all words of its
shadow (R3, R75). -/
def captured (h : RegHit) (a : Nat) : List Nat :=
  (((List.range h.d.words).filter fun k => k ≠ h.w && h.d.lowWord k = h.w).map fun k => a + 4 * (k - h.w)) ++
    (if h.d.shadow = 0 || h.d.words = 1 then [] else (List.range h.d.words).map fun i => a + h.d.shadow + 4 * i)

/-- The capture of R75. -/
def State.capture (s : State) (h : RegHit) (a : Nat) : State :=
  let xs := captured h a
  if xs.isEmpty then s
  else s.modBus fun b => { b with capt := xs.map (fun x => (x, s.word x)) ++ b.capt.filter fun p => !xs.contains p.1 }

/-- A read of a register word: what it answers, and the state after. The data windows of the waveform unit and of the journals
advance (R121, R164). -/
def State.busRead (s : State) (addr : Nat) : Word × State :=
  let a := addr / 4 * 4
  if a = A.MET_CAP_DATA then (s.capData, s.capAdvance)
  else if a = A.THM_JDATA then (s.journalWord, s.journalAdvance)
  else match regAt a with
    | none => (0, s)
    | some h =>
      let s := s.when (s.pairBad a) State.pairUse
      if h.d.lowWord h.w = h.w && !h.shadow then (s.word a, s.capture h a)
      else match s.bus.capt.find? fun p => p.1 = a with
        | some p => (p.2, s)
        | none => (s.word a, s)

end Sys2Proof.Machine
end

