-- ==== Sys2Proof/Machine/Dma.lean ====
section
/-!
DEFINITION. The DMA engine (spec/19): legs, bursts, credits, the end of a channel.
-/

namespace Sys2Proof.Machine

open Sys2Proof

def State.dmaChan (s : State) (n : Nat) : DmaChan := lk (fun _ => {}) s.dma n

def State.modDma (s : State) (n : Nat) (f : DmaChan → DmaChan) : State := s.setDma (put (fun _ => {}) s.dma n (f (s.dmaChan n)))

/-- State of a channel: 0 idle, 1 fetching a leg, 2 moving. -/
def State.dmaState (s : State) (n : Nat) : Nat := s.rd (F.DMA_CHn_STAT_STATE n)

/-- DMA_IRQSUM and DMA_ACTIVE show channel `n`. -/
def State.showDma (s : State) (n : Nat) : State :=
  let ended := s.on (F.DMA_CHn_STAT_DONE n) || s.on (F.DMA_CHn_STAT_ABORTED n) || s.on (F.DMA_CHn_STAT_ERROR n)
  (s.wrBit F.DMA_IRQSUM_CH n (ended && s.on (F.DMA_CHn_CFG_IRQEN n))).wrBit F.DMA_ACTIVE_CH n (s.dmaState n ≠ 0)

/-! ## The DMA address space (R384, R385) -/

/-- A target of the space of R384. -/
inductive DmaTarget where
  | reg | tick | dram
  deriving DecidableEq, Repr

/-- The target an address lies in, and the first address above that target. -/
def dmaTarget (a : Nat) : Option (DmaTarget × Nat) :=
  if a < 0x150000 then some (.reg, 0x150000)
  else if 0x20000000 ≤ a && a < 0x20800000 then some (.tick, 0x20800000)
  else if 0x80000000 ≤ a && a < 0x100000000 then some (.dram, 0x100000000)
  else none

/-- Does the range of `k` bytes from `a` lie in one target? -/
def dmaRange (a k : Nat) : Bool :=
  match dmaTarget a with
  | some (_, e) => a + k ≤ e
  | none => false

/-- Is the address in the register space? -/
def isReg (a : Nat) : Bool := a < 0x150000

/-- Address in the memory list of a tick-memory or DRAM address. -/
def memAddr (a : Nat) : Nat := if a < 0x80000000 then a - 0x20000000 else a

/-- Blocks whose registers the engine may not write (R385). -/
def dmaRefused (b : Nat) : Bool := b = 3 || b = 10 || b = 11 || b = 12 || b = 17

/-- Does the destination range touch a refused block? -/
def dstRefused (a k : Nat) : Bool := isReg a && blocksAll.any fun b => dmaRefused b && a < blockBase (b + 1) && blockBase b < a + max k 1

/-- Does a poisoned word lie in the range (R422)? -/
def State.poisonIn (s : State) (a k : Nat) : Bool := !isReg a && s.clu.poison.any fun p => p < a + k && a < p + 8

/-- Read `k` words of register space, at one address under FIX (R389). -/
def State.regWords (s : State) (fix : Bool) (a : Nat) : Nat → List Byte × State
  | 0 => ([], s)
  | k + 1 =>
    let (w, s) := s.busRead a
    let (bs, s) := s.regWords fix (if fix then a else a + 4) k
    (leBytes 4 w.toNat ++ bs, s)

/-- Write bytes as words of register space, at one address under FIX (R385, R389). -/
def State.regPut (s : State) (fix : Bool) (a : Nat) : Nat → List Byte → State
  | 0, _ => s
  | k + 1, bs =>
    if bs.isEmpty then s
    else (s.busWrite a (BitVec.ofNat 32 (leNat (bs.take 4)))).regPut fix (if fix then a else a + 4) k (bs.drop 4)

/-- An access of the engine to a DRAM bank (R420). -/
def State.bankSeen (s : State) (a : Nat) : State := if 0x80000000 ≤ a then s.bankUse (a - 0x80000000) else s

/-- Read `k` bytes. -/
def State.dmaRead (s : State) (fix : Bool) (a k : Nat) : List Byte × State :=
  if isReg a then s.regWords fix a ((k + 3) / 4) else (s.memRead (memAddr a) k, s.bankSeen a)

/-- Write bytes. -/
def State.dmaWrite (s : State) (fix : Bool) (a : Nat) (bs : List Byte) : State :=
  if isReg a then s.regPut fix a bs.length bs else (s.memWrite (memAddr a) bs).bankSeen a

/-! ## The end of a channel (R394, R395) -/

/-- Write the record of R394: nothing where no memory lies or the block refuses the engine's writes. -/
def State.dmaRecord (s : State) (a : Nat) (bs : List Byte) : State :=
  if dmaRange a 8 && !dstRefused a 8 then s.dmaWrite false a bs else s

/-- The channel ends with the sticky bit `bit` of DMA_CHn_STAT: the record first, then the bit, then the interrupt (R394). -/
def State.dmaEnd (s : State) (n bit : Nat) : State :=
  let c := s.dmaChan n
  let s := s.wr (F.DMA_CHn_STAT_STATE n) 0
  let st := stickyWord (s.word (A.DMA_CHn_STAT n)) (2 ^ bit)
  let s := if c.wb then s.dmaRecord (s.rd (F.DMA_CHn_WB_ADDR n)) (leBytes 4 st.toNat ++ leBytes 4 (s.word (A.DMA_CHn_RES n)).toNat) else s
  let s := s.stickyMask (A.DMA_CHn_STAT n) (2 ^ bit)
  (s.modDma n fun x => { irqs := x.irqs + b2n c.irq }).showDma n

/-- An error of R388 ends the channel and raises the DMA bus error. -/
def State.dmaError (s : State) (n err : Nat) : State := ((s.wr (F.DMA_CHn_STAT_ERR n) err).dmaEnd n 21).raiseOnce 0x80 1 none

/-- START (R393): ignored unless the channel is idle. -/
def State.dmaStart (s : State) (n : Nat) : State :=
  if s.dmaState n ≠ 0 then s
  else
    let s := s.modDma n fun c => {
      irq := s.on (F.DMA_CHn_CFG_IRQEN n), wb := s.on (F.DMA_CHn_CFG_WBEN n), level := s.rd (F.DMA_CHn_CFG_LEVEL n),
      legAddr := s.rd (F.DMA_CHn_ITIN_ADDR n), irqs := c.irqs }
    let s := ((s.wr (F.DMA_CHn_CNT_BYTES n) 0).wr (F.DMA_CHn_RES_BYTES n) 0).wr (F.DMA_CHn_STAT_STATE n) 1
    ((s.wr (F.DMA_CHn_STAT_LEG n) 0).wr (F.DMA_CHn_STAT_ERR n) 0).showDma n

/-- ABORT (R395): ignored on an idle channel. -/
def State.dmaAbort (s : State) (n : Nat) : State := if s.dmaState n = 0 then s else s.dmaEnd n 22

/-- DMA_START (R393). -/
def execDmaStart (n : Fin 32) (s : State) : Host.Outcome State Fault Refusal := .next (s.dmaStart n)

/-- DMA_ABORT (R395). -/
def execDmaAbort (n : Fin 32) (s : State) : Host.Outcome State Fault Refusal := .next (s.dmaAbort n)

/-! ## Legs (R386 to R388) -/

/-- The current leg has ended: the count ends after LAST, else the next leg lies 16 bytes higher. -/
def State.legDone (s : State) (n : Nat) : State :=
  let c := s.dmaChan n
  if bitOf c.flags 0 then s.dmaEnd n 23
  else
    let s := s.modDma n fun x => { x with legAddr := c.legAddr + 16 }
    ((s.countWrap (F.DMA_CHn_STAT_LEG n)).wr (F.DMA_CHn_STAT_STATE n) 1).showDma n

/-- Bytes one side of a leg covers from its address: a fixed register is one word, a fixed place in memory one burst. -/
def sideLen (fix : Bool) (a len : Nat) : Nat := if fix then (if isReg a then min len 4 else min len 64) else len

/-- What is wrong with a fetched leg, in the order of R388. -/
def legError (src dst len flags : Nat) : Nat :=
  let sf := bitOf flags 2
  let df := bitOf flags 3
  if bitOf flags 1 then (if (dmaTarget src).isNone then 1 else 0)
  else if !dmaRange src (sideLen sf src len) || !dmaRange dst (sideLen df dst len) then 1
  else if (isReg src && (src % 4 ≠ 0 || len % 4 ≠ 0)) || (isReg dst && (dst % 4 ≠ 0 || len % 4 ≠ 0)) then 2
  else if dstRefused dst (sideLen df dst len) then 3
  else 0

/-- The fetch of a leg occupies one slot (R389). A JUMP moves nothing; a leg of no bytes ends at once. -/
def State.legFetch (s : State) (n : Nat) : State :=
  let a := (s.dmaChan n).legAddr
  if !dmaRange a 16 then s.dmaError n 1
  else if a % 16 ≠ 0 then s.dmaError n 2
  else if s.poisonIn a 16 then s.dmaError n 4
  else
    let (bs, s) := s.dmaRead false a 16
    let src := leAt bs 0 4
    let dst := leAt bs 4 4
    let len := leAt bs 8 4 % 2 ^ 24
    let flags := leAt bs 12 4
    let e := legError src dst len flags
    if e ≠ 0 then (if bitOf flags 1 then s else s.wr (F.DMA_CHn_RES_BYTES n) len).dmaError n e
    else if bitOf flags 1 then (s.modDma n fun x => { x with legAddr := src }).countWrap (F.DMA_CHn_STAT_LEG n)
    else
      let s := s.modDma n fun x => { x with src := src, dst := dst, len := len, flags := flags, moved := 0 }
      let s := (s.wr (F.DMA_CHn_RES_BYTES n) len).wr (F.DMA_CHn_STAT_STATE n) 2
      if len = 0 then s.legDone n else s.showDma n

/-! ## Bursts (R389, R390) -/

/-- Is the leg moved in descending order (R390)? -/
def DmaChan.descending (c : DmaChan) : Bool := c.flags / 4 % 4 = 0 && c.src < c.dst && c.dst < c.src + c.len

/-- The address whose 64-byte boundaries cut the leg: the advancing destination, else the source, else the leg's start. -/
def DmaChan.cutAddr (c : DmaChan) : Nat := if !bitOf c.flags 3 then c.dst else if !bitOf c.flags 2 then c.src else 0

/-- The room left at `o` bytes into the leg: up to the next boundary, in whole words where a side lies in register space. -/
def DmaChan.room (c : DmaChan) (o : Nat) : Nat :=
  let r := 64 - (c.cutAddr + o) % 64
  if isReg c.src || isReg c.dst then max 4 (r / 4 * 4) else r

/-- The next burst: its offset in the leg and its bytes. -/
def DmaChan.burst (c : DmaChan) : Nat × Nat :=
  if c.descending then
    let e := c.len - c.moved
    let last := (c.dst + e) % 64
    let k := min e (if last = 0 then 64 else last)
    (e - k, k)
  else (c.moved, min (c.len - c.moved) (c.room c.moved))

/-- One burst of the current leg. A bus error ends the channel, and the burst's bytes are not counted (R388). -/
def State.dmaBurst (s : State) (n : Nat) : State :=
  let c := s.dmaChan n
  let (o, k) := c.burst
  let sf := bitOf c.flags 2
  let df := bitOf c.flags 3
  let from_ := if sf then c.src else c.src + o
  let to_ := if df then c.dst else c.dst + o
  if s.poisonIn from_ k then s.dmaError n 4
  else
    let (bs, s) := s.dmaRead sf from_ k
    let s := (s.dmaWrite df to_ (bs.take k)).modDma n fun x => { x with moved := c.moved + k }
    let s := (s.count (F.DMA_CHn_CNT_BYTES n) k).wr (F.DMA_CHn_RES_BYTES n) (c.len - (c.moved + k))
    if c.moved + k = c.len then s.legDone n else s

/-! ## Sharing the bus (R391) -/

/-- Weight of a level; 0 acts as 1 (DMA_WEIGHT). -/
def State.dmaWeight (s : State) (l : Nat) : Nat :=
  max 1 (match l with | 0 => s.rd F.DMA_WEIGHT_W0 | 1 => s.rd F.DMA_WEIGHT_W1 | 2 => s.rd F.DMA_WEIGHT_W2 | _ => s.rd F.DMA_WEIGHT_W3)

/-- The channels with a burst or a leg fetch to issue. -/
def State.dmaReady (s : State) : List Nat := (List.range 32).filter fun n => s.dmaState n ≠ 0

/-- Does channel `n` go before channel `m`, a lower number: more credit, or as much at a higher level? -/
def State.dmaBefore (s : State) (m n : Nat) : Bool :=
  let x := s.dmaChan m
  let y := s.dmaChan n
  x.credit < y.credit || (x.credit = y.credit && x.level < y.level)

/-- The channel picked among those ready. -/
def State.dmaPick (s : State) : List Nat → Option Nat
  | [] => none
  | n :: ns => some (ns.foldl (fun b m => if s.dmaBefore b m then m else b) n)

/-- Give every ready channel its weight (R391). -/
def State.dmaCredit (s : State) : State :=
  s.each s.dmaReady fun s n => s.modDma n fun c => { c with credit := c.credit + s.dmaWeight c.level }

/-- One burst slot: credits, the pick, the charge, then a leg fetch or a burst of the channel picked. -/
def State.dmaSlot (s : State) : State :=
  let total := s.dmaReady.foldl (fun t n => t + s.dmaWeight (s.dmaChan n).level) 0
  let s := s.dmaCredit
  match s.dmaPick s.dmaReady with
  | none => s
  | some n =>
    let s := s.modDma n fun c => { c with credit := c.credit - total }
    if s.dmaState n = 1 then s.legFetch n else s.dmaBurst n

/-- DMA_BURST_SLOT (R391). -/
def execDmaBurstSlot (s : State) : Host.Outcome State Fault Refusal := .next s.dmaSlot

/-! ## A write with everything it does -/

/-- A write of the service cluster: the register bus, then the engine's own command bits, ABORT before START (R443), and its
summaries. -/
def State.regWrite (s : State) (addr : Nat) (v : Word) : State :=
  let s := s.busWrite addr v
  if blockOf addr = 3 then
    match regAt (addr / 4 * 4) with
    | some h =>
      if h.d.s1 = 0x40 then
        let s := if h.d.ofs = 8 then (if v.getLsbD 1 then s.dmaAbort h.i else if v.getLsbD 0 then s.dmaStart h.i else s) else s
        s.showDma h.i
      else s
    | none => s
  else s

end Sys2Proof.Machine
end

