-- ==== Sys2Proof/Machine/PackingList.lean ====
section
/-!
DEFINITION. The packing list (spec/05): a copy's header, records and signature, the choice between the copies, the staged list, and
what is wrong with a record.
-/

namespace Sys2Proof.Machine

open Sys2Proof

/-! ## A copy's bytes (R80 to R82) -/

/-- A record as stored (R81): its TYPE, its value, and whether its CRC-32 is good. -/
structure PlTlv where
  typ : Nat
  value : List Byte
  crcGood : Bool
  deriving DecidableEq, Repr

/-- A record as the checks of R85 see it: marked critical, and what it says. -/
structure PlItem where
  critical : Bool
  body : PlRecord
  deriving DecidableEq, Repr

/-- A field of the header. -/
def plField (c : PlCopy) (o k : Nat) : Nat := leAt c.bytes o k

/-- LENGTH, PLVER and the count of records. -/
def plLength (c : PlCopy) : Nat := plField c 8 4

def plCount (c : PlCopy) : Nat := plField c 0x0C 4

def plVer (c : PlCopy) : Nat := plField c 0x10 4

/-- MAGIC, FORMAT and HCRC of a readable copy (R83 step 1). -/
def plHeadGood (c : PlCopy) : Bool :=
  c.readable && plField c 0 4 = 0x4C504D41 && plField c 4 2 = 1 && crc32 (c.bytes.take 0x3C) = plField c 0x3C 4

/-- Does LENGTH suit a copy: a multiple of 4 that holds the header, of at most 1 MB with the signature? -/
def plLengthGood (c : PlCopy) : Bool :=
  let k := plLength c
  k % 4 = 0 && 64 ≤ k && k + 96 ≤ 0x100000 && k + 96 ≤ c.bytes.length

/-- The records of `bs`, at most `n`: TYPE, LEN, VALUE, CRC-32 over the three; none where one does not fit. -/
def plRecords : Nat → List Byte → Option (List PlTlv)
  | 0, bs => if bs.isEmpty then some [] else none
  | n + 1, bs =>
    let k := leAt bs 2 2
    if bs.isEmpty then some []
    else if bs.length < 8 + k || k % 4 ≠ 0 then none
    else (plRecords n (bs.drop (8 + k))).map fun r =>
      ⟨leAt bs 0 2, slice bs 4 k, crc32 (bs.take (4 + k)) = leAt bs (4 + k) 4⟩ :: r

/-- The records of a copy. -/
def plTlvs (c : PlCopy) : Option (List PlTlv) :=
  if plLengthGood c then plRecords (plLength c / 8) ((c.bytes.take (plLength c)).drop 64) else none

/-- The signature verifies under the packing-list key of the running service image (R82). R80 makes every multi-byte field
little-endian, r and s among them. -/
def State.plSigGood (s : State) (c : PlCopy) : Bool :=
  let k := plLength c
  match s.upd.run with
  | some i => p384Verify i.listKey (sha384 (c.bytes.take k)) (leAt c.bytes k 48) (leAt c.bytes (k + 48) 48)
  | none => false

/-! ## Choosing a copy (R83, R87) -/

/-- First check of R83 that a copy fails, 1 to 6; 0 where it passes. Records that do not fit the copy fail with the record CRCs. -/
def State.copyCheck (s : State) (c : PlCopy) : Nat :=
  if !plHeadGood c then 1
  else if plField c 0x18 8 ≠ 0 && plField c 0x18 8 ≠ s.boot.unit then 2
  else match plTlvs c with
    | none => 3
    | some ts =>
      if !(ts.all (·.crcGood)) then 3
      else if plCount c ≠ ts.length then 4
      else if !s.plSigGood c then 5
      else if plVer c < s.boot.plver then 6
      else 0

/-- PLVER of a flash copy, one more than what it says; 0 where its header cannot be used. -/
def copyVer (c : PlCopy) : Nat := if plHeadGood c then plVer c + 1 else 0

/-- A staged list that passes R83 and is newer than both flash copies is written over the older one, or the secondary, read back
and, where that matches, taken in, and the staging area is cleared (R87). `told` is what its records say. -/
def State.takeStaged (s : State) (p q : PlCopy) (told : List PlRecord) (readBack : Bool) : PlCopy × PlCopy × State :=
  let c : PlCopy := ⟨true, s.stagedBytes 0 (s.rd F.NFC_TAG_LEN_BYTES), told⟩
  if s.on F.NFC_TAG_ST_STAGED && copyVer p < copyVer c && copyVer q < copyVer c && s.copyCheck c = 0 then
    let c := if readBack then c else { c with readable := false }
    let s := if readBack then
        ((s.sticky F.SYS_PLSTAT_STAGED).wrB F.NFC_TAG_ST_STAGED false).modNfc fun x => { x with staging := [] }
      else s
    if copyVer p < copyVer q then (c, q, s) else (p, c, s)
  else (p, q, s)

/-! ## What the records say (R84, R260) -/

/-- TYPE of a record (R84); 0 of none of them. -/
def plType : PlRecord → Nat
  | .device .. => 0x8001 | .clocks .. => 0x8002 | .access .. => 0x8003 | .laneRec .. => 0x0010 | .moduleRec .. => 0x0020
  | .gench .. => 0x0030 | .bounds .. => 0x0040 | .preset _ => 0x0050 | .tariff _ => 0x0060 | .policy .. => 0x0070
  | .unreadable => 0 | .unknown => 0

/-- The record types of R84. -/
def plTypes : List Nat := [0x8001, 0x8002, 0x8003, 0x0010, 0x0020, 0x0030, 0x0040, 0x0050, 0x0060, 0x0070]

/-- A stored record with what it says: by its bytes where the spec lays its value out (GENCH, R260; TARIFF, R147), else as told, if that
is of its type. Bit 15 of TYPE marks it critical (R81). -/
def plItemOf (t : PlTlv) (told : Option PlRecord) : PlItem :=
  let w (k : Nat) : Word := BitVec.ofNat 32 (leAt t.value (4 * k) 4)
  ⟨0x8000 ≤ t.typ,
    if t.typ = 0x0030 then (if t.value.length = 12 then .gench (w 0) (w 1) (w 2) else .unreadable)
    else if t.typ = 0x0060 then .tariff t.value
    else if plTypes.contains t.typ then (match told with | some b => if plType b = t.typ then b else .unreadable | none => .unreadable)
    else .unknown⟩

/-- The records of a copy with what they say. -/
def plItems (c : PlCopy) : List PlItem :=
  ((plTlvs c).getD []).zipIdx.map fun x => plItemOf x.1 c.contents[x.2]?

/-! ## Checking the records (R85) -/

/-- Is the record of a type of R84? -/
def plKnown (i : PlItem) : Bool := i.body ≠ .unknown

/-- The lane types of R27 by the LANE record's type code; code 3 is AC three-phase, and the record then names the group whose
lead lane it numbers (R29). -/
def laneTypes : List LaneType := [.unused, .dc, .ac1, .ac3lead]

/-- Number and type code of a LANE record. -/
def laneOf (i : PlItem) : Option (Nat × Nat) :=
  match i.body with
  | .laneRec n t .. => if plKnown i then some (n.val, t.val) else none
  | _ => none

/-- The lanes a LANE record names: its own, and for a bonded group the three of the group (R29). -/
def lanesNamed (i : PlItem) : List Nat :=
  match laneOf i with
  | some (n, t) => if t = 3 then [n, n + 1, n + 2] else [n]
  | none => []

/-- The head class of R88 that suits a lane type. -/
def classOf (t : Nat) : Nat := t

/-- Number of a MODULE record. -/
def moduleOf (i : PlItem) : Option Nat :=
  match i.body with
  | .moduleRec n .. => if plKnown i then some n.val else none
  | _ => none

/-- Channel of a GENCH record. -/
def genOf (i : PlItem) : Option Nat :=
  match i.body with
  | .gench n .. => if plKnown i then some n.toNat else none
  | _ => none

/-- What a record of a type that may stand once or not at all is: 1 BOUNDS, 2 TARIFF, 3 POLICY. -/
def singleOf (i : PlItem) : Option Nat :=
  match i.body with
  | .bounds .. => if plKnown i then some 1 else none
  | .tariff _ => if plKnown i then some 2 else none
  | .policy .. => if plKnown i then some 3 else none
  | _ => none

/-- How often `f` gives `x` over the records. -/
def timesOf {α : Type} [DecidableEq α] (is : List PlItem) (f : PlItem → Option α) (x : α) : Nat := (is.filter fun i => f i = some x).length

/-- How many LANE records name lane `m`. -/
def timesNamed (is : List PlItem) (m : Nat) : Nat := (is.filter fun i => (lanesNamed i).contains m).length

/-- Is record `k` a PRESET beyond the 256 of R84? -/
def presetSurplus (is : List PlItem) (k : Nat) (i : PlItem) : Bool :=
  let isPreset (i : PlItem) : Bool := plKnown i && match i.body with | .preset _ => true | _ => false
  isPreset i && 256 ≤ ((is.take k).filter isPreset).length

/-- What is wrong with a LANE record: its lane numbered twice, a class that is none of R88's or bounds out of order, a lane that
another record names too, a group beyond lane 31, or a class that does not suit the type (R29, R85, R89). -/
def laneCause (is : List PlItem) (i : PlItem) (n t cls lo hi : Nat) : Nat :=
  if timesOf is (fun i => (laneOf i).map (·.1)) n ≠ 1 then 2
  else if hi < lo || (t ≠ 0 && (cls = 0 || 3 < cls)) then 1
  else if (lanesNamed i).any (fun m => 31 < m || timesNamed is m ≠ 1) || (t ≠ 0 && cls ≠ classOf t) then 3
  else 0

/-- What is wrong with a non-critical record, as SYS_PLBAD.CAUSE has it: 1 out of range, 2 repeated, 3 in conflict with bonding;
0 nothing. -/
def State.plCause (s : State) (is : List PlItem) (i : PlItem) : Nat :=
  match i.body with
  | .laneRec n t _ cls lo hi => laneCause is i n.val t.val cls.toNat lo.toNat hi.toNat
  | .moduleRec n _ addr _ _ _ =>
    if timesOf is moduleOf n.val ≠ 1 then 2 else if addr.toNat < 1 || 32 < addr.toNat then 1 else 0
  | .gench n cfg inr =>
    if timesOf is genOf n.toNat ≠ 1 then 2
    else if 32 ≤ n.toNat then 1
    else match regAt (A.SWA_Gk_CFG n.toNat), regAt (A.SWA_Gk_INR n.toNat) with
      | some h, some k =>
        let irate := (F.SWA_Gk_CFG_IRATE n.toNat).of cfg.toNat
        let iinr := (F.SWA_Gk_INR_IINR n.toNat).of inr.toNat
        if s.valueGood h (A.SWA_Gk_CFG n.toNat) cfg.toNat && k.d.fields.all (fun f => f.inRange 0 inr.toNat) &&
          (iinr = 0 || (irate ≤ iinr && iinr ≤ 400)) then 0 else 1
      | _, _ => 1
  | .bounds sp am lo hi _ lim =>
    if timesOf is singleOf 1 ≠ 1 then 2
    else if 2 ≤ sp && sp ≤ 30 && 2 ≤ am && am ≤ 40 && 1 ≤ lo && lo ≤ hi && hi ≤ 50 && 1000 ≤ lim && lim ≤ 2400 then 0 else 1
  | .tariff v => if timesOf is singleOf 2 ≠ 1 then 2 else if v.length = 3680 && calGood v then 0 else 1
  | .policy .. => if timesOf is singleOf 3 ≠ 1 then 2 else 0
  | .unreadable => 1
  | _ => 0

/-- The lane, channel or module a record names; 0xFF none (SYS_PLBAD.ITEM). -/
def plItem : PlRecord → Nat
  | .laneRec n .. => n.val
  | .moduleRec n .. => n.val
  | .gench n .. => min n.toNat 0xFF
  | _ => 0xFF

/-- A bad record is logged: SYS_PLBAD keeps the first (R85). -/
def State.plBad (s : State) (index cause item : Nat) : State :=
  let s := if s.on F.SYS_PLBAD_CAUSE then s else ((s.wr F.SYS_PLBAD_INDEX index).wr F.SYS_PLBAD_CAUSE cause).wr F.SYS_PLBAD_ITEM item
  s.sticky F.SYS_PLSTAT_BAD

/-- A bad record that is not critical: logged, and the bad-record source raised. -/
def State.badRecord (s : State) (index cause item : Nat) : State := (s.plBad index cause item).raiseOnce 0x07 1 none

/-- Records with their index. -/
def numbered (is : List PlItem) : List (Nat × PlItem) := (List.range is.length).zip is

/-- What is wrong with the critical records: CAUSE 1, 2 or 5 and the record's index, if one (R85). -/
def critBad (is : List PlItem) : Option (Nat × Option Nat) :=
  let n (f : PlRecord → Bool) : Nat := (is.filter fun i => plKnown i && f i.body).length
  let d := n fun b => match b with | .device .. => true | _ => false
  let c := n fun b => match b with | .clocks .. => true | _ => false
  let a := n fun b => match b with | .access .. => true | _ => false
  let isBad (i : PlItem) : Bool := match i.body with
    | .device _ zs _ => zs.length < 1 || 4 < zs.length
    | .unknown => i.critical
    | .unreadable => i.critical
    | _ => false
  let second (f : PlRecord → Bool) : Option Nat := (((numbered is).filter fun x => plKnown x.2 && f x.2.body).drop 1).head?.map (·.1)
  match (numbered is).find? fun x => isBad x.2 with
  | some x => some (1, some x.1)
  | none =>
    if 1 < d then some (2, second fun b => match b with | .device .. => true | _ => false)
    else if 1 < c then some (2, second fun b => match b with | .clocks .. => true | _ => false)
    else if 1 < a then some (2, second fun b => match b with | .access .. => true | _ => false)
    else if d = 0 || c = 0 || a = 0 then some (5, none)
    else none

end Sys2Proof.Machine
end

