-- ==== Sys2Proof/Machine/Startup.lean ====
section
/-!
DEFINITION. Start-up (spec/05): power-good, the root secret, boot measurement, the packing list, roll call, the self-adaptive
stage, the guard walk and the entry to service.
-/

namespace Sys2Proof.Machine

open Sys2Proof

def State.stage (s : State) : Nat := s.rd F.SYS_STAGE_STAGE

/-- Enter a stage. -/
def State.setStage (s : State) (k : Nat) : State := (s.wr F.SYS_STAGE_STAGE k).modBoot fun b => { b with stageFrame := s.clk.frame }

/-! ## Power-good and the root secret (R78, R356, R357) -/

/-- The samples of stage 0x3: none where a health test failed, which raises 0x92 and is tried again 1 s later. -/
def State.takeSamples (s : State) : Option (List Byte) → State
  | some xs => (s.createRoot xs).causeOff 0x92 none
  | none => if s.key.root = [] then
      (s.when (!s.causeIs 0x92) fun s => s.raiseDev 0x92 3).modBoot fun b => { b with stageFrame := s.clk.frame }
    else s

/-- POWER_GOOD (R78): control frames count from here; the DRBG is seeded from the entropy source, which is a free value. -/
def execPowerGood (entropy : Option (List Byte)) (s : State) : Host.Outcome State Fault Refusal :=
  .next <| if s.stage = 2 then
      let s := ((s.modBoot fun b => { b with vddCore := true, vddField := true }).modClk fun c => { c with tickInFrame := 0 }).setStage 3
      let (x, s) := s.draw
      (s.seedDrbg (leBytes 48 x)).takeSamples entropy
    else s

/-- ENTROPY_RETRY (R356). -/
def execEntropyRetry (entropy : Option (List Byte)) (s : State) : Host.Outcome State Fault Refusal :=
  .next <| if s.stage = 3 && s.key.root = [] && s.boot.stageFrame + 1000 ≤ s.clk.frame then s.takeSamples entropy else s

/-! ## Boot measurement (R358, R377, R381) -/

/-- The image runs: its measurements, versions, and the seals now matched (R358, R362). -/
def State.runImage (s : State) (i : BankImage) : State :=
  let s := ((s.wr (F.KEY_MEASj_M 0) i.m1.toNat).wr (F.KEY_MEASj_M 1) i.m2.toNat).wr (F.KEY_MEASj_M 2) i.m3.toNat
  let s := (s.wr F.UPD_VER_RUN i.version.toNat).wr F.ALC_VER_RUN i.allocVer.toNat
  let s := ((s.modUpd fun u => { u with run := some i }).modKey fun k => { k with measured := true }).modFlt fun f => { f with wdFirst := true, wdLast := s.clk.frame }
  let s := s.when (s.upd.bank = 3) State.showRuck
  (s.showSlots.modNfc fun x => { x with locked := true }).setStage 4

/-- Is a bank good (R78): it passes the checks of R377 on an image, but for those that belong to a delivery and an update, its block
count and its security version (log entry 18)? -/
def bankGood (b : BankRead) : Bool := imageCheck (slice b.bytes) b.imageKey none 0 = 0

/-- What a bank measures as. -/
def bankImage (b : BankRead) : BankImage := imageOf (slice b.bytes) b.imageKey b.listKey

/-- BOOT_MEASUREMENT_DONE (R78, R358): the bank is verified and the measurement chain formed over its stages; a bad bank in trial is
rolled back (R381), else the rucksack runs, and the rejected bank takes its place; with both banks bad the device halts in stage
0x3. -/
def execBootMeasurementDone (active rucksack : BankRead) (s : State) : Host.Outcome State Fault Refusal :=
  .next <| if s.stage = 3 && s.key.root ≠ [] && !s.boot.halted then
      if bankGood active then s.runImage (bankImage active)
      else if s.upd.trial then s.rollback
      else if bankGood rucksack then
        ((s.swapBanks.modUpd fun u => { u with ruck := none }).setBank 6).runImage (bankImage rucksack)
      else s.modBoot fun b => { b with halted := true }
    else s

/-! ## Applying a list (R84, R85) -/

/-- May a PRESET pair be written: a register word with a writable field, its own or as a shadow? -/
def presetWritable (a : Nat) : Bool :=
  match regAt a with
  | none => false
  | some h => h.d.mask .rw h.w + h.d.mask .rwb h.w + h.d.mask .wo h.w + h.d.mask .w1p h.w + h.d.mask .sqc h.w ≠ 0

/-- One PRESET pair of record `k`: skipped and logged where the location is not writable or the value out of range (R85). -/
def State.presetPair (s : State) (k : Nat) (p : Word × Word) : State :=
  let a := p.1.toNat / 4 * 4
  if !presetWritable a then s.badRecord k 4 0xFF
  else match regAt a with
    | some h => if h.d.shadow = 0 && !s.valueGood h a p.2.toNat then s.badRecord k 1 0xFF else s.busWrite a p.2
    | none => s

/-- The bits of the register word at `a` that a write may change; the reserved ones read zero (R64). -/
def fieldBits (a : Nat) : Word :=
  match regAt a with
  | some h => BitVec.ofNat 32 (h.d.mask .rwb h.w + h.d.mask .rw h.w)
  | none => 0

/-- Apply one good record, but for PRESET and ACCESS. -/
def State.applyRecord (s : State) : PlRecord → State
  | .device d zs v =>
    let s := ((s.wr F.SYS_DEVID_DEVID d.toNat).wr F.SAF_ID_DEVID d.toNat).wr F.ALC_VER_CFG v.toNat
    s.each (List.range zs.length) fun s j => (s.wr (F.ALC_ZPATHj_ZONE j) (zs.getD j 0).toNat).wrB (F.ALC_ZPATHj_VALID j) true
  | .clocks slow src => ((s.modBoot fun b => { b with slowMclk := slow }).wrB F.MET_CFG_RATE slow).setSource src.val
  | .laneRec n t inom cls lo hi =>
    let one (s : State) (m : Nat) (x : LaneType) : State :=
      (s.modBoot fun b => { b with lanes := put (fun _ => {}) b.lanes m ⟨x, inom.toNat, cls.toNat, lo.toNat, hi.toNat⟩ }).wr (F.MET_Ln_INOM_INOM m) inom.toNat
    let s := one s n.val (laneTypes.getD t.val .unused)
    if t.val = 3 then one (one s (n.val + 1) .ac3lower) (n.val + 2) .ac3upper else s
  | .moduleRec n p addr ident g pmax =>
    s.modModule n.val fun _ => { port := p.val, addr := addr.toNat, ident := ident.toNat, group := g.val, rated := pmax.toNat }
  | .gench k cfg inr =>
    (s.putWord (A.SWA_Gk_CFG k.toNat) 0x4000 (cfg &&& fieldBits (A.SWA_Gk_CFG k.toNat))).putWord (A.SWA_Gk_INR k.toNat) 0x4000
      (inr &&& fieldBits (A.SWA_Gk_INR k.toNat))
  | .bounds sp am lo hi b lim => (s.modBoot fun x => { x with bounds := ⟨sp, am, lo, hi, b, lim⟩ }).wrB F.SBU_CFG_BANDOK b
  | .tariff v =>
    let s := (List.range 920).foldl (fun s w => s.wr (F.BIL_CALW_WORD w) (leAt v (4 * w) 4)) s
    (s.wrB F.BIL_STAT_NOTARIFF false).modBil fun b => { b with cal := v }
  | .policy a b c d e f g h => s.modBoot fun x => { x with policy := ⟨a, b, c, d, e, f, g.map (·.toNat), h.map fun t => (t.1, t.2.val)⟩ }
  | _ => s

/-- One record of a list whose critical records are good. The lanes a bad LANE record names stay unused: no good record names them
(R29, R85). -/
def State.takeRecord (s : State) (is : List PlItem) (k : Nat) (i : PlItem) : State :=
  if !(plKnown i) then s.count F.SYS_PLSTAT_UNKNOWN 1
  else
    let c := if presetSurplus is k i then 2 else s.plCause is i
    if c ≠ 0 then s.badRecord k c (plItem i.body)
    else s.applyRecord i.body

/-- ACCESS: the host write gate and the write control of every block; last of all, since PRESET values take effect at once. -/
def State.applyAccess (s : State) : PlRecord → State
  | .access h ws => (ws.foldl (fun s w => s.setWord (wctlAddr w.1.val) (w.2 &&& 0x71)) (s.wr F.SYS_HOSTWR_OPEN h.toNat)).showPend
  | _ => s

/-- PRESET pairs in record order. -/
def State.applyPreset (s : State) (k : Nat) : PlRecord → State
  | .preset ps => ps.foldl (fun s p => s.presetPair k p) s
  | _ => s

/-- The no-configuration state (R86). -/
def State.noConfig (s : State) : State :=
  (s.wrB F.SYS_PLSTAT_NOCFG true).modBoot fun b => { b with noCfg := true, mclk := false, mclkBalls := 0 }

/-! ## Roll call begins (R34, R92) -/

/-- Each CAN FD port with a MODULE record sends one identity request. -/
def State.rollCallCan (s : State) : State :=
  let s := s.modLnk fun l => { l with canTx := [] }
  let s := s.each ([0, 1, 2, 3].filter fun p => s.canOn p && s.boot.mods.any fun m => m.2.port = p && m.2.addr ≠ 0) fun s p => s.canSend (canFrame p 5 0x20 0 [])
  s.each (s.boot.mods.map (·.1)) fun s m => s.modModule m fun x => { x with reqAt := s.clk.frame + 1 }

/-- The MCLK balls start, but for a ball whose four lanes are all unused; over a warm start they have not stopped (R33, R34). -/
def State.mclkStart (s : State) : State :=
  let balls := (List.range 8).foldl (fun m k => if [0, 1, 2, 3].any fun i => s.laneType (4 * k + i) ≠ .unused then m + 2 ^ k else m) 0
  s.modBoot fun b => { b with mclk := true, mclkAt := if b.mclk then b.mclkAt else s.clk.sample, mclkBalls := BitVec.ofNat 8 balls }

/-- A list with good critical records is applied: PLVER is stored, the records in order, PRESET, ACCESS, the hamper restored, the
MCLK balls started; then roll call (R83 to R85, R169). The channels act on a safe state in force again since the start, now that the
CAN FD ports and the safety configuration are set up (R283, R284). -/
def State.applyList (s : State) (used : Nat) (c : PlCopy) : State :=
  let is := plItems c
  let xs := numbered is
  let s := xs.foldl (fun s x => s.takeRecord is x.1 x.2) (s.wrB F.BIL_STAT_NOTARIFF true)
  let s := xs.foldl (fun s x => if plKnown x.2 && !presetSurplus is x.1 x.2 then s.applyPreset x.1 x.2.body else s) s
  let s := xs.foldl (fun s x => if plKnown x.2 then s.applyAccess x.2.body else s) s
  let s := ((s.wr F.SYS_PLSTAT_USED used).modBoot fun b => { b with plver := plVer c }).mclkStart
  let so := (s.on F.SAF_STAT_ESTOP || s.on F.SAF_STAT_PEER) && s.on F.SAF_CFG_ESTOPSO
  let s := s.when (s.on F.SAF_STAT_SAFE) fun s => s.modSaf fun x => { x with enterAct := true, enterSo := so, soSafe := so }
  (((s.showCfgCrc.restore).openInterval false).setStage 5).rollCallCan

/-- PACKING_LIST_APPLIED (R78, R83): the staging area first, then both copies; the higher PLVER, the primary if equal. -/
def execPackingListApplied (primary secondary : PlCopy) (staged : List PlRecord) (readBack : Bool) (s : State) : Host.Outcome State Fault Refusal :=
  .next <| if s.stage = 4 && !s.boot.noCfg then
      let (p, q, s) := s.takeStaged primary secondary staged readBack
      let s := s.modNfc fun x => { x with locked := false }
      let cp := s.copyCheck p
      let cq := s.copyCheck q
      let s := (s.wr F.SYS_PLSTAT_PRICAUSE cp).wr F.SYS_PLSTAT_SECCAUSE cq
      let pick : Option (Nat × PlCopy) :=
        if cp = 0 && (cq ≠ 0 || plVer q ≤ plVer p) then some (1, p) else if cq = 0 then some (2, q) else none
      match pick with
      | none => s.noConfig
      | some (u, c) =>
        match critBad (plItems c) with
        | some (e, some k) => (s.plBad k e 0xFF).noConfig
        | some (e, none) =>
          let (k, s) := s.draw
          (s.plBad k e 0xFF).noConfig
        | none => s.applyList u c
    else s

/-! ## Roll call and the self-adaptive stage (R90 to R96) -/

/-- MODULE_ROLL_CALL_TIMEOUT (R92): left out of its group. -/
def execModuleRollCallTimeout (m : Fin 128) (s : State) : Host.Outcome State Fault Refusal :=
  .next <|
    let x := s.modAt m
    if s.stage = 5 && x.addr ≠ 0 && !x.admitted && x.reqAt ≠ 0 && x.reqAt + 250 ≤ s.clk.frame + 1 then
      (s.modModule m fun x => { x with reqAt := 0 }).raiseDev 0x24 1
    else s

/-- ROLL_CALL_DONE (R90, R92, R93): no head is being read, and every module has answered or had its 250 ms. The lane items begin
for every head that passed, and the listening of the zone item. -/
def execRollCallDone (s : State) : Host.Outcome State Fault Refusal :=
  .next <| if s.stage = 5 && !(s.boot.heads.any fun h => h.2.rollCall) &&
      (s.boot.mods.all fun m => m.2.admitted || m.2.reqAt = 0 || m.2.reqAt + 250 ≤ s.clk.frame + 1) then
      let s := (s.setStage 6).wrB F.SYS_ADAPT_SBROBUST (s.on F.SBU_CFG_EN)
      let s := s.modBoot fun b => { b with listening := true, zoneSeen := 0, zoneBad := 0 }
      s.each (s.outlets.filter fun n => (s.head n).present && !(s.head n).ident.isEmpty) State.adaptStart
    else s

/-- The zone item fails (R93). -/
def State.zoneFail (s : State) : State := (s.sticky F.SYS_ADAPT_ZONE).raiseDev 0x09 3

/-- The listening ends: the condition found at every cutoff of it, two at least, raises the zone source. -/
def State.zoneEnd (s : State) : State :=
  let failed := 2 ≤ s.boot.zoneSeen && s.boot.zoneBad = s.boot.zoneSeen
  (s.modBoot fun b => { b with listening := false }).when failed State.zoneFail

/-- ZONE_CONFIRM_END (R93): two allocation ticks, or 500 ms when that is longer. -/
def execZoneConfirmEnd (s : State) : Host.Outcome State Fault Refusal :=
  .next <| if s.stage = 6 && s.boot.listening && s.boot.stageFrame + max 500 (2 * s.periodMs) ≤ s.clk.frame then s.zoneEnd else s

/-! ## The guard walk and the entry to service (R77, R79, R97, R285, R293) -/

/-- A cold start without a pair of role 5 ends the held causes whose end condition is met (R285). -/
def State.coldEnds (s : State) : State :=
  if s.boot.cold && (s.pairsOf 5).isEmpty then
    (resetCauses.filter fun c => s.on c && causeGone s c).foldl State.safeLeave s
  else s

/-- A used lane that enters service with a scale of 0 (R106). -/
def State.scaleMissing (s : State) (n : Nat) : Bool := s.rd (F.MET_Ln_VSCALE_FS n) = 0 || s.rd (F.MET_Ln_ISCALE_FS n) = 0

/-- The cause of 0x13 ends once committed pairs give every scale of the group (R106). -/
def State.scaleCauses (s : State) : State :=
  s.each (s.usedLanes.filter fun n => s.causeFor 0x13 n && !((s.groupOf n).any s.scaleMissing)) fun s n => s.causeOff 0x13 (some (s.groupSet n))

/-- Stage 0x8: sessions of the restored image close, the SO pairs are energised, the extension starts. -/
def State.enterService (s : State) : State :=
  let s := ((s.coldEnds.setStage 8).wrSat F.SYS_STTIME_SERVICE s.clk.frame).wrB F.SAF_STAT_WALKDONE true
  let s := s.powerLossClose.extStart.modBil fun b => { b with rateDue := true }
  let s := s.each (s.usedLanes.filter fun n => s.scaleMissing n) fun s n => if s.causeFor 0x13 n then s else s.raiseLane 0x13 2 n
  let s := if s.on F.SAF_STAT_SAFE then s else s.modSaf fun x => { x with soSafe := false }
  (s.soOn 0).soOn 1

/-- Stage 0x7: a fence, the calibration seal where the POLICY record requires it, the start-up release of the fault pair. -/
def State.enterWalk (s : State) : State :=
  let s := (((s.modBoot fun b => { b with adaptStep := 0 }).setStage 7).wrSat F.SYS_STTIME_GUARD s.clk.frame).fenceGo
  let s := s.when s.boot.policy.sealCal fun s => s.wrB F.MET_SEAL_LOCK true
  if s.flt.causes.any fun c => 3 ≤ c.cls then s else s.pinRelease

/-- Is there no walk to wait for (R77, R293)? Only a cold start with a pair to walk waits. -/
def State.walkOver (s : State) : Bool := s.on F.SAF_STAT_WALKDONE || !(s.boot.cold && !s.walkPairs.isEmpty)

/-- What an edge does to the stage, in step 3 of R53: the values decided in stage 0x6 are committed together at one edge, stage 0x7 is
entered at the next, and service once its fence has closed and the walk is over (R59, R96); the values of a run in service are
committed at the first edge after its end. -/
def State.stageEdge (s : State) : State :=
  if s.stage = 6 then
    if s.boot.adaptStep = 1 then s.adaptCommit.modBoot fun b => { b with adaptStep := 2 }
    else if s.boot.adaptStep = 2 then s.enterWalk
    else s
  else
    let s := s.adaptCommit
    if s.stage = 7 && s.walkOver && !s.clk.fenceReq then s.enterService else s

/-- SELF_ADAPT_DONE (R93, R96): no lane's items run and the listening is over; the values wait for the next edge. -/
def execSelfAdaptDone (s : State) : Host.Outcome State Fault Refusal :=
  .next <| if s.stage = 6 && s.boot.adaptStep = 0 && !s.boot.listening && !(s.boot.heads.any fun h => h.2.adaptAt.isSome) then
      s.modBoot fun b => { b with adaptStep := 1 }
    else s

/-- SELF_ADAPT_TIME_LIMIT (R94): what has not completed is failed, but for site time and the site bus. -/
def execSelfAdaptTimeLimit (s : State) : Host.Outcome State Fault Refusal :=
  .next <| if s.stage = 6 && s.boot.adaptStep = 0 && s.boot.stageFrame + s.boot.bounds.limit ≤ s.clk.frame then
      let s := s.each s.outlets fun s n => s.adaptJudge n true
      let s := if s.boot.listening then (s.modBoot fun b => { b with listening := false }).zoneFail else s
      s.modBoot fun b => { b with adaptStep := 1 }
    else s

/-- GUARD_WALK_PAIR_DONE (R293): service is entered at the next edge once every pair is done. -/
def execGuardWalkPairDone (k : Fin 8) (s : State) : Host.Outcome State Fault Refusal := .next (s.walkPairDone k.val)

end Sys2Proof.Machine
end

