-- ==== Sys2Proof/Machine/Edges.lean ====
section
/-!
DEFINITION. Sample ticks and control-frame edges (R43, R49 to R55): the order of the actions at an edge, which edges are also
launch, ledger-second, tariff and period-change edges, and what an overrun discards.
-/

namespace Sys2Proof.Machine

open Sys2Proof

/-! ## Sample ticks (R43) -/

/-- Has the device control frames: its core die powered, past stage 0x2? -/
def State.framesRun (s : State) : Bool := s.boot.vddCore && 3 ≤ s.stage

/-- Is a control-frame edge due: have all sample ticks of the running frame ended (R43, R49)? -/
def State.edgeDue (s : State) : Bool := s.clk.frameLen ≤ s.clk.tickInFrame

/-- SAMPLE_TICK (R43): the samples of the streams, the drive currents of the injection, and whether the tick's work overran
(R54, R55). A frame has no more ticks than its length: the next one starts with its edge. -/
def execSampleTick (xs : List SampleIn) (ej : List DriveIn) (overrun : Bool) (s : State) : Host.Outcome State Fault Refusal :=
  .next <| if !s.framesRun || s.edgeDue then s
    else
      let s := s.modClk fun c => { c with sample := c.sample + 1, tickInFrame := c.tickInFrame + 1 }
      let s := if overrun then (s.count F.TCK_OVR_SAMPLE 1).raiseOnce 0x00 1 none else s
      if s.boot.mclk then
        let s := s.latchSamples xs
        let s := s.streamTicks
        let s := s.each s.usedLanes fun s n => s.phaseTick overrun n
        ((s.each s.outlets State.outletTick).efmTick ej).capTick
      else s

/-! ## Inputs -/

/-- The internal link an input of the field die reaches the core die by (R12, R274); none for an input of the core or thermos die. -/
def pinLink : PinChange → Option DieLink
  | .mirrorA .. => some .aLink
  | .guardA .. => some .aLink
  | .mirrorB .. => some .bLink
  | .guardB .. => some .bLink
  | .vbak .. => some .thermos
  | .plateauA .. => some .aLink
  | .plateauB .. => some .bLink
  | .bClock .. => none
  | .pfw .. => none
  | .copyA .. => none
  | .copyB .. => none
  | .recordA .. => none
  | .recordB .. => none
  | .crcA .. => none
  | .crcB .. => none
  | _ => some .fieldService

/-- The inputs of an edge that arrive: a transfer that failed its check since the last edge is discarded whole (R12). -/
def State.arriving (s : State) (inp : List PinChange) : List PinChange :=
  inp.filter fun x => match pinLink x with | some l => !s.saf.lost.contains l | none => true

/-- An input latched at an edge. -/
def State.latchPin (s : State) (x : PinChange) : State :=
  let bit (m : LaneSet) (n : Lane) (b : Bool) : LaneSet := if b then m ||| laneBit n else m &&& ~~~(laneBit n)
  let byte (m : BitVec 8) (k : Nat) (b : Bool) : BitVec 8 := BitVec.ofNat 8 (setBits m.toNat k k (b2n b))
  s.modPins fun p => match x with
    | .pp n r => { p with pp := put (fun _ => 0) p.pp n.val r }
    | .mirrorA n c => { p with mirA := bit p.mirA n c }
    | .mirrorB n c => { p with mirB := bit p.mirB n c }
    | .ccCurrent n i => { p with ccI := put (fun _ => 0) p.ccI n.val i }
    | .lkCurrent n i => { p with lkI := put (fun _ => 0) p.lkI n.val i }
    | .genCurrent k i => { p with genI := put (fun _ => 0) p.genI k.val i }
    | .vinAux v => { p with vinAux := v }
    | .pfw low => { p with pfwLow := low }
    | .vpilP v => { p with vpilP := v }
    | .vpilM v => { p with vpilM := v }
    | .vbak v => { p with vbak := v }
    | .fieldTemp t => { p with fieldT := t }
    | .guardA k c => { p with gdA := byte p.gdA k.val c }
    | .guardB k c => { p with gdB := byte p.gdB k.val c }
    | .bClock v => { p with bClkPpm := v }
    | .plateauA n v => { p with plA := put (fun _ => 0) p.plA n.val v }
    | .plateauB n v => { p with plB := put (fun _ => 0) p.plB n.val v }
    | .copyA n c => { p with copyA := (n.val, c) :: p.copyA }
    | .copyB n c => { p with copyB := (n.val, c) :: p.copyB }
    | .recordA r => { p with recA := r }
    | .recordB r => { p with recB := r }
    | .crcA c => { p with crcA := c }
    | .crcB c => { p with crcB := c }

/-- The rails item of R93, from stage 0x6 on: VIN_AUX, VPIL_P and VPIL_M within their operating ranges. -/
def State.railStep (s : State) : State :=
  if s.stage < 6 then s
  else
    let p := s.pins
    let ok := 9000 ≤ p.vinAux && p.vinAux ≤ 36000 && 11400 ≤ p.vpilP && p.vpilP ≤ 12600 && -12600 ≤ p.vpilM && p.vpilM ≤ -11400
    (s.modBoot fun b => { b with railsOk := ok }).wrB F.SYS_ADAPT_RAILS (!ok)

/-! ## The levels an edge belongs to -/

/-- Site time in ms at the coming edge. -/
def State.nextMs (s : State) : Nat := (s.rd F.TCK_TIME_MS + 1) % 2 ^ 64

/-- Does a committed period take effect at site time `t` (R51)? -/
def State.periodDue (s : State) (t : Nat) : Bool :=
  let p := s.rd F.TCK_PERIOD_P
  let q := s.rd F.TCK_PERIOD_NEXT
  p ≠ q && t % (10 * p) = 0 && t % (10 * q) = 0

/-- Is site time `t` a launch edge (R52)? A multiple of both periods is one, whichever is in force. -/
def State.launchDue (s : State) (t : Nat) : Bool := t % s.periodMs = 0

/-- Has the running tariff interval ended (R150)? -/
def State.tariffDue (s : State) : Bool := s.bil.intEnd ≠ 0 && s.bil.intEnd ≤ s.wallSec

/-! ## The edge (R53) -/

/-- Time moves to the edge: wall time, the frame count, site time, the decade phase; a committed period takes effect, and the armed
strobes are missed with it; the tick number. -/
def State.timeStep (s : State) : State :=
  let t := s.nextMs
  let change := s.periodDue t
  let s := (s.wallTick.wr F.TCK_TIME_MS t).countWrap F.TCK_FRAME_COUNT
  let s := s.modClk fun c => { c with frame := c.frame + 1, decade := (c.decade + 1) % 10, tickInFrame := 0 }
  let s := s.when change fun s => (s.wr F.TCK_PERIOD_P (s.rd F.TCK_PERIOD_NEXT)).strobesMissed
  s.wr F.TCK_ALC_TICK_K (t / s.periodMs % 2 ^ 32)

/-- The switch array, the pilots and sessions, the earth-fault monitor, the readers and the switch supervision of a frame. -/
def State.laneWork (s : State) : State :=
  let s := ((s.showCurrents.headCauses.chanCauses.scaleCauses).consentRefresh).metWork.soundsEdge
  let s := s.each s.outlets fun s n => (s.sessionEdge n).pilotChoose n
  (s.efmEdge.dissipate.schedule.nfcEdge).plausibility

/-- Step 7: this frame's work. Work that will not end by the next edge has no result: pilot states, switch supervision and verdicts
stay, the energy waits, and the safety compare of the frame is a mismatch (R54, R55); the overrun is counted at that edge. The
proof pulses play out what the edge committed in any case (R142). -/
def State.frameWork (s : State) (overrun : Bool) : State :=
  let s := s.modClk fun c => { c with frameOverrun := overrun }
  let s := s.each (List.range 4) State.ppoFrame
  if overrun then s.consentRefresh.channelFrame.faultEdge.mailOut
  else s.railStep.laneWork.bilWork.channelFrame.faultEdge.moduleAges.mailOut.cluEdge

/-- May the frame that starts be stepped (R49)? Asked after its work. -/
def State.mayStep (s : State) : Bool := !s.anyEnergised && !(s.outlets.any fun n => (s.pilLane n).out.pwm)

/-- Step 1: the inputs that arrived are latched, with the sample ticks' results; a lost transfer is over with the edge. -/
def State.latchEdge (s : State) (inp : List PinChange) : State :=
  (((s.arriving inp).foldl State.latchPin s).modSaf fun x => { x with lost := [] }).metLatch.efmLatch

/-- A control-frame edge of a running device, in the order of R53; then the decisions that follow step 7. The raises that wait for
the end of the frame are judged first (R307), and the fence is closed before anything of the edge is stamped: an event stamped at the
edge is of the new epoch (R57, log 58). `ov` names the ticks that start at this edge and will not end their work by their next edge,
where they are counted (R54, log 8). -/
def State.edgeRun (s : State) (inp : List PinChange) (ov : Overruns) : State :=
  let s := ((s.judgeDue.fenceClose.timeStep).pairUse).when s.clk.frameOverrun fun s => s.overran F.TCK_OVR_FRAME
  let s := s.latchEdge inp
  let t := s.rd F.TCK_TIME_MS
  let launch := s.launchDue t
  let second := decide (t % 1000 = 0)
  let tariff := s.tariffDue
  let s := ((s.strobeStep launch).applyEpoch).stageEdge
  let s := if launch then s.launch.sbuLaunch else s
  let s := if second then
      let s := s.when s.clk.secondMerged fun s => s.overran F.TCK_OVR_LEDGER
      (((s.metSecond.bilSecond ov.second).scrub).saveStart false).jlSecond.sbuSecond
    else s
  let s := (s.modBil fun b => { b with frameRate := s.rd F.BIL_NOW_RATE }).tariffStep tariff
  let s := s.frameWork ov.frame
  let s := (s.stepDecide s.mayStep).confirmEdge.updEdge
  if s.nfc.restart then s.warmStart else s

/-- An edge, once the running frame's ticks have ended; while the core die has no frames, the real-time clock alone counts the
millisecond. -/
def State.edge (s : State) (inp : List PinChange) (ov : Overruns) : State :=
  if !s.framesRun then inp.foldl State.latchPin s.wallTick
  else if s.edgeDue then s.edgeRun inp ov
  else s

/-- CONTROL_FRAME_EDGE (R53). -/
def execControlFrameEdge (inp : List PinChange) (ov : Overruns) (s : State) : Host.Outcome State Fault Refusal := .next (s.edge inp ov)

/-- LAUNCH_EDGE (R52): the coming edge, when an allocation tick starts on it. -/
def execLaunchEdge (inp : List PinChange) (ov : Overruns) (s : State) : Host.Outcome State Fault Refusal :=
  .next <| if s.framesRun && s.launchDue s.nextMs then s.edge inp ov else s

/-- LEDGER_SECOND_EDGE (R159): the coming edge, when it is a whole second of site time. -/
def execLedgerSecondEdge (inp : List PinChange) (ov : Overruns) (s : State) : Host.Outcome State Fault Refusal :=
  .next <| if s.framesRun && s.nextMs % 1000 = 0 then s.edge inp ov else s

/-- TARIFF_INTERVAL_EDGE (R150): the coming edge, when the tariff interval has ended by then. -/
def execTariffIntervalEdge (inp : List PinChange) (ov : Overruns) (s : State) : Host.Outcome State Fault Refusal :=
  .next <| if s.framesRun && s.wallTick.tariffDue then s.edge inp ov else s

/-- PERIOD_CHANGE_EDGE (R51): the coming edge, when a committed period takes effect at it. -/
def execPeriodChangeEdge (inp : List PinChange) (ov : Overruns) (s : State) : Host.Outcome State Fault Refusal :=
  .next <| if s.framesRun && s.periodDue s.nextMs then s.edge inp ov else s

end Sys2Proof.Machine
end

