-- ==== Sys2Proof/Machine/Port.lean ====
section
/-!
DEFINITION. The commands of the register bus and of the host port (spec/04, R352, R353): writes and reads of the service cluster,
strobe and counter commands, host transactions with the write gate of R65 and R371.
-/

namespace Sys2Proof.Machine

open Sys2Proof

/-- REGISTER_WRITE (R5). -/
def execRegisterWrite (addr val : Word) (s : State) : Host.Outcome State Fault Refusal := .next (s.regWrite addr.toNat val)

/-- BUFFERED_WRITE (R67). -/
def execBufferedWrite (addr val : Word) (s : State) : Host.Outcome State Fault Refusal := .next (s.regWrite addr.toNat val)

/-- WCTL_WRITE (R68). -/
def execWctlWrite (blk : Fin 19) (val : Word) (s : State) : Host.Outcome State Fault Refusal := .next (s.regWrite (wctlAddr blk.val) val)

/-- CRITICAL_WRITE (R76). -/
def execCriticalWrite (addr val : Word) (s : State) : Host.Outcome State Fault Refusal := .next (s.regWrite addr.toNat val)

/-- COMPLEMENT_WRITE (R76). -/
def execComplementWrite (addr val : Word) (s : State) : Host.Outcome State Fault Refusal := .next (s.regWrite addr.toNat val)

/-- STATUS_CLEAR_WRITE (R73). -/
def execStatusClearWrite (addr val : Word) (s : State) : Host.Outcome State Fault Refusal := .next (s.regWrite addr.toNat val)

/-- WIDE_REGISTER_READ (R75). -/
def execWideRegisterRead (addr : Word) (s : State) : Host.Outcome State Fault Refusal :=
  .next <|
    let (w, s) := s.busRead addr.toNat
    s.modBus fun b => { b with readData := [w] }

/-- STROBE_GO (R69). -/
def execStrobeGo (groups : BitVec 8) (s : State) : Host.Outcome State Fault Refusal := .next (s.strobeGo groups.toNat)

/-- DISCARD_DROP (R69). -/
def execDiscardDrop (groups : BitVec 8) (s : State) : Host.Outcome State Fault Refusal := .next (s.discard groups.toNat)

/-- STROBE_ARM (R70). -/
def execStrobeArm (g : Fin 8) (s : State) : Host.Outcome State Fault Refusal := .next (s.strobeArm g.val)

/-- STROBE_CANCEL (R70). -/
def execStrobeCancel (g : Fin 8) (s : State) : Host.Outcome State Fault Refusal := .next (s.strobeCancel g.val)

/-- STALE_COUNTER_CLEAR (SYS_STALE.CLR). -/
def execStaleCounterClear (s : State) : Host.Outcome State Fault Refusal := .next ((s.wr F.SYS_STALE_COUNT 0).wr F.SYS_STALE_BLOCK 0)

/-- WDENY_CLEAR (SYS_WDENY.CLR). -/
def execWdenyClear (s : State) : Host.Outcome State Fault Refusal := .next (s.wr F.SYS_WDENY_COUNT 0)

/-! ## The host port (R352, R353) -/

/-- Is a host write to the address denied (R65, R371)? A write to a location no register occupies is ignored and counted nowhere
(R64, log entry 11). -/
def State.hostDenied (s : State) (a : Nat) : Bool :=
  let b := blockOf a
  b < 19 && (regAt (a / 4 * 4)).isSome && (b = 11 || !s.rdBit F.SYS_HOSTWR_OPEN b)

/-- The number nibbles spell, most significant first. -/
def nibbleNat (ns : List (BitVec 4)) : Nat := ns.foldl (fun v n => 16 * v + n.toNat) 0

/-- CRC-8 of R322 over nibbles, most significant bit first. -/
def nibbleCrc (ns : List (BitVec 4)) : Nat := crc8Bits (nibbleNat ns) (4 * ns.length)

/-- Eight nibbles of a word, most significant first. -/
def wordNibbles (w : Word) : List (BitVec 4) := (List.range 8).map fun i => BitVec.ofNat 4 (w.toNat / 16 ^ (7 - i))

/-- The words of a host write in order, each gated by itself; answers how many were denied. -/
def State.hostWrites (s : State) (a : Nat) : List Word → Nat × State
  | [] => (0, s)
  | w :: ws =>
    if s.hostDenied a then
      let (k, t) := (s.count F.SYS_WDENY_COUNT 1).hostWrites ((a + 4) % 2 ^ 32) ws
      (k + 1, t)
    else (s.regWrite a w).hostWrites ((a + 4) % 2 ^ 32) ws

/-- The words of a host read in order. -/
def State.hostReads (s : State) (a : Nat) : Nat → List Word × State
  | 0 => ([], s)
  | k + 1 =>
    let (w, s) := s.busRead a
    let (ws, s) := s.hostReads ((a + 4) % 2 ^ 32) k
    (w :: ws, s)

/-- The host port's reply. -/
def State.hostAnswer (s : State) (bs : List Byte) : State := s.modBus fun b => { b with hostReply := bs }

/-- A transaction cut short (R353). -/
def State.hostCut (s : State) : State := (s.count F.LNK_HP_ST_CUT 1).hostAnswer []

/-- A host write that was framed whole. -/
def State.hostWrite (s : State) (ns : List (BitVec 4)) (len : Nat) : State :=
  let body := ns.take (10 + 8 * len)
  let a := nibbleNat ((ns.drop 2).take 8) / 4 * 4
  let ws := (List.range len).map fun i => BitVec.ofNat 32 (nibbleNat ((ns.drop (10 + 8 * i)).take 8))
  if nibbleNat ((ns.drop (10 + 8 * len)).take 2) = nibbleCrc body then
    let (k, s) := s.hostWrites a ws
    s.hostAnswer [if k = 0 then 0 else 2]
  else (s.count F.LNK_HP_ST_CRCERR 1).hostAnswer [1]

/-- A host read that was framed whole: the words and the CRC-8. -/
def State.hostRead (s : State) (ns : List (BitVec 4)) (len : Nat) : State :=
  let (ws, s) := s.hostReads (nibbleNat ((ns.drop 2).take 8) / 4 * 4) len
  s.hostAnswer ((ws.flatMap fun w => beBytes 4 w.toNat) ++ [BitVec.ofNat 8 (nibbleCrc (ns.take 10 ++ ws.flatMap wordNibbles))])

/-- HOST_TRANSACTION (R352, R353): a write of LEN words takes 15 + 8 × LEN cycles, a read 20 + 8 × LEN. -/
def execHostTransaction (t : HostTxn) (s : State) : Host.Outcome State Fault Refusal :=
  .next <|
    if t.sent.length < 2 || t.clocks < 2 then s.hostCut
    else
      let cmd := nibbleNat (t.sent.take 2)
      let len := cmd % 64 + 1
      match cmd / 64 with
      | 1 => if t.clocks < 15 + 8 * len || t.sent.length < 12 + 8 * len then s.hostCut else s.hostWrite t.sent len
      | 0 => if t.clocks < 20 + 8 * len || t.sent.length < 10 then s.hostCut else s.hostRead t.sent len
      | _ => s.hostAnswer [3]

end Sys2Proof.Machine
end

