-- ==== Sys2Proof/Machine/Dispatch.lean ====
section
/-!
DEFINITION. One arm per command: the direct call of its meaning, or a refusal by name.
-/

namespace Sys2Proof.Machine

open Sys2Proof

def exec (i : Instr) (s : State) : Host.Outcome State Fault Refusal :=
  match i with
  | .sampleTick xs ej overrun => Sys2Proof.Machine.execSampleTick xs ej overrun s
  | .controlFrameEdge inp ov => Sys2Proof.Machine.execControlFrameEdge inp ov s
  | .launchEdge inp ov => Sys2Proof.Machine.execLaunchEdge inp ov s
  | .ledgerSecondEdge inp ov => Sys2Proof.Machine.execLedgerSecondEdge inp ov s
  | .tariffIntervalEdge inp ov => Sys2Proof.Machine.execTariffIntervalEdge inp ov s
  | .periodChangeEdge inp ov => Sys2Proof.Machine.execPeriodChangeEdge inp ov s
  | .syncResult offset => Sys2Proof.Machine.execSyncResult offset s
  | .syncResultTimeout => Sys2Proof.Machine.execSyncResultTimeout s
  | .holdoverExpiry => Sys2Proof.Machine.execHoldoverExpiry s
  | .registerWrite addr val => Sys2Proof.Machine.execRegisterWrite addr val s
  | .bufferedWrite addr val => Sys2Proof.Machine.execBufferedWrite addr val s
  | .wctlWrite blk val => Sys2Proof.Machine.execWctlWrite blk val s
  | .criticalWrite addr val => Sys2Proof.Machine.execCriticalWrite addr val s
  | .complementWrite addr val => Sys2Proof.Machine.execComplementWrite addr val s
  | .statusClearWrite addr val => Sys2Proof.Machine.execStatusClearWrite addr val s
  | .hostTransaction t => Sys2Proof.Machine.execHostTransaction t s
  | .strobeGo groups => Sys2Proof.Machine.execStrobeGo groups s
  | .discardDrop groups => Sys2Proof.Machine.execDiscardDrop groups s
  | .strobeArm g => Sys2Proof.Machine.execStrobeArm g s
  | .strobeCancel g => Sys2Proof.Machine.execStrobeCancel g s
  | .staleCounterClear => Sys2Proof.Machine.execStaleCounterClear s
  | .wdenyClear => Sys2Proof.Machine.execWdenyClear s
  | .fenceGo => Sys2Proof.Machine.execFenceGo s
  | .overrunClear => Sys2Proof.Machine.execOverrunClear s
  | .coldStart => Sys2Proof.Machine.execColdStart s
  | .powerGood entropy => Sys2Proof.Machine.execPowerGood entropy s
  | .entropyRetry entropy => Sys2Proof.Machine.execEntropyRetry entropy s
  | .bootMeasurementDone active rucksack => Sys2Proof.Machine.execBootMeasurementDone active rucksack s
  | .packingListApplied primary secondary staged readBack => Sys2Proof.Machine.execPackingListApplied primary secondary staged readBack s
  | .rollCallDone => Sys2Proof.Machine.execRollCallDone s
  | .moduleRollCallTimeout m => Sys2Proof.Machine.execModuleRollCallTimeout m s
  | .selfAdaptDone => Sys2Proof.Machine.execSelfAdaptDone s
  | .selfAdaptTimeLimit => Sys2Proof.Machine.execSelfAdaptTimeLimit s
  | .zoneConfirmEnd => Sys2Proof.Machine.execZoneConfirmEnd s
  | .guardWalkPairDone k => Sys2Proof.Machine.execGuardWalkPairDone k s
  | .laneAdaptGo => Sys2Proof.Machine.execLaneAdaptGo s
  | .laneAdaptDone n => Sys2Proof.Machine.execLaneAdaptDone n s
  | .fieldSupplyLoss => Sys2Proof.Machine.execFieldSupplyLoss s
  | .thermosToVbak => Sys2Proof.Machine.execThermosToVbak s
  | .thermosToIo33 => Sys2Proof.Machine.execThermosToIo33 s
  | .thermosSupplyLoss => Sys2Proof.Machine.execThermosSupplyLoss s
  | .thermosSupplyReturn => Sys2Proof.Machine.execThermosSupplyReturn s
  | .internalLinkTransfer link crcGood => Sys2Proof.Machine.execInternalLinkTransfer link crcGood s
  | .headProbe n serial => Sys2Proof.Machine.execHeadProbe n serial s
  | .headRollCallDone n ident answers => Sys2Proof.Machine.execHeadRollCallDone n ident answers s
  | .headSensorRead n reading => Sys2Proof.Machine.execHeadSensorRead n reading s
  | .streamLost n => Sys2Proof.Machine.execStreamLost n s
  | .sensorBusScan reads => Sys2Proof.Machine.execSensorBusScan reads s
  | .sensorBusStuck => Sys2Proof.Machine.execSensorBusStuck s
  | .sensorBusFault m => Sys2Proof.Machine.execSensorBusFault m s
  | .calSealSet => Sys2Proof.Machine.execCalSealSet s
  | .strcntClear n => Sys2Proof.Machine.execStrcntClear n s
  | .qcntClear n => Sys2Proof.Machine.execQcntClear n s
  | .captureArm => Sys2Proof.Machine.execCaptureArm s
  | .captureDisarm => Sys2Proof.Machine.execCaptureDisarm s
  | .captureRelease => Sys2Proof.Machine.execCaptureRelease s
  | .captureSwtrig => Sys2Proof.Machine.execCaptureSwtrig s
  | .captureDone => Sys2Proof.Machine.execCaptureDone s
  | .captureDataRead => Sys2Proof.Machine.execCaptureDataRead s
  | .captureOvrClear => Sys2Proof.Machine.execCaptureOvrClear s
  | .proofPulse k => Sys2Proof.Machine.execProofPulse k s
  | .proofPulseEnd k => Sys2Proof.Machine.execProofPulseEnd k s
  | .hamperSaveDone => Sys2Proof.Machine.execHamperSaveDone s
  | .powerFailWarning => Sys2Proof.Machine.execPowerFailWarning s
  | .hamperFinalSaveDone us => Sys2Proof.Machine.execHamperFinalSaveDone us s
  | .newRegisterEpoch => Sys2Proof.Machine.execNewRegisterEpoch s
  | .billingRebuild => Sys2Proof.Machine.execBillingRebuild s
  | .periodCloseCommand => Sys2Proof.Machine.execPeriodCloseCommand s
  | .periodClose => Sys2Proof.Machine.execPeriodClose s
  | .closingFenceTimeout => Sys2Proof.Machine.execClosingFenceTimeout s
  | .wallTimeSet sec ms => Sys2Proof.Machine.execWallTimeSet sec ms s
  | .sessionSignDone n => Sys2Proof.Machine.execSessionSignDone n s
  | .ledgerLostClear => Sys2Proof.Machine.execLedgerLostClear s
  | .tamperSample pins => Sys2Proof.Machine.execTamperSample pins s
  | .journalDataRead => Sys2Proof.Machine.execJournalDataRead s
  | .pilotPeriodStart n high low => Sys2Proof.Machine.execPilotPeriodStart n high low s
  | .pilotStateDebounced n => Sys2Proof.Machine.execPilotStateDebounced n s
  | .diodeFault n => Sys2Proof.Machine.execDiodeFault n s
  | .proximityDebounced n => Sys2Proof.Machine.execProximityDebounced n s
  | .proximityOpenDecision n => Sys2Proof.Machine.execProximityOpenDecision n s
  | .stepTimeout n => Sys2Proof.Machine.execStepTimeout n s
  | .suspendStopTimeout n => Sys2Proof.Machine.execSuspendStopTimeout n s
  | .slacTimeout n failed => Sys2Proof.Machine.execSlacTimeout n failed s
  | .slacRetryResume n => Sys2Proof.Machine.execSlacRetryResume n s
  | .faultedHoldEnd n => Sys2Proof.Machine.execFaultedHoldEnd n s
  | .idleBTimeout n => Sys2Proof.Machine.execIdleBTimeout n s
  | .cmSlacParmReq l mac run => Sys2Proof.Machine.execCmSlacParmReq l mac run s
  | .cmStartAttenCharInd l mac run sounds => Sys2Proof.Machine.execCmStartAttenCharInd l mac run sounds s
  | .cmMnbcSoundInd mac run atten => Sys2Proof.Machine.execCmMnbcSoundInd mac run atten s
  | .cmAttenCharRsp l mac run => Sys2Proof.Machine.execCmAttenCharRsp l mac run s
  | .cmValidateReq l mac toggles => Sys2Proof.Machine.execCmValidateReq l mac toggles s
  | .cmSlacMatchReq l mac run => Sys2Proof.Machine.execCmSlacMatchReq l mac run s
  | .sdpRequest l tls => Sys2Proof.Machine.execSdpRequest l tls s
  | .supportedAppProtocol l offers => Sys2Proof.Machine.execSupportedAppProtocol l offers s
  | .sessionSetup l => Sys2Proof.Machine.execSessionSetup l s
  | .serviceDiscovery l => Sys2Proof.Machine.execServiceDiscovery l s
  | .serviceDetail l certService => Sys2Proof.Machine.execServiceDetail l certService s
  | .servicePaymentSelection l svc contract => Sys2Proof.Machine.execServicePaymentSelection l svc contract s
  | .serviceSelection l svc => Sys2Proof.Machine.execServiceSelection l svc s
  | .paymentDetails l => Sys2Proof.Machine.execPaymentDetails l s
  | .contractAuthentication l => Sys2Proof.Machine.execContractAuthentication l s
  | .authorizationSetup l => Sys2Proof.Machine.execAuthorizationSetup l s
  | .authorization l contract => Sys2Proof.Machine.execAuthorization l contract s
  | .chargeParameterDiscovery l ev => Sys2Proof.Machine.execChargeParameterDiscovery l ev s
  | .acChargeParameterDiscovery l ev => Sys2Proof.Machine.execAcChargeParameterDiscovery l ev s
  | .dcChargeParameterDiscovery l ev => Sys2Proof.Machine.execDcChargeParameterDiscovery l ev s
  | .scheduleExchange l dynamic ev => Sys2Proof.Machine.execScheduleExchange l dynamic ev s
  | .cableCheck l => Sys2Proof.Machine.execCableCheck l s
  | .dcCableCheck l => Sys2Proof.Machine.execDcCableCheck l s
  | .preCharge l ev => Sys2Proof.Machine.execPreCharge l ev s
  | .dcPreCharge l ev => Sys2Proof.Machine.execDcPreCharge l ev s
  | .powerDelivery l start => Sys2Proof.Machine.execPowerDelivery l start s
  | .currentDemand l ev => Sys2Proof.Machine.execCurrentDemand l ev s
  | .chargingStatus l => Sys2Proof.Machine.execChargingStatus l s
  | .acChargeLoop l ev => Sys2Proof.Machine.execAcChargeLoop l ev s
  | .dcChargeLoop l ev => Sys2Proof.Machine.execDcChargeLoop l ev s
  | .meteringReceipt l => Sys2Proof.Machine.execMeteringReceipt l s
  | .meteringConfirmation l => Sys2Proof.Machine.execMeteringConfirmation l s
  | .weldingDetection l ended => Sys2Proof.Machine.execWeldingDetection l ended s
  | .dcWeldingDetection l ended => Sys2Proof.Machine.execDcWeldingDetection l ended s
  | .certificateInstallation l => Sys2Proof.Machine.execCertificateInstallation l s
  | .certificateUpdate l => Sys2Proof.Machine.execCertificateUpdate l s
  | .sessionStop l => Sys2Proof.Machine.execSessionStop l s
  | .renegotiation l => Sys2Proof.Machine.execRenegotiation l s
  | .remoteStart n ev => Sys2Proof.Machine.execRemoteStart n ev s
  | .authDecision n accept localList token ev => Sys2Proof.Machine.execAuthDecision n accept localList token ev s
  | .remoteStop n => Sys2Proof.Machine.execRemoteStop n s
  | .authOk n => Sys2Proof.Machine.execAuthOk n s
  | .authNo n => Sys2Proof.Machine.execAuthNo n s
  | .firmwareStop n => Sys2Proof.Machine.execFirmwareStop n s
  | .cardHoldExpiry k => Sys2Proof.Machine.execCardHoldExpiry k s
  | .xcntClear n c => Sys2Proof.Machine.execXcntClear n c s
  | .injectionChip => Sys2Proof.Machine.execInjectionChip s
  | .efWindowUpdate => Sys2Proof.Machine.execEfWindowUpdate s
  | .cableCheckPhaseEnd n => Sys2Proof.Machine.execCableCheckPhaseEnd n s
  | .injectionStepHalfEnd n => Sys2Proof.Machine.execInjectionStepHalfEnd n s
  | .rcdTestOnEnd n => Sys2Proof.Machine.execRcdTestOnEnd n s
  | .rcdTestOffEnd n => Sys2Proof.Machine.execRcdTestOffEnd n s
  | .headcountSend => Sys2Proof.Machine.execHeadcountSend s
  | .headcountReceived eth frame => Sys2Proof.Machine.execHeadcountReceived eth frame s
  | .allocationCutoff => Sys2Proof.Machine.execAllocationCutoff s
  | .allocationComputed us => Sys2Proof.Machine.execAllocationComputed us s
  | .bookingRelease b => Sys2Proof.Machine.execBookingRelease b s
  | .schedClear => Sys2Proof.Machine.execSchedClear s
  | .pullInEnd n => Sys2Proof.Machine.execPullInEnd n s
  | .lockMoveEnd n cur => Sys2Proof.Machine.execLockMoveEnd n cur s
  | .lockRetry n => Sys2Proof.Machine.execLockRetry n s
  | .channelTrip o => Sys2Proof.Machine.execChannelTrip o s
  | .retryPauseEnd ch => Sys2Proof.Machine.execRetryPauseEnd ch s
  | .tripCountReset ch => Sys2Proof.Machine.execTripCountReset ch s
  | .releaseCcLatch n => Sys2Proof.Machine.execReleaseCcLatch n s
  | .releaseLkLatch n => Sys2Proof.Machine.execReleaseLkLatch n s
  | .releaseGenLatch k => Sys2Proof.Machine.execReleaseGenLatch k s
  | .genChannelOn q => Sys2Proof.Machine.execGenChannelOn q s
  | .genChannelOff q => Sys2Proof.Machine.execGenChannelOff q s
  | .openLoad ch => Sys2Proof.Machine.execOpenLoad ch s
  | .fieldGroundLoss => Sys2Proof.Machine.execFieldGroundLoss s
  | .reverseAux => Sys2Proof.Machine.execReverseAux s
  | .auxSurge => Sys2Proof.Machine.execAuxSurge s
  | .auxUnderVoltage => Sys2Proof.Machine.execAuxUnderVoltage s
  | .supplyResume c => Sys2Proof.Machine.execSupplyResume c s
  | .clampEvent ch mj => Sys2Proof.Machine.execClampEvent ch mj s
  | .clampBucketDrain => Sys2Proof.Machine.execClampBucketDrain s
  | .thermalShed => Sys2Proof.Machine.execThermalShed s
  | .overTempOff => Sys2Proof.Machine.execOverTempOff s
  | .overTempResume => Sys2Proof.Machine.execOverTempResume s
  | .currentCrosscheck g => Sys2Proof.Machine.execCurrentCrosscheck g s
  | .safeRequest => Sys2Proof.Machine.execSafeRequest s
  | .guardInputChange k a b => Sys2Proof.Machine.execGuardInputChange k a b s
  | .guardDiscrepancy k => Sys2Proof.Machine.execGuardDiscrepancy k s
  | .mirrorDiscrepancy n => Sys2Proof.Machine.execMirrorDiscrepancy n s
  | .weldTest n => Sys2Proof.Machine.execWeldTest n s
  | .soWeldDelayEnd k => Sys2Proof.Machine.execSoWeldDelayEnd k s
  | .soFeedbackTimeout k => Sys2Proof.Machine.execSoFeedbackTimeout k s
  | .safetyPduSend k => Sys2Proof.Machine.execSafetyPduSend k s
  | .safetyPduReceived k pdu => Sys2Proof.Machine.execSafetyPduReceived k pdu s
  | .safetyConnTimeout k => Sys2Proof.Machine.execSafetyConnTimeout k s
  | .linkCauseEnd k => Sys2Proof.Machine.execLinkCauseEnd k s
  | .safetyCmpClear => Sys2Proof.Machine.execSafetyCmpClear s
  | .safetyConnCntClear k => Sys2Proof.Machine.execSafetyConnCntClear k s
  | .faultClear k val => Sys2Proof.Machine.execFaultClear k val s
  | .laneRestore => Sys2Proof.Machine.execLaneRestore s
  | .laneRetire => Sys2Proof.Machine.execLaneRetire s
  | .faultPinRelease => Sys2Proof.Machine.execFaultPinRelease s
  | .faultInputLevel p m => Sys2Proof.Machine.execFaultInputLevel p m s
  | .watchdogKey key => Sys2Proof.Machine.execWatchdogKey key s
  | .watchdogProbe => Sys2Proof.Machine.execWatchdogProbe s
  | .watchdogProbeTimeout => Sys2Proof.Machine.execWatchdogProbeTimeout s
  | .watchdogReset => Sys2Proof.Machine.execWatchdogReset s
  | .encoderEdge k a b => Sys2Proof.Machine.execEncoderEdge k a b s
  | .encoderHome k => Sys2Proof.Machine.execEncoderHome k s
  | .sbCallSend us => Sys2Proof.Machine.execSbCallSend us s
  | .sbCallReceived src data stamp => Sys2Proof.Machine.execSbCallReceived src data stamp s
  | .sbMasterTakeover => Sys2Proof.Machine.execSbMasterTakeover s
  | .sbTrainSend bulk => Sys2Proof.Machine.execSbTrainSend bulk s
  | .sbRelay us => Sys2Proof.Machine.execSbRelay us s
  | .sbFrameReceived hdr mac => Sys2Proof.Machine.execSbFrameReceived hdr mac s
  | .sbTurnPass => Sys2Proof.Machine.execSbTurnPass s
  | .sbJoinTurn => Sys2Proof.Machine.execSbJoinTurn s
  | .sbBulkTurn => Sys2Proof.Machine.execSbBulkTurn s
  | .sbToneMapMsg src band mask mode => Sys2Proof.Machine.execSbToneMapMsg src band mask mode s
  | .sbLinkReport rep => Sys2Proof.Machine.execSbLinkReport rep s
  | .sbRouteMsg rt => Sys2Proof.Machine.execSbRouteMsg rt s
  | .routeTableEffect => Sys2Proof.Machine.execRouteTableEffect s
  | .toneMapRefresh src snrA snrB => Sys2Proof.Machine.execToneMapRefresh src snrA snrB s
  | .neighbourDrop src => Sys2Proof.Machine.execNeighbourDrop src s
  | .sbFinjClear => Sys2Proof.Machine.execSbFinjClear s
  | .ethLinkChange p up gigabit => Sys2Proof.Machine.execEthLinkChange p up gigabit s
  | .ptpSync p src seq rx origin => Sys2Proof.Machine.execPtpSync p src seq rx origin s
  | .ptpFollowUp p src seq origin => Sys2Proof.Machine.execPtpFollowUp p src seq origin s
  | .ptpDelayResp p src t3 t4 => Sys2Proof.Machine.execPtpDelayResp p src t3 t4 s
  | .ptpDelayReq p domain seq rx => Sys2Proof.Machine.execPtpDelayReq p domain seq rx s
  | .ptpAnnounce p domain a => Sys2Proof.Machine.execPtpAnnounce p domain a s
  | .ptpSyncSend t => Sys2Proof.Machine.execPtpSyncSend t s
  | .jlFrameReceived k dst bcast mac => Sys2Proof.Machine.execJlFrameReceived k dst bcast mac s
  | .jlAckTimeout k => Sys2Proof.Machine.execJlAckTimeout k s
  | .jlLinkUp k peer reach => Sys2Proof.Machine.execJlLinkUp k peer reach s
  | .jlRoundTrip k rtt here far through => Sys2Proof.Machine.execJlRoundTrip k rtt here far through s
  | .canTimeSend us => Sys2Proof.Machine.execCanTimeSend us s
  | .canStatus p addr data => Sys2Proof.Machine.execCanStatus p addr data s
  | .canIdrsp p addr data => Sys2Proof.Machine.execCanIdrsp p addr data s
  | .canForeignFrame p addr classical => Sys2Proof.Machine.execCanForeignFrame p addr classical s
  | .moduleStatusTimeout m => Sys2Proof.Machine.execModuleStatusTimeout m s
  | .moduleIdreqRetry m => Sys2Proof.Machine.execModuleIdreqRetry m s
  | .canBusOff p => Sys2Proof.Machine.execCanBusOff p s
  | .canBusOffRecovery p => Sys2Proof.Machine.execCanBusOffRecovery p s
  | .hostCntClear => Sys2Proof.Machine.execHostCntClear s
  | .lnkFinjClear => Sys2Proof.Machine.execLnkFinjClear s
  | .keyGen use bind typ slot => Sys2Proof.Machine.execKeyGen use bind typ slot s
  | .keyImport use bind typ slot addr => Sys2Proof.Machine.execKeyImport use bind typ slot addr s
  | .keyErase slot => Sys2Proof.Machine.execKeyErase slot s
  | .keyPub slot => Sys2Proof.Machine.execKeyPub slot s
  | .keyNewbill => Sys2Proof.Machine.execKeyNewbill s
  | .keyReseal => Sys2Proof.Machine.execKeyReseal s
  | .zeroise => Sys2Proof.Machine.execZeroise s
  | .drbgReseed entropy => Sys2Proof.Machine.execDrbgReseed entropy s
  | .updateOpen => Sys2Proof.Machine.execUpdateOpen s
  | .updateBlock msg readBack => Sys2Proof.Machine.execUpdateBlock msg readBack s
  | .updateBlockGo readBack => Sys2Proof.Machine.execUpdateBlockGo readBack s
  | .verifyDone => Sys2Proof.Machine.execVerifyDone s
  | .updateAct => Sys2Proof.Machine.execUpdateAct s
  | .updateCancel => Sys2Proof.Machine.execUpdateCancel s
  | .idleWindow => Sys2Proof.Machine.execIdleWindow s
  | .updateConfirm => Sys2Proof.Machine.execUpdateConfirm s
  | .confirmWindowExpiry => Sys2Proof.Machine.execConfirmWindowExpiry s
  | .updateCntClear => Sys2Proof.Machine.execUpdateCntClear s
  | .dmaStart c => Sys2Proof.Machine.execDmaStart c s
  | .dmaAbort c => Sys2Proof.Machine.execDmaAbort c s
  | .dmaBurstSlot => Sys2Proof.Machine.execDmaBurstSlot s
  | .readerPing k reading inRange => Sys2Proof.Machine.execReaderPing k reading inRange s
  | .readerRebase k => Sys2Proof.Machine.execReaderRebase k s
  | .readerFoff k => Sys2Proof.Machine.execReaderFoff k s
  | .readerPoll k => Sys2Proof.Machine.execReaderPoll k s
  | .readerPollTimeout k => Sys2Proof.Machine.execReaderPollTimeout k s
  | .cardActivated k typeB dep uid => Sys2Proof.Machine.execCardActivated k typeB dep uid s
  | .readerSessionTimeout k => Sys2Proof.Machine.execReaderSessionTimeout k s
  | .readerCardLoss k => Sys2Proof.Machine.execReaderCardLoss k s
  | .readerCntClear k => Sys2Proof.Machine.execReaderCntClear k s
  | .tagInventory maskLen mask slot => Sys2Proof.Machine.execTagInventory maskLen mask slot s
  | .tagStayQuiet ad => Sys2Proof.Machine.execTagStayQuiet ad s
  | .tagSelect u => Sys2Proof.Machine.execTagSelect u s
  | .tagResetToReady ad => Sys2Proof.Machine.execTagResetToReady ad s
  | .tagGetSystemInfo ad => Sys2Proof.Machine.execTagGetSystemInfo ad s
  | .tagExtGetSystemInfo ad => Sys2Proof.Machine.execTagExtGetSystemInfo ad s
  | .tagExtReadSingle ad blk => Sys2Proof.Machine.execTagExtReadSingle ad blk s
  | .tagExtReadMultiple ad blk cnt => Sys2Proof.Machine.execTagExtReadMultiple ad blk cnt s
  | .tagExtWriteSingle ad blk data mv => Sys2Proof.Machine.execTagExtWriteSingle ad blk data mv s
  | .tagCommit ad len crc mv => Sys2Proof.Machine.execTagCommit ad len crc mv s
  | .tagFieldChange present => Sys2Proof.Machine.execTagFieldChange present s
  | .displayOn => Sys2Proof.Machine.execDisplayOn s
  | .displayOff => Sys2Proof.Machine.execDisplayOff s
  | .displayRailStep => Sys2Proof.Machine.execDisplayRailStep s
  | .displayFrameStart badRefs => Sys2Proof.Machine.execDisplayFrameStart badRefs s
  | .coherenceRequest line wb reqs owns => Sys2Proof.Machine.execCoherenceRequest line wb reqs owns s
  | .memoryScrub errs => Sys2Proof.Machine.execMemoryScrub errs s
  | .memoryEccError wh addr => Sys2Proof.Machine.execMemoryEccError wh addr s
  | .eccCntClear => Sys2Proof.Machine.execEccCntClear s
  | .extensionSliceEnd used => Sys2Proof.Machine.execExtensionSliceEnd used s
  | .sandboxViolation a => Sys2Proof.Machine.execSandboxViolation a s
  | .extensionStop => Sys2Proof.Machine.execExtensionStop s
  | .resetCommand => Sys2Proof.Machine.execResetCommand s
  | .coreSupplyLoss => Sys2Proof.Machine.execCoreSupplyLoss s
  | .fieldSupplyReturn => Sys2Proof.Machine.execFieldSupplyReturn s
  | .keyCommandDone => Sys2Proof.Machine.execKeyCommandDone s
  | .wideRegisterRead addr => Sys2Proof.Machine.execWideRegisterRead addr s
  | .dischargeCommand n on => Sys2Proof.Machine.execDischargeCommand n on s

end Sys2Proof.Machine
end

