-- ==== Sys2Proof/WellFormed.lean ====
section
/-!
DEFINITION. Which commands are well formed: the shape a sender can give an operand at all. The meanings do not rest on it: a
command that is not well formed still has the effect its meaning computes.
-/

namespace Sys2Proof

/-- Word addresses lie at multiples of 4 inside the register map (R62, R63). -/
def wfAddr (a : Word) : Bool := decide (a.toNat % 4 = 0) && decide (a.toNat < 0x150000)

/-- Do the numbers rise strictly from above `lo`? -/
def risingFrom : Option Nat → List Nat → Bool
  | _, [] => true
  | none, x :: xs => risingFrom (some x) xs
  | some l, x :: xs => decide (l < x) && risingFrom (some x) xs

/-- Is a command well formed? One sample per stream and lane in a tick; word-aligned register addresses; a host transaction as
long as the nibbles sent (R352); an identity memory of at most 64 bytes (R88); sensors read in index order (R110); milliseconds
below 1000 (R152); one attenuation per lane (R183); priorities from 1 (R188); CAN FD frames of
at most 64 bytes (R347); card UIDs of 4, 7 or 10 bytes (R401); a mask within its length (R402); tag blocks of 32 bytes (R402);
64-byte lines of the 2 GB of DRAM (R417). -/
def Instr.wf (i : Instr) : Bool :=
  match i with
  | .sampleTick xs ej _ => decide (xs.map SampleIn.stream).Nodup && decide (ej.map DriveIn.lane).Nodup
  | .controlFrameEdge _ _ => true
  | .launchEdge _ _ => true
  | .ledgerSecondEdge _ _ => true
  | .tariffIntervalEdge _ _ => true
  | .periodChangeEdge _ _ => true
  | .syncResult _ => true
  | .syncResultTimeout => true
  | .holdoverExpiry => true
  | .registerWrite addr _ => wfAddr addr
  | .bufferedWrite addr _ => wfAddr addr
  | .wctlWrite _ _ => true
  | .criticalWrite addr _ => wfAddr addr
  | .complementWrite addr _ => wfAddr addr
  | .statusClearWrite addr _ => wfAddr addr
  | .hostTransaction t => decide (t.sent.length ≤ t.clocks)
  | .strobeGo _ => true
  | .discardDrop _ => true
  | .strobeArm _ => true
  | .strobeCancel _ => true
  | .staleCounterClear => true
  | .wdenyClear => true
  | .fenceGo => true
  | .overrunClear => true
  | .coldStart => true
  | .powerGood _ => true
  | .entropyRetry _ => true
  | .bootMeasurementDone _ _ => true
  | .packingListApplied _ _ _ _ => true
  | .rollCallDone => true
  | .moduleRollCallTimeout _ => true
  | .selfAdaptDone => true
  | .selfAdaptTimeLimit => true
  | .zoneConfirmEnd => true
  | .guardWalkPairDone _ => true
  | .laneAdaptGo => true
  | .laneAdaptDone _ => true
  | .fieldSupplyLoss => true
  | .thermosToVbak => true
  | .thermosToIo33 => true
  | .thermosSupplyLoss => true
  | .thermosSupplyReturn => true
  | .internalLinkTransfer _ _ => true
  | .headProbe _ _ => true
  | .headRollCallDone _ ident _ => decide (ident.length ≤ 64)
  | .headSensorRead _ _ => true
  | .streamLost _ => true
  | .sensorBusScan reads => risingFrom none (reads.map fun r => r.sensor.val)
  | .sensorBusStuck => true
  | .sensorBusFault _ => true
  | .calSealSet => true
  | .strcntClear _ => true
  | .qcntClear _ => true
  | .captureArm => true
  | .captureDisarm => true
  | .captureRelease => true
  | .captureSwtrig => true
  | .captureDone => true
  | .captureDataRead => true
  | .captureOvrClear => true
  | .proofPulse _ => true
  | .proofPulseEnd _ => true
  | .hamperSaveDone => true
  | .powerFailWarning => true
  | .hamperFinalSaveDone _ => true
  | .newRegisterEpoch => true
  | .billingRebuild => true
  | .periodCloseCommand => true
  | .periodClose => true
  | .closingFenceTimeout => true
  | .wallTimeSet _ ms => decide (ms.toNat ≤ 999)
  | .sessionSignDone _ => true
  | .ledgerLostClear => true
  | .tamperSample _ => true
  | .journalDataRead => true
  | .pilotPeriodStart _ _ _ => true
  | .pilotStateDebounced _ => true
  | .diodeFault _ => true
  | .proximityDebounced _ => true
  | .proximityOpenDecision _ => true
  | .stepTimeout _ => true
  | .suspendStopTimeout _ => true
  | .slacTimeout _ _ => true
  | .slacRetryResume _ => true
  | .faultedHoldEnd _ => true
  | .idleBTimeout _ => true
  | .cmSlacParmReq _ _ _ => true
  | .cmStartAttenCharInd _ _ _ _ => true
  | .cmMnbcSoundInd _ _ atten => decide (atten.map LaneAtten.lane).Nodup
  | .cmAttenCharRsp _ _ _ => true
  | .cmValidateReq _ _ _ => true
  | .cmSlacMatchReq _ _ _ => true
  | .sdpRequest _ _ => true
  | .supportedAppProtocol _ offers => offers.all fun o => decide (1 ≤ o.priority)
  | .sessionSetup _ => true
  | .serviceDiscovery _ => true
  | .serviceDetail _ _ => true
  | .servicePaymentSelection _ _ _ => true
  | .serviceSelection _ _ => true
  | .paymentDetails _ => true
  | .contractAuthentication _ => true
  | .authorizationSetup _ => true
  | .authorization _ _ => true
  | .chargeParameterDiscovery _ _ => true
  | .acChargeParameterDiscovery _ _ => true
  | .dcChargeParameterDiscovery _ _ => true
  | .scheduleExchange _ _ _ => true
  | .cableCheck _ => true
  | .dcCableCheck _ => true
  | .preCharge _ _ => true
  | .dcPreCharge _ _ => true
  | .powerDelivery _ _ => true
  | .currentDemand _ _ => true
  | .chargingStatus _ => true
  | .acChargeLoop _ _ => true
  | .dcChargeLoop _ _ => true
  | .meteringReceipt _ => true
  | .meteringConfirmation _ => true
  | .weldingDetection _ _ => true
  | .dcWeldingDetection _ _ => true
  | .certificateInstallation _ => true
  | .certificateUpdate _ => true
  | .sessionStop _ => true
  | .renegotiation _ => true
  | .remoteStart _ _ => true
  | .authDecision _ _ _ _ _ => true
  | .remoteStop _ => true
  | .authOk _ => true
  | .authNo _ => true
  | .firmwareStop _ => true
  | .cardHoldExpiry _ => true
  | .xcntClear _ _ => true
  | .injectionChip => true
  | .efWindowUpdate => true
  | .cableCheckPhaseEnd _ => true
  | .injectionStepHalfEnd _ => true
  | .rcdTestOnEnd _ => true
  | .rcdTestOffEnd _ => true
  | .headcountSend => true
  | .headcountReceived _ _ => true
  | .allocationCutoff => true
  | .allocationComputed _ => true
  | .bookingRelease _ => true
  | .schedClear => true
  | .pullInEnd _ => true
  | .lockMoveEnd _ _ => true
  | .lockRetry _ => true
  | .channelTrip _ => true
  | .retryPauseEnd _ => true
  | .tripCountReset _ => true
  | .releaseCcLatch _ => true
  | .releaseLkLatch _ => true
  | .releaseGenLatch _ => true
  | .genChannelOn _ => true
  | .genChannelOff _ => true
  | .openLoad _ => true
  | .fieldGroundLoss => true
  | .reverseAux => true
  | .auxSurge => true
  | .auxUnderVoltage => true
  | .supplyResume _ => true
  | .clampEvent _ _ => true
  | .clampBucketDrain => true
  | .thermalShed => true
  | .overTempOff => true
  | .overTempResume => true
  | .currentCrosscheck _ => true
  | .safeRequest => true
  | .guardInputChange _ _ _ => true
  | .guardDiscrepancy _ => true
  | .mirrorDiscrepancy _ => true
  | .weldTest _ => true
  | .soWeldDelayEnd _ => true
  | .soFeedbackTimeout _ => true
  | .safetyPduSend _ => true
  | .safetyPduReceived _ _ => true
  | .safetyConnTimeout _ => true
  | .linkCauseEnd _ => true
  | .safetyCmpClear => true
  | .safetyConnCntClear _ => true
  | .faultClear _ _ => true
  | .laneRestore => true
  | .laneRetire => true
  | .faultPinRelease => true
  | .faultInputLevel _ _ => true
  | .watchdogKey _ => true
  | .watchdogProbe => true
  | .watchdogProbeTimeout => true
  | .watchdogReset => true
  | .encoderEdge _ _ _ => true
  | .encoderHome _ => true
  | .sbCallSend _ => true
  | .sbCallReceived _ _ _ => true
  | .sbMasterTakeover => true
  | .sbTrainSend _ => true
  | .sbRelay _ => true
  | .sbFrameReceived _ _ => true
  | .sbTurnPass => true
  | .sbJoinTurn => true
  | .sbBulkTurn => true
  | .sbToneMapMsg _ _ _ _ => true
  | .sbLinkReport _ => true
  | .sbRouteMsg _ => true
  | .routeTableEffect => true
  | .toneMapRefresh _ _ _ => true
  | .neighbourDrop _ => true
  | .sbFinjClear => true
  | .ethLinkChange _ _ _ => true
  | .ptpSync _ _ _ _ _ => true
  | .ptpFollowUp _ _ _ _ => true
  | .ptpDelayResp _ _ _ _ => true
  | .ptpDelayReq _ _ _ _ => true
  | .ptpAnnounce _ _ _ => true
  | .ptpSyncSend _ => true
  | .jlFrameReceived _ _ _ _ => true
  | .jlAckTimeout _ => true
  | .jlLinkUp _ _ _ => true
  | .jlRoundTrip _ _ _ _ _ => true
  | .canTimeSend _ => true
  | .canStatus _ _ data => decide (data.length ≤ 64)
  | .canIdrsp _ _ data => decide (data.length ≤ 64)
  | .canForeignFrame _ _ _ => true
  | .moduleStatusTimeout _ => true
  | .moduleIdreqRetry _ => true
  | .canBusOff _ => true
  | .canBusOffRecovery _ => true
  | .hostCntClear => true
  | .lnkFinjClear => true
  | .keyGen _ _ _ _ => true
  | .keyImport _ _ _ _ _ => true
  | .keyErase _ => true
  | .keyPub _ => true
  | .keyNewbill => true
  | .keyReseal => true
  | .zeroise => true
  | .drbgReseed _ => true
  | .updateOpen => true
  | .updateBlock _ _ => true
  | .updateBlockGo _ => true
  | .verifyDone => true
  | .updateAct => true
  | .updateCancel => true
  | .idleWindow => true
  | .updateConfirm => true
  | .confirmWindowExpiry => true
  | .updateCntClear => true
  | .dmaStart _ => true
  | .dmaAbort _ => true
  | .dmaBurstSlot => true
  | .readerPing _ _ _ => true
  | .readerRebase _ => true
  | .readerFoff _ => true
  | .readerPoll _ => true
  | .readerPollTimeout _ => true
  | .cardActivated _ _ _ uid => decide (uid.length ∈ [4, 7, 10])
  | .readerSessionTimeout _ => true
  | .readerCardLoss _ => true
  | .readerCntClear _ => true
  | .tagInventory len mask _ => decide (mask.toNat < 2 ^ len.val)
  | .tagStayQuiet _ => true
  | .tagSelect _ => true
  | .tagResetToReady _ => true
  | .tagGetSystemInfo _ => true
  | .tagExtGetSystemInfo _ => true
  | .tagExtReadSingle _ _ => true
  | .tagExtReadMultiple _ _ _ => true
  | .tagExtWriteSingle _ _ data _ => decide (data.length = 32)
  | .tagCommit _ _ _ _ => true
  | .tagFieldChange _ => true
  | .displayOn => true
  | .displayOff => true
  | .displayRailStep => true
  | .displayFrameStart _ => true
  | .coherenceRequest line wb _ _ => decide (line < 2 ^ 25) && (match wb with | some bs => decide (bs.length = 64) | none => true)
  | .memoryScrub _ => true
  | .memoryEccError _ _ => true
  | .eccCntClear => true
  | .extensionSliceEnd _ => true
  | .sandboxViolation _ => true
  | .extensionStop => true
  | .resetCommand => true
  | .coreSupplyLoss => true
  | .fieldSupplyReturn => true
  | .keyCommandDone => true
  | .wideRegisterRead addr => wfAddr addr
  | .dischargeCommand _ _ => true

end Sys2Proof
end

