-- ==== Sys2Proof/Safety.lean ====
section
/-!
DEFINITION. The terms statements use: which parts of the state a command leaves alone, the canonical form of the stored lists, and
the well-formedness of what waits.
-/

namespace Sys2Proof.Machine

open Sys2Proof

/-- A part of the state. -/
inductive Part where
  | regs | gold | bus | clk | boot | flt | journal | mem | met | bil | thm | pil | swa | pins | saf | efm | key | alc | lnk | upd | sbu | dma | nfc | dpy | clu | freeCtr | pending
  deriving DecidableEq, Repr

/-- Do two states agree in a part? -/
def SamePart (s t : State) : Part → Prop
  | .regs => t.regs = s.regs
  | .gold => t.gold = s.gold
  | .bus => t.bus = s.bus
  | .clk => t.clk = s.clk
  | .boot => t.boot = s.boot
  | .flt => t.flt = s.flt
  | .journal => t.journal = s.journal
  | .mem => t.mem = s.mem
  | .met => t.met = s.met
  | .bil => t.bil = s.bil
  | .thm => t.thm = s.thm
  | .pil => t.pil = s.pil
  | .swa => t.swa = s.swa
  | .pins => t.pins = s.pins
  | .saf => t.saf = s.saf
  | .efm => t.efm = s.efm
  | .key => t.key = s.key
  | .alc => t.alc = s.alc
  | .lnk => t.lnk = s.lnk
  | .upd => t.upd = s.upd
  | .sbu => t.sbu = s.sbu
  | .dma => t.dma = s.dma
  | .nfc => t.nfc = s.nfc
  | .dpy => t.dpy = s.dpy
  | .clu => t.clu = s.clu
  | .freeCtr => t.freeCtr = s.freeCtr
  | .pending => t.pending = s.pending

/-- `t` differs from `s` at most in the parts listed. -/
def Frame (ps : List Part) (s t : State) : Prop := ∀ p, p ∉ ps → SamePart s t p

/-- Every register word but those at the listed addresses reads in `t` as in `s`. -/
def WordsBut (as : List Nat) (s t : State) : Prop := ∀ a, a ∉ as → t.word a = s.word a

/-- Only the register words at the listed addresses may differ, and nothing else in the state. -/
def RegsBut (as : List Nat) (s t : State) : Prop := Frame [.regs] s t ∧ WordsBut as s t

/-- The stored lists are in their one form: keys strictly rising, no entry equal to what an unlisted key reads as. -/
def State.Canonical (s : State) : Prop :=
  wfFrom resetWord none s.regs = true ∧ wfFrom resetWord none s.gold = true ∧ Memory.wf s.mem = true

/-- Every waiting command is well formed. -/
def State.QueueWf (s : State) : Prop := ∀ c ∈ s.pending, c.wf = true

/-- The address of a word of a register that is neither a shadow, critical, nor a block's write control. -/
def PlainAt (a : Nat) (h : RegHit) : Prop :=
  a % 4 = 0 ∧ regAt a = some h ∧ h.shadow = false ∧ h.d.shadow = 0 ∧ h.d.ofs ≠ 0xFFFC

/-- The address of a word of a critical register, not its shadow. -/
def CriticalAt (a : Nat) (h : RegHit) : Prop :=
  a % 4 = 0 ∧ regAt a = some h ∧ h.shadow = false ∧ h.d.shadow ≠ 0 ∧ h.d.ofs ≠ 0xFFFC

/-- The bits of the word found that have access code `c`. -/
def RegHit.bitsOf (h : RegHit) (c : Acc) : Word := BitVec.ofNat 32 (h.d.mask c h.w)

/-- Has the word found a bit of access code `c`? -/
def RegHit.has (h : RegHit) (c : Acc) : Bool := h.d.mask c h.w ≠ 0

/-- A raise of a source is made: its sticky bit stands in `t`, but where `s` had the same raise in this frame already (R313). -/
def Raised (s t : State) (src cls : Nat) (scope : Option LaneSet) : Prop := s.raisedNow src cls scope = true ∨ t.rd (F.FLT_SRCi_STK src) = 1

/-- Not in a channel window of the DMA engine, whose summaries are recomputed at every write (R391). -/
def OutsideDma (a : Nat) (h : RegHit) : Prop := blockOf a ≠ 3 ∨ h.d.s1 ≠ 0x40

/-- The parts of the state a command may change: an upper bound, which `Obligations` state as frames. -/
def touches : Instr → List Part
  | .newRegisterEpoch .. | .periodCloseCommand .. | .wallTimeSet .. =>
      [.bil]
  | .selfAdaptDone .. =>
      [.boot]
  | .strobeGo .. =>
      [.clk]
  | .faultPinRelease .. | .watchdogProbe .. =>
      [.flt]
  | .drbgReseed .. =>
      [.key]
  | .ptpDelayResp .. | .ptpDelayReq .. | .ptpAnnounce .. | .ptpSyncSend .. =>
      [.lnk]
  | .proofPulseEnd .. =>
      [.met]
  | .readerRebase .. | .readerPoll .. | .tagInventory .. | .tagStayQuiet .. | .tagSelect .. | .tagResetToReady ..
  | .tagGetSystemInfo .. | .tagExtGetSystemInfo .. | .tagExtReadSingle .. | .tagExtReadMultiple .. =>
      [.nfc]
  | .faultedHoldEnd .. | .cardHoldExpiry .. | .dischargeCommand .. =>
      [.pil]
  | .strobeArm .. | .strobeCancel .. | .staleCounterClear .. | .wdenyClear .. | .overrunClear .. | .guardWalkPairDone ..
  | .sensorBusStuck .. | .calSealSet .. | .strcntClear .. | .qcntClear .. | .captureDone .. | .captureOvrClear ..
  | .ledgerLostClear .. | .idleBTimeout .. | .xcntClear .. | .schedClear .. | .pullInEnd .. | .safetyCmpClear ..
  | .safetyConnCntClear .. | .laneRestore .. | .sbFinjClear .. | .ethLinkChange .. | .hostCntClear .. | .lnkFinjClear ..
  | .updateCntClear .. | .readerCntClear .. | .eccCntClear .. =>
      [.regs]
  | .sbRouteMsg .. =>
      [.sbu]
  | .updateAct .. | .updateConfirm .. =>
      [.upd]
  | .injectionStepHalfEnd .. =>
      [.boot, .efm]
  | .coherenceRequest .. =>
      [.mem, .clu]
  | .hamperSaveDone .. | .hamperFinalSaveDone .. =>
      [.regs, .bil]
  | .headSensorRead .. =>
      [.regs, .boot]
  | .discardDrop .. | .captureDataRead .. | .journalDataRead .. =>
      [.regs, .bus]
  | .syncResult .. | .syncResultTimeout .. | .holdoverExpiry .. | .fenceGo .. | .closingFenceTimeout .. =>
      [.regs, .clk]
  | .extensionSliceEnd .. | .extensionStop .. =>
      [.regs, .clu]
  | .dmaStart .. =>
      [.regs, .dma]
  | .displayOn .. | .displayOff .. | .displayRailStep .. =>
      [.regs, .dpy]
  | .encoderHome .. =>
      [.regs, .flt]
  | .canBusOff .. =>
      [.regs, .lnk]
  | .captureArm .. | .captureDisarm .. | .captureRelease .. | .captureSwtrig .. | .proofPulse .. =>
      [.regs, .met]
  | .tagFieldChange .. =>
      [.regs, .nfc]
  | .slacRetryResume .. | .cmSlacParmReq .. | .cmStartAttenCharInd .. | .cmMnbcSoundInd .. | .cmAttenCharRsp ..
  | .cmValidateReq .. | .sdpRequest .. | .sessionSetup .. | .serviceDiscovery .. | .serviceDetail ..
  | .paymentDetails .. | .contractAuthentication .. | .authorizationSetup .. | .authorization .. | .cableCheck ..
  | .dcCableCheck .. | .meteringReceipt .. | .meteringConfirmation .. | .weldingDetection .. | .dcWeldingDetection ..
  | .certificateInstallation .. | .certificateUpdate .. | .remoteStart .. | .authOk .. =>
      [.regs, .pil]
  | .soWeldDelayEnd .. | .linkCauseEnd .. | .laneRetire .. =>
      [.regs, .saf]
  | .sbMasterTakeover .. | .sbTurnPass .. | .sbToneMapMsg .. | .sbLinkReport .. | .routeTableEffect ..
  | .toneMapRefresh .. | .neighbourDrop .. =>
      [.regs, .sbu]
  | .bookingRelease .. | .lockRetry .. | .retryPauseEnd .. | .tripCountReset .. | .releaseCcLatch ..
  | .releaseLkLatch .. | .releaseGenLatch .. | .genChannelOn .. | .genChannelOff .. | .thermalShed .. | .overTempOff ..
  | .overTempResume .. =>
      [.regs, .swa]
  | .thermosToVbak .. | .thermosToIo33 .. | .thermosSupplyLoss .. | .thermosSupplyReturn .. =>
      [.regs, .thm]
  | .updateOpen .. =>
      [.regs, .upd]
  | .fieldSupplyReturn .. =>
      [.clk, .boot, .flt]
  | .powerFailWarning .. =>
      [.regs, .bil, .dpy]
  | .rollCallDone .. | .laneAdaptGo .. | .laneAdaptDone .. =>
      [.regs, .boot, .efm]
  | .periodClose .. =>
      [.regs, .clk, .bil]
  | .ptpSync .. | .ptpFollowUp .. | .jlRoundTrip .. =>
      [.regs, .clk, .lnk]
  | .sbCallReceived .. =>
      [.regs, .clk, .sbu]
  | .keyCommandDone .. =>
      [.regs, .flt, .key]
  | .sensorBusScan .. =>
      [.regs, .flt, .met]
  | .supplyResume .. | .clampBucketDrain .. =>
      [.regs, .flt, .swa]
  | .jlAckTimeout .. | .jlLinkUp .. | .canTimeSend .. =>
      [.regs, .lnk, .freeCtr]
  | .sessionSignDone .. =>
      [.regs, .mem, .bil]
  | .chargeParameterDiscovery .. | .acChargeParameterDiscovery .. | .dcChargeParameterDiscovery ..
  | .scheduleExchange .. | .preCharge .. | .dcPreCharge .. | .currentDemand .. | .chargingStatus .. | .acChargeLoop ..
  | .dcChargeLoop .. =>
      [.regs, .pil, .freeCtr]
  | .cmSlacMatchReq .. =>
      [.regs, .pil, .key]
  | .pilotPeriodStart .. =>
      [.regs, .pil, .pins]
  | .stepTimeout .. | .suspendStopTimeout .. | .slacTimeout .. | .supportedAppProtocol .. | .servicePaymentSelection ..
  | .serviceSelection .. | .powerDelivery .. | .sessionStop .. | .renegotiation .. | .authDecision .. | .remoteStop ..
  | .authNo .. | .firmwareStop .. =>
      [.regs, .pil, .swa]
  | .sbCallSend .. | .sbRelay .. | .sbBulkTurn .. =>
      [.regs, .sbu, .freeCtr]
  | .rcdTestOnEnd .. =>
      [.regs, .swa, .efm]
  | .readerFoff .. | .readerPollTimeout .. | .readerSessionTimeout .. | .readerCardLoss .. =>
      [.regs, .swa, .nfc]
  | .tagExtWriteSingle .. | .tagCommit .. =>
      [.regs, .thm, .nfc]
  | .headcountSend .. =>
      [.regs, .alc, .lnk, .freeCtr]
  | .canForeignFrame .. | .moduleIdreqRetry .. =>
      [.regs, .boot, .lnk, .freeCtr]
  | .idleWindow .. =>
      [.regs, .clk, .bil, .upd]
  | .injectionChip .. =>
      [.regs, .gold, .boot, .efm]
  | .cardActivated .. =>
      [.regs, .pil, .swa, .nfc]
  | .safeRequest .. | .weldTest .. =>
      [.regs, .pil, .swa, .saf]
  | .canBusOffRecovery .. =>
      [.regs, .boot, .saf, .lnk, .freeCtr]
  | .sbTrainSend .. | .sbJoinTurn .. =>
      [.regs, .saf, .alc, .sbu, .freeCtr]
  | .safetyPduSend .. =>
      [.regs, .saf, .lnk, .sbu, .freeCtr]
  | .guardInputChange .. =>
      [.regs, .flt, .pil, .swa, .pins, .saf]
  | .allocationComputed .. =>
      [.regs, .gold, .boot, .alc, .lnk, .freeCtr]
  | .billingRebuild .. =>
      [.regs, .gold, .flt, .mem, .met, .bil]
  | .sensorBusFault .. | .pilotStateDebounced .. | .diodeFault .. | .proximityDebounced .. | .proximityOpenDecision ..
  | .lockMoveEnd .. | .channelTrip .. | .openLoad .. | .fieldGroundLoss .. | .reverseAux .. | .auxSurge ..
  | .auxUnderVoltage .. | .clampEvent .. | .currentCrosscheck .. | .guardDiscrepancy .. | .mirrorDiscrepancy ..
  | .soFeedbackTimeout .. | .safetyConnTimeout .. | .faultClear .. | .faultInputLevel .. | .watchdogKey ..
  | .watchdogProbeTimeout .. | .encoderEdge .. | .updateCancel .. | .memoryScrub .. =>
      [.regs, .flt, .journal, .met, .pil, .swa, .saf]
  | .moduleRollCallTimeout .. | .zoneConfirmEnd .. | .moduleStatusTimeout .. =>
      [.regs, .boot, .flt, .journal, .met, .pil, .swa, .saf]
  | .wideRegisterRead .. =>
      [.regs, .bus, .flt, .journal, .met, .pil, .swa, .saf]
  | .internalLinkTransfer .. =>
      [.regs, .flt, .journal, .met, .bil, .pil, .swa, .saf]
  | .memoryEccError .. | .sandboxViolation .. =>
      [.regs, .flt, .journal, .met, .pil, .swa, .saf, .clu]
  | .efWindowUpdate .. | .cableCheckPhaseEnd .. | .rcdTestOffEnd .. =>
      [.regs, .flt, .journal, .met, .pil, .swa, .saf, .efm]
  | .keyGen .. | .keyImport .. | .keyErase .. | .keyPub .. | .keyNewbill .. | .keyReseal .. | .zeroise .. =>
      [.regs, .flt, .journal, .met, .pil, .swa, .saf, .key]
  | .readerPing .. =>
      [.regs, .flt, .journal, .met, .pil, .swa, .saf, .nfc]
  | .updateBlock .. | .updateBlockGo .. | .verifyDone .. =>
      [.regs, .flt, .journal, .met, .pil, .swa, .saf, .upd]
  | .streamLost .. =>
      [.regs, .gold, .flt, .journal, .met, .pil, .swa, .saf]
  | .selfAdaptTimeLimit .. =>
      [.regs, .boot, .flt, .journal, .met, .pil, .swa, .saf, .efm]
  | .entropyRetry .. =>
      [.regs, .boot, .flt, .journal, .met, .pil, .swa, .saf, .key]
  | .tamperSample .. =>
      [.regs, .flt, .journal, .met, .thm, .pil, .swa, .saf, .key]
  | .displayFrameStart .. =>
      [.regs, .gold, .flt, .journal, .met, .pil, .swa, .saf, .dpy]
  | .allocationCutoff .. =>
      [.regs, .boot, .flt, .journal, .met, .pil, .swa, .saf, .alc, .freeCtr]
  | .canStatus .. | .canIdrsp .. =>
      [.regs, .boot, .flt, .journal, .met, .pil, .swa, .saf, .lnk, .freeCtr]
  | .headcountReceived .. | .safetyPduReceived .. =>
      [.regs, .flt, .journal, .met, .pil, .swa, .saf, .alc, .lnk, .freeCtr]
  | .sampleTick .. =>
      [.regs, .gold, .clk, .flt, .journal, .met, .pil, .swa, .saf, .efm]
  | .powerGood .. =>
      [.regs, .clk, .boot, .flt, .journal, .met, .pil, .swa, .saf, .key, .freeCtr]
  | .jlFrameReceived .. =>
      [.regs, .flt, .journal, .met, .pil, .swa, .saf, .alc, .lnk, .upd, .freeCtr]
  | .sbFrameReceived .. =>
      [.regs, .flt, .journal, .met, .pil, .swa, .saf, .alc, .upd, .sbu, .freeCtr]
  | .headProbe .. | .headRollCallDone .. =>
      [.regs, .gold, .clk, .boot, .flt, .journal, .met, .bil, .thm, .pil, .swa, .saf, .efm]
  | .fieldSupplyLoss .. =>
      [.regs, .gold, .clk, .boot, .flt, .journal, .met, .bil, .thm, .pil, .swa, .saf, .efm, .nfc, .dpy]
  | .registerWrite .. | .bufferedWrite .. | .wctlWrite .. | .criticalWrite .. | .complementWrite ..
  | .statusClearWrite .. | .hostTransaction .. | .dmaAbort .. | .dmaBurstSlot .. =>
      [.regs, .gold, .bus, .clk, .boot, .flt, .journal, .mem, .met, .bil, .thm, .pil, .swa, .saf, .efm, .key, .upd, .dma, .nfc, .dpy, .clu]
  | .packingListApplied .. =>
      [.regs, .gold, .bus, .clk, .boot, .flt, .journal, .mem, .met, .bil, .thm, .pil, .swa, .saf, .efm, .key, .lnk, .upd, .nfc, .dpy, .clu, .freeCtr]
  | .controlFrameEdge .. | .launchEdge .. | .ledgerSecondEdge .. | .tariffIntervalEdge .. | .periodChangeEdge ..
  | .coldStart .. | .bootMeasurementDone .. | .watchdogReset .. | .confirmWindowExpiry .. | .resetCommand ..
  | .coreSupplyLoss .. =>
      [.regs, .gold, .bus, .clk, .boot, .flt, .journal, .mem, .met, .bil, .thm, .pil, .swa, .pins, .saf, .efm, .key, .alc, .lnk, .upd, .sbu, .dma, .nfc, .dpy, .clu]

end Sys2Proof.Machine
end

