-- ==== Sys2Proof/Certificates/Slice0/Obligations.lean ====
section
/-!
DEFINITION. The statements about the block, for the provers.
-/

open Sys2Proof Sys2Proof.Machine

/-- A step runs the command at the front of the queue with the rest of the queue, and idles on an empty queue. For every state
whose queue begins with a command c, a step is exec of c on the state with the rest of the queue; for every state whose queue
is empty, a step answers that state. The queue and the idling are the model's own (log entry 1). -/
def Obligations.StepRunsFrontCommand : Prop :=
  (∀ (s : State) (c : Instr) (rest : List Instr), s.pending = c :: rest → step s = exec c (s.setPending rest)) ∧
  (∀ s : State, s.pending = [] → step s = .next s)

/-- Every command answers a next state in every state. For every command and every state, exec answers a next state: no command of
the table ends in a fault or a refusal, whatever the state. What each command does is stated command by command elsewhere. -/
def Obligations.NoCommandStopsTheBlock : Prop :=
  ∀ (c : Instr) (s : State), ∃ t, exec c s = .next t

/-- Commands act on everything but the queue: waiting commands stay, in order, and none is added. For every command c and state s,
when exec of c on s answers t, the queue of t is the queue of s. So a step on a queue that begins with c leaves exactly the
rest of the queue, and an invariant of the waiting commands holds after every step: if every waiting command is well formed
before a step, every waiting command is after it. -/
def Obligations.NoCommandTouchesTheQueue : Prop :=
  (∀ (c : Instr) (s t : State), exec c s = .next t → t.pending = s.pending) ∧
  (∀ s t : State, s.QueueWf → step s = .next t → t.QueueWf)

/-- Every step keeps registers and memory in their canonical form. For every state whose register file, last-good file and memory
are in canonical form (addresses strictly rising, no entry equal to what an unlisted address reads as), a step that answers a
next state answers one in which they are too. The form is the model's (log entry 4): it makes equal register contents and
equal memories equal data. -/
def Obligations.StoredListsStayCanonical : Prop :=
  ∀ s t : State, s.Canonical → step s = .next t → t.Canonical

/-- The state after reset is canonical, has nothing waiting, and some registers read what the spec states. State.reset has its
register file, last-good file and memory in canonical form and an empty queue. After reset SYS_ID reads 0x3200_0010,
SYS_STAGE.STAGE 0, SYS_DEVID 0, every block's write control 0 (immediate, group 0, nothing pending), TCK_SYNC.STATE 0
(UNLOCKED), TCK_EPOCH 0, SAF_STAT has neither ESTOP, GUARD, LINK, CHANNEL nor SERVICE, and no lane is retired. -/
def Obligations.ResetIsCanonicalAndReadsAsStated : Prop :=
  (State.reset.Canonical ∧ State.reset.pending = [] ∧ State.reset.QueueWf) ∧
  (State.reset.word A.SYS_ID = 0x32000010 ∧ State.reset.stage = 0 ∧ State.reset.word A.SYS_DEVID = 0 ∧
  (∀ b, b < 19 → State.reset.word (wctlAddr b) = 0) ∧ State.reset.rd F.TCK_SYNC_STATE = 0 ∧ State.reset.rd F.TCK_EPOCH_EPOCH = 0 ∧
  (State.reset.rd F.SAF_STAT_ESTOP = 0 ∧ State.reset.rd F.SAF_STAT_GUARD = 0 ∧ State.reset.rd F.SAF_STAT_LINK = 0 ∧
    State.reset.rd F.SAF_STAT_CHANNEL = 0 ∧ State.reset.rd F.SAF_STAT_SERVICE = 0) ∧
  State.reset.rdSet F.FLT_RETIRED_LANE = 0)

/-- Every critical register pair is good at reset. For every critical register of every block, at each of its indices and in each
of its words, the shadow word reads the complement of the register word after reset, so the pair is good. -/
def Obligations.ShadowsResetToComplements : Prop :=
  ∀ b, b < 19 → ∀ d ∈ blockRegs b, d.shadow ≠ 0 → ∀ i, i < d.n1 → ∀ j, j < d.n2 → ∀ w, w < d.words →
    State.reset.pairGood (blockBase b + d.ofs + d.s1 * i + d.s2 * j + 4 * w) d.shadow = true

/-- A write where no register lies changes nothing, and a read there gives zero. For an address at which no register lies, a
register write of any kind answers the same state, and a register read puts the single word 0 into the read data and changes
nothing else. -/
def Obligations.UnoccupiedLocationsIgnoreWrites : Prop :=
  ∀ (s : State) (a v : Word), regAt (a.toNat / 4 * 4) = none →
    exec (.registerWrite a v) s = .next s ∧ exec (.bufferedWrite a v) s = .next s ∧ exec (.criticalWrite a v) s = .next s ∧
    exec (.complementWrite a v) s = .next s ∧ exec (.statusClearWrite a v) s = .next s ∧
    exec (.wideRegisterRead a) s = .next (s.setBus { s.bus with readData := [0] })

/-- An event that sets a sticky bit advances the 8-bit sequence number, wrapping. For every status word at address a and every set
m of bits below bit 24, a status event leaves in the word the old low bits together with m, and a sequence number one more
than before modulo 256, whether or not the bits were set before; every other register word and every other part of the state
stays. Statement about the shared operation that every command uses to set a sticky bit. -/
def Obligations.StatusEventsAdvanceTheSequence : Prop :=
  ∀ (s : State) (a m : Nat), m < 2 ^ 24 →
    seqOf ((s.stickyMask a m).word a) = (seqOf (s.word a) + 1) % 256 ∧
    ((s.stickyMask a m).word a).toNat % 2 ^ 24 = ((s.word a).toNat % 2 ^ 24) ||| m ∧ RegsBut [a] s (s.stickyMask a m)

/-- A clearing write with a stale sequence number is ignored whole and counted. For a register that is not critical and a write
that carries 1 in one of its SQC bits and a sequence number other than the register's, STATUS_CLEAR_WRITE changes no register
word but SYS_STALE, whose COUNT goes up by one up to 0xFFFF and whose BLOCK names the block, and nothing else in the state. In
a channel window of the DMA engine the engine's summaries are then shown anew. -/
def Obligations.StaleClearsAreIgnoredWhole : Prop :=
  (∀ (s : State) (a v : Word) (h : RegHit), PlainAt a.toNat h → OutsideDma a.toNat h → v &&& h.bitsOf .sqc ≠ 0 → seqOf v ≠ seqOf (s.word a.toNat) →
    ∃ t, exec (.statusClearWrite a v) s = .next t ∧ t.rd F.SYS_STALE_COUNT = min 0xFFFF (s.rd F.SYS_STALE_COUNT + 1) ∧
      t.rd F.SYS_STALE_BLOCK = blockOf a.toNat ∧ RegsBut [A.SYS_STALE] s t) ∧
  (∀ (s : State) (a v : Word) (h : RegHit), PlainAt a.toNat h → ¬OutsideDma a.toNat h → v &&& h.bitsOf .sqc ≠ 0 → seqOf v ≠ seqOf (s.word a.toNat) →
    exec (.statusClearWrite a v) s = .next ((s.staleClear a.toNat).showDma h.i))

/-- A clearing write with the current sequence number clears the bits written as 1 that the block does not keep. For a register
outside the DMA engine's channel windows and the fault sources, whose word found has sticky bits and no command, RW or RWB
fields, and a write in range that carries 1 in an SQC bit and the current sequence number: STATUS_CLEAR_WRITE clears exactly
the SQC bits written as 1, but for those the block keeps because their cause is present, and changes nothing else. A register
that has RW, RWB or command fields beside its sticky bits takes those under their own codes after the clear. -/
def Obligations.MatchingClearsClear : Prop :=
  ∀ (s : State) (a v : Word) (h : RegHit), PlainAt a.toNat h → OutsideDma a.toNat h → ¬(blockOf a.toNat = 2 ∧ h.d.ofs = 0x400) →
    v &&& h.bitsOf .sqc ≠ 0 → seqOf v = seqOf (s.word a.toNat) → s.valueGood h a.toNat v.toNat = true →
    let cleared := s.setWord a.toNat (s.word a.toNat &&& ~~~(v &&& h.bitsOf .sqc &&& ~~~(BitVec.ofNat 32 (s.clearKept h a.toNat))))
    (h.has .rw = false → h.has .rwb = false → h.has .w1p = false → h.has .wo = false →
      exec (.statusClearWrite a v) s = .next cleared ∧
      (∀ i, i < 32 → (cleared.word a.toNat).getLsbD i = ((s.word a.toNat).getLsbD i &&
        !(v.getLsbD i && (h.bitsOf .sqc).getLsbD i && !bitOf (s.clearKept h a.toNat % 2 ^ 32) i))) ∧
      RegsBut [a.toNat] s cleared) ∧
    (h.has .rwb = false → (h.has .w1p || h.has .wo) = true →
      exec (.statusClearWrite a v) s = .next ((if h.has .rw then
        cleared.setWord a.toNat ((cleared.word a.toNat &&& ~~~(h.bitsOf .rw)) ||| (v &&& h.bitsOf .rw)) else cleared).act h a.toNat v.toNat))

/-- A register write acts on each field by its access code, and an out-of-range value changes nothing. For a word of a register
that is not critical, outside the DMA engine's channel windows, and a write that carries no 1 in an SQC bit: out of range it
changes nothing; in range, a word without buffered and command fields takes the RW bits written, keeps every other bit, and
nothing else in the state changes; a word with command bits takes its RW bits and then acts on the command bits. -/
def Obligations.PlainRegisterWrites : Prop :=
  ∀ (s : State) (a v : Word) (h : RegHit), PlainAt a.toNat h → OutsideDma a.toNat h → v &&& h.bitsOf .sqc = 0 →
    let taken := if h.has .rw then s.setWord a.toNat ((s.word a.toNat &&& ~~~(h.bitsOf .rw)) ||| (v &&& h.bitsOf .rw)) else s
    (s.valueGood h a.toNat v.toNat = false → exec (.registerWrite a v) s = .next s) ∧
    (s.valueGood h a.toNat v.toNat = true → h.has .rwb = false → h.has .w1p = false → h.has .wo = false →
      exec (.registerWrite a v) s = .next taken ∧
      taken.word a.toNat = (s.word a.toNat &&& ~~~(if h.has .rw then h.bitsOf .rw else 0)) ||| (v &&& (if h.has .rw then h.bitsOf .rw else 0)) ∧
      RegsBut [a.toNat] s taken) ∧
    (s.valueGood h a.toNat v.toNat = true → h.has .rwb = false → (h.has .w1p || h.has .wo) = true →
      exec (.registerWrite a v) s = .next (taken.act h a.toNat v.toNat))

/-- In buffered mode a write to buffered fields waits; in immediate mode it commits at once. For a word, outside the DMA engine's
channel windows, of a register that is not critical and has buffered fields, no RW and no command fields, and a write in range
without a 1 in an SQC bit: while the block is in buffered mode the written bits join the pending write of that word, a later
value replacing an earlier one, the block's write control shows PEND, no other pending write changes, and no register word but
the write controls and SYS_STROBE (which show what is pending) changes; in immediate mode the write is committed at once. -/
def Obligations.BufferedWritesWait : Prop :=
  ∀ (s : State) (a v : Word) (h : RegHit), PlainAt a.toNat h → OutsideDma a.toNat h → blockOf a.toNat < 19 → v &&& h.bitsOf .sqc = 0 →
    s.valueGood h a.toNat v.toNat = true → h.bitsOf .rwb ≠ 0 → h.has .rw = false → h.has .w1p = false → h.has .wo = false →
    let old := lk (fun _ => ({} : PendWrite)) s.bus.pend a.toNat
    (s.buffered (blockOf a.toNat) = true → ∃ t, exec (.bufferedWrite a v) s = .next t ∧
      lk (fun _ => ({} : PendWrite)) t.bus.pend a.toNat = ⟨old.mask ||| h.bitsOf .rwb, (old.val &&& ~~~(h.bitsOf .rwb)) ||| (v &&& h.bitsOf .rwb)⟩ ∧
      (∀ x, x ≠ a.toNat → lk (fun _ => ({} : PendWrite)) t.bus.pend x = lk (fun _ => ({} : PendWrite)) s.bus.pend x) ∧
      (t.word (wctlAddr (blockOf a.toNat))).getLsbD 8 = true ∧
      WordsBut (A.SYS_STROBE :: blocksAll.map wctlAddr) s t ∧ Frame [.regs, .bus] s t) ∧
    (s.buffered (blockOf a.toNat) = false → exec (.bufferedWrite a v) s = .next (s.commitSet [(a.toNat, ⟨h.bitsOf .rwb, v⟩)]))

/-- MODE and GROUP of a block change at once, and not while writes are pending. For every block, a write that would change MODE or
GROUP of its write control while PEND is 1 changes nothing; every other write sets MODE and GROUP to the written bits, keeps
the other bits of the word, and changes nothing else. -/
def Obligations.WriteControlGuarded : Prop :=
  ∀ (s : State) (b : Fin 19) (v : Word),
    ((s.word (wctlAddr b)).getLsbD 8 = true → v &&& 0x71 ≠ s.word (wctlAddr b) &&& 0x71 → exec (.wctlWrite b v) s = .next s) ∧
    (((s.word (wctlAddr b)).getLsbD 8 = false ∨ v &&& 0x71 = s.word (wctlAddr b) &&& 0x71) → ∃ t, exec (.wctlWrite b v) s = .next t ∧
      t.word (wctlAddr b) = (s.word (wctlAddr b) &&& ~~~(0x71 : Word)) ||| (v &&& 0x71) ∧ RegsBut [wctlAddr b] s t)

/-- A write to a critical register is held, and no register changes until its complement is written. For a word of a writable
critical register outside the DMA engine's channel windows that no calibration seal protects, CRITICAL_WRITE holds the written
word for it, in place of one held before, keeps what is held for other words, and changes nothing else in the state: no
register word and no last good value. -/
def Obligations.CriticalWritesAreHeld : Prop :=
  ∀ (s : State) (a v : Word) (h : RegHit), CriticalAt a.toNat h → OutsideDma a.toNat h → h.has .rwb = true → s.sealed h a.toNat = none →
    ∃ t, exec (.criticalWrite a v) s = .next t ∧ t.heldWord a.toNat = some v ∧ (∀ x, x ≠ a.toNat → t.heldWord x = s.heldWord x) ∧ Frame [.bus] s t

/-- A complement write commits a matching pair, and otherwise discards it and raises the write-pair source. For the shadow word x
of a writable critical register word a, outside the DMA engine's channel windows, that no calibration seal protects. With no
word held for a, or with a held word whose complement is not the word written or whose value is out of range, COMPLEMENT_WRITE
leaves nothing held for a and raises source 0x06: its sticky bit reads 1 (the same raise made twice in one frame is one:
R313). With a matching held word in range it is committed: held pending for a buffered block, else through the commit of the
block; and where the block is immediate and the register is none of those whose commit has conditions or effects of its own
(the allocation period, the display format, the pilot thresholds, the safety configuration, and blocks MET, BIL, EFM, SAF, NFC
and THM), the register word takes the held bits under the commit mask, its shadow the complement, and no other register word
changes. -/
def Obligations.ComplementWritesCommitOrRefuse : Prop :=
  ∀ (s : State) (x v : Word) (h : RegHit), x.toNat % 4 = 0 → regAt x.toNat = some h → h.shadow = true → h.d.ofs ≠ 0xFFFC → OutsideDma x.toNat h →
    h.d.shadow ≠ 0 → h.d.shadow ≤ x.toNat → h.has .rwb = true → let a := x.toNat - h.d.shadow
    s.sealed h a = none →
    (s.heldWord a = none → exec (.complementWrite x v) s = .next s.pairRefused ∧ Raised s s.pairRefused 0x06 0 none) ∧
    (∀ w, s.heldWord a = some w → let u := s.setBus { s.bus with held := s.bus.held.filter fun p => p.1 ≠ a }
      u.heldWord a = none ∧
      (v ≠ ~~~w ∨ u.valueGood h a w.toNat = false →
        exec (.complementWrite x v) s = .next u.pairRefused ∧ Raised u u.pairRefused 0x06 0 none) ∧
      (v = ~~~w → u.valueGood h a w.toNat = true → exec (.complementWrite x v) s = .next (u.writeBuffered a (u.critMask h a) w) ∧
        (u.buffered (blockOf a) = false → u.critMask h a ≠ 0 → regAt a = some { h with shadow := false } → a ≠ A.TCK_PERIOD → a ≠ A.DPY_PANEL →
          isThr a = false → isSafCfg a = false → blockOf a ∉ [4, 5, 6, 10, 15, 17] → ∃ t, exec (.complementWrite x v) s = .next t ∧
            t.word a = (u.useWord a h.d.shadow &&& ~~~(u.critMask h a)) ||| (w &&& u.critMask h a) ∧ t.word (a + h.d.shadow) = ~~~(t.word a) ∧
            WordsBut [a, a + h.d.shadow] s t)))

/-- GO, DROP, ARM and CANCEL of the strobes. STROBE_GO adds to the requests waiting for the next edge exactly the written groups
whose strobe is not armed, and changes nothing else. DISCARD_DROP drops exactly the pending writes of the blocks whose group
is written, keeps those of every other block, and changes no register word but the write controls and SYS_STROBE, which show
what is pending. For each strobe g: when TICK less the current allocation tick, modulo 2^32, lies in 1 to 2^31 − 1, STROBE_ARM
sets ARMED of g and changes no other register word; otherwise it sets REFUSED of g as a status event and leaves ARMED as it
was. STROBE_CANCEL clears ARMED and leaves the pending writes pending. Nothing else in the state changes. -/
def Obligations.StrobesAreRequestedArmedAndCancelled : Prop :=
  ((∀ (s : State) (m : BitVec 8), ∃ t, exec (.strobeGo m) s = .next t ∧
    (∀ g, g < 8 → t.clk.goReq.getLsbD g = (s.clk.goReq.getLsbD g || (m.getLsbD g && !s.on (F.SYS_STRg_CTL_ARMED g)))) ∧
    t = s.setClk { s.clk with goReq := t.clk.goReq }) ∧
  (∀ (s : State) (m : BitVec 8), ∃ t, exec (.discardDrop m) s = .next t ∧
    t.bus.pend = s.bus.pend.filter (fun p => !bitOf m.toNat (s.groupIn (blockOf p.1))) ∧
    WordsBut (A.SYS_STROBE :: blocksAll.map wctlAddr) s t ∧ Frame [.regs, .bus] s t)) ∧
  (∀ (s : State) (g : Fin 8),
    let ahead := (s.rd (F.SYS_STRg_TICK_TICK g) + 2 ^ 32 - s.rd F.TCK_ALC_TICK_K) % 2 ^ 32
    (1 ≤ ahead ∧ ahead ≤ 2 ^ 31 - 1 → ∃ t, exec (.strobeArm g) s = .next t ∧ t.rd (F.SYS_STRg_CTL_ARMED g) = 1 ∧ RegsBut [A.SYS_STRg_CTL g] s t) ∧
    (¬(1 ≤ ahead ∧ ahead ≤ 2 ^ 31 - 1) → ∃ t, exec (.strobeArm g) s = .next t ∧
      t.word A.SYS_STR_STAT = stickyWord (s.word A.SYS_STR_STAT) (2 ^ (8 + g.val)) ∧ t.rd (F.SYS_STRg_CTL_ARMED g) = s.rd (F.SYS_STRg_CTL_ARMED g) ∧
      RegsBut [A.SYS_STR_STAT] s t) ∧
    (∃ t, exec (.strobeCancel g) s = .next t ∧ t.rd (F.SYS_STRg_CTL_ARMED g) = 0 ∧ RegsBut [A.SYS_STRg_CTL g] s t))

/-- A read of a quantity's lower word captures its upper words, and of a wide critical register its complement. For a word of a
register other than the two data windows: where it is the lowest word of a quantity and no shadow, WIDE_REGISTER_READ returns
it and captures, as they read now, the upper words of the quantity and, of a critical register of several words, all
complement words; a read of any other word returns what is captured of it, and the word itself where nothing is. A critical
word whose pair fails raises the pair source first, where its cause is not present already; nothing else but the bus's own
read data and captures changes. (A field that spans words makes a quantity of its own, other fields are read with the words
before them: log entry 11.) -/
def Obligations.WideReadsCapture : Prop :=
  ∀ (s : State) (a : Word) (h : RegHit), a.toNat % 4 = 0 → regAt a.toNat = some h → a.toNat ≠ A.MET_CAP_DATA → a.toNat ≠ A.THM_JDATA →
    let u := s.when (s.pairBad a.toNat) State.pairUse
    (h.d.shadow = 0 → u = s) ∧
    (h.d.lowWord h.w = h.w → h.shadow = false → ∃ t, exec (.wideRegisterRead a) s = .next t ∧ t.bus.readData = [u.word a.toNat] ∧
      (∀ x ∈ captured h a.toNat, (t.bus.capt.find? fun p => p.1 = x) = some (x, u.word x)) ∧
      (∀ x, x ∉ captured h a.toNat → (t.bus.capt.find? fun p => p.1 = x) = u.bus.capt.find? fun p => p.1 = x) ∧ Frame [.bus] u t) ∧
    (h.d.lowWord h.w ≠ h.w ∨ h.shadow = true → ∃ t, exec (.wideRegisterRead a) s = .next t ∧
      t.bus.readData = [match u.bus.capt.find? fun p => p.1 = a.toNat with | some p => p.2 | none => u.word a.toNat] ∧
      t = u.setBus { u.bus with readData := t.bus.readData })

/-- A host write to a block that is not open, or to the key store, is not done and is counted. A host transaction that sends a
whole one-word write (command 0x40, at least 23 cycles, 20 nibbles) with a good CRC-8 to an address at which a register lies
and whose block is closed in SYS_HOSTWR, or is the key store, changes no register word but SYS_WDENY, whose COUNT goes up by
one up to its largest value, and answers status 2; to any other address the word is written as the service cluster would write
it, and the answer is status 0. -/
def Obligations.HostWritesAreGated : Prop :=
  ∀ (s : State) (x : HostTxn), 23 ≤ x.clocks → 20 ≤ x.sent.length → nibbleNat (x.sent.take 2) = 0x40 →
    nibbleNat ((x.sent.drop 18).take 2) = nibbleCrc (x.sent.take 18) →
    let a := nibbleNat ((x.sent.drop 2).take 8) / 4 * 4
    (s.hostDenied a = true → ∃ t, exec (.hostTransaction x) s = .next t ∧ t.rd F.SYS_WDENY_COUNT = min F.SYS_WDENY_COUNT.max (s.rd F.SYS_WDENY_COUNT + 1) ∧
      t.bus = { s.bus with hostReply := [2] } ∧ WordsBut [A.SYS_WDENY] s t ∧ Frame [.regs, .bus] s t) ∧
    (s.hostDenied a = false →
      exec (.hostTransaction x) s = .next ((s.regWrite a (BitVec.ofNat 32 (nibbleNat ((x.sent.drop 10).take 8)))).hostAnswer [0]))

/-- A cut host transaction and a bad CRC-8 are counted and write nothing. A host transaction with fewer than two nibbles, or a
one-word write ended before its 23 cycles, adds one to the count of cut transactions, up to its largest value, and answers
nothing; a whole one-word write whose CRC-8 is wrong adds one to the count of CRC errors and answers status 1. In each case no
other register word and no other part of the state changes but the answer. -/
def Obligations.HostFramingErrors : Prop :=
  ∀ (s : State) (x : HostTxn),
    (x.sent.length < 2 ∨ (2 ≤ x.sent.length ∧ nibbleNat (x.sent.take 2) = 0x40 ∧ x.clocks < 23) → ∃ t, exec (.hostTransaction x) s = .next t ∧
      t.rd F.LNK_HP_ST_CUT = min F.LNK_HP_ST_CUT.max (s.rd F.LNK_HP_ST_CUT + 1) ∧ t.bus = { s.bus with hostReply := [] } ∧
      WordsBut [A.LNK_HP_ST] s t ∧ Frame [.regs, .bus] s t) ∧
    (23 ≤ x.clocks → 20 ≤ x.sent.length → nibbleNat (x.sent.take 2) = 0x40 → nibbleNat ((x.sent.drop 18).take 2) ≠ nibbleCrc (x.sent.take 18) →
      ∃ t, exec (.hostTransaction x) s = .next t ∧ t.rd F.LNK_HP_ST_CRCERR = min F.LNK_HP_ST_CRCERR.max (s.rd F.LNK_HP_ST_CRCERR + 1) ∧
      t.bus = { s.bus with hostReply := [1] } ∧ WordsBut [A.LNK_HP_ST] s t ∧ Frame [.regs, .bus] s t)

/-- A fence request is held for the next edge, and the further ones before it are merged and counted. With no fence requested,
FENCE_GO requests one and changes nothing else. With one requested, it adds one to TCK_FENCE.MERGED, wrapping at the field's
width, keeps the single request, and changes no other register word. When a requested fence closes at an edge, TCK_EPOCH goes
up by one, wrapping from 0xFFFF_FFFF to 0, and no request is left. So any number n + 1 of requests since the last edge make
one fence and one epoch increment, and MERGED has gone up by n, modulo its width. -/
def Obligations.FencesMergeWithinAFrame : Prop :=
  ∀ s : State,
    (s.clk.fenceReq = false → exec .fenceGo s = .next (s.setClk { s.clk with fenceReq := true })) ∧
    (s.clk.fenceReq = true → ∃ t, exec .fenceGo s = .next t ∧ t.rd F.TCK_FENCE_MERGED = (s.rd F.TCK_FENCE_MERGED + 1) % 2 ^ F.TCK_FENCE_MERGED.width ∧
      t.clk = s.clk ∧ RegsBut [A.TCK_FENCE] s t) ∧
    (s.clk.fenceReq = true → s.fenceClose.rd F.TCK_EPOCH_EPOCH = (s.rd F.TCK_EPOCH_EPOCH + 1) % 2 ^ 32 ∧
      s.fenceClose.clk = { s.clk with fenceReq := false } ∧ WordsBut [A.TCK_EPOCH] s s.fenceClose ∧ Frame [.regs, .clk, .bil] s s.fenceClose) ∧
    (s.clk.fenceReq = false → s.fenceClose = s) ∧
    (s.clk.fenceReq = false → ∀ n : Nat, let u := Nat.repeat State.fenceGo (n + 1) s
      u.rd F.TCK_FENCE_MERGED = (s.rd F.TCK_FENCE_MERGED + n) % 2 ^ F.TCK_FENCE_MERGED.width ∧ u.fenceClose.clk.fenceReq = false ∧
      u.fenceClose.rd F.TCK_EPOCH_EPOCH = (s.rd F.TCK_EPOCH_EPOCH + 1) % 2 ^ 32)

/-- No sync result for 4 s while LOCKED, and 60 s in HOLDOVER, change the sync state. While LOCKED on a source other than the
local one, SYNC_RESULT_TIMEOUT at 4,000 control frames or more after the last result enters HOLDOVER and sets the loss status;
in HOLDOVER, HOLDOVER_EXPIRY at 60,000 control frames or more after its entry enters UNLOCKED. Before those times, and in the
other states, the two change nothing. Entering a state starts the runs of results afresh. -/
def Obligations.SyncStatesChange : Prop :=
  ∀ s : State,
    (s.clk.source ≠ 7 ∧ s.rd F.TCK_SYNC_STATE = 1 ∧ s.clk.lastSync + 4000 ≤ s.clk.frame → ∃ t, exec .syncResultTimeout s = .next t ∧
      t.rd F.TCK_SYNC_STATE = 2 ∧ t.rd F.TCK_SYNC_LOSS = 1 ∧ t.clk = { s.clk with good := 0, bad := 0, holdSince := s.clk.frame } ∧
      WordsBut [A.TCK_SYNC] s t ∧ Frame [.regs, .clk] s t) ∧
    (s.clk.source = 7 ∨ s.rd F.TCK_SYNC_STATE ≠ 1 ∨ s.clk.frame < s.clk.lastSync + 4000 → exec .syncResultTimeout s = .next s) ∧
    (s.rd F.TCK_SYNC_STATE = 2 ∧ s.clk.holdSince + 60000 ≤ s.clk.frame → ∃ t, exec .holdoverExpiry s = .next t ∧
      t.rd F.TCK_SYNC_STATE = 0 ∧ t.clk = { s.clk with good := 0, bad := 0, holdSince := s.clk.frame } ∧
      WordsBut [A.TCK_SYNC] s t ∧ Frame [.regs, .clk] s t) ∧
    (s.rd F.TCK_SYNC_STATE ≠ 2 ∨ s.clk.frame < s.clk.holdSince + 60000 → exec .holdoverExpiry s = .next s)

/-- A sync result is counted against the lock limit and shown. With a source other than the local one whose site time is already
loaded, a sync result is shown in TCK_OFFSET held to ±(2^31 − 1) ns, becomes the offset to remove and the last result; within
the lock limit it adds to the run of good results and otherwise ends it; the eighth good result in a row outside LOCKED enters
LOCKED, and the second result in a row beyond four times the limit in LOCKED enters UNLOCKED. On the local source a result
changes nothing. (The steering itself is an open value: log entry 2.) -/
def Obligations.SyncResultsSteer : Prop :=
  ∀ (s : State) (o : Int), s.clk.timeSet = true → let lim := lockLimit s.clk.source
    (s.clk.source = 7 → exec (.syncResult o) s = .next s) ∧
    (s.clk.source ≠ 7 → ∃ t, exec (.syncResult o) s = .next t ∧ t.rdS F.TCK_OFFSET_OFS = clampInt (-(2 ^ 31 - 1)) (2 ^ 31 - 1) o ∧ t.clk.ofs = o ∧
      t.clk.lastSync = s.clk.frame ∧
      (s.rd F.TCK_SYNC_STATE ≠ 1 → o.natAbs ≤ lim → 7 ≤ s.clk.good → t.rd F.TCK_SYNC_STATE = 1) ∧
      (s.rd F.TCK_SYNC_STATE ≠ 1 → (lim < o.natAbs ∨ s.clk.good < 7) → t.rd F.TCK_SYNC_STATE = s.rd F.TCK_SYNC_STATE ∧
        t.clk.good = if o.natAbs ≤ lim then s.clk.good + 1 else 0) ∧
      (s.rd F.TCK_SYNC_STATE = 1 → 4 * lim < o.natAbs → 1 ≤ s.clk.bad → t.rd F.TCK_SYNC_STATE = 0) ∧
      (s.rd F.TCK_SYNC_STATE = 1 → (o.natAbs ≤ 4 * lim ∨ s.clk.bad = 0) → t.rd F.TCK_SYNC_STATE = 1) ∧
      WordsBut [A.TCK_OFFSET, A.TCK_SYNC] s t ∧ Frame [.regs, .clk] s t)

/-- A cold start and a warm start end in stage 0x2; loss of the core supply loses what the core die held. COLD_START outside a
trial and RESET_COMMAND start the device again, with the core die powered at a cold start, and leave it in stage 0x2, waiting
for power-good; over them the thermos die's own state is kept, over a warm start the two memories too, and the metrology,
pilot, switch and allocation units start afresh. CORE_SUPPLY_LOSS leaves the core die without power, and its memories,
metrology, pilots and waiting bus writes lost, the thermos die kept. In a trial COLD_START counts a try, and the third rolls
back. -/
def Obligations.StartsReachPowerGoodWait : Prop :=
  ∀ s : State,
    (s.upd.trial = false → ∃ t, exec .coldStart s = .next t ∧ t.stage = 2 ∧ t.boot.vddCore = true ∧ t.boot.cold = true ∧ t.mem = [] ∧ t.thm = s.thm ∧ t.alc = {} ∧ t.swa = {}) ∧
    (s.upd.trial = true → let u := ((s.setBoot { s.boot with vddCore := true }).startUp true).count F.UPD_BANK_TRIES 1
      u.upd.trial = true ∧ exec .coldStart s = .next (if u.rd F.UPD_BANK_TRIES = 3 then u.rollback else u)) ∧
    (∃ t, exec .resetCommand s = .next t ∧ t.stage = 2 ∧ t.boot.cold = false ∧ t.mem = s.mem ∧ t.thm = s.thm ∧ t.alc = {} ∧ t.swa = {}) ∧
    (∃ t, exec .coreSupplyLoss s = .next t ∧ t.boot.vddCore = false ∧ t.mem = [] ∧ t.met = {} ∧ t.pil = {} ∧ t.bus = {} ∧ t.thm = s.thm)

/-- Power-good starts the die; root creation waits for samples that pass. In stage 0x2 POWER_GOOD powers the core and field dies
and enters stage 0x3; its DRBG seed is an open value (log entry 2), and samples that pass their health tests become the root
secret where none exists. ENTROPY_RETRY, in stage 0x3 without a root and 1,000 control frames after the last attempt, tries
again with new samples. In every other case the two change nothing. -/
def Obligations.PowerGoodStartsFrames : Prop :=
  ∀ (s : State) (e : Option (List Byte)),
    (s.stage = 2 → ∃ t, exec (.powerGood e) s = .next t ∧ t.boot.vddCore = true ∧ t.boot.vddField = true ∧ t.boot.stageFrame = s.clk.frame ∧
      t.key.reqs = 0 ∧ t.freeCtr = s.freeCtr + 1 ∧
      (∀ xs, e = some xs → s.key.root = [] → t.key.root = sha256 xs) ∧ (s.key.root ≠ [] → t.key.root = s.key.root)) ∧
    (s.stage ≠ 2 → exec (.powerGood e) s = .next s) ∧
    (s.stage = 3 → s.key.root = [] → s.boot.stageFrame + 1000 ≤ s.clk.frame → exec (.entropyRetry e) s = .next (s.takeSamples e) ∧
      (∀ xs, e = some xs → (s.takeSamples e).key.root = sha256 xs)) ∧
    (s.stage ≠ 3 ∨ s.key.root ≠ [] ∨ s.clk.frame < s.boot.stageFrame + 1000 → exec (.entropyRetry e) s = .next s)

/-- Boot measurement verifies the active bank and runs it, else rolls back or takes the rucksack, else halts. In stage 0x3 with a
root secret: a bank that passes the checks of R377 on an image runs: stage 0x4 begins, the update manager holds it as the
running image, its measurements stand in KEY_MEASj, M1 the SHA-256 of 32 bytes of zeros, the hash of its first stage and the
byte 1, and the service tag's staging area is locked; a bad one in trial is rolled back; a bad one outside a trial gives way
to a good rucksack image; with neither good the device halts, and stays in stage 0x3. Otherwise BOOT_MEASUREMENT_DONE changes
nothing. (That stage 0x3 makes the checks of R377 is the model's reading: log entry 18.) -/
def Obligations.BootRunsAVerifiedImage : Prop :=
  ∀ (s : State) (x y : BankRead),
    (s.stage = 3 → s.key.root ≠ [] → s.boot.halted = false →
      (bankGood x = true → ∃ t, exec (.bootMeasurementDone x y) s = .next t ∧ t.stage = 4 ∧ t.upd.run = some (bankImage x) ∧ t.nfc.locked = true ∧
        t.key.measured = true ∧ t.rd (F.KEY_MEASj_M 0) = (bankImage x).m1.toNat ∧ t.rd (F.KEY_MEASj_M 1) = (bankImage x).m2.toNat ∧
        t.rd (F.KEY_MEASj_M 2) = (bankImage x).m3.toNat ∧ t.rd F.UPD_VER_RUN = (bankImage x).version.toNat) ∧
      (bankGood x = false → s.upd.trial = true → exec (.bootMeasurementDone x y) s = .next s.rollback) ∧
      (bankGood x = false → s.upd.trial = false → bankGood y = true → ∃ t, exec (.bootMeasurementDone x y) s = .next t ∧ t.stage = 4 ∧
        t.upd.run = some (bankImage y) ∧ t.upd.bank = 6 ∧ t.rd (F.KEY_MEASj_M 0) = (bankImage y).m1.toNat) ∧
      (bankGood x = false → s.upd.trial = false → bankGood y = false →
        exec (.bootMeasurementDone x y) s = .next (s.setBoot { s.boot with halted := true }))) ∧
    (s.stage ≠ 3 ∨ s.key.root = [] ∨ s.boot.halted = true → exec (.bootMeasurementDone x y) s = .next s) ∧
    (let row := stageRow (x.bytes.take 512) 0;
      (bankImage x).m1 = BitVec.ofNat 256 (leNat (sha256 (List.replicate 32 0 ++ sha256 (slice x.bytes row.1 row.2.1) ++ [1]))))

/-- The packing-list copy with the higher version that passes its checks is applied, the primary if equal. In stage 0x4 outside
the no-configuration state, with nothing staged: the first check each copy fails is reported; when the primary passes, and the
secondary fails or is no newer, the primary is applied, and otherwise a passing secondary, provided the critical records of
the copy are good; when neither passes, the no-configuration state is entered. A copy that is chosen but has a bad critical
record is not applied either. In any other stage, and in the no-configuration state, nothing changes. -/
def Obligations.PackingListSelection : Prop :=
  ∀ (s : State) (p q : PlCopy) (staged : List PlRecord) (rb : Bool),
    (s.stage = 4 → s.boot.noCfg = false → s.on F.NFC_TAG_ST_STAGED = false →
      let u0 := s.setNfc { s.nfc with locked := false }
      let u := (u0.wr F.SYS_PLSTAT_PRICAUSE (u0.copyCheck p)).wr F.SYS_PLSTAT_SECCAUSE (u0.copyCheck q)
      (u0.copyCheck p = 0 → (u0.copyCheck q ≠ 0 ∨ plVer q ≤ plVer p) → critBad (plItems p) = none →
        exec (.packingListApplied p q staged rb) s = .next (u.applyList 1 p)) ∧
      (u0.copyCheck q = 0 → (u0.copyCheck p ≠ 0 ∨ plVer p < plVer q) → critBad (plItems q) = none →
        exec (.packingListApplied p q staged rb) s = .next (u.applyList 2 q)) ∧
      (u0.copyCheck p ≠ 0 → u0.copyCheck q ≠ 0 → ∃ t, exec (.packingListApplied p q staged rb) s = .next t ∧
        t.rd F.SYS_PLSTAT_NOCFG = 1 ∧ t.boot.noCfg = true ∧ t.stage = 4 ∧ WordsBut [A.SYS_PLSTAT] s t) ∧
      (u0.copyCheck p = 0 → (u0.copyCheck q ≠ 0 ∨ plVer q ≤ plVer p) → critBad (plItems p) ≠ none →
        ∃ t, exec (.packingListApplied p q staged rb) s = .next t ∧ t.rd F.SYS_PLSTAT_NOCFG = 1 ∧ t.boot.noCfg = true ∧ t.stage = 4) ∧
      (u0.copyCheck q = 0 → (u0.copyCheck p ≠ 0 ∨ plVer p < plVer q) → critBad (plItems q) ≠ none →
        ∃ t, exec (.packingListApplied p q staged rb) s = .next t ∧ t.rd F.SYS_PLSTAT_NOCFG = 1 ∧ t.boot.noCfg = true ∧ t.stage = 4)) ∧
    (s.stage ≠ 4 ∨ s.boot.noCfg = true → exec (.packingListApplied p q staged rb) s = .next s)

/-- Roll call, the self-adaptive stage and the guard walk end in their order. ROLL_CALL_DONE in stage 0x5, with no head being read
and every module admitted or timed out, begins the self-adaptive stage's listening. MODULE_ROLL_CALL_TIMEOUT leaves a module
out that has not answered for 250 ms and raises 0x24 with degrade class. ZONE_CONFIRM_END ends the listening after two
allocation ticks and at least 500 ms, and raises 0x09 with device class when every cutoff of it, two or more, found the
condition. SELF_ADAPT_DONE and, at the stage's limit, SELF_ADAPT_TIME_LIMIT end it: the values decided are committed at the
next edge, and the guard walk begins at the one after. GUARD_WALK_PAIR_DONE records a pair's walk, and the walk is over when
every pair to walk is; at an edge with no fence requested service is then entered. LANE_ADAPT_GO starts a lane's items, and is
ignored while a run is in progress or where no head has passed roll call; LANE_ADAPT_DONE judges them. In every other case
they change nothing. -/
def Obligations.RollCallAndAdaptionStages : Prop :=
  ∀ s : State,
    (s.stage = 5 → s.boot.heads.any (fun h => h.2.rollCall) = false →
      s.boot.mods.all (fun m => m.2.admitted || m.2.reqAt = 0 || m.2.reqAt + 250 ≤ s.clk.frame + 1) = true →
      ∃ t, exec .rollCallDone s = .next t ∧ t.boot.listening = true ∧ t.boot.zoneSeen = 0 ∧ t.boot.zoneBad = 0 ∧ t.boot.stageFrame = s.clk.frame) ∧
    (s.stage ≠ 5 → exec .rollCallDone s = .next s) ∧
    (∀ m : Fin 128, s.stage = 5 → (s.modAt m).addr ≠ 0 → (s.modAt m).admitted = false → (s.modAt m).reqAt ≠ 0 → (s.modAt m).reqAt + 250 ≤ s.clk.frame + 1 →
      exec (.moduleRollCallTimeout m) s = .next ((s.modModule m fun x => { x with reqAt := 0 }).raiseDev 0x24 1)) ∧
    (∀ m : Fin 128, s.stage ≠ 5 ∨ (s.modAt m).addr = 0 ∨ (s.modAt m).admitted = true ∨ (s.modAt m).reqAt = 0 ∨ s.clk.frame + 1 < (s.modAt m).reqAt + 250 →
      exec (.moduleRollCallTimeout m) s = .next s) ∧
    (s.stage = 6 → s.boot.listening = true → s.boot.stageFrame + max 500 (2 * s.periodMs) ≤ s.clk.frame →
      ∃ t, exec .zoneConfirmEnd s = .next t ∧ t.boot = { s.boot with listening := false } ∧
        (¬(2 ≤ s.boot.zoneSeen ∧ s.boot.zoneBad = s.boot.zoneSeen) → t = s.setBoot { s.boot with listening := false })) ∧
    (s.stage ≠ 6 ∨ s.boot.listening = false → exec .zoneConfirmEnd s = .next s) ∧
    (s.stage = 6 → s.boot.adaptStep = 0 → s.boot.listening = false → s.boot.heads.any (fun h => h.2.adaptAt.isSome) = false →
      exec .selfAdaptDone s = .next (s.setBoot { s.boot with adaptStep := 1 })) ∧
    (s.stage ≠ 6 ∨ s.boot.listening = true ∨ s.boot.adaptStep ≠ 0 → exec .selfAdaptDone s = .next s) ∧
    (s.stage = 6 → s.boot.adaptStep = 0 → s.boot.stageFrame + s.boot.bounds.limit ≤ s.clk.frame → ∃ t, exec .selfAdaptTimeLimit s = .next t ∧
      t.boot.adaptStep = 1 ∧ t.boot.listening = false ∧ t.stage = 6 ∧ (∀ n, n ∈ s.outlets → (t.head n).adaptAt = none) ∧
      (s.boot.listening = true → t.rd F.SYS_ADAPT_ZONE = 1 ∧ Raised s t 0x09 3 none)) ∧
    (s.stage ≠ 6 ∨ s.boot.adaptStep ≠ 0 ∨ s.clk.frame < s.boot.stageFrame + s.boot.bounds.limit → exec .selfAdaptTimeLimit s = .next s) ∧
    (s.stage = 6 → s.boot.adaptStep = 1 → s.stageEdge.boot.adaptStep = 2 ∧ s.stageEdge.stage = 6) ∧
    (s.stage = 6 → s.boot.adaptStep = 2 → s.stageEdge = s.enterWalk ∧ s.enterWalk.stage = 7 ∧ s.enterWalk.clk.fenceReq = true) ∧
    (s.stage = 7 → (let u := s.adaptCommit; u.stage = 7 → u.clk.fenceReq = false → u.walkOver = true → s.stageEdge = u.enterService)) ∧
    (∀ k : Fin 8, ∃ t, exec (.guardWalkPairDone k) s = .next t ∧ (s.stage ≠ 7 → t = s) ∧ RegsBut [A.SAF_GUARD, A.SAF_STAT] s t) ∧
    (∀ n : Lane, n.val = s.rd F.SYS_ADAPT_LANE → s.on F.SYS_ADAPT_BUSY = false → (s.head n).present = true → (s.head n).rollCall = false →
      (s.head n).ident ≠ [] → (s.head n).adaptAt = none → 6 ≤ s.stage →
      ∃ t, exec .laneAdaptGo s = .next t ∧ t.rd F.SYS_ADAPT_BUSY = 1 ∧ (t.head n).adaptAt = some s.clk.frame) ∧
    (s.on F.SYS_ADAPT_BUSY = true ∨ (s.head (s.rd F.SYS_ADAPT_LANE)).present = false ∨ (s.head (s.rd F.SYS_ADAPT_LANE)).rollCall = true ∨
      (s.head (s.rd F.SYS_ADAPT_LANE)).ident = [] ∨ s.stage < 6 → exec .laneAdaptGo s = .next s) ∧
    (∀ n : Lane, (s.head n).adaptAt = none → exec (.laneAdaptDone n) s = .next s) ∧
    (∀ (n : Lane) (a : Nat), (s.head n).adaptAt = some a → exec (.laneAdaptDone n) s = .next (s.adaptJudge n (decide (a + 600 ≤ s.clk.frame))))

/-- Loss and return of the field and thermos supplies. FIELD_SUPPLY_LOSS, with the field supply present, marks it lost, raises
0x01 to 0x03 with degrade class, withdraws every close and unlock consent and turns every field output off, and the switch
array forgets its trip counts, latches and clamp buckets; FIELD_SUPPLY_RETURN, with it lost, marks it present, restarts the
decade phase and ends the three causes. THERMOS_TO_VBAK, from VDD_IO33, stamps THM_LOSS with the wall time and keeps the clock
where the cell is present. THERMOS_SUPPLY_LOSS without VDD_IO33 clears the clock-valid flag; with it, it only notes the cell's
loss. THERMOS_TO_IO33 and THERMOS_SUPPLY_RETURN restart the clock only after a time without any supply. Otherwise they change
nothing but the supply noted. -/
def Obligations.SuppliesOfTheDies : Prop :=
  ∀ s : State,
    (s.boot.vddField = true → exec .fieldSupplyLoss s = .next (((((((s.setBoot { s.boot with vddField := false }).raiseDev 0x01 1).raiseDev 0x02 1).raiseDev 0x03 1).withdrawClose
      (BitVec.allOnes 32)).withdrawUnlock (BitVec.allOnes 32)).fieldOff)) ∧
    (s.boot.vddField = true → ∃ t, exec .fieldSupplyLoss s = .next t ∧ t.boot.vddField = false ∧
      (∀ c, (t.chan c).onSince = none ∧ (t.chan c).bucket = 0 ∧ (t.chan c).locked = false ∧ (t.chan c).latched = false ∧ t.trips c = 0) ∧
      (∀ a, inFieldDie a = true → t.word a = resetWord a)) ∧
    (s.boot.vddField = false → exec .fieldSupplyLoss s = .next s) ∧
    (s.boot.vddField = false → ∃ t, exec .fieldSupplyReturn s = .next t ∧ t.boot = { s.boot with vddField := true } ∧ t.clk = { s.clk with decade := 0 }) ∧
    (s.boot.vddField = true → exec .fieldSupplyReturn s = .next s) ∧
    (s.thm.io33 = true → s.thm.vbak = true → ∃ t, exec .thermosToVbak s = .next t ∧ t.rd F.THM_LOSS_SEC = s.wallSec % 2 ^ F.THM_LOSS_SEC.width ∧
      t.thm = { s.thm with io33 := false, lossMs := s.wallMs, lossInvalid := false }) ∧
    (s.thm.io33 = true → s.thm.vbak = false → ∃ t, exec .thermosToVbak s = .next t ∧ t.rd F.THM_WALL_VALID = 0 ∧ t.thm.io33 = false ∧ t.thm.lossInvalid = true) ∧
    (s.thm.io33 = false → exec .thermosToVbak s = .next s) ∧
    (s.thm.io33 = true → exec .thermosSupplyLoss s = .next (s.setThm { s.thm with vbak := false })) ∧
    (s.thm.io33 = false → ∃ t, exec .thermosSupplyLoss s = .next t ∧ t.rd F.THM_WALL_VALID = 0 ∧ t.thm = { s.thm with vbak := false, lossInvalid := true }) ∧
    (s.thm.io33 = true ∨ s.thm.vbak = true → exec .thermosToIo33 s = .next (s.setThm { s.thm with io33 := true }) ∧
      exec .thermosSupplyReturn s = .next (s.setThm { s.thm with vbak := true })) ∧
    (s.thm.io33 = false → s.thm.vbak = false → exec .thermosToIo33 s = .next (s.setThm { s.thm with io33 := true }).clockRestart ∧
      exec .thermosSupplyReturn s = .next (s.setThm { s.thm with vbak := true }).clockRestart)

/-- A failed check on an internal link raises its source and discards the transfer. INTERNAL_LINK_TRANSFER with a good CRC changes
nothing here (what it carries has commands of its own). With a bad one the link between field die and service cluster raises
0x01, the A and B links 0x02 and 0x03, whose channel then misses the consent refresh of the frame, and the thermos link 0x04,
each with degrade class as an event. What the transfer would have brought is dropped: a time set on the thermos link, the
hamper image being written, the inputs of the next edge on the links to the field die. -/
def Obligations.InternalLinkErrors : Prop :=
  ∀ (s : State) (l : DieLink),
    exec (.internalLinkTransfer l true) s = .next s ∧
    exec (.internalLinkTransfer .fieldService false) s = .next ((s.transferLost .fieldService).raiseOnce 0x01 1 none) ∧
    exec (.internalLinkTransfer .thermos false) s = .next ((s.transferLost .thermos).raiseOnce 0x04 1 none) ∧
    (∃ t, exec (.internalLinkTransfer .aLink false) s = .next t ∧ t = (let u := (s.transferLost .aLink).raiseOnce 0x02 1 none
      (u.setSaf { u.saf with refreshA := false }).consentRefresh)) ∧
    (∃ t, exec (.internalLinkTransfer .bLink false) s = .next t ∧ t = (let u := (s.transferLost .bLink).raiseOnce 0x03 1 none
      (u.setSaf { u.saf with refreshB := false }).consentRefresh)) ∧
    exec (.internalLinkTransfer .hamper false) s = .next (s.transferLost .hamper) ∧
    (s.transferLost .hamper).bil = { s.bil with saving := none } ∧ (s.transferLost .thermos).bil = { s.bil with clkReq := none } ∧
    (l ≠ .hamper → l ≠ .thermos → l ∈ (s.transferLost l).saf.lost ∧ Frame [.saf] s (s.transferLost l))

/-- Presence probes, roll call of a head and its sensor readings. HEAD_PROBE acts only with the field supply, on an outlet lane,
in its phase of the decade: a serial counts as a good probe, none as a failed one. HEAD_ROLL_CALL_DONE acts on a present head
being read: a cause found fails the head with it; else the identity is kept, with its cable resistance, which is committed
when the lane's items have passed, and its lock type shown. HEAD_SENSOR_READ acts in the phase n + 5 on a present head that
lists sensors: a reading makes its sensor valid and not stale and shows the reading; the third failure in a row makes it
stale. Otherwise each changes nothing. -/
def Obligations.HeadBusCommands : Prop :=
  ∀ (s : State) (n : Lane),
    (∀ x, s.boot.vddField = true → (s.laneType n).outlet = true → s.clk.decade = n.val % 10 →
      exec (.headProbe n (some x)) s = .next (s.probeOk n x.toNat) ∧ exec (.headProbe n none) s = .next (s.probeFail n)) ∧
    (∀ x, s.boot.vddField = false ∨ (s.laneType n).outlet = false ∨ s.clk.decade ≠ n.val % 10 → exec (.headProbe n x) s = .next s) ∧
    (∀ ident ans, (s.head n).present = true → (s.head n).rollCall = true → s.rollCallCause n ident ans ≠ 0 →
      exec (.headRollCallDone n ident ans) s = .next ((s.modHead n fun h => { h with rollCall := false, failed := false }).headFail n (s.rollCallCause n ident ans))) ∧
    (∀ ident ans, (s.head n).present = true → (s.head n).rollCall = true → s.rollCallCause n ident ans = 0 → s.rd F.SYS_STAGE_STAGE < 6 →
      ∃ t, exec (.headRollCallDone n ident ans) s = .next t ∧ (t.head n).ident = ident ∧ (t.head n).rollCall = false ∧
        (t.head n).rcab = leAt ident 0x0C 4 ∧ t.rd (F.SWA_Ln_LKST_TYPE n) = leAt ident 0x13 1 % 2 ^ (F.SWA_Ln_LKST_TYPE n).width) ∧
    (∀ ident ans, (s.head n).present = false ∨ (s.head n).rollCall = false → exec (.headRollCallDone n ident ans) s = .next s) ∧
    (∀ v, let js := identSensors (s.head n).ident;
      s.boot.vddField = true → (s.head n).present = true → js ≠ [] → s.clk.decade = (n.val + 5) % 10 →
      let j := js.getD ((s.head n).sensIdx % js.length) 0;
      ∃ t, exec (.headSensorRead n (some v)) s = .next t ∧ t.rd (F.MET_Ln_HTj_TEMP n j) = v.toNat ∧ t.rd (F.MET_Ln_HTj_VALID n j) = 1 ∧
        t.rd (F.MET_Ln_HTj_STALE n j) = 0 ∧ (t.head n).sensIdx = ((s.head n).sensIdx + 1) % js.length) ∧
    (let js := identSensors (s.head n).ident;
      s.boot.vddField = true → (s.head n).present = true → js ≠ [] → s.clk.decade = (n.val + 5) % 10 →
      let j := js.getD ((s.head n).sensIdx % js.length) 0;
      2 ≤ lk (fun _ => 0) (s.head n).sensFails j → ∃ t, exec (.headSensorRead n none) s = .next t ∧ t.rd (F.MET_Ln_HTj_STALE n j) = 1) ∧
    (∀ v, s.boot.vddField = false ∨ (s.head n).present = false ∨ identSensors (s.head n).ident = [] ∨ s.clk.decade ≠ (n.val + 5) % 10 →
      exec (.headSensorRead n v) s = .next s)

/-- Commands of the key store start, are refused or end at once. With the store idle and a valid TYPE and SLOT, a command writes
its operation and arguments. GEN, IMPORT and ERASE then run, BUSY set, until KEY_COMMAND_DONE; while a re-seal holds slot
writes they end at once with ERR 3. NEWBILL without an open session and without a close that waits advances KGEN by one,
wrapping, and ends with ERR 0. PUB of the billing key shows a public key and ends with ERR 0. RESEAL without new measurements
ends with ERR 5. While BUSY, a command only writes its arguments; a TYPE of 0 or a SLOT outside 0 to 63 and 0x7F is ignored
whole. -/
def Obligations.KeyStoreCommands : Prop :=
  ∀ s : State,
    (∀ (use : Byte) (bind : BitVec 2) (typ : BitVec 3) (slot : BitVec 7) (addr : Word),
      (typ = 0 ∨ (64 ≤ slot.toNat ∧ slot.toNat ≠ 0x7F) → exec (.keyGen use bind typ slot) s = .next s ∧
        exec (.keyImport use bind typ slot addr) s = .next (s.wr F.KEY_ADDR_ADDR addr.toNat)) ∧
      (s.on F.KEY_STAT_BUSY = false → typ ≠ 0 → slotsFor typ.toNat slot.toNat ≠ [] → slot.toNat < 64 →
        (s.sealHeld = false →
          (∃ t, exec (.keyGen use bind typ slot) s = .next t ∧ t.rd F.KEY_STAT_BUSY = 1 ∧
            t.key.run = some { op := 1, slot := slot.toNat, typ := typ.toNat, use := use.toNat, bind := bind.toNat }) ∧
          (∃ t r, exec (.keyImport use bind typ slot addr) s = .next t ∧ t.rd F.KEY_STAT_BUSY = 1 ∧ t.rd F.KEY_ADDR_ADDR = addr.toNat ∧
            t.key.run = some r ∧ r.op = 2 ∧ r.slot = slot.toNat ∧ r.typ = typ.toNat)) ∧
        (s.sealHeld = true → (∃ t, exec (.keyGen use bind typ slot) s = .next t ∧ t.rd F.KEY_STAT_ERR = 3 ∧ t.rd F.KEY_STAT_BUSY = 0) ∧
          (∃ t, exec (.keyImport use bind typ slot addr) s = .next t ∧ t.rd F.KEY_STAT_ERR = 3 ∧ t.rd F.KEY_STAT_BUSY = 0)))) ∧
    (∀ slot : BitVec 7, slot.toNat < 64 → s.on F.KEY_STAT_BUSY = false → s.sealHeld = false → ∃ t r, exec (.keyErase slot) s = .next t ∧
      t.rd F.KEY_STAT_BUSY = 1 ∧ t.key.run = some r ∧ r.op = 3 ∧ r.slot = slot.toNat) ∧
    (s.on F.KEY_STAT_BUSY = false → ∃ t, exec (.keyPub 0x7F) s = .next t ∧ t.rd F.KEY_STAT_ERR = 0 ∧ t.rd F.KEY_STAT_BUSY = 0) ∧
    (s.on F.KEY_STAT_BUSY = false → s.openSessions = [] → s.bil.closes = [] → s.bil.signing = [] → ∃ t, exec .keyNewbill s = .next t ∧
      t.rd F.KEY_KGEN_KGEN = (s.rd F.KEY_KGEN_KGEN + 1) % 65536 ∧ t.rd F.KEY_STAT_ERR = 0 ∧ t.rd F.KEY_STAT_BUSY = 0) ∧
    (s.on F.KEY_STAT_BUSY = false → s.openSessions ≠ [] → ∃ t, exec .keyNewbill s = .next t ∧ t.rd F.KEY_STAT_ERR = 1 ∧
      t.rd F.KEY_KGEN_KGEN = s.rd F.KEY_KGEN_KGEN) ∧
    (s.on F.KEY_STAT_BUSY = false → s.sealHeld = false → s.newMeas = true → ∃ t r, exec .keyReseal s = .next t ∧ t.rd F.KEY_STAT_BUSY = 1 ∧ t.key.run = some r ∧ r.op = 6) ∧
    (s.on F.KEY_STAT_BUSY = false → s.sealHeld = false → s.newMeas = false → ∃ t, exec .keyReseal s = .next t ∧ t.rd F.KEY_STAT_ERR = 5)

/-- A running key command ends with its result, and zeroise erases every slot. KEY_COMMAND_DONE with no command running changes
nothing; with one running, BUSY reads 0 and no command runs any more; ERR is 0 after GEN, ERASE and RESEAL, and after an
IMPORT whose blob does not open it is 2. A GEN of a key in one slot writes the copy that is not in force, with the next GEN,
and brings it into force; the other copy stays. ZEROISE leaves no slot copy, select words of 0, no re-seal done and a zeroise
count one higher up to its largest value; a command that ran ends with ERR 6. DRBG_RESEED takes new seed material only after
2^20 requests. -/
def Obligations.KeyCommandsEnd : Prop :=
  ∀ s : State,
    (s.key.run = none → exec .keyCommandDone s = .next s) ∧
    (∀ r, s.key.run = some r → ∃ t, exec .keyCommandDone s = .next t ∧ t.key.run = none ∧ t.rd F.KEY_STAT_BUSY = 0 ∧
      (r.op ≠ 2 → t.rd F.KEY_STAT_ERR = 0) ∧
      (r.op = 1 → ∀ n, slotsFor r.typ r.slot = [n] → copyGen (t.slot n) = s.nextGen n ∧ copyTyp (t.slot n) = r.typ % 256 ∧
        t.slotSel n = 1 - s.slotSel n ∧ t.slotCopy n (s.slotSel n) = s.slot n) ∧
      (r.op = 2 → s.importBlob (leBytes 1 r.typ ++ leBytes 1 r.use ++ leBytes 1 r.bind ++ [0]) r.blob = none →
        t.rd F.KEY_STAT_ERR = 2 ∧ t.key.copies = s.key.copies)) ∧
    (∃ t, exec .zeroise s = .next t ∧ t.key.copies = [] ∧ t.rd F.KEY_SEL_NOW = 0 ∧ t.rd F.KEY_SEL_PEND = 0 ∧ t.rd F.KEY_RESEAL_DONE = 0 ∧
      t.rd F.KEY_ZST_ZCNT = min F.KEY_ZST_ZCNT.max (s.rd F.KEY_ZST_ZCNT + 1) ∧ (s.key.run ≠ none → t.key.run = none ∧ t.rd F.KEY_STAT_ERR = 6)) ∧
    (∀ e, s.key.reqs < 2 ^ 20 → exec (.drbgReseed e) s = .next s) ∧
    (∀ e, 2 ^ 20 ≤ s.key.reqs → exec (.drbgReseed e) s = .next (s.setKey { s.key with drbg := drbgUpdate (padTo 48 s.key.drbg) e, reqs := 0 }))

/-- A raise sets the source's sticky state, its class and its cause; the four sources of R307 wait to be merged. For every source
below 256, class 0 to 4 and scope: a raise makes its cause present. Of a source other than 0x46, 0x4A, 0x62 and 0x63, unless
the same raise was made in this frame already, it leaves the sticky bit 1, the class the larger of the old and the new one,
its bit in the summary set, and a journal whose newest event is that source at the current epoch; of these four it only waits
for the end of the frame. There it is recorded in the same way, or, where an earlier raise of another source takes it up,
marks that one MERGED from it and leaves its own sticky bit as it was. (That the four wait for the end of the frame is log
entry 43.) -/
def Obligations.IndependentRaisesAreRecorded : Prop :=
  (∀ (s : State) (src cls : Nat) (scope : Option LaneSet), src < 256 → cls ≤ 4 →
    let sc := scope.map s.widen
    let t := s.raise src cls scope
    (⟨src, cls, sc⟩ ∈ t.flt.causes) ∧
    (mergeable src = true → t = (let u := s.causeOn src cls sc; u.setFlt { u.flt with due := s.flt.due ++ [⟨s.clk.frame, src, cls, sc⟩] })) ∧
    (mergeable src = false → s.raisedNow src cls sc = true → t = s.causeOn src cls sc) ∧
    (mergeable src = false → s.raisedNow src cls sc = false →
      t.rd (F.FLT_SRCi_STK src) = 1 ∧ t.rd (F.FLT_SRCi_CLASS src) = max cls (s.rd (F.FLT_SRCi_CLASS src)) ∧
      t.rdBit (F.FLT_SUMk_STK (src / 32)) (src % 32) = true ∧
      ∃ e rest, t.journal = e :: rest ∧ e.index = src ∧ e.epoch = s.rd F.TCK_EPOCH_EPOCH ∧ rest = s.journal)) ∧
  (∀ (s : State) (r : FltRaise), r.src < 256 → r.cls ≤ 4 →
    let t := s.raiseJudged r
    (mergeTarget s r.src r.scope = none → s.raisedNow r.src r.cls r.scope = false →
      t.rd (F.FLT_SRCi_STK r.src) = 1 ∧ t.rd (F.FLT_SRCi_CLASS r.src) = max r.cls (s.rd (F.FLT_SRCi_CLASS r.src))) ∧
    (∀ a, mergeTarget s r.src r.scope = some a → a.src < 256 →
      mergeable r.src = true ∧ a.src ≠ r.src ∧ t.rd (F.FLT_SRCi_MERGED a.src) = 1 ∧ t.rd (F.FLT_SRCi_MERGEDFROM a.src) = r.src ∧
      t.rd (F.FLT_SRCi_STK r.src) = s.rd (F.FLT_SRCi_STK r.src)))

/-- A fault clear needs the sequence number and keeps bits whose cause is present. FAULT_CLEAR without bit 23, the sticky bit,
changes nothing; with it and a sequence number other than the source's, it is counted as stale and changes nothing else. With
the current number, a lane-scoped source keeps exactly its lane bits outside FLT_CLRMASK or with their cause present, and a
device-scoped source whose cause is present keeps its sticky bit. Once no lane bit is left and no device-scoped raise with its
cause is, the sticky bit, CLASS and PERM read 0, and what was merged into the source and still has its cause becomes sticky. -/
def Obligations.FaultClearsKeepWhatIsPresent : Prop :=
  ∀ (s : State) (i : Fin 256) (v : Word),
    (bitOf v.toNat 23 = false → exec (.faultClear i v) s = .next s) ∧
    (bitOf v.toNat 23 = true → seqOf v ≠ s.rd (F.FLT_SRCi_SEQ i) → ∃ t, exec (.faultClear i v) s = .next t ∧
      t.rd F.SYS_STALE_COUNT = min 0xFFFF (s.rd F.SYS_STALE_COUNT + 1) ∧ t.rd F.SYS_STALE_BLOCK = 2 ∧ RegsBut [A.SYS_STALE] s t) ∧
    (bitOf v.toNat 23 = true → seqOf v = s.rd (F.FLT_SRCi_SEQ i) →
      let lanes := s.rdSet (F.FLT_SRCi_LSTK_LANE i)
      let kept := lanes &&& (~~~(s.rdSet F.FLT_CLRMASK_LANE) ||| s.rdSet (F.FLT_SRCi_LCAU_LANE i))
      (lanes = 0 → s.rd (F.FLT_SRCi_CAUSE i) = 1 → ∃ t, exec (.faultClear i v) s = .next t ∧ t.rd (F.FLT_SRCi_STK i) = s.rd (F.FLT_SRCi_STK i) ∧
        RegsBut [A.FLT_SRCi i] s t) ∧
      (kept ≠ 0 → (∀ x ∈ s.flt.merged, x.into = i.val → x.src ≠ i.val) → ∃ t, exec (.faultClear i v) s = .next t ∧
        t.rdSet (F.FLT_SRCi_LSTK_LANE i) = kept ∧ t.rd (F.FLT_SRCi_STK i) = s.rd (F.FLT_SRCi_STK i)) ∧
      (kept = 0 → s.rd (F.FLT_SRCi_STK i) = 1 → (lanes = 0 → s.rd (F.FLT_SRCi_CAUSE i) = 0) → (lanes ≠ 0 → lk (fun _ => 0) s.flt.dev i.val = 0) →
        (∀ x ∈ s.flt.merged, x.into = i.val → x.src ≠ i.val) → ∃ t, exec (.faultClear i v) s = .next t ∧
        t.rdSet (F.FLT_SRCi_LSTK_LANE i) = 0 ∧ t.rd (F.FLT_SRCi_STK i) = 0 ∧ t.rd (F.FLT_SRCi_CLASS i) = 0 ∧ t.rd (F.FLT_SRCi_PERM i) = 0 ∧
        t.rd (F.FLT_SRCi_MERGED i) = 0 ∧
        (∀ x ∈ s.flt.merged, x.into = i.val → x.src < 256 → (∃ c ∈ s.flt.causes, c.src = x.src ∧ c.scope = x.scope) → t.rd (F.FLT_SRCi_STK x.src) = 1)))

/-- RETIRE takes a lane's group out of service, RESTORE brings it back unless it is denied. LANE_RETIRE adds the whole group of
the lane in FLT_RETCMD to the retired lanes and keeps the others as they are. LANE_RESTORE, when it is denied (a member lane,
a sticky fault of lane class or higher on the group, a weld whose mirrors do not all show open), only sets DENIED; otherwise
it takes the whole group out of the retired lanes and keeps the others. -/
def Obligations.RetirementCommands : Prop :=
  ∀ s : State, let n := s.rd F.FLT_RETCMD_LANE
    (∃ t, exec .laneRetire s = .next t ∧ t.rdSet F.FLT_RETIRED_LANE = s.rdSet F.FLT_RETIRED_LANE ||| s.widen (laneBit n)) ∧
    (restoreDenied s n = true → exec .laneRestore s = .next (s.sticky F.FLT_RETCMD_DENIED)) ∧
    (restoreDenied s n = false → ∃ t, exec .laneRestore s = .next t ∧
      t.rdSet F.FLT_RETIRED_LANE = s.rdSet F.FLT_RETIRED_LANE &&& ~~~(s.groupSet n) ∧
      t.rdSet (F.SAF_ACON_LANE 5) = s.rdSet (F.SAF_ACON_LANE 5) &&& ~~~(s.groupSet n))

/-- The fault pins wait for the next edge, the fault input raises by its levels, the encoders count. FAULT_PIN_RELEASE notes the
request and changes nothing else. With the fault input enabled, equal levels show broken wire and, unless its cause is present
already, raise 0x0C with device class, P low and M high shows the fault level and so raises 0x0B with the class set for it,
and the normal levels end both causes; not enabled, the levels change nothing. For an enabled encoder, a legal transition of
its two lines moves the count by one, up or down by the cycle and DIR, modulo 2^32; no change of phase leaves the count; a
disabled encoder ignores its lines. ENCODER_HOME loads HOME.VALUE into the count and clears UNREL. -/
def Obligations.FaultPinsInputsAndEncoders : Prop :=
  (∀ (s : State) (p m : Bool),
    exec .faultPinRelease s = .next (s.setFlt { s.flt with releaseReq := true }) ∧
    (s.rd F.FLT_CFG_FIEN = 0 → exec (.faultInputLevel p m) s = .next s) ∧
    (s.rd F.FLT_CFG_FIEN ≠ 0 → p = m → exec (.faultInputLevel p m) s = .next (let u := (s.wr F.FLT_PIN_FLTI 2).causeOff 0x0B none
      if s.causeIs 0x0C then u else u.raiseDev 0x0C 3)) ∧
    (s.rd F.FLT_CFG_FIEN ≠ 0 → p = false → m = true → ∃ t, exec (.faultInputLevel p m) s = .next t ∧
      t = (let u := (s.wr F.FLT_PIN_FLTI 1).causeOff 0x0C none; if s.causeIs 0x0B then u else u.raiseDev 0x0B (u.rd F.FLT_CFG_FICLS))) ∧
    (s.rd F.FLT_CFG_FIEN ≠ 0 → p = true → m = false → exec (.faultInputLevel p m) s = .next (((s.wr F.FLT_PIN_FLTI 0).causeOff 0x0B none).causeOff 0x0C none))) ∧
  (∀ (s : State) (k : Fin 8) (a b : Bool), let d := (encPhase a b + 4 - encPhase (s.enc k).a (s.enc k).b) % 4
    (s.rd (F.FLT_QENk_CTL_EN k) = 0 → exec (.encoderEdge k a b) s = .next s) ∧
    (s.rd (F.FLT_QENk_CTL_EN k) ≠ 0 → d = 1 ∨ d = 3 → ∃ t, exec (.encoderEdge k a b) s = .next t ∧
      t.word (A.FLT_QENk_CNT k) = (if xor (decide (d = 1)) (decide (s.rd (F.FLT_QENk_CTL_DIR k) ≠ 0)) then s.word (A.FLT_QENk_CNT k) + 1
        else s.word (A.FLT_QENk_CNT k) - 1) ∧ (t.enc k).a = a ∧ (t.enc k).b = b ∧ WordsBut [A.FLT_QENk_CNT k] s t ∧ Frame [.regs, .flt] s t) ∧
    (s.rd (F.FLT_QENk_CTL_EN k) ≠ 0 → d = 0 → ∃ t, exec (.encoderEdge k a b) s = .next t ∧ Frame [.flt] s t) ∧
    (s.rd (F.FLT_QENk_CTL_EN k) ≠ 0 → d = 2 → exec (.encoderEdge k a b) s = .next ((s.modEnc k fun e => { e with a := a, b := b }).encIllegal k)) ∧
    (∃ t, exec (.encoderHome k) s = .next t ∧ t.rd (F.FLT_QENk_CNT_COUNT k) = s.rd (F.FLT_QENk_HOME_VALUE k) ∧ t.rd (F.FLT_QENk_CTL_UNREL k) = 0 ∧
      (t.enc k).illegal = []))

/-- The heartbeat's keys alternate; a late key is probed, an unanswered probe is the wedged fault, and it may reset. The key in
turn (0x5A3C first, then 0xA5C3) is taken: the turn changes, the time of the last good key is now, no wedged state remains and
cause 0x08 ends; a probe that is out still waits for its own answer. The answer 0x7E81 within 10 ms of a probe begins the
alternation anew and is an event of 0x08 with degrade class. Any other key adds one to the bad-key count and changes no other
register. WATCHDOG_PROBE, while an image runs (stage 0x4 and later: log entry 43), with no probe out, no wedged state and no
good key for WDT ms sends one and interrupts the cores. WATCHDOG_PROBE_TIMEOUT 10 frames or more after it raises 0x08 with
device class. WATCHDOG_RESET, with the wedged state older than a WRST that is not 0, makes a final save, counts a reset and
starts warm, or rolls back in a trial. Otherwise each changes nothing. -/
def Obligations.HeartbeatOfTheCluster : Prop :=
  ∀ s : State,
    let answers : Prop := ∃ f, s.flt.wdProbe = some f ∧ s.clk.frame ≤ f + 10
    (∀ k : BitVec 16, k.toNat = nextKey s → ∃ t, exec (.watchdogKey k) s = .next t ∧
      t.flt.wdFirst = !s.flt.wdFirst ∧ t.flt.wdLast = s.clk.frame ∧ t.flt.wdProbe = s.flt.wdProbe ∧ t.flt.wdWedged = none ∧ (∀ c ∈ t.flt.causes, c.src ≠ 0x08)) ∧
    (answers → exec (.watchdogKey 0x7E81) s =
      .next ((s.setFlt { s.flt with wdProbe := none, wdFirst := true, wdLast := s.clk.frame }).raiseOnce 0x08 1 none)) ∧
    (∀ k : BitVec 16, ¬(k.toNat = 0x7E81 ∧ answers) → k.toNat ≠ nextKey s → ∃ t, exec (.watchdogKey k) s = .next t ∧
      t.rd F.FLT_WDOG_BADKEY = min F.FLT_WDOG_BADKEY.max (s.rd F.FLT_WDOG_BADKEY + 1) ∧ RegsBut [A.FLT_WDOG] s t) ∧
    (4 ≤ s.stage → s.flt.wdProbe = none → s.flt.wdWedged = none → s.flt.wdLast + s.rd F.FLT_WDCFG_WDT ≤ s.clk.frame →
      exec .watchdogProbe s = .next (s.setFlt { s.flt with wdProbe := some s.clk.frame, irq := s.flt.irq + 1 })) ∧
    (s.stage < 4 ∨ s.flt.wdProbe ≠ none ∨ s.flt.wdWedged ≠ none ∨ s.clk.frame < s.flt.wdLast + s.rd F.FLT_WDCFG_WDT → exec .watchdogProbe s = .next s) ∧
    (∀ f, s.flt.wdProbe = some f → f + 10 ≤ s.clk.frame → exec .watchdogProbeTimeout s =
      .next ((s.setFlt { s.flt with wdProbe := none, wdWedged := some s.clk.frame }).raiseDev 0x08 3)) ∧
    (∀ f, s.flt.wdProbe = some f → s.clk.frame < f + 10 → exec .watchdogProbeTimeout s = .next s) ∧ (s.flt.wdProbe = none → exec .watchdogProbeTimeout s = .next s) ∧
    (∀ f, s.flt.wdWedged = some f → s.rd F.FLT_WDCFG_WRST ≠ 0 → f + 1000 * s.rd F.FLT_WDCFG_WRST ≤ s.clk.frame →
      let u := ((s.saveStart true).saveEnd).count F.FLT_WDOG_RESETS 1
      exec .watchdogReset s = .next (if u.upd.trial then u.rollback else u.warmStart)) ∧
    (∀ f, s.flt.wdWedged = some f → s.clk.frame < f + 1000 * s.rd F.FLT_WDCFG_WRST → exec .watchdogReset s = .next s) ∧
    (s.flt.wdWedged = none ∨ s.rd F.FLT_WDCFG_WRST = 0 → exec .watchdogReset s = .next s)

/-- An over-current trip opens a channel, counts, and pauses or latches it. A channel trips when its current is above its
hard-short level, or has been above its trip level for 20 µs: PICUR or HOLD plus 0.5 A for a coil in pull-in or hold, 1.5
times the inrush current or IRATE for a general channel in inrush or after it, none for a lock. For every protected channel
that is on, a trip is counted up to 15; below the limit SWA_CFG.N the channel stands off in a retry pause of min(2^(k − 1),
512) ms for its k-th trip, and at the limit it is latched with its source raised. A channel that is off, or whose current is
not so high, counts nothing. RETRY_PAUSE_END, when the pause has ended, ends it and requests a start; TRIP_COUNT_RESET, on for
RESET ms without a trip, sets the count to 0; before those times they change nothing. (Where in its range a hard-short level
lies is an open value: log entry 2.) -/
def Obligations.ChannelTripsPauseOrLatch : Prop :=
  ∀ (s : State) (ch : ChanId) (ma us : Nat), let c := chanIndex ch
    let high : Prop := hardShort c < ma ∨ 20 ≤ us ∧ ∃ l, s.tripLevel c = some l ∧ l < ma
    (s.chanOn c = false ∨ ¬high → exec (.channelTrip ⟨ch, ma, us⟩) s = .next s) ∧
    (s.chanOn c = true → high → let u := ((s.chanStop c).setTrips c (satNat 15 (s.trips c + 1))).tripSticky c
      (s.trips c + 1 < s.rd F.SWA_CFG_N → ∃ t, exec (.channelTrip ⟨ch, ma, us⟩) s = .next t ∧ t = ((u.modChan c fun x => { x with
          pauseEnd := s.clk.frame + min (2 ^ s.trips c) 512 }).showRest c) ∧
        (t.chan c).moving = false ∧ (t.chan c).onSince = none ∧ t.chanOn c = false) ∧
      (s.rd F.SWA_CFG_N ≤ s.trips c + 1 → ∃ t, exec (.channelTrip ⟨ch, ma, us⟩) s = .next t ∧ (t.chan c).latched = true ∧ (t.chan c).moving = false ∧
        t.chanOn c = false)) ∧
    (∀ n : Lane, s.tripLevel n = some (if s.rd (F.SWA_Ln_CCST_STATE n) = 1 then 500 + 100 * (F.SWA_Ln_CCCFG_PICUR n).of (s.chan n).cfg
      else 500 + 10 * (F.SWA_Ln_CCCFG_HOLD n).of (s.chan n).cfg)) ∧
    (∀ k : Fin 32, s.tripLevel (64 + k) = some (if s.rd (F.SWA_Gk_ST_STATE k) = 1 then 3 * (s.chan (64 + k)).inrush / 2
      else 15 * s.rd (F.SWA_Gk_CFG_IRATE k))) ∧ (∀ n : Lane, s.tripLevel (32 + n) = none) ∧
    (if 32 ≤ c ∧ c < 64 then 3500 ≤ hardShort c ∧ hardShort c ≤ 4500 else 5000 ≤ hardShort c ∧ hardShort c ≤ 7000) ∧
    ((s.chan c).pauseEnd ≠ 0 → (s.chan c).pauseEnd ≤ s.clk.frame →
      exec (.retryPauseEnd ch) s = .next (((s.modChan c fun k => { k with pauseEnd := 0 }).showRest c).request c)) ∧
    ((s.chan c).pauseEnd = 0 ∨ s.clk.frame < (s.chan c).pauseEnd → exec (.retryPauseEnd ch) s = .next s) ∧
    (∀ f, (s.chan c).onSince = some f → s.chanOn c = true → f + s.rd F.SWA_CFG_RESET ≤ s.clk.frame → exec (.tripCountReset ch) s = .next (s.setTrips c 0)) ∧
    (∀ f, (s.chan c).onSince = some f → s.chanOn c = false ∨ s.clk.frame < f + s.rd F.SWA_CFG_RESET → exec (.tripCountReset ch) s = .next s) ∧
    ((s.chan c).onSince = none → exec (.tripCountReset ch) s = .next s)

/-- A latch is released unless its source is still sticky. RELEASE_CC_LATCH, RELEASE_LK_LATCH and, for a channel of role 3,
RELEASE_GEN_LATCH are ignored while the latch source's sticky bit is set for the lane (0x43, 0x44) or the device (0x45);
otherwise the channel is latched no more and its trip count is 0. RELEASE_GEN_LATCH of a channel of another role is ignored. -/
def Obligations.LatchReleases : Prop :=
  ∀ (s : State) (n : Lane) (k : Fin 32),
    (s.rdBit (F.FLT_SRCi_LSTK_LANE 0x43) n = true → exec (.releaseCcLatch n) s = .next s) ∧
    (s.rdBit (F.FLT_SRCi_LSTK_LANE 0x43) n = false → ∃ t, exec (.releaseCcLatch n) s = .next t ∧ (t.chan n).latched = false ∧ t.trips n = 0) ∧
    (s.rdBit (F.FLT_SRCi_LSTK_LANE 0x44) n = true → exec (.releaseLkLatch n) s = .next s) ∧
    (s.rdBit (F.FLT_SRCi_LSTK_LANE 0x44) n = false → ∃ t, exec (.releaseLkLatch n) s = .next t ∧ (t.chan (32 + n)).latched = false ∧ t.trips (32 + n) = 0) ∧
    (s.rd (F.FLT_SRCi_STK 0x45) ≠ 0 ∨ s.rd (F.SWA_Gk_CFG_ROLE k) ≠ 3 → exec (.releaseGenLatch k) s = .next s) ∧
    (s.rd (F.SWA_Gk_CFG_ROLE k) = 3 → s.rd (F.FLT_SRCi_STK 0x45) = 0 → ∃ t, exec (.releaseGenLatch k) s = .next t ∧ (t.chan (64 + k)).latched = false ∧ t.trips (64 + k) = 0)

/-- Switching general channels, pull-in, lock moves and their repeats, bookings, open loads. GEN_CHANNEL_ON and GEN_CHANNEL_OFF,
of a write to SWA_Gk_CTL, act on role-3 channels alone, and of the service image on channels of role 0 or 1: a start request,
and off at once (the channel then does not conduct, and nothing of it is queued or paused). PULL_IN_END at the end of the
pull-in time changes pull-in to hold. LOCK_MOVE_END on a moving lock shows the attempt's time and peak, ends the move, and
shows the new position when it is confirmed; a first attempt not confirmed is to be repeated 200 frames later, which
LOCK_RETRY requests. BOOKING_RELEASE releases a booking that has ended and runs the scheduler. OPEN_LOAD of a channel whose
current was below its threshold in ten consecutive frames, and is now, raises 0x41 for a lane's coil, with lane class when a
mirror shows open and else degrade, and 0x42 for a general channel. Otherwise each changes nothing. -/
def Obligations.ChannelsAndLocksAtWork : Prop :=
  ∀ (s : State) (n : Lane) (k : Fin 32),
    (∀ image : Bool, s.maySwitch k image = true → exec (.genChannelOn ⟨k, image⟩) s = .next (s.request (64 + k)) ∧
      ∃ t, exec (.genChannelOff ⟨k, image⟩) s = .next t ∧ (t.chan (64 + k)).queued = none ∧ (t.chan (64 + k)).pauseEnd = 0 ∧ (t.chan (64 + k)).onSince = none ∧
        t.chanOn (64 + k) = false) ∧
    (∀ image : Bool, s.maySwitch k image = false → exec (.genChannelOn ⟨k, image⟩) s = .next s ∧ exec (.genChannelOff ⟨k, image⟩) s = .next s) ∧
    (s.maySwitch k false = true ↔ s.rd (F.SWA_Gk_CFG_ROLE k) = 3) ∧ (s.maySwitch k true = true ↔ s.rd (F.SWA_Gk_CFG_ROLE k) ≤ 1) ∧
    (s.rd (F.SWA_Ln_CCST_STATE n) = 1 → (s.chan n).bookEnd ≤ s.clk.frame → ∃ t, exec (.pullInEnd n) s = .next t ∧ t.rd (F.SWA_Ln_CCST_STATE n) = 2 ∧
      RegsBut [A.SWA_Ln_CCST n] s t) ∧
    (s.rd (F.SWA_Ln_CCST_STATE n) ≠ 1 ∨ s.clk.frame < (s.chan n).bookEnd → exec (.pullInEnd n) s = .next s) ∧
    (∀ cur : List Nat, (s.chan (32 + n)).moving = false → exec (.lockMoveEnd n cur) s = .next s) ∧
    (∀ cur : List Nat, (s.chan (32 + n)).moving = true → lockConfirmed s n cur = true → ∃ t, exec (.lockMoveEnd n cur) s = .next t ∧
      t.rd (F.SWA_Ln_LKST_POS n) = (if (s.chan (32 + n)).dir then 1 else 2) ∧ (t.chan (32 + n)).moving = false ∧ (t.chan (32 + n)).retryAt = 0 ∧
      t.rd (F.SWA_Ln_LKST_TIME n) = min (F.SWA_Ln_LKST_TIME n).max cur.length) ∧
    (∀ cur : List Nat, (s.chan (32 + n)).moving = true → lockConfirmed s n cur = false → (s.chan (32 + n)).attempt < 2 → ∃ t, exec (.lockMoveEnd n cur) s = .next t ∧
      (t.chan (32 + n)).moving = false ∧ (t.chan (32 + n)).retryAt = s.clk.frame + 200) ∧
    ((s.chan (32 + n)).retryAt ≠ 0 → (s.chan (32 + n)).retryAt ≤ s.clk.frame →
      exec (.lockRetry n) s = .next ((s.modChan (32 + n) fun c => { c with retryAt := 0 }).request (32 + n))) ∧
    ((s.chan (32 + n)).retryAt = 0 ∨ s.clk.frame < (s.chan (32 + n)).retryAt → exec (.lockRetry n) s = .next s) ∧
    (∀ c : ChanId, exec (.bookingRelease (.chan c)) s = .next ((s.releaseChan (chanIndex c)).schedule)) ∧
    (∀ r : Fin 4, exec (.bookingRelease (.reader r)) s = .next ((s.releaseReader r.val).schedule)) ∧
    (s.isOpen n = true → exec (.openLoad (.cc n)) s = .next ((s.sticky (F.SWA_Ln_STAT_CCOPEN n)).raiseLane 0x41
      (if s.mirBoth n then 1 else 2) n)) ∧
    (s.isOpen n = false → exec (.openLoad (.cc n)) s = .next s) ∧ exec (.openLoad (.lk n)) s = .next s ∧
    (s.isOpen (64 + k.val) = true → exec (.openLoad (.gen k)) s = .next ((s.sticky (F.SWA_Gk_ST_OPEN k)).raiseDev 0x42 1)) ∧
    (s.isOpen (64 + k.val) = false → exec (.openLoad (.gen k)) s = .next s)

/-- Supply conditions and heat switch the channels off, and their end lets interrupted channels ask again. Ground loss, reverse
supply, surge and under-voltage set their status and level, interrupt every channel that is on, make every lock position
unknown and raise 0x48 (ground, device class) or 0x47 (degrade). SUPPLY_RESUME ends one, and with none left, and the die not
over-hot, the interrupted channels ask again. OVER_TEMP_OFF interrupts every channel and refuses requests until
OVER_TEMP_RESUME at 5 °C below the limit, which has them ask again unless a supply condition lasts. THERMAL_SHED sheds, while
shedding is called for, the highest-numbered general channel that is on and marked for it. CLAMP_EVENT adds its energy to the
channel's bucket; CLAMP_BUCKET_DRAIN drains every bucket that is not empty. -/
def Obligations.SupplyAndThermalConditions : Prop :=
  ∀ s : State,
    exec .fieldGroundLoss s = .next ((((s.sticky F.SWA_SUPPLY_GND).wrB F.SWA_SUPPLY_GNDNOW true).interruptAll.locksUnknown).raiseDev 0x48 3) ∧
    (∃ t, exec .reverseAux s = .next t ∧ t.swa.reverse = s.boot.vddField) ∧
    exec .auxSurge s = .next ((((s.sticky F.SWA_SUPPLY_OV).wrB F.SWA_SUPPLY_OVNOW true).interruptAll.locksUnknown).raiseDev 0x47 1) ∧
    exec .auxUnderVoltage s = .next ((((s.sticky F.SWA_SUPPLY_UV).wrB F.SWA_SUPPLY_UVNOW true).interruptAll.locksUnknown).raiseDev 0x47 1) ∧
    (∀ c : Fin 4, ∃ t u, exec (.supplyResume c) s = .next t ∧ t = (if u.supplyBad || u.swa.overTemp then u else u.resumeAll) ∧
      u.rd (match c with | 0 => F.SWA_SUPPLY_GNDNOW | 1 => F.SWA_SUPPLY_REVNOW | 2 => F.SWA_SUPPLY_OVNOW | 3 => F.SWA_SUPPLY_UVNOW) = 0) ∧
    (∃ t, exec .overTempOff s = .next t ∧ t.swa.overTemp = true ∧ t.swa.chans = s.interruptAll.swa.chans) ∧
    (s.swa.overTemp = true → s.pins.fieldT ≤ 16 * s.rd F.SWA_THERM_THOT - 80 →
      exec .overTempResume s = .next (let u := s.setSwa { s.swa with overTemp := false }; if s.supplyBad then u else u.resumeAll)) ∧
    (s.swa.overTemp = false ∨ 16 * s.rd F.SWA_THERM_THOT - 80 < s.pins.fieldT → exec .overTempResume s = .next s) ∧
    (s.mustShed = false → exec .thermalShed s = .next (s.setSwa { s.swa with shedding := false })) ∧
    (s.mustShed = true → ((List.range 32).all fun k => !(s.on (F.SWA_Gk_CFG_SHED k) && s.chanOn (64 + k))) = true →
      exec .thermalShed s = .next (s.setSwa { s.swa with shedding := true })) ∧
    (s.mustShed = true → ∀ k, k < 32 → s.rd (F.SWA_Gk_CFG_SHED k) ≠ 0 → s.chanOn (64 + k) = true →
      (∀ j, k < j → j < 32 → (s.on (F.SWA_Gk_CFG_SHED j) && s.chanOn (64 + j)) = false) → ∃ t, exec .thermalShed s = .next t ∧
      (t.chan (64 + k)).shed = true ∧ (t.chan (64 + k)).onSince = none ∧ t.swa.shedding = true) ∧
    (∀ (ch : ChanId) (mj : BitVec 16), (s.chan (chanIndex ch)).bucket + 1000000 * mj.toNat < 1000000 * s.rd F.SWA_CLAMPCFG_CAP →
      ∃ t, exec (.clampEvent ch mj) s = .next t ∧ (t.chan (chanIndex ch)).bucket = (s.chan (chanIndex ch)).bucket + 1000000 * mj.toNat ∧
        (t.chan (chanIndex ch)).locked = (s.chan (chanIndex ch)).locked) ∧
    (∀ (ch : ChanId) (mj : BitVec 16), 1000000 * s.rd F.SWA_CLAMPCFG_CAP ≤ (s.chan (chanIndex ch)).bucket + 1000000 * mj.toNat →
      ∃ t, exec (.clampEvent ch mj) s = .next t ∧ (t.chan (chanIndex ch)).locked = true) ∧
    exec .clampBucketDrain s = .next (s.each ((s.swa.chans.filter fun kc => kc.2.bucket ≠ 0).map (·.1)) State.drain)

/-- Each counter-clear command makes its counters 0 and changes no other register. For every state, each of the sixteen commands
that clear a counter register (stale clears, denied writes, overruns, stream and quantity counters of a lane, capture
overruns, lost ledger entries, an exit-cause counter, supervisor compares, a safety connection, the two fault injections, the
host port, updates, a reader, memory errors) leaves the counters of its register 0 and every other register word and
everything else in the state as it was; STALE_COUNTER_CLEAR also makes BLOCK 0. SCHED_CLEAR makes the scheduler's maxima 0, of
the queue, of the non-lane waits and of every lane, and keeps the other registers. -/
def Obligations.CounterClearsClearTheirCountersAlone : Prop :=
  (∀ (s : State) (n : Lane) (c : Fin 64) (k : Fin 16) (r : Fin 4),
    (∃ t, exec .staleCounterClear s = .next t ∧ t.rd F.SYS_STALE_COUNT = 0 ∧ RegsBut [A.SYS_STALE] s t) ∧
    (∃ t, exec .wdenyClear s = .next t ∧ t.rd F.SYS_WDENY_COUNT = 0 ∧ RegsBut [A.SYS_WDENY] s t) ∧
    (∃ t, exec .overrunClear s = .next t ∧ t.rd F.TCK_OVR_SAMPLE = 0 ∧ t.rd F.TCK_OVR_FRAME = 0 ∧ t.rd F.TCK_OVR_ALLOC = 0 ∧ t.rd F.TCK_OVR_LEDGER = 0 ∧ RegsBut [A.TCK_OVR, A.TCK_OVR + 4] s t) ∧
    (∃ t, exec (.strcntClear n) s = .next t ∧ t.rd (F.MET_Ln_STRCNT_MV n) = 0 ∧ t.rd (F.MET_Ln_STRCNT_MI n) = 0 ∧ t.rd (F.MET_Ln_STRCNT_EB n) = 0 ∧ RegsBut [A.MET_Ln_STRCNT n] s t) ∧
    (∃ t, exec (.qcntClear n) s = .next t ∧ t.rd (F.MET_Ln_QCNT_CREEP n) = 0 ∧ t.rd (F.MET_Ln_QCNT_MISSED n) = 0 ∧ RegsBut [A.MET_Ln_QCNT n] s t) ∧
    (∃ t, exec .captureOvrClear s = .next t ∧ t.rd F.MET_CAP_OVR_COUNT = 0 ∧ RegsBut [A.MET_CAP_OVR] s t) ∧
    (∃ t, exec .ledgerLostClear s = .next t ∧ t.rd F.BIL_LDG_LOST_COUNT = 0 ∧ RegsBut [A.BIL_LDG_LOST] s t) ∧
    (∃ t, exec (.xcntClear n c) s = .next t ∧ t.rd (F.PIL_Ln_XCNTc_COUNT n c) = 0 ∧ RegsBut [A.PIL_Ln_XCNTc n c] s t) ∧
    (∃ t, exec .safetyCmpClear s = .next t ∧ t.rd F.SAF_CMP_MIS = 0 ∧ t.rd F.SAF_CMP_FAST = 0 ∧ RegsBut [A.SAF_CMP] s t) ∧
    (∃ t, exec (.safetyConnCntClear k) s = .next t ∧ t.rd (F.SAF_CONNk_CNT_FAIL k) = 0 ∧ t.rd (F.SAF_CONNk_CNT_SEQERR k) = 0 ∧ t.rd (F.SAF_CONNk_CNT_CRCERR k) = 0 ∧ RegsBut [A.SAF_CONNk_CNT k] s t) ∧
    (∃ t, exec .sbFinjClear s = .next t ∧ t.rd F.SBU_FICNT_REORD = 0 ∧ t.rd F.SBU_FICNT_CORR = 0 ∧ t.rd F.SBU_FICNT_DROP = 0 ∧ RegsBut [A.SBU_FICNT] s t) ∧
    (∃ t, exec .lnkFinjClear s = .next t ∧ t.rd F.LNK_FICNT_REORD = 0 ∧ t.rd F.LNK_FICNT_CORR = 0 ∧ t.rd F.LNK_FICNT_DROP = 0 ∧ RegsBut [A.LNK_FICNT] s t) ∧
    (∃ t, exec .hostCntClear s = .next t ∧ t.rd F.LNK_HP_ST_CUT = 0 ∧ t.rd F.LNK_HP_ST_CRCERR = 0 ∧ RegsBut [A.LNK_HP_ST] s t) ∧
    (∃ t, exec .updateCntClear s = .next t ∧ t.rd F.UPD_CNT_CRCERR = 0 ∧ t.rd F.UPD_CNT_DUP = 0 ∧ RegsBut [A.UPD_CNT] s t) ∧
    (∃ t, exec (.readerCntClear r) s = .next t ∧ t.rd (F.NFC_RDk_CNT_WAKE r) = 0 ∧ t.rd (F.NFC_RDk_CNT_READS r) = 0 ∧ RegsBut [A.NFC_RDk_CNT r] s t) ∧
    (∃ t, exec .eccCntClear s = .next t ∧ t.rd F.CLU_ECCCNT_COR = 0 ∧ t.rd F.CLU_ECCCNT_UNCOR = 0 ∧ RegsBut [A.CLU_ECCCNT] s t)) ∧
  (∀ s : State, ∃ t, exec .staleCounterClear s = .next t ∧ t.rd F.SYS_STALE_BLOCK = 0) ∧
  (∀ s : State, ∃ t, exec .schedClear s = .next t ∧ t.rd F.ALC_SQ_MAXLEN = 0 ∧ t.rd F.ALC_SWAIT_MAX = 0 ∧
    (∀ n : Lane, t.rd (F.ALC_Ln_WAIT_MAX n) = 0 ∧ t.rd (F.ALC_Ln_WAIT_LAST n) = s.rd (F.ALC_Ln_WAIT_LAST n)) ∧
    RegsBut ([A.ALC_SQ, A.ALC_SWAIT] ++ lanesAll.map A.ALC_Ln_WAIT) s t)

/-- The supervisor's own checks: the safe state, guard pairs, mirrors, welds, safe outputs, the current cross-check. SAFE_REQUEST
enters the safe state by SERVICE: it then shows SAFE and SERVICE, and no lane is let to close; in the safe state by SERVICE
already, it changes nothing. GUARD_INPUT_CHANGE takes the pair's inputs; at stage 8 an open pair of role 2 is an emergency
stop and of role 1 a guard stop. A pair with a role unequal for longer than GDISC sets GDISC once and is 0x67 with lane class
on every lane. A mirror off its coil for longer than MDISC is 0x63 on the lane. WELD_TEST acts once, 50 frames or more after a
coil went off: a weld seen leads the lane out with 0x16. SO_WELD_DELAY_END drives a due output off. SO_FEEDBACK_TIMEOUT raises
0x66 with device class for an output whose feedback disagrees for SOFB frames. CURRENT_CROSSCHECK raises 0x62 on the group's
closed lanes after 10 frames, unless its cause is present on all of them. Otherwise each changes nothing. -/
def Obligations.SupervisorEntersAndLeavesOnChecks : Prop :=
  (∀ s : State, (s.rd F.SAF_STAT_SERVICE = 0 → ∃ t, exec .safeRequest s = .next t ∧ t.rd F.SAF_STAT_SERVICE = 1 ∧ t.rd F.SAF_STAT_SAFE = 1 ∧
      t.rdSet (F.SAF_ACON_LANE 0) = 0 ∧ t.rdSet (F.SAF_ACON_LANE 1) = 0) ∧
    (s.rd F.SAF_STAT_SERVICE ≠ 0 → exec .safeRequest s = .next s)) ∧
  (∀ (s : State) (k : Fin 8) (a b : Bool), let u := s.guardSet k a b
    u.pins.gdA.getLsbD k = a ∧ u.pins.gdB.getLsbD k = b ∧
    (u.rd F.SYS_STAGE_STAGE ≠ 8 → exec (.guardInputChange k a b) s = .next u) ∧
    (u.rd F.SYS_STAGE_STAGE = 8 → u.roleClosed 2 = false → ∃ t, exec (.guardInputChange k a b) s = .next t ∧ t.rd F.SAF_STAT_ESTOP ≠ 0) ∧
    (u.rd F.SYS_STAGE_STAGE = 8 → u.roleClosed 2 = true → u.roleClosed 1 = false →
      ∃ t, exec (.guardInputChange k a b) s = .next t ∧ t.rd F.SAF_STAT_GUARD ≠ 0) ∧
    (u.rd F.SYS_STAGE_STAGE = 8 → u.roleClosed 2 = true → u.roleClosed 1 = true → exec (.guardInputChange k a b) s = .next u)) ∧
  (∀ (s : State) (k : Fin 8) (f : Nat), (s.guard k).disc = some f →
    (s.role k ≠ 0 → f + s.rd F.SAF_CFG_GDISC < s.clk.frame → (s.guard k).discHit = false → exec (.guardDiscrepancy k) s =
      .next (((s.modGuard k fun g => { g with discHit := true, walkOpen := false }).sticky F.SAF_EVT_GDISC).raise 0x67 2 (some (BitVec.allOnes 32)))) ∧
    (s.role k = 0 ∨ s.clk.frame ≤ f + s.rd F.SAF_CFG_GDISC ∨ (s.guard k).discHit = true → exec (.guardDiscrepancy k) s = .next s)) ∧
  (∀ (s : State) (n : Lane), (s.rd F.SAF_CFG_MDISC < s.mdiscFor n → s.causeFor 0x63 n = false →
      exec (.mirrorDiscrepancy n) s = .next ((s.sticky F.SAF_EVT_MDISC).raiseLane 0x63 2 n)) ∧
    (s.mdiscFor n ≤ s.rd F.SAF_CFG_MDISC ∨ s.causeFor 0x63 n = true → exec (.mirrorDiscrepancy n) s = .next s) ∧
    (s.coilOn n = true ∨ (s.chan n).weldTested = true ∨ s.clk.frame < (s.chan n).offSince + 50 → exec (.weldTest n) s = .next s) ∧
    (s.coilOn n = false → (s.chan n).weldTested = false → (s.chan n).offSince + 50 ≤ s.clk.frame →
      ∃ t, exec (.weldTest n) s = .next t ∧ (t.chan n).weldTested = true ∧ (s.weldSeen n = true → n.val ∈ t.saf.weldDue) ∧
        (s.weldSeen n = false → Frame [.swa] s t))) ∧
  (∀ (s : State) (k : Fin 2), let d := lk (fun _ => 0) s.saf.soOffAt k
    (d ≠ 0 → d ≤ s.clk.frame + 1 → ∃ t, exec (.soWeldDelayEnd k) s = .next t ∧ lk (fun _ => 0) t.saf.soOffAt k = 0 ∧ t.saf.soCmd.getLsbD k = false) ∧
    (d = 0 ∨ s.clk.frame + 1 < d → exec (.soWeldDelayEnd k) s = .next s)) ∧
  (∀ (s : State) (k : Fin 2), let c := lk (fun _ => 0) s.saf.soChange k
    (c ≠ 0 → c + s.rd F.SAF_CFG_SOFB ≤ s.clk.frame → s.soAgrees k = false → s.saf.soFail.getLsbD k = false → exec (.soFeedbackTimeout k) s =
      .next (((s.modSaf fun x => { x with soFail := BitVec.ofNat 2 (setBits x.soFail.toNat k k 1) }).sticky F.SAF_EVT_SOFB).raiseDev 0x66 3)) ∧
    (c = 0 ∨ s.clk.frame < c + s.rd F.SAF_CFG_SOFB ∨ s.soAgrees k = true ∨ s.saf.soFail.getLsbD k = true → exec (.soFeedbackTimeout k) s = .next s)) ∧
  (∀ (s : State) (g : Fin 16), (10 ≤ lk (fun _ => 0) s.saf.xcheck g → (∃ n : Lane, inSet (s.closedLanes g) n = true ∧ s.causeFor 0x62 n = false) →
      exec (.currentCrosscheck g) s = .next (s.raise 0x62 2 (some (s.closedLanes g)))) ∧
    (lk (fun _ => 0) s.saf.xcheck g < 10 ∨ (∀ n : Lane, inSet (s.closedLanes g) n = true → s.causeFor 0x62 n = true) → exec (.currentCrosscheck g) s = .next s))

/-- Safety connections: sending, checking, opening, failing by time and the end of their cause. SAFETY_PDU_SEND on an enabled
connection with a PDU due sends a 24-byte PDU and advances its sequence number modulo 65536; on the site bus the PDU waits for
the next train. SAFETY_PDU_RECEIVED, where no fault is injected on the connection's port: an enabled connection counts a PDU
of another length or with a wrong SCRC in CRCERR, one whose identities or time expectation differ in SEQERR; an open
connection takes a PDU whose sequence number is 1 to 4 ahead and counts any other in SEQERR; one not open waits for a second
PDU in sequence within TEXP before it opens. SAFETY_CONN_TIMEOUT fails an open connection that took no PDU for TEXP frames:
FAILED, counted, 0x68 raised, LINK entered where LOSS is set. LINK_CAUSE_END ends a failure once the connection is open again
for 1,000 frames. A PDU not due, a connection not enabled, and every other condition, changes nothing. -/
def Obligations.SafetyConnectionsCheckTheirPdus : Prop :=
  (∀ (s : State) (k : Fin 16), s.rd (F.SAF_CONNk_CFG_EN k) = 0 → exec (.safetyPduSend k) s = .next s ∧ exec (.safetyConnTimeout k) s = .next s ∧
      ((s.rd (F.SAF_CONNk_CFG_XPORT k) ≤ 1 → s.rd F.LNK_FINJ_SEL ≠ s.rd (F.SAF_CONNk_CFG_XPORT k)) → ∀ pdu, exec (.safetyPduReceived k pdu) s = .next s)) ∧
  (∀ (s : State) (k : Fin 16), s.rd (F.SAF_CONNk_CFG_EN k) ≠ 0 →
    (s.pduDue k = false → exec (.safetyPduSend k) s = .next s) ∧
    (s.pduDue k = true → ∃ t, exec (.safetyPduSend k) s = .next t ∧ (t.conn k).tx = s.safetyPdu k ∧ (s.safetyPdu k).length = 24 ∧
      (t.conn k).txSeq = ((s.conn k).txSeq + 1) % 65536 ∧ (t.conn k).txAt = s.clk.frame + 1 ∧ (∀ j, j ≠ k.val → t.conn j = s.conn j) ∧
      (6 ≤ s.rd (F.SAF_CONNk_CFG_XPORT k) → t.sbu.pduQ = s.sbu.pduQ ++ [(k.val, s.safetyPdu k)]) ∧
      Frame [.regs, .saf, .lnk, .sbu, .freeCtr] s t)) ∧
  (∀ (s : State) (k : Fin 16), s.rd (F.SAF_CONNk_CFG_EN k) ≠ 0 → (s.rd (F.SAF_CONNk_CFG_XPORT k) ≤ 1 → s.rd F.LNK_FINJ_SEL ≠ s.rd (F.SAF_CONNk_CFG_XPORT k)) →
    (∀ pdu : List Byte, pdu.length ≠ 24 ∨ safetyCrc (pdu.take 20) ≠ leAt pdu 0x14 4 → s.rd (F.SAF_CONNk_ST_STATE k) ≠ 2 →
      ∃ t, exec (.safetyPduReceived k pdu) s = .next t ∧ t.rd (F.SAF_CONNk_CNT_CRCERR k) = min 255 (s.rd (F.SAF_CONNk_CNT_CRCERR k) + 1) ∧
        WordsBut [A.SAF_CONNk_CNT k] s t ∧ Frame [.regs, .saf] s t) ∧
    (∀ pdu : List Byte, pdu.length = 24 → safetyCrc (pdu.take 20) = leAt pdu 0x14 4 →
      (leAt pdu 8 4 ≠ (s.word A.SAF_ID).toNat ∨ leAt pdu 4 4 ≠ s.rd (F.SAF_CONNk_PEER_ID k) ∨ leAt pdu 0x0C 2 ≠ s.rd (F.SAF_CONNk_CFG_TEXP k) →
        ∃ t, exec (.safetyPduReceived k pdu) s = .next t ∧ t.rd (F.SAF_CONNk_CNT_SEQERR k) = min 255 (s.rd (F.SAF_CONNk_CNT_SEQERR k) + 1) ∧
          RegsBut [A.SAF_CONNk_CNT k] s t) ∧
      (leAt pdu 8 4 = (s.word A.SAF_ID).toNat → leAt pdu 4 4 = s.rd (F.SAF_CONNk_PEER_ID k) → leAt pdu 0x0C 2 = s.rd (F.SAF_CONNk_CFG_TEXP k) →
        let d := (leAt pdu 2 2 + 65536 - s.rd (F.SAF_CONNk_ST_SEQ k)) % 65536;
        (s.rd (F.SAF_CONNk_ST_STATE k) = 2 → 1 ≤ d → d ≤ 4 → exec (.safetyPduReceived k pdu) s = .next (s.connAccept k pdu) ∧
          ((s.connAccept k pdu).conn k).lastRx = s.clk.frame ∧ ((s.connAccept k pdu).conn k).estop = bitOf (leAt pdu 0x0E 1) 0) ∧
        (s.rd (F.SAF_CONNk_ST_STATE k) = 2 → d = 0 ∨ 4 < d → ∃ t, exec (.safetyPduReceived k pdu) s = .next t ∧
          t.rd (F.SAF_CONNk_CNT_SEQERR k) = min 255 (s.rd (F.SAF_CONNk_CNT_SEQERR k) + 1) ∧ RegsBut [A.SAF_CONNk_CNT k] s t) ∧
        (s.rd (F.SAF_CONNk_ST_STATE k) ≠ 2 → (s.conn k).cand = none → ∃ t, exec (.safetyPduReceived k pdu) s = .next t ∧
          t.rd (F.SAF_CONNk_ST_STATE k) = 1 ∧ (t.conn k).cand = some (leAt pdu 2 2, s.clk.frame) ∧ WordsBut [A.SAF_CONNk_ST k] s t) ∧
        (∀ q f, s.rd (F.SAF_CONNk_ST_STATE k) ≠ 2 → (s.conn k).cand = some (q, f) → leAt pdu 2 2 = (q + 1) % 65536 →
          s.clk.frame ≤ f + s.rd (F.SAF_CONNk_CFG_TEXP k) → exec (.safetyPduReceived k pdu) s = .next (s.connOpen k pdu))))) ∧
  (∀ (s : State) (k : Fin 16), s.rd (F.SAF_CONNk_CFG_EN k) ≠ 0 →
    (s.rd (F.SAF_CONNk_ST_STATE k) = 2 → (s.conn k).lastRx + s.rd (F.SAF_CONNk_CFG_TEXP k) ≤ s.clk.frame →
      exec (.safetyConnTimeout k) s = .next (s.connFail k) ∧ ((s.connFail k).conn k).failed = true) ∧
    (s.rd (F.SAF_CONNk_ST_STATE k) ≠ 2 ∨ s.clk.frame < (s.conn k).lastRx + s.rd (F.SAF_CONNk_CFG_TEXP k) → exec (.safetyConnTimeout k) s = .next s)) ∧
  (∀ (s : State) (k : Fin 16), ((s.conn k).failed = true → s.connGood k = true → ∃ t, exec (.linkCauseEnd k) s = .next t ∧ (t.conn k).failed = false) ∧
    ((s.conn k).failed = false ∨ s.connGood k = false → exec (.linkCauseEnd k) s = .next s))

/-- The wave capture's states and read pointer, the temperature sensors, the proof pulses, a lost stream. CAPTURE_ARM starts
recording from STOPPED and changes nothing else; CAPTURE_DISARM stops; CAPTURE_RELEASE of a finished capture arms anew, or
notes that the run of a pending trigger begins at the next tick; CAPTURE_SWTRIG is the running tick's trigger in IDLE, and
pending later; CAPTURE_DONE ends a run with nothing left and sets DONE. A data read gives the word at SLOT and INDEX and moves
on, INDEX 4095 wrapping to the next slot. A scan shows, for each enabled sensor read, its value and VALID, and counts the
stale ones; a stuck bus sets STUCK; a failing sensor of the scans without a good reading for 10,000 frames raises 0x12 once.
CAL_SEAL_SET sets LOCK. A proof pulse begins when the energy crosses a multiple or one waits in the backlog, and no other
began in the last two sample ticks; else it waits. Its end makes the ball low, after its width or half the interval. A group
whose stream was replaced for 1,600 samples raises 0x11, and its lead lane's grant is forced to 0. Otherwise nothing changes. -/
def Obligations.CaptureSensorsAndProofPulses : Prop :=
  (∀ s : State, let st := s.rd F.MET_CAP_CTL_STATE
    (st = 0 → ∃ t, exec .captureArm s = .next t ∧ t.rd F.MET_CAP_CTL_STATE = 1 ∧ t.met.cap.count = 0 ∧ t.met.cap.rings = [[], [], []] ∧
      WordsBut [A.MET_CAP_CTL] s t ∧ Frame [.regs, .met] s t) ∧
    (st ≠ 0 → exec .captureArm s = .next s) ∧
    (∃ t, exec .captureDisarm s = .next t ∧ t.rd F.MET_CAP_CTL_STATE = 0 ∧ t.rd F.MET_CAP_CTL_PEND = 0 ∧ t.met.cap.pend = none ∧ t.met.cap.left = 0 ∧ t.met.cap.hits = 0 ∧
      WordsBut [A.MET_CAP_CTL] s t ∧ Frame [.regs, .met] s t) ∧
    (st ≠ 3 → exec .captureRelease s = .next s) ∧
    (st = 3 → s.met.cap.pend = none → ∃ t, exec .captureRelease s = .next t ∧ t.rd F.MET_CAP_CTL_STATE = 1 ∧ t.met.cap.count = 0) ∧
    (∀ p, st = 3 → s.met.cap.pend = some p → ∃ t, exec .captureRelease s = .next t ∧ t.met.cap = { s.met.cap with released := true } ∧ Frame [.met] s t) ∧
    (st = 0 → exec .captureSwtrig s = .next s) ∧
    (st = 1 → ∃ t, exec .captureSwtrig s = .next t ∧ t.met.cap = { s.met.cap with hits := s.met.cap.hits ||| 1 } ∧ Frame [.met] s t) ∧
    (st ≠ 0 → st ≠ 1 → s.met.cap.pend = none → ∃ t p, exec .captureSwtrig s = .next t ∧ t.rd F.MET_CAP_CTL_PEND = 1 ∧ t.met.cap.pend = some p ∧
      p.kinds = 1 ∧ p.frame = s.rd F.TCK_FRAME_COUNT ∧ p.tick = min 15 s.clk.tickInFrame ∧ p.epoch = s.epoch ∧ RegsBut [A.MET_CAP_CTL] s (t.setMet s.met)) ∧
    (∀ p, st ≠ 0 → st ≠ 1 → s.met.cap.pend = some p → p.sample ≠ s.clk.sample + 1 → s.met.cap.lostAt ≠ s.clk.sample + 1 →
      ∃ t, exec .captureSwtrig s = .next t ∧ t.rd F.MET_CAP_OVR_COUNT = min (2 ^ F.MET_CAP_OVR_COUNT.width - 1) (s.rd F.MET_CAP_OVR_COUNT + 1) ∧
        t.met.cap.pend = some p) ∧
    (st = 2 → s.met.cap.left = 0 → ∃ t, exec .captureDone s = .next t ∧ t.rd F.MET_CAP_CTL_STATE = 3 ∧ t.rd F.MET_CAP_STAT_DONE = 1 ∧
      RegsBut [A.MET_CAP_CTL, A.MET_CAP_STAT] s t) ∧
    (st ≠ 2 ∨ s.met.cap.left ≠ 0 → exec .captureDone s = .next s) ∧
    (∃ t, exec .captureDataRead s = .next t ∧ t.bus.readData = [s.capData] ∧
      (s.rd F.MET_CAP_ADDR_INDEX = 4095 → t.rd F.MET_CAP_ADDR_INDEX = 0 ∧
        t.rd F.MET_CAP_ADDR_SLOT = if 2 ≤ s.rd F.MET_CAP_ADDR_SLOT then 0 else s.rd F.MET_CAP_ADDR_SLOT + 1) ∧
      (s.rd F.MET_CAP_ADDR_INDEX ≠ 4095 → t.rd F.MET_CAP_ADDR_INDEX = s.rd F.MET_CAP_ADDR_INDEX + 1 ∧
        t.rd F.MET_CAP_ADDR_SLOT = s.rd F.MET_CAP_ADDR_SLOT) ∧ WordsBut [A.MET_CAP_ADDR] s t ∧ Frame [.regs, .bus] s t)) ∧
  (∀ (s : State) (reads : List SensorRead), (s.rd F.MET_SNB_CTL_EN = 0 ∨ s.boot.mclk = false → exec (.sensorBusScan reads) s = .next s) ∧
    (s.rd F.MET_SNB_CTL_EN ≠ 0 → s.boot.mclk = true → ∃ t, exec (.sensorBusScan reads) s = .next t ∧
      t.rd F.MET_SNB_STAT_NSTALE = (s.sensors.filter fun m => t.on (F.MET_SNBm_T_STALE m)).length ∧
      ∀ (m : Fin 64) (r : SensorRead) (v : BitVec 16), s.rd (F.MET_SNBm_EN m) ≠ 0 → (reads.find? fun r => r.sensor.val = m.val) = some r →
        r.reading = some v → t.rd (F.MET_SNBm_T_TEMP m) = v.toNat ∧ t.rd (F.MET_SNBm_T_VALID m) = 1 ∧ t.rd (F.MET_SNBm_T_STALE m) = 0 ∧
          t.rd (F.MET_SNBm_T_AGE m) = 0)) ∧
  (∀ (s : State) (m : Fin 64), (∃ t, exec .sensorBusStuck s = .next t ∧ t.rd F.MET_SNB_STAT_STUCK = 1 ∧ RegsBut [A.MET_SNB_STAT] s t) ∧
    (∀ f, s.rd F.MET_SNB_CTL_EN ≠ 0 → s.rd (F.MET_SNBm_EN m) ≠ 0 → (s.sens m).fails ≠ 0 → (s.sens m).since = some f → f + 10000 ≤ s.clk.frame →
      (s.sens m).fault = false → ∃ t, exec (.sensorBusFault m) s = .next t ∧ (t.sens m).fault = true ∧ Raised s t 0x12 1 none) ∧
    (s.rd F.MET_SNB_CTL_EN = 0 ∨ s.rd (F.MET_SNBm_EN m) = 0 ∨ (s.sens m).fails = 0 ∨ (s.sens m).since = none ∨ (s.sens m).fault = true ∨
      (∃ f, (s.sens m).since = some f ∧ s.clk.frame < f + 10000) → exec (.sensorBusFault m) s = .next s)) ∧
  (∀ s : State, ∃ t, exec .calSealSet s = .next t ∧ t.rd F.MET_SEAL_LOCK = 1 ∧ RegsBut [A.MET_SEAL] s t) ∧
  (∀ (s : State) (k : Fin 4), let x := s.ppo k
    let cross := s.boot.mclk && s.ppoCrossed x
    (x.backlog = 0 → cross = false → exec (.proofPulse k) s = .next s) ∧
    (x.backlog + b2n cross ≠ 0 → (∀ f, x.beganAt = some f → f + 2 ≤ s.clk.sample) → ∃ t, exec (.proofPulse k) s = .next t ∧ (t.ppo k).high = true ∧
      (t.ppo k).beganAt = some s.clk.sample ∧ (t.ppo k).backlog = min 65535 (x.backlog + b2n cross - 1) ∧
      (t.ppo k).crossed = x.crossed + b2n cross ∧ WordsBut [A.MET_PPO_STAT] s t) ∧
    (∀ f, x.backlog + b2n cross ≠ 0 → x.beganAt = some f → s.clk.sample < f + 2 → ∃ t, exec (.proofPulse k) s = .next t ∧ (t.ppo k).high = x.high ∧
      (t.ppo k).backlog = min 65535 (x.backlog + b2n cross) ∧ (t.ppo k).beganAt = some f) ∧
    (∀ f, x.beganAt = some f → let gone := s.clk.sample + 1 - f
      (x.high = true → 100 * max 1 (s.rd (F.MET_PPOk_CFG_PW k)) ≤ 625 * gone ∨ x.backlog ≠ 0 ∨ s.clk.frameLen * ppoUnit ≤ 2 * gone * x.rate →
        ∃ t, exec (.proofPulseEnd k) s = .next t ∧ t.ppo k = { x with high := false } ∧ (∀ j, j ≠ k.val → t.ppo j = s.ppo j) ∧ Frame [.met] s t) ∧
      (625 * gone < 100 * max 1 (s.rd (F.MET_PPOk_CFG_PW k)) → x.backlog = 0 → 2 * gone * x.rate < s.clk.frameLen * ppoUnit →
        exec (.proofPulseEnd k) s = .next s)) ∧
    (x.high = false → exec (.proofPulseEnd k) s = .next s)) ∧
  (∀ (s : State) (n : Lane), let l := s.lead n
    ((s.laneType l).outlet = true → s.groupLost l = true → ∃ t, exec (.streamLost n) s = .next t ∧ Raised s t 0x11 2 (some (s.groupSet l)) ∧
      t.rd (F.MET_Ln_STRSTAT_LOST l) = 1 ∧ t.groupLost l = false ∧
      (s.groupSub l = true → t.rd (F.ALC_Ln_GRANT_W l) = 0 ∧ t.rd (F.ALC_Ln_INFO_FORCED l) = 1)) ∧
    ((s.laneType l).outlet = false ∨ s.groupLost l = false → exec (.streamLost n) s = .next s))

/-- Hamper saves, register epochs, rebuilds, period closes, signatures, the wall clock and the tamper sampler. HAMPER_SAVE_DONE
ends a running save that is not a final one and stores its image with its header, whose checksum is right;
HAMPER_FINAL_SAVE_DONE ends a final one, shows its time and sets PFW; with no such save they change nothing.
POWER_FAIL_WARNING, with PFW_L low and enabled or VIN_AUX below its threshold as last latched, notes its frame and begins the
final save where one can be made. NEW_REGISTER_EPOCH and BILLING_PERIOD_CLOSE by command are noted for the next step that
takes them; a rebuild with no failed pair changes nothing and otherwise leaves none. PERIOD_CLOSE in a stage with a list in
use, with a close commanded or instants passed, makes the period number one more, modulo 2^32, sets PCLOSED and keeps how many
instants were passed over. CLOSING_FENCE_TIMEOUT asks a fence when a close has waited 100 frames for one. WALL_TIME_SET is
taken with at most 999 ms. SESSION_SIGN_DONE ends the signature waiting for the lane. TAMPER_SAMPLE while the thermos is
powered keeps the sample's active inputs, and leaves the keys alone when no input is set to zeroise. JOURNAL_DATA_READ gives
the word at SLOT and WORD and moves on. -/
def Obligations.BillingTamperAndWallTime : Prop :=
  (∀ s : State, (s.bil.saving = none → exec .hamperSaveDone s = .next s ∧ ∀ us, exec (.hamperFinalSaveDone us) s = .next s) ∧
    (∀ k img, s.bil.saving = some (k, img) →
      (img.final = true → exec .hamperSaveDone s = .next s ∧ ∀ us, ∃ t, exec (.hamperFinalSaveDone us) s = .next t ∧ t.bil.saving = none ∧
        lk (fun _ => {}) t.bil.slots k = { img with magic := true, crc := crc32 img.body } ∧ t.rd F.BIL_HTIME_US = min 65535 us ∧ t.rd F.BIL_HSTAT_PFW = 1) ∧
      (img.final = false → (∀ us, exec (.hamperFinalSaveDone us) s = .next s) ∧ ∃ t, exec .hamperSaveDone s = .next t ∧ t.bil.saving = none ∧
        lk (fun _ => {}) t.bil.slots k = { img with magic := true, crc := crc32 img.body } ∧ (lk (fun _ => {}) t.bil.slots k).valid = true ∧ t.bil.saveAt = some s.clk.frame ∧ t.rd F.BIL_HSTAT_SLOT = k % 2 ∧ WordsBut [A.BIL_HSTAT] s t)) ∧
    (let low := 8500 + 500 * (min 23 (s.rd F.BIL_HCFG_AUXPF) : Int)
     (s.pins.pfwLow = false ∨ s.rd F.BIL_HCFG_PFWEN = 0 → low ≤ s.pins.vinAux → exec .powerFailWarning s = .next s) ∧
     (s.pins.pfwLow = true ∧ s.rd F.BIL_HCFG_PFWEN ≠ 0 ∨ s.pins.vinAux < low → ∃ t, exec .powerFailWarning s = .next t ∧ t.bil.pfwAt = some s.clk.frame ∧
      (5 ≤ s.rd F.SYS_STAGE_STAGE → s.rd F.BIL_HSTAT_NOHAMPER = 0 → t.bil.saving = some (s.saveSlot, s.snapshot true) ∧ (s.snapshot true).final = true) ∧
      (s.rd F.SYS_STAGE_STAGE < 5 ∨ s.rd F.BIL_HSTAT_NOHAMPER ≠ 0 → t.bil.saving = s.bil.saving))) ∧
    (s.rd F.BIL_HSTAT_NOHAMPER = 0 → exec .newRegisterEpoch s = .next s) ∧
    (s.rd F.BIL_HSTAT_NOHAMPER ≠ 0 → exec .newRegisterEpoch s = .next (s.setBil { s.bil with newEpochReq := true })) ∧
    exec .periodCloseCommand s = .next (s.setBil { s.bil with pcloseReq := true }) ∧
    (let n := s.rd F.BIL_CTL_LANE; let bad := s.failedPairs n ++ (s.metLane n).cplBad.map (100 + ·) ++ (s.bilLane n).faulted
      (bad = [] → exec .billingRebuild s = .next s) ∧
      (bad ≠ [] → ∃ t, exec .billingRebuild s = .next t ∧ t.failedPairs n = [] ∧ (t.bilLane n).failed = [] ∧ (t.bilLane n).faulted = [] ∧ (t.metLane n).cplBad = []))) ∧
  (∀ s : State, let passed := periodIndex s.bil.cal (s.rd F.BIL_BCLK_SEC) - periodIndex s.bil.cal s.bil.perAt
    (s.rd F.SYS_STAGE_STAGE < 5 → exec .periodClose s = .next s) ∧
    (5 ≤ s.rd F.SYS_STAGE_STAGE → passed = 0 → s.bil.pcloseReq = false → ∃ t, exec .periodClose s = .next t ∧ t.bil.perAt = s.rd F.BIL_BCLK_SEC ∧
      t.bil.periods = s.bil.periods ∧ Frame [.bil] s t) ∧
    (5 ≤ s.rd F.SYS_STAGE_STAGE → passed ≠ 0 ∨ s.bil.pcloseReq = true → ∃ t, exec .periodClose s = .next t ∧
      t.rd F.BIL_PER_PERIOD = (s.rd F.BIL_PER_PERIOD + 1) % 2 ^ 32 ∧ t.rd F.BIL_STAT_PCLOSED = 1 ∧ t.bil.pcloseReq = false ∧ t.bil.perAt = s.rd F.BIL_BCLK_SEC ∧
      (∃ p, t.bil.periods = s.bil.periods ++ [p] ∧ p.per = s.rd F.BIL_PER_PERIOD ∧ p.bclk = s.rd F.BIL_BCLK_SEC ∧ p.skipped = passed - 1 ∧
        p.byCmd = decide (passed = 0)) ∧ WordsBut [A.BIL_PER, A.BIL_STAT, A.TCK_FENCE] s t)) ∧
  (∀ s : State, ((∃ p ∈ s.bil.closes, p.fenced = none ∧ p.frame + 100 ≤ s.clk.frame) → exec .closingFenceTimeout s = .next s.fenceGo) ∧
    ((∃ p ∈ s.bil.periods, p.fenced = none ∧ p.frame + 100 ≤ s.clk.frame) → exec .closingFenceTimeout s = .next s.fenceGo) ∧
    ((∀ p ∈ s.bil.closes, p.fenced = none → s.clk.frame < p.frame + 100) → (∀ p ∈ s.bil.periods, p.fenced = none → s.clk.frame < p.frame + 100) →
      exec .closingFenceTimeout s = .next s)) ∧
  (∀ (s : State) (sec : Word) (ms : BitVec 10), (ms.toNat ≤ 999 → ∃ t, exec (.wallTimeSet sec ms) s = .next t ∧
      t.bil.clkReq = some (sec.toNat, ms.toNat) ∧ Frame [.bil] s t) ∧ (999 < ms.toNat → exec (.wallTimeSet sec ms) s = .next s)) ∧
  (∀ (s : State) (n : Lane), ((∀ p ∈ s.bil.signing, p.lane ≠ n.val) → exec (.sessionSignDone n) s = .next s) ∧
    (∀ p, (s.bil.signing.find? fun p => p.lane = n.val) = some p → ∃ t, exec (.sessionSignDone n) s = .next t ∧
      t.bil.signing = s.bil.signing.filter fun q => q ≠ p)) ∧
  (∀ (s : State) (pins : BitVec 8), (s.thm.io33 = false → s.thm.vbak = false → exec (.tamperSample pins) s = .next s) ∧
    (s.thm.io33 = true ∨ s.thm.vbak = true → ∃ t, exec (.tamperSample pins) s = .next t ∧
      t.thm.lastSample = BitVec.ofNat 8 (s.rd F.THM_TMP_CFG_EN) &&& (pins ^^^ ~~~(BitVec.ofNat 8 (s.rd F.THM_TMP_CFG_POL))) ∧
      (s.rd F.THM_TMP_CFG_ZERO = 0 → t.key = s.key))) ∧
  (∀ s : State, ∃ t, exec .journalDataRead s = .next t ∧ t.bus.readData = [s.journalWord] ∧
    t.rd F.THM_JRD_WORD = (s.rd F.THM_JRD_WORD + 1) % 8 ∧
    t.rd F.THM_JRD_SLOT = (if s.rd F.THM_JRD_WORD = 7 then (s.rd F.THM_JRD_SLOT + 1) % 256 else s.rd F.THM_JRD_SLOT) ∧
    WordsBut [A.THM_JRD] s t ∧ Frame [.regs, .bus] s t)

/-- Injection chips, window updates, cable-check phases, injection step tests and RCD tests act when they are due. INJECTION_CHIP
acts with the measurement clock on and the chip's time come: one chip more is counted, from the second on its windows are to
be solved, committed values that waited are in force, and a lane one of whose mirror contacts shows closed drives neither Test
nor Step. A cable check starts with the chip; after its phase's 32 chips a window without a fit repeats the phase, and a first
baseline leads to the self-test, keeping the fit. EF_WINDOW_UPDATE solves the windows once. CABLE_CHECK_PHASE_END shows what
the self-test gave and acts on a verdict: failed (STFAIL), below the fault level (CCFAIL, exit 0x17), or passed: verdict 1, or
2 under a warning, where no fault verdict stands. INJECTION_STEP_HALF_END acts 4,000 ticks after the half began: the plus half
goes over to the minus half, whose end judges the item. RCD_TEST_ON_END, 1,000 ms after the test channel came on, opens it and
keeps the judgement; RCD_TEST_OFF_END, 1,000 ms later, shows a pass as result 1, or 2 after a repeat, repeats a first failure
and fails on the second. Before those times nothing changes. -/
def Obligations.EarthFaultWindowsAndSelfTests : Prop :=
  (∀ s : State, (s.boot.mclk = true → 1000 * s.efm.chips ≤ s.mclkTicks → ∃ t, exec .injectionChip s = .next t ∧ t.efm.chips = s.efm.chips + 1 ∧
      t.efm.update = decide (s.efm.chips ≠ 0) ∧ t.efm.waiting = [] ∧
      (s.efm.waiting = [] → ∀ n : Lane, s.laneType n = .dc → s.mirAny n = true → t.rd (F.EFM_Ln_INJ_MODE n) ≤ 1) ∧
      (∀ (n : Lane) (c : CableTest), s.laneType n = .dc → (s.efmLane n).cc = some c → c.verdict = none →
        let chips := if (s.efmLane n).restart then [] else if s.efm.chips = 0 then (s.efmLane n).chips else ((s.efmLane n).cur :: (s.efmLane n).chips).take 126
        (c.start = none → (t.efmLane n).cc = some { c with start := some s.efm.chips }) ∧
        (∀ k0, c.start = some k0 → s.efm.chips < k0 + 32 → (t.efmLane n).cc = some c) ∧
        (∀ k0, c.start = some k0 → k0 + 32 ≤ s.efm.chips → phaseFit chips k0 = none → (t.efmLane n).cc = some { c with start := some s.efm.chips }) ∧
        (∀ k0 f, c.start = some k0 → k0 + 32 ≤ s.efm.chips → phaseFit chips k0 = some f → c.test = false → c.baseRepeat = false →
          (t.efmLane n).cc = some { c with test := true, base := some f, start := some s.efm.chips })) ∧
      Frame [.regs, .gold, .boot, .efm] s t) ∧
    (s.boot.mclk = false ∨ s.mclkTicks < 1000 * s.efm.chips → exec .injectionChip s = .next s) ∧
    (s.efm.update = false → exec .efWindowUpdate s = .next s) ∧
    (s.efm.update = true → ∃ t, exec .efWindowUpdate s = .next t ∧ t.efm.update = false ∧ t.efm.chips = s.efm.chips)) ∧
  (∀ (s : State) (n : Lane), ((s.efmLane n).cc = none → exec (.cableCheckPhaseEnd n) s = .next s) ∧
    (∀ c, (s.efmLane n).cc = some c → c.verdict = none → c.st = none → exec (.cableCheckPhaseEnd n) s = .next s) ∧
    (∀ c g r, (s.efmLane n).cc = some c → c.verdict = none → c.st = some (g, r) → r < 4 → ∃ t, exec (.cableCheckPhaseEnd n) s = .next t ∧
      t.rd (F.EFM_Ln_ST_RESULT n) = r ∧ (t.efmLane n).cc = some { c with st := none } ∧ WordsBut [A.EFM_Ln_ST n] s t) ∧
    (∀ c, (s.efmLane n).cc = some c → c.verdict = some .selfFail → ∃ t, exec (.cableCheckPhaseEnd n) s = .next t ∧ (t.efmLane n).cc = none ∧
      t.rd (F.EFM_Ln_STAT_STFAIL n) = 1 ∧ Raised s t 0x2A 2 (some (laneBit n))) ∧
    (∀ c, (s.efmLane n).cc = some c → c.verdict = some .low → ∃ t, exec (.cableCheckPhaseEnd n) s = .next t ∧ (t.efmLane n).cc = none ∧
      t.rd (F.EFM_Ln_STAT_CCFAIL n) = 1 ∧ 0x17 ∈ (t.pilLane (s.lead n)).decided) ∧
    (∀ c w, (s.efmLane n).cc = some c → c.verdict = some (.pass w) → ∃ t, exec (.cableCheckPhaseEnd n) s = .next t ∧ (t.efmLane n).cc = none ∧
      t.verdict n = if s.verdict n = 3 then 3 else if w || (s.efmLane n).warn || (s.efmLane n).gwarn then 2 else 1)) ∧
  (∀ (s : State) (n : Lane), ((s.efmLane n).step = none → exec (.injectionStepHalfEnd n) s = .next s) ∧
    (∀ p, (s.efmLane n).step = some p → p.start = none → exec (.injectionStepHalfEnd n) s = .next s) ∧
    (∀ p t0, (s.efmLane n).step = some p → p.start = some t0 → (s.mclkTicks < t0 + 4000 → exec (.injectionStepHalfEnd n) s = .next s) ∧
      (t0 + 4000 ≤ s.mclkTicks → p.minus = false → ∃ t, exec (.injectionStepHalfEnd n) s = .next t ∧
        (t.efmLane n).step = some { p with minus := true, start := some s.mclkTicks } ∧ (t.efmLane n).ej = -(s.efmLane n).ej ∧ Frame [.efm] s t) ∧
      (t0 + 4000 ≤ s.mclkTicks → p.minus = true → ∃ t, exec (.injectionStepHalfEnd n) s = .next t ∧ (t.efmLane n).step = none ∧
        (t.head n).injOk = some (s.stepGood n p) ∧ Frame [.boot, .efm] s t))) ∧
  (∀ (s : State) (n : Lane), ((s.efmLane n).acTest = none → exec (.rcdTestOnEnd n) s = .next s ∧ exec (.rcdTestOffEnd n) s = .next s) ∧
    (s.testChannel n = none → exec (.rcdTestOnEnd n) s = .next s) ∧
    (∀ r k f, (s.efmLane n).acTest = some r → s.testChannel n = some k → (s.chan (64 + k)).onSince = some f →
      (r.off = true ∨ s.chanOn (64 + k) = false ∨ s.clk.frame < f + 1000 → exec (.rcdTestOnEnd n) s = .next s) ∧
      (r.off = false → s.chanOn (64 + k) = true → f + 1000 ≤ s.clk.frame → ∃ t r', exec (.rcdTestOnEnd n) s = .next t ∧
        (t.efmLane n).acTest = some r' ∧ r'.off = true ∧ r'.at_ = s.clk.frame ∧ (t.chan (64 + k)).onSince = none ∧
        (r'.good = true ↔ ((s.rd (F.EFM_Ln_RTEST_IT n) : Nat) : Rat) * (100 - s.rd F.EFM_RCDCFG_STTOL : Nat) ≤ s.residual n 900 ∧
          s.residual n 900 ≤ ((s.rd (F.EFM_Ln_RTEST_IT n) : Nat) : Rat) * (100 + s.rd F.EFM_RCDCFG_STTOL : Nat) ∧ r.heldTwo = true))) ∧
    (∀ r, (s.efmLane n).acTest = some r →
      (r.off = false ∨ s.clk.frame < r.at_ + 1000 → exec (.rcdTestOffEnd n) s = .next s) ∧
      (r.off = true → r.at_ + 1000 ≤ s.clk.frame → let passed := r.good && decide (ratAbs (s.residual n 900) < 1000)
        (passed = true → ∃ t, exec (.rcdTestOffEnd n) s = .next t ∧ (t.efmLane n).acTest = none ∧
          t.rd (F.EFM_Ln_ST_RESULT n) = (if r.repeated then 2 else 1) ∧
          t.verdict n = if s.verdict n = 3 then 3 else if (s.efmLane n).warn || (s.efmLane n).gwarn then 2 else 1) ∧
        (passed = false → r.repeated = true → exec (.rcdTestOffEnd n) s = .next (s.rcdTestFailed n)) ∧
        (passed = false → r.repeated = false → exec (.rcdTestOffEnd n) s = .next (s.rcdTestStart n true)))))

/-- The pilot, the diode and proximity judgements, the step limits, and the stops of a session. PILOT_PERIOD_START latches the
chosen output for an outlet whose period starts in the frame, shows the plateaus measured on what was driven to register and
both channels, and changes nothing elsewhere. A pilot state, a diode fault, a proximity code and an open proximity are taken
when their debounce is due, and else nothing changes: the state is then the raw one, a diode fault sets its flag and is a
pilot fault (0x22, exit 0x13), an open proximity is a proximity fault (0x23, exit 0x14). STEP_TIMEOUT decides the step's cause
(in step 5 the authorisation is shown timed out), in step 0x0D it leads to 0x0E. SUSPEND_STOP_TIMEOUT leads a charging basic
session to PAUSED, IDLE_B_TIMEOUT completes a paused one, FAULTED_HOLD_END leaves FAULTED after 4,000 frames for FINISHED, or
for 0 where retired. REMOTE_STOP decides exit 4 and FIRMWARE_STOP exit 5 in steps 2 to 0x0F. DISCHARGE_COMMAND is taken with
service 2 and BPT on. At the edge a step that is decided is taken where no exit is; an exit of the fault path leads an open
session to FAULTED and records the highest cause, once. -/
def Obligations.PilotAndSessionTimers : Prop :=
  (∀ (s : State) (n : Lane) (high low : Int),
    ((s.laneType n).outlet = false ∨ s.clk.frameLen ≠ 16 ∧ 4 * s.clk.frameLen ≤ 1 + 2 * n.val → exec (.pilotPeriodStart n high low) s = .next s) ∧
    ((s.laneType n).outlet = true → s.clk.frameLen = 16 ∨ 1 + 2 * n.val < 4 * s.clk.frameLen → ∃ t, exec (.pilotPeriodStart n high low) s = .next t ∧
      (t.pilLane n).drv = (s.pilLane n).out ∧ (t.pilLane n).meas = (s.pilLane n).drv ∧ (t.pilLane n).drvCode = s.rd (F.PIL_Ln_DUTY_CODE n) ∧
      ((s.pilLane n).drv = .x1 → -32768 ≤ high → high ≤ 32767 → t.rdS (F.PIL_Ln_PLAT_HIGH n) = high ∧ lk (fun _ => 0) t.pins.plA n.val = high ∧
        lk (fun _ => 0) t.pins.plB n.val = high) ∧
      ((s.pilLane n).drv = .stateF → -32768 ≤ low → low ≤ 32767 → t.rdS (F.PIL_Ln_PLAT_LOW n) = low) ∧
      WordsBut [A.PIL_Ln_PLAT n] s t ∧ Frame [.regs, .pil, .pins] s t)) ∧
  (∀ (s : State) (n : Lane),
    (s.pilotDue n = false → exec (.pilotStateDebounced n) s = .next s) ∧
    (s.pilotDue n = true → ∃ t, exec (.pilotStateDebounced n) s = .next t ∧
      (s.rd (F.PIL_Ln_CPST_RAW n) ≠ 4 → s.rd (F.PIL_Ln_CPST_RAW n) ≠ 6 → t.rd (F.PIL_Ln_CPST_STATE n) = s.rd (F.PIL_Ln_CPST_RAW n)) ∧
      (s.rd (F.PIL_Ln_CPST_RAW n) = 4 ∨ s.rd (F.PIL_Ln_CPST_RAW n) = 6 → 0x13 ∈ (t.pilLane (s.lead n)).decided ∧ t.rd (F.PIL_Ln_EVT_PILOT n) = 1)) ∧
    (s.diodeDue n = false → exec (.diodeFault n) s = .next s) ∧
    (s.diodeDue n = true → ∃ t, exec (.diodeFault n) s = .next t ∧ t.rd (F.PIL_Ln_CPST_DIODE n) = 1 ∧ t.rd (F.PIL_Ln_EVT_DIODE n) = 1 ∧
      0x13 ∈ (t.pilLane (s.lead n)).decided ∧ (t.pilLane (s.lead n)).closeReq = false) ∧
    (s.ppDue n = false → exec (.proximityDebounced n) s = .next s) ∧
    (s.ppDue n = true → ∃ t, exec (.proximityDebounced n) s = .next t ∧
      ((s.pilLane n).opened = false → t.rd (F.PIL_Ln_PP_CODE n) = (s.pilLane n).ppRaw % 2 ^ (F.PIL_Ln_PP_CODE n).width) ∧
      ((s.pilLane n).opened = true → (s.pilLane n).ppRaw ≠ 0 → 0x14 ∈ (t.pilLane (s.lead n)).decided)) ∧
    (s.ppOpenDue n = false → exec (.proximityOpenDecision n) s = .next s) ∧
    (s.ppOpenDue n = true → exec (.proximityOpenDecision n) s = .next ((s.modPilLane n fun p => { p with ppOpenAt := none }).ppBad n)) ∧
    (s.timeOut n = false → exec (.stepTimeout n) s = .next s) ∧
    (s.timeOut n = true → s.sessStep n = 0x0D → exec (.stepTimeout n) s = .next ((s.modPilLane n fun p => { p with next := some 0x0E }).dropClose n)) ∧
    (s.timeOut n = true → s.sessStep n ≠ 0x0D → s.sessStep n ≠ 5 → exec (.stepTimeout n) s = .next (s.decideExit n (timeCause (s.sessStep n)))) ∧
    (s.timeOut n = true → s.sessStep n = 5 → exec (.stepTimeout n) s = .next ((s.wr (F.PIL_Ln_AUTH_RESULT n) 3).decideExit n 0x1C))) ∧
  (∀ (s : State) (n : Lane), let p := s.pilLane n
    (p.suspAt = none → exec (.suspendStopTimeout n) s = .next s) ∧ (p.bAt = none → exec (.idleBTimeout n) s = .next s) ∧
    (∀ f, p.suspAt = some f → s.sessStep n = 0x0B → p.basic = true → p.changed = false → f + p.stopLim ≤ s.clk.frame → s.mirBoth n = true →
      s.rd (F.PIL_Ln_CPST_STATE n) = 2 ∨ s.rd (F.PIL_Ln_CPST_STATE n) = 3 → exec (.suspendStopTimeout n) s = .next ((s.modPilLane n fun p => { p with next := some 0x0C }).dropClose n)) ∧
    (∀ f, p.suspAt = some f → s.sessStep n ≠ 0x0B ∨ s.clk.frame < f + p.stopLim → exec (.suspendStopTimeout n) s = .next s) ∧
    (∀ f, p.bAt = some f → s.sessStep n = 0x0C → p.basic = true → f + p.idleLim ≤ s.clk.frame → exec (.idleBTimeout n) s = .next (s.sessComplete n)) ∧
    (∀ f, p.bAt = some f → s.sessStep n ≠ 0x0C ∨ s.clk.frame < f + p.idleLim → exec (.idleBTimeout n) s = .next s) ∧
    (s.sessStep n = 0x11 → p.changed = false → max p.stepFrame (lk (fun _ => 0) s.flt.latest n) + 4000 ≤ s.clk.frame → inSet s.causeSet n = false →
      exec (.faultedHoldEnd n) s = .next (s.modPilLane n fun p => { p with next := some (if s.retired n then 0 else 0x10) })) ∧
    (s.sessStep n ≠ 0x11 ∨ s.clk.frame < p.stepFrame + 4000 ∨ inSet s.causeSet n = true → exec (.faultedHoldEnd n) s = .next s) ∧
    (p.opened = true → 2 ≤ s.sessStep n → s.sessStep n ≤ 0x0F → exec (.remoteStop n) s = .next (s.decideExit n 4)) ∧
    (p.opened = false ∨ s.sessStep n < 2 ∨ 0x0F < s.sessStep n → exec (.remoteStop n) s = .next s) ∧
    (2 ≤ s.sessStep n → s.sessStep n ≤ 0x0F → exec (.firmwareStop n) s = .next (s.decideExit n 5)) ∧
    (s.sessStep n < 2 ∨ 0x0F < s.sessStep n → exec (.firmwareStop n) s = .next s) ∧
    (∀ on, p.opened = true → s.rd (F.PIL_Ln_SESS_SERVICE n) = 2 → s.rd (F.PIL_Ln_CTL_BPT n) ≠ 0 → ∃ t, exec (.dischargeCommand n on) s = .next t ∧
      t.pilLane n = { p with discharge := on } ∧ (∀ j, j ≠ n.val → t.pilLane j = s.pilLane j) ∧ Frame [.pil] s t) ∧
    (∀ on, p.opened = false ∨ s.rd (F.PIL_Ln_SESS_SERVICE n) ≠ 2 ∨ s.rd (F.PIL_Ln_CTL_BPT n) = 0 → exec (.dischargeCommand n on) s = .next s)) ∧
  (∀ (s : State) (n : Lane) (k : Nat), let p := s.pilLane n
    s.laneServed n = true → s.sessStep n ≠ 0 → s.sessStep n ≠ 0x11 → s.sessStep n ≠ 0x10 → s.retired n = false → k < 0x12 →
    (p.decided = [] → s.levelCauses n = [] → inSet s.causeSet n = false → p.next = some k → (s.stepLane n).sessStep n = k ∧ ((s.stepLane n).pilLane n).changed = true) ∧
    (p.opened = true → (∃ c ∈ p.decided, faultPath c = true) → bestCause (p.decided ++ s.levelCauses n) < 64 →
      (s.stepLane n).sessStep n = 0x11 ∧ ((s.stepLane n).pilLane n).changed = true ∧
      (s.rd (F.PIL_Ln_SESS_CAUSE n) = 0 → (s.stepLane n).rd (F.PIL_Ln_SESS_CAUSE n) = bestCause (p.decided ++ s.levelCauses n)) ∧
      (s.rd (F.PIL_Ln_SESS_CAUSE n) ≠ 0 → (s.stepLane n).rd (F.PIL_Ln_SESS_CAUSE n) = s.rd (F.PIL_Ln_SESS_CAUSE n))))

/-- SLAC matches the vehicle heard best, retries and gives up; SDP and the protocol offer begin a session. Every frame of the
vehicle first shows the modem's mode and counts the bad frames before it on an outlet. On a lane whose SLAC is open,
CM_SLAC_PARM_REQ keeps the vehicle's address and run, voids the match and answers from the modem's address;
CM_START_ATTEN_CHAR_IND begins a run of the soundings announced, none for 0. A sounding of an unknown run changes no run; of a
known one it counts and adds each lane's attenuation; the last one ends the run, and a lane heard better than all others by
the margin may match without toggles, a lane beaten by such a one is withheld. A lane that may match validates by the toggles;
a match without the needed validation fails; one with it draws a key, sets MATCHED, the vehicle's address and LINK 3.
SLAC_TIMEOUT within the retries begins the pause of state F; SLAC_RETRY_RESUME after 4,000 frames counts the attempt and
starts anew; after the last one the lane goes to basic charging in AUTHORISE, or with a DC or digital-only lane decides 0x19.
SDP_REQUEST and the protocol offer need the link and step 4; the fitting offer of the highest priority is taken, none fails. -/
def Obligations.SlacAndProtocolSetup : Prop :=
  (∀ (s : State) (n : Lane) (rx : ModemRx),
    ((s.laneType n).outlet = true → (s.modemRx n rx).rd (F.PIL_Ln_MDM_ROBO n) = rx.robo.val ∧
      (s.modemRx n rx).rd (F.PIL_Ln_MDM_CRCERR n) = min (2 ^ (F.PIL_Ln_MDM_CRCERR n).width - 1) (s.rd (F.PIL_Ln_MDM_CRCERR n) + rx.bad.toNat)) ∧
    RegsBut [A.PIL_Ln_MDM n] s (s.modemRx n rx)) ∧
  (∀ (s : State) (n : Lane) (rx : ModemRx) (mac : BitVec 48) (run : BitVec 64),
    (s.slacOpen n = false → exec (.cmSlacParmReq ⟨n, rx⟩ mac run) s = .next (s.modemRx n rx) ∧
      (∀ k, exec (.cmStartAttenCharInd ⟨n, rx⟩ mac run k) s = .next (s.modemRx n rx)) ∧ (∀ f, exec (.slacTimeout n f) s = .next s)) ∧
    (s.slacOpen n = true → (∃ t, exec (.cmSlacParmReq ⟨n, rx⟩ mac run) s = .next t ∧ (t.pilLane n).mac = mac.toNat ∧ (t.pilLane n).run = run.toNat ∧
        (t.pilLane n).mayMatch = false ∧ (t.pilLane n).parmAt = some s.clk.frame ∧ t.rd (F.PIL_Ln_SLAC_VALID n) = 0 ∧
        (t.pilLane n).reply = { msg := .slacParm, result := .ok, mac := 0x024C00 * 2 ^ 24 + s.rd F.SYS_DEVID_DEVID * 2 ^ 8 + n.val } ∧
        (∀ j, j ≠ n.val → t.pilLane j = s.pilLane j) ∧ WordsBut [A.PIL_Ln_SLAC n, A.PIL_Ln_MDM n] s t ∧ Frame [.regs, .pil] s t) ∧
      exec (.cmStartAttenCharInd ⟨n, rx⟩ mac run 0) s = .next (s.modemRx n rx) ∧
      (∀ k : Byte, k ≠ 0 → ∃ t, exec (.cmStartAttenCharInd ⟨n, rx⟩ mac run k) s = .next t ∧
        t.slacRun mac.toNat run.toNat = some { mac := mac.toNat, run := run.toNat, start := s.clk.frame, total := k.toNat } ∧
        (∀ j, t.pilLane j = s.pilLane j) ∧ WordsBut [A.PIL_Ln_MDM n] s t ∧ Frame [.regs, .pil] s t))) ∧
  (∀ (s : State) (mac : BitVec 48) (run : BitVec 64) (as : List LaneAtten), let u := as.foldl (fun s a => s.modemRx a.lane a.rx) s
    (s.slacRun mac.toNat run.toNat = none → exec (.cmMnbcSoundInd mac run as) s = .next u) ∧
    (∀ r, s.slacRun mac.toNat run.toNat = some r → r.heard + 1 < r.total → ∃ t, exec (.cmMnbcSoundInd mac run as) s = .next t ∧
      (∃ r', t.slacRun mac.toNat run.toNat = some r' ∧ r'.heard = r.heard + 1 ∧
        (∀ a, as = [a] → lk (fun _ => 0) r'.sums a.lane.val = lk (fun _ => 0) r.sums a.lane.val + soundSum a.groups)) ∧ Frame [.regs, .pil] s t) ∧
    (∀ r, s.slacRun mac.toNat run.toNat = some r → r.total ≤ r.heard + 1 → ∃ t, exec (.cmMnbcSoundInd mac run as) s = .next t ∧
      t.slacRun mac.toNat run.toNat = none ∧
      (let x := as.foldl SlacRun.add { r with heard := r.heard + 1 }; let m := s.rd F.PIL_CFG_SLACMARGIN
       let better (a b : Nat) : Prop := x.sum a * x.values b + m * x.values a * x.values b ≤ x.sum b * x.values a
       (∀ c ∈ x.counts, c.1 < 32) → ∀ n : Lane, n.val ∈ u.heardLanes x →
        ((∀ j ∈ u.heardLanes x, j ≠ n.val → better n j) → (t.pilLane n).mayMatch = true ∧ (t.pilLane n).needToggle = false ∧ (t.pilLane n).mac = x.mac ∧
          (t.pilLane n).reply.msg = .attenChar) ∧
        (∀ k ∈ u.heardLanes x, k ≠ n.val → (∀ j ∈ u.heardLanes x, j ≠ k → better k j) → ¬ (∀ j ∈ u.heardLanes x, j ≠ n.val → better n j) →
          (t.pilLane n).mayMatch = false)))) ∧
  (∀ (s : State) (n : Lane) (rx : ModemRx) (mac : BitVec 48) (run : BitVec 64) (tog : Bool), let u := s.modemRx n rx
    (s.slacMine n mac.toNat = false → exec (.cmAttenCharRsp ⟨n, rx⟩ mac run) s = .next u ∧ exec (.cmValidateReq ⟨n, rx⟩ mac tog) s = .next u ∧
      exec (.cmSlacMatchReq ⟨n, rx⟩ mac run) s = .next u) ∧
    (s.slacMine n mac.toNat = true → (s.pilLane n).run ≠ run.toNat → exec (.cmAttenCharRsp ⟨n, rx⟩ mac run) s = .next u ∧
      exec (.cmSlacMatchReq ⟨n, rx⟩ mac run) s = .next u) ∧
    (s.slacMine n mac.toNat = true → (s.pilLane n).run = run.toNat → exec (.cmAttenCharRsp ⟨n, rx⟩ mac run) s = .next (u.slacAnswer n .none .ok)) ∧
    (s.slacMine n mac.toNat = true → exec (.cmValidateReq ⟨n, rx⟩ mac false) s = .next (u.slacAnswer n .validate .failed) ∧
      ∃ t, exec (.cmValidateReq ⟨n, rx⟩ mac true) s = .next t ∧ t.rd (F.PIL_Ln_SLAC_VALID n) = 1 ∧ (t.pilLane n).reply.msg = .validate ∧
        (t.pilLane n).reply.result = .ok ∧ WordsBut [A.PIL_Ln_SLAC n, A.PIL_Ln_MDM n] s t ∧ Frame [.regs, .pil] s t) ∧
    (s.slacMine n mac.toNat = true → (s.pilLane n).run = run.toNat → (s.pilLane n).needToggle = true → s.rd (F.PIL_Ln_SLAC_VALID n) = 0 →
      exec (.cmSlacMatchReq ⟨n, rx⟩ mac run) s = .next (u.slacAnswer n .slacMatch .failed)) ∧
    (s.slacMine n mac.toNat = true → (s.pilLane n).run = run.toNat → (s.pilLane n).needToggle = false ∨ s.rd (F.PIL_Ln_SLAC_VALID n) ≠ 0 →
      ∃ t, exec (.cmSlacMatchReq ⟨n, rx⟩ mac run) s = .next t ∧ t.rd (F.PIL_Ln_SLAC_MATCHED n) = 1 ∧ t.rd (F.PIL_Ln_EVMAC_MAC n) = mac.toNat ∧
        t.rd (F.PIL_Ln_MDM_LINK n) = 3 ∧ (t.pilLane n).nmk = (u.random 16).1 ∧ (t.pilLane n).reply.msg = .slacMatch ∧ (t.pilLane n).reply.result = .ok ∧
        (∀ j, j ≠ n.val → t.pilLane j = s.pilLane j))) ∧
  (∀ (s : State) (n : Lane) (failed : Bool), let p := s.pilLane n
    (p.changed = true ∨ failed = false ∧ s.matchLate n = false ∧ s.clk.frame < p.slacAt + p.limit → exec (.slacTimeout n failed) s = .next s) ∧
    (s.slacOpen n = true → p.changed = false → failed = true ∨ p.slacAt + p.limit ≤ s.clk.frame ∨ s.matchLate n = true →
      (s.rd (F.PIL_Ln_SLAC_TRIES n) ≤ s.rd F.PIL_CFG_SLACRETRY → ∃ t, exec (.slacTimeout n failed) s = .next t ∧
        (t.pilLane n).slacF = some s.clk.frame ∧ (t.pilLane n).parmAt = none ∧ Frame [.pil] s t) ∧
      (s.rd F.PIL_CFG_SLACRETRY < s.rd (F.PIL_Ln_SLAC_TRIES n) → s.laneType n = .dc ∨ 2 ≤ s.rd (F.PIL_Ln_CTL_MODE n) →
        ∃ t, exec (.slacTimeout n failed) s = .next t ∧ t.rd (F.PIL_Ln_EVT_SLACFAIL n) = 1 ∧ 0x19 ∈ (t.pilLane (s.lead n)).decided) ∧
      (s.rd F.PIL_CFG_SLACRETRY < s.rd (F.PIL_Ln_SLAC_TRIES n) → s.laneType n ≠ .dc → s.rd (F.PIL_Ln_CTL_MODE n) < 2 →
        ∃ t, exec (.slacTimeout n failed) s = .next t ∧ t.rd (F.PIL_Ln_EVT_SLACFAIL n) = 1 ∧ (t.pilLane n).basic = true ∧ (t.pilLane n).next = some 5 ∧
          t.rd (F.PIL_Ln_MDM_LINK n) = 0)) ∧
    (p.slacF = none → exec (.slacRetryResume n) s = .next s) ∧
    (∀ f, p.slacF = some f → s.sessStep n ≠ 3 ∨ s.clk.frame < f + 4000 → exec (.slacRetryResume n) s = .next s) ∧
    (∀ f, p.slacF = some f → p.next = none → s.sessStep n = 3 → f + 4000 ≤ s.clk.frame → ∃ t, exec (.slacRetryResume n) s = .next t ∧ t.slacOpen n = true ∧
      (t.pilLane n).slacAt = s.clk.frame ∧ t.rd (F.PIL_Ln_SLAC_TRIES n) = min 15 (s.rd (F.PIL_Ln_SLAC_TRIES n) + 1) ∧
      t.rd (F.PIL_Ln_SLAC_VALID n) = 0 ∧ WordsBut [A.PIL_Ln_SLAC n] s t)) ∧
  (∀ (s : State) (n : Lane) (rx : ModemRx), let u := s.modemRx n rx
    (s.linked n = false ∨ s.sessStep n ≠ 4 → (∀ tls, exec (.sdpRequest ⟨n, rx⟩ tls) s = .next u) ∧ ∀ os, exec (.supportedAppProtocol ⟨n, rx⟩ os) s = .next u) ∧
    (s.linked n = true → s.sessStep n = 4 → (∀ tls, ∃ t, exec (.sdpRequest ⟨n, rx⟩ tls) s = .next t ∧ (t.pilLane n).tls = tls ∧
        (t.pilLane n).reply = { msg := .sdp, result := .ok } ∧ WordsBut [A.PIL_Ln_MDM n] s t ∧ Frame [.regs, .pil] s t) ∧
      (s.proto n ≠ 0 → ∀ os, exec (.supportedAppProtocol ⟨n, rx⟩ os) s = .next u) ∧
      (s.proto n = 0 → ∀ os, (s.bestOffer n os = none → ∃ t, exec (.supportedAppProtocol ⟨n, rx⟩ os) s = .next t ∧
          (t.pilLane (s.lead n)).decided = 0x1A :: (s.pilLane (s.lead n)).decided) ∧
        ∀ o, s.bestOffer n os = some o → (∃ t, exec (.supportedAppProtocol ⟨n, rx⟩ os) s = .next t ∧ t.proto n = o.proto.val ∧
          (t.pilLane n).reply = { msg := .appProtocol, result := .ok }) ∧
          o ∈ os ∧ ∀ x ∈ os, s.protoMatches n x = true → o.priority ≤ x.priority)))

/-- The messages of a vehicle session: no link no effect, a message not of the protocol fails, the others are answered. For every
message of the vehicle protocols: the modem's mode and bad frames are noted (log entry 33), and on a lane without an open
session over an established link nothing else changes; a message that the session's protocol, or the lane's kind, does not
have is answered failed and does nothing else. Otherwise: the messages that only answer are answered, ok or as the condition
of each says, and change nothing but the lane's answer; the messages that state values take them, a stated target voltage
showing in the target register, and answer with the lane's grant, in ISO 15118-2 with one schedule tuple over 24 h; a session
setup, a service selection, a power delivery, a welding detection and a session stop act on the lane's session, whose step
changes at the next edge; RENEGOTIATION is a protocol error. -/
def Obligations.VehicleMessagesAreAnswered : Prop :=
  ∀ (s : State) (n : Lane) (rx : ModemRx) (ev : EvValues) (b : Bool) (svc : EnergyService), let u := s.modemRx n rx
    let fits (ps : List Nat) (kind : Option Bool) : Bool := ps.contains (s.proto n) && (match kind with | some dc => decide ((s.laneType n = .dc) = dc) | none => true)
    let plain : List (Instr × List Nat × Option Bool × PilMsg × PilResult) := [
      (.serviceDiscovery ⟨n, rx⟩, [1, 2, 3], none, .serviceDiscovery, .ok),
      (.serviceDetail ⟨n, rx⟩ b, [2, 3], none, .serviceDetail, if s.proto n = 3 || b then .ok else .failed),
      (.paymentDetails ⟨n, rx⟩, [2], none, .paymentDetails, if (s.pilLane n).contract then .ok else .failed),
      (.contractAuthentication ⟨n, rx⟩, [1], none, .contractAuth, s.authReply n), (.authorizationSetup ⟨n, rx⟩, [3], none, .authSetup, .ok),
      (.authorization ⟨n, rx⟩ false, [2, 3], none, .authorization, s.authReply n),
      (.cableCheck ⟨n, rx⟩, [1, 2], some true, .cableCheck, if s.goodVerdict n then .ok else .ongoing),
      (.dcCableCheck ⟨n, rx⟩, [3], some true, .cableCheck, if s.goodVerdict n then .ok else .ongoing),
      (.meteringReceipt ⟨n, rx⟩, [2], none, .meteringReceipt, .ok), (.meteringConfirmation ⟨n, rx⟩, [3], none, .meteringConfirmation, .ok),
      (.certificateInstallation ⟨n, rx⟩, [2, 3], none, .certificate, .ok), (.certificateUpdate ⟨n, rx⟩, [2], none, .certificate, .ok)]
    let values : List (Instr × List Nat × Option Bool × PilMsg) := [
      (.chargeParameterDiscovery ⟨n, rx⟩ ev, [1, 2], none, .chargeParameters), (.acChargeParameterDiscovery ⟨n, rx⟩ ev, [3], some false, .chargeParameters),
      (.dcChargeParameterDiscovery ⟨n, rx⟩ ev, [3], some true, .chargeParameters), (.scheduleExchange ⟨n, rx⟩ b ev, [3], none, .scheduleExchange),
      (.preCharge ⟨n, rx⟩ ev, [1, 2], some true, .preCharge), (.dcPreCharge ⟨n, rx⟩ ev, [3], some true, .preCharge),
      (.currentDemand ⟨n, rx⟩ ev, [1, 2], some true, .chargeLoop), (.acChargeLoop ⟨n, rx⟩ ev, [3], some false, .chargeLoop), (.dcChargeLoop ⟨n, rx⟩ ev, [3], some true, .chargeLoop)]
    let acts : List (Instr × List Nat × Option Bool × PilMsg) := [
      (.sessionSetup ⟨n, rx⟩, [1, 2, 3], none, .sessionSetup), (.servicePaymentSelection ⟨n, rx⟩ svc b, [1, 2], none, .paymentSelection),
      (.serviceSelection ⟨n, rx⟩ svc, [3], none, .serviceSelection), (.powerDelivery ⟨n, rx⟩ b, [1, 2, 3], none, .powerDelivery),
      (.chargingStatus ⟨n, rx⟩, [2], some false, .chargingStatus), (.authorization ⟨n, rx⟩ true, [2, 3], none, .authorization),
      (.weldingDetection ⟨n, rx⟩ b, [1, 2], some true, .weldingDetection), (.dcWeldingDetection ⟨n, rx⟩ b, [3], some true, .weldingDetection),
      (.sessionStop ⟨n, rx⟩, [1, 2, 3], none, .sessionStop)]
    (∀ x ∈ plain, (s.linked n = false → exec x.1 s = .next u) ∧
      (s.linked n = true → ∃ t, exec x.1 s = .next t ∧
        (t.pilLane n).reply = { msg := x.2.2.2.1, result := if fits x.2.1 x.2.2.1 then x.2.2.2.2 else .failed } ∧
        (∀ j, j ≠ n.val → t.pilLane j = s.pilLane j) ∧ WordsBut [A.PIL_Ln_MDM n] s t ∧ Frame [.regs, .pil] s t)) ∧
    (∀ x ∈ values, (s.linked n = false → exec x.1 s = .next u) ∧
      (s.linked n = true → fits x.2.1 x.2.2.1 = false → exec x.1 s = .next (u.answer n x.2.2.2 .failed)) ∧
      (s.linked n = true → fits x.2.1 x.2.2.1 = true → ∃ t, exec x.1 s = .next t ∧ (t.pilLane n).reply.msg = x.2.2.2 ∧
        (t.pilLane n).reply.power = s.grantIn n ∧ (∀ v, ev.tgtV = some v → t.evTgtV n = v.toNat) ∧
        (∀ p, ev.maxP = some p → (t.pilLane n).evPower = some p.toNat) ∧ (∀ c, ev.soc = some c → t.rd (F.PIL_Ln_EVMAX_VALUE n 2) = c.toNat) ∧
        (∀ j, j ≠ n.val → t.pilLane j = s.pilLane j) ∧
        WordsBut [A.PIL_Ln_EVMAX n 0, A.PIL_Ln_EVMAX n 1, A.PIL_Ln_EVMAX n 2, A.PIL_Ln_MDM n] s t ∧ Frame [.regs, .pil, .freeCtr] s t)) ∧
    (∀ x ∈ acts, (s.linked n = false → exec x.1 s = .next u) ∧
      (s.linked n = true → fits x.2.1 x.2.2.1 = false → exec x.1 s = .next (u.answer n x.2.2.2 .failed))) ∧
    (s.linked n = true → s.proto n = 1 ∨ s.proto n = 2 ∨ s.proto n = 3 →
      (∃ t, exec (.sessionSetup ⟨n, rx⟩) s = .next t ∧ (t.pilLane n).setup = true ∧ (t.pilLane n).reply = { msg := .sessionSetup, result := .ok } ∧
        (∀ j, j ≠ n.val → t.pilLane j = s.pilLane j) ∧ WordsBut [A.PIL_Ln_MDM n] s t) ∧
      (∃ v : State, (v.pilLane n).deliver = b ∧ (v.pilLane n).reply = { msg := .powerDelivery, result := .ok } ∧ Frame [.regs, .pil] s v ∧
        WordsBut [A.PIL_Ln_MDM n] s v ∧
        exec (.powerDelivery ⟨n, rx⟩ b) s = .next (if b = false ∧ (s.sessStep n = 0x0B ∨ s.sessStep n = 0x0C) then v.decideExit n 2 else v)) ∧
      exec (.sessionStop ⟨n, rx⟩) s = .next (if 2 ≤ s.sessStep n ∧ s.sessStep n ≤ 0x0F then (u.answer n .sessionStop .ok).decideExit n 2
        else u.answer n .sessionStop .ok)) ∧
    (s.linked n = true → s.proto n = 3 → (∀ c, s.serviceCode n svc = some c → ∃ t, exec (.serviceSelection ⟨n, rx⟩ svc) s = .next t ∧
        t.rd (F.PIL_Ln_SESS_SERVICE n) = c ∧ (t.pilLane n).served = true ∧ (t.pilLane n).reply = { msg := .serviceSelection, result := .ok }) ∧
      (s.serviceCode n svc = none → exec (.serviceSelection ⟨n, rx⟩ svc) s = .next (u.protoError n .serviceSelection)) ∧
      (s.laneType n = .dc → exec (.dcWeldingDetection ⟨n, rx⟩ b) s = .next (u.weldMessage n b))) ∧
    (s.linked n = true → s.proto n = 1 ∨ s.proto n = 2 →
      (∀ c, s.serviceCode n svc = some c → ∃ t, exec (.servicePaymentSelection ⟨n, rx⟩ svc false) s = .next t ∧ t.rd (F.PIL_Ln_SESS_SERVICE n) = c ∧
        (t.pilLane n).served = true ∧ (t.pilLane n).reply = { msg := .paymentSelection, result := .ok }) ∧
      (s.laneType n = .dc → exec (.weldingDetection ⟨n, rx⟩ b) s = .next (u.weldMessage n b))) ∧
    (s.linked n = true → s.proto n = 2 → s.laneType n ≠ .dc → ∃ t, exec (.chargingStatus ⟨n, rx⟩) s = .next t ∧
      (t.pilLane n).reply = { msg := .chargingStatus, power := s.grantIn n, current := s.offerI n } ∧ Frame [.regs, .pil] s t) ∧
    (s.linked n = true → s.proto n = 2 → ∃ t, exec (.chargeParameterDiscovery ⟨n, rx⟩ ev) s = .next t ∧ (t.pilLane n).reply.schedule = [(86400, s.grantIn n)]) ∧
    (s.linked n = true → s.proto n ≠ 0 → exec (.renegotiation ⟨n, rx⟩) s = .next (u.protoError n .renegotiation)) ∧
    (s.linked n = false ∨ s.proto n = 0 → exec (.renegotiation ⟨n, rx⟩) s = .next u)

/-- The paths of authorisation take a decision only while one is open. REMOTE_START is taken by a lane that waits for its
authorisation and allows the path: path 3 and result 1 show, class 0, and the session counts as accepted. AUTH_DECISION is
taken on paths 1 and 2, from the local list on path 1 alone and where the policy allows one: acceptance shows result 1, or 4
for the local list, with the class the POLICY record maps to the card or the contract's token, 0 where it maps none; refusal
shows result 2 and decides 0x1B. AUTH_OK and AUTH_NO are taken where firmware may authorise, on path 5. With a result shown
already, or in another step, all of them change nothing. CARD_HOLD_EXPIRY drops the cards of the reader held for CARDWIN
seconds and keeps the others. -/
def Obligations.AuthorisationIsDecidedOnce : Prop :=
  (∀ (s : State) (n : Lane) (ev : EvValues) (acc loc : Bool) (tok : List Byte), s.sessStep n ≠ 5 ∨ s.rd (F.PIL_Ln_AUTH_RESULT n) ≠ 0 →
    exec (.remoteStart n ev) s = .next s ∧ exec (.authDecision n acc loc tok ev) s = .next s ∧ exec (.authOk n) s = .next s ∧ exec (.authNo n) s = .next s) ∧
  (∀ (s : State) (n : Lane) (ev : EvValues), s.sessStep n = 5 → s.rd (F.PIL_Ln_AUTH_RESULT n) = 0 →
    (s.rdBit (F.PIL_Ln_CTL_AUTH n) 2 = false → exec (.remoteStart n ev) s = .next s) ∧
    (s.rdBit (F.PIL_Ln_CTL_AUTH n) 2 = true → ∃ t, exec (.remoteStart n ev) s = .next t ∧ t.rd (F.PIL_Ln_AUTH_PATH n) = 3 ∧
      t.rd (F.PIL_Ln_SESS_AUTHPATH n) = 3 ∧ t.rd (F.PIL_Ln_AUTH_RESULT n) = 1 ∧ t.rd (F.PIL_Ln_AUTH_CLASS n) = 0 ∧ (t.pilLane n).accepted = true ∧
      (∀ e, ev.energy = some e → (t.pilLane n).boEnergy = e.toNat) ∧ WordsBut [A.PIL_Ln_AUTH n, A.PIL_Ln_SESS n] s t ∧ Frame [.regs, .pil] s t) ∧
    (let path := s.rd (F.PIL_Ln_AUTH_PATH n);
      (∀ acc loc tok, path ≠ 1 → path ≠ 2 → exec (.authDecision n acc loc tok ev) s = .next s) ∧
      (∀ acc tok, path = 2 ∨ s.boot.policy.localList = false → exec (.authDecision n acc true tok ev) s = .next s) ∧
      (∀ tok, path = 1 ∨ path = 2 → (∃ t, exec (.authDecision n true false tok ev) s = .next t ∧ t.rd (F.PIL_Ln_AUTH_RESULT n) = 1 ∧
          t.rd (F.PIL_Ln_AUTH_PATH n) = path ∧ (t.pilLane n).accepted = true ∧
          (let token := if path = 1 then (s.pilLane n).cardUid else tok;
            ((∀ x ∈ s.boot.policy.classes, x.1 ≠ token) → t.rd (F.PIL_Ln_AUTH_CLASS n) = 0) ∧
            (∀ c, s.boot.policy.classes = [(token, c)] → c < 4 → t.rd (F.PIL_Ln_AUTH_CLASS n) = c))) ∧
        exec (.authDecision n false false tok ev) s = .next ((s.wr (F.PIL_Ln_AUTH_RESULT n) 2).decideExit n 0x1B)) ∧
      (∀ tok, path = 1 → s.boot.policy.localList = true → (∃ t, exec (.authDecision n true true tok ev) s = .next t ∧
        t.rd (F.PIL_Ln_AUTH_RESULT n) = 4 ∧ (t.pilLane n).accepted = true) ∧
        exec (.authDecision n false true tok ev) s = .next ((s.wr (F.PIL_Ln_AUTH_RESULT n) 2).decideExit n 0x1B))) ∧
    (s.fwMay n = false → exec (.authOk n) s = .next s ∧ exec (.authNo n) s = .next s) ∧
    (s.fwMay n = true → (∃ t, exec (.authOk n) s = .next t ∧ t.rd (F.PIL_Ln_AUTH_PATH n) = 5 ∧ t.rd (F.PIL_Ln_AUTH_RESULT n) = 1 ∧ (t.pilLane n).accepted = true) ∧
      ∃ t, exec (.authNo n) s = .next t ∧ t.rd (F.PIL_Ln_AUTH_PATH n) = 5 ∧ t.rd (F.PIL_Ln_AUTH_RESULT n) = 2 ∧ 0x1B ∈ (t.pilLane (s.lead n)).decided)) ∧
  (∀ (s : State) (k : Fin 4), ∃ t, exec (.cardHoldExpiry k) s = .next t ∧ Frame [.pil] s t ∧ (∀ j, t.pilLane j = s.pilLane j) ∧
    ∀ c, c ∈ t.pil.card ↔ c ∈ s.pil.card ∧ (c.reader ≠ k.val ∨ s.clk.frame < c.frame + 1000 * s.rd F.PIL_CFG_CARDWIN))

/-- Headcounts, the cutoff, the published computation, and what the modules on CAN say. HEADCOUNT_SEND sends once in a tick, from
stage 7 and in this device's own turn, when its own headcount is there; before that it changes nothing. HEADCOUNT_RECEIVED,
with no injection on its port: on Ethernet the headcount behind the header is taken, elsewhere the frame itself; a frame that
is no good headcount changes nothing. ALLOCATION_CUTOFF acts once in a tick, from stage 6 and CUT before the launch: the
table's cut is then taken and a computation runs. ALLOCATION_COMPUTED with a computation running publishes it: it runs no
more, waits for the launch, and its time is LAST; with none it changes nothing. CAN_STATUS of a known module keeps voltage,
current, state and temperature; CAN_IDRSP admits the module whose identity is its record's and raises 0x24 for another. A
module admitted and silent for 100 ms is no longer admitted and raises 0x24; one asked for 250 ms without an answer is asked
again. CAN_BUS_OFF takes the port off the bus and sets BUSOFF, CAN_BUS_OFF_RECOVERY brings it back. A classical frame, and a
frame of an unknown module, changes nothing (with no injection on the port). CAN_TIME_SEND sends at stage 8 every 100 frames. -/
def Obligations.AllocationAndModules : Prop :=
  (∀ s : State, (s.rd F.SYS_STAGE_STAGE < 7 ∨ s.alc.sent = true ∨ s.clk.frame < s.alc.launchAt + 1 + s.devid % 8 ∨ (s.member s.devid).last.typ ≠ 1 →
      exec .headcountSend s = .next s) ∧
    (7 ≤ s.rd F.SYS_STAGE_STAGE → s.alc.sent = false → s.alc.launchAt + 1 + s.devid % 8 ≤ s.clk.frame → (s.member s.devid).last.typ = 1 →
      ∃ t, exec .headcountSend s = .next t ∧ t.alc.sent = true ∧ (s.member s.devid).last.wire ∈ t.alc.tx ∧ Frame [.regs, .alc, .lnk, .freeCtr] s t) ∧
    (∀ f : List Byte, (headcountRead f = none → exec (.headcountReceived none f) s = .next s) ∧
      ∀ h, headcountRead f = some h → exec (.headcountReceived none f) s = .next (s.hcTake none h)) ∧
    (∀ (p : Fin 2) (lv : Nat) (m : List Byte), s.rd F.LNK_FINJ_SEL ≠ p.val → m.length < 65536 →
      (headcountRead m = none → exec (.headcountReceived (some p) (ethPayload 1 lv m)) s = .next s) ∧
      (∀ h, headcountRead m = some h → exec (.headcountReceived (some p) (ethPayload 1 lv m)) s = .next (s.hcTake (some p) h)) ∧
      (∀ proto, proto < 256 → proto ≠ 1 → exec (.headcountReceived (some p) (ethPayload proto lv m)) s = .next s)) ∧
    (s.rd F.SYS_STAGE_STAGE < 6 ∨ s.alc.cut = true ∨ s.clk.frame + s.rd F.ALC_CFG_CUT < s.alc.launchAt + s.periodMs → exec .allocationCutoff s = .next s) ∧
    (6 ≤ s.rd F.SYS_STAGE_STAGE → s.alc.cut = false → s.alc.launchAt + s.periodMs ≤ s.clk.frame + s.rd F.ALC_CFG_CUT →
      ∃ t, exec .allocationCutoff s = .next t ∧ t.alc.cut = true ∧ t.alc.running.isSome = true) ∧
    (∀ us, s.alc.running = none → exec (.allocationComputed us) s = .next s) ∧
    (∀ us r, s.alc.running = some r → ∃ t, exec (.allocationComputed us) s = .next t ∧ t.alc.running = none ∧ t.alc.ready = some r ∧
      t.rd F.ALC_TIME_LAST = min F.ALC_TIME_LAST.max us)) ∧
  (∀ (s : State) (p : Fin 4) (a : Byte) (d : List Byte), s.rd F.LNK_FINJ_SEL ≠ 6 + p.val → (s.moduleAt p a.toNat = none →
      exec (.canStatus p a d) s = .next s ∧ exec (.canIdrsp p a d) s = .next s ∧ exec (.canForeignFrame p a false) s = .next s) ∧
    exec (.canForeignFrame p a true) s = .next s ∧
    (∀ m, s.moduleAt p a.toNat = some m → m < 128 →
      (∃ t, exec (.canStatus p a d) s = .next t ∧ (t.modAt m).v = leAt d 0 2 ∧ (t.modAt m).i = leAt d 2 2 ∧ (t.modAt m).state = leAt d 4 1 ∧
        (t.modAt m).temp = leAt d 5 1 ∧ (t.modAt m).seen = s.clk.frame + 1 ∧ t.rd (F.LNK_MODm_AGE m) = 0 ∧ (t.modAt m).admitted = (s.modAt m).admitted) ∧
      exec (.canForeignFrame p a false) s = .next (s.readAgain m) ∧
      (leAt d 0 8 = (s.modAt m).ident → ∃ t, exec (.canIdrsp p a d) s = .next t ∧ (t.modAt m).admitted = true ∧ (t.modAt m).rated = leAt d 8 4 ∧
        (t.modAt m).ratedI = leAt d 12 2) ∧
      (leAt d 0 8 ≠ (s.modAt m).ident → ∃ t, exec (.canIdrsp p a d) s = .next t ∧ (t.modAt m).admitted = false ∧
        t.rd (F.LNK_MODm_ADM m) = 0 ∧ Raised s t 0x24 1 none))) ∧
  (∀ (s : State) (m : Fin 128), let x := s.modAt m
    (x.admitted = false ∨ s.clk.frame + 1 < x.seen + 100 → exec (.moduleStatusTimeout m) s = .next s) ∧
    (x.admitted = true → x.seen + 100 ≤ s.clk.frame + 1 → ∃ t, exec (.moduleStatusTimeout m) s = .next t ∧
      (t.modAt m).admitted = false ∧ t.rd (F.LNK_MODm_ADM m) = 0 ∧ t.rd (F.LNK_MODm_RATED m) = 0 ∧ Raised s t 0x24 1 none) ∧
    (x.addr = 0 ∨ x.admitted = true ∨ x.reqAt = 0 ∨ s.clk.frame + 1 < x.reqAt + 250 → exec (.moduleIdreqRetry m) s = .next s) ∧
    (x.addr ≠ 0 → x.admitted = false → x.reqAt ≠ 0 → x.reqAt + 250 ≤ s.clk.frame + 1 → ∃ t, exec (.moduleIdreqRetry m) s = .next t ∧
      (t.modAt m).reqAt = s.clk.frame + 1 ∧ (s.canOn x.port = false → t.lnk.canTx = []) ∧
      (s.canOn x.port = true → s.rd F.LNK_FINJ_SEL ≠ 6 + x.port → t.lnk.canTx = [{ port := x.port, prio := 5, func := 0x20, dst := x.addr, data := [] }]))) ∧
  (∀ (s : State) (p : Fin 4), (∃ t, exec (.canBusOff p) s = .next t ∧ t.lnk.busOff.getLsbD p = true ∧ t.rd (F.LNK_CANp_ST_BUSOFF p) = 1 ∧
      WordsBut [A.LNK_CANp_ST p] s t ∧ Frame [.regs, .lnk] s t) ∧
    (s.lnk.busOff.getLsbD p = false → exec (.canBusOffRecovery p) s = .next s) ∧
    (s.lnk.busOff.getLsbD p = true → ∃ t, exec (.canBusOffRecovery p) s = .next t ∧ t.lnk.busOff.getLsbD p = false)) ∧
  (∀ (s : State) (us : Fin 1000), (s.rd F.SYS_STAGE_STAGE ≠ 8 ∨ s.clk.frame < s.lnk.timeAt + 100 → exec (.canTimeSend us) s = .next s) ∧
    (s.rd F.SYS_STAGE_STAGE = 8 → s.lnk.timeAt + 100 ≤ s.clk.frame → ∃ t, exec (.canTimeSend us) s = .next t ∧ t.lnk.timeAt = s.clk.frame ∧
      (s.rd F.LNK_FINJ_SEL < 6 → t.lnk.canTx = ([0, 1, 2, 3].filter s.canOn).map fun p => { port := p, prio := 1, func := 0x02, dst := 0, data := leBytes 8 (1000 * s.siteMs + us.val) })))

/-- Ethernet links, the time protocol on the source port, and the joining links. ETH_LINK_CHANGE shows a gigabit link and sets
DOWN when one goes; PTP messages of another port, domain or master than the source's change nothing; a one-step SYNC and a
FOLLOW_UP that fits the SYNC waiting give a result, offset t2 − t1 less the path delay once that is known; a two-step SYNC
waits; DELAY_RESP gives the delay as half the sum of both ways; ANNOUNCE on the source port keeps the clock's vector, and the
clock with the lowest one is the master; as the grandmaster a DELAY_REQ is answered and a SYNC sent on each linked port with
the next number, else nothing is sent. JL_LINK_UP shows the link up with its peer and its reach. A frame on a link not up, and
the acknowledgement (it ends the oldest unacknowledged frame), send nothing. JL_ACK_TIMEOUT resends the oldest frame up to 3
times and then takes the link down. JL_ROUND_TRIP on the source's link halves the time, and gives a result unless it went
through the whole ring (LOOP set). -/
def Obligations.EthernetTimeAndJoiningLinks : Prop :=
  (∀ (s : State) (p : Fin 2) (up gb : Bool), ∃ t, exec (.ethLinkChange p up gb) s = .next t ∧ t.rd (F.LNK_ETHp_STAT_LINK p) = (if up && gb then 1 else 0) ∧
    (s.rd (F.LNK_ETHp_STAT_LINK p) ≠ 0 → (up && gb) = false → t.rd (F.LNK_ETHp_STAT_DOWN p) = 1) ∧
    (s.rd (F.LNK_ETHp_STAT_LINK p) = 0 ∨ (up && gb) = true → t.rd (F.LNK_ETHp_STAT_DOWN p) = s.rd (F.LNK_ETHp_STAT_DOWN p)) ∧
    RegsBut [A.LNK_ETHp_STAT p] s t) ∧
  (∀ (s : State) (p : Fin 2) (dom : Byte) (c : BitVec 64) (n : BitVec 16) (a b : Nat) (an : PtpAnnounce),
    (s.ptpSource p dom.toNat = false ∨ s.lnk.ptp.master ≠ some c.toNat → (∀ o, exec (.ptpSync p ⟨dom, c⟩ n a o) s = .next s) ∧
      exec (.ptpFollowUp p ⟨dom, c⟩ n a) s = .next s ∧ exec (.ptpDelayResp p ⟨dom, c⟩ a b) s = .next s) ∧
    (s.ptpSource p dom.toNat = false → exec (.ptpAnnounce p dom an) s = .next s) ∧
    (s.ptpSource p dom.toNat = true → ∃ t, exec (.ptpAnnounce p dom an) s = .next t ∧ Frame [.lnk] s t ∧
      lk (fun _ => []) t.lnk.ptp.foreign an.clock.toNat = an.vector ∧
      (∀ k, k ≠ an.clock.toNat → lk (fun _ => []) t.lnk.ptp.foreign k = lk (fun _ => []) s.lnk.ptp.foreign k)) ∧
    (∀ k v j w, vecLess w v = true → ({ s.lnk.ptp with foreign := [(k, v), (j, w)] } : PtpState).master = some j) ∧
    (∀ k v j w, vecLess w v = false → ({ s.lnk.ptp with foreign := [(k, v), (j, w)] } : PtpState).master = some k) ∧
    (s.ptpSource p dom.toNat = true → s.lnk.ptp.master = some c.toNat →
      (∃ t, exec (.ptpSync p ⟨dom, c⟩ n a none) s = .next t ∧ t.lnk.ptp = { s.lnk.ptp with waiting := some (n.toNat, a) } ∧ Frame [.lnk] s t) ∧
      (∀ u : State, u = s.setLnk { s.lnk with ptp := { s.lnk.ptp with waiting := none, t1 := b, t2 := a } } →
        (s.lnk.ptp.delay = none → exec (.ptpSync p ⟨dom, c⟩ n a (some b)) s = .next u) ∧
        (∀ d, s.lnk.ptp.delay = some d → exec (.ptpSync p ⟨dom, c⟩ n a (some b)) s = .next (u.syncResult ((a : Int) - b - d)))) ∧
      (∀ f, s.lnk.ptp.waiting = some (n.toNat, f) → exec (.ptpFollowUp p ⟨dom, c⟩ n a) s = .next (s.ptpResult a f)) ∧
      (s.lnk.ptp.waiting = none → exec (.ptpFollowUp p ⟨dom, c⟩ n a) s = .next s) ∧
      (∀ q f, s.lnk.ptp.waiting = some (q, f) → q ≠ n.toNat → exec (.ptpFollowUp p ⟨dom, c⟩ n a) s = .next s) ∧
      (∃ t, exec (.ptpDelayResp p ⟨dom, c⟩ a b) s = .next t ∧ Frame [.lnk] s t ∧
        t.lnk.ptp.delay = some ((((s.lnk.ptp.t2 : Int) - s.lnk.ptp.t1) + ((b : Int) - a)) / 2))) ∧
    (s.clk.source = 7 → s.rd F.TCK_SYNC_STATE = 1 → s.rd (F.LNK_ETHp_CFG_EN p) ≠ 0 → s.rd F.LNK_PTP_DOMAIN = dom.toNat → ∃ t,
      exec (.ptpDelayReq p dom n a) s = .next t ∧ t.lnk.ptp.tx = [(2, p.val, n.toNat, a)] ∧ Frame [.lnk] s t) ∧
    (s.clk.source ≠ 7 ∨ s.rd F.LNK_PTP_DOMAIN ≠ dom.toNat → ∃ t, exec (.ptpDelayReq p dom n a) s = .next t ∧ t.lnk.ptp.tx = [] ∧ Frame [.lnk] s t) ∧
    (s.clk.source ≠ 7 ∨ s.rd F.TCK_SYNC_STATE ≠ 1 → ∃ t, exec (.ptpSyncSend a) s = .next t ∧ t.lnk.ptp.tx = [] ∧ Frame [.lnk] s t) ∧
    (s.clk.source = 7 → s.rd F.TCK_SYNC_STATE = 1 → s.lnk.ptp.sentAt + 1000 ≤ s.clk.frame → ∃ t, exec (.ptpSyncSend a) s = .next t ∧
      t.lnk.ptp.syncSeq = (s.lnk.ptp.syncSeq + 1) % 65536 ∧ t.lnk.ptp.sentAt = s.clk.frame ∧ Frame [.lnk] s t ∧
      ∀ x ∈ t.lnk.ptp.tx, (x.1 = 0 ∨ x.1 = 1 ∧ x.2.2.2 = a) ∧ x.2.2.1 = t.lnk.ptp.syncSeq)) ∧
  (∀ (s : State) (k : Fin 4) (peer : BitVec 16) (reach : List (Nat × Nat)), ∃ t, exec (.jlLinkUp k peer reach) s = .next t ∧ t.rd (F.LNK_JLk_ST_UP k) = 1 ∧
    t.rd (F.LNK_JLk_ST_PEER k) = peer.toNat ∧ (t.jlink k).reach = reach) ∧
  (∀ (s : State) (k : Fin 4) (dst : BitVec 16) (bc : Bool) (mac : List Byte),
    (s.rd (F.LNK_JLk_ST_UP k) = 0 → exec (.jlFrameReceived k dst bc mac) s = .next (s.setLnk { s.lnk with jlTx := [] })) ∧
    (s.rd (F.LNK_JLk_ST_UP k) ≠ 0 → ∃ t, exec (.jlFrameReceived k dst bc []) s = .next t ∧ (t.jlink k).unacked = (s.jlink k).unacked.drop 1 ∧
      t.lnk.jlTx = [] ∧ Frame [.lnk] s t) ∧
    (s.rd (F.LNK_JLk_ST_UP k) ≠ 0 → s.rd F.LNK_FINJ_SEL ≠ 2 + k.val → mac ≠ [] → macGood mac = false →
      exec (.jlFrameReceived k dst bc mac) s = .next (s.setLnk { s.lnk with jlTx := [] })) ∧
    ((s.jlink k).unacked = [] → exec (.jlAckTimeout k) s = .next (s.setLnk { s.lnk with jlTx := [] })) ∧
    (∀ f fs, (s.jlink k).unacked = f :: fs → f.tries < 3 → ∃ t, exec (.jlAckTimeout k) s = .next t ∧
      (t.jlink k).unacked = { f with tries := f.tries + 1 } :: fs ∧ t.lnk.jlTx = [(k.val, some { f with tries := f.tries + 1 })] ∧ Frame [.lnk] s t) ∧
    (∀ f fs, (s.jlink k).unacked = f :: fs → 3 ≤ f.tries → ∃ t, exec (.jlAckTimeout k) s = .next t ∧ t.rd (F.LNK_JLk_ST_UP k) = 0 ∧
      t.rd (F.LNK_JLk_ST_DOWN k) = 1)) ∧
  (∀ (s : State) (k : Fin 4) (rtt here far : Nat) (thr : Bool),
    (s.clk.source ≠ 2 + k.val ∨ s.rd (F.LNK_JLk_ST_UP k) = 0 → exec (.jlRoundTrip k rtt here far thr) s = .next s) ∧
    (s.clk.source = 2 + k.val → s.rd (F.LNK_JLk_ST_UP k) ≠ 0 → ∃ u : State, (u.jlink k).oneWay = rtt / 2 ∧ Frame [.lnk] s u ∧
      exec (.jlRoundTrip k rtt here far true) s = .next (u.sticky (F.LNK_JLk_ST_LOOP k)) ∧
      exec (.jlRoundTrip k rtt here far false) s = .next (u.syncResult ((here : Int) - ((far + rtt / 2 : Nat) : Int)))))

/-- The site bus: the CALL, the turns, relays, reports and routes, tone maps and neighbours. With the site bus off, the commands
that need it change nothing but, for a turn, the list of frames last sent. SB_CALL_SEND is the master's, two frames after a
launch and once in a cycle: the CALL is then seen with the tick in force, and no call is missed. A CALL of this device or of a
wrong length changes nothing; a master hearing one of a lower device yields; any other device takes the sender for master, the
band and the tick. SB_MASTER_TAKEOVER makes a candidate that missed three calls and hears no lower candidate the master. A
train is sent in the device's own turn alone, and a turn passes, or the round ends; either drops what its frames left
incomplete. A bulk turn is the granted device's, and its ROUTE message names the tick two after its own. Relaying empties the
queue and counts modulo 65,536. A report is kept by the master, one for each sender; a route waits for its tick and then is in
force with its map. A tone map message is kept for the neighbour's band; a due refresh asks anew and clears its failures; a
neighbour unheard for 60 s is dropped. -/
def Obligations.SiteBusTurnsAndTables : Prop :=
  (∀ s : State, s.sbOn = false → (∀ us, exec (.sbCallSend us) s = .next s) ∧ (∀ src d f, exec (.sbCallReceived src d f) s = .next s) ∧
    exec .sbMasterTakeover s = .next s ∧ exec .sbTurnPass s = .next s ∧ exec .sbJoinTurn s = .next (s.setSbu { s.sbu with tx := [], msgs := [] }) ∧
    exec .sbBulkTurn s = .next (s.setSbu { s.sbu with tx := [], msgs := [] }) ∧ (∀ h m, exec (.sbFrameReceived h m) s = .next s) ∧
    (∀ src b k m, exec (.sbToneMapMsg src b k m) s = .next s) ∧ (∀ r, exec (.sbLinkReport r) s = .next s) ∧ (∀ r, exec (.sbRouteMsg r) s = .next s) ∧
    (∀ src a b, exec (.toneMapRefresh src a b) s = .next s)) ∧
  (∀ (s : State) (us : Fin 1000), s.sbOn = true →
    (s.sbRole ≠ 2 ∨ s.clk.frame < s.alc.launchAt + 2 ∨ s.sbu.callSeen = true → exec (.sbCallSend us) s = .next s) ∧
    (s.sbRole = 2 → s.alc.launchAt + 2 ≤ s.clk.frame → s.sbu.callSeen = false → ∃ t, exec (.sbCallSend us) s = .next t ∧ t.sbu.callSeen = true ∧
      t.sbu.callTick = s.tick ∧ t.sbu.bulkDev = s.bulkGrant ∧ t.sbu.lastBulk = s.bulkGrant ∧ t.rd F.SBU_MASTER_MISSED = 0)) ∧
  (∀ (s : State) (src : BitVec 16) (d : List Byte) (f : Nat), s.sbOn = true →
    (d.length ≠ 16 ∨ src.toNat = s.devid → exec (.sbCallReceived src d f) s = .next s) ∧
    (d.length = 16 → src.toNat ≠ s.devid → s.sbRole = 2 → ∃ t, exec (.sbCallReceived src d f) s = .next t ∧ Frame [.sbu] s t ∧
      t.sbu = { s.sbu with yield := s.sbu.yield || decide (src.toNat < s.devid) }) ∧
    (d.length = 16 → src.toNat ≠ s.devid → s.sbRole ≠ 2 → ∃ t, exec (.sbCallReceived src d f) s = .next t ∧ t.rd F.SBU_MASTER_DEVID = src.toNat ∧
      t.rd F.SBU_MASTER_MISSED = 0 ∧ t.sbBand = bitOf (leAt d 13 1) 0 ∧ t.sbu.callSeen = true ∧ t.sbu.callTick = leAt d 0 4 ∧ t.sbu.bulkDev = leAt d 14 2)) ∧
  (∀ s : State, let heard (d : Nat) : Prop := ∃ o ∈ s.sbu.origins, o.1 = d ∧ s.clk.frame ≤ o.2 + 3 * s.periodMs
    (s.sbCand = false ∨ s.rd F.SBU_MASTER_MISSED < 3 ∨ s.sbRole = 2 ∨ (∃ m ∈ s.sbu.table, m.cand = true ∧ m.dev < s.devid ∧ heard m.dev) →
      exec .sbMasterTakeover s = .next s) ∧
    (s.sbOn = true → s.sbCand = true → s.sbRole = 1 ∨ s.sbRole = 3 → 3 ≤ s.rd F.SBU_MASTER_MISSED →
      (∀ m ∈ s.sbu.table, m.cand = true → m.dev < s.devid → ¬heard m.dev) → ∃ t, exec .sbMasterTakeover s = .next t ∧ t.sbRole = 2 ∧
        t.rd F.SBU_MASTER_DEVID = s.devid ∧ t.rd F.SBU_MASTER_MISSED = 0 ∧ t.rd F.SBU_STAT_MCHG = 1)) ∧
  (∀ (s : State) (bulk : List (Option Nat × Nat × List Byte)), let q : State := s.setSbu { s.sbu with bulkQ := s.sbu.bulkQ ++ bulk, tx := [], msgs := [] }
    (s.sbOn = false ∨ s.sbu.callSeen = false ∨ s.ownTurn ≠ some s.sbu.turn → exec (.sbTrainSend bulk) s = .next q) ∧
    (s.sbOn = true → s.sbu.callSeen = true → s.sbRole = 1 ∨ s.sbRole = 2 → s.ownTurn = some s.sbu.turn →
      ∃ t, exec (.sbTrainSend bulk) s = .next t ∧ t.sbu.turn = s.sbu.turn + 1 ∧ t.sbu.pduQ = [] ∧
        t.sbu.bulkQ = s.sbu.bulkQ ++ bulk)) ∧
  (∀ s : State, s.sbOn = true → s.sbu.callSeen = true → s.sbu.joined = false →
    (s.sbu.turn < s.sbu.table.length →
      exec .sbTurnPass s = .next (s.setSbu { s.sbu with rx := [], held := none, turn := s.sbu.turn + 1 })) ∧
    (s.sbu.table.length ≤ s.sbu.turn → ∃ t, exec .sbTurnPass s = .next t ∧ t.sbu.joined = true ∧ t.sbu.rx = [] ∧ t.sbu.held = none ∧
      t.rd F.SBU_ROUND_LAST = min 65535 (s.clk.frame - s.alc.launchAt) ∧
      t.rd F.SBU_ROUND_MAX = max (min 65535 (s.clk.frame - s.alc.launchAt)) (s.rd F.SBU_ROUND_MAX)) ∧
    (s.sbRole = 3 → s.sbu.turn = s.sbu.table.length → s.sbu.callTick % 8 = s.devid % 8 → ∃ t, exec .sbJoinTurn s = .next t ∧ t.sbu.joined = true)) ∧
  (∀ s : State, s.sbOn = true → s.sbu.callSeen = true → s.sbu.joined = true → s.sbu.bulkDev = s.devid → ∃ t, exec .sbBulkTurn s = .next t ∧
    t.sbu.msgQ = [] ∧ (∀ r, s.sbu.msgQ = [.route r] → t.sbu.msgs = [.route { r with tick := s.tick + 2 }]) ∧
    (∀ r, s.sbu.msgQ = [.report r] → t.sbu.msgs = [.report r]) ∧ (∀ d b m k, s.sbu.msgQ = [.toneMap d b m k] → t.sbu.msgs = [.toneMap d b m k])) ∧
  (∀ (s : State) (us : Fin 1000), ∃ t, exec (.sbRelay us) s = .next t ∧ t.sbu.relayQ = [] ∧
    t.rd F.SBU_CNT2_RELAY = (s.rd F.SBU_CNT2_RELAY + s.sbu.relayQ.length) % 65536 ∧
    (s.rd F.SBU_FINJ_EN = 0 → t.sbu.tx = s.sbu.relayQ.map (s.relayFrame (1000 * s.siteMs + us.val)))) ∧
  (∀ (s : State) (h : BitVec 34) (m : List Byte), s.sbOn = true → s.rd F.SBU_FINJ_EN = 0 → s.sbu.held = none →
    exec (.sbFrameReceived h m) s = .next (s.sbTake ⟨h.toNat, m⟩)) ∧
  (∀ (s : State) (r : SbReport), s.sbOn = true → (s.sbRole ≠ 2 ∨ r.src = s.devid → exec (.sbLinkReport r) s = .next s) ∧
    (s.sbRole = 2 → r.src ≠ s.devid → ∃ t, exec (.sbLinkReport r) s = .next t ∧ ∀ x, x ∈ t.sbu.reports ↔ x = r ∨ x ∈ s.sbu.reports ∧ x.src ≠ r.src)) ∧
  (∀ (s : State) (r : SbRoute), s.sbOn = true → (s.sbRole = 1 ∨ s.sbRole = 3 →
      exec (.sbRouteMsg r) s = .next (s.setSbu { s.sbu with nextRoute := some r })) ∧ (s.sbRole = 0 ∨ s.sbRole = 2 → exec (.sbRouteMsg r) s = .next s)) ∧
  (∀ s : State, (s.sbu.nextRoute = none → exec .routeTableEffect s = .next s) ∧ (∀ r, s.sbu.nextRoute = some r →
    (s.tickCome r.tick = false → exec .routeTableEffect s = .next s) ∧
    (s.tickCome r.tick = true → ∃ t, exec .routeTableEffect s = .next t ∧ t.sbu.table = r.table ∧ t.sbu.nextRoute = none ∧
      t.rd F.SBU_BMAP_MASK = r.mask % 2 ^ 24 ∧ t.rd F.SBU_BMAP_MODE = r.mode % 4 ∧ t.sbBand = r.bandB ∧ t.rd F.SBU_STAT_RCHG = 1))) ∧
  (∀ (s : State) (src : BitVec 16) (k : BitVec 24) (m : BitVec 2), s.sbOn = true → s.sbu.nbrs.length < 64 →
    (∃ t, exec (.sbToneMapMsg src true k m) s = .next t ∧ (t.nbr src.toNat).b = ⟨k.toNat, m.toNat⟩ ∧ (t.nbr src.toNat).robust = false) ∧
    (∃ t, exec (.sbToneMapMsg src false k m) s = .next t ∧ (t.nbr src.toNat).a = ⟨k.toNat % 2 ^ 8, m.toNat⟩)) ∧
  (∀ (s : State) (src : BitVec 16) (a b : List Byte), let d := src.toNat; let known := s.sbu.nbrs.any fun n => n.1 = d
    (known = false ∨ s.refreshDue (s.nbr d) = false → exec (.toneMapRefresh src a b) s = .next s) ∧
    (s.sbOn = true → known = true → s.refreshDue (s.nbr d) = true → ∃ t, exec (.toneMapRefresh src a b) s = .next t ∧ (t.nbr d).fails = 0 ∧
      (t.nbr d).refreshed = some s.clk.frame ∧ (t.nbr d).robust = true ∧ (t.nbr d).rxA = chooseMap false a ∧
      t.rd F.SBU_CNT2_TMREQ = (s.rd F.SBU_CNT2_TMREQ + 1) % 65536) ∧
    (known = false ∨ s.clk.frame + 1 < (s.nbr d).heard + 60000 → exec (.neighbourDrop src) s = .next s) ∧
    (known = true → (s.nbr d).heard + 60000 ≤ s.clk.frame + 1 → ∃ t, exec (.neighbourDrop src) s = .next t ∧ ∀ n ∈ t.sbu.nbrs, n.1 ≠ d))

/-- Deliveries, verification, activation and confirmation of images; starting, aborting and serving DMA channels. UPDATE_OPEN is
refused while an image is verified, activated or on trial, an activation waits or a reseal is done; otherwise it records the
delivery, forgets the old bytes and measurements and awaits all its blocks. A block of a wrong length or CRC, or beyond the
delivery, is counted CRCERR, one received before DUP, one without a delivery or with another tag ignored; a good one that
reads back is stored, one that does not raises 0xA3. VERIFY_DONE installs a good image and forgets a bad one. UPDATE_ACT is
noted for a verified image whose security version still passes; IDLE_WINDOW tests the conditions when the window has passed;
UPDATE_CANCEL ends a wait; UPDATE_CONFIRM at stage 8 within the window, with neither the wedged fault present nor a sticky
safety fault, is noted, and the edge ends the trial; CONFIRM_WINDOW_EXPIRY rolls back. DMA_START acts on an idle channel and
DMA_ABORT on a busy one; DMA_BURST_SLOT serves the channel that is first by credit, or none. -/
def Obligations.UpdatesAndItineraries : Prop :=
  (∀ s : State, let b := s.rd F.UPD_BANK_STATE; let closed := b = 2 ∨ b = 4 ∨ b = 5 ∨ s.rd F.UPD_STAT_RAIN ≠ 0 ∨ s.rd F.KEY_RESEAL_DONE ≠ 0
    (closed → ∃ t, exec .updateOpen s = .next t ∧ t.rd F.UPD_STAT_REFUSED = 1 ∧ RegsBut [A.UPD_STAT] s t) ∧
    (¬closed → ∃ t, exec .updateOpen s = .next t ∧ t.rd F.UPD_BANK_STATE = 1 ∧ t.rd F.UPD_STAT_MISSING = s.rd F.UPD_DLV_LAST + 1 ∧
      t.upd.nblk = s.rd F.UPD_DLV_LAST + 1 ∧ t.upd.tag = s.rd F.UPD_DLV_TAG ∧ t.upd.flash = [] ∧ t.upd.ruck = none ∧
      (∀ j < 3, t.rd (F.KEY_NMEASj_M j) = 0) ∧ Frame [.regs, .upd] s t)) ∧
  (∀ (s : State) (m : List Byte) (rb : Bool), exec (.updateBlockGo rb) s = exec (.updateBlock (leBytes 520 (s.rd F.UPD_BLK_MSG)) rb) s ∧
    (m.length ≠ 520 ∨ crc32 (m.take 516) ≠ leAt m 516 4 → ∃ t, exec (.updateBlock m rb) s = .next t ∧
      t.rd F.UPD_CNT_CRCERR = min 32767 (s.rd F.UPD_CNT_CRCERR + 1) ∧ RegsBut [A.UPD_CNT] s t) ∧
    (m.length = 520 → crc32 (m.take 516) = leAt m 516 4 →
      let open_ := (s.rd F.UPD_BANK_STATE = 1 ∨ s.rd F.UPD_BANK_STATE = 2) ∧ leAt m 0 2 = s.upd.tag; let i := leAt m 2 2
      (¬open_ → exec (.updateBlock m rb) s = .next s) ∧
      (open_ → s.upd.nblk ≤ i → ∃ t, exec (.updateBlock m rb) s = .next t ∧ t.rd F.UPD_CNT_CRCERR = min 32767 (s.rd F.UPD_CNT_CRCERR + 1) ∧
        RegsBut [A.UPD_CNT] s t) ∧
      (open_ → i < s.upd.nblk → s.rdBit (F.UPD_BMAPw_RCVD (i / 32)) (i % 32) = true → ∃ t, exec (.updateBlock m rb) s = .next t ∧
        t.rd F.UPD_CNT_DUP = min 65535 (s.rd F.UPD_CNT_DUP + 1) ∧ RegsBut [A.UPD_CNT] s t) ∧
      (open_ → i < s.upd.nblk → s.rdBit (F.UPD_BMAPw_RCVD (i / 32)) (i % 32) = false →
        exec (.updateBlock m false) s = .next (s.raiseOnce 0xA3 1 none) ∧ ∃ t, exec (.updateBlock m true) s = .next t ∧
          t.rdBit (F.UPD_BMAPw_RCVD (i / 32)) (i % 32) = true ∧ t.rd F.UPD_STAT_MISSING = s.rd F.UPD_STAT_MISSING - 1 ∧
          (s.rd F.UPD_STAT_MISSING ≤ 1 → t.rd F.UPD_BANK_STATE = 2) ∧ Frame [.regs, .upd] s t))) ∧
  (∀ s : State, (s.rd F.UPD_BANK_STATE ≠ 2 → exec .verifyDone s = .next s) ∧ (s.rd F.UPD_BANK_STATE = 2 →
      (s.verifyStep = 0 → ∃ t, exec .verifyDone s = .next t ∧ t.rd F.UPD_BANK_STATE = 3 ∧ t.upd.ruck = some s.ruckImage ∧ t.rd F.UPD_STAT_VCAUSE = 0 ∧
        t.rd (F.KEY_NMEASj_M 0) = s.ruckImage.m1.toNat) ∧
      (s.verifyStep ≠ 0 → ∃ t, exec .verifyDone s = .next t ∧ t.rd F.UPD_BANK_STATE = 0 ∧ t.upd.ruck = none ∧ t.upd.flash = [] ∧
        t.rd F.UPD_STAT_VFAIL = 1 ∧ t.rd F.UPD_STAT_VCAUSE = s.verifyStep ∧ Raised s t 0xA1 1 none)) ∧
    (∀ i, s.rd F.UPD_BANK_STATE = 3 → s.upd.ruck = some i → s.rd F.UPD_VER_MINSVN ≤ i.svn.toNat →
      exec .updateAct s = .next (s.setUpd { s.upd with actReq := true })) ∧
    (s.rd F.UPD_BANK_STATE ≠ 3 ∨ s.upd.ruck = none → exec .updateAct s = .next s) ∧
    (∀ i, s.upd.ruck = some i → i.svn.toNat < s.rd F.UPD_VER_MINSVN → exec .updateAct s = .next s) ∧
    (s.rd F.UPD_STAT_RAIN = 0 → exec .updateCancel s = .next s ∧ exec .idleWindow s = .next s) ∧
    (s.rd F.UPD_STAT_RAIN ≠ 0 → ∃ t, exec .updateCancel s = .next t ∧ t.rd F.UPD_STAT_RAIN = 0) ∧
    (∀ f, s.rd F.UPD_STAT_RAIN ≠ 0 → s.upd.idleSince = some f → (s.clk.frame < f + 1000 * s.rd F.UPD_CFG_IDLEW → exec .idleWindow s = .next s) ∧
      (f + 1000 * s.rd F.UPD_CFG_IDLEW ≤ s.clk.frame → ∃ t, exec .idleWindow s = .next t ∧ t.rd F.UPD_REFUSE_COND = s.refusals ∧
        (s.refusals ≠ 0 → t.rd F.UPD_STAT_RAIN = 1) ∧
        (s.refusals = 0 → t.rd F.UPD_BANK_STATE = 4 ∧ t.rd F.UPD_STAT_RAIN = 0 ∧ t.upd.actAt = some (s.clk.frame + 2)))) ∧
    (let ok := s.upd.trial = true ∧ s.rd F.SYS_STAGE_STAGE = 8 ∧ s.clk.frame ≤ s.boot.stageFrame + 1000 * s.rd F.UPD_CFG_CONFWIN ∧
        s.causeIs 0x08 = false ∧ s.safetySticky = false;
      (¬ok → exec .updateConfirm s = .next s) ∧ (ok → exec .updateConfirm s = .next (s.setUpd { s.upd with confReq := true })) ∧
      (s.upd.confReq = false → s.confirmEdge = s) ∧
      (ok → s.upd.confReq = true → s.confirmEdge.upd.trial = false ∧ s.confirmEdge.upd.confReq = false ∧ s.confirmEdge.rd F.UPD_BANK_STATE = 3 ∧
        s.confirmEdge.rd F.UPD_BANK_TRIES = 0 ∧ ∀ i, s.upd.run = some i → s.confirmEdge.rd F.UPD_VER_MINSVN = i.svn.toNat) ∧
      (¬ok → s.upd.confReq = true → s.confirmEdge = s.setUpd { s.upd with confReq := false })) ∧
    (let past := s.upd.trial = true ∧ s.rd F.SYS_STAGE_STAGE = 8 ∧ s.boot.stageFrame + 1000 * s.rd F.UPD_CFG_CONFWIN ≤ s.clk.frame;
      (past → exec .confirmWindowExpiry s = .next s.rollback) ∧ (¬past → exec .confirmWindowExpiry s = .next s))) ∧
  (∀ (s : State) (n : Fin 32),
    (s.dmaState n ≠ 0 → exec (.dmaStart n) s = .next s ∧ exec (.dmaAbort n) s = .next (s.dmaEnd n 22)) ∧
    (s.dmaState n = 0 → exec (.dmaAbort n) s = .next s ∧ ∃ t, exec (.dmaStart n) s = .next t ∧ t.dmaState n = 1 ∧ t.rd (F.DMA_CHn_CNT_BYTES n) = 0 ∧
      t.rd (F.DMA_CHn_RES_BYTES n) = 0 ∧ t.rd (F.DMA_CHn_STAT_LEG n) = 0 ∧ t.rd (F.DMA_CHn_STAT_ERR n) = 0 ∧ t.rdBit F.DMA_ACTIVE_CH n = true ∧
      (t.dmaChan n).legAddr = s.rd (F.DMA_CHn_ITIN_ADDR n) ∧ (∀ m : Fin 32, m ≠ n → t.dmaChan m = s.dmaChan m ∧ t.dmaState m = s.dmaState m) ∧
      Frame [.regs, .dma] s t) ∧
    (s.dmaState n ≠ 0 → (s.dmaChan n).wb = false → ∃ t, exec (.dmaAbort n) s = .next t ∧ t.dmaState n = 0 ∧ t.rd (F.DMA_CHn_STAT_ABORTED n) = 1 ∧
      t.rdBit F.DMA_ACTIVE_CH n = false ∧ Frame [.regs, .dma] s t)) ∧
  (∀ s : State, ((∀ n : Fin 32, s.dmaState n = 0) → exec .dmaBurstSlot s = .next s) ∧
    (∀ n, s.dmaCredit.dmaPick s.dmaReady = some n →
      let u := s.dmaCredit.modDma n fun c => { c with credit := c.credit - s.dmaReady.foldl (fun t m => t + s.dmaWeight (s.dmaChan m).level) 0 }
      n ∈ s.dmaReady ∧ exec .dmaBurstSlot s = .next (if s.dmaState n = 1 then u.legFetch n else u.dmaBurst n)))

/-- Coherence grants, memory errors, the extension and its sandbox; the display and its rails. COHERENCE_REQUEST to a line without
poison grants the requesting cores in turn from the one due, with no bus error; to a poisoned line each of them gets a bus
error. A scrubbed error shows its place, sets COR and is counted; an uncorrectable one sets UNCOR, is counted and poisons its
word. EXTENSION_STOP stops the extension; the end of a running slice shows the time used, at most the slice; an access of the
running extension outside its reach (which never takes in the blocks R423 names) sets VIO with its address, a read gives 0,
and with XVMAX refusals within 1,000 frames the extension stops. DISPLAY_ON of a panel that is off begins its rails, of one
falling is held, of glass begins its scan, and needs the field supply; DISPLAY_OFF leads a panel down and stops glass at once.
A rail step before its time changes nothing; a due one raises or lowers one rail, and the last one down leaves the display
off. A frame start of a panel in BLACK turns it on with its emission, but for the tenth bad reference in a row. With no
display mode none of these change anything. -/
def Obligations.ClusterMemoryAndDisplay : Prop :=
  (∀ (s : State) (line : Nat) (reqs owns : BitVec 4),
    let order := ([0, 1, 2, 3].map fun i => (s.clu.next + i) % 4).filter fun c => reqs.getLsbD c
    (s.linePoisoned line = false → ∃ t, exec (.coherenceRequest line none reqs owns) s = .next t ∧ t.clu.grants = order ∧ t.clu.busErr = [] ∧
      t.clu.poison = s.clu.poison ∧ Frame [.clu] s t) ∧
    (s.linePoisoned line = true → ∃ t, exec (.coherenceRequest line none reqs owns) s = .next t ∧ t.clu.grants = [] ∧ t.clu.busErr = order ∧ Frame [.clu] s t)) ∧
  (∀ (s : State) (wh : Fin 3) (a : Word), exec (.memoryScrub []) s = .next s ∧
    (∃ t, exec (.memoryScrub [(wh, a)]) s = .next t ∧ t.rd F.CLU_ECC_COR = 1 ∧ t.rd F.CLU_ECC_WHERE = wh.val ∧ t.rd F.CLU_ECCADDR_ADDR = a.toNat / 8 * 8 ∧
      t.rd F.CLU_ECCCNT_COR = min 65535 (s.rd F.CLU_ECCCNT_COR + 1)) ∧
    (∃ t, exec (.memoryEccError wh a) s = .next t ∧ t.rd F.CLU_ECC_UNCOR = 1 ∧ t.rd F.CLU_ECC_WHERE = wh.val ∧
      t.rd F.CLU_ECCCNT_UNCOR = min 32767 (s.rd F.CLU_ECCCNT_UNCOR + 1) ∧ ∀ x, x ∈ t.clu.poison ↔ x ∈ s.clu.poison ∨ x = a.toNat / 8 * 8)) ∧
  (∀ s : State, (∃ t, exec .extensionStop s = .next t ∧ t.rd F.CLU_XST_STOPPED = 1 ∧ t.rd F.CLU_XST_RUN = 0 ∧ t.clu.slice = false ∧
      WordsBut [A.CLU_XST] s t ∧ Frame [.regs, .clu] s t) ∧
    (∀ u, s.rd F.CLU_XST_RUN = 0 ∨ s.clu.slice = false → exec (.extensionSliceEnd u) s = .next s) ∧
    (∀ u : BitVec 16, s.rd F.CLU_XST_RUN ≠ 0 → s.clu.slice = true → ∃ t, exec (.extensionSliceEnd u) s = .next t ∧
      t.rd F.CLU_XST_USED = min u.toNat (1000 * s.clu.ext.slice) % 65536 ∧ t.clu.slice = false ∧ WordsBut [A.CLU_XST] s t) ∧
    (∀ a : Word, (blockOf a.toNat ∈ [0, 1, 2, 3, 5, 10, 12, 17, 18] → a.toNat < 0x150000 → s.clu.ext.reaches true a.toNat = false) ∧
      (blockOf a.toNat = 11 → a.toNat < 0x150000 → s.clu.ext.reaches false a.toNat = false)) ∧
    (∀ (w : Bool) (a : Word), s.rd F.CLU_XST_RUN = 0 ∨ s.clu.ext.reaches w a.toNat = true → exec (.sandboxViolation ⟨w, a⟩) s = .next s) ∧
    (∀ (w : Bool) (a : Word), s.rd F.CLU_XST_RUN ≠ 0 → s.clu.ext.reaches w a.toNat = false → ∃ t, exec (.sandboxViolation ⟨w, a⟩) s = .next t ∧
      t.rd F.CLU_XST_VIO = 1 ∧ t.rd F.CLU_XVIO_ADDR = a.toNat ∧ t.clu.readBack = (if w then s.clu.readBack else 0) ∧ Raised s t 0xBA 1 none ∧
      (let k := (s.clu.refusals.filter fun f => s.clk.frame < f + 1000).length + 1;
        (s.clu.ext.vmax ≤ k → t.rd F.CLU_XST_RUN = 0 ∧ t.rd F.CLU_XST_STOPPED = 1) ∧
        (k < s.clu.ext.vmax → t.rd F.CLU_XST_RUN = s.rd F.CLU_XST_RUN)))) ∧
  (∀ s : State, (s.dpyMode = 0 → exec .displayOn s = .next s ∧ exec .displayOff s = .next s ∧ ∀ b, exec (.displayFrameStart b) s = .next s) ∧
    (s.boot.vddField = false → exec .displayOn s = .next s) ∧
    (s.boot.vddField = true → s.dpyMode = 1 → s.dpyState = 0 → ∃ t, exec .displayOn s = .next t ∧ t.dpyState = 1 ∧ t.dpy.ven = 1 ∧
      t.dpy.stepAt = s.clk.frame + s.rdly ∧ WordsBut [A.DPY_STAT] s t ∧ Frame [.regs, .dpy] s t) ∧
    (s.boot.vddField = true → s.dpyMode = 1 → s.dpyState = 4 → exec .displayOn s = .next (s.setDpy { s.dpy with onHeld := true })) ∧
    (s.boot.vddField = true → s.dpyMode = 2 → s.dpyState = 0 → ∃ t, exec .displayOn s = .next t ∧ t.dpyState = 3 ∧ t.dpy.scan = true ∧ WordsBut [A.DPY_STAT] s t) ∧
    (s.dpyMode = 1 → s.dpyState = 0 ∨ s.dpyState = 4 → exec .displayOff s = .next s) ∧
    (s.dpyMode = 1 → s.dpyState = 1 ∨ s.dpyState = 2 ∨ s.dpyState = 3 → ∃ t, exec .displayOff s = .next t ∧ t.dpyState = 4 ∧ t.dpy.emis = false ∧
      t.dpy.black = decide (s.dpyState = 1) ∧ WordsBut [A.DPY_STAT] s t) ∧
    (s.dpyMode = 2 → ∃ t, exec .displayOff s = .next t ∧ t.dpyState = 0 ∧ t.dpy.scan = false ∧ WordsBut [A.DPY_STAT] s t)) ∧
  (∀ s : State, (s.clk.frame < s.dpy.stepAt → exec .displayRailStep s = .next s) ∧
    (s.dpy.stepAt ≤ s.clk.frame → s.dpyState = 1 → s.dpy.ven ≠ 7 → ∃ t, exec .displayRailStep s = .next t ∧ t.dpy.ven = s.dpy.ven * 2 + 1 ∧ Frame [.dpy] s t) ∧
    (s.dpy.stepAt ≤ s.clk.frame → s.dpyState = 4 → s.dpy.black = true → railDown s.dpy.ven ≠ 0 → ∃ t, exec .displayRailStep s = .next t ∧
      t.dpy.ven = railDown s.dpy.ven ∧ t.dpyState = 4 ∧ Frame [.dpy] s t) ∧
    (s.dpy.stepAt ≤ s.clk.frame → s.dpyState = 4 → s.dpy.black = true → railDown s.dpy.ven = 0 → s.dpy.onHeld = false → ∃ t, exec .displayRailStep s = .next t ∧
      t.dpyState = 0 ∧ t.dpy.ven = 0 ∧ t.dpy.black = false) ∧
    (∀ b, s.dpyMode = 1 → s.dpyState = 2 → b = 0 ∨ (∀ c : Fin 3, nth s.dpy.refBad c < 9) → ∃ t, exec (.displayFrameStart b) s = .next t ∧ t.dpyState = 3 ∧ t.dpy.emis = true ∧
      t.rd F.DPY_STAT_FRAMES = (s.rd F.DPY_STAT_FRAMES + 1) % 65536 ∧ t.dpy.fbase = s.rd F.DPY_FBASE_ADDR / 4 * 4) ∧
    (∀ b, s.dpyMode = 2 → s.dpy.scan = false → exec (.displayFrameStart b) s = .next s))

/-- Card readers find, poll and leave cards; the service tag answers by its address and guards its staging area. A ping acts on an
enabled reader that waits, is to transmit or waits for the card's removal; in its turn of the interval; two pings in a row at
or above DET lead it to ask for a transmission. Polls count in the transmitting state; POLLT times 10 ms without a card ends
the carrier and is counted. CARD_ACTIVATED in that state with an enabled type and a legal size shows the identifier, type and
DEP, sets CARD, is counted and begins a session; otherwise it changes nothing. FOFF, the card's loss and SESST end a session;
a rebase is noted. Without a field, or to a request it does not hear, the tag answers nothing. It answers an inventory by its
mask unless quiet, is quieted, selected and made ready, tells its system information and blocks, refuses blocks that do not
exist or are not to be written, refuses staging when disabled, locked or short of supply, takes a good block into staging
(STAGED cleared), and commits a staged list whose length and CRC are right. -/
def Obligations.ReadersAndServiceTag : Prop :=
  (∀ (s : State) (k : Fin 4) (x : Nat) (ok : Bool), let st := s.rdrState k
    (s.rd (F.NFC_RDk_CFG_EN k) = 0 ∨ st = 0 ∨ st = 3 ∨ st = 4 ∨ s.pingDue k = false → exec (.readerPing k x ok) s = .next s) ∧
    (∀ b, s.rd (F.NFC_RDk_CFG_EN k) ≠ 0 → s.pingDue k = true → st = 1 → (s.reader k).rebase = false → (s.reader k).base = some b →
      s.rd (F.NFC_RDk_CFG_DET k) ≤ detuning b x → ∃ t, exec (.readerPing k x true) s = .next t ∧
        ((s.reader k).overs = 0 → t.rdrState k = 1 ∧ (t.reader k).overs = 1) ∧
        ((s.reader k).overs = 1 → t.rdrState k = 2 ∧ (k.val, s.clk.frame + 1) ∈ t.swa.rdrQueue)) ∧
    exec (.readerRebase k) s = .next (s.modReader k fun r => { r with rebase := true }) ∧
    (st ≠ 3 → exec (.readerPoll k) s = .next s ∧ exec (.readerPollTimeout k) s = .next s ∧ ∀ b d u, exec (.cardActivated k b d u) s = .next s) ∧
    (st = 3 → s.rd (F.NFC_RDk_CFG_TYPES k) ≠ 0 → (s.reader k).since + 5 * ((s.reader k).polls + 1) ≤ s.clk.frame → ∃ t, exec (.readerPoll k) s = .next t ∧
      (t.reader k).polls = (s.reader k).polls + 1 ∧ Frame [.nfc] s t) ∧
    (st = 3 → (s.reader k).since + 10 * s.rd (F.NFC_RDk_CFG_POLLT k) ≤ s.clk.frame → ∃ t, exec (.readerPollTimeout k) s = .next t ∧ t.rdrState k = 5 ∧
      t.rd (F.NFC_RDk_CNT_WAKE k) = min 32767 (s.rd (F.NFC_RDk_CNT_WAKE k) + 1) ∧ (t.reader k).carrier = false ∧ k.val ∈ t.swa.rdrEnd) ∧
    (st = 3 → s.clk.frame < (s.reader k).since + 10 * s.rd (F.NFC_RDk_CFG_POLLT k) → exec (.readerPollTimeout k) s = .next s) ∧
    (∀ (dep : Bool) (uid : List Byte), st = 3 →
      (bitOf (s.rd (F.NFC_RDk_CFG_TYPES k)) 0 = true → uid.length = 4 ∨ uid.length = 7 ∨ uid.length = 10 → ∃ u : State,
        exec (.cardActivated k false dep uid) s = .next (u.cardRead k uid) ∧ u.rdrState k = 4 ∧ u.rd (F.NFC_RDk_UID_LEN k) = uid.length ∧
        u.rd (F.NFC_RDk_UID_UID k) = leNat uid ∧ u.rd (F.NFC_RDk_ST_CARD k) = 1 ∧ u.rd (F.NFC_RDk_ST_TYPE k) = 0 ∧ u.rd (F.NFC_RDk_ST_DEP k) = b2n dep ∧
        u.rd (F.NFC_RDk_CNT_READS k) = min 65535 (s.rd (F.NFC_RDk_CNT_READS k) + 1) ∧ (u.reader k).since = s.clk.frame) ∧
      (bitOf (s.rd (F.NFC_RDk_CFG_TYPES k)) 0 = false → exec (.cardActivated k false dep uid) s = .next s) ∧
      (uid.length ≠ 4 → exec (.cardActivated k true dep uid) s = .next s)) ∧
    (st ≠ 4 → exec (.readerFoff k) s = .next s ∧ exec (.readerCardLoss k) s = .next s ∧ exec (.readerSessionTimeout k) s = .next s) ∧
    (st = 4 → (∃ t, exec (.readerFoff k) s = .next t ∧ exec (.readerCardLoss k) s = .next t ∧ t.rdrState k = 5 ∧ (t.reader k).carrier = false ∧
        ((s.reader k).since + 100 * s.rd (F.NFC_RDk_CFG_SESST k) ≤ s.clk.frame → exec (.readerSessionTimeout k) s = .next t)) ∧
      (s.clk.frame < (s.reader k).since + 100 * s.rd (F.NFC_RDk_CFG_SESST k) → exec (.readerSessionTimeout k) s = .next s))) ∧
  (∀ (s : State) (ad : TagAddr) (b n : BitVec 16) (len crc : Word) (d : List Byte) (mv : Nat), s.tagHears ad = false →
    let none_ := s.setNfc { s.nfc with reply := .none };
    exec (.tagStayQuiet ad) s = .next none_ ∧ exec (.tagResetToReady ad) s = .next none_ ∧ exec (.tagGetSystemInfo ad) s = .next none_ ∧
    exec (.tagExtGetSystemInfo ad) s = .next none_ ∧ exec (.tagExtReadSingle ad b) s = .next none_ ∧ exec (.tagExtReadMultiple ad b n) s = .next none_ ∧
    exec (.tagCommit ad len crc mv) s = .next none_ ∧ exec (.tagExtWriteSingle ad b d mv) s = .next none_) ∧
  (∀ (s : State) (ad : TagAddr), s.tagHears ad = true →
    exec (.tagStayQuiet ad) s = .next (s.setNfc { s.nfc with quiet := true, selected := false, reply := .none }) ∧
    exec (.tagResetToReady ad) s = .next (s.setNfc { s.nfc with quiet := false, selected := false, reply := .ok }) ∧
    exec (.tagGetSystemInfo ad) s = .next (s.setNfc { s.nfc with reply := .uid }) ∧
    exec (.tagExtGetSystemInfo ad) s = .next (s.setNfc { s.nfc with reply := .system 0x2010 32 }) ∧
    (∀ b : BitVec 16, ∃ t, exec (.tagExtReadSingle ad b) s = .next t ∧ Frame [.nfc] s t ∧
      (0x10 ≤ b.toNat → b.toNat ≤ 0x200F → t.nfc.reply = .data (s.stagedBytes (32 * (b.toNat - 0x10)) 32)) ∧
      (b.toNat = 4 → t.nfc.reply = .data (List.replicate 32 0)) ∧
      (1 < b.toNat ∧ b.toNat < 0x10 ∧ b.toNat ≠ 4 ∨ 0x200F < b.toNat → t.nfc.reply = .error 0x10)) ∧
    (∀ b n : BitVec 16, ∃ t, exec (.tagExtReadMultiple ad b n) s = .next t ∧ Frame [.nfc] s t ∧
      (0x200F < b.toNat + n.toNat → t.nfc.reply = .error 0x10) ∧ (n.toNat = 0 → b.toNat ≤ 0x200F → exec (.tagExtReadSingle ad b) s = .next t)) ∧
    (∀ (b : BitVec 16) (d : List Byte) (mv : Nat), d.length = 32 → b.toNat ≠ 4 →
      (s.rd F.NFC_TAG_CFG_STGEN = 0 ∨ b.toNat ≤ 1 → exec (.tagExtWriteSingle ad b d mv) s = .next (s.setNfc { s.nfc with reply := .error 0x12 })) ∧
      (s.rd F.NFC_TAG_CFG_STGEN ≠ 0 → 1 < b.toNat → b.toNat < 0x10 ∨ 0x200F < b.toNat →
        exec (.tagExtWriteSingle ad b d mv) s = .next (s.setNfc { s.nfc with reply := .error 0x10 })) ∧
      (s.rd F.NFC_TAG_CFG_STGEN ≠ 0 → 0x10 ≤ b.toNat → b.toNat ≤ 0x200F →
        (s.nfc.locked = true → exec (.tagExtWriteSingle ad b d mv) s = .next (s.setNfc { s.nfc with reply := .error 0xA3 })) ∧
        (s.nfc.locked = false → mv < 2200 → ∃ t, exec (.tagExtWriteSingle ad b d mv) s = .next t ∧ t.nfc.reply = .error 0xA1 ∧ t.nfc.staging = s.nfc.staging ∧
          t.rd F.NFC_TAG_ST_LOWSUP = min 65535 (s.rd F.NFC_TAG_ST_LOWSUP + 1)) ∧
        (s.nfc.locked = false → 2200 ≤ mv → ∃ t, exec (.tagExtWriteSingle ad b d mv) s = .next t ∧ t.nfc.reply = .ok ∧ t.rd F.NFC_TAG_ST_STAGED = 0 ∧
          t.stagedBytes (32 * (b.toNat - 0x10)) 32 = d ∧ WordsBut [A.NFC_TAG_ST] s t))) ∧
    (∀ (len crc : Word) (mv : Nat), s.rd F.NFC_TAG_CFG_STGEN ≠ 0 → s.nfc.locked = false → 2200 ≤ mv →
      let good := len.toNat % 4 = 0 ∧ len.toNat ≤ 262144 ∧ crc32 (s.stagedBytes 0 len.toNat) = crc.toNat;
      (good → ∃ t, exec (.tagCommit ad len crc mv) s = .next t ∧ t.nfc.reply = .ok ∧ t.rd F.NFC_TAG_ST_STAGED = 1 ∧ t.rd F.NFC_TAG_LEN_BYTES = len.toNat ∧
        t.rd F.NFC_TAG_ST_COMMIT = 1 ∧ t.nfc.staging = s.nfc.staging) ∧
      (¬good → exec (.tagCommit ad len crc mv) s = .next (s.setNfc { s.nfc with reply := .error 0xA2 })))) ∧
  (∀ (s : State) (k : Fin 65) (m : BitVec 64) (slot : Option (Fin 16)) (u : BitVec 64), s.rd F.NFC_TAG_ST_FIELD ≠ 0 →
    exec (.tagInventory k m slot) s =
      .next (s.setNfc { s.nfc with reply := if s.nfc.quiet = false ∧ tagMatches s.tagUid k m.toNat (slot.map (·.val)) = true then .uid else .none }) ∧
    (u.toNat = s.tagUid → exec (.tagSelect u) s = .next (s.setNfc { s.nfc with quiet := false, selected := true, reply := .ok })) ∧
    (u.toNat ≠ s.tagUid → exec (.tagSelect u) s = .next (s.setNfc { s.nfc with selected := false, reply := .none }))) ∧
  (∀ (s : State) (b : Bool), ∃ t, exec (.tagFieldChange b) s = .next t ∧ t.rd F.NFC_TAG_ST_FIELD = b2n b ∧ (b = false → t.nfc.quiet = false ∧ t.nfc.selected = false) ∧
    (b = true → t.nfc.quiet = s.nfc.quiet ∧ t.nfc.selected = s.nfc.selected) ∧ RegsBut [A.NFC_TAG_ST] s (t.setNfc s.nfc))

/-- Sample ticks and control-frame edges advance time; the rows of a launch, a second, an interval and a period are edges that are
due. Before stage 0x3 a SAMPLE_TICK changes nothing; after it one adds a tick to the running frame, whose length is 16, or 8
to 24 in a stepped frame, and which takes no further tick once its ticks have ended: with the measurement clock off and no
overrun only the clock part changes, and an overrun is counted. An edge is run when the running frame's ticks have ended and
otherwise changes nothing; while no frames run it advances the wall clock and latches the pins. The first step of the sequence
makes the time of day one millisecond more, the frame number one more, the wall clock one millisecond on where it is powered,
takes the next period when the change is due, and sets the tick to time over period. LAUNCH_EDGE, LEDGER_SECOND_EDGE,
TARIFF_INTERVAL_EDGE and PERIOD_CHANGE_EDGE are that edge when they are due and else change nothing. A frame may be stepped
only where it is permitted, starts stepping beyond 500 microseconds of a source other than the local one (31.25 in stage 6)
and goes on while the offset is beyond 31.25 (the count of ticks is the model's choice: log entry 21). -/
def Obligations.EdgesAdvanceTime : Prop :=
  (∀ (s : State) (xs : List SampleIn) (ej : List DriveIn) (ov : Bool), (s.framesRun = false ∨ s.edgeDue = true → exec (.sampleTick xs ej ov) s = .next s) ∧
    (s.framesRun = true → s.edgeDue = false → s.boot.mclk = false → ∃ t, exec (.sampleTick xs ej false) s = .next t ∧
      t.clk.sample = s.clk.sample + 1 ∧ t.clk.tickInFrame = s.clk.tickInFrame + 1 ∧ Frame [.clk] s t) ∧
    (s.framesRun = true → s.edgeDue = false → ∃ t, exec (.sampleTick xs ej ov) s = .next t ∧ t.clk.sample = s.clk.sample + 1 ∧
      t.clk.tickInFrame = s.clk.tickInFrame + 1 ∧ t.clk.frame = s.clk.frame ∧ t.mem = s.mem ∧ t.bil = s.bil ∧
      t.rd F.TCK_OVR_SAMPLE = (if ov then min F.TCK_OVR_SAMPLE.max (s.rd F.TCK_OVR_SAMPLE + 1) else s.rd F.TCK_OVR_SAMPLE)) ∧
    (s.edgeDue = true ↔ s.clk.frameLen ≤ s.clk.tickInFrame)) ∧
  (∀ (s : State) (inp : List PinChange) (ov : Overruns),
    (s.framesRun = true → s.edgeDue = true → exec (.controlFrameEdge inp ov) s = .next (s.edgeRun inp ov)) ∧
    (s.framesRun = true → s.edgeDue = false → exec (.controlFrameEdge inp ov) s = .next s) ∧
    (s.framesRun = false → exec (.controlFrameEdge inp ov) s = .next (inp.foldl State.latchPin s.wallTick)) ∧
    exec (.launchEdge inp ov) s = (if s.framesRun = true ∧ s.nextMs % (10 * s.rd F.TCK_PERIOD_P) = 0 then exec (.controlFrameEdge inp ov) s else .next s) ∧
    exec (.ledgerSecondEdge inp ov) s = (if s.framesRun = true ∧ s.nextMs % 1000 = 0 then exec (.controlFrameEdge inp ov) s else .next s) ∧
    exec (.tariffIntervalEdge inp ov) s =
      (if s.framesRun = true ∧ s.bil.intEnd ≠ 0 ∧ s.bil.intEnd ≤ s.wallTick.wallSec then exec (.controlFrameEdge inp ov) s else .next s) ∧
    exec (.periodChangeEdge inp ov) s = (if s.framesRun = true ∧ s.periodDue s.nextMs = true then exec (.controlFrameEdge inp ov) s else .next s)) ∧
  (∀ s : State, s.timeStep.rd F.TCK_TIME_MS = (s.rd F.TCK_TIME_MS + 1) % 2 ^ 64 ∧ s.timeStep.clk.frame = s.clk.frame + 1 ∧
    s.timeStep.rd F.TCK_FRAME_COUNT = (s.rd F.TCK_FRAME_COUNT + 1) % 2 ^ 32 ∧ s.timeStep.clk.tickInFrame = 0 ∧
    (s.periodDue s.nextMs = true → s.timeStep.rd F.TCK_PERIOD_P = s.rd F.TCK_PERIOD_NEXT ∧
      ∀ g : Nat, g < 8 → s.rd (F.SYS_STRg_CTL_ARMED g) = 1 → s.timeStep.rd (F.SYS_STRg_CTL_ARMED g) = 0) ∧
    (s.periodDue s.nextMs = false → s.timeStep.rd F.TCK_PERIOD_P = s.rd F.TCK_PERIOD_P ∧
      ∀ g : Nat, g < 8 → s.timeStep.rd (F.SYS_STRg_CTL_ARMED g) = s.rd (F.SYS_STRg_CTL_ARMED g)) ∧
    s.timeStep.rd F.TCK_ALC_TICK_K = s.nextMs / (10 * s.timeStep.rd F.TCK_PERIOD_P) % 2 ^ 32 ∧
    (s.thm.io33 = true ∨ s.thm.vbak = true → s.rd F.THM_WALL_MS < 999 → s.wallTick.rd F.THM_WALL_MS = s.rd F.THM_WALL_MS + 1 ∧
      s.wallTick.rd F.THM_WALL_SEC = s.rd F.THM_WALL_SEC) ∧
    (s.thm.io33 = true ∨ s.thm.vbak = true → s.rd F.THM_WALL_MS = 999 → s.wallTick.rd F.THM_WALL_MS = 0 ∧
      s.wallTick.rd F.THM_WALL_SEC = (s.rd F.THM_WALL_SEC + 1) % 2 ^ 32) ∧
    (s.thm.io33 = false → s.thm.vbak = false → s.wallTick = s) ∧ Frame [.regs, .clk] s s.timeStep) ∧
  (∀ (s : State) (allowed : Bool), let t := s.stepDecide allowed
    8 ≤ t.clk.frameLen ∧ t.clk.frameLen ≤ 24 ∧ (t.clk.stepping = false → t.clk.frameLen = 16) ∧ Frame [.regs, .clk] s t ∧
    (t.clk.stepping = true ↔ allowed = true ∧ (if s.clk.stepping = true then 31250 < s.clk.ofs.natAbs
      else s.clk.source ≠ 7 ∧ (500000 < s.clk.ofs.natAbs ∨ (s.rd F.SYS_STAGE_STAGE = 6 ∧ 31250 < s.clk.ofs.natAbs)))) ∧
    (t.clk.stepping = true → s.clk.stepping = false → t.rd F.TCK_SYNC_STEPPED = 1) ∧
    (t.clk.stepping = true → t.clk.ofs = s.clk.ofs - 62500 * ((t.clk.frameLen : Int) - 16)))

/-- Commands that act on few parts of the state leave every other part unchanged. For every command whose list of parts has at
most five entries, and every state: when it answers a next state, that state differs from the first at most in the parts of
the list. The lists (one for each command) say where each command acts: the register file, the last good values of critical
registers, the bus, the clocks, and one part for each unit. So a command of one unit changes no other unit's state, no memory
outside it, no waiting command. -/
def Obligations.NarrowCommandsKeepTheRest : Prop :=
  ∀ (c : Instr) (s t : State), (touches c).length ≤ 5 → exec c s = .next t → Frame (touches c) s t

/-- Commands that raise faults or move sessions leave the parts they do not act on unchanged. For every command whose list of
parts has six to fifteen entries (the commands that may raise a fault source, lead a session on or out, or end a supply), and
every state: when it answers a next state, that state differs from the first at most in the parts of the list. None of them
changes the DMA engine or the queue; of them only a wide register read changes the bus, and only a guard input the pins. -/
def Obligations.WideCommandsKeepTheRest : Prop :=
  (∀ (c : Instr) (s t : State), 6 ≤ (touches c).length → (touches c).length ≤ 15 → exec c s = .next t → Frame (touches c) s t) ∧
  (∀ c : Instr, 6 ≤ (touches c).length → (touches c).length ≤ 15 → .dma ∉ touches c ∧ .pending ∉ touches c ∧
    (.bus ∈ touches c → ∃ a, c = .wideRegisterRead a) ∧ (.pins ∈ touches c → ∃ k a b, c = .guardInputChange k a b))
end

