-- ==== Sys2Proof/Laws/State.lean ====
section
/-!
SUPPORT. One lemma per field per update of `State`, each true by rfl, so that no later proof unfolds a record update.
-/

namespace Sys2Proof.Machine

@[simp] theorem State.setRegs_regs (s : State) (v : RegFile) : (s.setRegs v).regs = v := rfl
@[simp] theorem State.setRegs_gold (s : State) (v : RegFile) : (s.setRegs v).gold = s.gold := rfl
@[simp] theorem State.setRegs_bus (s : State) (v : RegFile) : (s.setRegs v).bus = s.bus := rfl
@[simp] theorem State.setRegs_clk (s : State) (v : RegFile) : (s.setRegs v).clk = s.clk := rfl
@[simp] theorem State.setRegs_boot (s : State) (v : RegFile) : (s.setRegs v).boot = s.boot := rfl
@[simp] theorem State.setRegs_flt (s : State) (v : RegFile) : (s.setRegs v).flt = s.flt := rfl
@[simp] theorem State.setRegs_journal (s : State) (v : RegFile) : (s.setRegs v).journal = s.journal := rfl
@[simp] theorem State.setRegs_mem (s : State) (v : RegFile) : (s.setRegs v).mem = s.mem := rfl
@[simp] theorem State.setRegs_met (s : State) (v : RegFile) : (s.setRegs v).met = s.met := rfl
@[simp] theorem State.setRegs_bil (s : State) (v : RegFile) : (s.setRegs v).bil = s.bil := rfl
@[simp] theorem State.setRegs_thm (s : State) (v : RegFile) : (s.setRegs v).thm = s.thm := rfl
@[simp] theorem State.setRegs_pil (s : State) (v : RegFile) : (s.setRegs v).pil = s.pil := rfl
@[simp] theorem State.setRegs_swa (s : State) (v : RegFile) : (s.setRegs v).swa = s.swa := rfl
@[simp] theorem State.setRegs_pins (s : State) (v : RegFile) : (s.setRegs v).pins = s.pins := rfl
@[simp] theorem State.setRegs_saf (s : State) (v : RegFile) : (s.setRegs v).saf = s.saf := rfl
@[simp] theorem State.setRegs_efm (s : State) (v : RegFile) : (s.setRegs v).efm = s.efm := rfl
@[simp] theorem State.setRegs_key (s : State) (v : RegFile) : (s.setRegs v).key = s.key := rfl
@[simp] theorem State.setRegs_alc (s : State) (v : RegFile) : (s.setRegs v).alc = s.alc := rfl
@[simp] theorem State.setRegs_lnk (s : State) (v : RegFile) : (s.setRegs v).lnk = s.lnk := rfl
@[simp] theorem State.setRegs_upd (s : State) (v : RegFile) : (s.setRegs v).upd = s.upd := rfl
@[simp] theorem State.setRegs_sbu (s : State) (v : RegFile) : (s.setRegs v).sbu = s.sbu := rfl
@[simp] theorem State.setRegs_dma (s : State) (v : RegFile) : (s.setRegs v).dma = s.dma := rfl
@[simp] theorem State.setRegs_nfc (s : State) (v : RegFile) : (s.setRegs v).nfc = s.nfc := rfl
@[simp] theorem State.setRegs_dpy (s : State) (v : RegFile) : (s.setRegs v).dpy = s.dpy := rfl
@[simp] theorem State.setRegs_clu (s : State) (v : RegFile) : (s.setRegs v).clu = s.clu := rfl
@[simp] theorem State.setRegs_freeCtr (s : State) (v : RegFile) : (s.setRegs v).freeCtr = s.freeCtr := rfl
@[simp] theorem State.setRegs_pending (s : State) (v : RegFile) : (s.setRegs v).pending = s.pending := rfl
@[simp] theorem State.setGold_regs (s : State) (v : RegFile) : (s.setGold v).regs = s.regs := rfl
@[simp] theorem State.setGold_gold (s : State) (v : RegFile) : (s.setGold v).gold = v := rfl
@[simp] theorem State.setGold_bus (s : State) (v : RegFile) : (s.setGold v).bus = s.bus := rfl
@[simp] theorem State.setGold_clk (s : State) (v : RegFile) : (s.setGold v).clk = s.clk := rfl
@[simp] theorem State.setGold_boot (s : State) (v : RegFile) : (s.setGold v).boot = s.boot := rfl
@[simp] theorem State.setGold_flt (s : State) (v : RegFile) : (s.setGold v).flt = s.flt := rfl
@[simp] theorem State.setGold_journal (s : State) (v : RegFile) : (s.setGold v).journal = s.journal := rfl
@[simp] theorem State.setGold_mem (s : State) (v : RegFile) : (s.setGold v).mem = s.mem := rfl
@[simp] theorem State.setGold_met (s : State) (v : RegFile) : (s.setGold v).met = s.met := rfl
@[simp] theorem State.setGold_bil (s : State) (v : RegFile) : (s.setGold v).bil = s.bil := rfl
@[simp] theorem State.setGold_thm (s : State) (v : RegFile) : (s.setGold v).thm = s.thm := rfl
@[simp] theorem State.setGold_pil (s : State) (v : RegFile) : (s.setGold v).pil = s.pil := rfl
@[simp] theorem State.setGold_swa (s : State) (v : RegFile) : (s.setGold v).swa = s.swa := rfl
@[simp] theorem State.setGold_pins (s : State) (v : RegFile) : (s.setGold v).pins = s.pins := rfl
@[simp] theorem State.setGold_saf (s : State) (v : RegFile) : (s.setGold v).saf = s.saf := rfl
@[simp] theorem State.setGold_efm (s : State) (v : RegFile) : (s.setGold v).efm = s.efm := rfl
@[simp] theorem State.setGold_key (s : State) (v : RegFile) : (s.setGold v).key = s.key := rfl
@[simp] theorem State.setGold_alc (s : State) (v : RegFile) : (s.setGold v).alc = s.alc := rfl
@[simp] theorem State.setGold_lnk (s : State) (v : RegFile) : (s.setGold v).lnk = s.lnk := rfl
@[simp] theorem State.setGold_upd (s : State) (v : RegFile) : (s.setGold v).upd = s.upd := rfl
@[simp] theorem State.setGold_sbu (s : State) (v : RegFile) : (s.setGold v).sbu = s.sbu := rfl
@[simp] theorem State.setGold_dma (s : State) (v : RegFile) : (s.setGold v).dma = s.dma := rfl
@[simp] theorem State.setGold_nfc (s : State) (v : RegFile) : (s.setGold v).nfc = s.nfc := rfl
@[simp] theorem State.setGold_dpy (s : State) (v : RegFile) : (s.setGold v).dpy = s.dpy := rfl
@[simp] theorem State.setGold_clu (s : State) (v : RegFile) : (s.setGold v).clu = s.clu := rfl
@[simp] theorem State.setGold_freeCtr (s : State) (v : RegFile) : (s.setGold v).freeCtr = s.freeCtr := rfl
@[simp] theorem State.setGold_pending (s : State) (v : RegFile) : (s.setGold v).pending = s.pending := rfl
@[simp] theorem State.setBus_regs (s : State) (v : BusState) : (s.setBus v).regs = s.regs := rfl
@[simp] theorem State.setBus_gold (s : State) (v : BusState) : (s.setBus v).gold = s.gold := rfl
@[simp] theorem State.setBus_bus (s : State) (v : BusState) : (s.setBus v).bus = v := rfl
@[simp] theorem State.setBus_clk (s : State) (v : BusState) : (s.setBus v).clk = s.clk := rfl
@[simp] theorem State.setBus_boot (s : State) (v : BusState) : (s.setBus v).boot = s.boot := rfl
@[simp] theorem State.setBus_flt (s : State) (v : BusState) : (s.setBus v).flt = s.flt := rfl
@[simp] theorem State.setBus_journal (s : State) (v : BusState) : (s.setBus v).journal = s.journal := rfl
@[simp] theorem State.setBus_mem (s : State) (v : BusState) : (s.setBus v).mem = s.mem := rfl
@[simp] theorem State.setBus_met (s : State) (v : BusState) : (s.setBus v).met = s.met := rfl
@[simp] theorem State.setBus_bil (s : State) (v : BusState) : (s.setBus v).bil = s.bil := rfl
@[simp] theorem State.setBus_thm (s : State) (v : BusState) : (s.setBus v).thm = s.thm := rfl
@[simp] theorem State.setBus_pil (s : State) (v : BusState) : (s.setBus v).pil = s.pil := rfl
@[simp] theorem State.setBus_swa (s : State) (v : BusState) : (s.setBus v).swa = s.swa := rfl
@[simp] theorem State.setBus_pins (s : State) (v : BusState) : (s.setBus v).pins = s.pins := rfl
@[simp] theorem State.setBus_saf (s : State) (v : BusState) : (s.setBus v).saf = s.saf := rfl
@[simp] theorem State.setBus_efm (s : State) (v : BusState) : (s.setBus v).efm = s.efm := rfl
@[simp] theorem State.setBus_key (s : State) (v : BusState) : (s.setBus v).key = s.key := rfl
@[simp] theorem State.setBus_alc (s : State) (v : BusState) : (s.setBus v).alc = s.alc := rfl
@[simp] theorem State.setBus_lnk (s : State) (v : BusState) : (s.setBus v).lnk = s.lnk := rfl
@[simp] theorem State.setBus_upd (s : State) (v : BusState) : (s.setBus v).upd = s.upd := rfl
@[simp] theorem State.setBus_sbu (s : State) (v : BusState) : (s.setBus v).sbu = s.sbu := rfl
@[simp] theorem State.setBus_dma (s : State) (v : BusState) : (s.setBus v).dma = s.dma := rfl
@[simp] theorem State.setBus_nfc (s : State) (v : BusState) : (s.setBus v).nfc = s.nfc := rfl
@[simp] theorem State.setBus_dpy (s : State) (v : BusState) : (s.setBus v).dpy = s.dpy := rfl
@[simp] theorem State.setBus_clu (s : State) (v : BusState) : (s.setBus v).clu = s.clu := rfl
@[simp] theorem State.setBus_freeCtr (s : State) (v : BusState) : (s.setBus v).freeCtr = s.freeCtr := rfl
@[simp] theorem State.setBus_pending (s : State) (v : BusState) : (s.setBus v).pending = s.pending := rfl
@[simp] theorem State.setClk_regs (s : State) (v : ClkState) : (s.setClk v).regs = s.regs := rfl
@[simp] theorem State.setClk_gold (s : State) (v : ClkState) : (s.setClk v).gold = s.gold := rfl
@[simp] theorem State.setClk_bus (s : State) (v : ClkState) : (s.setClk v).bus = s.bus := rfl
@[simp] theorem State.setClk_clk (s : State) (v : ClkState) : (s.setClk v).clk = v := rfl
@[simp] theorem State.setClk_boot (s : State) (v : ClkState) : (s.setClk v).boot = s.boot := rfl
@[simp] theorem State.setClk_flt (s : State) (v : ClkState) : (s.setClk v).flt = s.flt := rfl
@[simp] theorem State.setClk_journal (s : State) (v : ClkState) : (s.setClk v).journal = s.journal := rfl
@[simp] theorem State.setClk_mem (s : State) (v : ClkState) : (s.setClk v).mem = s.mem := rfl
@[simp] theorem State.setClk_met (s : State) (v : ClkState) : (s.setClk v).met = s.met := rfl
@[simp] theorem State.setClk_bil (s : State) (v : ClkState) : (s.setClk v).bil = s.bil := rfl
@[simp] theorem State.setClk_thm (s : State) (v : ClkState) : (s.setClk v).thm = s.thm := rfl
@[simp] theorem State.setClk_pil (s : State) (v : ClkState) : (s.setClk v).pil = s.pil := rfl
@[simp] theorem State.setClk_swa (s : State) (v : ClkState) : (s.setClk v).swa = s.swa := rfl
@[simp] theorem State.setClk_pins (s : State) (v : ClkState) : (s.setClk v).pins = s.pins := rfl
@[simp] theorem State.setClk_saf (s : State) (v : ClkState) : (s.setClk v).saf = s.saf := rfl
@[simp] theorem State.setClk_efm (s : State) (v : ClkState) : (s.setClk v).efm = s.efm := rfl
@[simp] theorem State.setClk_key (s : State) (v : ClkState) : (s.setClk v).key = s.key := rfl
@[simp] theorem State.setClk_alc (s : State) (v : ClkState) : (s.setClk v).alc = s.alc := rfl
@[simp] theorem State.setClk_lnk (s : State) (v : ClkState) : (s.setClk v).lnk = s.lnk := rfl
@[simp] theorem State.setClk_upd (s : State) (v : ClkState) : (s.setClk v).upd = s.upd := rfl
@[simp] theorem State.setClk_sbu (s : State) (v : ClkState) : (s.setClk v).sbu = s.sbu := rfl
@[simp] theorem State.setClk_dma (s : State) (v : ClkState) : (s.setClk v).dma = s.dma := rfl
@[simp] theorem State.setClk_nfc (s : State) (v : ClkState) : (s.setClk v).nfc = s.nfc := rfl
@[simp] theorem State.setClk_dpy (s : State) (v : ClkState) : (s.setClk v).dpy = s.dpy := rfl
@[simp] theorem State.setClk_clu (s : State) (v : ClkState) : (s.setClk v).clu = s.clu := rfl
@[simp] theorem State.setClk_freeCtr (s : State) (v : ClkState) : (s.setClk v).freeCtr = s.freeCtr := rfl
@[simp] theorem State.setClk_pending (s : State) (v : ClkState) : (s.setClk v).pending = s.pending := rfl
@[simp] theorem State.setBoot_regs (s : State) (v : BootState) : (s.setBoot v).regs = s.regs := rfl
@[simp] theorem State.setBoot_gold (s : State) (v : BootState) : (s.setBoot v).gold = s.gold := rfl
@[simp] theorem State.setBoot_bus (s : State) (v : BootState) : (s.setBoot v).bus = s.bus := rfl
@[simp] theorem State.setBoot_clk (s : State) (v : BootState) : (s.setBoot v).clk = s.clk := rfl
@[simp] theorem State.setBoot_boot (s : State) (v : BootState) : (s.setBoot v).boot = v := rfl
@[simp] theorem State.setBoot_flt (s : State) (v : BootState) : (s.setBoot v).flt = s.flt := rfl
@[simp] theorem State.setBoot_journal (s : State) (v : BootState) : (s.setBoot v).journal = s.journal := rfl
@[simp] theorem State.setBoot_mem (s : State) (v : BootState) : (s.setBoot v).mem = s.mem := rfl
@[simp] theorem State.setBoot_met (s : State) (v : BootState) : (s.setBoot v).met = s.met := rfl
@[simp] theorem State.setBoot_bil (s : State) (v : BootState) : (s.setBoot v).bil = s.bil := rfl
@[simp] theorem State.setBoot_thm (s : State) (v : BootState) : (s.setBoot v).thm = s.thm := rfl
@[simp] theorem State.setBoot_pil (s : State) (v : BootState) : (s.setBoot v).pil = s.pil := rfl
@[simp] theorem State.setBoot_swa (s : State) (v : BootState) : (s.setBoot v).swa = s.swa := rfl
@[simp] theorem State.setBoot_pins (s : State) (v : BootState) : (s.setBoot v).pins = s.pins := rfl
@[simp] theorem State.setBoot_saf (s : State) (v : BootState) : (s.setBoot v).saf = s.saf := rfl
@[simp] theorem State.setBoot_efm (s : State) (v : BootState) : (s.setBoot v).efm = s.efm := rfl
@[simp] theorem State.setBoot_key (s : State) (v : BootState) : (s.setBoot v).key = s.key := rfl
@[simp] theorem State.setBoot_alc (s : State) (v : BootState) : (s.setBoot v).alc = s.alc := rfl
@[simp] theorem State.setBoot_lnk (s : State) (v : BootState) : (s.setBoot v).lnk = s.lnk := rfl
@[simp] theorem State.setBoot_upd (s : State) (v : BootState) : (s.setBoot v).upd = s.upd := rfl
@[simp] theorem State.setBoot_sbu (s : State) (v : BootState) : (s.setBoot v).sbu = s.sbu := rfl
@[simp] theorem State.setBoot_dma (s : State) (v : BootState) : (s.setBoot v).dma = s.dma := rfl
@[simp] theorem State.setBoot_nfc (s : State) (v : BootState) : (s.setBoot v).nfc = s.nfc := rfl
@[simp] theorem State.setBoot_dpy (s : State) (v : BootState) : (s.setBoot v).dpy = s.dpy := rfl
@[simp] theorem State.setBoot_clu (s : State) (v : BootState) : (s.setBoot v).clu = s.clu := rfl
@[simp] theorem State.setBoot_freeCtr (s : State) (v : BootState) : (s.setBoot v).freeCtr = s.freeCtr := rfl
@[simp] theorem State.setBoot_pending (s : State) (v : BootState) : (s.setBoot v).pending = s.pending := rfl
@[simp] theorem State.setFlt_regs (s : State) (v : FltState) : (s.setFlt v).regs = s.regs := rfl
@[simp] theorem State.setFlt_gold (s : State) (v : FltState) : (s.setFlt v).gold = s.gold := rfl
@[simp] theorem State.setFlt_bus (s : State) (v : FltState) : (s.setFlt v).bus = s.bus := rfl
@[simp] theorem State.setFlt_clk (s : State) (v : FltState) : (s.setFlt v).clk = s.clk := rfl
@[simp] theorem State.setFlt_boot (s : State) (v : FltState) : (s.setFlt v).boot = s.boot := rfl
@[simp] theorem State.setFlt_flt (s : State) (v : FltState) : (s.setFlt v).flt = v := rfl
@[simp] theorem State.setFlt_journal (s : State) (v : FltState) : (s.setFlt v).journal = s.journal := rfl
@[simp] theorem State.setFlt_mem (s : State) (v : FltState) : (s.setFlt v).mem = s.mem := rfl
@[simp] theorem State.setFlt_met (s : State) (v : FltState) : (s.setFlt v).met = s.met := rfl
@[simp] theorem State.setFlt_bil (s : State) (v : FltState) : (s.setFlt v).bil = s.bil := rfl
@[simp] theorem State.setFlt_thm (s : State) (v : FltState) : (s.setFlt v).thm = s.thm := rfl
@[simp] theorem State.setFlt_pil (s : State) (v : FltState) : (s.setFlt v).pil = s.pil := rfl
@[simp] theorem State.setFlt_swa (s : State) (v : FltState) : (s.setFlt v).swa = s.swa := rfl
@[simp] theorem State.setFlt_pins (s : State) (v : FltState) : (s.setFlt v).pins = s.pins := rfl
@[simp] theorem State.setFlt_saf (s : State) (v : FltState) : (s.setFlt v).saf = s.saf := rfl
@[simp] theorem State.setFlt_efm (s : State) (v : FltState) : (s.setFlt v).efm = s.efm := rfl
@[simp] theorem State.setFlt_key (s : State) (v : FltState) : (s.setFlt v).key = s.key := rfl
@[simp] theorem State.setFlt_alc (s : State) (v : FltState) : (s.setFlt v).alc = s.alc := rfl
@[simp] theorem State.setFlt_lnk (s : State) (v : FltState) : (s.setFlt v).lnk = s.lnk := rfl
@[simp] theorem State.setFlt_upd (s : State) (v : FltState) : (s.setFlt v).upd = s.upd := rfl
@[simp] theorem State.setFlt_sbu (s : State) (v : FltState) : (s.setFlt v).sbu = s.sbu := rfl
@[simp] theorem State.setFlt_dma (s : State) (v : FltState) : (s.setFlt v).dma = s.dma := rfl
@[simp] theorem State.setFlt_nfc (s : State) (v : FltState) : (s.setFlt v).nfc = s.nfc := rfl
@[simp] theorem State.setFlt_dpy (s : State) (v : FltState) : (s.setFlt v).dpy = s.dpy := rfl
@[simp] theorem State.setFlt_clu (s : State) (v : FltState) : (s.setFlt v).clu = s.clu := rfl
@[simp] theorem State.setFlt_freeCtr (s : State) (v : FltState) : (s.setFlt v).freeCtr = s.freeCtr := rfl
@[simp] theorem State.setFlt_pending (s : State) (v : FltState) : (s.setFlt v).pending = s.pending := rfl
@[simp] theorem State.setJournal_regs (s : State) (v : List JEvent) : (s.setJournal v).regs = s.regs := rfl
@[simp] theorem State.setJournal_gold (s : State) (v : List JEvent) : (s.setJournal v).gold = s.gold := rfl
@[simp] theorem State.setJournal_bus (s : State) (v : List JEvent) : (s.setJournal v).bus = s.bus := rfl
@[simp] theorem State.setJournal_clk (s : State) (v : List JEvent) : (s.setJournal v).clk = s.clk := rfl
@[simp] theorem State.setJournal_boot (s : State) (v : List JEvent) : (s.setJournal v).boot = s.boot := rfl
@[simp] theorem State.setJournal_flt (s : State) (v : List JEvent) : (s.setJournal v).flt = s.flt := rfl
@[simp] theorem State.setJournal_journal (s : State) (v : List JEvent) : (s.setJournal v).journal = v := rfl
@[simp] theorem State.setJournal_mem (s : State) (v : List JEvent) : (s.setJournal v).mem = s.mem := rfl
@[simp] theorem State.setJournal_met (s : State) (v : List JEvent) : (s.setJournal v).met = s.met := rfl
@[simp] theorem State.setJournal_bil (s : State) (v : List JEvent) : (s.setJournal v).bil = s.bil := rfl
@[simp] theorem State.setJournal_thm (s : State) (v : List JEvent) : (s.setJournal v).thm = s.thm := rfl
@[simp] theorem State.setJournal_pil (s : State) (v : List JEvent) : (s.setJournal v).pil = s.pil := rfl
@[simp] theorem State.setJournal_swa (s : State) (v : List JEvent) : (s.setJournal v).swa = s.swa := rfl
@[simp] theorem State.setJournal_pins (s : State) (v : List JEvent) : (s.setJournal v).pins = s.pins := rfl
@[simp] theorem State.setJournal_saf (s : State) (v : List JEvent) : (s.setJournal v).saf = s.saf := rfl
@[simp] theorem State.setJournal_efm (s : State) (v : List JEvent) : (s.setJournal v).efm = s.efm := rfl
@[simp] theorem State.setJournal_key (s : State) (v : List JEvent) : (s.setJournal v).key = s.key := rfl
@[simp] theorem State.setJournal_alc (s : State) (v : List JEvent) : (s.setJournal v).alc = s.alc := rfl
@[simp] theorem State.setJournal_lnk (s : State) (v : List JEvent) : (s.setJournal v).lnk = s.lnk := rfl
@[simp] theorem State.setJournal_upd (s : State) (v : List JEvent) : (s.setJournal v).upd = s.upd := rfl
@[simp] theorem State.setJournal_sbu (s : State) (v : List JEvent) : (s.setJournal v).sbu = s.sbu := rfl
@[simp] theorem State.setJournal_dma (s : State) (v : List JEvent) : (s.setJournal v).dma = s.dma := rfl
@[simp] theorem State.setJournal_nfc (s : State) (v : List JEvent) : (s.setJournal v).nfc = s.nfc := rfl
@[simp] theorem State.setJournal_dpy (s : State) (v : List JEvent) : (s.setJournal v).dpy = s.dpy := rfl
@[simp] theorem State.setJournal_clu (s : State) (v : List JEvent) : (s.setJournal v).clu = s.clu := rfl
@[simp] theorem State.setJournal_freeCtr (s : State) (v : List JEvent) : (s.setJournal v).freeCtr = s.freeCtr := rfl
@[simp] theorem State.setJournal_pending (s : State) (v : List JEvent) : (s.setJournal v).pending = s.pending := rfl
@[simp] theorem State.setMem_regs (s : State) (v : List Host.Cell) : (s.setMem v).regs = s.regs := rfl
@[simp] theorem State.setMem_gold (s : State) (v : List Host.Cell) : (s.setMem v).gold = s.gold := rfl
@[simp] theorem State.setMem_bus (s : State) (v : List Host.Cell) : (s.setMem v).bus = s.bus := rfl
@[simp] theorem State.setMem_clk (s : State) (v : List Host.Cell) : (s.setMem v).clk = s.clk := rfl
@[simp] theorem State.setMem_boot (s : State) (v : List Host.Cell) : (s.setMem v).boot = s.boot := rfl
@[simp] theorem State.setMem_flt (s : State) (v : List Host.Cell) : (s.setMem v).flt = s.flt := rfl
@[simp] theorem State.setMem_journal (s : State) (v : List Host.Cell) : (s.setMem v).journal = s.journal := rfl
@[simp] theorem State.setMem_mem (s : State) (v : List Host.Cell) : (s.setMem v).mem = v := rfl
@[simp] theorem State.setMem_met (s : State) (v : List Host.Cell) : (s.setMem v).met = s.met := rfl
@[simp] theorem State.setMem_bil (s : State) (v : List Host.Cell) : (s.setMem v).bil = s.bil := rfl
@[simp] theorem State.setMem_thm (s : State) (v : List Host.Cell) : (s.setMem v).thm = s.thm := rfl
@[simp] theorem State.setMem_pil (s : State) (v : List Host.Cell) : (s.setMem v).pil = s.pil := rfl
@[simp] theorem State.setMem_swa (s : State) (v : List Host.Cell) : (s.setMem v).swa = s.swa := rfl
@[simp] theorem State.setMem_pins (s : State) (v : List Host.Cell) : (s.setMem v).pins = s.pins := rfl
@[simp] theorem State.setMem_saf (s : State) (v : List Host.Cell) : (s.setMem v).saf = s.saf := rfl
@[simp] theorem State.setMem_efm (s : State) (v : List Host.Cell) : (s.setMem v).efm = s.efm := rfl
@[simp] theorem State.setMem_key (s : State) (v : List Host.Cell) : (s.setMem v).key = s.key := rfl
@[simp] theorem State.setMem_alc (s : State) (v : List Host.Cell) : (s.setMem v).alc = s.alc := rfl
@[simp] theorem State.setMem_lnk (s : State) (v : List Host.Cell) : (s.setMem v).lnk = s.lnk := rfl
@[simp] theorem State.setMem_upd (s : State) (v : List Host.Cell) : (s.setMem v).upd = s.upd := rfl
@[simp] theorem State.setMem_sbu (s : State) (v : List Host.Cell) : (s.setMem v).sbu = s.sbu := rfl
@[simp] theorem State.setMem_dma (s : State) (v : List Host.Cell) : (s.setMem v).dma = s.dma := rfl
@[simp] theorem State.setMem_nfc (s : State) (v : List Host.Cell) : (s.setMem v).nfc = s.nfc := rfl
@[simp] theorem State.setMem_dpy (s : State) (v : List Host.Cell) : (s.setMem v).dpy = s.dpy := rfl
@[simp] theorem State.setMem_clu (s : State) (v : List Host.Cell) : (s.setMem v).clu = s.clu := rfl
@[simp] theorem State.setMem_freeCtr (s : State) (v : List Host.Cell) : (s.setMem v).freeCtr = s.freeCtr := rfl
@[simp] theorem State.setMem_pending (s : State) (v : List Host.Cell) : (s.setMem v).pending = s.pending := rfl
@[simp] theorem State.setMet_regs (s : State) (v : MetState) : (s.setMet v).regs = s.regs := rfl
@[simp] theorem State.setMet_gold (s : State) (v : MetState) : (s.setMet v).gold = s.gold := rfl
@[simp] theorem State.setMet_bus (s : State) (v : MetState) : (s.setMet v).bus = s.bus := rfl
@[simp] theorem State.setMet_clk (s : State) (v : MetState) : (s.setMet v).clk = s.clk := rfl
@[simp] theorem State.setMet_boot (s : State) (v : MetState) : (s.setMet v).boot = s.boot := rfl
@[simp] theorem State.setMet_flt (s : State) (v : MetState) : (s.setMet v).flt = s.flt := rfl
@[simp] theorem State.setMet_journal (s : State) (v : MetState) : (s.setMet v).journal = s.journal := rfl
@[simp] theorem State.setMet_mem (s : State) (v : MetState) : (s.setMet v).mem = s.mem := rfl
@[simp] theorem State.setMet_met (s : State) (v : MetState) : (s.setMet v).met = v := rfl
@[simp] theorem State.setMet_bil (s : State) (v : MetState) : (s.setMet v).bil = s.bil := rfl
@[simp] theorem State.setMet_thm (s : State) (v : MetState) : (s.setMet v).thm = s.thm := rfl
@[simp] theorem State.setMet_pil (s : State) (v : MetState) : (s.setMet v).pil = s.pil := rfl
@[simp] theorem State.setMet_swa (s : State) (v : MetState) : (s.setMet v).swa = s.swa := rfl
@[simp] theorem State.setMet_pins (s : State) (v : MetState) : (s.setMet v).pins = s.pins := rfl
@[simp] theorem State.setMet_saf (s : State) (v : MetState) : (s.setMet v).saf = s.saf := rfl
@[simp] theorem State.setMet_efm (s : State) (v : MetState) : (s.setMet v).efm = s.efm := rfl
@[simp] theorem State.setMet_key (s : State) (v : MetState) : (s.setMet v).key = s.key := rfl
@[simp] theorem State.setMet_alc (s : State) (v : MetState) : (s.setMet v).alc = s.alc := rfl
@[simp] theorem State.setMet_lnk (s : State) (v : MetState) : (s.setMet v).lnk = s.lnk := rfl
@[simp] theorem State.setMet_upd (s : State) (v : MetState) : (s.setMet v).upd = s.upd := rfl
@[simp] theorem State.setMet_sbu (s : State) (v : MetState) : (s.setMet v).sbu = s.sbu := rfl
@[simp] theorem State.setMet_dma (s : State) (v : MetState) : (s.setMet v).dma = s.dma := rfl
@[simp] theorem State.setMet_nfc (s : State) (v : MetState) : (s.setMet v).nfc = s.nfc := rfl
@[simp] theorem State.setMet_dpy (s : State) (v : MetState) : (s.setMet v).dpy = s.dpy := rfl
@[simp] theorem State.setMet_clu (s : State) (v : MetState) : (s.setMet v).clu = s.clu := rfl
@[simp] theorem State.setMet_freeCtr (s : State) (v : MetState) : (s.setMet v).freeCtr = s.freeCtr := rfl
@[simp] theorem State.setMet_pending (s : State) (v : MetState) : (s.setMet v).pending = s.pending := rfl
@[simp] theorem State.setBil_regs (s : State) (v : BilState) : (s.setBil v).regs = s.regs := rfl
@[simp] theorem State.setBil_gold (s : State) (v : BilState) : (s.setBil v).gold = s.gold := rfl
@[simp] theorem State.setBil_bus (s : State) (v : BilState) : (s.setBil v).bus = s.bus := rfl
@[simp] theorem State.setBil_clk (s : State) (v : BilState) : (s.setBil v).clk = s.clk := rfl
@[simp] theorem State.setBil_boot (s : State) (v : BilState) : (s.setBil v).boot = s.boot := rfl
@[simp] theorem State.setBil_flt (s : State) (v : BilState) : (s.setBil v).flt = s.flt := rfl
@[simp] theorem State.setBil_journal (s : State) (v : BilState) : (s.setBil v).journal = s.journal := rfl
@[simp] theorem State.setBil_mem (s : State) (v : BilState) : (s.setBil v).mem = s.mem := rfl
@[simp] theorem State.setBil_met (s : State) (v : BilState) : (s.setBil v).met = s.met := rfl
@[simp] theorem State.setBil_bil (s : State) (v : BilState) : (s.setBil v).bil = v := rfl
@[simp] theorem State.setBil_thm (s : State) (v : BilState) : (s.setBil v).thm = s.thm := rfl
@[simp] theorem State.setBil_pil (s : State) (v : BilState) : (s.setBil v).pil = s.pil := rfl
@[simp] theorem State.setBil_swa (s : State) (v : BilState) : (s.setBil v).swa = s.swa := rfl
@[simp] theorem State.setBil_pins (s : State) (v : BilState) : (s.setBil v).pins = s.pins := rfl
@[simp] theorem State.setBil_saf (s : State) (v : BilState) : (s.setBil v).saf = s.saf := rfl
@[simp] theorem State.setBil_efm (s : State) (v : BilState) : (s.setBil v).efm = s.efm := rfl
@[simp] theorem State.setBil_key (s : State) (v : BilState) : (s.setBil v).key = s.key := rfl
@[simp] theorem State.setBil_alc (s : State) (v : BilState) : (s.setBil v).alc = s.alc := rfl
@[simp] theorem State.setBil_lnk (s : State) (v : BilState) : (s.setBil v).lnk = s.lnk := rfl
@[simp] theorem State.setBil_upd (s : State) (v : BilState) : (s.setBil v).upd = s.upd := rfl
@[simp] theorem State.setBil_sbu (s : State) (v : BilState) : (s.setBil v).sbu = s.sbu := rfl
@[simp] theorem State.setBil_dma (s : State) (v : BilState) : (s.setBil v).dma = s.dma := rfl
@[simp] theorem State.setBil_nfc (s : State) (v : BilState) : (s.setBil v).nfc = s.nfc := rfl
@[simp] theorem State.setBil_dpy (s : State) (v : BilState) : (s.setBil v).dpy = s.dpy := rfl
@[simp] theorem State.setBil_clu (s : State) (v : BilState) : (s.setBil v).clu = s.clu := rfl
@[simp] theorem State.setBil_freeCtr (s : State) (v : BilState) : (s.setBil v).freeCtr = s.freeCtr := rfl
@[simp] theorem State.setBil_pending (s : State) (v : BilState) : (s.setBil v).pending = s.pending := rfl
@[simp] theorem State.setThm_regs (s : State) (v : ThmState) : (s.setThm v).regs = s.regs := rfl
@[simp] theorem State.setThm_gold (s : State) (v : ThmState) : (s.setThm v).gold = s.gold := rfl
@[simp] theorem State.setThm_bus (s : State) (v : ThmState) : (s.setThm v).bus = s.bus := rfl
@[simp] theorem State.setThm_clk (s : State) (v : ThmState) : (s.setThm v).clk = s.clk := rfl
@[simp] theorem State.setThm_boot (s : State) (v : ThmState) : (s.setThm v).boot = s.boot := rfl
@[simp] theorem State.setThm_flt (s : State) (v : ThmState) : (s.setThm v).flt = s.flt := rfl
@[simp] theorem State.setThm_journal (s : State) (v : ThmState) : (s.setThm v).journal = s.journal := rfl
@[simp] theorem State.setThm_mem (s : State) (v : ThmState) : (s.setThm v).mem = s.mem := rfl
@[simp] theorem State.setThm_met (s : State) (v : ThmState) : (s.setThm v).met = s.met := rfl
@[simp] theorem State.setThm_bil (s : State) (v : ThmState) : (s.setThm v).bil = s.bil := rfl
@[simp] theorem State.setThm_thm (s : State) (v : ThmState) : (s.setThm v).thm = v := rfl
@[simp] theorem State.setThm_pil (s : State) (v : ThmState) : (s.setThm v).pil = s.pil := rfl
@[simp] theorem State.setThm_swa (s : State) (v : ThmState) : (s.setThm v).swa = s.swa := rfl
@[simp] theorem State.setThm_pins (s : State) (v : ThmState) : (s.setThm v).pins = s.pins := rfl
@[simp] theorem State.setThm_saf (s : State) (v : ThmState) : (s.setThm v).saf = s.saf := rfl
@[simp] theorem State.setThm_efm (s : State) (v : ThmState) : (s.setThm v).efm = s.efm := rfl
@[simp] theorem State.setThm_key (s : State) (v : ThmState) : (s.setThm v).key = s.key := rfl
@[simp] theorem State.setThm_alc (s : State) (v : ThmState) : (s.setThm v).alc = s.alc := rfl
@[simp] theorem State.setThm_lnk (s : State) (v : ThmState) : (s.setThm v).lnk = s.lnk := rfl
@[simp] theorem State.setThm_upd (s : State) (v : ThmState) : (s.setThm v).upd = s.upd := rfl
@[simp] theorem State.setThm_sbu (s : State) (v : ThmState) : (s.setThm v).sbu = s.sbu := rfl
@[simp] theorem State.setThm_dma (s : State) (v : ThmState) : (s.setThm v).dma = s.dma := rfl
@[simp] theorem State.setThm_nfc (s : State) (v : ThmState) : (s.setThm v).nfc = s.nfc := rfl
@[simp] theorem State.setThm_dpy (s : State) (v : ThmState) : (s.setThm v).dpy = s.dpy := rfl
@[simp] theorem State.setThm_clu (s : State) (v : ThmState) : (s.setThm v).clu = s.clu := rfl
@[simp] theorem State.setThm_freeCtr (s : State) (v : ThmState) : (s.setThm v).freeCtr = s.freeCtr := rfl
@[simp] theorem State.setThm_pending (s : State) (v : ThmState) : (s.setThm v).pending = s.pending := rfl
@[simp] theorem State.setPil_regs (s : State) (v : PilState) : (s.setPil v).regs = s.regs := rfl
@[simp] theorem State.setPil_gold (s : State) (v : PilState) : (s.setPil v).gold = s.gold := rfl
@[simp] theorem State.setPil_bus (s : State) (v : PilState) : (s.setPil v).bus = s.bus := rfl
@[simp] theorem State.setPil_clk (s : State) (v : PilState) : (s.setPil v).clk = s.clk := rfl
@[simp] theorem State.setPil_boot (s : State) (v : PilState) : (s.setPil v).boot = s.boot := rfl
@[simp] theorem State.setPil_flt (s : State) (v : PilState) : (s.setPil v).flt = s.flt := rfl
@[simp] theorem State.setPil_journal (s : State) (v : PilState) : (s.setPil v).journal = s.journal := rfl
@[simp] theorem State.setPil_mem (s : State) (v : PilState) : (s.setPil v).mem = s.mem := rfl
@[simp] theorem State.setPil_met (s : State) (v : PilState) : (s.setPil v).met = s.met := rfl
@[simp] theorem State.setPil_bil (s : State) (v : PilState) : (s.setPil v).bil = s.bil := rfl
@[simp] theorem State.setPil_thm (s : State) (v : PilState) : (s.setPil v).thm = s.thm := rfl
@[simp] theorem State.setPil_pil (s : State) (v : PilState) : (s.setPil v).pil = v := rfl
@[simp] theorem State.setPil_swa (s : State) (v : PilState) : (s.setPil v).swa = s.swa := rfl
@[simp] theorem State.setPil_pins (s : State) (v : PilState) : (s.setPil v).pins = s.pins := rfl
@[simp] theorem State.setPil_saf (s : State) (v : PilState) : (s.setPil v).saf = s.saf := rfl
@[simp] theorem State.setPil_efm (s : State) (v : PilState) : (s.setPil v).efm = s.efm := rfl
@[simp] theorem State.setPil_key (s : State) (v : PilState) : (s.setPil v).key = s.key := rfl
@[simp] theorem State.setPil_alc (s : State) (v : PilState) : (s.setPil v).alc = s.alc := rfl
@[simp] theorem State.setPil_lnk (s : State) (v : PilState) : (s.setPil v).lnk = s.lnk := rfl
@[simp] theorem State.setPil_upd (s : State) (v : PilState) : (s.setPil v).upd = s.upd := rfl
@[simp] theorem State.setPil_sbu (s : State) (v : PilState) : (s.setPil v).sbu = s.sbu := rfl
@[simp] theorem State.setPil_dma (s : State) (v : PilState) : (s.setPil v).dma = s.dma := rfl
@[simp] theorem State.setPil_nfc (s : State) (v : PilState) : (s.setPil v).nfc = s.nfc := rfl
@[simp] theorem State.setPil_dpy (s : State) (v : PilState) : (s.setPil v).dpy = s.dpy := rfl
@[simp] theorem State.setPil_clu (s : State) (v : PilState) : (s.setPil v).clu = s.clu := rfl
@[simp] theorem State.setPil_freeCtr (s : State) (v : PilState) : (s.setPil v).freeCtr = s.freeCtr := rfl
@[simp] theorem State.setPil_pending (s : State) (v : PilState) : (s.setPil v).pending = s.pending := rfl
@[simp] theorem State.setSwa_regs (s : State) (v : SwaState) : (s.setSwa v).regs = s.regs := rfl
@[simp] theorem State.setSwa_gold (s : State) (v : SwaState) : (s.setSwa v).gold = s.gold := rfl
@[simp] theorem State.setSwa_bus (s : State) (v : SwaState) : (s.setSwa v).bus = s.bus := rfl
@[simp] theorem State.setSwa_clk (s : State) (v : SwaState) : (s.setSwa v).clk = s.clk := rfl
@[simp] theorem State.setSwa_boot (s : State) (v : SwaState) : (s.setSwa v).boot = s.boot := rfl
@[simp] theorem State.setSwa_flt (s : State) (v : SwaState) : (s.setSwa v).flt = s.flt := rfl
@[simp] theorem State.setSwa_journal (s : State) (v : SwaState) : (s.setSwa v).journal = s.journal := rfl
@[simp] theorem State.setSwa_mem (s : State) (v : SwaState) : (s.setSwa v).mem = s.mem := rfl
@[simp] theorem State.setSwa_met (s : State) (v : SwaState) : (s.setSwa v).met = s.met := rfl
@[simp] theorem State.setSwa_bil (s : State) (v : SwaState) : (s.setSwa v).bil = s.bil := rfl
@[simp] theorem State.setSwa_thm (s : State) (v : SwaState) : (s.setSwa v).thm = s.thm := rfl
@[simp] theorem State.setSwa_pil (s : State) (v : SwaState) : (s.setSwa v).pil = s.pil := rfl
@[simp] theorem State.setSwa_swa (s : State) (v : SwaState) : (s.setSwa v).swa = v := rfl
@[simp] theorem State.setSwa_pins (s : State) (v : SwaState) : (s.setSwa v).pins = s.pins := rfl
@[simp] theorem State.setSwa_saf (s : State) (v : SwaState) : (s.setSwa v).saf = s.saf := rfl
@[simp] theorem State.setSwa_efm (s : State) (v : SwaState) : (s.setSwa v).efm = s.efm := rfl
@[simp] theorem State.setSwa_key (s : State) (v : SwaState) : (s.setSwa v).key = s.key := rfl
@[simp] theorem State.setSwa_alc (s : State) (v : SwaState) : (s.setSwa v).alc = s.alc := rfl
@[simp] theorem State.setSwa_lnk (s : State) (v : SwaState) : (s.setSwa v).lnk = s.lnk := rfl
@[simp] theorem State.setSwa_upd (s : State) (v : SwaState) : (s.setSwa v).upd = s.upd := rfl
@[simp] theorem State.setSwa_sbu (s : State) (v : SwaState) : (s.setSwa v).sbu = s.sbu := rfl
@[simp] theorem State.setSwa_dma (s : State) (v : SwaState) : (s.setSwa v).dma = s.dma := rfl
@[simp] theorem State.setSwa_nfc (s : State) (v : SwaState) : (s.setSwa v).nfc = s.nfc := rfl
@[simp] theorem State.setSwa_dpy (s : State) (v : SwaState) : (s.setSwa v).dpy = s.dpy := rfl
@[simp] theorem State.setSwa_clu (s : State) (v : SwaState) : (s.setSwa v).clu = s.clu := rfl
@[simp] theorem State.setSwa_freeCtr (s : State) (v : SwaState) : (s.setSwa v).freeCtr = s.freeCtr := rfl
@[simp] theorem State.setSwa_pending (s : State) (v : SwaState) : (s.setSwa v).pending = s.pending := rfl
@[simp] theorem State.setPins_regs (s : State) (v : PinState) : (s.setPins v).regs = s.regs := rfl
@[simp] theorem State.setPins_gold (s : State) (v : PinState) : (s.setPins v).gold = s.gold := rfl
@[simp] theorem State.setPins_bus (s : State) (v : PinState) : (s.setPins v).bus = s.bus := rfl
@[simp] theorem State.setPins_clk (s : State) (v : PinState) : (s.setPins v).clk = s.clk := rfl
@[simp] theorem State.setPins_boot (s : State) (v : PinState) : (s.setPins v).boot = s.boot := rfl
@[simp] theorem State.setPins_flt (s : State) (v : PinState) : (s.setPins v).flt = s.flt := rfl
@[simp] theorem State.setPins_journal (s : State) (v : PinState) : (s.setPins v).journal = s.journal := rfl
@[simp] theorem State.setPins_mem (s : State) (v : PinState) : (s.setPins v).mem = s.mem := rfl
@[simp] theorem State.setPins_met (s : State) (v : PinState) : (s.setPins v).met = s.met := rfl
@[simp] theorem State.setPins_bil (s : State) (v : PinState) : (s.setPins v).bil = s.bil := rfl
@[simp] theorem State.setPins_thm (s : State) (v : PinState) : (s.setPins v).thm = s.thm := rfl
@[simp] theorem State.setPins_pil (s : State) (v : PinState) : (s.setPins v).pil = s.pil := rfl
@[simp] theorem State.setPins_swa (s : State) (v : PinState) : (s.setPins v).swa = s.swa := rfl
@[simp] theorem State.setPins_pins (s : State) (v : PinState) : (s.setPins v).pins = v := rfl
@[simp] theorem State.setPins_saf (s : State) (v : PinState) : (s.setPins v).saf = s.saf := rfl
@[simp] theorem State.setPins_efm (s : State) (v : PinState) : (s.setPins v).efm = s.efm := rfl
@[simp] theorem State.setPins_key (s : State) (v : PinState) : (s.setPins v).key = s.key := rfl
@[simp] theorem State.setPins_alc (s : State) (v : PinState) : (s.setPins v).alc = s.alc := rfl
@[simp] theorem State.setPins_lnk (s : State) (v : PinState) : (s.setPins v).lnk = s.lnk := rfl
@[simp] theorem State.setPins_upd (s : State) (v : PinState) : (s.setPins v).upd = s.upd := rfl
@[simp] theorem State.setPins_sbu (s : State) (v : PinState) : (s.setPins v).sbu = s.sbu := rfl
@[simp] theorem State.setPins_dma (s : State) (v : PinState) : (s.setPins v).dma = s.dma := rfl
@[simp] theorem State.setPins_nfc (s : State) (v : PinState) : (s.setPins v).nfc = s.nfc := rfl
@[simp] theorem State.setPins_dpy (s : State) (v : PinState) : (s.setPins v).dpy = s.dpy := rfl
@[simp] theorem State.setPins_clu (s : State) (v : PinState) : (s.setPins v).clu = s.clu := rfl
@[simp] theorem State.setPins_freeCtr (s : State) (v : PinState) : (s.setPins v).freeCtr = s.freeCtr := rfl
@[simp] theorem State.setPins_pending (s : State) (v : PinState) : (s.setPins v).pending = s.pending := rfl
@[simp] theorem State.setSaf_regs (s : State) (v : SafState) : (s.setSaf v).regs = s.regs := rfl
@[simp] theorem State.setSaf_gold (s : State) (v : SafState) : (s.setSaf v).gold = s.gold := rfl
@[simp] theorem State.setSaf_bus (s : State) (v : SafState) : (s.setSaf v).bus = s.bus := rfl
@[simp] theorem State.setSaf_clk (s : State) (v : SafState) : (s.setSaf v).clk = s.clk := rfl
@[simp] theorem State.setSaf_boot (s : State) (v : SafState) : (s.setSaf v).boot = s.boot := rfl
@[simp] theorem State.setSaf_flt (s : State) (v : SafState) : (s.setSaf v).flt = s.flt := rfl
@[simp] theorem State.setSaf_journal (s : State) (v : SafState) : (s.setSaf v).journal = s.journal := rfl
@[simp] theorem State.setSaf_mem (s : State) (v : SafState) : (s.setSaf v).mem = s.mem := rfl
@[simp] theorem State.setSaf_met (s : State) (v : SafState) : (s.setSaf v).met = s.met := rfl
@[simp] theorem State.setSaf_bil (s : State) (v : SafState) : (s.setSaf v).bil = s.bil := rfl
@[simp] theorem State.setSaf_thm (s : State) (v : SafState) : (s.setSaf v).thm = s.thm := rfl
@[simp] theorem State.setSaf_pil (s : State) (v : SafState) : (s.setSaf v).pil = s.pil := rfl
@[simp] theorem State.setSaf_swa (s : State) (v : SafState) : (s.setSaf v).swa = s.swa := rfl
@[simp] theorem State.setSaf_pins (s : State) (v : SafState) : (s.setSaf v).pins = s.pins := rfl
@[simp] theorem State.setSaf_saf (s : State) (v : SafState) : (s.setSaf v).saf = v := rfl
@[simp] theorem State.setSaf_efm (s : State) (v : SafState) : (s.setSaf v).efm = s.efm := rfl
@[simp] theorem State.setSaf_key (s : State) (v : SafState) : (s.setSaf v).key = s.key := rfl
@[simp] theorem State.setSaf_alc (s : State) (v : SafState) : (s.setSaf v).alc = s.alc := rfl
@[simp] theorem State.setSaf_lnk (s : State) (v : SafState) : (s.setSaf v).lnk = s.lnk := rfl
@[simp] theorem State.setSaf_upd (s : State) (v : SafState) : (s.setSaf v).upd = s.upd := rfl
@[simp] theorem State.setSaf_sbu (s : State) (v : SafState) : (s.setSaf v).sbu = s.sbu := rfl
@[simp] theorem State.setSaf_dma (s : State) (v : SafState) : (s.setSaf v).dma = s.dma := rfl
@[simp] theorem State.setSaf_nfc (s : State) (v : SafState) : (s.setSaf v).nfc = s.nfc := rfl
@[simp] theorem State.setSaf_dpy (s : State) (v : SafState) : (s.setSaf v).dpy = s.dpy := rfl
@[simp] theorem State.setSaf_clu (s : State) (v : SafState) : (s.setSaf v).clu = s.clu := rfl
@[simp] theorem State.setSaf_freeCtr (s : State) (v : SafState) : (s.setSaf v).freeCtr = s.freeCtr := rfl
@[simp] theorem State.setSaf_pending (s : State) (v : SafState) : (s.setSaf v).pending = s.pending := rfl
@[simp] theorem State.setEfm_regs (s : State) (v : EfmState) : (s.setEfm v).regs = s.regs := rfl
@[simp] theorem State.setEfm_gold (s : State) (v : EfmState) : (s.setEfm v).gold = s.gold := rfl
@[simp] theorem State.setEfm_bus (s : State) (v : EfmState) : (s.setEfm v).bus = s.bus := rfl
@[simp] theorem State.setEfm_clk (s : State) (v : EfmState) : (s.setEfm v).clk = s.clk := rfl
@[simp] theorem State.setEfm_boot (s : State) (v : EfmState) : (s.setEfm v).boot = s.boot := rfl
@[simp] theorem State.setEfm_flt (s : State) (v : EfmState) : (s.setEfm v).flt = s.flt := rfl
@[simp] theorem State.setEfm_journal (s : State) (v : EfmState) : (s.setEfm v).journal = s.journal := rfl
@[simp] theorem State.setEfm_mem (s : State) (v : EfmState) : (s.setEfm v).mem = s.mem := rfl
@[simp] theorem State.setEfm_met (s : State) (v : EfmState) : (s.setEfm v).met = s.met := rfl
@[simp] theorem State.setEfm_bil (s : State) (v : EfmState) : (s.setEfm v).bil = s.bil := rfl
@[simp] theorem State.setEfm_thm (s : State) (v : EfmState) : (s.setEfm v).thm = s.thm := rfl
@[simp] theorem State.setEfm_pil (s : State) (v : EfmState) : (s.setEfm v).pil = s.pil := rfl
@[simp] theorem State.setEfm_swa (s : State) (v : EfmState) : (s.setEfm v).swa = s.swa := rfl
@[simp] theorem State.setEfm_pins (s : State) (v : EfmState) : (s.setEfm v).pins = s.pins := rfl
@[simp] theorem State.setEfm_saf (s : State) (v : EfmState) : (s.setEfm v).saf = s.saf := rfl
@[simp] theorem State.setEfm_efm (s : State) (v : EfmState) : (s.setEfm v).efm = v := rfl
@[simp] theorem State.setEfm_key (s : State) (v : EfmState) : (s.setEfm v).key = s.key := rfl
@[simp] theorem State.setEfm_alc (s : State) (v : EfmState) : (s.setEfm v).alc = s.alc := rfl
@[simp] theorem State.setEfm_lnk (s : State) (v : EfmState) : (s.setEfm v).lnk = s.lnk := rfl
@[simp] theorem State.setEfm_upd (s : State) (v : EfmState) : (s.setEfm v).upd = s.upd := rfl
@[simp] theorem State.setEfm_sbu (s : State) (v : EfmState) : (s.setEfm v).sbu = s.sbu := rfl
@[simp] theorem State.setEfm_dma (s : State) (v : EfmState) : (s.setEfm v).dma = s.dma := rfl
@[simp] theorem State.setEfm_nfc (s : State) (v : EfmState) : (s.setEfm v).nfc = s.nfc := rfl
@[simp] theorem State.setEfm_dpy (s : State) (v : EfmState) : (s.setEfm v).dpy = s.dpy := rfl
@[simp] theorem State.setEfm_clu (s : State) (v : EfmState) : (s.setEfm v).clu = s.clu := rfl
@[simp] theorem State.setEfm_freeCtr (s : State) (v : EfmState) : (s.setEfm v).freeCtr = s.freeCtr := rfl
@[simp] theorem State.setEfm_pending (s : State) (v : EfmState) : (s.setEfm v).pending = s.pending := rfl
@[simp] theorem State.setKey_regs (s : State) (v : KeyState) : (s.setKey v).regs = s.regs := rfl
@[simp] theorem State.setKey_gold (s : State) (v : KeyState) : (s.setKey v).gold = s.gold := rfl
@[simp] theorem State.setKey_bus (s : State) (v : KeyState) : (s.setKey v).bus = s.bus := rfl
@[simp] theorem State.setKey_clk (s : State) (v : KeyState) : (s.setKey v).clk = s.clk := rfl
@[simp] theorem State.setKey_boot (s : State) (v : KeyState) : (s.setKey v).boot = s.boot := rfl
@[simp] theorem State.setKey_flt (s : State) (v : KeyState) : (s.setKey v).flt = s.flt := rfl
@[simp] theorem State.setKey_journal (s : State) (v : KeyState) : (s.setKey v).journal = s.journal := rfl
@[simp] theorem State.setKey_mem (s : State) (v : KeyState) : (s.setKey v).mem = s.mem := rfl
@[simp] theorem State.setKey_met (s : State) (v : KeyState) : (s.setKey v).met = s.met := rfl
@[simp] theorem State.setKey_bil (s : State) (v : KeyState) : (s.setKey v).bil = s.bil := rfl
@[simp] theorem State.setKey_thm (s : State) (v : KeyState) : (s.setKey v).thm = s.thm := rfl
@[simp] theorem State.setKey_pil (s : State) (v : KeyState) : (s.setKey v).pil = s.pil := rfl
@[simp] theorem State.setKey_swa (s : State) (v : KeyState) : (s.setKey v).swa = s.swa := rfl
@[simp] theorem State.setKey_pins (s : State) (v : KeyState) : (s.setKey v).pins = s.pins := rfl
@[simp] theorem State.setKey_saf (s : State) (v : KeyState) : (s.setKey v).saf = s.saf := rfl
@[simp] theorem State.setKey_efm (s : State) (v : KeyState) : (s.setKey v).efm = s.efm := rfl
@[simp] theorem State.setKey_key (s : State) (v : KeyState) : (s.setKey v).key = v := rfl
@[simp] theorem State.setKey_alc (s : State) (v : KeyState) : (s.setKey v).alc = s.alc := rfl
@[simp] theorem State.setKey_lnk (s : State) (v : KeyState) : (s.setKey v).lnk = s.lnk := rfl
@[simp] theorem State.setKey_upd (s : State) (v : KeyState) : (s.setKey v).upd = s.upd := rfl
@[simp] theorem State.setKey_sbu (s : State) (v : KeyState) : (s.setKey v).sbu = s.sbu := rfl
@[simp] theorem State.setKey_dma (s : State) (v : KeyState) : (s.setKey v).dma = s.dma := rfl
@[simp] theorem State.setKey_nfc (s : State) (v : KeyState) : (s.setKey v).nfc = s.nfc := rfl
@[simp] theorem State.setKey_dpy (s : State) (v : KeyState) : (s.setKey v).dpy = s.dpy := rfl
@[simp] theorem State.setKey_clu (s : State) (v : KeyState) : (s.setKey v).clu = s.clu := rfl
@[simp] theorem State.setKey_freeCtr (s : State) (v : KeyState) : (s.setKey v).freeCtr = s.freeCtr := rfl
@[simp] theorem State.setKey_pending (s : State) (v : KeyState) : (s.setKey v).pending = s.pending := rfl
@[simp] theorem State.setAlc_regs (s : State) (v : AlcState) : (s.setAlc v).regs = s.regs := rfl
@[simp] theorem State.setAlc_gold (s : State) (v : AlcState) : (s.setAlc v).gold = s.gold := rfl
@[simp] theorem State.setAlc_bus (s : State) (v : AlcState) : (s.setAlc v).bus = s.bus := rfl
@[simp] theorem State.setAlc_clk (s : State) (v : AlcState) : (s.setAlc v).clk = s.clk := rfl
@[simp] theorem State.setAlc_boot (s : State) (v : AlcState) : (s.setAlc v).boot = s.boot := rfl
@[simp] theorem State.setAlc_flt (s : State) (v : AlcState) : (s.setAlc v).flt = s.flt := rfl
@[simp] theorem State.setAlc_journal (s : State) (v : AlcState) : (s.setAlc v).journal = s.journal := rfl
@[simp] theorem State.setAlc_mem (s : State) (v : AlcState) : (s.setAlc v).mem = s.mem := rfl
@[simp] theorem State.setAlc_met (s : State) (v : AlcState) : (s.setAlc v).met = s.met := rfl
@[simp] theorem State.setAlc_bil (s : State) (v : AlcState) : (s.setAlc v).bil = s.bil := rfl
@[simp] theorem State.setAlc_thm (s : State) (v : AlcState) : (s.setAlc v).thm = s.thm := rfl
@[simp] theorem State.setAlc_pil (s : State) (v : AlcState) : (s.setAlc v).pil = s.pil := rfl
@[simp] theorem State.setAlc_swa (s : State) (v : AlcState) : (s.setAlc v).swa = s.swa := rfl
@[simp] theorem State.setAlc_pins (s : State) (v : AlcState) : (s.setAlc v).pins = s.pins := rfl
@[simp] theorem State.setAlc_saf (s : State) (v : AlcState) : (s.setAlc v).saf = s.saf := rfl
@[simp] theorem State.setAlc_efm (s : State) (v : AlcState) : (s.setAlc v).efm = s.efm := rfl
@[simp] theorem State.setAlc_key (s : State) (v : AlcState) : (s.setAlc v).key = s.key := rfl
@[simp] theorem State.setAlc_alc (s : State) (v : AlcState) : (s.setAlc v).alc = v := rfl
@[simp] theorem State.setAlc_lnk (s : State) (v : AlcState) : (s.setAlc v).lnk = s.lnk := rfl
@[simp] theorem State.setAlc_upd (s : State) (v : AlcState) : (s.setAlc v).upd = s.upd := rfl
@[simp] theorem State.setAlc_sbu (s : State) (v : AlcState) : (s.setAlc v).sbu = s.sbu := rfl
@[simp] theorem State.setAlc_dma (s : State) (v : AlcState) : (s.setAlc v).dma = s.dma := rfl
@[simp] theorem State.setAlc_nfc (s : State) (v : AlcState) : (s.setAlc v).nfc = s.nfc := rfl
@[simp] theorem State.setAlc_dpy (s : State) (v : AlcState) : (s.setAlc v).dpy = s.dpy := rfl
@[simp] theorem State.setAlc_clu (s : State) (v : AlcState) : (s.setAlc v).clu = s.clu := rfl
@[simp] theorem State.setAlc_freeCtr (s : State) (v : AlcState) : (s.setAlc v).freeCtr = s.freeCtr := rfl
@[simp] theorem State.setAlc_pending (s : State) (v : AlcState) : (s.setAlc v).pending = s.pending := rfl
@[simp] theorem State.setLnk_regs (s : State) (v : LnkState) : (s.setLnk v).regs = s.regs := rfl
@[simp] theorem State.setLnk_gold (s : State) (v : LnkState) : (s.setLnk v).gold = s.gold := rfl
@[simp] theorem State.setLnk_bus (s : State) (v : LnkState) : (s.setLnk v).bus = s.bus := rfl
@[simp] theorem State.setLnk_clk (s : State) (v : LnkState) : (s.setLnk v).clk = s.clk := rfl
@[simp] theorem State.setLnk_boot (s : State) (v : LnkState) : (s.setLnk v).boot = s.boot := rfl
@[simp] theorem State.setLnk_flt (s : State) (v : LnkState) : (s.setLnk v).flt = s.flt := rfl
@[simp] theorem State.setLnk_journal (s : State) (v : LnkState) : (s.setLnk v).journal = s.journal := rfl
@[simp] theorem State.setLnk_mem (s : State) (v : LnkState) : (s.setLnk v).mem = s.mem := rfl
@[simp] theorem State.setLnk_met (s : State) (v : LnkState) : (s.setLnk v).met = s.met := rfl
@[simp] theorem State.setLnk_bil (s : State) (v : LnkState) : (s.setLnk v).bil = s.bil := rfl
@[simp] theorem State.setLnk_thm (s : State) (v : LnkState) : (s.setLnk v).thm = s.thm := rfl
@[simp] theorem State.setLnk_pil (s : State) (v : LnkState) : (s.setLnk v).pil = s.pil := rfl
@[simp] theorem State.setLnk_swa (s : State) (v : LnkState) : (s.setLnk v).swa = s.swa := rfl
@[simp] theorem State.setLnk_pins (s : State) (v : LnkState) : (s.setLnk v).pins = s.pins := rfl
@[simp] theorem State.setLnk_saf (s : State) (v : LnkState) : (s.setLnk v).saf = s.saf := rfl
@[simp] theorem State.setLnk_efm (s : State) (v : LnkState) : (s.setLnk v).efm = s.efm := rfl
@[simp] theorem State.setLnk_key (s : State) (v : LnkState) : (s.setLnk v).key = s.key := rfl
@[simp] theorem State.setLnk_alc (s : State) (v : LnkState) : (s.setLnk v).alc = s.alc := rfl
@[simp] theorem State.setLnk_lnk (s : State) (v : LnkState) : (s.setLnk v).lnk = v := rfl
@[simp] theorem State.setLnk_upd (s : State) (v : LnkState) : (s.setLnk v).upd = s.upd := rfl
@[simp] theorem State.setLnk_sbu (s : State) (v : LnkState) : (s.setLnk v).sbu = s.sbu := rfl
@[simp] theorem State.setLnk_dma (s : State) (v : LnkState) : (s.setLnk v).dma = s.dma := rfl
@[simp] theorem State.setLnk_nfc (s : State) (v : LnkState) : (s.setLnk v).nfc = s.nfc := rfl
@[simp] theorem State.setLnk_dpy (s : State) (v : LnkState) : (s.setLnk v).dpy = s.dpy := rfl
@[simp] theorem State.setLnk_clu (s : State) (v : LnkState) : (s.setLnk v).clu = s.clu := rfl
@[simp] theorem State.setLnk_freeCtr (s : State) (v : LnkState) : (s.setLnk v).freeCtr = s.freeCtr := rfl
@[simp] theorem State.setLnk_pending (s : State) (v : LnkState) : (s.setLnk v).pending = s.pending := rfl
@[simp] theorem State.setUpd_regs (s : State) (v : UpdState) : (s.setUpd v).regs = s.regs := rfl
@[simp] theorem State.setUpd_gold (s : State) (v : UpdState) : (s.setUpd v).gold = s.gold := rfl
@[simp] theorem State.setUpd_bus (s : State) (v : UpdState) : (s.setUpd v).bus = s.bus := rfl
@[simp] theorem State.setUpd_clk (s : State) (v : UpdState) : (s.setUpd v).clk = s.clk := rfl
@[simp] theorem State.setUpd_boot (s : State) (v : UpdState) : (s.setUpd v).boot = s.boot := rfl
@[simp] theorem State.setUpd_flt (s : State) (v : UpdState) : (s.setUpd v).flt = s.flt := rfl
@[simp] theorem State.setUpd_journal (s : State) (v : UpdState) : (s.setUpd v).journal = s.journal := rfl
@[simp] theorem State.setUpd_mem (s : State) (v : UpdState) : (s.setUpd v).mem = s.mem := rfl
@[simp] theorem State.setUpd_met (s : State) (v : UpdState) : (s.setUpd v).met = s.met := rfl
@[simp] theorem State.setUpd_bil (s : State) (v : UpdState) : (s.setUpd v).bil = s.bil := rfl
@[simp] theorem State.setUpd_thm (s : State) (v : UpdState) : (s.setUpd v).thm = s.thm := rfl
@[simp] theorem State.setUpd_pil (s : State) (v : UpdState) : (s.setUpd v).pil = s.pil := rfl
@[simp] theorem State.setUpd_swa (s : State) (v : UpdState) : (s.setUpd v).swa = s.swa := rfl
@[simp] theorem State.setUpd_pins (s : State) (v : UpdState) : (s.setUpd v).pins = s.pins := rfl
@[simp] theorem State.setUpd_saf (s : State) (v : UpdState) : (s.setUpd v).saf = s.saf := rfl
@[simp] theorem State.setUpd_efm (s : State) (v : UpdState) : (s.setUpd v).efm = s.efm := rfl
@[simp] theorem State.setUpd_key (s : State) (v : UpdState) : (s.setUpd v).key = s.key := rfl
@[simp] theorem State.setUpd_alc (s : State) (v : UpdState) : (s.setUpd v).alc = s.alc := rfl
@[simp] theorem State.setUpd_lnk (s : State) (v : UpdState) : (s.setUpd v).lnk = s.lnk := rfl
@[simp] theorem State.setUpd_upd (s : State) (v : UpdState) : (s.setUpd v).upd = v := rfl
@[simp] theorem State.setUpd_sbu (s : State) (v : UpdState) : (s.setUpd v).sbu = s.sbu := rfl
@[simp] theorem State.setUpd_dma (s : State) (v : UpdState) : (s.setUpd v).dma = s.dma := rfl
@[simp] theorem State.setUpd_nfc (s : State) (v : UpdState) : (s.setUpd v).nfc = s.nfc := rfl
@[simp] theorem State.setUpd_dpy (s : State) (v : UpdState) : (s.setUpd v).dpy = s.dpy := rfl
@[simp] theorem State.setUpd_clu (s : State) (v : UpdState) : (s.setUpd v).clu = s.clu := rfl
@[simp] theorem State.setUpd_freeCtr (s : State) (v : UpdState) : (s.setUpd v).freeCtr = s.freeCtr := rfl
@[simp] theorem State.setUpd_pending (s : State) (v : UpdState) : (s.setUpd v).pending = s.pending := rfl
@[simp] theorem State.setSbu_regs (s : State) (v : SbuState) : (s.setSbu v).regs = s.regs := rfl
@[simp] theorem State.setSbu_gold (s : State) (v : SbuState) : (s.setSbu v).gold = s.gold := rfl
@[simp] theorem State.setSbu_bus (s : State) (v : SbuState) : (s.setSbu v).bus = s.bus := rfl
@[simp] theorem State.setSbu_clk (s : State) (v : SbuState) : (s.setSbu v).clk = s.clk := rfl
@[simp] theorem State.setSbu_boot (s : State) (v : SbuState) : (s.setSbu v).boot = s.boot := rfl
@[simp] theorem State.setSbu_flt (s : State) (v : SbuState) : (s.setSbu v).flt = s.flt := rfl
@[simp] theorem State.setSbu_journal (s : State) (v : SbuState) : (s.setSbu v).journal = s.journal := rfl
@[simp] theorem State.setSbu_mem (s : State) (v : SbuState) : (s.setSbu v).mem = s.mem := rfl
@[simp] theorem State.setSbu_met (s : State) (v : SbuState) : (s.setSbu v).met = s.met := rfl
@[simp] theorem State.setSbu_bil (s : State) (v : SbuState) : (s.setSbu v).bil = s.bil := rfl
@[simp] theorem State.setSbu_thm (s : State) (v : SbuState) : (s.setSbu v).thm = s.thm := rfl
@[simp] theorem State.setSbu_pil (s : State) (v : SbuState) : (s.setSbu v).pil = s.pil := rfl
@[simp] theorem State.setSbu_swa (s : State) (v : SbuState) : (s.setSbu v).swa = s.swa := rfl
@[simp] theorem State.setSbu_pins (s : State) (v : SbuState) : (s.setSbu v).pins = s.pins := rfl
@[simp] theorem State.setSbu_saf (s : State) (v : SbuState) : (s.setSbu v).saf = s.saf := rfl
@[simp] theorem State.setSbu_efm (s : State) (v : SbuState) : (s.setSbu v).efm = s.efm := rfl
@[simp] theorem State.setSbu_key (s : State) (v : SbuState) : (s.setSbu v).key = s.key := rfl
@[simp] theorem State.setSbu_alc (s : State) (v : SbuState) : (s.setSbu v).alc = s.alc := rfl
@[simp] theorem State.setSbu_lnk (s : State) (v : SbuState) : (s.setSbu v).lnk = s.lnk := rfl
@[simp] theorem State.setSbu_upd (s : State) (v : SbuState) : (s.setSbu v).upd = s.upd := rfl
@[simp] theorem State.setSbu_sbu (s : State) (v : SbuState) : (s.setSbu v).sbu = v := rfl
@[simp] theorem State.setSbu_dma (s : State) (v : SbuState) : (s.setSbu v).dma = s.dma := rfl
@[simp] theorem State.setSbu_nfc (s : State) (v : SbuState) : (s.setSbu v).nfc = s.nfc := rfl
@[simp] theorem State.setSbu_dpy (s : State) (v : SbuState) : (s.setSbu v).dpy = s.dpy := rfl
@[simp] theorem State.setSbu_clu (s : State) (v : SbuState) : (s.setSbu v).clu = s.clu := rfl
@[simp] theorem State.setSbu_freeCtr (s : State) (v : SbuState) : (s.setSbu v).freeCtr = s.freeCtr := rfl
@[simp] theorem State.setSbu_pending (s : State) (v : SbuState) : (s.setSbu v).pending = s.pending := rfl
@[simp] theorem State.setDma_regs (s : State) (v : List (Nat × DmaChan)) : (s.setDma v).regs = s.regs := rfl
@[simp] theorem State.setDma_gold (s : State) (v : List (Nat × DmaChan)) : (s.setDma v).gold = s.gold := rfl
@[simp] theorem State.setDma_bus (s : State) (v : List (Nat × DmaChan)) : (s.setDma v).bus = s.bus := rfl
@[simp] theorem State.setDma_clk (s : State) (v : List (Nat × DmaChan)) : (s.setDma v).clk = s.clk := rfl
@[simp] theorem State.setDma_boot (s : State) (v : List (Nat × DmaChan)) : (s.setDma v).boot = s.boot := rfl
@[simp] theorem State.setDma_flt (s : State) (v : List (Nat × DmaChan)) : (s.setDma v).flt = s.flt := rfl
@[simp] theorem State.setDma_journal (s : State) (v : List (Nat × DmaChan)) : (s.setDma v).journal = s.journal := rfl
@[simp] theorem State.setDma_mem (s : State) (v : List (Nat × DmaChan)) : (s.setDma v).mem = s.mem := rfl
@[simp] theorem State.setDma_met (s : State) (v : List (Nat × DmaChan)) : (s.setDma v).met = s.met := rfl
@[simp] theorem State.setDma_bil (s : State) (v : List (Nat × DmaChan)) : (s.setDma v).bil = s.bil := rfl
@[simp] theorem State.setDma_thm (s : State) (v : List (Nat × DmaChan)) : (s.setDma v).thm = s.thm := rfl
@[simp] theorem State.setDma_pil (s : State) (v : List (Nat × DmaChan)) : (s.setDma v).pil = s.pil := rfl
@[simp] theorem State.setDma_swa (s : State) (v : List (Nat × DmaChan)) : (s.setDma v).swa = s.swa := rfl
@[simp] theorem State.setDma_pins (s : State) (v : List (Nat × DmaChan)) : (s.setDma v).pins = s.pins := rfl
@[simp] theorem State.setDma_saf (s : State) (v : List (Nat × DmaChan)) : (s.setDma v).saf = s.saf := rfl
@[simp] theorem State.setDma_efm (s : State) (v : List (Nat × DmaChan)) : (s.setDma v).efm = s.efm := rfl
@[simp] theorem State.setDma_key (s : State) (v : List (Nat × DmaChan)) : (s.setDma v).key = s.key := rfl
@[simp] theorem State.setDma_alc (s : State) (v : List (Nat × DmaChan)) : (s.setDma v).alc = s.alc := rfl
@[simp] theorem State.setDma_lnk (s : State) (v : List (Nat × DmaChan)) : (s.setDma v).lnk = s.lnk := rfl
@[simp] theorem State.setDma_upd (s : State) (v : List (Nat × DmaChan)) : (s.setDma v).upd = s.upd := rfl
@[simp] theorem State.setDma_sbu (s : State) (v : List (Nat × DmaChan)) : (s.setDma v).sbu = s.sbu := rfl
@[simp] theorem State.setDma_dma (s : State) (v : List (Nat × DmaChan)) : (s.setDma v).dma = v := rfl
@[simp] theorem State.setDma_nfc (s : State) (v : List (Nat × DmaChan)) : (s.setDma v).nfc = s.nfc := rfl
@[simp] theorem State.setDma_dpy (s : State) (v : List (Nat × DmaChan)) : (s.setDma v).dpy = s.dpy := rfl
@[simp] theorem State.setDma_clu (s : State) (v : List (Nat × DmaChan)) : (s.setDma v).clu = s.clu := rfl
@[simp] theorem State.setDma_freeCtr (s : State) (v : List (Nat × DmaChan)) : (s.setDma v).freeCtr = s.freeCtr := rfl
@[simp] theorem State.setDma_pending (s : State) (v : List (Nat × DmaChan)) : (s.setDma v).pending = s.pending := rfl
@[simp] theorem State.setNfc_regs (s : State) (v : NfcState) : (s.setNfc v).regs = s.regs := rfl
@[simp] theorem State.setNfc_gold (s : State) (v : NfcState) : (s.setNfc v).gold = s.gold := rfl
@[simp] theorem State.setNfc_bus (s : State) (v : NfcState) : (s.setNfc v).bus = s.bus := rfl
@[simp] theorem State.setNfc_clk (s : State) (v : NfcState) : (s.setNfc v).clk = s.clk := rfl
@[simp] theorem State.setNfc_boot (s : State) (v : NfcState) : (s.setNfc v).boot = s.boot := rfl
@[simp] theorem State.setNfc_flt (s : State) (v : NfcState) : (s.setNfc v).flt = s.flt := rfl
@[simp] theorem State.setNfc_journal (s : State) (v : NfcState) : (s.setNfc v).journal = s.journal := rfl
@[simp] theorem State.setNfc_mem (s : State) (v : NfcState) : (s.setNfc v).mem = s.mem := rfl
@[simp] theorem State.setNfc_met (s : State) (v : NfcState) : (s.setNfc v).met = s.met := rfl
@[simp] theorem State.setNfc_bil (s : State) (v : NfcState) : (s.setNfc v).bil = s.bil := rfl
@[simp] theorem State.setNfc_thm (s : State) (v : NfcState) : (s.setNfc v).thm = s.thm := rfl
@[simp] theorem State.setNfc_pil (s : State) (v : NfcState) : (s.setNfc v).pil = s.pil := rfl
@[simp] theorem State.setNfc_swa (s : State) (v : NfcState) : (s.setNfc v).swa = s.swa := rfl
@[simp] theorem State.setNfc_pins (s : State) (v : NfcState) : (s.setNfc v).pins = s.pins := rfl
@[simp] theorem State.setNfc_saf (s : State) (v : NfcState) : (s.setNfc v).saf = s.saf := rfl
@[simp] theorem State.setNfc_efm (s : State) (v : NfcState) : (s.setNfc v).efm = s.efm := rfl
@[simp] theorem State.setNfc_key (s : State) (v : NfcState) : (s.setNfc v).key = s.key := rfl
@[simp] theorem State.setNfc_alc (s : State) (v : NfcState) : (s.setNfc v).alc = s.alc := rfl
@[simp] theorem State.setNfc_lnk (s : State) (v : NfcState) : (s.setNfc v).lnk = s.lnk := rfl
@[simp] theorem State.setNfc_upd (s : State) (v : NfcState) : (s.setNfc v).upd = s.upd := rfl
@[simp] theorem State.setNfc_sbu (s : State) (v : NfcState) : (s.setNfc v).sbu = s.sbu := rfl
@[simp] theorem State.setNfc_dma (s : State) (v : NfcState) : (s.setNfc v).dma = s.dma := rfl
@[simp] theorem State.setNfc_nfc (s : State) (v : NfcState) : (s.setNfc v).nfc = v := rfl
@[simp] theorem State.setNfc_dpy (s : State) (v : NfcState) : (s.setNfc v).dpy = s.dpy := rfl
@[simp] theorem State.setNfc_clu (s : State) (v : NfcState) : (s.setNfc v).clu = s.clu := rfl
@[simp] theorem State.setNfc_freeCtr (s : State) (v : NfcState) : (s.setNfc v).freeCtr = s.freeCtr := rfl
@[simp] theorem State.setNfc_pending (s : State) (v : NfcState) : (s.setNfc v).pending = s.pending := rfl
@[simp] theorem State.setDpy_regs (s : State) (v : DpyState) : (s.setDpy v).regs = s.regs := rfl
@[simp] theorem State.setDpy_gold (s : State) (v : DpyState) : (s.setDpy v).gold = s.gold := rfl
@[simp] theorem State.setDpy_bus (s : State) (v : DpyState) : (s.setDpy v).bus = s.bus := rfl
@[simp] theorem State.setDpy_clk (s : State) (v : DpyState) : (s.setDpy v).clk = s.clk := rfl
@[simp] theorem State.setDpy_boot (s : State) (v : DpyState) : (s.setDpy v).boot = s.boot := rfl
@[simp] theorem State.setDpy_flt (s : State) (v : DpyState) : (s.setDpy v).flt = s.flt := rfl
@[simp] theorem State.setDpy_journal (s : State) (v : DpyState) : (s.setDpy v).journal = s.journal := rfl
@[simp] theorem State.setDpy_mem (s : State) (v : DpyState) : (s.setDpy v).mem = s.mem := rfl
@[simp] theorem State.setDpy_met (s : State) (v : DpyState) : (s.setDpy v).met = s.met := rfl
@[simp] theorem State.setDpy_bil (s : State) (v : DpyState) : (s.setDpy v).bil = s.bil := rfl
@[simp] theorem State.setDpy_thm (s : State) (v : DpyState) : (s.setDpy v).thm = s.thm := rfl
@[simp] theorem State.setDpy_pil (s : State) (v : DpyState) : (s.setDpy v).pil = s.pil := rfl
@[simp] theorem State.setDpy_swa (s : State) (v : DpyState) : (s.setDpy v).swa = s.swa := rfl
@[simp] theorem State.setDpy_pins (s : State) (v : DpyState) : (s.setDpy v).pins = s.pins := rfl
@[simp] theorem State.setDpy_saf (s : State) (v : DpyState) : (s.setDpy v).saf = s.saf := rfl
@[simp] theorem State.setDpy_efm (s : State) (v : DpyState) : (s.setDpy v).efm = s.efm := rfl
@[simp] theorem State.setDpy_key (s : State) (v : DpyState) : (s.setDpy v).key = s.key := rfl
@[simp] theorem State.setDpy_alc (s : State) (v : DpyState) : (s.setDpy v).alc = s.alc := rfl
@[simp] theorem State.setDpy_lnk (s : State) (v : DpyState) : (s.setDpy v).lnk = s.lnk := rfl
@[simp] theorem State.setDpy_upd (s : State) (v : DpyState) : (s.setDpy v).upd = s.upd := rfl
@[simp] theorem State.setDpy_sbu (s : State) (v : DpyState) : (s.setDpy v).sbu = s.sbu := rfl
@[simp] theorem State.setDpy_dma (s : State) (v : DpyState) : (s.setDpy v).dma = s.dma := rfl
@[simp] theorem State.setDpy_nfc (s : State) (v : DpyState) : (s.setDpy v).nfc = s.nfc := rfl
@[simp] theorem State.setDpy_dpy (s : State) (v : DpyState) : (s.setDpy v).dpy = v := rfl
@[simp] theorem State.setDpy_clu (s : State) (v : DpyState) : (s.setDpy v).clu = s.clu := rfl
@[simp] theorem State.setDpy_freeCtr (s : State) (v : DpyState) : (s.setDpy v).freeCtr = s.freeCtr := rfl
@[simp] theorem State.setDpy_pending (s : State) (v : DpyState) : (s.setDpy v).pending = s.pending := rfl
@[simp] theorem State.setClu_regs (s : State) (v : CluState) : (s.setClu v).regs = s.regs := rfl
@[simp] theorem State.setClu_gold (s : State) (v : CluState) : (s.setClu v).gold = s.gold := rfl
@[simp] theorem State.setClu_bus (s : State) (v : CluState) : (s.setClu v).bus = s.bus := rfl
@[simp] theorem State.setClu_clk (s : State) (v : CluState) : (s.setClu v).clk = s.clk := rfl
@[simp] theorem State.setClu_boot (s : State) (v : CluState) : (s.setClu v).boot = s.boot := rfl
@[simp] theorem State.setClu_flt (s : State) (v : CluState) : (s.setClu v).flt = s.flt := rfl
@[simp] theorem State.setClu_journal (s : State) (v : CluState) : (s.setClu v).journal = s.journal := rfl
@[simp] theorem State.setClu_mem (s : State) (v : CluState) : (s.setClu v).mem = s.mem := rfl
@[simp] theorem State.setClu_met (s : State) (v : CluState) : (s.setClu v).met = s.met := rfl
@[simp] theorem State.setClu_bil (s : State) (v : CluState) : (s.setClu v).bil = s.bil := rfl
@[simp] theorem State.setClu_thm (s : State) (v : CluState) : (s.setClu v).thm = s.thm := rfl
@[simp] theorem State.setClu_pil (s : State) (v : CluState) : (s.setClu v).pil = s.pil := rfl
@[simp] theorem State.setClu_swa (s : State) (v : CluState) : (s.setClu v).swa = s.swa := rfl
@[simp] theorem State.setClu_pins (s : State) (v : CluState) : (s.setClu v).pins = s.pins := rfl
@[simp] theorem State.setClu_saf (s : State) (v : CluState) : (s.setClu v).saf = s.saf := rfl
@[simp] theorem State.setClu_efm (s : State) (v : CluState) : (s.setClu v).efm = s.efm := rfl
@[simp] theorem State.setClu_key (s : State) (v : CluState) : (s.setClu v).key = s.key := rfl
@[simp] theorem State.setClu_alc (s : State) (v : CluState) : (s.setClu v).alc = s.alc := rfl
@[simp] theorem State.setClu_lnk (s : State) (v : CluState) : (s.setClu v).lnk = s.lnk := rfl
@[simp] theorem State.setClu_upd (s : State) (v : CluState) : (s.setClu v).upd = s.upd := rfl
@[simp] theorem State.setClu_sbu (s : State) (v : CluState) : (s.setClu v).sbu = s.sbu := rfl
@[simp] theorem State.setClu_dma (s : State) (v : CluState) : (s.setClu v).dma = s.dma := rfl
@[simp] theorem State.setClu_nfc (s : State) (v : CluState) : (s.setClu v).nfc = s.nfc := rfl
@[simp] theorem State.setClu_dpy (s : State) (v : CluState) : (s.setClu v).dpy = s.dpy := rfl
@[simp] theorem State.setClu_clu (s : State) (v : CluState) : (s.setClu v).clu = v := rfl
@[simp] theorem State.setClu_freeCtr (s : State) (v : CluState) : (s.setClu v).freeCtr = s.freeCtr := rfl
@[simp] theorem State.setClu_pending (s : State) (v : CluState) : (s.setClu v).pending = s.pending := rfl
@[simp] theorem State.setFreeCtr_regs (s : State) (v : Nat) : (s.setFreeCtr v).regs = s.regs := rfl
@[simp] theorem State.setFreeCtr_gold (s : State) (v : Nat) : (s.setFreeCtr v).gold = s.gold := rfl
@[simp] theorem State.setFreeCtr_bus (s : State) (v : Nat) : (s.setFreeCtr v).bus = s.bus := rfl
@[simp] theorem State.setFreeCtr_clk (s : State) (v : Nat) : (s.setFreeCtr v).clk = s.clk := rfl
@[simp] theorem State.setFreeCtr_boot (s : State) (v : Nat) : (s.setFreeCtr v).boot = s.boot := rfl
@[simp] theorem State.setFreeCtr_flt (s : State) (v : Nat) : (s.setFreeCtr v).flt = s.flt := rfl
@[simp] theorem State.setFreeCtr_journal (s : State) (v : Nat) : (s.setFreeCtr v).journal = s.journal := rfl
@[simp] theorem State.setFreeCtr_mem (s : State) (v : Nat) : (s.setFreeCtr v).mem = s.mem := rfl
@[simp] theorem State.setFreeCtr_met (s : State) (v : Nat) : (s.setFreeCtr v).met = s.met := rfl
@[simp] theorem State.setFreeCtr_bil (s : State) (v : Nat) : (s.setFreeCtr v).bil = s.bil := rfl
@[simp] theorem State.setFreeCtr_thm (s : State) (v : Nat) : (s.setFreeCtr v).thm = s.thm := rfl
@[simp] theorem State.setFreeCtr_pil (s : State) (v : Nat) : (s.setFreeCtr v).pil = s.pil := rfl
@[simp] theorem State.setFreeCtr_swa (s : State) (v : Nat) : (s.setFreeCtr v).swa = s.swa := rfl
@[simp] theorem State.setFreeCtr_pins (s : State) (v : Nat) : (s.setFreeCtr v).pins = s.pins := rfl
@[simp] theorem State.setFreeCtr_saf (s : State) (v : Nat) : (s.setFreeCtr v).saf = s.saf := rfl
@[simp] theorem State.setFreeCtr_efm (s : State) (v : Nat) : (s.setFreeCtr v).efm = s.efm := rfl
@[simp] theorem State.setFreeCtr_key (s : State) (v : Nat) : (s.setFreeCtr v).key = s.key := rfl
@[simp] theorem State.setFreeCtr_alc (s : State) (v : Nat) : (s.setFreeCtr v).alc = s.alc := rfl
@[simp] theorem State.setFreeCtr_lnk (s : State) (v : Nat) : (s.setFreeCtr v).lnk = s.lnk := rfl
@[simp] theorem State.setFreeCtr_upd (s : State) (v : Nat) : (s.setFreeCtr v).upd = s.upd := rfl
@[simp] theorem State.setFreeCtr_sbu (s : State) (v : Nat) : (s.setFreeCtr v).sbu = s.sbu := rfl
@[simp] theorem State.setFreeCtr_dma (s : State) (v : Nat) : (s.setFreeCtr v).dma = s.dma := rfl
@[simp] theorem State.setFreeCtr_nfc (s : State) (v : Nat) : (s.setFreeCtr v).nfc = s.nfc := rfl
@[simp] theorem State.setFreeCtr_dpy (s : State) (v : Nat) : (s.setFreeCtr v).dpy = s.dpy := rfl
@[simp] theorem State.setFreeCtr_clu (s : State) (v : Nat) : (s.setFreeCtr v).clu = s.clu := rfl
@[simp] theorem State.setFreeCtr_freeCtr (s : State) (v : Nat) : (s.setFreeCtr v).freeCtr = v := rfl
@[simp] theorem State.setFreeCtr_pending (s : State) (v : Nat) : (s.setFreeCtr v).pending = s.pending := rfl
@[simp] theorem State.setPending_regs (s : State) (v : List Instr) : (s.setPending v).regs = s.regs := rfl
@[simp] theorem State.setPending_gold (s : State) (v : List Instr) : (s.setPending v).gold = s.gold := rfl
@[simp] theorem State.setPending_bus (s : State) (v : List Instr) : (s.setPending v).bus = s.bus := rfl
@[simp] theorem State.setPending_clk (s : State) (v : List Instr) : (s.setPending v).clk = s.clk := rfl
@[simp] theorem State.setPending_boot (s : State) (v : List Instr) : (s.setPending v).boot = s.boot := rfl
@[simp] theorem State.setPending_flt (s : State) (v : List Instr) : (s.setPending v).flt = s.flt := rfl
@[simp] theorem State.setPending_journal (s : State) (v : List Instr) : (s.setPending v).journal = s.journal := rfl
@[simp] theorem State.setPending_mem (s : State) (v : List Instr) : (s.setPending v).mem = s.mem := rfl
@[simp] theorem State.setPending_met (s : State) (v : List Instr) : (s.setPending v).met = s.met := rfl
@[simp] theorem State.setPending_bil (s : State) (v : List Instr) : (s.setPending v).bil = s.bil := rfl
@[simp] theorem State.setPending_thm (s : State) (v : List Instr) : (s.setPending v).thm = s.thm := rfl
@[simp] theorem State.setPending_pil (s : State) (v : List Instr) : (s.setPending v).pil = s.pil := rfl
@[simp] theorem State.setPending_swa (s : State) (v : List Instr) : (s.setPending v).swa = s.swa := rfl
@[simp] theorem State.setPending_pins (s : State) (v : List Instr) : (s.setPending v).pins = s.pins := rfl
@[simp] theorem State.setPending_saf (s : State) (v : List Instr) : (s.setPending v).saf = s.saf := rfl
@[simp] theorem State.setPending_efm (s : State) (v : List Instr) : (s.setPending v).efm = s.efm := rfl
@[simp] theorem State.setPending_key (s : State) (v : List Instr) : (s.setPending v).key = s.key := rfl
@[simp] theorem State.setPending_alc (s : State) (v : List Instr) : (s.setPending v).alc = s.alc := rfl
@[simp] theorem State.setPending_lnk (s : State) (v : List Instr) : (s.setPending v).lnk = s.lnk := rfl
@[simp] theorem State.setPending_upd (s : State) (v : List Instr) : (s.setPending v).upd = s.upd := rfl
@[simp] theorem State.setPending_sbu (s : State) (v : List Instr) : (s.setPending v).sbu = s.sbu := rfl
@[simp] theorem State.setPending_dma (s : State) (v : List Instr) : (s.setPending v).dma = s.dma := rfl
@[simp] theorem State.setPending_nfc (s : State) (v : List Instr) : (s.setPending v).nfc = s.nfc := rfl
@[simp] theorem State.setPending_dpy (s : State) (v : List Instr) : (s.setPending v).dpy = s.dpy := rfl
@[simp] theorem State.setPending_clu (s : State) (v : List Instr) : (s.setPending v).clu = s.clu := rfl
@[simp] theorem State.setPending_freeCtr (s : State) (v : List Instr) : (s.setPending v).freeCtr = s.freeCtr := rfl
@[simp] theorem State.setPending_pending (s : State) (v : List Instr) : (s.setPending v).pending = v := rfl

end Sys2Proof.Machine
end

