-- ==== Sys2Proof/Laws/Ops.lean ====
section
/-!
SUPPORT. What the shared operations of `Ops`, `Flags` and `Memory` do, said once: sorted lists, register words, fields, counters.
-/

namespace Sys2Proof.Machine

open Sys2Proof

/-! ## Association lists -/

theorem lk_dropKey {α : Type} (d : Nat → α) (m : List (Nat × α)) (x y : Nat) (h : y ≠ x) : lk d (dropKey x m) y = lk d m y := by
  induction m with
  | nil => rfl
  | cons e m ih =>
    obtain ⟨k, w⟩ := e
    by_cases hk : k = x
    · subst hk
      have : dropKey k ((k, w) :: m) = dropKey k m := by simp [dropKey]
      rw [this, ih]; simp [lk, h]
    · have : dropKey x ((k, w) :: m) = (k, w) :: dropKey x m := by simp [dropKey, hk]
      rw [this]; simp only [lk, ih]

theorem lk_dropKey_self {α : Type} (d : Nat → α) (m : List (Nat × α)) (x : Nat) : lk d (dropKey x m) x = d x := by
  induction m with
  | nil => rfl
  | cons e m ih =>
    obtain ⟨k, w⟩ := e
    by_cases hk : k = x
    · subst hk
      have : dropKey k ((k, w) :: m) = dropKey k m := by simp [dropKey]
      rw [this, ih]
    · have : dropKey x ((k, w) :: m) = (k, w) :: dropKey x m := by simp [dropKey, hk]
      rw [this]; simp [lk, ih, Ne.symm hk]

/-- What was put is read back. -/
@[simp] theorem lk_put_self {α : Type} [DecidableEq α] (d : Nat → α) (m : List (Nat × α)) (x : Nat) (v : α) :
    lk d (put d m x v) x = v := by
  induction m with
  | nil => by_cases h : v = d x <;> simp [put, lk, h]
  | cons e m ih =>
    obtain ⟨k, w⟩ := e
    simp only [put]
    by_cases hk : k < x
    · simp [hk, lk, ih, Nat.ne_of_gt hk]
    · by_cases hv : v = d x
      · simp [hk, hv, lk_dropKey_self]
      · simp [hk, hv, lk]

/-- Every other key reads as before. -/
theorem lk_put_ne {α : Type} [DecidableEq α] (d : Nat → α) (m : List (Nat × α)) (x y : Nat) (v : α) (h : y ≠ x) :
    lk d (put d m x v) y = lk d m y := by
  induction m with
  | nil => by_cases hv : v = d x <;> simp [put, lk, hv, h]
  | cons e m ih =>
    obtain ⟨k, w⟩ := e
    simp only [put]
    by_cases hk : k < x
    · simp only [hk, if_true, lk, ih]
    · by_cases hv : v = d x
      · simp only [hk, hv, if_true, if_false]; exact lk_dropKey d _ x y h
      · simp only [hk, hv, if_false]
        rw [lk, if_neg h]; exact lk_dropKey d _ x y h

theorem wfFrom_mono {α : Type} [DecidableEq α] (d : Nat → α) (m : List (Nat × α)) (lo k : Nat) (h : lo ≤ k)
    (hm : wfFrom d (some k) m = true) : wfFrom d (some lo) m = true := by
  cases m with
  | nil => rfl
  | cons e m =>
    obtain ⟨j, w⟩ := e
    simp only [wfFrom, Bool.and_eq_true, decide_eq_true_eq] at hm ⊢
    exact ⟨⟨by omega, hm.1.2⟩, hm.2⟩

theorem wfFrom_none {α : Type} [DecidableEq α] (d : Nat → α) (m : List (Nat × α)) (k : Nat)
    (hm : wfFrom d (some k) m = true) : wfFrom d none m = true := by
  cases m with
  | nil => rfl
  | cons e m =>
    obtain ⟨j, w⟩ := e
    simp only [wfFrom, Bool.and_eq_true, decide_eq_true_eq] at hm ⊢
    exact ⟨⟨trivial, hm.1.2⟩, hm.2⟩

/-- Leaving entries out keeps the canonical form. -/
theorem wfFrom_filter {α : Type} [DecidableEq α] (d : Nat → α) (p : Nat × α → Bool) (m : List (Nat × α)) (lo : Option Nat)
    (hm : wfFrom d lo m = true) : wfFrom d lo (m.filter p) = true := by
  induction m generalizing lo with
  | nil => exact hm
  | cons e m ih =>
    obtain ⟨k, w⟩ := e
    have hm' := hm
    simp only [wfFrom, Bool.and_eq_true, decide_eq_true_eq] at hm
    by_cases hp : p (k, w)
    · simp only [List.filter_cons, hp, if_true, wfFrom, Bool.and_eq_true, decide_eq_true_eq]
      exact ⟨hm.1, ih _ hm.2⟩
    · simp only [List.filter_cons, hp]
      have h2 := ih _ hm.2
      cases lo with
      | none => exact wfFrom_none d _ k h2
      | some l => exact wfFrom_mono d _ l k (by have := hm.1.1; simp only [decide_eq_true_eq] at this; omega) h2

/-- Without the entries of key `x`, a list that rises from `x` on rises above it. -/
theorem wfFrom_dropKey_ge {α : Type} [DecidableEq α] (d : Nat → α) (m : List (Nat × α)) (x : Nat)
    (hm : match m with | [] => True | e :: _ => x ≤ e.1) (lo : Option Nat) (hw : wfFrom d lo m = true) :
    wfFrom d (some x) (dropKey x m) = true := by
  cases m with
  | nil => rfl
  | cons e m =>
    obtain ⟨k, w⟩ := e
    simp only at hm
    simp only [wfFrom, Bool.and_eq_true, decide_eq_true_eq] at hw
    by_cases hk : k = x
    · subst hk
      have : dropKey k ((k, w) :: m) = dropKey k m := by simp [dropKey]
      rw [this]; exact wfFrom_filter d _ m _ hw.2
    · have : dropKey x ((k, w) :: m) = (k, w) :: dropKey x m := by simp [dropKey, hk]
      rw [this]
      simp only [wfFrom, Bool.and_eq_true, decide_eq_true_eq]
      exact ⟨⟨by omega, hw.1.2⟩, wfFrom_filter d _ m _ hw.2⟩

/-- Putting a value keeps the canonical form above `lo`, for a key above `lo`. -/
theorem wfFrom_put {α : Type} [DecidableEq α] (d : Nat → α) (m : List (Nat × α)) (lo : Option Nat) (x : Nat) (v : α)
    (hlo : ∀ l, lo = some l → l < x) (hm : wfFrom d lo m = true) : wfFrom d lo (put d m x v) = true := by
  have top : ∀ l : List (Nat × α), wfFrom d (some x) l = true → v ≠ d x → wfFrom d lo ((x, v) :: l) = true := by
    intro l hl hv
    simp only [wfFrom, Bool.and_eq_true, decide_eq_true_eq]
    refine ⟨⟨?_, hv⟩, hl⟩
    cases lo with
    | none => rfl
    | some a => simpa using hlo a rfl
  induction m generalizing lo with
  | nil =>
    by_cases hv : v = d x
    · simp [put, hv, wfFrom]
    · simp only [put, hv, if_false]; exact top [] rfl hv
  | cons e m ih =>
    obtain ⟨k, w⟩ := e
    have hw := hm
    simp only [wfFrom, Bool.and_eq_true, decide_eq_true_eq] at hm
    simp only [put]
    by_cases hk : k < x
    · simp only [hk, if_true, wfFrom, Bool.and_eq_true, decide_eq_true_eq]
      refine ⟨hm.1, ih (some k) (fun l h => by cases h; exact hk) hm.2 ?_⟩
      intro l hl hv
      simp only [wfFrom, Bool.and_eq_true, decide_eq_true_eq]
      exact ⟨⟨hk, hv⟩, hl⟩
    · by_cases hv : v = d x
      · simp only [hk, hv, if_true, if_false]; exact wfFrom_filter d _ _ _ hw
      · simp only [hk, hv, if_false]
        exact top _ (wfFrom_dropKey_ge d ((k, w) :: m) x (by simpa using Nat.le_of_not_lt hk) lo hw) hv

theorem wfFrom_put_none {α : Type} [DecidableEq α] (d : Nat → α) (m : List (Nat × α)) (x : Nat) (v : α)
    (hm : wfFrom d none m = true) : wfFrom d none (put d m x v) = true :=
  wfFrom_put d m none x v (fun _ h => by cases h) hm

/-! ## Memory (R419, R420) -/

/-- A byte reads what was last written to it, where there is memory. -/
theorem byteAt_setByte (s : State) (a b : Nat) (v : Byte) :
    (s.setByte a v).byteAt b = if b = a ∧ memExists a then v else s.byteAt b := by
  unfold State.setByte State.byteAt
  by_cases h : memExists a
  · by_cases hb : b = a
    · subst hb; simp [h]
    · simp [h, hb, lk_put_ne]
  · simp [h]

theorem setByte_wf (s : State) (a : Nat) (v : Byte) (h : Memory.wf s.mem = true) : Memory.wf (s.setByte a v).mem = true := by
  unfold State.setByte
  by_cases hm : memExists a
  · simp only [hm, if_true, State.setMem_mem]; exact wfFrom_put_none _ _ _ _ h
  · simpa [hm] using h

/-- Every memory write keeps the canonical form. -/
theorem memWrite_wf (s : State) (a : Nat) (bs : List Byte) (h : Memory.wf s.mem = true) : Memory.wf (s.memWrite a bs).mem = true := by
  induction bs generalizing s a with
  | nil => exact h
  | cons b bs ih => exact ih _ _ (setByte_wf s a b h)

theorem reset_mem_wf : Memory.wf State.reset.mem = true := rfl

/-- A write changes only the bytes it covers. -/
theorem byteAt_memWrite_out (s : State) (a b : Nat) (bs : List Byte) (h : b < a ∨ a + bs.length ≤ b) :
    (s.memWrite a bs).byteAt b = s.byteAt b := by
  induction bs generalizing s a with
  | nil => rfl
  | cons x bs ih =>
    simp only [List.length_cons] at h
    rw [State.memWrite, ih _ _ (by omega), byteAt_setByte]
    simp; intro e; omega

/-! ## Register words -/

@[simp] theorem word_setWord_self (s : State) (a : Nat) (v : Word) : (s.setWord a v).word a = v := by
  simp [State.word, State.setWord]

theorem word_setWord_ne (s : State) (a b : Nat) (v : Word) (h : b ≠ a) : (s.setWord a v).word b = s.word b := by
  simp [State.word, State.setWord, lk_put_ne _ _ _ _ _ h]

@[simp] theorem setWord_gold (s : State) (a : Nat) (v : Word) : (s.setWord a v).gold = s.gold := rfl

theorem putWord_plain (s : State) (a : Nat) (v : Word) : s.putWord a 0 v = s.setWord a v := rfl

/-- Words after a hardware write: the word, its complement, and every other word as before. -/
theorem word_putWord (s : State) (a sh b : Nat) (v : Word) :
    (s.putWord a sh v).word b = if sh ≠ 0 ∧ b = a + sh then ~~~v else if b = a then v else s.word b := by
  unfold State.putWord
  by_cases hs : sh = 0
  · by_cases hb : b = a
    · subst hb; simp [hs]
    · simp [hs, hb, word_setWord_ne]
  · have e : ∀ t : State, ∀ g, (t.setGold g).word b = t.word b := fun _ _ => rfl
    simp only [hs, if_false, e, ne_eq, not_false_eq_true, true_and]
    by_cases hb : b = a + sh
    · subst hb; simp
    · rw [word_setWord_ne _ _ _ _ hb, if_neg hb]
      by_cases hb' : b = a
      · subst hb'; simp
      · rw [word_setWord_ne _ _ _ _ hb', if_neg hb']

/-- What a register shows after hardware wrote it: a complement pair passes its check. -/
theorem useWord_putWord_self (s : State) (a sh : Nat) (v : Word) : (s.putWord a sh v).useWord a sh = v := by
  unfold State.useWord
  by_cases hs : sh = 0
  · simp [hs, State.putWord]
  · have h : (s.putWord a sh v).pairGood a sh = true := by
      unfold State.pairGood; rw [word_putWord, word_putWord]; simp [hs]
    simp [hs, h, word_putWord]

/-- Another register shows what it showed before. -/
theorem useWord_putWord_ne (s : State) (a sh b th : Nat) (v : Word) (h1 : b ≠ a) (h2 : sh = 0 ∨ b ≠ a + sh)
    (h3 : th = 0 ∨ (b + th ≠ a ∧ (sh = 0 ∨ b + th ≠ a + sh))) : (s.putWord a sh v).useWord b th = s.useWord b th := by
  have hw : ∀ c, c ≠ a → (sh = 0 ∨ c ≠ a + sh) → (s.putWord a sh v).word c = s.word c := by
    intro c hc hc2
    rw [word_putWord]
    have : ¬(sh ≠ 0 ∧ c = a + sh) := by rintro ⟨x, y⟩; rcases hc2 with h | h <;> contradiction
    simp [this, hc]
  have hg : lk resetWord (s.putWord a sh v).gold b = lk resetWord s.gold b := by
    unfold State.putWord
    by_cases hs : sh = 0
    · simp [hs]
    · simp [hs, State.setGold, State.setWord, State.setRegs, lk_put_ne _ _ _ _ _ h1]
  unfold State.useWord State.pairGood
  rcases h3 with h3 | h3
  · simp [h3, hw b h1 h2]
  · rw [hw b h1 h2, hw (b + th) h3.1 h3.2, hg]

/-! ## Fields -/

theorem bits_lt (v hi lo : Nat) : bits v hi lo < 2 ^ (hi + 1 - lo) := Nat.mod_lt _ (Nat.two_pow_pos _)

/-- A number split at a field. -/
theorem split_bits (v hi lo : Nat) (h : lo ≤ hi) :
    v = v / 2 ^ (hi + 1) * 2 ^ (hi + 1) + bits v hi lo * 2 ^ lo + v % 2 ^ lo := by
  unfold bits
  have e : 2 ^ (hi + 1) = 2 ^ lo * 2 ^ (hi + 1 - lo) := by rw [← Nat.pow_add]; congr 1; omega
  have h1 := Nat.div_add_mod v (2 ^ lo)
  have h2 := Nat.div_add_mod (v / 2 ^ lo) (2 ^ (hi + 1 - lo))
  rw [Nat.div_div_eq_div_mul, ← e] at h2
  have : v / 2 ^ (hi + 1) * 2 ^ (hi + 1) = 2 ^ lo * (2 ^ (hi + 1 - lo) * (v / 2 ^ (hi + 1))) := by rw [e]; ring
  rw [this]
  calc v = 2 ^ lo * (v / 2 ^ lo) + v % 2 ^ lo := h1.symm
    _ = 2 ^ lo * (2 ^ (hi + 1 - lo) * (v / 2 ^ (hi + 1)) + v / 2 ^ lo % 2 ^ (hi + 1 - lo)) + v % 2 ^ lo := by rw [h2]
    _ = _ := by ring

theorem setBits_eq (v hi lo x : Nat) (h : lo ≤ hi) :
    setBits v hi lo x = v / 2 ^ (hi + 1) * 2 ^ (hi + 1) + x % 2 ^ (hi + 1 - lo) * 2 ^ lo + v % 2 ^ lo := by
  have := split_bits v hi lo h
  unfold setBits
  omega

/-- Parts of a number put together from a high part, a field and a low part. -/
theorem wordParts (hi lo q b r : Nat) (h : lo ≤ hi) (hb : b < 2 ^ (hi + 1 - lo)) (hr : r < 2 ^ lo) :
    bits (q * 2 ^ (hi + 1) + b * 2 ^ lo + r) hi lo = b := by
  unfold bits
  have e : 2 ^ (hi + 1) = 2 ^ (hi + 1 - lo) * 2 ^ lo := by rw [← Nat.pow_add]; congr 1; omega
  have : q * 2 ^ (hi + 1) + b * 2 ^ lo + r = r + (b + q * 2 ^ (hi + 1 - lo)) * 2 ^ lo := by rw [e]; ring
  rw [this, Nat.add_mul_div_right _ _ (Nat.two_pow_pos _), Nat.div_eq_of_lt hr, Nat.zero_add, Nat.add_mul_mod_self_right, Nat.mod_eq_of_lt hb]

/-- A field reads the value written, cut to its width. -/
theorem bits_setBits (v hi lo x : Nat) (h : lo ≤ hi) : bits (setBits v hi lo x) hi lo = x % 2 ^ (hi + 1 - lo) := by
  rw [setBits_eq v hi lo x h]
  exact wordParts hi lo _ _ _ h (Nat.mod_lt _ (Nat.two_pow_pos _)) (Nat.mod_lt _ (Nat.two_pow_pos _))

theorem bits_mod (v n hi lo : Nat) (h : hi < n) (hl : lo ≤ hi) : bits (v % 2 ^ n) hi lo = bits v hi lo := by
  unfold bits
  rw [Nat.mod_pow_succ_div_helper v n hi lo h hl]
where
  Nat.mod_pow_succ_div_helper (v n hi lo : Nat) (h : hi < n) (hl : lo ≤ hi) :
      v % 2 ^ n / 2 ^ lo % 2 ^ (hi + 1 - lo) = v / 2 ^ lo % 2 ^ (hi + 1 - lo) := by
    apply Nat.eq_of_testBit_eq
    intro i
    simp only [Nat.testBit_mod_two_pow, Nat.testBit_div_two_pow]
    by_cases hi' : i < hi + 1 - lo
    · have : i + lo < n := by omega
      simp [hi', this]
    · simp [hi']

/-- A field of the same word that shares no bit reads as before. -/
theorem bits_setBits_apart (v hi lo x h l : Nat) (hl : lo ≤ hi) (hh : l ≤ h) (ap : h < lo ∨ hi < l) :
    bits (setBits v hi lo x) h l = bits v h l := by
  rw [setBits_eq v hi lo x hl]
  have hv := split_bits v hi lo hl
  rcases ap with ap | ap
  · have e : ∀ b q, bits (q * 2 ^ (hi + 1) + b * 2 ^ lo + v % 2 ^ lo) h l = bits (v % 2 ^ lo) h l := by
      intro b q
      have e1 : 2 ^ (hi + 1) = 2 ^ (hi + 1 - lo) * 2 ^ lo := by rw [← Nat.pow_add]; congr 1; omega
      have : (q * 2 ^ (hi + 1) + b * 2 ^ lo + v % 2 ^ lo) % 2 ^ lo = v % 2 ^ lo % 2 ^ lo := by
        rw [e1, ← Nat.mul_assoc, ← Nat.add_mul, Nat.mul_comm, Nat.mul_add_mod]
      rw [← bits_mod _ lo h l ap hh, this, bits_mod _ lo h l ap hh]
    rw [e, ← e (bits v hi lo) (v / 2 ^ (hi + 1)), ← hv]
  · have up : ∀ b r, b < 2 ^ (hi + 1 - lo) → r < 2 ^ lo →
        (v / 2 ^ (hi + 1) * 2 ^ (hi + 1) + b * 2 ^ lo + r) / 2 ^ l = v / 2 ^ l := by
      intro b r hb hr
      have e1 : 2 ^ (hi + 1) = 2 ^ (hi + 1 - lo) * 2 ^ lo := by rw [← Nat.pow_add]; congr 1; omega
      have e2 : 2 ^ l = 2 ^ (hi + 1) * 2 ^ (l - (hi + 1)) := by rw [← Nat.pow_add]; congr 1; omega
      have small : b * 2 ^ lo + r < 2 ^ (hi + 1) := by
        rw [e1]
        calc b * 2 ^ lo + r < b * 2 ^ lo + 2 ^ lo := by omega
          _ = (b + 1) * 2 ^ lo := by ring
          _ ≤ _ := Nat.mul_le_mul_right _ hb
      rw [e2, ← Nat.div_div_eq_div_mul, ← Nat.div_div_eq_div_mul, Nat.add_assoc, Nat.add_comm,
        Nat.add_mul_div_right _ _ (Nat.two_pow_pos _), Nat.div_eq_of_lt small, Nat.zero_add]
    unfold bits
    rw [up _ _ (Nat.mod_lt _ (Nat.two_pow_pos _)) (Nat.mod_lt _ (Nat.two_pow_pos _))]

/-- Does the field lie in its register, and its shadow beyond it? -/
def Fld.Ok (f : Fld) : Prop := f.lo ≤ f.hi ∧ (f.sh = 0 ∨ 4 * (f.hi / 32 + 1) ≤ f.sh)

theorem useWord_putWords_out (s : State) (a sh k v b th : Nat) (h1 : ∀ j < k, b ≠ a + 4 * j ∧ (sh = 0 ∨ b ≠ a + sh + 4 * j))
    (h3 : th = 0 ∨ ∀ j < k, b + th ≠ a + 4 * j ∧ (sh = 0 ∨ b + th ≠ a + sh + 4 * j)) :
    (s.putWords a sh k v).useWord b th = s.useWord b th := by
  induction k generalizing s a v with
  | zero => rfl
  | succ k ih =>
    rw [State.putWords, ih]
    · apply useWord_putWord_ne
      · simpa using (h1 0 (by omega)).1
      · simpa using (h1 0 (by omega)).2
      · rcases h3 with h3 | h3
        · exact .inl h3
        · exact .inr (by simpa using h3 0 (by omega))
    · intro j hj
      have := h1 (j + 1) (by omega)
      constructor
      · omega
      · rcases this.2 with h | h
        · exact .inl h
        · exact .inr (by omega)
    · rcases h3 with h3 | h3
      · exact .inl h3
      · refine .inr fun j hj => ?_
        have := h3 (j + 1) (by omega)
        constructor
        · omega
        · rcases this.2 with h | h
          · exact .inl h
          · exact .inr (by omega)

theorem useWords_putWords (s : State) (a sh k v : Nat) (h : sh = 0 ∨ 4 * k ≤ sh) :
    (s.putWords a sh k v).useWords a sh k = v % 2 ^ (32 * k) := by
  induction k generalizing s a v with
  | zero => simp [State.useWords, Nat.mod_one]
  | succ k ih =>
    rw [State.useWords, State.putWords, ih _ _ _ (by omega), useWord_putWords_out, useWord_putWord_self]
    · have e : 2 ^ (32 * (k + 1)) = 2 ^ 32 * 2 ^ (32 * k) := by rw [← Nat.pow_add]; congr 1; omega
      rw [e, Nat.mod_mul, BitVec.toNat_ofNat]
    · intro j hj
      constructor
      · omega
      · rcases h with h | h
        · exact .inl h
        · exact .inr (by omega)
    · rcases h with h | h
      · exact .inl h
      · refine .inr fun j hj => ⟨by omega, .inr (by omega)⟩

/-- A field reads the value hardware set it to, cut to its width. -/
theorem rd_wr (s : State) (f : Fld) (v : Nat) (h : f.Ok) : (s.wr f v).rd f = v % 2 ^ f.width := by
  unfold State.rd State.wr
  rw [useWords_putWords _ _ _ _ _ h.2, bits_mod _ _ _ _ (by have := Nat.div_add_mod f.hi 32; have := Nat.mod_lt f.hi (show 0 < 32 by omega); omega) h.1,
    bits_setBits _ _ _ _ h.1]
  rfl

/-- Do the words of `g` (and of its shadow) miss those of `f`? -/
def Fld.Apart (f g : Fld) : Prop :=
  ∀ i < g.hi / 32 + 1, ∀ j < f.hi / 32 + 1,
    (g.addr + 4 * i ≠ f.addr + 4 * j ∧ (f.sh = 0 ∨ g.addr + 4 * i ≠ f.addr + f.sh + 4 * j)) ∧
    (g.sh = 0 ∨ (g.addr + 4 * i + g.sh ≠ f.addr + 4 * j ∧ (f.sh = 0 ∨ g.addr + 4 * i + g.sh ≠ f.addr + f.sh + 4 * j)))

theorem useWords_congr (s t : State) (a sh k : Nat) (h : ∀ i < k, t.useWord (a + 4 * i) sh = s.useWord (a + 4 * i) sh) :
    t.useWords a sh k = s.useWords a sh k := by
  induction k generalizing a with
  | zero => rfl
  | succ k ih =>
    rw [State.useWords, State.useWords, ih]
    · rw [show t.useWord a sh = s.useWord a sh by simpa using h 0 (by omega)]
    · intro i hi
      have := h (i + 1) (by omega)
      rwa [show a + 4 * (i + 1) = a + 4 + 4 * i by omega] at this

/-- A field of another register reads as before. -/
theorem rd_wr_apart (s : State) (f g : Fld) (v : Nat) (h : f.Apart g) : (s.wr f v).rd g = s.rd g := by
  unfold State.rd State.wr
  rw [useWords_congr _ _ _ _ _ fun i hi => useWord_putWords_out _ _ _ _ _ _ _ (fun j hj => (h i hi j hj).1) ?_]
  by_cases hg : g.sh = 0
  · exact .inl hg
  · exact .inr fun j hj => ((h i hi j hj).2).resolve_left hg

/-- A field of the same one-word register that shares no bit reads as before. -/
theorem rd_wr_same_word (s : State) (f g : Fld) (v : Nat) (h : f.Ok) (ha : g.addr = f.addr) (hs : g.sh = f.sh)
    (hf : f.hi < 32) (hg : g.hi < 32) (hl : g.lo ≤ g.hi) (ap : g.hi < f.lo ∨ f.hi < g.lo) : (s.wr f v).rd g = s.rd g := by
  have kf : f.hi / 32 + 1 = 1 := by omega
  have kg : g.hi / 32 + 1 = 1 := by omega
  unfold State.rd State.wr
  rw [kf, kg, ha, hs, useWords_putWords _ _ _ _ _ (by have := h.2; omega), bits_mod _ _ _ _ (by omega) hl, bits_setBits_apart _ _ _ _ _ _ h.1 hl ap]

/-! ## Words a field write leaves alone, and the wordParts of the state it leaves alone -/

theorem word_putWords_out (s : State) (a sh k v b : Nat) (h : ∀ j < k, b ≠ a + 4 * j ∧ (sh = 0 ∨ b ≠ a + sh + 4 * j)) :
    (s.putWords a sh k v).word b = s.word b := by
  induction k generalizing s a v with
  | zero => rfl
  | succ k ih =>
    rw [State.putWords, ih, word_putWord]
    · have h0 := h 0 (by omega)
      have : ¬(sh ≠ 0 ∧ b = a + sh) := by rintro ⟨x, y⟩; rcases h0.2 with e | e <;> omega
      have hb : b ≠ a := by omega
      simp [this, hb]
    · intro j hj
      have := h (j + 1) (by omega)
      exact ⟨by omega, by rcases this.2 with e | e; exact .inl e; exact .inr (by omega)⟩

/-- Every word outside a field's register and shadow stays. -/
theorem word_wr_out (s : State) (f : Fld) (v b : Nat)
    (h : ∀ j < f.hi / 32 + 1, b ≠ f.addr + 4 * j ∧ (f.sh = 0 ∨ b ≠ f.addr + f.sh + 4 * j)) : (s.wr f v).word b = s.word b :=
  word_putWords_out s _ _ _ _ b h

/-- A hardware write of registers changes the two register files and nothing else. -/
theorem putWords_parts (s : State) (a sh k v : Nat) :
    s.putWords a sh k v = (s.setRegs (s.putWords a sh k v).regs).setGold (s.putWords a sh k v).gold := by
  induction k generalizing s a v with
  | zero => rfl
  | succ k ih =>
    rw [State.putWords, ih]
    have : ∀ t : State, t = s.putWord a sh (BitVec.ofNat 32 v) → t = (s.setRegs t.regs).setGold t.gold := by
      intro t ht; subst ht; unfold State.putWord; by_cases hs : sh = 0 <;> simp [hs, State.setWord, State.setRegs, State.setGold]
    have e := this _ rfl
    generalize (s.putWord a sh (BitVec.ofNat 32 v)) = t at e ⊢
    rw [e]; rfl

theorem wr_parts (s : State) (f : Fld) (v : Nat) : s.wr f v = (s.setRegs (s.wr f v).regs).setGold (s.wr f v).gold :=
  putWords_parts s _ _ _ _

/-- A write of a register without a shadow changes the register file and nothing else. -/
theorem wr_parts_plain (s : State) (f : Fld) (v : Nat) (h : f.sh = 0) : s.wr f v = s.setRegs (s.wr f v).regs := by
  have : ∀ k (s : State) a v, s.putWords a 0 k v = s.setRegs (s.putWords a 0 k v).regs := by
    intro k
    induction k with
    | zero => intro s a v; rfl
    | succ k ih => intro s a v; rw [State.putWords, ih]; rfl
  unfold State.wr; rw [h]; exact this _ _ _ _

/-! ## The canonical form -/

theorem putWord_regs_wf (s : State) (a sh : Nat) (v : Word) (h : wfFrom resetWord none s.regs = true) :
    wfFrom resetWord none (s.putWord a sh v).regs = true := by
  unfold State.putWord
  by_cases hs : sh = 0
  · simp only [hs, if_true, State.setWord, State.setRegs_regs]; exact wfFrom_put_none _ _ _ _ h
  · simp only [hs, if_false, State.setGold_regs, State.setWord, State.setRegs_regs]
    exact wfFrom_put_none _ _ _ _ (wfFrom_put_none _ _ _ _ h)

theorem putWord_gold_wf (s : State) (a sh : Nat) (v : Word) (h : wfFrom resetWord none s.gold = true) :
    wfFrom resetWord none (s.putWord a sh v).gold = true := by
  unfold State.putWord
  by_cases hs : sh = 0
  · simpa only [hs, if_true, setWord_gold] using h
  · simp only [hs, if_false, State.setGold_gold]; exact wfFrom_put_none _ _ _ _ h

theorem putWords_wf (s : State) (a sh k v : Nat) (h : wfFrom resetWord none s.regs = true) (g : wfFrom resetWord none s.gold = true) :
    wfFrom resetWord none (s.putWords a sh k v).regs = true ∧ wfFrom resetWord none (s.putWords a sh k v).gold = true := by
  induction k generalizing s a v with
  | zero => exact ⟨h, g⟩
  | succ k ih => exact ih _ _ _ (putWord_regs_wf s a sh _ h) (putWord_gold_wf s a sh _ g)

/-! ## Status and counters -/

/-- A status event: the word takes the bits and its sequence number goes up by one (R72). -/
theorem word_stickyMask (s : State) (a m : Nat) : (s.stickyMask a m).word a = stickyWord (s.word a) m := by simp [State.stickyMask]

theorem seqOf_lt (w : Word) : seqOf w < 256 := by
  unfold seqOf; have := w.isLt; omega

end Sys2Proof.Machine
end

