-- ==== Sys2Proof/Tests/Slice0.lean ====
section
/-!
SUPPORT. Small tests: for every statement with hypotheses, a state and operands that meet them; refused commands; rules' examples.
-/

set_option Elab.async false

namespace Sys2Proof.Tests

open Sys2Proof Sys2Proof.Machine

theorem witness_StepRunsFrontCommand : (State.reset.setPending [.wdenyClear]).pending = .wdenyClear :: [] ∧ State.reset.pending = [] := ⟨rfl, rfl⟩

theorem witness_NoCommandTouchesTheQueue : (State.reset.setPending [.coldStart]).QueueWf ∧
    ∃ t, step (State.reset.setPending [.coldStart]) = .next t := ⟨by intro c hc; simp [State.setPending] at hc; subst hc; rfl, _, rfl⟩

theorem witness_StoredListsStayCanonical : (State.reset.setPending [.wdenyClear]).Canonical ∧
    ∃ t, step (State.reset.setPending [.wdenyClear]) = .next t := ⟨⟨rfl, rfl, rfl⟩, _, rfl⟩

theorem witness_UnoccupiedLocationsIgnoreWrites : regAt ((0xFF000 : Word).toNat / 4 * 4) = none := by decide +kernel

theorem witness_StatusEventsAdvanceTheSequence : seqOf ((State.reset.setWord A.SYS_STR_STAT 0xFF000008).word A.SYS_STR_STAT) = 255 ∧
    ((State.reset.setWord A.SYS_STR_STAT 0xFF000008).stickyMask A.SYS_STR_STAT 8).word A.SYS_STR_STAT = 8 := by decide +kernel

theorem witness_StaleClearsAreIgnoredWhole : (match regAt A.SYS_STR_STAT with
    | some h => decide (h.shadow = false ∧ h.d.shadow = 0 ∧ h.d.ofs ≠ 0xFFFC ∧ (0x2A000008 : Word) &&& h.bitsOf .sqc ≠ 0) | none => false) = true ∧
    A.SYS_STR_STAT % 4 = 0 ∧ blockOf A.SYS_STR_STAT ≠ 3 ∧
    seqOf (0x2A000008 : Word) ≠ seqOf ((State.reset.setWord A.SYS_STR_STAT 0x2B002008).word A.SYS_STR_STAT) := by decide +kernel

theorem witness_MatchingClearsClear : (match regAt A.SYS_STR_STAT with
    | some h => decide (h.shadow = false ∧ h.d.shadow = 0 ∧ h.d.ofs ≠ 0xFFFC ∧ (0x2B002008 : Word) &&& h.bitsOf .sqc ≠ 0 ∧
        h.has .rw = false ∧ h.has .rwb = false ∧ h.has .w1p = false ∧ h.has .wo = false) &&
        (State.reset.setWord A.SYS_STR_STAT 0x2B002008).valueGood h A.SYS_STR_STAT 0x2B002008 | none => false) = true ∧
    A.SYS_STR_STAT % 4 = 0 ∧ blockOf A.SYS_STR_STAT = 0 ∧
    seqOf (0x2B002008 : Word) = seqOf ((State.reset.setWord A.SYS_STR_STAT 0x2B002008).word A.SYS_STR_STAT) := by decide +kernel
theorem witness_MatchingClearsClear_command : (match regAt (A.CLU_XST) with
    | some h => decide (h.shadow = false ∧ h.d.shadow = 0 ∧ h.d.ofs ≠ 0xFFFC ∧ (0x00800000 : Word) &&& h.bitsOf .sqc ≠ 0 ∧
        h.has .rwb = false ∧ (h.has .w1p || h.has .wo) = true) && State.reset.valueGood h (A.CLU_XST) 0x00800000 | none => false) = true := by
  decide +kernel

def plainCase (a : Nat) (v : Word) (c : RegHit → Bool) : Bool :=
  a % 4 = 0 && blockOf a ≠ 3 && (match regAt a with
    | some h => decide (h.shadow = false ∧ h.d.shadow = 0 ∧ h.d.ofs ≠ 0xFFFC ∧ v &&& h.bitsOf .sqc = 0) && c h
    | none => false)
theorem witness_PlainRegisterWrites_range : plainCase A.ALC_CFG 0xFFFFFFFF (fun h => !State.reset.valueGood h A.ALC_CFG 0xFFFFFFFF) = true ∨
    plainCase A.BIL_LDG_SIZE 3 (fun h => !State.reset.valueGood h A.BIL_LDG_SIZE 3) = true := by decide +kernel
theorem witness_PlainRegisterWrites_rw : plainCase (A.SYS_STRg_TICK 7) 0xFFFFFFFF (fun h =>
    State.reset.valueGood h (A.SYS_STRg_TICK 7) 0xFFFFFFFF && h.has .rw && !h.has .rwb && !h.has .w1p && !h.has .wo) = true := by decide +kernel
theorem witness_PlainRegisterWrites_command : plainCase A.SYS_WDENY 0x80000000 (fun h =>
    State.reset.valueGood h A.SYS_WDENY 0x80000000 && !h.has .rwb && (h.has .w1p || h.has .wo)) = true := by decide +kernel

theorem witness_BufferedWritesWait : plainCase A.FLT_WDCFG 0x000A00C8 (fun h => State.reset.valueGood h A.FLT_WDCFG 0x000A00C8 && h.bitsOf .rwb ≠ 0 &&
    !h.has .rw && !h.has .w1p && !h.has .wo) = true ∧ blockOf A.FLT_WDCFG < 19 ∧ State.reset.buffered (blockOf A.FLT_WDCFG) = false ∧
    (State.reset.setWord (wctlAddr (blockOf A.FLT_WDCFG)) 1).buffered (blockOf A.FLT_WDCFG) = true := by decide +kernel

theorem witness_WriteControlGuarded : ((State.reset.setWord (wctlAddr 18) 0x100).word (wctlAddr 18)).getLsbD 8 = true ∧
    (1 : Word) &&& 0x71 ≠ (State.reset.setWord (wctlAddr 18) 0x100).word (wctlAddr 18) &&& 0x71 ∧
    (State.reset.word (wctlAddr 18)).getLsbD 8 = false := by decide +kernel

def criticalCase (s : State) (a : Nat) (c : RegHit → Bool) : Bool :=
  a % 4 = 0 && blockOf a ≠ 3 && (match regAt a with
    | some h => decide (h.shadow = false ∧ h.d.shadow ≠ 0 ∧ h.d.ofs ≠ 0xFFFC ∧ h.has .rwb = true ∧ s.sealed h a = none) && c h
    | none => false)
theorem witness_CriticalWritesAreHeld : criticalCase State.reset A.EFM_THR (fun _ => true) = true ∧
    criticalCase State.reset (A.MET_Ln_VSCALE 31) (fun _ => true) = true := by decide +kernel

def shadowCase (s : State) (x : Nat) (c : RegHit → Bool) : Bool :=
  x % 4 = 0 && blockOf x ≠ 3 && (match regAt x with
    | some h => decide (h.shadow = true ∧ h.d.ofs ≠ 0xFFFC ∧ h.d.shadow ≠ 0 ∧ h.d.shadow ≤ x ∧ h.has .rwb = true ∧ s.sealed h (x - h.d.shadow) = none) && c h
    | none => false)
def critState (a : Nat) (v : Word) : State := State.reset.setBus { held := [(a, v)] }
theorem witness_ComplementWrites_none : shadowCase State.reset (A.EFM_THR + 0x4000) (fun _ => (State.reset.heldWord A.EFM_THR).isNone) = true := by
  decide +kernel
theorem witness_ComplementWrites_plain : shadowCase (critState A.FLT_CFG 0x30F38C00) (A.FLT_CFG + 0x4000) (fun h =>
    (critState A.FLT_CFG 0x30F38C00).heldWord A.FLT_CFG = some 0x30F38C00 && State.reset.valueGood h A.FLT_CFG 0x30F38C00 &&
    !State.reset.buffered (blockOf A.FLT_CFG) && State.reset.critMask h A.FLT_CFG ≠ 0 && regAt A.FLT_CFG = some { h with shadow := false }) = true ∧
    A.FLT_CFG ≠ A.TCK_PERIOD ∧ A.FLT_CFG ≠ A.DPY_PANEL ∧ isThr A.FLT_CFG = false ∧ isSafCfg A.FLT_CFG = false ∧
    blockOf A.FLT_CFG ∉ [4, 5, 6, 10, 15, 17] := by decide +kernel

theorem witness_StrobeArming_ahead : ((State.reset.setWord (A.SYS_STRg_TICK 3) 0x7FFFFFFF).rd (F.SYS_STRg_TICK_TICK 3) + 2 ^ 32 - State.reset.rd F.TCK_ALC_TICK_K) % 2 ^ 32
    = 2 ^ 31 - 1 := by decide +kernel
theorem witness_StrobeArming_refused : (State.reset.rd (F.SYS_STRg_TICK_TICK 3) + 2 ^ 32 - State.reset.rd F.TCK_ALC_TICK_K) % 2 ^ 32 = 0 ∧
    ((State.reset.setWord (A.SYS_STRg_TICK 3) 0x80000000).rd (F.SYS_STRg_TICK_TICK 3) + 2 ^ 32 - State.reset.rd F.TCK_ALC_TICK_K) % 2 ^ 32 = 2 ^ 31 := by
  decide +kernel

theorem witness_WideReadsCapture : (match regAt A.TCK_TIME with
      | some h => decide (h.d.lowWord h.w = h.w) && !h.shadow && captured h A.TCK_TIME = [A.TCK_TIME + 4] | none => false) = true ∧
    (match regAt (A.TCK_TIME + 4) with | some h => decide (h.d.lowWord h.w ≠ h.w) | none => false) = true ∧ A.TCK_TIME % 4 = 0 ∧
    A.TCK_TIME ≠ A.MET_CAP_DATA ∧ A.TCK_TIME ≠ A.THM_JDATA ∧
    (match regAt (A.KEY_SEL + 8) with | some h => captured h (A.KEY_SEL + 8) = [A.KEY_SEL + 12] | none => false) = true := by decide +kernel

def hostWriteOf (a : Nat) (v : Word) : HostTxn :=
  let body := [4, 0] ++ wordNibbles (BitVec.ofNat 32 a) ++ wordNibbles v
  let c := nibbleCrc body
  ⟨body ++ [BitVec.ofNat 4 (c / 16), BitVec.ofNat 4 c], 23⟩
theorem witness_HostWritesAreGated : let x := hostWriteOf A.ALC_CFG 5
    x.sent.length = 20 ∧ nibbleNat (x.sent.take 2) = 0x40 ∧ nibbleNat ((x.sent.drop 18).take 2) = nibbleCrc (x.sent.take 18) ∧
    nibbleNat ((x.sent.drop 2).take 8) / 4 * 4 = A.ALC_CFG ∧ State.reset.hostDenied A.ALC_CFG = true ∧
    (State.reset.wr F.SYS_HOSTWR_OPEN 0x7FFFF).hostDenied A.ALC_CFG = false ∧ (State.reset.wr F.SYS_HOSTWR_OPEN 0x7FFFF).hostDenied A.KEY_CMD = true := by
  decide +kernel

theorem witness_HostFramingErrors : ([] : List (BitVec 4)).length < 2 ∧ nibbleNat ((hostWriteOf 0 0).sent.take 2) = 0x40 ∧
    nibbleNat (((hostWriteOf 0 0).sent.take 18 ++ [0, 0]).drop 18 |>.take 2) ≠ nibbleCrc (((hostWriteOf 0 0).sent.take 18 ++ [0, 0]).take 18) := by
  decide +kernel

theorem witness_FencesMergeWithinAFrame : State.reset.clk.fenceReq = false ∧ (State.reset.setClk { fenceReq := true }).clk.fenceReq = true := by decide

def syncWitness (st : Nat) : State := (State.reset.wr F.TCK_SYNC_STATE st).setClk { source := 0, frame := 60000 }
theorem witness_SyncStatesChange : ((syncWitness 1).clk.source ≠ 7 ∧ (syncWitness 1).rd F.TCK_SYNC_STATE = 1 ∧
    (syncWitness 1).clk.lastSync + 4000 ≤ (syncWitness 1).clk.frame) ∧ ((syncWitness 2).rd F.TCK_SYNC_STATE = 2 ∧
    (syncWitness 2).clk.holdSince + 60000 ≤ (syncWitness 2).clk.frame) ∧ State.reset.clk.source = 7 := by decide +kernel

theorem witness_SyncResultsSteer : (State.reset.setClk { source := 0, timeSet := true, good := 7 }).clk.timeSet = true ∧
    (State.reset.setClk { source := 0, timeSet := true, good := 7 }).clk.source ≠ 7 ∧
    (State.reset.setClk { source := 0, timeSet := true, good := 7 }).rd F.TCK_SYNC_STATE ≠ 1 ∧ (5000 : Int).natAbs ≤ lockLimit 0 ∧
    (syncWitness 1).rd F.TCK_SYNC_STATE = 1 ∧ 4 * lockLimit 0 < (20001 : Int).natAbs := by decide +kernel

theorem witness_StartsReachPowerGoodWait : State.reset.upd.trial = false ∧ (State.reset.setUpd { trial := true }).upd.trial = true := by decide

def stageState (k : Nat) : State := (State.reset.wr F.SYS_STAGE_STAGE k).setClk { frame := 5000 }
theorem witness_PowerGoodStartsFrames : (stageState 2).stage = 2 ∧ (stageState 2).key.root = [] ∧ (stageState 3).stage = 3 ∧ (stageState 3).key.root = [] ∧
    (stageState 3).boot.stageFrame + 1000 ≤ (stageState 3).clk.frame ∧ State.reset.stage ≠ 2 := by decide +kernel

def imageHead : List Byte := padTo 512 (leBytes 4 0x4D494D41 ++ leBytes 2 1 ++ leBytes 2 0x3200 ++ leBytes 4 608 ++ leBytes 4 0 ++ leBytes 4 7 ++ leBytes 4 0 ++ leBytes 2 9)
def witnessKey : P384Key := ⟨0x48094ffeb1bef157c5daf5d3d0c38f1d2d5c11970bc5e3de97c4c1c256722a66ae969050fac6913c1db3c73690743f70,
  0x58ab889b887b4340d10d916111ca9c99722059feb112c0b68f8d56c64c646f09f7da234b6923f93d672299b2beb6024b⟩
def imageSign : List Byte :=
  beBytes 48 0xe2a6dec9d2b66068f44d66230316468f879062b0062f6e64c81263eef27c80980c2b9ddd0434c02bd5a3759b069920f ++
  beBytes 48 0x6b12112e6a67f3839cb58ea4c6ca8b3ffaea19682473807cd0e5c472113b9f3380b299dc33ff9b7a2612812f7cb0ef51
def bankOf (sign : List Byte) : BankRead := ⟨imageHead ++ sign, witnessKey, witnessKey⟩
theorem witness_BootRunsAVerifiedImage : let s := (stageState 3).setKey { root := [1] }
    s.stage = 3 ∧ s.key.root ≠ [] ∧ s.boot.halted = false ∧ s.upd.trial = false ∧ (s.setUpd { trial := true }).upd.trial = true := by decide +kernel
theorem witness_BootGoodBank : bankGood (bankOf imageSign) = true := by decide +kernel
theorem witness_BootBadBank : bankGood (bankOf []) = false := by decide +kernel

def plRecordOf (typ : Nat) : List Byte := let b := leBytes 2 typ ++ [0, 0]; b ++ leBytes 4 (crc32 b)
/-- A list of one record of each critical type, of version `v`, with its signature. -/
def plCopyOf (v r t : Nat) : PlCopy :=
  let h := padTo 60 (leBytes 4 0x4C504D41 ++ leBytes 2 1 ++ [0, 0] ++ leBytes 4 88 ++ leBytes 4 3 ++ leBytes 4 v)
  ⟨true, h ++ leBytes 4 (crc32 h) ++ plRecordOf 0x8001 ++ plRecordOf 0x8002 ++ plRecordOf 0x8003 ++ leBytes 48 r ++ leBytes 48 t,
    [.device 7 [100] 1, .clocks false 7, .access 0 []]⟩
def plSignR : Nat := 0xe2a6dec9d2b66068f44d66230316468f879062b0062f6e64c81263eef27c80980c2b9ddd0434c02bd5a3759b069920f
def plFirst : PlCopy := plCopyOf 1 plSignR
  0xa96a06fffd074facbbe73a994a7b0049373156313500a9456a6af99bf557778c6ed598261ea9786a6c6408f8a8cf4cd
def plSecond : PlCopy := plCopyOf 2 plSignR
  0xb8bb940bb96f3d53336d4d4e53c50c654a5b7f0700fdc70aef57f738654345950d1b8344fe3e53f7cc5f1bd73202e473
def listState : State := (stageState 4).setUpd { run := some (bankImage (bankOf [])) }
theorem witness_PackingListSelection : listState.stage = 4 ∧ listState.boot.noCfg = false ∧ listState.on F.NFC_TAG_ST_STAGED = false ∧
    plVer plFirst < plVer plSecond ∧ plVer plFirst ≤ plVer plFirst := by decide +kernel
theorem witness_PackingListPasses : listState.copyCheck plFirst = 0 ∧ listState.copyCheck plSecond = 0 := by decide +kernel
theorem witness_PackingListFails : listState.copyCheck (plCopyOf 1 1 1) = 5 := by decide +kernel
theorem witness_PackingListRecords : critBad (plItems plFirst) = none ∧ critBad (plItems { plFirst with contents := [] }) = some (1, some 0) := by
  decide +kernel

theorem witness_RollCallAndAdaptionStages : (stageState 5).stage = 5 ∧ (stageState 5).boot.heads.any (fun h => h.2.rollCall) = false ∧
    (stageState 5).boot.mods.all (fun m => m.2.admitted || m.2.reqAt = 0 || m.2.reqAt + 250 ≤ (stageState 5).clk.frame + 1) = true ∧
    (stageState 6).stage = 6 ∧ (stageState 6).boot.listening = false ∧ (stageState 6).boot.heads.any (fun h => h.2.adaptAt.isSome) = false ∧
    (stageState 6).boot.stageFrame + (stageState 6).boot.bounds.limit ≤ (stageState 6).clk.frame ∧
    (stageState 6).boot.stageFrame + max 500 (2 * (stageState 6).periodMs) ≤ (stageState 6).clk.frame ∧ (stageState 6).boot.adaptStep = 0 ∧
    (stageState 7).stage = 7 ∧ (stageState 7).clk.fenceReq = false ∧ (stageState 7).walkOver = true := by decide +kernel
theorem witness_LaneAdaptGo : let s := (stageState 6).setBoot { heads := [(0, { present := true, ident := [1] })] }
    s.rd F.SYS_ADAPT_LANE = 0 ∧ s.on F.SYS_ADAPT_BUSY = false ∧ (s.head 0).present = true ∧ (s.head 0).ident ≠ [] ∧ 6 ≤ s.stage := by decide +kernel
theorem witness_ModuleRollCallTimeout : let s := (stageState 5).setBoot { (stageState 5).boot with mods := [(127, { addr := 32, reqAt := 4751 })] }
    s.stage = 5 ∧ (s.modAt 127).addr ≠ 0 ∧ (s.modAt 127).admitted = false ∧ (s.modAt 127).reqAt ≠ 0 ∧ (s.modAt 127).reqAt + 250 ≤ s.clk.frame + 1 := by
  decide +kernel

def supplyState (f i v : Bool) : State := (State.reset.setBoot { vddField := f }).setThm { io33 := i, vbak := v }
theorem witness_SuppliesOfTheDies : (supplyState true true true).boot.vddField = true ∧ (supplyState false true true).boot.vddField = false ∧
    (supplyState true true true).thm.io33 = true ∧ (supplyState true true true).thm.vbak = true ∧ (supplyState true true false).thm.vbak = false ∧
    (supplyState true false false).thm.io33 = false := by decide

def identOf (sensors : Nat) : List Byte :=
  let b := leBytes 8 5 ++ [1, 1] ++ leBytes 2 32 ++ leBytes 4 100 ++ [0, 0, BitVec.ofNat 8 sensors, 1] ++ List.replicate sensors 1
  let b := (b ++ List.replicate 60 0).take 60
  b ++ leBytes 4 (crc32 b)
def headState (stage : Nat) (h : HeadState) (decade : Nat) : State :=
  (((State.reset.wr F.SYS_STAGE_STAGE stage).setBoot { vddField := true, lanes := [(31, { typ := .dc })], heads := [(31, h)] })).setClk { decade := decade }
theorem witness_HeadBusCommands : (headState 5 { present := true, rollCall := true } 1).boot.vddField = true ∧
    ((headState 5 { present := true, rollCall := true } 1).laneType 31).outlet = true ∧ (headState 5 {} 1).clk.decade = 31 % 10 ∧
    ((headState 5 { present := true, rollCall := true } 1).head 31).rollCall = true ∧ (headState 5 { present := true, rollCall := true } 1).rollCallCause 31 [] 0 ≠ 0 ∧
    identSensors (identOf 2) ≠ [] ∧ (headState 5 {} 6).clk.decade = (31 + 5) % 10 := by decide +kernel
theorem witness_HeadRollCallPasses : (headState 5 { present := true, rollCall := true } 1).rollCallCause 31 (identOf 1) 1 = 0 ∧
    (headState 5 {} 1).rd F.SYS_STAGE_STAGE < 6 := by decide +kernel

theorem witness_KeyStoreCommands : State.reset.on F.KEY_STAT_BUSY = false ∧ State.reset.sealHeld = false ∧ slotsFor 3 63 = [63] ∧ slotsFor 5 62 = [62, 63] ∧
    State.reset.openSessions = [] ∧ State.reset.bil.closes = [] ∧ State.reset.bil.signing = [] ∧ State.reset.newMeas = false ∧
    (State.reset.wr (F.KEY_NMEASj_M 2) 1).newMeas = true ∧ (State.reset.wrB F.KEY_RESEAL_DONE true).sealHeld = true := by decide +kernel
theorem witness_KeyNewbillRefused : ((State.reset.setBoot { lanes := [(3, { typ := .dc })] }).wrB (F.BIL_Ln_SSTAT_OPEN 3) true).openSessions ≠ [] := by decide +kernel

theorem witness_KeyCommandsEnd : (State.reset.setKey { run := some { op := 3, slot := 5, typ := 1, use := 0, bind := 0 } }).key.run ≠ none ∧
    2 ^ 20 ≤ (State.reset.setKey { reqs := 2 ^ 20 }).key.reqs ∧ State.reset.key.run = none ∧ slotsFor 3 63 = [63] ∧ State.reset.importBlob [3, 0, 0, 0] [] = none := by decide +kernel

theorem witness_IndependentRaises : mergeable 255 = false ∧ mergeable 0x63 = true ∧ State.reset.raisedNow 255 4 none = false ∧
    (State.reset.setFlt { recent := [⟨0, 255, 4, none⟩] }).raisedNow 255 4 none = true ∧ mergeTarget State.reset 0x63 (some 1) = none ∧
    mergeTarget (State.reset.setFlt { recent := [⟨0, 0x40, 2, none⟩] }) 0x63 (some 1) = some ⟨0, 0x40, 2, none⟩ := by
  decide +kernel

theorem witness_FaultClears : bitOf (0x00800000 : Word).toNat 23 = true ∧ seqOf (0x00800000 : Word) = State.reset.rd (F.FLT_SRCi_SEQ 255) ∧
    seqOf (0x01800000 : Word) ≠ State.reset.rd (F.FLT_SRCi_SEQ 255) ∧ State.reset.rd (F.FLT_SRCi_CAUSE 255) = 0 ∧
    (State.reset.wrB (F.FLT_SRCi_CAUSE 255) true).rd (F.FLT_SRCi_CAUSE 255) = 1 ∧
    (State.reset.wrSet (F.FLT_SRCi_LSTK_LANE 255) 5).rdSet (F.FLT_SRCi_LSTK_LANE 255) &&&
      (~~~((State.reset.wrSet (F.FLT_SRCi_LSTK_LANE 255) 5).rdSet F.FLT_CLRMASK_LANE) |||
        (State.reset.wrSet (F.FLT_SRCi_LSTK_LANE 255) 5).rdSet (F.FLT_SRCi_LCAU_LANE 255)) = 0 ∧
    ((State.reset.wrSet (F.FLT_SRCi_LSTK_LANE 255) 5).wrSet F.FLT_CLRMASK_LANE 1).rdSet (F.FLT_SRCi_LSTK_LANE 255) &&&
      (~~~(((State.reset.wrSet (F.FLT_SRCi_LSTK_LANE 255) 5).wrSet F.FLT_CLRMASK_LANE 1).rdSet F.FLT_CLRMASK_LANE) |||
        ((State.reset.wrSet (F.FLT_SRCi_LSTK_LANE 255) 5).wrSet F.FLT_CLRMASK_LANE 1).rdSet (F.FLT_SRCi_LCAU_LANE 255)) = 4 := by decide +kernel

theorem witness_RetirementCommands : restoreDenied State.reset 31 = false ∧
    restoreDenied (State.reset.wrSet F.FLT_LANEF_LANE (laneBit 31)) 31 = true := by decide +kernel

theorem witness_FaultPinsAndInputs : (State.reset.wr F.FLT_CFG_FIEN 1).rd F.FLT_CFG_FIEN ≠ 0 ∧ (State.reset.wr F.FLT_CFG_FIEN 0).rd F.FLT_CFG_FIEN = 0 := by
  decide +kernel
theorem witness_EncodersCount : (State.reset.wr (F.FLT_QENk_CTL_EN 7) 1).rd (F.FLT_QENk_CTL_EN 7) ≠ 0 ∧
    (encPhase true false + 4 - encPhase (State.reset.enc 7).a (State.reset.enc 7).b) % 4 = 1 ∧
    (encPhase false true + 4 - encPhase (State.reset.enc 7).a (State.reset.enc 7).b) % 4 = 3 ∧
    (encPhase true true + 4 - encPhase (State.reset.enc 7).a (State.reset.enc 7).b) % 4 = 2 := by decide +kernel

def wdState (p w : Option Nat) : State := (State.reset.wr F.FLT_WDCFG_WRST 1).setFlt { wdProbe := p, wdWedged := w } |>.setClk { frame := 100000 }
theorem witness_HeartbeatOfTheCluster : (0x5A3C : BitVec 16).toNat = nextKey (wdState none none) ∧ (wdState none none).clk.frame ≤ 99990 + 10 ∧ 4 ≤ ((wdState none none).wr F.SYS_STAGE_STAGE 4).stage ∧
    (0x1234 : BitVec 16).toNat ≠ nextKey (wdState none none) ∧
    (wdState none none).flt.wdLast + (wdState none none).rd F.FLT_WDCFG_WDT ≤ (wdState none none).clk.frame ∧ 99990 + 10 ≤ (wdState none none).clk.frame ∧
    (wdState none (some 99000)).rd F.FLT_WDCFG_WRST ≠ 0 ∧
    99000 + 1000 * (wdState none (some 99000)).rd F.FLT_WDCFG_WRST ≤ (wdState none (some 99000)).clk.frame := by decide +kernel

def genState : State := ((((State.reset.wr (F.SWA_Gk_ST_STATE 31) 2).wr (F.SWA_Gk_CFG_ROLE 31) 3).setSwa { chans := [(95, { onSince := some 0, pauseEnd := 7 })] })).setClk
  { frame := 1000000 }
theorem witness_ChannelTrips : genState.chanOn 95 = true ∧ chanIndex (.gen 31) = 95 ∧ (genState.chan 95).pauseEnd ≠ 0 ∧ (genState.chan 95).pauseEnd ≤ genState.clk.frame ∧
    (genState.chan 95).onSince = some 0 ∧ 0 + genState.rd F.SWA_CFG_RESET ≤ genState.clk.frame ∧ State.reset.chanOn 95 = false ∧
    genState.trips 95 + 1 < genState.rd F.SWA_CFG_N ∧ (genState.setTrips 95 15).rd F.SWA_CFG_N ≤ (genState.setTrips 95 15).trips 95 + 1 ∧
    genState.tripLevel 95 = some 150 := by decide +kernel

theorem witness_LatchReleases : State.reset.rdBit (F.FLT_SRCi_LSTK_LANE 0x43) 31 = false ∧ State.reset.rdBit (F.FLT_SRCi_LSTK_LANE 0x44) 31 = false ∧
    State.reset.rd (F.FLT_SRCi_STK 0x45) = 0 ∧ genState.rd (F.SWA_Gk_CFG_ROLE 31) = 3 ∧ (State.reset.wrSet (F.FLT_SRCi_LSTK_LANE 0x43) (laneBit 31)).rdBit (F.FLT_SRCi_LSTK_LANE 0x43) 31 = true ∧
    (State.reset.wrSet (F.FLT_SRCi_LSTK_LANE 0x44) (laneBit 31)).rdBit (F.FLT_SRCi_LSTK_LANE 0x44) 31 = true ∧
    (State.reset.wrB (F.FLT_SRCi_STK 0x45) true).rd (F.FLT_SRCi_STK 0x45) ≠ 0 := by decide +kernel

def lockState (c : Chan) : State := (State.reset.setSwa { chans := [(63, c)] }).setClk { frame := 1000 }
/-- A lock that moves, with a drive of 600 ms, 200 ms of it before a stall counts, and a stall at 400 mA. -/
def lockMoves : Chan := { moving := true, attempt := 1, cfg := 40 * 2 ^ 24 + 20 * 2 ^ 16 + 600 }
def lockTrace (ma : Nat) : List Nat := List.replicate 300 100 ++ List.replicate 30 ma
theorem witness_ChannelsAndLocksAtWork : genState.rd (F.SWA_Gk_CFG_ROLE 31) = 3 ∧ State.reset.rd (F.SWA_Gk_CFG_ROLE 31) ≠ 3 ∧
    (State.reset.wr (F.SWA_Ln_CCST_STATE 31) 1).rd (F.SWA_Ln_CCST_STATE 31) = 1 ∧ ((lockState lockMoves).chan (32 + 31)).moving = true ∧ lockConfirmed (lockState lockMoves) 31 (lockTrace 500) = true ∧
    lockConfirmed (lockState lockMoves) 31 (lockTrace 300) = false ∧ genState.maySwitch 31 false = true ∧ State.reset.maySwitch 31 true = true ∧
    genState.maySwitch 31 true = false ∧
    ((lockState { retryAt := 1000 }).chan (32 + 31)).retryAt ≤ (lockState { retryAt := 1000 }).clk.frame ∧
    ((State.reset.wr (F.SWA_Ln_CCST_STATE 31) 2).setSwa { chans := [(31, { openCnt := 10 })] }).isOpen 31 = true ∧
    State.reset.isOpen 31 = false := by decide +kernel

def hotState : State := ((genState.wrB (F.SWA_Gk_CFG_SHED 31) true).setPins { fieldT := 32767 })
theorem witness_SupplyAndThermal : hotState.mustShed = true ∧ hotState.rd (F.SWA_Gk_CFG_SHED 31) ≠ 0 ∧ hotState.chanOn (64 + 31) = true ∧
    State.reset.mustShed = false ∧ (State.reset.setSwa { overTemp := true }).swa.overTemp = true ∧ (0 : Int) ≤ 16 * 100 - 80 ∧ (State.reset.chan 0).bucket + 1000000 * (0 : BitVec 16).toNat < 1000000 * State.reset.rd F.SWA_CLAMPCFG_CAP ∧
    1000000 * State.reset.rd F.SWA_CLAMPCFG_CAP ≤ (State.reset.chan 0).bucket + 1000000 * (0xFFFF : BitVec 16).toNat := by decide +kernel

theorem witness_CounterClears : (exec .wdenyClear (State.reset.wr F.SYS_WDENY_COUNT 0xFFFF) matches .next _) = true ∧
    (State.reset.wr F.SYS_WDENY_COUNT 0xFFFF).rd F.SYS_WDENY_COUNT = 0xFFFF := by decide +kernel

def supState : State := ((((State.reset.wr F.SYS_STAGE_STAGE 8).setSaf { soOffAt := [(1, 99)], soChange := [(1, 1)], mdisc := [(31, 1)], xcheck := [(15, 12)] })
  |>.setClk { frame := 100000 }).modGuard 7 fun g => { g with disc := some 10 }).wr F.SAF_GDCFG_ROLE 0o22000000
def crossState : State := (((State.reset.setBoot { lanes := [(31, { typ := .dc })] }).setPins { mirA := laneBit 31 }).wr (F.EFM_Ln_CFG_GRP 31) 15).setSaf { xcheck := [(15, 12)] }
theorem witness_Supervisor : State.reset.rd F.SAF_STAT_SERVICE = 0 ∧ (State.reset.wrB F.SAF_STAT_SERVICE true).rd F.SAF_STAT_SERVICE ≠ 0 ∧
    (supState.guard 7).disc = some 10 ∧ supState.role 7 = 2 ∧ 10 + supState.rd F.SAF_CFG_GDISC < supState.clk.frame ∧
    (supState.guardSet 7 true false).rd F.SYS_STAGE_STAGE = 8 ∧ (supState.guardSet 7 true false).roleClosed 2 = false ∧
    supState.rd F.SAF_CFG_MDISC < supState.mdiscFor 31 ∧ supState.causeFor 0x63 31 = false ∧ supState.coilOn 31 = false ∧
    (supState.chan 31).offSince + 50 ≤ supState.clk.frame ∧ lk (fun _ => 0) supState.saf.soOffAt 1 = 99 ∧
    1 + supState.rd F.SAF_CFG_SOFB ≤ supState.clk.frame ∧ 10 ≤ lk (fun _ => 0) crossState.saf.xcheck 15 ∧
    inSet (crossState.closedLanes 15) 31 = true ∧ crossState.causeFor 0x62 31 = false := by decide +kernel

def connState (st : Nat) : State := ((((State.reset.wr (F.SAF_CONNk_CFG_EN 15) 1).wr F.LNK_FINJ_SEL 2).wr (F.SAF_CONNk_CFG_TEXP 15) 20).wr (F.SAF_CONNk_ST_STATE 15) st).setClk { frame := 100000 }
def goodPdu (seq : Nat) : List Byte := let h : List Byte := [1, 1] ++ leBytes 2 seq ++ leBytes 4 0 ++ leBytes 4 0 ++ leBytes 2 20 ++ [1, 0, 0, 0, 0, 0]
  h ++ leBytes 4 (safetyCrc h)
theorem witness_SafetyConnections : (connState 2).pduDue 15 = true ∧ ((connState 2).modConn 15 fun c => { c with txAt := 100001 }).pduDue 15 = false ∧
    (connState 2).rd F.LNK_FINJ_SEL ≠ (connState 2).rd (F.SAF_CONNk_CFG_XPORT 15) ∧
    6 ≤ ((connState 2).wr (F.SAF_CONNk_CFG_XPORT 15) 6).rd (F.SAF_CONNk_CFG_XPORT 15) ∧ (connState 2).rd (F.SAF_CONNk_CFG_EN 15) ≠ 0 ∧ State.reset.rd (F.SAF_CONNk_CFG_EN 15) = 0 ∧
    (connState 2).rd (F.SAF_CONNk_CFG_TEXP 15) = 20 ∧ (goodPdu 1).length = 24 ∧
    safetyCrc ((goodPdu 1).take 20) = leAt (goodPdu 1) 0x14 4 ∧ leAt (goodPdu 1) 8 4 = ((connState 2).word A.SAF_ID).toNat ∧
    leAt (goodPdu 1) 4 4 = (connState 2).rd (F.SAF_CONNk_PEER_ID 15) ∧ leAt (goodPdu 1) 0x0C 2 = (connState 2).rd (F.SAF_CONNk_CFG_TEXP 15) ∧
    (leAt (goodPdu 4) 2 2 + 65536 - (connState 2).rd (F.SAF_CONNk_ST_SEQ 15)) % 65536 = 4 ∧ (connState 2).rd (F.SAF_CONNk_ST_STATE 15) = 2 ∧
    ((connState 2).conn 15).lastRx + 20 ≤ (connState 2).clk.frame ∧ ((connState 1).conn 15).cand = none ∧
    (((connState 1).modConn 15 fun c => { c with cand := some (65535, 99990) }).conn 15).cand = some (65535, 99990) ∧
    (((connState 2).modConn 15 fun c => { c with failed := true, goodSince := 99000 }).connGood 15) = true := by decide +kernel

def capState (st : Nat) : State := State.reset.wr F.MET_CAP_CTL_STATE st
theorem witness_CaptureSensorsPulses : (capState 0).rd F.MET_CAP_CTL_STATE = 0 ∧ (capState 3).rd F.MET_CAP_CTL_STATE = 3 ∧ (capState 2).rd F.MET_CAP_CTL_STATE = 2 ∧
    (capState 2).met.cap.left = 0 ∧ (capState 3).met.cap.pend = none ∧ (State.reset.wr F.MET_CAP_ADDR_INDEX 4095).rd F.MET_CAP_ADDR_INDEX = 4095 ∧
    (State.reset.wr F.MET_SNB_CTL_EN 1).rd F.MET_SNB_CTL_EN ≠ 0 ∧ (State.reset.setBoot { mclk := true }).boot.mclk = true ∧
    (State.reset.wr (F.MET_SNBm_EN 63) 1).rd (F.MET_SNBm_EN 63) ≠ 0 ∧ (capState 2).met.cap.lostAt ≠ (capState 2).clk.sample + 1 ∧
    (let s := (State.reset.setClk { frame := 100000 }).modSens 63 fun _ => { fails := 3, since := some 90000 }; (s.sens 63).fails = 3 ∧ (s.sens 63).fault = false ∧
      (s.sens 63).since = some 90000 ∧ 90000 + 10000 ≤ s.clk.frame) := by decide +kernel
theorem witness_ProofPulses : ((State.reset.modPpo 3 fun x => { x with backlog := 65535, beganAt := some 98 }).ppo 3).backlog = 65535 ∧
    (let s := (State.reset.setBoot { mclk := true }).modPpo 3 fun x => { x with rate := 16 * ppoUnit }; s.ppoCrossed (s.ppo 3)) = true ∧
    (State.reset.ppo 3).high = false ∧ ((State.reset.modPpo 3 fun x => { x with high := true, beganAt := some 5 }).ppo 3).high = true ∧
    (State.reset.laneType (State.reset.lead 31)).outlet = false ∧
    (let s := (State.reset.setBoot { lanes := [(31, { typ := .dc })] }).setClk { sample := 1000000 };
     let u := s.modStream (3 * 31) fun x => { x with subNow := true, lost := true };
     (u.laneType (u.lead 31)).outlet && u.groupLost 31 && u.groupSub 31) = true := by decide +kernel

def bilState : State := ((State.reset.setBil { saving := some (1, { final := true }), pcloseReq := true }).setClk { frame := 100000 }).wr F.BIL_HSTAT_NOHAMPER 1
theorem witness_Billing : bilState.bil.saving = some (1, { final := true }) ∧ State.reset.bil.saving = none ∧ bilState.rd F.BIL_HSTAT_NOHAMPER ≠ 0 ∧
    State.reset.rd F.BIL_HSTAT_NOHAMPER = 0 ∧ bilState.bil.pcloseReq = true ∧ (State.reset.wr F.BIL_HCFG_PFWEN 0).rd F.BIL_HCFG_PFWEN = 0 ∧
    (State.reset.setPins { vinAux := 24000, pfwLow := true }).pins.pfwLow = true ∧ (24000 : Int) ≥ 8500 + 500 * (min 23 (State.reset.rd F.BIL_HCFG_AUXPF) : Int) ∧
    State.reset.rd F.BIL_HCFG_PFWEN ≠ 0 ∧ (8499 : Int) < 8500 + 500 * (min 23 (State.reset.rd F.BIL_HCFG_AUXPF) : Int) ∧
    (State.reset.wr F.SYS_STAGE_STAGE 5).rd F.SYS_STAGE_STAGE = 5 ∧ State.reset.failedPairs 0 = [] ∧
    (State.reset.metLane 0).cplBad = [] ∧ (State.reset.bilLane 0).faulted = [] ∧
    (State.reset.setWord (A.BIL_Ln_IMPr 0 0) 1).failedPairs 0 ≠ [] ∧
    (State.reset.setThm { io33 := false, vbak := false }).thm.io33 = false ∧ (State.reset.setThm { vbak := true }).thm.vbak = true ∧
    State.reset.rd F.THM_TMP_CFG_ZERO = 0 := by decide +kernel

def efmState (l : EfmLane) : State := ((State.reset.setBoot { mclk := true, mclkAt := 0, lanes := [(31, { typ := .dc })] }).setClk { sample := 1000000, frame := 100000 }).setEfm
  { chips := 40, update := true, lanes := [(31, l)] }
def rcdState (t : RcdTest) : State := (((((efmState { acTest := some t }).wr (F.SWA_Gk_CFG_EN 31) 1).wr (F.SWA_Gk_CFG_ROLE 31) 2).wr (F.SWA_Gk_CFG_LANE 31) 31).wr
  (F.SWA_Gk_ST_STATE 31) 2).setSwa { chans := [(95, { onSince := some 5 })] }
theorem witness_EarthFault : 1000 * (efmState {}).efm.chips ≤ (efmState {}).mclkTicks ∧ (efmState {}).efm.update = true ∧ State.reset.efm.update = false ∧
    State.reset.boot.mclk = false ∧ phaseFit [] 7 = none ∧ (efmState {}).laneType 31 = .dc ∧
    ((efmState { cc := some { start := some 7 } }).efmLane 31).cc = some { start := some 7 } ∧
    (phaseFit ((List.range 32).map fun k => { k := k, sums := addSums [1, 1, 1, 1, 1, 1, 3, 3, 3, 1, 1, 1] [1, 2, (k : Rat), 4, (2 * k : Rat), (k * k : Rat), 3, 6, (3 * k : Rat), 1, 2, (k : Rat)] }) 0).isSome = true ∧
    ((efmState { cc := some { st := some (1, 3), verdict := some (.pass true) } }).efmLane 31).cc = some { st := some (1, 3), verdict := some (.pass true) } ∧
    ((efmState { step := some { start := some 5 } }).efmLane 31).step = some { start := some 5 } ∧ 5 + 4000 ≤ (efmState {}).mclkTicks ∧
    (rcdState {}).testChannel 31 = some 31 ∧ (rcdState {}).chanOn 95 = true ∧ ((rcdState {}).chan (64 + 31)).onSince = some 5 ∧
    ((rcdState { off := true }).efmLane 31).acTest = some { off := true } := by decide +kernel

def pilState (p : PilLane) (step st : Nat) : State := (((((State.reset.setPil { lanes := [(31, p)] }).setClk { frame := 100000, frameLen := 16 }).wr
  (F.PIL_Ln_SESS_STEP 31) step).wr (F.PIL_Ln_CPST_STATE 31) st).setBoot { lanes := [(31, { typ := .dc })] }).setPins { mirA := BitVec.allOnes 32, mirB := BitVec.allOnes 32 }
theorem witness_PilotAndSessionTimers : ((pilState { drv := .x1 } 2 1).laneType 31).outlet = true ∧ (pilState {} 2 1).clk.frameLen = 16 ∧
    ((((pilState {} 2 1).wr (F.PIL_Ln_CPST_RAW 31) 2).wr F.PIL_CFG_DEB 4).wr (F.PIL_Ln_CPST_DEBCNT 31) 4).pilotDue 31 = true ∧
    (((pilState { diodeCnt := 250 } 2 1).wr F.PIL_CFG_DEB 4).wr (F.PIL_Ln_CPST_DIODE 31) 0).diodeDue 31 = true ∧
    ((pilState { biased := true, ppRaw := 5, ppCnt := 250 } 2 1).wr F.PIL_CFG_PPDEB 4).ppDue 31 = true ∧
    (pilState { opened := true, ppOpenAt := some 99990 } 2 1).ppOpenDue 31 = true ∧ State.reset.pilotDue 31 = false ∧
    (pilState { limit := 5 } 0x0D 1).timeOut 31 = true ∧ (pilState { limit := 5 } 8 1).timeOut 31 = true ∧
    (let s := (pilState { next := some 0x0E, opened := true, decided := [] } 0x0D 1).wr F.SYS_STAGE_STAGE 8;
     let u := s.modHead 31 fun h => { h with present := true, passed := true };
     u.laneServed 31 && (u.levelCauses 31).isEmpty && !u.retired 31 && !inSet u.causeSet 31 && u.sessStep 31 = 0x0D) = true ∧
    bestCause ([0x13, 0x05] ++ (pilState { decided := [0x13, 0x05], opened := true } 0x0D 1).levelCauses 31) = 0x13 ∧ faultPath 0x13 = true ∧
    (pilState { limit := 5, authAt := 1 } 5 1).timeOut 31 = true ∧
    ((pilState { suspAt := some 1, basic := true, stopLim := 7 } 0x0B 2).pilLane 31).suspAt = some 1 ∧
    (pilState { suspAt := some 1, basic := true, stopLim := 7 } 0x0B 2).mirBoth 31 = true ∧
    (pilState { bAt := some 1, basic := true } 0x0C 1).sessStep 31 = 0x0C ∧ (pilState {} 0x11 1).sessStep 31 = 0x11 ∧
    inSet (pilState {} 0x11 1).causeSet 31 = false ∧
    (((pilState { opened := true } 0x0B 1).wr (F.PIL_Ln_SESS_SERVICE 31) 2).wr (F.PIL_Ln_CTL_BPT 31) 1).rd (F.PIL_Ln_CTL_BPT 31) ≠ 0 := by decide +kernel

def slacState (p : PilLane) (rs : List SlacRun) : State := (pilState p 3 1).setPil { lanes := [(31, p)], runs := rs }
theorem witness_SlacAndProtocolSetup : (slacState {} []).slacOpen 31 = true ∧ State.reset.slacOpen 31 = false ∧
    (slacState {} [{ mac := 5, run := 6, start := 0, total := 10 }]).slacRun 5 6 = some { mac := 5, run := 6, start := 0, total := 10 } ∧ (slacState {} []).slacRun 5 6 = none ∧
    (31 : Nat) ∈ (slacState {} []).heardLanes { mac := 5, run := 6, start := 0, total := 1, counts := [(31, 1)], sums := [(31, 58)] } ∧
    (slacState { mac := 5, run := 6, mayMatch := true, needToggle := true } []).slacMine 31 5 = true ∧
    (slacState { parmAt := some 5 } []).matchLate 31 = true ∧ ((slacState {} []).laneType 31).outlet = true ∧
    (slacState {} []).rd (F.PIL_Ln_SLAC_VALID 31) = 0 ∧ (slacState {} []).rd (F.PIL_Ln_SLAC_TRIES 31) = 0 ∧
    ((slacState {} []).wr (F.PIL_Ln_SLAC_TRIES 31) 15).rd F.PIL_CFG_SLACRETRY < ((slacState {} []).wr (F.PIL_Ln_SLAC_TRIES 31) 15).rd (F.PIL_Ln_SLAC_TRIES 31) ∧
    (slacState { slacF := some 9 } []).sessStep 31 = 3 ∧ ((pilState { opened := true } 4 1).wr (F.PIL_Ln_MDM_LINK 31) 3).linked 31 = true ∧
    ((pilState { opened := true, tls := true } 4 1).wr (F.PIL_Ln_MDM_LINK 31) 3).proto 31 = 0 ∧ State.reset.linked 31 = false ∧
    ((((pilState { opened := true, tls := true } 4 1).wr (F.PIL_Ln_MDM_LINK 31) 3).wr (F.PIL_Ln_CTL_PROTO 31) 7).bestOffer 31 [⟨3, 2⟩, ⟨2, 1⟩]) = some ⟨2, 1⟩ := by decide +kernel

def v2gState (typ p : Nat) : State := ((((pilState { opened := true } 4 1).wr (F.PIL_Ln_MDM_LINK 31) 3).wr (F.PIL_Ln_SESS_PROTO 31) p).setBoot
  { lanes := [(31, { typ := if typ = 0 then .dc else .ac1 })] })
theorem witness_VehicleMessages : (v2gState 0 3).linked 31 = true ∧ (v2gState 0 3).proto 31 = 3 ∧ (v2gState 0 3).laneType 31 = .dc ∧
    (v2gState 1 2).linked 31 = true ∧ (v2gState 1 2).laneType 31 ≠ .dc ∧ (v2gState 0 1).proto 31 = 1 ∧ State.reset.linked 31 = false ∧
    (v2gState 0 3).serviceCode 31 .dcBpt = some 2 ∧ (v2gState 0 3).serviceCode 31 .acBpt = none := by decide +kernel

def authState (path : Nat) : State := (((pilState {} 5 1).wr (F.PIL_Ln_AUTH_PATH 31) path).wr (F.PIL_Ln_CTL_AUTH 31) 31).setBoot
  { policy := { localList := true, fwAuth := true, classes := [([1, 2, 3, 4], 3)] } }
theorem witness_Authorisation : (authState 1).sessStep 31 = 5 ∧ (authState 1).rd (F.PIL_Ln_AUTH_RESULT 31) = 0 ∧
    (authState 1).rdBit (F.PIL_Ln_CTL_AUTH 31) 2 = true ∧ (authState 1).rd (F.PIL_Ln_AUTH_PATH 31) = 1 ∧ (authState 2).rd (F.PIL_Ln_AUTH_PATH 31) = 2 ∧
    (authState 1).boot.policy.localList = true ∧ (authState 2).boot.policy.classes = [([1, 2, 3, 4], 3)] ∧ (authState 1).fwMay 31 = true ∧ State.reset.sessStep 31 ≠ 5 := by decide +kernel

def alcState (a : AlcState) (st : Nat) : State := ((State.reset.setAlc a).setClk { frame := 100000 }).wr F.SYS_STAGE_STAGE st
def modState (m : ModState) : State := ((State.reset.setBoot { mods := [(127, m)] }).setClk { frame := 100000 }).setLnk { busOff := 8 }
theorem witness_AllocationAndModules : (alcState {} 7).rd F.SYS_STAGE_STAGE = 7 ∧ (alcState {} 7).alc.launchAt + 1 + 0 ≤ (alcState {} 7).clk.frame ∧
    ((alcState { members := [(0, { last := { typ := 1 } })] } 7).member (alcState {} 7).devid).last.typ = 1 ∧ headcountRead [] = none ∧
    State.reset.rd F.LNK_FINJ_SEL = 0 ∧ (State.reset.wr F.LNK_FINJ_SEL 2).rd F.LNK_FINJ_SEL = 2 ∧ ((Headcount.wire { typ := 1 }) |> headcountRead).isSome = true ∧
    (alcState {} 6).alc.launchAt + (alcState {} 6).periodMs ≤ (alcState {} 6).clk.frame + (alcState {} 6).rd F.ALC_CFG_CUT ∧
    (modState { port := 3, addr := 32 }).moduleAt 3 32 = some 127 ∧ leAt [] 0 8 = ((modState { port := 3, addr := 32 }).modAt 127).ident ∧
    ((modState { port := 3, addr := 32, admitted := true, seen := 5 }).modAt 127).admitted = true ∧
    ((modState { port := 3, addr := 32, reqAt := 9 }).modAt 127).reqAt = 9 ∧ (modState {}).lnk.busOff.getLsbD 3 = true ∧
    (modState { port := 3 }).canOn 3 = false ∧ ((modState {}).wr (F.LNK_CANp_CFG_EN 2) 1).canOn 2 = true ∧
    ((modState {}).wr F.SYS_STAGE_STAGE 8).lnk.timeAt + 100 ≤ (modState {}).clk.frame := by decide +kernel

def ptpState (src : Nat) : State := ((((State.reset.setClk { source := src, frame := 100000 }).wr (F.LNK_ETHp_CFG_EN 1) 1).wr (F.LNK_ETHp_STAT_LINK 1) 1).setLnk
  { ptp := { waiting := some (9, 5), foreign := [(7, [1, 2]), (8, [1, 1])] }, jl := [(3, { unacked := [⟨1, false, [], 0⟩] })] }).wr (F.LNK_JLk_ST_UP 3) 1
theorem witness_EthernetTimeAndJoiningLinks : (ptpState 1).ptpSource 1 0 = true ∧ (ptpState 1).lnk.ptp.master = some 8 ∧ State.reset.ptpSource 1 5 = false ∧
    (ptpState 1).lnk.ptp.waiting = some ((9 : BitVec 16).toNat, 5) ∧ (ptpState 1).lnk.ptp.delay = none ∧
    ((ptpState 7).wr F.TCK_SYNC_STATE 1).rd F.TCK_SYNC_STATE = 1 ∧ (ptpState 7).clk.source = 7 ∧ (ptpState 7).lnk.ptp.sentAt + 1000 ≤ (ptpState 7).clk.frame ∧
    (ptpState 5).clk.source = 2 + 3 ∧ (ptpState 5).rd (F.LNK_JLk_ST_UP 3) ≠ 0 ∧ State.reset.rd (F.LNK_JLk_ST_UP 3) = 0 ∧ macGood [1] = false ∧
    ((ptpState 5).jlink 3).unacked = [⟨1, false, [], 0⟩] := by decide +kernel

def sbState (b : SbuState) (role missed : Nat) : State := (((((((State.reset.setSbu b).setBoot { vddField := true }).setClk { frame := 1000000 }).wr F.SBU_CFG_EN 1).wr
  F.SBU_STAT_ROLE role).wr F.SBU_MASTER_MISSED missed).wr F.SBU_CFG_MCAND 1).wr F.SYS_DEVID_DEVID 3
theorem witness_SiteBus : (sbState {} 2 0).sbOn = true ∧ State.reset.sbOn = false ∧ (sbState {} 2 0).sbRole = 2 ∧
    (sbState {} 2 0).alc.launchAt + 2 ≤ (sbState {} 2 0).clk.frame ∧ (sbState {} 2 0).devid = 3 ∧ (sbState {} 1 3).sbCand = true ∧
    3 ≤ (sbState {} 1 3).rd F.SBU_MASTER_MISSED ∧
    (sbState { callSeen := true, table := [⟨3, true, []⟩] } 1 0).ownTurn = some (sbState { callSeen := true, table := [⟨3, true, []⟩] } 1 0).sbu.turn ∧
    (sbState { callSeen := true, joined := true, bulkDev := 3 } 1 0).sbu.bulkDev = (sbState {} 1 0).devid ∧
    (sbState {} 1 0).rd F.SBU_FINJ_EN = 0 ∧ (sbState { callSeen := true, callTick := 9, nextRoute := some ⟨9, [], true, 5, 1⟩ } 1 0).tickCome 9 = true ∧
    (sbState { nbrs := [(7, {})] } 1 0).refreshDue ((sbState { nbrs := [(7, {})] } 1 0).nbr 7) = true ∧
    ((sbState { nbrs := [(7, {})] } 1 0).nbr 7).heard + 60000 ≤ 1000001 ∧ (sbState { callSeen := true, callTick := 11 } 3 0).sbu.callTick % 8 = 3 % 8 := by
  decide +kernel

def updState (u : UpdState) (b st : Nat) : State := (((State.reset.setUpd u).wr F.UPD_BANK_STATE b).wr F.SYS_STAGE_STAGE st).setClk { frame := 10000000 }
def goodBlock (tag i : Nat) : List Byte := let m := leBytes 2 tag ++ leBytes 2 i ++ List.replicate 512 0; m ++ leBytes 4 (crc32 m)
theorem witness_UpdatesAndItineraries : (updState {} 2 0).rd F.UPD_BANK_STATE = 2 ∧ State.reset.rd F.UPD_BANK_STATE = 0 ∧ State.reset.rd F.UPD_STAT_RAIN = 0 ∧
    State.reset.rd F.KEY_RESEAL_DONE = 0 ∧ (let s := (updState { trial := true } 5 8).setBoot { stageFrame := 10000000 }; s.clk.frame ≤ s.boot.stageFrame + 1000 * s.rd F.UPD_CFG_CONFWIN) ∧
    (updState { trial := true } 5 8).causeIs 0x08 = false ∧ (updState { ruck := some ⟨0, 0, 0, 0, 0, 0, false, ⟨0, 0⟩, ⟨0, 0⟩⟩ } 3 8).upd.ruck.isSome = true ∧ (updState { trial := true } 5 8).upd.trial = true ∧ (updState { trial := true } 5 8).safetySticky = false ∧
    (updState { trial := true } 5 8).boot.stageFrame + 1000 * (updState { trial := true } 5 8).rd F.UPD_CFG_CONFWIN ≤ 10000000 ∧
    ((updState { idleSince := some 5 } 3 8).wrB F.UPD_STAT_RAIN true).rd F.UPD_STAT_RAIN ≠ 0 ∧
    5 + 1000 * (updState {} 3 8).rd F.UPD_CFG_IDLEW ≤ 10000000 ∧ (updState {} 2 0).verifyStep ≠ 0 ∧
    State.reset.dmaState 31 = 0 ∧ (State.reset.wr (F.DMA_CHn_STAT_STATE 31) 1).dmaState 31 = 1 ∧
    (State.reset.wr (F.DMA_CHn_STAT_STATE 31) 1).dmaCredit.dmaPick (State.reset.wr (F.DMA_CHn_STAT_STATE 31) 1).dmaReady = some 31 := by decide +kernel
theorem witness_goodBlock : (goodBlock 7 3).length = 520 ∧ leAt (goodBlock 7 3) 0 2 = 7 ∧ leAt (goodBlock 7 3) 2 2 = 3 := by decide +kernel
set_option maxRecDepth 100000 in
theorem witness_goodBlock_crc : crc32 ((goodBlock 7 3).take 516) = leAt (goodBlock 7 3) 516 4 := by decide +kernel

def dpyState0 (d : DpyState) (mode st : Nat) : State := ((((State.reset.setDpy d).setBoot { vddField := true }).setClk { frame := 100000 }).wr
  F.DPY_CFG_MODE mode).wr F.DPY_STAT_STATE st
theorem witness_ClusterAndDisplay : State.reset.linePoisoned 3 = false ∧ (State.reset.setClu { poison := [0x80000000] }).linePoisoned 0 = true ∧
    (State.reset.wrB F.CLU_XST_RUN true).rd F.CLU_XST_RUN ≠ 0 ∧ State.reset.clu.ext.reaches true 0 = false ∧
    State.reset.clu.ext.reaches true A.KEY_CMD = true ∧ (State.reset.setClu { slice := true }).clu.slice = true ∧ (∀ c : Fin 3, nth State.reset.dpy.refBad c < 9) ∧ (dpyState0 {} 1 0).dpyMode = 1 ∧ (dpyState0 {} 2 0).dpyMode = 2 ∧ (dpyState0 {} 0 0).dpyMode = 0 ∧
    (dpyState0 {} 1 4).dpyState = 4 ∧ (dpyState0 { ven := 1 } 1 1).dpy.ven ≠ 7 ∧ (dpyState0 { black := true, ven := 7 } 1 4).dpy.black = true ∧ railDown 7 ≠ 0 ∧ railDown 1 = 0 ∧
    (dpyState0 {} 1 4).dpy.stepAt ≤ (dpyState0 {} 1 4).clk.frame := by decide +kernel

def rdrSt (r : Reader) (st : Nat) : State := ((((State.reset.setNfc { readers := [(3, r)] }).setClk { frame := 100000 }).wr (F.NFC_RDk_ST_STATE 3) st).wr
  (F.NFC_RDk_CFG_EN 3) 1).wr (F.NFC_RDk_CFG_TYPES 3) 3
def tagSt (n : NfcState) : State := ((State.reset.setNfc n).wrB F.NFC_TAG_ST_FIELD true).wr F.NFC_TAG_CFG_STGEN 1
theorem witness_ReadersAndServiceTag : (rdrSt {} 3).rdrState 3 = 3 ∧ (rdrSt { base := some 1000, overs := 1 } 1).rdrState 3 = 1 ∧
    (((rdrSt {} 1).wr (F.NFC_RDk_CFG_PING 3) 4).setClk { frame := 40030 }).pingDue 3 = true ∧ (((rdrSt {} 1).wr (F.NFC_RDk_CFG_PING 3) 4).setClk { frame := 40031 }).pingDue 3 = false ∧
    (rdrSt {} 3).rd (F.NFC_RDk_CFG_EN 3) ≠ 0 ∧ (rdrSt {} 1).rd (F.NFC_RDk_CFG_DET 3) ≤ detuning 1000 60000 ∧ (rdrSt {} 1).rd (F.FLT_SRCi_CAUSE 0xB0) = 0 ∧
    (rdrSt {} 3).rd (F.NFC_RDk_CFG_TYPES 3) ≠ 0 ∧ ((rdrSt {} 3).reader 3).since + 10 * (rdrSt {} 3).rd (F.NFC_RDk_CFG_POLLT 3) ≤ 100000 ∧
    ((rdrSt {} 4).reader 3).since + 100 * (rdrSt {} 4).rd (F.NFC_RDk_CFG_SESST 3) ≤ 100000 ∧ (tagSt {}).tagHears .all = true ∧
    (tagSt { selected := true }).tagHears .selected = true ∧ (tagSt { quiet := true }).tagHears .all = false ∧ State.reset.tagHears .all = false ∧
    (tagSt {}).rd F.NFC_TAG_CFG_STGEN ≠ 0 ∧ (tagSt {}).nfc.locked = false ∧ crc32 ((tagSt {}).stagedBytes 0 0) = 0 := by decide +kernel

def runState (tick : Nat) : State := (((((State.reset.setBoot { vddCore := true, mclk := false }).wr F.SYS_STAGE_STAGE 8).wr F.TCK_PERIOD_P 10).wr
  F.TCK_PERIOD_NEXT 20).wr F.TCK_TIME_MS 999 |>.setThm { io33 := true }).setClk { tickInFrame := tick, source := 0, ofs := 600000 }
theorem witness_EdgesAdvanceTime : (runState 3).framesRun = true ∧ (runState 3).edgeDue = false ∧ (runState 3).boot.mclk = false ∧
    (runState 16).edgeDue = true ∧ State.reset.framesRun = false ∧
    (runState 16).nextMs % (10 * (runState 16).rd F.TCK_PERIOD_P) = 0 ∧ (runState 16).nextMs % 1000 = 0 ∧
    (runState 16).periodDue (runState 16).nextMs = true ∧ ((runState 16).stepDecide true).clk.stepping = true ∧
    ((runState 16).wr F.THM_WALL_MS 999).rd F.THM_WALL_MS = 999 ∧ (runState 16).thm.io33 = true ∧
    (State.reset.setThm { io33 := false, vbak := false }).thm.io33 = false := by decide +kernel

theorem witness_NarrowCommands : (touches .wdenyClear).length ≤ 5 ∧ ∃ t, exec .wdenyClear State.reset = .next t := ⟨by decide, _, rfl⟩

theorem witness_WideCommands : 6 ≤ (touches (.headRollCallDone 31 [] 0)).length ∧ (touches (.headRollCallDone 31 [] 0)).length ≤ 15 ∧
    ∃ t, exec (.headRollCallDone 31 [] 0) State.reset = .next t := ⟨by decide, by decide, _, rfl⟩

/-! ## Ill-formed commands -/

theorem test_wf_sampleTick_stream : Instr.wf (.sampleTick [⟨3, 0, false⟩, ⟨3, 1, false⟩] [] false) = false := by decide
theorem test_wf_sampleTick_lane : Instr.wf (.sampleTick [] [⟨2, 5⟩, ⟨2, 6⟩] false) = false := by decide
theorem test_wf_registerWrite_unaligned : Instr.wf (.registerWrite 0x12 0) = false := by decide
theorem test_wf_bufferedWrite_outside : Instr.wf (.bufferedWrite 0x150000 0) = false := by decide
theorem test_wf_criticalWrite_unaligned : Instr.wf (.criticalWrite 0x1B001 0) = false := by decide
theorem test_wf_complementWrite_outside : Instr.wf (.complementWrite 0xFFFFFFFC 0) = false := by decide
theorem test_wf_statusClearWrite_unaligned : Instr.wf (.statusClearWrite 0x2 0) = false := by decide
theorem test_wf_wideRegisterRead_unaligned : Instr.wf (.wideRegisterRead 0x6) = false := by decide
theorem test_wf_hostTransaction : Instr.wf (.hostTransaction ⟨[1, 2, 3], 2⟩) = false := by decide
theorem test_wf_headRollCallDone : Instr.wf (.headRollCallDone 4 (List.replicate 65 0) 0) = false := by decide
theorem test_wf_sensorBusScan : Instr.wf (.sensorBusScan [⟨5, none⟩, ⟨5, none⟩]) = false := by decide
theorem test_wf_wallTimeSet : Instr.wf (.wallTimeSet 0 1000) = false := by decide
theorem test_wf_cmMnbcSoundInd : Instr.wf (.cmMnbcSoundInd 0 0 [⟨1, ⟨0, 0⟩, []⟩, ⟨1, ⟨0, 0⟩, []⟩]) = false := by decide
theorem test_wf_supportedAppProtocol : Instr.wf (.supportedAppProtocol ⟨0, ⟨0, 0⟩⟩ [⟨1, 0⟩]) = false := by decide
theorem test_wf_canStatus : Instr.wf (.canStatus 0 1 (List.replicate 65 0)) = false := by decide
theorem test_wf_canIdrsp : Instr.wf (.canIdrsp 0 1 (List.replicate 65 0)) = false := by decide
theorem test_wf_cardActivated : Instr.wf (.cardActivated 0 false true [1, 2, 3, 4, 5]) = false := by decide
theorem test_wf_tagInventory : Instr.wf (.tagInventory 3 8 none) = false := by decide
theorem test_wf_coherenceRequest : Instr.wf (.coherenceRequest (2 ^ 25) none 0 0) = false := by decide

/-! ## Examples the spec works out -/

/-- R174, R175: the duty of the worked example. -/
theorem test_duty_code : dutyCode 231 = 770 ∧ dutyCode 320 = 1066 := by decide

/-- R412: green at 400 with -2,000 ppm/°C and the panel at 65 °C. -/
theorem test_display_reference :
    ((State.reset.wr (F.DPY_IREFc_IREF 1) 400).wr (F.DPY_IREFc_TC 1) (2 ^ 16 - 2000)).irefOf (65 * 16) 1 = 368 := by decide +kernel

/-- R233 to R236: the feeder zone of two devices. -/
theorem test_allocation_example :
    (allocate
      [⟨0x101, 3, 1, some 0, 20000, 280000, 0, 1, 0, false⟩, ⟨0x101, 9, 0, some 2, 20000, 130000, 0, 1, 0, false⟩,
       ⟨0x101, 10, 0, some 2, 20000, 380000, 0, 1, 0, false⟩, ⟨0x102, 0, 0, some 0, 20000, 330000, 0, 1, 0, false⟩,
       ⟨0x102, 1, 0, some 1, 0, 200000, 0, 1, 0, false⟩]
      1000000 [((0x101, 0), 1000000), ((0x101, 2), 300000), ((0x102, 0), 1000000), ((0x102, 1), 1000000)]).1.map
        (fun e => e.f + e.a) = [300000, 150000, 150000, 210000, 190000] := by decide +kernel

/-- R239: two child zones of 10 and 2 lanes. -/
theorem test_parent_zone_example :
    (allocate [⟨1, 0, 0, none, 0, 1000000, 0, 10, 0, false⟩, ⟨2, 0, 0, none, 0, 1000000, 0, 2, 0, false⟩] 300000 []).1.map
      (fun e => e.f + e.a) = [250000, 50000] := by decide +kernel

def sharedModule (a : Nat) : Nat × ModState := (a, { addr := a, rated := 50000 })

/-- R350: six modules over two lanes of 150,000 W. -/
theorem test_module_share_example :
    ((sharePass2 (fun _ => 150000) (sharePass1 [9, 10] ([1, 2, 3, 4, 5, 6].map sharedModule)).2
        (sharePass1 [9, 10] ([1, 2, 3, 4, 5, 6].map sharedModule)).1).1.map fun x => (x.1, x.2.map fun m => m.1)) =
      [(9, [1, 3, 5]), (10, [2, 4, 6])] ∧
    shareCurrents 2300 ([2, 4, 6].map sharedModule) = [(2, 768), (4, 766), (6, 766)] := by decide +kernel

def fourChannels : State :=
  [(0, 3), (1, 1), (2, 1), (3, 0)].foldl (fun s p =>
    (s.modDma p.1 fun c => { c with level := p.2 }).wr (F.DMA_CHn_STAT_STATE p.1) 2) State.reset

/-- The channels that the next slots go to. -/
def slotsOf : Nat → State → List (Option Nat)
  | 0, _ => []
  | k + 1, s =>
    let total := s.dmaReady.foldl (fun t n => t + s.dmaWeight (s.dmaChan n).level) 0
    let n := s.dmaCredit.dmaPick s.dmaReady
    n :: slotsOf k (s.dmaCredit.modDma (n.getD 0) fun c => { c with credit := c.credit - total })

/-- R391: the thirteen slots of the worked example. -/
theorem test_dma_slots_example : slotsOf 13 fourChannels =
    [0, 1, 0, 2, 0, 0, 3, 0, 0, 1, 0, 2, 0].map some := by decide +kernel

/-- R248: of requests by class, the first four pull-ins fit and the fifth fails on current. -/
def busesInLock : State :=
  ((List.range 6).foldl (fun s n => ((((s.modChan n fun k => { k with queued := some 0 }).wrB (F.SWA_Ln_CCST_SRQ n) true).wrB
      (F.SWA_Ln_CCST_ACON n) true).wrB (F.SWA_Ln_CCST_BCON n) true).wr (F.PIL_Ln_AUTH_CLASS n) (if n < 4 then 0 else 1)) State.reset).wr
    F.SWA_DISS_D 210
theorem test_start_queue_example : busesInLock.waiting.map (fun r => r.id) = [4, 5, 0, 1, 2, 3] ∧
    ((admitAll busesInLock.waiting busesInLock).swa.chans.filter fun k => k.2.booked.isSome).map (fun k => k.1) = [0, 1, 4, 5] := by
  decide +kernel

/-- R73: the stale write of the worked example, then the one that clears. -/
theorem test_stale_clear_example :
    ((State.reset.setWord A.SYS_STR_STAT 0x2B002008).regWrite A.SYS_STR_STAT 0x2A000008).word A.SYS_STR_STAT = 0x2B002008 ∧
      ((State.reset.setWord A.SYS_STR_STAT 0x2B002008).regWrite A.SYS_STR_STAT 0x2A000008).word A.SYS_STALE = 1 ∧
      ((State.reset.setWord A.SYS_STR_STAT 0x2B002008).regWrite A.SYS_STR_STAT 0x2B002008).word A.SYS_STR_STAT = 0x2B000000 := by
  decide +kernel

/-- R402: an extended block holds 32 bytes. -/
theorem test_wf_tagExtWriteSingle : Instr.wf (.tagExtWriteSingle .all 0 (List.replicate 31 0) 3000) = false := by decide

/-- The worked example of spec/05: class 1 on a single-phase record is a conflict with bonding; class 2 is good. -/
theorem test_laneCause_example :
    laneCause [⟨true, .laneRec 12 2 100 1 0 0⟩] ⟨true, .laneRec 12 2 100 1 0 0⟩ 12 2 1 0 0 = 3 ∧
      laneCause [⟨true, .laneRec 12 2 100 2 0 0⟩] ⟨true, .laneRec 12 2 100 2 0 0⟩ 12 2 2 0 0 = 0 := by decide

end Sys2Proof.Tests
end

