-- ==== Sys2Proof/Proofs/RegisterWrites.lean ====
section
/-!
PROOFS. A write of the service cluster to a register that is not critical (R5, R64, R442): which write of the bus it is, what
it leaves alone, and what its fields take.
-/

namespace Sys2Proof.Machine

open Sys2Proof

/-! ## What a register write leaves alone -/

theorem Frame.refl (ps : List Part) (s : State) : Frame ps s s := by
  intro p _; cases p <;> rfl

theorem RegsBut.refl (as : List Nat) (s : State) : RegsBut as s s := ⟨.refl _ s, fun _ _ => rfl⟩

/-- The register file may be replaced under a frame that lists it. -/
theorem frame_setRegs (s : State) (r : RegFile) : Frame [.regs] s (s.setRegs r) := by
  intro p hp
  cases p
  case regs => simp at hp
  all_goals rfl

theorem regsBut_setWord (s : State) (a : Nat) (v : Word) : RegsBut [a] s (s.setWord a v) :=
  ⟨frame_setRegs s _, fun b hb => word_setWord_ne s a b v (by simpa using hb)⟩

/-! ## Access codes of a word -/

theorem RegHit.has_eq_false_iff (h : RegHit) (c : Acc) : h.has c = false ↔ h.d.mask c h.w = 0 := by
  simp [RegHit.has]

/-- No field of an access code, no bit of it. -/
theorem RegHit.bitsOf_of_not_has {h : RegHit} {c : Acc} (hc : h.has c = false) : h.bitsOf c = 0 := by
  simp [RegHit.bitsOf, (h.has_eq_false_iff c).1 hc]

/-! ## Which write of the bus a register write is -/

/-- Outside the channel windows of the DMA engine a write is the write on the register bus. -/
theorem regWrite_eq_busWrite (s : State) {a : Nat} (v : Word) {h : RegHit} (ha : a % 4 = 0) (hr : regAt a = some h)
    (hd : OutsideDma a h) : s.regWrite a v = s.busWrite a v := by
  have hal : a / 4 * 4 = a := by omega
  unfold State.regWrite
  rw [hal, hr]
  rcases hd with hb | hs
  · simp [hb]
  · simp [hs]

/-- A write to a word of a register that is neither a shadow, critical, nor a write control is a plain write. -/
theorem busWrite_eq_writePlain (s : State) {a : Nat} (v : Word) {h : RegHit} (hp : PlainAt a h) :
    s.busWrite a v = s.writePlain h a v := by
  obtain ⟨ha, hr, hshadow, hcrit, hwctl⟩ := hp
  have hal : a / 4 * 4 = a := by omega
  unfold State.busWrite
  simp [hal, hr, hshadow, hcrit, hwctl]

theorem exec_registerWrite_plain (s : State) {a v : Word} {h : RegHit} (hp : PlainAt a.toNat h) (hd : OutsideDma a.toNat h) :
    exec (.registerWrite a v) s = .next (s.writePlain h a.toNat v) := by
  have hexec : exec (.registerWrite a v) s = .next (s.regWrite a.toNat v) := rfl
  have ⟨ha, hr, _⟩ := hp
  rw [hexec, regWrite_eq_busWrite s v ha hr hd, busWrite_eq_writePlain s v hp]

/-! ## What a plain write does -/

/-- The write of the RW fields of a word alone: they take the written bits (R5). -/
def State.takeRw (s : State) (h : RegHit) (a : Nat) (v : Word) : State :=
  if h.has .rw then s.setWord a ((s.word a &&& ~~~(h.bitsOf .rw)) ||| (v &&& h.bitsOf .rw)) else s

theorem State.takeRw_eq_ite_mask (s : State) (h : RegHit) (a : Nat) (v : Word) :
    s.takeRw h a v = if h.d.mask .rw h.w = 0 then s
      else s.setWord a ((s.word a &&& ~~~(BitVec.ofNat 32 (h.d.mask .rw h.w))) ||| (v &&& BitVec.ofNat 32 (h.d.mask .rw h.w))) := by
  simp [State.takeRw, RegHit.has, RegHit.bitsOf]

theorem word_takeRw (s : State) (h : RegHit) (a : Nat) (v : Word) :
    (s.takeRw h a v).word a =
      (s.word a &&& ~~~(if h.has .rw then h.bitsOf .rw else 0)) ||| (v &&& (if h.has .rw then h.bitsOf .rw else 0)) := by
  unfold State.takeRw
  split
  · exact word_setWord_self s a _
  · change s.word a = (s.word a &&& ~~~0#32) ||| (v &&& 0#32)
    rw [BitVec.not_zero, BitVec.and_allOnes, BitVec.and_zero, BitVec.or_zero]

theorem regsBut_takeRw (s : State) (h : RegHit) (a : Nat) (v : Word) : RegsBut [a] s (s.takeRw h a v) := by
  unfold State.takeRw
  split
  · exact regsBut_setWord s a _
  · exact .refl _ s

theorem writeBuffered_zero (s : State) (a : Nat) (v : Word) : s.writeBuffered a 0 v = s := by
  simp [State.writeBuffered]

/-- A write that clears no status and is out of range is ignored whole (R442). -/
theorem writePlain_outOfRange (s : State) {h : RegHit} {a : Nat} {v : Word} (hsqc : v &&& h.bitsOf .sqc = 0)
    (hbad : s.valueGood h a v.toNat = false) : s.writePlain h a v = s := by
  rw [RegHit.bitsOf] at hsqc
  simp [State.writePlain, hsqc, hbad]

/-- A write that passes the sequence check (R73) and the ranges (R442): the status bits written are cleared, then the RW
fields, the buffered ones and the command bits act (R5). -/
theorem writePlain_accepted (s : State) {h : RegHit} {a : Nat} {v : Word}
    (hseq : v &&& h.bitsOf .sqc = 0 ∨ seqOf v = seqOf (s.word a)) (hgood : s.valueGood h a v.toNat = true) :
    s.writePlain h a v =
      let c := if v &&& h.bitsOf .sqc = 0 then s else s.clearStatus h a v
      let t := (c.takeRw h a v).writeBuffered a (h.bitsOf .rwb) v
      if h.has .w1p || h.has .wo then t.act h a v.toNat else t := by
  have hact : ∀ t : State, (if h.has .w1p || h.has .wo then t.act h a v.toNat else t) =
      if h.d.mask .w1p h.w = 0 && h.d.mask .wo h.w = 0 then t else t.act h a v.toNat := by
    intro t
    by_cases hw1p : h.d.mask .w1p h.w = 0 <;> simp [RegHit.has, hw1p]
  simp only [hact, State.takeRw_eq_ite_mask]
  unfold State.writePlain
  by_cases hsqc : v &&& h.bitsOf .sqc = 0
  · rw [RegHit.bitsOf] at hsqc
    simp [hsqc, hgood, RegHit.bitsOf]
  · have hcur := hseq.resolve_left hsqc
    replace hsqc : v &&& BitVec.ofNat 32 (h.d.mask .sqc h.w) ≠ 0#32 := hsqc
    simp [hsqc, hcur, hgood, RegHit.bitsOf]

/-- In range and without a status bit cleared or a buffered field, the RW fields are taken and then the command bits act. -/
theorem writePlain_inRange (s : State) {h : RegHit} {a : Nat} {v : Word} (hsqc : v &&& h.bitsOf .sqc = 0)
    (hgood : s.valueGood h a v.toNat = true) (hrwb : h.has .rwb = false) :
    s.writePlain h a v =
      if h.has .w1p || h.has .wo then (s.takeRw h a v).act h a v.toNat else s.takeRw h a v := by
  rw [writePlain_accepted s (.inl hsqc) hgood]
  simp only [hsqc, if_true, RegHit.bitsOf_of_not_has hrwb, writeBuffered_zero]

/-- Settles O11: outside the channel windows the command is a plain write; out of range nothing changes, and in range a word
without buffered fields takes its RW bits and then acts on its command bits, if it has any. -/
theorem plainRegisterWrites : Obligations.PlainRegisterWrites := by
  unfold Obligations.PlainRegisterWrites
  intro s a v h hp hd hsqc
  rw [exec_registerWrite_plain s hp hd]
  refine ⟨fun hbad => ?_, fun hgood hrwb hw1p hwo => ⟨?_, word_takeRw s h _ v, regsBut_takeRw s h _ v⟩,
    fun hgood hrwb hcmd => ?_⟩
  · rw [writePlain_outOfRange s hsqc hbad]
  · rw [writePlain_inRange s hsqc hgood hrwb]
    simp [hw1p, hwo, State.takeRw]
  · rw [writePlain_inRange s hsqc hgood hrwb]
    simp [hcmd, State.takeRw]

end Sys2Proof.Machine
end

