-- ==== Sys2Proof/Proofs/InternalLinks.lean ====
section
/-!
PROOFS. Transfers on the internal die links (R12, R275): what a transfer with a bad CRC drops, and what it raises.
-/

namespace Sys2Proof.Machine

open Sys2Proof

/-- The safety monitor's part may be replaced under a frame that lists it. -/
theorem frame_setSaf (s : State) (v : SafState) : Frame [.saf] s (s.setSaf v) := by
  intro p hp
  cases p
  case saf => simp at hp
  all_goals rfl

/-! ## What a lost transfer drops -/

theorem bil_transferLost_hamper (s : State) : (s.transferLost .hamper).bil = { s.bil with saving := none } := rfl

theorem bil_transferLost_thermos (s : State) : (s.transferLost .thermos).bil = { s.bil with clkReq := none } := rfl

/-- On a link to the field die the link joins the set of those whose inputs the next edge goes without. -/
theorem transferLost_eq_setSaf (s : State) {l : DieLink} (hh : l ≠ .hamper) (ht : l ≠ .thermos) :
    s.transferLost l = s.setSaf { s.saf with lost := s.saf.lost.insert l } := by
  cases l with
  | hamper => exact absurd rfl hh
  | thermos => exact absurd rfl ht
  | fieldService | aLink | bLink => rfl

theorem mem_lost_transferLost (s : State) {l : DieLink} (hh : l ≠ .hamper) (ht : l ≠ .thermos) :
    l ∈ (s.transferLost l).saf.lost := by
  rw [transferLost_eq_setSaf s hh ht]
  exact List.mem_insert_self

theorem frame_transferLost (s : State) {l : DieLink} (hh : l ≠ .hamper) (ht : l ≠ .thermos) :
    Frame [.saf] s (s.transferLost l) := by
  rw [transferLost_eq_setSaf s hh ht]
  exact frame_setSaf s _

/-! ## What the command does, by its CRC and its link -/

theorem exec_internalLinkTransfer_good (s : State) (l : DieLink) : exec (.internalLinkTransfer l true) s = .next s := rfl

/-- What a bad transfer raises on its link, once what it carried is dropped: the hamper path has no source of its own, and the
consents of a safety channel are judged again without its refresh (R275). -/
def State.linkFault (s : State) : DieLink → State
  | .fieldService => s.raiseOnce 0x01 1 none
  | .aLink =>
    let u := s.raiseOnce 0x02 1 none
    (u.setSaf { u.saf with refreshA := false }).consentRefresh
  | .bLink =>
    let u := s.raiseOnce 0x03 1 none
    (u.setSaf { u.saf with refreshB := false }).consentRefresh
  | .thermos => s.raiseOnce 0x04 1 none
  | .hamper => s

theorem exec_internalLinkTransfer_bad (s : State) (l : DieLink) :
    exec (.internalLinkTransfer l false) s = .next ((s.transferLost l).linkFault l) := by
  cases l with
  | fieldService | aLink | bLink | thermos | hamper => rfl

/-- Settles O29: a good transfer changes nothing, a bad one drops what it carried and then raises what its link raises; on the
links to the field die the drop is the link's entry in the list of lost inputs and nothing else. -/
theorem internalLinkErrors : Obligations.InternalLinkErrors := by
  unfold Obligations.InternalLinkErrors
  intro s l
  have hbad := exec_internalLinkTransfer_bad s
  exact ⟨exec_internalLinkTransfer_good s l, hbad .fieldService, hbad .thermos, ⟨_, hbad .aLink, rfl⟩, ⟨_, hbad .bLink, rfl⟩,
    hbad .hamper, bil_transferLost_hamper s, bil_transferLost_thermos s,
    fun hh ht => ⟨mem_lost_transferLost s hh ht, frame_transferLost s hh ht⟩⟩

end Sys2Proof.Machine
end

