-- ==== Sys2Proof/Proofs/TicksAndFences.lean ====
section
/-!
PROOFS. Site time, fences and the edges (spec/03): what a field reads after a write of another field, the fence and the sync
states (R47, R57, R58), sample ticks and the first step of an edge (R43 to R55).
-/

namespace Sys2Proof.Machine

open Sys2Proof

/-! ## Frames -/

theorem Frame.trans {ps : List Part} {s t u : State} (h₁ : Frame ps s t) (h₂ : Frame ps t u) : Frame ps s u := by
  intro p hp
  have h₁ := h₁ p hp
  have h₂ := h₂ p hp
  cases p <;> exact Eq.trans h₂ h₁

theorem Frame.mono {ps qs : List Part} {s t : State} (h : Frame ps s t) (hsub : ∀ p ∈ ps, p ∈ qs) : Frame qs s t :=
  fun p hp => h p (mt (hsub p) hp)

theorem WordsBut.trans {as : List Nat} {s t u : State} (h₁ : WordsBut as s t) (h₂ : WordsBut as t u) : WordsBut as s u :=
  fun a ha => (h₂ a ha).trans (h₁ a ha)

theorem WordsBut.mono {as bs : List Nat} {s t : State} (h : WordsBut as s t) (hsub : ∀ a ∈ as, a ∈ bs) : WordsBut bs s t :=
  fun a ha => h a (mt (hsub a) ha)

theorem RegsBut.trans {as : List Nat} {s t u : State} (h₁ : RegsBut as s t) (h₂ : RegsBut as t u) : RegsBut as s u :=
  ⟨h₁.1.trans h₂.1, h₁.2.trans h₂.2⟩

theorem RegsBut.mono {as bs : List Nat} {s t : State} (h : RegsBut as s t) (hsub : ∀ a ∈ as, a ∈ bs) : RegsBut bs s t :=
  ⟨h.1, h.2.mono hsub⟩

theorem RegsBut.clk_eq {as : List Nat} {s t : State} (h : RegsBut as s t) : t.clk = s.clk := h.1 .clk (by decide)

theorem frame_setClk (s : State) (c : ClkState) : Frame [.clk] s (s.setClk c) := by
  intro p hp
  cases p
  case clk => simp at hp
  all_goals rfl

theorem frame_setBil (s : State) (b : BilState) : Frame [.bil] s (s.setBil b) := by
  intro p hp
  cases p
  case bil => simp at hp
  all_goals rfl

/-! ## Reads and the words they depend on -/

/-- A field without a shadow reads as before when none of its words changed. -/
theorem rd_eq_of_words {s t : State} {g : Fld} (hsh : g.sh = 0)
    (h : ∀ i < g.hi / 32 + 1, t.word (g.addr + 4 * i) = s.word (g.addr + 4 * i)) : t.rd g = s.rd g := by
  unfold State.rd
  rw [hsh, useWords_congr s t _ _ _ fun i hi => by simpa [State.useWord] using h i hi]

theorem WordsBut.rd_eq {as : List Nat} {s t : State} (h : WordsBut as s t) {g : Fld} (hsh : g.sh = 0)
    (hg : ∀ i < g.hi / 32 + 1, g.addr + 4 * i ∉ as) : t.rd g = s.rd g :=
  rd_eq_of_words hsh fun i hi => h _ (hg i hi)

/-- Reads depend on the two register files alone. -/
theorem rd_eq_of_regs {s t : State} (hregs : t.regs = s.regs) (hgold : t.gold = s.gold) (g : Fld) : t.rd g = s.rd g := by
  unfold State.rd
  rw [useWords_congr s t _ _ _ fun i _ => by unfold State.useWord State.pairGood State.word; rw [hregs, hgold]]

@[simp] theorem rd_setClk (s : State) (c : ClkState) (g : Fld) : (s.setClk c).rd g = s.rd g :=
  rd_eq_of_regs (s := s) (t := s.setClk c) rfl rfl g

@[simp] theorem rd_setBil (s : State) (b : BilState) (g : Fld) : (s.setBil b).rd g = s.rd g :=
  rd_eq_of_regs (s := s) (t := s.setBil b) rfl rfl g

@[simp] theorem rd_modClk (s : State) (f : ClkState → ClkState) (g : Fld) : (s.modClk f).rd g = s.rd g := rd_setClk s _ g

@[simp] theorem clk_modClk (s : State) (f : ClkState → ClkState) : (s.modClk f).clk = f s.clk := rfl

theorem frame_modClk (s : State) (f : ClkState → ClkState) : Frame [.clk] s (s.modClk f) := frame_setClk s _

theorem rd_lt (s : State) (f : Fld) : s.rd f < 2 ^ f.width := bits_lt _ _ _

/-! ## What a field write leaves alone -/

/-- The words of a field's register. -/
def Fld.words (f : Fld) : List Nat := (List.range (f.hi / 32 + 1)).map fun j => f.addr + 4 * j

theorem regsBut_wr (s : State) (f : Fld) (v : Nat) (hsh : f.sh = 0) : RegsBut f.words s (s.wr f v) := by
  refine ⟨?_, fun a ha => word_wr_out s f v a fun j hj => ⟨?_, .inl hsh⟩⟩
  · rw [wr_parts_plain s f v hsh]
    exact frame_setRegs s _
  · rintro rfl
    exact ha (List.mem_map.2 ⟨j, List.mem_range.2 hj, rfl⟩)

theorem regsBut_countWrap (s : State) (f : Fld) (hsh : f.sh = 0) : RegsBut f.words s (s.countWrap f) := regsBut_wr s f _ hsh

theorem rd_countWrap (s : State) (f : Fld) (h : f.Ok) : (s.countWrap f).rd f = (s.rd f + 1) % 2 ^ f.width := by
  rw [State.countWrap, rd_wr s f _ h, Nat.mod_mod]

theorem rd_count (s : State) (f : Fld) (k : Nat) (h : f.Ok) : (s.count f k).rd f = min f.max (s.rd f + k) := by
  have hsat : satNat f.max (s.rd f + k) = min f.max (s.rd f + k) := by
    unfold satNat
    split <;> omega
  have hmax : f.max < 2 ^ f.width := Nat.sub_lt (Nat.two_pow_pos _) Nat.one_pos
  rw [State.count, State.wrSat, rd_wr s f _ h, hsat, Nat.mod_eq_of_lt (by omega)]

/-! ## Fields of one register (R3) -/

theorem useWords_append (s : State) (a sh k m : Nat) :
    s.useWords a sh (k + m) = s.useWords a sh k + 2 ^ (32 * k) * s.useWords (a + 4 * k) sh m := by
  induction k generalizing a with
  | zero => simp [State.useWords]
  | succ k ih =>
    have hpow : 2 ^ (32 * (k + 1)) = 2 ^ 32 * 2 ^ (32 * k) := by rw [← Nat.pow_add]; congr 1; omega
    have haddr : a + 4 * (k + 1) = a + 4 + 4 * k := by omega
    rw [Nat.succ_add, State.useWords, State.useWords, ih, hpow, haddr]
    ring

theorem useWords_lt (s : State) (a sh k : Nat) : s.useWords a sh k < 2 ^ (32 * k) := by
  induction k generalizing a with
  | zero => simp [State.useWords]
  | succ k ih =>
    have hpow : 2 ^ (32 * (k + 1)) = 2 ^ 32 * 2 ^ (32 * k) := by rw [← Nat.pow_add]; congr 1; omega
    have hlow := (s.useWord a sh).isLt
    have hhigh := ih (a + 4)
    rw [State.useWords, hpow]
    calc (s.useWord a sh).toNat + 2 ^ 32 * s.useWords (a + 4) sh k
        < 2 ^ 32 + 2 ^ 32 * s.useWords (a + 4) sh k := by omega
      _ = 2 ^ 32 * (s.useWords (a + 4) sh k + 1) := by ring
      _ ≤ _ := Nat.mul_le_mul_left _ hhigh

/-- A field is its bits of any number of words that reach over it. -/
theorem rd_eq_bits_useWords (s : State) {f : Fld} {n : Nat} (hlo : f.lo ≤ f.hi) (hn : f.hi / 32 + 1 ≤ n) :
    s.rd f = bits (s.useWords f.addr f.sh n) f.hi f.lo := by
  obtain ⟨m, rfl⟩ := Nat.exists_eq_add_of_le hn
  have hmod : s.useWords f.addr f.sh (f.hi / 32 + 1) = s.useWords f.addr f.sh (f.hi / 32 + 1 + m) % 2 ^ (32 * (f.hi / 32 + 1)) := by
    rw [useWords_append s _ _ (f.hi / 32 + 1) m, Nat.add_mul_mod_self_left, Nat.mod_eq_of_lt (useWords_lt s _ _ _)]
  rw [State.rd, hmod, bits_mod _ _ _ _ (by omega) hlo]

theorem setBits_lt (v n hi lo x : Nat) (hlo : lo ≤ hi) (hhi : hi < n) (hv : v < 2 ^ n) : setBits v hi lo x < 2 ^ n := by
  have hpow : 2 ^ (hi + 1) = 2 ^ (hi + 1 - lo) * 2 ^ lo := by rw [← Nat.pow_add]; congr 1; omega
  have hpown : 2 ^ n = 2 ^ (hi + 1) * 2 ^ (n - (hi + 1)) := by rw [← Nat.pow_add]; congr 1; omega
  have hlow : x % 2 ^ (hi + 1 - lo) * 2 ^ lo + v % 2 ^ lo < 2 ^ (hi + 1) := by
    have hr := Nat.mod_lt v (Nat.two_pow_pos lo)
    calc x % 2 ^ (hi + 1 - lo) * 2 ^ lo + v % 2 ^ lo
        < (x % 2 ^ (hi + 1 - lo) + 1) * 2 ^ lo := by rw [Nat.add_mul]; omega
      _ ≤ 2 ^ (hi + 1) := hpow ▸ Nat.mul_le_mul_right _ (Nat.mod_lt x (Nat.two_pow_pos _))
  have hq : v / 2 ^ (hi + 1) < 2 ^ (n - (hi + 1)) := Nat.div_lt_of_lt_mul (hpown ▸ hv)
  rw [setBits_eq v hi lo x hlo, Nat.add_assoc]
  calc v / 2 ^ (hi + 1) * 2 ^ (hi + 1) + (x % 2 ^ (hi + 1 - lo) * 2 ^ lo + v % 2 ^ lo)
      < (v / 2 ^ (hi + 1) + 1) * 2 ^ (hi + 1) := by rw [Nat.add_mul]; omega
    _ ≤ 2 ^ n := by rw [hpown, Nat.mul_comm (2 ^ (hi + 1))]; exact Nat.mul_le_mul_right _ hq

/-- Replacing bits below `n` leaves what stands above them. -/
theorem setBits_add_high (v q n hi lo x : Nat) (hlo : lo ≤ hi) (hhi : hi < n) (hv : v < 2 ^ n) :
    setBits (v + 2 ^ n * q) hi lo x = setBits v hi lo x + 2 ^ n * q := by
  have hbits : bits (v + 2 ^ n * q) hi lo = bits v hi lo := by
    rw [← bits_mod _ n hi lo hhi hlo, Nat.add_mul_mod_self_left, Nat.mod_eq_of_lt hv]
  have hsplit := split_bits v hi lo hlo
  rw [setBits, setBits, hbits]
  omega

/-- A field of the same register that shares no bit reads as before. -/
theorem rd_wr_same_register (s : State) {f g : Fld} (v : Nat) (hlo : f.lo ≤ f.hi) (hsh : f.sh = 0) (haddr : g.addr = f.addr)
    (hgsh : g.sh = 0) (hglo : g.lo ≤ g.hi) (hapart : g.hi < f.lo ∨ f.hi < g.lo) : (s.wr f v).rd g = s.rd g := by
  have hwide : ∀ t : State, t.rd g = bits (t.useWords f.addr 0 (f.hi / 32 + 1 + (g.hi / 32 + 1))) g.hi g.lo := fun t => by
    rw [rd_eq_bits_useWords t hglo (Nat.le_add_left _ (f.hi / 32 + 1)), haddr, hgsh]
  have hhigh : ∀ k, (s.wr f v).useWords (f.addr + 4 * (f.hi / 32 + 1)) 0 k = s.useWords (f.addr + 4 * (f.hi / 32 + 1)) 0 k := by
    intro k
    exact useWords_congr _ _ _ _ _ fun i _ => useWord_putWords_out _ _ _ _ _ _ _ (fun j hj => ⟨by omega, .inl hsh⟩) (.inl rfl)
  have hlow : (s.wr f v).useWords f.addr 0 (f.hi / 32 + 1) =
      setBits (s.useWords f.addr 0 (f.hi / 32 + 1)) f.hi f.lo v := by
    rw [State.wr, hsh, useWords_putWords _ _ _ _ _ (.inl rfl),
      Nat.mod_eq_of_lt (setBits_lt _ _ _ _ _ hlo (by omega) (useWords_lt s _ _ _))]
  rw [hwide, hwide, useWords_append _ _ _ (f.hi / 32 + 1), useWords_append _ _ _ (f.hi / 32 + 1), hhigh, hlow,
    ← setBits_add_high _ _ _ _ _ _ hlo (by omega) (useWords_lt s _ _ _), bits_setBits_apart _ _ _ _ _ _ hlo hglo hapart]

/-! ## Status events (R72) -/

theorem regsBut_sticky (s : State) (f : Fld) : RegsBut [f.addr] s (s.sticky f) := regsBut_setWord s _ _

theorem regsBut_when_sticky (s : State) (b : Bool) (f : Fld) : RegsBut [f.addr] s (s.when b fun s => s.sticky f) := by
  unfold State.when
  split
  · exact regsBut_sticky s f
  · exact .refl _ s

/-- Below the sequence number an event adds the bits it sets (R72). -/
theorem testBit_stickyWord (w : Word) (m i : Nat) (hi : i < 24) :
    (stickyWord w m).toNat.testBit i = (w.toNat.testBit i || m.testBit i) := by
  have h32 : i < 32 := by omega
  rw [stickyWord, BitVec.toNat_add, BitVec.toNat_ofNat, Nat.mod_eq_of_lt (by decide : 2 ^ 24 < 2 ^ 32), Nat.testBit_mod_two_pow,
    Nat.add_comm, Nat.testBit_two_pow_add_gt hi, BitVec.toNat_or, BitVec.toNat_ofNat, Nat.testBit_or, Nat.testBit_mod_two_pow,
    Nat.testBit_mod_two_pow]
  simp only [hi, h32, decide_true, Bool.true_and]

/-- A field within one word without a shadow. -/
theorem rd_eq_bits_word (s : State) {f : Fld} (hhi : f.hi < 32) (hsh : f.sh = 0) : s.rd f = bits (s.word f.addr).toNat f.hi f.lo := by
  have hwords : f.hi / 32 + 1 = 1 := by omega
  rw [State.rd, hwords]
  simp only [State.useWords, State.useWord, hsh, if_true, Nat.mul_zero, Nat.add_zero]

/-- A status event sets the bit of its one-bit field (R72). -/
theorem rd_sticky_self (s : State) (f : Fld) (hbit : f.hi = f.lo) (hlo : f.lo < 24) (hsh : f.sh = 0) : (s.sticky f).rd f = 1 := by
  have hset := testBit_stickyWord (s.word f.addr) (2 ^ f.lo) f.lo hlo
  rw [Nat.testBit_two_pow_self, Bool.or_true, Nat.testBit_eq_decide_div_mod_eq, decide_eq_true_eq] at hset
  rw [rd_eq_bits_word _ (by omega) hsh, State.sticky, word_stickyMask, bits, hbit, Nat.add_sub_cancel_left, Nat.pow_one, hset]

/-! ## Repeated steps -/

/-- What holds before a pass over a list and is kept by each of its steps holds after it. -/
theorem each_induction {motive : State → Prop} {s : State} {ns : List Nat} {f : State → Nat → State} (hs : motive s)
    (hstep : ∀ t, motive t → ∀ n ∈ ns, motive (f t n)) : motive (s.each ns f) :=
  List.foldlRecOn ns f hs hstep

/-! ## Fences (R57, R58) -/

theorem fenceGo_eq_setClk {s : State} (h : s.clk.fenceReq = false) : s.fenceGo = s.setClk { s.clk with fenceReq := true } := by
  simp [State.fenceGo, State.modClk, h]

theorem fenceGo_eq_countWrap {s : State} (h : s.clk.fenceReq = true) : s.fenceGo = s.countWrap F.TCK_FENCE_MERGED := by
  simp [State.fenceGo, h]

theorem fenceClose_eq_self {s : State} (h : s.clk.fenceReq = false) : s.fenceClose = s := by
  simp [State.fenceClose, h]

/-- The step of the epoch alone: a closed fence then stamps the billing records that waited for it. -/
def State.epochStep (s : State) : State := (s.countWrap F.TCK_EPOCH_EPOCH).setClk { s.clk with fenceReq := false }

theorem regsBut_fenceEpoch (s : State) : RegsBut [A.TCK_EPOCH] s (s.countWrap F.TCK_EPOCH_EPOCH) := regsBut_countWrap s _ rfl

theorem fenceClose_eq_setBil {s : State} (h : s.clk.fenceReq = true) : ∃ b, s.fenceClose = s.epochStep.setBil b := by
  have hclk := (regsBut_fenceEpoch s).clk_eq
  refine ⟨s.fenceClose.bil, ?_⟩
  simp only [State.fenceClose, h, if_true, State.epochStep, State.modClk, State.modBil, hclk]
  rfl

theorem rd_epoch_fenceClose {s : State} (h : s.clk.fenceReq = true) :
    s.fenceClose.rd F.TCK_EPOCH_EPOCH = (s.rd F.TCK_EPOCH_EPOCH + 1) % 2 ^ 32 := by
  obtain ⟨b, hb⟩ := fenceClose_eq_setBil h
  rw [hb, rd_setBil, State.epochStep, rd_setClk]
  exact rd_countWrap s F.TCK_EPOCH_EPOCH ⟨by decide, .inl rfl⟩

theorem clk_fenceClose {s : State} (h : s.clk.fenceReq = true) : s.fenceClose.clk = { s.clk with fenceReq := false } := by
  obtain ⟨b, hb⟩ := fenceClose_eq_setBil h
  rw [hb]
  rfl

theorem fenceClose_frame {s : State} (h : s.clk.fenceReq = true) :
    WordsBut [A.TCK_EPOCH] s s.fenceClose ∧ Frame [.regs, .clk, .bil] s s.fenceClose := by
  obtain ⟨b, hb⟩ := fenceClose_eq_setBil h
  obtain ⟨hframe, hwords⟩ := regsBut_fenceEpoch s
  rw [hb]
  exact ⟨fun a ha => hwords a ha, (hframe.mono (by simp)).trans
    (((frame_setClk _ _).mono (by simp)).trans ((frame_setBil _ b).mono (by simp)))⟩

theorem rd_merged_fenceGo {s : State} (h : s.clk.fenceReq = true) :
    s.fenceGo.rd F.TCK_FENCE_MERGED = (s.rd F.TCK_FENCE_MERGED + 1) % 2 ^ F.TCK_FENCE_MERGED.width := by
  rw [fenceGo_eq_countWrap h]
  exact rd_countWrap s _ ⟨by decide, .inl rfl⟩

theorem regsBut_fenceGo {s : State} (h : s.clk.fenceReq = true) : RegsBut [A.TCK_FENCE] s s.fenceGo := by
  rw [fenceGo_eq_countWrap h]
  exact regsBut_countWrap s _ rfl

/-- After n + 1 requests one stands, n are counted as merged, and the epoch is as before (R58). -/
theorem repeat_fenceGo {s : State} (h : s.clk.fenceReq = false) (n : Nat) :
    let u := Nat.repeat State.fenceGo (n + 1) s
    u.clk.fenceReq = true ∧ u.rd F.TCK_FENCE_MERGED = (s.rd F.TCK_FENCE_MERGED + n) % 2 ^ F.TCK_FENCE_MERGED.width ∧
      u.rd F.TCK_EPOCH_EPOCH = s.rd F.TCK_EPOCH_EPOCH := by
  induction n with
  | zero =>
    simp [Nat.repeat, fenceGo_eq_setClk h, Nat.mod_eq_of_lt (rd_lt s F.TCK_FENCE_MERGED)]
  | succ n ih =>
    obtain ⟨hreq, hmerged, hepoch⟩ := ih
    have hstep := regsBut_fenceGo hreq
    refine ⟨?_, ?_, ?_⟩
    · exact (congrArg ClkState.fenceReq hstep.clk_eq).trans hreq
    · rw [Nat.repeat, rd_merged_fenceGo hreq, hmerged, Nat.mod_add_mod, Nat.add_assoc]
    · exact (hstep.2.rd_eq rfl (by decide)).trans hepoch

/-- Settles O20: a first request sets the flag, each further one counts in MERGED, and the close at the edge steps the epoch once
whatever their number. -/
theorem fencesMergeWithinAFrame : Obligations.FencesMergeWithinAFrame := by
  unfold Obligations.FencesMergeWithinAFrame
  intro s
  have hexec : exec .fenceGo s = .next s.fenceGo := rfl
  refine ⟨fun h => ?_, fun h => ?_, fun h => ?_, fenceClose_eq_self, fun h n => ?_⟩
  · rw [hexec, fenceGo_eq_setClk h]
  · exact ⟨_, hexec, rd_merged_fenceGo h, (regsBut_fenceGo h).clk_eq, regsBut_fenceGo h⟩
  · exact ⟨rd_epoch_fenceClose h, clk_fenceClose h, fenceClose_frame h⟩
  · obtain ⟨hreq, hmerged, hepoch⟩ := repeat_fenceGo h n
    refine ⟨hmerged, ?_, ?_⟩
    · rw [clk_fenceClose hreq]
    · rw [rd_epoch_fenceClose hreq, hepoch]

/-! ## Sync states (R47) -/

/-- Leaving LOCKED is a status event of TCK_SYNC. -/
def State.lockLoss (s : State) (st : Nat) : State :=
  s.when (s.rd F.TCK_SYNC_STATE = 1 && st ≠ 1) fun s => s.sticky F.TCK_SYNC_LOSS

theorem setSync_eq (s : State) (st : Nat) :
    s.setSync st = ((s.lockLoss st).wr F.TCK_SYNC_STATE st).modClk fun c => { c with good := 0, bad := 0, holdSince := c.frame } := rfl

theorem regsBut_lockLoss (s : State) (st : Nat) : RegsBut [A.TCK_SYNC] s (s.lockLoss st) :=
  regsBut_when_sticky s _ F.TCK_SYNC_LOSS

/-- The registers of the entry of a sync state. -/
theorem regsBut_setSync_wr (s : State) (st : Nat) : RegsBut [A.TCK_SYNC] s ((s.lockLoss st).wr F.TCK_SYNC_STATE st) :=
  (regsBut_lockLoss s st).trans (regsBut_wr _ F.TCK_SYNC_STATE st rfl)

theorem rd_state_setSync (s : State) {st : Nat} (h : st < 4) : (s.setSync st).rd F.TCK_SYNC_STATE = st := by
  rw [setSync_eq, rd_modClk, rd_wr _ _ _ ⟨by decide, .inl rfl⟩]
  exact Nat.mod_eq_of_lt h

theorem rd_loss_setSync {s : State} {st : Nat} (hlocked : s.rd F.TCK_SYNC_STATE = 1) (hst : st ≠ 1) :
    (s.setSync st).rd F.TCK_SYNC_LOSS = 1 := by
  have hloss : s.lockLoss st = s.sticky F.TCK_SYNC_LOSS := by simp [State.lockLoss, State.when, hlocked, hst]
  rw [setSync_eq, rd_modClk, hloss, rd_wr_same_word _ F.TCK_SYNC_STATE F.TCK_SYNC_LOSS st ⟨by decide, .inl rfl⟩ rfl rfl
    (by decide) (by decide) (by decide) (by decide)]
  exact rd_sticky_self s _ rfl (by decide) rfl

theorem clk_setSync (s : State) (st : Nat) : (s.setSync st).clk = { s.clk with good := 0, bad := 0, holdSince := s.clk.frame } := by
  rw [setSync_eq, clk_modClk, (regsBut_setSync_wr s st).clk_eq]

theorem setSync_frame (s : State) (st : Nat) : WordsBut [A.TCK_SYNC] s (s.setSync st) ∧ Frame [.regs, .clk] s (s.setSync st) := by
  obtain ⟨hframe, hwords⟩ := regsBut_setSync_wr s st
  rw [setSync_eq]
  exact ⟨hwords, (hframe.mono (by simp)).trans ((frame_modClk _ _).mono (by simp))⟩

theorem exec_syncResultTimeout (s : State) : exec .syncResultTimeout s = .next
    (if s.clk.source ≠ 7 ∧ s.rd F.TCK_SYNC_STATE = 1 ∧ s.clk.lastSync + 4000 ≤ s.clk.frame then s.setSync 2 else s) := by
  change execSyncResultTimeout s = _
  simp [execSyncResultTimeout, and_assoc]

theorem exec_holdoverExpiry (s : State) : exec .holdoverExpiry s = .next
    (if s.rd F.TCK_SYNC_STATE = 2 ∧ s.clk.holdSince + 60000 ≤ s.clk.frame then s.setSync 0 else s) := by
  change execHoldoverExpiry s = _
  simp [execHoldoverExpiry]

/-- Settles O21: each timeout enters its state when its condition holds, by the one law of entering a sync state. -/
theorem syncStatesChange : Obligations.SyncStatesChange := by
  unfold Obligations.SyncStatesChange
  intro s
  rw [exec_syncResultTimeout, exec_holdoverExpiry]
  refine ⟨fun h => ?_, fun h => ?_, fun h => ?_, fun h => ?_⟩
  · have ⟨_, hlocked, _⟩ := h
    rw [if_pos h]
    exact ⟨_, rfl, rd_state_setSync s (by decide), rd_loss_setSync hlocked (by decide), clk_setSync s 2, setSync_frame s 2⟩
  · rw [if_neg (by omega)]
  · rw [if_pos h]
    exact ⟨_, rfl, rd_state_setSync s (by decide), clk_setSync s 0, setSync_frame s 0⟩
  · rw [if_neg (by omega)]

/-! ## The wall clock (R24) -/

theorem wallTick_unpowered {s : State} (hio : s.thm.io33 = false) (hbak : s.thm.vbak = false) : s.wallTick = s := by
  simp [State.wallTick, hio, hbak]

theorem wallTick_within {s : State} (hpow : s.thm.io33 = true ∨ s.thm.vbak = true) (hms : s.rd F.THM_WALL_MS < 999) :
    s.wallTick = s.wr F.THM_WALL_MS (s.rd F.THM_WALL_MS + 1) := by
  have hne : s.rd F.THM_WALL_MS ≠ 999 := by omega
  simp [State.wallTick, hpow, State.wallMs, hne]

theorem wallTick_carry {s : State} (hpow : s.thm.io33 = true ∨ s.thm.vbak = true) (hms : s.rd F.THM_WALL_MS = 999) :
    s.wallTick = (s.wr F.THM_WALL_MS 0).countWrap F.THM_WALL_SEC := by
  simp [State.wallTick, hpow, State.wallMs, hms]

theorem regsBut_wallTick (s : State) : RegsBut F.THM_WALL_MS.words s s.wallTick := by
  unfold State.wallTick
  split
  · split
    · exact (regsBut_wr s F.THM_WALL_MS 0 rfl).trans ((regsBut_countWrap _ F.THM_WALL_SEC rfl).mono (by decide))
    · exact regsBut_wr s F.THM_WALL_MS _ rfl
  · exact .refl _ s

theorem rd_sec_wr_ms (s : State) (v : Nat) : (s.wr F.THM_WALL_MS v).rd F.THM_WALL_SEC = s.rd F.THM_WALL_SEC :=
  rd_wr_same_register s v (by decide) rfl rfl rfl (by decide) (by decide)

/-- The wall clock within a second. -/
theorem rd_wallTick_within {s : State} (hpow : s.thm.io33 = true ∨ s.thm.vbak = true) (hms : s.rd F.THM_WALL_MS < 999) :
    s.wallTick.rd F.THM_WALL_MS = s.rd F.THM_WALL_MS + 1 ∧ s.wallTick.rd F.THM_WALL_SEC = s.rd F.THM_WALL_SEC := by
  have hfits : s.rd F.THM_WALL_MS + 1 < 2 ^ F.THM_WALL_MS.width := lt_trans (by omega : _ < 1000) (by decide)
  rw [wallTick_within hpow hms]
  exact ⟨(rd_wr s _ _ ⟨by decide, .inl rfl⟩).trans (Nat.mod_eq_of_lt hfits), rd_sec_wr_ms s _⟩

/-- The wall clock at the turn of a second. -/
theorem rd_wallTick_carry {s : State} (hpow : s.thm.io33 = true ∨ s.thm.vbak = true) (hms : s.rd F.THM_WALL_MS = 999) :
    s.wallTick.rd F.THM_WALL_MS = 0 ∧ s.wallTick.rd F.THM_WALL_SEC = (s.rd F.THM_WALL_SEC + 1) % 2 ^ 32 := by
  rw [wallTick_carry hpow hms]
  refine ⟨?_, ?_⟩
  · rw [State.countWrap, rd_wr_same_register (f := F.THM_WALL_SEC) (g := F.THM_WALL_MS) _ _ (by decide) rfl rfl rfl (by decide) (by decide),
      rd_wr s _ _ ⟨by decide, .inl rfl⟩, Nat.zero_mod]
  · rw [rd_countWrap _ F.THM_WALL_SEC ⟨by decide, .inl rfl⟩, rd_sec_wr_ms]
    rfl

/-! ## Strobes missed at a change of the period (R71) -/

/-- One strobe at a change of the period: disarmed as missed, when it is armed. -/
def State.missIfArmed (s : State) (g : Nat) : State := if s.on (F.SYS_STRg_CTL_ARMED g) then s.strobeMiss g else s

theorem strobesMissed_eq_each (s : State) : s.strobesMissed = s.each (List.range 8) State.missIfArmed := rfl

theorem regsBut_missIfArmed (s : State) (g : Nat) : RegsBut [A.SYS_STRg_CTL g, A.SYS_STR_STAT] s (s.missIfArmed g) := by
  unfold State.missIfArmed
  split
  · have hcancel : RegsBut [A.SYS_STRg_CTL g, A.SYS_STR_STAT] s (s.strobeCancel g) :=
      (regsBut_wr s (F.SYS_STRg_CTL_ARMED g) _ rfl).mono (by simp [Fld.words, F.SYS_STRg_CTL_ARMED])
    exact hcancel.trans ((regsBut_setWord _ A.SYS_STR_STAT _).mono (by simp))
  · exact .refl _ s

/-- The register of a strobe's control is not the strobe status, nor that of another strobe. -/
theorem rd_armed_missIfArmed (s : State) (g h : Nat) :
    (s.missIfArmed h).rd (F.SYS_STRg_CTL_ARMED g) = if g = h then 0 else s.rd (F.SYS_STRg_CTL_ARMED g) := by
  have hstat : A.SYS_STRg_CTL g ≠ A.SYS_STR_STAT := by unfold A.SYS_STRg_CTL A.SYS_STR_STAT; omega
  split
  case isTrue heq =>
    subst heq
    unfold State.missIfArmed
    split
    · have hsticky := regsBut_setWord (s.strobeCancel g) A.SYS_STR_STAT
        (stickyWord ((s.strobeCancel g).word A.SYS_STR_STAT) (2 ^ (F.SYS_STR_STAT_MISSED.lo + g)))
      exact (hsticky.2.rd_eq rfl (by simpa [F.SYS_STRg_CTL_ARMED] using hstat)).trans
        (rd_wr s (F.SYS_STRg_CTL_ARMED g) 0 ⟨Nat.le_refl _, .inl rfl⟩)
    case isFalse hoff => simpa [State.on] using hoff
  case isFalse hne =>
    refine (regsBut_missIfArmed s h).2.rd_eq rfl ?_
    have hctl : A.SYS_STRg_CTL g ≠ A.SYS_STRg_CTL h := by unfold A.SYS_STRg_CTL; omega
    simp [F.SYS_STRg_CTL_ARMED, hctl, hstat]

theorem rd_armed_each_missIfArmed (s : State) (g : Nat) (gs : List Nat) :
    (s.each gs State.missIfArmed).rd (F.SYS_STRg_CTL_ARMED g) = if g ∈ gs then 0 else s.rd (F.SYS_STRg_CTL_ARMED g) := by
  induction gs generalizing s with
  | nil => simp [State.each]
  | cons h gs ih =>
    have hcons : s.each (h :: gs) State.missIfArmed = (s.missIfArmed h).each gs State.missIfArmed := rfl
    rw [hcons, ih, rd_armed_missIfArmed]
    by_cases hmem : g ∈ gs <;> simp [hmem]

/-- The registers of the strobes. -/
def strobeWords : List Nat := A.SYS_STR_STAT :: (List.range 8).map A.SYS_STRg_CTL

theorem regsBut_strobesMissed (s : State) : RegsBut strobeWords s s.strobesMissed := by
  rw [strobesMissed_eq_each]
  refine each_induction (.refl _ s) fun t ht g hg => ht.trans ((regsBut_missIfArmed t g).mono ?_)
  have hctl : A.SYS_STRg_CTL g ∈ strobeWords := List.mem_cons_of_mem _ (List.mem_map_of_mem hg)
  simpa using ⟨hctl, List.mem_cons_self⟩

/-! ## The first step of an edge (R51, R53) -/

/-- The clocks move to the edge. -/
def State.clockStep (s : State) : State :=
  ((s.wallTick.wr F.TCK_TIME_MS s.nextMs).countWrap F.TCK_FRAME_COUNT).modClk fun c =>
    { c with frame := c.frame + 1, decade := (c.decade + 1) % 10, tickInFrame := 0 }

/-- A committed period takes effect (R51). -/
def State.takePeriod (s : State) (change : Bool) : State :=
  s.when change fun s => (s.wr F.TCK_PERIOD_P (s.rd F.TCK_PERIOD_NEXT)).strobesMissed

/-- The clocks and the period at the coming edge. -/
def State.timeAndPeriod (s : State) : State := s.clockStep.takePeriod (s.periodDue s.nextMs)

theorem timeStep_eq (s : State) :
    s.timeStep = s.timeAndPeriod.wr F.TCK_ALC_TICK_K (s.nextMs / s.timeAndPeriod.periodMs % 2 ^ 32) := rfl

/-- The registers of the clocks. -/
def clockWords : List Nat := F.THM_WALL_MS.words ++ F.TCK_TIME_MS.words ++ F.TCK_FRAME_COUNT.words

theorem regsBut_clockStep_regs (s : State) :
    RegsBut clockWords s ((s.wallTick.wr F.TCK_TIME_MS s.nextMs).countWrap F.TCK_FRAME_COUNT) :=
  ((regsBut_wallTick s).mono (by decide)).trans
    (((regsBut_wr _ F.TCK_TIME_MS _ rfl).mono (by decide)).trans ((regsBut_countWrap _ F.TCK_FRAME_COUNT rfl).mono (by decide)))

theorem wordsBut_clockStep (s : State) : WordsBut clockWords s s.clockStep := (regsBut_clockStep_regs s).2

theorem frame_clockStep (s : State) : Frame [.regs, .clk] s s.clockStep :=
  ((regsBut_clockStep_regs s).1.mono (by simp)).trans ((frame_modClk _ _).mono (by simp))

theorem clk_clockStep (s : State) :
    s.clockStep.clk = { s.clk with frame := s.clk.frame + 1, decade := (s.clk.decade + 1) % 10, tickInFrame := 0 } := by
  rw [State.clockStep, clk_modClk, (regsBut_clockStep_regs s).clk_eq]

theorem rd_time_clockStep (s : State) : s.clockStep.rd F.TCK_TIME_MS = s.nextMs := by
  rw [State.clockStep, rd_modClk, (regsBut_countWrap _ F.TCK_FRAME_COUNT rfl).2.rd_eq rfl (by decide),
    rd_wr _ _ _ ⟨by decide, .inl rfl⟩]
  exact Nat.mod_mod _ _

theorem rd_frame_clockStep (s : State) : s.clockStep.rd F.TCK_FRAME_COUNT = (s.rd F.TCK_FRAME_COUNT + 1) % 2 ^ 32 := by
  rw [State.clockStep, rd_modClk, rd_countWrap _ _ ⟨by decide, .inl rfl⟩, (regsBut_wr _ F.TCK_TIME_MS _ rfl).2.rd_eq rfl (by decide),
    (regsBut_wallTick s).2.rd_eq rfl (by decide)]
  rfl

theorem regsBut_takePeriod (s : State) (change : Bool) : RegsBut (A.TCK_PERIOD :: strobeWords) s (s.takePeriod change) := by
  unfold State.takePeriod State.when
  split
  · exact ((regsBut_wr s F.TCK_PERIOD_P _ rfl).mono (by decide)).trans ((regsBut_strobesMissed _).mono (by decide))
  · exact .refl _ s

theorem rd_period_takePeriod (s : State) : (s.takePeriod true).rd F.TCK_PERIOD_P = s.rd F.TCK_PERIOD_NEXT := by
  have hperiod : s.takePeriod true = (s.wr F.TCK_PERIOD_P (s.rd F.TCK_PERIOD_NEXT)).strobesMissed := rfl
  rw [hperiod, (regsBut_strobesMissed _).2.rd_eq rfl (by decide), rd_wr _ _ _ ⟨by decide, .inl rfl⟩]
  exact Nat.mod_eq_of_lt (rd_lt s F.TCK_PERIOD_NEXT)

theorem rd_armed_takePeriod (s : State) {g : Nat} (hg : g < 8) : (s.takePeriod true).rd (F.SYS_STRg_CTL_ARMED g) = 0 := by
  have hperiod : s.takePeriod true = (s.wr F.TCK_PERIOD_P (s.rd F.TCK_PERIOD_NEXT)).strobesMissed := rfl
  rw [hperiod, strobesMissed_eq_each, rd_armed_each_missIfArmed, if_pos (List.mem_range.2 hg)]

/-- A field outside the clocks, the period, the strobes and the tick number reads as before. -/
theorem rd_timeStep_eq (s : State) {g : Fld} (hsh : g.sh = 0)
    (htick : ∀ i < g.hi / 32 + 1, g.addr + 4 * i ∉ F.TCK_ALC_TICK_K.words) : s.timeStep.rd g = s.timeAndPeriod.rd g :=
  (regsBut_wr s.timeAndPeriod F.TCK_ALC_TICK_K _ rfl).2.rd_eq hsh htick

theorem clk_timeStep (s : State) :
    s.timeStep.clk = { s.clk with frame := s.clk.frame + 1, decade := (s.clk.decade + 1) % 10, tickInFrame := 0 } := by
  rw [timeStep_eq, (regsBut_wr _ F.TCK_ALC_TICK_K _ rfl).clk_eq, State.timeAndPeriod, (regsBut_takePeriod _ _).clk_eq, clk_clockStep]

theorem frame_timeStep (s : State) : Frame [.regs, .clk] s s.timeStep :=
  (frame_clockStep s).trans (((regsBut_takePeriod _ _).1.mono (by simp)).trans ((regsBut_wr _ F.TCK_ALC_TICK_K _ rfl).1.mono (by simp)))

theorem rd_time_timeStep (s : State) : s.timeStep.rd F.TCK_TIME_MS = (s.rd F.TCK_TIME_MS + 1) % 2 ^ 64 := by
  rw [rd_timeStep_eq s rfl (by decide), State.timeAndPeriod, (regsBut_takePeriod _ _).2.rd_eq rfl (by decide), rd_time_clockStep]
  rfl

theorem rd_frame_timeStep (s : State) : s.timeStep.rd F.TCK_FRAME_COUNT = (s.rd F.TCK_FRAME_COUNT + 1) % 2 ^ 32 := by
  rw [rd_timeStep_eq s rfl (by decide), State.timeAndPeriod, (regsBut_takePeriod _ _).2.rd_eq rfl (by decide), rd_frame_clockStep]

theorem rd_tick_timeStep (s : State) :
    s.timeStep.rd F.TCK_ALC_TICK_K = s.nextMs / (10 * s.timeStep.rd F.TCK_PERIOD_P) % 2 ^ 32 := by
  rw [rd_timeStep_eq s (g := F.TCK_PERIOD_P) rfl (by decide), timeStep_eq, rd_wr _ _ _ ⟨by decide, .inl rfl⟩]
  exact Nat.mod_mod _ _

theorem strobe_not_mem_tick {g : Nat} (hg : g < 8) :
    ∀ i < (F.SYS_STRg_CTL_ARMED g).hi / 32 + 1, (F.SYS_STRg_CTL_ARMED g).addr + 4 * i ∉ F.TCK_ALC_TICK_K.words ++ clockWords := by
  decide +revert

theorem period_timeStep_due {s : State} (h : s.periodDue s.nextMs = true) :
    s.timeStep.rd F.TCK_PERIOD_P = s.rd F.TCK_PERIOD_NEXT ∧ ∀ g < 8, s.timeStep.rd (F.SYS_STRg_CTL_ARMED g) = 0 := by
  refine ⟨?_, fun g hg => ?_⟩
  · rw [rd_timeStep_eq s rfl (by decide), State.timeAndPeriod, h, rd_period_takePeriod, (wordsBut_clockStep s).rd_eq rfl (by decide)]
  · rw [rd_timeStep_eq s rfl fun i hi => ?_, State.timeAndPeriod, h, rd_armed_takePeriod _ hg]
    exact fun hmem => strobe_not_mem_tick hg i hi (List.mem_append_left _ hmem)

theorem period_timeStep_not_due {s : State} (h : s.periodDue s.nextMs = false) :
    s.timeStep.rd F.TCK_PERIOD_P = s.rd F.TCK_PERIOD_P ∧
      ∀ g < 8, s.timeStep.rd (F.SYS_STRg_CTL_ARMED g) = s.rd (F.SYS_STRg_CTL_ARMED g) := by
  have hkeep : s.timeAndPeriod = s.clockStep := by rw [State.timeAndPeriod, h]; rfl
  refine ⟨?_, fun g hg => ?_⟩
  · rw [rd_timeStep_eq s rfl (by decide), hkeep, (wordsBut_clockStep s).rd_eq rfl (by decide)]
  · have hout := strobe_not_mem_tick hg
    rw [rd_timeStep_eq s rfl fun i hi hmem => hout i hi (List.mem_append_left _ hmem), hkeep]
    exact (wordsBut_clockStep s).rd_eq rfl fun i hi hmem => hout i hi (List.mem_append_right _ hmem)

/-! ## Which edge a row of the table is (R43, R51, R52, R150, R159) -/

theorem edge_due {s : State} (hrun : s.framesRun = true) (hdue : s.edgeDue = true) (inp : List PinChange) (ov : Overruns) :
    s.edge inp ov = s.edgeRun inp ov := by
  simp [State.edge, hrun, hdue]

theorem edge_not_due {s : State} (hrun : s.framesRun = true) (hdue : s.edgeDue = false) (inp : List PinChange) (ov : Overruns) :
    s.edge inp ov = s := by
  simp [State.edge, hrun, hdue]

theorem edge_no_frames {s : State} (hrun : s.framesRun = false) (inp : List PinChange) (ov : Overruns) :
    s.edge inp ov = inp.foldl State.latchPin s.wallTick := by
  simp [State.edge, hrun]

theorem exec_controlFrameEdge (s : State) (inp : List PinChange) (ov : Overruns) :
    exec (.controlFrameEdge inp ov) s = .next (s.edge inp ov) := rfl

/-- A row that is the coming edge on a condition of its own is CONTROL_FRAME_EDGE under it and changes nothing otherwise. -/
theorem next_edge_when {s : State} {inp : List PinChange} {ov : Overruns} {b : Bool} {p : Prop} [Decidable p] (h : b = true ↔ p) :
    .next (if b then s.edge inp ov else s) = if p then exec (.controlFrameEdge inp ov) s else .next s := by
  by_cases hp : p
  · rw [if_pos (h.2 hp), if_pos hp, exec_controlFrameEdge]
  · rw [if_neg (mt h.1 hp), if_neg hp]

theorem exec_launchEdge (s : State) (inp : List PinChange) (ov : Overruns) : exec (.launchEdge inp ov) s =
    if s.framesRun = true ∧ s.nextMs % (10 * s.rd F.TCK_PERIOD_P) = 0 then exec (.controlFrameEdge inp ov) s else .next s :=
  next_edge_when (by rw [Bool.and_eq_true, State.launchDue, decide_eq_true_eq, State.periodMs])

theorem exec_ledgerSecondEdge (s : State) (inp : List PinChange) (ov : Overruns) : exec (.ledgerSecondEdge inp ov) s =
    if s.framesRun = true ∧ s.nextMs % 1000 = 0 then exec (.controlFrameEdge inp ov) s else .next s :=
  next_edge_when (by simp)

theorem exec_tariffIntervalEdge (s : State) (inp : List PinChange) (ov : Overruns) : exec (.tariffIntervalEdge inp ov) s =
    if s.framesRun = true ∧ s.bil.intEnd ≠ 0 ∧ s.bil.intEnd ≤ s.wallTick.wallSec then exec (.controlFrameEdge inp ov) s
    else .next s := by
  have hbil : s.wallTick.bil = s.bil := (regsBut_wallTick s).1 .bil (by decide)
  exact next_edge_when (by simp [State.tariffDue, hbil])

theorem exec_periodChangeEdge (s : State) (inp : List PinChange) (ov : Overruns) : exec (.periodChangeEdge inp ov) s =
    if s.framesRun = true ∧ s.periodDue s.nextMs = true then exec (.controlFrameEdge inp ov) s else .next s :=
  next_edge_when (by simp)

/-! ## Stepped frames (R49) -/

/-- Is the frame that starts stepped: a first one, or one more? -/
def State.frameSteps (s : State) (allowed : Bool) : Bool :=
  let a := s.clk.ofs.natAbs
  let starts := s.clk.source ≠ 7 && (500000 < a || (s.rd F.SYS_STAGE_STAGE = 6 && 31250 < a))
  allowed && (if s.clk.stepping then 31250 < a else starts)

theorem frameSteps_iff (s : State) (allowed : Bool) : s.frameSteps allowed = true ↔
    allowed = true ∧ (if s.clk.stepping = true then 31250 < s.clk.ofs.natAbs
      else s.clk.source ≠ 7 ∧ (500000 < s.clk.ofs.natAbs ∨ (s.rd F.SYS_STAGE_STAGE = 6 ∧ 31250 < s.clk.ofs.natAbs))) := by
  by_cases hs : s.clk.stepping = true <;> simp [State.frameSteps, hs]

/-- The ticks a stepped frame has beyond 16: the whole count nearest the offset, within the range (log entry 21). -/
def stepTicks (ofs : Int) : Int := max (-8) (min 8 (nearest ofs 62500))

/-- The start of stepping is a status event of TCK_SYNC. -/
def State.stepEvent (s : State) : State := s.when (!s.clk.stepping) fun s => s.sticky F.TCK_SYNC_STEPPED

theorem stepDecide_eq (s : State) (allowed : Bool) : s.stepDecide allowed =
    let t := s.when (s.frameSteps allowed && !s.clk.stepping) fun s => s.sticky F.TCK_SYNC_STEPPED
    if s.frameSteps allowed then
      t.modClk fun c => { c with
        stepping := true, frameLen := (16 + stepTicks t.clk.ofs).toNat, ofs := c.ofs - 62500 * stepTicks t.clk.ofs }
    else t.modClk fun c => { c with stepping := false, frameLen := 16 } := rfl

theorem stepDecide_steps {s : State} {allowed : Bool} (h : s.frameSteps allowed = true) : s.stepDecide allowed =
    s.stepEvent.modClk fun c => { c with
      stepping := true, frameLen := (16 + stepTicks s.stepEvent.clk.ofs).toNat, ofs := c.ofs - 62500 * stepTicks s.stepEvent.clk.ofs } := by
  simp [stepDecide_eq, h, State.stepEvent]

theorem stepDecide_plain {s : State} {allowed : Bool} (h : s.frameSteps allowed = false) : s.stepDecide allowed =
    s.modClk fun c => { c with stepping := false, frameLen := 16 } := by
  simp [stepDecide_eq, h, State.when]

theorem regsBut_stepEvent (s : State) : RegsBut [A.TCK_SYNC] s s.stepEvent :=
  regsBut_when_sticky s _ F.TCK_SYNC_STEPPED

theorem clk_stepDecide_steps {s : State} {allowed : Bool} (h : s.frameSteps allowed = true) : (s.stepDecide allowed).clk =
    { s.clk with stepping := true, frameLen := (16 + stepTicks s.clk.ofs).toNat, ofs := s.clk.ofs - 62500 * stepTicks s.clk.ofs } := by
  rw [stepDecide_steps h, clk_modClk, (regsBut_stepEvent s).clk_eq]

theorem clk_stepDecide_plain {s : State} {allowed : Bool} (h : s.frameSteps allowed = false) : (s.stepDecide allowed).clk =
    { s.clk with stepping := false, frameLen := 16 } := by
  rw [stepDecide_plain h, clk_modClk]

theorem frame_stepDecide (s : State) (allowed : Bool) : Frame [.regs, .clk] s (s.stepDecide allowed) := by
  cases h : s.frameSteps allowed with
  | true =>
    rw [stepDecide_steps h]
    exact ((regsBut_stepEvent s).1.mono (by simp)).trans ((frame_modClk _ _).mono (by simp))
  | false =>
    rw [stepDecide_plain h]
    exact (frame_modClk _ _).mono (by simp)

theorem stepping_stepDecide_iff (s : State) (allowed : Bool) :
    (s.stepDecide allowed).clk.stepping = true ↔ s.frameSteps allowed = true := by
  cases h : s.frameSteps allowed with
  | true => simp [clk_stepDecide_steps h]
  | false => simp [clk_stepDecide_plain h]

theorem rd_stepped_stepDecide {s : State} {allowed : Bool} (h : s.frameSteps allowed = true) (hstart : s.clk.stepping = false) :
    (s.stepDecide allowed).rd F.TCK_SYNC_STEPPED = 1 := by
  have hevent : s.stepEvent = s.sticky F.TCK_SYNC_STEPPED := by simp [State.stepEvent, State.when, hstart]
  rw [stepDecide_steps h, rd_modClk, hevent]
  exact rd_sticky_self s _ rfl (by decide) rfl

theorem stepTicks_range (ofs : Int) : -8 ≤ stepTicks ofs ∧ stepTicks ofs ≤ 8 := by
  unfold stepTicks
  omega

theorem frameLen_stepDecide (s : State) (allowed : Bool) : 8 ≤ (s.stepDecide allowed).clk.frameLen ∧
    (s.stepDecide allowed).clk.frameLen ≤ 24 ∧
    ((s.stepDecide allowed).clk.stepping = false → (s.stepDecide allowed).clk.frameLen = 16) := by
  have hrange := stepTicks_range s.clk.ofs
  cases h : s.frameSteps allowed with
  | true =>
    rw [clk_stepDecide_steps h]
    exact ⟨by dsimp only; omega, by dsimp only; omega, nofun⟩
  | false => simp [clk_stepDecide_plain h]

theorem ofs_stepDecide {s : State} {allowed : Bool} (h : s.frameSteps allowed = true) :
    (s.stepDecide allowed).clk.ofs = s.clk.ofs - 62500 * (((s.stepDecide allowed).clk.frameLen : Int) - 16) := by
  have hrange := stepTicks_range s.clk.ofs
  rw [clk_stepDecide_steps h]
  dsimp only
  omega

/-! ## The work of the units in a sample tick (R43, R54, R303) -/

/-- The parts a raise and the work of a sample tick act on. -/
def unitParts : List Part := [.regs, .gold, .flt, .journal, .met, .pil, .swa, .saf, .efm]

/-- Work of the fault collector and the units beyond it: in their own parts, and in no register of SYS or TCK (R62). -/
def UnitWork (s t : State) : Prop := Frame unitParts s t ∧ ∀ a < blockBase 2, t.word a = s.word a

theorem UnitWork.refl (s : State) : UnitWork s s := ⟨.refl _ s, fun _ _ => rfl⟩

theorem UnitWork.trans {s t u : State} (h₁ : UnitWork s t) (h₂ : UnitWork t u) : UnitWork s u :=
  ⟨h₁.1.trans h₂.1, fun a ha => (h₂.2 a ha).trans (h₁.2 a ha)⟩

/-- A field of a register of SYS or TCK reads as before. -/
theorem UnitWork.rd_eq {s t : State} (h : UnitWork s t) {g : Fld} (hsh : g.sh = 0) (hg : g.addr + 4 * (g.hi / 32) < blockBase 2) :
    t.rd g = s.rd g :=
  rd_eq_of_words hsh fun i hi => h.2 _ (by omega)

/-- The units' own parts of the state taken from `u`. -/
def State.setUnits (s u : State) : State :=
  { s with flt := u.flt, journal := u.journal, met := u.met, pil := u.pil, swa := u.swa, saf := u.saf, efm := u.efm }

theorem unitWork_setUnits (s u : State) : UnitWork s (s.setUnits u) := by
  refine ⟨fun p hp => ?_, fun _ _ => rfl⟩
  cases p
  case flt | journal | met | pil | swa | saf | efm => exact absurd hp (by decide)
  all_goals rfl

section
variable {s t : State} (h : UnitWork s t)
include h

/-- A change within the units' own parts. -/
theorem UnitWork.within {u : State} (hu : u = t.setUnits u) : UnitWork s u := h.trans (hu ▸ unitWork_setUnits t u)

theorem UnitWork.setJournal (j : List JEvent) : UnitWork s (t.setJournal j) := h.within rfl

theorem UnitWork.modFlt (f : FltState → FltState) : UnitWork s (t.modFlt f) := h.within rfl

theorem UnitWork.modMet (f : MetState → MetState) : UnitWork s (t.modMet f) := h.within rfl

theorem UnitWork.modPil (f : PilState → PilState) : UnitWork s (t.modPil f) := h.within rfl

theorem UnitWork.modSwa (f : SwaState → SwaState) : UnitWork s (t.modSwa f) := h.within rfl

theorem UnitWork.modSaf (f : SafState → SafState) : UnitWork s (t.modSaf f) := h.within rfl

theorem UnitWork.modEfm (f : EfmState → EfmState) : UnitWork s (t.modEfm f) := h.within rfl

/-- Hardware writes of a register from the fault collector's block upward. -/
theorem UnitWork.wr {f : Fld} (v : Nat) (hf : blockBase 2 ≤ f.addr := by decide) : UnitWork s (t.wr f v) := by
  refine h.trans ⟨?_, fun a ha => word_wr_out t f v a fun j _ => ⟨by omega, .inr (by omega)⟩⟩
  rw [wr_parts]
  intro p hp
  cases p
  case regs | gold => exact absurd hp (by decide)
  all_goals rfl

/-- A status event of such a register. -/
theorem UnitWork.stickyMask {a : Nat} (m : Nat) (ha : blockBase 2 ≤ a := by decide) : UnitWork s (t.stickyMask a m) :=
  h.trans ⟨(frame_setRegs t _).mono (by decide), fun b hb => word_setWord_ne t a b _ (by omega)⟩

theorem UnitWork.when {b : Bool} {f : State → State} (hf : UnitWork t (f t)) : UnitWork s (t.when b f) := by
  unfold State.when
  split
  · exact h.trans hf
  · exact h

theorem UnitWork.ite {c : Prop} [Decidable c] {u : State} (hu : UnitWork s u) : UnitWork s (if c then t else u) := by
  split
  · exact h
  · exact hu

theorem UnitWork.each {ns : List Nat} {f : State → Nat → State} (hf : ∀ t n, UnitWork t (f t n)) : UnitWork s (t.each ns f) :=
  each_induction h fun u hu n _ => hu.trans (hf u n)

end

/-- The registers of an array lie from its first one upward. -/
theorem blockBase_le_add {b k : Nat} (hb : blockBase 2 ≤ b := by decide) : blockBase 2 ≤ b + k := hb.trans (Nat.le_add_right b k)

/-! ### Triggers of the waveform capture (R119) -/

theorem unitWork_capPend (s : State) (c : CapTrig) : UnitWork s (s.capPend c) := by
  unfold State.capPend
  split
  · exact ((UnitWork.refl s).wr _).modMet _
  · split
    · exact (UnitWork.refl s).modMet _
    · split
      · exact .refl s
      · exact ((UnitWork.refl s).wr _).modMet _

theorem unitWork_capEvent (s : State) (k : Nat) : UnitWork s (s.capEvent k) := by
  unfold State.capEvent
  split
  · exact .refl s
  · exact (UnitWork.refl s).modMet _
  · exact unitWork_capPend s _

/-! ### A session leads out, the safe state (R198, R264, R280, R283) -/

theorem unitWork_setChanState (s : State) (c v : Nat) : UnitWork s (s.setChanState c v) := by
  unfold State.setChanState chanStateFld
  by_cases hcc : c < 32
  · simpa [hcc] using (UnitWork.refl s).wr v blockBase_le_add
  · by_cases hlk : c < 64
    · simpa [hcc, hlk] using UnitWork.refl s
    · simpa [hcc, hlk] using (UnitWork.refl s).wr v blockBase_le_add

theorem unitWork_chanStop (s : State) (c : Nat) : UnitWork s (s.chanStop c) := by
  have hrest : ∀ f : Chan → Chan, UnitWork s ((s.modChan c f).showRest c) := fun f =>
    ((UnitWork.refl s).modSwa _).trans (unitWork_setChanState _ _ _)
  unfold State.chanStop
  dsimp only
  split
  · exact (((hrest _).wr _ blockBase_le_add).wr _ blockBase_le_add).wr _ blockBase_le_add
  · exact hrest _

theorem unitWork_dropClose (s : State) (n : Nat) : UnitWork s (s.dropClose n) := by
  unfold State.dropClose
  split
  · exact ((((UnitWork.refl s).modPil _).wr _ blockBase_le_add).modSwa _).trans (unitWork_chanStop _ n)
  · exact .refl s

theorem unitWork_decideExit (s : State) (n c : Nat) : UnitWork s (s.decideExit n c) := by
  unfold State.decideExit
  extract_lets lead decided
  have hdecided : UnitWork s decided := (UnitWork.refl s).modPil _
  exact hdecided.when (unitWork_dropClose decided lead)

theorem unitWork_withdrawClose (s : State) (m : LaneSet) : UnitWork s (s.withdrawClose m) :=
  (((UnitWork.refl s).modSaf _).wr _).wr _

theorem unitWork_withdrawUnlock (s : State) (m : LaneSet) : UnitWork s (s.withdrawUnlock m) := (UnitWork.refl s).wr _

theorem unitWork_safeEnter (s : State) {f : Fld} (hf : blockBase 2 ≤ f.addr) : UnitWork s (s.safeEnter f) := by
  unfold State.safeEnter
  split
  · exact .refl s
  · have hshown : ∀ b, UnitWork s (((s.wrB f true).wrB F.SAF_STAT_SAFE true).when b fun s => s.sticky F.SAF_EVT_ENTER) := fun b =>
      (((UnitWork.refl s).wr _ hf).wr _).when ((UnitWork.refl _).stickyMask _)
    have hclosed := (hshown (!s.on F.SAF_STAT_SAFE)).trans (unitWork_withdrawClose _ (BitVec.allOnes 32))
    have hunlocked := hclosed.trans (unitWork_withdrawUnlock _ (BitVec.allOnes 32))
    exact (hunlocked.each fun t n => unitWork_decideExit t n 0x10).modSaf _

/-! ### A raise (R302 to R310, R314) -/

theorem unitWork_showCause (s : State) (src : Nat) : UnitWork s (s.showCause src) :=
  ((UnitWork.refl s).wr _ blockBase_le_add).wr _ blockBase_le_add

theorem unitWork_causeOn (s : State) (src cls : Nat) (scope : Option LaneSet) : UnitWork s (s.causeOn src cls scope) :=
  ((UnitWork.refl s).modFlt _).trans (unitWork_showCause _ src)

theorem unitWork_causeOff (s : State) (src : Nat) (scope : Option LaneSet) : UnitWork s (s.causeOff src scope) :=
  ((UnitWork.refl s).modFlt _).modFlt _

theorem unitWork_retire (s : State) (m : LaneSet) : UnitWork s (s.retire m) :=
  ((UnitWork.refl s).wr _).trans (unitWork_withdrawClose _ _)

theorem unitWork_recurrence (s : State) (src : Nat) (m : LaneSet) : UnitWork s (s.recurrence src m) := by
  unfold State.recurrence
  dsimp only
  split
  · exact (UnitWork.refl s).modFlt _
  · exact (((UnitWork.refl s).modFlt _).wr _ blockBase_le_add).trans (unitWork_retire _ _)

theorem unitWork_pinFault (s : State) (cls : Nat) : UnitWork s (s.pinFault cls) := by
  unfold State.pinFault
  split
  · exact ((((UnitWork.refl s).wr _).wr _).wr _).modFlt _
  · exact .refl s

theorem unitWork_raiseNew (s : State) (src cls : Nat) (scope : Option LaneSet) : UnitWork s (s.raiseNew src cls scope) := by
  unfold State.raiseNew
  extract_lets m classed summed laned noted recorded triggered pinned marked recurred exited
  have hclassed : UnitWork s classed :=
    ((UnitWork.refl s).stickyMask _ blockBase_le_add).wr _ blockBase_le_add
  have hsummed : UnitWork s summed := (hclassed.wr _ blockBase_le_add).wr _ blockBase_le_add
  have hlaned : UnitWork s laned := by
    cases scope with
    | none => exact hsummed
    | some x => exact hsummed.wr _ blockBase_le_add
  have hrecorded : UnitWork s recorded := (hlaned.setJournal _).modFlt _
  have htriggered : UnitWork s triggered := hrecorded.when (unitWork_capEvent _ 4)
  have hpinned : UnitWork s pinned := htriggered.trans (unitWork_pinFault _ cls)
  have hmarked : UnitWork s marked := hpinned.ite ((hpinned.wr _).modFlt _)
  have hrecurred : UnitWork s recurred := (hmarked.trans (unitWork_recurrence _ src m)).ite hmarked
  have hexited : UnitWork s exited := (hrecurred.each fun t n => unitWork_decideExit t n 0x11).ite hrecurred
  exact (hexited.trans (unitWork_safeEnter _ (by decide))).ite hexited

theorem unitWork_raise (s : State) (src cls : Nat) (scope : Option LaneSet) : UnitWork s (s.raise src cls scope) := by
  have hcause := unitWork_causeOn s src cls (scope.map s.widen)
  exact (hcause.modFlt _).ite (hcause.ite (hcause.trans (unitWork_raiseNew _ _ _ _)))

theorem unitWork_raiseOnce (s : State) (src cls : Nat) (scope : Option LaneSet) : UnitWork s (s.raiseOnce src cls scope) :=
  (unitWork_raise s src cls scope).trans (unitWork_causeOff _ src _)

/-! ### Metrology, earth-fault monitor and capture in a sample tick (R114, R116, R124, R208, R218, R219, R118) -/

theorem unitWork_latchSamples (s : State) (xs : List SampleIn) : UnitWork s (s.latchSamples xs) :=
  List.foldlRecOn xs _ (.refl s) fun _ ht _ _ => ht.modMet _

theorem base_le_addr_strClip (n k : Nat) : blockBase 2 ≤ (strClip n k).addr := by
  unfold strClip
  split <;> exact blockBase_le_add

theorem base_le_addr_strUnder (n k : Nat) : blockBase 2 ≤ (strUnder n k).addr := by
  unfold strUnder
  split <;> exact blockBase_le_add

theorem base_le_addr_strCount (n k : Nat) : blockBase 2 ≤ (strCount n k).addr := by
  unfold strCount
  split <;> exact blockBase_le_add

theorem unitWork_streamStep (s : State) (used : Bool) (st : Nat) : UnitWork s (s.streamStep used st) :=
  (((UnitWork.refl s).modMet _).when ((UnitWork.refl _).stickyMask _ (base_le_addr_strClip _ _))).when
    (((UnitWork.refl _).stickyMask _ (base_le_addr_strUnder _ _)).wr _ (base_le_addr_strCount _ _))

theorem unitWork_streamTicks (s : State) : UnitWork s s.streamTicks :=
  (UnitWork.refl s).each fun _ _ => (UnitWork.refl _).each fun t st => unitWork_streamStep t _ st

theorem unitWork_phaseTick (s : State) (overrun : Bool) (n : Nat) : UnitWork s (s.phaseTick overrun n) :=
  (UnitWork.refl s).modMet _

theorem unitWork_outletTick (s : State) (n : Nat) : UnitWork s (s.outletTick n) :=
  ((UnitWork.refl s).ite ((UnitWork.refl s).wr _ blockBase_le_add)).modMet _

theorem unitWork_stepTick (s : State) (ej : List DriveIn) (n : Nat) : UnitWork s (s.stepTick ej n) := by
  unfold State.stepTick
  split
  · split
    · exact ((UnitWork.refl s).modEfm _).ite (.refl s)
    · exact .refl s
  · exact .refl s

theorem unitWork_efmTick (s : State) (ej : List DriveIn) : UnitWork s (s.efmTick ej) := by
  unfold State.efmTick
  extract_lets chips steps
  have hchips : UnitWork s chips := (UnitWork.refl s).ite ((UnitWork.refl s).each fun t _ => (UnitWork.refl t).modEfm _)
  have hsteps : UnitWork s steps := hchips.each fun t n => (unitWork_stepTick t ej n).modEfm _
  exact hsteps.each fun t _ => (UnitWork.refl t).modEfm _

theorem unitWork_capStamp (s : State) (c : CapTrig) : UnitWork s (s.capStamp c) :=
  ((((UnitWork.refl s).wr _).wr _).wr _).wr _

theorem unitWork_capLate (s : State) : UnitWork s s.capLate := by
  unfold State.capLate
  split
  · exact (((((((unitWork_capStamp s _).wr _).wr _).wr _).wr _).wr _).wr _).modMet _
  · exact .refl s

theorem unitWork_capStart (s : State) (c : CapTrig) : UnitWork s (s.capStart c) :=
  ((((((unitWork_capStamp s c).wr _).wr _).wr _).wr _).wr _).modMet _

theorem unitWork_capLatch (s : State) : UnitWork s s.capLatch := (UnitWork.refl s).modMet _

theorem unitWork_capRecord (s : State) : UnitWork s s.capRecord := (UnitWork.refl s).modMet _

theorem unitWork_capTick (s : State) : UnitWork s s.capTick := by
  unfold State.capTick
  extract_lets latched
  have hlatched : UnitWork s latched := (unitWork_capLatch s).ite (.refl s)
  have hlevel : UnitWork s latched.capLevel.2 := hlatched.modMet _
  generalize latched.capLevel = triggered at hlevel ⊢
  obtain ⟨level, armed⟩ := triggered
  dsimp -zeta only at hlevel ⊢
  extract_lets released st recorded kinds trigger taken
  have hreleased : UnitWork s released := (hlevel.trans (unitWork_capLate _)).ite hlevel
  have hrecorded : UnitWork s recorded :=
    ((hreleased.trans (unitWork_capRecord _)).modMet _).ite hreleased
  have htaken : UnitWork s taken := hrecorded.modMet _
  exact hrecorded.ite ((htaken.trans (unitWork_capStart _ _)).ite (htaken.trans (unitWork_capPend _ _)))

/-- All the work of a sample tick behind the stamp of its time. -/
def State.tickWork (s : State) (xs : List SampleIn) (ej : List DriveIn) (overrun : Bool) : State :=
  if s.boot.mclk then
    let s := (s.latchSamples xs).streamTicks
    let s := s.each s.usedLanes fun s n => s.phaseTick overrun n
    ((s.each s.outlets State.outletTick).efmTick ej).capTick
  else s

theorem unitWork_tickWork (s : State) (xs : List SampleIn) (ej : List DriveIn) (overrun : Bool) :
    UnitWork s (s.tickWork xs ej overrun) := by
  unfold State.tickWork
  split
  · extract_lets streams phases
    have hstreams : UnitWork s streams := (unitWork_latchSamples s xs).trans (unitWork_streamTicks _)
    have hphases : UnitWork s phases := hstreams.each fun t n => unitWork_phaseTick t overrun n
    exact ((hphases.each unitWork_outletTick).trans (unitWork_efmTick _ ej)).trans (unitWork_capTick _)
  · exact .refl s

/-! ## A sample tick (R43, R54) -/

/-- The stamp of a sample tick's time: one tick more in the frame. -/
def State.stampTick (s : State) : State := s.modClk fun c => { c with sample := c.sample + 1, tickInFrame := c.tickInFrame + 1 }

/-- An overrun of the tick is counted and raised (R54). -/
def State.sampleOverrun (s : State) (overrun : Bool) : State :=
  if overrun then (s.count F.TCK_OVR_SAMPLE 1).raiseOnce 0x00 1 none else s

theorem exec_sampleTick_off {s : State} (h : s.framesRun = false ∨ s.edgeDue = true) (xs : List SampleIn) (ej : List DriveIn)
    (overrun : Bool) : exec (.sampleTick xs ej overrun) s = .next s := by
  change execSampleTick xs ej overrun s = _
  simp [execSampleTick, h]

theorem exec_sampleTick_on {s : State} (hrun : s.framesRun = true) (hdue : s.edgeDue = false) (xs : List SampleIn) (ej : List DriveIn)
    (overrun : Bool) :
    exec (.sampleTick xs ej overrun) s = .next ((s.stampTick.sampleOverrun overrun).tickWork xs ej overrun) := by
  change execSampleTick xs ej overrun s = _
  simp only [execSampleTick, hrun, hdue, Bool.not_true, Bool.or_self, Bool.false_eq_true, if_false]
  rfl

/-- An overrun changes the collector's and the units' own parts, and adds to its counter. -/
theorem sampleOverrun_spec (s : State) (overrun : Bool) : Frame unitParts s (s.sampleOverrun overrun) ∧
    (s.sampleOverrun overrun).rd F.TCK_OVR_SAMPLE =
      if overrun then min F.TCK_OVR_SAMPLE.max (s.rd F.TCK_OVR_SAMPLE + 1) else s.rd F.TCK_OVR_SAMPLE := by
  cases overrun with
  | false => exact ⟨.refl _ s, rfl⟩
  | true =>
    have hraise := unitWork_raiseOnce (s.count F.TCK_OVR_SAMPLE 1) 0x00 1 none
    have hcount : Frame [.regs] s (s.count F.TCK_OVR_SAMPLE 1) := (regsBut_wr s F.TCK_OVR_SAMPLE _ rfl).1
    exact ⟨(hcount.mono (by decide)).trans hraise.1,
      (hraise.rd_eq rfl (by decide)).trans (rd_count s F.TCK_OVR_SAMPLE 1 ⟨by decide, .inl rfl⟩)⟩

/-- Behind the stamp of its time a tick keeps the clocks, the memory and the billing unit, and counts its overrun. -/
theorem sampleTick_spec (s : State) (xs : List SampleIn) (ej : List DriveIn) (overrun : Bool) :
    let t := (s.sampleOverrun overrun).tickWork xs ej overrun
    Frame unitParts s t ∧ t.rd F.TCK_OVR_SAMPLE =
      if overrun then min F.TCK_OVR_SAMPLE.max (s.rd F.TCK_OVR_SAMPLE + 1) else s.rd F.TCK_OVR_SAMPLE := by
  obtain ⟨hframe, hcount⟩ := sampleOverrun_spec s overrun
  have hwork := unitWork_tickWork (s.sampleOverrun overrun) xs ej overrun
  exact ⟨hframe.trans hwork.1, (hwork.rd_eq rfl (by decide)).trans hcount⟩

/-- Settles O58: a tick is its stamp and the units' work, an edge row is the edge under its condition, the first step of an edge
moves the clocks, the period and the tick number, and stepping is decided as R49 has it. -/
theorem edgesAdvanceTime : Obligations.EdgesAdvanceTime := by
  unfold Obligations.EdgesAdvanceTime
  refine ⟨fun s xs ej ov => ⟨fun h => exec_sampleTick_off h xs ej ov, fun hrun hdue hmclk => ?_, fun hrun hdue => ?_, ?_⟩,
    fun s inp ov => ⟨fun hrun hdue => ?_, fun hrun hdue => ?_, fun hrun => ?_, exec_launchEdge s inp ov, exec_ledgerSecondEdge s inp ov,
      exec_tariffIntervalEdge s inp ov, exec_periodChangeEdge s inp ov⟩,
    fun s => ⟨rd_time_timeStep s, ?_, rd_frame_timeStep s, ?_, fun h => ?_, period_timeStep_not_due, rd_tick_timeStep s,
      rd_wallTick_within, rd_wallTick_carry, wallTick_unpowered, frame_timeStep s⟩,
    fun s allowed => ?_⟩
  · have hidle : (s.stampTick.sampleOverrun false).tickWork xs ej false = s.stampTick := if_neg (Bool.eq_false_iff.1 hmclk)
    exact ⟨_, (exec_sampleTick_on hrun hdue xs ej false).trans (congrArg _ hidle), rfl, rfl, frame_modClk s _⟩
  · obtain ⟨hframe, hcount⟩ := sampleTick_spec s.stampTick xs ej ov
    have hclk := hframe .clk (by decide)
    exact ⟨_, exec_sampleTick_on hrun hdue xs ej ov, (congrArg ClkState.sample hclk :), (congrArg ClkState.tickInFrame hclk :),
      (congrArg ClkState.frame hclk :), hframe .mem (by decide), hframe .bil (by decide), hcount⟩
  · simp [State.edgeDue]
  · rw [exec_controlFrameEdge, edge_due hrun hdue]
  · rw [exec_controlFrameEdge, edge_not_due hrun hdue]
  · rw [exec_controlFrameEdge, edge_no_frames hrun]
  · rw [clk_timeStep]
  · rw [clk_timeStep]
  · obtain ⟨hperiod, hmissed⟩ := period_timeStep_due h
    exact ⟨hperiod, fun g hg _ => hmissed g hg⟩
  · have hsteps := stepping_stepDecide_iff s allowed
    obtain ⟨hmin, hmax, hplain⟩ := frameLen_stepDecide s allowed
    exact ⟨hmin, hmax, hplain, frame_stepDecide s allowed, hsteps.trans (frameSteps_iff s allowed),
      fun h hstart => rd_stepped_stepDecide (hsteps.1 h) hstart, fun h => ofs_stepDecide (hsteps.1 h)⟩

end Sys2Proof.Machine
end

