-- ==== Sys2Proof/Proofs/RegisterMap.lean ====
section
/-!
PROOFS. The register map (R62, R63, R74): which row lies at an address, and the complement pairs at reset.
-/

namespace Sys2Proof.Machine

open Sys2Proof

/-! ## The copy of a row at an offset -/

/-- A row found at an offset stands there with its indices, in range, and a byte of the word found. -/
theorem RegDesc.of_at?_eq_some {d : RegDesc} {o i j w : Nat} (h : d.at? o = some (i, j, w)) :
    i < d.n1 ∧ j < d.n2 ∧ w < d.words ∧ ∃ z < 4 * d.words, w = z / 4 ∧ o = d.ofs + d.s1 * i + d.s2 * j + z := by
  unfold RegDesc.at? at h
  by_cases hlt : o < d.ofs
  · simp [hlt] at h
  · simp only [hlt, if_false, Option.ite_none_right_eq_some, Bool.and_eq_true, decide_eq_true_eq, Option.some.injEq,
      Prod.mk.injEq] at h
    obtain ⟨⟨⟨hi, hj⟩, hz⟩, rfl, rfl, rfl⟩ := h
    refine ⟨hi, hj, by omega, _, hz, rfl, ?_⟩
    have hx : ∀ s x : Nat, s * (if s = 0 then 0 else x / s) + (if s = 0 then x else x % s) = x := by
      intro s x
      split
      · simp [*]
      · exact Nat.div_add_mod x s
    have h1 := hx d.s1 (o - d.ofs)
    have h2 := hx d.s2 (if d.s1 = 0 then o - d.ofs else (o - d.ofs) % d.s1)
    omega

/-- Do the copies of a row fit their strides? -/
def RegDesc.fits (d : RegDesc) : Bool :=
  decide (if d.s1 = 0 then d.n1 ≤ 1 else d.s2 * (d.n2 - 1) + 4 * d.words ≤ d.s1) &&
    decide (if d.s2 = 0 then d.n2 ≤ 1 else 4 * d.words ≤ d.s2)

/-- Quotient and remainder of an index and a rest within its stride. -/
theorem div_mod_of_stride {s n len i r : Nat} (hfit : if s = 0 then n ≤ 1 else len ≤ s) (hi : i < n) (hr : r < len) :
    (if s = 0 then 0 else (s * i + r) / s) = i ∧ (if s = 0 then s * i + r else (s * i + r) % s) = r := by
  by_cases hs : s = 0
  · subst hs
    simp only [if_true] at hfit ⊢
    omega
  · simp only [hs, if_false] at hfit ⊢
    rw [Nat.mul_add_div (by omega), Nat.mul_add_mod, Nat.div_eq_of_lt (by omega), Nat.mod_eq_of_lt (by omega)]
    exact ⟨rfl, rfl⟩

/-- The offset of a copy's word within its window. -/
theorem RegDesc.inner_lt {d : RegDesc} {j z : Nat} (hj : j < d.n2) (hz : z < 4 * d.words) :
    d.s2 * j + z < d.s2 * (d.n2 - 1) + 4 * d.words := by
  have := Nat.mul_le_mul_left d.s2 (show j ≤ d.n2 - 1 by omega)
  omega

/-- A word of a copy of a row that fits is found at its offset. -/
theorem RegDesc.at?_copy {d : RegDesc} (hfit : d.fits = true) {i j w : Nat} (hi : i < d.n1) (hj : j < d.n2) (hw : w < d.words) :
    d.at? (d.ofs + d.s1 * i + d.s2 * j + 4 * w) = some (i, j, w) := by
  simp only [RegDesc.fits, Bool.and_eq_true, decide_eq_true_eq] at hfit
  obtain ⟨hfit1, hfit2⟩ := hfit
  have hz : 4 * w < 4 * d.words := by omega
  obtain ⟨hi1, hr1⟩ := div_mod_of_stride hfit1 hi (RegDesc.inner_lt hj hz)
  obtain ⟨hj1, hz1⟩ := div_mod_of_stride hfit2 hj hz
  have hlt : ¬d.ofs + d.s1 * i + d.s2 * j + 4 * w < d.ofs := by omega
  have hsub : d.ofs + d.s1 * i + d.s2 * j + 4 * w - d.ofs = d.s1 * i + (d.s2 * j + 4 * w) := by omega
  unfold RegDesc.at?
  simp only [hlt, if_false, hsub, hi1, hr1, hj1, hz1]
  simp [hi, hj, hw]

/-! ## The row found at an address -/

/-- What one row answers to an offset: itself, its shadow, or nothing. -/
def RegDesc.hit? (d : RegDesc) (o : Nat) : Option RegHit :=
  match d.at? o with
  | some (i, j, w) => some ⟨d, i, j, w, false⟩
  | none => if d.shadow = 0 || o < d.shadow then none else (d.at? (o - d.shadow)).map fun x => ⟨d, x.1, x.2.1, x.2.2, true⟩

theorem findReg_eq_findSome? (o : Nat) (ds : List RegDesc) : findReg o ds = ds.findSome? (RegDesc.hit? · o) := by
  induction ds with
  | nil => rfl
  | cons d ds ih =>
    rw [List.findSome?_cons, findReg, ih, RegDesc.hit?]
    rcases d.at? o with _ | ⟨i, j, w⟩
    · by_cases hs : (d.shadow = 0 || decide (o < d.shadow)) = true
      · simp only [hs, if_true]
      · rcases hat : d.at? (o - d.shadow) with _ | ⟨i, j, w⟩ <;> simp [hs]
    · rfl

/-- The row of a hit stands at the offset, or its shadow does. -/
theorem RegDesc.of_hit?_eq_some {d : RegDesc} {o : Nat} {h : RegHit} (hh : d.hit? o = some h) :
    h.d = d ∧ (h.shadow = true → d.shadow ≠ 0) ∧
      ∃ x, d.at? x = some (h.i, h.j, h.w) ∧ o = if h.shadow then x + d.shadow else x := by
  unfold RegDesc.hit? at hh
  rcases hat : d.at? o with _ | ⟨i, j, w⟩
  · simp only [hat, Option.ite_none_left_eq_some, Option.map_eq_some_iff, Bool.or_eq_true, decide_eq_true_eq] at hh
    obtain ⟨hs, ⟨i, j, w⟩, hx, rfl⟩ := hh
    exact ⟨rfl, fun _ hz => hs (.inl hz), _, hx, by simp; omega⟩
  · simp only [hat, Option.some.injEq] at hh
    subst hh
    exact ⟨rfl, nofun, o, hat, by simp⟩

/-- A register found is a row of its block, and the word found is one of its words. -/
theorem of_regAt_eq_some {a : Nat} {h : RegHit} (hr : regAt a = some h) :
    h.d ∈ blockRegs (blockOf a) ∧ h.i < h.d.n1 ∧ h.j < h.d.n2 ∧ h.w < h.d.words := by
  rw [regAt, findReg_eq_findSome?] at hr
  obtain ⟨d, hd, hhit⟩ := List.exists_of_findSome?_eq_some hr
  obtain ⟨rfl, _, x, hat, _⟩ := RegDesc.of_hit?_eq_some hhit
  obtain ⟨hi, hj, hw, _⟩ := RegDesc.of_at?_eq_some hat
  exact ⟨hd, hi, hj, hw⟩

/-- The one row of a list that answers is the one found. -/
theorem findReg_eq_of_unique {o : Nat} {ds : List RegDesc} {d : RegDesc} {h : RegHit} (hd : d ∈ ds) (hh : d.hit? o = some h)
    (hother : ∀ e ∈ ds, e ≠ d → e.hit? o = none) : findReg o ds = some h := by
  rw [findReg_eq_findSome?]
  induction ds with
  | nil => simp at hd
  | cons e ds ih =>
    by_cases he : e = d
    · rw [List.findSome?_cons, he, hh]
    · rw [List.findSome?_cons, hother e List.mem_cons_self he]
      exact ih ((List.mem_cons.1 hd).resolve_left (Ne.symm he)) fun e' he' => hother e' (List.mem_cons_of_mem _ he')

/-! ## Windows of offsets -/

/-- Offsets that repeat: from `ofs`, `n` windows of `len` bytes each, `stride` apart. -/
structure Windows where
  ofs : Nat
  n : Nat
  stride : Nat
  len : Nat

/-- Does an offset lie in one of the windows? -/
def Windows.Has (p : Windows) (o : Nat) : Prop := ∃ i < p.n, ∃ r < p.len, o = p.ofs + p.stride * i + r

/-- Windows that share no offset: one lies wholly before the other, or both repeat at one stride and keep apart within it. -/
def Windows.apart (p q : Windows) : Bool :=
  decide (p.ofs + p.stride * (p.n - 1) + p.len ≤ q.ofs) || decide (q.ofs + q.stride * (q.n - 1) + q.len ≤ p.ofs) ||
    (decide (p.stride = q.stride) && decide (p.ofs % p.stride + p.len ≤ p.stride) &&
      decide (q.ofs % p.stride + q.len ≤ p.stride) &&
      (decide (p.ofs % p.stride + p.len ≤ q.ofs % p.stride) || decide (q.ofs % p.stride + q.len ≤ p.ofs % p.stride)))

/-- An offset of a window lies before the end of the last one. -/
theorem Windows.lt_of_has {p : Windows} {o : Nat} (h : p.Has o) : p.ofs ≤ o ∧ o < p.ofs + p.stride * (p.n - 1) + p.len := by
  obtain ⟨i, hi, r, hr, rfl⟩ := h
  have := Nat.mul_le_mul_left p.stride (show i ≤ p.n - 1 by omega)
  omega

/-- Within one stride an offset of a window lies where the first window does. -/
theorem Windows.mod_of_has {p : Windows} {o : Nat} (h : p.Has o) (hfit : p.ofs % p.stride + p.len ≤ p.stride) :
    p.ofs % p.stride ≤ o % p.stride ∧ o % p.stride < p.ofs % p.stride + p.len := by
  obtain ⟨i, _, r, hr, rfl⟩ := h
  have hmod : (p.ofs + p.stride * i + r) % p.stride = p.ofs % p.stride + r := by
    rw [Nat.add_right_comm, Nat.add_mul_mod_self_left, Nat.add_mod, Nat.mod_eq_of_lt (a := r) (by omega),
      Nat.mod_eq_of_lt (by omega)]
  omega

theorem Windows.not_has_of_apart {p q : Windows} (h : p.apart q = true) {o : Nat} (hp : p.Has o) : ¬q.Has o := by
  intro hq
  have hpl := Windows.lt_of_has hp
  have hql := Windows.lt_of_has hq
  simp only [Windows.apart, Bool.or_eq_true, Bool.and_eq_true, decide_eq_true_eq] at h
  rcases h with (h | h) | ⟨⟨⟨hstride, hpfit⟩, hqfit⟩, h⟩
  · omega
  · omega
  · have hpm := Windows.mod_of_has hp hpfit
    have hqm := Windows.mod_of_has hq (hstride ▸ hqfit)
    rw [← hstride] at hqm
    omega

/-- The windows of a row's own words. -/
def RegDesc.windows (d : RegDesc) : Windows := ⟨d.ofs, d.n1, d.s1, d.s2 * (d.n2 - 1) + 4 * d.words⟩

/-- The windows of a row's complement words. -/
def RegDesc.shadowWindows (d : RegDesc) : Windows := { d.windows with ofs := d.ofs + d.shadow }

theorem RegDesc.windows_has_of_at? {d : RegDesc} {o : Nat} {x : Nat × Nat × Nat} (h : d.at? o = some x) : d.windows.Has o := by
  obtain ⟨hi, hj, _, z, hz, _, rfl⟩ := RegDesc.of_at?_eq_some h
  exact ⟨x.1, hi, d.s2 * x.2.1 + z, RegDesc.inner_lt hj hz, by simp only [RegDesc.windows, Nat.add_assoc]⟩

theorem RegDesc.shadowWindows_has_of_at? {d : RegDesc} {o : Nat} {x : Nat × Nat × Nat} (h : d.at? o = some x) :
    d.shadowWindows.Has (o + d.shadow) := by
  obtain ⟨i, hi, r, hr, rfl⟩ := RegDesc.windows_has_of_at? h
  exact ⟨i, hi, r, hr, by simp only [RegDesc.shadowWindows, RegDesc.windows]; omega⟩

/-- Is a row clear of some windows, and its shadow too, if it has one? -/
def RegDesc.clearOf (d : RegDesc) (p : Windows) : Bool :=
  p.apart d.windows && (d.shadow == 0 || p.apart d.shadowWindows)

/-- A row that is clear of some windows answers to none of their offsets. -/
theorem RegDesc.hit?_eq_none {d : RegDesc} {p : Windows} (h : d.clearOf p = true) {o : Nat} (ho : p.Has o) : d.hit? o = none := by
  simp only [RegDesc.clearOf, Bool.and_eq_true, Bool.or_eq_true, beq_iff_eq] at h
  obtain ⟨hown, hshadow⟩ := h
  by_contra hne
  obtain ⟨h, hhit⟩ := Option.ne_none_iff_exists'.1 hne
  obtain ⟨-, hcrit, x, hat, rfl⟩ := RegDesc.of_hit?_eq_some hhit
  by_cases hs : h.shadow = true
  · rw [if_pos hs] at ho
    exact Windows.not_has_of_apart (hshadow.resolve_left (hcrit hs)) ho (RegDesc.shadowWindows_has_of_at? hat)
  · rw [if_neg hs] at ho
    exact Windows.not_has_of_apart hown ho (RegDesc.windows_has_of_at? hat)

/-! ## The pairs at reset (R74) -/

/-- Bytes of a block (R62). -/
def blockSize (b : Nat) : Nat := blockBase (b + 1) - blockBase b

/-- Blocks are made of whole pages of 64 KiB. -/
theorem blockOf_page (a : Nat) : blockOf (a / 0x10000 * 0x10000) = blockOf a := by
  simp only [blockOf, Nat.mul_div_cancel _ (show 0 < 0x10000 by decide)]

theorem blockBase_page : ∀ b < 20, blockBase b % 0x10000 = 0 := by decide

theorem blockOf_of_page : ∀ b < 19, ∀ q < 21, blockBase b ≤ q * 0x10000 → q * 0x10000 < blockBase (b + 1) →
    blockOf (q * 0x10000) = b := by decide

theorem blockBase_le_map : ∀ b < 20, blockBase b ≤ 21 * 0x10000 := by decide

theorem blockOf_blockBase_add {b o : Nat} (hb : b < 19) (ho : o < blockSize b) : blockOf (blockBase b + o) = b := by
  have hlow := blockBase_page b (by omega)
  have hhigh := blockBase_page (b + 1) (by omega)
  have hend := blockBase_le_map (b + 1) (by omega)
  unfold blockSize at ho
  rw [← blockOf_page]
  exact blockOf_of_page b hb _ (by omega) (by omega) (by omega)

/-- A register lies where its row is found in the block. -/
theorem regAt_blockBase_add {b o : Nat} (hb : b < 19) (ho : o < blockSize b) :
    regAt (blockBase b + o) = findReg o (blockRegs b) := by
  rw [regAt, blockOf_blockBase_add hb ho, Nat.add_sub_cancel_left]

/-- A critical row of block `b` and its shadow: within the block, apart from each other and from every other row. -/
def rowApart (b : Nat) (d : RegDesc) : Bool :=
  d.fits && decide (d.ofs + d.shadow + d.s1 * (d.n1 - 1) + d.windows.len ≤ blockSize b) && d.windows.apart d.shadowWindows &&
    (blockRegs b).all fun e => e == d || e.clearOf d.windows && e.clearOf d.shadowWindows

theorem rowApart_of_critical : ∀ b < 19, ∀ d ∈ blockRegs b, d.shadow ≠ 0 → rowApart b d = true := by decide

section
variable {b : Nat} {d : RegDesc} {i j w : Nat} (hb : b < 19) (hd : d ∈ blockRegs b) (hcrit : d.shadow ≠ 0) (hi : i < d.n1)
  (hj : j < d.n2) (hw : w < d.words)
include hb hd hcrit hi hj hw

/-- A word of a critical register and its complement are what lies at their addresses. -/
theorem regAt_critical :
    let o := d.ofs + d.s1 * i + d.s2 * j + 4 * w
    o + d.shadow < blockSize b ∧ regAt (blockBase b + o) = some ⟨d, i, j, w, false⟩ ∧
      regAt (blockBase b + (o + d.shadow)) = some ⟨d, i, j, w, true⟩ := by
  intro o
  have hrow := rowApart_of_critical b hb d hd hcrit
  simp only [rowApart, Bool.and_eq_true, decide_eq_true_eq, List.all_eq_true, Bool.or_eq_true, beq_iff_eq] at hrow
  obtain ⟨⟨⟨hfit, hsize⟩, hself⟩, hother⟩ := hrow
  have hat : d.at? o = some (i, j, w) := RegDesc.at?_copy hfit hi hj hw
  have hown := RegDesc.windows_has_of_at? hat
  have hsh := RegDesc.shadowWindows_has_of_at? hat
  have hnot : d.at? (o + d.shadow) = none := by
    by_contra hne
    obtain ⟨x, hx⟩ := Option.ne_none_iff_exists'.1 hne
    exact Windows.not_has_of_apart hself (RegDesc.windows_has_of_at? hx) hsh
  have hend : o + d.shadow < blockSize b := by
    have hlt := (Windows.lt_of_has hsh).2
    simp only [RegDesc.shadowWindows, RegDesc.windows] at hlt hsize
    omega
  refine ⟨hend, ?_, ?_⟩
  · rw [regAt_blockBase_add hb (by omega)]
    exact findReg_eq_of_unique hd (by rw [RegDesc.hit?, hat]) fun e he hne =>
      RegDesc.hit?_eq_none ((hother e he).resolve_left hne).1 hown
  · rw [regAt_blockBase_add hb hend]
    refine findReg_eq_of_unique hd ?_ fun e he hne => RegDesc.hit?_eq_none ((hother e he).resolve_left hne).2 hsh
    simp [RegDesc.hit?, hnot, hat, hcrit]

/-- The complement word resets to the complement. -/
theorem resetWord_shadow :
    let a := blockBase b + d.ofs + d.s1 * i + d.s2 * j + 4 * w
    resetWord (a + d.shadow) = ~~~(resetWord a) := by
  obtain ⟨hend, hown, hsh⟩ := regAt_critical hb hd hcrit hi hj hw
  have hbo := blockOf_blockBase_add hb hend
  have hbo' := blockOf_blockBase_add (o := d.ofs + d.s1 * i + d.s2 * j + 4 * w) hb (by omega)
  simp only [Nat.add_assoc (blockBase b)]
  simp only [resetWord, hown, hsh, RegHit.resetValue, hbo, hbo', if_true, Bool.false_eq_true, if_false]

end

/-- Settles O6: every critical row and its shadow lie apart from the rest of their block, so the shadow's word resets to the
complement of the row's own. -/
theorem shadowsResetToComplements : Obligations.ShadowsResetToComplements := by
  unfold Obligations.ShadowsResetToComplements
  intro b hb d hd hcrit i hi j hj w hw
  exact decide_eq_true (resetWord_shadow hb hd hcrit hi hj hw)

end Sys2Proof.Machine
end

