-- ==== Sys2Proof/Proofs/BusWrites.lean ====
section
/-!
PROOFS. Writes on the register bus (spec/04): where no register lies (R64), status events and their clears by sequence (R72, R73),
write controls (R68), critical words and their complements (R76).
-/

namespace Sys2Proof.Machine

open Sys2Proof

/-! ## The commands that write a register -/

theorem exec_registerWrite (a v : Word) (s : State) : exec (.registerWrite a v) s = .next (s.regWrite a.toNat v) := rfl

theorem exec_bufferedWrite (a v : Word) (s : State) : exec (.bufferedWrite a v) s = .next (s.regWrite a.toNat v) := rfl

theorem exec_criticalWrite (a v : Word) (s : State) : exec (.criticalWrite a v) s = .next (s.regWrite a.toNat v) := rfl

theorem exec_complementWrite (a v : Word) (s : State) : exec (.complementWrite a v) s = .next (s.regWrite a.toNat v) := rfl

theorem exec_statusClearWrite (a v : Word) (s : State) : exec (.statusClearWrite a v) s = .next (s.regWrite a.toNat v) := rfl

theorem exec_wctlWrite (b : Fin 19) (v : Word) (s : State) : exec (.wctlWrite b v) s = .next (s.regWrite (wctlAddr b) v) := rfl

theorem exec_wideRegisterRead (a : Word) (s : State) : exec (.wideRegisterRead a) s =
    .next ((s.busRead a.toNat).2.setBus { (s.busRead a.toNat).2.bus with readData := [(s.busRead a.toNat).1] }) := rfl

/-! ## Where no register lies (R64) -/

theorem regWrite_no_register {a : Nat} (h : regAt (a / 4 * 4) = none) (s : State) (v : Word) : s.regWrite a v = s := by
  unfold State.regWrite State.busWrite
  simp [h]

theorem busRead_no_register {a : Nat} (h : regAt (a / 4 * 4) = none) (s : State) : s.busRead a = (0, s) := by
  have hcap : a / 4 * 4 ≠ A.MET_CAP_DATA := fun e => absurd (e ▸ h) (by decide)
  have hjournal : a / 4 * 4 ≠ A.THM_JDATA := fun e => absurd (e ▸ h) (by decide)
  simp [State.busRead, h, hcap, hjournal]

/-- Settles O7: where the map has no register, a write is no write and a read is the word 0. -/
theorem unoccupiedLocationsIgnoreWrites : Obligations.UnoccupiedLocationsIgnoreWrites := by
  unfold Obligations.UnoccupiedLocationsIgnoreWrites
  intro s a v h
  rw [exec_registerWrite, exec_bufferedWrite, exec_criticalWrite, exec_complementWrite, exec_statusClearWrite,
    exec_wideRegisterRead, busRead_no_register h, regWrite_no_register h]
  exact ⟨rfl, rfl, rfl, rfl, rfl, rfl⟩

/-! ## Status events (R72) -/

theorem toNat_stickyWord (w : Word) {m : Nat} (hm : m < 2 ^ 24) :
    (stickyWord w m).toNat = ((w.toNat ||| m) + 2 ^ 24) % 2 ^ 32 := by
  rw [stickyWord, BitVec.toNat_add, BitVec.toNat_or, BitVec.toNat_ofNat, BitVec.toNat_ofNat, Nat.mod_eq_of_lt hm,
    Nat.mod_eq_of_lt (by omega : m < 2 ^ 32), Nat.mod_eq_of_lt (by decide : 2 ^ 24 < 2 ^ 32)]

/-- The sequence number advances by one, wrapping. -/
theorem seqOf_stickyWord (w : Word) {m : Nat} (hm : m < 2 ^ 24) : seqOf (stickyWord w m) = (seqOf w + 1) % 256 := by
  have hhigh : (w.toNat ||| m) / 2 ^ 24 = w.toNat / 2 ^ 24 := by
    rw [Nat.or_div_two_pow, Nat.div_eq_of_lt hm, Nat.or_zero]
  rw [seqOf, seqOf, toNat_stickyWord w hm]
  omega

/-- Below the sequence number the bits are added to those set. -/
theorem low_stickyWord (w : Word) {m : Nat} (hm : m < 2 ^ 24) : (stickyWord w m).toNat % 2 ^ 24 = w.toNat % 2 ^ 24 ||| m := by
  have hlow : (w.toNat ||| m) % 2 ^ 24 = w.toNat % 2 ^ 24 ||| m := by rw [Nat.or_mod_two_pow, Nat.mod_eq_of_lt hm]
  rw [toNat_stickyWord w hm, ← hlow]
  omega

/-- Settles O8: the word of a status event is the old one with the bits added below the sequence number, which goes up by one. -/
theorem statusEventsAdvanceTheSequence : Obligations.StatusEventsAdvanceTheSequence := by
  unfold Obligations.StatusEventsAdvanceTheSequence
  intro s a m hm
  rw [word_stickyMask]
  exact ⟨seqOf_stickyWord _ hm, low_stickyWord _ hm, regsBut_setWord s a _⟩

/-! ## Status cleared by sequence (R73) -/

theorem regWrite_eq_writePlain (s : State) {a : Nat} (v : Word) {h : RegHit} (hp : PlainAt a h) (hd : OutsideDma a h) :
    s.regWrite a v = s.writePlain h a v := by
  have ⟨ha, hr, _⟩ := hp
  rw [regWrite_eq_busWrite s v ha hr hd, busWrite_eq_writePlain s v hp]

/-- A clear with a stale sequence number is nothing but its count. -/
theorem writePlain_stale (s : State) {h : RegHit} {a : Nat} {v : Word} (hclear : v &&& h.bitsOf .sqc ≠ 0)
    (hseq : seqOf v ≠ seqOf (s.word a)) : s.writePlain h a v = s.staleClear a := by
  exact if_pos (by simpa [hseq, RegHit.bitsOf] using hclear)

theorem regsBut_staleClear (s : State) (a : Nat) : RegsBut [A.SYS_STALE] s (s.staleClear a) :=
  (regsBut_wr s F.SYS_STALE_COUNT _ rfl).trans (regsBut_wr _ F.SYS_STALE_BLOCK _ rfl)

theorem rd_count_staleClear (s : State) (a : Nat) :
    (s.staleClear a).rd F.SYS_STALE_COUNT = min 0xFFFF (s.rd F.SYS_STALE_COUNT + 1) := by
  rw [State.staleClear, rd_wr_same_register (f := F.SYS_STALE_BLOCK) (g := F.SYS_STALE_COUNT) _ _ (by decide) rfl rfl rfl
      (by decide) (by decide),
    rd_count s _ 1 ⟨by decide, .inl rfl⟩]
  rfl

theorem blockOf_le (a : Nat) : blockOf a ≤ 19 := by
  unfold blockOf
  split <;> omega

theorem rd_block_staleClear (s : State) (a : Nat) : (s.staleClear a).rd F.SYS_STALE_BLOCK = blockOf a := by
  have hle := blockOf_le a
  rw [State.staleClear, rd_wr _ F.SYS_STALE_BLOCK _ ⟨by decide, .inl rfl⟩]
  exact Nat.mod_eq_of_lt (lt_of_le_of_lt hle (by decide))

/-- The command bits of a DMA channel stand in a word of their own. -/
theorem dmaCtl_no_sqc : ∀ d ∈ blockRegs 3, d.s1 = 0x40 → d.ofs = 8 → ∀ w < d.words, d.mask .sqc w = 0 := by decide

/-- In a channel window of the DMA engine, but for the channel's command bits, a plain write is followed by the summaries. -/
theorem regWrite_dmaWindow (s : State) {a : Nat} (v : Word) {h : RegHit} (hp : PlainAt a h) (hd : ¬OutsideDma a h)
    (hctl : h.d.ofs ≠ 8) : s.regWrite a v = (s.writePlain h a v).showDma h.i := by
  have ⟨ha, hr, _⟩ := hp
  have hal : a / 4 * 4 = a := by omega
  simp only [OutsideDma, not_or, not_not] at hd
  unfold State.regWrite
  simp [hal, hr, hd, hctl, busWrite_eq_writePlain s v hp]

/-- Settles O9: a stale clear is the count of SYS_STALE and nothing else; in a DMA channel window the summaries follow it. -/
theorem staleClearsAreIgnoredWhole : Obligations.StaleClearsAreIgnoredWhole := by
  unfold Obligations.StaleClearsAreIgnoredWhole
  refine ⟨fun s a v h hp hd hclear hseq => ⟨_, ?_, rd_count_staleClear s a.toNat, rd_block_staleClear s a.toNat,
    regsBut_staleClear s a.toNat⟩, fun s a v h hp hd hclear hseq => ?_⟩
  · rw [exec_statusClearWrite, regWrite_eq_writePlain s v hp hd, writePlain_stale s hclear hseq]
  · have hctl : h.d.ofs ≠ 8 := by
      intro hofs
      obtain ⟨hmem, -, -, hw⟩ := of_regAt_eq_some hp.2.1
      simp only [OutsideDma, not_or, not_not] at hd
      obtain ⟨hblock, hwindow⟩ := hd
      rw [hblock] at hmem
      have hmask := dmaCtl_no_sqc h.d hmem hwindow hofs h.w hw
      exact hclear (by rw [RegHit.bitsOf, hmask]; simp)
    rw [exec_statusClearWrite, regWrite_dmaWindow s v hp hd hctl, writePlain_stale s hclear hseq]

/-- A clear with the current sequence number, outside the fault sources: the SQC bits written, but for those the block keeps. -/
def State.cleared (s : State) (h : RegHit) (a : Nat) (v : Word) : State :=
  s.setWord a (s.word a &&& ~~~(v &&& h.bitsOf .sqc &&& ~~~(BitVec.ofNat 32 (s.clearKept h a))))

theorem clearStatus_eq_cleared (s : State) {h : RegHit} {a : Nat} (v : Word) (hsrc : ¬(blockOf a = 2 ∧ h.d.ofs = 0x400)) :
    s.clearStatus h a v = s.cleared h a v := by
  unfold State.clearStatus
  rw [if_neg (by simpa using hsrc)]
  rfl

theorem getLsbD_ofNat_eq_bitOf (x i : Nat) : (BitVec.ofNat 32 x).getLsbD i = bitOf (x % 2 ^ 32) i := by
  rw [BitVec.getLsbD, BitVec.toNat_ofNat, Nat.testBit_eq_decide_div_mod_eq]
  rfl

/-- Bit by bit, a clear takes what is written as 1 and not kept. -/
theorem getLsbD_word_cleared (s : State) (h : RegHit) (a : Nat) (v : Word) {i : Nat} (hi : i < 32) :
    ((s.cleared h a v).word a).getLsbD i = ((s.word a).getLsbD i &&
      !(v.getLsbD i && (h.bitsOf .sqc).getLsbD i && !bitOf (s.clearKept h a % 2 ^ 32) i)) := by
  rw [State.cleared, word_setWord_self, ← getLsbD_ofNat_eq_bitOf]
  simp [hi]

/-- Settles O10: with the current sequence number the status bits written are cleared, but for those kept, and then the RW fields
and the command bits of the word, where it has any, take the write. -/
theorem matchingClearsClear : Obligations.MatchingClearsClear := by
  unfold Obligations.MatchingClearsClear
  intro s a v h hp hd hsrc hclear hseq hgood
  have hwrite : s.writePlain h a.toNat v = _ := writePlain_accepted s (.inr hseq) hgood
  rw [exec_statusClearWrite, regWrite_eq_writePlain s v hp hd, hwrite]
  simp only [hclear, if_false, clearStatus_eq_cleared s v hsrc]
  refine ⟨fun hrw hrwb hw1p hwo => ⟨?_, fun i hi => getLsbD_word_cleared s h a.toNat v hi, regsBut_setWord s _ _⟩,
    fun hrwb hcmd => ?_⟩
  · simp only [RegHit.bitsOf_of_not_has hrwb, writeBuffered_zero, State.takeRw, hrw, hw1p, hwo, Bool.or_self,
      Bool.false_eq_true, if_false]
    rfl
  · simp only [RegHit.bitsOf_of_not_has hrwb, writeBuffered_zero, hcmd, if_true]
    rfl

/-! ## Write controls (R68) -/

/-- The row of a write control, the same in every block. -/
def wctlRow : RegDesc :=
  ⟨0xfffc, 1, 0, 1, 0, 1, 0,
    [⟨8, 8, .ro, 0, [], false, false⟩, ⟨6, 4, .rw, 0, [], false, false⟩, ⟨0, 0, .rw, 0, [], false, false⟩]⟩

theorem regAt_wctlAddr {b : Nat} (hb : b < 19) : regAt (wctlAddr b) = some ⟨wctlRow, 0, 0, 0, false⟩ := by
  interval_cases b <;> rfl

theorem wctlAddr_aligned {b : Nat} (hb : b < 19) : wctlAddr b % 4 = 0 := by
  have hpage := blockBase_page b (by omega)
  unfold wctlAddr
  omega

/-- A write to a write control is guarded by its pending writes alone. -/
theorem busWrite_eq_writeWctl (s : State) {a : Nat} (v : Word) {h : RegHit} (ha : a % 4 = 0) (hr : regAt a = some h)
    (hofs : h.d.ofs = 0xFFFC) : s.busWrite a v = s.writeWctl a v := by
  have hal : a / 4 * 4 = a := by omega
  unfold State.busWrite
  simp [hal, hr, hofs]

theorem regWrite_wctlAddr (s : State) {b : Nat} (hb : b < 19) (v : Word) :
    s.regWrite (wctlAddr b) v = s.writeWctl (wctlAddr b) v := by
  have hal := wctlAddr_aligned hb
  have hr := regAt_wctlAddr hb
  rw [regWrite_eq_busWrite s v hal hr (.inr (by decide)), busWrite_eq_writeWctl s v hal hr rfl]

/-- Settles O13: the write control takes MODE and GROUP alone, and not while it shows PEND and they would change. -/
theorem writeControlGuarded : Obligations.WriteControlGuarded := by
  unfold Obligations.WriteControlGuarded
  intro s b v
  rw [exec_wctlWrite, regWrite_wctlAddr s b.isLt]
  refine ⟨fun hpend hchange => ?_, fun hfree => ⟨_, rfl, ?_⟩⟩
  · exact congrArg _ (if_pos (Bool.and_eq_true_iff.2 ⟨hpend, decide_eq_true hchange⟩))
  · have htake : s.writeWctl (wctlAddr b) v =
        s.setWord (wctlAddr b) ((s.word (wctlAddr b) &&& ~~~(0x71 : Word)) ||| (v &&& 0x71)) :=
      if_neg fun hblocked => by
        obtain ⟨hpend, hchange⟩ := Bool.and_eq_true_iff.1 hblocked
        rcases hfree with hfree | hsame
        · exact absurd hpend (hfree ▸ Bool.false_ne_true)
        · exact of_decide_eq_true hchange hsame
    rw [htake]
    exact ⟨word_setWord_self s _ _, regsBut_setWord s _ _⟩

/-! ## Critical words (R76) -/

/-- A write to a word of a critical register outside the DMA engine's channel windows. -/
theorem regWrite_eq_writeCritical (s : State) {a : Nat} (v : Word) {h : RegHit} (hc : CriticalAt a h) (hd : OutsideDma a h) :
    s.regWrite a v = s.writeCritical h a v := by
  obtain ⟨ha, hr, hshadow, hcrit, hwctl⟩ := hc
  have hal : a / 4 * 4 = a := by omega
  rw [regWrite_eq_busWrite s v ha hr hd]
  simp [State.busWrite, hal, hr, hshadow, hcrit, hwctl]

/-- `s` with `v` held for the word at `a`, in place of one held before. -/
def State.holdWord (s : State) (a : Nat) (v : Word) : State :=
  s.setBus { s.bus with held := (a, v) :: s.bus.held.filter fun p => p.1 ≠ a }

/-- `s` with nothing held for the word at `a`. -/
def State.dropHeld (s : State) (a : Nat) : State := s.setBus { s.bus with held := s.bus.held.filter fun p => p.1 ≠ a }

theorem frame_setBus (s : State) (b : BusState) : Frame [.bus] s (s.setBus b) := by
  intro p hp
  cases p
  case bus => simp at hp
  all_goals rfl

theorem heldWord_holdWord_self (s : State) (a : Nat) (v : Word) : (s.holdWord a v).heldWord a = some v := by
  simp [State.heldWord, State.holdWord]

/-- What is found is found in a part of the list that keeps it. -/
theorem find?_filter_of_imp {α : Type} {p q : α → Bool} (h : ∀ y, p y = true → q y = true) (xs : List α) :
    (xs.filter q).find? p = xs.find? p := by
  rw [List.find?_filter]
  congr 1
  funext y
  cases hp : p y with
  | false => simp
  | true => simp [h y hp]

theorem heldWord_dropHeld_ne (s : State) {a x : Nat} (hx : x ≠ a) : (s.dropHeld a).heldWord x = s.heldWord x := by
  rw [State.heldWord, State.heldWord, State.dropHeld, State.setBus_bus, find?_filter_of_imp]
  simp only [decide_eq_true_eq]
  rintro y rfl
  exact hx

theorem heldWord_holdWord_ne (s : State) {a x : Nat} (v : Word) (hx : x ≠ a) : (s.holdWord a v).heldWord x = s.heldWord x := by
  rw [← heldWord_dropHeld_ne s hx]
  simp [State.heldWord, State.holdWord, State.dropHeld, Ne.symm hx]

/-- A write to an unsealed critical word that has writable bits is held. -/
theorem writeCritical_eq_holdWord (s : State) {h : RegHit} {a : Nat} (v : Word) (hrwb : h.has .rwb = true)
    (hseal : s.sealed h a = none) : s.writeCritical h a v = s.holdWord a v := by
  have hmask : h.d.mask .rwb h.w ≠ 0 := by simpa [RegHit.has] using hrwb
  simp only [State.writeCritical, hseal, if_neg hmask]
  rfl

/-- Settles O14: the command holds the written word and nothing else. -/
theorem criticalWritesAreHeld : Obligations.CriticalWritesAreHeld := by
  unfold Obligations.CriticalWritesAreHeld
  intro s a v h hc hd hrwb hseal
  rw [exec_criticalWrite, regWrite_eq_writeCritical s v hc hd, writeCritical_eq_holdWord s v hrwb hseal]
  exact ⟨_, rfl, heldWord_holdWord_self s _ v, fun x hx => heldWord_holdWord_ne s v hx, frame_setBus s _⟩

/-! ## Complement writes (R76) -/

/-- A write to a word of a shadow outside the DMA engine's channel windows is one for the register's own word. -/
theorem regWrite_eq_writeCpl (s : State) {x : Nat} (v : Word) {h : RegHit} (hx : x % 4 = 0) (hr : regAt x = some h)
    (hshadow : h.shadow = true) (hwctl : h.d.ofs ≠ 0xFFFC) (hd : OutsideDma x h) :
    s.regWrite x v = s.writeCpl h (x - h.d.shadow) v := by
  have hal : x / 4 * 4 = x := by omega
  rw [regWrite_eq_busWrite s v hx hr hd]
  simp [State.busWrite, hal, hr, hshadow, hwctl]

/-- The complement of a held word in range commits it. -/
theorem writeCpl_match {s : State} {h : RegHit} {a : Nat} {w : Word} (hrwb : h.has .rwb = true) (hseal : s.sealed h a = none)
    (hheld : s.heldWord a = some w) (hgood : (s.dropHeld a).valueGood h a w.toNat = true) :
    s.writeCpl h a (~~~w) = (s.dropHeld a).writeBuffered a ((s.dropHeld a).critMask h a) w := by
  have hmask : h.d.mask .rwb h.w ≠ 0 := by simpa [RegHit.has] using hrwb
  have haccepted : ¬((decide (~~~w ≠ ~~~w) || !(s.dropHeld a).valueGood h a w.toNat) = true) := by simp [hgood]
  simp only [State.writeCpl, hseal, if_neg hmask, hheld]
  exact if_neg haccepted

/-! ### A commit over a stray waiting word

A commit starts from the word that waits for the next chip boundary where one waits for its address (R223), whatever block the
address lies in. Only words of the earth-fault monitor come to wait there, and O15 leaves that block out; but it is stated for
every state, with no word said about what waits, so a state that lists a waiting word of another block commits that word's bits. -/

/-- The shadow of CLU_XCFG as found in the register map: a critical register with bits that no field takes. -/
def xcfgShadow : RegHit where
  d := ⟨0x40, 1, 0, 1, 0, 1, 0x4000, [⟨31, 31, .rwb, 0, [], false, false⟩, ⟨15, 8, .rwb, 0x10, [(1, 255)], false, false⟩,
    ⟨6, 0, .rwb, 0x14, [(1, 50)], false, false⟩]⟩
  i := 0
  j := 0
  w := 0
  shadow := true

/-- The state after reset, with the reset value of CLU_XCFG held for its complement, and a word waiting in the earth-fault monitor's
list at the address of CLU_XCFG. -/
def strayWaiting : State :=
  (State.reset.setBus { held := [(A.CLU_XCFG, 0x1014)] }).setEfm { waiting := [(A.CLU_XCFG, 0x10000)] }

/-- What the matching complement write leaves. -/
def strayCommitted : State := (strayWaiting.dropHeld A.CLU_XCFG).writeBuffered A.CLU_XCFG 0x8000FF7F 0x1014

theorem exec_complementWrite_strayWaiting :
    exec (.complementWrite (BitVec.ofNat 32 (A.CLU_XCFG + 0x4000)) (~~~0x1014)) strayWaiting = .next strayCommitted := by
  have hwrite : strayWaiting.regWrite (A.CLU_XCFG + 0x4000) (~~~0x1014) = _ :=
    regWrite_eq_writeCpl strayWaiting (h := xcfgShadow) (~~~0x1014) rfl rfl rfl (by decide) (.inl (by decide))
  have hcommit : strayWaiting.writeCpl xcfgShadow A.CLU_XCFG (~~~0x1014) = strayCommitted := writeCpl_match rfl rfl rfl rfl
  exact congrArg _ (hwrite.trans hcommit)

/-- The committed word carries bit 16 of the waiting word, which CLU_XCFG neither showed nor was written. -/
theorem word_strayCommitted : strayCommitted.word A.CLU_XCFG = 0x11014 := rfl

/-- Refutes O15: with a word of another block in the earth-fault monitor's waiting list, the register takes bits of that word where
the commit mask has none. -/
theorem not_complementWritesCommitOrRefuse : ¬ Obligations.ComplementWritesCommitOrRefuse := by
  unfold Obligations.ComplementWritesCommitOrRefuse
  intro h
  obtain ⟨-, hheld⟩ := h strayWaiting (BitVec.ofNat 32 (A.CLU_XCFG + 0x4000)) (~~~0x1014) xcfgShadow rfl rfl rfl (by decide)
    (.inl (by decide)) (by decide) (by decide) rfl rfl
  obtain ⟨-, -, hmatch⟩ := hheld 0x1014 rfl
  obtain ⟨-, himmediate⟩ := hmatch rfl rfl
  have hbuffered : (strayWaiting.dropHeld A.CLU_XCFG).buffered 18 = false := rfl
  obtain ⟨t, ht, hword, -⟩ := himmediate hbuffered (by decide) rfl (by decide) (by decide) rfl rfl (by decide)
  rw [exec_complementWrite_strayWaiting] at ht
  obtain rfl : strayCommitted = t := by injection ht
  exact absurd (word_strayCommitted.symm.trans hword) (by decide)

end Sys2Proof.Machine
end

