-- ==== Sys2Proof/Proofs/PendingWrites.lean ====
section
/-!
PROOFS. Buffered writes held pending, what shows them, and the strobes that commit or drop them (R67 to R71).
-/

namespace Sys2Proof.Machine

open Sys2Proof

/-! ## What is pending is shown (R67, R69) -/

/-- PEND of one write control. -/
def State.showWctl (s : State) (b : Nat) : State :=
  s.setWord (wctlAddr b) (BitVec.ofNat 32 (setBits (s.word (wctlAddr b)).toNat 8 8 (b2n (s.pendIn b))))

/-- PEND of every write control. -/
def State.showWctls (s : State) : State := s.each blocksAll State.showWctl

/-- The groups of the blocks that hold pending writes. -/
def State.pendGroups (s : State) : Nat := blocksAll.foldl (fun m b => if s.pendIn b then m ||| 2 ^ s.groupIn b else m) 0

theorem showPend_eq (s : State) : s.showPend = s.showWctls.wr F.SYS_STROBE_PEND s.showWctls.pendGroups := rfl

/-- The registers that show what is pending. -/
theorem regsBut_showWctls (s : State) : RegsBut (blocksAll.map wctlAddr) s s.showWctls :=
  each_induction (.refl _ s) fun t ht b hb =>
    ht.trans ((regsBut_setWord t (wctlAddr b) _).mono (by simpa using ⟨b, hb, rfl⟩))

theorem regsBut_showPend (s : State) : RegsBut (A.SYS_STROBE :: blocksAll.map wctlAddr) s s.showPend := by
  rw [showPend_eq]
  exact ((regsBut_showWctls s).mono fun a ha => List.mem_cons_of_mem _ ha).trans
    ((regsBut_wr _ F.SYS_STROBE_PEND _ rfl).mono fun a ha => List.mem_cons.2 (.inl (List.mem_singleton.1 ha)))

theorem RegsBut.bus_eq {as : List Nat} {s t : State} (h : RegsBut as s t) : t.bus = s.bus := h.1 .bus (by decide)

/-- A write control lies in its block. -/
theorem blockOf_wctlAddr {b : Nat} (hb : b < 19) : blockOf (wctlAddr b) = b := by
  refine blockOf_blockBase_add hb ?_
  have hsize : ∀ b < 19, 0x10000 ≤ blockSize b := by decide
  have := hsize b hb
  omega

theorem wctlAddr_inj {b c : Nat} (hb : b < 19) (hc : c < 19) (h : wctlAddr b = wctlAddr c) : b = c := by
  rw [← blockOf_wctlAddr hb, h, blockOf_wctlAddr hc]

/-- A one-bit field replaced reads the bit. -/
theorem getLsbD_setBits_self (w : Word) {i : Nat} (hi : i < 32) (b : Bool) :
    (BitVec.ofNat 32 (setBits w.toNat i i (b2n b))).getLsbD i = b := by
  have hbits := bits_setBits w.toNat i i (b2n b) (Nat.le_refl i)
  rw [BitVec.getLsbD, BitVec.toNat_ofNat, Nat.testBit_mod_two_pow, Nat.testBit_eq_decide_div_mod_eq]
  rw [bits, Nat.add_sub_cancel_left] at hbits
  simp only [Nat.pow_one] at hbits
  rw [hbits]
  cases b <;> simp [hi, b2n]

/-- Each write control shows whether its block holds pending writes. -/
theorem pend_each_showWctl {bs : List Nat} (hbs : ∀ b ∈ bs, b < 19) {s : State} {b : Nat} (hb : b ∈ bs) :
    ((s.each bs State.showWctl).word (wctlAddr b)).getLsbD 8 = s.pendIn b := by
  induction bs generalizing s with
  | nil => simp at hb
  | cons c bs ih =>
    have hcons : s.each (c :: bs) State.showWctl = (s.showWctl c).each bs State.showWctl := rfl
    rw [hcons]
    by_cases hmem : b ∈ bs
    · exact ih (fun x hx => hbs x (List.mem_cons_of_mem _ hx)) hmem
    · obtain rfl : b = c := (List.mem_cons.1 hb).resolve_right hmem
      have hrest : ((s.showWctl b).each bs State.showWctl).word (wctlAddr b) = (s.showWctl b).word (wctlAddr b) := by
        refine each_induction (motive := fun t => t.word (wctlAddr b) = (s.showWctl b).word (wctlAddr b)) rfl fun t ht c hc => ?_
        refine (word_setWord_ne t (wctlAddr c) _ _ fun heq => hmem ?_).trans ht
        exact wctlAddr_inj (hbs b hb) (hbs c (List.mem_cons_of_mem _ hc)) heq ▸ hc
      rw [hrest, State.showWctl, word_setWord_self]
      exact getLsbD_setBits_self _ (by decide) _

theorem pend_showPend (s : State) {b : Nat} (hb : b < 19) : (s.showPend.word (wctlAddr b)).getLsbD 8 = s.pendIn b := by
  have hstrobe : wctlAddr b ∉ F.SYS_STROBE_PEND.words := by
    have hwords : F.SYS_STROBE_PEND.words = [0x40] := rfl
    simp only [hwords, List.mem_singleton, wctlAddr]
    omega
  rw [showPend_eq, (regsBut_wr _ F.SYS_STROBE_PEND _ rfl).2 _ hstrobe]
  exact pend_each_showWctl (fun b hb => List.mem_range.1 hb) (List.mem_range.2 hb)

/-! ## A write held pending (R67) -/

/-- The pending write of an address. -/
def State.pendAt (s : State) (a : Nat) : PendWrite := lk (fun _ => {}) s.bus.pend a

/-- A pending write joined by the bits `mask` of `val`. -/
def PendWrite.join (p : PendWrite) (mask val : Word) : PendWrite := ⟨p.mask ||| mask, (p.val &&& ~~~mask) ||| (val &&& mask)⟩

/-- `s` with a pending write joined, and not yet shown. -/
def State.joinPend (s : State) (a : Nat) (mask val : Word) : State :=
  s.setBus { s.bus with pend := put (fun _ => {}) s.bus.pend a ((s.pendAt a).join mask val) }

theorem hold_eq_showPend (s : State) (a : Nat) (mask val : Word) : s.hold a mask val = (s.joinPend a mask val).showPend := rfl

theorem bus_hold (s : State) (a : Nat) (mask val : Word) : (s.hold a mask val).bus = (s.joinPend a mask val).bus :=
  (regsBut_showPend _).bus_eq

theorem pendAt_hold_self (s : State) (a : Nat) (mask val : Word) : (s.hold a mask val).pendAt a = (s.pendAt a).join mask val := by
  rw [State.pendAt, bus_hold]
  exact lk_put_self _ _ _ _

theorem pendAt_hold_ne (s : State) {a x : Nat} (mask val : Word) (hx : x ≠ a) : (s.hold a mask val).pendAt x = s.pendAt x := by
  rw [State.pendAt, bus_hold]
  exact lk_put_ne _ _ _ _ _ hx

/-- A key that reads other than the default is listed. -/
theorem mem_of_lk_ne {α : Type} {d : Nat → α} {m : List (Nat × α)} {x : Nat} (h : lk d m x ≠ d x) : ∃ p ∈ m, p.1 = x := by
  induction m with
  | nil => exact absurd rfl h
  | cons e m ih =>
    by_cases he : x = e.1
    · exact ⟨e, List.mem_cons_self, he.symm⟩
    · obtain ⟨p, hp, hx⟩ := ih (by simpa [lk, he] using h)
      exact ⟨p, List.mem_cons_of_mem _ hp, hx⟩

/-- A block with a write of some bits held for it holds pending writes. -/
theorem pendIn_of_pendAt {s : State} {a : Nat} (h : s.pendAt a ≠ {}) : s.pendIn (blockOf a) = true := by
  obtain ⟨p, hp, rfl⟩ := mem_of_lk_ne h
  exact List.any_eq_true.2 ⟨p, hp, decide_eq_true rfl⟩

theorem PendWrite.join_ne_default (p : PendWrite) {mask : Word} (val : Word) (hmask : mask ≠ 0) : p.join mask val ≠ {} := by
  intro h
  have hor : p.mask ||| mask = 0 := congrArg PendWrite.mask h
  exact hmask (BitVec.or_eq_zero_iff.1 hor).2

/-- While a write is held, its block's write control shows PEND. -/
theorem pend_hold (s : State) {a : Nat} {mask : Word} (val : Word) (ha : blockOf a < 19) (hmask : mask ≠ 0) :
    ((s.hold a mask val).word (wctlAddr (blockOf a))).getLsbD 8 = true := by
  rw [hold_eq_showPend, pend_showPend _ ha]
  refine pendIn_of_pendAt (a := a) ?_
  have hjoin : (s.joinPend a mask val).pendAt a = (s.pendAt a).join mask val := lk_put_self _ _ _ _
  rw [hjoin]
  exact (s.pendAt a).join_ne_default val hmask

theorem wordsBut_hold (s : State) (a : Nat) (mask val : Word) :
    WordsBut (A.SYS_STROBE :: blocksAll.map wctlAddr) s (s.hold a mask val) :=
  (regsBut_showPend (s.joinPend a mask val)).2

theorem frame_hold (s : State) (a : Nat) (mask val : Word) : Frame [.regs, .bus] s (s.hold a mask val) :=
  ((frame_setBus s _).mono (by simp)).trans ((regsBut_showPend _).1.mono (by simp))

theorem writeBuffered_buffered {s : State} {a : Nat} {mask : Word} (val : Word) (hmask : mask ≠ 0)
    (hb : s.buffered (blockOf a) = true) : s.writeBuffered a mask val = s.hold a mask val := by
  unfold State.writeBuffered
  rw [if_neg hmask, if_pos hb]

theorem writeBuffered_immediate {s : State} {a : Nat} {mask : Word} (val : Word) (hmask : mask ≠ 0)
    (hb : s.buffered (blockOf a) = false) : s.writeBuffered a mask val = s.commitSet [(a, ⟨mask, val⟩)] := by
  unfold State.writeBuffered
  rw [if_neg hmask, if_neg (by simp [hb])]

/-- Settles O12: the write is one of the buffered bits alone, which waits in a buffered block and is committed in an immediate one. -/
theorem bufferedWritesWait : Obligations.BufferedWritesWait := by
  unfold Obligations.BufferedWritesWait
  intro s a v h hp hd hblock hsqc hgood hrwb hrw hw1p hwo
  have hwrite : s.writePlain h a.toNat v = s.writeBuffered a.toNat (h.bitsOf .rwb) v := by
    rw [writePlain_accepted s (.inl hsqc) hgood]
    simp [hsqc, State.takeRw, hrw, hw1p, hwo]
  rw [exec_bufferedWrite, regWrite_eq_writePlain s v hp hd, hwrite]
  refine ⟨fun hbuf => ⟨_, rfl, ?_⟩, fun himm => ?_⟩
  · rw [writeBuffered_buffered v hrwb hbuf]
    exact ⟨pendAt_hold_self s _ _ v, fun x hx => pendAt_hold_ne s _ v hx, pend_hold s v hblock hrwb, wordsBut_hold s _ _ v,
      frame_hold s _ _ v⟩
  · rw [writeBuffered_immediate v hrwb himm]

/-! ## Strobes (R69, R70) -/

theorem bitOf_eq_testBit (v i : Nat) : bitOf v i = v.testBit i := (Nat.testBit_eq_decide_div_mod_eq ..).symm

/-- The bits that a pass over a list of numbers gathers. -/
theorem testBit_foldl_or (p : Nat → Bool) (gs : List Nat) (m i : Nat) :
    (gs.foldl (fun x g => if p g then x ||| 2 ^ g else x) m).testBit i = (m.testBit i || (decide (i ∈ gs) && p i)) := by
  induction gs generalizing m with
  | nil => simp
  | cons g gs ih =>
    rw [List.foldl_cons, ih]
    by_cases hi : i = g
    · subst hi
      cases hp : p i <;> simp
    · cases hp : p g <;> simp [hi, Nat.testBit_two_pow_of_ne (Ne.symm hi)]

/-- GO asks for the groups written whose strobe is not armed. -/
theorem goReq_strobeGo (s : State) (m : BitVec 8) {g : Nat} (hg : g < 8) :
    (s.strobeGo m.toNat).clk.goReq.getLsbD g = (s.clk.goReq.getLsbD g || (m.getLsbD g && !s.on (F.SYS_STRg_CTL_ARMED g))) := by
  unfold State.strobeGo
  rw [clk_modClk]
  dsimp only
  rw [BitVec.getLsbD_or, BitVec.getLsbD_ofNat, testBit_foldl_or, bitOf_eq_testBit]
  simp [hg, BitVec.getLsbD]

theorem strobeGo_eq_setClk (s : State) (m : Nat) :
    s.strobeGo m = s.setClk { s.clk with goReq := (s.strobeGo m).clk.goReq } := rfl

/-- `s` without the pending writes of the blocks whose group is in `m`, and not yet shown. -/
def State.dropGroups (s : State) (m : Nat) : State :=
  s.setBus { s.bus with pend := s.bus.pend.filter fun p => !bitOf m (s.groupIn (blockOf p.1)) }

theorem discard_eq_showPend (s : State) (m : Nat) : s.discard m = (s.dropGroups m).showPend := rfl

/-- DROP keeps the pending writes of the other groups. -/
theorem pend_discard (s : State) (m : Nat) :
    (s.discard m).bus.pend = s.bus.pend.filter fun p => !bitOf m (s.groupIn (blockOf p.1)) := by
  rw [discard_eq_showPend, (regsBut_showPend _).bus_eq]
  rfl

theorem wordsBut_discard (s : State) (m : Nat) : WordsBut (A.SYS_STROBE :: blocksAll.map wctlAddr) s (s.discard m) := by
  rw [discard_eq_showPend]
  exact (regsBut_showPend (s.dropGroups m)).2

theorem frame_discard (s : State) (m : Nat) : Frame [.regs, .bus] s (s.discard m) := by
  rw [discard_eq_showPend]
  exact ((frame_setBus s _).mono (by simp)).trans ((regsBut_showPend _).1.mono (by simp))

/-- Ticks from the current allocation tick to the one a strobe waits for, modulo 2^32. -/
def State.strobeAhead (s : State) (g : Nat) : Nat := (s.rd (F.SYS_STRg_TICK_TICK g) + 2 ^ 32 - s.rd F.TCK_ALC_TICK_K) % 2 ^ 32

theorem strobeArm_eq (s : State) (g : Nat) : s.strobeArm g =
    if 1 ≤ s.strobeAhead g ∧ s.strobeAhead g ≤ 2 ^ 31 - 1 then s.wrB (F.SYS_STRg_CTL_ARMED g) true
    else s.stickyBit F.SYS_STR_STAT_REFUSED g := by
  have hle : s.strobeAhead g ≤ 2 ^ 31 - 1 ↔ s.strobeAhead g < 2 ^ 31 := by omega
  have harm : s.strobeArm g = if 1 ≤ s.strobeAhead g && s.strobeAhead g < 2 ^ 31 then s.wrB (F.SYS_STRg_CTL_ARMED g) true
      else s.stickyBit F.SYS_STR_STAT_REFUSED g := rfl
  simp only [harm, Bool.and_eq_true, decide_eq_true_eq, hle]

theorem Fld.words_eq_singleton {f : Fld} (hhi : f.hi < 32) : f.words = [f.addr] := by
  rw [Fld.words, Nat.div_eq_of_lt hhi]
  rfl

/-- A field within one word without a shadow changes its word alone. -/
theorem regsBut_wr_word (s : State) (f : Fld) (v : Nat) (hhi : f.hi < 32) (hsh : f.sh = 0) : RegsBut [f.addr] s (s.wr f v) :=
  Fld.words_eq_singleton hhi ▸ regsBut_wr s f v hsh

/-- ARMED of a strobe reads the bit it is set to. -/
theorem rd_armed_wrB (s : State) (g : Nat) (b : Bool) : (s.wrB (F.SYS_STRg_CTL_ARMED g) b).rd (F.SYS_STRg_CTL_ARMED g) = b2n b := by
  rw [State.wrB, rd_wr s _ _ ⟨Nat.le_refl _, .inl rfl⟩]
  cases b <;> rfl

theorem regsBut_armed_wrB (s : State) (g : Nat) (b : Bool) : RegsBut [A.SYS_STRg_CTL g] s (s.wrB (F.SYS_STRg_CTL_ARMED g) b) :=
  regsBut_wr_word s (F.SYS_STRg_CTL_ARMED g) (b2n b) (by decide : 2 < 32) rfl

/-- Settles O16: GO adds to the requests of the next edge, DROP filters what is pending, ARM and CANCEL write ARMED, and an ARM
for a tick not ahead is a status event. -/
theorem strobesAreRequestedArmedAndCancelled : Obligations.StrobesAreRequestedArmedAndCancelled := by
  unfold Obligations.StrobesAreRequestedArmedAndCancelled
  have hexec : ∀ (s : State) (g : Fin 8), exec (.strobeArm g) s = .next (s.strobeArm g) := fun _ _ => rfl
  refine ⟨⟨fun s m => ⟨s.strobeGo m.toNat, rfl, fun g hg => goReq_strobeGo s m hg, strobeGo_eq_setClk s m.toNat⟩,
    fun s m => ⟨s.discard m.toNat, rfl, pend_discard s m.toNat, wordsBut_discard s m.toNat, frame_discard s m.toNat⟩⟩,
    fun s g => ⟨fun (hahead : 1 ≤ s.strobeAhead g ∧ s.strobeAhead g ≤ 2 ^ 31 - 1) => ?_,
      fun (hpast : ¬(1 ≤ s.strobeAhead g ∧ s.strobeAhead g ≤ 2 ^ 31 - 1)) => ?_, ?_⟩⟩
  · rw [hexec, strobeArm_eq, if_pos hahead]
    exact ⟨_, rfl, rd_armed_wrB s g true, regsBut_armed_wrB s g true⟩
  · have hstat : A.SYS_STRg_CTL g ≠ A.SYS_STR_STAT := by unfold A.SYS_STRg_CTL A.SYS_STR_STAT; omega
    have hregs : RegsBut [A.SYS_STR_STAT] s (s.stickyBit F.SYS_STR_STAT_REFUSED g) := regsBut_setWord s _ _
    rw [hexec, strobeArm_eq, if_neg hpast]
    exact ⟨_, rfl, word_stickyMask s _ _, hregs.2.rd_eq rfl (by simpa [F.SYS_STRg_CTL_ARMED] using hstat), hregs⟩
  · exact ⟨s.strobeCancel g, rfl, rd_armed_wrB s g false, regsBut_armed_wrB s g false⟩

end Sys2Proof.Machine
end

