-- ==== Sys2Proof/Proofs/ReadsAndHostPort.lean ====
section
/-!
PROOFS. Reads of wide registers (R3, R74, R75), and writes through the host port (R65, R352, R353, R371).
-/

namespace Sys2Proof.Machine

open Sys2Proof

/-! ## Reads (R3, R75) -/

/-- The check of a pair at the read of its word (R74). -/
def State.checkedAt (s : State) (a : Nat) : State := s.when (s.pairBad a) State.pairUse

theorem checkedAt_not_critical (s : State) {a : Nat} {h : RegHit} (hr : regAt a = some h) (hcrit : h.d.shadow = 0) :
    s.checkedAt a = s := by
  simp [State.checkedAt, State.when, State.pairBad, hr, hcrit]

/-- What is captured of a word. -/
def State.captAt (s : State) (a : Nat) : Option (Nat × Word) := s.bus.capt.find? fun p => p.1 = a

section
variable (s : State) {a : Nat} {h : RegHit} (ha : a % 4 = 0) (hr : regAt a = some h) (hcap : a ≠ A.MET_CAP_DATA)
  (hjournal : a ≠ A.THM_JDATA)
include ha hr hcap hjournal

/-- The read of the lowest word of a quantity captures. -/
theorem busRead_lowest (hlow : h.d.lowWord h.w = h.w) (hown : h.shadow = false) :
    s.busRead a = ((s.checkedAt a).word a, (s.checkedAt a).capture h a) := by
  have hal : a / 4 * 4 = a := by omega
  unfold State.busRead
  simp [hal, hr, hcap, hjournal, hlow, hown, State.checkedAt]

/-- The read of another word takes what is captured of it, or else the word. -/
theorem busRead_other (hother : h.d.lowWord h.w ≠ h.w ∨ h.shadow = true) :
    s.busRead a = ((((s.checkedAt a).captAt a).map (·.2)).getD ((s.checkedAt a).word a), s.checkedAt a) := by
  have hal : a / 4 * 4 = a := by omega
  have hnot : (decide (h.d.lowWord h.w = h.w) && !h.shadow) = false := by
    rcases hother with hne | hsh
    · simp [hne]
    · simp [hsh]
  unfold State.busRead
  simp only [hal, hr, if_neg hcap, if_neg hjournal, hnot, State.checkedAt, State.captAt, Bool.false_eq_true, if_false]
  split <;> simp [*]

end

/-- What is captured after a capture: the words it covers, and what was captured of others. -/
theorem capt_capture (s : State) (h : RegHit) (a : Nat) : (s.capture h a).bus.capt =
    (captured h a).map (fun x => (x, s.word x)) ++ s.bus.capt.filter fun p => !(captured h a).contains p.1 := by
  unfold State.capture
  by_cases hempty : (captured h a).isEmpty = true
  · rw [List.isEmpty_iff] at hempty
    simp [hempty]
  · simp only [hempty]
    rfl

/-- A list of keys with a value each has the key's own value under it. -/
theorem find?_map_key {α : Type} (f : Nat → α) {xs : List Nat} {x : Nat} (hx : x ∈ xs) :
    (xs.map fun y => (y, f y)).find? (fun p => p.1 = x) = some (x, f x) := by
  induction xs with
  | nil => simp at hx
  | cons y ys ih =>
    by_cases hy : y = x
    · simp [hy]
    · simpa [hy] using ih ((List.mem_cons.1 hx).resolve_left (Ne.symm hy))

theorem captAt_capture_mem (s : State) {h : RegHit} {a x : Nat} (hx : x ∈ captured h a) :
    (s.capture h a).captAt x = some (x, s.word x) := by
  rw [State.captAt, capt_capture, List.find?_append, find?_map_key _ hx]
  rfl

theorem captAt_capture_not_mem (s : State) {h : RegHit} {a x : Nat} (hx : x ∉ captured h a) :
    (s.capture h a).captAt x = s.captAt x := by
  have hnone : ((captured h a).map fun y => (y, s.word y)).find? (fun p => p.1 = x) = none := by
    simp only [List.find?_eq_none, List.mem_map, decide_eq_true_eq]
    rintro _ ⟨y, hy, rfl⟩ rfl
    exact hx hy
  rw [State.captAt, capt_capture, List.find?_append, hnone, Option.none_or, find?_filter_of_imp]
  · rfl
  · simp only [decide_eq_true_eq]
    rintro y rfl
    simpa using hx

theorem frame_capture (s : State) (h : RegHit) (a : Nat) : Frame [.bus] s (s.capture h a) := by
  unfold State.capture
  dsimp only
  split
  · exact .refl _ s
  · exact frame_setBus s _

/-- Settles O17: the read of a lowest word captures as they read now the words it covers and keeps the other captures, every other
read takes what is captured; either checks the word's own pair first. -/
theorem wideReadsCapture : Obligations.WideReadsCapture := by
  unfold Obligations.WideReadsCapture
  intro s a h ha hr hcap hjournal
  rw [exec_wideRegisterRead]
  refine ⟨checkedAt_not_critical s hr, fun hlow hown => ?_, fun hother => ?_⟩
  · rw [busRead_lowest s ha hr hcap hjournal hlow hown]
    exact ⟨_, rfl, rfl, fun x hx => captAt_capture_mem _ hx, fun x hx => captAt_capture_not_mem _ hx,
      (frame_capture _ h _).trans (frame_setBus _ _)⟩
  · rw [busRead_other s ha hr hcap hjournal hother]
    refine ⟨_, rfl, ?_, rfl⟩
    simp only [State.setBus_bus, State.captAt, State.checkedAt]
    split <;> simp [*]

/-! ## The host port (R65, R352, R353, R371) -/

/-- The word that a one-word host write carries. -/
def hostWord (x : HostTxn) : Word := BitVec.ofNat 32 (nibbleNat ((x.sent.drop 10).take 8))

/-- The address that a host transaction carries. -/
def hostAddr (x : HostTxn) : Nat := nibbleNat ((x.sent.drop 2).take 8) / 4 * 4

/-- A whole one-word write with a good CRC-8 is the gated write of its word. -/
theorem exec_hostTransaction_write (s : State) {x : HostTxn} (hclocks : 23 ≤ x.clocks) (hlen : 20 ≤ x.sent.length)
    (hcmd : nibbleNat (x.sent.take 2) = 0x40) (hcrc : nibbleNat ((x.sent.drop 18).take 2) = nibbleCrc (x.sent.take 18)) :
    exec (.hostTransaction x) s = .next
      ((s.hostWrites (hostAddr x) [hostWord x]).2.hostAnswer [if (s.hostWrites (hostAddr x) [hostWord x]).1 = 0 then 0 else 2]) := by
  have hwrite : s.hostWrite x.sent 1 =
      (s.hostWrites (hostAddr x) [hostWord x]).2.hostAnswer [if (s.hostWrites (hostAddr x) [hostWord x]).1 = 0 then 0 else 2] :=
    if_pos hcrc
  have hcut : (decide (x.sent.length < 2) || decide (x.clocks < 2)) = false := by
    simp only [Bool.or_eq_false_iff, decide_eq_false_iff_not]
    omega
  have hwhole : (decide (x.clocks < 15 + 8 * 1) || decide (x.sent.length < 12 + 8 * 1)) = false := by
    simp only [Bool.or_eq_false_iff, decide_eq_false_iff_not]
    omega
  rw [← hwrite]
  change execHostTransaction x s = _
  simp only [execHostTransaction, hcut, hcmd, Bool.false_eq_true, if_false]
  exact congrArg _ (if_neg (hwhole ▸ Bool.false_ne_true))

/-- Settles O18: the one word is gated by itself; denied it is counted, else written, and the answer says which. -/
theorem hostWritesAreGated : Obligations.HostWritesAreGated := by
  unfold Obligations.HostWritesAreGated
  intro s x hclocks hlen hcmd hcrc
  rw [exec_hostTransaction_write s hclocks hlen hcmd hcrc]
  refine ⟨fun (hdenied : s.hostDenied (hostAddr x) = true) => ?_, fun (hopen : s.hostDenied (hostAddr x) = false) => ?_⟩
  · have hwrites : s.hostWrites (hostAddr x) [hostWord x] = (1, s.count F.SYS_WDENY_COUNT 1) := by
      simp [State.hostWrites, hdenied]
    have hcount : RegsBut [A.SYS_WDENY] s (s.count F.SYS_WDENY_COUNT 1) := regsBut_wr_word s F.SYS_WDENY_COUNT _ (by decide) rfl
    rw [hwrites]
    refine ⟨_, rfl, ?_, ?_, ?_, ?_⟩
    · exact rd_count s F.SYS_WDENY_COUNT 1 ⟨by decide, .inl rfl⟩
    · exact congrArg (fun b : BusState => { b with hostReply := [2] }) hcount.bus_eq
    · exact hcount.2
    · exact (hcount.1.mono (by simp)).trans ((frame_setBus _ _).mono (by simp))
  · have hwrites : s.hostWrites (hostAddr x) [hostWord x] = (0, s.regWrite (hostAddr x) (hostWord x)) := by
      simp [State.hostWrites, hopen]
    rw [hwrites]
    rfl

end Sys2Proof.Machine
end

