-- ==== Sys2Proof/Proofs/CounterClears.lean ====
section
/-!
PROOFS. The commands that make counters 0 (R54, R65, R73, R249 and the register tables): a cleared field reads 0, the fields of its
register that share no bit with it read as before, and no other word changes.
-/

namespace Sys2Proof.Machine

open Sys2Proof

/-! ## Fields of one register cleared in turn -/

/-- Clear the fields at bits `hi:lo` of the register at `a`, in turn. -/
def State.clearSpans (s : State) (a : Nat) : List (Nat × Nat) → State
  | [] => s
  | p :: ps => (s.wr ⟨a, p.1, p.2, 0⟩ 0).clearSpans a ps

/-- No two of the fields share a bit. -/
def spansApart : List (Nat × Nat) → Bool
  | [] => true
  | p :: ps => decide (p.2 ≤ p.1) && ps.all (fun q => decide (q.1 < p.2) || decide (p.1 < q.2)) && spansApart ps

theorem spansApart_cons {p : Nat × Nat} {ps : List (Nat × Nat)} (h : spansApart (p :: ps) = true) :
    p.2 ≤ p.1 ∧ (∀ q ∈ ps, q.1 < p.2 ∨ p.1 < q.2) ∧ spansApart ps = true := by
  simpa [spansApart, and_assoc] using h

/-- A field apart from those cleared reads as before. -/
theorem rd_clearSpans_apart (s : State) (a : Nat) {p : Nat × Nat} {ps : List (Nat × Nat)} (hp : p.2 ≤ p.1)
    (hapart : ∀ q ∈ ps, q.1 < p.2 ∨ p.1 < q.2) (hps : spansApart ps = true) :
    (s.clearSpans a ps).rd ⟨a, p.1, p.2, 0⟩ = s.rd ⟨a, p.1, p.2, 0⟩ := by
  induction ps generalizing s with
  | nil => rfl
  | cons q qs ih =>
    obtain ⟨hq, _, hqs⟩ := spansApart_cons hps
    rw [State.clearSpans, ih _ (fun r hr => hapart r (List.mem_cons_of_mem _ hr)) hqs]
    exact rd_wr_same_register s 0 hq rfl rfl rfl hp (hapart q List.mem_cons_self).symm

/-- Every field cleared reads 0 in the end. -/
theorem rd_clearSpans_mem (s : State) (a : Nat) {ps : List (Nat × Nat)} (hps : spansApart ps = true) :
    ∀ p ∈ ps, (s.clearSpans a ps).rd ⟨a, p.1, p.2, 0⟩ = 0 := by
  induction ps generalizing s with
  | nil => simp
  | cons q qs ih =>
    obtain ⟨hq, hapart, hqs⟩ := spansApart_cons hps
    intro p hp
    rcases List.mem_cons.1 hp with rfl | hp
    · rw [State.clearSpans, rd_clearSpans_apart _ a hq hapart hqs, rd_wr _ _ _ ⟨hq, .inl rfl⟩, Nat.zero_mod]
    · exact ih _ hqs p hp

theorem regsBut_clearSpans (s : State) (a : Nat) {as : List Nat} {ps : List (Nat × Nat)}
    (has : ∀ p ∈ ps, ∀ x ∈ Fld.words ⟨a, p.1, p.2, 0⟩, x ∈ as) : RegsBut as s (s.clearSpans a ps) := by
  induction ps generalizing s with
  | nil => exact .refl _ s
  | cons p ps ih =>
    exact ((regsBut_wr s ⟨a, p.1, p.2, 0⟩ 0 rfl).mono (has p List.mem_cons_self)).trans
      (ih _ fun q hq => has q (List.mem_cons_of_mem _ hq))

/-- Fields of one word that share no bit. -/
def wordSpans (ps : List (Nat × Nat)) : Bool := spansApart ps && ps.all fun p => decide (p.1 < 32)

/-- Cleared fields of one word read 0, and no other word changes. -/
theorem clearSpans_word (s : State) (a : Nat) {ps : List (Nat × Nat)} (hps : wordSpans ps = true) :
    (∀ p ∈ ps, (s.clearSpans a ps).rd ⟨a, p.1, p.2, 0⟩ = 0) ∧ RegsBut [a] s (s.clearSpans a ps) := by
  simp only [wordSpans, Bool.and_eq_true, List.all_eq_true, decide_eq_true_eq] at hps
  obtain ⟨hapart, hword⟩ := hps
  refine ⟨rd_clearSpans_mem s a hapart, regsBut_clearSpans s a fun p hp x hx => ?_⟩
  rw [Fld.words_eq_singleton (f := ⟨a, p.1, p.2, 0⟩) (hword p hp)] at hx
  exact hx

/-! ## The scheduler's maxima (R249) -/

/-- The longest wait of a lane is cleared. -/
def State.clearWait (s : State) (n : Nat) : State := s.wr (F.ALC_Ln_WAIT_MAX n) 0

theorem schedClear_eq (s : State) :
    s.schedClear = ((s.wr F.ALC_SQ_MAXLEN 0).wr F.ALC_SWAIT_MAX 0).each lanesAll State.clearWait := rfl

theorem regsBut_clearWait (s : State) (n : Nat) : RegsBut [A.ALC_Ln_WAIT n] s (s.clearWait n) :=
  regsBut_wr_word s (F.ALC_Ln_WAIT_MAX n) 0 (by decide : 31 < 32) rfl

theorem regsBut_each_clearWait (s : State) (ns : List Nat) : RegsBut (ns.map A.ALC_Ln_WAIT) s (s.each ns State.clearWait) :=
  each_induction (.refl _ s) fun t ht n hn => ht.trans ((regsBut_clearWait t n).mono (by simpa using ⟨n, hn, rfl⟩))

theorem rd_last_clearWait (s : State) (m n : Nat) : (s.clearWait m).rd (F.ALC_Ln_WAIT_LAST n) = s.rd (F.ALC_Ln_WAIT_LAST n) := by
  by_cases hmn : n = m
  · subst hmn
    exact rd_wr_same_register s (f := F.ALC_Ln_WAIT_MAX n) (g := F.ALC_Ln_WAIT_LAST n) 0 (by decide : 16 ≤ 31) rfl rfl rfl
      (by decide : 0 ≤ 15) (.inl (by decide : 15 < 16))
  · refine (regsBut_clearWait s m).2.rd_eq rfl ?_
    simp [F.ALC_Ln_WAIT_LAST, A.ALC_Ln_WAIT, hmn]

theorem rd_max_each_clearWait (s : State) (ns : List Nat) (n : Nat) :
    (s.each ns State.clearWait).rd (F.ALC_Ln_WAIT_MAX n) = if n ∈ ns then 0 else s.rd (F.ALC_Ln_WAIT_MAX n) := by
  induction ns generalizing s with
  | nil => simp [State.each]
  | cons m ns ih =>
    have hcons : s.each (m :: ns) State.clearWait = (s.clearWait m).each ns State.clearWait := rfl
    rw [hcons, ih]
    by_cases hmem : n ∈ ns
    · simp [hmem]
    · by_cases hmn : n = m
      · subst hmn
        simp only [hmem, if_false, List.mem_cons_self, if_true]
        exact (rd_wr s (F.ALC_Ln_WAIT_MAX n) 0 ⟨(by decide : 16 ≤ 31), .inl rfl⟩).trans (Nat.zero_mod _)
      · simp only [hmem, hmn, List.mem_cons, or_self, if_false]
        refine (regsBut_clearWait s m).2.rd_eq rfl ?_
        simp [F.ALC_Ln_WAIT_MAX, A.ALC_Ln_WAIT, hmn]

/-- The maxima of the queue and of the waits other than lanes'. -/
def State.clearQueueMaxima (s : State) : State := (s.wr F.ALC_SQ_MAXLEN 0).wr F.ALC_SWAIT_MAX 0

theorem regsBut_clearQueueMaxima (s : State) : RegsBut [A.ALC_SQ, A.ALC_SWAIT] s s.clearQueueMaxima :=
  ((regsBut_wr_word s F.ALC_SQ_MAXLEN 0 (by decide) rfl).mono (by decide)).trans
    ((regsBut_wr_word _ F.ALC_SWAIT_MAX 0 (by decide) rfl).mono (by decide))

theorem regsBut_schedClear (s : State) : RegsBut ([A.ALC_SQ, A.ALC_SWAIT] ++ lanesAll.map A.ALC_Ln_WAIT) s s.schedClear :=
  ((regsBut_clearQueueMaxima s).mono fun _ ha => List.mem_append_left _ ha).trans
    ((regsBut_each_clearWait s.clearQueueMaxima lanesAll).mono fun _ ha => List.mem_append_right _ ha)

theorem rd_schedClear_queue (s : State) {g : Fld} (hsh : g.sh = 0) (hhi : g.hi < 32) (hg : g.addr < A.ALC_Ln_WAIT 0) :
    s.schedClear.rd g = s.clearQueueMaxima.rd g := by
  refine (regsBut_each_clearWait s.clearQueueMaxima lanesAll).2.rd_eq hsh fun i hi hmem => ?_
  obtain ⟨n, _, hn⟩ := List.mem_map.1 hmem
  simp only [A.ALC_Ln_WAIT] at hn hg
  omega

theorem rd_schedClear_maxlen (s : State) : s.schedClear.rd F.ALC_SQ_MAXLEN = 0 := by
  rw [rd_schedClear_queue s rfl (by decide) (by decide), State.clearQueueMaxima,
    (regsBut_wr_word _ F.ALC_SWAIT_MAX 0 (by decide) rfl).2.rd_eq rfl (by decide), rd_wr s _ _ ⟨by decide, .inl rfl⟩, Nat.zero_mod]

theorem rd_schedClear_wait (s : State) : s.schedClear.rd F.ALC_SWAIT_MAX = 0 := by
  rw [rd_schedClear_queue s rfl (by decide) (by decide), State.clearQueueMaxima, rd_wr _ _ _ ⟨by decide, .inl rfl⟩, Nat.zero_mod]

theorem rd_schedClear_laneMax (s : State) (n : Lane) : s.schedClear.rd (F.ALC_Ln_WAIT_MAX n) = 0 := by
  rw [schedClear_eq, rd_max_each_clearWait]
  exact if_pos (List.mem_range.2 n.isLt)

theorem rd_schedClear_laneLast (s : State) (n : Lane) :
    s.schedClear.rd (F.ALC_Ln_WAIT_LAST n) = s.rd (F.ALC_Ln_WAIT_LAST n) := by
  have hqueue : s.clearQueueMaxima.rd (F.ALC_Ln_WAIT_LAST n) = s.rd (F.ALC_Ln_WAIT_LAST n) := by
    refine (regsBut_clearQueueMaxima s).2.rd_eq rfl ?_
    simp only [F.ALC_Ln_WAIT_LAST, A.ALC_Ln_WAIT, A.ALC_SQ, A.ALC_SWAIT, List.mem_cons, List.not_mem_nil, or_false]
    omega
  rw [schedClear_eq]
  exact each_induction (motive := fun t => t.rd (F.ALC_Ln_WAIT_LAST n) = s.rd (F.ALC_Ln_WAIT_LAST n)) hqueue
    fun t ht m _ => (rd_last_clearWait t m n).trans ht

/-! ## The counters of the overruns (R54) -/

/-- The fields of TCK_OVR lie in its two words. -/
theorem regsBut_ovrClear (s : State) : RegsBut [A.TCK_OVR, A.TCK_OVR + 4] s s.ovrClear :=
  regsBut_clearSpans s A.TCK_OVR (ps := [(15, 0), (31, 16), (47, 32), (63, 48)]) (by decide)

theorem rd_ovrClear (s : State) : ∀ p ∈ [(15, 0), (31, 16), (47, 32), (63, 48)], s.ovrClear.rd ⟨A.TCK_OVR, p.1, p.2, 0⟩ = 0 :=
  rd_clearSpans_mem s A.TCK_OVR (by decide)

/-- Settles O42: each command clears fields of one register that share no bit; SCHED_CLEAR clears those of its queue and its lanes. -/
theorem counterClearsClearTheirCountersAlone : Obligations.CounterClearsClearTheirCountersAlone := by
  unfold Obligations.CounterClearsClearTheirCountersAlone
  refine ⟨fun s n c k r => ?_, fun s => ?_, fun s => ⟨_, rfl, rd_schedClear_maxlen s, rd_schedClear_wait s,
    fun n => ⟨rd_schedClear_laneMax s n, rd_schedClear_laneLast s n⟩, regsBut_schedClear s⟩⟩
  · have half (a : Nat) := clearSpans_word s a (ps := [(15, 0)]) (by decide)
    have halves (a : Nat) := clearSpans_word s a (ps := [(30, 16), (15, 0)]) (by decide)
    have bytes (a : Nat) := clearSpans_word s a (ps := [(7, 0), (15, 8), (23, 16)]) (by decide)
    simp only [List.forall_mem_cons, List.not_mem_nil, IsEmpty.forall_iff, implies_true, and_true, and_assoc] at half halves bytes
    have stale := clearSpans_word s A.SYS_STALE (ps := [(15, 0), (28, 24)]) (by decide)
    have overruns := rd_ovrClear s
    have ledger := clearSpans_word s A.BIL_LDG_LOST (ps := [(30, 0)]) (by decide)
    have conn := clearSpans_word s (A.SAF_CONNk_CNT k) (ps := [(23, 16), (15, 8), (7, 0)]) (by decide)
    have ecc := clearSpans_word s A.CLU_ECCCNT (ps := [(15, 0), (30, 16)]) (by decide)
    refine ⟨⟨_, rfl, stale.1 (15, 0) (by decide), stale.2⟩, ⟨_, rfl, half A.SYS_WDENY⟩,
      ⟨_, rfl, overruns (15, 0) (by decide), overruns (31, 16) (by decide), overruns (47, 32) (by decide),
        overruns (63, 48) (by decide), regsBut_ovrClear s⟩,
      ⟨_, rfl, bytes (A.MET_Ln_STRCNT n)⟩, ⟨_, rfl, halves (A.MET_Ln_QCNT n)⟩, ⟨_, rfl, half A.MET_CAP_OVR⟩,
      ⟨_, rfl, ledger.1 (30, 0) (by decide), ledger.2⟩, ⟨_, rfl, half (A.PIL_Ln_XCNTc n c)⟩, ⟨_, rfl, halves A.SAF_CMP⟩,
      ⟨_, rfl, conn.1 (23, 16) (by decide), conn.1 (15, 8) (by decide), conn.1 (7, 0) (by decide), conn.2⟩, ⟨_, rfl, ?_⟩,
      ⟨_, rfl, ?_⟩, ⟨_, rfl, halves A.LNK_HP_ST⟩, ⟨_, rfl, halves A.UPD_CNT⟩, ⟨_, rfl, halves (A.NFC_RDk_CNT r)⟩,
      ⟨_, rfl, ecc.1 (15, 0) (by decide), ecc.1 (30, 16) (by decide), ecc.2⟩⟩
    · obtain ⟨hdrop, hcorr, hreord, hregs⟩ := bytes A.SBU_FICNT
      exact ⟨hreord, hcorr, hdrop, hregs⟩
    · obtain ⟨hdrop, hcorr, hreord, hregs⟩ := bytes A.LNK_FICNT
      exact ⟨hreord, hcorr, hdrop, hregs⟩
  · have stale := clearSpans_word s A.SYS_STALE (ps := [(15, 0), (28, 24)]) (by decide)
    exact ⟨_, rfl, stale.1 (28, 24) (by decide)⟩

end Sys2Proof.Machine
end

