-- ==== Sys2Proof/Proofs/BootMeasurement.lean ====
section
/-!
PROOFS. Boot measurement (R78, R358, R381): the registers that show the image that runs, what runs after it and leaves them alone,
and which bank runs.
-/

namespace Sys2Proof.Machine

open Sys2Proof

/-! ## The registers of the image -/

/-- The registers that show an image: its measurements and versions (R358). -/
def State.showImage (s : State) (i : BankImage) : State :=
  let s := ((s.wr (F.KEY_MEASj_M 0) i.m1.toNat).wr (F.KEY_MEASj_M 1) i.m2.toNat).wr (F.KEY_MEASj_M 2) i.m3.toNat
  (s.wr F.UPD_VER_RUN i.version.toNat).wr F.ALC_VER_RUN i.allocVer.toNat

/-- A field reads the machine word it was set to when it is wide enough. -/
theorem rd_wr_toNat (s : State) (f : Fld) {n : Nat} (x : BitVec n) (hok : f.Ok) (hwidth : n ≤ f.width) :
    (s.wr f x.toNat).rd f = x.toNat := by
  rw [rd_wr s f _ hok, Nat.mod_eq_of_lt (x.isLt.trans_le (Nat.pow_le_pow_right (by decide) hwidth))]

/-- A field reads as before after a write of another register, both without a shadow. -/
theorem rd_wr_other (s : State) {f g : Fld} (v : Nat) (hf : f.sh = 0) (hg : g.sh = 0)
    (hout : ∀ i < g.hi / 32 + 1, g.addr + 4 * i ∉ f.words) : (s.wr f v).rd g = s.rd g :=
  (regsBut_wr s f v hf).2.rd_eq hg hout

theorem frame_wr (s : State) {f : Fld} (v : Nat) (hsh : f.sh = 0) : Frame [.regs] s (s.wr f v) := (regsBut_wr s f v hsh).1

theorem rd_showImage_m1 (s : State) (i : BankImage) : (s.showImage i).rd (F.KEY_MEASj_M 0) = i.m1.toNat := by
  rw [State.showImage, rd_wr_other _ _ rfl rfl (by decide), rd_wr_other _ _ rfl rfl (by decide), rd_wr_other _ _ rfl rfl (by decide),
    rd_wr_other _ _ rfl rfl (by decide), rd_wr_toNat _ _ _ ⟨by decide, .inl rfl⟩ (by decide)]

theorem rd_showImage_m2 (s : State) (i : BankImage) : (s.showImage i).rd (F.KEY_MEASj_M 1) = i.m2.toNat := by
  rw [State.showImage, rd_wr_other _ _ rfl rfl (by decide), rd_wr_other _ _ rfl rfl (by decide), rd_wr_other _ _ rfl rfl (by decide),
    rd_wr_toNat _ _ _ ⟨by decide, .inl rfl⟩ (by decide)]

theorem rd_showImage_m3 (s : State) (i : BankImage) : (s.showImage i).rd (F.KEY_MEASj_M 2) = i.m3.toNat := by
  rw [State.showImage, rd_wr_other _ _ rfl rfl (by decide), rd_wr_other _ _ rfl rfl (by decide),
    rd_wr_toNat _ _ _ ⟨by decide, .inl rfl⟩ (by decide)]

theorem rd_showImage_version (s : State) (i : BankImage) : (s.showImage i).rd F.UPD_VER_RUN = i.version.toNat := by
  rw [State.showImage, rd_wr_other _ _ rfl rfl (by decide), rd_wr_toNat _ _ _ ⟨by decide, .inl rfl⟩ (by decide)]

theorem frame_showImage (s : State) (i : BankImage) : Frame [.regs] s (s.showImage i) :=
  ((((frame_wr s _ rfl).trans (frame_wr _ _ rfl)).trans (frame_wr _ _ rfl)).trans (frame_wr _ _ rfl)).trans (frame_wr _ _ rfl)

/-! ## The registers shown when an image runs (R362, R368) -/

/-- The registers of the measurements a new image will have (R368). -/
def newMeasWords : List Nat := [0, 1, 2].flatMap fun j => (F.KEY_NMEASj_M j).words

theorem words_newMeas_subset {j : Nat} (hj : j ∈ [0, 1, 2]) : ∀ a ∈ (F.KEY_NMEASj_M j).words, a ∈ newMeasWords :=
  fun _ ha => List.mem_flatMap.2 ⟨j, hj, ha⟩

theorem regsBut_showNew (s : State) (m1 m2 m3 : Nat) : RegsBut newMeasWords s (s.showNew m1 m2 m3) :=
  (((regsBut_wr s (F.KEY_NMEASj_M 0) m1 rfl).mono (words_newMeas_subset (by decide))).trans
    ((regsBut_wr _ (F.KEY_NMEASj_M 1) m2 rfl).mono (words_newMeas_subset (by decide)))).trans
    ((regsBut_wr _ (F.KEY_NMEASj_M 2) m3 rfl).mono (words_newMeas_subset (by decide)))

theorem regsBut_showRuck (s : State) : RegsBut newMeasWords s s.showRuck := by
  unfold State.showRuck
  split
  · exact regsBut_showNew s _ _ _
  · exact .refl _ s

/-- The attributes of a slot are fields of its one word. -/
theorem regsBut_showSlot (s : State) (n : Nat) : RegsBut [A.KEY_SLOTn n] s (s.showSlot n) :=
  ((((regsBut_wr_word s (F.KEY_SLOTn_STATE n) _ (by decide : 31 < 32) rfl).trans
    (regsBut_wr_word _ (F.KEY_SLOTn_TYPE n) _ (by decide : 29 < 32) rfl)).trans
    (regsBut_wr_word _ (F.KEY_SLOTn_BIND n) _ (by decide : 26 < 32) rfl)).trans
    (regsBut_wr_word _ (F.KEY_SLOTn_USE n) _ (by decide : 23 < 32) rfl)).trans
    (regsBut_wr_word _ (F.KEY_SLOTn_GEN n) _ (by decide : 15 < 32) rfl)

theorem regsBut_showSlots (s : State) : RegsBut (slotsAll.map A.KEY_SLOTn) s s.showSlots :=
  each_induction (.refl _ s) fun t ht n hn => ht.trans ((regsBut_showSlot t n).mono (by simpa using ⟨n, hn, rfl⟩))

/-! ## Running an image -/

/-- The managers take the image as the one that runs. -/
def State.holdImage (s : State) (i : BankImage) : State :=
  ((s.modUpd fun u => { u with run := some i }).modKey fun k => { k with measured := true }).modFlt fun f =>
    { f with wdFirst := true, wdLast := s.clk.frame }

theorem wordsBut_holdImage (s : State) (i : BankImage) : WordsBut [] s (s.holdImage i) := fun _ _ => rfl

/-- The measurements of the rucksack where it stands verified, and the seals now matched (R362). -/
def State.showBeside (s : State) : State := (s.when (s.upd.bank = 3) State.showRuck).showSlots

theorem runImage_eq (s : State) (i : BankImage) :
    s.runImage i = (((s.showImage i).holdImage i).showBeside.modNfc fun x => { x with locked := true }).setStage 4 := rfl

/-- The registers written after those of the image. -/
def besideWords : List Nat := newMeasWords ++ slotsAll.map A.KEY_SLOTn

theorem regsBut_showBeside (s : State) : RegsBut besideWords s s.showBeside := by
  have hruck : RegsBut newMeasWords s (s.when (s.upd.bank = 3) State.showRuck) := by
    unfold State.when
    split
    · exact regsBut_showRuck s
    · exact .refl _ s
  exact (hruck.mono fun _ => List.mem_append_left _).trans ((regsBut_showSlots _).mono fun _ => List.mem_append_right _)

@[simp] theorem stage_setStage (s : State) (k : Nat) : (s.setStage k).stage = k % 16 :=
  rd_wr s F.SYS_STAGE_STAGE k ⟨by decide, .inl rfl⟩

theorem wordsBut_setStage (s : State) (k : Nat) : WordsBut [A.SYS_STAGE] s (s.setStage k) :=
  (regsBut_wr_word s F.SYS_STAGE_STAGE k (by decide) rfl).2

theorem frame_setNfc (s : State) (v : NfcState) : Frame [.nfc] s (s.setNfc v) := by
  intro p hp
  cases p
  case nfc => simp at hp
  all_goals rfl

theorem frame_setBoot (s : State) (v : BootState) : Frame [.boot] s (s.setBoot v) := by
  intro p hp
  cases p
  case boot => simp at hp
  all_goals rfl

theorem frame_setStage (s : State) (k : Nat) : Frame [.regs, .boot] s (s.setStage k) :=
  ((frame_wr s (f := F.SYS_STAGE_STAGE) k rfl).mono (by decide)).trans ((frame_setBoot _ _).mono (by decide))

theorem stage_runImage (s : State) (i : BankImage) : (s.runImage i).stage = 4 := stage_setStage _ 4

theorem locked_runImage (s : State) (i : BankImage) : (s.runImage i).nfc.locked = true := by
  rw [runImage_eq]
  exact congrArg NfcState.locked (frame_setStage _ 4 .nfc (by decide))

/-- What follows the managers' taking of the image. -/
theorem frame_holdImage_runImage (s : State) (i : BankImage) :
    Frame [.regs, .nfc, .boot] ((s.showImage i).holdImage i) (s.runImage i) := by
  rw [runImage_eq]
  have hbeside := (regsBut_showBeside ((s.showImage i).holdImage i)).1.mono (qs := [.regs, .nfc, .boot]) (by decide)
  exact (hbeside.trans ((frame_setNfc _ _).mono (by decide))).trans ((frame_setStage _ 4).mono (by decide))

theorem upd_runImage (s : State) (i : BankImage) : (s.runImage i).upd = { s.upd with run := some i } := by
  have hupd : (s.showImage i).upd = s.upd := frame_showImage s i .upd (by decide)
  rw [← hupd]
  exact frame_holdImage_runImage s i .upd (by decide)

theorem measured_runImage (s : State) (i : BankImage) : (s.runImage i).key.measured = true :=
  congrArg KeyState.measured (frame_holdImage_runImage s i .key (by decide))

/-- A register outside those shown beside the image, and not the stage, reads as it was shown. -/
theorem rd_runImage (s : State) (i : BankImage) {g : Fld} (hsh : g.sh = 0)
    (hout : ∀ k < g.hi / 32 + 1, g.addr + 4 * k ∉ besideWords ++ [A.SYS_STAGE]) : (s.runImage i).rd g = (s.showImage i).rd g := by
  have hheld := wordsBut_holdImage (s.showImage i) i
  have hbeside := (regsBut_showBeside ((s.showImage i).holdImage i)).2
  have hnfc (t : State) : WordsBut [] t (t.modNfc fun x => { x with locked := true }) := fun _ _ => rfl
  have hshown := (hheld.mono (by simp)).trans (hbeside.mono fun _ => List.mem_append_left [A.SYS_STAGE])
  have hlocked := hshown.trans ((hnfc _).mono (by simp))
  rw [runImage_eq]
  exact (hlocked.trans ((wordsBut_setStage _ 4).mono fun _ => List.mem_append_right _)).rd_eq hsh hout

theorem rd_runImage_m1 (s : State) (i : BankImage) : (s.runImage i).rd (F.KEY_MEASj_M 0) = i.m1.toNat :=
  (rd_runImage s i rfl (by decide)).trans (rd_showImage_m1 s i)

theorem rd_runImage_m2 (s : State) (i : BankImage) : (s.runImage i).rd (F.KEY_MEASj_M 1) = i.m2.toNat :=
  (rd_runImage s i rfl (by decide)).trans (rd_showImage_m2 s i)

theorem rd_runImage_m3 (s : State) (i : BankImage) : (s.runImage i).rd (F.KEY_MEASj_M 2) = i.m3.toNat :=
  (rd_runImage s i rfl (by decide)).trans (rd_showImage_m3 s i)

theorem rd_runImage_version (s : State) (i : BankImage) : (s.runImage i).rd F.UPD_VER_RUN = i.version.toNat :=
  (rd_runImage s i rfl (by decide)).trans (rd_showImage_version s i)

/-! ## Which bank runs -/

/-- The other bank takes the place of a rejected one (R78). -/
def State.takeRucksack (s : State) : State := (s.swapBanks.modUpd fun u => { u with ruck := none }).setBank 6

/-- Stage 0x3 with the root secret made: the banks are tried in turn. -/
def State.bootFrom (s : State) (active rucksack : BankRead) : State :=
  if bankGood active then s.runImage (bankImage active)
  else if s.upd.trial then s.rollback
  else if bankGood rucksack then s.takeRucksack.runImage (bankImage rucksack)
  else s.setBoot { s.boot with halted := true }

theorem exec_bootMeasurementDone (s : State) (x y : BankRead) (hstage : s.stage = 3) (hroot : s.key.root ≠ [])
    (hhalted : s.boot.halted = false) : exec (.bootMeasurementDone x y) s = .next (s.bootFrom x y) := by
  have hready : (s.stage = 3 && s.key.root ≠ [] && !s.boot.halted) = true := by simp [hstage, hroot, hhalted]
  exact congrArg _ (if_pos hready)

theorem exec_bootMeasurementDone_idle (s : State) (x y : BankRead) (h : s.stage ≠ 3 ∨ s.key.root = [] ∨ s.boot.halted = true) :
    exec (.bootMeasurementDone x y) s = .next s := by
  have hready : ¬(s.stage = 3 && s.key.root ≠ [] && !s.boot.halted) = true := by
    rcases h with hstage | hroot | hhalted
    · simp [hstage]
    · simp [hroot]
    · simp [hhalted]
  exact congrArg _ (if_neg hready)

theorem bank_setBank (s : State) (v : Nat) : (s.setBank v).upd.bank = v :=
  congrArg UpdState.bank (frame_wr (s.modUpd fun u => { u with bank := v }) (f := F.UPD_BANK_STATE) v rfl .upd (by decide))

/-! ## The first measurement (R358) -/

/-- The chain begins with 32 bytes of zeros, and its first link is numbered 1. -/
theorem chainOf_three_head (a b c : List Byte) :
    (chainOf [a, b, c]).getD 0 [] = sha256 (List.replicate 32 0 ++ a ++ [1]) := by
  simp only [chainOf, List.foldl_cons, List.foldl_nil, List.nil_append, List.cons_append, List.getD_cons_zero]
  rfl

theorem bankImage_m1 (x : BankRead) :
    (bankImage x).m1 = BitVec.ofNat 256 (leNat (sha256 (List.replicate 32 0 ++
      sha256 (slice x.bytes (stageRow (x.bytes.take 512) 0).1 (stageRow (x.bytes.take 512) 0).2.1) ++ [1]))) :=
  congrArg (fun m => BitVec.ofNat 256 (leNat m)) (chainOf_three_head _ _ _)

/-- Settles O25: in stage 0x3 the four outcomes are the cases of `State.bootFrom`, and what runs after the image's registers are
written leaves them alone. -/
theorem bootRunsAVerifiedImage : Obligations.BootRunsAVerifiedImage := by
  unfold Obligations.BootRunsAVerifiedImage
  intro s x y
  refine ⟨fun hstage hroot hhalted => ?_, exec_bootMeasurementDone_idle s x y, bankImage_m1 x⟩
  rw [exec_bootMeasurementDone s x y hstage hroot hhalted]
  refine ⟨fun hgood => ?_, fun hbad htrial => ?_, fun hbad htrial hgood => ?_, fun hbad htrial hworse => ?_⟩
  · have hrun : s.bootFrom x y = s.runImage (bankImage x) := by simp [State.bootFrom, hgood]
    rw [hrun]
    exact ⟨_, rfl, stage_runImage s _, congrArg UpdState.run (upd_runImage s _), locked_runImage s _, measured_runImage s _,
      rd_runImage_m1 s _, rd_runImage_m2 s _, rd_runImage_m3 s _, rd_runImage_version s _⟩
  · simp [State.bootFrom, hbad, htrial]
  · have hrun : s.bootFrom x y = s.takeRucksack.runImage (bankImage y) := by simp [State.bootFrom, hbad, htrial, hgood]
    have hupd := upd_runImage s.takeRucksack (bankImage y)
    have hbank : s.takeRucksack.upd.bank = 6 := bank_setBank _ 6
    rw [hrun]
    exact ⟨_, rfl, stage_runImage _ _, congrArg UpdState.run hupd, (congrArg UpdState.bank hupd).trans hbank,
      rd_runImage_m1 _ _⟩
  · simp [State.bootFrom, hbad, htrial, hworse]

end Sys2Proof.Machine
end

