-- ==== Sys2Proof/Proofs/FaultRaises.lean ====
section
/-!
PROOFS. What a raise leaves behind (R302 to R310, R313): the sticky bit of its source, set now or by the same raise made earlier in
the frame; and what it leaves alone of the metrology engine.
-/

namespace Sys2Proof.Machine

open Sys2Proof

/-! ## The parts a register write leaves alone -/

@[simp] theorem met_wr (s : State) (f : Fld) (v : Nat) : (s.wr f v).met = s.met := by
  rw [wr_parts]
  rfl

@[simp] theorem met_sticky (s : State) (f : Fld) : (s.sticky f).met = s.met := rfl

@[simp] theorem met_modFlt (s : State) (f : FltState → FltState) : (s.modFlt f).met = s.met := rfl

@[simp] theorem flt_wr (s : State) (f : Fld) (v : Nat) : (s.wr f v).flt = s.flt := by
  rw [wr_parts]
  rfl

@[simp] theorem clk_wr (s : State) (f : Fld) (v : Nat) : (s.wr f v).clk = s.clk := by
  rw [wr_parts]
  rfl

/-! ## The work of a raise beyond its source's sticky bit -/

/-- Work that keeps the sticky bit of source `i`, and the streams and sensors of the metrology engine. -/
def RaiseWork (i : Fin 256) (s t : State) : Prop :=
  t.rd (F.FLT_SRCi_STK i) = s.rd (F.FLT_SRCi_STK i) ∧ t.met.streams = s.met.streams ∧ t.met.sens = s.met.sens

theorem RaiseWork.refl (i : Fin 256) (s : State) : RaiseWork i s s := ⟨rfl, rfl, rfl⟩

theorem RaiseWork.trans {i : Fin 256} {s t u : State} (h₁ : RaiseWork i s t) (h₂ : RaiseWork i t u) : RaiseWork i s u :=
  ⟨h₂.1.trans h₁.1, h₂.2.1.trans h₁.2.1, h₂.2.2.trans h₁.2.2⟩

section
variable {i : Fin 256} {s t : State} (h : RaiseWork i s t)
include h

/-- A change of records other than the streams and the sensors. -/
theorem RaiseWork.within {u : State} (hregs : u.regs = t.regs) (hgold : u.gold = t.gold) (hstreams : u.met.streams = t.met.streams)
    (hsens : u.met.sens = t.met.sens) : RaiseWork i s u :=
  h.trans ⟨rd_eq_of_regs hregs hgold _, hstreams, hsens⟩

theorem RaiseWork.setJournal (j : List JEvent) : RaiseWork i s (t.setJournal j) := h.within rfl rfl rfl rfl

theorem RaiseWork.modFlt (f : FltState → FltState) : RaiseWork i s (t.modFlt f) := h.within rfl rfl rfl rfl

theorem RaiseWork.modCap (f : CapState → CapState) : RaiseWork i s (t.modCap f) := h.within rfl rfl rfl rfl

theorem RaiseWork.modPil (f : PilState → PilState) : RaiseWork i s (t.modPil f) := h.within rfl rfl rfl rfl

theorem RaiseWork.modSwa (f : SwaState → SwaState) : RaiseWork i s (t.modSwa f) := h.within rfl rfl rfl rfl

theorem RaiseWork.modSaf (f : SafState → SafState) : RaiseWork i s (t.modSaf f) := h.within rfl rfl rfl rfl

/-- A register outside the words of the sources. -/
theorem RaiseWork.wr {f : Fld} (v : Nat) (hout : f.addr + 4 * (f.hi / 32) < A.FLT_SRCi 0 ∨ A.FLT_SRCi 256 ≤ f.addr := by decide)
    (hsh : f.sh = 0 := by rfl) : RaiseWork i s (t.wr f v) := by
  refine h.trans ⟨?_, by rw [met_wr], by rw [met_wr]⟩
  refine rd_eq_of_words rfl fun j hj => word_wr_out t f v _ fun k hk => ⟨?_, .inl hsh⟩
  simp only [F.FLT_SRCi_STK, A.FLT_SRCi] at hj hout ⊢
  omega

/-- Another field of the source's own word. -/
theorem RaiseWork.wrOwn {f : Fld} (v : Nat) (haddr : f.addr = A.FLT_SRCi i := by rfl) (hsh : f.sh = 0 := by rfl)
    (hf : (decide (f.lo ≤ f.hi) && decide (f.hi < 23)) = true := by rfl) : RaiseWork i s (t.wr f v) := by
  obtain ⟨hlo, hhi⟩ : f.lo ≤ f.hi ∧ f.hi < 23 := by simpa using hf
  refine h.trans ⟨rd_wr_same_register t v hlo hsh haddr.symm rfl (Nat.le_refl 23) (.inr hhi), ?_, ?_⟩ <;> rw [met_wr]

/-- A status event outside the words of the sources. -/
theorem RaiseWork.stickyMask {a : Nat} (m : Nat) (hout : a < A.FLT_SRCi 0 ∨ A.FLT_SRCi 256 ≤ a := by decide) :
    RaiseWork i s (t.stickyMask a m) := by
  refine h.trans ⟨(regsBut_setWord t a _).2.rd_eq rfl fun j hj => ?_, rfl, rfl⟩
  simp only [F.FLT_SRCi_STK, A.FLT_SRCi, List.mem_singleton] at hj hout ⊢
  omega

theorem RaiseWork.when {b : Bool} {f : State → State} (hf : RaiseWork i t (f t)) : RaiseWork i s (t.when b f) := by
  unfold State.when
  split
  · exact h.trans hf
  · exact h

theorem RaiseWork.ite {c : Prop} [Decidable c] {u : State} (hu : RaiseWork i s u) : RaiseWork i s (if c then t else u) := by
  split
  · exact h
  · exact hu

theorem RaiseWork.each {ns : List Nat} {f : State → Nat → State} (hf : ∀ t n, RaiseWork i t (f t n)) : RaiseWork i s (t.each ns f) :=
  each_induction h fun u hu n _ => hu.trans (hf u n)

end

/-- The registers of an array beyond the sources lie beyond them. -/
theorem beyond_sources {a b k : Nat} (ha : A.FLT_SRCi 256 ≤ b := by decide) : a < A.FLT_SRCi 0 ∨ A.FLT_SRCi 256 ≤ b + k :=
  .inr (ha.trans (Nat.le_add_right b k))

/-! ### Triggers of the waveform capture (R119) -/

theorem raiseWork_capPend (i : Fin 256) (s : State) (c : CapTrig) : RaiseWork i s (s.capPend c) := by
  unfold State.capPend
  split
  · exact ((RaiseWork.refl i s).wr _).modCap _
  · split
    · exact (RaiseWork.refl i s).modCap _
    · split
      · exact .refl i s
      · exact ((RaiseWork.refl i s).wr _).modCap _

theorem raiseWork_capEvent (i : Fin 256) (s : State) (k : Nat) : RaiseWork i s (s.capEvent k) := by
  unfold State.capEvent
  split
  · exact .refl i s
  · exact (RaiseWork.refl i s).modCap _
  · exact raiseWork_capPend i s _

/-! ### A session leads out, the safe state (R198, R264, R280, R283) -/

theorem raiseWork_setChanState (i : Fin 256) (s : State) (c v : Nat) : RaiseWork i s (s.setChanState c v) := by
  unfold State.setChanState chanStateFld
  by_cases hcc : c < 32
  · simpa [hcc] using (RaiseWork.refl i s).wr (f := F.SWA_Ln_CCST_STATE c) v beyond_sources
  · by_cases hlk : c < 64
    · simpa [hcc, hlk] using RaiseWork.refl i s
    · simpa [hcc, hlk] using (RaiseWork.refl i s).wr (f := F.SWA_Gk_ST_STATE (c - 64)) v beyond_sources

theorem raiseWork_chanStop (i : Fin 256) (s : State) (c : Nat) : RaiseWork i s (s.chanStop c) := by
  have hrest : ∀ f : Chan → Chan, RaiseWork i s ((s.modChan c f).showRest c) := fun f =>
    ((RaiseWork.refl i s).modSwa _).trans (raiseWork_setChanState i _ _ _)
  unfold State.chanStop
  dsimp only
  split
  · exact (((hrest _).wr _ beyond_sources).wr _ beyond_sources).wr _ beyond_sources
  · exact hrest _

theorem raiseWork_dropClose (i : Fin 256) (s : State) (n : Nat) : RaiseWork i s (s.dropClose n) := by
  unfold State.dropClose
  split
  · exact ((((RaiseWork.refl i s).modPil _).wr _ beyond_sources).modSwa _).trans (raiseWork_chanStop i _ n)
  · exact .refl i s

theorem raiseWork_decideExit (i : Fin 256) (s : State) (n c : Nat) : RaiseWork i s (s.decideExit n c) := by
  unfold State.decideExit
  extract_lets lead decided
  have hdecided : RaiseWork i s decided := (RaiseWork.refl i s).modPil _
  exact hdecided.when (raiseWork_dropClose i decided lead)

theorem raiseWork_withdrawClose (i : Fin 256) (s : State) (m : LaneSet) : RaiseWork i s (s.withdrawClose m) :=
  (((RaiseWork.refl i s).modSaf _).wr _).wr _

theorem raiseWork_safeEnter (i : Fin 256) (s : State) {f : Fld} (hf : A.FLT_SRCi 256 ≤ f.addr) (hsh : f.sh = 0) :
    RaiseWork i s (s.safeEnter f) := by
  unfold State.safeEnter
  split
  · exact .refl i s
  · extract_lets first so shown consents exited
    have hshown : RaiseWork i s shown :=
      (((RaiseWork.refl i s).wr _ (.inr hf) hsh).wr _).when ((RaiseWork.refl i _).stickyMask _)
    have hconsents : RaiseWork i s consents := (hshown.trans (raiseWork_withdrawClose i _ _)).wr _
    have hexited : RaiseWork i s exited := hconsents.each fun t n => raiseWork_decideExit i t n 0x10
    exact hexited.modSaf _

/-! ### An independent raise (R303, R304, R309, R310, R314) -/

theorem raiseWork_retire (i : Fin 256) (s : State) (m : LaneSet) : RaiseWork i s (s.retire m) :=
  ((RaiseWork.refl i s).wr _).trans (raiseWork_withdrawClose i _ _)

theorem raiseWork_recurrence (i : Fin 256) (s : State) (m : LaneSet) : RaiseWork i s (s.recurrence i m) := by
  unfold State.recurrence
  extract_lets now new kept perm
  have hkept : RaiseWork i s kept := (RaiseWork.refl i s).modFlt _
  exact hkept.ite ((hkept.wrOwn _).trans (raiseWork_retire i _ _))

theorem raiseWork_pinFault (i : Fin 256) (s : State) (cls : Nat) : RaiseWork i s (s.pinFault cls) := by
  unfold State.pinFault
  split
  · exact ((((RaiseWork.refl i s).wr _).wr _).wr _).modFlt _
  · exact .refl i s

/-- An independent raise is a status event of its source, and work that keeps its bit. -/
theorem raiseWork_raiseNew (i : Fin 256) (s : State) (cls : Nat) (scope : Option LaneSet) :
    RaiseWork i (s.sticky (F.FLT_SRCi_STK i)) (s.raiseNew i cls scope) := by
  unfold State.raiseNew
  extract_lets m classed summed laned noted recorded triggered pinned marked recurred exited
  have hclassed : RaiseWork i (s.sticky (F.FLT_SRCi_STK i)) classed := (RaiseWork.refl i _).wrOwn _
  have hsum : (F.FLT_SUMk_STK (i / 32)).addr + 4 * (31 / 32) < A.FLT_SRCi 0 := by
    simp only [F.FLT_SUMk_STK, A.FLT_SUMk, A.FLT_SRCi]
    omega
  have hsummed : RaiseWork i _ summed := (hclassed.wrOwn _).wr _ (.inl hsum)
  have hlaned : RaiseWork i (s.sticky (F.FLT_SRCi_STK i)) laned := by
    cases scope with
    | none => exact hsummed
    | some x => exact RaiseWork.wr hsummed _ beyond_sources
  have hnoted : RaiseWork i _ noted := hlaned.setJournal _
  have hrecorded : RaiseWork i _ recorded := hnoted.modFlt _
  have htriggered : RaiseWork i _ triggered := hrecorded.when (raiseWork_capEvent i _ 4)
  have hpinned : RaiseWork i _ pinned := htriggered.trans (raiseWork_pinFault i _ cls)
  have hmarked : RaiseWork i _ marked := hpinned.ite ((hpinned.wr _).modFlt _)
  have hrecurred : RaiseWork i _ recurred := (hmarked.trans (raiseWork_recurrence i _ m)).ite hmarked
  have hexited : RaiseWork i _ exited := (hrecurred.each fun t n => raiseWork_decideExit i t n 0x11).ite hrecurred
  exact (hexited.trans (raiseWork_safeEnter i _ (by decide) rfl)).ite hexited

theorem rd_stk_raiseNew (i : Fin 256) (s : State) (cls : Nat) (scope : Option LaneSet) :
    (s.raiseNew i cls scope).rd (F.FLT_SRCi_STK i) = 1 :=
  (raiseWork_raiseNew i s cls scope).1.trans (rd_sticky_self s _ rfl (by decide : 23 < 24) rfl)

/-! ## A raise -/

theorem raisedNow_causeOn (s : State) (src cls : Nat) (scope scope' : Option LaneSet) :
    (s.causeOn src cls scope).raisedNow src cls scope' = s.raisedNow src cls scope' := by
  simp only [State.raisedNow, State.causeOn, State.showCause, State.wrB, State.wrSet, flt_wr, clk_wr]
  rfl

/-- A raise of a source that is not one of R307's four is shown in its frame (R304, R313). -/
theorem raised_raise (s : State) (i : Fin 256) (cls : Nat) (scope : Option LaneSet) (hsrc : mergeable i = false) :
    Raised s (s.raise i cls scope) i cls (scope.map s.widen) := by
  unfold State.raise
  simp only [hsrc, Bool.false_eq_true, if_false]
  split
  case isTrue hnow => exact .inl ((raisedNow_causeOn s _ cls _ _).symm.trans hnow)
  case isFalse => exact .inr (rd_stk_raiseNew i _ cls _)

theorem met_causeOn (s : State) (src cls : Nat) (scope : Option LaneSet) : (s.causeOn src cls scope).met = s.met := by
  simp only [State.causeOn, State.showCause, State.wrB, State.wrSet, met_wr, met_modFlt]

/-- A raise leaves the streams and the sensors alone. -/
theorem inputs_raise (s : State) (i : Fin 256) (cls : Nat) (scope : Option LaneSet) :
    (s.raise i cls scope).met.streams = s.met.streams ∧ (s.raise i cls scope).met.sens = s.met.sens := by
  have hcause := met_causeOn s i cls (scope.map s.widen)
  unfold State.raise
  dsimp only
  generalize s.causeOn i cls (scope.map s.widen) = caused at hcause ⊢
  split
  · rw [met_modFlt, hcause]
    exact ⟨rfl, rfl⟩
  · split
    · rw [hcause]
      exact ⟨rfl, rfl⟩
    · obtain ⟨_, hstreams, hsens⟩ := raiseWork_raiseNew i caused cls (scope.map s.widen)
      rw [hstreams, hsens, met_sticky, hcause]
      exact ⟨rfl, rfl⟩

end Sys2Proof.Machine
end

