-- ==== Sys2Proof/Proofs/MeteringInputs.lean ====
section
/-!
PROOFS. The wave capture's commands (R118 to R121), the sensor bus (R110, R111), the proof pulses (R142 to R144) and a lost stream
(R116).
-/

namespace Sys2Proof.Machine

open Sys2Proof

/-! ## What a change of a record leaves alone -/

theorem frame_setMet (s : State) (v : MetState) : Frame [.met] s (s.setMet v) := by
  intro p hp
  cases p
  case met => simp at hp
  all_goals rfl

@[simp] theorem rd_setMet (s : State) (v : MetState) (g : Fld) : (s.setMet v).rd g = s.rd g :=
  rd_eq_of_regs (s := s) (t := s.setMet v) rfl rfl g

@[simp] theorem rd_modMet (s : State) (f : MetState → MetState) (g : Fld) : (s.modMet f).rd g = s.rd g := rd_setMet s _ g

@[simp] theorem rd_modCap (s : State) (f : CapState → CapState) (g : Fld) : (s.modCap f).rd g = s.rd g := rd_setMet s _ g

@[simp] theorem cap_modCap (s : State) (f : CapState → CapState) : (s.modCap f).met.cap = f s.met.cap := rfl

theorem frame_modCap (s : State) (f : CapState → CapState) : Frame [.met] s (s.modCap f) := frame_setMet s _

@[simp] theorem rd_setBus (s : State) (v : BusState) (g : Fld) : (s.setBus v).rd g = s.rd g :=
  rd_eq_of_regs (s := s) (t := s.setBus v) rfl rfl g

/-- A one-bit field reads the bit it was set to. -/
theorem rd_wrB (s : State) (f : Fld) (b : Bool) (hbit : f.hi = f.lo) (hsh : f.sh = 0) : (s.wrB f b).rd f = b2n b := by
  have hwidth : f.width = 1 := by rw [Fld.width, hbit, Nat.add_sub_cancel_left]
  rw [State.wrB, rd_wr s f _ ⟨hbit.ge, .inl hsh⟩, hwidth]
  cases b <;> rfl

theorem regsBut_wrB (s : State) (f : Fld) (b : Bool) (hhi : f.hi < 32) (hsh : f.sh = 0) : RegsBut [f.addr] s (s.wrB f b) :=
  regsBut_wr_word s f _ hhi hsh

/-! ## The wave capture (R118 to R121) -/

/-- The capture's state is a field of two bits. -/
theorem rd_capState_wr (s : State) {v : Nat} (hv : v < 4) : (s.wr F.MET_CAP_CTL_STATE v).rd F.MET_CAP_CTL_STATE = v := by
  rw [rd_wr s _ v ⟨by decide, .inl rfl⟩]
  exact Nat.mod_eq_of_lt hv

theorem regsBut_capState_wr (s : State) (v : Nat) : RegsBut [A.MET_CAP_CTL] s (s.wr F.MET_CAP_CTL_STATE v) :=
  regsBut_wr_word s F.MET_CAP_CTL_STATE v (by decide) rfl

/-- A change of the capture's control word and records. -/
theorem RegsBut.modCap {s t : State} (h : RegsBut [A.MET_CAP_CTL] s t) (f : CapState → CapState) :
    WordsBut [A.MET_CAP_CTL] s (t.modCap f) ∧ Frame [.regs, .met] s (t.modCap f) :=
  ⟨h.2, (h.1.mono (by decide)).trans ((frame_modCap t f).mono (by decide))⟩

/-- Without its change of the records, a change of registers is what it was. -/
theorem regsBut_setMet_modCap {as : List Nat} {s t : State} (h : RegsBut as s t) (f : CapState → CapState) :
    RegsBut as s ((t.modCap f).setMet s.met) := by
  have hmet : t.met = s.met := h.1 .met (by decide)
  have hback : (t.modCap f).setMet s.met = t := by rw [← hmet]; rfl
  rwa [hback]

/-- IDLE as it is entered: a ring without samples, and the settings committed. -/
theorem capIdle_eq (s : State) : s.capIdle = (s.wr F.MET_CAP_CTL_STATE 1).modCap fun c => { c with
    rings := [[], [], []], count := 0,
    sel := (List.range 3).map fun k => ((s.wr F.MET_CAP_CTL_STATE 1).useWord (A.MET_CAP_SELk k) 0).toNat,
    trig := ((s.wr F.MET_CAP_CTL_STATE 1).useWord A.MET_CAP_TRIG 0).toNat } := rfl

theorem rd_state_capIdle (s : State) : s.capIdle.rd F.MET_CAP_CTL_STATE = 1 := by
  rw [capIdle_eq, rd_modCap, rd_capState_wr s (by decide)]

theorem cap_capIdle (s : State) : s.capIdle.met.cap.count = 0 ∧ s.capIdle.met.cap.rings = [[], [], []] := by
  rw [capIdle_eq]
  exact ⟨rfl, rfl⟩

theorem frame_capIdle (s : State) : WordsBut [A.MET_CAP_CTL] s s.capIdle ∧ Frame [.regs, .met] s s.capIdle := by
  rw [capIdle_eq]
  exact (regsBut_capState_wr s 1).modCap _

/-- The control word with the capture off and nothing pending. -/
def State.capCtlOff (s : State) : State := (s.wr F.MET_CAP_CTL_STATE 0).wrB F.MET_CAP_CTL_PEND false

theorem capDisarm_eq (s : State) :
    s.capDisarm = s.capCtlOff.modCap fun c => { c with pend := none, released := false, left := 0, hits := 0 } := rfl

theorem rd_capDisarm (s : State) : s.capDisarm.rd F.MET_CAP_CTL_STATE = 0 ∧ s.capDisarm.rd F.MET_CAP_CTL_PEND = 0 := by
  rw [capDisarm_eq, rd_modCap, rd_modCap, State.capCtlOff]
  have hstate : ((s.wr F.MET_CAP_CTL_STATE 0).wrB F.MET_CAP_CTL_PEND false).rd F.MET_CAP_CTL_STATE =
      (s.wr F.MET_CAP_CTL_STATE 0).rd F.MET_CAP_CTL_STATE :=
    rd_wr_same_register _ _ (by decide) rfl rfl rfl (by decide) (by decide)
  exact ⟨hstate.trans (rd_capState_wr s (by decide)), rd_wrB _ _ false rfl rfl⟩

theorem frame_capDisarm (s : State) : WordsBut [A.MET_CAP_CTL] s s.capDisarm ∧ Frame [.regs, .met] s s.capDisarm := by
  rw [capDisarm_eq]
  exact ((regsBut_capState_wr s 0).trans (regsBut_wrB _ F.MET_CAP_CTL_PEND false (by decide) rfl)).modCap _

theorem capEvent_off {s : State} (h : s.rd F.MET_CAP_CTL_STATE = 0) (k : Nat) : s.capEvent k = s := by
  simp only [State.capEvent, h]

theorem capEvent_idle {s : State} (h : s.rd F.MET_CAP_CTL_STATE = 1) (k : Nat) :
    s.capEvent k = s.modCap fun c => { c with hits := c.hits ||| k } := by
  simp only [State.capEvent, h]

theorem capEvent_busy {s : State} (h₀ : s.rd F.MET_CAP_CTL_STATE ≠ 0) (h₁ : s.rd F.MET_CAP_CTL_STATE ≠ 1) (k : Nat) :
    s.capEvent k = s.capPend (s.capTrigger k s.clk.tickInFrame (s.clk.sample + 1)) := by
  unfold State.capEvent
  split
  · contradiction
  · contradiction
  · rfl

theorem capPend_none {s : State} (h : s.met.cap.pend = none) (c : CapTrig) :
    s.capPend c = (s.wrB F.MET_CAP_CTL_PEND true).modCap fun x => { x with pend := some c } := by
  simp only [State.capPend, h]

/-- A trigger of another sample tick than the pending one is counted, once a tick (R120). -/
theorem capPend_lost {s : State} {p c : CapTrig} (h : s.met.cap.pend = some p) (hp : p.sample ≠ c.sample)
    (hlost : s.met.cap.lostAt ≠ c.sample) :
    s.capPend c = (s.count F.MET_CAP_OVR_COUNT 1).modCap fun x => { x with lostAt := c.sample } := by
  simp only [State.capPend, h, hp, hlost, if_false]

/-- The first trigger in RUN or HELD is held pending, and shown (R120). -/
theorem capPend_none_spec {s : State} (h : s.met.cap.pend = none) (c : CapTrig) : (s.capPend c).rd F.MET_CAP_CTL_PEND = 1 ∧
    (s.capPend c).met.cap.pend = some c ∧ RegsBut [A.MET_CAP_CTL] s ((s.capPend c).setMet s.met) := by
  rw [capPend_none h, rd_modCap, rd_wrB _ _ _ rfl rfl]
  exact ⟨rfl, rfl, regsBut_setMet_modCap (regsBut_wrB s F.MET_CAP_CTL_PEND true (by decide) rfl) _⟩

/-- A trigger lost to the pending one is counted (R120). -/
theorem capPend_lost_spec {s : State} {p c : CapTrig} (h : s.met.cap.pend = some p) (hp : p.sample ≠ c.sample)
    (hlost : s.met.cap.lostAt ≠ c.sample) :
    (s.capPend c).rd F.MET_CAP_OVR_COUNT = min F.MET_CAP_OVR_COUNT.max (s.rd F.MET_CAP_OVR_COUNT + 1) ∧
    (s.capPend c).met.cap.pend = some p := by
  rw [capPend_lost h hp hlost, rd_modCap, rd_count _ _ _ ⟨by decide, .inl rfl⟩, cap_modCap, State.count, State.wrSat, met_wr]
  exact ⟨rfl, h⟩

theorem exec_captureArm (s : State) : exec .captureArm s = .next (if s.rd F.MET_CAP_CTL_STATE = 0 then s.capIdle else s) := rfl

theorem exec_captureSwtrig (s : State) : exec .captureSwtrig s = .next (s.capEvent 1) := rfl

theorem exec_captureRelease (s : State) : exec .captureRelease s = .next (if s.rd F.MET_CAP_CTL_STATE = 3 then
    if s.met.cap.pend.isNone then s.capIdle else s.modCap fun c => { c with released := true } else s) := rfl

theorem exec_captureDone (s : State) : exec .captureDone s = .next
    (if s.rd F.MET_CAP_CTL_STATE = 2 ∧ s.met.cap.left = 0 then (s.wr F.MET_CAP_CTL_STATE 3).sticky F.MET_CAP_STAT_DONE else s) := by
  change execCaptureDone s = _
  simp [execCaptureDone]

/-- The end of a run (R118): its state, then DONE as a status event. -/
theorem captureDone_spec (s : State) : let t := (s.wr F.MET_CAP_CTL_STATE 3).sticky F.MET_CAP_STAT_DONE
    t.rd F.MET_CAP_CTL_STATE = 3 ∧ t.rd F.MET_CAP_STAT_DONE = 1 ∧ RegsBut [A.MET_CAP_CTL, A.MET_CAP_STAT] s t := by
  have hdone := regsBut_sticky (s.wr F.MET_CAP_CTL_STATE 3) F.MET_CAP_STAT_DONE
  exact ⟨(hdone.2.rd_eq rfl (by decide)).trans (rd_capState_wr s (by decide)), rd_sticky_self _ _ rfl (by decide) rfl,
    ((regsBut_capState_wr s 3).mono (by decide)).trans (hdone.mono (by decide))⟩

/-! ### The read pointer (R121) -/

theorem rd_index_wr (s : State) {v : Nat} (hv : v < 4096) : (s.wr F.MET_CAP_ADDR_INDEX v).rd F.MET_CAP_ADDR_INDEX = v := by
  rw [rd_wr s _ v ⟨by decide, .inl rfl⟩]
  exact Nat.mod_eq_of_lt hv

theorem rd_slot_wr (s : State) {v : Nat} (hv : v < 4) : (s.wr F.MET_CAP_ADDR_SLOT v).rd F.MET_CAP_ADDR_SLOT = v := by
  rw [rd_wr s _ v ⟨by decide, .inl rfl⟩]
  exact Nat.mod_eq_of_lt hv

theorem rd_index_wr_slot (s : State) (v : Nat) : (s.wr F.MET_CAP_ADDR_SLOT v).rd F.MET_CAP_ADDR_INDEX = s.rd F.MET_CAP_ADDR_INDEX :=
  rd_wr_same_register s v (by decide) rfl rfl rfl (by decide) (by decide)

theorem rd_slot_wr_index (s : State) (v : Nat) : (s.wr F.MET_CAP_ADDR_INDEX v).rd F.MET_CAP_ADDR_SLOT = s.rd F.MET_CAP_ADDR_SLOT :=
  rd_wr_same_register s v (by decide) rfl rfl rfl (by decide) (by decide)

theorem capAdvance_last {s : State} (h : s.rd F.MET_CAP_ADDR_INDEX = 4095) : s.capAdvance =
    (s.wr F.MET_CAP_ADDR_INDEX 0).wr F.MET_CAP_ADDR_SLOT (if 2 ≤ s.rd F.MET_CAP_ADDR_SLOT then 0 else s.rd F.MET_CAP_ADDR_SLOT + 1) := by
  simp only [State.capAdvance, h, if_true]

theorem capAdvance_within {s : State} (h : s.rd F.MET_CAP_ADDR_INDEX ≠ 4095) :
    s.capAdvance = s.wr F.MET_CAP_ADDR_INDEX (s.rd F.MET_CAP_ADDR_INDEX + 1) := by
  simp only [State.capAdvance, h, if_false]

theorem rd_capAdvance_last {s : State} (h : s.rd F.MET_CAP_ADDR_INDEX = 4095) : s.capAdvance.rd F.MET_CAP_ADDR_INDEX = 0 ∧
    s.capAdvance.rd F.MET_CAP_ADDR_SLOT = if 2 ≤ s.rd F.MET_CAP_ADDR_SLOT then 0 else s.rd F.MET_CAP_ADDR_SLOT + 1 := by
  rw [capAdvance_last h]
  exact ⟨(rd_index_wr_slot _ _).trans (rd_index_wr s (by decide)), rd_slot_wr _ (by split <;> omega)⟩

theorem rd_capAdvance_within {s : State} (h : s.rd F.MET_CAP_ADDR_INDEX ≠ 4095) :
    s.capAdvance.rd F.MET_CAP_ADDR_INDEX = s.rd F.MET_CAP_ADDR_INDEX + 1 ∧
    s.capAdvance.rd F.MET_CAP_ADDR_SLOT = s.rd F.MET_CAP_ADDR_SLOT := by
  have hlt : s.rd F.MET_CAP_ADDR_INDEX < 4096 := rd_lt s F.MET_CAP_ADDR_INDEX
  rw [capAdvance_within h]
  exact ⟨rd_index_wr s (by omega), rd_slot_wr_index s _⟩

theorem regsBut_capAdvance (s : State) : RegsBut [A.MET_CAP_ADDR] s s.capAdvance := by
  by_cases h : s.rd F.MET_CAP_ADDR_INDEX = 4095
  · rw [capAdvance_last h]
    exact (regsBut_wr_word s F.MET_CAP_ADDR_INDEX _ (by decide) rfl).trans (regsBut_wr_word _ F.MET_CAP_ADDR_SLOT _ (by decide) rfl)
  · rw [capAdvance_within h]
    exact regsBut_wr_word s F.MET_CAP_ADDR_INDEX _ (by decide) rfl

/-- The word read is put on the bus before the pointer moves. -/
def State.capRead (s : State) : State := s.setBus { s.bus with readData := [s.capData] }

theorem exec_captureDataRead (s : State) : exec .captureDataRead s = .next s.capRead.capAdvance := rfl

@[simp] theorem rd_capRead (s : State) (g : Fld) : s.capRead.rd g = s.rd g := rd_setBus s _ g

theorem readData_capRead_capAdvance (s : State) : s.capRead.capAdvance.bus.readData = [s.capData] :=
  congrArg BusState.readData (regsBut_capAdvance s.capRead).bus_eq

theorem frame_capRead_capAdvance (s : State) :
    WordsBut [A.MET_CAP_ADDR] s s.capRead.capAdvance ∧ Frame [.regs, .bus] s s.capRead.capAdvance := by
  obtain ⟨hframe, hwords⟩ := regsBut_capAdvance s.capRead
  exact ⟨hwords, ((frame_setBus s _).mono (by decide)).trans (hframe.mono (by decide))⟩

/-! ## The sensor bus (R110, R111) -/

/-- What one step of a pass sets, whatever went before, and every step keeps, holds after the pass. -/
theorem each_establishes {motive : State → Prop} {f : State → Nat → State} {m : Nat} {ns : List Nat} (hm : m ∈ ns) (s : State)
    (hset : ∀ t, motive (f t m)) (hkeep : ∀ t n, motive t → motive (f t n)) : motive (s.each ns f) := by
  obtain ⟨before, after, rfl⟩ := List.append_of_mem hm
  have hsplit : s.each (before ++ m :: after) f = (f (s.each before f) m).each after f := by
    simp only [State.each, List.foldl_append, List.foldl_cons]
  rw [hsplit]
  exact each_induction (hset _) fun t ht n _ => hkeep t n ht

theorem rd_causeOff (s : State) (src : Nat) (scope : Option LaneSet) (g : Fld) : (s.causeOff src scope).rd g = s.rd g :=
  rd_eq_of_regs (s := s) (t := s.causeOff src scope) rfl rfl g

theorem sens_modSens_self (s : State) (m : Nat) (f : SensState → SensState) : (s.modSens m f).sens m = f (s.sens m) :=
  lk_put_self _ _ _ _

/-- The end of the sensor-bus source's cause changes no register. -/
theorem regs_sensCause (s : State) : s.sensCause.regs = s.regs ∧ s.sensCause.gold = s.gold := by
  unfold State.sensCause State.when
  split
  · exact ⟨rfl, rfl⟩
  · exact ⟨rfl, rfl⟩

@[simp] theorem rd_sensCause (s : State) (g : Fld) : s.sensCause.rd g = s.rd g := rd_eq_of_regs (regs_sensCause s).1 (regs_sensCause s).2 g

/-- The registers of a good reading: the four fields of the sensor's word. -/
def State.showReading (s : State) (m : Nat) (v : BitVec 16) : State :=
  (((s.wrB (F.MET_SNBm_T_VALID m) true).wrB (F.MET_SNBm_T_STALE m) false).wr (F.MET_SNBm_T_TEMP m) v.toNat).wr (F.MET_SNBm_T_AGE m) 0

theorem sensorRead_good (s : State) (m : Nat) (v : BitVec 16) :
    s.sensorRead m (some v) = ((s.showReading m v).modSens m fun _ => ⟨0, some (s.showReading m v).clk.frame, false⟩).sensCause := by
  simp only [State.sensorRead, State.showReading, State.wrB, clk_wr]

/-- Does the sensor's word show the reading `v`? -/
def State.showsReading (s : State) (m : Nat) (v : BitVec 16) : Prop :=
  s.rd (F.MET_SNBm_T_TEMP m) = v.toNat ∧ s.rd (F.MET_SNBm_T_VALID m) = 1 ∧ s.rd (F.MET_SNBm_T_STALE m) = 0 ∧
    s.rd (F.MET_SNBm_T_AGE m) = 0

/-- A field reads as before after a write of a field of the same register that shares no bit with it. -/
theorem rd_wr_span (s : State) (a v : Nat) {hi lo h l : Nat} (hlo : lo ≤ hi) (hl : l ≤ h) (hapart : h < lo ∨ hi < l) :
    (s.wr ⟨a, hi, lo, 0⟩ v).rd ⟨a, h, l, 0⟩ = s.rd ⟨a, h, l, 0⟩ :=
  rd_wr_same_register s v hlo rfl rfl rfl hl hapart

theorem showsReading_showReading (s : State) (m : Nat) (v : BitVec 16) : (s.showReading m v).showsReading m v := by
  have hage (t : State) {h l : Nat} (hl : l ≤ h) (hapart : h < 16 ∨ 29 < l) :
      (t.wr (F.MET_SNBm_T_AGE m) 0).rd ⟨A.MET_SNBm_T m, h, l, 0⟩ = t.rd ⟨A.MET_SNBm_T m, h, l, 0⟩ :=
    rd_wr_span t _ 0 (by decide) hl hapart
  have htemp (t : State) {h l : Nat} (hl : l ≤ h) (hapart : 15 < l) :
      (t.wr (F.MET_SNBm_T_TEMP m) v.toNat).rd ⟨A.MET_SNBm_T m, h, l, 0⟩ = t.rd ⟨A.MET_SNBm_T m, h, l, 0⟩ :=
    rd_wr_span t _ _ (by decide) hl (.inr hapart)
  refine ⟨?_, ?_, ?_, ?_⟩
  · exact (hage _ (by decide) (by decide)).trans (rd_wr_toNat _ (F.MET_SNBm_T_TEMP m) v ⟨Nat.zero_le _, .inl rfl⟩ (Nat.le_refl 16))
  · exact (hage _ (by decide) (by decide)).trans ((htemp _ (by decide) (by decide)).trans
      ((rd_wr_span _ _ _ (by decide) (by decide) (by decide)).trans (rd_wrB s (F.MET_SNBm_T_VALID m) true rfl rfl)))
  · exact (hage _ (by decide) (by decide)).trans ((htemp _ (by decide) (by decide)).trans
      (rd_wrB _ (F.MET_SNBm_T_STALE m) false rfl rfl))
  · exact (rd_wr _ (F.MET_SNBm_T_AGE m) 0 ⟨(by decide : 16 ≤ 29), .inl rfl⟩).trans (Nat.zero_mod _)

theorem showsReading_sensorRead (s : State) (m : Nat) (v : BitVec 16) : (s.sensorRead m (some v)).showsReading m v := by
  have hshown := showsReading_showReading s m v
  rw [sensorRead_good]
  simpa only [State.showsReading, rd_sensCause, State.modSens, rd_modMet] using hshown

/-- The words a read of a sensor may change: its own, and the bus status. -/
theorem wordsBut_sensorRead (s : State) (m : Nat) (r : Option (BitVec 16)) :
    WordsBut [A.MET_SNBm_T m, A.MET_SNB_STAT] s (s.sensorRead m r) := by
  have hfld (t : State) (f : Fld) (v : Nat) (haddr : f.addr = A.MET_SNBm_T m) (hhi : f.hi < 32) (hsh : f.sh = 0) :
      WordsBut [A.MET_SNBm_T m, A.MET_SNB_STAT] t (t.wr f v) :=
    (regsBut_wr_word t f v hhi hsh).2.mono (by simp [haddr])
  cases r with
  | some v =>
    have hshown : WordsBut [A.MET_SNBm_T m, A.MET_SNB_STAT] s (s.showReading m v) :=
      (((hfld s (F.MET_SNBm_T_VALID m) _ rfl (by decide : 31 < 32) rfl).trans
        (hfld _ (F.MET_SNBm_T_STALE m) _ rfl (by decide : 30 < 32) rfl)).trans
        (hfld _ (F.MET_SNBm_T_TEMP m) _ rfl (by decide : 15 < 32) rfl)).trans
        (hfld _ (F.MET_SNBm_T_AGE m) _ rfl (by decide : 29 < 32) rfl)
    rw [sensorRead_good]
    intro a ha
    rw [← hshown a ha]
    exact congrArg (fun r => lk resetWord r a) (regs_sensCause _).1
  | none =>
    have hcount : WordsBut [A.MET_SNBm_T m, A.MET_SNB_STAT] s (s.count (F.MET_SNBm_T_AGE m) 1) :=
      hfld s (F.MET_SNBm_T_AGE m) _ rfl (by decide : 29 < 32) rfl
    unfold State.sensorRead
    dsimp only
    split
    · exact fun a ha => (((hfld _ (F.MET_SNBm_T_STALE m) _ rfl (by decide : 30 < 32) rfl).trans
        ((regsBut_sticky _ F.MET_SNB_STAT_STALE).2.mono (by simp [F.MET_SNB_STAT_STALE]))) a ha).trans (hcount a ha)
    · exact hcount

/-- A scan's reading of a sensor: none where it did not answer. -/
def readingOf (reads : List SensorRead) (m : Nat) : Option (BitVec 16) :=
  match reads.find? fun r => r.sensor.val = m with
  | some r => r.reading
  | none => none

/-- Every enabled sensor is read once (R110). -/
def State.readSensors (s : State) (reads : List SensorRead) : State := s.each s.sensors fun t m => t.sensorRead m (readingOf reads m)

/-- The number of the enabled sensors that show stale. -/
def State.staleCount (s : State) : Nat := (s.sensors.filter fun m => s.on (F.MET_SNBm_T_STALE m)).length

/-- A scan: the reads, and then the number of the stale sensors. -/
def State.scanSensors (s : State) (reads : List SensorRead) : State :=
  (s.readSensors reads).wr F.MET_SNB_STAT_NSTALE (s.readSensors reads).staleCount

theorem exec_sensorBusScan (reads : List SensorRead) (s : State) : exec (.sensorBusScan reads) s = .next
    (if s.on F.MET_SNB_CTL_EN && s.boot.mclk then s.scanSensors reads else s) := rfl

theorem exec_sensorBusScan_off {s : State} (h : s.rd F.MET_SNB_CTL_EN = 0 ∨ s.boot.mclk = false) (reads : List SensorRead) :
    exec (.sensorBusScan reads) s = .next s := by
  rw [exec_sensorBusScan, if_neg]
  rcases h with h | h <;> simp [State.on, h]

theorem exec_sensorBusScan_on {s : State} (hen : s.rd F.MET_SNB_CTL_EN ≠ 0) (hmclk : s.boot.mclk = true) (reads : List SensorRead) :
    exec (.sensorBusScan reads) s = .next (s.scanSensors reads) := by
  rw [exec_sensorBusScan, if_pos]
  simp [State.on, hen, hmclk]

/-- Reading the sensors enables and disables none. -/
theorem rd_en_readSensors (s : State) (reads : List SensorRead) {m : Nat} (hm : m < 64) :
    (s.readSensors reads).rd (F.MET_SNBm_EN m) = s.rd (F.MET_SNBm_EN m) := by
  refine each_induction (motive := fun t => t.rd (F.MET_SNBm_EN m) = s.rd (F.MET_SNBm_EN m)) rfl fun t ht n _ => ?_
  refine ((wordsBut_sensorRead t n _).rd_eq rfl fun i hi => ?_).trans ht
  simp only [F.MET_SNBm_EN, A.MET_SNBm, A.MET_SNBm_T, A.MET_SNB_STAT, List.mem_cons, List.not_mem_nil, or_false] at hi ⊢
  omega

theorem mem_sensors_iff (s : State) (m : Nat) : m ∈ s.sensors ↔ m < 64 ∧ s.rd (F.MET_SNBm_EN m) ≠ 0 := by
  simp [State.sensors, State.on]

theorem sensors_readSensors (s : State) (reads : List SensorRead) : (s.readSensors reads).sensors = s.sensors :=
  List.filter_congr fun m hm => by rw [State.on, State.on, rd_en_readSensors s reads (List.mem_range.1 hm)]

theorem staleCount_le (s : State) : s.staleCount ≤ 64 :=
  (List.length_filter_le _ _).trans ((List.length_filter_le _ _).trans (List.length_range).le)

/-- A good reading of an enabled sensor is what its word shows after the reads. -/
theorem showsReading_readSensors (s : State) {reads : List SensorRead} {m : Nat} {v : BitVec 16} (hm : m < 64)
    (hen : s.rd (F.MET_SNBm_EN m) ≠ 0) (hread : readingOf reads m = some v) : (s.readSensors reads).showsReading m v := by
  refine each_establishes (motive := fun t => t.showsReading m v) ((mem_sensors_iff s m).2 ⟨hm, hen⟩) s (fun t => ?_) fun t n ht => ?_
  · rw [hread]
    exact showsReading_sensorRead t m v
  · by_cases hn : n = m
    · subst hn
      rw [hread]
      exact showsReading_sensorRead t n v
    · have hkeep : ∀ h l, h < 32 →
          (t.sensorRead n (readingOf reads n)).rd ⟨A.MET_SNBm_T m, h, l, 0⟩ = t.rd ⟨A.MET_SNBm_T m, h, l, 0⟩ := by
        intro h l hh
        refine (wordsBut_sensorRead t n _).rd_eq rfl fun i hi => ?_
        simp only [A.MET_SNBm_T, A.MET_SNB_STAT, List.mem_cons, List.not_mem_nil, or_false] at hi ⊢
        omega
      obtain ⟨htemp, hvalid, hstale, hage⟩ := ht
      exact ⟨(hkeep 15 0 (by decide)).trans htemp, (hkeep 31 31 (by decide)).trans hvalid, (hkeep 30 30 (by decide)).trans hstale,
        (hkeep 29 16 (by decide)).trans hage⟩

/-- The count of the stale sensors lies in the bus status, apart from the sensors' words. -/
theorem rd_snbT_scanSensors (s : State) (reads : List SensorRead) (m h l : Nat) :
    (s.scanSensors reads).rd ⟨A.MET_SNBm_T m, h, l, 0⟩ = (s.readSensors reads).rd ⟨A.MET_SNBm_T m, h, l, 0⟩ := by
  refine (regsBut_wr_word (s.readSensors reads) F.MET_SNB_STAT_NSTALE _ (by decide) rfl).2.rd_eq rfl fun i hi => ?_
  simp only [F.MET_SNB_STAT_NSTALE, A.MET_SNBm_T, A.MET_SNB_STAT, List.mem_singleton] at hi ⊢
  omega

theorem rd_nstale_scanSensors (s : State) (reads : List SensorRead) : (s.scanSensors reads).rd F.MET_SNB_STAT_NSTALE =
    (s.sensors.filter fun m => (s.scanSensors reads).on (F.MET_SNBm_T_STALE m)).length := by
  have hfits : (s.readSensors reads).staleCount < 2 ^ F.MET_SNB_STAT_NSTALE.width :=
    (staleCount_le (s.readSensors reads)).trans_lt (by decide)
  have hstale (m : Nat) : (s.scanSensors reads).rd (F.MET_SNBm_T_STALE m) = (s.readSensors reads).rd (F.MET_SNBm_T_STALE m) :=
    rd_snbT_scanSensors s reads m 30 30
  have hcount : (s.scanSensors reads).rd F.MET_SNB_STAT_NSTALE = (s.readSensors reads).staleCount :=
    (rd_wr _ F.MET_SNB_STAT_NSTALE _ ⟨by decide, .inl rfl⟩).trans (Nat.mod_eq_of_lt hfits)
  simp only [hcount, State.staleCount, sensors_readSensors, State.on, hstale]

/-- A good reading of an enabled sensor is what its word shows after the scan. -/
theorem showsReading_scanSensors (s : State) {reads : List SensorRead} {m : Nat} {v : BitVec 16} (hm : m < 64)
    (hen : s.rd (F.MET_SNBm_EN m) ≠ 0) (hread : readingOf reads m = some v) : (s.scanSensors reads).showsReading m v := by
  obtain ⟨htemp, hvalid, hstale, hage⟩ := showsReading_readSensors s hm hen hread
  exact ⟨(rd_snbT_scanSensors s reads m 15 0).trans htemp, (rd_snbT_scanSensors s reads m 31 31).trans hvalid,
    (rd_snbT_scanSensors s reads m 30 30).trans hstale, (rd_snbT_scanSensors s reads m 29 16).trans hage⟩

/-- Is the fault of a sensor due: it is read in the scans, fails, has given no good reading for 10 s, and is not at fault (R111)? -/
def State.sensorFaultDue (s : State) (m : Nat) : Bool :=
  s.scanned m && (s.sens m).fails ≠ 0 && ((s.sens m).since.any fun f => f + 10000 ≤ s.clk.frame) && !(s.sens m).fault

theorem exec_sensorBusFault (m : Fin 64) (s : State) : exec (.sensorBusFault m) s = .next
    (if s.sensorFaultDue m then (s.modSens m fun x => { x with fault := true }).raiseDev 0x12 1 else s) := rfl

theorem sensorFaultDue_iff (s : State) (m : Nat) : s.sensorFaultDue m = true ↔
    s.rd F.MET_SNB_CTL_EN ≠ 0 ∧ s.rd (F.MET_SNBm_EN m) ≠ 0 ∧ (s.sens m).fails ≠ 0 ∧
      (∃ f, (s.sens m).since = some f ∧ f + 10000 ≤ s.clk.frame) ∧ (s.sens m).fault = false := by
  simp [State.sensorFaultDue, State.scanned, State.on, Option.any_eq_true, and_assoc]

theorem sensorFaultDue_eq_false {s : State} {m : Nat} (h : s.rd F.MET_SNB_CTL_EN = 0 ∨ s.rd (F.MET_SNBm_EN m) = 0 ∨
    (s.sens m).fails = 0 ∨ (s.sens m).since = none ∨ (s.sens m).fault = true ∨
    ∃ f, (s.sens m).since = some f ∧ s.clk.frame < f + 10000) : s.sensorFaultDue m = false := by
  refine Bool.eq_false_iff.2 fun hdue => ?_
  obtain ⟨hen, hsen, hfails, ⟨f, hsince, hlate⟩, hfault⟩ := (sensorFaultDue_iff s m).1 hdue
  rcases h with h | h | h | h | h | ⟨g, h, hearly⟩
  · exact hen h
  · exact hsen h
  · exact hfails h
  · simp [hsince] at h
  · simp [hfault] at h
  · obtain rfl : f = g := by simpa [hsince] using h
    omega

/-- The fault of a sensor is kept and raised (R111). -/
theorem sensorFault_spec (s : State) (m : Nat) : let t := (s.modSens m fun x => { x with fault := true }).raiseDev 0x12 1
    (t.sens m).fault = true ∧ Raised s t 0x12 1 none := by
  have hsens := (inputs_raise (s.modSens m fun x => { x with fault := true }) 0x12 1 none).2
  refine ⟨?_, raised_raise (s.modSens m fun x => { x with fault := true }) 0x12 1 none (by decide)⟩
  exact (congrArg (fun l => (lk (fun _ => {}) l m).fault) hsens).trans (congrArg SensState.fault (sens_modSens_self s m _))

/-! ## Proof pulses (R142 to R144) -/

@[simp] theorem ppo_modPpo_self (s : State) (k : Nat) (f : PpoState → PpoState) : (s.modPpo k f).ppo k = f (s.ppo k) :=
  lk_put_self _ _ _ _

theorem ppo_modPpo_ne (s : State) {j k : Nat} (f : PpoState → PpoState) (h : j ≠ k) : (s.modPpo k f).ppo j = s.ppo j :=
  lk_put_ne _ _ _ _ _ h

theorem ppo_eq_of_met {s t : State} (h : t.met = s.met) (k : Nat) : t.ppo k = s.ppo k := by
  rw [State.ppo, h, State.ppo]

theorem satNat_eq_min (m v : Nat) : satNat m v = min m v := by
  unfold satNat
  split <;> omega

/-- The pulses that exceed the backlog are shown as lost (R143). -/
def State.ppoLose (s : State) (k b : Nat) : State := s.when (65535 < b) fun s => s.stickyBit F.MET_PPO_STAT_LOST k

theorem ppoBack_eq (s : State) (k b : Nat) : s.ppoBack k b =
    ((s.ppoLose k b).modPpo k fun x => { x with backlog := satNat 65535 b }).wrBit F.MET_PPO_STAT_FAST k (b ≠ 0) := rfl

theorem regsBut_ppoLose (s : State) (k b : Nat) : RegsBut [A.MET_PPO_STAT] s (s.ppoLose k b) := by
  unfold State.ppoLose State.when
  split
  · exact regsBut_setWord s A.MET_PPO_STAT _
  · exact .refl _ s

theorem ppo_ppoBack (s : State) (k b : Nat) : (s.ppoBack k b).ppo k = { s.ppo k with backlog := min 65535 b } := by
  rw [ppoBack_eq, State.wrBit, ppo_eq_of_met (met_wr _ F.MET_PPO_STAT_FAST _), ppo_modPpo_self,
    ppo_eq_of_met ((regsBut_ppoLose s k b).1 .met (by decide)), satNat_eq_min]

theorem wordsBut_ppoBack (s : State) (k b : Nat) : WordsBut [A.MET_PPO_STAT] s (s.ppoBack k b) := by
  rw [ppoBack_eq]
  exact fun a ha => ((regsBut_wr_word _ F.MET_PPO_STAT_FAST _ (by decide) rfl).2 a ha).trans ((regsBut_ppoLose s k b).2 a ha)

/-- Has an output's energy crossed a multiple in the running sample tick? -/
def State.ppoCrosses (s : State) (k : Nat) : Bool := s.boot.mclk && s.ppoCrossed (s.ppo k)

/-- The pulses of an output that wait for their beginning. -/
def State.ppoWaiting (s : State) (k : Nat) : Nat := (s.ppo k).backlog + b2n (s.ppoCrosses k)

/-- May a pulse begin: none began in the last two sample ticks (R143)? -/
def State.ppoFree (s : State) (k : Nat) : Bool := (s.ppo k).beganAt.all fun t => t + 2 ≤ s.clk.sample

/-- The first waiting pulse begins when it may; the others wait. -/
def State.ppoPulse (s : State) (k : Nat) : State :=
  (s.modPpo k fun x => { x with
    crossed := x.crossed + b2n (s.ppoCrosses k), high := x.high || s.ppoFree k,
    beganAt := if s.ppoFree k then some s.clk.sample else x.beganAt }).ppoBack k (s.ppoWaiting k - b2n (s.ppoFree k))

theorem exec_proofPulse (k : Fin 4) (s : State) :
    exec (.proofPulse k) s = .next (if s.ppoWaiting k = 0 then s else s.ppoPulse k) := rfl

theorem ppo_ppoPulse (s : State) (k : Nat) : (s.ppoPulse k).ppo k = { s.ppo k with
    crossed := (s.ppo k).crossed + b2n (s.ppoCrosses k), high := (s.ppo k).high || s.ppoFree k,
    beganAt := if s.ppoFree k then some s.clk.sample else (s.ppo k).beganAt,
    backlog := min 65535 (s.ppoWaiting k - b2n (s.ppoFree k)) } := by
  rw [State.ppoPulse, ppo_ppoBack, ppo_modPpo_self]

theorem ppo_ppoPulse_free {s : State} {k : Nat} (h : s.ppoFree k = true) : (s.ppoPulse k).ppo k = { s.ppo k with
    crossed := (s.ppo k).crossed + b2n (s.ppoCrosses k), high := true, beganAt := some s.clk.sample,
    backlog := min 65535 (s.ppoWaiting k - 1) } := by
  rw [ppo_ppoPulse, h, Bool.or_true]
  rfl

theorem ppo_ppoPulse_held {s : State} {k : Nat} (h : s.ppoFree k = false) : (s.ppoPulse k).ppo k = { s.ppo k with
    crossed := (s.ppo k).crossed + b2n (s.ppoCrosses k), backlog := min 65535 (s.ppoWaiting k) } := by
  rw [ppo_ppoPulse, h, Bool.or_false]
  rfl

theorem wordsBut_ppoPulse (s : State) (k : Nat) : WordsBut [A.MET_PPO_STAT] s (s.ppoPulse k) := wordsBut_ppoBack _ k _

theorem ppoFree_iff (s : State) (k : Nat) : s.ppoFree k = true ↔ ∀ f, (s.ppo k).beganAt = some f → f + 2 ≤ s.clk.sample := by
  cases h : (s.ppo k).beganAt <;> simp [State.ppoFree, h]

/-- Sample ticks of the pulse in progress, the running one counted. -/
def State.ppoGone (s : State) (k : Nat) : Nat := match (s.ppo k).beganAt with | some t => s.clk.sample + 1 - t | none => 0

theorem ppoGone_eq {s : State} {k f : Nat} (h : (s.ppo k).beganAt = some f) : s.ppoGone k = s.clk.sample + 1 - f := by
  simp only [State.ppoGone, h]

/-- Is the pulse over: after its width, or half the interval to the next one (R143)? -/
def State.ppoOver (s : State) (k : Nat) : Bool :=
  100 * max 1 (s.rd (F.MET_PPOk_CFG_PW k)) ≤ 625 * s.ppoGone k || (s.ppo k).backlog ≠ 0 ||
    s.clk.frameLen * ppoUnit ≤ 2 * s.ppoGone k * (s.ppo k).rate

theorem exec_proofPulseEnd (k : Fin 4) (s : State) : exec (.proofPulseEnd k) s = .next
    (if (s.ppo k).high && s.ppoOver k then s.modPpo k fun x => { x with high := false } else s) := rfl

theorem ppoOver_iff {s : State} {k f : Nat} (h : (s.ppo k).beganAt = some f) : s.ppoOver k = true ↔
    100 * max 1 (s.rd (F.MET_PPOk_CFG_PW k)) ≤ 625 * (s.clk.sample + 1 - f) ∨ (s.ppo k).backlog ≠ 0 ∨
      s.clk.frameLen * ppoUnit ≤ 2 * (s.clk.sample + 1 - f) * (s.ppo k).rate := by
  simp only [State.ppoOver, ppoGone_eq h, Bool.or_eq_true, decide_eq_true_eq, or_assoc]

theorem ppoOver_eq_false {s : State} {k f : Nat} (h : (s.ppo k).beganAt = some f)
    (hwidth : 625 * (s.clk.sample + 1 - f) < 100 * max 1 (s.rd (F.MET_PPOk_CFG_PW k))) (hback : (s.ppo k).backlog = 0)
    (hhalf : 2 * (s.clk.sample + 1 - f) * (s.ppo k).rate < s.clk.frameLen * ppoUnit) : s.ppoOver k = false := by
  refine Bool.eq_false_iff.2 fun hover => ?_
  rcases (ppoOver_iff h).1 hover with h | h | h
  · omega
  · exact h hback
  · omega

/-! ## A lost stream (R116) -/

/-- LOST is shown on the whole group. -/
def State.showLost (s : State) (js : List Nat) : State := s.each js fun s j => s.sticky (F.MET_Ln_STRSTAT_LOST j)

/-- The lost streams of the group are raised. -/
def State.lostRaised (s : State) (l : Nat) : State := s.each (s.groupStreams l) fun s k => s.modStream k fun x => { x with lost := false }

/-- The lane fault of a lost stream, shown on the group. -/
def State.streamFault (s : State) (l : Nat) : State := ((s.raiseLane 0x11 2 l).showLost (s.groupOf l)).lostRaised l

/-- The grant is forced to zero at once. -/
def State.forceGrant (s : State) (l : Nat) : State := (s.wr (F.ALC_Ln_GRANT_W l) 0).wrB (F.ALC_Ln_INFO_FORCED l) true

/-- What STREAM_LOST does: the grant of a group still substituted is forced, else the cause is over. -/
def State.streamLost (s : State) (l : Nat) : State :=
  if s.groupSub l then (s.streamFault l).forceGrant l else (s.streamFault l).causeOff 0x11 (some ((s.streamFault l).groupSet l))

theorem exec_streamLost (n : Lane) (s : State) : exec (.streamLost n) s = .next
    (if (s.laneType (s.lead n)).outlet && s.groupLost (s.lead n) then s.streamLost (s.lead n) else s) := by
  change execStreamLost n s = _
  unfold State.streamLost
  cases hsub : s.groupSub (s.lead n) <;> simp [execStreamLost, hsub] <;> rfl

theorem mem_groupOf_of_outlet {s : State} {l : Nat} (h : (s.laneType l).outlet = true) : l ∈ s.groupOf l := by
  unfold State.groupOf
  cases ht : s.laneType l <;> simp [ht, LaneType.outlet] at h ⊢

/-- A status event of a lane's stream status lies above the fault collector. -/
theorem unitWork_showLost (s : State) (js : List Nat) : UnitWork s (s.showLost js) :=
  (UnitWork.refl s).each fun t _ => (UnitWork.refl t).stickyMask _ blockBase_le_add

theorem unitWork_lostRaised (s : State) (l : Nat) : UnitWork s (s.lostRaised l) :=
  (UnitWork.refl s).each fun t _ => (UnitWork.refl t).modMet _

/-- What is noted of the streams is no register. -/
theorem frame_lostRaised (s : State) (l : Nat) : Frame [.met] s (s.lostRaised l) :=
  each_induction (.refl _ s) fun t ht _ _ => ht.trans (frame_setMet t _)

theorem word_lostRaised (s : State) (l a : Nat) : (s.lostRaised l).word a = s.word a :=
  congrArg (fun r => lk resetWord r a) (frame_lostRaised s l .regs (by decide))

theorem rd_lostRaised (s : State) (l : Nat) (g : Fld) : (s.lostRaised l).rd g = s.rd g :=
  rd_eq_of_regs (frame_lostRaised s l .regs (by decide)) (frame_lostRaised s l .gold (by decide)) g

theorem unitWork_streamFault (s : State) (l : Nat) : UnitWork s (s.streamFault l) :=
  ((unitWork_raise s 0x11 2 (some (laneBit l))).trans (unitWork_showLost _ _)).trans (unitWork_lostRaised _ l)

theorem unitWork_streamLost (s : State) (l : Nat) : UnitWork s (s.streamLost l) := by
  unfold State.streamLost
  split
  · exact ((unitWork_streamFault s l).wr _ blockBase_le_add).wr _ blockBase_le_add
  · exact (unitWork_streamFault s l).trans (unitWork_causeOff _ _ _)

theorem groupStreams_congr {s t : State} (h : t.boot = s.boot) (l : Nat) : t.groupStreams l = s.groupStreams l := by
  unfold State.groupStreams State.groupOf State.laneType State.laneCfg
  rw [h]

theorem stream_modStream_self (s : State) (k : Nat) (f : StreamState → StreamState) : (s.modStream k f).stream k = f (s.stream k) :=
  lk_put_self _ _ _ _

theorem stream_modStream_ne (s : State) {j k : Nat} (f : StreamState → StreamState) (h : j ≠ k) :
    (s.modStream k f).stream j = s.stream j :=
  lk_put_ne _ _ _ _ _ h

theorem lost_lostRaised (s : State) {l k : Nat} (hk : k ∈ s.groupStreams l) : ((s.lostRaised l).stream k).lost = false := by
  refine each_establishes (motive := fun t => (t.stream k).lost = false) hk s (fun t => ?_) fun t j ht => ?_
  · rw [stream_modStream_self]
  · by_cases hj : k = j
    · subst hj
      rw [stream_modStream_self]
    · rw [stream_modStream_ne t _ hj]
      exact ht

/-- What follows the raise of the streams changes none of them. -/
theorem met_streamLost (s : State) (l : Nat) : (s.streamLost l).met = (s.streamFault l).met := by
  unfold State.streamLost State.forceGrant State.wrB
  split
  · rw [met_wr, met_wr]
  · rfl

theorem groupLost_streamLost (s : State) (l : Nat) : (s.streamLost l).groupLost l = false := by
  have hboot : ((s.raiseLane 0x11 2 l).showLost (s.groupOf l)).boot = s.boot :=
    ((unitWork_raise s 0x11 2 (some (laneBit l))).trans (unitWork_showLost _ _)).1 .boot (by decide)
  have hboot' : (s.streamLost l).boot = s.boot := (unitWork_streamLost s l).1 .boot (by decide)
  rw [State.groupLost, groupStreams_congr hboot', List.any_eq_false]
  intro k hk
  rw [← groupStreams_congr hboot] at hk
  rw [State.stream, met_streamLost]
  exact Bool.eq_false_iff.1 (lost_lostRaised _ hk)

/-- Words of the fault collector are as the raise left them. -/
theorem word_streamLost (s : State) (l : Nat) {a : Nat} (ha : a < blockBase 4) :
    (s.streamLost l).word a = (s.raiseLane 0x11 2 l).word a := by
  have hshown : ∀ t : State, ∀ js, (t.showLost js).word a = t.word a := fun t js =>
    each_induction (motive := fun u => u.word a = t.word a) rfl fun u hu j _ =>
      (word_setWord_ne u _ a _ (Nat.ne_of_lt (ha.trans_le (Nat.le_add_right_of_le (by decide))))).trans hu
  have hfault : (s.streamFault l).word a = (s.raiseLane 0x11 2 l).word a :=
    (word_lostRaised _ l a).trans (hshown _ _)
  rw [← hfault]
  unfold State.streamLost
  split
  · rw [State.forceGrant, State.wrB, word_wr_out _ (F.ALC_Ln_INFO_FORCED l), word_wr_out _ (F.ALC_Ln_GRANT_W l)]
    all_goals
      simp only [F.ALC_Ln_INFO_FORCED, F.ALC_Ln_GRANT_W, A.ALC_Ln_INFO, A.ALC_Ln_GRANT, blockBase] at ha ⊢
      omega
  · rfl

theorem raised_streamLost (s : State) (l : Nat) : Raised s (s.streamLost l) 0x11 2 (some (s.groupSet l)) := by
  have hstk : (s.streamLost l).rd (F.FLT_SRCi_STK 0x11) = (s.raiseLane 0x11 2 l).rd (F.FLT_SRCi_STK 0x11) :=
    rd_eq_of_words rfl fun i hi => word_streamLost s l (by simp only [F.FLT_SRCi_STK, A.FLT_SRCi, blockBase] at hi ⊢; omega)
  have hraise : Raised s (s.raiseLane 0x11 2 l) 0x11 2 (some (s.groupSet l)) := raised_raise s 0x11 2 (some (laneBit l)) (by decide)
  exact hraise.imp id hstk.trans

/-- LOST of every lane of the group. -/
theorem rd_lost_showLost (s : State) {js : List Nat} {j : Nat} (hj : j ∈ js) : (s.showLost js).rd (F.MET_Ln_STRSTAT_LOST j) = 1 := by
  have hset (t : State) : (t.sticky (F.MET_Ln_STRSTAT_LOST j)).rd (F.MET_Ln_STRSTAT_LOST j) = 1 :=
    rd_sticky_self t _ rfl (by decide : 18 < 24) rfl
  refine each_establishes (motive := fun t => t.rd (F.MET_Ln_STRSTAT_LOST j) = 1) hj s hset fun t k ht => ?_
  by_cases hk : j = k
  · subst hk
    exact hset t
  · refine ((regsBut_sticky t (F.MET_Ln_STRSTAT_LOST k)).2.rd_eq rfl fun i hi => ?_).trans ht
    simp only [F.MET_Ln_STRSTAT_LOST, A.MET_Ln_STRSTAT, List.mem_singleton] at hi ⊢
    omega

theorem rd_lost_streamLost {s : State} {l : Nat} (hl : (s.laneType l).outlet = true) :
    (s.streamLost l).rd (F.MET_Ln_STRSTAT_LOST l) = 1 := by
  have hfault : (s.streamFault l).rd (F.MET_Ln_STRSTAT_LOST l) = 1 :=
    (rd_lostRaised _ l _).trans (rd_lost_showLost _ (mem_groupOf_of_outlet hl))
  rw [← hfault]
  unfold State.streamLost
  split
  · rw [State.forceGrant, State.wrB, rd_wr_apart _ (F.ALC_Ln_INFO_FORCED l), rd_wr_apart _ (F.ALC_Ln_GRANT_W l)]
    all_goals
      intro i hi j hj
      simp only [F.ALC_Ln_INFO_FORCED, F.ALC_Ln_GRANT_W, F.MET_Ln_STRSTAT_LOST, A.ALC_Ln_INFO, A.ALC_Ln_GRANT,
        A.MET_Ln_STRSTAT] at hi hj ⊢
      omega
  · exact rd_causeOff _ _ _ _

theorem rd_forceGrant (s : State) (l : Nat) :
    (s.forceGrant l).rd (F.ALC_Ln_GRANT_W l) = 0 ∧ (s.forceGrant l).rd (F.ALC_Ln_INFO_FORCED l) = 1 := by
  refine ⟨?_, rd_wrB _ (F.ALC_Ln_INFO_FORCED l) true rfl rfl⟩
  have hok : (F.ALC_Ln_GRANT_W l).Ok := ⟨Nat.zero_le 31, .inr (by decide : 4 * (31 / 32 + 1) ≤ 0x4000)⟩
  rw [State.forceGrant, State.wrB, rd_wr_apart, rd_wr _ _ 0 hok, Nat.zero_mod]
  intro i hi j hj
  simp only [F.ALC_Ln_INFO_FORCED, F.ALC_Ln_GRANT_W, A.ALC_Ln_INFO, A.ALC_Ln_GRANT] at hi hj ⊢
  omega

theorem rd_streamLost_grant {s : State} {l : Nat} (h : s.groupSub l = true) :
    (s.streamLost l).rd (F.ALC_Ln_GRANT_W l) = 0 ∧ (s.streamLost l).rd (F.ALC_Ln_INFO_FORCED l) = 1 := by
  rw [State.streamLost, if_pos h]
  exact rd_forceGrant _ l

/-- Settles O45: the capture's commands by their state, the sensors' words by the read that comes for them in the scan, a pulse by
the pulses waiting and the time since the last, a lost stream by its raise and its group. -/
theorem captureSensorsAndProofPulses : Obligations.CaptureSensorsAndProofPulses := by
  unfold Obligations.CaptureSensorsAndProofPulses
  refine ⟨fun s => ?_, fun s reads => ?_, fun s m => ?_, fun s => ?_, fun s k => ?_, fun s n => ?_⟩
  · dsimp only
    rw [exec_captureArm, exec_captureSwtrig, exec_captureRelease, exec_captureDone, exec_captureDataRead]
    refine ⟨fun h => ?_, fun h => ?_, ?_, fun h => ?_, fun h hp => ?_, fun p h hp => ?_, fun h => ?_, fun h => ?_,
      fun h₀ h₁ hp => ?_, fun p h₀ h₁ hp hs hlost => ?_, fun h hleft => ?_, fun h => ?_, ?_⟩
    · obtain ⟨hcount, hrings⟩ := cap_capIdle s
      rw [if_pos h]
      exact ⟨_, rfl, rd_state_capIdle s, hcount, hrings, frame_capIdle s⟩
    · rw [if_neg h]
    · obtain ⟨hstate, hpend⟩ := rd_capDisarm s
      exact ⟨s.capDisarm, rfl, hstate, hpend, rfl, rfl, rfl, frame_capDisarm s⟩
    · rw [if_neg h]
    · rw [if_pos h, if_pos (by rw [hp]; rfl)]
      exact ⟨_, rfl, rd_state_capIdle s, (cap_capIdle s).1⟩
    · rw [if_pos h, if_neg (by rw [hp]; nofun)]
      exact ⟨_, rfl, rfl, frame_modCap s _⟩
    · rw [capEvent_off h]
    · rw [capEvent_idle h]
      exact ⟨_, rfl, rfl, frame_modCap s _⟩
    · rw [capEvent_busy h₀ h₁]
      obtain ⟨hpend, hcap, hregs⟩ := capPend_none_spec hp (s.capTrigger 1 s.clk.tickInFrame (s.clk.sample + 1))
      exact ⟨_, _, rfl, hpend, hcap, rfl, rfl, rfl, rfl, hregs⟩
    · rw [capEvent_busy h₀ h₁]
      exact ⟨_, rfl, capPend_lost_spec hp hs hlost⟩
    · obtain ⟨hstate, hdone, hregs⟩ := captureDone_spec s
      rw [if_pos ⟨h, hleft⟩]
      exact ⟨_, rfl, hstate, hdone, hregs⟩
    · rw [if_neg (by omega)]
    · simp only [← rd_capRead s]
      exact ⟨_, rfl, readData_capRead_capAdvance s, rd_capAdvance_last, rd_capAdvance_within, frame_capRead_capAdvance s⟩
  · refine ⟨fun h => exec_sensorBusScan_off h reads, fun hen hmclk => ?_⟩
    exact ⟨_, exec_sensorBusScan_on hen hmclk reads, rd_nstale_scanSensors s reads, fun m r v hm hfind hr =>
      showsReading_scanSensors s m.isLt hm (by simp only [readingOf, hfind, hr])⟩
  · rw [exec_sensorBusFault]
    refine ⟨⟨_, rfl, rd_sticky_self s F.MET_SNB_STAT_STUCK rfl (by decide) rfl, regsBut_sticky s F.MET_SNB_STAT_STUCK⟩,
      fun f hen hsen hfails hsince hlate hfault => ?_, fun h => ?_⟩
    · rw [if_pos ((sensorFaultDue_iff s m).2 ⟨hen, hsen, hfails, ⟨f, hsince, hlate⟩, hfault⟩)]
      exact ⟨_, rfl, sensorFault_spec s m⟩
    · rw [sensorFaultDue_eq_false h]
      rfl
  · exact ⟨_, rfl, rd_wrB s F.MET_SEAL_LOCK true rfl rfl, regsBut_wrB s F.MET_SEAL_LOCK true (by decide) rfl⟩
  · dsimp only
    change (_ → s.ppoCrosses k = false → _) ∧ _
    rw [exec_proofPulse, exec_proofPulseEnd]
    refine ⟨fun hback hcross => ?_, fun hwait hfree => ?_, fun f hwait hbegan hsoon => ?_,
      fun f hbegan => ⟨fun hhigh hover => ?_, fun hw hb hr => ?_⟩, fun hlow => ?_⟩
    · rw [if_pos (by simp [State.ppoWaiting, hback, hcross, b2n])]
    · rw [if_neg (show s.ppoWaiting k ≠ 0 from hwait)]
      refine ⟨_, rfl, ?_, ?_, ?_, ?_, wordsBut_ppoPulse s k⟩ <;> rw [ppo_ppoPulse_free ((ppoFree_iff s k).2 hfree)]
      · rfl
      · rfl
    · have hheld : s.ppoFree k = false := by simpa [State.ppoFree, hbegan] using hsoon
      rw [if_neg (show s.ppoWaiting k ≠ 0 from hwait)]
      refine ⟨_, rfl, ?_, ?_, ?_⟩ <;> rw [ppo_ppoPulse_held hheld]
      · rfl
      · exact hbegan
    · rw [if_pos (by rw [hhigh, (ppoOver_iff hbegan).2 hover]; rfl)]
      exact ⟨_, rfl, ppo_modPpo_self s k _, fun j hj => ppo_modPpo_ne s _ hj, frame_setMet s _⟩
    · rw [ppoOver_eq_false hbegan hw hb hr, Bool.and_false]
      rfl
    · rw [if_neg (by simp [hlow])]
  · dsimp only
    rw [exec_streamLost]
    refine ⟨fun houtlet hlost => ?_, fun h => ?_⟩
    · rw [if_pos (by rw [houtlet, hlost]; rfl)]
      exact ⟨_, rfl, raised_streamLost s _, rd_lost_streamLost houtlet, groupLost_streamLost s _, rd_streamLost_grant⟩
    · rw [if_neg (by rcases h with h | h <;> simp [h])]

end Sys2Proof.Machine
end

