-- ==== Sys2Proof/Proofs/BillingRebuilds.lean ====
section
/-!
PROOFS. The rebuild of a lane's failed pairs (R146): which registers it writes, and what the entry it logs (R160, R161) leaves alone.
-/

namespace Sys2Proof.Machine

open Sys2Proof

/-! ## The words a ledger entry leaves alone -/

theorem wordsBut_of_regs {s t : State} (as : List Nat) (h : t.regs = s.regs) : WordsBut as s t := fun a _ => by
  rw [State.word, State.word, h]

theorem regs_memWrite (s : State) (a : Nat) (bs : List Byte) : (s.memWrite a bs).regs = s.regs := by
  induction bs generalizing s a with
  | nil => rfl
  | cons b bs ih =>
    rw [State.memWrite, ih, State.setByte]
    split <;> rfl

theorem regs_setGap (s : State) (lane : Nat) (v : Bool) : (s.setGap lane v).regs = s.regs := by
  unfold State.setGap
  split <;> rfl

/-- An entry moves the ring's write pointer, or counts as lost (R161). -/
theorem wordsBut_storeEntry (s : State) (lane : Nat) (e : List Byte) :
    WordsBut [A.BIL_LDG_PTR, A.BIL_LDG_LOST] s (s.storeEntry lane e) := by
  unfold State.storeEntry
  split
  · exact ((regsBut_wr_word s F.BIL_LDG_LOST_COUNT _ (by decide) rfl).2.mono (by decide)).trans (wordsBut_of_regs _ (regs_setGap _ _ _))
  · extract_lets base slot
    have hstored := wordsBut_of_regs [A.BIL_LDG_PTR, A.BIL_LDG_LOST] (regs_memWrite s (base + 64 * slot) e)
    have hmoved := (regsBut_wr_word (s.memWrite (base + 64 * slot) e) F.BIL_LDG_PTR_WR
      (((s.memWrite (base + 64 * slot) e).rd F.BIL_LDG_PTR_WR + 1) % 2 ^ F.BIL_LDG_PTR_WR.width) (by decide) rfl).2
    exact (hstored.trans (hmoved.mono (by decide))).trans (wordsBut_of_regs _ (regs_setGap _ _ _))

theorem wordsBut_ledger (s : State) (kind lane snum flags : Nat) (payload : List Byte) :
    WordsBut [A.BIL_LDG_PTR, A.BIL_LDG_LOST] s (s.ledger kind lane snum flags payload) := by
  have hchained : ∀ e, WordsBut [A.BIL_LDG_PTR, A.BIL_LDG_LOST] s (s.each s.openSessions fun s n => s.chainLane n e) := fun e =>
    wordsBut_of_regs _ (each_induction (motive := fun t => t.regs = s.regs) rfl fun _ ht _ _ => ht)
  unfold State.ledger State.ledgerEntry
  refine WordsBut.trans ?_ (wordsBut_storeEntry _ _ _)
  split
  · exact fun _ _ => rfl
  · split
    · exact hchained _
    · split <;> exact wordsBut_of_regs _ rfl

/-! ## The words a rebuild writes -/

/-- The register that a number of a rebuild names: a billing register, or from 100 on an energy register. -/
def rebuildFld (n i : Nat) : Fld := if i < 100 then bilReg n i else F.MET_Ln_EIMP_COUNT n (i - 100)

/-- The numbers a rebuild of lane `n` works through: the pairs that fail, and those noted at fault. -/
def State.rebuildList (s : State) (n : Nat) : List Nat :=
  s.failedPairs n ++ (s.metLane n).cplBad.map (100 + ·) ++ (s.bilLane n).faulted

/-- The registers named are written again, each from the last value that passed. -/
def State.rewritePairs (s : State) (n : Nat) (is : List Nat) : State :=
  s.each is fun s i => s.wr (rebuildFld n i) (s.rd (rebuildFld n i))

theorem bil_rewritePairs (s : State) (n : Nat) (is : List Nat) : (s.rewritePairs n is).bil = s.bil :=
  each_induction (motive := fun t => t.bil = s.bil) rfl fun t ht i _ => by
    rw [wr_parts]
    exact ht

/-- Without counts held back, a credit of none does nothing. -/
theorem each_credit_zero {s : State} {n : Nat} (hheld : (s.bilLane n).held = []) (is : List Nat) :
    (s.each is fun s i => s.credit n i 0) = s :=
  each_induction (motive := fun t => t = s) rfl fun t ht i _ => by
    rw [ht]
    simp [State.credit, hheld, lk]

/-- The words of a rebuild with no counts held back are those of the registers written again, but for its counter and its ledger
entry. -/
theorem wordsBut_rebuild {s : State} {n : Nat} (hlist : s.rebuildList n ≠ []) (hheld : (s.bilLane n).held = []) :
    WordsBut [A.BIL_HSTAT, A.BIL_LDG_PTR, A.BIL_LDG_LOST] (s.rewritePairs n (s.rebuildList n)) (s.rebuild n) := by
  have hheld' : ((s.rewritePairs n (s.rebuildList n)).bilLane n).held = [] := by rwa [State.bilLane, bil_rewritePairs]
  have hcredit := each_credit_zero hheld' (List.range 36)
  unfold State.rebuild
  extract_lets bad fld rewritten credited noted ended
  rw [if_neg (show ¬bad.isEmpty = true by rwa [List.isEmpty_iff])]
  have hcredited : credited = s.rewritePairs n (s.rebuildList n) := hcredit
  clear_value credited
  have hregs : ended.regs = credited.regs := rfl
  have hended := wordsBut_of_regs [A.BIL_HSTAT, A.BIL_LDG_PTR, A.BIL_LDG_LOST] (hregs.trans (congrArg State.regs hcredited))
  have hcounted := (regsBut_wr_word ended F.BIL_HSTAT_REBUILDS
    (satNat F.BIL_HSTAT_REBUILDS.max (ended.rd F.BIL_HSTAT_REBUILDS + 1)) (by decide) rfl).2
  exact (hended.trans (hcounted.mono (by decide))).trans ((wordsBut_ledger _ _ _ _ _ _).mono (by decide))

/-! ## A rebuild over a number that names no register

A rebuild writes the registers of every number noted at fault. Only numbers of the ten energy registers come to be noted there
(R133); but O46 is stated for every state, with no word said about what is noted, and the register that number 64 would be has its
own word where the first energy register has its shadow. -/

theorem fieldGood_of_failedPairs_eq_nil {s : State} {n q : Nat} (h : s.failedPairs n = []) (hq : q < 10) :
    s.fieldGood (F.MET_Ln_EIMP_COUNT n q) = true := by
  obtain ⟨-, henergy⟩ := List.append_eq_nil_iff.1 h
  simpa using List.filter_eq_nil_iff.1 (List.map_eq_nil_iff.1 henergy) q (List.mem_range.2 hq)

/-- The state after reset, with one mWh in lane 0's first energy register, and the number 64 noted at fault. -/
def strayFault : State :=
  (State.reset.wr (F.MET_Ln_EIMP_COUNT 0 0) 1).modMetLane 0 fun m => { m with cplBad := [64] }

theorem rebuildList_strayFault : strayFault.rebuildList 0 = [164] := by decide +kernel

/-- The word written at number 64, the last value that passed there, is not the complement of the first energy register. -/
theorem pairGood_rewritePairs_strayFault : (strayFault.rewritePairs 0 [164]).pairGood (A.MET_Ln_EIMP 0 0) 0x200 = false := by
  decide +kernel

theorem pairGood_rebuild_strayFault : (strayFault.rebuild 0).pairGood (A.MET_Ln_EIMP 0 0) 0x200 = false := by
  have hwords := wordsBut_rebuild (s := strayFault) (n := 0) (by rw [rebuildList_strayFault]; nofun) rfl
  rw [rebuildList_strayFault] at hwords
  rw [← pairGood_rewritePairs_strayFault, State.pairGood, State.pairGood, hwords _ (by decide), hwords _ (by decide)]

/-- Refutes O46: the rebuild of a lane whose energy registers' pairs are all good, with a number noted at fault that names none of
them, leaves the first one's pair failing. -/
theorem not_billingTamperAndWallTime : ¬ Obligations.BillingTamperAndWallTime := by
  unfold Obligations.BillingTamperAndWallTime
  rintro ⟨hbilling, -⟩
  obtain ⟨-, -, -, -, -, -, hrebuild⟩ := hbilling strayFault
  have hlane : strayFault.rd F.BIL_CTL_LANE = 0 := by decide +kernel
  rw [hlane] at hrebuild
  change _ ∧ (strayFault.rebuildList 0 ≠ [] → _) at hrebuild
  obtain ⟨-, hrepaired⟩ := hrebuild
  obtain ⟨t, ht, hgood, -⟩ := hrepaired (by rw [rebuildList_strayFault]; nofun)
  have hexec : exec .billingRebuild strayFault = .next (strayFault.rebuild (strayFault.rd F.BIL_CTL_LANE)) := rfl
  rw [hexec, hlane] at ht
  obtain rfl : strayFault.rebuild 0 = t := by injection ht
  have hfirst := fieldGood_of_failedPairs_eq_nil hgood (by decide : 0 < 10)
  have hpair : (strayFault.rebuild 0).pairGood (A.MET_Ln_EIMP 0 0) 0x200 = true :=
    List.all_eq_true.1 hfirst 0 (by decide)
  exact absurd (pairGood_rebuild_strayFault.symm.trans hpair) (by decide)

end Sys2Proof.Machine
end

