-- ==== Sys2Proof/Proofs/LaneRecords.lean ====
section
/-!
PROOFS. The pilot unit's registers and records of one lane (R202): what a field reads after a write of another field, what a change
of a lane's record leaves alone, and the decision of an exit cause (R198).
-/

namespace Sys2Proof.Machine

open Sys2Proof

/-! ## Fields of one word -/

/-- A field within one word of a register without a shadow. -/
def Fld.plain (f : Fld) : Bool := decide (f.sh = 0) && decide (f.lo ≤ f.hi) && decide (f.hi < 32)

theorem Fld.plain_iff (f : Fld) : f.plain = true ↔ f.sh = 0 ∧ f.lo ≤ f.hi ∧ f.hi < 32 := by
  simp [Fld.plain, and_assoc]

theorem rd_wr_plain (s : State) {f : Fld} {v : Nat} (hv : v < 2 ^ f.width) (hf : f.plain = true := by rfl) : (s.wr f v).rd f = v := by
  obtain ⟨hsh, hlo, -⟩ := f.plain_iff.1 hf
  rw [rd_wr s f v ⟨hlo, .inl hsh⟩, Nat.mod_eq_of_lt hv]

theorem rd_count_plain (s : State) {f : Fld} (k : Nat) (hf : f.plain = true := by rfl) : (s.count f k).rd f = min f.max (s.rd f + k) :=
  have ⟨hsh, hlo, _⟩ := f.plain_iff.1 hf
  rd_count s f k ⟨hlo, .inl hsh⟩

/-- A field of the same word that shares no bit reads as before. -/
theorem rd_wr_beside (s : State) {f g : Fld} (v : Nat) (haddr : g.addr = f.addr := by rfl) (hf : f.plain = true := by rfl)
    (hg : g.plain = true := by rfl) (hapart : (decide (g.hi < f.lo) || decide (f.hi < g.lo)) = true := by rfl) :
    (s.wr f v).rd g = s.rd g := by
  obtain ⟨hfsh, hflo, hfhi⟩ := f.plain_iff.1 hf
  obtain ⟨hgsh, hglo, hghi⟩ := g.plain_iff.1 hg
  exact rd_wr_same_word s f g v ⟨hflo, .inl hfsh⟩ haddr (hgsh.trans hfsh.symm) hfhi hghi hglo (by simpa using hapart)

/-- A field of one word reads as before when its word did not change. -/
theorem WordsBut.rd_plain {as : List Nat} {s t : State} (h : WordsBut as s t) {g : Fld} (haddr : g.addr ∉ as)
    (hg : g.plain = true := by rfl) : t.rd g = s.rd g := by
  obtain ⟨hsh, -, hhi⟩ := g.plain_iff.1 hg
  refine h.rd_eq hsh fun i hi => ?_
  obtain rfl : i = 0 := by omega
  exact haddr

theorem regsBut_wr_plain (s : State) {f : Fld} (v : Nat) (hf : f.plain = true := by rfl) : RegsBut [f.addr] s (s.wr f v) :=
  have ⟨hsh, _, hhi⟩ := f.plain_iff.1 hf
  regsBut_wr_word s f v hhi hsh

/-- A field of another word reads as before. -/
theorem rd_wr_elsewhere (s : State) {f g : Fld} (v : Nat) (haddr : g.addr ≠ f.addr) (hf : f.plain = true := by rfl)
    (hg : g.plain = true := by rfl) : (s.wr f v).rd g = s.rd g :=
  (regsBut_wr_plain s v hf).2.rd_plain (by simpa using haddr) hg

/-- Two registers of one lane at different offsets. -/
theorem laneAddr_ne {x y k : Nat} (h : Nat.beq x y = false := by rfl) : x + k ≠ y + k := fun he =>
  Nat.ne_of_beq_eq_false h (Nat.add_right_cancel he)

/-- A field reads as before when its words, their shadows and the last good values did not change. -/
theorem rd_eq_of_shadowed {s t : State} {g : Fld} (hgold : t.gold = s.gold)
    (hword : ∀ i < g.hi / 32 + 1, t.word (g.addr + 4 * i) = s.word (g.addr + 4 * i))
    (hshadow : ∀ i < g.hi / 32 + 1, t.word (g.addr + 4 * i + g.sh) = s.word (g.addr + 4 * i + g.sh)) : t.rd g = s.rd g := by
  unfold State.rd
  rw [useWords_congr s t _ _ _ fun i hi => by rw [State.useWord, State.useWord, State.pairGood, State.pairGood, hword i hi, hshadow i hi, hgold]]

/-! ## The lanes' records -/

theorem frame_setPil (s : State) (v : PilState) : Frame [.pil] s (s.setPil v) := by
  intro p hp
  cases p
  case pil => simp at hp
  all_goals rfl

@[simp] theorem rd_modPil (s : State) (f : PilState → PilState) (g : Fld) : (s.modPil f).rd g = s.rd g :=
  rd_eq_of_regs (s := s) (t := s.modPil f) rfl rfl g

@[simp] theorem rd_modPilLane (s : State) (n : Nat) (f : PilLane → PilLane) (g : Fld) : (s.modPilLane n f).rd g = s.rd g := rd_modPil s _ g

@[simp] theorem pil_wr (s : State) (f : Fld) (v : Nat) : (s.wr f v).pil = s.pil := by
  rw [wr_parts]
  rfl

@[simp] theorem boot_wr (s : State) (f : Fld) (v : Nat) : (s.wr f v).boot = s.boot := by
  rw [wr_parts]
  rfl

@[simp] theorem pilLane_wr (s : State) (f : Fld) (v n : Nat) : (s.wr f v).pilLane n = s.pilLane n := by
  rw [State.pilLane, pil_wr, State.pilLane]

@[simp] theorem pilLane_modPilLane_self (s : State) (n : Nat) (f : PilLane → PilLane) : (s.modPilLane n f).pilLane n = f (s.pilLane n) :=
  lk_put_self _ _ _ _

theorem pilLane_modPilLane_ne (s : State) {n j : Nat} (f : PilLane → PilLane) (h : j ≠ n) : (s.modPilLane n f).pilLane j = s.pilLane j :=
  lk_put_ne _ _ _ _ _ h

theorem laneType_congr {s t : State} (h : t.boot = s.boot) (n : Nat) : t.laneType n = s.laneType n := by
  rw [State.laneType, State.laneCfg, h, State.laneType, State.laneCfg]

theorem lead_congr {s t : State} (h : t.boot = s.boot) (n : Nat) : t.lead n = s.lead n := by
  rw [State.lead, laneType_congr h, State.lead]

@[simp] theorem lead_wr (s : State) (f : Fld) (v n : Nat) : (s.wr f v).lead n = s.lead n := lead_congr (boot_wr s f v) n

/-! ## Work on one lane -/

/-- Work in the parts `ps` that changes, of the registers, at most the words `as`, and of the lanes' records at most lane `n`'s. -/
structure LaneWork (ps : List Part) (n : Nat) (as : List Nat) (s t : State) : Prop where
  words : WordsBut as s t
  frame : Frame ps s t
  lanes : ∀ j, j ≠ n → t.pilLane j = s.pilLane j

theorem LaneWork.refl (ps : List Part) (n : Nat) (as : List Nat) (s : State) : LaneWork ps n as s s :=
  ⟨fun _ _ => rfl, .refl ps s, fun _ _ => rfl⟩

section
variable {ps : List Part} {n : Nat} {as : List Nat} {s t : State} (h : LaneWork ps n as s t)
include h

theorem LaneWork.trans {u : State} (hu : LaneWork ps n as t u) : LaneWork ps n as s u :=
  ⟨h.words.trans hu.words, h.frame.trans hu.frame, fun j hj => (hu.lanes j hj).trans (h.lanes j hj)⟩

theorem LaneWork.mono {qs : List Part} {bs : List Nat} (hps : ∀ p ∈ ps, p ∈ qs) (has : ∀ a ∈ as, a ∈ bs) : LaneWork qs n bs s t :=
  ⟨h.words.mono has, h.frame.mono hps, h.lanes⟩

theorem LaneWork.wr (f : Fld) (v : Nat) (haddr : f.addr ∈ as) (hps : Part.regs ∈ ps := by decide) (hf : f.plain = true := by rfl) :
    LaneWork ps n as s (t.wr f v) :=
  have hwr := regsBut_wr_plain t v hf
  h.trans ⟨hwr.2.mono (by simpa using haddr), hwr.1.mono (by simpa using hps), fun j _ => pilLane_wr t f v j⟩

theorem LaneWork.modPilLane (f : PilLane → PilLane) (hps : Part.pil ∈ ps := by decide) : LaneWork ps n as s (t.modPilLane n f) :=
  h.trans ⟨fun _ _ => rfl, (frame_setPil t _).mono (by simpa using hps), fun _ hj => pilLane_modPilLane_ne t f hj⟩

theorem LaneWork.boot_eq (hps : Part.boot ∉ ps := by decide) : t.boot = s.boot := h.frame .boot hps

theorem LaneWork.rd_plain {g : Fld} (haddr : g.addr ∉ as) (hg : g.plain = true := by rfl) : t.rd g = s.rd g := h.words.rd_plain haddr hg

end

/-! ## Exit causes (R198) -/

/-- A cause beside the fault path, other than A with the contactor closed, is only noted for the next edge. -/
theorem decideExit_orderly (s : State) (n : Nat) {c : Nat} (hpath : faultPath c = false := by rfl) (hc : c ≠ 1 := by decide) :
    s.decideExit n c = s.modPilLane (s.lead n) fun p => { p with decided := c :: p.decided } := by
  simp [State.decideExit, State.when, hpath, hc]

end Sys2Proof.Machine
end

