-- ==== Sys2Proof/Proofs/Authorisation.lean ====
section
/-!
PROOFS. Authorisation (R190 to R192): what an acceptance and a refusal leave behind, when a decision is open, and the held cards.
-/

namespace Sys2Proof.Machine

open Sys2Proof

/-! ## Acceptance -/

theorem rd_path_acceptAuth (s : State) (n result cls : Nat) {path : Nat} (h : path < 16) :
    (s.acceptAuth n path result cls).rd (F.PIL_Ln_AUTH_PATH n) = path := by
  rw [State.acceptAuth, rd_modPilLane]
  exact (rd_wr_beside _ _).trans ((rd_wr_beside _ _).trans ((rd_wr_elsewhere _ _ laneAddr_ne).trans (rd_wr_plain s h)))

theorem rd_sessPath_acceptAuth (s : State) (n result cls : Nat) {path : Nat} (h : path < 8) :
    (s.acceptAuth n path result cls).rd (F.PIL_Ln_SESS_AUTHPATH n) = path := by
  rw [State.acceptAuth, rd_modPilLane]
  exact (rd_wr_elsewhere _ _ laneAddr_ne).trans ((rd_wr_elsewhere _ _ laneAddr_ne).trans (rd_wr_plain _ h))

theorem rd_result_acceptAuth (s : State) (n path cls : Nat) {result : Nat} (h : result < 16) :
    (s.acceptAuth n path result cls).rd (F.PIL_Ln_AUTH_RESULT n) = result := by
  rw [State.acceptAuth, rd_modPilLane]
  exact (rd_wr_beside _ _).trans (rd_wr_plain _ h)

theorem rd_class_acceptAuth (s : State) (n path result : Nat) {cls : Nat} (h : cls < 4) :
    (s.acceptAuth n path result cls).rd (F.PIL_Ln_AUTH_CLASS n) = cls := by
  rw [State.acceptAuth, rd_modPilLane]
  exact rd_wr_plain _ h

theorem accepted_acceptAuth (s : State) (n path result cls : Nat) : ((s.acceptAuth n path result cls).pilLane n).accepted = true := by
  rw [State.acceptAuth, pilLane_modPilLane_self]

theorem laneWork_acceptAuth (s : State) (n path result cls : Nat) :
    LaneWork [.regs, .pil] n [A.PIL_Ln_AUTH n, A.PIL_Ln_SESS n] s (s.acceptAuth n path result cls) := by
  have hpath := (LaneWork.refl [.regs, .pil] n [A.PIL_Ln_AUTH n, A.PIL_Ln_SESS n] s).wr (F.PIL_Ln_AUTH_PATH n) path (.head _)
  have hshown := hpath.wr (F.PIL_Ln_SESS_AUTHPATH n) path (.tail _ (.head _))
  have hresult := hshown.wr (F.PIL_Ln_AUTH_RESULT n) result (.head _)
  unfold State.acceptAuth
  exact (hresult.wr (F.PIL_Ln_AUTH_CLASS n) cls (.head _)).modPilLane _

/-- What the back office states changes the lane's record alone, and not its acceptance. -/
@[simp] theorem rd_takeBo (s : State) (n : Nat) (ev : EvValues) (g : Fld) : (s.takeBo n ev).rd g = s.rd g := rd_modPilLane s n _ g

@[simp] theorem accepted_takeBo (s : State) (n : Nat) (ev : EvValues) : ((s.takeBo n ev).pilLane n).accepted = (s.pilLane n).accepted := by
  rw [State.takeBo, pilLane_modPilLane_self]

theorem boEnergy_takeBo (s : State) (n : Nat) {ev : EvValues} {e : Word} (h : ev.energy = some e) :
    ((s.takeBo n ev).pilLane n).boEnergy = e.toNat := by
  rw [State.takeBo, pilLane_modPilLane_self, h]

theorem laneWork_takeBo (s : State) (n : Nat) (as : List Nat) (ev : EvValues) : LaneWork [.regs, .pil] n as s (s.takeBo n ev) := by
  unfold State.takeBo
  exact (LaneWork.refl _ n as s).modPilLane _

/-! ## Refusal -/

theorem rejectAuth_eq (s : State) (n : Nat) : s.rejectAuth n =
    (s.wr (F.PIL_Ln_AUTH_RESULT n) 2).modPilLane (s.lead n) fun p => { p with decided := 0x1B :: p.decided } := by
  rw [State.rejectAuth, decideExit_orderly, lead_wr]

theorem rd_result_rejectAuth (s : State) (n : Nat) : (s.rejectAuth n).rd (F.PIL_Ln_AUTH_RESULT n) = 2 := by
  rw [rejectAuth_eq, rd_modPilLane]
  exact rd_wr_plain _ (by decide : 2 < 2 ^ 4)

theorem rd_path_rejectAuth (s : State) (n : Nat) : (s.rejectAuth n).rd (F.PIL_Ln_AUTH_PATH n) = s.rd (F.PIL_Ln_AUTH_PATH n) := by
  rw [rejectAuth_eq, rd_modPilLane]
  exact rd_wr_beside _ _

theorem decided_rejectAuth (s : State) (n : Nat) : 0x1B ∈ ((s.rejectAuth n).pilLane (s.lead n)).decided := by
  rw [rejectAuth_eq, pilLane_modPilLane_self]
  exact .head _

/-! ## The class of a token (R192) -/

theorem tokenClass_unmapped {s : State} {token : List Byte} (h : ∀ x ∈ s.boot.policy.classes, x.1 ≠ token) : s.tokenClass token = 0 := by
  have hnone : s.boot.policy.classes.find? (fun x => decide (x.1 = token)) = none := List.find?_eq_none.2 fun x hx => by simpa using h x hx
  rw [State.tokenClass, hnone]

theorem tokenClass_mapped {s : State} {token : List Byte} {c : Nat} (h : s.boot.policy.classes = [(token, c)]) : s.tokenClass token = c := by
  simp [State.tokenClass, h]

/-! ## The commands -/

theorem authOpen_iff (s : State) (n : Nat) : s.authOpen n = true ↔ s.sessStep n = 5 ∧ s.rd (F.PIL_Ln_AUTH_RESULT n) = 0 := by
  simp [State.authOpen]

theorem authOpen_eq_false {s : State} {n : Nat} (h : s.sessStep n ≠ 5 ∨ s.rd (F.PIL_Ln_AUTH_RESULT n) ≠ 0) : s.authOpen n = false := by
  rw [← Bool.not_eq_true, authOpen_iff]
  exact not_and_or.2 h

theorem exec_remoteStart (n : Lane) (ev : EvValues) (s : State) : exec (.remoteStart n ev) s = .next
    (if s.authOpen n && s.rdBit (F.PIL_Ln_CTL_AUTH n) 2 then (s.acceptAuth n 3 1 0).takeBo n ev else s) := rfl

theorem exec_authOk (n : Lane) (s : State) : exec (.authOk n) s = .next (if s.fwMay n then s.acceptAuth n 5 1 0 else s) := rfl

/-- Firmware's path is shown, whatever it decides (R190). -/
def State.showFwPath (s : State) (n : Nat) : State := (s.wr (F.PIL_Ln_AUTH_PATH n) 5).wr (F.PIL_Ln_SESS_AUTHPATH n) 5

theorem exec_authNo (n : Lane) (s : State) : exec (.authNo n) s = .next (if s.fwMay n then (s.showFwPath n).rejectAuth n else s) := rfl

theorem rd_path_showFwPath (s : State) (n : Nat) : (s.showFwPath n).rd (F.PIL_Ln_AUTH_PATH n) = 5 :=
  (rd_wr_elsewhere _ _ laneAddr_ne).trans (rd_wr_plain s (by decide : 5 < 2 ^ 4))

theorem lead_showFwPath (s : State) (n : Nat) : (s.showFwPath n).lead n = s.lead n := by
  rw [State.showFwPath, lead_wr, lead_wr]

/-- May a decision be taken from the local list, or not from it (R190)? -/
def State.mayDecide (s : State) (n : Nat) (localList : Bool) : Bool :=
  (s.rd (F.PIL_Ln_AUTH_PATH n) = 1 || s.rd (F.PIL_Ln_AUTH_PATH n) = 2) &&
    (!localList || (s.rd (F.PIL_Ln_AUTH_PATH n) = 1 && s.boot.policy.localList))

/-- The token a decision is about: the card that waits, or the contract's (R192). -/
def State.tokenOf (s : State) (n : Nat) (token : List Byte) : List Byte :=
  if s.rd (F.PIL_Ln_AUTH_PATH n) = 1 then (s.pilLane n).cardUid else token

/-- A token accepted, as an authorisation shows it. -/
def State.acceptToken (s : State) (n : Nat) (localList : Bool) (token : List Byte) : State :=
  s.acceptAuth n (s.rd (F.PIL_Ln_AUTH_PATH n)) (if localList then 4 else 1) (s.tokenClass (s.tokenOf n token))

theorem exec_authDecision (n : Lane) (accept localList : Bool) (token : List Byte) (ev : EvValues) (s : State) :
    exec (.authDecision n accept localList token ev) s = .next
      (if s.authOpen n && s.mayDecide n localList then
        if accept then (s.acceptToken n localList token).takeBo n ev else s.rejectAuth n
      else s) := by
  rw [State.mayDecide, ← Bool.and_assoc]
  rfl

section
variable {s : State} {n : Lane}

theorem authDecision_closed {localList : Bool} (h : s.authOpen n = false ∨ s.mayDecide n localList = false) (accept : Bool)
    (token : List Byte) (ev : EvValues) : exec (.authDecision n accept localList token ev) s = .next s := by
  have hno : (s.authOpen n && s.mayDecide n localList) = false := Bool.and_eq_false_iff.2 h
  rw [exec_authDecision, hno]
  rfl

theorem authDecision_accepted {localList : Bool} (hopen : s.authOpen n = true) (hmay : s.mayDecide n localList = true)
    (token : List Byte) (ev : EvValues) :
    exec (.authDecision n true localList token ev) s = .next ((s.acceptToken n localList token).takeBo n ev) := by
  rw [exec_authDecision, hopen, hmay]
  rfl

theorem authDecision_refused {localList : Bool} (hopen : s.authOpen n = true) (hmay : s.mayDecide n localList = true)
    (token : List Byte) (ev : EvValues) : exec (.authDecision n false localList token ev) s = .next (s.rejectAuth n) := by
  rw [exec_authDecision, hopen, hmay]
  rfl

/-- With a result shown, or in another step, no path takes a decision. -/
theorem decisions_closed (h : s.authOpen n = false) (ev : EvValues) (acc loc : Bool) (tok : List Byte) :
    exec (.remoteStart n ev) s = .next s ∧ exec (.authDecision n acc loc tok ev) s = .next s ∧ exec (.authOk n) s = .next s ∧
      exec (.authNo n) s = .next s := by
  have hfw : s.fwMay n = false := by rw [State.fwMay, h, Bool.false_and, Bool.false_and]
  refine ⟨?_, authDecision_closed (.inl h) acc tok ev, ?_, ?_⟩
  · rw [exec_remoteStart, h]
    rfl
  · rw [exec_authOk, hfw]
    rfl
  · rw [exec_authNo, hfw]
    rfl

theorem mayDecide_other (h₁ : s.rd (F.PIL_Ln_AUTH_PATH n) ≠ 1) (h₂ : s.rd (F.PIL_Ln_AUTH_PATH n) ≠ 2) (loc : Bool) :
    s.mayDecide n loc = false := by
  simp [State.mayDecide, h₁, h₂]

theorem mayDecide_remote (h : s.rd (F.PIL_Ln_AUTH_PATH n) = 1 ∨ s.rd (F.PIL_Ln_AUTH_PATH n) = 2) : s.mayDecide n false = true := by
  simpa [State.mayDecide] using h

theorem mayDecide_local_iff : s.mayDecide n true = true ↔ s.rd (F.PIL_Ln_AUTH_PATH n) = 1 ∧ s.boot.policy.localList = true := by
  simp only [State.mayDecide, Bool.not_true, Bool.false_or, Bool.and_eq_true, Bool.or_eq_true, decide_eq_true_eq]
  tauto

end

/-! ## Held cards (R191) -/

theorem exec_cardHoldExpiry (k : Fin 4) (s : State) : exec (.cardHoldExpiry k) s = .next (s.modPil fun p => { p with
    card := p.card.filter fun c => !(c.reader = k.val && c.frame + 1000 * s.rd F.PIL_CFG_CARDWIN ≤ s.clk.frame) }) := rfl

/-- Settles O51: outside an open authorisation no path decides; within one each path has its own condition, an acceptance and a
refusal are the same work on every path, and a decision's class is the token's. -/
theorem authorisationIsDecidedOnce : Obligations.AuthorisationIsDecidedOnce := by
  unfold Obligations.AuthorisationIsDecidedOnce
  refine ⟨fun s n ev acc loc tok h => decisions_closed (authOpen_eq_false h) ev acc loc tok, fun s n ev hstep hresult => ?_, fun s k => ?_⟩
  · have hopen : s.authOpen n = true := (authOpen_iff s n).2 ⟨hstep, hresult⟩
    have hpath : s.rd (F.PIL_Ln_AUTH_PATH n) < 16 := rd_lt s _
    refine ⟨fun hbit => ?_, fun hbit => ?_, ⟨fun acc loc tok h₁ h₂ => authDecision_closed (.inr (mayDecide_other h₁ h₂ loc)) acc tok ev,
      fun acc tok h => ?_, fun tok h => ?_, fun tok h₁ hlist => ?_⟩, fun hfw => ?_, fun hfw => ?_⟩
    · rw [exec_remoteStart, hbit, Bool.and_false]
      rfl
    · rw [exec_remoteStart, hopen, hbit]
      have hwork := (laneWork_acceptAuth s n 3 1 0).trans (laneWork_takeBo _ n _ ev)
      exact ⟨_, rfl, (rd_takeBo ..).trans (rd_path_acceptAuth s n 1 0 (by decide)), (rd_takeBo ..).trans (rd_sessPath_acceptAuth s n 1 0 (by decide)),
        (rd_takeBo ..).trans (rd_result_acceptAuth s n 3 0 (by decide)), (rd_takeBo ..).trans (rd_class_acceptAuth s n 3 1 (by decide)),
        (accepted_takeBo ..).trans (accepted_acceptAuth ..), fun e he => boEnergy_takeBo _ n he, hwork.words, hwork.frame⟩
    · refine authDecision_closed (.inr (Bool.eq_false_iff.2 fun hmay => ?_)) acc tok ev
      obtain ⟨hone, hallowed⟩ := mayDecide_local_iff.1 hmay
      rcases h with htwo | hforbidden
      · omega
      · exact absurd hallowed (by simp [hforbidden])
    · have hmay := mayDecide_remote h
      refine ⟨⟨_, authDecision_accepted hopen hmay tok ev, ?_, ?_, ?_, ?_, ?_⟩, authDecision_refused hopen hmay tok ev⟩
      · exact (rd_takeBo ..).trans (rd_result_acceptAuth s n _ _ (by decide : 1 < 16))
      · exact (rd_takeBo ..).trans (rd_path_acceptAuth s n _ _ hpath)
      · exact (accepted_takeBo ..).trans (accepted_acceptAuth ..)
      · intro hnone
        have hclass : s.tokenClass (s.tokenOf n tok) = 0 := tokenClass_unmapped hnone
        rw [rd_takeBo, State.acceptToken, hclass, rd_class_acceptAuth s n _ _ (by decide)]
      · intro c hmap hc
        have hclass : s.tokenClass (s.tokenOf n tok) = c := tokenClass_mapped hmap
        rw [rd_takeBo, State.acceptToken, hclass, rd_class_acceptAuth s n _ _ hc]
    · have hmay := mayDecide_local_iff.2 ⟨h₁, hlist⟩
      exact ⟨⟨_, authDecision_accepted hopen hmay tok ev, (rd_takeBo ..).trans (rd_result_acceptAuth s n _ _ (by decide : 4 < 16)),
        (accepted_takeBo ..).trans (accepted_acceptAuth ..)⟩, authDecision_refused hopen hmay tok ev⟩
    · rw [exec_authOk, exec_authNo, hfw]
      exact ⟨rfl, rfl⟩
    · rw [exec_authOk, exec_authNo, hfw]
      refine ⟨⟨_, rfl, rd_path_acceptAuth s n 1 0 (by decide), rd_result_acceptAuth s n 5 0 (by decide), accepted_acceptAuth ..⟩,
        _, rfl, (rd_path_rejectAuth ..).trans (rd_path_showFwPath s n), rd_result_rejectAuth .., ?_⟩
      rw [← lead_showFwPath s n]
      exact decided_rejectAuth ..
  · refine ⟨_, exec_cardHoldExpiry k s, frame_setPil s _, fun _ => rfl, fun c => ?_⟩
    simp only [State.modPil, State.setPil_pil, List.mem_filter, Bool.not_eq_true', Bool.and_eq_false_iff, decide_eq_false_iff_not, Nat.not_le, ne_eq]

end Sys2Proof.Machine
end

