-- ==== Sys2Proof/Proofs/ModemFrames.lean ====
section
/-!
PROOFS. A frame of the vehicle at a lane's modem (R182): it shows its mode and counts the bad frames before it in the lane's modem
register, and every other register and record a session reads is as before.
-/

namespace Sys2Proof.Machine

open Sys2Proof

/-! ## What a frame leaves alone -/

theorem regsBut_modemRx (s : State) (n : Nat) (rx : ModemRx) : RegsBut [A.PIL_Ln_MDM n] s (s.modemRx n rx) := by
  unfold State.modemRx
  split
  · exact (regsBut_wr_plain s (f := F.PIL_Ln_MDM_ROBO n) _).trans (regsBut_wr_plain _ (f := F.PIL_Ln_MDM_CRCERR n) _)
  · exact .refl _ s

@[simp] theorem pil_modemRx (s : State) (n : Nat) (rx : ModemRx) : (s.modemRx n rx).pil = s.pil := (regsBut_modemRx s n rx).1 .pil (by decide)

@[simp] theorem boot_modemRx (s : State) (n : Nat) (rx : ModemRx) : (s.modemRx n rx).boot = s.boot := (regsBut_modemRx s n rx).1 .boot (by decide)

@[simp] theorem clk_modemRx (s : State) (n : Nat) (rx : ModemRx) : (s.modemRx n rx).clk = s.clk := (regsBut_modemRx s n rx).1 .clk (by decide)

theorem gold_modemRx (s : State) (n : Nat) (rx : ModemRx) : (s.modemRx n rx).gold = s.gold := (regsBut_modemRx s n rx).1 .gold (by decide)

theorem laneWork_modemRx (s : State) (n : Nat) (rx : ModemRx) : LaneWork [.regs, .pil] n [A.PIL_Ln_MDM n] s (s.modemRx n rx) :=
  ⟨(regsBut_modemRx s n rx).2, (regsBut_modemRx s n rx).1.mono (by decide), fun j _ => by rw [State.pilLane, pil_modemRx, State.pilLane]⟩

@[simp] theorem pilLane_modemRx (s : State) (n j : Nat) (rx : ModemRx) : (s.modemRx n rx).pilLane j = s.pilLane j := by
  rw [State.pilLane, pil_modemRx, State.pilLane]

@[simp] theorem laneType_modemRx (s : State) (n j : Nat) (rx : ModemRx) : (s.modemRx n rx).laneType j = s.laneType j :=
  laneType_congr (boot_modemRx s n rx) j

@[simp] theorem lead_modemRx (s : State) (n j : Nat) (rx : ModemRx) : (s.modemRx n rx).lead j = s.lead j := lead_congr (boot_modemRx s n rx) j

/-! ## What a session reads -/

theorem rd_modemRx (s : State) (n : Nat) (rx : ModemRx) {g : Fld} (haddr : g.addr ≠ A.PIL_Ln_MDM n) (hg : g.plain = true := by rfl) :
    (s.modemRx n rx).rd g = s.rd g :=
  (regsBut_modemRx s n rx).2.rd_plain (by simpa using haddr) hg

/-- LINK stands beside what a frame shows. -/
@[simp] theorem rd_link_modemRx (s : State) (n : Nat) (rx : ModemRx) : (s.modemRx n rx).rd (F.PIL_Ln_MDM_LINK n) = s.rd (F.PIL_Ln_MDM_LINK n) := by
  unfold State.modemRx
  split
  · exact (rd_wr_beside _ _).trans (rd_wr_beside s _)
  · rfl

@[simp] theorem sessStep_modemRx (s : State) (n : Nat) (rx : ModemRx) : (s.modemRx n rx).sessStep n = s.sessStep n :=
  rd_modemRx s n rx laneAddr_ne

@[simp] theorem proto_modemRx (s : State) (n : Nat) (rx : ModemRx) : (s.modemRx n rx).proto n = s.proto n := rd_modemRx s n rx laneAddr_ne

@[simp] theorem linked_modemRx (s : State) (n : Nat) (rx : ModemRx) : (s.modemRx n rx).linked n = s.linked n := by
  rw [State.linked, pilLane_modemRx, rd_link_modemRx, State.linked]

@[simp] theorem authReply_modemRx (s : State) (n : Nat) (rx : ModemRx) : (s.modemRx n rx).authReply n = s.authReply n := by
  rw [State.authReply, pilLane_modemRx, sessStep_modemRx, State.authReply]

@[simp] theorem goodVerdict_modemRx (s : State) (n : Nat) (rx : ModemRx) : (s.modemRx n rx).goodVerdict n = s.goodVerdict n := by
  rw [State.goodVerdict, rd_modemRx s n rx laneAddr_ne, State.goodVerdict]

@[simp] theorem serviceCode_modemRx (s : State) (n : Nat) (rx : ModemRx) (svc : EnergyService) :
    (s.modemRx n rx).serviceCode n svc = s.serviceCode n svc := by
  cases svc <;> simp only [State.serviceCode, laneType_modemRx, proto_modemRx]

/-! ## The lane's grant (R175, R189) -/

/-- The grant in force is a pair of the allocation engine's block. -/
theorem grantIn_congr {as : List Nat} {s t : State} (hwords : WordsBut as s t) (hgold : t.gold = s.gold) (has : ∀ a ∈ as, a < blockBase 8)
    (n : Nat) : t.grantIn n = s.grantIn n := by
  have hout : ∀ a, blockBase 8 ≤ a → t.word a = s.word a := fun a ha => hwords a fun hmem => by have := has a hmem; omega
  have haddr : blockBase 8 ≤ (F.ALC_Ln_GRANT_W n).addr := (by decide : blockBase 8 ≤ 0xA0100).trans (Nat.le_add_right _ _)
  have hrd : t.rd (F.ALC_Ln_GRANT_W n) = s.rd (F.ALC_Ln_GRANT_W n) :=
    rd_eq_of_shadowed hgold (fun i _ => hout _ (by omega)) fun i _ => hout _ (by omega)
  rw [State.grantIn, State.rdS, hrd, State.grantIn, State.rdS]

theorem mdmAddr_lt (n : Lane) : A.PIL_Ln_MDM n < blockBase 8 := by
  have := n.isLt
  simp only [A.PIL_Ln_MDM, blockBase]
  omega

@[simp] theorem grantIn_modemRx (s : State) (n : Lane) (rx : ModemRx) : (s.modemRx n rx).grantIn n = s.grantIn n :=
  grantIn_congr (regsBut_modemRx s n rx).2 (gold_modemRx s n rx) (by simpa using mdmAddr_lt n) n

@[simp] theorem offerI_modemRx (s : State) (n : Lane) (rx : ModemRx) : (s.modemRx n rx).offerI n = s.offerI n := by
  have hcur : (s.modemRx n rx).ppcur n = s.ppcur n := by
    rw [State.ppcur, rd_modemRx s n rx laneAddr_ne, laneType_modemRx, State.ppcur]
  have hlimit : (s.modemRx n rx).iLimit n = s.iLimit n := by
    rw [State.iLimit, hcur, State.head, boot_modemRx, rd_modemRx s n rx laneAddr_ne, State.iLimit, State.head]
  rw [State.offerI, grantIn_modemRx, State.phases, laneType_modemRx, rd_modemRx s n rx laneAddr_ne, hlimit, State.offerI, State.phases]

/-! ## Answers -/

@[simp] theorem rd_answer (s : State) (n : Nat) (m : PilMsg) (r : PilResult) (g : Fld) : (s.answer n m r).rd g = s.rd g := rd_modPilLane s n _ g

theorem reply_answer (s : State) (n : Nat) (m : PilMsg) (r : PilResult) : ((s.answer n m r).pilLane n).reply = { msg := m, result := r } := by
  rw [State.answer, pilLane_modPilLane_self]

theorem LaneWork.answer {ps : List Part} {n : Nat} {as : List Nat} {s t : State} (h : LaneWork ps n as s t) (m : PilMsg) (r : PilResult)
    (hps : Part.pil ∈ ps := by decide) : LaneWork ps n as s (t.answer n m r) := by
  unfold State.answer
  exact h.modPilLane _ hps

end Sys2Proof.Machine
end

