-- ==== Sys2Proof/Proofs/VehicleMessages.lean ====
section
/-!
PROOFS. The messages of a vehicle session (R186 to R189): the three ways a message can go, the values a vehicle states and the limits
its answer carries.
-/

namespace Sys2Proof.Machine

open Sys2Proof

/-! ## The three ways of a message (R186) -/

/-- Does the protocol in use list a message of the protocols `ps`, on a lane of kind `kind`? -/
def State.fits (s : State) (n : Nat) (ps : List Nat) (kind : Option Bool) : Bool :=
  ps.contains (s.proto n) && (match kind with | some dc => decide ((s.laneType n = .dc) = dc) | none => true)

@[simp] theorem fits_modemRx (s : State) (n : Nat) (rx : ModemRx) (ps : List Nat) (kind : Option Bool) :
    (s.modemRx n rx).fits n ps kind = s.fits n ps kind := by
  simp only [State.fits, proto_modemRx, laneType_modemRx]

theorem message_eq (s : State) (n : Lane) (rx : ModemRx) (m : PilMsg) (ps : List Nat) (kind : Option Bool) (f : State → State) :
    s.message ⟨n, rx⟩ m ps kind f = if s.linked n then
      if s.fits n ps kind then f (s.modemRx n rx) else (s.modemRx n rx).answer n m .failed
    else s.modemRx n rx := by
  rw [← linked_modemRx s n rx, ← fits_modemRx s n rx]
  rfl

section
variable {s : State} {n : Lane} (rx : ModemRx) (m : PilMsg) {ps : List Nat} {kind : Option Bool} (f : State → State)

theorem message_unlinked (h : s.linked n = false) : s.message ⟨n, rx⟩ m ps kind f = s.modemRx n rx := by
  rw [message_eq, if_neg (Bool.eq_false_iff.1 h)]

theorem message_unfit (h : s.linked n = true) (hfit : s.fits n ps kind = false) :
    s.message ⟨n, rx⟩ m ps kind f = (s.modemRx n rx).answer n m .failed := by
  rw [message_eq, if_pos h, if_neg (Bool.eq_false_iff.1 hfit)]

theorem message_fit (h : s.linked n = true) (hfit : s.fits n ps kind = true) : s.message ⟨n, rx⟩ m ps kind f = f (s.modemRx n rx) := by
  rw [message_eq, if_pos h, if_pos hfit]

end

/-! ## Messages that only answer -/

/-- What O50 states of a message that only answers: its command, the protocols and the kind of lane that have it, its name, and how
it is answered. -/
def PlainAnswered (s : State) (n : Lane) (rx : ModemRx) (x : Instr × List Nat × Option Bool × PilMsg × PilResult) : Prop :=
  (s.linked n = false → exec x.1 s = .next (s.modemRx n rx)) ∧
  (s.linked n = true → ∃ t, exec x.1 s = .next t ∧
    (t.pilLane n).reply = { msg := x.2.2.2.1, result := if s.fits n x.2.1 x.2.2.1 then x.2.2.2.2 else .failed } ∧
    (∀ j, j ≠ n.val → t.pilLane j = s.pilLane j) ∧ WordsBut [A.PIL_Ln_MDM n] s t ∧ Frame [.regs, .pil] s t)

/-- A message whose whole effect is its answer. -/
theorem plainAnswered {s : State} {n : Lane} {rx : ModemRx} {c : Instr} {m : PilMsg} {ps : List Nat} {kind : Option Bool} {f : State → State}
    {r : PilResult} (hexec : exec c s = .next (s.message ⟨n, rx⟩ m ps kind f)) (hf : f (s.modemRx n rx) = (s.modemRx n rx).answer n m r) :
    PlainAnswered s n rx (c, ps, kind, m, r) := by
  refine ⟨fun h => by rw [hexec, message_unlinked rx m f h], fun h => ?_⟩
  have hanswer : s.message ⟨n, rx⟩ m ps kind f = (s.modemRx n rx).answer n m (if s.fits n ps kind then r else .failed) := by
    cases hfit : s.fits n ps kind with
    | true => rw [message_fit rx m f h hfit, hf, if_pos rfl]
    | false => rw [message_unfit rx m f h hfit, if_neg (by decide)]
  have hwork := (laneWork_modemRx s n rx).answer m (if s.fits n ps kind then r else .failed)
  exact ⟨_, hexec.trans (congrArg _ hanswer), reply_answer .., hwork.lanes, hwork.words, hwork.frame⟩

/-- The messages of O50 that only answer. -/
def plainMessages (s : State) (n : Lane) (rx : ModemRx) (b : Bool) : List (Instr × List Nat × Option Bool × PilMsg × PilResult) := [
  (.serviceDiscovery ⟨n, rx⟩, [1, 2, 3], none, .serviceDiscovery, .ok),
  (.serviceDetail ⟨n, rx⟩ b, [2, 3], none, .serviceDetail, if s.proto n = 3 || b then .ok else .failed),
  (.paymentDetails ⟨n, rx⟩, [2], none, .paymentDetails, if (s.pilLane n).contract then .ok else .failed),
  (.contractAuthentication ⟨n, rx⟩, [1], none, .contractAuth, s.authReply n),
  (.authorizationSetup ⟨n, rx⟩, [3], none, .authSetup, .ok),
  (.authorization ⟨n, rx⟩ false, [2, 3], none, .authorization, s.authReply n),
  (.cableCheck ⟨n, rx⟩, [1, 2], some true, .cableCheck, if s.goodVerdict n then .ok else .ongoing),
  (.dcCableCheck ⟨n, rx⟩, [3], some true, .cableCheck, if s.goodVerdict n then .ok else .ongoing),
  (.meteringReceipt ⟨n, rx⟩, [2], none, .meteringReceipt, .ok),
  (.meteringConfirmation ⟨n, rx⟩, [3], none, .meteringConfirmation, .ok),
  (.certificateInstallation ⟨n, rx⟩, [2, 3], none, .certificate, .ok),
  (.certificateUpdate ⟨n, rx⟩, [2], none, .certificate, .ok)]

theorem plainMessages_answered (s : State) (n : Lane) (rx : ModemRx) (b : Bool) : ∀ x ∈ plainMessages s n rx b, PlainAnswered s n rx x := by
  simp only [plainMessages, List.forall_mem_cons]
  exact ⟨plainAnswered rfl rfl, plainAnswered rfl (by rw [proto_modemRx]), plainAnswered rfl (by rw [pilLane_modemRx]),
    plainAnswered rfl (by rw [authReply_modemRx]), plainAnswered rfl rfl,
    plainAnswered rfl (by rw [authReply_modemRx, Bool.false_and]; rfl),
    plainAnswered rfl (by rw [State.cableReply, goodVerdict_modemRx]), plainAnswered rfl (by rw [State.cableReply, goodVerdict_modemRx]),
    plainAnswered rfl rfl, plainAnswered rfl rfl, plainAnswered rfl rfl, plainAnswered rfl rfl, List.forall_mem_nil _⟩

/-! ## What a vehicle states of itself (R189) -/

/-- Half a word of the vehicle's values, where it states it. -/
def State.takeHalf (s : State) (n i hi lo : Nat) (v : Option (BitVec 16)) : State :=
  match v with
  | some x => s.wr (F.PIL_Ln_EVMAX_VALUE n i) (setBits (s.rd (F.PIL_Ln_EVMAX_VALUE n i)) hi lo x.toNat)
  | none => s

def State.takeSoc (s : State) (n : Nat) (v : Option Byte) : State :=
  match v with | some x => s.wr (F.PIL_Ln_EVMAX_VALUE n 2) x.toNat | none => s

/-- The voltages and currents stated. -/
def State.takeUI (s : State) (n : Nat) (ev : EvValues) : State :=
  (((s.takeHalf n 0 31 16 ev.maxV).takeHalf n 0 15 0 ev.maxI).takeHalf n 1 31 16 ev.tgtV).takeHalf n 1 15 0 ev.tgtI

/-- The powers, the departure and the energy stated. -/
def PilLane.takeEv (p : PilLane) (ev : EvValues) : PilLane :=
  let num (v : Option Word) (old : Nat) : Nat := match v with | some x => x.toNat | none => old
  { p with
    evPower := match ev.maxP with | some x => some x.toNat | none => p.evPower,
    evReq := match ev.reqP with | some x => some x.toNat | none => p.evReq,
    evDis := num ev.disP p.evDis, evDepart := num ev.depart p.evDepart, evEnergy := num ev.energy p.evEnergy }

theorem takeEv_eq (s : State) (n : Nat) (ev : EvValues) :
    s.takeEv n ev = ((s.takeUI n ev).takeSoc n ev.soc).modPilLane n fun p => p.takeEv ev := rfl

/-- The words of the vehicle's values and of its modem. -/
def valueWords (n : Nat) : List Nat := [A.PIL_Ln_EVMAX n 0, A.PIL_Ln_EVMAX n 1, A.PIL_Ln_EVMAX n 2, A.PIL_Ln_MDM n]

theorem valueWords_lt (n : Lane) : ∀ a ∈ valueWords n, a < blockBase 8 := by
  have := n.isLt
  simp only [valueWords, List.forall_mem_cons, A.PIL_Ln_EVMAX, A.PIL_Ln_MDM, blockBase]
  refine ⟨by omega, by omega, by omega, by omega, List.forall_mem_nil _⟩

theorem LaneWork.takeHalf {ps : List Part} {n i : Nat} {s t : State} (h : LaneWork ps n (valueWords n) s t)
    (haddr : A.PIL_Ln_EVMAX n i ∈ valueWords n) (hi lo : Nat) (v : Option (BitVec 16)) (hps : Part.regs ∈ ps := by decide) :
    LaneWork ps n (valueWords n) s (t.takeHalf n i hi lo v) := by
  cases v with
  | none => exact h
  | some x => exact h.wr (F.PIL_Ln_EVMAX_VALUE n i) _ haddr hps

theorem LaneWork.takeSoc {ps : List Part} {n : Nat} {s t : State} (h : LaneWork ps n (valueWords n) s t) (v : Option Byte)
    (hps : Part.regs ∈ ps := by decide) : LaneWork ps n (valueWords n) s (t.takeSoc n v) := by
  cases v with
  | none => exact h
  | some x => exact h.wr (F.PIL_Ln_EVMAX_VALUE n 2) _ (.tail _ (.tail _ (.head _))) hps

theorem LaneWork.takeEv {n : Nat} {s t : State} (h : LaneWork [.regs, .pil] n (valueWords n) s t) (ev : EvValues) :
    LaneWork [.regs, .pil] n (valueWords n) s (t.takeEv n ev) := by
  have hmax := (h.takeHalf (.head _) 31 16 ev.maxV).takeHalf (.head _) 15 0 ev.maxI
  have htgt := (hmax.takeHalf (.tail _ (.head _)) 31 16 ev.tgtV).takeHalf (.tail _ (.head _)) 15 0 ev.tgtI
  rw [takeEv_eq]
  exact (htgt.takeSoc ev.soc).modPilLane _

/-! ### The target voltage -/

theorem evTgtV_eq_bits (s : State) (n : Nat) : s.evTgtV n = bits (s.rd (F.PIL_Ln_EVMAX_VALUE n 1)) 31 16 := by
  have hlt : s.rd (F.PIL_Ln_EVMAX_VALUE n 1) < 2 ^ 32 := rd_lt s _
  rw [State.evTgtV, bits]
  omega

theorem rd_evmax_wr (s : State) (n i v : Nat) : (s.wr (F.PIL_Ln_EVMAX_VALUE n i) v).rd (F.PIL_Ln_EVMAX_VALUE n i) = v % 2 ^ 32 :=
  rd_wr s _ v ⟨Nat.zero_le _, .inl rfl⟩

theorem evTgtV_takeHalf_high (s : State) (n : Nat) (v : BitVec 16) : (s.takeHalf n 1 31 16 (some v)).evTgtV n = v.toNat := by
  rw [evTgtV_eq_bits, State.takeHalf, rd_evmax_wr, bits_mod _ _ _ _ (by decide) (by decide), bits_setBits _ _ _ _ (by decide)]
  exact Nat.mod_eq_of_lt v.isLt

theorem evTgtV_takeHalf_low (s : State) (n : Nat) (v : Option (BitVec 16)) : (s.takeHalf n 1 15 0 v).evTgtV n = s.evTgtV n := by
  cases v with
  | none => rfl
  | some x =>
    rw [evTgtV_eq_bits, State.takeHalf, rd_evmax_wr, bits_mod _ _ _ _ (by decide) (by decide),
      bits_setBits_apart _ _ _ _ _ _ (by decide) (by decide) (by decide), evTgtV_eq_bits]

theorem evTgtV_takeSoc (s : State) (n : Nat) (v : Option Byte) : (s.takeSoc n v).evTgtV n = s.evTgtV n := by
  cases v with
  | none => rfl
  | some x => rw [State.evTgtV, State.takeSoc, rd_wr_elsewhere s _ (by simp [F.PIL_Ln_EVMAX_VALUE, A.PIL_Ln_EVMAX]), State.evTgtV]

theorem evTgtV_takeEv (s : State) (n : Nat) {ev : EvValues} {v : BitVec 16} (h : ev.tgtV = some v) : (s.takeEv n ev).evTgtV n = v.toNat := by
  have hmod : (s.takeEv n ev).evTgtV n = ((s.takeUI n ev).takeSoc n ev.soc).evTgtV n := congrArg (· / 65536) (rd_modPilLane _ n _ _)
  rw [hmod, evTgtV_takeSoc, State.takeUI, evTgtV_takeHalf_low, h, evTgtV_takeHalf_high]

theorem rd_soc_takeEv (s : State) (n : Nat) {ev : EvValues} {c : Byte} (h : ev.soc = some c) :
    (s.takeEv n ev).rd (F.PIL_Ln_EVMAX_VALUE n 2) = c.toNat := by
  rw [takeEv_eq, rd_modPilLane, h, State.takeSoc, rd_evmax_wr, Nat.mod_eq_of_lt (c.isLt.trans (by decide))]

theorem evPower_takeEv (s : State) (n : Nat) {ev : EvValues} {p : Word} (h : ev.maxP = some p) :
    ((s.takeEv n ev).pilLane n).evPower = some p.toNat := by
  rw [takeEv_eq, pilLane_modPilLane_self, PilLane.takeEv, h]

/-! ## An answer with the lane's limits (R189) -/

/-- An answer with limits carries the lane's grant; a current with no target voltage to reckon it by is a free value. -/
theorem limitReply_eq (s : State) (n : Nat) (m : PilMsg) : ∃ k r, s.limitReply n m = (s.setFreeCtr k).modPilLane n (fun p => { p with reply := r }) ∧
    r.msg = m ∧ r.power = s.grantIn n := by
  unfold State.limitReply
  dsimp only
  split
  · split
    · exact ⟨s.freeCtr + 1, _, rfl, rfl, rfl⟩
    · exact ⟨s.freeCtr, _, rfl, rfl, rfl⟩
  · exact ⟨s.freeCtr, _, rfl, rfl, rfl⟩

theorem limitReply_ac {s : State} {n : Nat} (h : s.laneType n ≠ .dc) (m : PilMsg) :
    s.limitReply n m = s.modPilLane n fun p => { p with reply := { msg := m, power := s.grantIn n, current := s.offerI n } } := by
  simp only [State.limitReply, h, if_false]

@[simp] theorem rd_setFreeCtr (s : State) (k : Nat) (g : Fld) : (s.setFreeCtr k).rd g = s.rd g :=
  rd_eq_of_regs (s := s) (t := s.setFreeCtr k) rfl rfl g

theorem frame_setFreeCtr (s : State) (k : Nat) : Frame [.freeCtr] s (s.setFreeCtr k) := by
  intro p hp
  cases p
  case freeCtr => simp at hp
  all_goals rfl

/-- Work on a lane that may have drawn a free value. -/
theorem LaneWork.setFreeCtr {n : Nat} {as : List Nat} {s t : State} (h : LaneWork [.regs, .pil] n as s t) (k : Nat) :
    LaneWork [.regs, .pil, .freeCtr] n as s (t.setFreeCtr k) :=
  (h.mono (by decide) fun _ => id).trans ⟨fun _ _ => rfl, (frame_setFreeCtr t k).mono (by decide), fun _ _ => rfl⟩

/-- What O50 states of an answer to a message with values. -/
def TakesValues (s : State) (n : Lane) (ev : EvValues) (m : PilMsg) (t : State) : Prop :=
  (t.pilLane n).reply.msg = m ∧ (t.pilLane n).reply.power = s.grantIn n ∧ (∀ v, ev.tgtV = some v → t.evTgtV n = v.toNat) ∧
  (∀ p, ev.maxP = some p → (t.pilLane n).evPower = some p.toNat) ∧ (∀ c, ev.soc = some c → t.rd (F.PIL_Ln_EVMAX_VALUE n 2) = c.toNat) ∧
  (∀ j, j ≠ n.val → t.pilLane j = s.pilLane j) ∧ WordsBut (valueWords n) s t ∧ Frame [.regs, .pil, .freeCtr] s t

/-- The values taken and the limits answered, on work that left the grant alone. -/
theorem takesValues_limitReply {s t : State} {n : Lane} (h : LaneWork [.regs, .pil] n (valueWords n) s t) (ev : EvValues) (m : PilMsg) :
    TakesValues s n ev m ((t.takeEv n ev).limitReply n m) := by
  have hwork := h.takeEv ev
  obtain ⟨k, r, heq, hmsg, hpower⟩ := limitReply_eq (t.takeEv n ev) n m
  have hdone := (hwork.setFreeCtr k).modPilLane fun p => { p with reply := r }
  have hrd : ∀ g, (((t.takeEv n ev).setFreeCtr k).modPilLane n fun p => { p with reply := r }).rd g = (t.takeEv n ev).rd g := fun g => by
    rw [rd_modPilLane, rd_setFreeCtr]
  rw [heq]
  refine ⟨?_, ?_, fun v hv => ?_, fun p hp => ?_, fun c hc => ?_, hdone.lanes, hdone.words, hdone.frame⟩
  · rw [pilLane_modPilLane_self, hmsg]
  · rw [pilLane_modPilLane_self, hpower]
    exact grantIn_congr hwork.words (hwork.frame .gold (by decide)) (valueWords_lt n) n
  · rw [State.evTgtV, hrd]
    exact evTgtV_takeEv t n hv
  · rw [pilLane_modPilLane_self]
    exact evPower_takeEv t n hp
  · rw [hrd, rd_soc_takeEv t n hc]

/-- What O50 states of a message with values: its command, the protocols and the kind of lane that have it, its name. -/
def ValuesAnswered (s : State) (n : Lane) (rx : ModemRx) (ev : EvValues) (x : Instr × List Nat × Option Bool × PilMsg) : Prop :=
  (s.linked n = false → exec x.1 s = .next (s.modemRx n rx)) ∧
  (s.linked n = true → s.fits n x.2.1 x.2.2.1 = false → exec x.1 s = .next ((s.modemRx n rx).answer n x.2.2.2 .failed)) ∧
  (s.linked n = true → s.fits n x.2.1 x.2.2.1 = true → ∃ t, exec x.1 s = .next t ∧ TakesValues s n ev x.2.2.2 t)

theorem valuesAnswered {s : State} {n : Lane} {rx : ModemRx} {ev : EvValues} {c : Instr} {m : PilMsg} {ps : List Nat} {kind : Option Bool}
    {f : State → State} (hexec : exec c s = .next (s.message ⟨n, rx⟩ m ps kind f)) (hf : TakesValues s n ev m (f (s.modemRx n rx))) :
    ValuesAnswered s n rx ev (c, ps, kind, m) :=
  ⟨fun h => by rw [hexec, message_unlinked rx m f h], fun h hfit => by rw [hexec, message_unfit rx m f h hfit],
    fun h hfit => ⟨_, by rw [hexec, message_fit rx m f h hfit], hf⟩⟩

/-- The work before the values are taken: a frame at the modem. -/
theorem laneWork_values_modemRx (s : State) (n : Nat) (rx : ModemRx) : LaneWork [.regs, .pil] n (valueWords n) s (s.modemRx n rx) :=
  (laneWork_modemRx s n rx).mono (fun _ => id) fun a ha => by
    obtain rfl := List.mem_singleton.1 ha
    exact .tail _ (.tail _ (.tail _ (.head _)))

theorem takesValues_message (s : State) (n : Lane) (rx : ModemRx) (ev : EvValues) (m : PilMsg) :
    TakesValues s n ev m (((s.modemRx n rx).takeEv n ev).limitReply n m) :=
  takesValues_limitReply (laneWork_values_modemRx s n rx) ev m

theorem TakesValues.proto_eq {s t : State} {n : Lane} {ev : EvValues} {m : PilMsg} (h : TakesValues s n ev m t) : t.proto n = s.proto n := by
  obtain ⟨-, -, -, -, -, -, hwords, -⟩ := h
  exact hwords.rd_plain (by simp [F.PIL_Ln_SESS_PROTO, valueWords, A.PIL_Ln_SESS, A.PIL_Ln_EVMAX, A.PIL_Ln_MDM, Nat.add_right_comm])

theorem TakesValues.grantIn_eq {s t : State} {n : Lane} {ev : EvValues} {m : PilMsg} (h : TakesValues s n ev m t) : t.grantIn n = s.grantIn n := by
  obtain ⟨-, -, -, -, -, -, hwords, hframe⟩ := h
  exact grantIn_congr hwords (hframe .gold (by decide)) (valueWords_lt n) n

/-- A schedule joins the answer alone. -/
theorem TakesValues.scheduleReply {s t : State} {n : Lane} {ev : EvValues} {m : PilMsg} (h : TakesValues s n ev m t) :
    TakesValues s n ev m (t.scheduleReply n) := by
  obtain ⟨hmsg, hpower, htgt, hmax, hsoc, hlanes, hwords, hframe⟩ := h
  unfold State.scheduleReply
  split
  · have hdone := (LaneWork.mk hwords hframe hlanes).modPilLane fun p => { p with reply := { p.reply with schedule := [(86400, t.grantIn n)] } }
    refine ⟨?_, ?_, fun v hv => ?_, fun p hp => ?_, fun c hc => ?_, hdone.lanes, hdone.words, hdone.frame⟩
    · rw [pilLane_modPilLane_self, hmsg]
    · rw [pilLane_modPilLane_self, hpower]
    · rw [State.evTgtV, rd_modPilLane]
      exact htgt v hv
    · rw [pilLane_modPilLane_self, hmax p hp]
    · rw [rd_modPilLane, hsoc c hc]
  · exact ⟨hmsg, hpower, htgt, hmax, hsoc, hlanes, hwords, hframe⟩

/-- The messages of O50 with values. -/
def valueMessages (n : Lane) (rx : ModemRx) (ev : EvValues) (b : Bool) : List (Instr × List Nat × Option Bool × PilMsg) := [
  (.chargeParameterDiscovery ⟨n, rx⟩ ev, [1, 2], none, .chargeParameters),
  (.acChargeParameterDiscovery ⟨n, rx⟩ ev, [3], some false, .chargeParameters),
  (.dcChargeParameterDiscovery ⟨n, rx⟩ ev, [3], some true, .chargeParameters),
  (.scheduleExchange ⟨n, rx⟩ b ev, [3], none, .scheduleExchange), (.preCharge ⟨n, rx⟩ ev, [1, 2], some true, .preCharge),
  (.dcPreCharge ⟨n, rx⟩ ev, [3], some true, .preCharge), (.currentDemand ⟨n, rx⟩ ev, [1, 2], some true, .chargeLoop),
  (.acChargeLoop ⟨n, rx⟩ ev, [3], some false, .chargeLoop), (.dcChargeLoop ⟨n, rx⟩ ev, [3], some true, .chargeLoop)]

theorem valueMessages_answered (s : State) (n : Lane) (rx : ModemRx) (ev : EvValues) (b : Bool) :
    ∀ x ∈ valueMessages n rx ev b, ValuesAnswered s n rx ev x := by
  have hplain := takesValues_message s n rx ev
  have hdynamic := (laneWork_values_modemRx s n rx).modPilLane fun p => { p with dynamic := b }
  simp only [valueMessages, List.forall_mem_cons]
  exact ⟨valuesAnswered rfl (hplain _).scheduleReply, valuesAnswered rfl (hplain _), valuesAnswered rfl (hplain _),
    valuesAnswered rfl (takesValues_limitReply hdynamic ev _), valuesAnswered rfl (hplain _), valuesAnswered rfl (hplain _),
    valuesAnswered rfl (hplain _), valuesAnswered rfl (hplain _), valuesAnswered rfl (hplain _), List.forall_mem_nil _⟩

/-! ## Messages that act on the session (R186, R187, R195, R198) -/

/-- What O50 states of every message that acts, where the session's protocol, or the lane's kind, does not have it. -/
def ActsWhereFit (s : State) (n : Lane) (rx : ModemRx) (x : Instr × List Nat × Option Bool × PilMsg) : Prop :=
  (s.linked n = false → exec x.1 s = .next (s.modemRx n rx)) ∧
  (s.linked n = true → s.fits n x.2.1 x.2.2.1 = false → exec x.1 s = .next ((s.modemRx n rx).answer n x.2.2.2 .failed))

theorem actsWhereFit {s : State} {n : Lane} {rx : ModemRx} {c : Instr} {m : PilMsg} {ps : List Nat} {kind : Option Bool} {f : State → State}
    (hexec : exec c s = .next (s.message ⟨n, rx⟩ m ps kind f)) : ActsWhereFit s n rx (c, ps, kind, m) :=
  ⟨fun h => by rw [hexec, message_unlinked rx m f h], fun h hfit => by rw [hexec, message_unfit rx m f h hfit]⟩

/-- The messages of O50 that act on the session. -/
def actMessages (n : Lane) (rx : ModemRx) (b : Bool) (svc : EnergyService) : List (Instr × List Nat × Option Bool × PilMsg) := [
  (.sessionSetup ⟨n, rx⟩, [1, 2, 3], none, .sessionSetup), (.servicePaymentSelection ⟨n, rx⟩ svc b, [1, 2], none, .paymentSelection),
  (.serviceSelection ⟨n, rx⟩ svc, [3], none, .serviceSelection), (.powerDelivery ⟨n, rx⟩ b, [1, 2, 3], none, .powerDelivery),
  (.chargingStatus ⟨n, rx⟩, [2], some false, .chargingStatus), (.authorization ⟨n, rx⟩ true, [2, 3], none, .authorization),
  (.weldingDetection ⟨n, rx⟩ b, [1, 2], some true, .weldingDetection), (.dcWeldingDetection ⟨n, rx⟩ b, [3], some true, .weldingDetection),
  (.sessionStop ⟨n, rx⟩, [1, 2, 3], none, .sessionStop)]

theorem actMessages_answered (s : State) (n : Lane) (rx : ModemRx) (b : Bool) (svc : EnergyService) :
    ∀ x ∈ actMessages n rx b svc, ActsWhereFit s n rx x := by
  simp only [actMessages, List.forall_mem_cons]
  exact ⟨actsWhereFit rfl, actsWhereFit rfl, actsWhereFit rfl, actsWhereFit rfl, actsWhereFit rfl, actsWhereFit rfl, actsWhereFit rfl,
    actsWhereFit rfl, actsWhereFit rfl, List.forall_mem_nil _⟩

/-- The service is shown and noted, and the selection answered. -/
theorem takeService_spec (s : State) (n : Nat) {c : Nat} (m : PilMsg) (hc : c < 4) : (s.takeService n c m).rd (F.PIL_Ln_SESS_SERVICE n) = c ∧
    ((s.takeService n c m).pilLane n).served = true ∧ ((s.takeService n c m).pilLane n).reply = { msg := m, result := .ok } := by
  refine ⟨?_, ?_, reply_answer ..⟩
  · rw [State.takeService, rd_answer, rd_modPilLane, rd_wr_plain s hc]
  · rw [State.takeService, State.answer, pilLane_modPilLane_self, pilLane_modPilLane_self]

/-- The vehicle's request to deliver power, or to stop, noted and answered. -/
def State.takeDelivery (s : State) (n : Nat) (b : Bool) : State := (s.modPilLane n fun p => { p with deliver := b }).answer n .powerDelivery .ok

theorem takeDelivery_spec (s : State) (n : Nat) (b : Bool) : ((s.takeDelivery n b).pilLane n).deliver = b ∧
    ((s.takeDelivery n b).pilLane n).reply = { msg := .powerDelivery, result := .ok } := by
  refine ⟨?_, reply_answer ..⟩
  rw [State.takeDelivery, State.answer, pilLane_modPilLane_self, pilLane_modPilLane_self]

theorem serviceCode_lt {s : State} {n c : Nat} {svc : EnergyService} (h : s.serviceCode n svc = some c) : c < 4 := by
  cases svc <;> simp only [State.serviceCode, Option.ite_none_left_eq_some, Option.ite_none_right_eq_some, Option.some.injEq, reduceCtorEq] at h <;>
    omega

theorem fits_any {s : State} {n : Nat} {ps : List Nat} (h : s.proto n ∈ ps) : s.fits n ps none = true := by
  simp [State.fits, h]

theorem fits_dc {s : State} {n : Nat} {ps : List Nat} (h : s.proto n ∈ ps) (hdc : s.laneType n = .dc) : s.fits n ps (some true) = true := by
  simp [State.fits, h, hdc]

theorem fits_ac {s : State} {n : Nat} {ps : List Nat} (h : s.proto n ∈ ps) (hac : s.laneType n ≠ .dc) : s.fits n ps (some false) = true := by
  simp [State.fits, h, hac]

@[simp] theorem sessStep_modPilLane (s : State) (m n : Nat) (f : PilLane → PilLane) : (s.modPilLane m f).sessStep n = s.sessStep n :=
  rd_modPilLane s m f _

@[simp] theorem sessStep_answer (s : State) (k n : Nat) (m : PilMsg) (r : PilResult) : (s.answer k m r).sessStep n = s.sessStep n :=
  rd_answer s k m r _

theorem inSession_iff (s : State) (n : Nat) : s.inSession n = true ↔ 2 ≤ s.sessStep n ∧ s.sessStep n ≤ 0x0F := by
  simp [State.inSession]

section
variable {s : State} {n : Lane} (rx : ModemRx) (hl : s.linked n = true)
include hl

theorem exec_sessionSetup (hp : s.proto n ∈ [1, 2, 3]) : exec (.sessionSetup ⟨n, rx⟩) s =
    .next (((s.modemRx n rx).modPilLane n fun p => { p with setup := true }).answer n .sessionSetup .ok) :=
  congrArg _ (message_fit rx _ _ hl (fits_any hp))

theorem exec_powerDelivery (hp : s.proto n ∈ [1, 2, 3]) (b : Bool) : exec (.powerDelivery ⟨n, rx⟩ b) s =
    .next (if b = false ∧ (s.sessStep n = 0x0B ∨ s.sessStep n = 0x0C) then ((s.modemRx n rx).takeDelivery n b).decideExit n 2
      else (s.modemRx n rx).takeDelivery n b) := by
  have hstep : ((s.modemRx n rx).takeDelivery n b).sessStep n = s.sessStep n := by
    rw [State.takeDelivery, sessStep_answer, sessStep_modPilLane, sessStep_modemRx]
  have hexec : exec (.powerDelivery ⟨n, rx⟩ b) s = .next (let v := (s.modemRx n rx).takeDelivery n b
      if !b && (v.sessStep n = 0x0B || v.sessStep n = 0x0C) then v.decideExit n 2 else v) :=
    congrArg _ (message_fit rx _ _ hl (fits_any hp))
  simpa only [hstep, Bool.and_eq_true, Bool.not_eq_true', Bool.or_eq_true, decide_eq_true_eq] using hexec

theorem exec_sessionStop (hp : s.proto n ∈ [1, 2, 3]) : exec (.sessionStop ⟨n, rx⟩) s =
    .next (if 2 ≤ s.sessStep n ∧ s.sessStep n ≤ 0x0F then ((s.modemRx n rx).answer n .sessionStop .ok).decideExit n 2
      else (s.modemRx n rx).answer n .sessionStop .ok) := by
  have hexec : exec (.sessionStop ⟨n, rx⟩) s = .next (let v := (s.modemRx n rx).answer n .sessionStop .ok
      if v.inSession n then v.decideExit n 2 else v) :=
    congrArg _ (message_fit rx _ _ hl (fits_any hp))
  simpa only [inSession_iff, sessStep_answer, sessStep_modemRx] using hexec

theorem exec_serviceSelection_offered (hp : s.proto n ∈ [3]) {svc : EnergyService} {c : Nat} (hsvc : s.serviceCode n svc = some c) :
    exec (.serviceSelection ⟨n, rx⟩ svc) s = .next ((s.modemRx n rx).takeService n c .serviceSelection) := by
  refine congrArg _ ((message_fit rx _ _ hl (fits_any hp)).trans ?_)
  rw [serviceCode_modemRx, hsvc]

theorem exec_serviceSelection_other (hp : s.proto n ∈ [3]) {svc : EnergyService} (hsvc : s.serviceCode n svc = none) :
    exec (.serviceSelection ⟨n, rx⟩ svc) s = .next ((s.modemRx n rx).protoError n .serviceSelection) := by
  refine congrArg _ ((message_fit rx _ _ hl (fits_any hp)).trans ?_)
  rw [serviceCode_modemRx, hsvc]

theorem exec_servicePaymentSelection (hp : s.proto n ∈ [1, 2]) {svc : EnergyService} {c : Nat} (hsvc : s.serviceCode n svc = some c) :
    exec (.servicePaymentSelection ⟨n, rx⟩ svc false) s = .next ((s.modemRx n rx).takeService n c .paymentSelection) := by
  refine congrArg _ ((message_fit rx _ _ hl (fits_any hp)).trans ?_)
  rw [serviceCode_modemRx, hsvc]
  rfl

theorem exec_weldingDetection (hp : s.proto n ∈ [1, 2]) (hdc : s.laneType n = .dc) (b : Bool) :
    exec (.weldingDetection ⟨n, rx⟩ b) s = .next ((s.modemRx n rx).weldMessage n b) :=
  congrArg _ (message_fit rx _ _ hl (fits_dc hp hdc))

theorem exec_dcWeldingDetection (hp : s.proto n ∈ [3]) (hdc : s.laneType n = .dc) (b : Bool) :
    exec (.dcWeldingDetection ⟨n, rx⟩ b) s = .next ((s.modemRx n rx).weldMessage n b) :=
  congrArg _ (message_fit rx _ _ hl (fits_dc hp hdc))

theorem exec_chargingStatus (hp : s.proto n ∈ [2]) (hac : s.laneType n ≠ .dc) : exec (.chargingStatus ⟨n, rx⟩) s =
    .next ((s.modemRx n rx).limitReply n .chargingStatus) :=
  congrArg _ (message_fit rx _ _ hl (fits_ac hp hac))

theorem exec_chargeParameterDiscovery (hp : s.proto n ∈ [1, 2]) (ev : EvValues) : exec (.chargeParameterDiscovery ⟨n, rx⟩ ev) s =
    .next ((((s.modemRx n rx).takeEv n ev).limitReply n .chargeParameters).scheduleReply n) :=
  congrArg _ (message_fit rx _ _ hl (fits_any hp))

end

theorem exec_renegotiation (s : State) (n : Lane) (rx : ModemRx) : exec (.renegotiation ⟨n, rx⟩) s =
    .next (if s.linked n && s.proto n ≠ 0 then (s.modemRx n rx).protoError n .renegotiation else s.modemRx n rx) := by
  rw [← linked_modemRx s n rx, ← proto_modemRx s n rx]
  rfl

/-- Under ISO 15118-2 a schedule of one tuple over 24 h, at the grant (R187). -/
theorem schedule_scheduleReply {s : State} {n : Nat} (h : s.proto n = 2) :
    ((s.scheduleReply n).pilLane n).reply.schedule = [(86400, s.grantIn n)] := by
  rw [State.scheduleReply, if_pos h, pilLane_modPilLane_self]

/-- Settles O50: every message goes one of the three ways of `message_eq`; where it fits, its own work is an answer, the values taken
and the limits answered, or a change of the session's record. -/
theorem vehicleMessagesAreAnswered : Obligations.VehicleMessagesAreAnswered := by
  unfold Obligations.VehicleMessagesAreAnswered
  intro s n rx ev b svc
  refine ⟨plainMessages_answered s n rx b, valueMessages_answered s n rx ev b, actMessages_answered s n rx b svc,
    fun hl hp => ?_, fun hl hp => ?_, fun hl hp => ?_, fun hl hp hac => ?_, fun hl hp => ?_, fun hl hp => ?_, fun h => ?_⟩
  · have hany : s.proto n ∈ [1, 2, 3] := by simpa using hp
    have hsetup := ((laneWork_modemRx s n rx).modPilLane fun p => { p with setup := true }).answer .sessionSetup .ok
    have hdelivery := ((laneWork_modemRx s n rx).modPilLane fun p => { p with deliver := b }).answer .powerDelivery .ok
    obtain ⟨hdeliver, hreply⟩ := takeDelivery_spec (s.modemRx n rx) n b
    refine ⟨⟨_, exec_sessionSetup rx hl hany, ?_, reply_answer .., hsetup.lanes, hsetup.words⟩,
      ⟨_, hdeliver, hreply, hdelivery.frame, hdelivery.words, exec_powerDelivery rx hl hany b⟩, exec_sessionStop rx hl hany⟩
    rw [State.answer, pilLane_modPilLane_self, pilLane_modPilLane_self]
  · have hthree : s.proto n ∈ [3] := by simpa using hp
    exact ⟨fun c hc => ⟨_, exec_serviceSelection_offered rx hl hthree hc, takeService_spec _ _ _ (serviceCode_lt hc)⟩,
      exec_serviceSelection_other rx hl hthree, fun hdc => exec_dcWeldingDetection rx hl hthree hdc b⟩
  · have htwo : s.proto n ∈ [1, 2] := by simpa using hp
    exact ⟨fun c hc => ⟨_, exec_servicePaymentSelection rx hl htwo hc, takeService_spec _ _ _ (serviceCode_lt hc)⟩,
      fun hdc => exec_weldingDetection rx hl htwo hdc b⟩
  · have hiso : s.proto n ∈ [2] := by simpa using hp
    have hac' : (s.modemRx n rx).laneType n ≠ .dc := by rwa [laneType_modemRx]
    refine ⟨_, exec_chargingStatus rx hl hiso hac, ?_, ?_⟩
    · rw [limitReply_ac hac', pilLane_modPilLane_self, grantIn_modemRx, offerI_modemRx]
    · rw [limitReply_ac hac']
      exact ((laneWork_modemRx s n rx).modPilLane _).frame
  · have hiso : s.proto n ∈ [1, 2] := by simp [hp]
    have htaken := takesValues_message s n rx ev .chargeParameters
    refine ⟨_, exec_chargeParameterDiscovery rx hl hiso ev, ?_⟩
    rw [schedule_scheduleReply (htaken.proto_eq.trans hp), htaken.grantIn_eq]
  · rw [exec_renegotiation, hl]
    simp [hp]
  · rw [exec_renegotiation]
    rcases h with hl | hp
    · rw [hl]
      rfl
    · simp [hp]

end Sys2Proof.Machine
end

