-- ==== Sys2Proof/Proofs/SlacMatching.lean ====
section
/-!
PROOFS. SLAC and the setup of a protocol (R182 to R188): the vehicle's parameters and soundings, the judgement of a run, the match, the
retries, and the offer taken.
-/

namespace Sys2Proof.Machine

open Sys2Proof

/-! ## A lane in SLAC -/

@[simp] theorem slacOpen_modemRx (s : State) (n : Nat) (rx : ModemRx) : (s.modemRx n rx).slacOpen n = s.slacOpen n := by
  rw [State.slacOpen, sessStep_modemRx, pilLane_modemRx, State.slacOpen]

@[simp] theorem slacMine_modemRx (s : State) (n mac : Nat) (rx : ModemRx) : (s.modemRx n rx).slacMine n mac = s.slacMine n mac := by
  rw [State.slacMine, slacOpen_modemRx, pilLane_modemRx, State.slacMine]

theorem rd_robo_modemRx {s : State} {n : Nat} (h : (s.laneType n).outlet = true) (rx : ModemRx) :
    (s.modemRx n rx).rd (F.PIL_Ln_MDM_ROBO n) = rx.robo.val := by
  have hrobo : rx.robo.val < 4 := by omega
  rw [State.modemRx, if_pos h]
  exact (rd_wr_beside _ _).trans (rd_wr_plain s hrobo)

theorem rd_crcerr_modemRx {s : State} {n : Nat} (h : (s.laneType n).outlet = true) (rx : ModemRx) : (s.modemRx n rx).rd (F.PIL_Ln_MDM_CRCERR n) =
    min (2 ^ (F.PIL_Ln_MDM_CRCERR n).width - 1) (s.rd (F.PIL_Ln_MDM_CRCERR n) + rx.bad.toNat) := by
  have hbefore : (s.wr (F.PIL_Ln_MDM_ROBO n) rx.robo).rd (F.PIL_Ln_MDM_CRCERR n) = s.rd (F.PIL_Ln_MDM_CRCERR n) := rd_wr_beside s _
  rw [State.modemRx, if_pos h, rd_count_plain _ _, hbefore, Fld.max]

@[simp] theorem rd_slacAnswer (s : State) (n : Nat) (m : PilMsg) (r : PilResult) (g : Fld) : (s.slacAnswer n m r).rd g = s.rd g :=
  rd_modPilLane s n _ g

theorem pilLane_slacAnswer_self (s : State) (n : Nat) (m : PilMsg) (r : PilResult) : (s.slacAnswer n m r).pilLane n =
    { s.pilLane n with reply := { msg := m, result := r, mac := s.modemMac n } } :=
  pilLane_modPilLane_self s n _

theorem LaneWork.slacAnswer {ps : List Part} {n : Nat} {as : List Nat} {s t : State} (h : LaneWork ps n as s t) (m : PilMsg) (r : PilResult)
    (hps : Part.pil ∈ ps := by decide) : LaneWork ps n as s (t.slacAnswer n m r) := by
  unfold State.slacAnswer
  exact h.modPilLane _ hps

theorem LaneWork.wrB {ps : List Part} {n : Nat} {as : List Nat} {s t : State} (h : LaneWork ps n as s t) (f : Fld) (b : Bool)
    (haddr : f.addr ∈ as) (hps : Part.regs ∈ ps := by decide) (hf : f.plain = true := by rfl) : LaneWork ps n as s (t.wrB f b) :=
  h.wr f (b2n b) haddr hps hf

/-- The words of a lane's matching and of its modem. -/
def slacWords (n : Nat) : List Nat := [A.PIL_Ln_SLAC n, A.PIL_Ln_MDM n]

theorem laneWork_slac_modemRx (s : State) (n : Nat) (rx : ModemRx) : LaneWork [.regs, .pil] n (slacWords n) s (s.modemRx n rx) :=
  (laneWork_modemRx s n rx).mono (fun _ => id) fun a ha => by
    obtain rfl := List.mem_singleton.1 ha
    exact .tail _ (.head _)

/-! ## The vehicle's parameters (R183) -/

/-- The vehicle's address and run taken and confirmed; what an earlier run had is void. -/
def State.takeParm (s : State) (n mac run : Nat) : State :=
  ((s.wrB (F.PIL_Ln_SLAC_VALID n) false).modPilLane n fun p => { p with
    mac := mac, run := run, parmAt := some s.clk.frame, mayMatch := false, needToggle := false }).slacAnswer n .slacParm .ok

theorem exec_cmSlacParmReq (s : State) (n : Lane) (rx : ModemRx) (mac : BitVec 48) (run : BitVec 64) : exec (.cmSlacParmReq ⟨n, rx⟩ mac run) s =
    .next (if s.slacOpen n then (s.modemRx n rx).takeParm n mac.toNat run.toNat else s.modemRx n rx) := by
  rw [← slacOpen_modemRx s n rx]
  rfl

theorem laneWork_takeParm (s : State) (n mac run : Nat) : LaneWork [.regs, .pil] n (slacWords n) s (s.takeParm n mac run) := by
  have hvoid := (LaneWork.refl [.regs, .pil] n (slacWords n) s).wrB (F.PIL_Ln_SLAC_VALID n) false (.head _)
  unfold State.takeParm
  exact (hvoid.modPilLane _).slacAnswer _ _

theorem rd_valid_takeParm (s : State) (n mac run : Nat) : (s.takeParm n mac run).rd (F.PIL_Ln_SLAC_VALID n) = 0 := by
  rw [State.takeParm, rd_slacAnswer, rd_modPilLane]
  exact rd_wrB s (F.PIL_Ln_SLAC_VALID n) false rfl rfl

theorem modemMac_eq (s : State) (n : Nat) : s.modemMac n = 0x024C00 * 2 ^ 24 + s.rd F.SYS_DEVID_DEVID * 2 ^ 8 + n := by
  rw [State.modemMac]
  omega

theorem modemMac_modPilLane (s : State) (n : Nat) (f : PilLane → PilLane) : (s.modPilLane n f).modemMac n = s.modemMac n := by
  rw [State.modemMac, rd_modPilLane, State.modemMac]

theorem modemMac_voided (s : State) (n : Nat) : (s.wrB (F.PIL_Ln_SLAC_VALID n) false).modemMac n = s.modemMac n := by
  rw [State.modemMac, State.wrB, rd_wr_elsewhere s _ (by simp [F.SYS_DEVID_DEVID, A.SYS_DEVID, F.PIL_Ln_SLAC_VALID, A.PIL_Ln_SLAC]; omega), State.modemMac]

theorem modemMac_modemRx (s : State) (n : Nat) (rx : ModemRx) : (s.modemRx n rx).modemMac n = s.modemMac n := by
  rw [State.modemMac, rd_modemRx s n rx (by simp [F.SYS_DEVID_DEVID, A.SYS_DEVID, A.PIL_Ln_MDM]; omega), State.modemMac]

theorem pilLane_takeParm (s : State) (n mac run : Nat) : (s.takeParm n mac run).pilLane n = { s.pilLane n with
    mac := mac, run := run, parmAt := some s.clk.frame, mayMatch := false, needToggle := false,
    reply := { msg := .slacParm, result := .ok, mac := s.modemMac n } } := by
  rw [State.takeParm, pilLane_slacAnswer_self, modemMac_modPilLane, modemMac_voided, pilLane_modPilLane_self, State.wrB, pilLane_wr]

/-! ## Sounding runs (R183) -/

/-- A run as it stands, in place of the one it was. -/
def State.putRun (s : State) (r : SlacRun) : State :=
  s.modPil fun p => { p with runs := r :: p.runs.filter fun x => !(x.mac = r.mac && x.run = r.run) }

/-- A run is over. -/
def State.dropRun (s : State) (r : SlacRun) : State :=
  s.modPil fun p => { p with runs := p.runs.filter fun x => !(x.mac = r.mac && x.run = r.run) }

theorem slacRun_putRun (s : State) (r : SlacRun) : (s.putRun r).slacRun r.mac r.run = some r :=
  List.find?_cons_of_pos (by simp)

theorem slacRun_dropRun (s : State) (r : SlacRun) : (s.dropRun r).slacRun r.mac r.run = none :=
  List.find?_eq_none.2 fun x hx => by simpa [← not_and_or] using (List.mem_filter.1 hx).2

theorem slacRun_congr {s t : State} (h : t.pil.runs = s.pil.runs) (mac run : Nat) : t.slacRun mac run = s.slacRun mac run := by
  rw [State.slacRun, h, State.slacRun]

theorem of_slacRun_eq_some {s : State} {mac run : Nat} {r : SlacRun} (h : s.slacRun mac run = some r) : r.mac = mac ∧ r.run = run := by
  simpa using List.find?_some h

theorem exec_cmStartAttenCharInd (s : State) (n : Lane) (rx : ModemRx) (mac : BitVec 48) (run : BitVec 64) (k : Byte) :
    exec (.cmStartAttenCharInd ⟨n, rx⟩ mac run k) s = .next (if s.slacOpen n && k ≠ 0 then
      (s.modemRx n rx).putRun { mac := mac.toNat, run := run.toNat, start := s.clk.frame, total := k.toNat }
    else s.modemRx n rx) := by
  rw [← slacOpen_modemRx s n rx, ← clk_modemRx s n rx]
  rfl

/-! ### A sounding -/

theorem foldl_add_eq (as : List LaneAtten) (r : SlacRun) : ∃ sums counts, as.foldl SlacRun.add r = { r with sums := sums, counts := counts } := by
  induction as generalizing r with
  | nil => exact ⟨r.sums, r.counts, rfl⟩
  | cons a as ih =>
    obtain ⟨sums, counts, h⟩ := ih (r.add a)
    exact ⟨sums, counts, h⟩

/-- A run after one more sounding, as the lanes' modems received it. -/
def SlacRun.hear (r : SlacRun) (as : List LaneAtten) : SlacRun := as.foldl SlacRun.add { r with heard := r.heard + 1 }

theorem SlacRun.hear_spec (r : SlacRun) (as : List LaneAtten) :
    (r.hear as).mac = r.mac ∧ (r.hear as).run = r.run ∧ (r.hear as).total = r.total ∧ (r.hear as).heard = r.heard + 1 := by
  obtain ⟨sums, counts, h⟩ := foldl_add_eq as { r with heard := r.heard + 1 }
  rw [SlacRun.hear, h]
  exact ⟨rfl, rfl, rfl, rfl⟩

theorem hear_of_slacRun {s : State} {mac run : Nat} {r : SlacRun} (h : s.slacRun mac run = some r) (as : List LaneAtten) :
    (r.hear as).mac = mac ∧ (r.hear as).run = run := by
  obtain ⟨hmac, hrun, -, -⟩ := r.hear_spec as
  obtain ⟨hmac', hrun'⟩ := of_slacRun_eq_some h
  exact ⟨hmac.trans hmac', hrun.trans hrun'⟩

/-- A sounding's frames, each at the modem of its lane. -/
def State.modemRxs (s : State) (as : List LaneAtten) : State := as.foldl (fun s a => s.modemRx a.lane a.rx) s

theorem modemRxs_induction {motive : State → Prop} {s : State} (hs : motive s) (hstep : ∀ t, motive t → ∀ (n : Nat) rx, motive (t.modemRx n rx))
    (as : List LaneAtten) : motive (s.modemRxs as) :=
  List.foldlRecOn as _ hs fun t ht a _ => hstep t ht a.lane a.rx

theorem frame_modemRxs (s : State) (as : List LaneAtten) : Frame [.regs] s (s.modemRxs as) :=
  modemRxs_induction (.refl _ s) (fun t ht n rx => ht.trans (regsBut_modemRx t n rx).1) as

theorem margin_modemRxs (s : State) (as : List LaneAtten) : (s.modemRxs as).rd F.PIL_CFG_SLACMARGIN = s.rd F.PIL_CFG_SLACMARGIN :=
  modemRxs_induction (motive := fun t => t.rd F.PIL_CFG_SLACMARGIN = s.rd F.PIL_CFG_SLACMARGIN) rfl (fun t ht n rx => by
    rw [rd_modemRx t n rx ?_, ht]
    simp only [F.PIL_CFG_SLACMARGIN, A.PIL_CFG, A.PIL_Ln_MDM]
    omega) as

theorem slacRun_modemRxs (s : State) (as : List LaneAtten) (mac run : Nat) : (s.modemRxs as).slacRun mac run = s.slacRun mac run :=
  slacRun_congr (congrArg PilState.runs (frame_modemRxs s as .pil (by decide))) mac run

theorem exec_cmMnbcSoundInd (s : State) (mac : BitVec 48) (run : BitVec 64) (as : List LaneAtten) : exec (.cmMnbcSoundInd mac run as) s =
    .next (match s.slacRun mac.toNat run.toNat with
      | none => s.modemRxs as
      | some r => if (r.hear as).total ≤ (r.hear as).heard then (s.modemRxs as).runEnd (r.hear as) else (s.modemRxs as).putRun (r.hear as)) := by
  rw [← slacRun_modemRxs s as]
  rfl

theorem exec_cmMnbcSoundInd_unknown {s : State} {mac : BitVec 48} {run : BitVec 64} (h : s.slacRun mac.toNat run.toNat = none)
    (as : List LaneAtten) : exec (.cmMnbcSoundInd mac run as) s = .next (s.modemRxs as) := by
  rw [exec_cmMnbcSoundInd, h]

theorem exec_cmMnbcSoundInd_known {s : State} {mac : BitVec 48} {run : BitVec 64} {r : SlacRun} (h : s.slacRun mac.toNat run.toNat = some r)
    (as : List LaneAtten) : exec (.cmMnbcSoundInd mac run as) s =
      .next (if r.total ≤ r.heard + 1 then (s.modemRxs as).runEnd (r.hear as) else (s.modemRxs as).putRun (r.hear as)) := by
  obtain ⟨-, -, htotal, hheard⟩ := r.hear_spec as
  rw [exec_cmMnbcSoundInd, h, ← htotal, ← hheard]

/-! ## The judgement of a run (R184) -/

/-- Is the lane heard better than every other by the margin? -/
def State.aloneIn (s : State) (r : SlacRun) (n : Nat) : Bool :=
  ((s.heardLanes r).filter (· ≠ n)).all fun j => r.below (s.rd F.PIL_CFG_SLACMARGIN) n j

/-- May the lane answer: heard best alone, or within the margin of the best where no lane is heard best alone? -/
def State.mayAnswer (s : State) (r : SlacRun) (n : Nat) : Bool :=
  s.aloneIn r n || (!((s.heardLanes r).any (s.aloneIn r)) &&
    (s.heardLanes r).any fun k => ((s.heardLanes r).all fun j => r.below 0 k j) && r.near (s.rd F.PIL_CFG_SLACMARGIN) n k)

/-- What a lane heard of a run, shown; a validation of an earlier run is void. -/
def State.showHeard (s : State) (r : SlacRun) (n : Nat) : State :=
  ((s.wr (F.PIL_Ln_SLAC_ATTEN n) (r.mean n)).wr (F.PIL_Ln_SLAC_NEXT n)
    ((leastOf (((s.heardLanes r).filter (· ≠ n)).map r.mean)).getD 0xFF)).wrB (F.PIL_Ln_SLAC_VALID n) false

theorem slacJudge_eq (s : State) (r : SlacRun) (n : Nat) : s.slacJudge r n = if s.mayAnswer r n then
      ((s.showHeard r n).modPilLane n fun p => { p with mac := r.mac, run := r.run, mayMatch := true, needToggle := !s.aloneIn r n }).slacAnswer
        n .attenChar .ok
    else ((s.showHeard r n).modPilLane n fun p => { p with mayMatch := false }).count (F.PIL_Ln_SLAC_WITHHELD n) 1 := rfl

theorem laneWork_slacJudge (s : State) (r : SlacRun) (n : Nat) : LaneWork [.regs, .pil] n [A.PIL_Ln_SLAC n] s (s.slacJudge r n) := by
  have hatten := (LaneWork.refl [.regs, .pil] n [A.PIL_Ln_SLAC n] s).wr (F.PIL_Ln_SLAC_ATTEN n) (r.mean n) (.head _)
  have hnext := hatten.wr (F.PIL_Ln_SLAC_NEXT n) ((leastOf (((s.heardLanes r).filter (· ≠ n)).map r.mean)).getD 0xFF) (.head _)
  have hshown : LaneWork _ n _ s (s.showHeard r n) := hnext.wrB (F.PIL_Ln_SLAC_VALID n) false (.head _)
  rw [slacJudge_eq]
  split
  · exact (hshown.modPilLane _).slacAnswer _ _
  · exact (hshown.modPilLane _).wr (F.PIL_Ln_SLAC_WITHHELD n) _ (.head _)

theorem runs_slacJudge (s : State) (r : SlacRun) (n : Nat) : (s.slacJudge r n).pil.runs = s.pil.runs := by
  have hshown : (s.showHeard r n).pil = s.pil := by rw [State.showHeard, State.wrB, pil_wr, pil_wr, pil_wr]
  rw [slacJudge_eq, ← hshown]
  split
  · rfl
  · rw [State.count, State.wrSat, pil_wr]
    rfl

/-- A lane heard better than all others may match, without toggles. -/
theorem pilLane_slacJudge_alone {s : State} {r : SlacRun} {n : Nat} (h : s.aloneIn r n = true) :
    ((s.slacJudge r n).pilLane n).mayMatch = true ∧ ((s.slacJudge r n).pilLane n).needToggle = false ∧
      ((s.slacJudge r n).pilLane n).mac = r.mac ∧ ((s.slacJudge r n).pilLane n).reply.msg = .attenChar := by
  have hmay : s.mayAnswer r n = true := by rw [State.mayAnswer, h, Bool.true_or]
  rw [slacJudge_eq, if_pos hmay, pilLane_slacAnswer_self, pilLane_modPilLane_self, h]
  exact ⟨rfl, rfl, rfl, rfl⟩

theorem pilLane_slacJudge_withheld {s : State} {r : SlacRun} {n : Nat} (h : s.mayAnswer r n = false) :
    ((s.slacJudge r n).pilLane n).mayMatch = false := by
  rw [slacJudge_eq, if_neg (Bool.eq_false_iff.1 h), State.count, State.wrSat, pilLane_wr, pilLane_modPilLane_self]

/-- Beside a lane heard better than all others, no other may answer. -/
theorem mayAnswer_of_other_alone {s : State} {r : SlacRun} {n k : Nat} (hk : k ∈ s.heardLanes r) (halone : s.aloneIn r k = true)
    (hn : s.aloneIn r n = false) : s.mayAnswer r n = false := by
  have hany : (s.heardLanes r).any (s.aloneIn r) = true := List.any_eq_true.2 ⟨k, hk, halone⟩
  rw [State.mayAnswer, hn, hany]
  rfl

theorem aloneIn_iff (s : State) (r : SlacRun) (n : Nat) : s.aloneIn r n = true ↔ ∀ j ∈ s.heardLanes r, j ≠ n →
    r.sum n * r.values j + s.rd F.PIL_CFG_SLACMARGIN * r.values n * r.values j ≤ r.sum j * r.values n := by
  simp [State.aloneIn, SlacRun.below, List.all_filter, or_iff_not_imp_left]

theorem aloneIn_modemRxs_iff (s : State) (as : List LaneAtten) (r : SlacRun) (n : Nat) : (s.modemRxs as).aloneIn r n = true ↔
    ∀ j ∈ (s.modemRxs as).heardLanes r, j ≠ n →
      r.sum n * r.values j + s.rd F.PIL_CFG_SLACMARGIN * r.values n * r.values j ≤ r.sum j * r.values n := by
  rw [aloneIn_iff, margin_modemRxs]

/-! ### The lanes in turn -/

/-- Two states judge a run alike: the same lanes heard it, under the same margin. -/
structure JudgesAlike (r : SlacRun) (s t : State) : Prop where
  lanes : t.heardLanes r = s.heardLanes r
  margin : t.rd F.PIL_CFG_SLACMARGIN = s.rd F.PIL_CFG_SLACMARGIN

theorem JudgesAlike.aloneIn_eq {r : SlacRun} {s t : State} (h : JudgesAlike r s t) (n : Nat) : t.aloneIn r n = s.aloneIn r n := by
  rw [State.aloneIn, h.lanes, h.margin, State.aloneIn]

theorem JudgesAlike.mayAnswer_eq {r : SlacRun} {s t : State} (h : JudgesAlike r s t) (n : Nat) : t.mayAnswer r n = s.mayAnswer r n := by
  have halone : t.aloneIn r = s.aloneIn r := funext h.aloneIn_eq
  rw [State.mayAnswer, halone, h.lanes, h.margin, State.mayAnswer]

theorem heardLanes_congr {s t : State} (hboot : t.boot = s.boot) (hstep : ∀ j, t.sessStep j = s.sessStep j) (r : SlacRun) :
    t.heardLanes r = s.heardLanes r := by
  simp only [State.heardLanes, laneType_congr hboot, hstep]

/-- A lane's judgement changes nothing that another's rests on. -/
theorem JudgesAlike.slacJudge {r : SlacRun} {s t : State} (h : JudgesAlike r s t) (n : Nat) : JudgesAlike r s (t.slacJudge r n) := by
  have hwork := laneWork_slacJudge t r n
  have hstep : ∀ j, (t.slacJudge r n).sessStep j = t.sessStep j := fun j => hwork.rd_plain (by
    simp only [F.PIL_Ln_SESS_STEP, A.PIL_Ln_SESS, A.PIL_Ln_SLAC, List.mem_singleton]
    omega)
  refine ⟨(heardLanes_congr hwork.boot_eq hstep r).trans h.lanes, (hwork.rd_plain ?_).trans h.margin⟩
  simp only [F.PIL_CFG_SLACMARGIN, A.PIL_CFG, A.PIL_Ln_SLAC, List.mem_singleton]
  omega

/-- What one step of a pass sets, and every step keeps, holds after the pass, where every step keeps what both rest on. -/
theorem each_establishes_under {inv motive : State → Prop} {f : State → Nat → State} {m : Nat} {ns : List Nat} (hm : m ∈ ns) {s : State}
    (hs : inv s) (hinv : ∀ t n, inv t → inv (f t n)) (hset : ∀ t, inv t → motive (f t m))
    (hkeep : ∀ t n, inv t → motive t → motive (f t n)) : motive (s.each ns f) :=
  by
    obtain ⟨before, after, rfl⟩ := List.append_of_mem hm
    have hbefore : inv (s.each before f) := each_induction hs fun t ht n _ => hinv t n ht
    have hsplit : s.each (before ++ m :: after) f = (f (s.each before f) m).each after f := by
      simp only [State.each, List.foldl_append, List.foldl_cons]
    rw [hsplit]
    exact (each_induction (motive := fun t => inv t ∧ motive t) ⟨hinv _ m hbefore, hset _ hbefore⟩
      fun t ht n _ => ⟨hinv t n ht.1, hkeep t n ht.1 ht.2⟩).2

/-! ### A run that has ended -/

theorem slacRun_runEnd (s : State) (r : SlacRun) : (s.runEnd r).slacRun r.mac r.run = none := by
  have hruns : (s.runEnd r).pil.runs = (s.dropRun r).pil.runs :=
    each_induction (motive := fun t => t.pil.runs = (s.dropRun r).pil.runs) rfl fun t ht n _ => (runs_slacJudge t r n).trans ht
  rw [slacRun_congr hruns, slacRun_dropRun]

theorem judgesAlike_dropRun (s : State) (r : SlacRun) : JudgesAlike r s (s.dropRun r) :=
  ⟨heardLanes_congr (s := s) (t := s.dropRun r) rfl (fun _ => rd_modPil s _ _) r, rd_modPil s _ _⟩

/-- What a lane's own judgement leaves in its record is in it when the run has ended. -/
theorem runEnd_judged {motive : PilLane → Prop} {s : State} {r : SlacRun} {n : Nat} (hn : n ∈ s.heardLanes r)
    (hset : ∀ t, JudgesAlike r s t → motive ((t.slacJudge r n).pilLane n)) : motive ((s.runEnd r).pilLane n) := by
  refine each_establishes_under (inv := JudgesAlike r s) (motive := fun t => motive (t.pilLane n)) hn (judgesAlike_dropRun s r)
    (fun t j ht => ht.slacJudge j) hset fun t j ht hdone => ?_
  by_cases hj : n = j
  · subst hj
    exact hset t ht
  · rwa [(laneWork_slacJudge t r j).lanes n hj]

theorem runEnd_alone {s : State} {r : SlacRun} {n : Nat} (hn : n ∈ s.heardLanes r) (h : s.aloneIn r n = true) :
    ((s.runEnd r).pilLane n).mayMatch = true ∧ ((s.runEnd r).pilLane n).needToggle = false ∧ ((s.runEnd r).pilLane n).mac = r.mac ∧
      ((s.runEnd r).pilLane n).reply.msg = .attenChar :=
  runEnd_judged (motive := fun p => p.mayMatch = true ∧ p.needToggle = false ∧ p.mac = r.mac ∧ p.reply.msg = .attenChar) hn
    fun _ ht => pilLane_slacJudge_alone ((ht.aloneIn_eq n).trans h)

theorem runEnd_withheld {s : State} {r : SlacRun} {n : Nat} (hn : n ∈ s.heardLanes r) (h : s.mayAnswer r n = false) :
    ((s.runEnd r).pilLane n).mayMatch = false :=
  runEnd_judged (motive := fun p => p.mayMatch = false) hn fun _ ht => pilLane_slacJudge_withheld ((ht.mayAnswer_eq n).trans h)

/-! ## The match (R183, R184) -/

theorem exec_cmAttenCharRsp (s : State) (n : Lane) (rx : ModemRx) (mac : BitVec 48) (run : BitVec 64) :
    exec (.cmAttenCharRsp ⟨n, rx⟩ mac run) s = .next (if s.slacMine n mac.toNat && (s.pilLane n).run = run.toNat then
      (s.modemRx n rx).slacAnswer n .none .ok else s.modemRx n rx) := by
  rw [← slacMine_modemRx s n _ rx, ← pilLane_modemRx s n n rx]
  rfl

/-- The vehicle's toggles were seen on the lane's own pilot. -/
def State.validate (s : State) (n : Nat) : State := (s.wrB (F.PIL_Ln_SLAC_VALID n) true).slacAnswer n .validate .ok

theorem exec_cmValidateReq (s : State) (n : Lane) (rx : ModemRx) (mac : BitVec 48) (toggles : Bool) :
    exec (.cmValidateReq ⟨n, rx⟩ mac toggles) s = .next (if s.slacMine n mac.toNat then
      if toggles then (s.modemRx n rx).validate n else (s.modemRx n rx).slacAnswer n .validate .failed
    else s.modemRx n rx) := by
  rw [← slacMine_modemRx s n _ rx]
  rfl

/-- A draw from the DRBG leaves the lanes' records alone. -/
theorem pil_random (s : State) (k : Nat) : (s.random k).2.pil = s.pil := by
  unfold State.random
  cases drbgDraw s.key.drbg k
  rfl

/-- The match confirmed with a fresh network key. -/
def State.confirmMatch (s : State) (n mac : Nat) : State :=
  (((((s.random 16).2.wrB (F.PIL_Ln_SLAC_MATCHED n) true).wr (F.PIL_Ln_EVMAC_MAC n) mac).wr (F.PIL_Ln_MDM_LINK n) 3).modPilLane n fun p =>
    { p with nmk := (s.random 16).1, parmAt := none }).slacAnswer n .slacMatch .ok

theorem exec_cmSlacMatchReq (s : State) (n : Lane) (rx : ModemRx) (mac : BitVec 48) (run : BitVec 64) :
    exec (.cmSlacMatchReq ⟨n, rx⟩ mac run) s = .next (if s.slacMine n mac.toNat && (s.pilLane n).run = run.toNat then
      if (s.pilLane n).needToggle && !s.on (F.PIL_Ln_SLAC_VALID n) then (s.modemRx n rx).slacAnswer n .slacMatch .failed
      else (s.modemRx n rx).confirmMatch n mac.toNat
    else s.modemRx n rx) := by
  have hon : s.on (F.PIL_Ln_SLAC_VALID n) = (s.modemRx n rx).on (F.PIL_Ln_SLAC_VALID n) := by
    rw [State.on, State.on, rd_modemRx s n rx laneAddr_ne]
  have hexec : exec (.cmSlacMatchReq ⟨n, rx⟩ mac run) s = execCmSlacMatchReq ⟨n, rx⟩ mac run s := rfl
  rw [hexec, execCmSlacMatchReq, State.confirmMatch, hon, ← slacMine_modemRx s n _ rx, ← pilLane_modemRx s n n rx]

theorem laneWork_validate (s : State) (n : Nat) : LaneWork [.regs, .pil] n (slacWords n) s (s.validate n) := by
  unfold State.validate
  exact ((LaneWork.refl [.regs, .pil] n (slacWords n) s).wrB (F.PIL_Ln_SLAC_VALID n) true (.head _)).slacAnswer _ _

theorem rd_valid_validate (s : State) (n : Nat) : (s.validate n).rd (F.PIL_Ln_SLAC_VALID n) = 1 := by
  rw [State.validate, rd_slacAnswer]
  exact rd_wrB s (F.PIL_Ln_SLAC_VALID n) true rfl rfl

theorem rd_matched_confirmMatch (s : State) (n mac : Nat) : (s.confirmMatch n mac).rd (F.PIL_Ln_SLAC_MATCHED n) = 1 := by
  have hmac : ∀ t : State, (t.wr (F.PIL_Ln_EVMAC_MAC n) mac).rd (F.PIL_Ln_SLAC_MATCHED n) = t.rd (F.PIL_Ln_SLAC_MATCHED n) := fun t =>
    (regsBut_wr t _ mac rfl).2.rd_plain (by simp [Fld.words, F.PIL_Ln_EVMAC_MAC, F.PIL_Ln_SLAC_MATCHED, A.PIL_Ln_SLAC, A.PIL_Ln_EVMAC]; omega)
  rw [State.confirmMatch, rd_slacAnswer, rd_modPilLane, rd_wr_elsewhere _ _ laneAddr_ne, hmac]
  exact rd_wrB _ (F.PIL_Ln_SLAC_MATCHED n) true rfl rfl

theorem rd_evmac_confirmMatch (s : State) (n : Nat) (mac : BitVec 48) : (s.confirmMatch n mac.toNat).rd (F.PIL_Ln_EVMAC_MAC n) = mac.toNat := by
  have hlink : ∀ t : State, (t.wr (F.PIL_Ln_MDM_LINK n) 3).rd (F.PIL_Ln_EVMAC_MAC n) = t.rd (F.PIL_Ln_EVMAC_MAC n) := fun t =>
    rd_wr_other t 3 rfl rfl fun i hi => by
      simp [Fld.words, F.PIL_Ln_MDM_LINK, F.PIL_Ln_EVMAC_MAC, A.PIL_Ln_MDM, A.PIL_Ln_EVMAC] at hi ⊢
      omega
  rw [State.confirmMatch, rd_slacAnswer, rd_modPilLane, hlink]
  exact rd_wr_toNat _ (F.PIL_Ln_EVMAC_MAC n) mac ⟨Nat.zero_le _, .inl rfl⟩ (Nat.le_refl 48)

theorem rd_link_confirmMatch (s : State) (n mac : Nat) : (s.confirmMatch n mac).rd (F.PIL_Ln_MDM_LINK n) = 3 := by
  rw [State.confirmMatch, rd_slacAnswer, rd_modPilLane]
  exact rd_wr_plain _ (by decide : 3 < 2 ^ 2)

theorem pilLane_confirmMatch (s : State) (n mac : Nat) : ((s.confirmMatch n mac).pilLane n).nmk = (s.random 16).1 ∧
    ((s.confirmMatch n mac).pilLane n).reply.msg = .slacMatch ∧ ((s.confirmMatch n mac).pilLane n).reply.result = .ok := by
  rw [State.confirmMatch, pilLane_slacAnswer_self, pilLane_modPilLane_self]
  generalize s.random 16 = drawn
  exact ⟨rfl, rfl, rfl⟩

theorem pilLane_confirmMatch_ne (s : State) {n j : Nat} (mac : Nat) (h : j ≠ n) : (s.confirmMatch n mac).pilLane j = s.pilLane j := by
  rw [State.confirmMatch, State.slacAnswer, pilLane_modPilLane_ne _ _ h, pilLane_modPilLane_ne _ _ h, pilLane_wr, pilLane_wr, State.wrB, pilLane_wr,
    State.pilLane, pil_random, State.pilLane]

/-! ## Failures and retries (R185) -/

/-- Has the attempt failed, or gone on too long? -/
def State.slacOver (s : State) (n : Nat) (failed : Bool) : Bool :=
  failed || s.matchLate n || (s.pilLane n).slacAt + (s.pilLane n).limit ≤ s.clk.frame

/-- SLAC fails with no retry left. -/
def State.slacGiveUp (s : State) (n : Nat) : State :=
  if s.laneType n = .dc || 2 ≤ s.rd (F.PIL_Ln_CTL_MODE n) then (s.sticky (F.PIL_Ln_EVT_SLACFAIL n)).decideExit n 0x19
  else ((s.sticky (F.PIL_Ln_EVT_SLACFAIL n)).modPilLane n fun p => { p with basic := true, next := some 5 }).wr (F.PIL_Ln_MDM_LINK n) 0

/-- The pause of state F before a retry. -/
def State.slacPause (s : State) (n : Nat) : State := s.modPilLane n fun p => { p with slacF := some s.clk.frame, parmAt := none }

theorem rd_mode_sticky (s : State) (n : Nat) : (s.sticky (F.PIL_Ln_EVT_SLACFAIL n)).rd (F.PIL_Ln_CTL_MODE n) = s.rd (F.PIL_Ln_CTL_MODE n) :=
  (regsBut_sticky s (F.PIL_Ln_EVT_SLACFAIL n)).2.rd_plain (List.mem_singleton.not.2 laneAddr_ne)

theorem exec_slacTimeout (s : State) (n : Lane) (failed : Bool) : exec (.slacTimeout n failed) s =
    .next (if s.slacOpen n && !(s.pilLane n).changed && s.slacOver n failed then
      if s.rd F.PIL_CFG_SLACRETRY < s.rd (F.PIL_Ln_SLAC_TRIES n) then s.slacGiveUp n else s.slacPause n
    else s) := by
  rw [State.slacGiveUp, ← rd_mode_sticky s n]
  rfl

theorem slacTimeout_early {s : State} {n : Lane} {failed : Bool}
    (h : (s.pilLane n).changed = true ∨
      failed = false ∧ s.matchLate n = false ∧ s.clk.frame < (s.pilLane n).slacAt + (s.pilLane n).limit) :
    exec (.slacTimeout n failed) s = .next s := by
  have hno : ¬(s.slacOpen n && !(s.pilLane n).changed && s.slacOver n failed) = true := by
    rcases h with hchanged | ⟨hfailed, hlate, hframe⟩
    · simp [hchanged]
    · simp [State.slacOver, hfailed, hlate, hframe]
  rw [exec_slacTimeout, if_neg hno]

theorem slacTimeout_due {s : State} {n : Lane} {failed : Bool} (hopen : s.slacOpen n = true) (hsame : (s.pilLane n).changed = false)
    (hdue : failed = true ∨ (s.pilLane n).slacAt + (s.pilLane n).limit ≤ s.clk.frame ∨ s.matchLate n = true) :
    exec (.slacTimeout n failed) s =
      .next (if s.rd F.PIL_CFG_SLACRETRY < s.rd (F.PIL_Ln_SLAC_TRIES n) then s.slacGiveUp n else s.slacPause n) := by
  have hover : s.slacOver n failed = true := by
    simp only [State.slacOver, Bool.or_eq_true, decide_eq_true_eq]
    tauto
  have hyes : (s.slacOpen n && !(s.pilLane n).changed && s.slacOver n failed) = true := by rw [hopen, hsame, hover]; rfl
  rw [exec_slacTimeout, if_pos hyes]

theorem rd_slacfail_sticky (s : State) (n : Nat) : (s.sticky (F.PIL_Ln_EVT_SLACFAIL n)).rd (F.PIL_Ln_EVT_SLACFAIL n) = 1 :=
  rd_sticky_self s (F.PIL_Ln_EVT_SLACFAIL n) rfl (by decide : 5 < 24) rfl

theorem slacGiveUp_exits {s : State} {n : Nat} (h : s.laneType n = .dc ∨ 2 ≤ s.rd (F.PIL_Ln_CTL_MODE n)) :
    (s.slacGiveUp n).rd (F.PIL_Ln_EVT_SLACFAIL n) = 1 ∧ 0x19 ∈ ((s.slacGiveUp n).pilLane (s.lead n)).decided := by
  rw [State.slacGiveUp, if_pos (by simpa using h), decideExit_orderly]
  refine ⟨(rd_modPilLane ..).trans (rd_slacfail_sticky s n), ?_⟩
  have hlead : (s.sticky (F.PIL_Ln_EVT_SLACFAIL n)).lead n = s.lead n := rfl
  rw [hlead, pilLane_modPilLane_self]
  exact .head _

theorem slacGiveUp_basic {s : State} {n : Nat} (htype : s.laneType n ≠ .dc) (hmode : s.rd (F.PIL_Ln_CTL_MODE n) < 2) :
    (s.slacGiveUp n).rd (F.PIL_Ln_EVT_SLACFAIL n) = 1 ∧ ((s.slacGiveUp n).pilLane n).basic = true ∧
      ((s.slacGiveUp n).pilLane n).next = some 5 ∧ (s.slacGiveUp n).rd (F.PIL_Ln_MDM_LINK n) = 0 := by
  rw [State.slacGiveUp, if_neg (by simp [htype, hmode]), pilLane_wr, pilLane_modPilLane_self]
  refine ⟨(rd_wr_elsewhere _ _ laneAddr_ne).trans ((rd_modPilLane ..).trans (rd_slacfail_sticky s n)), rfl, rfl, ?_⟩
  exact rd_wr_plain _ (by decide : 0 < 2 ^ 2)

/-- SLAC starts anew, and the attempt counts. -/
def State.slacRestart (s : State) (n : Nat) : State :=
  ((s.modPilLane n fun p => { p with slacF := none, slacAt := s.clk.frame, mac := 0, run := 0, mayMatch := false, needToggle := false }).count
    (F.PIL_Ln_SLAC_TRIES n) 1).wrB (F.PIL_Ln_SLAC_VALID n) false

theorem exec_slacRetryResume (s : State) (n : Lane) : exec (.slacRetryResume n) s = .next (match (s.pilLane n).slacF with
    | some t => if s.sessStep n = 3 && t + 4000 ≤ s.clk.frame then s.slacRestart n else s
    | none => s) := rfl

theorem slacRetryResume_idle {s : State} {n : Lane} (h : (s.pilLane n).slacF = none) : exec (.slacRetryResume n) s = .next s := by
  rw [exec_slacRetryResume, h]

theorem slacRetryResume_early {s : State} {n : Lane} {f : Nat} (h : (s.pilLane n).slacF = some f)
    (hearly : s.sessStep n ≠ 3 ∨ s.clk.frame < f + 4000) : exec (.slacRetryResume n) s = .next s := by
  rw [exec_slacRetryResume, h]
  simp only [Bool.and_eq_true, decide_eq_true_eq]
  rw [if_neg (by omega)]

theorem slacRetryResume_due {s : State} {n : Lane} {f : Nat} (h : (s.pilLane n).slacF = some f) (hstep : s.sessStep n = 3)
    (hdue : f + 4000 ≤ s.clk.frame) : exec (.slacRetryResume n) s = .next (s.slacRestart n) := by
  rw [exec_slacRetryResume, h]
  simp only [Bool.and_eq_true, decide_eq_true_eq]
  rw [if_pos ⟨hstep, hdue⟩]

theorem laneWork_slacRestart (s : State) (n : Nat) : LaneWork [.regs, .pil] n [A.PIL_Ln_SLAC n] s (s.slacRestart n) := by
  have hfresh := (LaneWork.refl [.regs, .pil] n [A.PIL_Ln_SLAC n] s).modPilLane fun p => { p with
    slacF := none, slacAt := s.clk.frame, mac := 0, run := 0, mayMatch := false, needToggle := false }
  unfold State.slacRestart State.count State.wrSat
  exact (hfresh.wr (F.PIL_Ln_SLAC_TRIES n) _ (.head _)).wrB (F.PIL_Ln_SLAC_VALID n) false (.head _)

theorem pilLane_slacRestart (s : State) (n : Nat) : (s.slacRestart n).pilLane n = { s.pilLane n with
    slacF := none, slacAt := s.clk.frame, mac := 0, run := 0, mayMatch := false, needToggle := false } := by
  rw [State.slacRestart, State.wrB, pilLane_wr, State.count, State.wrSat, pilLane_wr, pilLane_modPilLane_self]

theorem slacOpen_slacRestart {s : State} {n : Nat} (hstep : s.sessStep n = 3) (hnext : (s.pilLane n).next = none) :
    (s.slacRestart n).slacOpen n = true := by
  have hkept : (s.slacRestart n).sessStep n = s.sessStep n := (laneWork_slacRestart s n).rd_plain (List.mem_singleton.not.2 laneAddr_ne)
  rw [State.slacOpen, hkept, hstep, pilLane_slacRestart, hnext]
  rfl

theorem rd_tries_slacRestart (s : State) (n : Nat) :
    (s.slacRestart n).rd (F.PIL_Ln_SLAC_TRIES n) = min 15 (s.rd (F.PIL_Ln_SLAC_TRIES n) + 1) := by
  refine (rd_wr_beside _ _).trans ((rd_count_plain _ 1).trans ?_)
  rw [rd_modPilLane]
  rfl

theorem rd_valid_slacRestart (s : State) (n : Nat) : (s.slacRestart n).rd (F.PIL_Ln_SLAC_VALID n) = 0 :=
  rd_wrB _ (F.PIL_Ln_SLAC_VALID n) false rfl rfl

/-! ## The protocol of a session (R186, R188) -/

theorem protoMatches_modemRx (s : State) (n : Nat) (rx : ModemRx) : (s.modemRx n rx).protoMatches n = s.protoMatches n := by
  funext o
  rw [State.protoMatches, State.rdBit, rd_modemRx s n rx laneAddr_ne, pilLane_modemRx, laneType_modemRx, boot_modemRx, State.protoMatches, State.rdBit]

theorem bestOffer_modemRx (s : State) (n : Nat) (rx : ModemRx) (os : List ProtoOffer) : (s.modemRx n rx).bestOffer n os = s.bestOffer n os := by
  rw [State.bestOffer, protoMatches_modemRx, State.bestOffer]

/-- The better of the offer held and the next one: of two alike the earlier. -/
def betterOffer (r : Option ProtoOffer) (o : ProtoOffer) : Option ProtoOffer :=
  match r with | none => some o | some b => if o.priority < b.priority then some o else some b

theorem betterOffer_spec (r : Option ProtoOffer) (o : ProtoOffer) : ∃ b, betterOffer r o = some b ∧ (r = some b ∨ b = o) ∧
    (∀ c, r = some c → b.priority ≤ c.priority) ∧ b.priority ≤ o.priority := by
  cases r with
  | none => exact ⟨o, rfl, .inr rfl, nofun, Nat.le_refl _⟩
  | some c =>
    by_cases h : o.priority < c.priority
    · exact ⟨o, if_pos h, .inr rfl, fun d hd => Option.some.inj hd ▸ h.le, Nat.le_refl _⟩
    · exact ⟨c, if_neg h, .inl rfl, fun d hd => Option.some.inj hd ▸ Nat.le_refl _, Nat.le_of_not_lt h⟩

/-- What a pass over offers ends with: one of those it saw, and none it saw is better. -/
theorem foldl_betterOffer {os : List ProtoOffer} {r : Option ProtoOffer} {o : ProtoOffer} (h : os.foldl betterOffer r = some o) :
    (r = some o ∨ o ∈ os) ∧ (∀ b, r = some b → o.priority ≤ b.priority) ∧ ∀ x ∈ os, o.priority ≤ x.priority := by
  induction os generalizing r with
  | nil => exact ⟨.inl h, fun b hb => by rw [Option.some.inj (h.symm.trans hb)], nofun⟩
  | cons x os ih =>
    obtain ⟨b, hb, hfromb, hheldb, hxb⟩ := betterOffer_spec r x
    obtain ⟨hfrom, hheld, hrest⟩ := ih h
    have hob := hheld b hb
    refine ⟨?_, fun c hc => hob.trans (hheldb c hc), List.forall_mem_cons.2 ⟨hob.trans hxb, hrest⟩⟩
    rcases hfrom with hbest | hlater
    · obtain rfl : b = o := Option.some.inj (hb.symm.trans hbest)
      exact hfromb.imp id fun hbx => List.mem_cons.2 (.inl hbx)
    · exact .inr (.tail x hlater)

theorem bestOffer_eq (s : State) (n : Nat) (os : List ProtoOffer) : s.bestOffer n os = (os.filter (s.protoMatches n)).foldl betterOffer none := rfl

/-- The offer taken is one of those made, and no matching one has a higher priority. -/
theorem of_bestOffer_eq_some {s : State} {n : Nat} {os : List ProtoOffer} {o : ProtoOffer} (h : s.bestOffer n os = some o) :
    o ∈ os ∧ ∀ x ∈ os, s.protoMatches n x = true → o.priority ≤ x.priority := by
  obtain ⟨hfrom, -, hleast⟩ := foldl_betterOffer (bestOffer_eq s n os ▸ h)
  exact ⟨(List.mem_filter.1 (hfrom.resolve_left nofun)).1, fun x hx hmatch => hleast x (List.mem_filter.2 ⟨hx, hmatch⟩)⟩

/-- The session runs over TLS or without, as the vehicle asked, and the request is answered. -/
def State.takeTls (s : State) (n : Nat) (tls : Bool) : State := (s.modPilLane n fun p => { p with tls := tls }).answer n .sdp .ok

theorem exec_sdpRequest (s : State) (n : Lane) (rx : ModemRx) (tls : Bool) : exec (.sdpRequest ⟨n, rx⟩ tls) s =
    .next (if s.linked n && s.sessStep n = 4 then (s.modemRx n rx).takeTls n tls else s.modemRx n rx) := by
  rw [← linked_modemRx s n rx, ← sessStep_modemRx s n rx]
  rfl

theorem exec_supportedAppProtocol (s : State) (n : Lane) (rx : ModemRx) (os : List ProtoOffer) : exec (.supportedAppProtocol ⟨n, rx⟩ os) s =
    .next (if s.linked n && s.sessStep n = 4 && s.proto n = 0 then
      match s.bestOffer n os with
      | some o => ((s.modemRx n rx).wr (F.PIL_Ln_SESS_PROTO n) o.proto).answer n .appProtocol .ok
      | none => (s.modemRx n rx).protoError n .appProtocol
    else s.modemRx n rx) := by
  rw [← linked_modemRx s n rx, ← sessStep_modemRx s n rx, ← proto_modemRx s n rx, ← bestOffer_modemRx s n rx]
  rfl

section
variable {s : State} {n : Lane} (rx : ModemRx) {os : List ProtoOffer} (hl : s.linked n = true) (hstep : s.sessStep n = 4) (hproto : s.proto n = 0)
include hl hstep hproto

theorem supportedAppProtocol_none (h : s.bestOffer n os = none) : exec (.supportedAppProtocol ⟨n, rx⟩ os) s =
    .next ((s.modemRx n rx).protoError n .appProtocol) := by
  rw [exec_supportedAppProtocol, hl, hstep, hproto, h]
  rfl

theorem supportedAppProtocol_taken {o : ProtoOffer} (h : s.bestOffer n os = some o) : exec (.supportedAppProtocol ⟨n, rx⟩ os) s =
    .next (((s.modemRx n rx).wr (F.PIL_Ln_SESS_PROTO n) o.proto).answer n .appProtocol .ok) := by
  rw [exec_supportedAppProtocol, hl, hstep, hproto, h]
  rfl

end

/-- An unsupported request is answered FAILED, and cause 0x1A is decided on the outlet's lane. -/
theorem decided_protoError (s : State) (n : Nat) (m : PilMsg) :
    ((s.protoError n m).pilLane (s.lead n)).decided = 0x1A :: (s.pilLane (s.lead n)).decided := by
  have hlead : (s.answer n m .failed).lead n = s.lead n := rfl
  have hkept : ((s.answer n m .failed).pilLane (s.lead n)).decided = (s.pilLane (s.lead n)).decided := by
    by_cases h : s.lead n = n
    · rw [h, State.answer, pilLane_modPilLane_self]
    · rw [State.answer, pilLane_modPilLane_ne _ _ h]
  rw [State.protoError, decideExit_orderly, hlead, pilLane_modPilLane_self, hkept]

/-! ## The statement -/

theorem takeTls_spec (s : State) (n : Nat) (tls : Bool) :
    ((s.takeTls n tls).pilLane n).tls = tls ∧ ((s.takeTls n tls).pilLane n).reply = { msg := .sdp, result := .ok } := by
  rw [State.takeTls, State.answer, pilLane_modPilLane_self, pilLane_modPilLane_self]
  exact ⟨rfl, rfl⟩

/-- Settles O49: each command of SLAC is the work its law names, under its condition; the judgement of a run rests on nothing that
judging another lane changes, and the offer taken is the least of those that match. -/
theorem slacAndProtocolSetup : Obligations.SlacAndProtocolSetup := by
  unfold Obligations.SlacAndProtocolSetup
  refine ⟨fun s n rx => ⟨fun h => ⟨rd_robo_modemRx h rx, rd_crcerr_modemRx h rx⟩, regsBut_modemRx s n rx⟩, fun s n rx mac run => ?parm,
    fun s mac run as => ?sound, fun s n rx mac run tog => ?validate, fun s n failed => ?timeout, fun s n rx => ?protocol⟩
  case parm =>
    refine ⟨fun hclosed => ?_, fun hopen => ?_⟩
    · simp only [exec_cmSlacParmReq, exec_cmStartAttenCharInd, exec_slacTimeout, hclosed, Bool.false_and, Bool.false_eq_true, if_false,
        implies_true, and_self]
    · have hwork := (laneWork_slac_modemRx s n rx).trans (laneWork_takeParm (s.modemRx n rx) n mac.toNat run.toNat)
      have hlane := pilLane_takeParm (s.modemRx n rx) n mac.toNat run.toNat
      have hframe := regsBut_modemRx s n rx
      simp only [exec_cmSlacParmReq, exec_cmStartAttenCharInd, hopen, Bool.true_and, if_true]
      refine ⟨⟨_, rfl, ?_, ?_, ?_, ?_, rd_valid_takeParm .., ?_, hwork.lanes, hwork.words, hwork.frame⟩, rfl, fun k hk => ?_⟩
      · rw [hlane]
      · rw [hlane]
      · rw [hlane]
      · rw [hlane, clk_modemRx]
      · rw [hlane, modemMac_modemRx, modemMac_eq]
      · rw [if_pos (by simpa using hk)]
        exact ⟨_, rfl, slacRun_putRun _ _, fun j => pilLane_modemRx s n j rx, hframe.2,
          (hframe.1.mono (by decide)).trans ((frame_setPil _ _).mono (by decide))⟩
  case sound =>
    have hframe : Frame [.regs, .pil] s (s.modemRxs as) := (frame_modemRxs s as).mono (by decide)
    refine ⟨fun hnone => exec_cmMnbcSoundInd_unknown hnone as, fun r hr hmore => ?_, fun r hr hlast => ?_⟩
    · obtain ⟨hmac, hrun⟩ := hear_of_slacRun hr as
      obtain ⟨-, -, -, hheard⟩ := r.hear_spec as
      rw [exec_cmMnbcSoundInd_known hr, if_neg (by omega)]
      refine ⟨_, rfl, ⟨r.hear as, ?_, hheard, ?_⟩, hframe.trans ((frame_setPil _ _).mono (by decide))⟩
      · rw [← hmac, ← hrun, slacRun_putRun]
      · rintro a rfl
        exact lk_put_self _ _ _ _
    · obtain ⟨hmac, hrun⟩ := hear_of_slacRun hr as
      rw [exec_cmMnbcSoundInd_known hr, if_pos hlast]
      refine ⟨_, rfl, ?_, ?_⟩
      · rw [← hmac, ← hrun, slacRun_runEnd]
      · intro x m better _ n hn
        refine ⟨fun hbest => runEnd_alone hn ((aloneIn_modemRxs_iff s as x n).2 hbest), fun k hk _ hbest hnot => ?_⟩
        have halone := (aloneIn_modemRxs_iff s as x k).2 hbest
        exact runEnd_withheld hn (mayAnswer_of_other_alone hk halone (Bool.eq_false_iff.2 (mt (aloneIn_modemRxs_iff s as x n).1 hnot)))
  case validate =>
    refine ⟨fun hother => ?_, fun hmine hrun => ?_, fun hmine hrun => ?_, fun hmine => ?_, fun hmine hrun htoggle hvalid => ?_,
      fun hmine hrun hgood => ?_⟩
    · simp only [exec_cmAttenCharRsp, exec_cmValidateReq, exec_cmSlacMatchReq, hother, Bool.false_and, Bool.false_eq_true, if_false, and_self]
    · simp only [exec_cmAttenCharRsp, exec_cmSlacMatchReq, hrun, decide_false, Bool.and_false, Bool.false_eq_true, if_false, and_self]
    · simp only [exec_cmAttenCharRsp, hmine, hrun, decide_true, Bool.and_self, if_true]
    · have hwork := (laneWork_slac_modemRx s n rx).trans (laneWork_validate (s.modemRx n rx) n)
      simp only [exec_cmValidateReq, hmine, if_true, Bool.false_eq_true, if_false, true_and]
      refine ⟨_, rfl, rd_valid_validate .., ?_, ?_, hwork.words, hwork.frame⟩
      all_goals rw [State.validate, pilLane_slacAnswer_self]
    · have hno : s.on (F.PIL_Ln_SLAC_VALID n) = false := by simp [State.on, hvalid]
      simp only [exec_cmSlacMatchReq, hmine, hrun, htoggle, hno, decide_true, Bool.and_self, Bool.not_false, if_true]
    · have hmay : ¬((s.pilLane n).needToggle && !s.on (F.PIL_Ln_SLAC_VALID n)) = true := by
        simpa [State.on, or_iff_not_imp_left] using hgood
      obtain ⟨hkey, hmsg, hok⟩ := pilLane_confirmMatch (s.modemRx n rx) n mac.toNat
      simp only [exec_cmSlacMatchReq, hmine, hrun, decide_true, Bool.and_self, if_true, if_neg hmay]
      exact ⟨_, rfl, rd_matched_confirmMatch .., rd_evmac_confirmMatch .., rd_link_confirmMatch .., hkey, hmsg, hok,
        fun j hj => (pilLane_confirmMatch_ne _ _ hj).trans (pilLane_modemRx ..)⟩
  case timeout =>
    refine ⟨slacTimeout_early, fun hopen hsame hdue => ?_, slacRetryResume_idle, fun f => slacRetryResume_early, fun f hf hnext hstep hdue => ?_⟩
    · rw [slacTimeout_due hopen hsame hdue]
      refine ⟨fun hleft => ?_, fun hover hhlc => ?_, fun hover htype hmode => ?_⟩
      · rw [if_neg (Nat.not_lt.2 hleft)]
        refine ⟨_, rfl, ?_, ?_, frame_setPil s _⟩
        all_goals rw [State.slacPause, pilLane_modPilLane_self]
      · rw [if_pos hover]
        exact ⟨_, rfl, slacGiveUp_exits hhlc⟩
      · rw [if_pos hover]
        exact ⟨_, rfl, slacGiveUp_basic htype hmode⟩
    · exact ⟨_, slacRetryResume_due hf hstep hdue, slacOpen_slacRestart hstep hnext, by rw [pilLane_slacRestart], rd_tries_slacRestart s n,
        rd_valid_slacRestart s n, (laneWork_slacRestart s n).words⟩
  case protocol =>
    refine ⟨fun h => ?_, fun hl hstep => ⟨fun tls => ?_, fun hproto os => ?_,
      fun hproto os => ⟨fun hnone => ?_, fun o ho => ⟨?_, of_bestOffer_eq_some ho⟩⟩⟩⟩
    · have hno : (s.linked n && decide (s.sessStep n = 4)) = false := by
        simpa [Classical.or_iff_not_imp_left] using h
      simp only [exec_sdpRequest, exec_supportedAppProtocol, hno, Bool.false_and, Bool.false_eq_true, if_false, implies_true, and_self]
    · have hwork := ((laneWork_modemRx s n rx).modPilLane fun p => { p with tls := tls }).answer .sdp .ok
      obtain ⟨htls, hreply⟩ := takeTls_spec (s.modemRx n rx) n tls
      rw [exec_sdpRequest, hl, hstep]
      exact ⟨_, rfl, htls, hreply, hwork.words, hwork.frame⟩
    · simp only [exec_supportedAppProtocol, hproto, decide_false, Bool.and_false, Bool.false_eq_true, if_false]
    · refine ⟨_, supportedAppProtocol_none rx hl hstep hproto hnone, ?_⟩
      rw [← lead_modemRx s n n rx, decided_protoError, pilLane_modemRx]
    · exact ⟨_, supportedAppProtocol_taken rx hl hstep hproto ho, (rd_answer ..).trans (rd_wr_plain _ o.proto.isLt), reply_answer ..⟩

end Sys2Proof.Machine
end

