-- ==== Sys2Proof/Proofs/ChannelLatches.lean ====
section
/-!
PROOFS. The protected channels' records and trip counts (R264): what a channel's record and trip count read after each change of the
switch array, and the end of a latch.
-/

namespace Sys2Proof.Machine

open Sys2Proof

/-! ## The channels' records -/

@[simp] theorem rd_modChan (s : State) (c : Nat) (f : Chan → Chan) (g : Fld) : (s.modChan c f).rd g = s.rd g :=
  rd_eq_of_regs (s := s) (t := s.modChan c f) rfl rfl g

@[simp] theorem chan_modChan_self (s : State) (c : Nat) (f : Chan → Chan) : (s.modChan c f).chan c = f (s.chan c) :=
  lk_put_self _ _ _ _

@[simp] theorem swa_wr (s : State) (f : Fld) (v : Nat) : (s.wr f v).swa = s.swa := by
  rw [wr_parts]
  rfl

@[simp] theorem chan_wr (s : State) (f : Fld) (v c : Nat) : (s.wr f v).chan c = s.chan c := by
  rw [State.chan, swa_wr, State.chan]

@[simp] theorem chan_setChanState (s : State) (c v d : Nat) : (s.setChanState c v).chan d = s.chan d := by
  unfold State.setChanState
  split
  · exact chan_wr ..
  · rfl

@[simp] theorem chan_showRest (s : State) (c d : Nat) : (s.showRest c).chan d = s.chan d := chan_setChanState ..

/-! ## The trip counts (R264) -/

/-- A contactor's and a general channel's count is a field of its status register, a lock's a part of its record. -/
theorem trips_setTrips (s : State) (c : Nat) {v : Nat} (hv : v < 16) : (s.setTrips c v).trips c = v := by
  unfold State.setTrips State.trips
  split_ifs
  · exact rd_wr_plain s hv
  · rw [chan_modChan_self]
  · exact rd_wr_plain s hv

theorem trips_modChan (s : State) (c : Nat) {f : Chan → Chan} (hf : (f (s.chan c)).trips = (s.chan c).trips) :
    (s.modChan c f).trips c = s.trips c := by
  unfold State.trips
  rw [rd_modChan, rd_modChan, chan_modChan_self, hf]

/-- The state shown stands beside the count. -/
@[simp] theorem trips_setChanState (s : State) (c v : Nat) : (s.setChanState c v).trips c = s.trips c := by
  unfold State.trips
  rw [chan_setChanState]
  unfold State.setChanState chanStateFld
  split_ifs
  · exact rd_wr_beside s v
  · rfl
  · exact rd_wr_beside s v

@[simp] theorem trips_showRest (s : State) (c : Nat) : (s.showRest c).trips c = s.trips c := trips_setChanState ..

/-! ## The end of a latch (R264, R261) -/

theorem latched_releaseLatch (s : State) (c : Nat) : ((s.releaseLatch c).chan c).latched = false := by
  rw [State.releaseLatch, chan_showRest, chan_modChan_self]

theorem trips_releaseLatch (s : State) (c : Nat) : (s.releaseLatch c).trips c = 0 := by
  rw [State.releaseLatch, trips_showRest, trips_modChan _ c rfl, trips_setTrips s c (by decide)]

theorem exec_releaseCcLatch (s : State) (n : Lane) : exec (.releaseCcLatch n) s =
    .next (if s.rdBit (F.FLT_SRCi_LSTK_LANE 0x43) n then s else s.releaseLatch n) := rfl

theorem exec_releaseLkLatch (s : State) (n : Lane) : exec (.releaseLkLatch n) s =
    .next (if s.rdBit (F.FLT_SRCi_LSTK_LANE 0x44) n then s else s.releaseLatch (32 + n)) := rfl

theorem exec_releaseGenLatch (s : State) (k : Fin 32) : exec (.releaseGenLatch k) s =
    .next (if s.rd (F.SWA_Gk_CFG_ROLE k) ≠ 3 || s.on (F.FLT_SRCi_STK 0x45) then s else s.releaseLatch (64 + k)) := rfl

/-- Settles O39: each command ends the latch of its own channel where its guard lets it, and does nothing elsewhere. -/
theorem latchReleases : Obligations.LatchReleases := by
  unfold Obligations.LatchReleases
  intro s n k
  simp only [exec_releaseCcLatch, exec_releaseLkLatch, exec_releaseGenLatch]
  refine ⟨fun hsticky => ?ccHeld, fun hclear => ?ccEnds, fun hsticky => ?lkHeld, fun hclear => ?lkEnds, fun hheld => ?genHeld,
    fun hrole hclear => ?genEnds⟩
  case ccHeld | lkHeld => rw [if_pos hsticky]
  case ccEnds | lkEnds =>
    rw [if_neg (by simp [hclear])]
    exact ⟨_, rfl, latched_releaseLatch .., trips_releaseLatch ..⟩
  case genHeld =>
    rw [if_pos (by simpa [State.on, or_comm] using hheld)]
  case genEnds =>
    rw [if_neg (by simp [State.on, hrole, hclear])]
    exact ⟨_, rfl, latched_releaseLatch .., trips_releaseLatch ..⟩

end Sys2Proof.Machine
end

