-- ==== Sys2Proof/Proofs/FaultRecords.lean ====
section
/-!
PROOFS. What an independent raise records (R302 to R304): its source's class, its bit in the summary, its journal entry and its cause,
which nothing that follows in the raise's reaction takes back; and where a raise of R307's four sources is merged.
-/

namespace Sys2Proof.Machine

open Sys2Proof

/-! ## What a change of a record leaves alone -/

@[simp] theorem rd_modFlt (s : State) (f : FltState → FltState) (g : Fld) : (s.modFlt f).rd g = s.rd g :=
  rd_eq_of_regs (s := s) (t := s.modFlt f) rfl rfl g

@[simp] theorem rd_setJournal (s : State) (j : List JEvent) (g : Fld) : (s.setJournal j).rd g = s.rd g :=
  rd_eq_of_regs (s := s) (t := s.setJournal j) rfl rfl g

@[simp] theorem journal_wr (s : State) (f : Fld) (v : Nat) : (s.wr f v).journal = s.journal := by
  rw [wr_parts]
  rfl

/-! ## The units' reactions lie beyond the collector (R119, R198, R280, R283) -/

/-- Work that keeps the collector's records, the journal, and every register of a block below the DMA engine's. -/
def BeyondFaults (s t : State) : Prop :=
  t.flt = s.flt ∧ t.journal = s.journal ∧ ∀ a < blockBase 3, t.word a = s.word a

theorem BeyondFaults.refl (s : State) : BeyondFaults s s := ⟨rfl, rfl, fun _ _ => rfl⟩

theorem BeyondFaults.trans {s t u : State} (h₁ : BeyondFaults s t) (h₂ : BeyondFaults t u) : BeyondFaults s u :=
  ⟨h₂.1.trans h₁.1, h₂.2.1.trans h₁.2.1, fun a ha => (h₂.2.2 a ha).trans (h₁.2.2 a ha)⟩

theorem BeyondFaults.rd_plain {s t : State} (h : BeyondFaults s t) {g : Fld} (haddr : g.addr < blockBase 3)
    (hg : g.plain = true := by rfl) : t.rd g = s.rd g := by
  obtain ⟨hsh, -, hhi⟩ := g.plain_iff.1 hg
  rw [rd_eq_bits_word t hhi hsh, rd_eq_bits_word s hhi hsh, h.2.2 _ haddr]

section
variable {s t : State} (h : BeyondFaults s t)
include h

/-- A change of other records. -/
theorem BeyondFaults.within {u : State} (hregs : u.regs = t.regs) (hflt : u.flt = t.flt) (hjournal : u.journal = t.journal) :
    BeyondFaults s u :=
  h.trans ⟨hflt, hjournal, fun a _ => by rw [State.word, hregs, State.word]⟩

theorem BeyondFaults.wr {f : Fld} (v : Nat) (hf : blockBase 3 ≤ f.addr := by decide) : BeyondFaults s (t.wr f v) :=
  h.trans ⟨flt_wr .., journal_wr .., fun a ha => word_wr_out t f v a fun j _ => ⟨by omega, .inr (by omega)⟩⟩

theorem BeyondFaults.when {b : Bool} {f : State → State} (hf : BeyondFaults t (f t)) : BeyondFaults s (t.when b f) := by
  unfold State.when
  split
  · exact h.trans hf
  · exact h

theorem BeyondFaults.each {ns : List Nat} {f : State → Nat → State} (hf : ∀ t n, BeyondFaults t (f t n)) :
    BeyondFaults s (t.each ns f) :=
  each_induction h fun u hu n _ => hu.trans (hf u n)

end

/-- The registers of an array lie from its first one upward. -/
theorem beyondFaults_addr {b k : Nat} (hb : blockBase 3 ≤ b := by decide) : blockBase 3 ≤ b + k := hb.trans (Nat.le_add_right b k)

theorem beyondFaults_capPend (s : State) (c : CapTrig) : BeyondFaults s (s.capPend c) := by
  unfold State.capPend
  split
  · exact ((BeyondFaults.refl s).wr (f := F.MET_CAP_CTL_PEND) _).within rfl rfl rfl
  · split
    · exact (BeyondFaults.refl s).within rfl rfl rfl
    · split
      · exact .refl s
      · exact ((BeyondFaults.refl s).wr (f := F.MET_CAP_OVR_COUNT) _).within rfl rfl rfl

theorem beyondFaults_capEvent (s : State) (k : Nat) : BeyondFaults s (s.capEvent k) := by
  unfold State.capEvent
  split
  · exact .refl s
  · exact (BeyondFaults.refl s).within rfl rfl rfl
  · exact beyondFaults_capPend s _

theorem beyondFaults_setChanState (s : State) (c v : Nat) : BeyondFaults s (s.setChanState c v) := by
  unfold State.setChanState chanStateFld
  by_cases hcc : c < 32
  · simpa [hcc] using (BeyondFaults.refl s).wr v beyondFaults_addr
  · by_cases hlk : c < 64
    · simpa [hcc, hlk] using BeyondFaults.refl s
    · simpa [hcc, hlk] using (BeyondFaults.refl s).wr v beyondFaults_addr

theorem beyondFaults_chanStop (s : State) (c : Nat) : BeyondFaults s (s.chanStop c) := by
  have hrest : ∀ f : Chan → Chan, BeyondFaults s ((s.modChan c f).showRest c) := fun f =>
    ((BeyondFaults.refl s).within rfl rfl rfl).trans (beyondFaults_setChanState _ _ _)
  unfold State.chanStop
  dsimp only
  split
  · exact (((hrest _).wr _ beyondFaults_addr).wr _ beyondFaults_addr).wr _ beyondFaults_addr
  · exact hrest _

theorem beyondFaults_dropClose (s : State) (n : Nat) : BeyondFaults s (s.dropClose n) := by
  have hclosed : BeyondFaults s (s.modPilLane n fun p => { p with closeReq := false }) := (BeyondFaults.refl s).within rfl rfl rfl
  unfold State.dropClose
  split
  · exact ((hclosed.wr _ beyondFaults_addr).within rfl rfl rfl).trans (beyondFaults_chanStop _ n)
  · exact .refl s

theorem beyondFaults_decideExit (s : State) (n c : Nat) : BeyondFaults s (s.decideExit n c) := by
  unfold State.decideExit
  extract_lets lead decided
  have hdecided : BeyondFaults s decided := (BeyondFaults.refl s).within rfl rfl rfl
  exact hdecided.when (beyondFaults_dropClose decided lead)

theorem beyondFaults_withdrawClose (s : State) (m : LaneSet) : BeyondFaults s (s.withdrawClose m) := by
  unfold State.withdrawClose
  extract_lets spent
  have hspent : BeyondFaults s spent := (BeyondFaults.refl s).within rfl rfl rfl
  exact (hspent.wr _).wr _

theorem beyondFaults_sticky (s : State) {f : Fld} (hf : blockBase 3 ≤ f.addr) : BeyondFaults s (s.sticky f) :=
  ⟨rfl, rfl, fun a ha => word_setWord_ne s f.addr a _ (by omega)⟩

theorem beyondFaults_safeEnter (s : State) {f : Fld} (hf : blockBase 3 ≤ f.addr) : BeyondFaults s (s.safeEnter f) := by
  unfold State.safeEnter
  split
  · exact .refl s
  · extract_lets first so shown consents exited
    have hshown : BeyondFaults s shown := (((BeyondFaults.refl s).wr _ hf).wr _).when (beyondFaults_sticky _ (by decide))
    have hconsents : BeyondFaults s consents := (hshown.trans (beyondFaults_withdrawClose _ _)).wr _
    have hexited : BeyondFaults s exited := hconsents.each fun t n => beyondFaults_decideExit t n 0x10
    exact hexited.within rfl rfl rfl

/-! ## The record of a raise (R303, R304) -/

/-- What a raise shows of itself before it is journalled: the sticky bit, the class, the count, the summary, the lanes' sticky bits. -/
def State.stickRaise (s : State) (src cls : Nat) (scope : Option LaneSet) : State :=
  let s := (s.stickyMask (F.FLT_SRCi_STK src).addr (2 ^ 23)).wr (F.FLT_SRCi_CLASS src) (max cls (s.rd (F.FLT_SRCi_CLASS src)))
  let s := (s.count (F.FLT_SRCi_COUNT src) 1).wrBit (F.FLT_SUMk_STK (src / 32)) (src % 32) true
  match scope with
  | some x => s.wrSet (F.FLT_SRCi_LSTK_LANE src) (s.rdSet (F.FLT_SRCi_LSTK_LANE src) ||| x)
  | none => s

theorem summaryAddr_ne_source {i : Nat} (hi : i < 256) : A.FLT_SUMk (i / 32) ≠ A.FLT_SRCi i := by
  simp only [A.FLT_SUMk, A.FLT_SRCi]
  omega

theorem laneStickyAddr_ne_source {i j : Nat} (hi : i < 256) : A.FLT_SRCi i ≠ A.FLT_SRCi_LSTK j := by
  simp only [A.FLT_SRCi, A.FLT_SRCi_LSTK]
  omega

theorem laneStickyAddr_ne_summary {i j : Nat} (hi : i < 256) : A.FLT_SUMk (i / 32) ≠ A.FLT_SRCi_LSTK j := by
  simp only [A.FLT_SUMk, A.FLT_SRCi_LSTK]
  omega

theorem rd_class_lt (s : State) (i : Nat) : s.rd (F.FLT_SRCi_CLASS i) < 8 := rd_lt s (F.FLT_SRCi_CLASS i)

/-- The class is the larger of the one raised and the one shown (R304). -/
theorem rd_class_stickRaise (s : State) {i cls : Nat} (hi : i < 256) (hcls : cls ≤ 4) (scope : Option LaneSet) :
    (s.stickRaise i cls scope).rd (F.FLT_SRCi_CLASS i) = max cls (s.rd (F.FLT_SRCi_CLASS i)) := by
  have hfits : max cls (s.rd (F.FLT_SRCi_CLASS i)) < 2 ^ 3 := max_lt (by omega) (rd_class_lt s i)
  unfold State.stickRaise
  extract_lets classed summed
  have hclassed : classed.rd (F.FLT_SRCi_CLASS i) = _ := rd_wr_plain _ hfits
  have hsummed : summed.rd (F.FLT_SRCi_CLASS i) = classed.rd (F.FLT_SRCi_CLASS i) :=
    (rd_wr_elsewhere (f := F.FLT_SUMk_STK (i / 32)) _ _ (summaryAddr_ne_source hi).symm).trans
      (rd_wr_beside (f := F.FLT_SRCi_COUNT i) classed _)
  cases scope with
  | none => exact hsummed.trans hclassed
  | some x => exact (rd_wr_elsewhere (f := F.FLT_SRCi_LSTK_LANE i) _ _ (laneStickyAddr_ne_source hi)).trans (hsummed.trans hclassed)

/-- A bit set in a word of 32 bits reads back. -/
theorem rdBit_wrBit_true (s : State) {f : Fld} {i : Nat} (hi : i < 32) (hword : f.hi = 31 ∧ f.lo = 0) (hsh : f.sh = 0) :
    (s.wrBit f i true).rdBit f i = true := by
  obtain ⟨hhi, hlo⟩ := hword
  have hwidth : f.width = 32 := by rw [Fld.width, hhi, hlo]
  have hold : s.rd f < 2 ^ 32 := hwidth ▸ rd_lt s f
  have hset : bits (setBits (s.rd f) i i (b2n true)) i i = 1 := by
    rw [bits_setBits _ _ _ _ le_rfl, Nat.add_sub_cancel_left]
    rfl
  rw [State.rdBit, State.wrBit, rd_wr s f _ ⟨by omega, .inl hsh⟩, hwidth, Nat.mod_eq_of_lt (setBits_lt _ _ _ _ _ le_rfl hi hold),
    bitOf, decide_eq_true_eq]
  simpa only [bits, Nat.add_sub_cancel_left, Nat.pow_one] using hset

/-- The source's bit is set in its summary. -/
theorem rdBit_summary_stickRaise (s : State) {i : Nat} (hi : i < 256) (cls : Nat) (scope : Option LaneSet) :
    (s.stickRaise i cls scope).rdBit (F.FLT_SUMk_STK (i / 32)) (i % 32) = true := by
  unfold State.stickRaise
  extract_lets classed summed
  have hsummed : summed.rdBit (F.FLT_SUMk_STK (i / 32)) (i % 32) = true :=
    rdBit_wrBit_true _ (Nat.mod_lt i (by decide)) ⟨rfl, rfl⟩ rfl
  cases scope with
  | none => exact hsummed
  | some x =>
    have hlaned : ∀ v, (summed.wr (F.FLT_SRCi_LSTK_LANE i) v).rd (F.FLT_SUMk_STK (i / 32)) = summed.rd (F.FLT_SUMk_STK (i / 32)) :=
      fun v => rd_wr_elsewhere summed v (laneStickyAddr_ne_summary hi)
    exact (congrArg (bitOf · (i % 32)) (hlaned _)).trans hsummed

theorem unitWork_stickRaise (s : State) (src cls : Nat) (scope : Option LaneSet) : UnitWork s (s.stickRaise src cls scope) := by
  unfold State.stickRaise
  extract_lets classed summed
  have hclassed : UnitWork s classed := ((UnitWork.refl s).stickyMask _ blockBase_le_add).wr _ blockBase_le_add
  have hsummed : UnitWork s summed := (hclassed.wr _ blockBase_le_add).wr _ blockBase_le_add
  cases scope with
  | none => exact hsummed
  | some x => exact hsummed.wr _ blockBase_le_add

theorem fltJournal_stickRaise (s : State) (src cls : Nat) (scope : Option LaneSet) :
    (s.stickRaise src cls scope).flt = s.flt ∧ (s.stickRaise src cls scope).journal = s.journal := by
  cases scope <;> simp [State.stickRaise, State.wrSet, State.wrBit, State.count, State.wrSat, State.stickyMask, State.setWord]

/-- The raise as shown and journalled (R303). -/
def State.recordRaise (s : State) (src cls : Nat) (scope : Option LaneSet) : State :=
  (s.stickRaise src cls scope).note src cls (scopeLanes scope)

/-! ## What keeps the record -/

/-- Work that keeps what source `i` and the summary show, the journal, and the causes present. -/
structure RecordKept (i : Nat) (s t : State) : Prop where
  cls : t.rd (F.FLT_SRCi_CLASS i) = s.rd (F.FLT_SRCi_CLASS i)
  summary : t.rd (F.FLT_SUMk_STK (i / 32)) = s.rd (F.FLT_SUMk_STK (i / 32))
  journal : t.journal = s.journal
  causes : t.flt.causes = s.flt.causes

theorem RecordKept.refl (i : Nat) (s : State) : RecordKept i s s := ⟨rfl, rfl, rfl, rfl⟩

theorem RecordKept.trans {i : Nat} {s t u : State} (h₁ : RecordKept i s t) (h₂ : RecordKept i t u) : RecordKept i s u :=
  ⟨h₂.cls.trans h₁.cls, h₂.summary.trans h₁.summary, h₂.journal.trans h₁.journal, h₂.causes.trans h₁.causes⟩

/-- The units' reactions keep it. -/
theorem BeyondFaults.recordKept {i : Nat} (hi : i < 256) {s t : State} (h : BeyondFaults s t) : RecordKept i s t where
  cls := h.rd_plain (by simp only [F.FLT_SRCi_CLASS, A.FLT_SRCi, blockBase]; omega)
  summary := h.rd_plain (by simp only [F.FLT_SUMk_STK, A.FLT_SUMk, blockBase]; omega)
  journal := h.2.1
  causes := by rw [h.1]

section
variable {i : Nat} {s t : State} (h : RecordKept i s t)
include h

theorem RecordKept.modFlt (f : FltState → FltState) (hf : (f t.flt).causes = t.flt.causes := by rfl) : RecordKept i s (t.modFlt f) :=
  h.trans ⟨rd_modFlt .., rd_modFlt .., rfl, hf⟩

/-- The collector's registers that stand between the summary and the sources. -/
theorem RecordKept.wr (hi : i < 256) {f : Fld} (v : Nat) (hbetween : A.FLT_SUMk 8 ≤ f.addr ∧ f.addr < A.FLT_SRCi 0 := by decide)
    (hf : f.plain = true := by rfl) : RecordKept i s (t.wr f v) := by
  obtain ⟨hafter, hbefore⟩ := hbetween
  simp only [A.FLT_SUMk, A.FLT_SRCi] at hafter hbefore
  refine h.trans ⟨rd_wr_elsewhere t v ?source hf, rd_wr_elsewhere t v ?summary hf, journal_wr .., by rw [flt_wr]⟩
  case source =>
    simp only [F.FLT_SRCi_CLASS, A.FLT_SRCi]
    omega
  case summary =>
    simp only [F.FLT_SUMk_STK, A.FLT_SUMk]
    omega

theorem RecordKept.wrPerm (hi : i < 256) (b : Bool) : RecordKept i s (t.wrB (F.FLT_SRCi_PERM i) b) :=
  h.trans ⟨rd_wr_beside (f := F.FLT_SRCi_PERM i) t _, rd_wr_elsewhere t _ (summaryAddr_ne_source hi), journal_wr ..,
    by rw [State.wrB, flt_wr]⟩

theorem RecordKept.ite {c : Prop} [Decidable c] {u : State} (hu : RecordKept i s u) : RecordKept i s (if c then t else u) := by
  split
  · exact h
  · exact hu

end

theorem recordKept_retire {i : Nat} (hi : i < 256) (s : State) (m : LaneSet) : RecordKept i s (s.retire m) :=
  ((RecordKept.refl i s).wr hi (f := F.FLT_RETIRED_LANE) _).trans ((beyondFaults_withdrawClose _ _).recordKept hi)

theorem recordKept_recurrence {i : Nat} (hi : i < 256) (s : State) (m : LaneSet) : RecordKept i s (s.recurrence i m) := by
  unfold State.recurrence
  extract_lets now new kept perm
  have hkept : RecordKept i s kept := (RecordKept.refl i s).modFlt _
  exact hkept.ite ((hkept.wrPerm hi true).trans (recordKept_retire hi _ _))

theorem recordKept_pinFault {i : Nat} (hi : i < 256) (s : State) (cls : Nat) : RecordKept i s (s.pinFault cls) := by
  unfold State.pinFault
  split
  · exact ((((RecordKept.refl i s).wr hi (f := F.FLT_PIN_LEVEL) _).wr hi (f := F.FLT_PIN_PULSE) _).wr hi (f := F.FLT_PIN_COUNT) _).modFlt _
  · exact .refl i s

theorem recordKept_markLatest (i : Nat) (s : State) (m : LaneSet) : RecordKept i s (s.markLatest m) :=
  ⟨rd_modFlt .., rd_modFlt .., rfl, rfl⟩

/-- What follows its record in an independent raise keeps the record: recurrence, the pins, the units' reactions (R303, R310, R314). -/
theorem recordKept_raiseNew (s : State) {i : Nat} (hi : i < 256) (cls : Nat) (scope : Option LaneSet) :
    RecordKept i (s.recordRaise i cls scope) (s.raiseNew i cls scope) := by
  unfold State.raiseNew
  extract_lets m classed summed laned noted recorded triggered pinned marked recurred exited
  have hnoted : RecordKept i (s.recordRaise i cls scope) noted := by
    cases scope <;> exact .refl i noted
  have hrecorded : RecordKept i _ recorded := hnoted.modFlt _
  have htriggered : RecordKept i _ triggered := hrecorded.trans
    (((BeyondFaults.refl _).when (beyondFaults_capEvent _ 4)).recordKept hi)
  have hpinned : RecordKept i _ pinned := htriggered.trans (recordKept_pinFault hi _ cls)
  have hmarked : RecordKept i _ marked := hpinned.ite
    ((hpinned.wr hi (f := F.FLT_LANEF_LANE) _).trans (recordKept_markLatest i _ _))
  have hrecurred : RecordKept i _ recurred := (hmarked.trans (recordKept_recurrence hi _ m)).ite hmarked
  have hexited : RecordKept i _ exited := (hrecurred.trans
    (((BeyondFaults.refl _).each fun t n => beyondFaults_decideExit t n 0x11).recordKept hi)).ite hrecurred
  exact (hexited.trans ((beyondFaults_safeEnter _ (by decide)).recordKept hi)).ite hexited

/-! ## An independent raise -/

theorem rd_class_raiseNew (s : State) {i cls : Nat} (hi : i < 256) (hcls : cls ≤ 4) (scope : Option LaneSet) :
    (s.raiseNew i cls scope).rd (F.FLT_SRCi_CLASS i) = max cls (s.rd (F.FLT_SRCi_CLASS i)) :=
  (recordKept_raiseNew s hi cls scope).cls.trans ((rd_setJournal ..).trans (rd_class_stickRaise s hi hcls scope))

theorem rdBit_summary_raiseNew (s : State) {i : Nat} (hi : i < 256) (cls : Nat) (scope : Option LaneSet) :
    (s.raiseNew i cls scope).rdBit (F.FLT_SUMk_STK (i / 32)) (i % 32) = true := by
  rw [← rdBit_summary_stickRaise s hi cls scope, State.rdBit, (recordKept_raiseNew s hi cls scope).summary, State.recordRaise,
    State.note, rd_setJournal, State.rdBit]

theorem journal_raiseNew (s : State) {i : Nat} (hi : i < 256) (cls : Nat) (scope : Option LaneSet) :
    ∃ e, (s.raiseNew i cls scope).journal = e :: s.journal ∧ e.index = i ∧ e.epoch = s.rd F.TCK_EPOCH_EPOCH := by
  have hjournal := (recordKept_raiseNew s hi cls scope).journal
  rw [State.recordRaise, State.note, State.setJournal_journal, (fltJournal_stickRaise s i cls scope).2] at hjournal
  exact ⟨_, hjournal, rfl, (unitWork_stickRaise s i cls scope).rd_eq rfl (by decide)⟩

theorem causes_raiseNew (s : State) {i : Nat} (hi : i < 256) (cls : Nat) (scope : Option LaneSet) :
    (s.raiseNew i cls scope).flt.causes = s.flt.causes := by
  rw [(recordKept_raiseNew s hi cls scope).causes, State.recordRaise, State.note, State.setJournal_flt,
    (fltJournal_stickRaise s i cls scope).1]

/-! ## A cause that begins (R304) -/

theorem flt_causeOn (s : State) (src cls : Nat) (scope : Option LaneSet) : (s.causeOn src cls scope).flt = { s.flt with
    causes := ⟨src, cls, scope⟩ :: s.flt.causes.filter fun c => !(c.src = src && c.scope = scope) } := by
  rw [State.causeOn, State.showCause, State.wrSet, flt_wr, State.wrB, flt_wr]
  rfl

theorem clk_causeOn (s : State) (src cls : Nat) (scope : Option LaneSet) : (s.causeOn src cls scope).clk = s.clk := by
  rw [State.causeOn, State.showCause, State.wrSet, clk_wr, State.wrB, clk_wr]
  rfl

theorem journal_causeOn (s : State) (src cls : Nat) (scope : Option LaneSet) : (s.causeOn src cls scope).journal = s.journal := by
  rw [State.causeOn, State.showCause, State.wrSet, journal_wr, State.wrB, journal_wr]
  rfl

theorem rd_class_causeOn (s : State) {src : Nat} (hsrc : src < 256) (cls : Nat) (scope : Option LaneSet) :
    (s.causeOn src cls scope).rd (F.FLT_SRCi_CLASS src) = s.rd (F.FLT_SRCi_CLASS src) := by
  have haddr : A.FLT_SRCi src ≠ A.FLT_SRCi_LCAU src := by
    simp only [A.FLT_SRCi, A.FLT_SRCi_LCAU]
    omega
  exact (rd_wr_elsewhere _ _ haddr).trans ((rd_wr_beside (f := F.FLT_SRCi_CAUSE src) _ _).trans (rd_modFlt ..))

/-! ## A raise (R302, R307) -/

/-- A raise of one of R307's four sources waits for the end of the frame. -/
theorem raise_mergeable {src : Nat} (h : mergeable src = true) (s : State) (cls : Nat) (scope : Option LaneSet) :
    s.raise src cls scope = (s.causeOn src cls (scope.map s.widen)).modFlt fun f => { f with
      due := f.due ++ [⟨s.clk.frame, src, cls, scope.map s.widen⟩] } := by
  simp only [State.raise, h, if_true, clk_causeOn]

/-- The same raise made again in its frame only shows its cause (R313). -/
theorem raise_again {src : Nat} (h : mergeable src = false) {s : State} {cls : Nat} {scope : Option LaneSet}
    (hnow : s.raisedNow src cls (scope.map s.widen) = true) : s.raise src cls scope = s.causeOn src cls (scope.map s.widen) := by
  simp only [State.raise, h, Bool.false_eq_true, if_false, raisedNow_causeOn, hnow, if_true]

theorem raise_independent {src : Nat} (h : mergeable src = false) {s : State} {cls : Nat} {scope : Option LaneSet}
    (hnow : s.raisedNow src cls (scope.map s.widen) = false) :
    s.raise src cls scope = (s.causeOn src cls (scope.map s.widen)).raiseNew src cls (scope.map s.widen) := by
  simp only [State.raise, h, Bool.false_eq_true, if_false, raisedNow_causeOn, hnow]

/-- A raise makes its cause present, whatever becomes of it (R304). -/
theorem mem_causes_raise (s : State) {src : Nat} (hsrc : src < 256) (cls : Nat) (scope : Option LaneSet) :
    ⟨src, cls, scope.map s.widen⟩ ∈ (s.raise src cls scope).flt.causes := by
  have hcaused : (⟨src, cls, scope.map s.widen⟩ : FltCause) ∈ (s.causeOn src cls (scope.map s.widen)).flt.causes := by
    rw [flt_causeOn]
    exact List.mem_cons_self
  cases hm : mergeable src with
  | true =>
    rw [raise_mergeable hm]
    exact hcaused
  | false =>
    cases hnow : s.raisedNow src cls (scope.map s.widen) with
    | true => rwa [raise_again hm hnow]
    | false => rwa [raise_independent hm hnow, causes_raiseNew _ hsrc]

/-! ## The end of the frame (R307) -/

/-- One step of the search for the earliest raise that takes another in. -/
def earlierOf (r : Option FltRaise) (a : FltRaise) : Option FltRaise := match r with | none => some a | some b => some (earlier a b)

theorem mem_of_foldl_earlierOf {as : List FltRaise} {r : Option FltRaise} {a : FltRaise} (h : as.foldl earlierOf r = some a) :
    r = some a ∨ a ∈ as := by
  induction as generalizing r with
  | nil => exact .inl h
  | cons b as ih =>
    rcases ih h with hb | hin
    · cases r with
      | none => exact .inr (List.mem_cons.2 (.inl (Option.some.inj hb).symm))
      | some c =>
        simp only [earlierOf, earlier] at hb
        split at hb
        · exact .inr (List.mem_cons.2 (.inl (Option.some.inj hb).symm))
        · exact .inl hb
    · exact .inr (List.mem_cons_of_mem b hin)

theorem mergeTarget_eq_foldl (s : State) (src : Nat) (scope : Option LaneSet) :
    mergeTarget s src scope = (s.flt.recent.filter (mayMerge s.clk.frame src scope)).foldl earlierOf none := rfl

/-- What a raise is merged into is a raise of a source that is not one of the four (R307). -/
theorem of_mergeTarget_eq_some {s : State} {src : Nat} {scope : Option LaneSet} {a : FltRaise} (h : mergeTarget s src scope = some a) :
    mergeable src = true ∧ mergeable a.src = false := by
  rw [mergeTarget_eq_foldl] at h
  have hmem := (mem_of_foldl_earlierOf h).resolve_left nofun
  have hmay := (List.mem_filter.1 hmem).2
  simp only [mayMerge, Bool.and_eq_true, Bool.not_eq_true'] at hmay
  obtain ⟨⟨⟨⟨⟨hsrc, -⟩, hother⟩, -⟩, -⟩, -⟩ := hmay
  exact ⟨hsrc, hother⟩

/-- The raise of source `src` is shown as merged into source `into`. -/
def State.showMerged (s : State) (into src : Nat) : State := (s.wrB (F.FLT_SRCi_MERGED into) true).wr (F.FLT_SRCi_MERGEDFROM into) src

theorem rd_raiseJudged_merged {s : State} {r : FltRaise} {a : FltRaise} (h : mergeTarget s r.src r.scope = some a) (g : Fld) :
    (s.raiseJudged r).rd g = (s.showMerged a.src r.src).rd g := by
  simp only [State.raiseJudged, h, rd_modFlt, rd_setJournal, State.showMerged]

theorem raiseJudged_independent {s : State} {r : FltRaise} (h : mergeTarget s r.src r.scope = none)
    (hnow : s.raisedNow r.src r.cls r.scope = false) : s.raiseJudged r = s.raiseNew r.src r.cls r.scope := by
  simp only [State.raiseJudged, h, hnow, Bool.false_eq_true, if_false]

theorem rd_merged_showMerged (s : State) (into src : Nat) : (s.showMerged into src).rd (F.FLT_SRCi_MERGED into) = 1 :=
  (rd_wr_beside (f := F.FLT_SRCi_MERGEDFROM into) _ _).trans (rd_wr_plain (f := F.FLT_SRCi_MERGED into) s (by decide : 1 < 2 ^ 1))

theorem rd_mergedFrom_showMerged (s : State) (into : Nat) {src : Nat} (h : src < 256) :
    (s.showMerged into src).rd (F.FLT_SRCi_MERGEDFROM into) = src := rd_wr_plain _ h

theorem rd_stk_showMerged (s : State) {into src : Nat} (h : into ≠ src) :
    (s.showMerged into src).rd (F.FLT_SRCi_STK src) = s.rd (F.FLT_SRCi_STK src) := by
  have haddr : A.FLT_SRCi src ≠ A.FLT_SRCi into := by
    simp only [A.FLT_SRCi]
    omega
  exact (rd_wr_elsewhere (f := F.FLT_SRCi_MERGEDFROM into) _ _ haddr).trans (rd_wr_elsewhere (f := F.FLT_SRCi_MERGED into) _ _ haddr)

/-- Settles O33: a raise shows its cause and then waits, was made already, or is recorded; and a raise judged at the end of its frame is
recorded or shown as merged. -/
theorem independentRaisesAreRecorded : Obligations.IndependentRaisesAreRecorded := by
  unfold Obligations.IndependentRaisesAreRecorded
  refine ⟨fun s src cls scope hsrc hcls => ⟨mem_causes_raise s hsrc cls scope, fun hm => ?waits, fun hm => raise_again hm, fun hm hnow => ?recorded⟩,
    fun s r hsrc hcls => ⟨fun hnone hnow => ?judged, fun a ha _ => ?merged⟩⟩
  case waits =>
    rw [raise_mergeable hm]
    simp only [State.modFlt, flt_causeOn]
  case recorded =>
    obtain ⟨e, hjournal, hindex, hepoch⟩ := journal_raiseNew (s.causeOn src cls (scope.map s.widen)) hsrc cls (scope.map s.widen)
    rw [journal_causeOn] at hjournal
    rw [(unitWork_causeOn s src cls _).rd_eq rfl (by decide)] at hepoch
    rw [raise_independent hm hnow]
    exact ⟨rd_stk_raiseNew ⟨src, hsrc⟩ _ cls _, (rd_class_raiseNew _ hsrc hcls _).trans (by rw [rd_class_causeOn s hsrc]),
      rdBit_summary_raiseNew _ hsrc cls _, e, _, hjournal, hindex, hepoch, rfl⟩
  case judged =>
    rw [raiseJudged_independent hnone hnow]
    exact ⟨rd_stk_raiseNew ⟨r.src, hsrc⟩ s r.cls r.scope, rd_class_raiseNew s hsrc hcls r.scope⟩
  case merged =>
    obtain ⟨hsource, hother⟩ := of_mergeTarget_eq_some ha
    have hne : a.src ≠ r.src := fun he => by simp [he, hsource] at hother
    simp only [rd_raiseJudged_merged ha]
    exact ⟨hsource, hne, rd_merged_showMerged s a.src r.src, rd_mergedFrom_showMerged s a.src hsrc, rd_stk_showMerged s hne⟩

end Sys2Proof.Machine
end

