-- ==== Sys2Proof/Proofs/FaultClears.lean ====
section
/-!
PROOFS. A clear of a fault source (R312) whose record of merged raises (R308) names a source that does not exist.

What was merged into a source and still has its cause is raised at its clear. Only the four sources of R307 come to be merged; but O34
is stated for every state, with no word said about what is merged, and the word that source 256 would have is the one that holds the
lane sticky bits of source 0.
-/

namespace Sys2Proof.Machine

open Sys2Proof

theorem exec_faultClear (i : Fin 256) (v : Word) (s : State) : exec (.faultClear i v) s = .next (s.faultClear i v) := rfl

/-- The state after reset, with source 0 sticky for the device and its cause gone, and a raise of number 256 merged into it whose cause
is present. -/
def strayMerged : State :=
  (State.reset.wrB (F.FLT_SRCi_STK 0) true).setFlt { merged := [⟨0, 256, 0, none⟩], causes := [⟨256, 0, none⟩] }

/-- The guards of a whole clear of source 0: the current sequence number, the sticky bit, no lane bit, no cause. -/
theorem clearable_strayMerged : bitOf (0x00800000 : Word).toNat 23 = true ∧ seqOf 0x00800000 = strayMerged.rd (F.FLT_SRCi_SEQ 0) ∧
    strayMerged.rd (F.FLT_SRCi_STK 0) = 1 ∧ strayMerged.rdSet (F.FLT_SRCi_LSTK_LANE 0) = 0 ∧
    strayMerged.rd (F.FLT_SRCi_CAUSE 0) = 0 := by decide +kernel

/-- The raise of number 256 sets bits among the lane sticky bits of source 0. -/
theorem lanes_faultClear_strayMerged : (strayMerged.faultClear 0 0x00800000).rdSet (F.FLT_SRCi_LSTK_LANE 0) ≠ 0 := by decide +kernel

/-- Refutes O34: a whole clear of a source without lane bits, into which number 256 was merged, leaves lane bits of it set. -/
theorem not_faultClearsKeepWhatIsPresent : ¬ Obligations.FaultClearsKeepWhatIsPresent := by
  unfold Obligations.FaultClearsKeepWhatIsPresent
  intro h
  obtain ⟨hbit, hseq, hstk, hlanes, hcause⟩ := clearable_strayMerged
  obtain ⟨-, -, hmatch⟩ := h strayMerged 0 0x00800000
  obtain ⟨-, -, hwhole⟩ := hmatch hbit hseq
  have hkept : strayMerged.rdSet (F.FLT_SRCi_LSTK_LANE 0) &&&
      (~~~(strayMerged.rdSet F.FLT_CLRMASK_LANE) ||| strayMerged.rdSet (F.FLT_SRCi_LCAU_LANE 0)) = 0 := by
    rw [hlanes]
    exact BitVec.zero_and
  have hother : ∀ x ∈ strayMerged.flt.merged, x.into = 0 → x.src ≠ 0 := by
    intro x hx _
    rw [List.mem_singleton.1 hx]
    decide
  obtain ⟨t, ht, hcleared, -⟩ := hwhole hkept hstk (fun _ => hcause) (fun hne => absurd hlanes hne) hother
  rw [exec_faultClear] at ht
  obtain rfl : strayMerged.faultClear 0 0x00800000 = t := by injection ht
  exact lanes_faultClear_strayMerged hcleared

end Sys2Proof.Machine
end

