-- ==== Sys2Proof/Proofs/CollectorCommands.lean ====
section
/-!
PROOFS. The fault collector's commands: retirement (R311), the fault pins and the fault input (R314, R315), the heartbeat (R316) and
the position encoders (R318).
-/

namespace Sys2Proof.Machine

open Sys2Proof

/-! ## Lane sets in registers -/

theorem rdSet_wrSet (s : State) {f : Fld} (m : LaneSet) (hf : f.plain = true := by rfl) (hwidth : f.width = 32 := by rfl) :
    (s.wrSet f m).rdSet f = m := by
  have hfits : m.toNat < 2 ^ f.width := m.isLt.trans_eq (congrArg (2 ^ ·) hwidth.symm)
  rw [State.rdSet, State.wrSet, rd_wr_plain s hfits hf, BitVec.ofNat_toNat, BitVec.setWidth_eq]

theorem rdSet_wrSet_elsewhere (s : State) {f g : Fld} (m : LaneSet) (haddr : g.addr ≠ f.addr) (hf : f.plain = true := by rfl)
    (hg : g.plain = true := by rfl) : (s.wrSet f m).rdSet g = s.rdSet g := by
  rw [State.rdSet, State.wrSet, rd_wr_elsewhere s _ haddr hf hg, State.rdSet]

/-! ## Retirement (R311) -/

theorem rdSet_retired_retire (s : State) (m : LaneSet) :
    (s.retire m).rdSet F.FLT_RETIRED_LANE = s.rdSet F.FLT_RETIRED_LANE ||| s.widen m := by
  have hset : (s.wrSet F.FLT_RETIRED_LANE (s.rdSet F.FLT_RETIRED_LANE ||| s.widen m)).rdSet F.FLT_RETIRED_LANE = _ := rdSet_wrSet s _
  rw [← hset, State.rdSet, State.rdSet]
  exact congrArg (BitVec.ofNat 32) ((beyondFaults_withdrawClose _ _).rd_plain (by decide))

/-- The group of lane `n` back in service: neither retired nor retired by a weld. -/
def State.restoreGroup (s : State) (n : Nat) : State :=
  (s.wrSet F.FLT_RETIRED_LANE (s.rdSet F.FLT_RETIRED_LANE &&& ~~~(s.groupSet n))).wrSet (F.SAF_ACON_LANE 5)
    (s.rdSet (F.SAF_ACON_LANE 5) &&& ~~~(s.groupSet n))

theorem rdSet_restoreGroup (s : State) (n : Nat) :
    (s.restoreGroup n).rdSet F.FLT_RETIRED_LANE = s.rdSet F.FLT_RETIRED_LANE &&& ~~~(s.groupSet n) ∧
      (s.restoreGroup n).rdSet (F.SAF_ACON_LANE 5) = s.rdSet (F.SAF_ACON_LANE 5) &&& ~~~(s.groupSet n) :=
  ⟨(rdSet_wrSet_elsewhere (f := F.SAF_ACON_LANE 5) _ _ (by decide)).trans (rdSet_wrSet s _), rdSet_wrSet _ _⟩

theorem exec_laneRestore (s : State) : exec .laneRestore s = .next
    (if restoreDenied s (s.rd F.FLT_RETCMD_LANE) then s.sticky F.FLT_RETCMD_DENIED else s.restoreGroup (s.rd F.FLT_RETCMD_LANE)) := rfl

/-- Settles O35: RETIRE is the widened set added to the retired lanes, RESTORE the denial or the group taken out. -/
theorem retirementCommands : Obligations.RetirementCommands := by
  unfold Obligations.RetirementCommands
  intro s
  rw [exec_laneRestore]
  refine ⟨⟨_, rfl, rdSet_retired_retire s _⟩, fun hdenied => ?_, fun hallowed => ?_⟩
  · rw [if_pos hdenied]
  · rw [if_neg (Bool.eq_false_iff.1 hallowed)]
    exact ⟨_, rfl, rdSet_restoreGroup s _⟩

/-! ## The fault input (R315) -/

theorem exec_faultInputLevel_off {s : State} (h : s.rd F.FLT_CFG_FIEN = 0) (p m : Bool) : exec (.faultInputLevel p m) s = .next s := by
  change execFaultInputLevel p m s = _
  simp [execFaultInputLevel, State.on, h]

theorem exec_faultInputLevel_on {s : State} (h : s.rd F.FLT_CFG_FIEN ≠ 0) (p m : Bool) : exec (.faultInputLevel p m) s = .next
    (if p = m then ((s.wr F.FLT_PIN_FLTI 2).causeOff 0x0B none).when (!s.causeIs 0x0C) fun s => s.raiseDev 0x0C 3
      else if m then ((s.wr F.FLT_PIN_FLTI 1).causeOff 0x0C none).when (!s.causeIs 0x0B) fun s => s.raiseDev 0x0B (s.rd F.FLT_CFG_FICLS)
      else ((s.wr F.FLT_PIN_FLTI 0).causeOff 0x0B none).causeOff 0x0C none) := by
  change execFaultInputLevel p m s = _
  simp only [execFaultInputLevel, State.on, h, ne_eq, not_false_eq_true, decide_true, if_true]

/-- What is done unless `b` holds. -/
theorem when_not (s : State) (b : Bool) (f : State → State) : (s.when (!b) f) = if b then s else f s := by
  cases b <;> rfl

/-! ## The position encoders (R318) -/

/-- The change of phase, in quarter turns, that new levels of encoder `k`'s lines make. -/
def State.encTurn (s : State) (k : Nat) (a b : Bool) : Nat := (encPhase a b + 4 - encPhase (s.enc k).a (s.enc k).b) % 4

/-- The new levels of encoder `k`'s lines. -/
def State.encLines (s : State) (k : Nat) (a b : Bool) : State := s.modEnc k fun e => { e with a := a, b := b }

@[simp] theorem enc_modEnc_self (s : State) (k : Nat) (f : EncState → EncState) : (s.modEnc k f).enc k = f (s.enc k) := lk_put_self _ _ _ _

theorem frame_setFlt (s : State) (v : FltState) : Frame [.flt] s (s.setFlt v) := by
  intro p hp
  cases p
  case flt => simp at hp
  all_goals rfl

theorem frame_encLines (s : State) (k : Nat) (a b : Bool) : Frame [.flt] s (s.encLines k a b) := frame_setFlt s _

theorem exec_encoderEdge_off {s : State} {k : Fin 8} (h : s.rd (F.FLT_QENk_CTL_EN k) = 0) (a b : Bool) :
    exec (.encoderEdge k a b) s = .next s := by
  change execEncoderEdge k a b s = _
  simp [execEncoderEdge, State.on, h]

/-- The count of encoder `k` after a legal transition. -/
def State.encCount (s : State) (k : Nat) (up : Bool) : Word := if up then s.word (A.FLT_QENk_CNT k) + 1 else s.word (A.FLT_QENk_CNT k) - 1

theorem exec_encoderEdge_on {s : State} {k : Fin 8} (h : s.rd (F.FLT_QENk_CTL_EN k) ≠ 0) (a b : Bool) :
    exec (.encoderEdge k a b) s = .next
      (if s.encTurn k a b = 0 then s.encLines k a b
        else if s.encTurn k a b = 2 then (s.encLines k a b).encIllegal k
        else (s.encLines k a b).setWord (A.FLT_QENk_CNT k)
          (s.encCount k (xor (decide (s.encTurn k a b = 1)) (decide (s.rd (F.FLT_QENk_CTL_DIR k) ≠ 0))))) := by
  have hon : s.on (F.FLT_QENk_CTL_EN k) = true := decide_eq_true h
  have hdir : (s.encLines k a b).on (F.FLT_QENk_CTL_DIR k) = decide (s.rd (F.FLT_QENk_CTL_DIR k) ≠ 0) := by
    rw [State.on, State.encLines, State.modEnc, rd_modFlt]
  rw [← hdir]
  change execEncoderEdge k a b s = _
  simp only [execEncoderEdge, hon, if_true]
  rfl

/-- A legal transition moves the count and nothing else but the lines. -/
theorem encStep_spec (s : State) (k : Nat) (a b : Bool) (w : Word) : let t := (s.encLines k a b).setWord (A.FLT_QENk_CNT k) w
    t.word (A.FLT_QENk_CNT k) = w ∧ (t.enc k).a = a ∧ (t.enc k).b = b ∧ WordsBut [A.FLT_QENk_CNT k] s t ∧ Frame [.regs, .flt] s t := by
  obtain ⟨hframe, hwords⟩ := regsBut_setWord (s.encLines k a b) (A.FLT_QENk_CNT k) w
  have henc : ((s.encLines k a b).setWord (A.FLT_QENk_CNT k) w).enc k = { s.enc k with a := a, b := b } :=
    enc_modEnc_self s k fun e => { e with a := a, b := b }
  refine ⟨word_setWord_self .., ?_, ?_, hwords, ((frame_encLines s k a b).mono (by decide)).trans (hframe.mono (by decide))⟩
  · rw [henc]
  · rw [henc]

/-- Encoder `k`'s registers at its home: the count loaded, the position reliable. -/
def State.showHome (s : State) (k : Nat) : State :=
  (s.wr (F.FLT_QENk_CNT_COUNT k) (s.rd (F.FLT_QENk_HOME_VALUE k))).wrB (F.FLT_QENk_CTL_UNREL k) false

theorem rd_causeOffDev (s : State) (src : Nat) (g : Fld) : (s.causeOffDev src).rd g = s.rd g :=
  rd_eq_of_regs (s := s) (t := s.causeOffDev src) rfl rfl g

/-- Every field reads, and every encoder's record stands, in `t` as in `s`. -/
def EncodersKept (s t : State) : Prop := (∀ g, t.rd g = s.rd g) ∧ t.flt.enc = s.flt.enc

/-- What a home does beyond its registers and its encoder's record is to end a cause. -/
theorem encHome_kept (s : State) (k : Nat) :
    EncodersKept ((s.showHome k).modEnc k fun e => { e with illegal := [], raised := none }) (s.encHome k) := by
  unfold State.encHome
  extract_lets shown was homed
  cases was with
  | none => exact ⟨fun _ => rfl, rfl⟩
  | some scope =>
    dsimp only
    split
    · exact ⟨fun _ => rfl, rfl⟩
    · cases scope with
      | none => exact ⟨rd_causeOffDev homed 0x0D, rfl⟩
      | some m => exact ⟨rd_causeOff homed 0x0D (some m), rfl⟩

theorem rd_showHome (s : State) (k : Nat) : (s.showHome k).rd (F.FLT_QENk_CNT_COUNT k) = s.rd (F.FLT_QENk_HOME_VALUE k) ∧
    (s.showHome k).rd (F.FLT_QENk_CTL_UNREL k) = 0 := by
  have haddr : A.FLT_QENk_CNT k ≠ A.FLT_QENk_CTL k := by
    simp only [A.FLT_QENk_CNT, A.FLT_QENk_CTL]
    omega
  exact ⟨(rd_wr_elsewhere (f := F.FLT_QENk_CTL_UNREL k) _ _ haddr).trans
      (rd_wr_plain (f := F.FLT_QENk_CNT_COUNT k) s (rd_lt s (F.FLT_QENk_HOME_VALUE k))),
    rd_wr_plain (f := F.FLT_QENk_CTL_UNREL k) _ (by decide : 0 < 2 ^ 1)⟩

theorem encHome_spec (s : State) (k : Nat) : (s.encHome k).rd (F.FLT_QENk_CNT_COUNT k) = s.rd (F.FLT_QENk_HOME_VALUE k) ∧
    (s.encHome k).rd (F.FLT_QENk_CTL_UNREL k) = 0 ∧ ((s.encHome k).enc k).illegal = [] := by
  obtain ⟨hrd, henc⟩ := encHome_kept s k
  obtain ⟨hcount, hunrel⟩ := rd_showHome s k
  have hhomed : (s.encHome k).enc k = { (s.showHome k).enc k with illegal := [], raised := none } := by
    rw [State.enc, henc]
    exact enc_modEnc_self (s.showHome k) k _
  rw [hrd, hrd, hhomed]
  exact ⟨(rd_modFlt ..).trans hcount, (rd_modFlt ..).trans hunrel, rfl⟩

/-- Settles O36: the fault input by its levels, an encoder by the turn its lines make. -/
theorem faultPinsInputsAndEncoders : Obligations.FaultPinsInputsAndEncoders := by
  unfold Obligations.FaultPinsInputsAndEncoders
  refine ⟨fun s p m => ⟨rfl, fun h => exec_faultInputLevel_off h p m, fun h hpm => ?equal, fun h hp hm => ⟨_, ?fault, rfl⟩,
    fun h hp hm => ?normal⟩, fun s k a b => ⟨fun h => exec_encoderEdge_off h a b, fun h hd => ?legal, fun h hd => ?still,
    fun h hd => ?illegal, _, rfl, encHome_spec s k⟩⟩
  case equal =>
    rw [exec_faultInputLevel_on h, if_pos hpm, when_not]
  case fault =>
    subst hp hm
    rw [exec_faultInputLevel_on h, if_neg (by decide), if_pos rfl, when_not]
  case normal =>
    subst hp hm
    rw [exec_faultInputLevel_on h, if_neg (by decide), if_neg (by decide)]
  case legal =>
    change s.encTurn k a b = 1 ∨ s.encTurn k a b = 3 at hd
    rw [exec_encoderEdge_on h, if_neg (by omega), if_neg (by omega)]
    exact ⟨_, rfl, encStep_spec s k a b _⟩
  case still =>
    change s.encTurn k a b = 0 at hd
    rw [exec_encoderEdge_on h, if_pos hd]
    exact ⟨_, rfl, frame_encLines s k a b⟩
  case illegal =>
    change s.encTurn k a b = 2 at hd
    rw [exec_encoderEdge_on h, if_neg (by omega), if_pos hd]
    rfl

end Sys2Proof.Machine
end

