-- ==== Sys2Proof/Proofs/Heartbeat.lean ====
section
/-!
PROOFS. The heartbeat of the service cluster (R316): the keys, the probe and its timeout, the reset.
-/

namespace Sys2Proof.Machine

open Sys2Proof

/-! ## The end of a device's cause (R304) -/

/-- A cause that ends for the device ends for every lane. -/
theorem not_mem_causes_causeOff (s : State) {src : Nat} {c : FltCause} (h : c ∈ (s.causeOff src none).flt.causes) : c.src ≠ src := by
  obtain ⟨d, -, hcut⟩ := List.mem_filterMap.1 h
  split at hcut
  case isTrue hother =>
    obtain rfl := Option.some.inj hcut
    exact hother
  case isFalse => cases hscope : d.scope <;> simp [hscope] at hcut

/-! ## Keys -/

/-- Is a probe out whose 10 ms have not passed? -/
def State.probeOpen (s : State) : Bool := match s.flt.wdProbe with | some t => decide (s.clk.frame ≤ t + 10) | none => false

theorem probeOpen_iff (s : State) : s.probeOpen = true ↔ ∃ f, s.flt.wdProbe = some f ∧ s.clk.frame ≤ f + 10 := by
  cases h : s.flt.wdProbe <;> simp [State.probeOpen, h]

/-- The key in turn is taken. -/
def State.takeKey (s : State) : State :=
  (s.modFlt fun f => { f with wdFirst := !f.wdFirst, wdLast := s.clk.frame, wdWedged := none }).causeOff 0x08 none

/-- A probe is answered: the alternation begins anew. -/
def State.takeAnswer (s : State) : State :=
  (s.modFlt fun f => { f with wdProbe := none, wdFirst := true, wdLast := s.clk.frame }).raiseOnce 0x08 1 none

theorem exec_watchdogKey (s : State) (k : BitVec 16) : exec (.watchdogKey k) s = .next
    (if k.toNat = 0x7E81 && s.probeOpen then s.takeAnswer
      else if k.toNat = nextKey s then s.takeKey else s.count F.FLT_WDOG_BADKEY 1) := rfl

theorem nextKey_ne_answer (s : State) : nextKey s ≠ 0x7E81 := by
  unfold nextKey
  split <;> decide

theorem watchdogKey_inTurn {s : State} {k : BitVec 16} (h : k.toNat = nextKey s) : exec (.watchdogKey k) s = .next s.takeKey := by
  have hanswer : k.toNat ≠ 0x7E81 := h ▸ nextKey_ne_answer s
  rw [exec_watchdogKey, if_neg (by simp [hanswer]), if_pos h]

theorem watchdogKey_other {s : State} {k : BitVec 16} (hanswer : ¬(k.toNat = 0x7E81 ∧ s.probeOpen = true)) (hturn : k.toNat ≠ nextKey s) :
    exec (.watchdogKey k) s = .next (s.count F.FLT_WDOG_BADKEY 1) := by
  rw [exec_watchdogKey, if_neg (by simpa using hanswer), if_neg hturn]

/-! ## The probe -/

/-- Is a probe due: an image runs, none is out, the cluster is not wedged, and no good key came for WDT ms? -/
def State.probeDue (s : State) : Bool :=
  4 ≤ s.stage && s.flt.wdProbe.isNone && s.flt.wdWedged.isNone && s.flt.wdLast + s.rd F.FLT_WDCFG_WDT ≤ s.clk.frame

theorem exec_watchdogProbe (s : State) : exec .watchdogProbe s = .next
    (if s.probeDue then s.modFlt fun f => { f with wdProbe := some s.clk.frame, irq := f.irq + 1 } else s) := rfl

theorem probeDue_iff (s : State) : s.probeDue = true ↔ 4 ≤ s.stage ∧ s.flt.wdProbe = none ∧ s.flt.wdWedged = none ∧
    s.flt.wdLast + s.rd F.FLT_WDCFG_WDT ≤ s.clk.frame := by
  simp [State.probeDue, and_assoc]

theorem exec_watchdogProbeTimeout (s : State) : exec .watchdogProbeTimeout s = .next (match s.flt.wdProbe with
    | some f => if f + 10 ≤ s.clk.frame then
        (s.modFlt fun x => { x with wdProbe := none, wdWedged := some s.clk.frame }).raiseDev 0x08 3 else s
    | none => s) := rfl

/-! ## The reset -/

/-- The reset of a wedged cluster: a final save, the count, and a warm start, or in a trial a rollback. -/
def State.wedgedReset (s : State) : State :=
  let u := ((s.saveStart true).saveEnd).count F.FLT_WDOG_RESETS 1
  if u.upd.trial then u.rollback else u.warmStart

theorem exec_watchdogReset (s : State) : exec .watchdogReset s = .next (match s.flt.wdWedged with
    | some f => if s.rd F.FLT_WDCFG_WRST ≠ 0 && f + 1000 * s.rd F.FLT_WDCFG_WRST ≤ s.clk.frame then s.wedgedReset else s
    | none => s) := rfl

/-- Settles O37: each command by the condition it is guarded with. -/
theorem heartbeatOfTheCluster : Obligations.HeartbeatOfTheCluster := by
  unfold Obligations.HeartbeatOfTheCluster
  intro s
  dsimp only
  rw [← probeOpen_iff s, exec_watchdogProbe, exec_watchdogProbeTimeout, exec_watchdogReset]
  refine ⟨fun k hk => ?inTurn, fun hopen => ?answer, fun k hanswer hk => ?badKey, fun hstage hprobe hwedged hlate => ?probe,
    fun hnot => ?noProbe, fun f hf hdue => ?timeout, fun f hf hearly => ?early, fun hnone => ?unprobed,
    fun f hf hw hdue => ?reset, fun f hf hearly => ?tooSoon, fun hnone => ?unwedged⟩
  case inTurn =>
    exact ⟨_, watchdogKey_inTurn hk, rfl, rfl, rfl, rfl, fun c hc => not_mem_causes_causeOff _ hc⟩
  case answer =>
    rw [exec_watchdogKey, if_pos (by simpa using hopen)]
    rfl
  case badKey =>
    exact ⟨_, watchdogKey_other hanswer hk, rd_count_plain s 1, regsBut_wr_plain s _⟩
  case probe =>
    rw [if_pos ((probeDue_iff s).2 ⟨hstage, hprobe, hwedged, hlate⟩)]
    rfl
  case noProbe =>
    refine congrArg _ (if_neg fun hdue => ?_)
    obtain ⟨hstage, hprobe, hwedged, hlate⟩ := (probeDue_iff s).1 hdue
    rcases hnot with h | h | h | h
    · omega
    · exact h hprobe
    · exact h hwedged
    · omega
  case timeout =>
    rw [hf]
    exact congrArg _ (if_pos hdue)
  case early =>
    rw [hf]
    exact congrArg _ (if_neg (by omega))
  case unprobed => rw [hnone]
  case reset =>
    rw [hf]
    exact congrArg _ (if_pos (by simp [hw, hdue]))
  case tooSoon =>
    rw [hf]
    exact congrArg _ (if_neg (by simp [hearly]))
  case unwedged =>
    rcases hnone with h | h
    · rw [h]
    · cases hw : s.flt.wdWedged with
      | none => rfl
      | some f => exact congrArg _ (if_neg (by simp [h]))

end Sys2Proof.Machine
end

