-- ==== Sys2Proof/Proofs/Reach.lean ====
section
/-!
PROOFS. What a command can reach: `Acts ps s t` says that `t` differs from `s` at most in the parts `ps` and that the stored
lists of `t` are in their canonical form where those of `s` are. It is proved once for each operation of the model, in the
order of the model's files; the term of a lemma follows the operation's own text, and `Within` compares the parts. Here:
the two notions, the control structures, and the operations of `Ops`.
-/

namespace Sys2Proof.Machine

open Sys2Proof

-- One after the other: in parallel each of the many short proofs would hold a thread of its own.
set_option Elab.async false

/-- Every part of the first list is in the second. -/
abbrev Within (qs ps : List Part) : Prop := qs.all ps.contains = true

/-- The parts that raising a fault source acts on. -/
abbrev raising : List Part := [.regs, .flt, .journal, .met, .pil, .swa, .saf]

/-- The parts that a start of the core die acts on: all but the model's own two. -/
abbrev starting : List Part :=
  raising ++ [.gold, .bus, .clk, .boot, .mem, .bil, .thm, .pins, .efm, .key, .alc, .lnk, .upd, .sbu, .dma, .nfc, .dpy, .clu]

theorem Within.mem {qs ps : List Part} (h : Within qs ps) {p : Part} (hp : p ∈ qs) : p ∈ ps := by
  simp only [Within, List.all_eq_true, List.contains_iff_mem] at h
  exact h p hp

theorem Within.trans {ps qs rs : List Part} (hpq : Within ps qs) (hqr : Within qs rs) : Within ps rs := by
  simp only [Within, List.all_eq_true, List.contains_iff_mem] at hpq hqr ⊢
  exact fun p hp => hqr p (hpq p hp)

/-- From `s`, `t` is reached by acting on the parts `ps` only, and in keeping with the canonical form. -/
def Acts (ps : List Part) (s t : State) : Prop := Frame ps s t ∧ (s.Canonical → t.Canonical)

theorem Acts.refl (ps : List Part) (s : State) : Acts ps s s := ⟨Frame.refl ps s, id⟩

/-- `s` with one part as it is in `u`. -/
def State.withPart (s u : State) (p : Part) : State where
  regs := if p = .regs then u.regs else s.regs
  gold := if p = .gold then u.gold else s.gold
  bus := if p = .bus then u.bus else s.bus
  clk := if p = .clk then u.clk else s.clk
  boot := if p = .boot then u.boot else s.boot
  flt := if p = .flt then u.flt else s.flt
  journal := if p = .journal then u.journal else s.journal
  mem := if p = .mem then u.mem else s.mem
  met := if p = .met then u.met else s.met
  bil := if p = .bil then u.bil else s.bil
  thm := if p = .thm then u.thm else s.thm
  pil := if p = .pil then u.pil else s.pil
  swa := if p = .swa then u.swa else s.swa
  pins := if p = .pins then u.pins else s.pins
  saf := if p = .saf then u.saf else s.saf
  efm := if p = .efm then u.efm else s.efm
  key := if p = .key then u.key else s.key
  alc := if p = .alc then u.alc else s.alc
  lnk := if p = .lnk then u.lnk else s.lnk
  upd := if p = .upd then u.upd else s.upd
  sbu := if p = .sbu then u.sbu else s.sbu
  dma := if p = .dma then u.dma else s.dma
  nfc := if p = .nfc then u.nfc else s.nfc
  dpy := if p = .dpy then u.dpy else s.dpy
  clu := if p = .clu then u.clu else s.clu
  freeCtr := if p = .freeCtr then u.freeCtr else s.freeCtr
  pending := if p = .pending then u.pending else s.pending

theorem frame_withPart (s u : State) (p : Part) : Frame [p] s (s.withPart u p) := by
  intro q hq
  rw [List.mem_singleton] at hq
  cases q
  all_goals exact if_neg (Ne.symm hq)

/-- The stored lists stay, unless one of them is the part replaced. -/
theorem canonical_withPart {s u : State} {p : Part} (hc : s.Canonical) (hp : p ∉ [Part.regs, .gold, .mem]) :
    (s.withPart u p).Canonical := by
  have hkept (q : Part) (hq : q ∈ [Part.regs, .gold, .mem]) : SamePart s (s.withPart u p) q :=
    frame_withPart s u p q (List.mem_singleton.not.2 fun he => hp (he ▸ hq))
  have hregs : (s.withPart u p).regs = s.regs := hkept .regs (by decide)
  have hgold : (s.withPart u p).gold = s.gold := hkept .gold (by decide)
  have hmem : (s.withPart u p).mem = s.mem := hkept .mem (by decide)
  rw [State.Canonical, hregs, hgold, hmem]
  exact hc

section
variable {ps : List Part} {s t : State} (h : Acts ps s t)
include h

/-- One more change, of the parts `qs`. -/
theorem Acts.change {qs : List Part} {u : State} (hq : Within qs ps) (hf : Frame qs t u) (hc : t.Canonical → u.Canonical) :
    Acts ps s u :=
  ⟨h.1.trans (hf.mono fun _ hp => hq.mem hp), hc ∘ h.2⟩

/-- An operation that acts on `qs` wherever it starts acts on the wider `ps` too. -/
theorem Acts.via {qs : List Part} {u : State} (hq : Within qs ps) (hu : Acts qs t t → Acts qs t u) : Acts ps s u :=
  h.change hq (hu (.refl qs t)).1 (hu (.refl qs t)).2

/-- A state used more than once. -/
theorem Acts.next {u : State} (k : Acts ps s t → Acts ps s u) : Acts ps s u := k h

/-! ## Control structures -/

theorem Acts.ite {u : State} {c : Prop} {d : Decidable c} (hu : Acts ps s u) : Acts ps s (@ite _ c d t u) := by
  split
  · exact h
  · exact hu

theorem Acts.when {b : Bool} {f : State → State} (hf : ∀ u, Acts ps s u → Acts ps s (f u)) : Acts ps s (t.when b f) := by
  unfold State.when
  split
  · exact hf t h
  · exact h

/-- A fold whose accumulator holds a state. -/
theorem Acts.foldOver {σ β : Type} {p : σ → State} {r : σ} {xs : List β} {f : σ → β → σ} (hr : p r = t)
    (hf : ∀ r x, x ∈ xs → Acts ps s (p r) → Acts ps s (p (f r x))) : Acts ps s (p (xs.foldl f r)) := by
  subst hr
  induction xs generalizing r with
  | nil => exact h
  | cons x xs ih =>
    exact ih (fun r y hy => hf r y (.tail _ hy)) (hf r x (.head _) h)

theorem Acts.foldl {β : Type} {xs : List β} {f : State → β → State} (hf : ∀ u x, Acts ps s u → Acts ps s (f u x)) :
    Acts ps s (xs.foldl f t) :=
  h.foldOver (p := id) rfl fun u x _ => hf u x

theorem Acts.each {ns : List Nat} {f : State → Nat → State} (hf : ∀ u n, Acts ps s u → Acts ps s (f u n)) :
    Acts ps s (t.each ns f) :=
  h.foldl hf

/-! ## The parts without stored lists -/

/-- An operation that replaces one part, which holds no stored list. -/
theorem Acts.part (p : Part) {u : State} (hp : Within [p] ps) (hu : t.withPart u p = u := by rfl)
    (hstored : p ∉ [Part.regs, .gold, .mem] := by decide) : Acts ps s u :=
  h.change hp (hu ▸ frame_withPart t u p) fun hc => hu ▸ canonical_withPart hc hstored

theorem Acts.setBus {v : BusState} (hp : Within [.bus] ps := by rfl) : Acts ps s (t.setBus v) := h.part .bus hp

theorem Acts.setClk {v : ClkState} (hp : Within [.clk] ps := by rfl) : Acts ps s (t.setClk v) := h.part .clk hp

theorem Acts.setBoot {v : BootState} (hp : Within [.boot] ps := by rfl) : Acts ps s (t.setBoot v) := h.part .boot hp

theorem Acts.setFlt {v : FltState} (hp : Within [.flt] ps := by rfl) : Acts ps s (t.setFlt v) := h.part .flt hp

theorem Acts.setJournal {v : List JEvent} (hp : Within [.journal] ps := by rfl) : Acts ps s (t.setJournal v) := h.part .journal hp

theorem Acts.setMet {v : MetState} (hp : Within [.met] ps := by rfl) : Acts ps s (t.setMet v) := h.part .met hp

theorem Acts.setBil {v : BilState} (hp : Within [.bil] ps := by rfl) : Acts ps s (t.setBil v) := h.part .bil hp

theorem Acts.setThm {v : ThmState} (hp : Within [.thm] ps := by rfl) : Acts ps s (t.setThm v) := h.part .thm hp

theorem Acts.setPil {v : PilState} (hp : Within [.pil] ps := by rfl) : Acts ps s (t.setPil v) := h.part .pil hp

theorem Acts.setSwa {v : SwaState} (hp : Within [.swa] ps := by rfl) : Acts ps s (t.setSwa v) := h.part .swa hp

theorem Acts.setPins {v : PinState} (hp : Within [.pins] ps := by rfl) : Acts ps s (t.setPins v) := h.part .pins hp

theorem Acts.setSaf {v : SafState} (hp : Within [.saf] ps := by rfl) : Acts ps s (t.setSaf v) := h.part .saf hp

theorem Acts.setEfm {v : EfmState} (hp : Within [.efm] ps := by rfl) : Acts ps s (t.setEfm v) := h.part .efm hp

theorem Acts.setKey {v : KeyState} (hp : Within [.key] ps := by rfl) : Acts ps s (t.setKey v) := h.part .key hp

theorem Acts.setAlc {v : AlcState} (hp : Within [.alc] ps := by rfl) : Acts ps s (t.setAlc v) := h.part .alc hp

theorem Acts.setLnk {v : LnkState} (hp : Within [.lnk] ps := by rfl) : Acts ps s (t.setLnk v) := h.part .lnk hp

theorem Acts.setUpd {v : UpdState} (hp : Within [.upd] ps := by rfl) : Acts ps s (t.setUpd v) := h.part .upd hp

theorem Acts.setSbu {v : SbuState} (hp : Within [.sbu] ps := by rfl) : Acts ps s (t.setSbu v) := h.part .sbu hp

theorem Acts.setDma {v : List (Nat × DmaChan)} (hp : Within [.dma] ps := by rfl) : Acts ps s (t.setDma v) := h.part .dma hp

theorem Acts.setNfc {v : NfcState} (hp : Within [.nfc] ps := by rfl) : Acts ps s (t.setNfc v) := h.part .nfc hp

theorem Acts.setDpy {v : DpyState} (hp : Within [.dpy] ps := by rfl) : Acts ps s (t.setDpy v) := h.part .dpy hp

theorem Acts.setClu {v : CluState} (hp : Within [.clu] ps := by rfl) : Acts ps s (t.setClu v) := h.part .clu hp

theorem Acts.setFreeCtr {v : Nat} (hp : Within [.freeCtr] ps := by rfl) : Acts ps s (t.setFreeCtr v) := h.part .freeCtr hp

theorem Acts.draw (hp : Within [.freeCtr] ps := by rfl) : Acts ps s t.draw.2 := h.setFreeCtr hp

/-! ## The stored lists -/

theorem Acts.setRegs {r : RegFile} (hr : wfFrom resetWord none t.regs = true → wfFrom resetWord none r = true)
    (hp : Within [.regs] ps := by rfl) : Acts ps s (t.setRegs r) :=
  h.change hp (frame_setRegs t r) fun ⟨hregs, hgold, hmem⟩ => ⟨hr hregs, hgold, hmem⟩

theorem Acts.setGold {r : RegFile} (hr : wfFrom resetWord none t.gold = true → wfFrom resetWord none r = true)
    (hp : Within [.gold] ps := by rfl) : Acts ps s (t.setGold r) :=
  h.change hp (frame_withPart t (t.setGold r) .gold)
    fun ⟨hregs, hgold, hmem⟩ => ⟨hregs, hr hgold, hmem⟩

theorem Acts.setByte {a : Nat} {b : Byte} (hp : Within [.mem] ps := by rfl) : Acts ps s (t.setByte a b) :=
  h.change hp
    (by
      unfold State.setByte
      split
      · exact frame_withPart t (t.setMem _) .mem
      · exact Frame.refl _ t)
    fun ⟨hregs, hgold, hmem⟩ => by
      have hwf := setByte_wf t a b hmem
      revert hwf
      unfold State.setByte
      split
      · exact fun hwf => ⟨hregs, hgold, hwf⟩
      · exact fun hwf => ⟨hregs, hgold, hwf⟩

theorem Acts.memWrite {a : Nat} {bs : List Byte} (hp : Within [.mem] ps := by rfl) : Acts ps s (t.memWrite a bs) := by
  induction bs generalizing t a with
  | nil => exact h
  | cons b bs ih => exact ih (h.setByte hp)

/-! ## Registers -/

theorem Acts.setWord {a : Nat} {v : Word} (hp : Within [.regs] ps := by rfl) : Acts ps s (t.setWord a v) :=
  h.setRegs (wfFrom_put_none _ _ _ _) hp

theorem Acts.putWord {a sh : Nat} {v : Word} (hp : Within [.regs, .gold] ps := by rfl) : Acts ps s (t.putWord a sh v) :=
  h.via hp fun h => h.setWord.ite (h.setWord.setWord.setGold (wfFrom_put_none _ _ _ _))

theorem Acts.putWords {a sh k v : Nat} (hp : Within [.regs, .gold] ps := by rfl) : Acts ps s (t.putWords a sh k v) := by
  induction k generalizing t a v with
  | zero => exact h
  | succ k ih => exact ih (h.putWord hp)

theorem Acts.putWordsPlain {a k v : Nat} (hp : Within [.regs] ps := by rfl) : Acts ps s (t.putWords a 0 k v) := by
  induction k generalizing t a v with
  | zero => exact h
  | succ k ih => exact ih (h.setWord hp)

/-- Hardware sets a field of a critical register, or of one not known to be plain. -/
theorem Acts.wrCrit {f : Fld} {v : Nat} (hp : Within [.regs, .gold] ps := by rfl) : Acts ps s (t.wr f v) := h.putWords hp

section
variable {f : Fld} (hsh : f.sh = 0 := by rfl) (hp : Within [.regs] ps := by rfl)
include hsh hp

theorem Acts.wr {v : Nat} : Acts ps s (t.wr f v) := by
  unfold State.wr
  rw [hsh]
  exact h.putWordsPlain hp

theorem Acts.wrS {v : Int} : Acts ps s (t.wrS f v) := h.wr hsh hp

theorem Acts.wrSat {v : Nat} : Acts ps s (t.wrSat f v) := h.wr hsh hp

theorem Acts.wrB {b : Bool} : Acts ps s (t.wrB f b) := h.wr hsh hp

theorem Acts.wrBit {i : Nat} {b : Bool} : Acts ps s (t.wrBit f i b) := h.wr hsh hp

theorem Acts.wrSet {m : LaneSet} : Acts ps s (t.wrSet f m) := h.wr hsh hp

theorem Acts.count {k : Nat} : Acts ps s (t.count f k) := h.wr hsh hp

theorem Acts.countWrap : Acts ps s (t.countWrap f) := h.wr hsh hp

end

end

/-- The command answers a next state, reached by acting on the parts `ps`. -/
def Runs (ps : List Part) (s : State) (o : Host.Outcome State Fault Refusal) : Prop := ∃ t, o = .next t ∧ Acts ps s t

theorem Runs.of {ps : List Part} {s t : State} (ht : Acts ps s s → Acts ps s t) : Runs ps s (.next t) :=
  ⟨t, rfl, ht (.refl ps s)⟩

end Sys2Proof.Machine
end

