-- ==== Sys2Proof/Proofs/ReachChannels.lean ====
section
/-!
PROOFS. What records, flags, the fault injector, channels, session exits and the safe state reach (files `Ops` to `Channels`).
-/

namespace Sys2Proof.Machine

open Sys2Proof

set_option Elab.async false

section
variable {ps : List Part} {s t : State} (h : Acts ps s t)
include h

theorem Acts.modBoot {f} (hp : Within [.boot] ps := by rfl) : Acts ps s (t.modBoot f) := h.setBoot hp

theorem Acts.modHead {n f} (hp : Within [.boot] ps := by rfl) : Acts ps s (t.modHead n f) := h.modBoot hp

theorem Acts.modModule {m f} (hp : Within [.boot] ps := by rfl) : Acts ps s (t.modModule m f) := h.modBoot hp

theorem Acts.modClk {f} (hp : Within [.clk] ps := by rfl) : Acts ps s (t.modClk f) := h.setClk hp

theorem Acts.modBus {f} (hp : Within [.bus] ps := by rfl) : Acts ps s (t.modBus f) := h.setBus hp

theorem Acts.modFlt {f} (hp : Within [.flt] ps := by rfl) : Acts ps s (t.modFlt f) := h.setFlt hp

theorem Acts.modMet {f} (hp : Within [.met] ps := by rfl) : Acts ps s (t.modMet f) := h.setMet hp

theorem Acts.modStream {k f} (hp : Within [.met] ps := by rfl) : Acts ps s (t.modStream k f) := h.modMet hp

theorem Acts.modMetLane {n f} (hp : Within [.met] ps := by rfl) : Acts ps s (t.modMetLane n f) := h.modMet hp

theorem Acts.modCap {f} (hp : Within [.met] ps := by rfl) : Acts ps s (t.modCap f) := h.modMet hp

theorem Acts.modBil {f} (hp : Within [.bil] ps := by rfl) : Acts ps s (t.modBil f) := h.setBil hp

theorem Acts.modBilLane {n f} (hp : Within [.bil] ps := by rfl) : Acts ps s (t.modBilLane n f) := h.modBil hp

theorem Acts.modThm {f} (hp : Within [.thm] ps := by rfl) : Acts ps s (t.modThm f) := h.setThm hp

theorem Acts.modPil {f} (hp : Within [.pil] ps := by rfl) : Acts ps s (t.modPil f) := h.setPil hp

theorem Acts.modPilLane {n f} (hp : Within [.pil] ps := by rfl) : Acts ps s (t.modPilLane n f) := h.modPil hp

theorem Acts.stickyMask {a m} (hp : Within [.regs] ps := by rfl) : Acts ps s (t.stickyMask a m) := h.setWord hp

theorem Acts.sticky {f} (hp : Within [.regs] ps := by rfl) : Acts ps s (t.sticky f) := h.stickyMask hp

theorem Acts.stickyBit {f i} (hp : Within [.regs] ps := by rfl) : Acts ps s (t.stickyBit f i) := h.stickyMask hp

theorem Acts.note {index info lanes} (hp : Within [.journal] ps := by rfl) : Acts ps s (t.note index info lanes) := h.setJournal hp

theorem Acts.fenceGo (hp : Within [.regs, .clk] ps := by rfl) : Acts ps s t.fenceGo :=
  h.via hp fun h => h.countWrap.ite h.modClk

theorem Acts.imageFence (hp : Within [.regs, .clk] ps := by rfl) : Acts ps s t.imageFence :=
  h.via hp fun h => h.when fun _ h => h.fenceGo

theorem Acts.drawRate {rate} (hp : Within [.freeCtr] ps := by rfl) : Acts ps s (t.drawRate rate).2 :=
  h.via hp fun h => by
    unfold State.drawRate
    split
    · exact h
    · exact h.draw

theorem Acts.inject {α : Type} {r : Finj} {tx : Bool} {corrupt : Bool → Nat → α → α} {held : Option α} {f : α}
    (hdrop : r.nDrop.sh = 0 := by rfl) (hcorr : r.nCorr.sh = 0 := by rfl) (hreord : r.nReord.sh = 0 := by rfl)
    (hp : Within [.regs, .freeCtr] ps := by rfl) : Acts ps s (t.inject r tx corrupt held f).2.2 :=
  h.via hp fun h => by
    unfold State.inject
    dsimp only
    split
    · exact h
    · split
      · exact h.drawRate.count hdrop
      · split
        · split
          · exact (h.drawRate.drawRate.draw.count hcorr).drawRate.count hreord
          · exact (h.drawRate.drawRate.draw.count hcorr).drawRate
        · split
          · exact h.drawRate.drawRate.drawRate.count hreord
          · exact h.drawRate.drawRate.drawRate

theorem Acts.finjClear {r} (hdrop : r.nDrop.sh = 0 := by rfl) (hcorr : r.nCorr.sh = 0 := by rfl) (hreord : r.nReord.sh = 0 := by
  rfl) (hp : Within [.regs] ps := by rfl) :
    Acts ps s (t.finjClear r) :=
  h.via hp fun h => ((h.wr hdrop).wr hcorr).wr hreord

theorem Acts.modSwa {f} (hp : Within [.swa] ps := by rfl) : Acts ps s (t.modSwa f) := h.setSwa hp

theorem Acts.modChan {c f} (hp : Within [.swa] ps := by rfl) : Acts ps s (t.modChan c f) := h.modSwa hp

theorem Acts.modSaf {f} (hp : Within [.saf] ps := by rfl) : Acts ps s (t.modSaf f) := h.setSaf hp

theorem Acts.modPins {f} (hp : Within [.pins] ps := by rfl) : Acts ps s (t.modPins f) := h.setPins hp

omit h in
/-- The state code of a channel is no critical register. -/
theorem chanStateFld_sh {c : Nat} {f : Fld} (hf : chanStateFld c = some f) : f.sh = 0 := by
  unfold chanStateFld at hf
  split at hf
  · cases hf; rfl
  · split at hf
    · cases hf
    · cases hf; rfl

theorem Acts.setChanState {c v} (hp : Within [.regs] ps := by rfl) : Acts ps s (t.setChanState c v) :=
  h.via hp fun h => by
    unfold State.setChanState
    split
    case h_1 hf => exact h.wr (chanStateFld_sh hf)
    case h_2 => exact h

theorem Acts.setTrips {c v} (hp : Within [.regs, .swa] ps := by rfl) : Acts ps s (t.setTrips c v) :=
  h.via hp fun h => h.wr.ite (h.modChan.ite h.wr)

theorem Acts.showRest {c} (hp : Within [.regs] ps := by rfl) : Acts ps s (t.showRest c) := h.setChanState hp

theorem Acts.chanStop {c} (hp : Within [.regs, .swa] ps := by rfl) : Acts ps s (t.chanStop c) :=
  h.via hp fun h => h.modChan.showRest.next fun h => h.wr.wr.wrB.ite h

theorem Acts.chanOff {c} (hp : Within [.regs, .swa] ps := by rfl) : Acts ps s (t.chanOff c) :=
  h.via hp fun h => h.modChan.chanStop

theorem Acts.dropClose {n} (hp : Within [.regs, .pil, .swa] ps := by rfl) : Acts ps s (t.dropClose n) :=
  h.via hp fun h => h.modPilLane.wrB.chanOff.ite h

theorem Acts.decideExit {n c} (hp : Within [.regs, .pil, .swa] ps := by rfl) : Acts ps s (t.decideExit n c) :=
  h.via hp fun h => by
    unfold State.decideExit
    exact h.modPilLane.when fun _ h => h.dropClose

theorem Acts.zeroModules (hp : Within [.saf] ps := by rfl) : Acts ps s t.zeroModules := h.modSaf hp

theorem Acts.withdrawClose {m} (hp : Within [.regs, .saf] ps := by rfl) : Acts ps s (t.withdrawClose m) :=
  h.via hp fun h => h.modSaf.wrSet.wrSet

theorem Acts.withdrawUnlock {m} (hp : Within [.regs] ps := by rfl) : Acts ps s (t.withdrawUnlock m) := h.via hp fun h => h.wrSet

theorem Acts.applyForces (hp : Within [.regs, .saf] ps := by rfl) : Acts ps s t.applyForces := h.via hp fun h => h.modSaf.wrSet

theorem Acts.soShow (hp : Within [.regs, .saf] ps := by rfl) : Acts ps s t.soShow :=
  h.via hp fun h => h.wr.each fun _ _ h => h.ite h.modSaf

theorem Acts.soDrive {k v} (hp : Within [.regs, .saf] ps := by rfl) : Acts ps s (t.soDrive k v) :=
  h.via hp fun h => h.modSaf.soShow

theorem Acts.safeEnter {f} (hsh : f.sh = 0 := by rfl) (hp : Within [.regs, .pil, .swa, .saf] ps := by rfl) :
    Acts ps s (t.safeEnter f) :=
  h.via hp fun h => h.ite (((h.wrB hsh).wrB.when fun _ h => h.sticky).withdrawClose.withdrawUnlock.each fun _ _ h =>
    h.decideExit).modSaf

theorem Acts.safeLeave {f} (hsh : f.sh = 0 := by rfl) (hp : Within [.regs] ps := by rfl) : Acts ps s (t.safeLeave f) :=
  h.via hp fun h => (h.wrB hsh).next fun h => h.wrB.ite h

theorem Acts.safeActions (hp : Within [.regs, .saf] ps := by rfl) : Acts ps s t.safeActions :=
  h.via hp fun h => ((h.when fun _ h => h.zeroModules).when fun _ h => h.soDrive.soDrive.modSaf).when fun _ h => h.modSaf

end

/-! ## The commands -/

section
variable {s : State}

theorem runs_execSbFinjClear : Runs [.regs] s (execSbFinjClear s) := .of fun h => h.finjClear

theorem runs_execLnkFinjClear : Runs [.regs] s (execLnkFinjClear s) := .of fun h => h.finjClear

end

end Sys2Proof.Machine
end

