-- ==== Sys2Proof/Proofs/ReachSafety.lean ====
section
/-!
PROOFS. What the fault collector, the switch array and the safety monitor reach (files `Faults` to `Supervisor`).
-/

namespace Sys2Proof.Machine

open Sys2Proof

set_option Elab.async false

section
variable {ps : List Part} {s t : State} (h : Acts ps s t)
include h

theorem Acts.capPend {x} (hp : Within [.regs, .met] ps := by rfl) : Acts ps s (t.capPend x) :=
  h.via hp fun h => by
    unfold State.capPend
    split
    · exact h.wrB.modCap
    · exact h.modCap.ite (h.ite h.count.modCap)

theorem Acts.capEvent {k} (hp : Within [.regs, .met] ps := by rfl) : Acts ps s (t.capEvent k) :=
  h.via hp fun h => by
    unfold State.capEvent
    split
    · exact h
    · exact h.modCap
    · exact h.capPend

theorem Acts.showCause {src} (hp : Within [.regs] ps := by rfl) : Acts ps s (t.showCause src) := h.via hp fun h => h.wrB.wrSet

theorem Acts.causeOn {src cls scope} (hp : Within [.regs, .flt] ps := by rfl) : Acts ps s (t.causeOn src cls scope) :=
  h.via hp fun h => h.modFlt.showCause

theorem Acts.causeEnded {src} (hp : Within [.flt] ps := by rfl) : Acts ps s (t.causeEnded src) := h.modFlt hp

theorem Acts.showCauses (hp : Within [.regs, .flt] ps := by rfl) : Acts ps s t.showCauses :=
  h.via hp fun h => (h.each fun _ _ h => h.showCause).modFlt

theorem Acts.causeOff {src scope} (hp : Within [.flt] ps := by rfl) : Acts ps s (t.causeOff src scope) :=
  h.via hp fun h => h.modFlt.causeEnded

theorem Acts.causeOffDev {src} (hp : Within [.flt] ps := by rfl) : Acts ps s (t.causeOffDev src) :=
  h.via hp fun h => h.modFlt.causeEnded

theorem Acts.retire {m} (hp : Within [.regs, .saf] ps := by rfl) : Acts ps s (t.retire m) :=
  h.via hp fun h => h.wrSet.withdrawClose

theorem Acts.recurrence {src m} (hp : Within [.regs, .flt, .saf] ps := by rfl) : Acts ps s (t.recurrence src m) :=
  h.via hp fun h => h.modFlt.next fun h => h.ite h.wrB.retire

theorem Acts.pinFault {cls} (hp : Within [.regs, .flt] ps := by rfl) : Acts ps s (t.pinFault cls) :=
  h.via hp fun h => h.wrB.wrB.count.modFlt.ite h

theorem Acts.markLatest {m} (hp : Within [.flt] ps := by rfl) : Acts ps s (t.markLatest m) := h.modFlt hp

theorem Acts.raiseNew {src cls scope} (hp : Within raising ps := by rfl) : Acts ps s (t.raiseNew src cls scope) :=
  h.via hp fun h => by
    refine Acts.next ?_ fun h => (h.note.modFlt.when fun _ h => h.capEvent).pinFault.next fun h => (h.ite
      h.wrSet.markLatest).next fun h => (h.recurrence.ite h).next fun h => ((h.each fun _ _ h => h.decideExit).ite h).next fun h
      => h.safeEnter.ite h
    split
    · exact h.stickyMask.wr.count.wrBit.wrSet
    · exact h.stickyMask.wr.count.wrBit

theorem Acts.raiseJudged {r} (hp : Within raising ps := by rfl) : Acts ps s (t.raiseJudged r) :=
  h.via hp fun h => by
    unfold State.raiseJudged
    split
    · exact h.wrB.wr.setJournal.modFlt
    · exact h.ite h.raiseNew

theorem Acts.judgeDue (hp : Within raising ps := by rfl) : Acts ps s t.judgeDue :=
  h.via hp fun h => (h.foldl fun _ _ h => h.raiseJudged).modFlt

theorem Acts.raise {src cls scope} (hp : Within raising ps := by rfl) : Acts ps s (t.raise src cls scope) :=
  h.via hp fun h => h.causeOn.next fun h => h.modFlt.ite (h.ite h.raiseNew)

theorem Acts.raiseLane {src cls n} (hp : Within raising ps := by rfl) : Acts ps s (t.raiseLane src cls n) := h.raise hp

theorem Acts.raiseDev {src cls} (hp : Within raising ps := by rfl) : Acts ps s (t.raiseDev src cls) := h.raise hp

theorem Acts.raiseOnce {src cls scope} (hp : Within raising ps := by rfl) : Acts ps s (t.raiseOnce src cls scope) :=
  h.via hp fun h => h.raise.causeOff

theorem Acts.showLaneF (hp : Within [.regs] ps := by rfl) : Acts ps s t.showLaneF := h.via hp fun h => h.wrSet

theorem Acts.clearSource {i} (hp : Within raising ps := by rfl) : Acts ps s (t.clearSource i) :=
  h.via hp fun h => h.wrB.next fun h => h.ite ((h.wrSet.modFlt.wrB.wr.when fun _ h => h.wrB.wr.wrB.wrBit).showLaneF.modFlt.foldl
    fun _ _ h => h.raiseNew)

theorem Acts.staleClear {a} (hp : Within [.regs] ps := by rfl) : Acts ps s (t.staleClear a) := h.via hp fun h => h.count.wr

theorem Acts.faultClear {i v} (hp : Within raising ps := by rfl) : Acts ps s (t.faultClear i v) :=
  h.via hp fun h => (h.clearSource.ite h.staleClear).ite h

theorem Acts.retireCmd (hp : Within [.regs, .saf] ps := by rfl) : Acts ps s t.retireCmd := h.retire hp

theorem Acts.restoreCmd (hp : Within [.regs] ps := by rfl) : Acts ps s t.restoreCmd :=
  h.via hp fun h => h.sticky.ite h.wrSet.wrSet

theorem Acts.pinRelease (hp : Within [.flt] ps := by rfl) : Acts ps s t.pinRelease := h.modFlt hp

theorem Acts.pinEdge (hp : Within [.regs, .flt] ps := by rfl) : Acts ps s t.pinEdge :=
  h.via hp fun h => (h.wrB.modFlt.ite h).next fun h => (h.modFlt.next fun h => h.wrB.ite h).ite h

theorem Acts.fltiEdge (hp : Within [.regs, .flt] ps := by rfl) : Acts ps s t.fltiEdge :=
  h.via hp fun h => h.ite h.wr.causeOff.causeOff

theorem Acts.faultEdge (hp : Within [.regs, .flt] ps := by rfl) : Acts ps s t.faultEdge :=
  h.via hp fun h => h.fltiEdge.showCauses.pinEdge

theorem Acts.watchdogKey {k} (hp : Within raising ps := by rfl) : Acts ps s (t.watchdogKey k) :=
  h.via hp fun h => h.modFlt.raiseOnce.ite (h.modFlt.causeOff.ite h.count)

theorem Acts.modEnc {k f} (hp : Within [.flt] ps := by rfl) : Acts ps s (t.modEnc k f) := h.modFlt hp

theorem Acts.encFault {k} (hp : Within raising ps := by rfl) : Acts ps s (t.encFault k) := h.via hp fun h => h.modEnc.raise

theorem Acts.encIllegal {k} (hp : Within raising ps := by rfl) : Acts ps s (t.encIllegal k) :=
  h.via hp fun h => h.count.modEnc.next fun h => h.sticky.encFault.ite h

theorem Acts.encHome {k} (hp : Within [.regs, .flt] ps := by rfl) : Acts ps s (t.encHome k) :=
  h.via hp fun h => by
    unfold State.encHome
    dsimp only
    split
    · refine h.wr.wrB.modEnc.ite ?_
      split
      · exact h.wr.wrB.modEnc.causeOff
      · exact h.wr.wrB.modEnc.causeOffDev
    · exact h.wr.wrB.modEnc

theorem Acts.requestAt {c at_} (hp : Within [.regs, .swa] ps := by rfl) : Acts ps s (t.requestAt c at_) :=
  h.via hp fun h => h.ite (h.modChan.ite (h.ite h.modChan.showRest))

theorem Acts.request {c} (hp : Within [.regs, .swa] ps := by rfl) : Acts ps s (t.request c) := h.requestAt hp

theorem Acts.showWait {c at_} (hp : Within [.regs] ps := by rfl) : Acts ps s (t.showWait c at_) :=
  h.via hp fun h => by
    unfold State.showWait
    dsimp only
    split
    · exact h.wrSat.wrSat
    · exact h.wrSat.wrSat

theorem Acts.startChan {c at_} (hp : Within [.regs, .swa] ps := by rfl) : Acts ps s (t.startChan c at_) :=
  h.via hp fun h => h.showWait.modChan.next fun h => h.wr.ite (h.wr.wrB.wrB.ite h.wr)

theorem Acts.takeReq {r} (hp : Within [.regs, .swa] ps := by rfl) : Acts ps s (t.takeReq r) :=
  h.via hp fun h => h.startChan.ite h.showWait.modSwa

theorem Acts.admitAll {rs} (hp : Within [.regs, .swa] ps := by rfl) : Acts ps s (Machine.admitAll rs t) := by
  induction rs generalizing t with
  | nil => exact h
  | cons r rs ih => exact Acts.ite (ih h |>.ite (ih (h.takeReq hp))) h

theorem Acts.schedule (hp : Within [.regs, .swa] ps := by rfl) : Acts ps s t.schedule :=
  h.via hp fun h => h.wr.admitAll.wrSat.wrSat.wrSat

theorem Acts.releaseChan {c} (hp : Within [.regs, .swa] ps := by rfl) : Acts ps s (t.releaseChan c) :=
  h.via hp fun h => (h.modChan.next fun h => h.setChanState.ite h).ite h

theorem Acts.releaseReader {k} (hp : Within [.swa] ps := by rfl) : Acts ps s (t.releaseReader k) :=
  h.via hp fun h => h.modSwa.ite h

theorem Acts.schedClear (hp : Within [.regs] ps := by rfl) : Acts ps s t.schedClear :=
  h.via hp fun h => h.wr.wr.each fun _ _ h => h.wr

theorem Acts.lockMove {n dir} (hp : Within [.regs, .swa] ps := by rfl) : Acts ps s (t.lockMove n dir) :=
  h.via hp fun h => h.modChan.request

theorem Acts.lockDrop {n} (hp : Within [.regs, .swa] ps := by rfl) : Acts ps s (t.lockDrop n) := h.chanOff hp

theorem Acts.lockEnd {n ms peak ok} (hp : Within [.regs, .swa] ps := by rfl) : Acts ps s (t.lockEnd n ms peak ok) :=
  h.via hp fun h => h.wrSat.wrSat.chanStop.modChan.next fun h => h.wr.wr.ite h

theorem Acts.lockCut {n} (hp : Within [.regs, .swa] ps := by rfl) : Acts ps s (t.lockCut n) := h.lockEnd hp

theorem Acts.tripSticky {c} (hp : Within [.regs] ps := by rfl) : Acts ps s (t.tripSticky c) :=
  h.via hp fun h => h.sticky.ite (h.sticky.ite h.sticky)

theorem Acts.latchSticky {c} (hp : Within raising ps := by rfl) : Acts ps s (t.latchSticky c) :=
  h.via hp fun h => h.sticky.raiseLane.ite (h.sticky.raiseLane.ite h.sticky.raiseDev)

theorem Acts.trip {c} (hp : Within raising ps := by rfl) : Acts ps s (t.trip c) :=
  h.via hp fun h => (h.chanStop.setTrips.tripSticky.next fun h => h.modChan.showRest.latchSticky.ite h.modChan.showRest).ite h

theorem Acts.releaseLatch {c} (hp : Within [.regs, .swa] ps := by rfl) : Acts ps s (t.releaseLatch c) :=
  h.via hp fun h => h.setTrips.modChan.showRest

theorem Acts.relCc {n} (hp : Within [.regs, .swa] ps := by rfl) : Acts ps s (t.relCc n) :=
  h.via hp fun h => h.ite h.releaseLatch

theorem Acts.relLk {n} (hp : Within [.regs, .swa] ps := by rfl) : Acts ps s (t.relLk n) :=
  h.via hp fun h => h.ite h.releaseLatch

theorem Acts.relGen {k} (hp : Within [.regs, .swa] ps := by rfl) : Acts ps s (t.relGen k) :=
  h.via hp fun h => h.ite h.releaseLatch

theorem Acts.genOn {k image} (hp : Within [.regs, .swa] ps := by rfl) : Acts ps s (t.genOn k image) :=
  h.via hp fun h => h.request.ite h

theorem Acts.genOff {k image} (hp : Within [.regs, .swa] ps := by rfl) : Acts ps s (t.genOff k image) :=
  h.via hp fun h => h.chanOff.ite h

theorem Acts.countOpen (hp : Within [.swa] ps := by rfl) : Acts ps s t.countOpen :=
  h.via hp fun h => h.each fun _ _ h => h.ite h.modChan

theorem Acts.interruptAll (hp : Within [.regs, .swa] ps := by rfl) : Acts ps s t.interruptAll :=
  h.via hp fun h => h.each fun _ _ h => h.modChan.chanStop.ite h

theorem Acts.locksUnknown (hp : Within [.regs] ps := by rfl) : Acts ps s t.locksUnknown :=
  h.via hp fun h => h.each fun _ _ h => h.ite h.wr

theorem Acts.supplyBegin {flag now} (hsh : now.sh = 0 := by rfl) (hp : Within raising ps := by rfl) :
    Acts ps s (t.supplyBegin flag now) :=
  h.via hp fun h => (h.sticky.wrB hsh).interruptAll.locksUnknown.raiseDev

theorem Acts.resumeAll (hp : Within [.regs, .swa] ps := by rfl) : Acts ps s t.resumeAll :=
  h.via hp fun h => h.each fun _ _ h => h.modChan.requestAt.ite h

theorem Acts.showBucket {c} (hp : Within [.regs] ps := by rfl) : Acts ps s (t.showBucket c) :=
  h.via hp fun h => h.wrSat.ite (h.wrSat.ite h.wrSat)

theorem Acts.clampRaise {c} (hp : Within raising ps := by rfl) : Acts ps s (t.clampRaise c) :=
  h.via hp fun h => h.sticky.raiseLane.ite (h.sticky.raiseLane.ite h.sticky.raiseDev)

theorem Acts.clampCauseEnd {c} (hp : Within [.flt] ps := by rfl) : Acts ps s (t.clampCauseEnd c) :=
  h.via hp fun h => (h.ite h.causeOff).ite (h.ite h.causeOffDev)

theorem Acts.drain {c} (hp : Within [.regs, .flt, .swa] ps := by rfl) : Acts ps s (t.drain c) :=
  h.via hp fun h => h.modChan.showBucket.next fun h => (h.modChan.next fun h => (h.ite h.showRest).clampCauseEnd.next fun h =>
    h.request.ite h).ite h

theorem Acts.showShed (hp : Within [.regs] ps := by rfl) : Acts ps s t.showShed := h.via hp fun h => h.wrSat

theorem Acts.dissipate (hp : Within raising ps := by rfl) : Acts ps s t.dissipate :=
  h.via hp fun h => h.modSwa.wrSat.wrS.modSwa.next fun h => (h.raiseDev.ite h).next fun h => (h.ite h.causeOff).next fun h =>
    (h.each fun _ _ h => h.modChan.showRest.request).showShed.ite h

theorem Acts.plausibility (hp : Within raising ps := by rfl) : Acts ps s t.plausibility :=
  h.via hp fun h => h.each fun _ _ h => (h.ite h.modChan).next fun h => h.sticky.raiseLane.ite (h.causeOff.ite h)

theorem Acts.showCurrents (hp : Within [.regs, .swa] ps := by rfl) : Acts ps s t.showCurrents :=
  h.via hp fun h => ((h.wrS.each fun _ _ h => h.ite h.wr).each fun _ _ h => h.ite h.wr).each fun _ _ h => h.modChan

theorem Acts.chanCauses (hp : Within [.flt, .swa] ps := by rfl) : Acts ps s t.chanCauses :=
  h.via hp fun h => (h.causeOff.causeOff.causeOff.countOpen.each fun _ _ h => h.causeOff).next fun h => h.causeOff.ite h

theorem Acts.notStarted {n} (hp : Within [.regs, .swa] ps := by rfl) : Acts ps s (t.notStarted n) :=
  h.via hp fun h => h.modChan.setChanState.showRest

theorem Acts.consentRefresh (hp : Within [.regs, .swa, .saf] ps := by rfl) : Acts ps s t.consentRefresh :=
  h.via hp fun h => (h.modSaf.each fun _ _ h => h.wrB.wrB.wrB.next fun h => ((h.notStarted.ite h.chanOff).ite h).next fun h =>
    h.lockCut.ite h).applyForces.soShow.safeActions.modSaf

theorem Acts.modGuard {k f} (hp : Within [.saf] ps := by rfl) : Acts ps s (t.modGuard k f) := h.modSaf hp

theorem Acts.modConn {k f} (hp : Within [.saf] ps := by rfl) : Acts ps s (t.modConn k f) := h.modSaf hp

theorem Acts.guardCauses (hp : Within [.regs, .pil, .swa, .saf] ps := by rfl) : Acts ps s t.guardCauses :=
  h.via hp fun h => ((h.when fun _ h => h.safeEnter).when fun _ h => h.safeEnter).ite h

theorem Acts.soOn {k} (hp : Within [.regs, .saf] ps := by rfl) : Acts ps s (t.soOn k) :=
  h.via hp fun h => h.ite h.modSaf.soDrive

omit h in
theorem resetCauses_sh : ∀ f ∈ resetCauses, f.sh = 0 := by decide

/-- Causes a reset ends (R285) are left one after the other. -/
theorem Acts.leaveCauses {b : Fld → Bool} (hp : Within [.regs] ps := by rfl) :
    Acts ps s ((resetCauses.filter b).foldl State.safeLeave t) :=
  h.foldOver (p := id) rfl fun _ f hf h => h.safeLeave (resetCauses_sh f (List.mem_of_mem_filter hf)) hp

theorem Acts.safetyReset {f} (hp : Within [.regs, .saf] ps := by rfl) : Acts ps s (t.safetyReset f) :=
  h.via hp fun h => (((h.leaveCauses.when fun _ h => h.sticky).when fun _ h => h.sticky).when fun _ h => h.modSaf).next fun h =>
    h.soOn.soOn.ite h

theorem Acts.guardStep {k} (hp : Within [.regs, .flt, .saf] ps := by rfl) : Acts ps s (t.guardStep k) :=
  h.via hp fun h => (h.modGuard.wrBit.wrBit.wrBit.when fun _ h => h.modSaf).when fun _ h => h.causeOff

theorem Acts.guardSet {k a b} (hp : Within [.regs, .flt, .pins, .saf] ps := by rfl) : Acts ps s (t.guardSet k a b) :=
  h.via hp fun h => h.modPins.guardStep

theorem Acts.walkPairDone {k} (hp : Within [.regs] ps := by rfl) : Acts ps s (t.walkPairDone k) :=
  h.via hp fun h => (h.wrBit.next fun h => h.wrB.ite h).ite h

theorem Acts.mirrorStep (hp : Within [.regs, .flt, .saf] ps := by rfl) : Acts ps s t.mirrorStep :=
  h.via hp fun h => h.wrSet.wrSet.each fun _ _ h => ((h.modSaf.ite (h.modSaf.ite h)).when fun _ h => h.causeOff).when fun _ h =>
    h.causeOff

theorem Acts.dropout (hp : Within raising ps := by rfl) : Acts ps s t.dropout :=
  h.via hp fun h => h.each fun _ _ h => ((h.ite h.modChan).next fun h => h.sticky.raiseLane.withdrawClose.ite h).ite
    ((h.modChan.ite h).when fun _ h => h.causeOff)

theorem Acts.zeroGroups {k} (hp : Within [.saf] ps := by rfl) : Acts ps s (t.zeroGroups k) := h.modSaf hp

theorem Acts.weldReact {n} (hp : Within raising ps := by rfl) : Acts ps s (t.weldReact n) :=
  h.via hp fun h => h.sticky.raiseLane.retire.wrSet.zeroGroups.modSaf

theorem Acts.soFollow (hp : Within [.flt, .saf] ps := by rfl) : Acts ps s t.soFollow :=
  h.via hp fun h => (h.each fun _ _ h => h.modSaf.ite h).when fun _ h => h.causeOff

theorem Acts.viewStep {n} (hp : Within raising ps := by rfl) : Acts ps s (t.viewStep n) :=
  h.via hp fun h => h.modSaf.when fun _ h => h.raiseOnce

theorem Acts.takeCopies (hp : Within (raising ++ [.pins]) ps := by rfl) : Acts ps s t.takeCopies :=
  h.via hp fun h => (h.each fun _ _ h => h.viewStep).modPins

theorem Acts.crossStep (hp : Within [.flt, .saf] ps := by rfl) : Acts ps s t.crossStep :=
  h.via hp fun h => h.each fun _ _ h => ((h.ite h.modSaf).when fun _ h => h.causeOff).ite (((h.ite h.modSaf).ite ((h.ite
    h.modSaf).when fun _ h => h.causeOff)).ite h)

theorem Acts.closeConsent {n} (hp : Within [.regs, .saf] ps := by rfl) : Acts ps s (t.closeConsent n) :=
  h.via hp fun h => (h.ite h.wrBit.wrBit).modSaf.ite ((h.ite h.wrBit.wrBit).ite ((h.ite h.wrBit.wrBit).ite ((h.ite
    h.wrBit.wrBit).withdrawClose.modSaf.ite h)))

theorem Acts.unlockConsent {n} (hp : Within [.regs] ps := by rfl) : Acts ps s (t.unlockConsent n) :=
  h.via hp fun h => h.ite h.wrBit

theorem Acts.fastWithdraw (hp : Within [.regs, .saf] ps := by rfl) : Acts ps s t.fastWithdraw :=
  h.via hp fun h => h.ite h.count.withdrawClose

theorem Acts.clockCheck (hp : Within raising ps := by rfl) : Acts ps s t.clockCheck :=
  h.via hp fun h => (h.modSaf.next fun h => h.raiseDev.ite h).ite (h.ite h.modSaf.causeOff)

theorem Acts.driveRecords (hp : Within [.regs, .pins, .saf] ps := by rfl) : Acts ps s t.driveRecords :=
  h.via hp fun h => (h.ite h.wrSet.wrSet.wrSet).modSaf.modPins

theorem Acts.compareStep (hp : Within (raising ++ [.pins]) ps := by rfl) : Acts ps s t.compareStep :=
  h.via hp fun h => h.driveRecords.next fun h => (h.modSaf.count.sticky.next fun h => h.raiseDev.ite (h.raiseDev.ite h)).ite
    (h.ite h.modSaf.causeOff)

theorem Acts.cmpClear (hp : Within [.regs] ps := by rfl) : Acts ps s t.cmpClear := h.via hp fun h => h.wr.wr

theorem Acts.stateOut (hp : Within [.saf] ps := by rfl) : Acts ps s t.stateOut :=
  h.via hp fun h => h.modSaf.next fun h => (h.each fun _ _ h => h.modConn).ite h

theorem Acts.pduNext {k} (hp : Within [.saf] ps := by rfl) : Acts ps s (t.pduNext k) := h.modConn hp

theorem Acts.peerUpdate (hp : Within [.regs, .pil, .swa, .saf] ps := by rfl) : Acts ps s t.peerUpdate :=
  h.via hp fun h => h.safeEnter.ite (h.safeLeave.ite h)

theorem Acts.connCause (hp : Within [.flt] ps := by rfl) : Acts ps s t.connCause := h.via hp fun h => h.ite (h.causeOff.ite h)

theorem Acts.connFail {k} (hp : Within raising ps := by rfl) : Acts ps s (t.connFail k) :=
  h.via hp fun h => (h.wr.count.modConn.raiseDev.when fun _ h => h.safeEnter).peerUpdate

theorem Acts.connAccept {k pdu} (hp : Within [.regs, .pil, .swa, .saf] ps := by rfl) : Acts ps s (t.connAccept k pdu) :=
  h.via hp fun h => h.wr.wr.modConn.peerUpdate

theorem Acts.connOpen {k pdu} (hp : Within [.regs, .flt, .pil, .swa, .saf] ps := by rfl) : Acts ps s (t.connOpen k pdu) :=
  h.via hp fun h => h.wr.modConn.connAccept.connCause

theorem Acts.connCheck {k pdu} (hp : Within [.regs, .flt, .pil, .swa, .saf] ps := by rfl) : Acts ps s (t.connCheck k pdu) :=
  h.via hp fun h => (h.connAccept.ite h.count).ite (h.connOpen.ite h.wr.modConn)

theorem Acts.pduTake {k pdu} (hp : Within raising ps := by rfl) : Acts ps s (t.pduTake k pdu) :=
  h.via hp fun h => h.ite ((h.count.modConn.next fun h => h.connFail.ite h).ite (h.count.ite h.connCheck))

theorem Acts.linkUpdate (hp : Within [.regs] ps := by rfl) : Acts ps s t.linkUpdate := h.via hp fun h => h.safeLeave.ite h

theorem Acts.connCntClear {k} (hp : Within [.regs] ps := by rfl) : Acts ps s (t.connCntClear k) := h.via hp fun h => h.wr.wr.wr

theorem Acts.showCfgCrc (hp : Within [.regs] ps := by rfl) : Acts ps s t.showCfgCrc := h.via hp fun h => h.wr

theorem Acts.channelFrame (hp : Within (raising ++ [.pins]) ps := by rfl) : Acts ps s t.channelFrame :=
  h.via hp fun h => by
    unfold State.channelFrame
    dsimp only
    exact ((((by split; exacts [h.takeCopies.modSaf.safetyReset.ite h.takeCopies, h.takeCopies] : Acts _ _ _).each fun _ _ h =>
      h.guardStep).guardCauses.peerUpdate.linkUpdate.modSaf.each fun _ _ h =>
      h.weldReact).mirrorStep.dropout.crossStep.soFollow.clockCheck.fastWithdraw.each fun _ _ h =>
      h.closeConsent.unlockConsent).stateOut.compareStep

end

/-! ## The commands -/

section
variable {s : State}

theorem runs_execFaultClear {i v} : Runs [.regs, .flt, .journal, .met, .pil, .swa, .saf] s (execFaultClear i v s) :=
  .of fun h => h.faultClear

theorem runs_execLaneRestore : Runs [.regs] s (execLaneRestore s) := .of fun h => h.restoreCmd

theorem runs_execLaneRetire : Runs [.regs, .saf] s (execLaneRetire s) := .of fun h => h.retireCmd

theorem runs_execFaultPinRelease : Runs [.flt] s (execFaultPinRelease s) := .of fun h => h.pinRelease

theorem runs_execFaultInputLevel {p m} : Runs [.regs, .flt, .journal, .met, .pil, .swa, .saf] s (execFaultInputLevel p m s) :=
  .of fun h => ((h.wr.causeOff.when fun _ h => h.raiseDev).ite ((h.wr.causeOff.when fun _ h => h.raiseDev).ite
    h.wr.causeOff.causeOff)).ite h

theorem runs_execWatchdogKey {key} : Runs [.regs, .flt, .journal, .met, .pil, .swa, .saf] s (execWatchdogKey key s) :=
  .of fun h => h.watchdogKey

theorem runs_execWatchdogProbe : Runs [.flt] s (execWatchdogProbe s) := .of fun h => h.modFlt.ite h

theorem runs_execWatchdogProbeTimeout :
    Runs [.regs, .flt, .journal, .met, .pil, .swa, .saf] s (execWatchdogProbeTimeout s) := .of fun h => by
    split
    · exact h.modFlt.raiseDev.ite h
    · exact h

theorem runs_execEncoderEdge {k a b} : Runs [.regs, .flt, .journal, .met, .pil, .swa, .saf] s (execEncoderEdge k a b s) :=
  .of fun h => (h.modEnc.next fun h => h.ite (h.encIllegal.ite h.setWord)).ite h

theorem runs_execEncoderHome {k} : Runs [.regs, .flt] s (execEncoderHome k s) := .of fun h => h.encHome

theorem runs_execBookingRelease {b} : Runs [.regs, .swa] s (execBookingRelease b s) := .of fun h => by
    split
    · exact h.releaseChan.schedule
    · exact h.releaseReader.schedule

theorem runs_execSchedClear : Runs [.regs] s (execSchedClear s) := .of fun h => h.schedClear

theorem runs_execPullInEnd {n} : Runs [.regs] s (execPullInEnd n s) := .of fun h => h.wr.ite h

theorem runs_execLockMoveEnd {n cur} : Runs [.regs, .flt, .journal, .met, .pil, .swa, .saf] s (execLockMoveEnd n cur s) :=
  .of fun h => (h.lockEnd.next fun h => h.sticky.raiseOnce.ite h).ite h

theorem runs_execLockRetry {n} : Runs [.regs, .swa] s (execLockRetry n s) := .of fun h => h.modChan.request.ite h

theorem runs_execChannelTrip {o} : Runs [.regs, .flt, .journal, .met, .pil, .swa, .saf] s (execChannelTrip o s) :=
  .of fun h => h.trip.ite h

theorem runs_execRetryPauseEnd {ch} : Runs [.regs, .swa] s (execRetryPauseEnd ch s) :=
  .of fun h => h.modChan.showRest.request.ite h

theorem runs_execTripCountReset {ch} : Runs [.regs, .swa] s (execTripCountReset ch s) := .of fun h => by
    split
    · exact h.setTrips.ite h
    · exact h

theorem runs_execReleaseCcLatch {n} : Runs [.regs, .swa] s (execReleaseCcLatch n s) := .of fun h => h.relCc

theorem runs_execReleaseLkLatch {n} : Runs [.regs, .swa] s (execReleaseLkLatch n s) := .of fun h => h.relLk

theorem runs_execReleaseGenLatch {k} : Runs [.regs, .swa] s (execReleaseGenLatch k s) := .of fun h => h.relGen

theorem runs_execGenChannelOn {q} : Runs [.regs, .swa] s (execGenChannelOn q s) := .of fun h => h.genOn

theorem runs_execGenChannelOff {q} : Runs [.regs, .swa] s (execGenChannelOff q s) := .of fun h => h.genOff

theorem runs_execOpenLoad {ch} : Runs [.regs, .flt, .journal, .met, .pil, .swa, .saf] s (execOpenLoad ch s) := .of fun h => by
    split
    · exact h.sticky.raiseLane.ite h
    · exact h
    · exact h.sticky.raiseDev.ite h

theorem runs_execFieldGroundLoss : Runs [.regs, .flt, .journal, .met, .pil, .swa, .saf] s (execFieldGroundLoss s) :=
  .of fun h => h.sticky.wrB.interruptAll.locksUnknown.raiseDev

theorem runs_execReverseAux : Runs [.regs, .flt, .journal, .met, .pil, .swa, .saf] s (execReverseAux s) :=
  .of fun h => h.supplyBegin.modSwa

theorem runs_execAuxSurge : Runs [.regs, .flt, .journal, .met, .pil, .swa, .saf] s (execAuxSurge s) :=
  .of fun h => h.supplyBegin

theorem runs_execAuxUnderVoltage : Runs [.regs, .flt, .journal, .met, .pil, .swa, .saf] s (execAuxUnderVoltage s) :=
  .of fun h => h.supplyBegin

theorem runs_execSupplyResume {c} : Runs [.regs, .flt, .swa] s (execSupplyResume c s) :=
  .of fun h => (by split; exacts [h.wrB.causeOff, h.wrB.modSwa, h.wrB, h.wrB] : Acts _ _ _).next fun h => (h.ite
    h.causeOff).next fun h => h.ite h.resumeAll

theorem runs_execClampEvent {ch mj} : Runs [.regs, .flt, .journal, .met, .pil, .swa, .saf] s (execClampEvent ch mj s) :=
  .of fun h => h.modChan.modSwa.showBucket.next fun h => (h.modChan.next fun h => (h.ite h.showRest).clampRaise).ite h

theorem runs_execClampBucketDrain : Runs [.regs, .flt, .swa] s (execClampBucketDrain s) :=
  .of fun h => h.each fun _ _ h => h.drain

theorem runs_execThermalShed : Runs [.regs, .swa] s (execThermalShed s) :=
  .of fun h => (h.modSwa.next fun h => (by dsimp only; split; exacts [h.modChan.chanStop.showShed, h])).ite h.modSwa

theorem runs_execOverTempOff : Runs [.regs, .swa] s (execOverTempOff s) := .of fun h => h.interruptAll.modSwa

theorem runs_execOverTempResume : Runs [.regs, .swa] s (execOverTempResume s) :=
  .of fun h => (h.modSwa.next fun h => h.ite h.resumeAll).ite h

theorem runs_execSafeRequest : Runs [.regs, .pil, .swa, .saf] s (execSafeRequest s) := .of fun h => h.safeEnter

theorem runs_execGuardInputChange {k a b} : Runs [.regs, .flt, .pil, .swa, .pins, .saf] s (execGuardInputChange k a b s) :=
  .of fun h => h.guardSet.guardCauses

theorem runs_execGuardDiscrepancy {k} :
    Runs [.regs, .flt, .journal, .met, .pil, .swa, .saf] s (execGuardDiscrepancy k s) := .of fun h => by
    split
    · exact h.modGuard.sticky.raise.ite h
    · exact h

theorem runs_execMirrorDiscrepancy {n} : Runs [.regs, .flt, .journal, .met, .pil, .swa, .saf] s (execMirrorDiscrepancy n s) :=
  .of fun h => h.sticky.raiseLane.ite h

theorem runs_execWeldTest {n} : Runs [.regs, .pil, .swa, .saf] s (execWeldTest n s) :=
  .of fun h => (h.modChan.next fun h => (h.withdrawClose.decideExit.each fun _ _ h => h.decideExit).modSaf.ite h).ite h

theorem runs_execSoWeldDelayEnd {k} : Runs [.regs, .saf] s (execSoWeldDelayEnd k s) := .of fun h => h.modSaf.soDrive.ite h

theorem runs_execSoFeedbackTimeout {k} : Runs [.regs, .flt, .journal, .met, .pil, .swa, .saf] s (execSoFeedbackTimeout k s) :=
  .of fun h => h.modSaf.sticky.raiseDev.ite h

theorem runs_execCurrentCrosscheck {g} : Runs [.regs, .flt, .journal, .met, .pil, .swa, .saf] s (execCurrentCrosscheck g s) :=
  .of fun h => h.raise.ite h

theorem runs_execSafetyCmpClear : Runs [.regs] s (execSafetyCmpClear s) := .of fun h => h.cmpClear

theorem runs_execSafetyConnTimeout {k} : Runs [.regs, .flt, .journal, .met, .pil, .swa, .saf] s (execSafetyConnTimeout k s) :=
  .of fun h => h.connFail.ite h

theorem runs_execLinkCauseEnd {k} : Runs [.regs, .saf] s (execLinkCauseEnd k s) := .of fun h => h.modConn.linkUpdate.ite h

theorem runs_execSafetyConnCntClear {k} : Runs [.regs] s (execSafetyConnCntClear k s) := .of fun h => h.connCntClear

end

end Sys2Proof.Machine
end

