-- ==== Sys2Proof/Proofs/ReachMetering.lean ====
section
/-!
PROOFS. What metering, the earth-fault monitor and the work of a frame on them reach (files `Metering` to `MetFrame`).
-/

namespace Sys2Proof.Machine

open Sys2Proof

set_option Elab.async false

section
variable {ps : List Part} {s t : State} (h : Acts ps s t)
include h

/-! The fields of a stream's registers are plain. -/

omit h in
theorem strCount_sh (n k : Nat) : (strCount n k).sh = 0 := by unfold strCount; split <;> rfl

omit h in
theorem strStuck_sh (n k : Nat) : (strStuck n k).sh = 0 := by unfold strStuck; split <;> rfl

omit h in
theorem strTstale_sh (n k : Nat) : (strTstale n k).sh = 0 := by unfold strTstale; split <;> rfl

theorem Acts.streamStep {used st} (hp : Within [.regs, .met] ps := by rfl) : Acts ps s (t.streamStep used st) :=
  h.via hp fun h => (h.modStream.when fun _ h => h.sticky).when fun _ h => h.sticky.count (strCount_sh _ _)

theorem Acts.streamTicks (hp : Within [.regs, .met] ps := by rfl) : Acts ps s t.streamTicks :=
  h.via hp fun h => h.each fun _ _ h => h.each fun _ _ h => h.streamStep

theorem Acts.latchSamples {xs} (hp : Within [.met] ps := by rfl) : Acts ps s (t.latchSamples xs) :=
  h.via hp fun h => h.foldl fun _ _ h => h.modStream

theorem Acts.phaseTick {overrun n} (hp : Within [.met] ps := by rfl) : Acts ps s (t.phaseTick overrun n) := h.modMetLane hp

theorem Acts.outletTick {n} (hp : Within [.regs, .met] ps := by rfl) : Acts ps s (t.outletTick n) :=
  h.via hp fun h => (h.ite h.count).modMetLane

theorem Acts.capRecord (hp : Within [.met] ps := by rfl) : Acts ps s t.capRecord := h.modCap hp

theorem Acts.capLevel (hp : Within [.met] ps := by rfl) : Acts ps s t.capLevel.2 := h.modCap hp

theorem Acts.capStamp {x} (hp : Within [.regs] ps := by rfl) : Acts ps s (t.capStamp x) := h.via hp fun h => h.wr.wr.wr.wr

theorem Acts.capLatch (hp : Within [.met] ps := by rfl) : Acts ps s t.capLatch := h.modCap hp

theorem Acts.capIdle (hp : Within [.regs, .met] ps := by rfl) : Acts ps s t.capIdle := h.via hp fun h => h.wr.modCap.capLatch

theorem Acts.capLate (hp : Within [.regs, .met] ps := by rfl) : Acts ps s t.capLate :=
  h.via hp fun h => by
    unfold State.capLate
    split
    · exact h.capStamp.wrB.wrSat.wr.wrB.wrB.wr.modCap
    · exact h

theorem Acts.capStart {x} (hp : Within [.regs, .met] ps := by rfl) : Acts ps s (t.capStart x) :=
  h.via hp fun h => h.capStamp.wrB.wrB.wr.wr.wr.modCap

theorem Acts.capTick (hp : Within [.regs, .met] ps := by rfl) : Acts ps s t.capTick :=
  h.via hp fun h => (h.capLatch.ite h).capLevel.next fun h => (h.capLate.ite h).next fun h => (h.capRecord.modCap.ite h).next
    fun h => h.ite (h.modCap.next fun h => h.capStart.ite h.capPend)

theorem Acts.capArm (hp : Within [.regs, .met] ps := by rfl) : Acts ps s t.capArm := h.via hp fun h => h.capIdle.ite h

theorem Acts.capDisarm (hp : Within [.regs, .met] ps := by rfl) : Acts ps s t.capDisarm := h.via hp fun h => h.wr.wrB.modCap

theorem Acts.capRelease (hp : Within [.regs, .met] ps := by rfl) : Acts ps s t.capRelease :=
  h.via hp fun h => (h.capIdle.ite h.modCap).ite h

theorem Acts.capSwtrig (hp : Within [.regs, .met] ps := by rfl) : Acts ps s t.capSwtrig := h.capEvent hp

theorem Acts.capAdvance (hp : Within [.regs] ps := by rfl) : Acts ps s t.capAdvance := h.via hp fun h => h.wr.wr.ite h.wr

theorem Acts.modEfm {f} (hp : Within [.efm] ps := by rfl) : Acts ps s (t.modEfm f) := h.setEfm hp

theorem Acts.modEfmLane {n f} (hp : Within [.efm] ps := by rfl) : Acts ps s (t.modEfmLane n f) := h.modEfm hp

theorem Acts.modEfmGroup {g f} (hp : Within [.efm] ps := by rfl) : Acts ps s (t.modEfmGroup g f) := h.modEfm hp

theorem Acts.setVerdict {n v} (hp : Within [.regs] ps := by rfl) : Acts ps s (t.setVerdict n v) := h.via hp fun h => h.wr

theorem Acts.efmLaneTick {ej n} (hp : Within [.efm] ps := by rfl) : Acts ps s (t.efmLaneTick ej n) := h.modEfmLane hp

theorem Acts.stepTick {ej n} (hp : Within [.efm] ps := by rfl) : Acts ps s (t.stepTick ej n) :=
  h.via hp fun h => by
    unfold State.stepTick
    split
    · split
      · exact h.modEfmLane.ite h
      · exact h
    · exact h

theorem Acts.rcdTick {n} (hp : Within [.efm] ps := by rfl) : Acts ps s (t.rcdTick n) := h.modEfmLane hp

theorem Acts.efmTick {ej} (hp : Within [.efm] ps := by rfl) : Acts ps s (t.efmTick ej) :=
  h.via hp fun h => ((h.ite (h.each fun _ _ h => h.efmLaneTick)).each fun _ _ h => h.stepTick.modEfmLane).each fun _ _ h =>
    h.rcdTick

theorem Acts.setMode {n v k} (hp : Within [.regs, .efm] ps := by rfl) : Acts ps s (t.setMode n v k) :=
  h.via hp fun h => h.wr.modEfmLane

theorem Acts.injOff {n} (hp : Within [.regs, .efm] ps := by rfl) : Acts ps s (t.injOff n) :=
  h.via hp fun h => h.setMode.modEfmLane

theorem Acts.stepChip {n} (hp : Within [.boot, .efm] ps := by rfl) : Acts ps s (t.stepChip n) :=
  h.via hp fun h => by
    unfold State.stepChip
    split
    · exact h.ite (h.modEfmLane.modHead.ite h.modEfmLane)
    · exact h

theorem Acts.chipLane {first n} (hp : Within [.regs, .boot, .efm] ps := by rfl) : Acts ps s (t.chipLane first n) :=
  h.via hp fun h => h.modEfmLane.modEfmLane.stepChip.wrSat.setMode.modEfmLane

theorem Acts.efmCommit (hp : Within [.regs, .gold, .efm] ps := by rfl) : Acts ps s t.efmCommit :=
  h.via hp fun h => by
    refine h.ite ?_
    exact (h.foldl fun _ _ h => (by split; exacts [h.putWord, h])).modEfm

theorem Acts.verdictFault {n} (hp : Within [.regs] ps := by rfl) : Acts ps s (t.verdictFault n) := h.setVerdict hp

theorem Acts.warnShow {n was} (hp : Within raising ps := by rfl) : Acts ps s (t.warnShow n was) :=
  h.via hp fun h => (h.sticky.raiseLane.next fun h => h.setVerdict.ite h).ite ((h.causeOff.next fun h => h.setVerdict.ite h).ite
    h)

theorem Acts.laneFaultStep {n f} (hp : Within (raising ++ [.efm]) ps := by rfl) : Acts ps s (t.laneFaultStep n f) :=
  h.via hp fun h => h.modEfmLane.next fun h => h.sticky.raiseLane.verdictFault.ite (h.causeOff.ite h)

theorem Acts.laneWarnStep {n f} (hp : Within (raising ++ [.efm]) ps := by rfl) : Acts ps s (t.laneWarnStep n f) :=
  h.via hp fun h => h.modEfmLane.warnShow

theorem Acts.groupFaultStep {g js} (hp : Within (raising ++ [.efm]) ps := by rfl) : Acts ps s (t.groupFaultStep g js) :=
  h.via hp fun h => by
    unfold State.groupFaultStep
    split
    · exact h.modEfmGroup.next fun h => (h.each fun _ _ h => h.sticky.verdictFault).raise.ite (h.causeOff.ite h)
    · exact h

theorem Acts.groupWarnStep {g js} (hp : Within (raising ++ [.efm]) ps := by rfl) : Acts ps s (t.groupWarnStep g js) :=
  h.via hp fun h => by
    unfold State.groupWarnStep
    split
    · exact h.modEfmGroup.each fun _ _ h => h.modEfmLane.warnShow
    · exact h

theorem Acts.groupStep {g} (hp : Within (raising ++ [.efm]) ps := by rfl) : Acts ps s (t.groupStep g) :=
  h.via hp fun h => h.setWord.setWord.groupFaultStep.groupWarnStep

theorem Acts.crossStepEf {n} (hp : Within (raising ++ [.efm]) ps := by rfl) : Acts ps s (t.crossStepEf n) :=
  h.via hp fun h => (h.modEfmLane.next fun h => h.wrSet.sticky.raiseLane.ite (h.causeOff.ite h)).ite h

theorem Acts.efLaneStep {n} (hp : Within (raising ++ [.efm]) ps := by rfl) : Acts ps s (t.efLaneStep n) :=
  h.via hp fun h => by
    unfold State.efLaneStep
    dsimp only
    generalize estimate (t.efmLane n).chips 63 = full
    refine Acts.next ?_ fun h => Acts.ite ?_ h
    · refine Acts.crossStepEf ?_
      split
      · exact h.setWord.setWord.wrSat
      · exact h.setWord.setWord
    · cases full with
      | some _ =>
        refine Acts.laneWarnStep ?_
        split
        · exact h.laneFaultStep
        · exact h
      | none =>
        dsimp only
        split
        · exact h.laneFaultStep
        · exact h

theorem Acts.cableStart {n} (hp : Within [.efm] ps := by rfl) : Acts ps s (t.cableStart n) := h.modEfmLane hp

theorem Acts.cableStop {n} (hp : Within [.efm] ps := by rfl) : Acts ps s (t.cableStop n) := h.via hp fun h => h.modEfmLane.ite h

theorem Acts.verdictReset {n} (hp : Within [.regs] ps := by rfl) : Acts ps s (t.verdictReset n) :=
  h.via hp fun h => h.ite h.setVerdict

theorem Acts.verdictPass {n} (hp : Within [.regs] ps := by rfl) : Acts ps s (t.verdictPass n) :=
  h.via hp fun h => h.ite h.setVerdict

theorem Acts.cableShow {n c} (hp : Within [.regs, .efm] ps := by rfl) : Acts ps s (t.cableShow n c) :=
  h.via hp fun h => by
    unfold State.cableShow
    split
    · exact h.wrSat.wr.modEfmLane
    · exact h

theorem Acts.injStart {n} (hp : Within [.boot, .efm] ps := by rfl) : Acts ps s (t.injStart n) :=
  h.via hp fun h => h.modHead.modEfmLane.ite h.modHead

theorem Acts.efmLatch (hp : Within [.efm] ps := by rfl) : Acts ps s t.efmLatch :=
  h.via hp fun h => h.each fun _ _ h => h.modEfmLane

theorem Acts.rcdEdge {n} (hp : Within (raising ++ [.efm]) ps := by rfl) : Acts ps s (t.rcdEdge n) :=
  h.via hp fun h => by
    unfold State.rcdEdge
    dsimp only
    split
    · exact h.wrS.wrS.modEfmLane
    · exact h.wrS.wrS.modEfmLane.next fun h => h.sticky.raiseLane.verdictFault.ite (h.causeOff.ite h)

theorem Acts.rcdTestFailed {n} (hp : Within (raising ++ [.efm]) ps := by rfl) : Acts ps s (t.rcdTestFailed n) :=
  h.via hp fun h => h.modEfmLane.wr.sticky.raiseOnce

theorem Acts.rcdTestStart {n again} (hp : Within (raising ++ [.efm]) ps := by rfl) : Acts ps s (t.rcdTestStart n again) :=
  h.via hp fun h => by
    unfold State.rcdTestStart
    split
    · exact h.modEfmLane.request
    · exact h.rcdTestFailed

theorem Acts.efmHeadGone {n} (hp : Within [.regs, .swa, .efm] ps := by rfl) : Acts ps s (t.efmHeadGone n) :=
  h.via hp fun h => by
    unfold State.efmHeadGone
    dsimp only
    split
    · exact h.injOff.verdictReset.modEfmLane.chanOff
    · exact h.injOff.verdictReset.modEfmLane
    · exact h.injOff.verdictReset

theorem Acts.verdictEdge {n} (hp : Within [.regs] ps := by rfl) : Acts ps s (t.verdictEdge n) :=
  h.via hp fun h => h.setVerdict.ite h

theorem Acts.efmEdge (hp : Within (raising ++ [.efm]) ps := by rfl) : Acts ps s t.efmEdge :=
  h.via hp fun h => ((h.each fun _ _ h => h.rcdEdge).each fun _ _ h => h.verdictEdge).each fun _ _ h => h.injOff

theorem Acts.streamShow {n k} (hp : Within [.regs, .met] ps := by rfl) : Acts ps s (t.streamShow n k) :=
  h.via hp fun h => ((h.wrB (strStuck_sh _ _)).wrB (strTstale_sh _ _)).when fun _ h => h.modStream

theorem Acts.streamEdge {n} (hp : Within raising ps := by rfl) : Acts ps s (t.streamEdge n) :=
  h.via hp fun h => (((h.each fun _ _ h => (h.each fun _ _ h => h.streamShow).wrB).when fun _ h => h.modMetLane).when fun _ h =>
    h.raiseLane).next fun h => h.causeOff.causeOff.ite h

theorem Acts.strcntClear {n} (hp : Within [.regs] ps := by rfl) : Acts ps s (t.strcntClear n) :=
  h.via hp fun h => h.each fun _ _ h => h.wr (strCount_sh _ _)

theorem Acts.qcntClear {n} (hp : Within [.regs] ps := by rfl) : Acts ps s (t.qcntClear n) := h.via hp fun h => h.wr.wr

theorem Acts.accumulate {n} (hp : Within [.regs, .met] ps := by rfl) : Acts ps s (t.accumulate n) :=
  h.via hp fun h => (h.when fun _ h => h.modMetLane).ite ((h.wrB.wrB.wr.when fun _ h => h.sticky).when fun _ h =>
    h.count).modMetLane

theorem Acts.moveOne {n i} (hp : Within [.regs, .gold, .met] ps := by rfl) : Acts ps s (t.moveOne n i) :=
  h.via hp fun h => h.ite (h.wrCrit.modMetLane.ite h.sticky.modMetLane)

theorem Acts.transfer {n} (hp : Within [.regs, .gold, .met] ps := by rfl) : Acts ps s (t.transfer n) :=
  h.via hp fun h => h.modMetLane.each fun _ _ h => h.moveOne

theorem Acts.latchPhase {n} (hp : Within [.regs, .met] ps := by rfl) : Acts ps s (t.latchPhase n) :=
  h.via hp fun h => h.wrS.wrS.wrSat.wrSat.wrS.wrS.wrSat.next fun h => ((h.wrB.when fun _ h => h.wr).next fun h => h.ite
    h.modMetLane).ite h

theorem Acts.latchOutlet {n} (hp : Within [.regs] ps := by rfl) : Acts ps s (t.latchOutlet n) :=
  h.via hp fun h => h.wrS.wrS.wrSat

theorem Acts.latchPalc (hp : Within [.regs, .met] ps := by rfl) : Acts ps s t.latchPalc :=
  h.via hp fun h => h.each fun _ _ h => h.wr.ite h.wrS.modMetLane

theorem Acts.latchMeans {n} (hp : Within [.regs, .met] ps := by rfl) : Acts ps s (t.latchMeans n) :=
  h.via hp fun h => h.wrS.wrS.next fun h => (h.ite h.wrS).modMetLane

theorem Acts.tempCorrect {n k} (hp : Within [.regs, .met] ps := by rfl) : Acts ps s (t.tempCorrect n k) :=
  h.via hp fun h => (h.when fun _ h => h.wrS.wrS).next fun h => h.ite h.modStream

theorem Acts.modSens {m f} (hp : Within [.met] ps := by rfl) : Acts ps s (t.modSens m f) := h.modMet hp

theorem Acts.sensCause (hp : Within [.flt] ps := by rfl) : Acts ps s t.sensCause :=
  h.via hp fun h => h.when fun _ h => h.causeOff

theorem Acts.sensorRead {m r} (hp : Within [.regs, .flt, .met] ps := by rfl) : Acts ps s (t.sensorRead m r) :=
  h.via hp fun h => by
    unfold State.sensorRead
    split
    · exact h.wrB.wrB.wr.wr.modSens.sensCause
    · exact h.count.modSens.next fun h => h.wrB.sticky.ite h

theorem Acts.sensorsOff (hp : Within [.flt, .met] ps := by rfl) : Acts ps s t.sensorsOff :=
  h.via hp fun h => h.ite (h.each fun _ _ h => h.modSens).sensCause

theorem Acts.cableTemp {n} (hp : Within [.regs, .boot, .met] ps := by rfl) : Acts ps s (t.cableTemp n) :=
  h.via hp fun h => (h.modHead.ite h).wrS.wr.wrSat.modMetLane

theorem Acts.inletEnergy {n} (hp : Within [.regs, .met] ps := by rfl) : Acts ps s (t.inletEnergy n) :=
  h.via hp fun h => ((h.when fun _ h => h.count).when fun _ h => h.sticky).wrSat.modMetLane

theorem Acts.modPpo {k f} (hp : Within [.met] ps := by rfl) : Acts ps s (t.modPpo k f) := h.modMet hp

theorem Acts.ppoBack {k b} (hp : Within [.regs, .met] ps := by rfl) : Acts ps s (t.ppoBack k b) :=
  h.via hp fun h => (h.when fun _ h => h.stickyBit).modPpo.wrBit

theorem Acts.ppoFrame {k} (hp : Within [.regs, .met] ps := by rfl) : Acts ps s (t.ppoFrame k) :=
  h.via hp fun h => ((h.ite h.modPpo).next fun h => h.ite h.ppoBack).ite h

theorem Acts.ppoReset {k} (hp : Within [.regs, .met] ps := by rfl) : Acts ps s (t.ppoReset k) :=
  h.via hp fun h => h.modPpo.wrBit

theorem Acts.metLatch (hp : Within raising ps := by rfl) : Acts ps s t.metLatch :=
  h.via hp fun h => (((h.each fun _ _ h => h.streamEdge.accumulate).each fun _ _ h => h.latchPhase).each fun _ _ h =>
    h.latchOutlet).ite h

theorem Acts.metWork (hp : Within [.regs, .gold, .flt, .met] ps := by rfl) : Acts ps s t.metWork :=
  h.via hp fun h => ((h.each fun _ _ h => h.transfer).each fun _ _ h => h.each fun _ _ h => h.tempCorrect).sensorsOff

theorem Acts.metSecond (hp : Within [.regs, .boot, .met] ps := by rfl) : Acts ps s t.metSecond :=
  h.via hp fun h => (h.each fun _ _ h => h.latchMeans).each fun _ _ h => h.inletEnergy.cableTemp

end

/-! ## The commands -/

section
variable {s : State}

theorem runs_execCaptureArm : Runs [.regs, .met] s (execCaptureArm s) := .of fun h => h.capArm

theorem runs_execCaptureDisarm : Runs [.regs, .met] s (execCaptureDisarm s) := .of fun h => h.capDisarm

theorem runs_execCaptureRelease : Runs [.regs, .met] s (execCaptureRelease s) := .of fun h => h.capRelease

theorem runs_execCaptureSwtrig : Runs [.regs, .met] s (execCaptureSwtrig s) := .of fun h => h.capSwtrig

theorem runs_execCaptureDone : Runs [.regs] s (execCaptureDone s) := .of fun h => h.wr.sticky.ite h

theorem runs_execCaptureDataRead : Runs [.regs, .bus] s (execCaptureDataRead s) := .of fun h => h.modBus.capAdvance

theorem runs_execCaptureOvrClear : Runs [.regs] s (execCaptureOvrClear s) := .of fun h => h.wr

theorem runs_execInjectionChip : Runs [.regs, .gold, .boot, .efm] s (execInjectionChip s) :=
  .of fun h => ((h.efmCommit.each fun _ _ h => h.chipLane).each fun _ _ h => h.modEfmLane.ite h).modEfm.ite h

theorem runs_execEfWindowUpdate : Runs [.regs, .flt, .journal, .met, .pil, .swa, .saf, .efm] s (execEfWindowUpdate s) :=
  .of fun h => ((h.modEfm.each fun _ _ h => h.efLaneStep).each fun _ _ h => h.groupStep).ite h

theorem runs_execCableCheckPhaseEnd {n} :
    Runs [.regs, .flt, .journal, .met, .pil, .swa, .saf, .efm] s (execCableCheckPhaseEnd n s) := .of fun h => by
    split
    · dsimp only
      split
      · exact h.cableShow.cableStop.sticky.raiseOnce
      · exact h.cableShow.cableStop.sticky.decideExit
      · exact (h.cableShow.cableStop.when fun _ h => h.modEfmLane.warnShow).verdictPass
      · exact h.cableShow
    · exact h

theorem runs_execInjectionStepHalfEnd {n} : Runs [.boot, .efm] s (execInjectionStepHalfEnd n s) := .of fun h => by
    split
    · exact (h.modEfmLane.modHead.ite h.modEfmLane).ite h
    · exact h

theorem runs_execRcdTestOnEnd {n} : Runs [.regs, .swa, .efm] s (execRcdTestOnEnd n s) := .of fun h => by
    split
    · split
      · exact h.wr.modEfmLane.chanOff.ite h
      · exact h
    · exact h

theorem runs_execRcdTestOffEnd {n} :
    Runs [.regs, .flt, .journal, .met, .pil, .swa, .saf, .efm] s (execRcdTestOffEnd n s) := .of fun h => by
    split
    · exact (h.modEfmLane.wr.verdictPass.ite (h.rcdTestFailed.ite h.rcdTestStart)).ite h
    · exact h

theorem runs_execStrcntClear {n} : Runs [.regs] s (execStrcntClear n s) := .of fun h => h.strcntClear

theorem runs_execQcntClear {n} : Runs [.regs] s (execQcntClear n s) := .of fun h => h.qcntClear

theorem runs_execCalSealSet : Runs [.regs] s (execCalSealSet s) := .of fun h => h.wrB

theorem runs_execSensorBusScan {reads} : Runs [.regs, .flt, .met] s (execSensorBusScan reads s) :=
  .of fun h => (h.each fun _ _ h => h.sensorRead).wr.ite h

theorem runs_execSensorBusStuck : Runs [.regs] s (execSensorBusStuck s) := .of fun h => h.sticky

theorem runs_execSensorBusFault {m} : Runs [.regs, .flt, .journal, .met, .pil, .swa, .saf] s (execSensorBusFault m s) :=
  .of fun h => h.modSens.raiseDev.ite h

theorem runs_execProofPulse {k} : Runs [.regs, .met] s (execProofPulse k s) := .of fun h => h.ite h.modPpo.ppoBack

theorem runs_execProofPulseEnd {k} : Runs [.met] s (execProofPulseEnd k s) := .of fun h => h.modPpo.ite h

end

end Sys2Proof.Machine
end

