-- ==== Sys2Proof/Proofs/ReachBilling.lean ====
section
/-!
PROOFS. What billing, the wall clock, tamper events and the key store reach (files `Billing` to `Keys`).
-/

namespace Sys2Proof.Machine

open Sys2Proof

set_option Elab.async false

section
variable {ps : List Part} {s t : State} (h : Acts ps s t)
include h

theorem Acts.wallTick (hp : Within [.regs] ps := by rfl) : Acts ps s t.wallTick :=
  h.via hp fun h => (h.wr.countWrap.ite h.wr).ite h

theorem Acts.setGap {lane v} (hp : Within [.bil] ps := by rfl) : Acts ps s (t.setGap lane v) :=
  h.via hp fun h => h.modBil.ite h.modBilLane

theorem Acts.storeEntry {lane e} (hp : Within [.regs, .mem, .bil] ps := by rfl) : Acts ps s (t.storeEntry lane e) :=
  h.via hp fun h => h.count.setGap.ite h.memWrite.countWrap.setGap

theorem Acts.chainLane {n e} (hp : Within [.bil] ps := by rfl) : Acts ps s (t.chainLane n e) := h.modBilLane hp

theorem Acts.ledgerEntry {kind lane snum e} (hp : Within [.regs, .mem, .bil] ps := by rfl) :
    Acts ps s (t.ledgerEntry kind lane snum e) :=
  h.via hp fun h => (h.ite ((h.each fun _ _ h => h.chainLane).ite (h.chainLane.ite h))).storeEntry

theorem Acts.ledger {kind lane snum flags payload} (hp : Within [.regs, .mem, .bil] ps := by rfl) :
    Acts ps s (t.ledger kind lane snum flags payload) :=
  h.ledgerEntry hp

theorem Acts.ledgerAt {epoch kind lane snum flags payload} (hp : Within [.regs, .mem, .bil] ps := by rfl) :
    Acts ps s (t.ledgerAt epoch kind lane snum flags payload) :=
  h.ledgerEntry hp

theorem Acts.credit {n i c} (hp : Within [.regs, .gold, .bil] ps := by rfl) : Acts ps s (t.credit n i c) :=
  h.via hp fun h => h.ite ((h.wrCrit.next fun h => h.ite h.modBilLane).ite h.sticky.modBilLane)

theorem Acts.accrue {n} (hp : Within [.regs, .gold, .bil] ps := by rfl) : Acts ps s (t.accrue n) :=
  h.via hp fun h => h.credit.credit.next fun h => (h.credit.credit.credit.credit.ite h).modBilLane

theorem Acts.scrubPairs {n src now before atFault} (hp : Within raising ps := by rfl) :
    Acts ps s (t.scrubPairs n src now before atFault) :=
  h.via hp fun h => (h.when fun _ h => h.raiseLane).when fun _ h => h.sticky

theorem Acts.scrubEnergy {n} (hp : Within (raising ++ [.bil]) ps := by rfl) : Acts ps s (t.scrubEnergy n) :=
  h.via hp fun h => h.ite h.scrubPairs.scrubPairs.modMetLane.modBilLane

theorem Acts.pairUse (hp : Within raising ps := by rfl) : Acts ps s t.pairUse := h.via hp fun h => h.when fun _ h => h.raiseDev

theorem Acts.scrub (hp : Within (raising ++ [.bil]) ps := by rfl) : Acts ps s t.scrub :=
  h.via hp fun h => (h.pairUse.ite (h.when fun _ h => h.causeOff)).each fun _ _ h => h.scrubEnergy

theorem Acts.rebuild {n} (hp : Within [.regs, .gold, .flt, .mem, .met, .bil] ps := by rfl) : Acts ps s (t.rebuild n) :=
  h.via hp fun h => h.ite ((h.each fun _ _ h => h.wrCrit).each fun _ _ h =>
    h.credit).modBilLane.modMetLane.causeOff.causeOff.count.ledger

theorem Acts.openSession {n} (hp : Within [.regs, .gold, .bil, .thm] ps := by rfl) : Acts ps s (t.openSession n) :=
  h.via hp fun h => h.ite (h.modThm.wrB.wr.setWord.wr.wr.wr.each fun _ _ h => h.wrCrit).modBilLane

theorem Acts.chargeComplete {n} (hp : Within [.regs] ps := by rfl) : Acts ps s (t.chargeComplete n) :=
  h.via hp fun h => h.wrB.ite h

theorem Acts.closeSession {n cause} (hp : Within [.regs, .clk, .bil] ps := by rfl) : Acts ps s (t.closeSession n cause) :=
  h.via hp fun h => h.wrB.wr.modBilLane.modBil.imageFence.ite h

theorem Acts.writeClose {p} (hp : Within [.regs, .mem, .bil] ps := by rfl) : Acts ps s (t.writeClose p) :=
  h.via hp fun h => h.storeEntry.modBil

theorem Acts.closePeriod {passed byCmd} (hp : Within [.regs, .clk, .bil] ps := by rfl) :
    Acts ps s (t.closePeriod passed byCmd) :=
  h.via hp fun h => h.countWrap.sticky.modBil.imageFence

theorem Acts.periodStep (hp : Within [.regs, .clk, .bil] ps := by rfl) : Acts ps s t.periodStep :=
  h.via hp fun h => h.ite (h.modBil.next fun h => h.closePeriod.ite (h.closePeriod.ite h))

theorem Acts.writePeriod {p} (hp : Within [.regs, .mem, .bil] ps := by rfl) : Acts ps s (t.writePeriod p) :=
  h.via hp fun h => h.ledgerAt.foldl fun _ _ h => h.each fun _ _ h => h.ledgerAt

theorem Acts.writeFenced (hp : Within [.regs, .mem, .bil] ps := by rfl) : Acts ps s t.writeFenced :=
  h.via hp fun h => (h.modBil.foldl fun _ _ h => h.writeClose).foldl fun _ _ h => h.writePeriod

theorem Acts.wallRequest {sec ms} (hp : Within [.bil] ps := by rfl) : Acts ps s (t.wallRequest sec ms) :=
  h.via hp fun h => h.modBil.ite h

theorem Acts.logAdjust {oldSec oldMs newSec newMs delta wasInvalid} (hp : Within [.regs, .journal, .mem, .bil, .thm] ps := by
  rfl) :
    Acts ps s (t.logAdjust oldSec oldMs newSec newMs delta wasInvalid) :=
  h.via hp fun h => h.modThm.sticky.setJournal.ledger

theorem Acts.applyClock (hp : Within [.regs, .journal, .mem, .bil, .thm] ps := by rfl) : Acts ps s t.applyClock.2 :=
  h.via hp fun h => by
    unfold State.applyClock
    split
    · exact h
    · dsimp only
      split
      · exact h.modBil.wr.wr.wrB.wrS
      · exact h.modBil.wr.wr.wrB.wr.logAdjust

theorem Acts.billingClock (hp : Within [.regs] ps := by rfl) : Acts ps s t.billingClock := h.via hp fun h => h.wr.ite h

theorem Acts.pickRate (hp : Within [.regs, .journal, .bil] ps := by rfl) : Acts ps s t.pickRate.2 :=
  h.via hp fun h => (h.ite h.note).wr.wrB.wr.modBil

theorem Acts.openInterval {dst} (hp : Within [.bil] ps := by rfl) : Acts ps s (t.openInterval dst) := h.modBil hp

theorem Acts.selectRate (hp : Within [.regs, .journal, .bil] ps := by rfl) : Acts ps s t.selectRate :=
  h.via hp fun h => h.pickRate.openInterval

theorem Acts.takeCalendar (hp : Within (raising ++ [.bil]) ps := by rfl) : Acts ps s t.takeCalendar :=
  h.via hp fun h => (h.wrB.next fun h => h.wrB.modBil.ite h.raiseOnce).ite h

theorem Acts.closeInterval {oldSec per split} (hp : Within [.regs, .bil] ps := by rfl) :
    Acts ps s (t.closeInterval oldSec per split) :=
  h.via hp fun h => (h.when fun _ h => h.sticky).modBil

theorem Acts.tariffStep {tariff} (hp : Within (raising ++ [.clk, .mem, .bil, .thm]) ps := by rfl) :
    Acts ps s (t.tariffStep tariff) :=
  h.via hp fun h => ((h.applyClock.billingClock.when fun _ h => h.closeInterval).periodStep.when fun _ h => h.takeCalendar).next
    fun h => (h.selectRate.ite (h.pickRate.ite h)).wrB

theorem Acts.writeIntervals (hp : Within [.regs, .mem, .bil] ps := by rfl) : Acts ps s t.writeIntervals :=
  h.via hp fun h => by
    unfold State.writeIntervals
    split
    · exact h
    · exact (h.each fun _ _ h => (h.ledger.ite h).modBilLane).modBil

theorem Acts.writeSecond {n} (hp : Within [.regs, .mem, .met, .bil] ps := by rfl) : Acts ps s (t.writeSecond n) :=
  h.via hp fun h => (h.ledger.ite h).modBilLane.modMetLane

theorem Acts.bilSecond {overrun} (hp : Within [.regs, .clk, .bil] ps := by rfl) : Acts ps s (t.bilSecond overrun) :=
  h.via hp fun h => (h.each fun _ _ h => h.count.next fun h => h.count.count.ite h).modBil.modClk

theorem Acts.bilWork (hp : Within [.regs, .gold, .mem, .met, .bil] ps := by rfl) : Acts ps s t.bilWork :=
  h.via hp fun h => ((h.each fun _ _ h => h.accrue).when fun _ h => h.modBil).next fun h => ((h.each fun _ _ h =>
    h.writeSecond).modBil.ite h).writeIntervals.writeFenced

theorem Acts.saveStart {final} (hp : Within [.bil] ps := by rfl) : Acts ps s (t.saveStart final) :=
  h.via hp fun h => h.ite h.modBil

theorem Acts.saveEnd (hp : Within [.regs, .bil] ps := by rfl) : Acts ps s t.saveEnd :=
  h.via hp fun h => by
    unfold State.saveEnd
    split
    · exact h
    · exact h.wr.modBil

theorem Acts.newEpoch (hp : Within [.bil] ps := by rfl) : Acts ps s t.newEpoch := h.via hp fun h => h.modBil.ite h

theorem Acts.applyEpoch (hp : Within [.regs, .gold, .flt, .mem, .bil] ps := by rfl) : Acts ps s t.applyEpoch :=
  h.via hp fun h => (h.modBil.each fun _ _ h => (h.each fun _ _ h => h.wrCrit).each fun _ _ h =>
    h.wrCrit).countWrap.wrB.ledger.causeOff.saveStart.ite h

theorem Acts.unsaved {img n} (hp : Within [.regs, .mem, .bil] ps := by rfl) : Acts ps s (t.unsaved img n) :=
  h.via hp fun h => h.wrBit.modBilLane.ledger

theorem Acts.restore (hp : Within (raising ++ [.gold, .mem, .bil]) ps := by rfl) : Acts ps s t.restore :=
  h.via hp fun h => by
    unfold State.restore
    split
    · exact h.wrB.raiseDev
    · exact (((h.foldl fun _ _ h => (by split; exacts [h.ite h.putWord, h])).foldl fun _ _ h => h.modMetLane).foldl fun _ _ h =>
      h.modBilLane).wr.wr.wr.wrB.modBil.next fun h => h.ite (h.each fun _ _ h => h.unsaved).sticky

theorem Acts.powerLossClose (hp : Within [.regs, .clk, .bil] ps := by rfl) : Acts ps s t.powerLossClose :=
  h.via hp fun h => h.each fun _ _ h => h.closeSession

theorem Acts.tamperEntry {src active dark} (hp : Within [.regs, .thm] ps := by rfl) :
    Acts ps s (t.tamperEntry src active dark) :=
  h.via hp fun h => h.modThm.when fun _ h => h.count

theorem Acts.tamperCfgChange (hp : Within [.regs, .thm] ps := by rfl) : Acts ps s t.tamperCfgChange := h.tamperEntry hp

theorem Acts.tamperEvent {i active} (hp : Within [.regs, .journal, .thm] ps := by rfl) : Acts ps s (t.tamperEvent i active) :=
  h.via hp fun h => h.wrBit.tamperEntry.stickyBit.setJournal

theorem Acts.tamperSample {pins} (hp : Within [.regs, .journal, .thm] ps := by rfl) : Acts ps s (t.tamperSample pins).2 :=
  h.via hp fun h => (h.each fun _ _ h => h.tamperEvent).modThm

theorem Acts.journalAdvance (hp : Within [.regs] ps := by rfl) : Acts ps s t.journalAdvance :=
  h.via hp fun h => h.wr.countWrap.ite h.countWrap

theorem Acts.modKey {f} (hp : Within [.key] ps := by rfl) : Acts ps s (t.modKey f) := h.setKey hp

theorem Acts.random {k} (hp : Within [.key] ps := by rfl) : Acts ps s (t.random k).2 := h.modKey hp

theorem Acts.seedDrbg {entropy} (hp : Within [.key] ps := by rfl) : Acts ps s (t.seedDrbg entropy) := h.modKey hp

theorem Acts.createRoot {samples} (hp : Within [.regs, .key] ps := by rfl) : Acts ps s (t.createRoot samples) :=
  h.via hp fun h => h.modKey.wrB.wr.ite h

theorem Acts.showSlot {n} (hp : Within [.regs] ps := by rfl) : Acts ps s (t.showSlot n) := h.via hp fun h => h.wr.wr.wr.wr.wr

theorem Acts.showSlots (hp : Within [.regs] ps := by rfl) : Acts ps s t.showSlots :=
  h.via hp fun h => h.each fun _ _ h => h.showSlot

theorem Acts.judgeSlot {n} (hp : Within raising ps := by rfl) : Acts ps s (t.judgeSlot n) :=
  h.via hp fun h => h.showSlot.next fun h => h.sticky.raiseDev.ite h

theorem Acts.checkTags (hp : Within raising ps := by rfl) : Acts ps s t.checkTags :=
  h.via hp fun h => h.each fun _ _ h => h.judgeSlot

theorem Acts.tagsEnd (hp : Within [.flt] ps := by rfl) : Acts ps s t.tagsEnd := h.via hp fun h => h.when fun _ h => h.causeOff

theorem Acts.fillOther {m n x} (hp : Within [.key] ps := by rfl) : Acts ps s (t.fillOther m n x) := h.modKey hp

theorem Acts.writeSlots {ws} (hp : Within [.regs, .flt, .key] ps := by rfl) : Acts ps s (t.writeSlots ws) :=
  h.via hp fun h => (((h.foldl fun _ _ h => h.fillOther).foldl fun _ _ h => h.wrBit).each fun _ _ h => h.showSlot).tagsEnd

theorem Acts.keyErr {e} (hp : Within [.regs, .key] ps := by rfl) : Acts ps s (t.keyErr e) := h.via hp fun h => h.modKey.wr.wrB

theorem Acts.showPub {bs} (hp : Within [.regs] ps := by rfl) : Acts ps s (t.showPub bs) := h.via hp fun h => h.wr.wr

theorem Acts.keyPub {slot} (hp : Within (raising ++ [.key]) ps := by rfl) : Acts ps s (t.keyPub slot) :=
  h.via hp fun h => by
    refine h.showPub.keyErr.ite (h.keyErr.ite (h.judgeSlot.keyErr.ite (h.keyErr.ite ?_)))
    split
    · exact h.showPub.keyErr
    · exact h.keyErr

theorem Acts.keyNewBill (hp : Within [.regs, .key] ps := by rfl) : Acts ps s t.keyNewBill :=
  h.via hp fun h => h.wr.keyErr.ite h.keyErr

theorem Acts.keyRun {r} (hp : Within [.regs, .key] ps := by rfl) : Acts ps s (t.keyRun r) := h.via hp fun h => h.modKey.wrB

theorem Acts.keyGo (hp : Within (raising ++ [.key]) ps := by rfl) : Acts ps s t.keyGo :=
  h.via hp fun h => by
    refine h.ite ?_
    dsimp only
    split
    · exact h.keyErr.ite (h.keyErr.ite h.keyRun)
    · exact h.keyErr.ite (h.keyErr.ite h.keyRun)
    · exact h.keyErr.ite (h.keyErr.ite h.keyRun)
    · exact h.keyPub
    · exact h.keyNewBill
    · exact h.keyErr.ite (h.keyErr.ite h.keyRun)
    · exact h.keyErr

theorem Acts.resealEnd (hp : Within [.regs, .key] ps := by rfl) : Acts ps s t.resealEnd :=
  h.via hp fun h => (h.foldl fun _ _ h => h.fillOther).wr.wrB.wr.keyErr

theorem Acts.keyDone (hp : Within [.regs, .flt, .key] ps := by rfl) : Acts ps s t.keyDone :=
  h.via hp fun h => by
    unfold State.keyDone
    split
    · exact h
    · split
      · dsimp only
        exact (by split; exacts [h.random.writeSlots.showPub, h.random.writeSlots] : Acts _ _ _).keyErr
      · split
        · exact h.writeSlots.keyErr
        · exact h.keyErr
      · exact h.writeSlots.keyErr
      · exact h.resealEnd
      · exact h.keyErr

theorem Acts.keyCmd {op use bind typ slot} (hp : Within (raising ++ [.key]) ps := by rfl) :
    Acts ps s (t.keyCmd op use bind typ slot) :=
  h.via hp fun h => h.ite h.wr.wr.wr.wr.wr.keyGo

theorem Acts.sealActivate (hp : Within [.regs] ps := by rfl) : Acts ps s t.sealActivate :=
  h.via hp fun h => h.wr.wr.wrB.wrB.showSlots.ite h

theorem Acts.sealRollback (hp : Within [.regs] ps := by rfl) : Acts ps s t.sealRollback :=
  h.via hp fun h => h.wr.wr.wrB.showSlots.ite h

theorem Acts.sealConfirm (hp : Within [.regs] ps := by rfl) : Acts ps s t.sealConfirm := h.via hp fun h => h.wr.wrB.ite h

theorem Acts.sealAbort (hp : Within raising ps := by rfl) : Acts ps s t.sealAbort :=
  h.via hp fun h => h.wr.wrB.sticky.raiseOnce.ite h

theorem Acts.zeroise (hp : Within (raising ++ [.key]) ps := by rfl) : Acts ps s t.zeroise :=
  h.via hp fun h => by
    unfold State.zeroise
    exact (h.modKey.wr.wr.wrB.count.sticky.raiseOnce.showSlots.tagsEnd.when fun _ h => h.each fun _ _ h => h.modPilLane).when
      fun _ h => h.keyErr

end

/-! ## The commands -/

section
variable {s : State}

theorem runs_execLedgerLostClear : Runs [.regs] s (execLedgerLostClear s) := .of fun h => h.wr

theorem runs_execBillingRebuild : Runs [.regs, .gold, .flt, .mem, .met, .bil] s (execBillingRebuild s) := .of fun h => h.rebuild

theorem runs_execPeriodCloseCommand : Runs [.bil] s (execPeriodCloseCommand s) := .of fun h => h.modBil

theorem runs_execPeriodClose : Runs [.regs, .clk, .bil] s (execPeriodClose s) := .of fun h => h.periodStep

theorem runs_execClosingFenceTimeout : Runs [.regs, .clk] s (execClosingFenceTimeout s) := .of fun h => h.fenceGo.ite h

theorem runs_execWallTimeSet {sec ms} : Runs [.bil] s (execWallTimeSet sec ms s) := .of fun h => h.wallRequest

theorem runs_execHamperSaveDone : Runs [.regs, .bil] s (execHamperSaveDone s) := .of fun h => by
    split
    · exact h.ite h.saveEnd.modBil
    · exact h

theorem runs_execHamperFinalSaveDone {us} : Runs [.regs, .bil] s (execHamperFinalSaveDone us s) := .of fun h => by
    split
    · exact h.saveEnd.wrSat.sticky.ite h
    · exact h

theorem runs_execNewRegisterEpoch : Runs [.bil] s (execNewRegisterEpoch s) := .of fun h => h.newEpoch

theorem runs_execJournalDataRead : Runs [.regs, .bus] s (execJournalDataRead s) := .of fun h => h.modBus.journalAdvance

theorem runs_execDrbgReseed {entropy} : Runs [.key] s (execDrbgReseed entropy s) := .of fun h => h.seedDrbg.ite h

theorem runs_execKeyCommandDone : Runs [.regs, .flt, .key] s (execKeyCommandDone s) := .of fun h => h.keyDone

theorem runs_execKeyGen {use bind typ slot} :
    Runs [.regs, .flt, .journal, .met, .pil, .swa, .saf, .key] s (execKeyGen use bind typ slot s) :=
  .of fun h => h.keyCmd

theorem runs_execKeyImport {use bind typ slot addr} :
    Runs [.regs, .flt, .journal, .met, .pil, .swa, .saf, .key] s (execKeyImport use bind typ slot addr s) :=
  .of fun h => h.wr.keyCmd

theorem runs_execKeyErase {slot} : Runs [.regs, .flt, .journal, .met, .pil, .swa, .saf, .key] s (execKeyErase slot s) :=
  .of fun h => h.keyCmd

theorem runs_execKeyPub {slot} : Runs [.regs, .flt, .journal, .met, .pil, .swa, .saf, .key] s (execKeyPub slot s) :=
  .of fun h => h.keyCmd

theorem runs_execKeyNewbill : Runs [.regs, .flt, .journal, .met, .pil, .swa, .saf, .key] s (execKeyNewbill s) :=
  .of fun h => h.keyCmd

theorem runs_execKeyReseal : Runs [.regs, .flt, .journal, .met, .pil, .swa, .saf, .key] s (execKeyReseal s) :=
  .of fun h => h.keyCmd

theorem runs_execZeroise : Runs [.regs, .flt, .journal, .met, .pil, .swa, .saf, .key] s (execZeroise s) :=
  .of fun h => h.zeroise

theorem runs_execTamperSample {pins} :
    Runs [.regs, .flt, .journal, .met, .thm, .pil, .swa, .saf, .key] s (execTamperSample pins s) :=
  .of fun h => (h.tamperSample.next fun h => h.zeroise.ite h).ite h

theorem runs_execSessionSignDone {n} : Runs [.regs, .mem, .bil] s (execSessionSignDone n s) := .of fun h => by
    split
    · exact h
    · exact h.ledger.ledger.modBil

end

end Sys2Proof.Machine
end

