-- ==== Sys2Proof/Proofs/ReachPilot.lean ====
section
/-!
PROOFS. What the control pilot and the sessions reach (files `Pilot` and `Session`).
-/

namespace Sys2Proof.Machine

open Sys2Proof

set_option Elab.async false

section
variable {ps : List Part} {s t : State} (h : Acts ps s t)
include h

theorem Acts.pilotChoose {n} (hp : Within [.regs, .pil] ps := by rfl) : Acts ps s (t.pilotChoose n) :=
  h.via hp fun h => h.modPilLane.wr.wrB.wrB.wrSat.wr

theorem Acts.pilotHit {n} (hp : Within [.regs, .met] ps := by rfl) : Acts ps s (t.pilotHit n) :=
  h.via hp fun h => h.when fun _ h => h.capEvent

theorem Acts.pilotQuiet {n st} (hp : Within [.regs, .met, .pil] ps := by rfl) : Acts ps s (t.pilotQuiet n st) :=
  h.via hp fun h => (h.when fun _ h => h.pilotHit).wr.wr.wr.wrB.modPilLane

theorem Acts.pilotClassify {n} (hp : Within [.regs, .met, .pil] ps := by rfl) : Acts ps s (t.pilotClassify n) :=
  h.via hp fun h => by
    unfold State.pilotClassify
    dsimp only
    split
    · exact h.pilotQuiet
    · exact h.pilotQuiet
    · exact (h.wr.wr.when fun _ h => h.wrB).modPilLane.ite h

theorem Acts.pilotFault {n evt} (hp : Within raising ps := by rfl) : Acts ps s (t.pilotFault n evt) :=
  h.via hp fun h => h.sticky.raiseLane.decideExit

theorem Acts.pilotTake {n} (hp : Within raising ps := by rfl) : Acts ps s (t.pilotTake n) :=
  h.via hp fun h => (h.wr.pilotHit.when fun _ h => h.modPilLane.when fun _ h => h.decideExit).when fun _ h => h.pilotFault

theorem Acts.ppOff {n} (hp : Within [.regs, .pil] ps := by rfl) : Acts ps s (t.ppOff n) := h.via hp fun h => h.wr.wr.modPilLane

theorem Acts.pilotOff {n} (hp : Within [.regs, .pil] ps := by rfl) : Acts ps s (t.pilotOff n) :=
  h.via hp fun h => h.wr.wr.wrB.modPilLane

theorem Acts.ppEdge {n} (hp : Within [.regs, .pil] ps := by rfl) : Acts ps s (t.ppEdge n) :=
  h.via hp fun h => h.wrSat.modPilLane.ite h.ppOff

theorem Acts.ppBad {n} (hp : Within raising ps := by rfl) : Acts ps s (t.ppBad n) :=
  h.via hp fun h => h.sticky.raiseLane.decideExit

theorem Acts.ppTake {n} (hp : Within raising ps := by rfl) : Acts ps s (t.ppTake n) :=
  h.via hp fun h => h.wr.next fun h => (h.modPilLane.ite h.modPilLane.ppBad).ite h

theorem Acts.pilotCauses {n} (hp : Within raising ps := by rfl) : Acts ps s (t.pilotCauses n) :=
  h.via hp fun h => (((h.when fun _ h => h.pilotFault).when fun _ h => h.causeOff).when fun _ h => h.causeOff).when fun _ h =>
    h.ppBad

theorem Acts.openSess {n} (hp : Within [.regs, .gold, .bil, .thm, .pil] ps := by rfl) : Acts ps s (t.openSess n) :=
  h.via hp fun h => (h.openSession.wr.wrB.wr.wr.wr.setWord.setWord.wr.each fun _ _ h => h.wr).modPilLane

theorem Acts.closeSess {n} (hp : Within [.regs, .clk, .bil, .pil] ps := by rfl) : Acts ps s (t.closeSess n) :=
  h.via hp fun h => (h.when fun _ h => h.count).closeSession.wr.verdictReset.modPilLane.ite h

theorem Acts.sessComplete {n} (hp : Within [.regs] ps := by rfl) : Acts ps s (t.sessComplete n) :=
  h.via hp fun h => h.chargeComplete.wrB.ite h

theorem Acts.unlockMove {n} (hp : Within [.regs, .swa] ps := by rfl) : Acts ps s (t.unlockMove n) :=
  h.via hp fun h => h.lockMove.ite h

theorem Acts.leaveStep {n new} (hp : Within [.regs, .swa, .efm] ps := by rfl) : Acts ps s (t.leaveStep n new) :=
  h.via hp fun h => (h.when fun _ h => h.cableStop).when fun _ h => h.lockDrop

theorem Acts.bindHeld {n} (hp : Within [.regs, .pil] ps := by rfl) : Acts ps s (t.bindHeld n) :=
  h.via hp fun h => by
    unfold State.bindHeld
    dsimp only
    split
    · exact h.modPil.wr.wr.wr.modPilLane
    · exact h

theorem Acts.acceptAuth {n path result cls} (hp : Within [.regs, .pil] ps := by rfl) :
    Acts ps s (t.acceptAuth n path result cls) :=
  h.via hp fun h => h.wr.wr.wr.wr.modPilLane

theorem Acts.enterAuthorise {n} (hp : Within [.regs, .pil] ps := by rfl) : Acts ps s (t.enterAuthorise n) :=
  h.via hp fun h => h.modPilLane.next fun h => h.acceptAuth.ite h.bindHeld

theorem Acts.entryAct {n k} (hp : Within (raising ++ [.gold, .clk, .bil, .thm, .efm]) ps := by rfl) :
    Acts ps s (t.entryAct n k) :=
  h.via hp fun h => by
    unfold State.entryAct
    split
    · exact h.closeSess
    · exact h.closeSess.unlockMove.when fun _ h => h.rcdTestStart
    · exact h.openSess
    · exact h.wr.wr.modPilLane
    · exact h.enterAuthorise
    · exact h.when fun _ h => h.lockMove
    · exact h.cableStart
    · exact h.modPilLane
    · exact h.modPilLane
    · exact h.modPilLane
    · exact h.when fun _ h => h.lockMove
    · exact ((h.when fun _ h => h.sessComplete).when fun _ h => h.closeSess).unlockMove
    · exact h

theorem Acts.enterStep {n k} (hp : Within (raising ++ [.gold, .clk, .bil, .thm, .efm]) ps := by rfl) :
    Acts ps s (t.enterStep n k) :=
  h.via hp fun h => (h.leaveStep.wr.sticky.note.wr.modPilLane.when fun _ h => h.dropClose).entryAct

theorem Acts.recordCause {n c} (hp : Within [.regs] ps := by rfl) : Acts ps s (t.recordCause n c) :=
  h.via hp fun h => h.wr.sticky.ite h

theorem Acts.orderlyExit {n c} (hp : Within (raising ++ [.gold, .clk, .bil, .thm, .efm]) ps := by rfl) :
    Acts ps s (t.orderlyExit n c) :=
  h.via hp fun h => (h.closeSess.next fun h => h.ite h.enterStep).ite (h.modPilLane.next fun h => h.enterStep.ite h.enterStep)

theorem Acts.normalStep {n} (hp : Within (raising ++ [.gold, .clk, .bil, .thm, .efm]) ps := by rfl) :
    Acts ps s (t.normalStep n) :=
  h.via hp fun h => by
    unfold State.normalStep
    split
    · exact h.enterStep
    · exact h

theorem Acts.exitStep {n dec} (hp : Within (raising ++ [.gold, .clk, .bil, .thm, .efm]) ps := by rfl) :
    Acts ps s (t.exitStep n dec) :=
  h.via hp fun h => h.recordCause.next fun h => h.enterStep.ite (h.orderlyExit.ite (h.enterStep.ite (h.enterStep.ite
    h.normalStep)))

theorem Acts.laneOff {n} (hp : Within (raising ++ [.gold, .clk, .bil, .thm, .efm]) ps := by rfl) : Acts ps s (t.laneOff n) :=
  h.via hp fun h => h.recordCause.closeSess.next fun h => (h.ite h.enterStep).ppOff.pilotOff.modPilLane

theorem Acts.stepLane {n} (hp : Within (raising ++ [.gold, .clk, .bil, .thm, .efm]) ps := by rfl) : Acts ps s (t.stepLane n) :=
  h.via hp fun h => h.laneOff.ite ((h.ite h.enterStep).ite (h.modPilLane.next fun h => ((h.when fun _ h => h.closeSess).next fun
    h => h.modPilLane.ite h.normalStep).ite ((h.exitStep.when fun _ h => h.closeSess).ite (h.closeSess.enterStep.ite
    (h.enterStep.ite (h.when fun _ h => h.closeSess).normalStep)))))

theorem Acts.firmwareStop {n} (hp : Within [.regs, .pil, .swa] ps := by rfl) : Acts ps s (t.firmwareStop n) :=
  h.via hp fun h => h.decideExit.ite h

theorem Acts.demand {n} (hp : Within [.regs] ps := by rfl) : Acts ps s (t.demand n) :=
  h.via hp fun h => h.wrSat.wrSat.wrSat.wrSat.wrSat.wrSat

theorem Acts.closeEdge {n} (hp : Within [.regs, .pil, .swa] ps := by rfl) : Acts ps s (t.closeEdge n) :=
  h.via hp fun h => h.modPilLane.wrB.request.ite (h.dropClose.ite h)

theorem Acts.faultedUnlock {n} (hp : Within [.regs, .pil, .swa] ps := by rfl) : Acts ps s (t.faultedUnlock n) :=
  h.via hp fun h => h.modPilLane.lockMove.ite h

theorem Acts.sessTimes {n} (hp : Within [.regs, .pil] ps := by rfl) : Acts ps s (t.sessTimes n) :=
  h.via hp fun h => h.modPilLane.wrB.wrB.wrSat

theorem Acts.sessionEdge {n} (hp : Within (raising ++ [.gold, .clk, .bil, .thm, .efm]) ps := by rfl) :
    Acts ps s (t.sessionEdge n) :=
  h.via hp fun h => h.modPilLane.ppEdge.pilotClassify.pilotCauses.sessTimes.stepLane.closeEdge.faultedUnlock.demand

end

/-! ## The commands -/

section
variable {s : State}

theorem runs_execPilotPeriodStart {n high low} : Runs [.regs, .pil, .pins] s (execPilotPeriodStart n high low s) :=
  .of fun h => h.ite ((h.when fun _ h => h.wrS.modPins).when fun _ h => h.wrS).modPilLane

theorem runs_execPilotStateDebounced {n} :
    Runs [.regs, .flt, .journal, .met, .pil, .swa, .saf] s (execPilotStateDebounced n s) :=
  .of fun h => h.pilotTake.ite h

theorem runs_execDiodeFault {n} : Runs [.regs, .flt, .journal, .met, .pil, .swa, .saf] s (execDiodeFault n s) :=
  .of fun h => h.wrB.pilotFault.ite h

theorem runs_execProximityDebounced {n} : Runs [.regs, .flt, .journal, .met, .pil, .swa, .saf] s (execProximityDebounced n s) :=
  .of fun h => h.ppTake.ite h

theorem runs_execProximityOpenDecision {n} :
    Runs [.regs, .flt, .journal, .met, .pil, .swa, .saf] s (execProximityOpenDecision n s) :=
  .of fun h => h.modPilLane.ppBad.ite h

theorem runs_execStepTimeout {n} : Runs [.regs, .pil, .swa] s (execStepTimeout n s) :=
  .of fun h => (h.modPilLane.dropClose.ite (h.when fun _ h => h.wr).decideExit).ite h

theorem runs_execSuspendStopTimeout {n} : Runs [.regs, .pil, .swa] s (execSuspendStopTimeout n s) := .of fun h => by
    split
    · exact h.modPilLane.dropClose.ite h
    · exact h

theorem runs_execIdleBTimeout {n} : Runs [.regs] s (execIdleBTimeout n s) := .of fun h => by
    split
    · exact h.sessComplete.ite h
    · exact h

theorem runs_execFaultedHoldEnd {n} : Runs [.pil] s (execFaultedHoldEnd n s) := .of fun h => h.modPilLane.ite h

theorem runs_execFirmwareStop {n} : Runs [.regs, .pil, .swa] s (execFirmwareStop n s) := .of fun h => h.firmwareStop

theorem runs_execRemoteStop {n} : Runs [.regs, .pil, .swa] s (execRemoteStop n s) := .of fun h => h.decideExit.ite h

theorem runs_execXcntClear {n c} : Runs [.regs] s (execXcntClear n c s) := .of fun h => h.wr

end

end Sys2Proof.Machine
end

