-- ==== Sys2Proof/Proofs/ReachAllocation.lean ====
section
/-!
PROOFS. What the allocator, the service cluster and the display reach (files `Allocation` to `Display`).
-/

namespace Sys2Proof.Machine

open Sys2Proof

set_option Elab.async false

section
variable {ps : List Part} {s t : State} (h : Acts ps s t)
include h

theorem Acts.modAlc {f} (hp : Within [.alc] ps := by rfl) : Acts ps s (t.modAlc f) := h.setAlc hp

theorem Acts.modMember {d f} (hp : Within [.alc] ps := by rfl) : Acts ps s (t.modMember d f) := h.modAlc hp

theorem Acts.modUp {j f} (hp : Within [.alc] ps := by rfl) : Acts ps s (t.modUp j f) := h.modAlc hp

theorem Acts.takeMember {x} (hp : Within [.alc] ps := by rfl) : Acts ps s (t.takeMember x) := h.modMember hp

theorem Acts.takeChild {x} (hp : Within [.alc] ps := by rfl) : Acts ps s (t.takeChild x) := h.modUp hp

theorem Acts.sendHeadcount (hp : Within [.alc] ps := by rfl) : Acts ps s t.sendHeadcount :=
  h.via hp fun h => (h.foldl fun _ _ h => h.takeChild).modAlc

theorem Acts.dupDevice {d} (hp : Within (raising ++ [.alc]) ps := by rfl) : Acts ps s (t.dupDevice d) :=
  h.via hp fun h => h.modMember.when fun _ h => h.raiseOnce

theorem Acts.hcTake {eth x} (hp : Within (raising ++ [.alc]) ps := by rfl) : Acts ps s (t.hcTake eth x) :=
  h.via hp fun h => by
    refine h.ite ((h.takeChild.ite h).ite ?_)
    exact (by split; exacts [h.countWrap, h] : Acts _ _ _).ite (h.dupDevice.ite (h.takeMember.ite h))

theorem Acts.showTable {ms} (hp : Within [.regs] ps := by rfl) : Acts ps s (t.showTable ms) :=
  h.via hp fun h => (h.foldl fun _ _ h => (by split; exacts [h.wr.wr.wr, h.wr.wr.wr])).wr

theorem Acts.iset {n g} (hp : Within [.freeCtr] ps := by rfl) : Acts ps s (t.iset n g).2 :=
  h.via hp fun h => by
    unfold State.iset
    dsimp only
    split
    · exact h.draw
    · exact h

theorem Acts.shareGroup {grant apply g} (hp : Within [.freeCtr] ps := by rfl) : Acts ps s (t.shareGroup grant apply g).2.2 :=
  h.via hp fun h => h.foldOver (p := Prod.snd) rfl fun r x _ h => by
    dsimp only
    split
    · exact h
    · exact h.iset

theorem Acts.computeLeaf {ms} (hp : Within [.alc] ps := by rfl) : Acts ps s (t.computeLeaf ms).2.2.2.2 :=
  h.via hp fun h => by
    unfold State.computeLeaf
    dsimp only
    exact h.modAlc

theorem Acts.computeModules {r} (hp : Within [.freeCtr] ps := by rfl) : Acts ps s (t.computeModules r).2 :=
  h.via hp fun h => by
    unfold State.computeModules
    refine h.foldOver (p := Prod.snd) rfl fun _ _ _ h => ?_
    dsimp only
    exact h.shareGroup

theorem Acts.settleChildren {j} (hp : Within [.alc] ps := by rfl) : Acts ps s (t.settleChildren j) := h.modUp hp

theorem Acts.computeParent {j} (hp : Within [.regs, .alc] ps := by rfl) : Acts ps s (t.computeParent j) :=
  h.via hp fun h => by
    unfold State.computeParent
    exact ((h.when fun _ h => h.sticky).when fun _ h => h.sticky).modUp.modAlc

theorem Acts.confirmStep {bad} (hp : Within [.boot, .flt] ps := by rfl) : Acts ps s (t.confirmStep bad) :=
  h.via hp fun h => h.modBoot.ite ((h.modBoot.ite (h.modBoot.next fun h => h.causeOff.modBoot.ite h)).ite h)

theorem Acts.cutoff (hp : Within (raising ++ [.boot, .alc, .freeCtr]) ps := by rfl) : Acts ps s t.cutoff :=
  h.via hp fun h => by
    unfold State.cutoff
    extract_lets ver absent ms odd part joint me dupMe offZone service verMe s1 s2 s3 s4 s5 s6 repNext
    have hfound : Acts _ t s6 := (((h.when fun _ h => h.sticky.raiseOnce).when fun _ h => h.sticky).next fun h =>
      ((h.raiseDev.ite (h.causeOff.ite h)).wrB.when fun _ h => h.sticky).showTable.confirmStep)
    have hleaf := hfound.computeLeaf (ms := ms)
    split
    next res nexts sums overs s7 hs7 =>
      rw [hs7] at hleaf
      extract_lets s8 s9
      have hmods : Acts _ t (s9.computeModules res).2 := ((hleaf.when fun _ h => h.sticky).when fun _ h =>
        h.sticky).computeModules
      split
      next res s10 hs10 =>
        rw [hs10] at hmods
        exact ((hmods.modAlc.each fun _ _ h => h.settleChildren).each fun _ _ h => h.computeParent).modAlc

theorem Acts.canSend {f} (hp : Within [.regs, .lnk, .freeCtr] ps := by rfl) : Acts ps s (t.canSend f) :=
  h.via hp fun h => by
    unfold State.canSend
    dsimp only
    exact h.inject.setLnk.ite h.setLnk

theorem Acts.sendSetpoint {p} (hp : Within [.regs, .boot, .lnk, .freeCtr] ps := by rfl) : Acts ps s (t.sendSetpoint p) :=
  h.via hp fun h => h.ite (h.canSend.modModule.wr.wr.ite h.setLnk)

theorem Acts.computed {us r} (hp : Within [.regs, .gold, .boot, .alc, .lnk, .freeCtr] ps := by rfl) :
    Acts ps s (t.computed us r) :=
  h.via hp fun h => (((h.each fun _ _ h => h.wrCrit.setWord.wrB.wrB).each fun _ _ h =>
    h.wrB.wrSat).wrSat.wrSat.wrSat.wr.setLnk.foldl fun _ _ h => h.sendSetpoint).modAlc

theorem Acts.launchLane {n} (hp : Within [.regs, .gold] ps := by rfl) : Acts ps s (t.launchLane n) :=
  h.via hp fun h => h.wrCrit.wrB.ite h.wrCrit.wrB

theorem Acts.overran {f} (hsh : f.sh = 0 := by rfl) (hp : Within raising ps := by rfl) : Acts ps s (t.overran f) :=
  h.via hp fun h => (h.count hsh).raiseOnce

theorem Acts.applyGrants (hp : Within (raising ++ [.gold, .clk]) ps := by rfl) : Acts ps s t.applyGrants :=
  h.via hp fun h => by
    refine (h.overran.modClk.next fun h => (h.each fun _ _ h => h.wrCrit).ite h).ite ?_
    dsimp only
    split
    · exact (h.modClk.each fun _ _ h => h.launchLane).wr
    · exact h.modClk.each fun _ _ h => h.launchLane

theorem Acts.lateSetpoints (hp : Within [.regs, .lnk] ps := by rfl) : Acts ps s t.lateSetpoints :=
  h.via hp fun h => (h.each fun _ _ h => h.sticky).setLnk

theorem Acts.launch (hp : Within (raising ++ [.gold, .clk, .alc, .lnk]) ps := by rfl) : Acts ps s t.launch :=
  h.via hp fun h => h.applyGrants.lateSetpoints.modAlc.wrB.latchPalc.next fun h => h.takeMember.ite h

theorem Acts.modClu {f} (hp : Within [.clu] ps := by rfl) : Acts ps s (t.modClu f) := h.setClu hp

theorem Acts.modLine {line f} (hp : Within [.clu] ps := by rfl) : Acts ps s (t.modLine line f) := h.modClu hp

theorem Acts.writeBack {line bs} (hp : Within [.mem, .clu] ps := by rfl) : Acts ps s (t.writeBack line bs) :=
  h.via hp fun h => h.memWrite.modLine

theorem Acts.grantCore {line c own} (hp : Within [.clu] ps := by rfl) : Acts ps s (t.grantCore line c own) :=
  h.via hp fun h => h.modClu.ite h.modLine.modClu

theorem Acts.bankUse {a} (hp : Within [.clu] ps := by rfl) : Acts ps s (t.bankUse a) := h.modClu hp

theorem Acts.cluEdge (hp : Within [.regs, .clu] ps := by rfl) : Acts ps s t.cluEdge := h.via hp fun h => h.wr.wrSat.modClu

theorem Acts.eccAt {wh addr} (hp : Within [.regs] ps := by rfl) : Acts ps s (t.eccAt wh addr) := h.via hp fun h => h.wr.wr

theorem Acts.eccClear (hp : Within [.regs] ps := by rfl) : Acts ps s t.eccClear := h.via hp fun h => h.wr.wr

theorem Acts.extStart (hp : Within [.regs, .clu] ps := by rfl) : Acts ps s t.extStart := h.via hp fun h => h.wrB.wrB.modClu

theorem Acts.extStop (hp : Within [.regs, .clu] ps := by rfl) : Acts ps s t.extStop := h.via hp fun h => h.wrB.wrB.modClu

theorem Acts.modDpy {f} (hp : Within [.dpy] ps := by rfl) : Acts ps s (t.modDpy f) := h.setDpy hp

theorem Acts.displayOn (hp : Within [.regs, .dpy] ps := by rfl) : Acts ps s t.displayOn :=
  h.via hp fun h => by
    refine h.ite ?_
    split
    · exact h.wr.modDpy
    · exact h.modDpy
    · exact h.wr.modDpy
    · exact h

theorem Acts.displayOff (hp : Within [.regs, .dpy] ps := by rfl) : Acts ps s t.displayOff :=
  h.via hp fun h => by
    unfold State.displayOff
    split
    · exact h.wr.modDpy
    · exact h.wr.modDpy
    · exact h.wr.modDpy
    · exact h.wr.modDpy
    · exact h

theorem Acts.dpyPowerFail (hp : Within [.regs, .dpy] ps := by rfl) : Acts ps s t.dpyPowerFail :=
  h.via hp fun h => h.wr.sticky.modDpy.ite h

theorem Acts.latchFrame (hp : Within [.regs, .gold, .dpy] ps := by rfl) : Acts ps s t.latchFrame :=
  h.via hp fun h => h.wrCrit.modDpy

theorem Acts.refCheck {bad} (hp : Within (raising ++ [.dpy]) ps := by rfl) : Acts ps s (t.refCheck bad) :=
  h.via hp fun h => h.modDpy.next fun h => h.sticky.raiseOnce.displayOff.ite h

theorem Acts.frameSent (hp : Within [.regs] ps := by rfl) : Acts ps s t.frameSent := h.via hp fun h => h.countWrap

theorem Acts.panelStart {bad} (hp : Within (raising ++ [.gold, .dpy]) ps := by rfl) : Acts ps s (t.panelStart bad) :=
  h.via hp fun h => by
    unfold State.panelStart
    split
    · exact h.latchFrame.wr.frameSent.ite h
    · exact h.latchFrame.wr.modDpy.frameSent.refCheck
    · exact h.latchFrame.frameSent.refCheck
    · exact h.ite h.latchFrame.frameSent.modDpy
    · exact h

theorem Acts.glassStart (hp : Within [.regs, .gold, .dpy] ps := by rfl) : Acts ps s t.glassStart :=
  h.via hp fun h => h.ite (h.wrCrit.wr.modDpy.ite h).modDpy.frameSent

end

/-! ## The commands -/

section
variable {s : State}

theorem runs_execAllocationCutoff :
    Runs [.regs, .boot, .flt, .journal, .met, .pil, .swa, .saf, .alc, .freeCtr] s (execAllocationCutoff s) :=
  .of fun h => h.cutoff.ite h

theorem runs_execAllocationComputed {us} :
    Runs [.regs, .gold, .boot, .alc, .lnk, .freeCtr] s (execAllocationComputed us s) := .of fun h => by
    split
    · exact h.computed
    · exact h

theorem runs_execStreamLost {n} : Runs [.regs, .gold, .flt, .journal, .met, .pil, .swa, .saf] s (execStreamLost n s) :=
  .of fun h => (((h.raiseLane.each fun _ _ h => h.sticky).each fun _ _ h => h.modStream).next fun h => h.causeOff.ite
    h.wrCrit.wrB).ite h

theorem runs_execDischargeCommand {n on} : Runs [.pil] s (execDischargeCommand n on s) := .of fun h => h.modPilLane.ite h

theorem runs_execCoherenceRequest {line wb reqs owns} :
    Runs [.mem, .clu] s (execCoherenceRequest line wb reqs owns s) := .of fun h => by
    dsimp only
    exact (by split; exacts [h.modClu.writeBack, h.modClu] : Acts _ _ _).each fun _ _ h => h.grantCore

theorem runs_execMemoryScrub {errs} : Runs [.regs, .flt, .journal, .met, .pil, .swa, .saf] s (execMemoryScrub errs s) :=
  .of fun h => h.foldl fun _ _ h => h.eccAt.sticky.count.raiseOnce

theorem runs_execMemoryEccError {wh addr} :
    Runs [.regs, .flt, .journal, .met, .pil, .swa, .saf, .clu] s (execMemoryEccError wh addr s) :=
  .of fun h => h.eccAt.sticky.count.modClu.raiseOnce

theorem runs_execEccCntClear : Runs [.regs] s (execEccCntClear s) := .of fun h => h.eccClear

theorem runs_execExtensionStop : Runs [.regs, .clu] s (execExtensionStop s) := .of fun h => h.extStop

theorem runs_execExtensionSliceEnd {used} : Runs [.regs, .clu] s (execExtensionSliceEnd used s) :=
  .of fun h => h.wr.modClu.ite h

theorem runs_execSandboxViolation {a} :
    Runs [.regs, .flt, .journal, .met, .pil, .swa, .saf, .clu] s (execSandboxViolation a s) :=
  .of fun h => (h.sticky.wr.raiseOnce.modClu.next fun h => h.extStop.ite h).ite h

theorem runs_execDisplayOn : Runs [.regs, .dpy] s (execDisplayOn s) := .of fun h => h.displayOn

theorem runs_execDisplayOff : Runs [.regs, .dpy] s (execDisplayOff s) := .of fun h => h.displayOff

theorem runs_execDisplayRailStep : Runs [.regs, .dpy] s (execDisplayRailStep s) :=
  .of fun h => h.ite (h.modDpy.ite ((h.modDpy.next fun h => (h.wr.modDpy.next fun h => h.displayOn.ite h).ite h).ite h))

theorem runs_execDisplayFrameStart {badRefs} :
    Runs [.regs, .gold, .flt, .journal, .met, .pil, .swa, .saf, .dpy] s (execDisplayFrameStart badRefs s) :=
  .of fun h => h.panelStart.ite (h.glassStart.ite h)

end

end Sys2Proof.Machine
end

