-- ==== Sys2Proof/Proofs/ReachVehicle.lean ====
section
/-!
PROOFS. What the messages of the vehicle, the readers, the service tag and a start of the core die reach (files `Vehicle` to
`Warm`).
-/

namespace Sys2Proof.Machine

open Sys2Proof

set_option Elab.async false

section
variable {ps : List Part} {s t : State} (h : Acts ps s t)
include h

theorem Acts.answer {n m r} (hp : Within [.pil] ps := by rfl) : Acts ps s (t.answer n m r) := h.modPilLane hp

theorem Acts.modemRx {n rx} (hp : Within [.regs] ps := by rfl) : Acts ps s (t.modemRx n rx) :=
  h.via hp fun h => h.wr.count.ite h

theorem Acts.slacAnswer {n m r} (hp : Within [.pil] ps := by rfl) : Acts ps s (t.slacAnswer n m r) := h.modPilLane hp

theorem Acts.slacJudge {r n} (hp : Within [.regs, .pil] ps := by rfl) : Acts ps s (t.slacJudge r n) :=
  h.via hp fun h => h.wr.wr.wrB.next fun h => h.modPilLane.slacAnswer.ite h.modPilLane.count

theorem Acts.runEnd {r} (hp : Within [.regs, .pil] ps := by rfl) : Acts ps s (t.runEnd r) :=
  h.via hp fun h => h.modPil.each fun _ _ h => h.slacJudge

theorem Acts.soundsEdge (hp : Within [.regs, .pil] ps := by rfl) : Acts ps s t.soundsEdge :=
  h.via hp fun h => h.foldl fun _ _ h => h.runEnd

theorem Acts.message {l m qs kind f} (hf : ∀ u, Acts ps s u → Acts ps s (f u)) (hregs : Within [.regs] ps := by rfl)
    (hpil : Within [.pil] ps := by rfl) : Acts ps s (t.message l m qs kind f) :=
  (h.modemRx hregs).next fun h => ((hf _ h).ite (h.answer hpil)).ite h

theorem Acts.protoError {n m} (hp : Within [.regs, .pil, .swa] ps := by rfl) : Acts ps s (t.protoError n m) :=
  h.via hp fun h => h.answer.decideExit

theorem Acts.contractPath {n} (hp : Within [.regs, .pil] ps := by rfl) : Acts ps s (t.contractPath n).1 :=
  h.via hp fun h => by
    unfold State.contractPath
    split
    · exact h.wr.wr.modPilLane
    · exact h

theorem Acts.takeService {n code m} (hp : Within [.regs, .pil] ps := by rfl) : Acts ps s (t.takeService n code m) :=
  h.via hp fun h => h.wr.modPilLane.answer

theorem Acts.takeEv {n ev} (hp : Within [.regs, .pil] ps := by rfl) : Acts ps s (t.takeEv n ev) :=
  h.via hp fun h => by
    unfold State.takeEv
    extract_lets put1 s1 s2 num
    have hput : ∀ {u i hi lo v}, Acts [.regs, .pil] t u → Acts [.regs, .pil] t (put1 u i hi lo v) := fun h => by
      dsimp only [put1]
      split
      · exact h.wr
      · exact h
    have h1 : Acts _ t s1 := hput (hput (hput (hput h)))
    refine Acts.modPilLane ?_
    dsimp only [s2]
    split
    · exact h1.wr
    · exact h1

theorem Acts.limitReply {n m} (hp : Within [.pil, .freeCtr] ps := by rfl) : Acts ps s (t.limitReply n m) :=
  h.via hp fun h => (h.draw.modPilLane.ite h.modPilLane).ite h.modPilLane

theorem Acts.valueMessage {l m qs kind ev} (hp : Within [.regs, .pil, .freeCtr] ps := by rfl) :
    Acts ps s (t.valueMessage l m qs kind ev) :=
  h.via hp fun h => h.message fun _ h => h.takeEv.limitReply

theorem Acts.scheduleReply {n} (hp : Within [.pil] ps := by rfl) : Acts ps s (t.scheduleReply n) :=
  h.via hp fun h => h.modPilLane.ite h

theorem Acts.cableReply {n} (hp : Within [.pil] ps := by rfl) : Acts ps s (t.cableReply n) := h.answer hp

theorem Acts.weldMessage {n ended} (hp : Within [.pil] ps := by rfl) : Acts ps s (t.weldMessage n ended) :=
  h.via hp fun h => h.modPilLane.answer

theorem Acts.takeBo {n ev} (hp : Within [.pil] ps := by rfl) : Acts ps s (t.takeBo n ev) := h.modPilLane hp

theorem Acts.rejectAuth {n} (hp : Within [.regs, .pil, .swa] ps := by rfl) : Acts ps s (t.rejectAuth n) :=
  h.via hp fun h => h.wr.decideExit

theorem Acts.authOk {n} (hp : Within [.regs, .pil] ps := by rfl) : Acts ps s (t.authOk n) :=
  h.via hp fun h => h.acceptAuth.ite h

theorem Acts.authNo {n} (hp : Within [.regs, .pil, .swa] ps := by rfl) : Acts ps s (t.authNo n) :=
  h.via hp fun h => h.wr.wr.rejectAuth.ite h

theorem Acts.cardRead {k uid} (hp : Within [.regs, .pil, .swa] ps := by rfl) : Acts ps s (t.cardRead k uid) :=
  h.via hp fun h => by
    unfold State.cardRead
    split
    · exact h.decideExit
    · split
      · exact h.wr.wr.wr.modPilLane
      · exact h.modPil

theorem Acts.modNfc {f} (hp : Within [.nfc] ps := by rfl) : Acts ps s (t.modNfc f) := h.setNfc hp

theorem Acts.modReader {k f} (hp : Within [.nfc] ps := by rfl) : Acts ps s (t.modReader k f) := h.modNfc hp

theorem Acts.setRdr {k st} (hp : Within [.regs] ps := by rfl) : Acts ps s (t.setRdr k st) := h.via hp fun h => h.wr

theorem Acts.antEnd (hp : Within [.flt] ps := by rfl) : Acts ps s t.antEnd := h.via hp fun h => h.causeOff.ite h

theorem Acts.antCheck {k inRange} (hp : Within (raising ++ [.nfc]) ps := by rfl) : Acts ps s (t.antCheck k inRange) :=
  h.via hp fun h => h.modReader.antEnd.ite (h.modReader.next fun h => h.sticky.raiseDev.ite h)

theorem Acts.moveBase {k reading base} (hp : Within [.nfc] ps := by rfl) : Acts ps s (t.moveBase k reading base) := h.modReader hp

theorem Acts.pingStep {k reading base} (hp : Within [.regs, .swa, .nfc] ps := by rfl) : Acts ps s (t.pingStep k reading base) :=
  h.via hp fun h => by
    unfold State.pingStep
    dsimp only
    split
    · exact h.wr.setRdr.modReader.ite h.wr
    · exact h.wr.moveBase.modReader.ite (h.wr.modReader.ite h.wr.setRdr.modReader.modSwa)
    · exact h.wr.moveBase.ite h.wr
    · exact h.wr

theorem Acts.rebase {k} (hp : Within [.nfc] ps := by rfl) : Acts ps s (t.rebase k) := h.modReader hp

theorem Acts.carrierOff {k} (hp : Within [.regs, .swa, .nfc] ps := by rfl) : Acts ps s (t.carrierOff k) :=
  h.via hp fun h => h.setRdr.modReader.modSwa

theorem Acts.readerEdge {k} (hp : Within [.regs, .flt, .swa, .nfc] ps := by rfl) : Acts ps s (t.readerEdge k) :=
  h.via hp fun h => (h.ite h.setRdr.modReader.antEnd.modSwa).ite (h.setRdr.ite (h.setRdr.modReader.ite h))

theorem Acts.nfcEdge (hp : Within [.regs, .flt, .swa, .nfc] ps := by rfl) : Acts ps s t.nfcEdge :=
  h.via hp fun h => h.each fun _ _ h => h.readerEdge

theorem Acts.cardEnd {k} (hp : Within [.regs, .swa, .nfc] ps := by rfl) : Acts ps s (t.cardEnd k) :=
  h.via hp fun h => h.carrierOff.ite h

theorem Acts.readerCntClear {k} (hp : Within [.regs] ps := by rfl) : Acts ps s (t.readerCntClear k) := h.via hp fun h => h.wr.wr

theorem Acts.tagAnswer {r} (hp : Within [.nfc] ps := by rfl) : Acts ps s (t.tagAnswer r) := h.modNfc hp

theorem Acts.tagGuard {mv} (hp : Within [.regs] ps := by rfl) : Acts ps s (t.tagGuard mv).2 :=
  h.via hp fun h => by
    unfold State.tagGuard
    split
    · exact h
    · split
      · exact h
      · split
        · exact h.count
        · exact h

theorem Acts.tagCommit {len crc mv} (hp : Within [.regs, .thm, .nfc] ps := by rfl) : Acts ps s (t.tagCommit len crc mv) :=
  h.via hp fun h => by
    unfold State.tagCommit
    have hguard := h.tagGuard (mv := mv)
    split
    next e u hu =>
      rw [hu] at hguard
      exact hguard.tagAnswer
    next u hu =>
      rw [hu] at hguard
      exact (hguard.wrB.wr.sticky.next fun h => h.tamperEntry.modNfc.tagAnswer).ite hguard.tagAnswer

theorem Acts.harvest (hp : Within [.nfc] ps := by rfl) : Acts ps s t.harvest := h.modNfc hp

theorem Acts.keepConns {u} (hp : Within [.saf] ps := by rfl) : Acts ps s (t.keepConns u) := h.modSaf hp

omit h in
theorem wfFrom_keepWord (m : RegFile) (lo : Option Nat) (hm : wfFrom resetWord lo m = true) :
    wfFrom resetWord lo (m.filterMap keepWord) = true := by
  induction m generalizing lo with
  | nil => rfl
  | cons e m ih =>
    obtain ⟨k, w⟩ := e
    simp only [wfFrom, Bool.and_eq_true, decide_eq_true_eq] at hm
    obtain ⟨⟨hlo, -⟩, hm⟩ := hm
    have hrest := ih _ hm
    have hdrop : wfFrom resetWord lo (m.filterMap keepWord) = true := by
      cases lo with
      | none => exact wfFrom_none _ _ k hrest
      | some l => exact wfFrom_mono _ _ l k (Nat.le_of_lt (by simpa using hlo)) hrest
    unfold keepWord
    rw [List.filterMap_cons]
    dsimp only
    split
    next hnone => exact hdrop
    next x hsome =>
      split at hsome
      · cases hsome
      · split at hsome
        · cases hsome
        · cases hsome
          simp only [wfFrom, Bool.and_eq_true, decide_eq_true_eq]
          exact ⟨⟨hlo, by assumption⟩, hrest⟩

omit h in
theorem wfFrom_foldl_put (xs m : RegFile) (hm : wfFrom resetWord none m = true) :
    wfFrom resetWord none (xs.foldl (fun l r => put resetWord l r.1 r.2) m) = true := by
  induction xs generalizing m with
  | nil => exact hm
  | cons x xs ih => exact ih _ (wfFrom_put_none _ _ _ _ hm)

theorem Acts.reboot {cold} (hp : Within starting ps := by rfl) : Acts ps s (t.reboot cold) :=
  h.via hp fun h => by
    unfold State.reboot
    extract_lets maps boot fresh tag t0 t1 t2 t3 t4 t5 held
    have h0 : Acts _ t t0 := h.change (qs := starting) rfl
      (fun q hq => by
        cases q
        case freeCtr | pending => rfl
        all_goals exact absurd (by decide) hq)
      fun ⟨hregs, hgold, hmem⟩ =>
        ⟨wfFrom_foldl_put _ _ (wfFrom_keepWord _ _ hregs), wfFrom_keepWord _ _ hgold, by
          dsimp only [t0]
          split
          · rfl
          · exact hmem⟩
    have h5 : Acts _ t t5 :=
      h0.wr.wr.wr.wr.wr.wr.next fun h => (h.ite h.wr.wr).wrSet.next fun h => h.ite h.keepConns
    have hheld : ∀ f ∈ held, f.sh = 0 := by
      dsimp only [held]
      cases cold <;> decide
    exact h5.foldOver (p := id) rfl fun u f hf h => (h.safeEnter (hheld f hf)).ite h

theorem Acts.startUp {cold} (hp : Within starting ps := by rfl) : Acts ps s (t.startUp cold) :=
  h.via hp fun h => h.reboot.wr.checkTags.sealAbort.wr

theorem Acts.warmStart (hp : Within starting ps := by rfl) : Acts ps s t.warmStart := h.startUp hp

theorem Acts.powerFail (hp : Within [.bil] ps := by rfl) : Acts ps s t.powerFail := h.via hp fun h => h.saveStart.modBil

end

/-! ## The commands -/

section
variable {s : State}

theorem runs_execCmSlacParmReq {l mac run} : Runs [.regs, .pil] s (execCmSlacParmReq l mac run s) :=
  .of fun h => h.modemRx.next fun h => h.wrB.modPilLane.slacAnswer.ite h

theorem runs_execCmStartAttenCharInd {l mac run sounds} : Runs [.regs, .pil] s (execCmStartAttenCharInd l mac run sounds s) :=
  .of fun h => h.modemRx.next fun h => h.modPil.ite h

theorem runs_execCmMnbcSoundInd {mac run atten} : Runs [.regs, .pil] s (execCmMnbcSoundInd mac run atten s) := .of fun h => by
    dsimp only
    split
    · exact h.foldl fun _ _ h => h.modemRx
    · exact (h.foldl fun _ _ h => h.modemRx).runEnd.ite (h.foldl fun _ _ h => h.modemRx).modPil

theorem runs_execCmAttenCharRsp {l mac run} : Runs [.regs, .pil] s (execCmAttenCharRsp l mac run s) :=
  .of fun h => h.modemRx.next fun h => h.slacAnswer.ite h

theorem runs_execCmValidateReq {l mac toggles} : Runs [.regs, .pil] s (execCmValidateReq l mac toggles s) :=
  .of fun h => h.modemRx.next fun h => (h.wrB.slacAnswer.ite h.slacAnswer).ite h

theorem runs_execCmSlacMatchReq {l mac run} : Runs [.regs, .pil, .key] s (execCmSlacMatchReq l mac run s) :=
  .of fun h => h.modemRx.next fun h => (h.slacAnswer.ite h.random.wrB.wr.wr.modPilLane.slacAnswer).ite h

theorem runs_execSlacTimeout {n failed} : Runs [.regs, .pil, .swa] s (execSlacTimeout n failed s) :=
  .of fun h => ((h.sticky.next fun h => h.decideExit.ite h.modPilLane.wr).ite h.modPilLane).ite h

theorem runs_execSlacRetryResume {n} : Runs [.regs, .pil] s (execSlacRetryResume n s) := .of fun h => by
    split
    · exact h.modPilLane.count.wrB.ite h
    · exact h

theorem runs_execSdpRequest {l tls} : Runs [.regs, .pil] s (execSdpRequest l tls s) :=
  .of fun h => h.modemRx.next fun h => h.modPilLane.answer.ite h

theorem runs_execSupportedAppProtocol {l offers} :
    Runs [.regs, .pil, .swa] s (execSupportedAppProtocol l offers s) := .of fun h => by
    dsimp only
    exact (by split; exacts [h.modemRx.wr.answer, h.modemRx.protoError] : Acts _ _ _).ite h.modemRx

theorem runs_execSessionSetup {l} : Runs [.regs, .pil] s (execSessionSetup l s) :=
  .of fun h => h.message fun _ h => h.modPilLane.answer

theorem runs_execServiceDiscovery {l} : Runs [.regs, .pil] s (execServiceDiscovery l s) :=
  .of fun h => h.message fun _ h => h.answer

theorem runs_execServiceDetail {l certService} : Runs [.regs, .pil] s (execServiceDetail l certService s) :=
  .of fun h => h.message fun _ h => h.answer

theorem runs_execServicePaymentSelection {l svc contract} :
    Runs [.regs, .pil, .swa] s (execServicePaymentSelection l svc contract s) := .of fun h => by
    refine h.message fun _ h => ?_
    split
    · exact h.protoError
    · exact (h.contractPath.next fun h => h.takeService.ite h.answer).ite h.takeService

theorem runs_execServiceSelection {l svc} : Runs [.regs, .pil, .swa] s (execServiceSelection l svc s) := .of fun h => by
    refine h.message fun _ h => ?_
    split
    · exact h.protoError
    · exact h.takeService

theorem runs_execPaymentDetails {l} : Runs [.regs, .pil] s (execPaymentDetails l s) :=
  .of fun h => h.message fun _ h => h.answer

theorem runs_execContractAuthentication {l} : Runs [.regs, .pil] s (execContractAuthentication l s) :=
  .of fun h => h.message fun _ h => h.answer

theorem runs_execAuthorizationSetup {l} : Runs [.regs, .pil] s (execAuthorizationSetup l s) :=
  .of fun h => h.message fun _ h => h.answer

theorem runs_execAuthorization {l contract} : Runs [.regs, .pil] s (execAuthorization l contract s) :=
  .of fun h => h.message fun _ h => h.contractPath.answer.ite h.answer

theorem runs_execChargeParameterDiscovery {l ev} : Runs [.regs, .pil, .freeCtr] s (execChargeParameterDiscovery l ev s) :=
  .of fun h => h.message fun _ h => h.takeEv.limitReply.scheduleReply

theorem runs_execAcChargeParameterDiscovery {l ev} : Runs [.regs, .pil, .freeCtr] s (execAcChargeParameterDiscovery l ev s) :=
  .of fun h => h.valueMessage

theorem runs_execDcChargeParameterDiscovery {l ev} : Runs [.regs, .pil, .freeCtr] s (execDcChargeParameterDiscovery l ev s) :=
  .of fun h => h.valueMessage

theorem runs_execScheduleExchange {l dynamic ev} : Runs [.regs, .pil, .freeCtr] s (execScheduleExchange l dynamic ev s) :=
  .of fun h => h.message fun _ h => h.modPilLane.takeEv.limitReply

theorem runs_execCableCheck {l} : Runs [.regs, .pil] s (execCableCheck l s) := .of fun h => h.message fun _ h => h.cableReply

theorem runs_execDcCableCheck {l} : Runs [.regs, .pil] s (execDcCableCheck l s) :=
  .of fun h => h.message fun _ h => h.cableReply

theorem runs_execPreCharge {l ev} : Runs [.regs, .pil, .freeCtr] s (execPreCharge l ev s) := .of fun h => h.valueMessage

theorem runs_execDcPreCharge {l ev} : Runs [.regs, .pil, .freeCtr] s (execDcPreCharge l ev s) := .of fun h => h.valueMessage

theorem runs_execPowerDelivery {l start} : Runs [.regs, .pil, .swa] s (execPowerDelivery l start s) :=
  .of fun h => h.message fun _ h => h.modPilLane.answer.next fun h => h.decideExit.ite h

theorem runs_execCurrentDemand {l ev} : Runs [.regs, .pil, .freeCtr] s (execCurrentDemand l ev s) := .of fun h => h.valueMessage

theorem runs_execChargingStatus {l} : Runs [.regs, .pil, .freeCtr] s (execChargingStatus l s) :=
  .of fun h => h.message fun _ h => h.limitReply

theorem runs_execAcChargeLoop {l ev} : Runs [.regs, .pil, .freeCtr] s (execAcChargeLoop l ev s) := .of fun h => h.valueMessage

theorem runs_execDcChargeLoop {l ev} : Runs [.regs, .pil, .freeCtr] s (execDcChargeLoop l ev s) := .of fun h => h.valueMessage

theorem runs_execMeteringReceipt {l} : Runs [.regs, .pil] s (execMeteringReceipt l s) :=
  .of fun h => h.message fun _ h => h.answer

theorem runs_execMeteringConfirmation {l} : Runs [.regs, .pil] s (execMeteringConfirmation l s) :=
  .of fun h => h.message fun _ h => h.answer

theorem runs_execWeldingDetection {l ended} : Runs [.regs, .pil] s (execWeldingDetection l ended s) :=
  .of fun h => h.message fun _ h => h.weldMessage

theorem runs_execDcWeldingDetection {l ended} : Runs [.regs, .pil] s (execDcWeldingDetection l ended s) :=
  .of fun h => h.message fun _ h => h.weldMessage

theorem runs_execCertificateInstallation {l} : Runs [.regs, .pil] s (execCertificateInstallation l s) :=
  .of fun h => h.message fun _ h => h.answer

theorem runs_execCertificateUpdate {l} : Runs [.regs, .pil] s (execCertificateUpdate l s) :=
  .of fun h => h.message fun _ h => h.answer

theorem runs_execSessionStop {l} : Runs [.regs, .pil, .swa] s (execSessionStop l s) :=
  .of fun h => h.message fun _ h => h.answer.next fun h => h.decideExit.ite h

theorem runs_execRenegotiation {l} : Runs [.regs, .pil, .swa] s (execRenegotiation l s) :=
  .of fun h => h.modemRx.next fun h => h.protoError.ite h

theorem runs_execRemoteStart {n ev} : Runs [.regs, .pil] s (execRemoteStart n ev s) := .of fun h => h.acceptAuth.takeBo.ite h

theorem runs_execAuthDecision {n accept localList token ev} :
    Runs [.regs, .pil, .swa] s (execAuthDecision n accept localList token ev s) :=
  .of fun h => (h.acceptAuth.takeBo.ite h.rejectAuth).ite h

theorem runs_execAuthOk {n} : Runs [.regs, .pil] s (execAuthOk n s) := .of fun h => h.authOk

theorem runs_execAuthNo {n} : Runs [.regs, .pil, .swa] s (execAuthNo n s) := .of fun h => h.authNo

theorem runs_execCardHoldExpiry {k} : Runs [.pil] s (execCardHoldExpiry k s) := .of fun h => h.modPil

theorem runs_execReaderPing {k reading inRange} :
    Runs [.regs, .flt, .journal, .met, .pil, .swa, .saf, .nfc] s (execReaderPing k reading inRange s) :=
  .of fun h => (h.modReader.antCheck.next fun h => (by dsimp only; split; exacts [h.pingStep, h.modReader.pingStep])).ite h

theorem runs_execReaderRebase {k} : Runs [.nfc] s (execReaderRebase k s) := .of fun h => h.rebase

theorem runs_execReaderPoll {k} : Runs [.nfc] s (execReaderPoll k s) := .of fun h => h.modReader.ite h

theorem runs_execReaderPollTimeout {k} : Runs [.regs, .swa, .nfc] s (execReaderPollTimeout k s) :=
  .of fun h => h.count.carrierOff.ite h

theorem runs_execCardActivated {k typeB dep uid} : Runs [.regs, .pil, .swa, .nfc] s (execCardActivated k typeB dep uid s) :=
  .of fun h => h.wr.wr.wrB.wrB.sticky.count.setRdr.modReader.cardRead.ite h

theorem runs_execReaderFoff {k} : Runs [.regs, .swa, .nfc] s (execReaderFoff k s) := .of fun h => h.cardEnd

theorem runs_execReaderSessionTimeout {k} : Runs [.regs, .swa, .nfc] s (execReaderSessionTimeout k s) :=
  .of fun h => h.cardEnd.ite h

theorem runs_execReaderCardLoss {k} : Runs [.regs, .swa, .nfc] s (execReaderCardLoss k s) := .of fun h => h.cardEnd

theorem runs_execReaderCntClear {k} : Runs [.regs] s (execReaderCntClear k s) := .of fun h => h.readerCntClear

theorem runs_execTagInventory {maskLen mask slot} : Runs [.nfc] s (execTagInventory maskLen mask slot s) :=
  .of fun h => h.tagAnswer

theorem runs_execTagStayQuiet {ad} : Runs [.nfc] s (execTagStayQuiet ad s) := .of fun h => h.modNfc.tagAnswer.ite h.tagAnswer

theorem runs_execTagSelect {u} : Runs [.nfc] s (execTagSelect u s) :=
  .of fun h => h.tagAnswer.ite (h.modNfc.tagAnswer.ite h.modNfc.tagAnswer)

theorem runs_execTagResetToReady {ad} : Runs [.nfc] s (execTagResetToReady ad s) :=
  .of fun h => h.modNfc.tagAnswer.ite h.tagAnswer

theorem runs_execTagGetSystemInfo {ad} : Runs [.nfc] s (execTagGetSystemInfo ad s) := .of fun h => h.tagAnswer

theorem runs_execTagExtGetSystemInfo {ad} : Runs [.nfc] s (execTagExtGetSystemInfo ad s) := .of fun h => h.tagAnswer

theorem runs_execTagExtReadSingle {ad blk} : Runs [.nfc] s (execTagExtReadSingle ad blk s) := .of fun h => h.tagAnswer

theorem runs_execTagExtReadMultiple {ad blk cnt} : Runs [.nfc] s (execTagExtReadMultiple ad blk cnt s) :=
  .of fun h => h.tagAnswer

theorem runs_execTagCommit {ad len crc mv} : Runs [.regs, .thm, .nfc] s (execTagCommit ad len crc mv s) :=
  .of fun h => h.tagCommit.ite h.tagAnswer

theorem runs_execTagExtWriteSingle {ad blk data mv} : Runs [.regs, .thm, .nfc] s (execTagExtWriteSingle ad blk data mv s) :=
  .of fun h => by
    refine h.tagAnswer.ite (h.tagCommit.ite (h.tagAnswer.ite (h.tagAnswer.ite ?_)))
    have hguard := h.tagGuard (mv := mv)
    split
    next e u hu =>
      rw [hu] at hguard
      exact hguard.tagAnswer
    next u hu =>
      rw [hu] at hguard
      exact hguard.modNfc.wrB.tagAnswer

theorem runs_execTagFieldChange {present} : Runs [.regs, .nfc] s (execTagFieldChange present s) :=
  .of fun h => h.wrB.modNfc.next fun h => (h.ite h.modNfc).harvest

theorem runs_execResetCommand :
    Runs [.regs, .gold, .bus, .clk, .boot, .flt, .journal, .mem, .met, .bil, .thm, .pil, .swa, .pins, .saf, .efm, .key, .alc,
      .lnk, .upd, .sbu, .dma, .nfc, .dpy, .clu] s (execResetCommand s) :=
  .of fun h => h.warmStart

end

end Sys2Proof.Machine
end

