-- ==== Sys2Proof/Proofs/ReachHeads.lean ====
section
/-!
PROOFS. What heads, supplies, site time, updates and delivered messages reach (files `Heads` to `Messages`).
-/

namespace Sys2Proof.Machine

open Sys2Proof

set_option Elab.async false

section
variable {ps : List Part} {s t : State} (h : Acts ps s t)
include h

theorem Acts.portsOff {n} (hp : Within [.regs, .swa, .efm] ps := by rfl) : Acts ps s (t.portsOff n) :=
  h.via hp fun h => h.lockDrop.wr.wrB.efmHeadGone.each fun _ _ h => h.chanOff

theorem Acts.adaptShow (hp : Within [.regs] ps := by rfl) : Acts ps s t.adaptShow := h.via hp fun h => h.wrB

theorem Acts.headFail {n cause} (hp : Within (raising ++ [.gold, .clk, .boot, .bil, .thm, .efm]) ps := by rfl) :
    Acts ps s (t.headFail n cause) :=
  h.via hp fun h => h.modHead.adaptShow.wrBit.portsOff.laneOff.sticky.wr.wr.raiseLane

theorem Acts.adaptStart {n} (hp : Within [.regs, .boot, .efm] ps := by rfl) : Acts ps s (t.adaptStart n) :=
  h.via hp fun h => h.modHead.adaptShow.next fun h => h.injStart.ite h

theorem Acts.adaptJudge {n overs} (hp : Within [.regs, .boot, .efm] ps := by rfl) : Acts ps s (t.adaptJudge n overs) :=
  h.via hp fun h => by
    unfold State.adaptJudge
    split
    · exact h
    · exact h.ite (h.modHead.adaptShow.next fun h => h.injOff.ite h)

theorem Acts.adaptCommitLane {n} (hp : Within (raising ++ [.gold, .clk, .boot, .bil, .thm, .efm]) ps := by rfl) :
    Acts ps s (t.adaptCommitLane n) :=
  h.via hp fun h => by
    unfold State.adaptCommitLane
    dsimp only
    split
    · exact h
    · exact h.modHead.next fun h => h.headFail.ite (h.wrSat.when fun _ h => h.wrSat).modHead.wrBit.causeOff

theorem Acts.adaptCommit (hp : Within (raising ++ [.gold, .clk, .boot, .bil, .thm, .efm]) ps := by rfl) :
    Acts ps s t.adaptCommit :=
  h.via hp fun h => h.each fun _ _ h => h.adaptCommitLane

theorem Acts.adaptGo (hp : Within [.regs, .boot, .efm] ps := by rfl) : Acts ps s t.adaptGo :=
  h.via hp fun h => h.ite h.adaptStart

theorem Acts.headPresent {n serial} (hp : Within [.regs, .boot] ps := by rfl) : Acts ps s (t.headPresent n serial) :=
  h.via hp fun h => (h.when fun _ h => h.countWrap).wr.wrBit.wrB.modHead.verdictReset

theorem Acts.headClear {n} (hp : Within [.regs, .boot, .flt, .met, .swa, .efm] ps := by rfl) : Acts ps s (t.headClear n) :=
  h.via hp fun h => (h.modHead.adaptShow.wrBit.wrBit.each fun _ _ h => h.setWord).wr.wr.modMetLane.causeOff.wr.portsOff

theorem Acts.headAbsent {n} (hp : Within (raising ++ [.gold, .clk, .boot, .bil, .thm, .efm]) ps := by rfl) :
    Acts ps s (t.headAbsent n) :=
  h.via hp fun h => h.headClear.next fun h => (((h.when fun _ h => h.modPilLane).decideExit.ite h).when fun _ h =>
    h.raiseLane).laneOff

theorem Acts.probeOk {n x} (hp : Within (raising ++ [.gold, .clk, .boot, .bil, .thm, .efm]) ps := by rfl) :
    Acts ps s (t.probeOk n x) :=
  h.via hp fun h => (h.headAbsent.ite h).modHead.next fun h => h.headPresent.ite h

theorem Acts.probeFail {n} (hp : Within (raising ++ [.gold, .clk, .boot, .bil, .thm, .efm]) ps := by rfl) :
    Acts ps s (t.probeFail n) :=
  h.via hp fun h => h.headAbsent.ite h.modHead

theorem Acts.headCauses (hp : Within [.flt] ps := by rfl) : Acts ps s t.headCauses :=
  h.via hp fun h => h.each fun _ _ h => h.causeOff

theorem Acts.switchLost (hp : Within [.regs, .gold, .flt, .swa] ps := by rfl) : Acts ps s t.switchLost :=
  h.via hp fun h => ((h.setRegs (wfFrom_filter _ _ _ _)).setGold (wfFrom_filter _ _ _ _)).modSwa.each fun _ _ h => h.causeOff

theorem Acts.fieldOff (hp : Within (raising ++ [.gold, .clk, .boot, .bil, .thm, .efm, .nfc, .dpy]) ps := by rfl) :
    Acts ps s t.fieldOff :=
  h.via hp fun h => ((h.each fun _ _ h => h.chanOff).locksUnknown.each fun _ _ h => h.headClear.next fun h => (h.decideExit.ite
    h).laneOff).nfcEdge.modDpy.wr.modBoot.switchLost.modSaf.soShow

theorem Acts.clockRestart (hp : Within [.regs] ps := by rfl) : Acts ps s t.clockRestart := h.via hp fun h => h.wr.wr

theorem Acts.transferLost {x} (hp : Within [.bil, .saf] ps := by rfl) : Acts ps s (t.transferLost x) :=
  h.via hp fun h => by
    unfold State.transferLost
    split
    · exact h.modBil
    · exact h.modBil
    · exact h.modSaf

theorem Acts.setSync {st} (hp : Within [.regs, .clk] ps := by rfl) : Acts ps s (t.setSync st) :=
  h.via hp fun h => (h.when fun _ h => h.sticky).wr.modClk

theorem Acts.loadTime {ofs} (hp : Within [.regs, .clk] ps := by rfl) : Acts ps s (t.loadTime ofs).2 :=
  h.via hp fun h => by
    unfold State.loadTime
    split
    · exact h
    · exact h.wr.modClk

theorem Acts.syncResult {ofs} (hp : Within [.regs, .clk] ps := by rfl) : Acts ps s (t.syncResult ofs) :=
  h.via hp fun h => h.ite (h.loadTime.wr.modClk.next fun h => ((h.setSync.ite h).ite (h.setSync.ite h)).next fun h => h.ite
    h.modClk)

theorem Acts.setSource {src} (hp : Within [.regs, .clk] ps := by rfl) : Acts ps s (t.setSource src) :=
  h.via hp fun h => h.wr.modClk.next fun h => h.setSync.ite h

theorem Acts.fenceClose (hp : Within [.regs, .clk, .bil] ps := by rfl) : Acts ps s t.fenceClose :=
  h.via hp fun h => h.countWrap.modClk.modBil.ite h

theorem Acts.ovrClear (hp : Within [.regs] ps := by rfl) : Acts ps s t.ovrClear := h.via hp fun h => h.wr.wr.wr.wr

theorem Acts.stepDecide {allowed} (hp : Within [.regs, .clk] ps := by rfl) : Acts ps s (t.stepDecide allowed) :=
  h.via hp fun h => (h.when fun _ h => h.sticky).next fun h => h.modClk.ite h.modClk

theorem Acts.modUpd {f} (hp : Within [.upd] ps := by rfl) : Acts ps s (t.modUpd f) := h.setUpd hp

theorem Acts.setBank {v} (hp : Within [.regs, .upd] ps := by rfl) : Acts ps s (t.setBank v) := h.via hp fun h => h.modUpd.wr

theorem Acts.showNew {m1 m2 m3} (hp : Within [.regs] ps := by rfl) : Acts ps s (t.showNew m1 m2 m3) :=
  h.via hp fun h => h.wr.wr.wr

theorem Acts.eraseRuck (hp : Within [.regs, .upd] ps := by rfl) : Acts ps s t.eraseRuck :=
  h.via hp fun h => h.modUpd.showNew.setRegs (wfFrom_filter _ _ _ _)

theorem Acts.updOpen (hp : Within [.regs, .upd] ps := by rfl) : Acts ps s t.updOpen :=
  h.via hp fun h => h.sticky.ite h.eraseRuck.modUpd.setBank.wr

theorem Acts.takeBlock {i data} (hp : Within [.regs, .upd] ps := by rfl) : Acts ps s (t.takeBlock i data) :=
  h.via hp fun h => h.modUpd.wrBit.wr.next fun h => h.setBank.ite h

theorem Acts.updBlock {msg readBack} (hp : Within (raising ++ [.upd]) ps := by rfl) : Acts ps s (t.updBlock msg readBack) :=
  h.via hp fun h => h.count.ite (h.ite (h.count.ite (h.count.ite (h.takeBlock.ite h.raiseOnce))))

theorem Acts.blkGo {readBack} (hp : Within (raising ++ [.upd]) ps := by rfl) : Acts ps s (t.blkGo readBack) := h.updBlock hp

theorem Acts.updCntClear (hp : Within [.regs] ps := by rfl) : Acts ps s t.updCntClear := h.via hp fun h => h.wr.wr

theorem Acts.showRuck (hp : Within [.regs] ps := by rfl) : Acts ps s t.showRuck :=
  h.via hp fun h => by
    unfold State.showRuck
    split
    · exact h.showNew
    · exact h

theorem Acts.actTest (hp : Within [.regs, .clk, .bil, .upd] ps := by rfl) : Acts ps s t.actTest :=
  h.via hp fun h => h.wr.next fun h => h.wrB.setBank.fenceGo.saveStart.modUpd.ite h.wrB

theorem Acts.updAct (hp : Within [.upd] ps := by rfl) : Acts ps s t.updAct := h.via hp fun h => h.modUpd.ite h

theorem Acts.updCancel (hp : Within raising ps := by rfl) : Acts ps s t.updCancel := h.via hp fun h => h.wrB.sealAbort.ite h

theorem Acts.swapBanks (hp : Within [.regs, .upd] ps := by rfl) : Acts ps s t.swapBanks := h.via hp fun h => h.wr.modUpd

theorem Acts.activate (hp : Within starting ps := by rfl) : Acts ps s t.activate :=
  h.via hp fun h => h.saveEnd.swapBanks.wr.sealActivate.modUpd.setBank.warmStart

theorem Acts.updEdge (hp : Within starting ps := by rfl) : Acts ps s t.updEdge :=
  h.via hp fun h => by
    unfold State.updEdge
    dsimp only
    split
    · exact ((h.modUpd.modUpd.next fun h => h.actTest.ite h).ite h.modUpd).activate.ite ((h.modUpd.modUpd.next fun h =>
      h.actTest.ite h).ite h.modUpd)
    · exact (h.modUpd.modUpd.next fun h => h.actTest.ite h).ite h.modUpd

theorem Acts.updConfirm (hp : Within [.upd] ps := by rfl) : Acts ps s t.updConfirm := h.via hp fun h => h.modUpd.ite h

theorem Acts.confirmEdge (hp : Within [.regs, .upd] ps := by rfl) : Acts ps s t.confirmEdge :=
  h.via hp fun h => (h.modUpd.next fun h => h.sealConfirm.wr.wr.showRuck.modUpd.setBank.ite h).ite h

theorem Acts.rollback (hp : Within starting ps := by rfl) : Acts ps s t.rollback :=
  h.via hp fun h => h.swapBanks.wr.sealRollback.modUpd.setBank.warmStart.sticky.raiseOnce

theorem Acts.pduAll {k bs} (hp : Within raising ps := by rfl) : Acts ps s (Machine.pduAll k bs t) := by
  induction k generalizing t bs with
  | zero => exact h
  | succ k ih =>
    unfold Machine.pduAll
    refine h.ite (ih ?_)
    split
    · exact h.pduTake hp
    · exact h

theorem Acts.deliver {proto msg} (hp : Within (raising ++ [.alc, .upd]) ps := by rfl) : Acts ps s (t.deliver proto msg) :=
  h.via hp fun h => by
    unfold State.deliver
    split
    · split
      · exact h.hcTake
      · exact h
    · exact h.pduAll
    · exact h.updBlock
    · exact h

end

/-! ## The commands -/

section
variable {s : State}

theorem runs_execLaneAdaptDone {n} : Runs [.regs, .boot, .efm] s (execLaneAdaptDone n s) := .of fun h => h.adaptJudge

theorem runs_execLaneAdaptGo : Runs [.regs, .boot, .efm] s (execLaneAdaptGo s) := .of fun h => h.adaptGo

theorem runs_execHeadRollCallDone {n ident answers} :
    Runs [.regs, .gold, .clk, .boot, .flt, .journal, .met, .bil, .thm, .pil, .swa, .saf, .efm] s (execHeadRollCallDone n ident
      answers s) :=
  .of fun h => (h.modHead.next fun h => h.headFail.ite (h.modHead.wr.next fun h => h.adaptStart.ite h)).ite h

theorem runs_execHeadProbe {n serial} :
    Runs [.regs, .gold, .clk, .boot, .flt, .journal, .met, .bil, .thm, .pil, .swa, .saf, .efm] s (execHeadProbe n serial s) :=
  .of fun h => (by split; exacts [h.probeOk, h.probeFail] : Acts _ _ _).ite h

theorem runs_execHeadSensorRead {n reading} : Runs [.regs, .boot] s (execHeadSensorRead n reading s) :=
  .of fun h => (h.modHead.next fun h => (by split; exacts [h.wrB.wrB.wr.modHead, h.modHead.next fun h => h.wrB.ite h])).ite h

theorem runs_execFieldSupplyLoss :
    Runs [.regs, .gold, .clk, .boot, .flt, .journal, .met, .bil, .thm, .pil, .swa, .saf, .efm, .nfc, .dpy] s
      (execFieldSupplyLoss s) :=
  .of fun h => h.modBoot.raiseDev.raiseDev.raiseDev.withdrawClose.withdrawUnlock.fieldOff.ite h

theorem runs_execFieldSupplyReturn : Runs [.clk, .boot, .flt] s (execFieldSupplyReturn s) :=
  .of fun h => h.ite h.modBoot.modClk.causeOff.causeOff.causeOff

theorem runs_execCoreSupplyLoss :
    Runs [.regs, .gold, .bus, .clk, .boot, .flt, .journal, .mem, .met, .bil, .thm, .pil, .swa, .pins, .saf, .efm, .key, .alc,
      .lnk, .upd, .sbu, .dma, .nfc, .dpy, .clu] s (execCoreSupplyLoss s) :=
  .of fun h => h.reboot.modBoot

theorem runs_execThermosToVbak : Runs [.regs, .thm] s (execThermosToVbak s) :=
  .of fun h => (h.wr.modThm.next fun h => h.ite h.wrB.modThm).ite h

theorem runs_execThermosToIo33 : Runs [.regs, .thm] s (execThermosToIo33 s) :=
  .of fun h => h.modThm.next fun h => h.clockRestart.ite h

theorem runs_execThermosSupplyLoss : Runs [.regs, .thm] s (execThermosSupplyLoss s) :=
  .of fun h => h.modThm.next fun h => h.ite h.wrB.modThm

theorem runs_execThermosSupplyReturn : Runs [.regs, .thm] s (execThermosSupplyReturn s) :=
  .of fun h => h.modThm.next fun h => h.clockRestart.ite h

theorem runs_execInternalLinkTransfer {link crcGood} :
    Runs [.regs, .flt, .journal, .met, .bil, .pil, .swa, .saf] s (execInternalLinkTransfer link crcGood s) := .of fun h => by
    refine h.ite ?_
    dsimp only
    split
    · exact h.transferLost.raiseOnce
    · exact h.transferLost.raiseOnce.modSaf.consentRefresh
    · exact h.transferLost.raiseOnce.modSaf.consentRefresh
    · exact h.transferLost.raiseOnce
    · exact h.transferLost

theorem runs_execPowerFailWarning : Runs [.regs, .bil, .dpy] s (execPowerFailWarning s) :=
  .of fun h => h.powerFail.dpyPowerFail.ite h

theorem runs_execSyncResult {offset} : Runs [.regs, .clk] s (execSyncResult offset s) := .of fun h => h.syncResult

theorem runs_execSyncResultTimeout : Runs [.regs, .clk] s (execSyncResultTimeout s) := .of fun h => h.setSync.ite h

theorem runs_execHoldoverExpiry : Runs [.regs, .clk] s (execHoldoverExpiry s) := .of fun h => h.setSync.ite h

theorem runs_execFenceGo : Runs [.regs, .clk] s (execFenceGo s) := .of fun h => h.fenceGo

theorem runs_execOverrunClear : Runs [.regs] s (execOverrunClear s) := .of fun h => h.ovrClear

theorem runs_execUpdateOpen : Runs [.regs, .upd] s (execUpdateOpen s) := .of fun h => h.updOpen

theorem runs_execUpdateBlock {msg readBack} :
    Runs [.regs, .flt, .journal, .met, .pil, .swa, .saf, .upd] s (execUpdateBlock msg readBack s) :=
  .of fun h => h.updBlock

theorem runs_execUpdateBlockGo {readBack} :
    Runs [.regs, .flt, .journal, .met, .pil, .swa, .saf, .upd] s (execUpdateBlockGo readBack s) :=
  .of fun h => h.blkGo

theorem runs_execUpdateCntClear : Runs [.regs] s (execUpdateCntClear s) := .of fun h => h.updCntClear

theorem runs_execVerifyDone : Runs [.regs, .flt, .journal, .met, .pil, .swa, .saf, .upd] s (execVerifyDone s) :=
  .of fun h => (h.wr.next fun h => h.modUpd.showRuck.setBank.ite h.sticky.raiseOnce.eraseRuck.setBank).ite h

theorem runs_execUpdateAct : Runs [.upd] s (execUpdateAct s) := .of fun h => h.updAct

theorem runs_execUpdateCancel : Runs [.regs, .flt, .journal, .met, .pil, .swa, .saf] s (execUpdateCancel s) :=
  .of fun h => h.updCancel

theorem runs_execIdleWindow : Runs [.regs, .clk, .bil, .upd] s (execIdleWindow s) := .of fun h => h.actTest.ite h

theorem runs_execUpdateConfirm : Runs [.upd] s (execUpdateConfirm s) := .of fun h => h.updConfirm

theorem runs_execConfirmWindowExpiry :
    Runs [.regs, .gold, .bus, .clk, .boot, .flt, .journal, .mem, .met, .bil, .thm, .pil, .swa, .pins, .saf, .efm, .key, .alc,
      .lnk, .upd, .sbu, .dma, .nfc, .dpy, .clu] s (execConfirmWindowExpiry s) :=
  .of fun h => h.rollback.ite h

theorem runs_execWatchdogReset :
    Runs [.regs, .gold, .bus, .clk, .boot, .flt, .journal, .mem, .met, .bil, .thm, .pil, .swa, .pins, .saf, .efm, .key, .alc,
      .lnk, .upd, .sbu, .dma, .nfc, .dpy, .clu] s (execWatchdogReset s) := .of fun h => by
    split
    · exact (h.saveStart.saveEnd.count.next fun h => h.rollback.ite h.warmStart).ite h
    · exact h

theorem runs_execColdStart :
    Runs [.regs, .gold, .bus, .clk, .boot, .flt, .journal, .mem, .met, .bil, .thm, .pil, .swa, .pins, .saf, .efm, .key, .alc,
      .lnk, .upd, .sbu, .dma, .nfc, .dpy, .clu] s (execColdStart s) :=
  .of fun h => h.modBoot.startUp.next fun h => (h.count.next fun h => h.rollback.ite h).ite h

end

end Sys2Proof.Machine
end

