-- ==== Sys2Proof/Proofs/ReachLinks.lean ====
section
/-!
PROOFS. What Ethernet, the joining links, the module ports and the site bus reach (files `Links` and `SiteBus`).
-/

namespace Sys2Proof.Machine

open Sys2Proof

set_option Elab.async false

section
variable {ps : List Part} {s t : State} (h : Acts ps s t)
include h

theorem Acts.modLnk {f} (hp : Within [.lnk] ps := by rfl) : Acts ps s (t.modLnk f) := h.setLnk hp

theorem Acts.modPtp {f} (hp : Within [.lnk] ps := by rfl) : Acts ps s (t.modPtp f) := h.modLnk hp

theorem Acts.ethSend {p dst payload} (hp : Within [.regs, .lnk, .freeCtr] ps := by rfl) : Acts ps s (t.ethSend p dst payload) :=
  h.via hp fun h => h.inject.modLnk.ite h.modLnk

theorem Acts.ptpResult {t1 t2} (hp : Within [.regs, .clk, .lnk] ps := by rfl) : Acts ps s (t.ptpResult t1 t2) :=
  h.via hp fun h => by
    unfold State.ptpResult
    dsimp only
    split
    · exact h.modPtp.syncResult
    · exact h.modPtp

theorem Acts.modJl {k f} (hp : Within [.lnk] ps := by rfl) : Acts ps s (t.modJl k f) := h.modLnk hp

theorem Acts.jlPut {k f} (hp : Within [.regs, .lnk, .freeCtr] ps := by rfl) : Acts ps s (t.jlPut k f) :=
  h.via hp fun h => by
    unfold State.jlPut
    dsimp only
    exact h.modJl.next fun h => h.inject.modLnk.ite h.modLnk

theorem Acts.jlSend {arrived f} (hp : Within [.regs, .lnk, .freeCtr] ps := by rfl) : Acts ps s (t.jlSend arrived f) :=
  h.via hp fun h => by
    refine (h.each fun _ _ h => h.jlPut).ite ?_
    split
    · exact h.jlPut
    · exact h.modLnk

theorem Acts.jlMessage {dst proto msg} (hp : Within [.regs, .lnk, .freeCtr] ps := by rfl) :
    Acts ps s (t.jlMessage dst proto msg) :=
  h.via hp fun h => h.ite (h.modLnk.foldl fun _ _ h => h.jlSend)

theorem Acts.jlRebuild (hp : Within [.regs, .lnk, .freeCtr] ps := by rfl) : Acts ps s t.jlRebuild :=
  h.via hp fun h => h.modLnk.foldl fun _ _ h => h.jlSend

theorem Acts.jlTake {k f} (hp : Within (raising ++ [.alc, .lnk, .upd, .freeCtr]) ps := by rfl) : Acts ps s (t.jlTake k f) :=
  h.via hp fun h => by
    refine h.ite ?_
    dsimp only
    refine h.modLnk.ite ?_
    refine Acts.next ?_ fun h => h.jlSend.ite h
    refine Acts.ite ?_ (h.modLnk.when fun _ h => h.modLnk)
    split
    · exact ((h.modLnk.when fun _ h => h.modLnk).modLnk).deliver
    · exact (h.modLnk.when fun _ h => h.modLnk).modLnk

theorem Acts.jlSecond (hp : Within [.regs, .lnk] ps := by rfl) : Acts ps s t.jlSecond :=
  h.via hp fun h => h.each fun _ _ h => h.wrSat.modJl

theorem Acts.hcFrame {eth frame} (hp : Within (raising ++ [.alc]) ps := by rfl) : Acts ps s (t.hcFrame eth frame) :=
  h.via hp fun h => by
    unfold State.hcFrame
    split
    · exact h.hcTake
    · exact h

theorem Acts.ethTake {p x} (hp : Within (raising ++ [.alc]) ps := by rfl) : Acts ps s (t.ethTake p x) :=
  h.via hp fun h => by
    refine h.ite ?_
    split
    · exact h.hcFrame
    · exact h.pduTake

theorem Acts.ethReceive {p x} (hp : Within (raising ++ [.alc, .lnk, .freeCtr]) ps := by rfl) : Acts ps s (t.ethReceive p x) :=
  h.via hp fun h => by
    unfold State.ethReceive
    dsimp only
    exact (h.inject.modLnk.foldl fun _ _ h => h.ethTake).ite h.ethTake

theorem Acts.idReq {m} (hp : Within [.regs, .boot, .lnk, .freeCtr] ps := by rfl) : Acts ps s (t.idReq m) :=
  h.via hp fun h => (h.canSend.ite h).modModule

theorem Acts.readAgain {m} (hp : Within [.regs, .boot, .lnk, .freeCtr] ps := by rfl) : Acts ps s (t.readAgain m) :=
  h.via hp fun h => h.ite h.modLnk.idReq

theorem Acts.showAdm {m} (hp : Within [.regs] ps := by rfl) : Acts ps s (t.showAdm m) := h.via hp fun h => h.wrB.wrSat

theorem Acts.modulesCause (hp : Within [.flt] ps := by rfl) : Acts ps s t.modulesCause := h.via hp fun h => h.causeOff.ite h

theorem Acts.statusTake {m data} (hp : Within [.regs, .boot, .lnk, .freeCtr] ps := by rfl) : Acts ps s (t.statusTake m data) :=
  h.via hp fun h => h.modModule.wr.readAgain

theorem Acts.idTake {m data} (hp : Within (raising ++ [.boot]) ps := by rfl) : Acts ps s (t.idTake m data) :=
  h.via hp fun h => h.modModule.showAdm.next fun h => h.modulesCause.ite h.raiseDev

theorem Acts.canTake {f} (hp : Within (raising ++ [.boot, .lnk, .freeCtr]) ps := by rfl) : Acts ps s (t.canTake f) :=
  h.via hp fun h => by
    refine h.ite ?_
    split
    · exact h.statusTake.ite h.idTake
    · exact h

theorem Acts.canReceive {f} (hp : Within (raising ++ [.boot, .lnk, .freeCtr]) ps := by rfl) : Acts ps s (t.canReceive f) :=
  h.via hp fun h => by
    unfold State.canReceive
    dsimp only
    exact (h.inject.modLnk.foldl fun _ _ h => h.canTake).ite h.canTake

theorem Acts.mailOut (hp : Within [.saf, .lnk] ps := by rfl) : Acts ps s t.mailOut := h.via hp fun h => h.ite h.modSaf.modLnk

theorem Acts.moduleAges (hp : Within [.regs] ps := by rfl) : Acts ps s t.moduleAges :=
  h.via hp fun h => h.each fun _ _ h => h.ite h.wrSat

theorem Acts.hostCntClear (hp : Within [.regs] ps := by rfl) : Acts ps s t.hostCntClear := h.via hp fun h => h.wr.wr

theorem Acts.modSbu {f} (hp : Within [.sbu] ps := by rfl) : Acts ps s (t.modSbu f) := h.setSbu hp

theorem Acts.sbOut {fs} (hp : Within [.regs, .sbu, .freeCtr] ps := by rfl) : Acts ps s (t.sbOut fs) :=
  h.via hp fun h => by
    unfold State.sbOut
    dsimp only
    refine Acts.modSbu (h.foldOver (p := fun r : List SbFrame × Option SbFrame × State => r.2.2) rfl fun _ _ _ h => ?_)
    exact h.inject

theorem Acts.sbSeq (hp : Within [.sbu] ps := by rfl) : Acts ps s t.sbSeq.2 := h.modSbu hp

theorem Acts.sbMessage {ft odst proto msg} (hp : Within [.sbu] ps := by rfl) : Acts ps s (t.sbMessage ft odst proto msg).2 :=
  h.sbSeq hp

theorem Acts.showNbr {i} (hp : Within [.regs] ps := by rfl) : Acts ps s (t.showNbr i) :=
  h.via hp fun h => by
    unfold State.showNbr
    split
    · exact h.wrB.wrB.wrB.wr.wr.wr.wr.wr.wrSat.wrSat.wrSat
    · exact (h.each fun _ _ h => h.setWord).ite h

theorem Acts.showNbrs (hp : Within [.regs] ps := by rfl) : Acts ps s t.showNbrs :=
  h.via hp fun h => h.each fun _ _ h => h.showNbr

theorem Acts.modNbr {d f} (hp : Within [.regs, .sbu] ps := by rfl) : Acts ps s (t.modNbr d f) :=
  h.via hp fun h => h.modSbu.showNbrs.ite h

theorem Acts.sbFailed {sid} (hp : Within [.regs, .sbu] ps := by rfl) : Acts ps s (t.sbFailed sid) :=
  h.via hp fun h => by
    unfold State.sbFailed
    dsimp only
    split
    · exact h.countWrap.modNbr
    · exact h.countWrap

theorem Acts.sbPlan (hp : Within [.regs, .sbu] ps := by rfl) : Acts ps s t.sbPlan :=
  h.via hp fun h => h.ite ((h.when fun _ h => h.sticky).next fun h => h.ite h.modSbu)

theorem Acts.sbReport (hp : Within [.regs, .sbu] ps := by rfl) : Acts ps s t.sbReport := h.via hp fun h => h.sbPlan.ite h.modSbu

theorem Acts.roundEnd (hp : Within [.regs, .sbu] ps := by rfl) : Acts ps s t.roundEnd := h.via hp fun h => h.modSbu.wr.wr

theorem Acts.sbuLaunch (hp : Within [.regs, .sbu] ps := by rfl) : Acts ps s t.sbuLaunch :=
  h.via hp fun h => (((h.wr.ite (h.wr.ite h)).when fun _ h => h.wr).when fun _ h => h.count).modSbu

theorem Acts.sbMaster {d} (hp : Within [.regs] ps := by rfl) : Acts ps s (t.sbMaster d) := h.via hp fun h => h.ite h.wr.sticky

theorem Acts.trainCounts (hp : Within [.alc, .sbu] ps := by rfl) : Acts ps s t.trainCounts.2 :=
  h.via hp fun h => by
    unfold State.trainCounts
    split
    · refine (h.foldl fun _ _ h => h.takeChild).foldOver (p := Prod.snd) rfl fun _ _ _ h => ?_
      dsimp only
      exact h.sbMessage
    · exact h

theorem Acts.trainSafety (hp : Within [.saf, .sbu] ps := by rfl) : Acts ps s t.trainSafety.2 :=
  h.via hp fun h => by
    unfold State.trainSafety
    dsimp only
    split
    · exact h.each fun _ _ h => h.pduNext.modSbu
    · exact (h.each fun _ _ h => h.pduNext.modSbu).modSbu.sbMessage

theorem Acts.sbMsgs {k} (hp : Within [.sbu] ps := by rfl) : Acts ps s (t.sbMsgs k) := h.modSbu hp

theorem Acts.train (hp : Within [.regs, .saf, .alc, .sbu, .freeCtr] ps := by rfl) : Acts ps s t.train :=
  h.via hp fun h => h.trainCounts.trainSafety.sbMsgs.sbOut

theorem Acts.bulkFrames {dst proto msg} (hp : Within [.sbu] ps := by rfl) : Acts ps s (t.bulkFrames dst proto msg).2.2.2 :=
  h.via hp fun h => by
    unfold State.bulkFrames
    dsimp only
    split
    · exact h.sbSeq
    · exact h.sbSeq

theorem Acts.bulkGo {limit k qs} (hp : Within [.sbu] ps := by rfl) : Acts ps s (State.bulkGo limit k qs t).2 := by
  induction qs generalizing k t with
  | nil => exact h
  | cons q qs ih =>
    have hframes := h.bulkFrames (dst := q.1) (proto := q.2.1) (msg := q.2.2) hp
    unfold State.bulkGo
    dsimp only
    split
    · exact ih (hframes.modSbu hp)
    · exact h

theorem Acts.sbWants {d msg} (hp : Within [.sbu] ps := by rfl) : Acts ps s (t.sbWants d msg) := h.modSbu hp

theorem Acts.turnOver {orig} (hp : Within [.sbu] ps := by rfl) : Acts ps s (t.turnOver orig) := h.modSbu hp

theorem Acts.sbTurnSeen {f} (hp : Within [.regs, .sbu] ps := by rfl) : Acts ps s (t.sbTurnSeen f) :=
  h.via hp fun h => by
    refine h.ite ?_
    split
    · exact h.turnOver.modSbu.ite h
    · exact h.ite h.turnOver.roundEnd

theorem Acts.sbQueue {f} (hp : Within [.sbu] ps := by rfl) : Acts ps s (t.sbQueue f) := h.via hp fun h => h.modSbu.ite h

theorem Acts.sbTake {f} (hp : Within (raising ++ [.alc, .upd, .sbu]) ps := by rfl) : Acts ps s (t.sbTake f) :=
  h.via hp fun h => by
    refine h.sbFailed.ite (h.ite (h.sbFailed.ite ?_))
    dsimp only
    refine h.countWrap.modNbr.modSbu.ite ?_
    split
    · exact (h.countWrap.modNbr.modSbu.sbTurnSeen.sbQueue.modSbu.when fun _ h => h.sbWants).deliver
    · exact h.countWrap.modNbr.modSbu.sbTurnSeen.sbQueue.modSbu

theorem Acts.sbuSecond (hp : Within [.regs] ps := by rfl) : Acts ps s t.sbuSecond := h.via hp fun h => h.ite h.showNbrs

end

/-! ## The commands -/

section
variable {s : State}

theorem runs_execEthLinkChange {p up gigabit} : Runs [.regs] s (execEthLinkChange p up gigabit s) :=
  .of fun h => h.wrB.wrB.next fun h => h.sticky.ite h

theorem runs_execPtpSync {p src seq rx origin} : Runs [.regs, .clk, .lnk] s (execPtpSync p src seq rx origin s) :=
  .of fun h => (by split; exacts [h.ptpResult, h.modPtp] : Acts _ _ _).ite h

theorem runs_execPtpFollowUp {p src seq origin} : Runs [.regs, .clk, .lnk] s (execPtpFollowUp p src seq origin s) :=
  .of fun h => (by split; exacts [h.ptpResult.ite h, h] : Acts _ _ _).ite h

theorem runs_execPtpDelayResp {p src t3 t4} : Runs [.lnk] s (execPtpDelayResp p src t3 t4 s) := .of fun h => h.modPtp.ite h

theorem runs_execPtpDelayReq {p domain seq rx} : Runs [.lnk] s (execPtpDelayReq p domain seq rx s) :=
  .of fun h => h.modPtp.ite h.modPtp

theorem runs_execPtpAnnounce {p domain a} : Runs [.lnk] s (execPtpAnnounce p domain a s) := .of fun h => h.modPtp.ite h

theorem runs_execPtpSyncSend {x} : Runs [.lnk] s (execPtpSyncSend x s) := .of fun h => h.modPtp.ite h.modPtp

theorem runs_execJlLinkUp {k peer reach} : Runs [.regs, .lnk, .freeCtr] s (execJlLinkUp k peer reach s) :=
  .of fun h => h.wrB.wr.modLnk.modJl.jlRebuild

theorem runs_execJlFrameReceived {k dst bcast mac} :
    Runs [.regs, .flt, .journal, .met, .pil, .swa, .saf, .alc, .lnk, .upd, .freeCtr] s (execJlFrameReceived k dst bcast mac s) :=
  .of fun h => by
    dsimp only
    refine h.modLnk.ite (h.modLnk.modJl.ite ?_)
    exact (h.modLnk.inject.modLnk.foldl fun _ _ h => h.jlTake).ite h.modLnk.jlTake

theorem runs_execJlAckTimeout {k} : Runs [.regs, .lnk, .freeCtr] s (execJlAckTimeout k s) := .of fun h => by
    dsimp only
    split
    · exact h.modLnk
    · exact h.modLnk.modJl.modLnk.ite h.modLnk.wrB.sticky.modJl.modLnk.jlRebuild

theorem runs_execJlRoundTrip {k rtt here far through} : Runs [.regs, .clk, .lnk] s (execJlRoundTrip k rtt here far through s) :=
  .of fun h => (h.modJl.next fun h => h.sticky.ite h.syncResult).ite h

theorem runs_execHeadcountSend : Runs [.regs, .alc, .lnk, .freeCtr] s (execHeadcountSend s) :=
  .of fun h => (h.sendHeadcount.modLnk.foldl fun _ _ h => (h.each fun _ _ h => h.ethSend).jlMessage).ite h

theorem runs_execHeadcountReceived {eth frame} :
    Runs [.regs, .flt, .journal, .met, .pil, .swa, .saf, .alc, .lnk, .freeCtr] s (execHeadcountReceived eth frame s) := .of fun h => by
    split
    · exact h.ethReceive
    · exact h.hcFrame

theorem runs_execSafetyPduReceived {k pdu} :
    Runs [.regs, .flt, .journal, .met, .pil, .swa, .saf, .alc, .lnk, .freeCtr] s (execSafetyPduReceived k pdu s) := .of fun h => by
    split
    · exact h.ethReceive
    · exact h.ethReceive
    · exact h.pduTake

theorem runs_execSafetyPduSend {k} : Runs [.regs, .saf, .lnk, .sbu, .freeCtr] s (execSafetyPduSend k s) :=
  .of fun h => (h.pduNext.modLnk.next fun h => (h.ethSend.ite h).ite (h.jlMessage.ite h.setSbu)).ite h

theorem runs_execCanTimeSend {us} : Runs [.regs, .lnk, .freeCtr] s (execCanTimeSend us s) :=
  .of fun h => (h.modLnk.each fun _ _ h => h.canSend).ite h

theorem runs_execCanStatus {p addr data} :
    Runs [.regs, .boot, .flt, .journal, .met, .pil, .swa, .saf, .lnk, .freeCtr] s (execCanStatus p addr data s) :=
  .of fun h => h.canReceive

theorem runs_execCanIdrsp {p addr data} :
    Runs [.regs, .boot, .flt, .journal, .met, .pil, .swa, .saf, .lnk, .freeCtr] s (execCanIdrsp p addr data s) :=
  .of fun h => h.canReceive

theorem runs_execCanForeignFrame {p addr classical} :
    Runs [.regs, .boot, .lnk, .freeCtr] s (execCanForeignFrame p addr classical s) := .of fun h => by
    refine h.ite ?_
    split
    · exact h.readAgain
    · exact h

theorem runs_execModuleStatusTimeout {m} :
    Runs [.regs, .boot, .flt, .journal, .met, .pil, .swa, .saf] s (execModuleStatusTimeout m s) :=
  .of fun h => h.modModule.showAdm.raiseDev.ite h

theorem runs_execModuleIdreqRetry {m} : Runs [.regs, .boot, .lnk, .freeCtr] s (execModuleIdreqRetry m s) :=
  .of fun h => h.modLnk.idReq.ite h

theorem runs_execCanBusOff {p} : Runs [.regs, .lnk] s (execCanBusOff p s) := .of fun h => h.modLnk.sticky

theorem runs_execCanBusOffRecovery {p} : Runs [.regs, .boot, .saf, .lnk, .freeCtr] s (execCanBusOffRecovery p s) :=
  .of fun h => (h.modLnk.mailOut.foldl fun _ _ h => h.sendSetpoint).ite h

theorem runs_execHostCntClear : Runs [.regs] s (execHostCntClear s) := .of fun h => h.hostCntClear

theorem runs_execSbLinkReport {rep} : Runs [.regs, .sbu] s (execSbLinkReport rep s) := .of fun h => h.modSbu.sbPlan.ite h

theorem runs_execSbRouteMsg {rt} : Runs [.sbu] s (execSbRouteMsg rt s) := .of fun h => h.modSbu.ite h

theorem runs_execRouteTableEffect : Runs [.regs, .sbu] s (execRouteTableEffect s) := .of fun h => by
    split
    · exact ((h.when fun _ h => h.sticky).modSbu.sticky.wr.wr.wr.wrB.wrB.next fun h => (h.wr.ite (h.wr.ite h)).showNbrs).ite h
    · exact h

theorem runs_execSbCallSend {us} : Runs [.regs, .sbu, .freeCtr] s (execSbCallSend us s) :=
  .of fun h => by
    dsimp only
    exact h.sbMessage.sbOut.wr.modSbu.ite h

theorem runs_execSbCallReceived {src data stamp} : Runs [.regs, .clk, .sbu] s (execSbCallReceived src data stamp s) :=
  .of fun h => h.ite (h.modSbu.ite ((h.sbMaster.wr.when fun _ h => h.sticky.wrB).wr.modSbu.next fun h => h.syncResult.ite h))

theorem runs_execSbMasterTakeover : Runs [.regs, .sbu] s (execSbMasterTakeover s) := .of fun h => h.wr.wr.wr.sticky.sbPlan.ite h

theorem runs_execSbTrainSend {bulk} : Runs [.regs, .saf, .alc, .sbu, .freeCtr] s (execSbTrainSend bulk s) :=
  .of fun h => h.modSbu.next fun h => h.train.modSbu.ite h

theorem runs_execSbTurnPass : Runs [.regs, .sbu] s (execSbTurnPass s) :=
  .of fun h => (h.modSbu.next fun h => h.modSbu.ite h.roundEnd).ite h

theorem runs_execSbJoinTurn : Runs [.regs, .saf, .alc, .sbu, .freeCtr] s (execSbJoinTurn s) :=
  .of fun h => h.modSbu.next fun h => h.train.roundEnd.ite h

theorem runs_execSbBulkTurn : Runs [.regs, .sbu, .freeCtr] s (execSbBulkTurn s) :=
  .of fun h => h.modSbu.next fun h => h.sbMsgs.bulkGo.sbOut.ite h

theorem runs_execSbRelay {us} : Runs [.regs, .sbu, .freeCtr] s (execSbRelay us s) := .of fun h => h.modSbu.wr.sbOut

theorem runs_execSbFrameReceived {hdr mac} :
    Runs [.regs, .flt, .journal, .met, .pil, .swa, .saf, .alc, .upd, .sbu, .freeCtr] s (execSbFrameReceived hdr mac s) :=
  .of fun h => h.ite (h.inject.modSbu.foldl fun _ _ h => h.sbTake)

theorem runs_execSbToneMapMsg {src band mask mode} : Runs [.regs, .sbu] s (execSbToneMapMsg src band mask mode s) :=
  .of fun h => h.modNbr.sbReport.ite h

theorem runs_execToneMapRefresh {src snrA snrB} : Runs [.regs, .sbu] s (execToneMapRefresh src snrA snrB s) :=
  .of fun h => (h.when fun _ h => h.sticky).countWrap.modNbr.modSbu.sbReport.ite h

theorem runs_execNeighbourDrop {src} : Runs [.regs, .sbu] s (execNeighbourDrop src s) :=
  .of fun h => h.modSbu.showNbrs.sbReport.ite h

end

end Sys2Proof.Machine
end

