-- ==== Sys2Proof/Proofs/ReachBus.lean ====
section
/-!
PROOFS. What the register bus, the DMA engine, the packing list and the stages of a start reach (files `Bus` to `Startup`).
-/

namespace Sys2Proof.Machine

open Sys2Proof

set_option Elab.async false

section
variable {ps : List Part} {s t : State} (h : Acts ps s t)
include h

theorem Acts.showPend (hp : Within [.regs] ps := by rfl) : Acts ps s t.showPend :=
  h.via hp fun h => (h.each fun _ _ h => h.setWord).wr

theorem Acts.hold {a mask val} (hp : Within [.regs, .bus] ps := by rfl) : Acts ps s (t.hold a mask val) :=
  h.via hp fun h => h.modBus.showPend

theorem Acts.dropPend {f} (hp : Within [.regs, .bus] ps := by rfl) : Acts ps s (t.dropPend f) :=
  h.via hp fun h => h.modBus.showPend

theorem Acts.discard {m} (hp : Within [.regs, .bus] ps := by rfl) : Acts ps s (t.discard m) := h.dropPend hp

theorem Acts.pairRefused (hp : Within raising ps := by rfl) : Acts ps s t.pairRefused := h.raiseOnce hp

theorem Acts.committed {x a} (hp : Within [.regs, .met, .thm, .efm, .nfc] ps := by rfl) : Acts ps s (t.committed x a) :=
  h.via hp fun h => by
    unfold State.committed
    split
    · exact h.count.ite (h.foldl fun _ _ h => h.ppoReset.ite h)
    · exact h.wrB.ite h
    · exact h.modEfmLane.ite ((h.each fun _ _ h => h.modEfmLane).ite h)
    · exact h.ite h.showCfgCrc
    · exact h.harvest.ite h
    · exact h.tamperCfgChange.ite h
    · exact h

theorem Acts.commit {a mask val} (hp : Within [.regs, .gold, .met, .thm, .efm, .nfc] ps := by rfl) :
    Acts ps s (t.commit a mask val) :=
  h.via hp fun h => by
    unfold State.commit
    split
    · exact h
    · exact h.wr.ite (h.ite (h.modEfm.committed.ite h.putWord.committed))

theorem Acts.commitSet {ws} (hp : Within (raising ++ [.gold, .thm, .efm, .nfc]) ps := by rfl) : Acts ps s (t.commitSet ws) :=
  h.via hp fun h => (h.pairRefused.ite h).foldl fun _ _ h => h.commit

theorem Acts.commitGroup {g} (hp : Within (raising ++ [.gold, .bus, .thm, .efm, .nfc]) ps := by rfl) :
    Acts ps s (t.commitGroup g) :=
  h.via hp fun h => h.dropPend.each fun _ _ h => h.ite h.commitSet

theorem Acts.writeBuffered {a mask val} (hp : Within (raising ++ [.gold, .bus, .thm, .efm, .nfc]) ps := by rfl) :
    Acts ps s (t.writeBuffered a mask val) :=
  h.via hp fun h => h.ite (h.hold.ite h.commitSet)

theorem Acts.strobeGo {m} (hp : Within [.clk] ps := by rfl) : Acts ps s (t.strobeGo m) := h.modClk hp

theorem Acts.strobeArm {g} (hp : Within [.regs] ps := by rfl) : Acts ps s (t.strobeArm g) :=
  h.via hp fun h => h.wrB.ite h.stickyBit

theorem Acts.strobeCancel {g} (hp : Within [.regs] ps := by rfl) : Acts ps s (t.strobeCancel g) := h.via hp fun h => h.wrB

theorem Acts.strobeMiss {g} (hp : Within [.regs] ps := by rfl) : Acts ps s (t.strobeMiss g) :=
  h.via hp fun h => h.strobeCancel.stickyBit

theorem Acts.strobesMissed (hp : Within [.regs] ps := by rfl) : Acts ps s t.strobesMissed :=
  h.via hp fun h => h.each fun _ _ h => h.strobeMiss.ite h

theorem Acts.strobeStep {launch} (hp : Within (raising ++ [.gold, .bus, .clk, .thm, .efm, .nfc]) ps := by rfl) :
    Acts ps s (t.strobeStep launch) :=
  h.via hp fun h => h.modClk.each fun _ _ h => (h.strobeMiss.when fun _ h => h.commitGroup).ite (h.strobeCancel.commitGroup.ite
    (h.commitGroup.ite h))

theorem Acts.clearStatus {x a v} (hp : Within raising ps := by rfl) : Acts ps s (t.clearStatus x a v) :=
  h.via hp fun h => (h.clearSource.ite h).ite h.setWord

theorem Acts.actSys {x a v} (hp : Within [.regs, .bus, .clk, .boot, .efm] ps := by rfl) : Acts ps s (t.actSys x a v) :=
  h.via hp fun h => h.strobeGo.ite (h.discard.ite ((h.strobeCancel.ite (h.strobeArm.ite h)).ite ((h.wr.wr.ite h).ite ((h.wr.ite
    h).ite ((h.adaptGo.ite h).ite h)))))

theorem Acts.actFlt {x a v} (hp : Within raising ps := by rfl) : Acts ps s (t.actFlt x a v) :=
  h.via hp fun h => (h.pinRelease.ite h).ite ((h.retireCmd.ite (h.restoreCmd.ite h)).ite (h.watchdogKey.ite ((h.encHome.ite
    h).ite h)))

theorem Acts.actMet {x a v} (hp : Within [.regs, .met] ps := by rfl) : Acts ps s (t.actMet x a v) :=
  h.via hp fun h => (h.wrB.ite h).ite (((h.capDisarm.ite ((h.when fun _ h => h.capArm).when fun _ h => h.capRelease)).when fun _
    h => h.capSwtrig).ite ((h.wr.ite h).ite ((h.ite h.strcntClear).ite ((h.ite h.qcntClear).ite h))))

theorem Acts.actBil {a v} (hp : Within [.regs, .gold, .bus, .flt, .mem, .met, .bil] ps := by rfl) : Acts ps s (t.actBil a v) :=
  h.via hp fun h => (((h.when fun _ h => h.rebuild).when fun _ h => h.modBil).when fun _ h => h.newEpoch).ite ((h.wr.ite h).ite
    (h.modBus.ite (h.wallRequest.ite h)))

theorem Acts.actPil {x a v} (hp : Within [.regs, .pil, .swa] ps := by rfl) : Acts ps s (t.actPil x a v) :=
  h.via hp fun h => ((h.authNo.ite (h.authOk.ite h)).when fun _ h => h.firmwareStop).ite ((h.ite h.wr).ite h)

theorem Acts.actSwa {x a v} (hp : Within [.regs, .swa] ps := by rfl) : Acts ps s (t.actSwa x a v) :=
  h.via hp fun h => ((h.when fun _ h => h.relCc).when fun _ h => h.relLk).ite ((h.ite ((h.when fun _ h => h.relGen).next fun h
    => h.genOff.ite (h.genOn.ite h))).ite h)

theorem Acts.actSaf {x a v} (hp : Within [.regs, .pil, .swa, .saf] ps := by rfl) : Acts ps s (t.actSaf x a v) :=
  h.via hp fun h => (h.ite h.safeEnter).ite ((h.ite h.cmpClear).ite ((h.ite h.connCntClear).ite h))

theorem Acts.actUpd {a v} (hp : Within (raising ++ [.upd]) ps := by rfl) : Acts ps s (t.actUpd a v) :=
  h.via hp fun h => ((((h.when fun _ h => h.updOpen).when fun _ h => h.blkGo).when fun _ h => h.updConfirm).next fun h =>
    h.updCancel.ite (h.updAct.ite h)).ite ((h.updCntClear.ite h).ite h)

theorem Acts.actLow {x a v} (hp : Within [.regs, .swa, .nfc, .dpy, .clu] ps := by rfl) : Acts ps s (t.actLow x a v) :=
  h.via hp fun h => by
    unfold State.actLow
    dsimp only
    split
    · exact ((h.when fun _ h => h.rebase).when fun _ h => h.cardEnd).ite (h.readerCntClear.ite h)
    · exact (h.displayOff.ite (h.displayOn.ite h)).ite h
    · exact h.eccClear.ite (h.extStop.ite h)

theorem Acts.act {x a v} (hp : Within (raising ++ [.gold, .bus, .clk, .boot, .mem, .bil, .efm, .key, .upd, .nfc, .dpy, .clu]) ps
  := by rfl) :
    Acts ps s (t.act x a v) :=
  h.via hp fun h => by
    unfold State.act
    dsimp only
    split
    · exact h.actSys
    · exact h.fenceGo.ite (h.ovrClear.ite h)
    · exact h.actFlt
    · exact h.actMet
    · exact h.actBil
    · exact h.actPil
    · exact h.schedClear.ite h
    · exact h.actSwa
    · exact h.actSaf
    · exact h.keyGo.ite (h.zeroise.ite h)
    · exact h.actUpd
    · exact h.finjClear.ite h
    · exact h.finjClear.ite (h.hostCntClear.ite h)
    · exact h.actBil
    · exact h
    · exact h
    · exact h.actLow

theorem Acts.writeWctl {a v} (hp : Within [.regs] ps := by rfl) : Acts ps s (t.writeWctl a v) :=
  h.via hp fun h => h.ite h.setWord

theorem Acts.writePlain {x a v} (hp : Within (raising ++ [.gold, .bus, .clk, .boot, .mem, .bil, .thm, .efm, .key, .upd, .nfc,
  .dpy, .clu]) ps := by rfl) :
    Acts ps s (t.writePlain x a v) :=
  h.via hp fun h => h.staleClear.ite (h.ite ((h.clearStatus.ite h).next fun h => (h.ite h.setWord).writeBuffered.next fun h =>
    h.ite h.act))

theorem Acts.sealedWrite {counted} (hp : Within [.regs] ps := by rfl) : Acts ps s (t.sealedWrite counted) :=
  h.via hp fun h => h.count.ite h

theorem Acts.writeCritical {x a v} (hp : Within [.regs, .bus] ps := by rfl) : Acts ps s (t.writeCritical x a v) :=
  h.via hp fun h => by
    unfold State.writeCritical
    split
    · exact h.sealedWrite
    · exact h.ite h.modBus

theorem Acts.writeCpl {x a v} (hp : Within (raising ++ [.gold, .bus, .thm, .efm, .nfc]) ps := by rfl) :
    Acts ps s (t.writeCpl x a v) :=
  h.via hp fun h => by
    unfold State.writeCpl
    split
    · exact h.sealedWrite
    · refine h.ite ?_
      split
      · exact h.pairRefused
      · exact h.modBus.next fun h => h.pairRefused.ite h.writeBuffered

theorem Acts.busWrite {addr v} (hp : Within (raising ++ [.gold, .bus, .clk, .boot, .mem, .bil, .thm, .efm, .key, .upd, .nfc,
  .dpy, .clu]) ps := by rfl) :
    Acts ps s (t.busWrite addr v) :=
  h.via hp fun h => by
    unfold State.busWrite
    dsimp only
    split
    · exact h
    · exact h.writeWctl.ite (h.writeCpl.ite (h.writeCritical.ite h.writePlain))

theorem Acts.capture {x a} (hp : Within [.bus] ps := by rfl) : Acts ps s (t.capture x a) := h.via hp fun h => h.ite h.modBus

theorem Acts.busRead {addr} (hp : Within (raising ++ [.bus]) ps := by rfl) : Acts ps s (t.busRead addr).2 :=
  h.via hp fun h => by
    unfold State.busRead
    dsimp only
    split
    · exact h.capAdvance
    · split
      · exact h.journalAdvance
      · split
        · exact h
        · have hused := h.when (b := t.pairBad (addr / 4 * 4)) fun _ h => h.pairUse
          split
          · exact hused.capture
          · split
            · exact hused
            · exact hused

theorem Acts.modDma {n f} (hp : Within [.dma] ps := by rfl) : Acts ps s (t.modDma n f) := h.setDma hp

theorem Acts.showDma {n} (hp : Within [.regs] ps := by rfl) : Acts ps s (t.showDma n) := h.via hp fun h => h.wrBit.wrBit

theorem Acts.regWords {fix a k} (hp : Within (raising ++ [.bus]) ps := by rfl) : Acts ps s (t.regWords fix a k).2 := by
  induction k generalizing t a with
  | zero => exact h
  | succ k ih => exact ih (h.busRead hp)

theorem Acts.regPut {fix a k bs}
    (hp : Within (raising ++ [.gold, .bus, .clk, .boot, .mem, .bil, .thm, .efm, .key, .upd, .nfc, .dpy, .clu]) ps := by rfl) :
    Acts ps s (t.regPut fix a k bs) := by
  induction k generalizing t a bs with
  | zero => exact h
  | succ k ih => exact h.ite (ih (h.busWrite hp))

theorem Acts.bankSeen {a} (hp : Within [.clu] ps := by rfl) : Acts ps s (t.bankSeen a) := h.via hp fun h => h.bankUse.ite h

theorem Acts.dmaRead {fix a k} (hp : Within (raising ++ [.bus, .clu]) ps := by rfl) : Acts ps s (t.dmaRead fix a k).2 :=
  h.via hp fun h => by
    unfold State.dmaRead
    split
    · exact h.regWords
    · exact h.bankSeen

theorem Acts.dmaWrite {fix a bs} (hp : Within (raising ++ [.gold, .bus, .clk, .boot, .mem, .bil, .thm, .efm, .key, .upd, .nfc,
  .dpy, .clu]) ps := by rfl) :
    Acts ps s (t.dmaWrite fix a bs) :=
  h.via hp fun h => h.regPut.ite h.memWrite.bankSeen

theorem Acts.dmaRecord {a bs} (hp : Within (raising ++ [.gold, .bus, .clk, .boot, .mem, .bil, .thm, .efm, .key, .upd, .nfc,
  .dpy, .clu]) ps := by rfl) :
    Acts ps s (t.dmaRecord a bs) :=
  h.via hp fun h => h.dmaWrite.ite h

theorem Acts.dmaEnd {n bit} (hp : Within (raising ++ [.gold, .bus, .clk, .boot, .mem, .bil, .thm, .efm, .key, .upd, .dma, .nfc,
  .dpy, .clu]) ps := by rfl) :
    Acts ps s (t.dmaEnd n bit) :=
  h.via hp fun h => h.wr.next fun h => (h.dmaRecord.ite h).stickyMask.modDma.showDma

theorem Acts.dmaError {n err} (hp : Within (raising ++ [.gold, .bus, .clk, .boot, .mem, .bil, .thm, .efm, .key, .upd, .dma,
  .nfc, .dpy, .clu]) ps := by rfl) :
    Acts ps s (t.dmaError n err) :=
  h.via hp fun h => h.wr.dmaEnd.raiseOnce

theorem Acts.dmaStart {n} (hp : Within [.regs, .dma] ps := by rfl) : Acts ps s (t.dmaStart n) :=
  h.via hp fun h => h.ite h.modDma.wr.wr.wr.wr.wr.showDma

theorem Acts.dmaAbort {n} (hp : Within (raising ++ [.gold, .bus, .clk, .boot, .mem, .bil, .thm, .efm, .key, .upd, .dma, .nfc,
  .dpy, .clu]) ps := by rfl) :
    Acts ps s (t.dmaAbort n) :=
  h.via hp fun h => h.ite h.dmaEnd

theorem Acts.legDone {n} (hp : Within (raising ++ [.gold, .bus, .clk, .boot, .mem, .bil, .thm, .efm, .key, .upd, .dma, .nfc,
  .dpy, .clu]) ps := by rfl) :
    Acts ps s (t.legDone n) :=
  h.via hp fun h => h.dmaEnd.ite h.modDma.countWrap.wr.showDma

theorem Acts.legFetch {n} (hp : Within (raising ++ [.gold, .bus, .clk, .boot, .mem, .bil, .thm, .efm, .key, .upd, .dma, .nfc,
  .dpy, .clu]) ps := by rfl) :
    Acts ps s (t.legFetch n) :=
  h.via hp fun h => h.dmaError.ite (h.dmaError.ite (h.dmaError.ite (h.dmaRead.next fun h => (h.ite h.wr).dmaError.ite
    (h.modDma.countWrap.ite (h.modDma.wr.wr.next fun h => h.legDone.ite h.showDma)))))

theorem Acts.dmaBurst {n} (hp : Within (raising ++ [.gold, .bus, .clk, .boot, .mem, .bil, .thm, .efm, .key, .upd, .dma, .nfc,
  .dpy, .clu]) ps := by rfl) :
    Acts ps s (t.dmaBurst n) :=
  h.via hp fun h => h.dmaError.ite (h.dmaRead.dmaWrite.modDma.count.wr.next fun h => h.legDone.ite h)

theorem Acts.dmaCredit (hp : Within [.dma] ps := by rfl) : Acts ps s t.dmaCredit :=
  h.via hp fun h => h.each fun _ _ h => h.modDma

theorem Acts.dmaSlot (hp : Within (raising ++ [.gold, .bus, .clk, .boot, .mem, .bil, .thm, .efm, .key, .upd, .dma, .nfc, .dpy,
  .clu]) ps := by rfl) :
    Acts ps s t.dmaSlot :=
  h.via hp fun h => by
    unfold State.dmaSlot
    dsimp only
    split
    · exact h.dmaCredit
    · exact h.dmaCredit.modDma.next fun h => h.legFetch.ite h.dmaBurst

theorem Acts.regWrite {addr v} (hp : Within (raising ++ [.gold, .bus, .clk, .boot, .mem, .bil, .thm, .efm, .key, .upd, .dma,
  .nfc, .dpy, .clu]) ps := by rfl) :
    Acts ps s (t.regWrite addr v) :=
  h.via hp fun h => by
    unfold State.regWrite
    dsimp only
    refine Acts.ite ?_ h.busWrite
    split
    · exact ((h.busWrite.dmaAbort.ite (h.busWrite.dmaStart.ite h.busWrite)).ite h.busWrite).showDma.ite h.busWrite
    · exact h.busWrite

theorem Acts.takeStaged {p q told readBack} (hp : Within [.regs, .nfc] ps := by rfl) :
    Acts ps s (t.takeStaged p q told readBack).2.2 :=
  h.via hp fun h => by
    unfold State.takeStaged
    dsimp only
    split
    · split
      · dsimp only
        exact h.sticky.wrB.modNfc.ite h
      · dsimp only
        exact h.sticky.wrB.modNfc.ite h
    · exact h

theorem Acts.plBad {index cause item} (hp : Within [.regs] ps := by rfl) : Acts ps s (t.plBad index cause item) :=
  h.via hp fun h => (h.ite h.wr.wr.wr).sticky

theorem Acts.badRecord {index cause item} (hp : Within raising ps := by rfl) : Acts ps s (t.badRecord index cause item) :=
  h.via hp fun h => h.plBad.raiseOnce

theorem Acts.setStage {k} (hp : Within [.regs, .boot] ps := by rfl) : Acts ps s (t.setStage k) := h.via hp fun h => h.wr.modBoot

theorem Acts.takeSamples {x} (hp : Within (raising ++ [.boot, .key]) ps := by rfl) : Acts ps s (t.takeSamples x) :=
  h.via hp fun h => by
    unfold State.takeSamples
    split
    · exact h.createRoot.causeOff
    · exact (h.when fun _ h => h.raiseDev).modBoot.ite h

theorem Acts.runImage {i} (hp : Within [.regs, .boot, .flt, .key, .upd, .nfc] ps := by rfl) : Acts ps s (t.runImage i) :=
  h.via hp fun h => (h.wr.wr.wr.wr.wr.modUpd.modKey.modFlt.when fun _ h => h.showRuck).showSlots.modNfc.setStage

theorem Acts.presetPair {k p} (hp : Within (raising ++ [.gold, .bus, .clk, .boot, .mem, .bil, .thm, .efm, .key, .upd, .nfc,
  .dpy, .clu]) ps := by rfl) :
    Acts ps s (t.presetPair k p) :=
  h.via hp fun h => by
    refine h.badRecord.ite ?_
    split
    · exact h.badRecord.ite h.busWrite
    · exact h

theorem Acts.applyRecord {x} (hp : Within [.regs, .gold, .clk, .boot, .bil] ps := by rfl) : Acts ps s (t.applyRecord x) :=
  h.via hp fun h => by
    unfold State.applyRecord
    split
    · exact h.wr.wrCrit.wr.each fun _ _ h => h.wr.wrB
    · exact h.modBoot.wrB.setSource
    · exact h.modBoot.wrCrit.next fun h => h.modBoot.wrCrit.modBoot.wrCrit.ite h
    · exact h.modModule
    · exact h.putWord.putWord
    · exact h.modBoot.wrB
    · exact (h.foldl fun _ _ h => h.wrCrit).wrB.modBil
    · exact h.modBoot
    · exact h

theorem Acts.takeRecord {is k i} (hp : Within (raising ++ [.gold, .clk, .boot, .bil]) ps := by rfl) :
    Acts ps s (t.takeRecord is k i) :=
  h.via hp fun h => h.count.ite (h.badRecord.ite h.applyRecord)

theorem Acts.applyAccess {x} (hp : Within [.regs] ps := by rfl) : Acts ps s (t.applyAccess x) :=
  h.via hp fun h => by
    unfold State.applyAccess
    split
    · exact (h.wr.foldl fun _ _ h => h.setWord).showPend
    · exact h

theorem Acts.applyPreset {k x} (hp : Within (raising ++ [.gold, .bus, .clk, .boot, .mem, .bil, .thm, .efm, .key, .upd, .nfc,
  .dpy, .clu]) ps := by rfl) :
    Acts ps s (t.applyPreset k x) :=
  h.via hp fun h => by
    unfold State.applyPreset
    split
    · exact h.foldl fun _ _ h => h.presetPair
    · exact h

theorem Acts.noConfig (hp : Within [.regs, .boot] ps := by rfl) : Acts ps s t.noConfig := h.via hp fun h => h.wrB.modBoot

theorem Acts.rollCallCan (hp : Within [.regs, .boot, .lnk, .freeCtr] ps := by rfl) : Acts ps s t.rollCallCan :=
  h.via hp fun h => (h.modLnk.each fun _ _ h => h.canSend).each fun _ _ h => h.modModule

theorem Acts.mclkStart (hp : Within [.boot] ps := by rfl) : Acts ps s t.mclkStart := h.modBoot hp

theorem Acts.applyList {used c} (hp : Within (raising ++ [.gold, .bus, .clk, .boot, .mem, .bil, .thm, .efm, .key, .lnk, .upd,
  .nfc, .dpy, .clu, .freeCtr]) ps := by rfl) :
    Acts ps s (t.applyList used c) :=
  h.via hp fun h => ((((h.wrB.foldl fun _ _ h => h.takeRecord).foldl fun _ _ h => h.applyPreset.ite h).foldl fun _ _ h =>
    h.applyAccess.ite h).wr.modBoot.mclkStart.when fun _ h => h.modSaf).showCfgCrc.restore.openInterval.setStage.rollCallCan

theorem Acts.zoneFail (hp : Within raising ps := by rfl) : Acts ps s t.zoneFail := h.via hp fun h => h.sticky.raiseDev

theorem Acts.zoneEnd (hp : Within (raising ++ [.boot]) ps := by rfl) : Acts ps s t.zoneEnd :=
  h.via hp fun h => h.modBoot.when fun _ h => h.zoneFail

theorem Acts.coldEnds (hp : Within [.regs] ps := by rfl) : Acts ps s t.coldEnds := h.via hp fun h => h.leaveCauses.ite h

theorem Acts.scaleCauses (hp : Within [.flt] ps := by rfl) : Acts ps s t.scaleCauses :=
  h.via hp fun h => h.each fun _ _ h => h.causeOff

theorem Acts.enterService (hp : Within (raising ++ [.clk, .boot, .bil, .clu]) ps := by rfl) : Acts ps s t.enterService :=
  h.via hp fun h => (h.coldEnds.setStage.wrSat.wrB.powerLossClose.extStart.modBil.each fun _ _ h => h.ite h.raiseLane).next fun
    h => (h.ite h.modSaf).soOn.soOn

theorem Acts.enterWalk (hp : Within [.regs, .clk, .boot, .flt] ps := by rfl) : Acts ps s t.enterWalk :=
  h.via hp fun h => (h.modBoot.setStage.wrSat.fenceGo.when fun _ h => h.wrB).next fun h => h.ite h.pinRelease

theorem Acts.stageEdge (hp : Within (raising ++ [.gold, .clk, .boot, .bil, .thm, .efm, .clu]) ps := by rfl) :
    Acts ps s t.stageEdge :=
  h.via hp fun h => (h.adaptCommit.modBoot.ite (h.enterWalk.ite h)).ite (h.adaptCommit.next fun h => h.enterService.ite h)

end

/-! ## The commands -/

section
variable {s : State}

theorem runs_execDmaStart {n} : Runs [.regs, .dma] s (execDmaStart n s) := .of fun h => h.dmaStart

theorem runs_execDmaAbort {n} :
    Runs [.regs, .gold, .bus, .clk, .boot, .flt, .journal, .mem, .met, .bil, .thm, .pil, .swa, .saf, .efm, .key, .upd, .dma,
      .nfc, .dpy, .clu] s (execDmaAbort n s) :=
  .of fun h => h.dmaAbort

theorem runs_execDmaBurstSlot :
    Runs [.regs, .gold, .bus, .clk, .boot, .flt, .journal, .mem, .met, .bil, .thm, .pil, .swa, .saf, .efm, .key, .upd, .dma,
      .nfc, .dpy, .clu] s (execDmaBurstSlot s) :=
  .of fun h => h.dmaSlot

theorem runs_execPowerGood {entropy} :
    Runs [.regs, .clk, .boot, .flt, .journal, .met, .pil, .swa, .saf, .key, .freeCtr] s (execPowerGood entropy s) :=
  .of fun h => h.modBoot.modClk.setStage.draw.seedDrbg.takeSamples.ite h

theorem runs_execEntropyRetry {entropy} :
    Runs [.regs, .boot, .flt, .journal, .met, .pil, .swa, .saf, .key] s (execEntropyRetry entropy s) :=
  .of fun h => h.takeSamples.ite h

theorem runs_execBootMeasurementDone {active rucksack} :
    Runs [.regs, .gold, .bus, .clk, .boot, .flt, .journal, .mem, .met, .bil, .thm, .pil, .swa, .pins, .saf, .efm, .key, .alc,
      .lnk, .upd, .sbu, .dma, .nfc, .dpy, .clu] s (execBootMeasurementDone active rucksack s) :=
  .of fun h => (h.runImage.ite (h.rollback.ite (h.swapBanks.modUpd.setBank.runImage.ite h.modBoot))).ite h

theorem runs_execPackingListApplied {primary secondary staged readBack} :
    Runs [.regs, .gold, .bus, .clk, .boot, .flt, .journal, .mem, .met, .bil, .thm, .pil, .swa, .saf, .efm, .key, .lnk, .upd,
      .nfc, .dpy, .clu, .freeCtr] s (execPackingListApplied primary secondary staged readBack s) :=
  .of fun h => by
    refine Acts.ite ?_ h
    dsimp only
    split
    · exact h.takeStaged.modNfc.wr.wr.noConfig
    · split
      · exact h.takeStaged.modNfc.wr.wr.plBad.noConfig
      · exact h.takeStaged.modNfc.wr.wr.draw.plBad.noConfig
      · exact h.takeStaged.modNfc.wr.wr.applyList

theorem runs_execModuleRollCallTimeout {m} :
    Runs [.regs, .boot, .flt, .journal, .met, .pil, .swa, .saf] s (execModuleRollCallTimeout m s) :=
  .of fun h => h.modModule.raiseDev.ite h

theorem runs_execRollCallDone : Runs [.regs, .boot, .efm] s (execRollCallDone s) :=
  .of fun h => (h.setStage.wrB.modBoot.each fun _ _ h => h.adaptStart).ite h

theorem runs_execZoneConfirmEnd : Runs [.regs, .boot, .flt, .journal, .met, .pil, .swa, .saf] s (execZoneConfirmEnd s) :=
  .of fun h => h.zoneEnd.ite h

theorem runs_execSelfAdaptDone : Runs [.boot] s (execSelfAdaptDone s) := .of fun h => h.modBoot.ite h

theorem runs_execSelfAdaptTimeLimit :
    Runs [.regs, .boot, .flt, .journal, .met, .pil, .swa, .saf, .efm] s (execSelfAdaptTimeLimit s) :=
  .of fun h => ((h.each fun _ _ h => h.adaptJudge).next fun h => (h.modBoot.zoneFail.ite h).modBoot).ite h

theorem runs_execGuardWalkPairDone {k} : Runs [.regs] s (execGuardWalkPairDone k s) := .of fun h => h.walkPairDone

end

end Sys2Proof.Machine
end

