-- ==== Sys2Proof/Proofs/ReachEdges.lean ====
section
/-!
PROOFS. What the edges and the host port reach (files `Edges` and `Port`).
-/

namespace Sys2Proof.Machine

open Sys2Proof

set_option Elab.async false

section
variable {ps : List Part} {s t : State} (h : Acts ps s t)
include h

theorem Acts.latchPin {x} (hp : Within [.pins] ps := by rfl) : Acts ps s (t.latchPin x) := h.modPins hp

theorem Acts.railStep (hp : Within [.regs, .boot] ps := by rfl) : Acts ps s t.railStep := h.via hp fun h => h.ite h.modBoot.wrB

theorem Acts.timeStep (hp : Within [.regs, .clk] ps := by rfl) : Acts ps s t.timeStep :=
  h.via hp fun h => (h.wallTick.wr.countWrap.modClk.when fun _ h => h.wr.strobesMissed).wr

theorem Acts.laneWork (hp : Within (raising ++ [.gold, .clk, .bil, .thm, .efm, .nfc]) ps := by rfl) : Acts ps s t.laneWork :=
  h.via hp fun h => (h.showCurrents.headCauses.chanCauses.scaleCauses.consentRefresh.metWork.soundsEdge.each fun _ _ h =>
    h.sessionEdge.pilotChoose).efmEdge.dissipate.schedule.nfcEdge.plausibility

theorem Acts.frameWork {overrun} (hp : Within (raising ++ [.gold, .clk, .boot, .mem, .bil, .thm, .pins, .efm, .lnk, .nfc, .clu])
  ps := by rfl) :
    Acts ps s (t.frameWork overrun) :=
  h.via hp fun h => (h.modClk.each fun _ _ h => h.ppoFrame).next fun h => h.consentRefresh.channelFrame.faultEdge.mailOut.ite
    h.railStep.laneWork.bilWork.channelFrame.faultEdge.moduleAges.mailOut.cluEdge

theorem Acts.latchEdge {inp} (hp : Within (raising ++ [.pins, .efm]) ps := by rfl) : Acts ps s (t.latchEdge inp) :=
  h.via hp fun h => (h.foldl fun _ _ h => h.latchPin).modSaf.metLatch.efmLatch

theorem Acts.edgeRun {inp ov} (hp : Within starting ps := by rfl) : Acts ps s (t.edgeRun inp ov) :=
  h.via hp fun h => (h.judgeDue.fenceClose.timeStep.pairUse.when fun _ h =>
    h.overran).latchEdge.strobeStep.applyEpoch.stageEdge.next fun h => (h.launch.sbuLaunch.ite h).next fun h => ((h.when fun _ h
    => h.overran).metSecond.bilSecond.scrub.saveStart.jlSecond.sbuSecond.ite
    h).modBil.tariffStep.frameWork.stepDecide.confirmEdge.updEdge.next fun h => h.warmStart.ite h

theorem Acts.edge {inp ov} (hp : Within starting ps := by rfl) : Acts ps s (t.edge inp ov) :=
  h.via hp fun h => (h.wallTick.foldl fun _ _ h => h.latchPin).ite (h.edgeRun.ite h)

theorem Acts.hostWrites {a ws}
    (hp : Within (raising ++ [.gold, .bus, .clk, .boot, .mem, .bil, .thm, .efm, .key, .upd, .dma, .nfc, .dpy, .clu]) ps := by rfl) :
    Acts ps s (t.hostWrites a ws).2 := by
  induction ws generalizing t a with
  | nil => exact h
  | cons w ws ih =>
    unfold State.hostWrites
    split
    · exact ih (h.count rfl (.trans rfl hp))
    · exact ih (h.regWrite hp)

theorem Acts.hostReads {a k} (hp : Within (raising ++ [.bus]) ps := by rfl) : Acts ps s (t.hostReads a k).2 := by
  induction k generalizing t a with
  | zero => exact h
  | succ k ih => exact ih (h.busRead hp)

theorem Acts.hostAnswer {bs} (hp : Within [.bus] ps := by rfl) : Acts ps s (t.hostAnswer bs) := h.modBus hp

theorem Acts.hostCut (hp : Within [.regs, .bus] ps := by rfl) : Acts ps s t.hostCut := h.via hp fun h => h.count.hostAnswer

theorem Acts.hostWrite {ns len} (hp : Within (raising ++ [.gold, .bus, .clk, .boot, .mem, .bil, .thm, .efm, .key, .upd, .dma,
  .nfc, .dpy, .clu]) ps := by rfl) :
    Acts ps s (t.hostWrite ns len) :=
  h.via hp fun h => h.hostWrites.hostAnswer.ite h.count.hostAnswer

theorem Acts.hostRead {ns len} (hp : Within (raising ++ [.bus]) ps := by rfl) : Acts ps s (t.hostRead ns len) :=
  h.via hp fun h => h.hostReads.hostAnswer

end

/-! ## The commands -/

section
variable {s : State}

theorem runs_execSampleTick {xs ej overrun} :
    Runs [.regs, .gold, .clk, .flt, .journal, .met, .pil, .swa, .saf, .efm] s (execSampleTick xs ej overrun s) :=
  .of fun h => h.ite (h.modClk.next fun h => (h.count.raiseOnce.ite h).next fun h => ((h.latchSamples.streamTicks.each fun _ _ h
    => h.phaseTick).each fun _ _ h => h.outletTick).efmTick.capTick.ite h)

theorem runs_execControlFrameEdge {inp ov} :
    Runs [.regs, .gold, .bus, .clk, .boot, .flt, .journal, .mem, .met, .bil, .thm, .pil, .swa, .pins, .saf, .efm, .key, .alc,
      .lnk, .upd, .sbu, .dma, .nfc, .dpy, .clu] s (execControlFrameEdge inp ov s) :=
  .of fun h => h.edge

theorem runs_execLaunchEdge {inp ov} :
    Runs [.regs, .gold, .bus, .clk, .boot, .flt, .journal, .mem, .met, .bil, .thm, .pil, .swa, .pins, .saf, .efm, .key, .alc,
      .lnk, .upd, .sbu, .dma, .nfc, .dpy, .clu] s (execLaunchEdge inp ov s) :=
  .of fun h => h.edge.ite h

theorem runs_execLedgerSecondEdge {inp ov} :
    Runs [.regs, .gold, .bus, .clk, .boot, .flt, .journal, .mem, .met, .bil, .thm, .pil, .swa, .pins, .saf, .efm, .key, .alc,
      .lnk, .upd, .sbu, .dma, .nfc, .dpy, .clu] s (execLedgerSecondEdge inp ov s) :=
  .of fun h => h.edge.ite h

theorem runs_execTariffIntervalEdge {inp ov} :
    Runs [.regs, .gold, .bus, .clk, .boot, .flt, .journal, .mem, .met, .bil, .thm, .pil, .swa, .pins, .saf, .efm, .key, .alc,
      .lnk, .upd, .sbu, .dma, .nfc, .dpy, .clu] s (execTariffIntervalEdge inp ov s) :=
  .of fun h => h.edge.ite h

theorem runs_execPeriodChangeEdge {inp ov} :
    Runs [.regs, .gold, .bus, .clk, .boot, .flt, .journal, .mem, .met, .bil, .thm, .pil, .swa, .pins, .saf, .efm, .key, .alc,
      .lnk, .upd, .sbu, .dma, .nfc, .dpy, .clu] s (execPeriodChangeEdge inp ov s) :=
  .of fun h => h.edge.ite h

theorem runs_execRegisterWrite {addr val} :
    Runs [.regs, .gold, .bus, .clk, .boot, .flt, .journal, .mem, .met, .bil, .thm, .pil, .swa, .saf, .efm, .key, .upd, .dma,
      .nfc, .dpy, .clu] s (execRegisterWrite addr val s) :=
  .of fun h => h.regWrite

theorem runs_execBufferedWrite {addr val} :
    Runs [.regs, .gold, .bus, .clk, .boot, .flt, .journal, .mem, .met, .bil, .thm, .pil, .swa, .saf, .efm, .key, .upd, .dma,
      .nfc, .dpy, .clu] s (execBufferedWrite addr val s) :=
  .of fun h => h.regWrite

theorem runs_execWctlWrite {blk val} :
    Runs [.regs, .gold, .bus, .clk, .boot, .flt, .journal, .mem, .met, .bil, .thm, .pil, .swa, .saf, .efm, .key, .upd, .dma,
      .nfc, .dpy, .clu] s (execWctlWrite blk val s) :=
  .of fun h => h.regWrite

theorem runs_execCriticalWrite {addr val} :
    Runs [.regs, .gold, .bus, .clk, .boot, .flt, .journal, .mem, .met, .bil, .thm, .pil, .swa, .saf, .efm, .key, .upd, .dma,
      .nfc, .dpy, .clu] s (execCriticalWrite addr val s) :=
  .of fun h => h.regWrite

theorem runs_execComplementWrite {addr val} :
    Runs [.regs, .gold, .bus, .clk, .boot, .flt, .journal, .mem, .met, .bil, .thm, .pil, .swa, .saf, .efm, .key, .upd, .dma,
      .nfc, .dpy, .clu] s (execComplementWrite addr val s) :=
  .of fun h => h.regWrite

theorem runs_execStatusClearWrite {addr val} :
    Runs [.regs, .gold, .bus, .clk, .boot, .flt, .journal, .mem, .met, .bil, .thm, .pil, .swa, .saf, .efm, .key, .upd, .dma,
      .nfc, .dpy, .clu] s (execStatusClearWrite addr val s) :=
  .of fun h => h.regWrite

theorem runs_execWideRegisterRead {addr} :
    Runs [.regs, .bus, .flt, .journal, .met, .pil, .swa, .saf] s (execWideRegisterRead addr s) :=
  .of fun h => h.busRead.modBus

theorem runs_execStrobeGo {groups} : Runs [.clk] s (execStrobeGo groups s) := .of fun h => h.strobeGo

theorem runs_execDiscardDrop {groups} : Runs [.regs, .bus] s (execDiscardDrop groups s) := .of fun h => h.discard

theorem runs_execStrobeArm {g} : Runs [.regs] s (execStrobeArm g s) := .of fun h => h.strobeArm

theorem runs_execStrobeCancel {g} : Runs [.regs] s (execStrobeCancel g s) := .of fun h => h.strobeCancel

theorem runs_execStaleCounterClear : Runs [.regs] s (execStaleCounterClear s) := .of fun h => h.wr.wr

theorem runs_execWdenyClear : Runs [.regs] s (execWdenyClear s) := .of fun h => h.wr

theorem runs_execHostTransaction {x} :
    Runs [.regs, .gold, .bus, .clk, .boot, .flt, .journal, .mem, .met, .bil, .thm, .pil, .swa, .saf, .efm, .key, .upd, .dma,
      .nfc, .dpy, .clu] s (execHostTransaction x s) := .of fun h => by
    refine h.hostCut.ite ?_
    dsimp only
    split
    · exact h.hostCut.ite h.hostWrite
    · exact h.hostCut.ite h.hostRead
    · exact h.hostAnswer

end

end Sys2Proof.Machine
end

