-- ==== Sys2Proof/Proofs/StepReach.lean ====
section
/-!
PROOFS. O3, O4, O59, O60, O2, O1: what a command answers and reaches, from one lemma per command, and what a step keeps.
-/

namespace Sys2Proof.Machine

open Sys2Proof

set_option Elab.async false

/-- Every command answers a next state, and acts on the parts of its list only. -/
theorem runs_exec (c : Instr) (s : State) : Runs (touches c) s (exec c s) :=
  match c with
  | .sampleTick .. => runs_execSampleTick
  | .controlFrameEdge .. => runs_execControlFrameEdge
  | .launchEdge .. => runs_execLaunchEdge
  | .ledgerSecondEdge .. => runs_execLedgerSecondEdge
  | .tariffIntervalEdge .. => runs_execTariffIntervalEdge
  | .periodChangeEdge .. => runs_execPeriodChangeEdge
  | .syncResult .. => runs_execSyncResult
  | .syncResultTimeout .. => runs_execSyncResultTimeout
  | .holdoverExpiry .. => runs_execHoldoverExpiry
  | .registerWrite .. => runs_execRegisterWrite
  | .bufferedWrite .. => runs_execBufferedWrite
  | .wctlWrite .. => runs_execWctlWrite
  | .criticalWrite .. => runs_execCriticalWrite
  | .complementWrite .. => runs_execComplementWrite
  | .statusClearWrite .. => runs_execStatusClearWrite
  | .hostTransaction .. => runs_execHostTransaction
  | .strobeGo .. => runs_execStrobeGo
  | .discardDrop .. => runs_execDiscardDrop
  | .strobeArm .. => runs_execStrobeArm
  | .strobeCancel .. => runs_execStrobeCancel
  | .staleCounterClear .. => runs_execStaleCounterClear
  | .wdenyClear .. => runs_execWdenyClear
  | .fenceGo .. => runs_execFenceGo
  | .overrunClear .. => runs_execOverrunClear
  | .coldStart .. => runs_execColdStart
  | .powerGood .. => runs_execPowerGood
  | .entropyRetry .. => runs_execEntropyRetry
  | .bootMeasurementDone .. => runs_execBootMeasurementDone
  | .packingListApplied .. => runs_execPackingListApplied
  | .rollCallDone .. => runs_execRollCallDone
  | .moduleRollCallTimeout .. => runs_execModuleRollCallTimeout
  | .selfAdaptDone .. => runs_execSelfAdaptDone
  | .selfAdaptTimeLimit .. => runs_execSelfAdaptTimeLimit
  | .zoneConfirmEnd .. => runs_execZoneConfirmEnd
  | .guardWalkPairDone .. => runs_execGuardWalkPairDone
  | .laneAdaptGo .. => runs_execLaneAdaptGo
  | .laneAdaptDone .. => runs_execLaneAdaptDone
  | .fieldSupplyLoss .. => runs_execFieldSupplyLoss
  | .thermosToVbak .. => runs_execThermosToVbak
  | .thermosToIo33 .. => runs_execThermosToIo33
  | .thermosSupplyLoss .. => runs_execThermosSupplyLoss
  | .thermosSupplyReturn .. => runs_execThermosSupplyReturn
  | .internalLinkTransfer .. => runs_execInternalLinkTransfer
  | .headProbe .. => runs_execHeadProbe
  | .headRollCallDone .. => runs_execHeadRollCallDone
  | .headSensorRead .. => runs_execHeadSensorRead
  | .streamLost .. => runs_execStreamLost
  | .sensorBusScan .. => runs_execSensorBusScan
  | .sensorBusStuck .. => runs_execSensorBusStuck
  | .sensorBusFault .. => runs_execSensorBusFault
  | .calSealSet .. => runs_execCalSealSet
  | .strcntClear .. => runs_execStrcntClear
  | .qcntClear .. => runs_execQcntClear
  | .captureArm .. => runs_execCaptureArm
  | .captureDisarm .. => runs_execCaptureDisarm
  | .captureRelease .. => runs_execCaptureRelease
  | .captureSwtrig .. => runs_execCaptureSwtrig
  | .captureDone .. => runs_execCaptureDone
  | .captureDataRead .. => runs_execCaptureDataRead
  | .captureOvrClear .. => runs_execCaptureOvrClear
  | .proofPulse .. => runs_execProofPulse
  | .proofPulseEnd .. => runs_execProofPulseEnd
  | .hamperSaveDone .. => runs_execHamperSaveDone
  | .powerFailWarning .. => runs_execPowerFailWarning
  | .hamperFinalSaveDone .. => runs_execHamperFinalSaveDone
  | .newRegisterEpoch .. => runs_execNewRegisterEpoch
  | .billingRebuild .. => runs_execBillingRebuild
  | .periodCloseCommand .. => runs_execPeriodCloseCommand
  | .periodClose .. => runs_execPeriodClose
  | .closingFenceTimeout .. => runs_execClosingFenceTimeout
  | .wallTimeSet .. => runs_execWallTimeSet
  | .sessionSignDone .. => runs_execSessionSignDone
  | .ledgerLostClear .. => runs_execLedgerLostClear
  | .tamperSample .. => runs_execTamperSample
  | .journalDataRead .. => runs_execJournalDataRead
  | .pilotPeriodStart .. => runs_execPilotPeriodStart
  | .pilotStateDebounced .. => runs_execPilotStateDebounced
  | .diodeFault .. => runs_execDiodeFault
  | .proximityDebounced .. => runs_execProximityDebounced
  | .proximityOpenDecision .. => runs_execProximityOpenDecision
  | .stepTimeout .. => runs_execStepTimeout
  | .suspendStopTimeout .. => runs_execSuspendStopTimeout
  | .slacTimeout .. => runs_execSlacTimeout
  | .slacRetryResume .. => runs_execSlacRetryResume
  | .faultedHoldEnd .. => runs_execFaultedHoldEnd
  | .idleBTimeout .. => runs_execIdleBTimeout
  | .cmSlacParmReq .. => runs_execCmSlacParmReq
  | .cmStartAttenCharInd .. => runs_execCmStartAttenCharInd
  | .cmMnbcSoundInd .. => runs_execCmMnbcSoundInd
  | .cmAttenCharRsp .. => runs_execCmAttenCharRsp
  | .cmValidateReq .. => runs_execCmValidateReq
  | .cmSlacMatchReq .. => runs_execCmSlacMatchReq
  | .sdpRequest .. => runs_execSdpRequest
  | .supportedAppProtocol .. => runs_execSupportedAppProtocol
  | .sessionSetup .. => runs_execSessionSetup
  | .serviceDiscovery .. => runs_execServiceDiscovery
  | .serviceDetail .. => runs_execServiceDetail
  | .servicePaymentSelection .. => runs_execServicePaymentSelection
  | .serviceSelection .. => runs_execServiceSelection
  | .paymentDetails .. => runs_execPaymentDetails
  | .contractAuthentication .. => runs_execContractAuthentication
  | .authorizationSetup .. => runs_execAuthorizationSetup
  | .authorization .. => runs_execAuthorization
  | .chargeParameterDiscovery .. => runs_execChargeParameterDiscovery
  | .acChargeParameterDiscovery .. => runs_execAcChargeParameterDiscovery
  | .dcChargeParameterDiscovery .. => runs_execDcChargeParameterDiscovery
  | .scheduleExchange .. => runs_execScheduleExchange
  | .cableCheck .. => runs_execCableCheck
  | .dcCableCheck .. => runs_execDcCableCheck
  | .preCharge .. => runs_execPreCharge
  | .dcPreCharge .. => runs_execDcPreCharge
  | .powerDelivery .. => runs_execPowerDelivery
  | .currentDemand .. => runs_execCurrentDemand
  | .chargingStatus .. => runs_execChargingStatus
  | .acChargeLoop .. => runs_execAcChargeLoop
  | .dcChargeLoop .. => runs_execDcChargeLoop
  | .meteringReceipt .. => runs_execMeteringReceipt
  | .meteringConfirmation .. => runs_execMeteringConfirmation
  | .weldingDetection .. => runs_execWeldingDetection
  | .dcWeldingDetection .. => runs_execDcWeldingDetection
  | .certificateInstallation .. => runs_execCertificateInstallation
  | .certificateUpdate .. => runs_execCertificateUpdate
  | .sessionStop .. => runs_execSessionStop
  | .renegotiation .. => runs_execRenegotiation
  | .remoteStart .. => runs_execRemoteStart
  | .authDecision .. => runs_execAuthDecision
  | .remoteStop .. => runs_execRemoteStop
  | .authOk .. => runs_execAuthOk
  | .authNo .. => runs_execAuthNo
  | .firmwareStop .. => runs_execFirmwareStop
  | .cardHoldExpiry .. => runs_execCardHoldExpiry
  | .xcntClear .. => runs_execXcntClear
  | .injectionChip .. => runs_execInjectionChip
  | .efWindowUpdate .. => runs_execEfWindowUpdate
  | .cableCheckPhaseEnd .. => runs_execCableCheckPhaseEnd
  | .injectionStepHalfEnd .. => runs_execInjectionStepHalfEnd
  | .rcdTestOnEnd .. => runs_execRcdTestOnEnd
  | .rcdTestOffEnd .. => runs_execRcdTestOffEnd
  | .headcountSend .. => runs_execHeadcountSend
  | .headcountReceived .. => runs_execHeadcountReceived
  | .allocationCutoff .. => runs_execAllocationCutoff
  | .allocationComputed .. => runs_execAllocationComputed
  | .bookingRelease .. => runs_execBookingRelease
  | .schedClear .. => runs_execSchedClear
  | .pullInEnd .. => runs_execPullInEnd
  | .lockMoveEnd .. => runs_execLockMoveEnd
  | .lockRetry .. => runs_execLockRetry
  | .channelTrip .. => runs_execChannelTrip
  | .retryPauseEnd .. => runs_execRetryPauseEnd
  | .tripCountReset .. => runs_execTripCountReset
  | .releaseCcLatch .. => runs_execReleaseCcLatch
  | .releaseLkLatch .. => runs_execReleaseLkLatch
  | .releaseGenLatch .. => runs_execReleaseGenLatch
  | .genChannelOn .. => runs_execGenChannelOn
  | .genChannelOff .. => runs_execGenChannelOff
  | .openLoad .. => runs_execOpenLoad
  | .fieldGroundLoss .. => runs_execFieldGroundLoss
  | .reverseAux .. => runs_execReverseAux
  | .auxSurge .. => runs_execAuxSurge
  | .auxUnderVoltage .. => runs_execAuxUnderVoltage
  | .supplyResume .. => runs_execSupplyResume
  | .clampEvent .. => runs_execClampEvent
  | .clampBucketDrain .. => runs_execClampBucketDrain
  | .thermalShed .. => runs_execThermalShed
  | .overTempOff .. => runs_execOverTempOff
  | .overTempResume .. => runs_execOverTempResume
  | .currentCrosscheck .. => runs_execCurrentCrosscheck
  | .safeRequest .. => runs_execSafeRequest
  | .guardInputChange .. => runs_execGuardInputChange
  | .guardDiscrepancy .. => runs_execGuardDiscrepancy
  | .mirrorDiscrepancy .. => runs_execMirrorDiscrepancy
  | .weldTest .. => runs_execWeldTest
  | .soWeldDelayEnd .. => runs_execSoWeldDelayEnd
  | .soFeedbackTimeout .. => runs_execSoFeedbackTimeout
  | .safetyPduSend .. => runs_execSafetyPduSend
  | .safetyPduReceived .. => runs_execSafetyPduReceived
  | .safetyConnTimeout .. => runs_execSafetyConnTimeout
  | .linkCauseEnd .. => runs_execLinkCauseEnd
  | .safetyCmpClear .. => runs_execSafetyCmpClear
  | .safetyConnCntClear .. => runs_execSafetyConnCntClear
  | .faultClear .. => runs_execFaultClear
  | .laneRestore .. => runs_execLaneRestore
  | .laneRetire .. => runs_execLaneRetire
  | .faultPinRelease .. => runs_execFaultPinRelease
  | .faultInputLevel .. => runs_execFaultInputLevel
  | .watchdogKey .. => runs_execWatchdogKey
  | .watchdogProbe .. => runs_execWatchdogProbe
  | .watchdogProbeTimeout .. => runs_execWatchdogProbeTimeout
  | .watchdogReset .. => runs_execWatchdogReset
  | .encoderEdge .. => runs_execEncoderEdge
  | .encoderHome .. => runs_execEncoderHome
  | .sbCallSend .. => runs_execSbCallSend
  | .sbCallReceived .. => runs_execSbCallReceived
  | .sbMasterTakeover .. => runs_execSbMasterTakeover
  | .sbTrainSend .. => runs_execSbTrainSend
  | .sbRelay .. => runs_execSbRelay
  | .sbFrameReceived .. => runs_execSbFrameReceived
  | .sbTurnPass .. => runs_execSbTurnPass
  | .sbJoinTurn .. => runs_execSbJoinTurn
  | .sbBulkTurn .. => runs_execSbBulkTurn
  | .sbToneMapMsg .. => runs_execSbToneMapMsg
  | .sbLinkReport .. => runs_execSbLinkReport
  | .sbRouteMsg .. => runs_execSbRouteMsg
  | .routeTableEffect .. => runs_execRouteTableEffect
  | .toneMapRefresh .. => runs_execToneMapRefresh
  | .neighbourDrop .. => runs_execNeighbourDrop
  | .sbFinjClear .. => runs_execSbFinjClear
  | .ethLinkChange .. => runs_execEthLinkChange
  | .ptpSync .. => runs_execPtpSync
  | .ptpFollowUp .. => runs_execPtpFollowUp
  | .ptpDelayResp .. => runs_execPtpDelayResp
  | .ptpDelayReq .. => runs_execPtpDelayReq
  | .ptpAnnounce .. => runs_execPtpAnnounce
  | .ptpSyncSend .. => runs_execPtpSyncSend
  | .jlFrameReceived .. => runs_execJlFrameReceived
  | .jlAckTimeout .. => runs_execJlAckTimeout
  | .jlLinkUp .. => runs_execJlLinkUp
  | .jlRoundTrip .. => runs_execJlRoundTrip
  | .canTimeSend .. => runs_execCanTimeSend
  | .canStatus .. => runs_execCanStatus
  | .canIdrsp .. => runs_execCanIdrsp
  | .canForeignFrame .. => runs_execCanForeignFrame
  | .moduleStatusTimeout .. => runs_execModuleStatusTimeout
  | .moduleIdreqRetry .. => runs_execModuleIdreqRetry
  | .canBusOff .. => runs_execCanBusOff
  | .canBusOffRecovery .. => runs_execCanBusOffRecovery
  | .hostCntClear .. => runs_execHostCntClear
  | .lnkFinjClear .. => runs_execLnkFinjClear
  | .keyGen .. => runs_execKeyGen
  | .keyImport .. => runs_execKeyImport
  | .keyErase .. => runs_execKeyErase
  | .keyPub .. => runs_execKeyPub
  | .keyNewbill .. => runs_execKeyNewbill
  | .keyReseal .. => runs_execKeyReseal
  | .zeroise .. => runs_execZeroise
  | .drbgReseed .. => runs_execDrbgReseed
  | .updateOpen .. => runs_execUpdateOpen
  | .updateBlock .. => runs_execUpdateBlock
  | .updateBlockGo .. => runs_execUpdateBlockGo
  | .verifyDone .. => runs_execVerifyDone
  | .updateAct .. => runs_execUpdateAct
  | .updateCancel .. => runs_execUpdateCancel
  | .idleWindow .. => runs_execIdleWindow
  | .updateConfirm .. => runs_execUpdateConfirm
  | .confirmWindowExpiry .. => runs_execConfirmWindowExpiry
  | .updateCntClear .. => runs_execUpdateCntClear
  | .dmaStart .. => runs_execDmaStart
  | .dmaAbort .. => runs_execDmaAbort
  | .dmaBurstSlot .. => runs_execDmaBurstSlot
  | .readerPing .. => runs_execReaderPing
  | .readerRebase .. => runs_execReaderRebase
  | .readerFoff .. => runs_execReaderFoff
  | .readerPoll .. => runs_execReaderPoll
  | .readerPollTimeout .. => runs_execReaderPollTimeout
  | .cardActivated .. => runs_execCardActivated
  | .readerSessionTimeout .. => runs_execReaderSessionTimeout
  | .readerCardLoss .. => runs_execReaderCardLoss
  | .readerCntClear .. => runs_execReaderCntClear
  | .tagInventory .. => runs_execTagInventory
  | .tagStayQuiet .. => runs_execTagStayQuiet
  | .tagSelect .. => runs_execTagSelect
  | .tagResetToReady .. => runs_execTagResetToReady
  | .tagGetSystemInfo .. => runs_execTagGetSystemInfo
  | .tagExtGetSystemInfo .. => runs_execTagExtGetSystemInfo
  | .tagExtReadSingle .. => runs_execTagExtReadSingle
  | .tagExtReadMultiple .. => runs_execTagExtReadMultiple
  | .tagExtWriteSingle .. => runs_execTagExtWriteSingle
  | .tagCommit .. => runs_execTagCommit
  | .tagFieldChange .. => runs_execTagFieldChange
  | .displayOn .. => runs_execDisplayOn
  | .displayOff .. => runs_execDisplayOff
  | .displayRailStep .. => runs_execDisplayRailStep
  | .displayFrameStart .. => runs_execDisplayFrameStart
  | .coherenceRequest .. => runs_execCoherenceRequest
  | .memoryScrub .. => runs_execMemoryScrub
  | .memoryEccError .. => runs_execMemoryEccError
  | .eccCntClear .. => runs_execEccCntClear
  | .extensionSliceEnd .. => runs_execExtensionSliceEnd
  | .sandboxViolation .. => runs_execSandboxViolation
  | .extensionStop .. => runs_execExtensionStop
  | .resetCommand .. => runs_execResetCommand
  | .coreSupplyLoss .. => runs_execCoreSupplyLoss
  | .fieldSupplyReturn .. => runs_execFieldSupplyReturn
  | .keyCommandDone .. => runs_execKeyCommandDone
  | .wideRegisterRead .. => runs_execWideRegisterRead
  | .dischargeCommand .. => runs_execDischargeCommand

/-- What the next state is reached by, where a command is known to answer it. -/
theorem acts_of_exec {c : Instr} {s t : State} (h : exec c s = .next t) : Acts (touches c) s t := by
  obtain ⟨u, hu, hacts⟩ := runs_exec c s
  rw [h] at hu
  cases hu
  exact hacts

/-- Is a part one that no list holds, or a wide list only by exception: the queue; the engine, the bus and the pins? -/
def Part.rareIn (wide : Bool) : Part → Bool
  | .pending => true
  | .dma | .bus | .pins => wide
  | _ => false

/-- Is a list of six to fifteen parts? -/
def isWide (ps : List Part) : Bool := decide (6 ≤ ps.length) && decide (ps.length ≤ 15)

/-- Does a list hold no part that is rare in it? -/
def plainParts (ps : List Part) : Bool := ps.all fun p => !p.rareIn (isWide ps)

theorem notMem_of_plainParts {ps : List Part} (h : plainParts ps = true) {p : Part} (hp : p.rareIn (isWide ps) = true) : p ∉ ps := by
  intro hmem
  have hrare := List.all_eq_true.1 h p hmem
  rw [hp] at hrare
  exact Bool.false_ne_true hrare

theorem notMem_of_contains {ps : List Part} {p : Part} (h : ps.contains p = false) : p ∉ ps := by
  simpa using h

/-- Every list is plain but that of one command on the bus and one on the pins. -/
theorem touches_cases (c : Instr) :
    plainParts (touches c) = true ∨ (∃ a, c = .wideRegisterRead a) ∨ ∃ k a b, c = .guardInputChange k a b := by
  cases c
  case wideRegisterRead a => exact .inr (.inl ⟨a, rfl⟩)
  case guardInputChange k a b => exact .inr (.inr ⟨k, a, b, rfl⟩)
  all_goals exact .inl rfl

/-- No command's list holds the queue. -/
theorem pending_not_mem_touches (c : Instr) : Part.pending ∉ touches c := by
  obtain hplain | ⟨a, rfl⟩ | ⟨k, a, b, rfl⟩ := touches_cases c
  · exact notMem_of_plainParts hplain rfl
  · exact notMem_of_contains rfl
  · exact notMem_of_contains rfl

/-- In the lists of six to fifteen parts the engine and the queue do not occur, the bus and the pins once each. -/
theorem touches_of_wide (c : Instr) (hlow : 6 ≤ (touches c).length) (hhigh : (touches c).length ≤ 15) :
    .dma ∉ touches c ∧ .pending ∉ touches c ∧ (.bus ∈ touches c → ∃ a, c = .wideRegisterRead a) ∧
      (.pins ∈ touches c → ∃ k a b, c = .guardInputChange k a b) := by
  have hqueue := pending_not_mem_touches c
  have hwide : isWide (touches c) = true := by
    rw [isWide, decide_eq_true hlow, decide_eq_true hhigh, Bool.true_and]
  obtain hplain | ⟨a, rfl⟩ | ⟨k, a, b, rfl⟩ := touches_cases c
  · have hnot {p : Part} (hp : p.rareIn true = true) : p ∉ touches c := notMem_of_plainParts hplain (by rw [hwide, hp])
    exact ⟨hnot rfl, hqueue, fun h => absurd h (hnot rfl), fun h => absurd h (hnot rfl)⟩
  · exact ⟨notMem_of_contains rfl, hqueue, fun _ => ⟨a, rfl⟩, fun h => absurd h (notMem_of_contains rfl)⟩
  · exact ⟨notMem_of_contains rfl, hqueue, fun h => absurd h (notMem_of_contains rfl), fun _ => ⟨k, a, b, rfl⟩⟩

/-! ## The step (log entry 1) -/

theorem step_of_pending_cons {s : State} {c : Instr} {rest : List Instr} (h : s.pending = c :: rest) :
    step s = exec c (s.setPending rest) := by
  unfold step
  rw [h]

theorem step_of_pending_nil {s : State} (h : s.pending = []) : step s = .next s := by
  unfold step
  rw [h]

/-- A step idles, or runs the command at the front of the queue. -/
theorem step_cases {s t : State} (h : step s = .next t) :
    (s.pending = [] ∧ t = s) ∨ ∃ c rest, s.pending = c :: rest ∧ exec c (s.setPending rest) = .next t := by
  cases hq : s.pending with
  | nil =>
    rw [step_of_pending_nil hq] at h
    cases h
    exact .inl ⟨rfl, rfl⟩
  | cons c rest => exact .inr ⟨c, rest, rfl, step_of_pending_cons hq ▸ h⟩

theorem pending_of_exec {c : Instr} {s t : State} (h : exec c s = .next t) : t.pending = s.pending :=
  (acts_of_exec h).1 .pending (pending_not_mem_touches c)

/-- Settles O1: both cases of the definition. -/
theorem stepRunsFrontCommand : Obligations.StepRunsFrontCommand :=
  ⟨fun _ _ _ => step_of_pending_cons, fun _ => step_of_pending_nil⟩

/-- Settles O2: what every command's lemma says first. -/
theorem noCommandStopsTheBlock : Obligations.NoCommandStopsTheBlock := fun c s =>
  have ⟨t, ht, _⟩ := runs_exec c s
  ⟨t, ht⟩

/-- Settles O3: the queue is in no command's list, and a step leaves its rest. -/
theorem noCommandTouchesTheQueue : Obligations.NoCommandTouchesTheQueue := by
  refine ⟨fun _ _ _ => pending_of_exec, fun s t hwf h c hc => ?_⟩
  obtain ⟨-, rfl⟩ | ⟨d, rest, hq, hd⟩ := step_cases h
  · exact hwf c hc
  · rw [pending_of_exec hd] at hc
    exact hwf c (hq ▸ .tail d hc)

/-- Settles O4: every operation of the model keeps the canonical form. -/
theorem storedListsStayCanonical : Obligations.StoredListsStayCanonical := by
  intro s t hs h
  obtain ⟨-, rfl⟩ | ⟨c, rest, -, hc⟩ := step_cases h
  · exact hs
  · exact (acts_of_exec hc).2 hs

/-- Settles O59: each command reaches the parts of its list only. -/
theorem narrowCommandsKeepTheRest : Obligations.NarrowCommandsKeepTheRest :=
  fun _ _ _ _ h => (acts_of_exec h).1

/-- Settles O60: each command reaches the parts of its list only. -/
theorem wideCommandsKeepTheRest : Obligations.WideCommandsKeepTheRest :=
  ⟨fun _ _ _ _ _ h => (acts_of_exec h).1, touches_of_wide⟩

end Sys2Proof.Machine
end

