-- ==== Sys2Proof/Proofs/HostFraming.lean ====
section
/-!
PROOFS. O5: the state after reset. O19: host transactions cut short, and whole writes with a wrong CRC-8.
-/

namespace Sys2Proof.Machine

open Sys2Proof

set_option Elab.async false

/-! ## The state after reset (R62, R47, R57, R280, R311) -/

theorem reset_words :
    State.reset.word A.SYS_ID = 0x32000010 ∧ State.reset.stage = 0 ∧ State.reset.word A.SYS_DEVID = 0 := by decide +kernel

theorem reset_wctl : ∀ b, b < 19 → State.reset.word (wctlAddr b) = 0 := by decide +kernel

theorem reset_ticks : State.reset.rd F.TCK_SYNC_STATE = 0 ∧ State.reset.rd F.TCK_EPOCH_EPOCH = 0 := by decide +kernel

theorem reset_safetyCauses : State.reset.rd F.SAF_STAT_ESTOP = 0 ∧ State.reset.rd F.SAF_STAT_GUARD = 0 ∧
    State.reset.rd F.SAF_STAT_LINK = 0 ∧ State.reset.rd F.SAF_STAT_CHANNEL = 0 ∧ State.reset.rd F.SAF_STAT_SERVICE = 0 := by
  decide +kernel

theorem reset_retired : State.reset.rdSet F.FLT_RETIRED_LANE = 0 := by decide +kernel

theorem reset_queueWf : State.reset.QueueWf := fun _ hc => nomatch hc

/-- Settles O5: the lists are empty, and each register named is evaluated. -/
theorem resetIsCanonicalAndReadsAsStated : Obligations.ResetIsCanonicalAndReadsAsStated := by
  obtain ⟨hid, hstage, hdevid⟩ := reset_words
  obtain ⟨hsync, hepoch⟩ := reset_ticks
  exact ⟨⟨⟨rfl, rfl, rfl⟩, rfl, reset_queueWf⟩, hid, hstage, hdevid, reset_wctl, hsync, hepoch, reset_safetyCauses, reset_retired⟩

/-! ## Framing of the host port (R353) -/

/-- Counting in `f` and answering changes the count's word and the answer. -/
theorem count_hostAnswer (s : State) (f : Fld) (bs : List Byte) (hf : f.Ok := by exact ⟨by decide, .inl rfl⟩)
    (hw : f.hi < 32 := by decide) (hsh : f.sh = 0 := by rfl) :
    ((s.count f 1).hostAnswer bs).rd f = min f.max (s.rd f + 1) ∧
      ((s.count f 1).hostAnswer bs).bus = { s.bus with hostReply := bs } ∧
      WordsBut [f.addr] s ((s.count f 1).hostAnswer bs) ∧ Frame [.regs, .bus] s ((s.count f 1).hostAnswer bs) := by
  have hcount : RegsBut [f.addr] s (s.count f 1) := regsBut_wr_word s f _ hw hsh
  exact ⟨(rd_setBus _ _ _).trans (rd_count s f 1 hf), congrArg (fun b : BusState => { b with hostReply := bs }) hcount.bus_eq, hcount.2,
    (hcount.1.mono (by simp)).trans ((frame_setBus _ _).mono (by simp))⟩

/-- Fewer than two nibbles, or a one-word write of fewer than 23 cycles, is a transaction cut short. -/
theorem exec_hostTransaction_cut (s : State) {x : HostTxn}
    (hcut : x.sent.length < 2 ∨ (2 ≤ x.sent.length ∧ nibbleNat (x.sent.take 2) = 0x40 ∧ x.clocks < 23)) :
    exec (.hostTransaction x) s = .next s.hostCut := by
  change execHostTransaction x s = _
  unfold execHostTransaction
  by_cases hshort : (decide (x.sent.length < 2) || decide (x.clocks < 2)) = true
  · rw [if_pos hshort]
  · obtain ⟨-, hcmd, hclocks⟩ : 2 ≤ x.sent.length ∧ nibbleNat (x.sent.take 2) = 0x40 ∧ x.clocks < 23 := by
      simp only [Bool.or_eq_true, decide_eq_true_eq] at hshort
      omega
    rw [if_neg hshort]
    simp [hcmd, hclocks]

/-- A whole one-word write whose CRC-8 is wrong. -/
theorem exec_hostTransaction_badCrc (s : State) {x : HostTxn} (hclocks : 23 ≤ x.clocks) (hlen : 20 ≤ x.sent.length)
    (hcmd : nibbleNat (x.sent.take 2) = 0x40) (hcrc : nibbleNat ((x.sent.drop 18).take 2) ≠ nibbleCrc (x.sent.take 18)) :
    exec (.hostTransaction x) s = .next ((s.count F.LNK_HP_ST_CRCERR 1).hostAnswer [1]) := by
  have hwrite : s.hostWrite x.sent 1 = (s.count F.LNK_HP_ST_CRCERR 1).hostAnswer [1] := if_neg hcrc
  have hshort : ¬(x.sent.length ≤ 1 ∨ x.clocks ≤ 1) := by omega
  have hwhole : ¬(x.clocks < 23 ∨ x.sent.length < 20) := by omega
  rw [← hwrite]
  change execHostTransaction x s = _
  simp [execHostTransaction, hshort, hwhole, hcmd]

/-- Settles O19: both framing errors are counted, answered, and nothing else. -/
theorem hostFramingErrors : Obligations.HostFramingErrors := by
  unfold Obligations.HostFramingErrors
  intro s x
  refine ⟨fun hcut => ?_, fun hclocks hlen hcmd hcrc => ?_⟩
  · exact ⟨_, exec_hostTransaction_cut s hcut, count_hostAnswer s F.LNK_HP_ST_CUT []⟩
  · exact ⟨_, exec_hostTransaction_badCrc s hclocks hlen hcmd hcrc, count_hostAnswer s F.LNK_HP_ST_CRCERR [1]⟩

end Sys2Proof.Machine
end

