-- ==== Sys2Proof/Proofs/RaiseReach.lean ====
section
/-!
PROOFS. Which registers a raise can reach (R62, R302 to R314): those of the blocks below the key store. A unit that raises a fault
keeps its own registers, if its block is KEY or a later one.
-/

namespace Sys2Proof.Machine

open Sys2Proof

set_option Elab.async false

/-- Every register word of the key store's block and the blocks above it (R62) is as it was. -/
def KeepsHigh (s t : State) : Prop := ∀ a, blockBase 11 ≤ a → t.word a = s.word a

theorem KeepsHigh.refl (s : State) : KeepsHigh s s := fun _ _ => rfl

theorem KeepsHigh.trans {s t u : State} (h₁ : KeepsHigh s t) (h₂ : KeepsHigh t u) : KeepsHigh s u :=
  fun a ha => (h₂ a ha).trans (h₁ a ha)

/-- A field of a register up there reads as before. -/
theorem KeepsHigh.rd_eq {s t : State} (h : KeepsHigh s t) {g : Fld} (hg : blockBase 11 ≤ g.addr := by decide)
    (hsh : g.sh = 0 := by rfl) : t.rd g = s.rd g :=
  rd_eq_of_words hsh fun _ _ => h _ (hg.trans (Nat.le_add_right _ _))

/-- Registers of an array that ends below the key store. -/
theorem array_low {b w n k : Nat} (hk : k < n) (hn : (decide (0 < w) && decide (b + w * n ≤ blockBase 11)) = true := by rfl) :
    b + w * k < blockBase 11 := by
  obtain ⟨hw, hend⟩ : 0 < w ∧ b + w * n ≤ blockBase 11 := by simpa using hn
  have hlt : w * k < w * n := Nat.mul_lt_mul_of_pos_left hk hw
  omega

section
variable {s t : State} (h : KeepsHigh s t)
include h

/-- A change of records. -/
theorem KeepsHigh.within {u : State} (hregs : u.regs = t.regs := by rfl) : KeepsHigh s u :=
  h.trans fun a _ => by rw [State.word, hregs, State.word]

theorem KeepsHigh.wr {f : Fld} (v : Nat) (hf : f.addr < blockBase 11 := by decide) (hp : f.plain = true := by rfl) :
    KeepsHigh s (t.wr f v) := by
  obtain ⟨hsh, -, hhi⟩ := f.plain_iff.1 hp
  exact h.trans fun a ha => word_wr_out t f v a fun j hj => ⟨by omega, .inl hsh⟩

theorem KeepsHigh.stickyMask {a : Nat} (m : Nat) (ha : a < blockBase 11 := by decide) : KeepsHigh s (t.stickyMask a m) :=
  h.trans fun b hb => word_setWord_ne t a b _ (by omega)

theorem KeepsHigh.when {b : Bool} {f : State → State} (hf : KeepsHigh t (f t)) : KeepsHigh s (t.when b f) := by
  unfold State.when
  split
  · exact h.trans hf
  · exact h

theorem KeepsHigh.ite {c : Prop} [Decidable c] {u : State} (hu : KeepsHigh s u) : KeepsHigh s (if c then t else u) := by
  split
  · exact h
  · exact hu

theorem KeepsHigh.each {ns : List Nat} {f : State → Nat → State} (hf : ∀ n ∈ ns, ∀ t, KeepsHigh t (f t n)) :
    KeepsHigh s (t.each ns f) :=
  each_induction h fun u hu n hn => hu.trans (hf n hn u)

end

/-! ## Triggers of the waveform capture (R119) -/

theorem keepsHigh_capPend (s : State) (c : CapTrig) : KeepsHigh s (s.capPend c) := by
  unfold State.capPend
  split
  · exact ((KeepsHigh.refl s).wr (f := F.MET_CAP_CTL_PEND) _).within
  · split
    · exact (KeepsHigh.refl s).within
    · split
      · exact .refl s
      · exact ((KeepsHigh.refl s).wr (f := F.MET_CAP_OVR_COUNT) _).within

theorem keepsHigh_capEvent (s : State) (k : Nat) : KeepsHigh s (s.capEvent k) := by
  unfold State.capEvent
  split
  · exact .refl s
  · exact (KeepsHigh.refl s).within
  · exact keepsHigh_capPend s _

/-! ## A session leads out, the safe state (R198, R264, R280, R283) -/

theorem lead_le (s : State) (n : Nat) : s.lead n ≤ n := by
  unfold State.lead
  split <;> omega

theorem lane_of_mem_outlets {s : State} {p : Nat → Bool} {n : Nat} (h : n ∈ s.outlets.filter p) : n < 32 :=
  List.mem_range.1 (List.mem_of_mem_filter (List.mem_of_mem_filter h))

theorem keepsHigh_setChanState (s : State) {c : Nat} (hc : c < 96) (v : Nat) : KeepsHigh s (s.setChanState c v) := by
  unfold State.setChanState chanStateFld
  by_cases hcc : c < 32
  · simpa [hcc] using (KeepsHigh.refl s).wr v (array_low hcc)
  · by_cases hlk : c < 64
    · simpa [hcc, hlk] using KeepsHigh.refl s
    · simpa [hcc, hlk] using (KeepsHigh.refl s).wr v (array_low (n := 32) (by omega : c - 64 < 32))

theorem keepsHigh_chanStop (s : State) {c : Nat} (hc : c < 96) : KeepsHigh s (s.chanStop c) := by
  have hrest : ∀ f : Chan → Chan, KeepsHigh s ((s.modChan c f).showRest c) := fun f =>
    (KeepsHigh.refl s).within.trans (keepsHigh_setChanState _ hc _)
  have hpos : A.SWA_Ln_LKST (c - 32) < blockBase 11 := array_low (n := 64) (by omega)
  unfold State.chanStop
  dsimp only
  split
  · exact (((hrest _).wr _ hpos).wr _ hpos).wr _ hpos
  · exact hrest _

theorem keepsHigh_dropClose (s : State) {n : Nat} (hn : n < 32) : KeepsHigh s (s.dropClose n) := by
  have hclosed : KeepsHigh s (s.modPilLane n fun p => { p with closeReq := false }) := (KeepsHigh.refl s).within
  unfold State.dropClose
  split
  · exact ((hclosed.wr (f := F.SWA_Ln_CCST_SRQ n) _ (array_low hn)).within).trans (keepsHigh_chanStop _ (by omega))
  · exact .refl s

theorem keepsHigh_decideExit (s : State) {n : Nat} (hn : n < 32) (c : Nat) : KeepsHigh s (s.decideExit n c) := by
  unfold State.decideExit
  extract_lets lead decided
  have hdecided : KeepsHigh s decided := (KeepsHigh.refl s).within
  exact hdecided.when (keepsHigh_dropClose decided ((lead_le s n).trans_lt hn))

theorem keepsHigh_withdrawClose (s : State) (m : LaneSet) : KeepsHigh s (s.withdrawClose m) := by
  unfold State.withdrawClose
  extract_lets spent
  have hspent : KeepsHigh s spent := (KeepsHigh.refl s).within
  exact (hspent.wr _).wr _

theorem keepsHigh_safeEnter (s : State) {f : Fld} (hf : f.addr < blockBase 11) (hp : f.plain = true) : KeepsHigh s (s.safeEnter f) := by
  unfold State.safeEnter
  split
  · exact .refl s
  · extract_lets first so shown consents exited
    have hshown : KeepsHigh s shown := (((KeepsHigh.refl s).wr _ hf hp).wr _).when ((KeepsHigh.refl _).stickyMask _)
    have hconsents : KeepsHigh s consents := (hshown.trans (keepsHigh_withdrawClose _ _)).wr _
    have hexited : KeepsHigh s exited := hconsents.each fun n hn t => keepsHigh_decideExit t (lane_of_mem_outlets hn) 0x10
    exact hexited.within

/-! ## A raise (R302 to R310, R314) -/

theorem keepsHigh_causeOn (s : State) {src : Nat} (hsrc : src < 256) (cls : Nat) (scope : Option LaneSet) :
    KeepsHigh s (s.causeOn src cls scope) := by
  unfold State.causeOn State.showCause
  exact (((KeepsHigh.refl s).within).wr _ (array_low hsrc)).wr _ (array_low hsrc)

theorem keepsHigh_causeOff (s : State) (src : Nat) (scope : Option LaneSet) : KeepsHigh s (s.causeOff src scope) :=
  (KeepsHigh.refl s).within

theorem keepsHigh_retire (s : State) (m : LaneSet) : KeepsHigh s (s.retire m) :=
  ((KeepsHigh.refl s).wr _).trans (keepsHigh_withdrawClose _ _)

theorem keepsHigh_recurrence (s : State) {src : Nat} (hsrc : src < 256) (m : LaneSet) : KeepsHigh s (s.recurrence src m) := by
  unfold State.recurrence
  extract_lets now new kept perm
  have hkept : KeepsHigh s kept := (KeepsHigh.refl s).within
  exact hkept.ite ((hkept.wr _ (array_low hsrc)).trans (keepsHigh_retire _ _))

theorem keepsHigh_pinFault (s : State) (cls : Nat) : KeepsHigh s (s.pinFault cls) := by
  unfold State.pinFault
  split
  · exact ((((KeepsHigh.refl s).wr (f := F.FLT_PIN_LEVEL) _).wr (f := F.FLT_PIN_PULSE) _).wr (f := F.FLT_PIN_COUNT) _).within
  · exact .refl s

theorem keepsHigh_raiseNew (s : State) {src : Nat} (hsrc : src < 256) (cls : Nat) (scope : Option LaneSet) :
    KeepsHigh s (s.raiseNew src cls scope) := by
  have hown : A.FLT_SRCi src < blockBase 11 := array_low hsrc
  unfold State.raiseNew
  extract_lets m classed summed laned noted recorded triggered pinned marked recurred exited
  have hclassed : KeepsHigh s classed := ((KeepsHigh.refl s).stickyMask _ hown).wr _ hown
  have hsummed : KeepsHigh s summed := (hclassed.wr _ hown).wr _ (array_low (n := 8) (by omega))
  have hlaned : KeepsHigh s laned := by
    cases scope with
    | none => exact hsummed
    | some x => exact hsummed.wr _ (array_low hsrc)
  have hrecorded : KeepsHigh s recorded := hlaned.within
  have htriggered : KeepsHigh s triggered := hrecorded.when (keepsHigh_capEvent _ 4)
  have hpinned : KeepsHigh s pinned := htriggered.trans (keepsHigh_pinFault _ cls)
  have hmarked : KeepsHigh s marked := hpinned.ite ((hpinned.wr (f := F.FLT_LANEF_LANE) _).within)
  have hrecurred : KeepsHigh s recurred := (hmarked.trans (keepsHigh_recurrence _ hsrc m)).ite hmarked
  have hexited : KeepsHigh s exited :=
    (hrecurred.each fun n hn t => keepsHigh_decideExit t (lane_of_mem_outlets hn) 0x11).ite hrecurred
  exact (hexited.trans (keepsHigh_safeEnter _ (by decide) rfl)).ite hexited

theorem keepsHigh_raise (s : State) {src : Nat} (cls : Nat) (scope : Option LaneSet) (hsrc : src < 256 := by decide) :
    KeepsHigh s (s.raise src cls scope) := by
  have hcause := keepsHigh_causeOn s hsrc cls (scope.map s.widen)
  exact (hcause.within).ite (hcause.ite (hcause.trans (keepsHigh_raiseNew _ hsrc _ _)))

theorem keepsHigh_raiseOnce (s : State) {src : Nat} (cls : Nat) (scope : Option LaneSet) (hsrc : src < 256 := by decide) :
    KeepsHigh s (s.raiseOnce src cls scope) :=
  (keepsHigh_raise s cls scope hsrc).trans (keepsHigh_causeOff _ src _)

/-- A raise that ends with its cause changes the parts of a raise alone. -/
theorem frame_raiseOnce (s : State) (src cls : Nat) (scope : Option LaneSet) : Frame raising s (s.raiseOnce src cls scope) :=
  ((Acts.refl _ s).raiseOnce (ps := raising)).1

/-- A raise that ends with its cause is shown in its frame. -/
theorem raised_raiseOnce (s : State) (i : Fin 256) (cls : Nat) (hsrc : mergeable i = false) :
    Raised s (s.raiseOnce i cls none) i cls none :=
  (raised_raise s i cls none hsrc).imp_right (rd_causeOff _ _ _ _).trans

end Sys2Proof.Machine
end

