-- ==== Sys2Proof/Proofs/FieldReads.lean ====
section
/-!
PROOFS. How the fields of the register file read over hardware writes, status events and changes of the units' records; what those leave
unchanged of the units' records.
-/

namespace Sys2Proof.Machine

open Sys2Proof

set_option Elab.async false

/-! ## Records beside the register file -/

@[simp] theorem rd_setKey (s : State) (v : KeyState) (g : Fld) : (s.setKey v).rd g = s.rd g := rd_eq_of_regs (s := s) (t := s.setKey v) rfl rfl g

@[simp] theorem rd_setUpd (s : State) (v : UpdState) (g : Fld) : (s.setUpd v).rd g = s.rd g := rd_eq_of_regs (s := s) (t := s.setUpd v) rfl rfl g

@[simp] theorem rd_setNfc (s : State) (v : NfcState) (g : Fld) : (s.setNfc v).rd g = s.rd g := rd_eq_of_regs (s := s) (t := s.setNfc v) rfl rfl g

@[simp] theorem rd_setDpy (s : State) (v : DpyState) (g : Fld) : (s.setDpy v).rd g = s.rd g := rd_eq_of_regs (s := s) (t := s.setDpy v) rfl rfl g

@[simp] theorem rd_setClu (s : State) (v : CluState) (g : Fld) : (s.setClu v).rd g = s.rd g := rd_eq_of_regs (s := s) (t := s.setClu v) rfl rfl g

@[simp] theorem rd_setLnk (s : State) (v : LnkState) (g : Fld) : (s.setLnk v).rd g = s.rd g := rd_eq_of_regs (s := s) (t := s.setLnk v) rfl rfl g

@[simp] theorem rd_setDma (s : State) (v : List (Nat × DmaChan)) (g : Fld) : (s.setDma v).rd g = s.rd g :=
  rd_eq_of_regs (s := s) (t := s.setDma v) rfl rfl g

@[simp] theorem rd_setSwa (s : State) (v : SwaState) (g : Fld) : (s.setSwa v).rd g = s.rd g := rd_eq_of_regs (s := s) (t := s.setSwa v) rfl rfl g

@[simp] theorem rd_modKey (s : State) (f : KeyState → KeyState) (g : Fld) : (s.modKey f).rd g = s.rd g := rd_setKey s _ g

@[simp] theorem rd_modUpd (s : State) (f : UpdState → UpdState) (g : Fld) : (s.modUpd f).rd g = s.rd g := rd_setUpd s _ g

@[simp] theorem rd_modNfc (s : State) (f : NfcState → NfcState) (g : Fld) : (s.modNfc f).rd g = s.rd g := rd_setNfc s _ g

@[simp] theorem rd_modReader (s : State) (k : Nat) (f : Reader → Reader) (g : Fld) : (s.modReader k f).rd g = s.rd g := rd_setNfc s _ g

@[simp] theorem rd_modDpy (s : State) (f : DpyState → DpyState) (g : Fld) : (s.modDpy f).rd g = s.rd g := rd_setDpy s _ g

@[simp] theorem rd_modClu (s : State) (f : CluState → CluState) (g : Fld) : (s.modClu f).rd g = s.rd g := rd_setClu s _ g

@[simp] theorem rd_modLnk (s : State) (f : LnkState → LnkState) (g : Fld) : (s.modLnk f).rd g = s.rd g := rd_setLnk s _ g

@[simp] theorem rd_modJl (s : State) (k : Nat) (f : JLink → JLink) (g : Fld) : (s.modJl k f).rd g = s.rd g := rd_setLnk s _ g

@[simp] theorem rd_modDma (s : State) (n : Nat) (f : DmaChan → DmaChan) (g : Fld) : (s.modDma n f).rd g = s.rd g := rd_setDma s _ g

@[simp] theorem rd_modSwa (s : State) (f : SwaState → SwaState) (g : Fld) : (s.modSwa f).rd g = s.rd g := rd_setSwa s _ g

@[simp] theorem key_wr (s : State) (f : Fld) (v : Nat) : (s.wr f v).key = s.key := by
  rw [wr_parts]
  rfl

@[simp] theorem upd_wr (s : State) (f : Fld) (v : Nat) : (s.wr f v).upd = s.upd := by
  rw [wr_parts]
  rfl

@[simp] theorem nfc_wr (s : State) (f : Fld) (v : Nat) : (s.wr f v).nfc = s.nfc := by
  rw [wr_parts]
  rfl

@[simp] theorem dpy_wr (s : State) (f : Fld) (v : Nat) : (s.wr f v).dpy = s.dpy := by
  rw [wr_parts]
  rfl

@[simp] theorem clu_wr (s : State) (f : Fld) (v : Nat) : (s.wr f v).clu = s.clu := by
  rw [wr_parts]
  rfl

@[simp] theorem lnk_wr (s : State) (f : Fld) (v : Nat) : (s.wr f v).lnk = s.lnk := by
  rw [wr_parts]
  rfl

@[simp] theorem dma_wr (s : State) (f : Fld) (v : Nat) : (s.wr f v).dma = s.dma := by
  rw [wr_parts]
  rfl

@[simp] theorem clk_sticky (s : State) (f : Fld) : (s.sticky f).clk = s.clk := rfl

@[simp] theorem key_sticky (s : State) (f : Fld) : (s.sticky f).key = s.key := rfl

@[simp] theorem upd_sticky (s : State) (f : Fld) : (s.sticky f).upd = s.upd := rfl

@[simp] theorem nfc_sticky (s : State) (f : Fld) : (s.sticky f).nfc = s.nfc := rfl

@[simp] theorem dpy_sticky (s : State) (f : Fld) : (s.sticky f).dpy = s.dpy := rfl

@[simp] theorem clu_sticky (s : State) (f : Fld) : (s.sticky f).clu = s.clu := rfl

@[simp] theorem lnk_sticky (s : State) (f : Fld) : (s.sticky f).lnk = s.lnk := rfl

@[simp] theorem dma_sticky (s : State) (f : Fld) : (s.sticky f).dma = s.dma := rfl

/-! ## Fields that a write or an event does not reach -/

/-- Does `g` share no bit with `f`: another bit range of one register, or registers that share no word? -/
def Fld.besideOf (f g : Fld) : Bool :=
  decide (f.sh = 0) && decide (g.sh = 0) && decide (f.lo ≤ f.hi) && decide (g.lo ≤ g.hi) &&
    (if g.addr = f.addr then decide (g.hi < f.lo) || decide (f.hi < g.lo)
    else decide (g.addr + 4 * (g.hi / 32) < f.addr) || decide (f.addr + 4 * (f.hi / 32) < g.addr))

theorem rd_wr_besideOf (s : State) {f g : Fld} (v : Nat) (h : f.besideOf g = true) : (s.wr f v).rd g = s.rd g := by
  simp only [Fld.besideOf, Bool.and_eq_true, decide_eq_true_eq] at h
  obtain ⟨⟨⟨⟨hf, hg⟩, hflo⟩, hglo⟩, hapart⟩ := h
  by_cases haddr : g.addr = f.addr
  · simp only [haddr, if_true, Bool.or_eq_true, decide_eq_true_eq] at hapart
    exact rd_wr_same_register s v hflo hf haddr hg hglo hapart
  · simp only [haddr, if_false, Bool.or_eq_true, decide_eq_true_eq] at hapart
    exact rd_wr_apart s f g v fun i hi j hj => ⟨⟨by omega, .inl hf⟩, .inl hg⟩

/-- Does a status event of `f` miss the field `g`: other bits below the sequence number, or a register without the event's word? -/
def Fld.missedBy (f g : Fld) : Bool :=
  decide (g.sh = 0) && decide (g.lo ≤ g.hi) &&
    (if g.addr = f.addr then decide (g.hi < 24) && (decide (g.hi < f.lo) || decide (f.lo < g.lo))
    else decide (g.addr + 4 * (g.hi / 32) < f.addr) || decide (f.addr < g.addr))

theorem bits_stickyWord_apart (w : Word) {i hi lo : Nat} (hhi : hi < 24) (h : hi < i ∨ i < lo) :
    bits (stickyWord w (2 ^ i)).toNat hi lo = bits w.toNat hi lo := by
  refine Nat.eq_of_testBit_eq fun k => ?_
  simp only [bits, Nat.testBit_mod_two_pow, Nat.testBit_div_two_pow]
  by_cases hk : k < hi + 1 - lo
  · have hne : i ≠ k + lo := by omega
    rw [testBit_stickyWord w _ _ (by omega), Nat.testBit_two_pow_of_ne hne, Bool.or_false]
  · simp [hk]

theorem rd_sticky_missedBy (s : State) {f g : Fld} (h : f.missedBy g = true) : (s.sticky f).rd g = s.rd g := by
  simp only [Fld.missedBy, Bool.and_eq_true, decide_eq_true_eq] at h
  obtain ⟨⟨hg, hglo⟩, hapart⟩ := h
  by_cases haddr : g.addr = f.addr
  · simp only [haddr, if_true, Bool.and_eq_true, Bool.or_eq_true, decide_eq_true_eq] at hapart
    obtain ⟨hhi, hbit⟩ := hapart
    rw [rd_eq_bits_word _ (by omega) hg, rd_eq_bits_word _ (by omega) hg, haddr, State.sticky, word_stickyMask,
      bits_stickyWord_apart _ hhi hbit]
  · simp only [haddr, if_false, Bool.or_eq_true, decide_eq_true_eq] at hapart
    refine (regsBut_sticky s f).2.rd_eq hg fun i hi => ?_
    rw [List.mem_singleton]
    omega

/-! ## Single bits -/

theorem rdBit_wrBit_self (s : State) {f : Fld} {i : Nat} (b : Bool) (hi : i < f.width) (hf : f.Ok) : (s.wrBit f i b).rdBit f i = b := by
  have hset : bits (setBits (s.rd f) i i (b2n b)) i i = b2n b := by
    rw [bits_setBits _ _ _ _ le_rfl, Nat.add_sub_cancel_left]
    cases b <;> rfl
  rw [State.rdBit, State.wrBit, rd_wr s f _ hf, Nat.mod_eq_of_lt (setBits_lt _ _ _ _ _ le_rfl hi (rd_lt s f)), bitOf]
  rw [bits, Nat.add_sub_cancel_left, Nat.pow_one] at hset
  rw [hset]
  cases b <;> rfl

theorem rdBit_wrBit_ne (s : State) {f : Fld} {i j : Nat} (b : Bool) (hi : i < f.width) (hij : j ≠ i) (hf : f.Ok) :
    (s.wrBit f i b).rdBit f j = s.rdBit f j := by
  have hother : bits (setBits (s.rd f) i i (b2n b)) j j = bits (s.rd f) j j :=
    bits_setBits_apart _ _ _ _ _ _ le_rfl le_rfl (by omega)
  simp only [bits, Nat.add_sub_cancel_left, Nat.pow_one] at hother
  rw [State.rdBit, State.wrBit, rd_wr s f _ hf, Nat.mod_eq_of_lt (setBits_lt _ _ _ _ _ le_rfl hi (rd_lt s f)), bitOf, hother, State.rdBit,
    bitOf]

/-! ## Little-endian bytes -/

theorem length_leBytes (k v : Nat) : (leBytes k v).length = k := by
  induction k generalizing v with
  | zero => rfl
  | succ k ih => rw [leBytes, List.length_cons, ih]

theorem leNat_leBytes (k v : Nat) : leNat (leBytes k v) = v % 2 ^ (8 * k) := by
  induction k generalizing v with
  | zero => simp [leBytes, leNat, Nat.mod_one]
  | succ k ih =>
    rw [leBytes, leNat, ih, BitVec.toNat_ofNat, show 8 * (k + 1) = 8 + 8 * k by omega, Nat.pow_add, Nat.mod_mul]

/-- A field written among other bytes reads back. -/
theorem leAt_append_leBytes (pre post : List Byte) (k v : Nat) {o : Nat} (ho : pre.length = o) :
    leAt (pre ++ (leBytes k v ++ post)) o k = v % 2 ^ (8 * k) := by
  subst ho
  rw [leAt, slice, List.drop_left, List.take_left' (length_leBytes k v), leNat_leBytes]

end Sys2Proof.Machine
end

