-- ==== Sys2Proof/Proofs/KeyCommands.lean ====
section
/-!
PROOFS. O32: a running key command ends with its result, and zeroise erases every slot.
-/

namespace Sys2Proof.Machine

open Sys2Proof

set_option Elab.async false

/-! ## The end of a command (R363, R371) -/

theorem key_keyErr (s : State) (e : Nat) : (s.keyErr e).key = { s.key with run := none } := by
  simp only [State.keyErr, State.wrB, key_wr]
  rfl

theorem rd_err_keyErr (s : State) {e : Nat} (he : e < 8) : (s.keyErr e).rd F.KEY_STAT_ERR = e :=
  (rd_wr_besideOf _ _ (by decide)).trans (rd_wr_plain _ he)

theorem rd_busy_keyErr (s : State) (e : Nat) : (s.keyErr e).rd F.KEY_STAT_BUSY = 0 := rd_wrB _ F.KEY_STAT_BUSY false rfl rfl

theorem wordsBut_keyErr (s : State) (e : Nat) : WordsBut [A.KEY_STAT] s (s.keyErr e) :=
  ((wordsBut_of_regs _ rfl).trans (regsBut_wr_plain _ (f := F.KEY_STAT_ERR) e).2).trans (regsBut_wr_plain _ (f := F.KEY_STAT_BUSY) 0).2

/-- What a command that ends with code `e` shows. -/
structure EndsWith (t : State) (e : Nat) : Prop where
  run : t.key.run = none
  busy : t.rd F.KEY_STAT_BUSY = 0
  err : t.rd F.KEY_STAT_ERR = e

theorem endsWith_keyErr (s : State) {e : Nat} (he : e < 8) : EndsWith (s.keyErr e) e :=
  ⟨by rw [key_keyErr], rd_busy_keyErr s e, rd_err_keyErr s he⟩

/-! ## What keeps the slots (R361, R362) -/

/-- The copies and the select word in force are as they were. -/
structure SameSlots (s t : State) : Prop where
  copies : t.key.copies = s.key.copies
  sel : t.rd F.KEY_SEL_NOW = s.rd F.KEY_SEL_NOW

theorem SameSlots.trans {s t u : State} (h₁ : SameSlots s t) (h₂ : SameSlots t u) : SameSlots s u :=
  ⟨h₂.copies.trans h₁.copies, h₂.sel.trans h₁.sel⟩

theorem SameSlots.slotCopy_eq {s t : State} (h : SameSlots s t) (n c : Nat) : t.slotCopy n c = s.slotCopy n c := by
  rw [State.slotCopy, h.copies, State.slotCopy]

theorem SameSlots.slotSel_eq {s t : State} (h : SameSlots s t) (n : Nat) : t.slotSel n = s.slotSel n := by
  rw [State.slotSel, State.rdBit, h.sel, State.slotSel, State.rdBit]

theorem SameSlots.slot_eq {s t : State} (h : SameSlots s t) (n : Nat) : t.slot n = s.slot n := by
  rw [State.slot, h.slotCopy_eq, h.slotSel_eq, State.slot]

theorem sameSlots_wr (s : State) {f : Fld} (v : Nat) (hf : f.besideOf F.KEY_SEL_NOW = true) : SameSlots s (s.wr f v) :=
  ⟨by rw [key_wr], rd_wr_besideOf s v hf⟩

theorem sameSlots_keyErr (s : State) (e : Nat) : SameSlots s (s.keyErr e) :=
  ⟨by rw [key_keyErr], (wordsBut_keyErr s e).rd_eq rfl (by decide)⟩

theorem sameSlots_showPub (s : State) (bs : List Byte) : SameSlots s (s.showPub bs) :=
  (sameSlots_wr s _ (by decide)).trans (sameSlots_wr _ _ (by decide))

theorem rd_showSlot (s : State) (n : Nat) {g : Fld} (hsh : g.sh = 0) (hg : g.addr + 4 * (g.hi / 32) < A.KEY_SLOTn 0) :
    (s.showSlot n).rd g = s.rd g := by
  refine (regsBut_showSlot s n).2.rd_eq hsh fun i hi => ?_
  simp only [A.KEY_SLOTn, List.mem_singleton] at hg ⊢
  omega

theorem key_showSlot (s : State) (n : Nat) : (s.showSlot n).key = s.key := (regsBut_showSlot s n).1 .key (by decide)

theorem sameSlots_showSlot (s : State) (n : Nat) : SameSlots s (s.showSlot n) :=
  ⟨by rw [key_showSlot], rd_showSlot s n rfl (by decide)⟩

theorem tagsEnd_eq (s : State) : s.tagsEnd = s ∨ s.tagsEnd = s.causeOff 0x90 none := by
  unfold State.tagsEnd State.when
  split
  · exact .inr rfl
  · exact .inl rfl

theorem key_tagsEnd (s : State) : s.tagsEnd.key = s.key := by
  rcases tagsEnd_eq s with h | h <;> rw [h]
  rfl

theorem rd_tagsEnd (s : State) (g : Fld) : s.tagsEnd.rd g = s.rd g := by
  rcases tagsEnd_eq s with h | h <;> rw [h]
  exact rd_causeOff _ _ _ g

theorem sameSlots_tagsEnd (s : State) : SameSlots s s.tagsEnd := ⟨by rw [key_tagsEnd], rd_tagsEnd s _⟩

theorem slotSel_lt (s : State) (n : Nat) : s.slotSel n < 2 := by
  unfold State.slotSel b2n
  split <;> decide

/-! ## A write of one slot (R363) -/

theorem ok_selNow : F.KEY_SEL_NOW.Ok := ⟨by decide, .inl rfl⟩

theorem slotCopy_fillOther (s : State) (m n : Nat) (x : SlotKey) :
    (s.fillOther m n x).slotCopy n (1 - s.slotSel n) = s.makeCopy m n (s.nextGen n) x := lk_put_self ..

theorem slotCopy_fillOther_other (s : State) (m n : Nat) (x : SlotKey) :
    (s.fillOther m n x).slotCopy n (s.slotSel n) = s.slotCopy n (s.slotSel n) := by
  have hsel := slotSel_lt s n
  exact lk_put_ne _ _ _ _ _ (by omega)

theorem nextGen_lt (s : State) (n : Nat) : s.nextGen n < 2 ^ 32 := Nat.mod_lt _ (by decide)

theorem copyGen_makeCopy (s : State) (m n gen : Nat) (x : SlotKey) : copyGen (s.makeCopy m n gen x) = gen % 2 ^ 32 := by
  have h := leAt_append_leBytes (leBytes 1 x.typ ++ leBytes 1 x.use ++ leBytes 1 x.bind ++ [0]) 
  simp only [copyGen, State.makeCopy, List.append_assoc] at h ⊢
  exact h _ _ _ (by simp [length_leBytes])

theorem leAt_leBytes_append (post : List Byte) (k v : Nat) : leAt (leBytes k v ++ post) 0 k = v % 2 ^ (8 * k) :=
  leAt_append_leBytes [] post k v rfl

theorem copyTyp_makeCopy (s : State) (m n gen : Nat) (x : SlotKey) : copyTyp (s.makeCopy m n gen x) = x.typ % 256 := by
  simp only [copyTyp, State.makeCopy, List.append_assoc]
  exact leAt_leBytes_append _ 1 x.typ

/-- The state a write of one slot passes through: its other copy filled, then its select bit turned. -/
def State.turnSlot (s : State) (n : Nat) (x : SlotKey) : State :=
  (s.fillOther (s.meas x.bind) n x).wrBit F.KEY_SEL_NOW n (s.slotSel n = 0)

theorem writeSlots_one (s : State) (n : Nat) (x : SlotKey) : s.writeSlots [(n, x)] = ((s.turnSlot n x).showSlot n).tagsEnd := rfl

theorem slotCopy_turnSlot (s : State) (n c : Nat) (x : SlotKey) :
    (s.turnSlot n x).slotCopy n c = (s.fillOther (s.meas x.bind) n x).slotCopy n c := by
  rw [State.slotCopy, State.turnSlot, State.wrBit, key_wr, State.slotCopy]

theorem slotSel_turnSlot (s : State) {n : Nat} (hn : n < 64) (x : SlotKey) : (s.turnSlot n x).slotSel n = 1 - s.slotSel n := by
  have hbit := rdBit_wrBit_self (s.fillOther (s.meas x.bind) n x) (f := F.KEY_SEL_NOW) (i := n) (s.slotSel n = 0) hn ok_selNow
  rw [State.turnSlot, State.slotSel, hbit]
  rcases Nat.lt_or_ge (s.slotSel n) 1 with h | h
  · rw [show s.slotSel n = 0 by omega]
    rfl
  · rw [show s.slotSel n = 1 by have := slotSel_lt s n; omega]
    rfl

/-- What a write of a key in slot `n` leaves there: the new copy in force, the copy that was in force beside it. -/
structure SlotTurned (s t : State) (n typ : Nat) : Prop where
  gen : copyGen (t.slot n) = s.nextGen n
  typ : copyTyp (t.slot n) = typ % 256
  sel : t.slotSel n = 1 - s.slotSel n
  old : t.slotCopy n (s.slotSel n) = s.slot n

theorem SlotTurned.congr {s t u : State} {n typ : Nat} (h : SlotTurned s t n typ) (hu : SameSlots t u) : SlotTurned s u n typ :=
  ⟨by rw [hu.slot_eq, h.gen], by rw [hu.slot_eq, h.typ], by rw [hu.slotSel_eq, h.sel], by rw [hu.slotCopy_eq, h.old]⟩

theorem slotTurned_turnSlot (s : State) {n : Nat} (hn : n < 64) (x : SlotKey) : SlotTurned s (s.turnSlot n x) n x.typ := by
  have hslot : (s.turnSlot n x).slot n = s.makeCopy (s.meas x.bind) n (s.nextGen n) x := by
    rw [State.slot, slotSel_turnSlot s hn, slotCopy_turnSlot, slotCopy_fillOther]
  refine ⟨?_, ?_, slotSel_turnSlot s hn x, ?_⟩
  · rw [hslot, copyGen_makeCopy, Nat.mod_eq_of_lt (nextGen_lt s n)]
  · rw [hslot, copyTyp_makeCopy]
  · rw [slotCopy_turnSlot, slotCopy_fillOther_other, State.slot]

theorem slotTurned_writeSlots (s : State) {n : Nat} (hn : n < 64) (x : SlotKey) : SlotTurned s (s.writeSlots [(n, x)]) n x.typ := by
  rw [writeSlots_one]
  exact (slotTurned_turnSlot s hn x).congr ((sameSlots_showSlot _ n).trans (sameSlots_tagsEnd _))

/-! ## KEY_COMMAND_DONE (R363, R369) -/

theorem slotsFor_one {typ slot n : Nat} (h : slotsFor typ slot = [n]) : typ ≠ 5 ∧ n < 64 := by
  unfold slotsFor at h
  split at h
  · split at h <;> simp at h
  · next htyp =>
    split at h
    · simp at h
    · split at h
      · next hslot => exact ⟨htyp, by simp at h; omega⟩
      · simp at h

theorem keyHalves_one {r : KeyRun} {n : Nat} (h : slotsFor r.typ r.slot = [n]) (body : List Byte) :
    keyHalves r body = [(n, { typ := r.typ, use := r.use, bind := r.bind, body := body })] := by
  rw [keyHalves, h]
  rfl

/-- The public part of a key shown, where it has one. -/
def State.showPublic (s : State) (typ : Nat) (body : List Byte) : State :=
  match publicPart typ body with | some p => s.showPub p | none => s

theorem sameSlots_showPublic (s : State) (typ : Nat) (body : List Byte) : SameSlots s (s.showPublic typ body) := by
  unfold State.showPublic
  split
  · exact sameSlots_showPub s _
  · exact ⟨rfl, rfl⟩

/-- A GEN that ends, from random bytes `bs` drawn in leaving `u`. -/
def State.genEnd (u : State) (r : KeyRun) (bs : List Byte) : State :=
  ((u.writeSlots (keyHalves r (keyText r.typ bs))).showPublic r.typ (keyText r.typ bs)).keyErr 0

theorem keyDone_gen {s : State} {r : KeyRun} (h : s.key.run = some r) (hop : r.op = 1) :
    s.keyDone = (s.random (keyBytes r.typ)).2.genEnd r (s.random (keyBytes r.typ)).1 := by
  unfold State.keyDone
  simp only [h, hop]
  rfl

theorem sameSlots_random (s : State) (k : Nat) : SameSlots s (s.random k).2 := ⟨rfl, rfl⟩

theorem nextGen_congr {s t : State} (h : SameSlots s t) (n : Nat) : t.nextGen n = s.nextGen n := by
  rw [State.nextGen, h.slotCopy_eq, h.slotCopy_eq, State.nextGen]

theorem slotTurned_genEnd {s u : State} (h : SameSlots s u) {r : KeyRun} {n : Nat} (hn : slotsFor r.typ r.slot = [n]) (bs : List Byte) :
    SlotTurned s (u.genEnd r bs) n r.typ := by
  obtain ⟨hgen, htyp, hsel, hold⟩ := slotTurned_writeSlots u (slotsFor_one hn).2
    { typ := r.typ, use := r.use, bind := r.bind, body := keyText r.typ bs }
  rw [nextGen_congr h] at hgen
  rw [h.slotSel_eq] at hsel hold
  rw [h.slot_eq] at hold
  rw [State.genEnd, keyHalves_one hn]
  exact SlotTurned.congr ⟨hgen, htyp, hsel, hold⟩ ((sameSlots_showPublic _ _ _).trans (sameSlots_keyErr _ 0))

theorem slotTurned_keyDone {s : State} {r : KeyRun} (h : s.key.run = some r) (hop : r.op = 1) {n : Nat}
    (hn : slotsFor r.typ r.slot = [n]) : SlotTurned s s.keyDone n r.typ := by
  rw [keyDone_gen h hop]
  exact slotTurned_genEnd (sameSlots_random s _) hn _

theorem keyDone_importFails {s : State} {r : KeyRun} (h : s.key.run = some r) (hop : r.op = 2)
    (hblob : s.importBlob (leBytes 1 r.typ ++ leBytes 1 r.use ++ leBytes 1 r.bind ++ [0]) r.blob = none) : s.keyDone = s.keyErr 2 := by
  unfold State.keyDone
  simp only [h, hop, hblob]

/-- Whatever runs ends with code 0, but an IMPORT, which ends with 0 or 2. -/
theorem keyDone_eq_keyErr {s : State} {r : KeyRun} (h : s.key.run = some r) :
    ∃ (u : State) (e : Nat), s.keyDone = u.keyErr e ∧ e < 8 ∧ (r.op ≠ 2 → e = 0) := by
  unfold State.keyDone
  simp only [h]
  split
  · exact ⟨_, 0, rfl, by decide, fun _ => rfl⟩
  · next hop =>
    split
    · exact ⟨_, 0, rfl, by decide, fun _ => rfl⟩
    · exact ⟨_, 2, rfl, by decide, fun hne => absurd hop hne⟩
  · exact ⟨_, 0, rfl, by decide, fun _ => rfl⟩
  · exact ⟨_, 0, rfl, by decide, fun _ => rfl⟩
  · exact ⟨_, 0, rfl, by decide, fun _ => rfl⟩

/-! ## Zeroise (R364, R370) -/

/-- The slots, the select words and the re-seal cleared, and the zeroise counted. -/
def State.clearSlots (s : State) : State :=
  let s := s.modKey fun x => { x with copies := [] }
  (((s.wr F.KEY_SEL_NOW 0).wr F.KEY_SEL_PEND 0).wrB F.KEY_RESEAL_DONE false).count F.KEY_ZST_ZCNT 1

/-- The zeroise shown: its sticky bit, source 0x91, the slots judged again. -/
def State.zeroiseShown (s : State) : State := ((s.sticky F.KEY_ZST_ZEROISED).raiseOnce 0x91 1 none).showSlots.tagsEnd

/-- The working registers of the modems erased, while the core die has power. -/
def State.eraseWork (s : State) : State :=
  s.when s.boot.vddCore fun s => s.each (s.pil.lanes.map (·.1)) fun s n => s.modPilLane n fun p => { p with nmk := [] }

theorem zeroise_eq (s : State) : s.zeroise =
    s.clearSlots.zeroiseShown.eraseWork.when s.clearSlots.zeroiseShown.eraseWork.key.run.isSome fun u => u.keyErr 6 := rfl

/-- What a zeroise leaves, before and after a running command is ended. -/
structure Zeroised (s t : State) : Prop where
  copies : t.key.copies = []
  now : t.rd F.KEY_SEL_NOW = 0
  pend : t.rd F.KEY_SEL_PEND = 0
  reseal : t.rd F.KEY_RESEAL_DONE = 0
  count : t.rd F.KEY_ZST_ZCNT = min F.KEY_ZST_ZCNT.max (s.rd F.KEY_ZST_ZCNT + 1)

theorem Zeroised.congr {s t u : State} (h : Zeroised s t) (hkey : u.key.copies = t.key.copies)
    (hrd : ∀ g ∈ [F.KEY_SEL_NOW, F.KEY_SEL_PEND, F.KEY_RESEAL_DONE, F.KEY_ZST_ZCNT], u.rd g = t.rd g) : Zeroised s u :=
  ⟨hkey.trans h.copies, (hrd _ (by simp)).trans h.now, (hrd _ (by simp)).trans h.pend, (hrd _ (by simp)).trans h.reseal,
    (hrd _ (by simp)).trans h.count⟩

theorem key_clearSlots (s : State) : s.clearSlots.key = { s.key with copies := [] } := by
  simp only [State.clearSlots, State.count, State.wrSat, State.wrB, key_wr]
  rfl

theorem zeroised_clearSlots (s : State) : Zeroised s s.clearSlots := by
  unfold State.clearSlots
  extract_lets u
  refine ⟨?_, ?_, ?_, ?_, ?_⟩
  · simp only [State.count, State.wrSat, State.wrB, key_wr]
    rfl
  · exact (rd_wr_besideOf _ _ (by decide)).trans ((rd_wr_besideOf _ _ (by decide)).trans ((rd_wr_besideOf _ _ (by decide)).trans
      (rd_wr u F.KEY_SEL_NOW 0 ok_selNow)))
  · exact (rd_wr_besideOf _ _ (by decide)).trans ((rd_wr_besideOf _ _ (by decide)).trans (rd_wr _ F.KEY_SEL_PEND 0 ⟨by decide, .inl rfl⟩))
  · exact (rd_wr_besideOf _ _ (by decide)).trans (rd_wrB _ F.KEY_RESEAL_DONE false rfl rfl)
  · have hbefore : ((((u.wr F.KEY_SEL_NOW 0).wr F.KEY_SEL_PEND 0).wrB F.KEY_RESEAL_DONE false).rd F.KEY_ZST_ZCNT) = s.rd F.KEY_ZST_ZCNT :=
      (rd_wr_besideOf _ _ (by decide)).trans ((rd_wr_besideOf _ _ (by decide)).trans (rd_wr_besideOf _ _ (by decide)))
    rw [rd_count_plain, hbefore]

theorem rd_showSlots (s : State) {g : Fld} (hsh : g.sh = 0) (hg : g.addr + 4 * (g.hi / 32) < A.KEY_SLOTn 0) : s.showSlots.rd g = s.rd g :=
  each_induction (motive := fun t => t.rd g = s.rd g) rfl fun t ht n _ => (rd_showSlot t n hsh hg).trans ht

theorem key_showSlots (s : State) : s.showSlots.key = s.key := (regsBut_showSlots s).1 .key (by decide)

theorem key_zeroiseShown (s : State) : s.zeroiseShown.key = s.key := by
  rw [State.zeroiseShown, key_tagsEnd, key_showSlots]
  exact frame_raiseOnce _ 0x91 1 none .key (by decide)

theorem rd_zeroiseShown (s : State) {g : Fld} (hg : (F.KEY_ZST_ZEROISED.missedBy g && decide (blockBase 11 ≤ g.addr) &&
    decide (g.addr + 4 * (g.hi / 32) < A.KEY_SLOTn 0)) = true) : s.zeroiseShown.rd g = s.rd g := by
  simp only [Bool.and_eq_true, decide_eq_true_eq] at hg
  obtain ⟨⟨hmiss, hhigh⟩, hlow⟩ := hg
  have hsh : g.sh = 0 := by
    simp only [Fld.missedBy, Bool.and_eq_true, decide_eq_true_eq] at hmiss
    exact hmiss.1.1
  rw [State.zeroiseShown, rd_tagsEnd, rd_showSlots _ hsh hlow, (keepsHigh_raiseOnce _ 1 none).rd_eq hhigh hsh,
    rd_sticky_missedBy s hmiss]

theorem eraseWork_keeps (s : State) : s.eraseWork.key = s.key ∧ ∀ g, s.eraseWork.rd g = s.rd g := by
  unfold State.eraseWork State.when
  split
  · exact each_induction (motive := fun t => t.key = s.key ∧ ∀ g, t.rd g = s.rd g) ⟨rfl, fun _ => rfl⟩ fun t ht n _ =>
      ⟨ht.1, fun g => (rd_modPilLane t n _ g).trans (ht.2 g)⟩
  · exact ⟨rfl, fun _ => rfl⟩

/-- All of a zeroise but the end of a running command. -/
theorem zeroised_eraseWork (s : State) : Zeroised s s.clearSlots.zeroiseShown.eraseWork ∧
    s.clearSlots.zeroiseShown.eraseWork.key.run = s.key.run := by
  obtain ⟨hkey, hrd⟩ := eraseWork_keeps s.clearSlots.zeroiseShown
  rw [key_zeroiseShown] at hkey
  refine ⟨(zeroised_clearSlots s).congr (by rw [hkey]) fun g hg => (hrd g).trans (rd_zeroiseShown _ ?_), by rw [hkey, key_clearSlots]⟩
  revert g
  decide

theorem zeroised_keyErr {s t : State} (h : Zeroised s t) (e : Nat) : Zeroised s (t.keyErr e) := by
  refine h.congr (by rw [key_keyErr]) fun g hg => ?_
  have hout : g.sh = 0 ∧ ∀ i < g.hi / 32 + 1, g.addr + 4 * i ∉ [A.KEY_STAT] := by
    revert g
    decide
  exact (wordsBut_keyErr t e).rd_eq hout.1 hout.2

theorem zeroised_zeroise (s : State) : Zeroised s s.zeroise := by
  rw [zeroise_eq, State.when]
  split
  · exact zeroised_keyErr (zeroised_eraseWork s).1 6
  · exact (zeroised_eraseWork s).1

theorem endsWith_zeroise {s : State} (h : s.key.run ≠ none) : EndsWith s.zeroise 6 := by
  have hsome : s.clearSlots.zeroiseShown.eraseWork.key.run.isSome = true := by
    rw [(zeroised_eraseWork s).2]
    exact Option.isSome_iff_ne_none.2 h
  rw [zeroise_eq, State.when, if_pos hsome]
  exact endsWith_keyErr _ (by decide)

/-! ## O32 -/

theorem exec_keyCommandDone (s : State) : exec .keyCommandDone s = .next s.keyDone := rfl

theorem exec_drbgReseed (s : State) (e : List Byte) :
    exec (.drbgReseed e) s = .next (if 0x100000 ≤ s.key.reqs then s.seedDrbg e else s) := rfl

/-- Settles O32: the end of a command is `State.keyErr`; a write of one slot is `State.turnSlot`, and what follows keeps the slots. -/
theorem keyCommandsEnd : Obligations.KeyCommandsEnd := by
  unfold Obligations.KeyCommandsEnd
  intro s
  refine ⟨fun hidle => ?idle, fun r hr => ⟨s.keyDone, rfl, ?running⟩, ⟨s.zeroise, rfl, ?zeroise⟩, fun e hfew => ?early, fun e hmany => ?due⟩
  case idle => rw [exec_keyCommandDone, State.keyDone, hidle]
  case running =>
    obtain ⟨u, e, hend, he, hzero⟩ := keyDone_eq_keyErr hr
    obtain ⟨hrun, hbusy, herr⟩ := hend ▸ endsWith_keyErr u he
    refine ⟨hrun, hbusy, fun hop => herr.trans (hzero hop), fun hop n hn => ?_, fun hop hblob => ?_⟩
    · obtain ⟨hgen, htyp, hsel, hold⟩ := slotTurned_keyDone hr hop hn
      exact ⟨hgen, htyp, hsel, hold⟩
    · rw [keyDone_importFails hr hop hblob]
      exact ⟨rd_err_keyErr s (by decide), by rw [key_keyErr]⟩
  case zeroise =>
    obtain ⟨hcopies, hnow, hpend, hreseal, hcount⟩ := zeroised_zeroise s
    refine ⟨hcopies, hnow, hpend, hreseal, hcount, fun hran => ?_⟩
    obtain ⟨hrun, -, herr⟩ := endsWith_zeroise hran
    exact ⟨hrun, herr⟩
  case early => rw [exec_drbgReseed, if_neg (by omega)]
  case due =>
    rw [exec_drbgReseed, if_pos (by omega)]
    rfl

end Sys2Proof.Machine
end

