-- ==== Sys2Proof/Proofs/ClusterAndDisplay.lean ====
section
/-!
PROOFS. O56: coherence grants, memory errors, the extension and its sandbox; the display and its rails.
-/

namespace Sys2Proof.Machine

open Sys2Proof

set_option Elab.async false

theorem frame_setClu (s : State) (v : CluState) : Frame [.clu] s (s.setClu v) := by
  intro p hp
  cases p
  case clu => simp at hp
  all_goals rfl

theorem frame_setDpy (s : State) (v : DpyState) : Frame [.dpy] s (s.setDpy v) := by
  intro p hp
  cases p
  case dpy => simp at hp
  all_goals rfl

/-! ## Coherence (R418, R422) -/

theorem linePoisoned_congr {s t : State} (h : t.clu.poison = s.clu.poison) (line : Nat) : t.linePoisoned line = s.linePoisoned line := by
  rw [State.linePoisoned, h, State.linePoisoned]

theorem grantCore_clean {s : State} {line : Nat} (h : s.linePoisoned line = false) (c : Nat) (own : Bool) :
    s.grantCore line c own = (s.modLine line fun d => d.grant c own).modClu fun x =>
      { x with grants := x.grants ++ [c], next := (c + 1) % 4 } := by
  rw [State.grantCore, h]
  rfl

theorem grantCore_poisoned {s : State} {line : Nat} (h : s.linePoisoned line = true) (c : Nat) (own : Bool) :
    s.grantCore line c own = s.modClu fun x => { x with busErr := x.busErr ++ [c], next := (c + 1) % 4 } := by
  rw [State.grantCore, h]
  rfl

/-- Every core is granted a line without poison, in the order asked. -/
theorem each_grantCore_clean (line : Nat) (own : Nat → Bool) (cs : List Nat) :
    ∀ s : State, s.linePoisoned line = false → let t := s.each cs fun s c => s.grantCore line c (own c)
      t.clu.grants = s.clu.grants ++ cs ∧ t.clu.busErr = s.clu.busErr ∧ t.clu.poison = s.clu.poison ∧ Frame [.clu] s t := by
  induction cs with
  | nil => exact fun s _ => ⟨(List.append_nil _).symm, rfl, rfl, .refl _ s⟩
  | cons c cs ih =>
    intro s h
    obtain ⟨hgrants, herr, hpoison, hframe⟩ := ih (s.grantCore line c (own c)) (by rw [grantCore_clean h]; exact h)
    have hone : Frame [.clu] s (s.grantCore line c (own c)) := by
      rw [grantCore_clean h]
      exact (frame_setClu s _).trans (frame_setClu _ _)
    rw [grantCore_clean h] at hgrants herr hpoison
    exact ⟨by rw [State.each, List.foldl_cons, grantCore_clean h]; exact hgrants.trans (List.append_assoc ..),
      by rw [State.each, List.foldl_cons, grantCore_clean h]; exact herr,
      by rw [State.each, List.foldl_cons, grantCore_clean h]; exact hpoison, hone.trans hframe⟩

/-- Every core that asks for a poisoned line gets a bus error. -/
theorem each_grantCore_poisoned (line : Nat) (own : Nat → Bool) (cs : List Nat) :
    ∀ s : State, s.linePoisoned line = true → let t := s.each cs fun s c => s.grantCore line c (own c)
      t.clu.grants = s.clu.grants ∧ t.clu.busErr = s.clu.busErr ++ cs ∧ Frame [.clu] s t := by
  induction cs with
  | nil => exact fun s _ => ⟨rfl, (List.append_nil _).symm, .refl _ s⟩
  | cons c cs ih =>
    intro s h
    obtain ⟨hgrants, herr, hframe⟩ := ih (s.grantCore line c (own c)) (by rw [grantCore_poisoned h]; exact h)
    have hone : Frame [.clu] s (s.grantCore line c (own c)) := by
      rw [grantCore_poisoned h]
      exact frame_setClu s _
    rw [grantCore_poisoned h] at hgrants herr
    exact ⟨by rw [State.each, List.foldl_cons, grantCore_poisoned h]; exact hgrants,
      by rw [State.each, List.foldl_cons, grantCore_poisoned h]; exact herr.trans (List.append_assoc ..), hone.trans hframe⟩

/-- The cores of a request, in turn from the one due. -/
def State.coherenceOrder (s : State) (reqs : BitVec 4) : List Nat :=
  ([0, 1, 2, 3].map fun i => (s.clu.next + i) % 4).filter fun c => reqs.getLsbD c

/-- No grants and no bus errors yet. -/
def State.askLine (s : State) : State := s.modClu fun x => { x with grants := [], busErr := [] }

theorem exec_coherenceRequest (s : State) (line : Nat) (reqs owns : BitVec 4) : exec (.coherenceRequest line none reqs owns) s =
    .next (s.askLine.each (s.coherenceOrder reqs) fun s c => s.grantCore line c (owns.getLsbD c)) := rfl

/-! ## Memory errors (R422) -/

/-- A single-bit error shown and counted. -/
def State.corShown (s : State) (wh : Nat) (a : Word) : State := ((s.eccAt wh a).sticky F.CLU_ECC_COR).count F.CLU_ECCCNT_COR 1

/-- An error that cannot be corrected shown and counted. -/
def State.uncorShown (s : State) (wh : Nat) (a : Word) : State := ((s.eccAt wh a).sticky F.CLU_ECC_UNCOR).count F.CLU_ECCCNT_UNCOR 1

/-- The word of an error is poisoned, once. -/
def State.poisonWord (s : State) (a : Nat) : State :=
  s.modClu fun c => { c with poison := if c.poison.contains a then c.poison else a :: c.poison }

theorem exec_memoryScrub_one (s : State) (wh : Fin 3) (a : Word) :
    exec (.memoryScrub [(wh, a)]) s = .next ((s.corShown wh a).raiseOnce 0xB8 0 none) := rfl

theorem exec_memoryEccError (s : State) (wh : Fin 3) (a : Word) :
    exec (.memoryEccError wh a) s = .next (((s.uncorShown wh a).poisonWord (a.toNat / 8 * 8)).raiseOnce 0xB9 1 none) := rfl

theorem rd_where_eccAt (s : State) (wh : Fin 3) (a : Word) : (s.eccAt wh a).rd F.CLU_ECC_WHERE = wh.val :=
  (rd_wr_besideOf _ _ (by decide)).trans (rd_wr_plain (f := F.CLU_ECC_WHERE) s (wh.isLt.trans (by decide)))

theorem rd_addr_eccAt (s : State) (wh : Nat) (a : Word) : (s.eccAt wh a).rd F.CLU_ECCADDR_ADDR = a.toNat / 8 * 8 :=
  rd_wr_plain (f := F.CLU_ECCADDR_ADDR) _ ((Nat.div_mul_le_self _ _).trans_lt a.isLt)

theorem rd_eccAt (s : State) (wh : Nat) (a : Word) {g : Fld}
    (hg : (F.CLU_ECC_WHERE.besideOf g && F.CLU_ECCADDR_ADDR.besideOf g) = true) : (s.eccAt wh a).rd g = s.rd g := by
  obtain ⟨hwhere, haddr⟩ := (Bool.and_eq_true _ _).mp hg
  exact (rd_wr_besideOf _ _ haddr).trans (rd_wr_besideOf _ _ hwhere)

theorem corShown_spec (s : State) (wh : Fin 3) (a : Word) : let t := s.corShown wh a
    t.rd F.CLU_ECC_COR = 1 ∧ t.rd F.CLU_ECC_WHERE = wh.val ∧ t.rd F.CLU_ECCADDR_ADDR = a.toNat / 8 * 8 ∧
      t.rd F.CLU_ECCCNT_COR = min 65535 (s.rd F.CLU_ECCCNT_COR + 1) := by
  refine ⟨?_, ?_, ?_, ?_⟩
  · exact (rd_wr_besideOf _ _ (by decide)).trans (rd_sticky_self _ F.CLU_ECC_COR rfl (by decide) rfl)
  · exact (rd_wr_besideOf _ _ (by decide)).trans ((rd_sticky_missedBy _ (by decide)).trans (rd_where_eccAt s wh a))
  · exact (rd_wr_besideOf _ _ (by decide)).trans ((rd_sticky_missedBy _ (by decide)).trans (rd_addr_eccAt s wh a))
  · rw [State.corShown, rd_count_plain, rd_sticky_missedBy _ (by decide), rd_eccAt _ _ _ (by decide)]
    rfl

theorem uncorShown_spec (s : State) (wh : Fin 3) (a : Word) : let t := s.uncorShown wh a
    t.rd F.CLU_ECC_UNCOR = 1 ∧ t.rd F.CLU_ECC_WHERE = wh.val ∧
      t.rd F.CLU_ECCCNT_UNCOR = min 32767 (s.rd F.CLU_ECCCNT_UNCOR + 1) := by
  refine ⟨?_, ?_, ?_⟩
  · exact (rd_wr_besideOf _ _ (by decide)).trans (rd_sticky_self _ F.CLU_ECC_UNCOR rfl (by decide) rfl)
  · exact (rd_wr_besideOf _ _ (by decide)).trans ((rd_sticky_missedBy _ (by decide)).trans (rd_where_eccAt s wh a))
  · rw [State.uncorShown, rd_count_plain, rd_sticky_missedBy _ (by decide), rd_eccAt _ _ _ (by decide)]
    rfl

theorem clu_raiseOnce (s : State) (src cls : Nat) : (s.raiseOnce src cls none).clu = s.clu :=
  frame_raiseOnce s src cls none .clu (by decide)

theorem clu_uncorShown (s : State) (wh : Nat) (a : Word) : (s.uncorShown wh a).clu = s.clu := by
  rw [State.uncorShown, State.count, State.wrSat, clu_wr, clu_sticky, State.eccAt, clu_wr, clu_wr]

theorem mem_poisonWord (s : State) (a x : Nat) : x ∈ (s.poisonWord a).clu.poison ↔ x ∈ s.clu.poison ∨ x = a := by
  change x ∈ (if s.clu.poison.contains a then s.clu.poison else a :: s.clu.poison) ↔ _
  split
  · next h => exact ⟨.inl, fun hx => hx.elim id fun e => e ▸ List.contains_iff_mem.1 h⟩
  · exact List.mem_cons.trans or_comm

/-! ## The extension and its sandbox (R423, R424) -/

theorem exec_extensionStop (s : State) : exec .extensionStop s = .next s.extStop := rfl

theorem rd_stopped_extStop (s : State) : s.extStop.rd F.CLU_XST_STOPPED = 1 := by
  rw [State.extStop, rd_modClu]
  exact (rd_wr_besideOf _ _ (by decide)).trans (rd_wrB s F.CLU_XST_STOPPED true rfl rfl)

theorem rd_run_extStop (s : State) : s.extStop.rd F.CLU_XST_RUN = 0 := by
  rw [State.extStop, rd_modClu]
  exact rd_wrB _ F.CLU_XST_RUN false rfl rfl

theorem regsBut_xst_extStop (s : State) :
    RegsBut [A.CLU_XST] s ((s.wrB F.CLU_XST_STOPPED true).wrB F.CLU_XST_RUN false) :=
  (regsBut_wr_plain s (f := F.CLU_XST_STOPPED) 1).trans (regsBut_wr_plain _ (f := F.CLU_XST_RUN) 0)

theorem rd_extStop (s : State) {g : Fld} (hg : (F.CLU_XST_STOPPED.besideOf g && F.CLU_XST_RUN.besideOf g) = true) :
    s.extStop.rd g = s.rd g := by
  obtain ⟨hstopped, hrun⟩ := (Bool.and_eq_true _ _).mp hg
  rw [State.extStop, rd_modClu]
  exact (rd_wr_besideOf _ _ hrun).trans (rd_wr_besideOf _ _ hstopped)

/-- A slice ends with the time it used. -/
def State.sliceUsed (s : State) (u : Nat) : State :=
  (s.wr F.CLU_XST_USED (min u (1000 * s.clu.ext.slice))).modClu fun c => { c with slice := false }

theorem exec_extensionSliceEnd (s : State) (u : BitVec 16) :
    exec (.extensionSliceEnd u) s = .next (if s.on F.CLU_XST_RUN && s.clu.slice then s.sliceUsed u.toNat else s) := rfl

theorem on_iff (s : State) (f : Fld) : s.on f = true ↔ s.rd f ≠ 0 := by simp [State.on]

theorem on_eq_false_iff (s : State) (f : Fld) : s.on f = false ↔ s.rd f = 0 := by simp [State.on]

/-- The two registers of KEY that the sandbox writes lie in KEY. -/
theorem blockOf_keyWord {a : Nat} (h : a / 4 * 4 = A.KEY_CMD ∨ a / 4 * 4 = A.KEY_ADDR) : blockOf a = 11 := by
  have hblock : a / 0x10000 = 13 := by
    simp only [A.KEY_CMD, A.KEY_ADDR] at h
    omega
  rw [blockOf, hblock]
  rfl

theorem reaches_write_closed (x : ExtReach) {a : Nat} (hblock : blockOf a ∈ [0, 1, 2, 3, 5, 10, 12, 17, 18]) (ha : a < 0x150000) :
    x.reaches true a = false := by
  have hkey : ¬(a / 4 * 4 = A.KEY_CMD ∨ a / 4 * 4 = A.KEY_ADDR) := fun h => by
    rw [blockOf_keyWord h] at hblock
    exact absurd hblock (by decide)
  have hclosed : x.writesBlock (blockOf a) = false := by
    have hmem : ∀ b ∈ [0, 1, 2, 3, 5, 10, 12, 17, 18], ([0, 1, 2, 3, 5, 10, 11, 12, 17, 18].contains b) = true := by decide
    simp only [ExtReach.writesBlock, hmem _ hblock, Bool.not_true, Bool.and_false]
  obtain ⟨hcmd, haddr⟩ := not_or.1 hkey
  simp [ExtReach.reaches, ha, hcmd, haddr, hclosed]

theorem reaches_read_key (x : ExtReach) {a : Nat} (hblock : blockOf a = 11) (ha : a < 0x150000) : x.reaches false a = false := by
  simp [ExtReach.reaches, ExtReach.readsBlock, ha, hblock]

/-- A refused access is shown and raised. -/
def State.vioShown (s : State) (a : Word) : State :=
  ((s.sticky F.CLU_XST_VIO).wr F.CLU_XVIO_ADDR a.toNat).raiseOnce 0xBA 1 none

/-- The refusals of the last second with this one. -/
def State.refusalsSeen (s : State) : List Nat := s.clk.frame :: s.clu.refusals.filter fun f => s.clk.frame < f + 1000

/-- A refused access kept among the refusals; a read returns zero. -/
def State.refused (s : State) (w : Bool) (a : Word) : State :=
  (s.vioShown a).modClu fun c => { c with refusals := s.refusalsSeen, readBack := if w then c.readBack else 0 }

theorem parts_vioShown (s : State) (a : Word) : (s.vioShown a).clu = s.clu ∧ (s.vioShown a).clk = s.clk := by
  have hraise := frame_raiseOnce ((s.sticky F.CLU_XST_VIO).wr F.CLU_XVIO_ADDR a.toNat) 0xBA 1 none
  exact ⟨(hraise .clu (by decide)).trans (clu_wr _ _ _), (hraise .clk (by decide)).trans (clk_wr _ _ _)⟩

theorem exec_sandboxViolation_refused {s : State} {w : Bool} {a : Word} (hrun : s.rd F.CLU_XST_RUN ≠ 0)
    (hout : s.clu.ext.reaches w a.toNat = false) : exec (.sandboxViolation ⟨w, a⟩) s = .next
      (if s.clu.ext.vmax ≤ s.refusalsSeen.length then (s.refused w a).extStop else s.refused w a) := by
  obtain ⟨hclu, hclk⟩ := parts_vioShown s a
  have hexec : exec (.sandboxViolation ⟨w, a⟩) s = .next (if s.on F.CLU_XST_RUN && !(s.clu.ext.reaches w a.toNat) then
      (let u := s.vioShown a
      let seen := u.clk.frame :: u.clu.refusals.filter fun t => u.clk.frame < t + 1000
      let v := u.modClu fun c => { c with refusals := seen, readBack := if w then c.readBack else 0 }
      if v.clu.ext.vmax ≤ seen.length then v.extStop else v) else s) := rfl
  rw [hexec, if_pos (by simp [(on_iff s _).2 hrun, hout])]
  dsimp only
  rw [hclk, hclu]
  change Host.Outcome.next (if (s.vioShown a).clu.ext.vmax ≤ s.refusalsSeen.length then (s.refused w a).extStop else s.refused w a) = _
  rw [hclu]

theorem exec_sandboxViolation_reached {s : State} {w : Bool} {a : Word} (h : s.rd F.CLU_XST_RUN = 0 ∨ s.clu.ext.reaches w a.toNat = true) :
    exec (.sandboxViolation ⟨w, a⟩) s = .next s := by
  refine congrArg _ (if_neg ?_)
  rcases h with h | h
  · simp [(on_eq_false_iff s _).2 h]
  · simp [h]

theorem rd_vioShown (s : State) (a : Word) {g : Fld} (hg : (F.CLU_XST_VIO.missedBy g && F.CLU_XVIO_ADDR.besideOf g &&
    decide (blockBase 11 ≤ g.addr) && decide (g.sh = 0)) = true) : (s.vioShown a).rd g = s.rd g := by
  simp only [Bool.and_eq_true, decide_eq_true_eq] at hg
  obtain ⟨⟨⟨hvio, haddr⟩, hhigh⟩, hsh⟩ := hg
  rw [State.vioShown, (keepsHigh_raiseOnce _ 1 none).rd_eq hhigh hsh, rd_wr_besideOf _ _ haddr, rd_sticky_missedBy s hvio]

theorem rd_vio_vioShown (s : State) (a : Word) : (s.vioShown a).rd F.CLU_XST_VIO = 1 := by
  rw [State.vioShown, (keepsHigh_raiseOnce _ 1 none).rd_eq]
  exact (rd_wr_besideOf _ _ (by decide)).trans (rd_sticky_self s F.CLU_XST_VIO rfl (by decide) rfl)

theorem rd_addr_vioShown (s : State) (a : Word) : (s.vioShown a).rd F.CLU_XVIO_ADDR = a.toNat := by
  rw [State.vioShown, (keepsHigh_raiseOnce _ 1 none).rd_eq]
  exact rd_wr_plain (f := F.CLU_XVIO_ADDR) _ a.isLt

theorem raised_vioShown (s : State) (a : Word) : Raised s (s.vioShown a) 0xBA 1 none := by
  have hraised := raised_raiseOnce ((s.sticky F.CLU_XST_VIO).wr F.CLU_XVIO_ADDR a.toNat) 0xBA 1 rfl
  refine hraised.imp_left fun h => ?_
  rw [State.raisedNow, flt_wr, clk_wr] at h
  exact h

/-- What a refused access shows, whether or not it stops the extension. -/
structure RefusalShown (s t : State) (w : Bool) (a : Word) : Prop where
  vio : t.rd F.CLU_XST_VIO = 1
  addr : t.rd F.CLU_XVIO_ADDR = a.toNat
  back : t.clu.readBack = if w then s.clu.readBack else 0
  raised : Raised s t 0xBA 1 none

theorem refusalShown_refused (s : State) (w : Bool) (a : Word) : RefusalShown s (s.refused w a) w a := by
  refine ⟨?_, ?_, ?_, ?_⟩
  · rw [State.refused, rd_modClu, rd_vio_vioShown]
  · rw [State.refused, rd_modClu, rd_addr_vioShown]
  · change (if w then (s.vioShown a).clu.readBack else 0) = _
    rw [(parts_vioShown s a).1]
  · exact (raised_vioShown s a).imp_right (rd_modClu _ _ _).trans

theorem RefusalShown.extStop {s t : State} {w : Bool} {a : Word} (h : RefusalShown s t w a) : RefusalShown s t.extStop w a := by
  obtain ⟨hvio, haddr, hback, hraised⟩ := h
  refine ⟨(rd_extStop t (by decide)).trans hvio, (rd_extStop t (by decide)).trans haddr, ?_,
    hraised.imp_right (rd_extStop t (by decide)).trans⟩
  rw [← hback, State.extStop, State.wrB, State.wrB]
  change (((t.wr _ _).wr _ _).clu).readBack = _
  rw [clu_wr, clu_wr]

theorem rd_run_refused (s : State) (w : Bool) (a : Word) : (s.refused w a).rd F.CLU_XST_RUN = s.rd F.CLU_XST_RUN := by
  rw [State.refused, rd_modClu, rd_vioShown s a (by decide)]

/-! ## The display on and off (R413, R414) -/

theorem exec_displayOn (s : State) : exec .displayOn s = .next s.displayOn := rfl

theorem exec_displayOff (s : State) : exec .displayOff s = .next s.displayOff := rfl

/-- The panel's state written beside a change of its record. -/
def State.showDpy (s : State) (v : Nat) (f : DpyState → DpyState) : State := (s.wr F.DPY_STAT_STATE v).modDpy f

theorem dpyState_showDpy (s : State) {v : Nat} (hv : v < 8) (f : DpyState → DpyState) : (s.showDpy v f).dpyState = v := by
  rw [State.dpyState, State.showDpy, rd_modDpy]
  exact rd_wr_plain (f := F.DPY_STAT_STATE) s hv

theorem dpy_showDpy (s : State) (v : Nat) (f : DpyState → DpyState) : (s.showDpy v f).dpy = f s.dpy := by
  rw [State.showDpy, State.modDpy, State.setDpy_dpy, dpy_wr]

theorem wordsBut_showDpy (s : State) (v : Nat) (f : DpyState → DpyState) : WordsBut [A.DPY_STAT] s (s.showDpy v f) :=
  (regsBut_wr_plain s (f := F.DPY_STAT_STATE) v).2.trans (wordsBut_of_regs _ rfl)

theorem frame_showDpy (s : State) (v : Nat) (f : DpyState → DpyState) : Frame [.regs, .dpy] s (s.showDpy v f) :=
  ((regsBut_wr_plain s (f := F.DPY_STAT_STATE) v).1.mono (by simp)).trans ((frame_setDpy _ _).mono (by simp))

theorem displayOn_noField {s : State} (h : s.boot.vddField = false) : s.displayOn = s := by simp [State.displayOn, h]

theorem displayOn_noMode {s : State} (h : s.dpyMode = 0) : s.displayOn = s := by simp [State.displayOn, h]

theorem displayOn_panelOff {s : State} (hf : s.boot.vddField = true) (hm : s.dpyMode = 1) (hs : s.dpyState = 0) :
    s.displayOn = s.showDpy 1 fun d => { d with
      ven := 1, stepAt := s.clk.frame + s.rdly, fast := false, onHeld := false, black := false, refBad := [0, 0, 0] } := by
  simp only [State.displayOn, hf, hm, hs]
  rfl

theorem displayOn_falling {s : State} (hf : s.boot.vddField = true) (hm : s.dpyMode = 1) (hs : s.dpyState = 4) :
    s.displayOn = s.setDpy { s.dpy with onHeld := true } := by
  simp only [State.displayOn, hf, hm, hs]
  rfl

theorem displayOn_glassOff {s : State} (hf : s.boot.vddField = true) (hm : s.dpyMode = 2) (hs : s.dpyState = 0) :
    s.displayOn = s.showDpy 3 fun d => { d with scan := true, positive := true } := by
  simp only [State.displayOn, hf, hm, hs]
  rfl

theorem displayOff_noMode {s : State} (h : s.dpyMode = 0) : s.displayOff = s := by simp [State.displayOff, h]

theorem displayOff_panelDown {s : State} (hm : s.dpyMode = 1) (hs : s.dpyState = 0 ∨ s.dpyState = 4) : s.displayOff = s := by
  rcases hs with hs | hs <;> simp [State.displayOff, hm, hs]

/-- A panel that is not off or falling is led down: a rising one from the step reached. -/
theorem displayOff_panelUp {s : State} (hm : s.dpyMode = 1) (hs : s.dpyState = 1 ∨ s.dpyState = 2 ∨ s.dpyState = 3) :
    ∃ f : DpyState → DpyState, s.displayOff = s.showDpy 4 f ∧ (f s.dpy).emis = false ∧ (f s.dpy).black = decide (s.dpyState = 1) := by
  rcases hs with hs | hs | hs
  · exact ⟨fun d => { d with emis := false, black := true, stepAt := s.clk.frame }, by simp only [State.displayOff, hm, hs]; rfl, rfl,
      by simp [hs]⟩
  · exact ⟨fun d => { d with emis := false, black := false }, by simp only [State.displayOff, hm, hs]; rfl, rfl, by simp [hs]⟩
  · exact ⟨fun d => { d with emis := false, black := false }, by simp only [State.displayOff, hm, hs]; rfl, rfl, by simp [hs]⟩

theorem displayOff_glass {s : State} (hm : s.dpyMode = 2) : s.displayOff = s.showDpy 0 fun d => { d with scan := false } := by
  simp only [State.displayOff, hm]
  rfl

/-! ## Rails (R413) -/

/-- When the next rail step is due. -/
def State.nextStep (s : State) : Nat := if s.dpy.fast then s.clk.frame else s.clk.frame + s.rdly

/-- The next rail falls. -/
def State.railFallen (s : State) : State := s.setDpy { s.dpy with ven := railDown s.dpy.ven, stepAt := s.nextStep }

theorem railStep_early {s : State} (h : s.clk.frame < s.dpy.stepAt) : exec .displayRailStep s = .next s := congrArg _ (if_pos h)

theorem railStep_rises {s : State} (h : s.dpy.stepAt ≤ s.clk.frame) (hs : s.dpyState = 1) (hv : s.dpy.ven ≠ 7) :
    exec .displayRailStep s = .next (s.setDpy { s.dpy with ven := s.dpy.ven * 2 + 1, stepAt := s.nextStep }) := by
  refine congrArg _ ((if_neg (by omega)).trans ((if_pos (by simpa [hs] using hv)).trans rfl))

theorem railStep_falls {s : State} (h : s.dpy.stepAt ≤ s.clk.frame) (hs : s.dpyState = 4) (hb : s.dpy.black = true) :
    exec .displayRailStep s = .next (if railDown s.dpy.ven = 0 then
      (if s.dpy.onHeld then (s.railFallen.showDpy 0 fun d => { d with fast := false, black := false }).displayOn
      else s.railFallen.showDpy 0 fun d => { d with fast := false, black := false }) else s.railFallen) := by
  have hheld : ((s.railFallen.wr F.DPY_STAT_STATE 0).modDpy fun d => { d with fast := false, black := false }).displayOn =
    (s.railFallen.showDpy 0 fun d => { d with fast := false, black := false }).displayOn := rfl
  refine congrArg _ ((if_neg (by omega)).trans ((if_neg (by simp [hs])).trans ((if_pos (by simp [hs, hb])).trans ?_)))
  rfl

/-! ## A frame start (R411, R412, R413) -/

theorem rd_latchFrame (s : State) {g : Fld} (hg : F.DPY_TCOMP_TEMP.Apart g) : s.latchFrame.rd g = s.rd g := by
  rw [State.latchFrame, rd_modDpy]
  exact rd_wr_apart s _ g _ hg

theorem fbase_latchFrame (s : State) : s.latchFrame.dpy.fbase = s.rd F.DPY_FBASE_ADDR / 4 * 4 := by
  change (s.wr F.DPY_TCOMP_TEMP (codeOf 16 s.dpyTemp)).rd F.DPY_FBASE_ADDR / 4 * 4 = _
  rw [rd_wr_apart s _ _ _ (by unfold Fld.Apart; decide)]

theorem refBad_latchFrame (s : State) : s.latchFrame.dpy.refBad = s.dpy.refBad := by
  change (s.wr F.DPY_TCOMP_TEMP (codeOf 16 s.dpyTemp)).dpy.refBad = _
  rw [dpy_wr]

/-- The runs of bad frames of the reference balls after one more frame. -/
def State.refRuns (s : State) (bad : BitVec 3) : List Nat :=
  [0, 1, 2].map fun c => if bad.getLsbD c then nth s.dpy.refBad c + 1 else 0

theorem refCheck_passes {s : State} {bad : BitVec 3} (h : (s.refRuns bad).contains 10 = false) :
    s.refCheck bad = s.setDpy { s.dpy with refBad := s.refRuns bad } :=
  if_neg (by rw [show ([0, 1, 2].map fun c => if bad.getLsbD c then nth s.dpy.refBad c + 1 else 0) = s.refRuns bad from rfl, h]; simp)

theorem refRuns_below {s : State} {bad : BitVec 3} (h : bad = 0 ∨ ∀ c : Fin 3, nth s.dpy.refBad c < 9) :
    (s.refRuns bad).contains 10 = false := by
  have hne : ∀ c : Fin 3, (if bad.getLsbD c then nth s.dpy.refBad c + 1 else 0) ≠ 10 := fun c => by
    rcases h with rfl | h
    · simp
    · have := h c
      split <;> omega
  rw [← Bool.not_eq_true, List.contains_iff_mem]
  intro hmem
  simp only [State.refRuns, List.map_cons, List.map_nil, List.mem_cons, List.not_mem_nil, or_false] at hmem
  rcases hmem with h0 | h1 | h2
  · exact hne 0 h0.symm
  · exact hne 1 h1.symm
  · exact hne 2 h2.symm

/-- The frame that turns a panel in BLACK on, before its reference balls are checked. -/
def State.turnOn (s : State) : State := (s.latchFrame.showDpy 3 fun d => { d with emis := true }).frameSent

theorem frameStart_black {s : State} {bad : BitVec 3} (hm : s.dpyMode = 1) (hs : s.dpyState = 2) :
    exec (.displayFrameStart bad) s = .next (s.turnOn.refCheck bad) := by
  have hpanel : s.panelStart bad = s.turnOn.refCheck bad := by
    simp only [State.panelStart, hs]
    rfl
  exact congrArg _ ((if_pos hm).trans hpanel)

theorem dpy_turnOn (s : State) : s.turnOn.dpy = { s.latchFrame.dpy with emis := true } := by
  rw [State.turnOn, State.frameSent, State.countWrap, dpy_wr, dpy_showDpy]

theorem dpyState_turnOn (s : State) : s.turnOn.dpyState = 3 :=
  (rd_wr_besideOf _ _ (by decide)).trans (dpyState_showDpy s.latchFrame (by decide) _)

theorem rd_frames_turnOn (s : State) : s.turnOn.rd F.DPY_STAT_FRAMES = (s.rd F.DPY_STAT_FRAMES + 1) % 65536 := by
  have hbefore : (s.latchFrame.showDpy 3 fun d => { d with emis := true }).rd F.DPY_STAT_FRAMES = s.rd F.DPY_STAT_FRAMES := by
    rw [State.showDpy, rd_modDpy, rd_wr_besideOf _ _ (by decide), rd_latchFrame s (by unfold Fld.Apart; decide)]
  rw [State.turnOn, State.frameSent, rd_countWrap _ _ ⟨by decide, .inl rfl⟩, hbefore]
  rfl

theorem frameStart_noMode {s : State} (bad : BitVec 3) (h : s.dpyMode = 0) : exec (.displayFrameStart bad) s = .next s :=
  congrArg _ ((if_neg (by omega)).trans (if_neg (by omega)))

theorem frameStart_glassIdle {s : State} (bad : BitVec 3) (hm : s.dpyMode = 2) (h : s.dpy.scan = false) :
    exec (.displayFrameStart bad) s = .next s :=
  congrArg _ ((if_neg (by omega)).trans ((if_pos hm).trans (if_pos (by simp [h]))))

/-! ## O56 -/

theorem dpyState_of_frame {s t : State} (h : Frame [.dpy] s t) : t.dpyState = s.dpyState :=
  rd_eq_of_regs (h .regs (by decide)) (h .gold (by decide)) _

/-- Settles O56: each command as its equation says, the memory's and the sandbox's raises by what a raise can reach. -/
theorem clusterMemoryAndDisplay : Obligations.ClusterMemoryAndDisplay := by
  unfold Obligations.ClusterMemoryAndDisplay
  refine ⟨fun s line reqs owns => ⟨fun hclean => ?clean, fun hpoisoned => ?poisoned⟩, fun s wh a => ⟨rfl, ?scrub, ?ecc⟩,
    fun s => ⟨?stop, fun u hidle => ?sliceIdle, fun u hrun hslice => ?sliceEnd, fun a => ⟨fun hblock ha => ?writes, fun hblock ha => ?reads⟩,
      fun w a h => exec_sandboxViolation_reached h, fun w a hrun hout => ?refused⟩,
    fun s => ⟨fun hm => ⟨?onNoMode, ?offNoMode, fun b => frameStart_noMode b hm⟩, fun hf => ?onNoField, fun hf hm hs => ?onPanel,
      fun hf hm hs => ?onFalling, fun hf hm hs => ?onGlass, fun hm hs => ?offDown, fun hm hs => ?offUp, fun hm => ?offGlass⟩,
    fun s => ⟨railStep_early, fun hdue hs hv => ?rises, fun hdue hs hb hv => ?falls, fun hdue hs hb hv hheld => ?lastFalls,
      fun b hm hs href => ?turnsOn, fun b hm hscan => frameStart_glassIdle b hm hscan⟩⟩
  case clean =>
    obtain ⟨hgrants, herr, hpoison, hframe⟩ :=
      each_grantCore_clean line (fun c => owns.getLsbD c) (s.coherenceOrder reqs) s.askLine ((linePoisoned_congr rfl line).trans hclean)
    exact ⟨_, exec_coherenceRequest s line reqs owns, hgrants, herr, hpoison, (frame_setClu s _).trans hframe⟩
  case poisoned =>
    obtain ⟨hgrants, herr, hframe⟩ :=
      each_grantCore_poisoned line (fun c => owns.getLsbD c) (s.coherenceOrder reqs) s.askLine ((linePoisoned_congr rfl line).trans hpoisoned)
    exact ⟨_, exec_coherenceRequest s line reqs owns, hgrants, herr, (frame_setClu s _).trans hframe⟩
  case scrub =>
    have hkeep := keepsHigh_raiseOnce (s.corShown wh a) (src := 0xB8) 0 none
    obtain ⟨hcor, hwhere, haddr, hcount⟩ := corShown_spec s wh a
    exact ⟨_, exec_memoryScrub_one s wh a, hkeep.rd_eq.trans hcor, hkeep.rd_eq.trans hwhere, hkeep.rd_eq.trans haddr,
      hkeep.rd_eq.trans hcount⟩
  case ecc =>
    have hkeep := keepsHigh_raiseOnce ((s.uncorShown wh a).poisonWord (a.toNat / 8 * 8)) (src := 0xB9) 1 none
    obtain ⟨huncor, hwhere, hcount⟩ := uncorShown_spec s wh a
    refine ⟨_, exec_memoryEccError s wh a, hkeep.rd_eq.trans ((rd_modClu _ _ _).trans huncor),
      hkeep.rd_eq.trans ((rd_modClu _ _ _).trans hwhere), hkeep.rd_eq.trans ((rd_modClu _ _ _).trans hcount), fun x => ?_⟩
    rw [clu_raiseOnce, mem_poisonWord, clu_uncorShown]
  case stop =>
    exact ⟨_, exec_extensionStop s, rd_stopped_extStop s, rd_run_extStop s, rfl,
      (regsBut_xst_extStop s).2.trans (wordsBut_of_regs _ rfl),
      ((regsBut_xst_extStop s).1.mono (by simp)).trans ((frame_setClu _ _).mono (by simp))⟩
  case sliceIdle =>
    rw [exec_extensionSliceEnd, if_neg]
    rcases hidle with h | h
    · simp [(on_eq_false_iff s _).2 h]
    · simp [h]
  case sliceEnd =>
    rw [exec_extensionSliceEnd, if_pos (by simp [(on_iff s _).2 hrun, hslice])]
    exact ⟨_, rfl, (rd_modClu _ _ _).trans (rd_wr s F.CLU_XST_USED _ ⟨by decide, .inl rfl⟩), rfl,
      (regsBut_wr_plain s (f := F.CLU_XST_USED) _).2.trans (wordsBut_of_regs _ rfl)⟩
  case writes => exact reaches_write_closed _ hblock ha
  case reads => exact reaches_read_key _ hblock ha
  case refused =>
    rw [exec_sandboxViolation_refused hrun hout]
    have hshown := refusalShown_refused s w a
    have hlen : s.refusalsSeen.length = (s.clu.refusals.filter fun f => s.clk.frame < f + 1000).length + 1 := rfl
    by_cases hmax : s.clu.ext.vmax ≤ s.refusalsSeen.length
    · rw [if_pos hmax]
      obtain ⟨hvio, haddr, hback, hraised⟩ := hshown.extStop
      exact ⟨_, rfl, hvio, haddr, hback, hraised, fun _ => ⟨rd_run_extStop _, rd_stopped_extStop _⟩, fun hlt => absurd hmax (by omega)⟩
    · rw [if_neg hmax]
      obtain ⟨hvio, haddr, hback, hraised⟩ := hshown
      exact ⟨_, rfl, hvio, haddr, hback, hraised, fun hle => absurd (hlen ▸ hle) hmax, fun _ => rd_run_refused s w a⟩
  case onNoMode => rw [exec_displayOn, displayOn_noMode hm]
  case offNoMode => rw [exec_displayOff, displayOff_noMode hm]
  case onNoField => rw [exec_displayOn, displayOn_noField hf]
  case onPanel =>
    rw [exec_displayOn, displayOn_panelOff hf hm hs]
    exact ⟨_, rfl, dpyState_showDpy s (by decide) _, by rw [dpy_showDpy], by rw [dpy_showDpy], wordsBut_showDpy s _ _, frame_showDpy s _ _⟩
  case onFalling => rw [exec_displayOn, displayOn_falling hf hm hs]
  case onGlass =>
    rw [exec_displayOn, displayOn_glassOff hf hm hs]
    exact ⟨_, rfl, dpyState_showDpy s (by decide) _, by rw [dpy_showDpy], wordsBut_showDpy s _ _⟩
  case offDown => rw [exec_displayOff, displayOff_panelDown hm hs]
  case offUp =>
    obtain ⟨f, hoff, hemis, hblack⟩ := displayOff_panelUp hm hs
    rw [exec_displayOff, hoff]
    exact ⟨_, rfl, dpyState_showDpy s (by decide) _, by rw [dpy_showDpy, hemis], by rw [dpy_showDpy, hblack], wordsBut_showDpy s _ _⟩
  case offGlass =>
    rw [exec_displayOff, displayOff_glass hm]
    exact ⟨_, rfl, dpyState_showDpy s (by decide) _, by rw [dpy_showDpy], wordsBut_showDpy s _ _⟩
  case rises => exact ⟨_, railStep_rises hdue hs hv, rfl, frame_setDpy s _⟩
  case falls =>
    rw [railStep_falls hdue hs hb, if_neg hv]
    exact ⟨_, rfl, rfl, (dpyState_of_frame (frame_setDpy s _)).trans hs, frame_setDpy s _⟩
  case lastFalls =>
    rw [railStep_falls hdue hs hb, if_pos hv, hheld, if_neg Bool.false_ne_true]
    exact ⟨_, rfl, dpyState_showDpy _ (by decide) _, by rw [dpy_showDpy]; exact hv, by rw [dpy_showDpy]⟩
  case turnsOn =>
    have hruns : s.turnOn.refRuns b = s.refRuns b := by
      rw [State.refRuns, dpy_turnOn, refBad_latchFrame, State.refRuns]
    rw [frameStart_black hm hs, refCheck_passes (by rw [hruns, refRuns_below href])]
    refine ⟨_, rfl, (rd_setDpy _ _ _).trans (dpyState_turnOn s), ?_, (rd_setDpy _ _ _).trans (rd_frames_turnOn s), ?_⟩
    · rw [State.setDpy_dpy, dpy_turnOn]
    · rw [State.setDpy_dpy, dpy_turnOn, fbase_latchFrame]

end Sys2Proof.Machine
end

