-- ==== Sys2Proof/Proofs/ReadersAndTag.lean ====
section
/-!
PROOFS. O57: card readers find, poll and leave cards; the service tag answers by its address and guards its staging area.
-/

namespace Sys2Proof.Machine

open Sys2Proof

set_option Elab.async false

/-! ## A reader's record and its registers -/

@[simp] theorem reader_wr (s : State) (f : Fld) (v k : Nat) : (s.wr f v).reader k = s.reader k := by
  rw [State.reader, nfc_wr, State.reader]

@[simp] theorem reader_modReader (s : State) (k : Nat) (f : Reader → Reader) : (s.modReader k f).reader k = f (s.reader k) :=
  lk_put_self ..

@[simp] theorem rdrState_modReader (s : State) (k j : Nat) (f : Reader → Reader) : (s.modReader k f).rdrState j = s.rdrState j :=
  rd_modReader s k f _

@[simp] theorem rdrState_modSwa (s : State) (f : SwaState → SwaState) (j : Nat) : (s.modSwa f).rdrState j = s.rdrState j := rd_modSwa s f _

theorem rdrState_setRdr (s : State) (k : Nat) {v : Nat} (hv : v < 8) : (s.setRdr k v).rdrState k = v :=
  rd_wr_plain (f := F.NFC_RDk_ST_STATE k) s hv

/-! ## Pings (R398 to R400) -/

theorem antEnd_eq (s : State) : s.antEnd = s ∨ s.antEnd = s.causeOff 0xB0 none := by
  unfold State.antEnd
  split
  · exact .inr rfl
  · exact .inl rfl

/-- A ping noted, its amplitude in range. -/
def State.pingNoted (s : State) (k : Nat) : State :=
  (s.modReader k fun r => { r with pingAt := some s.clk.frame }).antCheck k true

/-- A ping in range changes of its reader the time of the ping and the run of bad amplitudes. -/
structure PingNoted (s t : State) (k : Nat) : Prop where
  reader : t.reader k = { s.reader k with pingAt := some s.clk.frame, bad := 0 }
  rd : ∀ g, t.rd g = s.rd g
  swa : t.swa = s.swa
  clk : t.clk = s.clk

theorem pingNoted_spec (s : State) (k : Nat) : PingNoted s (s.pingNoted k) k := by
  have hreader : ((s.modReader k fun r => { r with pingAt := some s.clk.frame }).modReader k fun r => { r with bad := 0 }).reader k =
      { s.reader k with pingAt := some s.clk.frame, bad := 0 } := by
    rw [reader_modReader, reader_modReader]
  have hrd : ∀ g, ((s.modReader k fun r => { r with pingAt := some s.clk.frame }).modReader k fun r => { r with bad := 0 }).rd g =
      s.rd g := fun g => by rw [rd_modReader, rd_modReader]
  unfold State.pingNoted State.antCheck
  rw [if_pos rfl]
  rcases antEnd_eq ((s.modReader k fun r => { r with pingAt := some s.clk.frame }).modReader k fun r => { r with bad := 0 }) with h | h <;>
    rw [h]
  · exact ⟨hreader, hrd, rfl, rfl⟩
  · exact ⟨hreader, fun g => (rd_causeOff _ _ _ g).trans (hrd g), rfl, rfl⟩

/-- May reader `k` ping now: enabled, in state 1, 2 or 5, and in its turn of the interval? -/
def State.mayPing (s : State) (k : Nat) : Bool :=
  s.on (F.NFC_RDk_CFG_EN k) && (s.rdrState k = 1 || s.rdrState k = 2 || s.rdrState k = 5) && s.pingDue k

theorem readerPing_not {s : State} {k : Fin 4} (h : s.mayPing k = false) (x : Nat) (ok : Bool) : exec (.readerPing k x ok) s = .next s :=
  congrArg _ (if_neg (by rw [← Bool.not_eq_true] at h; exact h))

theorem readerPing_based {s : State} {k : Fin 4} (h : s.mayPing k = true) (hr : (s.reader k).rebase = false) {b : Nat}
    (hb : (s.reader k).base = some b) (x : Nat) : exec (.readerPing k x true) s = .next ((s.pingNoted k).pingStep k x b) := by
  have hreader := (pingNoted_spec s k).reader
  have hbase : (if ((s.pingNoted k).reader k).rebase then none else ((s.pingNoted k).reader k).base) = some b := by
    rw [hreader, hr, hb]
    rfl
  refine congrArg _ ((if_pos h).trans ?_)
  change (match (if ((s.pingNoted k).reader k).rebase then none else ((s.pingNoted k).reader k).base) with
    | some b => (s.pingNoted k).pingStep k x b
    | none => ((s.pingNoted k).modReader k fun r => { r with base := some x, rebase := false }).pingStep k x x) = _
  rw [hbase]

/-- The second ping at or above DET asks for a transmission. -/
def State.askCarrier (s : State) (k : Nat) : State :=
  let s := (s.setRdr k 2).modReader k fun r => { r with overs := 0 }
  s.modSwa fun w => { w with rdrQueue := w.rdrQueue ++ [(k, s.clk.frame + 1)] }

/-- A ping at or above DET of a reader that waits for a card: the first one counts, the second asks for a transmission. -/
theorem pingStep_over {s : State} {k x b : Nat} (hs : s.rdrState k = 1) (hdet : s.rd (F.NFC_RDk_CFG_DET k) ≤ detuning b x) :
    s.pingStep k x b = let u := s.wr (F.NFC_RDk_ST_DETUNE k) (detuning b x)
      if (u.reader k).overs + 1 < 2 then u.modReader k fun r => { r with overs := r.overs + 1 } else u.askCarrier k := by
  have hstate : (s.wr (F.NFC_RDk_ST_DETUNE k) (detuning b x)).rdrState k = 1 := (rd_wr_beside s _).trans hs
  unfold State.pingStep
  simp only [hstate, if_neg (Nat.not_lt.2 hdet)]
  rfl

theorem rdrState_askCarrier (s : State) (k : Nat) : (s.askCarrier k).rdrState k = 2 := by
  rw [State.askCarrier, rdrState_modSwa, rdrState_modReader, rdrState_setRdr _ _ (by decide)]

theorem mem_rdrQueue_askCarrier (s : State) (k : Nat) : (k, s.clk.frame + 1) ∈ (s.askCarrier k).swa.rdrQueue := by
  have hclk : ((s.setRdr k 2).modReader k fun r => { r with overs := 0 }).clk = s.clk := clk_wr s _ _
  unfold State.askCarrier
  extract_lets u
  rw [← hclk]
  exact List.mem_append_right _ (List.mem_singleton.2 rfl)

theorem pingStep_first {s : State} {k x b : Nat} (hs : s.rdrState k = 1) (hdet : s.rd (F.NFC_RDk_CFG_DET k) ≤ detuning b x)
    (ho : (s.reader k).overs = 0) : (s.pingStep k x b).rdrState k = 1 ∧ ((s.pingStep k x b).reader k).overs = 1 := by
  rw [pingStep_over hs hdet]
  dsimp only
  rw [reader_wr, ho, if_pos (by decide)]
  exact ⟨(rdrState_modReader _ _ _ _).trans ((rd_wr_beside s _).trans hs), by rw [reader_modReader, reader_wr, ho]⟩

theorem pingStep_second {s : State} {k x b : Nat} (hs : s.rdrState k = 1) (hdet : s.rd (F.NFC_RDk_CFG_DET k) ≤ detuning b x)
    (ho : (s.reader k).overs = 1) :
    (s.pingStep k x b).rdrState k = 2 ∧ (k, s.clk.frame + 1) ∈ (s.pingStep k x b).swa.rdrQueue := by
  rw [pingStep_over hs hdet]
  dsimp only
  rw [reader_wr, ho, if_neg (by decide), ← clk_wr s (F.NFC_RDk_ST_DETUNE k) (detuning b x)]
  exact ⟨rdrState_askCarrier _ k, mem_rdrQueue_askCarrier _ k⟩

/-! ## Polls (R401) -/

theorem exec_readerPoll (k : Fin 4) (s : State) : exec (.readerPoll k) s = .next
    (if s.rdrState k = 3 && ((s.rdrTypes k).1 || (s.rdrTypes k).2) && (s.reader k).since + 5 * ((s.reader k).polls + 1) ≤ s.clk.frame then
      s.modReader k fun r => { r with
        polls := r.polls + 1, lastB := r.nextB, nextB := if (s.rdrTypes k).1 && (s.rdrTypes k).2 then !r.nextB else (s.rdrTypes k).2 }
    else s) := rfl

theorem exec_readerPollTimeout (k : Fin 4) (s : State) : exec (.readerPollTimeout k) s = .next
    (if s.rdrState k = 3 && (s.reader k).since + 10 * s.rd (F.NFC_RDk_CFG_POLLT k) ≤ s.clk.frame then
      (s.count (F.NFC_RDk_CNT_WAKE k) 1).carrierOff k else s) := rfl

/-- One of the two types is enabled where TYPES is not 0. -/
theorem rdrTypes_any {s : State} {k : Nat} (h : s.rd (F.NFC_RDk_CFG_TYPES k) ≠ 0) : ((s.rdrTypes k).1 || (s.rdrTypes k).2) = true := by
  have hlt : s.rd (F.NFC_RDk_CFG_TYPES k) < 4 := rd_lt s (F.NFC_RDk_CFG_TYPES k)
  have hbits : ∀ v < 4, v ≠ 0 → (bitOf v 0 || bitOf v 1) = true := by decide
  exact hbits _ hlt h

theorem rdrState_carrierOff (s : State) (k : Nat) : (s.carrierOff k).rdrState k = 5 := by
  rw [State.carrierOff, rdrState_modSwa, rdrState_modReader, rdrState_setRdr _ _ (by decide)]

theorem carrier_carrierOff (s : State) (k : Nat) : ((s.carrierOff k).reader k).carrier = false := by
  change (((s.setRdr k 5).modReader k fun r => { r with carrier := false, overs := 0 }).reader k).carrier = false
  rw [reader_modReader]

theorem mem_rdrEnd_carrierOff (s : State) (k : Nat) : k ∈ (s.carrierOff k).swa.rdrEnd := List.mem_cons_self

theorem rd_wake_pollTimeout (s : State) (k : Nat) : ((s.count (F.NFC_RDk_CNT_WAKE k) 1).carrierOff k).rd (F.NFC_RDk_CNT_WAKE k) =
    min 32767 (s.rd (F.NFC_RDk_CNT_WAKE k) + 1) := by
  rw [State.carrierOff, rd_modSwa, rd_modReader, State.setRdr, rd_wr_elsewhere _ _ laneAddr_ne, rd_count_plain]
  rfl

/-! ## A card (R401) -/

/-- A card shown: its identifier, type and DEP, CARD, the count of reads, and the session it begins. -/
def State.cardShown (s : State) (k : Nat) (typeB dep : Bool) (uid : List Byte) : State :=
  let s := (s.wr (F.NFC_RDk_UID_UID k) (leNat uid)).wr (F.NFC_RDk_UID_LEN k) uid.length
  let s := (s.wrB (F.NFC_RDk_ST_TYPE k) typeB).wrB (F.NFC_RDk_ST_DEP k) dep
  let s := ((s.sticky (F.NFC_RDk_ST_CARD k)).count (F.NFC_RDk_CNT_READS k) 1).setRdr k 4
  s.modReader k fun r => { r with since := s.clk.frame }

/-- A UID that a card of a type may have. -/
def uidSize (typeB : Bool) (n : Nat) : Bool := n = 4 || (!typeB && (n = 7 || n = 10))

/-- Is a card's type enabled? -/
def State.typeOn (s : State) (k : Nat) (typeB : Bool) : Bool := if typeB then (s.rdrTypes k).2 else (s.rdrTypes k).1

theorem exec_cardActivated (k : Fin 4) (typeB dep : Bool) (uid : List Byte) (s : State) : exec (.cardActivated k typeB dep uid) s = .next
    (if s.rdrState k = 3 && s.typeOn k typeB && uidSize typeB uid.length then (s.cardShown k typeB dep uid).cardRead k uid else s) := rfl

theorem leNat_lt (bs : List Byte) : leNat bs < 2 ^ (8 * bs.length) := by
  induction bs with
  | nil => decide
  | cons b bs ih =>
    have hb := b.isLt
    rw [leNat, List.length_cons, show 8 * (bs.length + 1) = 8 + 8 * bs.length by omega, Nat.pow_add]
    omega

section
variable (s : State) (k : Fin 4) (typeB dep : Bool) (uid : List Byte)

theorem rd_len_cardShown (hlen : uid.length ≤ 10) : (s.cardShown k typeB dep uid).rd (F.NFC_RDk_UID_LEN k) = uid.length := by
  unfold State.cardShown State.setRdr State.count State.wrSat State.wrB
  rw [rd_modReader, rd_wr_besideOf _ _ (by revert k; decide), rd_wr_besideOf _ _ (by revert k; decide),
    rd_sticky_missedBy _ (by revert k; decide), rd_wr_besideOf _ _ (by revert k; decide), rd_wr_besideOf _ _ (by revert k; decide),
    rd_wr _ _ _ ⟨(by decide : 80 ≤ 83), .inl rfl⟩]
  exact Nat.mod_eq_of_lt (Nat.lt_of_le_of_lt hlen (by decide : 10 < 2 ^ 4))

theorem rd_uid_cardShown (hlen : uid.length ≤ 10) : (s.cardShown k typeB dep uid).rd (F.NFC_RDk_UID_UID k) = leNat uid := by
  unfold State.cardShown State.setRdr State.count State.wrSat State.wrB
  rw [rd_modReader, rd_wr_besideOf _ _ (by revert k; decide), rd_wr_besideOf _ _ (by revert k; decide),
    rd_sticky_missedBy _ (by revert k; decide), rd_wr_besideOf _ _ (by revert k; decide), rd_wr_besideOf _ _ (by revert k; decide),
    rd_wr_besideOf _ _ (by revert k; decide), rd_wr _ _ _ ⟨(by decide : 0 ≤ 79), .inl rfl⟩]
  exact Nat.mod_eq_of_lt ((leNat_lt uid).trans_le (Nat.pow_le_pow_right (by decide) (by omega : 8 * uid.length ≤ 80)))

theorem rd_type_cardShown : (s.cardShown k typeB dep uid).rd (F.NFC_RDk_ST_TYPE k) = b2n typeB := by
  unfold State.cardShown State.setRdr State.count State.wrSat
  rw [rd_modReader, rd_wr_besideOf _ _ (by revert k; decide), rd_wr_besideOf _ _ (by revert k; decide),
    rd_sticky_missedBy _ (by revert k; decide), State.wrB, rd_wr_besideOf _ _ (by revert k; decide), rd_wrB _ _ _ rfl rfl]

theorem rd_dep_cardShown : (s.cardShown k typeB dep uid).rd (F.NFC_RDk_ST_DEP k) = b2n dep := by
  unfold State.cardShown State.setRdr State.count State.wrSat
  rw [rd_modReader, rd_wr_besideOf _ _ (by revert k; decide), rd_wr_besideOf _ _ (by revert k; decide),
    rd_sticky_missedBy _ (by revert k; decide), rd_wrB _ _ _ rfl rfl]

theorem rd_card_cardShown : (s.cardShown k typeB dep uid).rd (F.NFC_RDk_ST_CARD k) = 1 := by
  unfold State.cardShown State.setRdr State.count State.wrSat
  rw [rd_modReader, rd_wr_besideOf _ _ (by revert k; decide), rd_wr_besideOf _ _ (by revert k; decide),
    rd_sticky_self _ _ rfl (by decide : 23 < 24) rfl]

theorem rd_reads_cardShown : (s.cardShown k typeB dep uid).rd (F.NFC_RDk_CNT_READS k) =
    min 65535 (s.rd (F.NFC_RDk_CNT_READS k) + 1) := by
  unfold State.cardShown State.setRdr State.wrB
  rw [rd_modReader, rd_wr_besideOf _ _ (by revert k; decide), rd_count_plain, rd_sticky_missedBy _ (by revert k; decide),
    rd_wr_besideOf _ _ (by revert k; decide), rd_wr_besideOf _ _ (by revert k; decide), rd_wr_besideOf _ _ (by revert k; decide),
    rd_wr_besideOf _ _ (by revert k; decide)]
  rfl

theorem rdrState_cardShown : (s.cardShown k typeB dep uid).rdrState k = 4 := by
  unfold State.cardShown
  rw [rdrState_modReader, rdrState_setRdr _ _ (by decide)]

theorem since_cardShown : ((s.cardShown k typeB dep uid).reader k).since = s.clk.frame := by
  unfold State.cardShown State.setRdr State.count State.wrSat State.wrB
  rw [reader_modReader]
  dsimp only
  rw [clk_wr, clk_wr, clk_sticky, clk_wr, clk_wr, clk_wr, clk_wr]

end

theorem exec_readerFoff (k : Fin 4) (s : State) : exec (.readerFoff k) s = .next (s.cardEnd k) := rfl

theorem exec_readerCardLoss (k : Fin 4) (s : State) : exec (.readerCardLoss k) s = .next (s.cardEnd k) := rfl

theorem exec_readerSessionTimeout (k : Fin 4) (s : State) : exec (.readerSessionTimeout k) s = .next
    (if (s.reader k).since + 100 * s.rd (F.NFC_RDk_CFG_SESST k) ≤ s.clk.frame then s.cardEnd k else s) := rfl

theorem cardEnd_session {s : State} {k : Nat} (h : s.rdrState k = 4) : s.cardEnd k = s.carrierOff k := if_pos h

theorem cardEnd_other {s : State} {k : Nat} (h : s.rdrState k ≠ 4) : s.cardEnd k = s := if_neg h

/-! ## The service tag: who it answers (R402) -/

/-- The tag answers `r`. -/
def State.reply (s : State) (r : TagReply) : State := s.setNfc { s.nfc with reply := r }

theorem tagAnswer_field {s : State} (h : s.rd F.NFC_TAG_ST_FIELD ≠ 0) (r : TagReply) : s.tagAnswer r = s.reply r := by
  rw [State.tagAnswer, (on_iff s _).2 h]
  rfl

theorem tagAnswer_none (s : State) : s.tagAnswer .none = s.reply .none := by
  rw [State.tagAnswer, ite_self]
  rfl

theorem field_of_tagHears {s : State} {ad : TagAddr} (h : s.tagHears ad = true) : s.rd F.NFC_TAG_ST_FIELD ≠ 0 := by
  simp only [State.tagHears, Bool.and_eq_true] at h
  exact (on_iff s _).1 h.1

/-- What the tag does with a request that it hears. -/
theorem heard_next {s : State} {ad : TagAddr} (h : s.tagHears ad = true) (t u : State) : (if s.tagHears ad then t else u) = t := if_pos h

/-! ## The staging area (R403 to R405) -/

theorem lk_foldl_put_zipIdx (data : List Byte) : ∀ (l : List Host.Cell) (o n j : Nat),
    lk memDefault ((data.zipIdx n).foldl (fun l x => put memDefault l (o + x.2) x.1) l) j =
      if o + n ≤ j ∧ j < o + n + data.length then data.getD (j - (o + n)) 0 else lk memDefault l j := by
  induction data with
  | nil =>
    intro l o n j
    rw [if_neg (by simp)]
    rfl
  | cons b bs ih =>
    intro l o n j
    rw [List.zipIdx_cons, List.foldl_cons, ih, List.length_cons]
    rcases Nat.lt_trichotomy j (o + n) with h | h | h
    · rw [if_neg (by omega), if_neg (by omega), lk_put_ne _ _ _ _ _ (by omega)]
    · subst h
      rw [if_neg (by omega), if_pos (by omega), lk_put_self, Nat.sub_self]
      rfl
    · by_cases hin : j < o + n + (bs.length + 1)
      · rw [if_pos (by omega), if_pos (by omega), show j - (o + n) = (j - (o + (n + 1))) + 1 by omega, List.getD_cons_succ]
      · rw [if_neg (by omega), if_neg (by omega), lk_put_ne _ _ _ _ _ (by omega)]

/-- The staging area with a block written at offset `o`. -/
def State.writeStaging (s : State) (o : Nat) (data : List Byte) : State :=
  s.modNfc fun x => { x with staging := data.zipIdx.foldl (fun l x => put memDefault l (o + x.2) x.1) s.nfc.staging }

/-- A block written to the staging area reads back. -/
theorem stagedBytes_writeStaging (s : State) (o : Nat) (data : List Byte) : (s.writeStaging o data).stagedBytes o data.length = data := by
  refine List.ext_getElem (by simp [State.stagedBytes]) fun i hi hd => ?_
  have hcell := lk_foldl_put_zipIdx data s.nfc.staging o 0 (o + i)
  rw [if_pos ⟨by omega, by omega⟩, show o + i - (o + 0) = i by omega] at hcell
  simp only [State.stagedBytes, List.getElem_map, List.getElem_range]
  exact hcell.trans (List.getD_eq_getElem _ _ hd)

theorem tagGuard_passes {s : State} (hen : s.rd F.NFC_TAG_CFG_STGEN ≠ 0) (hlock : s.nfc.locked = false) {mv : Nat} (hmv : 2200 ≤ mv) :
    s.tagGuard mv = (none, s) := by
  simp [State.tagGuard, (on_iff s _).2 hen, hlock, Nat.not_lt.2 hmv]

theorem tagGuard_locked {s : State} (hen : s.rd F.NFC_TAG_CFG_STGEN ≠ 0) (hlock : s.nfc.locked = true) (mv : Nat) :
    s.tagGuard mv = (some 0xA3, s) := by
  simp [State.tagGuard, (on_iff s _).2 hen, hlock]

theorem tagGuard_lowSupply {s : State} (hen : s.rd F.NFC_TAG_CFG_STGEN ≠ 0) (hlock : s.nfc.locked = false) {mv : Nat} (hmv : mv < 2200) :
    s.tagGuard mv = (some 0xA1, s.count F.NFC_TAG_ST_LOWSUP 1) := by
  simp [State.tagGuard, (on_iff s _).2 hen, hlock, hmv]

/-- A write to a block of the staging area, its guard judged. -/
def State.tagStage (s : State) (b : Nat) (d : List Byte) (mv : Nat) : State :=
  match s.tagGuard mv with
  | (some e, s) => s.tagAnswer (.error e)
  | (none, s) => ((s.writeStaging (32 * (b - 0x10)) d).wrB F.NFC_TAG_ST_STAGED false).tagAnswer .ok

section
variable {s : State} {ad : TagAddr} (hears : s.tagHears ad = true) {d : List Byte} (hd : d.length = 32)
include hears hd

/-- A request to write a block other than the commit block, of the right length: refused before the staging area is reached, or staged. -/
theorem exec_writeSingle {b : BitVec 16} (hb : b.toNat ≠ 4) (mv : Nat) : exec (.tagExtWriteSingle ad b d mv) s = .next
    (if !s.on F.NFC_TAG_CFG_STGEN || b.toNat ≤ 1 then s.tagAnswer (.error 0x12)
    else if b.toNat < 0x10 || 0x200F < b.toNat then s.tagAnswer (.error 0x10) else s.tagStage b.toNat d mv) :=
  congrArg _ ((if_neg (by simp [hears, hd])).trans ((if_neg hb).trans rfl))

theorem writeSingle_refused {b : BitVec 16} (hb : b.toNat ≠ 4) (mv : Nat) (h : s.rd F.NFC_TAG_CFG_STGEN = 0 ∨ b.toNat ≤ 1) :
    exec (.tagExtWriteSingle ad b d mv) s = .next (s.reply (.error 0x12)) := by
  have hguard : (!s.on F.NFC_TAG_CFG_STGEN || decide (b.toNat ≤ 1)) = true := by
    rcases h with h | h
    · simp [(on_eq_false_iff s _).2 h]
    · simp [h]
  rw [exec_writeSingle hears hd hb, if_pos hguard, tagAnswer_field (field_of_tagHears hears)]

theorem writeSingle_missing {b : BitVec 16} (hb : b.toNat ≠ 4) (mv : Nat) (hen : s.rd F.NFC_TAG_CFG_STGEN ≠ 0) (hb1 : 1 < b.toNat)
    (h : b.toNat < 0x10 ∨ 0x200F < b.toNat) : exec (.tagExtWriteSingle ad b d mv) s = .next (s.reply (.error 0x10)) := by
  rw [exec_writeSingle hears hd hb, if_neg (by simp [(on_iff s _).2 hen, hb1]), if_pos (by simpa using h),
    tagAnswer_field (field_of_tagHears hears)]

theorem writeSingle_staged {b : BitVec 16} (mv : Nat) (hen : s.rd F.NFC_TAG_CFG_STGEN ≠ 0) (hlo : 0x10 ≤ b.toNat)
    (hhi : b.toNat ≤ 0x200F) : exec (.tagExtWriteSingle ad b d mv) s = .next (s.tagStage b.toNat d mv) := by
  rw [exec_writeSingle hears hd (by omega), if_neg (by simp [(on_iff s _).2 hen]; omega), if_neg (by simp; omega)]

end

theorem tagStage_locked {s : State} (hf : s.rd F.NFC_TAG_ST_FIELD ≠ 0) (hen : s.rd F.NFC_TAG_CFG_STGEN ≠ 0) (hlock : s.nfc.locked = true)
    (b : Nat) (d : List Byte) (mv : Nat) : s.tagStage b d mv = s.reply (.error 0xA3) := by
  rw [State.tagStage, tagGuard_locked hen hlock]
  exact tagAnswer_field hf _

theorem rd_field_count (s : State) : (s.count F.NFC_TAG_ST_LOWSUP 1).rd F.NFC_TAG_ST_FIELD = s.rd F.NFC_TAG_ST_FIELD :=
  rd_wr_besideOf _ _ (by decide)

theorem tagStage_lowSupply {s : State} (hf : s.rd F.NFC_TAG_ST_FIELD ≠ 0) (hen : s.rd F.NFC_TAG_CFG_STGEN ≠ 0) (hlock : s.nfc.locked = false)
    (b : Nat) (d : List Byte) {mv : Nat} (hmv : mv < 2200) :
    s.tagStage b d mv = (s.count F.NFC_TAG_ST_LOWSUP 1).reply (.error 0xA1) := by
  rw [State.tagStage, tagGuard_lowSupply hen hlock hmv]
  exact tagAnswer_field (by rwa [rd_field_count]) _

theorem staging_lowSupply (s : State) (r : TagReply) : ((s.count F.NFC_TAG_ST_LOWSUP 1).reply r).nfc.staging = s.nfc.staging := by
  change (s.count F.NFC_TAG_ST_LOWSUP 1).nfc.staging = _
  rw [State.count, State.wrSat, nfc_wr]

/-- A block staged: its bytes in the staging area, STAGED cleared. -/
def State.blockStaged (s : State) (o : Nat) (d : List Byte) : State := (s.writeStaging o d).wrB F.NFC_TAG_ST_STAGED false

theorem tagStage_good {s : State} (hf : s.rd F.NFC_TAG_ST_FIELD ≠ 0) (hen : s.rd F.NFC_TAG_CFG_STGEN ≠ 0) (hlock : s.nfc.locked = false)
    (b : Nat) (d : List Byte) {mv : Nat} (hmv : 2200 ≤ mv) : s.tagStage b d mv = (s.blockStaged (32 * (b - 0x10)) d).reply .ok := by
  rw [State.tagStage, tagGuard_passes hen hlock hmv]
  refine tagAnswer_field ?_ _
  rw [State.wrB, rd_wr_besideOf _ _ (by decide), State.writeStaging, rd_modNfc]
  exact hf

theorem staging_blockStaged (s : State) (o : Nat) (d : List Byte) : (s.blockStaged o d).nfc.staging = (s.writeStaging o d).nfc.staging := by
  rw [State.blockStaged, State.wrB, nfc_wr]

/-! ## The commit (R405) -/

/-- A staged list is accepted: STAGED, its length, COMMIT, and an entry of the tamper journal. -/
def State.commitShown (s : State) (len : Nat) : State :=
  let s := ((s.wrB F.NFC_TAG_ST_STAGED true).wr F.NFC_TAG_LEN_BYTES len).sticky F.NFC_TAG_ST_COMMIT
  (s.tamperEntry 8 true (!s.boot.vddCore)).modNfc fun x => { x with restart := x.restart || s.boot.noCfg }

/-- Does the staging area hold a list of this length and CRC? -/
def State.stagedGood (s : State) (len crc : Nat) : Bool := len % 4 = 0 && len ≤ 262144 && crc32 (s.stagedBytes 0 len) = crc

theorem tagCommit_guarded {s : State} (hen : s.rd F.NFC_TAG_CFG_STGEN ≠ 0) (hlock : s.nfc.locked = false) {mv : Nat} (hmv : 2200 ≤ mv)
    (len crc : Nat) : s.tagCommit len crc mv = if s.stagedGood len crc then (s.commitShown len).tagAnswer .ok else s.tagAnswer (.error 0xA2) := by
  rw [State.tagCommit, tagGuard_passes hen hlock hmv]
  rfl

theorem tamperEntry_keeps (s : State) (src : Nat) (active dark : Bool) : WordsBut [A.THM_TMP_STAT] s (s.tamperEntry src active dark) ∧
    (s.tamperEntry src active dark).nfc = s.nfc := by
  unfold State.tamperEntry State.when
  extract_lets num bytes full u
  have hu : WordsBut [A.THM_TMP_STAT] s u := wordsBut_of_regs _ rfl
  split
  · exact ⟨hu.trans (regsBut_wr_plain _ (f := F.THM_TMP_STAT_WRAPS) _).2, nfc_wr _ _ _⟩
  · exact ⟨hu, rfl⟩

theorem rd_commitShown (s : State) (len : Nat) {g : Fld} (hg : g.plain = true) (haddr : g.addr ≠ A.THM_TMP_STAT) :
    (s.commitShown len).rd g =
      (((s.wrB F.NFC_TAG_ST_STAGED true).wr F.NFC_TAG_LEN_BYTES len).sticky F.NFC_TAG_ST_COMMIT).rd g := by
  unfold State.commitShown
  rw [rd_modNfc]
  exact (tamperEntry_keeps _ _ _ _).1.rd_plain (by simpa using haddr) hg

theorem staging_commitShown (s : State) (len : Nat) : (s.commitShown len).nfc.staging = s.nfc.staging := by
  unfold State.commitShown
  extract_lets u
  change (u.tamperEntry 8 true (!u.boot.vddCore)).nfc.staging = _
  rw [(tamperEntry_keeps _ _ _ _).2, nfc_sticky, nfc_wr, State.wrB, nfc_wr]

theorem commitShown_spec (s : State) {len : Nat} (hlen : len ≤ 262144) : let t := s.commitShown len
    t.rd F.NFC_TAG_ST_STAGED = 1 ∧ t.rd F.NFC_TAG_LEN_BYTES = len ∧ t.rd F.NFC_TAG_ST_COMMIT = 1 ∧
      t.rd F.NFC_TAG_ST_FIELD = s.rd F.NFC_TAG_ST_FIELD := by
  refine ⟨?_, ?_, ?_, ?_⟩
  · rw [rd_commitShown _ _ (by decide) (by decide), rd_sticky_missedBy _ (by decide), rd_wr_besideOf _ _ (by decide)]
    exact rd_wrB s F.NFC_TAG_ST_STAGED true rfl rfl
  · rw [rd_commitShown _ _ (by decide) (by decide), rd_sticky_missedBy _ (by decide)]
    exact rd_wr_plain (f := F.NFC_TAG_LEN_BYTES) _ (Nat.lt_of_le_of_lt hlen (by decide))
  · rw [rd_commitShown _ _ (by decide) (by decide)]
    exact rd_sticky_self _ F.NFC_TAG_ST_COMMIT rfl (by decide) rfl
  · rw [rd_commitShown _ _ (by decide) (by decide), rd_sticky_missedBy _ (by decide), rd_wr_besideOf _ _ (by decide)]
    exact rd_wr_besideOf s _ (by decide)

/-! ## Reads of the tag (R403) -/

theorem exec_readSingle {s : State} {ad : TagAddr} (hears : s.tagHears ad = true) (b : BitVec 16) :
    exec (.tagExtReadSingle ad b) s = .next (s.reply (tagData (s.tagBlock b.toNat))) := by
  rw [← tagAnswer_field (field_of_tagHears hears)]
  exact congrArg (fun r => Host.Outcome.next (s.tagAnswer r)) (if_pos hears)

theorem exec_readMultiple {s : State} {ad : TagAddr} (hears : s.tagHears ad = true) (b n : BitVec 16) :
    exec (.tagExtReadMultiple ad b n) s = .next (s.reply
      (if b.toNat + n.toNat ≤ 0x200F then tagData (s.tagBlocks (n.toNat + 1) b.toNat) else .error 0x10)) := by
  rw [← tagAnswer_field (field_of_tagHears hears)]
  exact congrArg (fun r => Host.Outcome.next (s.tagAnswer r)) (if_pos hears)

theorem tagBlock_staged (s : State) {b : Nat} (hlo : 0x10 ≤ b) (hhi : b ≤ 0x200F) :
    s.tagBlock b = some (s.stagedBytes (32 * (b - 0x10)) 32) := by
  rw [State.tagBlock, if_neg (by omega), if_neg (by omega), if_neg (by omega), if_pos (by simp; omega)]

theorem tagBlock_commit (s : State) : s.tagBlock 4 = some (List.replicate 32 0) := rfl

theorem tagBlock_none (s : State) {b : Nat} (h : 1 < b ∧ b < 0x10 ∧ b ≠ 4 ∨ 0x200F < b) : s.tagBlock b = none := by
  rw [State.tagBlock, if_neg (by omega), if_neg (by omega), if_neg (by omega), if_neg (by simp; omega)]

theorem tagBlocks_one (s : State) (b : Nat) : s.tagBlocks 1 b = s.tagBlock b := by
  unfold State.tagBlocks State.tagBlocks
  cases s.tagBlock b with
  | none => rfl
  | some x => exact congrArg some (List.append_nil x)

/-! ## O57 -/

theorem mayPing_eq_false {s : State} {k : Nat} (h : s.rd (F.NFC_RDk_CFG_EN k) = 0 ∨ s.rdrState k = 0 ∨ s.rdrState k = 3 ∨ s.rdrState k = 4 ∨
    s.pingDue k = false) : s.mayPing k = false := by
  rcases h with h | h | h | h | h
  · simp [State.mayPing, (on_eq_false_iff s _).2 h]
  · simp [State.mayPing, h]
  · simp [State.mayPing, h]
  · simp [State.mayPing, h]
  · simp [State.mayPing, h]

/-- What an unheard request leaves: no answer. -/
theorem unheard_next {s : State} {ad : TagAddr} (h : s.tagHears ad = false) (t : State) :
    (if s.tagHears ad then t else s.tagAnswer .none) = s.reply .none := by
  rw [h, if_neg Bool.false_ne_true, tagAnswer_none]

theorem unheard_answer {s : State} {ad : TagAddr} (h : s.tagHears ad = false) (r : TagReply) :
    s.tagAnswer (if s.tagHears ad then r else .none) = s.reply .none := by
  rw [h, if_neg Bool.false_ne_true, tagAnswer_none]

/-- What follows a change of the field in the tag's record. -/
def State.fieldNoted (s : State) (b : Bool) : State :=
  let s := s.modNfc fun x => { x with reply := .none }
  (if b then s else s.modNfc fun x => { x with quiet := false, selected := false }).harvest

theorem exec_tagFieldChange (s : State) (b : Bool) :
    exec (.tagFieldChange b) s = .next ((s.wrB F.NFC_TAG_ST_FIELD b).fieldNoted b) := rfl

theorem fieldNoted_spec (s : State) (b : Bool) : ∃ v : NfcState, s.fieldNoted b = s.setNfc v ∧
    (b = false → v.quiet = false ∧ v.selected = false) ∧ (b = true → v.quiet = s.nfc.quiet ∧ v.selected = s.nfc.selected) := by
  cases b
  · exact ⟨_, rfl, fun _ => ⟨rfl, rfl⟩, fun h => absurd h Bool.false_ne_true⟩
  · exact ⟨_, rfl, fun h => absurd h.symm Bool.false_ne_true, fun _ => ⟨rfl, rfl⟩⟩

/-- Settles O57: the reader's commands by their equations; the tag's by whom it hears, its guard, and what a staged block reads back as. -/
theorem readersAndServiceTag : Obligations.ReadersAndServiceTag := by
  unfold Obligations.ReadersAndServiceTag
  refine ⟨fun s k x ok => ?reader, fun s ad b n len crc d mv hnot => ?unheard, fun s ad hears => ?heard, fun s k m slot u hf => ?inventory,
    fun s b => ?field⟩
  case reader =>
    intro st
    refine ⟨fun h => readerPing_not (mayPing_eq_false h) x ok, fun b hen hdue hst hr hb hdet => ?pinged, rfl, fun hst => ?noPoll,
      fun hst htypes hdue => ?poll, fun hst hdue => ?timeout, fun hst hearly => ?inTime, fun dep uid hst => ?card, fun hst => ?noSession,
      fun hst => ?session⟩
    case pinged =>
      have hmay : s.mayPing k = true := by
        rw [State.mayPing, (on_iff s _).2 hen, hdue, show s.rdrState k = 1 from hst]
        rfl
      obtain ⟨hreader, hrd, -, hclk⟩ := pingNoted_spec s k
      have hstate : (s.pingNoted k).rdrState k = 1 := (hrd _).trans hst
      have hdet' : (s.pingNoted k).rd (F.NFC_RDk_CFG_DET k) ≤ detuning b x := (hrd _).symm ▸ hdet
      refine ⟨_, readerPing_based hmay hr hb x, fun ho => pingStep_first hstate hdet' (by rw [hreader, ho]), fun ho => ?_⟩
      rw [← hclk]
      exact pingStep_second hstate hdet' (by rw [hreader, ho])
    case noPoll =>
      refine ⟨?_, ?_, fun b d u => ?_⟩
      · rw [exec_readerPoll, if_neg (by simp [show s.rdrState k ≠ 3 from hst])]
      · rw [exec_readerPollTimeout, if_neg (by simp [show s.rdrState k ≠ 3 from hst])]
      · rw [exec_cardActivated, if_neg (by simp [show s.rdrState k ≠ 3 from hst])]
    case poll =>
      rw [exec_readerPoll, if_pos (by rw [rdrTypes_any htypes]; simp [show s.rdrState k = 3 from hst, hdue])]
      exact ⟨_, rfl, by rw [reader_modReader], frame_setNfc s _⟩
    case timeout =>
      rw [exec_readerPollTimeout, if_pos (by simp [show s.rdrState k = 3 from hst, hdue])]
      exact ⟨_, rfl, rdrState_carrierOff _ k, rd_wake_pollTimeout s k, carrier_carrierOff _ k, mem_rdrEnd_carrierOff _ k⟩
    case inTime => rw [exec_readerPollTimeout, if_neg (by simp; omega)]
    case card =>
      refine ⟨fun htype hlen => ⟨s.cardShown k false dep uid, ?_, rdrState_cardShown s k false dep uid, rd_len_cardShown s k false dep uid (by omega),
        rd_uid_cardShown s k false dep uid (by omega), rd_card_cardShown s k false dep uid, rd_type_cardShown s k false dep uid,
        rd_dep_cardShown s k false dep uid, rd_reads_cardShown s k false dep uid, since_cardShown s k false dep uid⟩, fun htype => ?_, fun hlen => ?_⟩
      · have hsize : uidSize false uid.length = true := by simpa [uidSize] using hlen
        have htypeOn : s.typeOn k false = true := htype
        rw [exec_cardActivated, if_pos (by rw [htypeOn, hsize, show s.rdrState k = 3 from hst]; rfl)]
      · have htypeOn : s.typeOn k false = false := htype
        rw [exec_cardActivated, if_neg (by simp [htypeOn])]
      · rw [exec_cardActivated, if_neg (by simp [uidSize, hlen])]
    case noSession =>
      rw [exec_readerFoff, exec_readerCardLoss, exec_readerSessionTimeout, cardEnd_other hst, ite_self]
      exact ⟨rfl, rfl, rfl⟩
    case session =>
      rw [exec_readerFoff, exec_readerCardLoss, exec_readerSessionTimeout, cardEnd_session hst]
      exact ⟨⟨_, rfl, rfl, rdrState_carrierOff s k, carrier_carrierOff s k, fun hdue => by rw [if_pos hdue]⟩,
        fun hearly => by rw [if_neg (by omega)]⟩
  case unheard =>
    intro none_
    refine ⟨congrArg _ (unheard_next hnot _), congrArg _ (unheard_next hnot _), congrArg _ (unheard_answer hnot _),
      congrArg _ (unheard_answer hnot _), congrArg _ (unheard_answer hnot _), congrArg _ (unheard_answer hnot _),
      congrArg _ (unheard_next hnot _), congrArg _ ((if_pos (by simp [hnot])).trans (tagAnswer_none s))⟩
  case heard =>
    have hf := field_of_tagHears hears
    refine ⟨?quieted, ?ready, ?short, ?extended, fun b => ?readOne, fun b n => ?readMany, fun b d mv hd hb => ?write,
      fun len crc mv hen hlock hmv => ?commit⟩
    case quieted => exact congrArg _ ((if_pos hears).trans (tagAnswer_none _))
    case ready => exact congrArg _ ((if_pos hears).trans (tagAnswer_field (by rwa [rd_modNfc]) _))
    case short => exact congrArg _ ((congrArg s.tagAnswer (if_pos hears)).trans (tagAnswer_field hf _))
    case extended => exact congrArg _ ((congrArg s.tagAnswer (if_pos hears)).trans (tagAnswer_field hf _))
    case readOne =>
      refine ⟨_, exec_readSingle hears b, frame_setNfc s _, fun hlo hhi => ?_, fun hb => ?_, fun hb => ?_⟩
      · exact congrArg tagData (tagBlock_staged s hlo hhi)
      · exact congrArg tagData (hb ▸ tagBlock_commit s)
      · exact congrArg tagData (tagBlock_none s hb)
    case readMany =>
      refine ⟨_, exec_readMultiple hears b n, frame_setNfc s _, fun hout => if_neg (by omega), fun hn hb => ?_⟩
      rw [exec_readSingle hears, hn, if_pos (by omega), tagBlocks_one]
    case write =>
      refine ⟨writeSingle_refused hears hd hb mv, writeSingle_missing hears hd hb mv, fun hen hlo hhi => ?_⟩
      rw [writeSingle_staged hears hd mv hen hlo hhi]
      refine ⟨fun hlock => by rw [tagStage_locked hf hen hlock]; rfl, fun hlock hmv => ?_, fun hlock hmv => ?_⟩
      · rw [tagStage_lowSupply hf hen hlock _ _ hmv]
        exact ⟨_, rfl, rfl, staging_lowSupply s _, (rd_setNfc _ _ _).trans (rd_count_plain s 1)⟩
      · rw [tagStage_good hf hen hlock _ _ hmv]
        refine ⟨_, rfl, rfl, (rd_setNfc _ _ _).trans (rd_wrB _ F.NFC_TAG_ST_STAGED false rfl rfl), ?_, ?_⟩
        · have hstaged := stagedBytes_writeStaging s (32 * (b.toNat - 0x10)) d
          rw [hd] at hstaged
          rw [← hstaged]
          exact congrArg (fun l => (List.range 32).map fun i => lk (fun _ => 0) l (32 * (b.toNat - 0x10) + i)) (by rw [hstaged]; exact staging_blockStaged s _ d)
        · exact (wordsBut_of_regs _ rfl).trans (((regsBut_wr_plain _ (f := F.NFC_TAG_ST_STAGED) 0).2).trans (wordsBut_of_regs _ rfl))
    case commit =>
      intro good
      have hexec : exec (.tagCommit ad len crc mv) s = .next (s.tagCommit len.toNat crc.toNat mv) := congrArg _ (if_pos hears)
      have hgood : s.stagedGood len.toNat crc.toNat = true ↔ good := by simp [State.stagedGood, good, and_assoc]
      rw [hexec, tagCommit_guarded hen hlock hmv]
      refine ⟨fun h => ?_, fun h => ?_⟩
      · obtain ⟨hstaged, hlen, hcommit, hfield⟩ := commitShown_spec s h.2.1
        rw [if_pos (hgood.2 h), tagAnswer_field (by rwa [hfield])]
        exact ⟨_, rfl, rfl, (rd_setNfc _ _ _).trans hstaged, (rd_setNfc _ _ _).trans hlen, (rd_setNfc _ _ _).trans hcommit,
          staging_commitShown s _⟩
      · rw [if_neg fun hg => h (hgood.1 hg), tagAnswer_field hf]
        rfl
  case inventory =>
    refine ⟨?_, fun hu => ?_, fun hu => ?_⟩
    · refine congrArg _ ((tagAnswer_field hf _).trans ?_)
      simp only [State.reply, Bool.and_eq_true, Bool.not_eq_true']
    · exact congrArg _ ((if_neg (by simp [(on_iff s _).2 hf])).trans ((if_pos hu).trans (tagAnswer_field (by rwa [rd_modNfc]) _)))
    · exact congrArg _ ((if_neg (by simp [(on_iff s _).2 hf])).trans ((if_neg hu).trans (tagAnswer_none _)))
  case field =>
    obtain ⟨v, hv, hgone, hthere⟩ := fieldNoted_spec (s.wrB F.NFC_TAG_ST_FIELD b) b
    have hnfc : (s.wrB F.NFC_TAG_ST_FIELD b).nfc = s.nfc := nfc_wr s _ _
    rw [hnfc] at hthere
    rw [exec_tagFieldChange, hv]
    refine ⟨_, rfl, (rd_setNfc _ _ _).trans (rd_wrB s F.NFC_TAG_ST_FIELD b rfl rfl), hgone, hthere, ?_⟩
    rw [← hnfc]
    exact regsBut_wr_plain s (f := F.NFC_TAG_ST_FIELD) _

end Sys2Proof.Machine
end

