-- ==== Sys2Proof/Proofs/EthernetAndJoiningLinks.lean ====
section
/-!
PROOFS. O53: Ethernet links, the time protocol on the source port, and the joining links.
-/

namespace Sys2Proof.Machine

open Sys2Proof

set_option Elab.async false

theorem frame_setLnk (s : State) (v : LnkState) : Frame [.lnk] s (s.setLnk v) := by
  intro p hp
  cases p
  case lnk => simp at hp
  all_goals rfl

/-! ## Ethernet links (R338) -/

/-- The state of a port shown: a gigabit link, or none. -/
def State.linkShown (s : State) (p : Nat) (on : Bool) : State := (s.wrB (F.LNK_ETHp_STAT_LINK p) on).wrB (F.LNK_ETHp_STAT_SPEED p) on

theorem exec_ethLinkChange (s : State) (p : Fin 2) (up gb : Bool) : exec (.ethLinkChange p up gb) s = .next
    (if s.on (F.LNK_ETHp_STAT_LINK p) && !(up && gb) then (s.linkShown p (up && gb)).sticky (F.LNK_ETHp_STAT_DOWN p)
    else s.linkShown p (up && gb)) := rfl

theorem rd_link_linkShown (s : State) (p : Nat) (on : Bool) :
    (s.linkShown p on).rd (F.LNK_ETHp_STAT_LINK p) = if on then 1 else 0 := by
  rw [State.linkShown, State.wrB, rd_wr_beside, rd_wrB _ _ _ rfl rfl]
  rfl

theorem rd_down_linkShown (s : State) (p : Nat) (on : Bool) :
    (s.linkShown p on).rd (F.LNK_ETHp_STAT_DOWN p) = s.rd (F.LNK_ETHp_STAT_DOWN p) :=
  (rd_wr_beside _ _).trans (rd_wr_beside _ _)

theorem regsBut_linkShown (s : State) (p : Nat) (on : Bool) : RegsBut [A.LNK_ETHp_STAT p] s (s.linkShown p on) :=
  (regsBut_wr_plain s (f := F.LNK_ETHp_STAT_LINK p) _).trans (regsBut_wr_plain _ (f := F.LNK_ETHp_STAT_SPEED p) _)

theorem rd_link_sticky (s : State) (p : Fin 2) :
    (s.sticky (F.LNK_ETHp_STAT_DOWN p)).rd (F.LNK_ETHp_STAT_LINK p) = s.rd (F.LNK_ETHp_STAT_LINK p) :=
  rd_sticky_missedBy s (by revert p; decide)

/-! ## The time protocol (R342) -/

theorem ptpFrom_iff (s : State) (p dom clock : Nat) :
    s.ptpFrom p dom clock = true ↔ s.ptpSource p dom = true ∧ s.lnk.ptp.master = some clock := by
  simp [State.ptpFrom]

theorem ptpFrom_eq_false {s : State} {p dom clock : Nat} (h : s.ptpSource p dom = false ∨ s.lnk.ptp.master ≠ some clock) :
    ¬s.ptpFrom p dom clock = true := fun hfrom => by
  obtain ⟨hsource, hmaster⟩ := (ptpFrom_iff s p dom clock).1 hfrom
  rcases h with h | h
  · exact absurd hsource (by rw [h]; decide)
  · exact h hmaster

/-- A Sync pair taken without a delay known. -/
def State.ptpTimed (s : State) (t1 t2 : Nat) : State :=
  s.setLnk { s.lnk with ptp := { s.lnk.ptp with waiting := none, t1 := t1, t2 := t2 } }

theorem ptpResult_noDelay {s : State} (h : s.lnk.ptp.delay = none) (t1 t2 : Nat) : s.ptpResult t1 t2 = s.ptpTimed t1 t2 := by
  have hdelay : (s.ptpTimed t1 t2).lnk.ptp.delay = none := h
  change (match (s.ptpTimed t1 t2).lnk.ptp.delay with
    | some d => (s.ptpTimed t1 t2).syncResult ((t2 : Int) - t1 - d)
    | none => s.ptpTimed t1 t2) = _
  rw [hdelay]

theorem ptpResult_delay {s : State} {d : Int} (h : s.lnk.ptp.delay = some d) (t1 t2 : Nat) :
    s.ptpResult t1 t2 = (s.ptpTimed t1 t2).syncResult ((t2 : Int) - t1 - d) := by
  have hdelay : (s.ptpTimed t1 t2).lnk.ptp.delay = some d := h
  change (match (s.ptpTimed t1 t2).lnk.ptp.delay with
    | some d => (s.ptpTimed t1 t2).syncResult ((t2 : Int) - t1 - d)
    | none => s.ptpTimed t1 t2) = _
  rw [hdelay]

theorem exec_ptpSync (s : State) (p : Fin 2) (dom : Byte) (c : BitVec 64) (n : BitVec 16) (a : Nat) (o : Option Nat) :
    exec (.ptpSync p ⟨dom, c⟩ n a o) s = .next (if s.ptpFrom p dom.toNat c.toNat then
      (match o with
      | some t1 => s.ptpResult t1 a
      | none => s.modPtp fun x => { x with waiting := some (n.toNat, a) })
    else s) := rfl

theorem exec_ptpFollowUp (s : State) (p : Fin 2) (dom : Byte) (c : BitVec 64) (n : BitVec 16) (a : Nat) :
    exec (.ptpFollowUp p ⟨dom, c⟩ n a) s = .next (if s.ptpFrom p dom.toNat c.toNat then
      (match s.lnk.ptp.waiting with
      | some (q, f) => if q = n.toNat then s.ptpResult a f else s
      | none => s)
    else s) := rfl

theorem exec_ptpDelayResp (s : State) (p : Fin 2) (dom : Byte) (c : BitVec 64) (a b : Nat) :
    exec (.ptpDelayResp p ⟨dom, c⟩ a b) s = .next (if s.ptpFrom p dom.toNat c.toNat then
      s.modPtp fun x => { x with delay := some (((x.t2 : Int) - x.t1 + ((b : Int) - a)) / 2) }
    else s) := rfl

theorem exec_ptpAnnounce (s : State) (p : Fin 2) (dom : Byte) (an : PtpAnnounce) :
    exec (.ptpAnnounce p dom an) s = .next (if s.ptpSource p dom.toNat then
      s.modPtp fun x => { x with foreign := put (fun _ => []) x.foreign an.clock.toNat an.vector }
    else s) := rfl

/-- Does the device send the site's time: its source Local, and LOCKED? -/
def State.grandmaster (s : State) : Bool := s.clk.source = 7 && s.rd F.TCK_SYNC_STATE = 1

/-- The messages of a Sync and its Follow_Up on every linked port. -/
def State.syncTx (s : State) (n t : Nat) : List (Nat × Nat × Nat × Nat) :=
  ([0, 1].filter fun p => s.on (F.LNK_ETHp_CFG_EN p) && s.on (F.LNK_ETHp_STAT_LINK p)).flatMap fun p => [(0, p, n, 0), (1, p, n, t)]

theorem exec_ptpSyncSend (s : State) (t : Nat) : exec (.ptpSyncSend t) s = .next
    (if s.grandmaster && 1000 ≤ (s.clk.frame - s.lnk.ptp.sentAt) * 2 ^ min 7 (s.rd F.LNK_PTP_SYNCI) then
      s.modPtp fun x => { x with syncSeq := (s.lnk.ptp.syncSeq + 1) % 65536, sentAt := s.clk.frame,
                                 tx := s.syncTx ((s.lnk.ptp.syncSeq + 1) % 65536) t }
    else s.modPtp fun x => { x with tx := [] }) := rfl

theorem exec_ptpDelayReq (s : State) (p : Fin 2) (dom : Byte) (n : BitVec 16) (a : Nat) : exec (.ptpDelayReq p dom n a) s = .next
    (if s.grandmaster && s.on (F.LNK_ETHp_CFG_EN p) && s.rd F.LNK_PTP_DOMAIN = dom.toNat then
      s.modPtp fun x => { x with tx := [(2, p, n.toNat, a)] }
    else s.modPtp fun x => { x with tx := [] }) := rfl

theorem grandmaster_iff (s : State) : s.grandmaster = true ↔ s.clk.source = 7 ∧ s.rd F.TCK_SYNC_STATE = 1 := by
  simp [State.grandmaster]

theorem syncTx_spec (s : State) (n t : Nat) : ∀ x ∈ s.syncTx n t, (x.1 = 0 ∨ x.1 = 1 ∧ x.2.2.2 = t) ∧ x.2.2.1 = n := by
  intro x hx
  obtain ⟨p, -, hp⟩ := List.mem_flatMap.1 hx
  rcases List.mem_pair.1 hp with rfl | rfl
  · exact ⟨.inl rfl, rfl⟩
  · exact ⟨.inr ⟨rfl, rfl⟩, rfl⟩

/-! ## What sending on the joining links keeps (R344, R345, R354) -/

theorem jlink_modJl_self (s : State) (k : Nat) (f : JLink → JLink) : (s.modJl k f).jlink k = f (s.jlink k) := lk_put_self ..

theorem jlink_modJl_ne (s : State) {j k : Nat} (h : j ≠ k) (f : JLink → JLink) : (s.modJl k f).jlink j = s.jlink j := lk_put_ne _ _ _ _ _ h

/-- Frames go out: of the registers only the injector's counts change, and no link's reach. -/
structure FramesSent (s t : State) : Prop where
  words : WordsBut [A.LNK_FICNT] s t
  reach : ∀ k, (t.jlink k).reach = (s.jlink k).reach

theorem FramesSent.refl (s : State) : FramesSent s s := ⟨fun _ _ => rfl, fun _ => rfl⟩

theorem FramesSent.trans {s t u : State} (h₁ : FramesSent s t) (h₂ : FramesSent t u) : FramesSent s u :=
  ⟨h₁.words.trans h₂.words, fun k => (h₂.reach k).trans (h₁.reach k)⟩

theorem FramesSent.rd_eq {s t : State} (h : FramesSent s t) {g : Fld} (hg : g.addr ∉ [A.LNK_FICNT]) (hp : g.plain = true := by rfl) :
    t.rd g = s.rd g := h.words.rd_plain hg hp

section
variable {s t : State} (h : FramesSent s t)
include h

/-- A change of records that keeps the links. -/
theorem FramesSent.within {u : State} (hregs : u.regs = t.regs := by rfl) (hjl : u.lnk.jl = t.lnk.jl := by rfl) : FramesSent s u :=
  h.trans ⟨wordsBut_of_regs _ hregs, fun k => by rw [State.jlink, hjl, State.jlink]⟩

theorem FramesSent.drawRate (r : Fld) : FramesSent s (t.drawRate r).2 := by
  unfold State.drawRate
  split
  · exact h
  · exact h.within

theorem FramesSent.draw : FramesSent s t.draw.2 := h.within

theorem FramesSent.count {f : Fld} (hf : f.addr = A.LNK_FICNT := by rfl) (hp : f.plain = true := by rfl) : FramesSent s (t.count f 1) := by
  have hlnk : (t.count f 1).lnk = t.lnk := lnk_wr t f _
  exact h.trans ⟨hf ▸ (regsBut_wr_plain t _ hp).2, fun k => by rw [State.jlink, hlnk, State.jlink]⟩

theorem FramesSent.inject {α : Type} {tx : Bool} {corrupt : Bool → Nat → α → α} {held : Option α} {f : α} :
    FramesSent s (t.inject finjLnk tx corrupt held f).2.2 := by
  unfold State.inject
  dsimp only
  split
  · exact h
  · split
    · exact (h.drawRate _).count
    · split
      · split
        · exact ((((h.drawRate _).drawRate _).draw.count).drawRate _).count
        · exact (((h.drawRate _).drawRate _).draw.count).drawRate _
      · split
        · exact (((h.drawRate _).drawRate _).drawRate _).count
        · exact ((h.drawRate _).drawRate _).drawRate _

/-- A change of one link's record that keeps its reach. -/
theorem FramesSent.modJl {k : Nat} {f : JLink → JLink} (hf : ∀ j, (f j).reach = j.reach) : FramesSent s (t.modJl k f) := by
  refine h.trans ⟨wordsBut_of_regs _ rfl, fun j => ?_⟩
  by_cases hj : j = k
  · rw [hj, jlink_modJl_self, hf]
  · rw [jlink_modJl_ne t hj]

theorem FramesSent.jlPut (k : Nat) (f : JlFrame) : FramesSent s (t.jlPut k f) := by
  have hwaits := h.modJl (k := k) (f := fun j => { j with unacked := j.unacked ++ [f] }) fun _ => rfl
  unfold State.jlPut
  extract_lets u flip
  split
  · exact FramesSent.within (hwaits.inject (tx := true) (corrupt := flip) (held := u.lnk.jlHeld) (f := f))
  · exact hwaits.within

theorem FramesSent.jlSend (arrived : Option Nat) (f : JlFrame) : FramesSent s (t.jlSend arrived f) := by
  unfold State.jlSend
  split
  · exact each_induction h fun u hu k _ => hu.jlPut k f
  · split
    · exact h.jlPut _ f
    · exact h.within

theorem FramesSent.jlRebuild : FramesSent s t.jlRebuild := by
  unfold State.jlRebuild
  extract_lets rs w u
  have hrouted : FramesSent s u := h.within
  exact List.foldlRecOn w _ hrouted fun v hv f _ => hv.jlSend none f

end

/-! ## The joining links (R344 to R346) -/

theorem jlAddr_notMem (k : Nat) (hk : k < 4) : A.LNK_JLk_ST k ∉ [A.LNK_FICNT] := by
  simp only [A.LNK_JLk_ST, A.LNK_FICNT, List.mem_singleton]
  omega

/-- A link shown up with its peer. -/
def State.jlShown (s : State) (k peer : Nat) : State :=
  ((s.wrB (F.LNK_JLk_ST_UP k) true).wr (F.LNK_JLk_ST_PEER k) peer).modLnk fun l => { l with jlTx := [] }

theorem exec_jlLinkUp (s : State) (k : Fin 4) (peer : BitVec 16) (reach : List (Nat × Nat)) : exec (.jlLinkUp k peer reach) s = .next
    ((s.jlShown k peer.toNat).modJl k fun j => { j with reach := reach, unacked := [] }).jlRebuild := rfl

theorem rd_up_jlShown (s : State) (k peer : Nat) : (s.jlShown k peer).rd (F.LNK_JLk_ST_UP k) = 1 := by
  rw [State.jlShown, rd_modLnk, rd_wr_beside, rd_wrB _ _ _ rfl rfl]
  rfl

theorem rd_peer_jlShown (s : State) (k : Nat) (peer : BitVec 16) : (s.jlShown k peer.toNat).rd (F.LNK_JLk_ST_PEER k) = peer.toNat := by
  rw [State.jlShown, rd_modLnk]
  exact rd_wr_plain (f := F.LNK_JLk_ST_PEER k) _ peer.isLt

/-- No frame sent yet. -/
def State.jlQuiet (s : State) : State := s.setLnk { s.lnk with jlTx := [] }

theorem jlFrame_down {s : State} {k : Fin 4} (h : s.rd (F.LNK_JLk_ST_UP k) = 0) (dst : BitVec 16) (bc : Bool) (mac : List Byte) :
    exec (.jlFrameReceived k dst bc mac) s = .next s.jlQuiet :=
  congrArg _ (if_pos (by rw [(on_eq_false_iff _ _).2 ((rd_modLnk s _ _).trans h)]; rfl))

/-- The acknowledgement ends the oldest frame. -/
theorem jlFrame_ack {s : State} {k : Fin 4} (h : s.rd (F.LNK_JLk_ST_UP k) ≠ 0) (dst : BitVec 16) (bc : Bool) :
    exec (.jlFrameReceived k dst bc []) s = .next (s.jlQuiet.modJl k fun j => { j with unacked := j.unacked.drop 1 }) :=
  congrArg _ ((if_neg (by rw [(on_iff _ _).2 ((rd_modLnk s _ _).symm ▸ h)]; decide)).trans (if_pos rfl))

theorem jlFrame_bad {s : State} {k : Fin 4} (h : s.rd (F.LNK_JLk_ST_UP k) ≠ 0) (hsel : s.rd F.LNK_FINJ_SEL ≠ 2 + k.val) {mac : List Byte}
    (hmac : mac ≠ []) (hbad : macGood mac = false) (dst : BitVec 16) (bc : Bool) :
    exec (.jlFrameReceived k dst bc mac) s = .next s.jlQuiet := by
  have hempty : ¬mac.isEmpty = true := fun he => hmac (List.isEmpty_iff.1 he)
  have htake : s.jlQuiet.jlTake k ⟨dst.toNat, bc, mac, 0⟩ = s.jlQuiet := if_pos (by rw [hbad]; rfl)
  exact congrArg _ ((if_neg (by rw [(on_iff _ _).2 ((rd_modLnk s _ _).symm ▸ h)]; decide)).trans ((if_neg hempty).trans
    ((if_neg (by rw [rd_modLnk]; exact hsel)).trans htake)))

/-- The oldest frame of a link sent again. -/
def State.jlResend (s : State) (k : Nat) (f : JlFrame) (fs : List JlFrame) : State :=
  (s.jlQuiet.modJl k fun j => { j with unacked := f :: fs, resends := j.resends + 1 }).modLnk fun l => { l with jlTx := [(k, some f)] }

theorem unacked_jlResend (s : State) (k : Nat) (f : JlFrame) (fs : List JlFrame) : ((s.jlResend k f fs).jlink k).unacked = f :: fs := by
  change ((s.jlQuiet.modJl k fun j => { j with unacked := f :: fs, resends := j.resends + 1 }).jlink k).unacked = _
  rw [jlink_modJl_self]

/-- A link shown down. -/
def State.jlLost (s : State) (k : Nat) : State := (s.wrB (F.LNK_JLk_ST_UP k) false).sticky (F.LNK_JLk_ST_DOWN k)

theorem rd_up_jlLost (s : State) (k : Fin 4) : (s.jlLost k).rd (F.LNK_JLk_ST_UP k) = 0 :=
  (rd_sticky_missedBy _ (by revert k; decide)).trans (rd_wrB s _ false rfl rfl)

theorem rd_down_jlLost (s : State) (k : Nat) : (s.jlLost k).rd (F.LNK_JLk_ST_DOWN k) = 1 :=
  rd_sticky_self _ _ rfl (by decide : 22 < 24) rfl

/-- The frames of a link that is down wait to be routed anew. -/
def State.jlReroute (s : State) (k : Nat) (fs : List JlFrame) : State :=
  ((s.modJl k fun j => { j with unacked := [], reach := [] }).modLnk fun l =>
    { l with waiting := l.waiting ++ (fs.filter fun f => !f.bcast).map fun f => { f with tries := 0 } }).jlRebuild

theorem rd_jlReroute (s : State) (k : Nat) (fs : List JlFrame) {g : Fld} (hg : g.addr ∉ [A.LNK_FICNT]) (hp : g.plain = true) :
    (s.jlReroute k fs).rd g = s.rd g :=
  ((FramesSent.refl _).jlRebuild.rd_eq hg hp).trans ((rd_modLnk _ _ g).trans (rd_modJl _ _ _ g))

theorem exec_jlAckTimeout (s : State) (k : Fin 4) : exec (.jlAckTimeout k) s = .next (match (s.jlink k).unacked with
    | [] => s.jlQuiet
    | f :: fs => if f.tries < 3 then s.jlResend k { f with tries := f.tries + 1 } fs else (s.jlQuiet.jlLost k).jlReroute k (f :: fs)) := rfl

theorem exec_jlRoundTrip (s : State) (k : Fin 4) (rtt here far : Nat) (thr : Bool) : exec (.jlRoundTrip k rtt here far thr) s = .next
    (if s.clk.source = 2 + k.val && s.on (F.LNK_JLk_ST_UP k) then
      (if thr then (s.modJl k fun j => { j with oneWay := rtt / 2 }).sticky (F.LNK_JLk_ST_LOOP k)
      else (s.modJl k fun j => { j with oneWay := rtt / 2 }).syncResult ((here : Int) - ((far + rtt / 2 : Nat) : Int)))
    else s) := rfl

/-! ## O53 -/

/-- Settles O53: each command by its equation; what the joining links send again keeps their registers and reach. -/
theorem ethernetTimeAndJoiningLinks : Obligations.EthernetTimeAndJoiningLinks := by
  unfold Obligations.EthernetTimeAndJoiningLinks
  refine ⟨fun s p up gb => ?eth, fun s p dom c n a b an => ?ptp, fun s k peer reach => ?up, fun s k dst bc mac => ?frame,
    fun s k rtt here far thr => ?roundTrip⟩
  case eth =>
    rw [exec_ethLinkChange]
    split
    case isTrue hlost =>
      obtain ⟨hwas, hnow⟩ : s.on (F.LNK_ETHp_STAT_LINK p) = true ∧ (up && gb) = false := by
        rwa [Bool.and_eq_true, Bool.not_eq_true'] at hlost
      refine ⟨_, rfl, (rd_link_sticky _ p).trans (rd_link_linkShown s p _), fun _ _ => rd_sticky_self _ _ rfl (by decide : 23 < 24) rfl,
        fun hkept => ?_, (regsBut_linkShown s p _).trans (regsBut_sticky _ _)⟩
      rcases hkept with h | h
      · exact absurd h ((on_iff s _).1 hwas)
      · exact absurd h (by rw [hnow]; decide)
    case isFalse hkept =>
      refine ⟨_, rfl, rd_link_linkShown s p _, fun hwas hnow => absurd ?_ hkept, fun _ => rd_down_linkShown s p _, regsBut_linkShown s p _⟩
      rw [(on_iff s _).2 hwas, hnow]
      rfl
  case ptp =>
    refine ⟨fun hother => ?other, fun hnot => ?otherPort, fun hsource => ?announce, fun k v j w hless => ?lower, fun k v j w hless => ?first,
      fun hsource hmaster => ?master, fun hsrc hlock hen hdom => ?answers, fun hnot => ?noAnswer, fun hnot => ?noSync,
      fun hsrc hlock hdue => ?sync⟩
    case other =>
      refine ⟨fun o => ?_, ?_, ?_⟩
      · rw [exec_ptpSync, if_neg (ptpFrom_eq_false hother)]
      · rw [exec_ptpFollowUp, if_neg (ptpFrom_eq_false hother)]
      · rw [exec_ptpDelayResp, if_neg (ptpFrom_eq_false hother)]
    case otherPort => rw [exec_ptpAnnounce, if_neg (by rw [hnot]; decide)]
    case announce =>
      rw [exec_ptpAnnounce, if_pos hsource]
      exact ⟨_, rfl, frame_setLnk s _, lk_put_self .., fun k hk => lk_put_ne _ _ _ _ _ hk⟩
    case lower => simp [PtpState.master, hless]
    case first => simp [PtpState.master, hless]
    case master =>
      have hfrom := (ptpFrom_iff s p dom.toNat c.toNat).2 ⟨hsource, hmaster⟩
      simp only [exec_ptpSync, exec_ptpFollowUp, exec_ptpDelayResp, if_pos hfrom]
      refine ⟨⟨_, rfl, rfl, frame_setLnk s _⟩, fun u hu => ⟨fun hdelay => ?_, fun d hdelay => ?_⟩, fun f hwait => ?_, fun hwait => ?_,
        fun q f hwait hq => ?_, ⟨_, rfl, frame_setLnk s _, rfl⟩⟩
      · rw [ptpResult_noDelay hdelay, hu]
        rfl
      · rw [ptpResult_delay hdelay, hu]
        rfl
      · rw [hwait]
        exact congrArg _ (if_pos rfl)
      · rw [hwait]
      · rw [hwait]
        exact congrArg _ (if_neg hq)
    case answers =>
      rw [exec_ptpDelayReq, if_pos (by rw [(grandmaster_iff s).2 ⟨hsrc, hlock⟩, (on_iff s _).2 hen, hdom]; simp)]
      exact ⟨_, rfl, rfl, frame_setLnk s _⟩
    case noAnswer =>
      rw [exec_ptpDelayReq, if_neg]
      · exact ⟨_, rfl, rfl, frame_setLnk s _⟩
      · rcases hnot with h | h <;> simp [State.grandmaster, h]
    case noSync =>
      rw [exec_ptpSyncSend, if_neg]
      · exact ⟨_, rfl, rfl, frame_setLnk s _⟩
      · rcases hnot with h | h <;> simp [State.grandmaster, h]
    case sync =>
      have hlong : 1000 ≤ (s.clk.frame - s.lnk.ptp.sentAt) * 2 ^ min 7 (s.rd F.LNK_PTP_SYNCI) :=
        Nat.le_trans (by omega) (Nat.le_mul_of_pos_right _ (Nat.two_pow_pos _))
      rw [exec_ptpSyncSend, if_pos (by rw [(grandmaster_iff s).2 ⟨hsrc, hlock⟩, decide_eq_true hlong]; rfl)]
      exact ⟨_, rfl, rfl, rfl, frame_setLnk s _, syncTx_spec s _ a⟩
  case up =>
    have hsent := (FramesSent.refl ((s.jlShown k peer.toNat).modJl k fun j => { j with reach := reach, unacked := [] })).jlRebuild
    refine ⟨_, exec_jlLinkUp s k peer reach, (hsent.rd_eq (jlAddr_notMem k k.isLt)).trans ?_,
      (hsent.rd_eq (jlAddr_notMem k k.isLt)).trans ?_, (hsent.reach k).trans ?_⟩
    · rw [rd_modJl, rd_up_jlShown]
    · rw [rd_modJl, rd_peer_jlShown]
    · rw [jlink_modJl_self]
  case frame =>
    refine ⟨fun hdown => jlFrame_down hdown dst bc mac, fun hup => ?ack, fun hup hsel hmac hbad => jlFrame_bad hup hsel hmac hbad dst bc,
      fun hnone => ?nothing, fun f fs hun htries => ?resend, fun f fs hun htries => ?drop⟩
    case ack =>
      exact ⟨_, jlFrame_ack hup dst bc, congrArg JLink.unacked (jlink_modJl_self s.jlQuiet k _), rfl,
        (frame_setLnk s _).trans (frame_setLnk _ _)⟩
    case nothing =>
      rw [exec_jlAckTimeout, hnone]
      rfl
    case resend =>
      simp only [exec_jlAckTimeout, hun, if_pos htries]
      exact ⟨_, rfl, unacked_jlResend s k _ fs, rfl, ((frame_setLnk s _).trans (frame_setLnk _ _)).trans (frame_setLnk _ _)⟩
    case drop =>
      simp only [exec_jlAckTimeout, hun, if_neg (Nat.not_lt.2 htries)]
      exact ⟨_, rfl, (rd_jlReroute _ _ _ (jlAddr_notMem k k.isLt) rfl).trans (rd_up_jlLost _ k),
        (rd_jlReroute _ _ _ (jlAddr_notMem k k.isLt) rfl).trans (rd_down_jlLost _ k)⟩
  case roundTrip =>
    refine ⟨fun hnot => ?_, fun hsrc hup => ⟨s.modJl k fun j => { j with oneWay := rtt / 2 }, ?_, frame_setLnk s _, ?_, ?_⟩⟩
    · rw [exec_jlRoundTrip, if_neg]
      rcases hnot with h | h
      · simp [h]
      · simp [(on_eq_false_iff s _).2 h]
    · rw [jlink_modJl_self]
    · rw [exec_jlRoundTrip, if_pos (by simp [hsrc, (on_iff s _).2 hup]), if_pos rfl]
    · rw [exec_jlRoundTrip, if_pos (by simp [hsrc, (on_iff s _).2 hup]), if_neg Bool.false_ne_true]

end Sys2Proof.Machine
end

