-- ==== Sys2Proof/Proofs/UpdateDeliveries.lean ====
section
/-!
PROOFS. Deliveries, verification, activation and confirmation of images (O55, its part on the update manager).
-/

namespace Sys2Proof.Machine

open Sys2Proof

set_option Elab.async false

/-! ## The rucksack's state and what erasing it keeps (R374) -/

theorem upd_setBank (s : State) (v : Nat) : (s.setBank v).upd = { s.upd with bank := v } := by
  rw [State.setBank, upd_wr]
  rfl

theorem rd_bank_setBank (s : State) {v : Nat} (hv : v < 8) : (s.setBank v).rd F.UPD_BANK_STATE = v :=
  rd_wr_plain (f := F.UPD_BANK_STATE) _ hv

theorem rd_setBank (s : State) (v : Nat) {g : Fld} (hg : F.UPD_BANK_STATE.besideOf g = true) : (s.setBank v).rd g = s.rd g :=
  (rd_wr_besideOf _ _ hg).trans (rd_modUpd _ _ _)

theorem lk_filter_key {α : Type} (d : Nat → α) (p : Nat → Bool) (m : List (Nat × α)) {x : Nat} (hx : p x = true) :
    lk d (m.filter fun r => p r.1) x = lk d m x := by
  induction m with
  | nil => rfl
  | cons e m ih =>
    by_cases hp : p e.1 = true
    · rw [List.filter_cons_of_pos (p := fun r : Nat × α => p r.1) hp]
      simp only [lk, ih]
    · have hne : x ≠ e.1 := fun he => hp (he ▸ hx)
      rw [List.filter_cons_of_neg (p := fun r : Nat × α => p r.1) hp, ih]
      simp only [lk, if_neg hne]

/-- The delivery bitmap cleared. -/
def State.dropBitmap (s : State) : State := s.setRegs (s.regs.filter fun r => !isBitmap r.1)

theorem word_dropBitmap (s : State) {a : Nat} (ha : isBitmap a = false) : s.dropBitmap.word a = s.word a :=
  lk_filter_key resetWord (fun x => !isBitmap x) s.regs (by rw [ha]; rfl)

theorem newMeasWords_range : ∀ a ∈ newMeasWords, A.KEY_NMEASj 0 ≤ a ∧ a < A.KEY_NMEASj 3 := by decide

/-- Is a field away from the new measurements and the bitmap? -/
def Fld.offRuck (g : Fld) : Bool :=
  decide (g.sh = 0) && (decide (g.addr + 4 * (g.hi / 32) < A.KEY_NMEASj 0) || decide (A.KEY_NMEASj 3 ≤ g.addr)) &&
    (decide (g.addr + 4 * (g.hi / 32) < A.UPD_BMAPw 0) || decide (A.UPD_BMAPw 2048 ≤ g.addr))

theorem Fld.offRuck_iff (g : Fld) : g.offRuck = true ↔ g.sh = 0 ∧
    (g.addr + 4 * (g.hi / 32) < A.KEY_NMEASj 0 ∨ A.KEY_NMEASj 3 ≤ g.addr) ∧
    (g.addr + 4 * (g.hi / 32) < A.UPD_BMAPw 0 ∨ A.UPD_BMAPw 2048 ≤ g.addr) := by
  simp [Fld.offRuck, and_assoc]

theorem rd_showNew (s : State) (m1 m2 m3 : Nat) {g : Fld} (hg : g.offRuck = true) : (s.showNew m1 m2 m3).rd g = s.rd g := by
  obtain ⟨hsh, hmeas, -⟩ := g.offRuck_iff.1 hg
  refine (regsBut_showNew s m1 m2 m3).2.rd_eq hsh fun i hi hmem => ?_
  obtain ⟨hlo, hhi⟩ := newMeasWords_range _ hmem
  omega

theorem rd_dropBitmap (s : State) {g : Fld} (hsh : g.sh = 0)
    (hg : g.addr + 4 * (g.hi / 32) < A.UPD_BMAPw 0 ∨ A.UPD_BMAPw 2048 ≤ g.addr) : s.dropBitmap.rd g = s.rd g := by
  refine rd_eq_of_words hsh fun i hi => word_dropBitmap s ?_
  rw [isBitmap, Bool.and_eq_false_iff, decide_eq_false_iff_not, decide_eq_false_iff_not]
  omega

theorem eraseRuck_eq (s : State) :
    s.eraseRuck = ((s.modUpd fun u => { u with flash := [], ruck := none }).showNew 0 0 0).dropBitmap := rfl

theorem rd_eraseRuck (s : State) {g : Fld} (hg : g.offRuck = true) : s.eraseRuck.rd g = s.rd g := by
  obtain ⟨hsh, -, hmap⟩ := g.offRuck_iff.1 hg
  rw [eraseRuck_eq, rd_dropBitmap _ hsh hmap, rd_showNew _ _ _ _ hg, rd_modUpd]

theorem upd_showNew (s : State) (m1 m2 m3 : Nat) : (s.showNew m1 m2 m3).upd = s.upd := by
  rw [State.showNew, upd_wr, upd_wr, upd_wr]

theorem upd_dropBitmap (s : State) : s.dropBitmap.upd = s.upd := rfl

theorem upd_eraseRuck (s : State) : s.eraseRuck.upd = { s.upd with flash := [], ruck := none } := by
  rw [eraseRuck_eq, upd_dropBitmap, upd_showNew]
  rfl

theorem rd_showNew_first (s : State) (m : BitVec 256) (m2 m3 : Nat) :
    (s.showNew m.toNat m2 m3).rd (F.KEY_NMEASj_M 0) = m.toNat :=
  (rd_wr_besideOf _ _ (by decide)).trans ((rd_wr_besideOf _ _ (by decide)).trans
    (rd_wr_toNat s (F.KEY_NMEASj_M 0) m ⟨by decide, .inl rfl⟩ (by decide)))

/-- No image to re-seal for: the new measurements read 0. -/
theorem rd_showNew_zero (s : State) {j : Nat} (hj : j < 3) : (s.showNew 0 0 0).rd (F.KEY_NMEASj_M j) = 0 := by
  have hzero : ∀ (t : State) (f : Fld), f.Ok → (t.wr f 0).rd f = 0 := fun t f hf => (rd_wr t f 0 hf).trans (Nat.zero_mod _)
  obtain rfl | rfl | rfl : j = 0 ∨ j = 1 ∨ j = 2 := by omega
  · exact (rd_wr_besideOf _ _ (by decide)).trans ((rd_wr_besideOf _ _ (by decide)).trans (hzero s _ ⟨by decide, .inl rfl⟩))
  · exact (rd_wr_besideOf _ _ (by decide)).trans (hzero _ _ ⟨by decide, .inl rfl⟩)
  · exact hzero _ _ ⟨by decide, .inl rfl⟩

theorem rd_meas_eraseRuck (s : State) {j : Nat} (hj : j < 3) : s.eraseRuck.rd (F.KEY_NMEASj_M j) = 0 := by
  have hlow : (F.KEY_NMEASj_M j).addr + 4 * ((F.KEY_NMEASj_M j).hi / 32) < A.UPD_BMAPw 0 := by
    simp only [F.KEY_NMEASj_M, A.KEY_NMEASj, A.UPD_BMAPw]
    omega
  rw [eraseRuck_eq, rd_dropBitmap _ rfl (.inl hlow), rd_showNew_zero _ hj]

/-! ## Opening a delivery (R374) -/

/-- May no delivery be opened now? -/
def State.closed (s : State) : Bool :=
  s.rd F.UPD_BANK_STATE = 2 || s.rd F.UPD_BANK_STATE = 4 || s.rd F.UPD_BANK_STATE = 5 || s.on F.UPD_STAT_RAIN || s.on F.KEY_RESEAL_DONE

theorem closed_iff (s : State) : s.closed = true ↔ s.rd F.UPD_BANK_STATE = 2 ∨ s.rd F.UPD_BANK_STATE = 4 ∨ s.rd F.UPD_BANK_STATE = 5 ∨
    s.rd F.UPD_STAT_RAIN ≠ 0 ∨ s.rd F.KEY_RESEAL_DONE ≠ 0 := by
  simp [State.closed, on_iff, or_assoc]

/-- The rucksack emptied for the delivery that UPD_DLV describes. -/
def State.ruckEmptied (s : State) : State :=
  s.eraseRuck.modUpd fun u => { u with tag := s.rd F.UPD_DLV_TAG, nblk := s.rd F.UPD_DLV_LAST + 1 }

/-- A delivery opened, all its blocks awaited. -/
def State.deliveryOpen (s : State) : State := (s.ruckEmptied.setBank 1).wr F.UPD_STAT_MISSING (s.rd F.UPD_DLV_LAST + 1)

theorem updOpen_closed {s : State} (h : s.closed = true) : s.updOpen = s.sticky F.UPD_STAT_REFUSED := if_pos h

theorem updOpen_open {s : State} (h : ¬s.closed = true) : s.updOpen = s.deliveryOpen := if_neg h

theorem upd_deliveryOpen (s : State) : s.deliveryOpen.upd = { s.upd with
    flash := [], ruck := none, tag := s.rd F.UPD_DLV_TAG, nblk := s.rd F.UPD_DLV_LAST + 1, bank := 1 } := by
  rw [State.deliveryOpen, upd_wr, upd_setBank]
  change { s.eraseRuck.upd with tag := s.rd F.UPD_DLV_TAG, nblk := s.rd F.UPD_DLV_LAST + 1, bank := 1 } = _
  rw [upd_eraseRuck]

theorem rd_bank_deliveryOpen (s : State) : s.deliveryOpen.rd F.UPD_BANK_STATE = 1 :=
  (rd_wr_besideOf _ _ (by decide)).trans (rd_bank_setBank _ (by decide))

theorem rd_missing_deliveryOpen (s : State) : s.deliveryOpen.rd F.UPD_STAT_MISSING = s.rd F.UPD_DLV_LAST + 1 := by
  have hlast : s.rd F.UPD_DLV_LAST < 2 ^ 16 := rd_lt s F.UPD_DLV_LAST
  exact rd_wr_plain (f := F.UPD_STAT_MISSING) _ (show _ < 2 ^ 17 by omega)

theorem rd_meas_deliveryOpen (s : State) {j : Nat} (hj : j < 3) : s.deliveryOpen.rd (F.KEY_NMEASj_M j) = 0 := by
  have hbeside : ∀ j < 3, F.UPD_STAT_MISSING.besideOf (F.KEY_NMEASj_M j) = true ∧ F.UPD_BANK_STATE.besideOf (F.KEY_NMEASj_M j) = true := by
    decide
  obtain ⟨hmissing, hbank⟩ := hbeside j hj
  rw [State.deliveryOpen, rd_wr_besideOf _ _ hmissing, rd_setBank _ _ hbank, State.ruckEmptied, rd_modUpd, rd_meas_eraseRuck s hj]

/-! ## Blocks (R375, R376) -/

/-- Is a delivery open for a message's tag? -/
def State.takes (s : State) (m : List Byte) : Bool :=
  (s.rd F.UPD_BANK_STATE = 1 || s.rd F.UPD_BANK_STATE = 2) && leAt m 0 2 = s.upd.tag

theorem takes_iff (s : State) (m : List Byte) :
    s.takes m = true ↔ (s.rd F.UPD_BANK_STATE = 1 ∨ s.rd F.UPD_BANK_STATE = 2) ∧ leAt m 0 2 = s.upd.tag := by
  simp [State.takes]

/-- Was block `i` received before? -/
def State.received (s : State) (i : Nat) : Bool := s.rdBit (F.UPD_BMAPw_RCVD (i / 32)) (i % 32)

theorem exec_updateBlock (s : State) (m : List Byte) (rb : Bool) : exec (.updateBlock m rb) s = .next (s.updBlock m rb) := rfl

theorem updBlock_bad {m : List Byte} (h : m.length ≠ 520 ∨ crc32 (m.take 516) ≠ leAt m 516 4) (s : State) (rb : Bool) :
    s.updBlock m rb = s.count F.UPD_CNT_CRCERR 1 := if_pos (by simpa using h)

/-- A whole block, by whether it is of the delivery, in it, and new. -/
theorem updBlock_good {m : List Byte} (hlen : m.length = 520) (hcrc : crc32 (m.take 516) = leAt m 516 4) (s : State) (rb : Bool) :
    s.updBlock m rb = if s.takes m then
      (if s.upd.nblk ≤ leAt m 2 2 then s.count F.UPD_CNT_CRCERR 1
      else if s.received (leAt m 2 2) then s.count F.UPD_CNT_DUP 1
      else if rb then s.takeBlock (leAt m 2 2) (slice m 4 512) else s.raiseOnce 0xA3 1 none)
    else s := by
  refine (if_neg (by simp [hlen, hcrc])).trans ?_
  by_cases htakes : s.takes m = true
  · obtain ⟨hbank, htag⟩ := (takes_iff s m).1 htakes
    rw [if_pos htakes]
    exact if_neg (by simpa [htag, or_iff_not_imp_left] using hbank)
  · rw [if_neg htakes]
    refine if_pos ?_
    have hnot := mt (takes_iff s m).2 htakes
    by_cases htag : leAt m 0 2 = s.upd.tag
    · have hbank : ¬(s.rd F.UPD_BANK_STATE = 1 ∨ s.rd F.UPD_BANK_STATE = 2) := fun h => hnot ⟨h, htag⟩
      simpa [htag, not_or] using hbank
    · simp [htag]

/-- A block stored and marked received. -/
def State.blockStored (s : State) (i : Nat) (data : List Byte) : State :=
  let s := s.modUpd fun u => { u with flash := ruckWrite u.flash (512 * i) data }
  (s.wrBit (F.UPD_BMAPw_RCVD (i / 32)) (i % 32) true).wr F.UPD_STAT_MISSING (s.rd F.UPD_STAT_MISSING - 1)

theorem takeBlock_eq (s : State) (i : Nat) (data : List Byte) : s.takeBlock i data =
    if (s.blockStored i data).rd F.UPD_STAT_MISSING = 0 then (s.blockStored i data).setBank 2 else s.blockStored i data := rfl

theorem bitmapAddr_gt (w : Nat) : A.UPD_BANK < (F.UPD_BMAPw_RCVD w).addr ∧ A.UPD_STAT < (F.UPD_BMAPw_RCVD w).addr := by
  simp only [F.UPD_BMAPw_RCVD, A.UPD_BMAPw, A.UPD_BANK, A.UPD_STAT]
  omega

theorem rd_missing_blockStored (s : State) (i : Nat) (data : List Byte) :
    (s.blockStored i data).rd F.UPD_STAT_MISSING = s.rd F.UPD_STAT_MISSING - 1 := by
  have hlt : s.rd F.UPD_STAT_MISSING < 2 ^ 17 := rd_lt s F.UPD_STAT_MISSING
  unfold State.blockStored
  rw [rd_wr_plain (f := F.UPD_STAT_MISSING) _ (show _ < 2 ^ 17 by rw [rd_modUpd]; omega), rd_modUpd]

theorem received_blockStored (s : State) (i : Nat) (data : List Byte) : (s.blockStored i data).received i = true := by
  unfold State.blockStored State.received State.rdBit
  rw [rd_wr_elsewhere _ _ (bitmapAddr_gt _).2.ne']
  exact rdBit_wrBit_self _ true (Nat.mod_lt i (by decide)) ⟨Nat.zero_le _, .inl rfl⟩

theorem received_takeBlock (s : State) (i : Nat) (data : List Byte) : (s.takeBlock i data).received i = true := by
  rw [takeBlock_eq]
  split
  · unfold State.received State.rdBit State.setBank
    rw [rd_wr_elsewhere _ _ (bitmapAddr_gt _).1.ne', rd_modUpd]
    exact received_blockStored s i data
  · exact received_blockStored s i data

theorem rd_missing_takeBlock (s : State) (i : Nat) (data : List Byte) :
    (s.takeBlock i data).rd F.UPD_STAT_MISSING = s.rd F.UPD_STAT_MISSING - 1 := by
  rw [takeBlock_eq]
  split
  · rw [rd_setBank _ _ (by decide), rd_missing_blockStored]
  · rw [rd_missing_blockStored]

/-- The last block missing ends the delivery. -/
theorem rd_bank_takeBlock {s : State} (h : s.rd F.UPD_STAT_MISSING ≤ 1) (i : Nat) (data : List Byte) :
    (s.takeBlock i data).rd F.UPD_BANK_STATE = 2 := by
  rw [takeBlock_eq, if_pos (by rw [rd_missing_blockStored]; omega)]
  exact rd_bank_setBank _ (by decide)

/-! ## Verification (R377) -/

/-- The first check failed, shown. -/
def State.checked (s : State) : State := s.wr F.UPD_STAT_VCAUSE s.verifyStep

/-- A verified image installed. -/
def State.installed (s : State) : State := (s.modUpd fun u => { u with ruck := some s.ruckImage }).showRuck.setBank 3

/-- A bad image forgotten. -/
def State.rejected (s : State) : State := ((s.sticky F.UPD_STAT_VFAIL).raiseOnce 0xA1 1 none).eraseRuck.setBank 0

theorem exec_verifyDone (s : State) : exec .verifyDone s = .next (if s.rd F.UPD_BANK_STATE = 2 then
    (if s.verifyStep = 0 then s.checked.installed else s.checked.rejected) else s) := rfl

theorem imageCheck_lt (get : Nat → Nat → List Byte) (key : P384Key) (blocks : Option Nat) (minSvn : Nat) :
    imageCheck get key blocks minSvn < 8 := by
  unfold imageCheck
  extract_lets h len fits
  iterate 5 refine ite_lt (by decide) ?_
  decide
where
  ite_lt {c : Prop} [Decidable c] {a b n : Nat} (ha : a < n) (hb : b < n) : (if c then a else b) < n := by
    split <;> assumption

theorem verifyStep_lt (s : State) : s.verifyStep < 8 := by
  unfold State.verifyStep
  exact imageCheck_lt _ _ _ _

theorem rd_vcause_checked (s : State) : s.checked.rd F.UPD_STAT_VCAUSE = s.verifyStep :=
  rd_wr_plain (f := F.UPD_STAT_VCAUSE) s (verifyStep_lt s)

/-- The cause shown is no part of what a raise is judged by. -/
theorem raised_of_checked {s t : State} (h : Raised s.checked t 0xA1 1 none) : Raised s t 0xA1 1 none := by
  refine h.imp_left fun hnow => ?_
  rw [State.raisedNow, State.checked, flt_wr, clk_wr] at hnow
  exact hnow

theorem upd_checked (s : State) : s.checked.upd = s.upd := upd_wr _ _ _

theorem ruckImage_checked (s : State) : s.checked.ruckImage = s.ruckImage := by
  have hbytes : s.checked.ruckBytes = s.ruckBytes := by
    funext o k
    rw [State.ruckBytes, upd_checked, State.ruckBytes]
  rw [State.ruckImage, hbytes, State.ruckImage]

theorem showRuck_some {s : State} {i : BankImage} (h : s.upd.ruck = some i) : s.showRuck = s.showNew i.m1.toNat i.m2.toNat i.m3.toNat := by
  rw [State.showRuck, h]

theorem installed_eq (s : State) : s.installed =
    ((s.modUpd fun u => { u with ruck := some s.ruckImage }).showNew s.ruckImage.m1.toNat s.ruckImage.m2.toNat s.ruckImage.m3.toNat).setBank 3 := by
  rw [State.installed, showRuck_some (i := s.ruckImage) rfl]

theorem installed_spec (s : State) : s.installed.rd F.UPD_BANK_STATE = 3 ∧ s.installed.upd.ruck = some s.ruckImage ∧
    s.installed.rd F.UPD_STAT_VCAUSE = s.rd F.UPD_STAT_VCAUSE ∧ s.installed.rd (F.KEY_NMEASj_M 0) = s.ruckImage.m1.toNat := by
  rw [installed_eq]
  refine ⟨rd_bank_setBank _ (by decide), ?_, ?_, ?_⟩
  · rw [upd_setBank]
    change (State.upd _).ruck = _
    rw [upd_showNew]
    rfl
  · rw [rd_setBank _ _ (by decide), rd_showNew _ _ _ _ (by decide), rd_modUpd]
  · rw [rd_setBank _ _ (by decide), rd_showNew_first]

theorem rd_rejected (s : State) {g : Fld} (hbank : F.UPD_BANK_STATE.besideOf g = true) (hoff : g.offRuck = true) :
    s.rejected.rd g = ((s.sticky F.UPD_STAT_VFAIL).raiseOnce 0xA1 1 none).rd g := by
  rw [State.rejected, rd_setBank _ _ hbank, rd_eraseRuck _ hoff]

theorem rejected_spec (s : State) : s.rejected.rd F.UPD_BANK_STATE = 0 ∧ s.rejected.upd.ruck = none ∧ s.rejected.upd.flash = [] ∧
    s.rejected.rd F.UPD_STAT_VFAIL = 1 ∧ s.rejected.rd F.UPD_STAT_VCAUSE = s.rd F.UPD_STAT_VCAUSE ∧ Raised s s.rejected 0xA1 1 none := by
  have hkeep := keepsHigh_raiseOnce (s.sticky F.UPD_STAT_VFAIL) (src := 0xA1) 1 none
  refine ⟨rd_bank_setBank _ (by decide), ?_, ?_, ?_, ?_, ?_⟩
  · rw [State.rejected, upd_setBank, upd_eraseRuck]
  · rw [State.rejected, upd_setBank, upd_eraseRuck]
  · rw [rd_rejected _ (by decide) (by decide), hkeep.rd_eq]
    exact rd_sticky_self s F.UPD_STAT_VFAIL rfl (by decide) rfl
  · rw [rd_rejected _ (by decide) (by decide), hkeep.rd_eq, rd_sticky_missedBy _ (by decide)]
  · exact (raised_raiseOnce (s.sticky F.UPD_STAT_VFAIL) 0xA1 1 rfl).imp_right (rd_rejected s (by decide) (by decide)).trans

/-! ## Activation and the rain check (R378, R379) -/

theorem exec_updateAct (s : State) : exec .updateAct s = .next
    (if s.rd F.UPD_BANK_STATE = 3 && s.svnGood then s.setUpd { s.upd with actReq := true } else s) := rfl

theorem svnGood_some {s : State} {i : BankImage} (h : s.upd.ruck = some i) :
    s.svnGood = decide (s.rd F.UPD_VER_MINSVN ≤ i.svn.toNat) := by
  rw [State.svnGood, h]

theorem svnGood_none {s : State} (h : s.upd.ruck = none) : s.svnGood = false := by
  rw [State.svnGood, h]

theorem exec_updateCancel (s : State) : exec .updateCancel s = .next
    (if s.on F.UPD_STAT_RAIN then (s.wrB F.UPD_STAT_RAIN false).sealAbort else s) := rfl

theorem keepsHigh_abortRaise (s : State) : KeepsHigh (s.sticky F.KEY_RESEAL_ABORTED) ((s.sticky F.KEY_RESEAL_ABORTED).raiseOnce 0x93 0 none) :=
  keepsHigh_raiseOnce _ 0 none

theorem rd_rain_sealAbort (s : State) : s.sealAbort.rd F.UPD_STAT_RAIN = s.rd F.UPD_STAT_RAIN := by
  unfold State.sealAbort
  split
  · exact (keepsHigh_abortRaise _).rd_eq.trans ((rd_sticky_missedBy _ (by decide)).trans ((rd_wr_besideOf _ _ (by decide)).trans
      (rd_wr_besideOf _ _ (by decide))))
  · rfl

/-- Have the refusal conditions been away for IDLEW seconds? -/
def State.idlePast (s : State) : Bool :=
  match s.upd.idleSince with | some f => f + 1000 * s.rd F.UPD_CFG_IDLEW ≤ s.clk.frame | none => false

theorem exec_idleWindow (s : State) : exec .idleWindow s = .next (if s.on F.UPD_STAT_RAIN && s.idlePast then s.actTest else s) := rfl

theorem refusals_lt (s : State) : s.refusals < 64 := by
  have hbit : ∀ b, b2n b ≤ 1 := by decide
  unfold State.refusals
  extract_lets c0 c2 c4
  have h0 := hbit c0
  have h1 := hbit (!s.openSessions.isEmpty)
  have h2 := hbit c2
  have h3 := hbit (s.on F.UPD_LOCK_OWNER)
  have h4 := hbit c4
  have h5 := hbit (!s.on F.KEY_RESEAL_DONE)
  omega

/-- The conditions of a test shown. -/
def State.tested (s : State) : State := s.wr F.UPD_REFUSE_COND s.refusals

/-- The activation accepted: a fence and the final save are under way. -/
def State.accepted (s : State) : State :=
  (((s.wrB F.UPD_STAT_RAIN false).setBank 4).fenceGo).saveStart true

theorem actTest_eq (s : State) : s.actTest = if s.refusals = 0 then
    s.tested.accepted.modUpd fun u => { u with actAt := some (s.tested.clk.frame + 2) } else s.tested.wrB F.UPD_STAT_RAIN true := rfl

theorem rd_cond_tested (s : State) : s.tested.rd F.UPD_REFUSE_COND = s.refusals := rd_wr_plain (f := F.UPD_REFUSE_COND) s (refusals_lt s)

/-- A fence and a save change no register from the key store's block up. -/
theorem keepsHigh_fenceGo (s : State) : KeepsHigh s s.fenceGo := by
  unfold State.fenceGo
  split
  · exact (KeepsHigh.refl s).wr (f := F.TCK_FENCE_MERGED) _
  · exact (KeepsHigh.refl s).within

theorem keepsHigh_saveStart (s : State) (final : Bool) : KeepsHigh s (s.saveStart final) := by
  unfold State.saveStart
  split
  · exact .refl s
  · exact (KeepsHigh.refl s).within

theorem rd_accepted (s : State) {g : Fld} (hg : (decide (blockBase 11 ≤ g.addr) && decide (g.sh = 0)) = true) :
    s.accepted.rd g = ((s.wrB F.UPD_STAT_RAIN false).setBank 4).rd g := by
  simp only [Bool.and_eq_true, decide_eq_true_eq] at hg
  obtain ⟨hhigh, hsh⟩ := hg
  exact ((keepsHigh_fenceGo _).trans (keepsHigh_saveStart _ true)).rd_eq hhigh hsh

theorem accepted_spec (s : State) : s.accepted.rd F.UPD_BANK_STATE = 4 ∧ s.accepted.rd F.UPD_STAT_RAIN = 0 ∧
    s.accepted.rd F.UPD_REFUSE_COND = s.rd F.UPD_REFUSE_COND := by
  refine ⟨?_, ?_, ?_⟩
  · rw [rd_accepted _ (by decide), rd_bank_setBank _ (by decide)]
  · rw [rd_accepted _ (by decide), rd_setBank _ _ (by decide)]
    exact rd_wrB s F.UPD_STAT_RAIN false rfl rfl
  · rw [rd_accepted _ (by decide), rd_setBank _ _ (by decide)]
    exact rd_wr_besideOf s _ (by decide)

theorem actTest_accepts {s : State} (h : s.refusals = 0) : s.actTest.rd F.UPD_REFUSE_COND = s.refusals ∧
    s.actTest.rd F.UPD_BANK_STATE = 4 ∧ s.actTest.rd F.UPD_STAT_RAIN = 0 ∧ s.actTest.upd.actAt = some (s.clk.frame + 2) := by
  obtain ⟨hbank, hrain, hcond⟩ := accepted_spec s.tested
  rw [actTest_eq, if_pos h, rd_modUpd, rd_modUpd, rd_modUpd]
  refine ⟨hcond.trans (rd_cond_tested s), hbank, hrain, ?_⟩
  change some (s.tested.clk.frame + 2) = _
  rw [State.tested, clk_wr]

theorem actTest_refuses {s : State} (h : s.refusals ≠ 0) :
    s.actTest.rd F.UPD_REFUSE_COND = s.refusals ∧ s.actTest.rd F.UPD_STAT_RAIN = 1 := by
  rw [actTest_eq, if_neg h]
  exact ⟨(rd_wr_besideOf _ _ (by decide)).trans (rd_cond_tested s), rd_wrB _ F.UPD_STAT_RAIN true rfl rfl⟩

/-! ## Confirmation (R380, R381) -/

theorem mayConfirm_iff (s : State) : s.mayConfirm = true ↔ s.upd.trial = true ∧ s.rd F.SYS_STAGE_STAGE = 8 ∧
    s.clk.frame ≤ s.boot.stageFrame + 1000 * s.rd F.UPD_CFG_CONFWIN ∧ s.causeIs 0x08 = false ∧ s.safetySticky = false := by
  simp [State.mayConfirm, and_assoc]

theorem exec_updateConfirm (s : State) :
    exec .updateConfirm s = .next (if s.mayConfirm then s.setUpd { s.upd with confReq := true } else s) := rfl

/-- A request taken from the record. -/
def State.confTaken (s : State) : State := s.setUpd { s.upd with confReq := false }

/-- The security version of the running image becomes the lowest one accepted. -/
def State.svnRaised (s : State) : State :=
  (s.sealConfirm.wr F.UPD_VER_MINSVN (match s.upd.run with | some i => i.svn.toNat | none => s.rd F.UPD_VER_MINSVN)).wr F.UPD_BANK_TRIES 0

/-- The trial ends well. -/
def State.trialEnded (s : State) : State := (s.svnRaised.showRuck.modUpd fun u => { u with trial := false }).setBank 3

theorem confirmEdge_none {s : State} (h : s.upd.confReq = false) : s.confirmEdge = s := if_neg (by rw [h]; decide)

theorem mayConfirm_confTaken (s : State) : s.confTaken.mayConfirm = s.mayConfirm := by
  unfold State.mayConfirm State.safetySticky State.on
  simp only [State.confTaken, rd_setUpd]
  rfl

theorem confirmEdge_some {s : State} (h : s.upd.confReq = true) :
    s.confirmEdge = if s.mayConfirm then s.confTaken.trialEnded else s.confTaken := by
  rw [← mayConfirm_confTaken]
  exact if_pos h

theorem upd_svnRaised (s : State) : s.svnRaised.upd = s.upd := by
  have hseal : s.sealConfirm.upd = s.upd := (Acts.sealConfirm (ps := [.regs]) (.refl _ s)).1 .upd (by decide)
  rw [State.svnRaised, upd_wr, upd_wr, hseal]

theorem upd_showRuck (s : State) : s.showRuck.upd = s.upd := (regsBut_showRuck s).1 .upd (by decide)

theorem upd_trialEnded (s : State) : s.trialEnded.upd = { s.upd with trial := false, bank := 3 } := by
  rw [State.trialEnded, upd_setBank]
  change { s.svnRaised.showRuck.upd with trial := false, bank := 3 } = _
  rw [upd_showRuck, upd_svnRaised]

theorem rd_showRuck (s : State) {g : Fld} (hg : g.offRuck = true) : s.showRuck.rd g = s.rd g := by
  unfold State.showRuck
  split
  · exact rd_showNew s _ _ _ hg
  · rfl

theorem trialEnded_spec (s : State) : s.trialEnded.rd F.UPD_BANK_STATE = 3 ∧ s.trialEnded.rd F.UPD_BANK_TRIES = 0 ∧
    ∀ i, s.upd.run = some i → s.trialEnded.rd F.UPD_VER_MINSVN = i.svn.toNat := by
  refine ⟨rd_bank_setBank _ (by decide), ?_, fun i hi => ?_⟩
  · rw [State.trialEnded, rd_setBank _ _ (by decide), rd_modUpd, rd_showRuck _ (by decide)]
    exact rd_wr_plain (f := F.UPD_BANK_TRIES) _ (by decide)
  · rw [State.trialEnded, rd_setBank _ _ (by decide), rd_modUpd, rd_showRuck _ (by decide), State.svnRaised,
      rd_wr_besideOf _ _ (by decide), hi]
    exact rd_wr_toNat _ F.UPD_VER_MINSVN i.svn ⟨by decide, .inl rfl⟩ (by decide)

/-- Is the time to confirm over in a trial? -/
def State.windowPast (s : State) : Bool :=
  s.upd.trial && s.rd F.SYS_STAGE_STAGE = 8 && s.boot.stageFrame + 1000 * s.rd F.UPD_CFG_CONFWIN ≤ s.clk.frame

theorem windowPast_iff (s : State) : s.windowPast = true ↔ s.upd.trial = true ∧ s.rd F.SYS_STAGE_STAGE = 8 ∧
    s.boot.stageFrame + 1000 * s.rd F.UPD_CFG_CONFWIN ≤ s.clk.frame := by
  simp [State.windowPast, and_assoc]

theorem exec_confirmWindowExpiry (s : State) : exec .confirmWindowExpiry s = .next (if s.windowPast then s.rollback else s) := rfl

end Sys2Proof.Machine
end

