-- ==== Sys2Proof/Proofs/UpdatesAndItineraries.lean ====
section
/-!
PROOFS. Starting, aborting and serving DMA channels; O55 settled with what `UpdateDeliveries` says of the update manager.
-/

namespace Sys2Proof.Machine

open Sys2Proof

set_option Elab.async false

/-! ## A channel's record and its summary bits (R396) -/

theorem dmaChan_modDma_self (s : State) (n : Nat) (f : DmaChan → DmaChan) : (s.modDma n f).dmaChan n = f (s.dmaChan n) :=
  lk_put_self _ _ _ _

theorem dmaChan_modDma_ne (s : State) {n m : Nat} (f : DmaChan → DmaChan) (h : m ≠ n) : (s.modDma n f).dmaChan m = s.dmaChan m :=
  lk_put_ne _ _ _ _ _ h

theorem dmaChan_of_dma {s t : State} (h : t.dma = s.dma) (n : Nat) : t.dmaChan n = s.dmaChan n := by
  rw [State.dmaChan, State.dmaChan, h]

/-- The words of a channel that the engine writes. -/
def chanWords (n : Nat) : List Nat := [A.DMA_CHn_CNT n, A.DMA_CHn_RES n, A.DMA_CHn_STAT n]

theorem cnt_mem_chanWords {n : Nat} : A.DMA_CHn_CNT n ∈ chanWords n := .head _

theorem res_mem_chanWords {n : Nat} : A.DMA_CHn_RES n ∈ chanWords n := .tail _ (.head _)

theorem stat_mem_chanWords {n : Nat} : A.DMA_CHn_STAT n ∈ chanWords n := .tail _ (.tail _ (.head _))

theorem chanWords_away {n a : Nat} (h : a ∈ chanWords n) : a ∉ [A.DMA_IRQSUM, A.DMA_ACTIVE] := by
  simp only [chanWords, A.DMA_CHn_CNT, A.DMA_CHn_RES, A.DMA_CHn_STAT, A.DMA_IRQSUM, A.DMA_ACTIVE, List.mem_cons, List.not_mem_nil,
    or_false] at h ⊢
  omega

/-- The registers of two channels share no word. -/
theorem stat_notMem_chanWords {n m : Nat} (h : m ≠ n) : A.DMA_CHn_STAT m ∉ chanWords n := by
  simp only [chanWords, A.DMA_CHn_STAT, A.DMA_CHn_CNT, A.DMA_CHn_RES, List.mem_cons, List.not_mem_nil, or_false]
  omega

theorem regsBut_showDma (s : State) (n : Nat) : RegsBut [A.DMA_IRQSUM, A.DMA_ACTIVE] s (s.showDma n) :=
  ((regsBut_wr_plain s (f := F.DMA_IRQSUM_CH) _).mono (by simp [F.DMA_IRQSUM_CH])).trans
    ((regsBut_wr_plain _ (f := F.DMA_ACTIVE_CH) _).mono (by simp [F.DMA_ACTIVE_CH]))

theorem dmaState_showDma (s : State) (n m : Nat) : (s.showDma n).dmaState m = s.dmaState m :=
  (regsBut_showDma s n).2.rd_plain (g := F.DMA_CHn_STAT_STATE m) (chanWords_away stat_mem_chanWords)

theorem dma_showDma (s : State) (n : Nat) : (s.showDma n).dma = s.dma := (regsBut_showDma s n).1 .dma (by decide)

theorem active_showDma (s : State) (n : Fin 32) : (s.showDma n).rdBit F.DMA_ACTIVE_CH n = decide (s.dmaState n ≠ 0) :=
  rdBit_wrBit_self _ _ n.isLt ⟨by decide, .inl rfl⟩

/-! ## START (R393) -/

/-- The configuration a START takes into the channel's record. -/
def State.chanTaken (s : State) (n : Nat) : State := s.modDma n fun c => {
  irq := s.on (F.DMA_CHn_CFG_IRQEN n), wb := s.on (F.DMA_CHn_CFG_WBEN n), level := s.rd (F.DMA_CHn_CFG_LEVEL n),
  legAddr := s.rd (F.DMA_CHn_ITIN_ADDR n), irqs := c.irqs }

/-- A channel's registers as its first leg is awaited. -/
def State.legAwaited (s : State) (n : Nat) : State :=
  ((((s.wr (F.DMA_CHn_CNT_BYTES n) 0).wr (F.DMA_CHn_RES_BYTES n) 0).wr (F.DMA_CHn_STAT_STATE n) 1).wr
    (F.DMA_CHn_STAT_LEG n) 0).wr (F.DMA_CHn_STAT_ERR n) 0

theorem dmaStart_busy {s : State} {n : Nat} (h : s.dmaState n ≠ 0) : s.dmaStart n = s := if_pos h

theorem dmaStart_idle {s : State} {n : Nat} (h : s.dmaState n = 0) : s.dmaStart n = ((s.chanTaken n).legAwaited n).showDma n :=
  if_neg (not_not.2 h)

theorem regsBut_legAwaited (s : State) (n : Nat) : RegsBut (chanWords n) s (s.legAwaited n) := by
  have hwr (t : State) (f : Fld) (v : Nat) (hf : f.plain = true) (ha : f.addr ∈ chanWords n) : RegsBut (chanWords n) t (t.wr f v) :=
    (regsBut_wr_plain t v hf).mono (by simpa using ha)
  exact ((((hwr s _ 0 rfl cnt_mem_chanWords).trans (hwr _ (F.DMA_CHn_RES_BYTES n) 0 rfl res_mem_chanWords)).trans
    (hwr _ (F.DMA_CHn_STAT_STATE n) 1 rfl stat_mem_chanWords)).trans (hwr _ (F.DMA_CHn_STAT_LEG n) 0 rfl stat_mem_chanWords)).trans
    (hwr _ (F.DMA_CHn_STAT_ERR n) 0 rfl stat_mem_chanWords)

theorem dmaState_legAwaited_self (s : State) (n : Nat) : (s.legAwaited n).dmaState n = 1 :=
  (rd_wr_beside _ _).trans ((rd_wr_beside _ _).trans (rd_wr_plain (f := F.DMA_CHn_STAT_STATE n) _ (by decide : 1 < 2 ^ 2)))

theorem dmaState_legAwaited_ne (s : State) {n m : Nat} (h : m ≠ n) : (s.legAwaited n).dmaState m = s.dmaState m :=
  (regsBut_legAwaited s n).2.rd_plain (g := F.DMA_CHn_STAT_STATE m) (stat_notMem_chanWords h)

/-- Nothing moved, nothing left, no leg begun and no error. -/
structure ChanZero (t : State) (n : Nat) : Prop where
  count : t.rd (F.DMA_CHn_CNT_BYTES n) = 0
  residue : t.rd (F.DMA_CHn_RES_BYTES n) = 0
  leg : t.rd (F.DMA_CHn_STAT_LEG n) = 0
  err : t.rd (F.DMA_CHn_STAT_ERR n) = 0

theorem chanZero_legAwaited (s : State) (n : Nat) : ChanZero (s.legAwaited n) n where
  count := (rd_wr_elsewhere _ _ laneAddr_ne).trans ((rd_wr_elsewhere _ _ laneAddr_ne).trans ((rd_wr_elsewhere _ _ laneAddr_ne).trans
    ((rd_wr_elsewhere _ _ laneAddr_ne).trans (rd_wr_plain (f := F.DMA_CHn_CNT_BYTES n) s (Nat.two_pow_pos _)))))
  residue := (rd_wr_elsewhere _ _ laneAddr_ne).trans ((rd_wr_elsewhere _ _ laneAddr_ne).trans ((rd_wr_elsewhere _ _ laneAddr_ne).trans
    (rd_wr_plain (f := F.DMA_CHn_RES_BYTES n) _ (Nat.two_pow_pos _))))
  leg := (rd_wr_beside _ _).trans (rd_wr_plain (f := F.DMA_CHn_STAT_LEG n) _ (Nat.two_pow_pos _))
  err := rd_wr_plain (f := F.DMA_CHn_STAT_ERR n) _ (Nat.two_pow_pos _)

theorem ChanZero.showDma {s : State} {n : Nat} (h : ChanZero s n) : ChanZero (s.showDma n) n := by
  have hkeep (g : Fld) (hg : g.plain = true) (haddr : g.addr ∈ chanWords n) : (s.showDma n).rd g = s.rd g :=
    (regsBut_showDma s n).2.rd_plain (chanWords_away haddr) hg
  exact ⟨(hkeep _ rfl cnt_mem_chanWords).trans h.count, (hkeep _ rfl res_mem_chanWords).trans h.residue,
    (hkeep _ rfl stat_mem_chanWords).trans h.leg, (hkeep _ rfl stat_mem_chanWords).trans h.err⟩

theorem dma_dmaStart {s : State} {n : Nat} (h : s.dmaState n = 0) : (s.dmaStart n).dma = (s.chanTaken n).dma := by
  rw [dmaStart_idle h, dma_showDma]
  exact (regsBut_legAwaited _ n).1 .dma (by decide)

/-- What a START shows of its channel. -/
theorem started_spec {s : State} {n : Fin 32} (h : s.dmaState n = 0) : (s.dmaStart n).dmaState n = 1 ∧ ChanZero (s.dmaStart n) n ∧
    (s.dmaStart n).rdBit F.DMA_ACTIVE_CH n = true ∧ ((s.dmaStart n).dmaChan n).legAddr = s.rd (F.DMA_CHn_ITIN_ADDR n) := by
  have hstate : ((s.chanTaken n).legAwaited n).dmaState n = 1 := dmaState_legAwaited_self _ n
  refine ⟨?_, ?_, ?_, ?_⟩
  · rw [dmaStart_idle h, dmaState_showDma, hstate]
  · rw [dmaStart_idle h]
    exact (chanZero_legAwaited _ _).showDma
  · rw [dmaStart_idle h, active_showDma, hstate]
    rfl
  · rw [dmaChan_of_dma (dma_dmaStart h), State.chanTaken, dmaChan_modDma_self]

theorem dmaStart_others {s : State} {n m : Nat} (h : s.dmaState n = 0) (hne : m ≠ n) :
    (s.dmaStart n).dmaChan m = s.dmaChan m ∧ (s.dmaStart n).dmaState m = s.dmaState m := by
  refine ⟨(dmaChan_of_dma (dma_dmaStart h) m).trans (dmaChan_modDma_ne s _ hne), ?_⟩
  rw [dmaStart_idle h, dmaState_showDma, dmaState_legAwaited_ne _ hne]
  exact rd_modDma s n _ _

theorem frame_dmaStart (s : State) (n : Nat) : Frame [.regs, .dma] s (s.dmaStart n) := ((Acts.refl [.regs, .dma] s).dmaStart).1

/-! ## ABORT (R395) -/

theorem dmaAbort_idle {s : State} {n : Nat} (h : s.dmaState n = 0) : s.dmaAbort n = s := if_pos h

theorem dmaAbort_busy {s : State} {n : Nat} (h : s.dmaState n ≠ 0) : s.dmaAbort n = s.dmaEnd n 22 := if_neg h

/-- The registers of a channel as an abort leaves it. -/
def State.aborted (s : State) (n : Nat) : State := (s.wr (F.DMA_CHn_STAT_STATE n) 0).sticky (F.DMA_CHn_STAT_ABORTED n)

/-- Without a record to write back, an abort is its status event and its summaries. -/
theorem dmaEnd_unrecorded {s : State} {n : Nat} (h : (s.dmaChan n).wb = false) : s.dmaEnd n 22 =
    ((s.aborted n).modDma n fun x => { irqs := x.irqs + b2n (s.dmaChan n).irq }).showDma n := by
  unfold State.dmaEnd
  simp only [h, Bool.false_eq_true, if_false]
  rfl

theorem aborted_missed (n : Fin 32) : (F.DMA_CHn_STAT_ABORTED n).missedBy (F.DMA_CHn_STAT_STATE n) = true := by
  revert n
  decide

theorem dmaState_aborted (s : State) (n : Fin 32) : (s.aborted n).dmaState n = 0 :=
  (rd_sticky_missedBy _ (aborted_missed n)).trans (rd_wr_plain (f := F.DMA_CHn_STAT_STATE n) s (Nat.two_pow_pos _))

theorem rd_aborted_aborted (s : State) (n : Nat) : (s.aborted n).rd (F.DMA_CHn_STAT_ABORTED n) = 1 :=
  rd_sticky_self _ (F.DMA_CHn_STAT_ABORTED n) rfl (by decide : 22 < 24) rfl

theorem rd_aborted_showDma (s : State) (n : Nat) : (s.showDma n).rd (F.DMA_CHn_STAT_ABORTED n) = s.rd (F.DMA_CHn_STAT_ABORTED n) :=
  (regsBut_showDma s n).2.rd_plain (chanWords_away stat_mem_chanWords)

/-- An abort without a record to write back leaves the channel idle, the bit ABORTED set. -/
theorem dmaEnd_unrecorded_spec {s : State} {n : Fin 32} (h : (s.dmaChan n).wb = false) : (s.dmaEnd n 22).dmaState n = 0 ∧
    (s.dmaEnd n 22).rd (F.DMA_CHn_STAT_ABORTED n) = 1 ∧ (s.dmaEnd n 22).rdBit F.DMA_ACTIVE_CH n = false ∧
    Frame [.regs, .dma] s (s.dmaEnd n 22) := by
  rw [dmaEnd_unrecorded h]
  refine ⟨?_, ?_, ?_, (Acts.refl [.regs, .dma] s).wr.sticky.modDma.showDma.1⟩
  · rw [dmaState_showDma]
    exact (rd_modDma _ _ _ _).trans (dmaState_aborted s n)
  · rw [rd_aborted_showDma, rd_modDma, rd_aborted_aborted]
  · rw [active_showDma]
    exact decide_eq_false (not_not.2 ((rd_modDma _ _ _ _).trans (dmaState_aborted s n)))

/-! ## Burst slots (R391) -/

theorem rd_dmaCredit (s : State) (g : Fld) : s.dmaCredit.rd g = s.rd g :=
  each_induction (motive := fun t => t.rd g = s.rd g) rfl fun t ht n _ => (rd_modDma t n _ g).trans ht

theorem dmaState_dmaCredit (s : State) (n : Nat) : s.dmaCredit.dmaState n = s.dmaState n := rd_dmaCredit s _

theorem dmaReady_dmaCredit (s : State) : s.dmaCredit.dmaReady = s.dmaReady := by
  simp only [State.dmaReady, dmaState_dmaCredit]

theorem dmaReady_eq_nil {s : State} (h : ∀ n : Fin 32, s.dmaState n = 0) : s.dmaReady = [] := by
  refine List.filter_eq_nil_iff.2 fun n hn => ?_
  rw [decide_eq_true_eq, not_not]
  exact h ⟨n, List.mem_range.1 hn⟩

/-- The channel picked is one of those ready. -/
theorem dmaPick_mem {s : State} {ns : List Nat} {n : Nat} (h : s.dmaPick ns = some n) : n ∈ ns := by
  cases ns with
  | nil => cases h
  | cons m ms =>
    cases h
    refine List.foldlRecOn (motive := (· ∈ m :: ms)) ms _ List.mem_cons_self fun b hb k hk => ?_
    split
    · exact List.mem_cons_of_mem _ hk
    · exact hb

theorem dmaSlot_idle {s : State} (h : s.dmaReady = []) : s.dmaSlot = s := by
  have hcredit : s.dmaCredit = s := by
    rw [State.dmaCredit, h]
    rfl
  unfold State.dmaSlot
  simp only [hcredit, h, State.dmaPick]

/-- The credits of a slot taken from the channel it serves. -/
def State.slotCharged (s : State) (n : Nat) : State :=
  s.dmaCredit.modDma n fun c => { c with credit := c.credit - s.dmaReady.foldl (fun t m => t + s.dmaWeight (s.dmaChan m).level) 0 }

theorem dmaSlot_picked {s : State} {n : Nat} (h : s.dmaCredit.dmaPick s.dmaReady = some n) :
    s.dmaSlot = if s.dmaState n = 1 then (s.slotCharged n).legFetch n else (s.slotCharged n).dmaBurst n := by
  have hstate : (s.slotCharged n).dmaState n = s.dmaState n := (rd_modDma _ n _ _).trans (dmaState_dmaCredit s n)
  rw [← hstate]
  unfold State.dmaSlot
  simp only [dmaReady_dmaCredit, h]
  rfl

theorem exec_dmaStart (s : State) (n : Fin 32) : exec (.dmaStart n) s = .next (s.dmaStart n) := rfl

theorem exec_dmaAbort (s : State) (n : Fin 32) : exec (.dmaAbort n) s = .next (s.dmaAbort n) := rfl

theorem exec_dmaBurstSlot (s : State) : exec .dmaBurstSlot s = .next s.dmaSlot := rfl

/-! ## O55 -/

/-- Settles O55: each command by its equation, a block by what is wrong with it, a channel by whether it is busy. -/
theorem updatesAndItineraries : Obligations.UpdatesAndItineraries := by
  unfold Obligations.UpdatesAndItineraries
  refine ⟨fun s => ?opened, fun s m rb => ?block, fun s => ⟨fun hbank => ?unasked, fun hbank => ?verified, fun i hbank hruck hsvn => ?noted,
    fun h => ?unready, fun i hruck hsvn => ?old, fun hrain => ?noWait, fun hrain => ?cancelled, fun f hrain hsince => ?idle, ?confirm, ?expiry⟩,
    fun s n => ?channel, fun s => ?slot⟩
  case opened =>
    refine ⟨fun h => ⟨_, rfl, ?_⟩, fun h => ⟨_, rfl, ?_⟩⟩
    · rw [updOpen_closed ((closed_iff s).2 h)]
      exact ⟨rd_sticky_self s F.UPD_STAT_REFUSED rfl (by decide) rfl, regsBut_sticky s _⟩
    · have hframe : Frame [.regs, .upd] s s.updOpen := (Acts.refl [.regs, .upd] s).updOpen.1
      rw [updOpen_open (mt (closed_iff s).1 h)] at hframe ⊢
      have hupd := upd_deliveryOpen s
      exact ⟨rd_bank_deliveryOpen s, rd_missing_deliveryOpen s, by rw [hupd], by rw [hupd], by rw [hupd], by rw [hupd],
        fun j hj => rd_meas_deliveryOpen s hj, hframe⟩
  case block =>
    refine ⟨rfl, fun hbad => ⟨_, rfl, ?_⟩, fun hlen hcrc => ?_⟩
    · rw [updBlock_bad hbad]
      exact ⟨rd_count_plain s 1, regsBut_wr_plain s _⟩
    have hgood := updBlock_good hlen hcrc s
    refine ⟨fun hnot => ?_, fun hopen hbeyond => ⟨_, rfl, ?_⟩, fun hopen hin hdup => ⟨_, rfl, ?_⟩, fun hopen hin hnew => ⟨?_, _, rfl, ?_⟩⟩
    · rw [exec_updateBlock, hgood, if_neg (mt (takes_iff s m).1 hnot)]
    · rw [hgood, if_pos ((takes_iff s m).2 hopen), if_pos hbeyond]
      exact ⟨rd_count_plain s 1, regsBut_wr_plain s _⟩
    · rw [hgood, if_pos ((takes_iff s m).2 hopen), if_neg (Nat.not_le.2 hin), if_pos (show s.received _ = true from hdup)]
      exact ⟨rd_count_plain s 1, regsBut_wr_plain s _⟩
    · rw [exec_updateBlock, hgood, if_pos ((takes_iff s m).2 hopen), if_neg (Nat.not_le.2 hin),
        if_neg (show ¬s.received _ = true from ne_true_of_eq_false hnew)]
      rfl
    · rw [hgood, if_pos ((takes_iff s m).2 hopen), if_neg (Nat.not_le.2 hin),
        if_neg (show ¬s.received _ = true from ne_true_of_eq_false hnew), if_pos rfl]
      exact ⟨received_takeBlock s _ _, rd_missing_takeBlock s _ _, fun hlast => rd_bank_takeBlock hlast _ _,
        (Acts.refl [.regs, .upd] s).takeBlock.1⟩
  case unasked => rw [exec_verifyDone, if_neg hbank]
  case verified =>
    rw [exec_verifyDone, if_pos hbank]
    refine ⟨fun hok => ⟨_, rfl, ?_⟩, fun hbad => ⟨_, rfl, ?_⟩⟩
    · obtain ⟨hstate, hruck, hcause, hmeas⟩ := installed_spec s.checked
      rw [if_pos hok]
      rw [ruckImage_checked] at hruck hmeas
      exact ⟨hstate, hruck, hcause.trans ((rd_vcause_checked s).trans hok), hmeas⟩
    · obtain ⟨hstate, hruck, hflash, hfail, hcause, hraised⟩ := rejected_spec s.checked
      rw [if_neg hbad]
      exact ⟨hstate, hruck, hflash, hfail, hcause.trans (rd_vcause_checked s), raised_of_checked hraised⟩
  case noted => rw [exec_updateAct, svnGood_some hruck, if_pos (by simp [hbank, hsvn])]
  case unready =>
    rw [exec_updateAct, if_neg]
    intro hact
    obtain ⟨hbank, hsvn⟩ := (Bool.and_eq_true _ _).mp hact
    rcases h with h | h
    · exact h (of_decide_eq_true hbank)
    · exact Bool.false_ne_true ((svnGood_none h).symm.trans hsvn)
  case old => rw [exec_updateAct, svnGood_some hruck, if_neg (by simp [hsvn])]
  case noWait =>
    have hoff : s.on F.UPD_STAT_RAIN = false := (on_eq_false_iff s _).2 hrain
    rw [exec_updateCancel, exec_idleWindow, hoff]
    exact ⟨rfl, rfl⟩
  case cancelled =>
    rw [exec_updateCancel, if_pos ((on_iff s _).2 hrain)]
    exact ⟨_, rfl, (rd_rain_sealAbort _).trans (rd_wrB s F.UPD_STAT_RAIN false rfl rfl)⟩
  case idle =>
    have hpast : s.idlePast = decide (f + 1000 * s.rd F.UPD_CFG_IDLEW ≤ s.clk.frame) := by rw [State.idlePast, hsince]
    rw [exec_idleWindow, (on_iff s _).2 hrain, hpast, Bool.true_and]
    refine ⟨fun hearly => by rw [if_neg (by simpa using hearly)], fun hlate => ⟨_, rfl, ?_⟩⟩
    rw [if_pos (decide_eq_true hlate)]
    by_cases hnone : s.refusals = 0
    · obtain ⟨hcond, haccepted⟩ := actTest_accepts hnone
      exact ⟨hcond, fun h => absurd hnone h, fun _ => haccepted⟩
    · obtain ⟨hcond, hrains⟩ := actTest_refuses hnone
      exact ⟨hcond, fun _ => hrains, fun h => absurd h hnone⟩
  case confirm =>
    refine ⟨fun hnot => ?_, fun hok => ?_, confirmEdge_none, fun hok hreq => ?_, fun hnot hreq => ?_⟩
    · rw [exec_updateConfirm, if_neg (mt (mayConfirm_iff s).1 hnot)]
    · rw [exec_updateConfirm, if_pos ((mayConfirm_iff s).2 hok)]
    · rw [confirmEdge_some hreq, if_pos ((mayConfirm_iff s).2 hok)]
      obtain ⟨hbank, htries, hsvn⟩ := trialEnded_spec s.confTaken
      exact ⟨by rw [upd_trialEnded], by rw [upd_trialEnded]; rfl, hbank, htries, hsvn⟩
    · rw [confirmEdge_some hreq, if_neg (mt (mayConfirm_iff s).1 hnot)]
      rfl
  case expiry =>
    refine ⟨fun hpast => ?_, fun hnot => ?_⟩
    · rw [exec_confirmWindowExpiry, if_pos ((windowPast_iff s).2 hpast)]
    · rw [exec_confirmWindowExpiry, if_neg (mt (windowPast_iff s).1 hnot)]
  case channel =>
    refine ⟨fun hbusy => ⟨?_, ?_⟩, fun hidle => ⟨?_, _, rfl, ?_⟩, fun hbusy hwb => ⟨_, rfl, ?_⟩⟩
    · rw [exec_dmaStart, dmaStart_busy hbusy]
    · rw [exec_dmaAbort, dmaAbort_busy hbusy]
    · rw [exec_dmaAbort, dmaAbort_idle hidle]
    · obtain ⟨hstate, ⟨hcnt, hres, hleg, herr⟩, hactive, haddr⟩ := started_spec hidle
      exact ⟨hstate, hcnt, hres, hleg, herr, hactive, haddr, fun k hk => dmaStart_others hidle fun h => hk (Fin.ext h), frame_dmaStart s n⟩
    · rw [dmaAbort_busy hbusy]
      exact dmaEnd_unrecorded_spec hwb
  case slot =>
    refine ⟨fun hidle => ?_, fun n hpick => ⟨dmaPick_mem hpick, ?_⟩⟩
    · rw [exec_dmaBurstSlot, dmaSlot_idle (dmaReady_eq_nil hidle)]
    · rw [exec_dmaBurstSlot, dmaSlot_picked hpick]
      rfl

end Sys2Proof.Machine
end
